-- ==== Sys2Proof/Word.lean ====
section
/-! DEFINITION. The words of the machine. -/

namespace Sys2Proof

/-- A byte of memory (R10). -/
abbrev Byte := BitVec 8

/-- A 64-bit word: an x register, an f register, an LM word (R20, R28). -/
abbrev Word := BitVec 64

/-- A 32-bit instruction word (R53). -/
abbrev InsnWord := BitVec 32

end Sys2Proof
end

