-- ==== Sys2Proof/Syntax.lean ====
section
/-! DEFINITION. The instructions of the ZV8: one constructor per row of the opcode table.
The first 227 word rows are instruction words (F02, F03); the others are the events by which the device moves without
a word (boundary changes, engines, networks, the host's writes, firmware, power, fabric). -/

namespace Sys2Proof

/-- An x register field (R56). -/
abbrev XReg := BitVec 5
/-- An f register field (R56). -/
abbrev FReg := BitVec 5
/-- A handle field, bits [2:0] (R56). -/
abbrev Handle := BitVec 3
/-- A weight pointer field, bits [2:0] (R56). -/
abbrev WPtr := BitVec 3
/-- A semaphore index (Table 02.3). -/
abbrev SemIx := BitVec 5
/-- An engine number: 0 matrix, 1 vector, 2 copy, 3 network interface (Table 01.5). -/
abbrev Engine := BitVec 2

/-- fmt [26:25] of the F and D rows: 00 and 01 (Table 03.3). -/
inductive FpFmt where
  | s
  | d
  deriving DecidableEq, Repr

/-- The rm field values 000 to 100 and 111 (R86, R96). -/
inductive Rm where
  | rne
  | rtz
  | rdn
  | rup
  | rmm
  | dyn
  deriving DecidableEq, Repr

/-- The .W and .D forms of Table 03.2. -/
inductive Width where
  | w
  | d
  deriving DecidableEq, Repr

/-- The integer side of FCVT: rs2 = 00000 to 00011 (Table 03.3). -/
inductive IntFmt where
  | w
  | wu
  | l
  | lu
  deriving DecidableEq, Repr

/-- The element types of the vector group: funct3 100 to 111 (R64). -/
inductive VType where
  | f32
  | bf
  | i32
  | d
  deriving DecidableEq, Repr

/-- VCMP.EQ, .LT, .LE, .UN (Table 02.6). -/
inductive VCmpOp where
  | eq
  | lt
  | le
  | un
  deriving DecidableEq, Repr

/-- The conversion targets of Table 02.8. -/
inductive CvtTgt where
  | e4
  | e5
  | bf
  | hf
  | f32
  | i8
  | i32
  | d
  deriving DecidableEq, Repr

/-- The MMA formats of Table 02.5. -/
inductive MmaFmt where
  | e4e4
  | e4e5
  | e5e4
  | e5e5
  | i8
  | bf
  | hf
  | d
  deriving DecidableEq, Repr

/-- The scope codes of Table 02.10; code 111 is unassigned. -/
inductive Scope where
  | slot
  | core
  | trellis
  | group
  | die
  | pkg
  | fabric
  deriving DecidableEq, Repr

/-- The instructions and events of the opcode table: first the rows with operand fields, then the rows without, each
part in the table's order. Branch and jump offsets are held without their bit 0, which the formats fix at 0. The
table gives an event no bits; which core, queue or message it concerns stands in the state (State.ev). -/
inductive Instr where
  /-- LUI: Loads a 20-bit upper immediate into rd. (R85) -/
  | lui (rd : XReg) (imm : BitVec 20)
  /-- AUIPC: Adds an upper immediate to pc and writes rd. (R85) -/
  | auipc (rd : XReg) (imm : BitVec 20)
  /-- JAL: Jumps pc-relative and links into rd, trapping with mcause 0 on a misaligned target. (R85) -/
  | jal (rd : XReg) (off : BitVec 20)
  /-- JALR: Jumps register-relative and links into rd. (R85) -/
  | jalr (rd : XReg) (rs1 : XReg) (imm : BitVec 12)
  /-- BEQ: Branches when rs1 equals rs2. (R85) -/
  | beq (rs1 : XReg) (rs2 : XReg) (off : BitVec 12)
  /-- BNE: Branches when rs1 differs from rs2. (R85) -/
  | bne (rs1 : XReg) (rs2 : XReg) (off : BitVec 12)
  /-- BLT: Branches when rs1 is less than rs2, signed. (R85) -/
  | blt (rs1 : XReg) (rs2 : XReg) (off : BitVec 12)
  /-- BGE: Branches when rs1 is at least rs2, signed. (R85) -/
  | bge (rs1 : XReg) (rs2 : XReg) (off : BitVec 12)
  /-- BLTU: Branches when rs1 is less than rs2, unsigned. (R85) -/
  | bltu (rs1 : XReg) (rs2 : XReg) (off : BitVec 12)
  /-- BGEU: Branches when rs1 is at least rs2, unsigned. (R85) -/
  | bgeu (rs1 : XReg) (rs2 : XReg) (off : BitVec 12)
  /-- LB: Loads a sign-extended byte from local LM after the R31 check. (R87) -/
  | lb (rd : XReg) (rs1 : XReg) (imm : BitVec 12)
  /-- LH: Loads a sign-extended halfword from local LM, at any alignment. (R87) -/
  | lh (rd : XReg) (rs1 : XReg) (imm : BitVec 12)
  /-- LW: Loads a sign-extended word from local LM. (R87) -/
  | lw (rd : XReg) (rs1 : XReg) (imm : BitVec 12)
  /-- LD: Loads a doubleword from local LM. (R87) -/
  | ld (rd : XReg) (rs1 : XReg) (imm : BitVec 12)
  /-- LBU: Loads a zero-extended byte from local LM. (R87) -/
  | lbu (rd : XReg) (rs1 : XReg) (imm : BitVec 12)
  /-- LHU: Loads a zero-extended halfword from local LM. (R87) -/
  | lhu (rd : XReg) (rs1 : XReg) (imm : BitVec 12)
  /-- LWU: Loads a zero-extended word from local LM. (R87) -/
  | lwu (rd : XReg) (rs1 : XReg) (imm : BitVec 12)
  /-- SB: Stores a byte to local LM after the R31 check. (R87) -/
  | sb (rs2 : XReg) (rs1 : XReg) (imm : BitVec 12)
  /-- SH: Stores a halfword to local LM. (R87) -/
  | sh (rs2 : XReg) (rs1 : XReg) (imm : BitVec 12)
  /-- SW: Stores a word to local LM. (R87) -/
  | sw (rs2 : XReg) (rs1 : XReg) (imm : BitVec 12)
  /-- SD: Stores a doubleword to local LM. (R87) -/
  | sd (rs2 : XReg) (rs1 : XReg) (imm : BitVec 12)
  /-- ADDI: Adds a sign-extended immediate. (R85) -/
  | addi (rd : XReg) (rs1 : XReg) (imm : BitVec 12)
  /-- SLTI: Sets rd when rs1 is less than the immediate, signed. (R85) -/
  | slti (rd : XReg) (rs1 : XReg) (imm : BitVec 12)
  /-- SLTIU: Sets rd when rs1 is less than the immediate, unsigned. (R85) -/
  | sltiu (rd : XReg) (rs1 : XReg) (imm : BitVec 12)
  /-- XORI: XORs an immediate. (R85) -/
  | xori (rd : XReg) (rs1 : XReg) (imm : BitVec 12)
  /-- ORI: ORs an immediate. (R85) -/
  | ori (rd : XReg) (rs1 : XReg) (imm : BitVec 12)
  /-- ANDI: ANDs an immediate. (R85) -/
  | andi (rd : XReg) (rs1 : XReg) (imm : BitVec 12)
  /-- SLLI: Shifts left logically by an immediate. (R85) -/
  | slli (rd : XReg) (rs1 : XReg) (sh : BitVec 6)
  /-- SRLI: Shifts right logically by an immediate. (R85) -/
  | srli (rd : XReg) (rs1 : XReg) (sh : BitVec 6)
  /-- SRAI: Shifts right arithmetically by an immediate. (R85) -/
  | srai (rd : XReg) (rs1 : XReg) (sh : BitVec 6)
  /-- ADD: Adds two registers. (R85) -/
  | add (rd : XReg) (rs1 : XReg) (rs2 : XReg)
  /-- SLL: Shifts left logically. (R85) -/
  | sll (rd : XReg) (rs1 : XReg) (rs2 : XReg)
  /-- SLT: Sets rd on signed less-than. (R85) -/
  | slt (rd : XReg) (rs1 : XReg) (rs2 : XReg)
  /-- SLTU: Sets rd on unsigned less-than. (R85) -/
  | sltu (rd : XReg) (rs1 : XReg) (rs2 : XReg)
  /-- XOR: Bitwise XOR. (R85) -/
  | xor (rd : XReg) (rs1 : XReg) (rs2 : XReg)
  /-- SRL: Shifts right logically. (R85) -/
  | srl (rd : XReg) (rs1 : XReg) (rs2 : XReg)
  /-- OR: Bitwise OR. (R85) -/
  | or (rd : XReg) (rs1 : XReg) (rs2 : XReg)
  /-- AND: Bitwise AND. (R85) -/
  | and (rd : XReg) (rs1 : XReg) (rs2 : XReg)
  /-- SUB: Subtracts two registers. (R85) -/
  | sub (rd : XReg) (rs1 : XReg) (rs2 : XReg)
  /-- SRA: Shifts right arithmetically. (R85) -/
  | sra (rd : XReg) (rs1 : XReg) (rs2 : XReg)
  /-- ADDIW: Adds an immediate in 32 bits and sign-extends. (R85) -/
  | addiw (rd : XReg) (rs1 : XReg) (imm : BitVec 12)
  /-- SLLIW: Shifts a word left logically by an immediate. (R85) -/
  | slliw (rd : XReg) (rs1 : XReg) (sh : BitVec 5)
  /-- SRLIW: Shifts a word right logically by an immediate. (R85) -/
  | srliw (rd : XReg) (rs1 : XReg) (sh : BitVec 5)
  /-- SRAIW: Shifts a word right arithmetically by an immediate. (R85) -/
  | sraiw (rd : XReg) (rs1 : XReg) (sh : BitVec 5)
  /-- ADDW: Adds in 32 bits and sign-extends. (R85) -/
  | addw (rd : XReg) (rs1 : XReg) (rs2 : XReg)
  /-- SLLW: Shifts a word left logically. (R85) -/
  | sllw (rd : XReg) (rs1 : XReg) (rs2 : XReg)
  /-- SRLW: Shifts a word right logically. (R85) -/
  | srlw (rd : XReg) (rs1 : XReg) (rs2 : XReg)
  /-- SUBW: Subtracts in 32 bits and sign-extends. (R85) -/
  | subw (rd : XReg) (rs1 : XReg) (rs2 : XReg)
  /-- SRAW: Shifts a word right arithmetically. (R85) -/
  | sraw (rd : XReg) (rs1 : XReg) (rs2 : XReg)
  /-- FENCE: With non-zero pred and succ acts as FENCES.CORE; otherwise has no effect. (R93) -/
  | fence (fm : BitVec 4) (pred : BitVec 4) (succ : BitVec 4) (rs1 : XReg) (rd : XReg)
  /-- FENCE_I: Waits for observed copies to finish writing, then invalidates the trellis instruction cache and I-TLB. (R94) -/
  | fenceI (imm : BitVec 12) (rs1 : XReg) (rd : XReg)
  /-- CSRRW: Atomically swaps a CSR with rs1. (R98) -/
  | csrrw (rd : XReg) (rs1 : XReg) (csr : BitVec 12)
  /-- CSRRS: Reads a CSR and sets the bits given in rs1. (R98) -/
  | csrrs (rd : XReg) (rs1 : XReg) (csr : BitVec 12)
  /-- CSRRC: Reads a CSR and clears the bits given in rs1. (R98) -/
  | csrrc (rd : XReg) (rs1 : XReg) (csr : BitVec 12)
  /-- CSRRWI: Swaps a CSR with a 5-bit immediate. (R98) -/
  | csrrwi (rd : XReg) (u : BitVec 5) (csr : BitVec 12)
  /-- CSRRSI: Reads a CSR and sets bits from an immediate. (R98) -/
  | csrrsi (rd : XReg) (u : BitVec 5) (csr : BitVec 12)
  /-- CSRRCI: Reads a CSR and clears bits from an immediate. (R98) -/
  | csrrci (rd : XReg) (u : BitVec 5) (csr : BitVec 12)
  /-- MUL: Multiplies, keeping the low 64 bits. (R85) -/
  | mul (rd : XReg) (rs1 : XReg) (rs2 : XReg)
  /-- MULH: Multiplies signed by signed, keeping the high 64 bits. (R85) -/
  | mulh (rd : XReg) (rs1 : XReg) (rs2 : XReg)
  /-- MULHSU: Multiplies signed by unsigned, keeping the high 64 bits. (R85) -/
  | mulhsu (rd : XReg) (rs1 : XReg) (rs2 : XReg)
  /-- MULHU: Multiplies unsigned by unsigned, keeping the high 64 bits. (R85) -/
  | mulhu (rd : XReg) (rs1 : XReg) (rs2 : XReg)
  /-- DIV: Divides signed, taking 3 rotations. (R95) -/
  | div (rd : XReg) (rs1 : XReg) (rs2 : XReg)
  /-- DIVU: Divides unsigned, taking 3 rotations. (R95) -/
  | divu (rd : XReg) (rs1 : XReg) (rs2 : XReg)
  /-- REM: Signed remainder, taking 3 rotations. (R95) -/
  | rem (rd : XReg) (rs1 : XReg) (rs2 : XReg)
  /-- REMU: Unsigned remainder, taking 3 rotations. (R95) -/
  | remu (rd : XReg) (rs1 : XReg) (rs2 : XReg)
  /-- MULW: Multiplies in 32 bits and sign-extends. (R85) -/
  | mulw (rd : XReg) (rs1 : XReg) (rs2 : XReg)
  /-- DIVW: Signed word division, taking 2 rotations. (R95) -/
  | divw (rd : XReg) (rs1 : XReg) (rs2 : XReg)
  /-- DIVUW: Unsigned word division, taking 2 rotations. (R95) -/
  | divuw (rd : XReg) (rs1 : XReg) (rs2 : XReg)
  /-- REMW: Signed word remainder, taking 2 rotations. (R95) -/
  | remw (rd : XReg) (rs1 : XReg) (rs2 : XReg)
  /-- REMUW: Unsigned word remainder, taking 2 rotations. (R95) -/
  | remuw (rd : XReg) (rs1 : XReg) (rs2 : XReg)
  /-- LR: Loads a word or doubleword from local LM and sets the slot's reservation; a misaligned LR traps with mcause 4. (R91) -/
  | lr (aq : Bool) (rl : Bool) (wd : Width) (rd : XReg) (rs1 : XReg)
  /-- SC: Stores only if the reservation still stands and writes 0 or 1 to rd. (R91) -/
  | sc (aq : Bool) (rl : Bool) (wd : Width) (rd : XReg) (rs2 : XReg) (rs1 : XReg)
  /-- AMOSWAP: Atomically swaps a local LM word. (R90) -/
  | amoswap (aq : Bool) (rl : Bool) (wd : Width) (rd : XReg) (rs2 : XReg) (rs1 : XReg)
  /-- AMOADD: Atomically adds to a local LM word. (R90) -/
  | amoadd (aq : Bool) (rl : Bool) (wd : Width) (rd : XReg) (rs2 : XReg) (rs1 : XReg)
  /-- AMOXOR: Atomically XORs a local LM word. (R90) -/
  | amoxor (aq : Bool) (rl : Bool) (wd : Width) (rd : XReg) (rs2 : XReg) (rs1 : XReg)
  /-- AMOAND: Atomically ANDs a local LM word. (R90) -/
  | amoand (aq : Bool) (rl : Bool) (wd : Width) (rd : XReg) (rs2 : XReg) (rs1 : XReg)
  /-- AMOOR: Atomically ORs a local LM word. (R90) -/
  | amoor (aq : Bool) (rl : Bool) (wd : Width) (rd : XReg) (rs2 : XReg) (rs1 : XReg)
  /-- AMOMIN: Atomic signed minimum on a local LM word. (R90) -/
  | amomin (aq : Bool) (rl : Bool) (wd : Width) (rd : XReg) (rs2 : XReg) (rs1 : XReg)
  /-- AMOMAX: Atomic signed maximum on a local LM word. (R90) -/
  | amomax (aq : Bool) (rl : Bool) (wd : Width) (rd : XReg) (rs2 : XReg) (rs1 : XReg)
  /-- AMOMINU: Atomic unsigned minimum on a local LM word. (R90) -/
  | amominu (aq : Bool) (rl : Bool) (wd : Width) (rd : XReg) (rs2 : XReg) (rs1 : XReg)
  /-- AMOMAXU: Atomic unsigned maximum on a local LM word. (R90) -/
  | amomaxu (aq : Bool) (rl : Bool) (wd : Width) (rd : XReg) (rs2 : XReg) (rs1 : XReg)
  /-- FLW: Loads an FP32 value from local LM. (R87) -/
  | flw (rd : FReg) (rs1 : XReg) (imm : BitVec 12)
  /-- FLD: Loads an FP64 value from local LM. (R87) -/
  | fld (rd : FReg) (rs1 : XReg) (imm : BitVec 12)
  /-- FSW: Stores an FP32 value to local LM. (R87) -/
  | fsw (rs2 : FReg) (rs1 : XReg) (imm : BitVec 12)
  /-- FSD: Stores an FP64 value to local LM. (R87) -/
  | fsd (rs2 : FReg) (rs1 : XReg) (imm : BitVec 12)
  /-- FMADD: Fused multiply-add under IEEE 754; flags go to fflags. (R96) -/
  | fmadd (t : FpFmt) (rd : FReg) (rs1 : FReg) (rs2 : FReg) (rs3 : FReg) (rm : Rm)
  /-- FMSUB: Fused multiply-subtract. (R96) -/
  | fmsub (t : FpFmt) (rd : FReg) (rs1 : FReg) (rs2 : FReg) (rs3 : FReg) (rm : Rm)
  /-- FNMSUB: Negated fused multiply-subtract. (R96) -/
  | fnmsub (t : FpFmt) (rd : FReg) (rs1 : FReg) (rs2 : FReg) (rs3 : FReg) (rm : Rm)
  /-- FNMADD: Negated fused multiply-add. (R96) -/
  | fnmadd (t : FpFmt) (rd : FReg) (rs1 : FReg) (rs2 : FReg) (rs3 : FReg) (rm : Rm)
  /-- FADD: Floating-point add. (R96) -/
  | fadd (t : FpFmt) (rd : FReg) (rs1 : FReg) (rs2 : FReg) (rm : Rm)
  /-- FSUB: Floating-point subtract. (R96) -/
  | fsub (t : FpFmt) (rd : FReg) (rs1 : FReg) (rs2 : FReg) (rm : Rm)
  /-- FMUL: Floating-point multiply. (R96) -/
  | fmul (t : FpFmt) (rd : FReg) (rs1 : FReg) (rs2 : FReg) (rm : Rm)
  /-- FDIV: Floating-point divide, taking 2 rotations (S) or 3 rotations (D). (R95) -/
  | fdiv (t : FpFmt) (rd : FReg) (rs1 : FReg) (rs2 : FReg) (rm : Rm)
  /-- FSQRT: Floating-point square root, taking 2 or 3 rotations. (R95) -/
  | fsqrt (t : FpFmt) (rd : FReg) (rs1 : FReg) (rm : Rm)
  /-- FSGNJ: Sign injection. (R85) -/
  | fsgnj (t : FpFmt) (rd : FReg) (rs1 : FReg) (rs2 : FReg)
  /-- FSGNJN: Negated sign injection. (R85) -/
  | fsgnjn (t : FpFmt) (rd : FReg) (rs1 : FReg) (rs2 : FReg)
  /-- FSGNJX: XOR sign injection. (R85) -/
  | fsgnjx (t : FpFmt) (rd : FReg) (rs1 : FReg) (rs2 : FReg)
  /-- FMIN: Floating-point minimum. (R85) -/
  | fmin (t : FpFmt) (rd : FReg) (rs1 : FReg) (rs2 : FReg)
  /-- FMAX: Floating-point maximum. (R85) -/
  | fmax (t : FpFmt) (rd : FReg) (rs1 : FReg) (rs2 : FReg)
  /-- FCVT_S_D: Converts FP64 to FP32. (R96) -/
  | fcvtSD (rd : FReg) (rs1 : FReg) (rm : Rm)
  /-- FCVT_D_S: Converts FP32 to FP64. (R96) -/
  | fcvtDS (rd : FReg) (rs1 : FReg) (rm : Rm)
  /-- FEQ: Floating-point equality compare into an x register. (R85) -/
  | feq (t : FpFmt) (rd : XReg) (rs1 : FReg) (rs2 : FReg)
  /-- FLT: Floating-point less-than compare. (R85) -/
  | flt (t : FpFmt) (rd : XReg) (rs1 : FReg) (rs2 : FReg)
  /-- FLE: Floating-point less-or-equal compare. (R85) -/
  | fle (t : FpFmt) (rd : XReg) (rs1 : FReg) (rs2 : FReg)
  /-- FCLASS: Classifies a floating-point value. (R85) -/
  | fclass (t : FpFmt) (rd : XReg) (rs1 : FReg)
  /-- FCVT_INT_FROM_FP: Converts a floating-point value to W, WU, L or LU. (R96) -/
  | fcvtIntFromFp (t : FpFmt) (v : IntFmt) (rd : XReg) (rs1 : FReg) (rm : Rm)
  /-- FCVT_FP_FROM_INT: Converts W, WU, L or LU to floating point. (R96) -/
  | fcvtFpFromInt (t : FpFmt) (v : IntFmt) (rd : FReg) (rs1 : XReg) (rm : Rm)
  /-- FMV_X_FMT: Moves floating-point bits to an x register. (R85) -/
  | fmvXFmt (t : FpFmt) (rd : XReg) (rs1 : FReg)
  /-- FMV_FMT_X: Moves x-register bits to an f register. (R85) -/
  | fmvFmtX (t : FpFmt) (rd : FReg) (rs1 : XReg)
  /-- FORK: Reserves the named EMPTY or HALTED slots and starts them as a new bundle at the next rotation boundary. (R103) -/
  | fork (rd : XReg) (rs1 : XReg) (rs2 : XReg)
  /-- JOIN: Waits until every named slot is HALTED or EMPTY. (R104) -/
  | join (rs1 : XReg)
  /-- ENGBIND: Binds engine e to the issuing slot, or traps with mcause 29 if another slot holds it. (R107) -/
  | engbind (e : Engine)
  /-- ENGFREE: Frees engine e held by the issuing slot, or traps with mcause 29. (R107) -/
  | engfree (e : Engine)
  /-- SEMPOST: Adds n to semaphore sN, saturating, and enables its waiters. (R108) -/
  | sempost (n : SemIx) (rs1 : XReg)
  /-- SEMWAIT: Waits until sN ≥ n, then subtracts n. (R108) -/
  | semwait (n : SemIx) (rs1 : XReg)
  /-- SEMTRY: Subtracts n from sN if possible, without waiting, and reports the outcome in rd. (R108) -/
  | semtry (rd : XReg) (n : SemIx) (rs1 : XReg)
  /-- RINGSET: Validates a 32-byte image and writes or clears a ring descriptor, enabling the ring's parked slots. (R111) -/
  | ringset (rs1 : XReg) (rs2 : XReg)
  /-- RINGGET: Writes a ring descriptor as a consistent 32-byte image to LM. (R111) -/
  | ringget (rs1 : XReg) (rs2 : XReg)
  /-- HBIND: Sets a handle to a ring index and a role. (R112) -/
  | hbind (h : Handle) (rs1 : XReg) (role : BitVec 2)
  /-- HADVH: Advances the ring head by k, trapping if k exceeds fill. (R113) -/
  | hadvh (h : Handle) (rs1 : XReg)
  /-- HADVT: Advances the ring tail by k, trapping if k exceeds the free space. (R113) -/
  | hadvt (h : Handle) (rs1 : XReg)
  /-- HWAITF: Waits until ring fill ≥ k. (R113) -/
  | hwaitf (h : Handle) (rs1 : XReg)
  /-- HWAITE: Waits until the ring's free space ≥ k. (R113) -/
  | hwaite (h : Handle) (rs1 : XReg)
  /-- HPOP: Waits for a filled slot, reads its first 8 bytes into rd and advances the head. (R114) -/
  | hpop (rd : XReg) (h : Handle)
  /-- HPUSH: Waits for a free slot, writes rs1 into its first 8 bytes and advances the tail; may take mcause 26 on a request port-out ring. (R114) -/
  | hpush (h : Handle) (rs1 : XReg)
  /-- LDF: Waits until an LM word is full, then loads it. (R118) -/
  | ldf (rd : XReg) (rs1 : XReg)
  /-- LDFE: Waits until an LM word is full, loads it and empties it. (R118) -/
  | ldfe (rd : XReg) (rs1 : XReg)
  /-- STF: Stores an LM word and sets it full. (R118) -/
  | stf (rs2 : XReg) (rs1 : XReg)
  /-- STEF: Waits until an LM word is empty, then stores it and sets it full. (R118) -/
  | stef (rs2 : XReg) (rs1 : XReg)
  /-- FESET: Sets the full bits of n words, 1,024 per rotation. (R119) -/
  | feset (rs1 : XReg) (rs2 : XReg)
  /-- FECLR: Clears the full bits of n words, 1,024 per rotation. (R119) -/
  | feclr (rs1 : XReg) (rs2 : XReg)
  /-- FEGET: Reads the full bit of a word into rd. (R119) -/
  | feget (rd : XReg) (rs1 : XReg)
  /-- GBAR: Arrives at a guyline episode and waits for its combined result. (R121) -/
  | gbar (rd : XReg) (rs1 : XReg) (rs2 : XReg)
  /-- GARRIVE: Sends an arrival with a value to the group's episode and sets the pending bit. (R121) -/
  | garrive (rs1 : XReg) (rs2 : XReg)
  /-- GWAIT: Waits until the pending bit clears and reads the chosen operator's result. (R121) -/
  | gwait (rd : XReg) (rs1 : XReg)
  /-- WPUSH: Releases at the ring's scope and pushes a 16-byte entry onto a work ring; traps if the ring is full. (R122) -/
  | wpush (h : Handle) (rs1 : XReg)
  /-- WPOP: Waits for an entry, acquires, and pops it into 16 bytes of LM. (R122) -/
  | wpop (h : Handle) (rs1 : XReg)
  /-- REPF: Captures the len words that follow (the field len holds the number less one) and replays them as an engine frame for cnt passes, with handle and pointer stagger. (R125) -/
  | repf (rs1 : XReg) (len : BitVec 4) (hs : BitVec 3) (ws : BitVec 3)
  /-- ALIGN: Holds the slot for up to n rotations until the trellis cores of the gang meet at this pc. (R127) -/
  | align (n : BitVec 12)
  /-- MCFG: Sets an accumulator's shape, type, kb and completion options; in the engine, clears elements and resets the serial. (R154) -/
  | mcfg (acc : BitVec 1) (rs1 : XReg)
  /-- MZERO: Zeros an accumulator within its shape, in queue order. (R157) -/
  | mzero (acc : BitVec 1)
  /-- MLOAD: Loads M accumulator rows raw from M consumer slots. (R158) -/
  | mload (n : Bool) (acc : BitVec 1) (h : Handle)
  /-- MOUT: Converts and writes M accumulator rows to producer slots, optionally quantised and zeroed. (R161) -/
  | mout (n : Bool) (h : Handle) (acc : BitVec 1) (rs2 : XReg)
  /-- WPSET: Sets a weight pointer in queue order, updating the projection. (R163) -/
  | wpset (w : WPtr) (rs1 : XReg)
  /-- WPGET: Reads the projected weight pointer at the issue turn. (R163) -/
  | wpget (rd : XReg) (w : WPtr)
  /-- MMA: Multiplies scaled A records by a weight tile over kb K-blocks into an accumulator, advancing the head. (R166) -/
  | mma (fmt : MmaFmt) (z : Bool) (s : Bool) (a : Bool) (acc : BitVec 1) (h : Handle) (w : WPtr) (fs : FReg)
  /-- MMA_N: MMA that reads M × kb records without claiming them. (R166) -/
  | mmaN (fmt : MmaFmt) (z : Bool) (s : Bool) (a : Bool) (acc : BitVec 1) (h : Handle) (w : WPtr) (fs : FReg)
  /-- VADD: Elementwise add, rounded RNE. (R177) -/
  | vadd (n : Bool) (t : VType) (hd : Handle) (ha : Handle) (hb : Handle)
  /-- VSUB: Elementwise subtract. (R177) -/
  | vsub (n : Bool) (t : VType) (hd : Handle) (ha : Handle) (hb : Handle)
  /-- VMUL: Elementwise multiply. (R177) -/
  | vmul (n : Bool) (t : VType) (hd : Handle) (ha : Handle) (hb : Handle)
  /-- VFMA: Elementwise fused a×b + vacc, with vacc unchanged. (R177) -/
  | vfma (n : Bool) (t : VType) (hd : Handle) (ha : Handle) (hb : Handle)
  /-- VMAC: Accumulates elementwise products into vacc. (R179) -/
  | vmac (n : Bool) (t : VType) (ha : Handle) (hb : Handle)
  /-- VMIN: Elementwise minimum. (R177) -/
  | vmin (n : Bool) (t : VType) (hd : Handle) (ha : Handle) (hb : Handle)
  /-- VMAX: Elementwise maximum. (R177) -/
  | vmax (n : Bool) (t : VType) (hd : Handle) (ha : Handle) (hb : Handle)
  /-- VABS: Elementwise absolute value. (R177) -/
  | vabs (n : Bool) (t : VType) (hd : Handle) (ha : Handle)
  /-- VNEG: Elementwise negation. (R177) -/
  | vneg (n : Bool) (t : VType) (hd : Handle) (ha : Handle)
  /-- VCMP: Elementwise compare EQ, LT, LE or UN, writing all-ones or all-zeros elements. (R180) -/
  | vcmp (c : VCmpOp) (n : Bool) (t : VType) (hd : Handle) (ha : Handle) (hb : Handle)
  /-- VSEL: Selects ha elements where hb is non-zero, and zero elsewhere. (R181) -/
  | vsel (n : Bool) (t : VType) (hd : Handle) (ha : Handle) (hb : Handle)
  /-- VAND: Bitwise AND of I32 elements. (R178) -/
  | vand (n : Bool) (hd : Handle) (ha : Handle) (hb : Handle)
  /-- VOR: Bitwise OR of I32 elements. (R178) -/
  | vor (n : Bool) (hd : Handle) (ha : Handle) (hb : Handle)
  /-- VXOR: Bitwise XOR of I32 elements. (R178) -/
  | vxor (n : Bool) (hd : Handle) (ha : Handle) (hb : Handle)
  /-- VSHL: Logical left shift of I32 elements. (R178) -/
  | vshl (n : Bool) (hd : Handle) (ha : Handle) (hb : Handle)
  /-- VSHR: Arithmetic right shift of I32 elements. (R178) -/
  | vshr (n : Bool) (hd : Handle) (ha : Handle) (hb : Handle)
  /-- VRCP: Correctly rounded reciprocal. (R182) -/
  | vrcp (n : Bool) (t : VType) (hd : Handle) (ha : Handle)
  /-- VRSQ: Correctly rounded reciprocal square root. (R182) -/
  | vrsq (n : Bool) (t : VType) (hd : Handle) (ha : Handle)
  /-- VEXP2: Lean base-2 exponential. (R182) -/
  | vexp2 (n : Bool) (t : VType) (hd : Handle) (ha : Handle)
  /-- VLOG2: Lean base-2 logarithm. (R182) -/
  | vlog2 (n : Bool) (t : VType) (hd : Handle) (ha : Handle)
  /-- VTANH: Correctly rounded tanh. (R182) -/
  | vtanh (n : Bool) (t : VType) (hd : Handle) (ha : Handle)
  /-- VSIG: Correctly rounded logistic sigmoid. (R182) -/
  | vsig (n : Bool) (t : VType) (hd : Handle) (ha : Handle)
  /-- VEXP2_X: High-accuracy base-2 exponential, F-only. (R182) -/
  | vexp2X (n : Bool) (hd : Handle) (ha : Handle)
  /-- VLOG2_X: High-accuracy base-2 logarithm, F-only. (R182) -/
  | vlog2X (n : Bool) (hd : Handle) (ha : Handle)
  /-- VCVT: Converts elements to a target format by frm or stochastic rounding. (R183) -/
  | vcvt (n : Bool) (sr : Bool) (sat : Bool) (tgt : CvtTgt) (t : VType) (hd : Handle) (ha : Handle)
  /-- VSPLIT3: Splits FP32 elements into hi, mid and lo BF16 slots. (R186) -/
  | vsplit3 (n : Bool) (hd : Handle) (ha : Handle)
  /-- VQNT: Quantises up to 128 elements into one scaled slot record. (R185) -/
  | vqnt (n : Bool) (sr : Bool) (sat : Bool) (tgt : CvtTgt) (t : VType) (hd : Handle) (ha : Handle)
  /-- VREDS: Sums n elements in a fixed lane-and-tree order. (R187) -/
  | vreds (n : Bool) (t : VType) (hd : Handle) (ha : Handle)
  /-- VREDM: Takes the maximum of n elements in a fixed order. (R187) -/
  | vredm (n : Bool) (t : VType) (hd : Handle) (ha : Handle)
  /-- VGATH: Gathers elements by index, with NV for an out-of-range index. (R188) -/
  | vgath (n : Bool) (t : VType) (hd : Handle) (ha : Handle) (hb : Handle)
  /-- VSCAT: Scatters elements by index into a zeroed slot. (R188) -/
  | vscat (n : Bool) (t : VType) (hd : Handle) (ha : Handle) (hb : Handle)
  /-- VPERM: Permutes elements by index modulo n. (R188) -/
  | vperm (n : Bool) (t : VType) (hd : Handle) (ha : Handle) (hb : Handle)
  /-- VACCGET: Writes vacc as 256 bytes to a producer slot. (R189) -/
  | vaccget (n : Bool) (hd : Handle)
  /-- VACCSET: Loads vacc from 256 bytes of a consumer slot. (R189) -/
  | vaccset (n : Bool) (ha : Handle)
  /-- RLD: Sends a remote load request and drops the slot until the reply. (R197) -/
  | rld (rd : XReg) (rs1 : XReg)
  /-- RLDF: Sends a remote load that waits at the home until the word is full. (R197) -/
  | rldf (rd : XReg) (rs1 : XReg)
  /-- RST: Sends a remote store counted in batch bt. (R198) -/
  | rst (rs2 : XReg) (rs1 : XReg) (bt : BitVec 2)
  /-- RSTF: Sends a remote store that also sets the word full. (R198) -/
  | rstf (rs2 : XReg) (rs1 : XReg) (bt : BitVec 2)
  /-- RSTREL: A release store, kept at the network interface until earlier stores within the scope have been acknowledged. (R203) -/
  | rstrel (sc : Scope) (rs2 : XReg) (rs1 : XReg) (bt : BitVec 2)
  /-- TWAIT: Waits until a token is LANDED, EXPIRED or stale. (R212) -/
  | twait (rs1 : XReg)
  /-- TFREE: Frees a landed or expired token's entry, or marks a pending one free-on-landing. (R212) -/
  | tfree (rs1 : XReg)
  /-- FENCES: Holds the slot until every earlier store and copy to a destination within the scope has been acknowledged. (R203) -/
  | fences (sc : Scope)
  /-- RAMO_ADD: Remote atomic add returning the old value. (R205) -/
  | ramoAdd (rd : XReg) (rs2 : XReg) (rs1 : XReg)
  /-- RAMO_FADD: Remote atomic add on two FP32 lanes, rounded RNE. (R205) -/
  | ramoFadd (rd : XReg) (rs2 : XReg) (rs1 : XReg)
  /-- RAMO_MIN: Remote atomic signed minimum. (R205) -/
  | ramoMin (rd : XReg) (rs2 : XReg) (rs1 : XReg)
  /-- RAMO_MAX: Remote atomic signed maximum. (R205) -/
  | ramoMax (rd : XReg) (rs2 : XReg) (rs1 : XReg)
  /-- RAMO_SWAP: Remote atomic swap. (R205) -/
  | ramoSwap (rd : XReg) (rs2 : XReg) (rs1 : XReg)
  /-- RAMO_CAS: Remote atomic compare-and-swap. (R205) -/
  | ramoCas (rd : XReg) (rs2 : XReg) (rs1 : XReg) (rs3 : XReg)
  /-- TST: Allocates a token entry and sends a store with a landing acknowledgement. (R209) -/
  | tst (rd : XReg) (rs2 : XReg) (rs1 : XReg)
  /-- DST: Sends a store ordered after a token's store: held at the destination, kept at the source, or discarded. (R210) -/
  | dst (rs2 : XReg) (rs1 : XReg) (rs3 : XReg)
  /-- DTST: A DST that also allocates a new token for its own store. (R210) -/
  | dtst (rd : XReg) (rs2 : XReg) (rs1 : XReg) (rs3 : XReg)
  /-- WENQ: Sends the head slot of a consumer ring to a remote LM ring or HBM queue. (R214) -/
  | wenq (n : Bool) (h : Handle) (rs1 : XReg) (bt : BitVec 2)
  /-- BCLOSE: Closes a batch, sends close requests, waits for summaries and acknowledgements, and traps on errors. (R200) -/
  | bclose (rd : XReg) (bt : BitVec 2)
  /-- COPY: Queues an asynchronous tensor copy between two layout entries on the copy engine. (R218) -/
  | copy (n : Bool) (rd : XReg) (rs1 : XReg) (h : Handle)
  /-- COPYMC: Queues a copy multicast to every member of a group. (R218) -/
  | copymc (n : Bool) (rd : XReg) (rs1 : XReg) (h : Handle)
  /-- LTSET: Loads a layout-table entry from a 32-byte image after its checks. (R216) -/
  | ltset (rs1 : XReg) (rs2 : XReg)
  /-- LTGET: Stores a layout-table entry as a 32-byte image. (R216) -/
  | ltget (rs1 : XReg) (rs2 : XReg)
  /-- FITW: Writes fitness and eval count as one step. (R224) -/
  | fitw (rs1 : XReg) (rs2 : XReg)
  /-- FITR: Reads {evalcnt, fitness} into rd. (R224) -/
  | fitr (rd : XReg)
  /-- VNTRANK: Submits a ranking of a population group to the Vintner. (R228) -/
  | vntrank (rd : XReg) (rs1 : XReg)
  /-- VNTSEL: Submits a truncation or tournament selection. (R230) -/
  | vntsel (rd : XReg) (rs1 : XReg) (rs2 : XReg)
  /-- VNTRACK: Submits racking of parent grafts onto children. (R231) -/
  | vntrack (rd : XReg) (rs1 : XReg) (rs2 : XReg)
  /-- VNTLOG: Submits the appending of vintage records. (R235) -/
  | vntlog (rd : XReg) (rs1 : XReg) (rs2 : XReg)
  /-- VNTMIG: Submits the copy of one individual to another package. (R236) -/
  | vntmig (rd : XReg) (rs1 : XReg) (rs2 : XReg)
  /-- MIGR: Asks to move the virtual core to an F-die, holding it as for the migrate trap. (R238) -/
  | migr (rd : XReg) (rs1 : XReg)
  /-- SEGSET: Sets the slot's segment within the launch segment, or traps with mcause 30. (R239) -/
  | segset (rs1 : XReg) (rs2 : XReg)
  /-- SEGGET: Reads {length, offset} of the current segment. (R239) -/
  | segget (rd : XReg)
  /-- CTXSAV: Freezes the engines, writes the engine block and clears mip.PRE. (R240) -/
  | ctxsav (rs1 : XReg)
  /-- CTXRST: Freezes the engines, discards their entries, loads the engine block and unfreezes them. (R241) -/
  | ctxrst (rs1 : XReg)
  /-- SUPPOST: Sends a 32-byte payload of kind 0x80–0xFF to the supervisor mailbox. (R242) -/
  | suppost (rs1 : XReg) (rs2 : XReg)
  /-- ECALL: Traps with cause 8 from U mode or 11 from M mode. (R97) -/
  | ecall
  /-- EBREAK: Traps with cause 3 and mtval holding the pc. (R97) -/
  | ebreak
  /-- MRET: Returns from M mode to the mode in MPP at mepc, restoring MIE. (R245) -/
  | mret
  /-- WFI: Has no effect in M mode; takes the illegal-instruction trap in U mode. (R97) -/
  | wfi
  /-- ILLEGAL_INSTRUCTION_WORD: A fetched word that fails R53, is an unsupported standard word, or is a reserved code in M mode takes mcause 2 with mtval holding the word. (R71) -/
  | illegalInstructionWord
  /-- RESERVED_CODE: A U-mode reserved code puts its bundle into TRAPPED and posts one reserved-code message to the supervisor mailbox. (R72) -/
  | reservedCode
  /-- INTERRUPT_TAKEN: At an instruction boundary the slot takes the highest-precedence pending enabled interrupt (PRE, SMI, STL or SUP). (R248) -/
  | interruptTaken
  /-- ASYNC_FAULT_TAKEN: A pending token-expiry or copy-side segment-limit fault is taken at the slot's turn, lowest mcause first. (R246) -/
  | asyncFaultTaken
  /-- FORK_SLOT_START: At the rotation boundary after a FORK, each reserved slot copies the forker's registers and becomes ISSUING in U mode. (R103) -/
  | forkSlotStart
  /-- HALT: Puts the slot into HALTED; it becomes EMPTY at the next boundary. (R105) -/
  | halt
  /-- HALTED_TO_EMPTY: A HALTED slot becomes EMPTY at the next rotation boundary. (R105) -/
  | haltedToEmpty
  /-- PARK: Waits until an enabled interrupt or an asynchronous fault is pending for the slot. (R106) -/
  | park
  /-- SLOT_UNPARK: After an enabling event, a parked slot returns to ISSUING at the first rotation boundary at or after the event cycle + 4. (R43) -/
  | slotUnpark
  /-- TRAPPED_RELEASE: A TRAPPED slot returns to ISSUING at a rotation boundary when its hold is released. (R43) -/
  | trappedRelease
  /-- GUYLINE_EPISODE_COMPLETION: When every member has arrived, each member receives the eight results and its pending bit clears. (R121) -/
  | guylineEpisodeCompletion
  /-- REPF_FRAME_PRESENT: The sequencer presents the next frame instruction to its engine queue once the previous one has been accepted. (R125) -/
  | repfFramePresent
  /-- WSWAP: Inverts the bank-select bit at the engine's next instruction boundary, without entering the queue. (R163) -/
  | wswap
  /-- WSWAPQ: Enters the queue and inverts the bank-select bit once every earlier matrix instruction has completed. (R163) -/
  | wswapq
  /-- MATRIX_ENGINE_START: The matrix engine starts the next queued instruction once its ring slots are available. (R152) -/
  | matrixEngineStart
  /-- MATRIX_ENGINE_COMPLETE: On completion the engine ORs the flags, writes the completion word and posts the event record, waiting for event-ring room. (R152) -/
  | matrixEngineComplete
  /-- VACCZ: Sets every vacc lane to +0.0. (R189) -/
  | vaccz
  /-- VECTOR_ENGINE_START: The vector engine starts the next queued instruction once its consumer fills and producer space cover its claims. (R175) -/
  | vectorEngineStart
  /-- VECTOR_ENGINE_COMPLETE: The vector engine writes its results, advances the rings and ORs its flags into mflags. (R175) -/
  | vectorEngineComplete
  /-- ENGINE_CONTEXT_SWITCH: On a folded core, an engine saves the outgoing virtual core's context and loads the next one. (R51) -/
  | engineContextSwitch
  /-- REMOTE_LOAD_AT_HOME: The home checks the window and replies with the word, an error, or parks an RLDF in the far-wait table. (R197) -/
  | remoteLoadAtHome
  /-- FAR_WAIT_RELEASE: A full bit set on a word releases the RLDFs waiting on it, in arrival order. (R197) -/
  | farWaitRelease
  /-- RLDF_RETRY_REISSUE: After a retry reply, the source network interface reissues the request 64 cc later. (R197) -/
  | rldfRetryReissue
  /-- REMOTE_LOAD_REPLY: The reply writes rd, or traps with mcause 5 on error bits, and the slot leaves DROPPED. (R197) -/
  | remoteLoadReply
  /-- RSTREL_SEND: A kept release store is sent once its fence condition holds. (R203) -/
  | rstrelSend
  /-- REMOTE_STORE_AT_HOME: The home performs a store in arrival order and acknowledges it as landed or with error bits. (R198) -/
  | remoteStoreAtHome
  /-- SCOPE_MISS_AT_BOUNDARY: A boundary router forwards an out-of-scope release as a plain store and sends a scope-miss report. (R204) -/
  | scopeMissAtBoundary
  /-- SCOPE_MISS_REPORT: The source writes a scope-miss record to its ring, or to the latch with the SMI interrupt. (R204) -/
  | scopeMissReport
  /-- REMOTE_ATOMIC_AT_HOME: The home executes a new atomic and caches its result, or answers a repeat from the cache or as outcome unknown. (R206) -/
  | remoteAtomicAtHome
  /-- REMOTE_ATOMIC_REPLY: The first reply writes rd and fflags, or raises mcause 7 or 28. (R205) -/
  | remoteAtomicReply
  /-- LANDING_ACKNOWLEDGEMENT: A landing acknowledgement makes the entry LANDED and sends release notices to its dependants. (R209) -/
  | landingAcknowledgement
  /-- HELD_STORE_ARRIVAL: A store held on a token enters the destination's hold queue, or is refused when the queue is full. (R211) -/
  | heldStoreArrival
  /-- HOLD_REFUSAL: On a refusal the source keeps the refused request and every later one, and resends them after the token lands. (R211) -/
  | holdRefusal
  /-- RELEASE_NOTICE: The destination performs the stores held on the token, and the requests behind them, in arrival order. (R211) -/
  | releaseNotice
  /-- TOKEN_EXPIRY: A token that has not landed within tokexp cycles expires, notifying dependants and discarding kept stores. (R213) -/
  | tokenExpiry
  /-- EXPIRY_NOTICE: A dependant discards the stores held on the token, records HEX, and performs the requests behind them. (R213) -/
  | expiryNotice
  /-- WENQ_DELIVERY: At the target, the payload is written into a free slot and the tail advances, or WQU or WPF is recorded. (R214) -/
  | wenqDelivery
  /-- BATCH_CLOSE_AT_DESTINATION: The destination answers a close request with one summary of its error bits for that source and batch. (R200) -/
  | batchCloseAtDestination
  /-- BATCH_SUMMARY: A batch summary reply reaches the closing source. (R200) -/
  | batchSummary
  /-- COPY_ENGINE_START: The copy engine takes its coordinate record, checks it, and resolves the WS banks at the copy's start. (R220) -/
  | copyEngineStart
  /-- COPY_COMPLETE: When every write has landed, the copy claims its record and posts its event record. (R220) -/
  | copyComplete
  /-- COPY_FAULT: A copy stops at element p, posts a status record and may raise an asynchronous mcause 30. (R221) -/
  | copyFault
  /-- VINTNER_RANK_PERFORM: The Vintner reads every member's fitness pair and sets the group's current ranking. (R228) -/
  | vintnerRankPerform
  /-- VINTNER_SELECT_PERFORM: The Vintner computes truncation or tournament pairs into the current selection. (R307) -/
  | vintnerSelectPerform
  /-- VINTNER_RACK_PERFORM: Once members are held, the Vintner reads the parents, releases them, racks each child with perturbation, and releases it. (R233) -/
  | vintnerRackPerform
  /-- VINTNER_MEMBER_HELD: A member becomes held once its slots are TRAPPED, EMPTY or HALTED and its engines are frozen. (R232) -/
  | vintnerMemberHeld
  /-- VINTNER_HOLD_TIMEOUT: A member not held within tmo µs is skipped and its pending hold withdrawn. (R232) -/
  | vintnerHoldTimeout
  /-- VINTNER_LOG_PERFORM: The Vintner checks the log room, writes the records, then the tail. (R314) -/
  | vintnerLogPerform
  /-- VINTNER_MIGRATE_PERFORM: The source is held and read, and the destination package holds and racks the destination. (R315) -/
  | vintnerMigratePerform
  /-- VINTNER_COMPLETION: The Vintner writes the result words, then the full status word, then an optional event record. (R227) -/
  | vintnerCompletion
  /-- QSCE: Marks a quiesce point; when a hold is pending, puts the slot into TRAPPED. (R237) -/
  | qsce
  /-- MAILBOX_MESSAGE_WRITE: The network interface writes a 64-byte mailbox message at the ring's tail and raises mip.SUP, waiting while the ring is full. (R243) -/
  | mailboxMessageWrite
  /-- REQUEST_EGRESS_ACCEPT: A message leaves the request egress queue when the first link of its route accepts it with a credit. (R196) -/
  | requestEgressAccept
  /-- PORT_OUT_TAKE: The network interface takes the head message of a port-out ring into egress and advances the ring's head. (R416) -/
  | portOutTake
  /-- PORT_MESSAGE_DELIVERY: The destination writes the message into the matching port-in ring and advances its tail, or discards it. (R416) -/
  | portMessageDelivery
  /-- PORT_MESSAGE_SPILL_RELEASE: A reply or control port message waiting in the spill area is delivered when its ring frees a slot. (R416) -/
  | portMessageSpillRelease
  /-- ABSENT_RETRY_REISSUE: A message retried by an absent virtual core is reissued by its source 64 cc later, in order. (R357) -/
  | absentRetryReissue
  /-- TRELLIS_LINE_SERVE: The trellis serves one requested 64-byte line per cc, broadcasting it to every waiting slot. (R297) -/
  | trellisLineServe
  /-- ICACHE_FILL: A line that missed is filled from HBM through the I-TLB and patched as it arrives. (R297) -/
  | icacheFill
  /-- PAGE_WALK: A walk translates a device virtual address through four levels or takes a translation fault. (R338) -/
  | pageWalk
  /-- LEVELLING_TICK: At every cycle multiple of LVLINT, each levelled work ring ships up to four entries to its least-filled neighbour. (R298) -/
  | levellingTick
  /-- LEVELLING_ENTRY_ARRIVAL: A levelled entry is written at the receiving ring, and that ring's tail advances. (R298) -/
  | levellingEntryArrival
  /-- STALL_REPORT: When the stall clock reaches stallthr, the monitor posts a kind 0x05 message and raises STL. (R300) -/
  | stallReport
  /-- ARBITER_BOUNDARY: At each rotation boundary the die's arbiter runs the pre-emption step and places at most one request by deficit round robin. (R294) -/
  | arbiterBoundary
  /-- LAUNCH_PLACEMENT: A placed LAUNCH reserves cores, multicasts text, copies data, sets the launch state, enters groups and releases the gang. (R288) -/
  | launchPlacement
  /-- GANG_RELEASE_AT_CORE: Each core makes its launch slots ISSUING at its first rotation boundary after the release reaches it. (R288) -/
  | gangReleaseAtCore
  /-- GANG_END: When every slot is EMPTY or HALTED and R269 holds, the gang's completion posts and its cores and groups are freed. (R291) -/
  | gangEnd
  /-- MIGRATION_QUEUE_DISPATCH: At an F-die boundary, each newly free F-core goes to the first queued virtual core it can serve. (R329) -/
  | migrationQueueDispatch
  /-- MIGRATION_HOLD_COMPLETE: Once every slot is TRAPPED, EMPTY or HALTED and the engines are frozen, the move begins. (R328) -/
  | migrationHoldComplete
  /-- MIGRATION_STATE_COPY_DONE: When the state copy ends, migration and redirect entries are written and redirect markers are sent. (R331) -/
  | migrationStateCopyDone
  /-- REDIRECT_MARKER: A redirect marker reaches the old core and is forwarded, releasing later direct messages from its source at the target. (R331) -/
  | redirectMarker
  /-- MIGRATION_RESUME: The moved virtual core's slots leave TRAPPED at the target's boundary, and the migration record is written. (R331) -/
  | migrationResume
  /-- MIGRATION_REDIRECT_FREED: When every marker has been forwarded, the redirect entry is freed and the old position may become free. (R331) -/
  | migrationRedirectFreed
  /-- PREEMPTION_SAVE_END: After the ending HALT and the drain, the network interface writes its block and the virtual core becomes absent. (R356) -/
  | preemptionSaveEnd
  /-- SAVE_COPY_OUT_DONE: The save unit has copied the context, full/empty bits, segment and WS share into the extent, and the core is free. (R356) -/
  | saveCopyOutDone
  /-- RESUMPTION_LOAD_DONE: The extent is loaded, spilled flits are queued and the log is performed; slots become ISSUING or TRAPPED. (R358) -/
  | resumptionLoadDone
  /-- QUIESCE_CUT: Once the set is held and drained, the cut is made and outside requests are answered with retry. (R362) -/
  | quiesceCut
  /-- QUIESCE_POINT_TIMEOUT: Slots still running after tmo are held as for pre-emption. (R362) -/
  | quiescePointTimeout
  /-- CELLAR_IMAGE_WRITTEN: The image is written, or its header alone when the buffer is too small, and the packet completes. (R366) -/
  | cellarImageWritten
  /-- DOORBELL: A doorbell write replaces a queue's tail, making packets ready. (R272) -/
  | doorbell
  /-- QUEUE_ENABLE: Writing en := 1 starts or resumes fetching, posting waiting completions first after a record fault. (R273) -/
  | queueEnable
  /-- QUEUE_DISABLE: Writing en := 0 stops issue, withdraws unplaced LAUNCHes and abandons WAITs. (R273) -/
  | queueDisable
  /-- COMPLETION_HEAD_WRITE: A write of chead frees completion-ring room, so that waiting records post. (R277) -/
  | completionHeadWrite
  /-- GALLOC: A read allocates the lowest free group entry to the function. (R270) -/
  | galloc
  /-- GFREE: A write frees an owned group with no members. (R270) -/
  | gfree
  /-- REGISTER_WRITE: A host write to a BAR register without behaviour of its own updates its field, subject to the en rules. (R270) -/
  | registerWrite
  /-- PACKET_FETCH: The command processor fetches a ready packet and validates it in the order of Table 11.8. (R282) -/
  | packetFetch
  /-- NOP_PACKET: A NOP issues and completes at fetch. (R275) -/
  | nopPacket
  /-- LAUNCH_PACKET: A LAUNCH passes its launch checks and becomes a placement request. (R286) -/
  | launchPacket
  /-- COPY_PACKET: A COPY packet is handed to the command copy unit, which copies in ascending address order. (R278) -/
  | copyPacket
  /-- SIGNAL_PACKET: A SIGNAL stores, adds or stores-and-sets-full at a signal word. (R278) -/
  | signalPacket
  /-- WAIT_ALL: Blocks the queue until every entry compares true in one evaluation. (R281) -/
  | waitAll
  /-- WAIT_ANY: Blocks the queue until at least one entry compares true. (R281) -/
  | waitAny
  /-- WAIT_EVALUATION: A performed write to a named signal triggers a re-evaluation of a WAIT. (R268) -/
  | waitEvaluation
  /-- VINTNER_PACKET: Submits the matching Vintner operation with device-memory blocks. (R278) -/
  | vintnerPacket
  /-- QUIESCE: Brings a gang or the device to a consistent cut and writes a cellar image. (R362) -/
  | quiescePacket
  /-- RESUME: Continues or terminates reserved-code bundles, or releases quiesce holds. (R279) -/
  | resumePacket
  /-- FREEZE: Quiesces, stops the core clocks and writes the image through the scan path. (R365) -/
  | freezePacket
  /-- PACKET_COMPLETION: A completion writes its record at ctail, then updates its signal, waiting while the ring is full. (R277) -/
  | packetCompletion
  /-- REQUEST_RING_DOORBELL: A write of frtail makes firmware requests ready. (R377) -/
  | requestRingDoorbell
  /-- MAP: Writes leaves for a range, binding space-0 pages at once or marking them first-touch. (R379) -/
  | mapRequest
  /-- UNMAP: Invalidates whole leaves, shoots down TLBs, drains translated accesses and frees the pages. (R379) -/
  | unmapRequest
  /-- LOGBASE: Sets a group's vintage-log base. (R313) -/
  | logbaseRequest
  /-- PEERGRANT: Sets the functions allowed to enter this function's address space through peer apertures. (R380) -/
  | peergrantRequest
  /-- RETURN: Moves a virtual core back to a named free L-core. (R336) -/
  | returnRequest
  /-- RESTORE: Verifies and places a cellar image all or nothing, leaving its gangs quiesced. (R369) -/
  | restoreRequest
  /-- ATTEST: Writes a signed 256-byte attestation report. (R385) -/
  | attestRequest
  /-- POWERCAP: Sets the package power limit. (R386) -/
  | powercapRequest
  /-- FUNCTION_LEVEL_RESET: Disables the function's queues, terminates its gangs, frees its groups and clears its mappings. (R374) -/
  | functionLevelReset
  /-- PERST_RELEASE: Bring-up starts: the boot ROM verifies Bamcia, and die 4 and the L-dies self-test. (R383) -/
  | perstRelease
  /-- DIE_SELF_TEST_END: A die that passes sets up and accepts work; one that fails stays down. (R383) -/
  | dieSelfTestEnd
  /-- SERVICE_CLOCK_CHANGE: Once all F-dies are up, the L-dies move to 1.6 GHz at a common boundary and svc becomes 2. (R383) -/
  | serviceClockChange
  /-- POWER_CONTROL_TICK: Every 1 ms the firmware steps every die's clock down or up by 100 MHz to hold power at or below plim. (R386) -/
  | powerControlTick
  /-- JUNCTION_OVER_110C: A junction above 110 °C sends its die to the minimum clock. (R386) -/
  | junctionOver110c
  /-- JUNCTION_OVER_120C: A junction above 120 °C terminates every gang and takes the link down. (R386) -/
  | junctionOver120c
  /-- HOST_READ_FAILURE: A host read with a completion error or a 50 ms timeout counts as a translation fault. (R381) -/
  | hostReadFailure
  /-- CXL_READ_FAILURE: A CXL read returning poison or timing out after 10 ms counts as a translation fault. (R382) -/
  | cxlReadFailure
  /-- UCIE_MODULE_FAIL: A die-to-die module that fails training stays down, and its link runs on the remaining modules. (R320) -/
  | ucieModuleFail
  /-- SAROB_LANE_FAIL: A lane that fails retraining brings its port up at 4 lanes. (R341) -/
  | sarobLaneFail
  /-- SAROB_FLIT_RECEIVE: The link layer accepts an in-order flit, or discards it and sends a NAK on a bad CRC or a sequence gap. (R344) -/
  | sarobFlitReceive
  /-- SAROB_NAK_REPLAY: On a NAK the sender replays from lack + 1. (R344) -/
  | sarobNakReplay
  /-- SAROB_LINK_DOWN: After 16 replays without progress the link is down and retrains. (R344) -/
  | sarobLinkDown
  /-- SAROB_LINK_FAILED: A link not up within 1 ms of retraining is declared failed, and routes fail over. (R344) -/
  | sarobLinkFailed
  /-- ENDPOINT_DELIVERY: The destination endpoint delivers in eseq order, holds early arrivals, acknowledges and discards duplicates. (R345) -/
  | endpointDelivery
  /-- END_TO_END_ACKNOWLEDGEMENT: A cumulative end-to-end acknowledgement frees the source's unacknowledged flits. (R345) -/
  | endToEndAcknowledgement
  /-- RETRANSMISSION_TIMEOUT: A request that expects a reply and gets none within 100 µs is retransmitted. (R345) -/
  | retransmissionTimeout
  /-- NODE_UNREACHABLE: After 8 unacknowledged retransmissions, or with no route, the source answers every message to the node with errors. (R346) -/
  | nodeUnreachable
  /-- SAROB_LINK_UP: A Sarob link that went down comes up again when its retraining succeeds within 1 ms, and traffic resumes on it. (R344) -/
  | sarobLinkUp
  /-- ROUTE_RESTORED: Firmware restores a route to an unreachable node, and that node becomes reachable again. (R346) -/
  | routeRestored
  deriving DecidableEq, Repr

end Sys2Proof
end

