-- ==== Sys2Proof/WellFormed.lean ====
section
/-! DEFINITION. Which terms of Instr an instruction word can spell: the field constraints of F02 that the types of the
operands do not already hold. -/

namespace Sys2Proof

/-- The types VFMA, VMAC, the U-class functions VRCP to VSIG and VQNT are assigned for (Table 02.6). -/
def VType.isF32OrBf : VType → Bool
  | .f32 => true
  | .bf => true
  | .i32 => false
  | .d => false

/-- The element type of a vector source as a conversion target (R66: the target differs from the source type). -/
def CvtTgt.sameAs : CvtTgt → VType → Bool
  | .f32, .f32 => true
  | .bf, .bf => true
  | .i32, .i32 => true
  | .d, .d => true
  | _, _ => false

/-- The targets E4, E5 and I8, the only ones with SAT = 1 and the only ones of VQNT (R66). -/
def CvtTgt.isNarrow : CvtTgt → Bool
  | .e4 => true
  | .e5 => true
  | .i8 => true
  | _ => false

/-- The targets SR = 1 is assigned with (R66). -/
def CvtTgt.takesSr : CvtTgt → Bool
  | .e4 => true
  | .e5 => true
  | .bf => true
  | .hf => true
  | _ => false

/-- The conversion-field conditions of R66 that VCVT and VQNT share. -/
def cvtFieldOk (sr sat : Bool) (tgt : CvtTgt) (t : VType) : Bool :=
  !tgt.sameAs t && (!sat || tgt.isNarrow) && (!sr || (t == .f32 && tgt.takesSr))

/-- MMA.I8 and MMA.D take no scales: their rs3 field is zero (R63). -/
def mmaScalesOk (fmt : MmaFmt) (fs : FReg) : Bool :=
  match fmt with
  | .i8 => fs == 0
  | .d => fs == 0
  | _ => true

/-- COPY and COPYMC name an even pair other than x0, and rs1 differs from rd (R68). -/
def copyRegsOk (rd rs1 : XReg) : Bool :=
  rd.toNat % 2 == 0 && rd != 0 && rs1 != rd

/-- The instruction can be spelled by a word. An event has no word: it is well formed as it stands. VFMA.D has none (DEDUCED, log
entry 105). -/
def Instr.wellFormed : Instr → Bool
  | .repf rs1 _ _ _ => rs1 != 0
  | .mma fmt _ _ _ _ _ _ fs => mmaScalesOk fmt fs
  | .mmaN fmt _ _ _ _ _ _ fs => mmaScalesOk fmt fs
  | .vfma _ t _ _ _ => t.isF32OrBf
  | .vmac _ t _ _ => t.isF32OrBf
  | .vcmp c _ t _ _ _ => !(c == .un && t == .i32)
  | .vrcp _ t _ _ => t.isF32OrBf
  | .vrsq _ t _ _ => t.isF32OrBf
  | .vexp2 _ t _ _ => t.isF32OrBf
  | .vlog2 _ t _ _ => t.isF32OrBf
  | .vtanh _ t _ _ => t.isF32OrBf
  | .vsig _ t _ _ => t.isF32OrBf
  | .vcvt _ sr sat tgt t _ _ => cvtFieldOk sr sat tgt t
  | .vqnt _ sr sat tgt t _ _ => t.isF32OrBf && tgt.isNarrow && cvtFieldOk sr sat tgt t
  | .copy _ rd rs1 _ => copyRegsOk rd rs1
  | .copymc _ rd rs1 _ => copyRegsOk rd rs1
  | _ => true

end Sys2Proof
end

