-- ==== Sys2Proof/Decode.lean ====
section
/-! DEFINITION. Reading an instruction out of a 32-bit word, and writing it back (F02, F03 Tables 03.1 to 03.3). -/

namespace Sys2Proof

/-- The six fields every form of Table 02.1 and of the ratified formats cuts a word into. -/
structure Fields where
  f7  : BitVec 7
  rs2 : BitVec 5
  rs1 : BitVec 5
  f3  : BitVec 3
  rd  : BitVec 5
  op  : BitVec 7
  deriving DecidableEq, Repr

/-- Why a word is no instruction: the first three checks of Table 02.12. -/
inductive DecodeError where
  /-- Check 1: bits [1:0] are not 11 or bits [4:2] are 111 (R53). -/
  | notAWord
  /-- Check 2: a standard major opcode, and no row of Tables 03.1 to 03.3 (R86). -/
  | unsupported
  /-- Check 3: a custom word that is a reserved code (R70). -/
  | reservedCode
  deriving DecidableEq, Repr

/-- The fields of a word. -/
def splitWord (w : InsnWord) : Fields :=
  { f7 := w.extractLsb' 25 7, rs2 := w.extractLsb' 20 5, rs1 := w.extractLsb' 15 5,
    f3 := w.extractLsb' 12 3, rd := w.extractLsb' 7 5, op := w.extractLsb' 0 7 }

/-- The word of the fields. -/
def joinWord (f : Fields) : InsnWord :=
  f.f7 ++ f.rs2 ++ f.rs1 ++ f.f3 ++ f.rd ++ f.op

/-! The immediates of the ratified formats. -/

def Fields.immI (f : Fields) : BitVec 12 := f.f7 ++ f.rs2
def Fields.immS (f : Fields) : BitVec 12 := f.f7 ++ f.rd
def Fields.immU (f : Fields) : BitVec 20 := f.f7 ++ f.rs2 ++ f.rs1 ++ f.f3
/-- imm[12:1] of the B format. -/
def Fields.offB (f : Fields) : BitVec 12 :=
  f.f7.extractLsb' 6 1 ++ f.rd.extractLsb' 0 1 ++ f.f7.extractLsb' 0 6 ++ f.rd.extractLsb' 1 4
/-- imm[20:1] of the J format. -/
def Fields.offJ (f : Fields) : BitVec 20 :=
  f.f7.extractLsb' 6 1 ++ f.rs1 ++ f.f3 ++ f.rs2.extractLsb' 0 1 ++ f.f7.extractLsb' 0 6 ++ f.rs2.extractLsb' 1 4

/-! The operand codes. -/

/-- A handle or weight pointer field: bits [4:3] must be zero (R56). -/
def field3 (r : BitVec 5) : Option (BitVec 3) :=
  if r.extractLsb' 3 2 == 0 then some (r.extractLsb' 0 3) else none

def fmtOf (t : BitVec 2) : Option FpFmt :=
  match t with
  | 0b00#2 => some .s
  | 0b01#2 => some .d
  | _ => none

def FpFmt.code : FpFmt → BitVec 2
  | .s => 0b00
  | .d => 0b01

def rmOf (m : BitVec 3) : Option Rm :=
  match m with
  | 0b000#3 => some .rne
  | 0b001#3 => some .rtz
  | 0b010#3 => some .rdn
  | 0b011#3 => some .rup
  | 0b100#3 => some .rmm
  | 0b111#3 => some .dyn
  | _ => none

def Rm.code : Rm → BitVec 3
  | .rne => 0b000
  | .rtz => 0b001
  | .rdn => 0b010
  | .rup => 0b011
  | .rmm => 0b100
  | .dyn => 0b111

def widthOf (f3 : BitVec 3) : Option Width :=
  match f3 with
  | 0b010#3 => some .w
  | 0b011#3 => some .d
  | _ => none

def Width.code : Width → BitVec 3
  | .w => 0b010
  | .d => 0b011

def intFmtOf (v : BitVec 5) : Option IntFmt :=
  match v with
  | 0#5 => some .w
  | 1#5 => some .wu
  | 2#5 => some .l
  | 3#5 => some .lu
  | _ => none

def IntFmt.code : IntFmt → BitVec 5
  | .w => 0
  | .wu => 1
  | .l => 2
  | .lu => 3

def vtypeOf (f3 : BitVec 3) : Option VType :=
  match f3 with
  | 0b100#3 => some .f32
  | 0b101#3 => some .bf
  | 0b110#3 => some .i32
  | 0b111#3 => some .d
  | _ => none

def VType.code : VType → BitVec 3
  | .f32 => 0b100
  | .bf => 0b101
  | .i32 => 0b110
  | .d => 0b111

def VCmpOp.code : VCmpOp → BitVec 6
  | .eq => 0b010000
  | .lt => 0b010001
  | .le => 0b010010
  | .un => 0b010011

def tgtOf (g : BitVec 3) : CvtTgt :=
  match g with
  | 0b000#3 => .e4
  | 0b001#3 => .e5
  | 0b010#3 => .bf
  | 0b011#3 => .hf
  | 0b100#3 => .f32
  | 0b101#3 => .i8
  | 0b110#3 => .i32
  | _ => .d

def CvtTgt.code : CvtTgt → BitVec 3
  | .e4 => 0b000
  | .e5 => 0b001
  | .bf => 0b010
  | .hf => 0b011
  | .f32 => 0b100
  | .i8 => 0b101
  | .i32 => 0b110
  | .d => 0b111

def mmaFmtOf (g : BitVec 3) : MmaFmt :=
  match g with
  | 0b000#3 => .e4e4
  | 0b001#3 => .e4e5
  | 0b010#3 => .e5e4
  | 0b011#3 => .e5e5
  | 0b100#3 => .i8
  | 0b101#3 => .bf
  | 0b110#3 => .hf
  | _ => .d

def MmaFmt.code : MmaFmt → BitVec 3
  | .e4e4 => 0b000
  | .e4e5 => 0b001
  | .e5e4 => 0b010
  | .e5e5 => 0b011
  | .i8 => 0b100
  | .bf => 0b101
  | .hf => 0b110
  | .d => 0b111

def scopeOf (c : BitVec 3) : Option Scope :=
  match c with
  | 0b000#3 => some .slot
  | 0b001#3 => some .core
  | 0b010#3 => some .trellis
  | 0b011#3 => some .group
  | 0b100#3 => some .die
  | 0b101#3 => some .pkg
  | 0b110#3 => some .fabric
  | _ => none

def Scope.code : Scope → BitVec 3
  | .slot => 0b000
  | .core => 0b001
  | .trellis => 0b010
  | .group => 0b011
  | .die => 0b100
  | .pkg => 0b101
  | .fabric => 0b110

/-! The standard major opcodes (Tables 03.1 to 03.3). -/

def decodeBranch (f : Fields) : Option Instr :=
  match f.f3 with
  | 0b000#3 => some (.beq f.rs1 f.rs2 f.offB)
  | 0b001#3 => some (.bne f.rs1 f.rs2 f.offB)
  | 0b100#3 => some (.blt f.rs1 f.rs2 f.offB)
  | 0b101#3 => some (.bge f.rs1 f.rs2 f.offB)
  | 0b110#3 => some (.bltu f.rs1 f.rs2 f.offB)
  | 0b111#3 => some (.bgeu f.rs1 f.rs2 f.offB)
  | _ => none

def decodeLoad (f : Fields) : Option Instr :=
  match f.f3 with
  | 0b000#3 => some (.lb f.rd f.rs1 f.immI)
  | 0b001#3 => some (.lh f.rd f.rs1 f.immI)
  | 0b010#3 => some (.lw f.rd f.rs1 f.immI)
  | 0b011#3 => some (.ld f.rd f.rs1 f.immI)
  | 0b100#3 => some (.lbu f.rd f.rs1 f.immI)
  | 0b101#3 => some (.lhu f.rd f.rs1 f.immI)
  | 0b110#3 => some (.lwu f.rd f.rs1 f.immI)
  | _ => none

def decodeStore (f : Fields) : Option Instr :=
  match f.f3 with
  | 0b000#3 => some (.sb f.rs2 f.rs1 f.immS)
  | 0b001#3 => some (.sh f.rs2 f.rs1 f.immS)
  | 0b010#3 => some (.sw f.rs2 f.rs1 f.immS)
  | 0b011#3 => some (.sd f.rs2 f.rs1 f.immS)
  | _ => none

def decodeOpImm (f : Fields) : Option Instr :=
  let sh : BitVec 6 := f.f7.extractLsb' 0 1 ++ f.rs2
  let hi : BitVec 6 := f.f7.extractLsb' 1 6
  match f.f3 with
  | 0b000#3 => some (.addi f.rd f.rs1 f.immI)
  | 0b010#3 => some (.slti f.rd f.rs1 f.immI)
  | 0b011#3 => some (.sltiu f.rd f.rs1 f.immI)
  | 0b100#3 => some (.xori f.rd f.rs1 f.immI)
  | 0b110#3 => some (.ori f.rd f.rs1 f.immI)
  | 0b111#3 => some (.andi f.rd f.rs1 f.immI)
  | 0b001#3 => if hi == 0b000000 then some (.slli f.rd f.rs1 sh) else none
  | _ => if hi == 0b000000 then some (.srli f.rd f.rs1 sh)
         else if hi == 0b010000 then some (.srai f.rd f.rs1 sh) else none

def decodeOpImm32 (f : Fields) : Option Instr :=
  match f.f3 with
  | 0b000#3 => some (.addiw f.rd f.rs1 f.immI)
  | 0b001#3 => if f.f7 == 0b0000000 then some (.slliw f.rd f.rs1 f.rs2) else none
  | 0b101#3 => if f.f7 == 0b0000000 then some (.srliw f.rd f.rs1 f.rs2)
               else if f.f7 == 0b0100000 then some (.sraiw f.rd f.rs1 f.rs2) else none
  | _ => none

def decodeOpBase (f : Fields) : Instr :=
  match f.f3 with
  | 0b000#3 => .add f.rd f.rs1 f.rs2
  | 0b001#3 => .sll f.rd f.rs1 f.rs2
  | 0b010#3 => .slt f.rd f.rs1 f.rs2
  | 0b011#3 => .sltu f.rd f.rs1 f.rs2
  | 0b100#3 => .xor f.rd f.rs1 f.rs2
  | 0b101#3 => .srl f.rd f.rs1 f.rs2
  | 0b110#3 => .or f.rd f.rs1 f.rs2
  | _ => .and f.rd f.rs1 f.rs2

def decodeOpMul (f : Fields) : Instr :=
  match f.f3 with
  | 0b000#3 => .mul f.rd f.rs1 f.rs2
  | 0b001#3 => .mulh f.rd f.rs1 f.rs2
  | 0b010#3 => .mulhsu f.rd f.rs1 f.rs2
  | 0b011#3 => .mulhu f.rd f.rs1 f.rs2
  | 0b100#3 => .div f.rd f.rs1 f.rs2
  | 0b101#3 => .divu f.rd f.rs1 f.rs2
  | 0b110#3 => .rem f.rd f.rs1 f.rs2
  | _ => .remu f.rd f.rs1 f.rs2

def decodeOp (f : Fields) : Option Instr :=
  if f.f7 == 0b0000000 then some (decodeOpBase f)
  else if f.f7 == 0b0000001 then some (decodeOpMul f)
  else if f.f7 == 0b0100000 then
    (match f.f3 with
     | 0b000#3 => some (.sub f.rd f.rs1 f.rs2)
     | 0b101#3 => some (.sra f.rd f.rs1 f.rs2)
     | _ => none)
  else none

def decodeOp32 (f : Fields) : Option Instr :=
  if f.f7 == 0b0000000 then
    (match f.f3 with
     | 0b000#3 => some (.addw f.rd f.rs1 f.rs2)
     | 0b001#3 => some (.sllw f.rd f.rs1 f.rs2)
     | 0b101#3 => some (.srlw f.rd f.rs1 f.rs2)
     | _ => none)
  else if f.f7 == 0b0000001 then
    (match f.f3 with
     | 0b000#3 => some (.mulw f.rd f.rs1 f.rs2)
     | 0b100#3 => some (.divw f.rd f.rs1 f.rs2)
     | 0b101#3 => some (.divuw f.rd f.rs1 f.rs2)
     | 0b110#3 => some (.remw f.rd f.rs1 f.rs2)
     | 0b111#3 => some (.remuw f.rd f.rs1 f.rs2)
     | _ => none)
  else if f.f7 == 0b0100000 then
    (match f.f3 with
     | 0b000#3 => some (.subw f.rd f.rs1 f.rs2)
     | 0b101#3 => some (.sraw f.rd f.rs1 f.rs2)
     | _ => none)
  else none

/-- FENCE and FENCE.I ignore their unused fields (R86). -/
def decodeMiscMem (f : Fields) : Option Instr :=
  match f.f3 with
  | 0b000#3 => some (.fence (f.f7.extractLsb' 3 4) (f.f7.extractLsb' 0 3 ++ f.rs2.extractLsb' 4 1)
                 (f.rs2.extractLsb' 0 4) f.rs1 f.rd)
  | 0b001#3 => some (.fenceI f.immI f.rs1 f.rd)
  | _ => none

def decodeSystem (f : Fields) : Option Instr :=
  match f.f3 with
  | 0b000#3 =>
    if f.rs1 == 0 && f.rd == 0 then
      (if f.immI == 0x000 then some .ecall
       else if f.immI == 0x001 then some .ebreak
       else if f.immI == 0x302 then some .mret
       else if f.immI == 0x105 then some .wfi
       else none)
    else none
  | 0b001#3 => some (.csrrw f.rd f.rs1 f.immI)
  | 0b010#3 => some (.csrrs f.rd f.rs1 f.immI)
  | 0b011#3 => some (.csrrc f.rd f.rs1 f.immI)
  | 0b101#3 => some (.csrrwi f.rd f.rs1 f.immI)
  | 0b110#3 => some (.csrrsi f.rd f.rs1 f.immI)
  | 0b111#3 => some (.csrrci f.rd f.rs1 f.immI)
  | _ => none

/-- The A extension: funct5 [31:27], aq [26], rl [25] (Table 03.2). -/
def decodeAmo (f : Fields) : Option Instr :=
  let aq := f.f7.getLsbD 1
  let rl := f.f7.getLsbD 0
  match widthOf f.f3 with
  | none => none
  | some wd =>
    match f.f7.extractLsb' 2 5 with
    | 0b00010#5 => if f.rs2 == 0 then some (.lr aq rl wd f.rd f.rs1) else none
    | 0b00011#5 => some (.sc aq rl wd f.rd f.rs2 f.rs1)
    | 0b00001#5 => some (.amoswap aq rl wd f.rd f.rs2 f.rs1)
    | 0b00000#5 => some (.amoadd aq rl wd f.rd f.rs2 f.rs1)
    | 0b00100#5 => some (.amoxor aq rl wd f.rd f.rs2 f.rs1)
    | 0b01100#5 => some (.amoand aq rl wd f.rd f.rs2 f.rs1)
    | 0b01000#5 => some (.amoor aq rl wd f.rd f.rs2 f.rs1)
    | 0b10000#5 => some (.amomin aq rl wd f.rd f.rs2 f.rs1)
    | 0b10100#5 => some (.amomax aq rl wd f.rd f.rs2 f.rs1)
    | 0b11000#5 => some (.amominu aq rl wd f.rd f.rs2 f.rs1)
    | 0b11100#5 => some (.amomaxu aq rl wd f.rd f.rs2 f.rs1)
    | _ => none

def decodeFpLoad (f : Fields) : Option Instr :=
  match f.f3 with
  | 0b010#3 => some (.flw f.rd f.rs1 f.immI)
  | 0b011#3 => some (.fld f.rd f.rs1 f.immI)
  | _ => none

def decodeFpStore (f : Fields) : Option Instr :=
  match f.f3 with
  | 0b010#3 => some (.fsw f.rs2 f.rs1 f.immS)
  | 0b011#3 => some (.fsd f.rs2 f.rs1 f.immS)
  | _ => none

/-- The R4 rows: rs3 [31:27], fmt [26:25]. -/
def decodeFma (f : Fields) (mk : FpFmt → FReg → FReg → FReg → FReg → Rm → Instr) : Option Instr :=
  match fmtOf (f.f7.extractLsb' 0 2), rmOf f.f3 with
  | some t, some rm => some (mk t f.rd f.rs1 f.rs2 (f.f7.extractLsb' 2 5) rm)
  | _, _ => none

def decodeFpConvert (f : Fields) (t : FpFmt) : Option Instr :=
  match rmOf f.f3 with
  | none => none
  | some rm =>
    match t with
    | .s => if f.rs2 == 1 then some (.fcvtSD f.rd f.rs1 rm) else none
    | .d => if f.rs2 == 0 then some (.fcvtDS f.rd f.rs1 rm) else none

def decodeFp (f : Fields) : Option Instr :=
  match fmtOf (f.f7.extractLsb' 0 2) with
  | none => none
  | some t =>
    match f.f7.extractLsb' 2 5 with
    | 0b00000#5 => (rmOf f.f3).map (.fadd t f.rd f.rs1 f.rs2)
    | 0b00001#5 => (rmOf f.f3).map (.fsub t f.rd f.rs1 f.rs2)
    | 0b00010#5 => (rmOf f.f3).map (.fmul t f.rd f.rs1 f.rs2)
    | 0b00011#5 => (rmOf f.f3).map (.fdiv t f.rd f.rs1 f.rs2)
    | 0b01011#5 => if f.rs2 == 0 then (rmOf f.f3).map (.fsqrt t f.rd f.rs1) else none
    | 0b00100#5 =>
      (match f.f3 with
       | 0b000#3 => some (.fsgnj t f.rd f.rs1 f.rs2)
       | 0b001#3 => some (.fsgnjn t f.rd f.rs1 f.rs2)
       | 0b010#3 => some (.fsgnjx t f.rd f.rs1 f.rs2)
       | _ => none)
    | 0b00101#5 =>
      (match f.f3 with
       | 0b000#3 => some (.fmin t f.rd f.rs1 f.rs2)
       | 0b001#3 => some (.fmax t f.rd f.rs1 f.rs2)
       | _ => none)
    | 0b01000#5 => decodeFpConvert f t
    | 0b10100#5 =>
      (match f.f3 with
       | 0b010#3 => some (.feq t f.rd f.rs1 f.rs2)
       | 0b001#3 => some (.flt t f.rd f.rs1 f.rs2)
       | 0b000#3 => some (.fle t f.rd f.rs1 f.rs2)
       | _ => none)
    | 0b11100#5 =>
      if f.rs2 == 0 then
        (match f.f3 with
         | 0b001#3 => some (.fclass t f.rd f.rs1)
         | 0b000#3 => some (.fmvXFmt t f.rd f.rs1)
         | _ => none)
      else none
    | 0b11000#5 =>
      (match intFmtOf f.rs2 with
       | some v => (rmOf f.f3).map (.fcvtIntFromFp t v f.rd f.rs1)
       | none => none)
    | 0b11010#5 =>
      (match intFmtOf f.rs2 with
       | some v => (rmOf f.f3).map (.fcvtFpFromInt t v f.rd f.rs1)
       | none => none)
    | 0b11110#5 => if f.rs2 == 0 && f.f3 == 0b000 then some (.fmvFmtX t f.rd f.rs1) else none
    | _ => none

/-- The standard space: none is check 2 of Table 02.12. -/
def decodeStd (f : Fields) : Option Instr :=
  match f.op with
  | 0b0110111#7 => some (.lui f.rd f.immU)
  | 0b0010111#7 => some (.auipc f.rd f.immU)
  | 0b1101111#7 => some (.jal f.rd f.offJ)
  | 0b1100111#7 => if f.f3 == 0b000 then some (.jalr f.rd f.rs1 f.immI) else none
  | 0b1100011#7 => decodeBranch f
  | 0b0000011#7 => decodeLoad f
  | 0b0100011#7 => decodeStore f
  | 0b0010011#7 => decodeOpImm f
  | 0b0110011#7 => decodeOp f
  | 0b0011011#7 => decodeOpImm32 f
  | 0b0111011#7 => decodeOp32 f
  | 0b0001111#7 => decodeMiscMem f
  | 0b1110011#7 => decodeSystem f
  | 0b0101111#7 => decodeAmo f
  | 0b0000111#7 => decodeFpLoad f
  | 0b0100111#7 => decodeFpStore f
  | 0b1000011#7 => decodeFma f .fmadd
  | 0b1000111#7 => decodeFma f .fmsub
  | 0b1001011#7 => decodeFma f .fnmsub
  | 0b1001111#7 => decodeFma f .fnmadd
  | 0b1010011#7 => decodeFp f
  | _ => none

/-! The T group (Table 02.3). -/

def decodeThreads (f : Fields) : Option Instr :=
  match f.f7 with
  | 0b0000000#7 => some (.fork f.rd f.rs1 f.rs2)
  | 0b0000001#7 => if f.rd == 0 && f.rs2 == 0 then some (.join f.rs1) else none
  | 0b0000010#7 => if f.rd == 0 && f.rs1 == 0 && f.rs2 == 0 then some .halt else none
  | 0b0000011#7 => if f.rd == 0 && f.rs1 == 0 && f.rs2 == 0 then some .park else none
  | 0b0000100#7 =>
    if f.rd == 0 && f.rs1 == 0 && f.rs2.extractLsb' 2 3 == 0 then some (.engbind (f.rs2.extractLsb' 0 2)) else none
  | 0b0000101#7 =>
    if f.rd == 0 && f.rs1 == 0 && f.rs2.extractLsb' 2 3 == 0 then some (.engfree (f.rs2.extractLsb' 0 2)) else none
  | _ => none

def decodeSemaphore (f : Fields) : Option Instr :=
  match f.f7 with
  | 0b0000000#7 => if f.rd == 0 then some (.sempost f.rs2 f.rs1) else none
  | 0b0000001#7 => if f.rd == 0 then some (.semwait f.rs2 f.rs1) else none
  | 0b0000010#7 => some (.semtry f.rd f.rs2 f.rs1)
  | _ => none

def decodeRingOps (f : Fields) : Option Instr :=
  match f.f7 with
  | 0b0000000#7 => if f.rd == 0 then some (.ringset f.rs1 f.rs2) else none
  | 0b0000001#7 => if f.rd == 0 then some (.ringget f.rs1 f.rs2) else none
  | 0b0000010#7 =>
    if f.rd.extractLsb' 2 3 == 0 then (field3 f.rs2).map (fun h => .hbind h f.rs1 (f.rd.extractLsb' 0 2)) else none
  | 0b0000011#7 => if f.rd == 0 then (field3 f.rs2).map (fun h => .hadvh h f.rs1) else none
  | 0b0000100#7 => if f.rd == 0 then (field3 f.rs2).map (fun h => .hadvt h f.rs1) else none
  | 0b0000101#7 => if f.rd == 0 then (field3 f.rs2).map (fun h => .hwaitf h f.rs1) else none
  | 0b0000110#7 => if f.rd == 0 then (field3 f.rs2).map (fun h => .hwaite h f.rs1) else none
  | 0b0000111#7 => if f.rs1 == 0 then (field3 f.rs2).map (fun h => .hpop f.rd h) else none
  | 0b0001000#7 => if f.rd == 0 then (field3 f.rs2).map (fun h => .hpush h f.rs1) else none
  | _ => none

def decodeFullEmpty (f : Fields) : Option Instr :=
  match f.f7 with
  | 0b0000000#7 => if f.rs2 == 0 then some (.ldf f.rd f.rs1) else none
  | 0b0000001#7 => if f.rs2 == 0 then some (.ldfe f.rd f.rs1) else none
  | 0b0000010#7 => if f.rd == 0 then some (.stf f.rs2 f.rs1) else none
  | 0b0000011#7 => if f.rd == 0 then some (.stef f.rs2 f.rs1) else none
  | 0b0000100#7 => if f.rd == 0 then some (.feset f.rs1 f.rs2) else none
  | 0b0000101#7 => if f.rd == 0 then some (.feclr f.rs1 f.rs2) else none
  | 0b0000110#7 => if f.rs2 == 0 then some (.feget f.rd f.rs1) else none
  | _ => none

def decodeGuyline (f : Fields) : Option Instr :=
  match f.f7 with
  | 0b0000000#7 => some (.gbar f.rd f.rs1 f.rs2)
  | 0b0000001#7 => if f.rd == 0 then some (.garrive f.rs1 f.rs2) else none
  | 0b0000010#7 => if f.rs2 == 0 then some (.gwait f.rd f.rs1) else none
  | 0b0000100#7 => if f.rd == 0 then (field3 f.rs2).map (fun h => .wpush h f.rs1) else none
  | 0b0000101#7 => if f.rd == 0 then (field3 f.rs2).map (fun h => .wpop h f.rs1) else none
  | _ => none

/-- imm[3:0] = len - 1, imm[6:4] = hs, imm[9:7] = ws, imm[11:10] and rd zero (Table 02.3). -/
def decodeRepf (f : Fields) : Option Instr :=
  if f.rd == 0 && f.f7.extractLsb' 5 2 == 0 then
    some (.repf f.rs1 (f.rs2.extractLsb' 0 4) (f.f7.extractLsb' 0 2 ++ f.rs2.extractLsb' 4 1) (f.f7.extractLsb' 2 3))
  else none

def decodeT (f : Fields) : Option Instr :=
  match f.f3 with
  | 0b000#3 => decodeThreads f
  | 0b001#3 => decodeSemaphore f
  | 0b010#3 => decodeRingOps f
  | 0b011#3 => decodeFullEmpty f
  | 0b100#3 => decodeGuyline f
  | 0b101#3 => decodeRepf f
  | 0b110#3 => if f.rd == 0 && f.rs1 == 0 then some (.align f.immI) else none
  | _ => none

/-! The W group (Tables 02.4 to 02.8). -/

/-- An accumulator field: bits [4:1] must be zero (R56). -/
def accField (r : BitVec 5) : Option (BitVec 1) :=
  if r.extractLsb' 1 4 == 0 then some (r.extractLsb' 0 1) else none

def decodeMatrixControl (f : Fields) : Option Instr :=
  let n := f.f7.getLsbD 6
  match f.f7.extractLsb' 0 6 with
  | 0b000000#6 => if !n && f.rs2 == 0 then (accField f.rd).map (fun k => .mcfg k f.rs1) else none
  | 0b000001#6 => if !n && f.rs2 == 0 && f.rs1 == 0 then (accField f.rd).map .mzero else none
  | 0b000010#6 =>
    if f.rs2 == 0 then
      (match accField f.rd, field3 f.rs1 with
       | some k, some h => some (.mload n k h)
       | _, _ => none)
    else none
  | 0b000011#6 =>
    (match field3 f.rd, accField f.rs1 with
     | some h, some k => some (.mout n h k f.rs2)
     | _, _ => none)
  | 0b000100#6 => if !n && f.rs2 == 0 then (field3 f.rd).map (fun w => .wpset w f.rs1) else none
  | 0b000101#6 => if !n && f.rs2 == 0 then (field3 f.rs1).map (fun w => .wpget f.rd w) else none
  | 0b000110#6 => if !n && f.rs2 == 0 && f.rs1 == 0 && f.rd == 0 then some .wswap else none
  | 0b000111#6 => if !n && f.rs2 == 0 && f.rs1 == 0 && f.rd == 0 then some .wswapq else none
  | _ => none

/-- The MMA word of Table 02.5. -/
def decodeMma (f : Fields)
    (mk : MmaFmt → Bool → Bool → Bool → BitVec 1 → Handle → WPtr → FReg → Instr) : Option Instr :=
  match field3 f.rs2, field3 f.rs1 with
  | some w, some h =>
    some (mk (mmaFmtOf (f.rd.extractLsb' 2 3)) (f.rd.getLsbD 1) (f.rd.getLsbD 0) (f.f7.getLsbD 1)
      (f.f7.extractLsb' 0 1) h w (f.f7.extractLsb' 2 5))
  | _, _ => none

/-- Class B of Table 02.7. -/
def vecB (f : Fields) (mk : Bool → VType → Handle → Handle → Handle → Instr) : Option Instr :=
  match vtypeOf f.f3, field3 f.rd, field3 f.rs1, field3 f.rs2 with
  | some t, some d, some a, some b => some (mk (f.f7.getLsbD 6) t d a b)
  | _, _, _, _ => none

/-- Class B of the operations assigned for .I32 alone. -/
def vecBI (f : Fields) (mk : Bool → Handle → Handle → Handle → Instr) : Option Instr :=
  if f.f3 == 0b110 then
    (match field3 f.rd, field3 f.rs1, field3 f.rs2 with
     | some d, some a, some b => some (mk (f.f7.getLsbD 6) d a b)
     | _, _, _ => none)
  else none

/-- Class U. -/
def vecU (f : Fields) (mk : Bool → VType → Handle → Handle → Instr) : Option Instr :=
  if f.rs2 == 0 then
    (match vtypeOf f.f3, field3 f.rd, field3 f.rs1 with
     | some t, some d, some a => some (mk (f.f7.getLsbD 6) t d a)
     | _, _, _ => none)
  else none

/-- Class U of the operations assigned for .F32 alone. -/
def vecUF (f : Fields) (mk : Bool → Handle → Handle → Instr) : Option Instr :=
  if f.rs2 == 0 && f.f3 == 0b100 then
    (match field3 f.rd, field3 f.rs1 with
     | some d, some a => some (mk (f.f7.getLsbD 6) d a)
     | _, _ => none)
  else none

/-- Class C: SR [24], SAT [23], tgt [22:20] (Table 02.8). -/
def vecC (f : Fields) (mk : Bool → Bool → Bool → CvtTgt → VType → Handle → Handle → Instr) : Option Instr :=
  match vtypeOf f.f3, field3 f.rd, field3 f.rs1 with
  | some t, some d, some a =>
    some (mk (f.f7.getLsbD 6) (f.rs2.getLsbD 4) (f.rs2.getLsbD 3) (tgtOf (f.rs2.extractLsb' 0 3)) t d a)
  | _, _, _ => none

def decodeVector (f : Fields) : Option Instr :=
  match f.f7.extractLsb' 0 6 with
  | 0b000000#6 => vecB f .vadd
  | 0b000001#6 => vecB f .vsub
  | 0b000010#6 => vecB f .vmul
  | 0b000011#6 => vecB f .vfma
  | 0b000100#6 =>
    if f.rd == 0 then
      (match vtypeOf f.f3, field3 f.rs1, field3 f.rs2 with
       | some t, some a, some b => some (.vmac (f.f7.getLsbD 6) t a b)
       | _, _, _ => none)
    else none
  | 0b000101#6 => vecB f .vmin
  | 0b000110#6 => vecB f .vmax
  | 0b000111#6 => vecU f .vabs
  | 0b001000#6 => vecU f .vneg
  | 0b010000#6 => vecB f (.vcmp .eq)
  | 0b010001#6 => vecB f (.vcmp .lt)
  | 0b010010#6 => vecB f (.vcmp .le)
  | 0b010011#6 => vecB f (.vcmp .un)
  | 0b010100#6 => vecB f .vsel
  | 0b011000#6 => vecBI f .vand
  | 0b011001#6 => vecBI f .vor
  | 0b011010#6 => vecBI f .vxor
  | 0b011011#6 => vecBI f .vshl
  | 0b011100#6 => vecBI f .vshr
  | 0b100000#6 => vecU f .vrcp
  | 0b100001#6 => vecU f .vrsq
  | 0b100010#6 => vecU f .vexp2
  | 0b100011#6 => vecU f .vlog2
  | 0b100100#6 => vecU f .vtanh
  | 0b100101#6 => vecU f .vsig
  | 0b100110#6 => vecUF f .vexp2X
  | 0b100111#6 => vecUF f .vlog2X
  | 0b101000#6 => vecC f .vcvt
  | 0b101001#6 => vecUF f .vsplit3
  | 0b101010#6 => vecC f .vqnt
  | 0b110000#6 => vecU f .vreds
  | 0b110001#6 => vecU f .vredm
  | 0b110100#6 => vecB f .vgath
  | 0b110101#6 => vecB f .vscat
  | 0b110110#6 => vecB f .vperm
  | 0b111000#6 =>
    if f.rs1 == 0 && f.rs2 == 0 && f.f3 == 0b100 then (field3 f.rd).map (.vaccget (f.f7.getLsbD 6)) else none
  | 0b111001#6 =>
    if f.rd == 0 && f.rs2 == 0 && f.f3 == 0b100 then (field3 f.rs1).map (.vaccset (f.f7.getLsbD 6)) else none
  | 0b111010#6 =>
    if !f.f7.getLsbD 6 && f.rd == 0 && f.rs1 == 0 && f.rs2 == 0 && f.f3 == 0b100 then some .vaccz else none
  | _ => none

def decodeW (f : Fields) : Option Instr :=
  match f.f3 with
  | 0b000#3 => decodeMatrixControl f
  | 0b001#3 => decodeMma f .mma
  | 0b010#3 => decodeMma f .mmaN
  | 0b011#3 => none
  | _ => decodeVector f

/-! The A group (Table 02.9). -/

/-- The batch tag rd[8:7], with rd[11:9] must-be-zero (R67). -/
def batchField (rd : BitVec 5) : Option (BitVec 2) :=
  if rd.extractLsb' 2 3 == 0 then some (rd.extractLsb' 0 2) else none

def decodeRemote (f : Fields) : Option Instr :=
  match f.f7.extractLsb' 3 4 with
  | 0b0000#4 =>
    (match f.f7.extractLsb' 0 3 with
     | 0b000#3 => if f.rs2 == 0 then some (.rld f.rd f.rs1) else none
     | 0b001#3 => if f.rs2 == 0 then some (.rldf f.rd f.rs1) else none
     | 0b010#3 => (batchField f.rd).map (.rst f.rs2 f.rs1)
     | 0b011#3 => (batchField f.rd).map (.rstf f.rs2 f.rs1)
     | _ => none)
  | 0b0001#4 =>
    (match scopeOf (f.f7.extractLsb' 0 3) with
     | some sc => (batchField f.rd).map (.rstrel sc f.rs2 f.rs1)
     | none => none)
  | 0b0010#4 =>
    (match f.f7.extractLsb' 0 3 with
     | 0b000#3 => if f.rd == 0 && f.rs2 == 0 then some (.twait f.rs1) else none
     | 0b001#3 => if f.rd == 0 && f.rs2 == 0 then some (.tfree f.rs1) else none
     | _ => none)
  | 0b0011#4 =>
    if f.rd == 0 && f.rs1 == 0 && f.rs2 == 0 then (scopeOf (f.f7.extractLsb' 0 3)).map .fences else none
  | _ => none

def decodeRamo1 (f : Fields) : Option Instr :=
  if f.f7.extractLsb' 2 5 == 0 then
    (match f.f7.extractLsb' 0 2 with
     | 0b00#2 => some (.ramoAdd f.rd f.rs2 f.rs1)
     | 0b01#2 => some (.ramoFadd f.rd f.rs2 f.rs1)
     | 0b10#2 => some (.ramoMin f.rd f.rs2 f.rs1)
     | _ => some (.ramoMax f.rd f.rs2 f.rs1))
  else none

def decodeRamo2 (f : Fields) : Option Instr :=
  match f.f7.extractLsb' 0 2 with
  | 0b00#2 => if f.f7.extractLsb' 2 5 == 0 then some (.ramoSwap f.rd f.rs2 f.rs1) else none
  | 0b01#2 => some (.ramoCas f.rd f.rs2 f.rs1 (f.f7.extractLsb' 2 5))
  | _ => none

def decodeTokened (f : Fields) : Option Instr :=
  match f.f7.extractLsb' 0 2 with
  | 0b00#2 => if f.f7.extractLsb' 2 5 == 0 then some (.tst f.rd f.rs2 f.rs1) else none
  | 0b01#2 => if f.rd == 0 then some (.dst f.rs2 f.rs1 (f.f7.extractLsb' 2 5)) else none
  | 0b10#2 => some (.dtst f.rd f.rs2 f.rs1 (f.f7.extractLsb' 2 5))
  | _ => none

def decodeQueues (f : Fields) : Option Instr :=
  let n := f.f7.getLsbD 6
  match f.f7.extractLsb' 0 6 with
  | 0b000000#6 =>
    (match field3 f.rs2, batchField f.rd with
     | some h, some bt => some (.wenq n h f.rs1 bt)
     | _, _ => none)
  | 0b000001#6 =>
    if !n && f.rs1 == 0 && f.rs2.extractLsb' 2 3 == 0 then some (.bclose f.rd (f.rs2.extractLsb' 0 2)) else none
  | 0b000010#6 => (field3 f.rs2).map (fun h => .copy n f.rd f.rs1 h)
  | 0b000011#6 => (field3 f.rs2).map (fun h => .copymc n f.rd f.rs1 h)
  | 0b000100#6 => if !n && f.rd == 0 then some (.ltset f.rs1 f.rs2) else none
  | 0b000101#6 => if !n && f.rd == 0 then some (.ltget f.rs1 f.rs2) else none
  | _ => none

def decodeA (f : Fields) : Option Instr :=
  match f.f3 with
  | 0b000#3 => decodeRemote f
  | 0b001#3 => decodeRamo1 f
  | 0b010#3 => decodeRamo2 f
  | 0b011#3 => decodeTokened f
  | 0b100#3 => decodeQueues f
  | _ => none

/-! The S group (Table 02.11). -/

def decodeSystemPopulation (f : Fields) : Option Instr :=
  match f.f7 with
  | 0b0000000#7 => if f.rd == 0 then some (.fitw f.rs1 f.rs2) else none
  | 0b0000001#7 => if f.rs1 == 0 && f.rs2 == 0 then some (.fitr f.rd) else none
  | 0b0000100#7 => if f.rs2 == 0 then some (.vntrank f.rd f.rs1) else none
  | 0b0000101#7 => some (.vntsel f.rd f.rs1 f.rs2)
  | 0b0000110#7 => some (.vntrack f.rd f.rs1 f.rs2)
  | 0b0000111#7 => some (.vntlog f.rd f.rs1 f.rs2)
  | 0b0001000#7 => some (.vntmig f.rd f.rs1 f.rs2)
  | 0b0010000#7 => if f.rs2 == 0 then some (.migr f.rd f.rs1) else none
  | 0b0011000#7 => if f.rd == 0 then some (.segset f.rs1 f.rs2) else none
  | 0b0011001#7 => if f.rs1 == 0 && f.rs2 == 0 then some (.segget f.rd) else none
  | 0b0100000#7 => if f.rd == 0 && f.rs2 == 0 then some (.ctxsav f.rs1) else none
  | 0b0100001#7 => if f.rd == 0 && f.rs2 == 0 then some (.ctxrst f.rs1) else none
  | 0b0101000#7 => if f.rd == 0 then some (.suppost f.rs1 f.rs2) else none
  | 0b0110000#7 => if f.rd == 0 && f.rs1 == 0 && f.rs2 == 0 then some .qsce else none
  | _ => none

def decodeS (f : Fields) : Option Instr :=
  if f.f3 == 0b000 then decodeSystemPopulation f else none

/-! A whole word. -/

/-- The answer of a standard row. -/
def standardFate : Option Instr → Except DecodeError Instr
  | some i => .ok i
  | none => .error .unsupported

/-- The answer of a custom row: an unassigned encoding, a must-be-zero bit that is 1 (none) and a field value that a
map entry forbids (not well formed) are reserved codes (R70). -/
def customFate : Option Instr → Except DecodeError Instr
  | some i => if i.wellFormed then .ok i else .error .reservedCode
  | none => .error .reservedCode

/-- Decoding the fields of a word (R54, R60). -/
def decodeFields (f : Fields) : Except DecodeError Instr :=
  if f.op.extractLsb' 0 2 != 0b11 || f.op.extractLsb' 2 3 == 0b111 then .error .notAWord
  else
    match f.op with
    | 0x0B#7 => customFate (decodeT f)
    | 0x2B#7 => customFate (decodeW f)
    | 0x5B#7 => customFate (decodeA f)
    | 0x7B#7 => customFate (decodeS f)
    | _ => standardFate (decodeStd f)

/-- Decoding a word: checks 1 to 3 of Table 02.12. -/
def decode (w : InsnWord) : Except DecodeError Instr :=
  decodeFields (splitWord w)

/-! The encoder, from the same encoding tables (Tables 02.3 to 02.11 and 03.1 to 03.3). -/

/-- The fields of an instruction's word, top field first; an event has no word. -/
def fieldsOf : Instr → Option Fields
  | .lui rd imm => some ⟨(imm.extractLsb' 13 7), (imm.extractLsb' 8 5), (imm.extractLsb' 3 5), (imm.extractLsb' 0 3), rd, 0b0110111⟩
  | .auipc rd imm => some ⟨(imm.extractLsb' 13 7), (imm.extractLsb' 8 5), (imm.extractLsb' 3 5), (imm.extractLsb' 0 3), rd, 0b0010111⟩
  | .jal rd off => some ⟨(off.extractLsb' 19 1 ++ off.extractLsb' 4 6), (off.extractLsb' 0 4 ++ off.extractLsb' 10 1), (off.extractLsb' 14 5), (off.extractLsb' 11 3), rd, 0b1101111⟩
  | .jalr rd rs1 imm => some ⟨(imm.extractLsb' 5 7), (imm.extractLsb' 0 5), rs1, 0b000, rd, 0b1100111⟩
  | .beq rs1 rs2 off => some ⟨(off.extractLsb' 11 1 ++ off.extractLsb' 4 6), rs2, rs1, 0b000, (off.extractLsb' 0 4 ++ off.extractLsb' 10 1), 0b1100011⟩
  | .bne rs1 rs2 off => some ⟨(off.extractLsb' 11 1 ++ off.extractLsb' 4 6), rs2, rs1, 0b001, (off.extractLsb' 0 4 ++ off.extractLsb' 10 1), 0b1100011⟩
  | .blt rs1 rs2 off => some ⟨(off.extractLsb' 11 1 ++ off.extractLsb' 4 6), rs2, rs1, 0b100, (off.extractLsb' 0 4 ++ off.extractLsb' 10 1), 0b1100011⟩
  | .bge rs1 rs2 off => some ⟨(off.extractLsb' 11 1 ++ off.extractLsb' 4 6), rs2, rs1, 0b101, (off.extractLsb' 0 4 ++ off.extractLsb' 10 1), 0b1100011⟩
  | .bltu rs1 rs2 off => some ⟨(off.extractLsb' 11 1 ++ off.extractLsb' 4 6), rs2, rs1, 0b110, (off.extractLsb' 0 4 ++ off.extractLsb' 10 1), 0b1100011⟩
  | .bgeu rs1 rs2 off => some ⟨(off.extractLsb' 11 1 ++ off.extractLsb' 4 6), rs2, rs1, 0b111, (off.extractLsb' 0 4 ++ off.extractLsb' 10 1), 0b1100011⟩
  | .lb rd rs1 imm => some ⟨(imm.extractLsb' 5 7), (imm.extractLsb' 0 5), rs1, 0b000, rd, 0b0000011⟩
  | .lh rd rs1 imm => some ⟨(imm.extractLsb' 5 7), (imm.extractLsb' 0 5), rs1, 0b001, rd, 0b0000011⟩
  | .lw rd rs1 imm => some ⟨(imm.extractLsb' 5 7), (imm.extractLsb' 0 5), rs1, 0b010, rd, 0b0000011⟩
  | .ld rd rs1 imm => some ⟨(imm.extractLsb' 5 7), (imm.extractLsb' 0 5), rs1, 0b011, rd, 0b0000011⟩
  | .lbu rd rs1 imm => some ⟨(imm.extractLsb' 5 7), (imm.extractLsb' 0 5), rs1, 0b100, rd, 0b0000011⟩
  | .lhu rd rs1 imm => some ⟨(imm.extractLsb' 5 7), (imm.extractLsb' 0 5), rs1, 0b101, rd, 0b0000011⟩
  | .lwu rd rs1 imm => some ⟨(imm.extractLsb' 5 7), (imm.extractLsb' 0 5), rs1, 0b110, rd, 0b0000011⟩
  | .sb rs2 rs1 imm => some ⟨(imm.extractLsb' 5 7), rs2, rs1, 0b000, (imm.extractLsb' 0 5), 0b0100011⟩
  | .sh rs2 rs1 imm => some ⟨(imm.extractLsb' 5 7), rs2, rs1, 0b001, (imm.extractLsb' 0 5), 0b0100011⟩
  | .sw rs2 rs1 imm => some ⟨(imm.extractLsb' 5 7), rs2, rs1, 0b010, (imm.extractLsb' 0 5), 0b0100011⟩
  | .sd rs2 rs1 imm => some ⟨(imm.extractLsb' 5 7), rs2, rs1, 0b011, (imm.extractLsb' 0 5), 0b0100011⟩
  | .addi rd rs1 imm => some ⟨(imm.extractLsb' 5 7), (imm.extractLsb' 0 5), rs1, 0b000, rd, 0b0010011⟩
  | .slti rd rs1 imm => some ⟨(imm.extractLsb' 5 7), (imm.extractLsb' 0 5), rs1, 0b010, rd, 0b0010011⟩
  | .sltiu rd rs1 imm => some ⟨(imm.extractLsb' 5 7), (imm.extractLsb' 0 5), rs1, 0b011, rd, 0b0010011⟩
  | .xori rd rs1 imm => some ⟨(imm.extractLsb' 5 7), (imm.extractLsb' 0 5), rs1, 0b100, rd, 0b0010011⟩
  | .ori rd rs1 imm => some ⟨(imm.extractLsb' 5 7), (imm.extractLsb' 0 5), rs1, 0b110, rd, 0b0010011⟩
  | .andi rd rs1 imm => some ⟨(imm.extractLsb' 5 7), (imm.extractLsb' 0 5), rs1, 0b111, rd, 0b0010011⟩
  | .slli rd rs1 sh => some ⟨(0b000000#6 ++ sh.extractLsb' 5 1), (sh.extractLsb' 0 5), rs1, 0b001, rd, 0b0010011⟩
  | .srli rd rs1 sh => some ⟨(0b000000#6 ++ sh.extractLsb' 5 1), (sh.extractLsb' 0 5), rs1, 0b101, rd, 0b0010011⟩
  | .srai rd rs1 sh => some ⟨(0b010000#6 ++ sh.extractLsb' 5 1), (sh.extractLsb' 0 5), rs1, 0b101, rd, 0b0010011⟩
  | .add rd rs1 rs2 => some ⟨0b0000000, rs2, rs1, 0b000, rd, 0b0110011⟩
  | .sll rd rs1 rs2 => some ⟨0b0000000, rs2, rs1, 0b001, rd, 0b0110011⟩
  | .slt rd rs1 rs2 => some ⟨0b0000000, rs2, rs1, 0b010, rd, 0b0110011⟩
  | .sltu rd rs1 rs2 => some ⟨0b0000000, rs2, rs1, 0b011, rd, 0b0110011⟩
  | .xor rd rs1 rs2 => some ⟨0b0000000, rs2, rs1, 0b100, rd, 0b0110011⟩
  | .srl rd rs1 rs2 => some ⟨0b0000000, rs2, rs1, 0b101, rd, 0b0110011⟩
  | .or rd rs1 rs2 => some ⟨0b0000000, rs2, rs1, 0b110, rd, 0b0110011⟩
  | .and rd rs1 rs2 => some ⟨0b0000000, rs2, rs1, 0b111, rd, 0b0110011⟩
  | .sub rd rs1 rs2 => some ⟨0b0100000, rs2, rs1, 0b000, rd, 0b0110011⟩
  | .sra rd rs1 rs2 => some ⟨0b0100000, rs2, rs1, 0b101, rd, 0b0110011⟩
  | .addiw rd rs1 imm => some ⟨(imm.extractLsb' 5 7), (imm.extractLsb' 0 5), rs1, 0b000, rd, 0b0011011⟩
  | .slliw rd rs1 sh => some ⟨0b0000000, sh, rs1, 0b001, rd, 0b0011011⟩
  | .srliw rd rs1 sh => some ⟨0b0000000, sh, rs1, 0b101, rd, 0b0011011⟩
  | .sraiw rd rs1 sh => some ⟨0b0100000, sh, rs1, 0b101, rd, 0b0011011⟩
  | .addw rd rs1 rs2 => some ⟨0b0000000, rs2, rs1, 0b000, rd, 0b0111011⟩
  | .sllw rd rs1 rs2 => some ⟨0b0000000, rs2, rs1, 0b001, rd, 0b0111011⟩
  | .srlw rd rs1 rs2 => some ⟨0b0000000, rs2, rs1, 0b101, rd, 0b0111011⟩
  | .subw rd rs1 rs2 => some ⟨0b0100000, rs2, rs1, 0b000, rd, 0b0111011⟩
  | .sraw rd rs1 rs2 => some ⟨0b0100000, rs2, rs1, 0b101, rd, 0b0111011⟩
  | .fence fm pred succ rs1 rd => some ⟨(fm ++ pred.extractLsb' 1 3), (pred.extractLsb' 0 1 ++ succ), rs1, 0b000, rd, 0b0001111⟩
  | .fenceI imm rs1 rd => some ⟨(imm.extractLsb' 5 7), (imm.extractLsb' 0 5), rs1, 0b001, rd, 0b0001111⟩
  | .csrrw rd rs1 csr => some ⟨(csr.extractLsb' 5 7), (csr.extractLsb' 0 5), rs1, 0b001, rd, 0b1110011⟩
  | .csrrs rd rs1 csr => some ⟨(csr.extractLsb' 5 7), (csr.extractLsb' 0 5), rs1, 0b010, rd, 0b1110011⟩
  | .csrrc rd rs1 csr => some ⟨(csr.extractLsb' 5 7), (csr.extractLsb' 0 5), rs1, 0b011, rd, 0b1110011⟩
  | .csrrwi rd u csr => some ⟨(csr.extractLsb' 5 7), (csr.extractLsb' 0 5), u, 0b101, rd, 0b1110011⟩
  | .csrrsi rd u csr => some ⟨(csr.extractLsb' 5 7), (csr.extractLsb' 0 5), u, 0b110, rd, 0b1110011⟩
  | .csrrci rd u csr => some ⟨(csr.extractLsb' 5 7), (csr.extractLsb' 0 5), u, 0b111, rd, 0b1110011⟩
  | .ecall => some ⟨0b0000000, 0b00000, 0b00000, 0b000, 0b00000, 0b1110011⟩
  | .ebreak => some ⟨0b0000000, 0b00001, 0b00000, 0b000, 0b00000, 0b1110011⟩
  | .mret => some ⟨0b0011000, 0b00010, 0b00000, 0b000, 0b00000, 0b1110011⟩
  | .wfi => some ⟨0b0001000, 0b00101, 0b00000, 0b000, 0b00000, 0b1110011⟩
  | .mul rd rs1 rs2 => some ⟨0b0000001, rs2, rs1, 0b000, rd, 0b0110011⟩
  | .mulh rd rs1 rs2 => some ⟨0b0000001, rs2, rs1, 0b001, rd, 0b0110011⟩
  | .mulhsu rd rs1 rs2 => some ⟨0b0000001, rs2, rs1, 0b010, rd, 0b0110011⟩
  | .mulhu rd rs1 rs2 => some ⟨0b0000001, rs2, rs1, 0b011, rd, 0b0110011⟩
  | .div rd rs1 rs2 => some ⟨0b0000001, rs2, rs1, 0b100, rd, 0b0110011⟩
  | .divu rd rs1 rs2 => some ⟨0b0000001, rs2, rs1, 0b101, rd, 0b0110011⟩
  | .rem rd rs1 rs2 => some ⟨0b0000001, rs2, rs1, 0b110, rd, 0b0110011⟩
  | .remu rd rs1 rs2 => some ⟨0b0000001, rs2, rs1, 0b111, rd, 0b0110011⟩
  | .mulw rd rs1 rs2 => some ⟨0b0000001, rs2, rs1, 0b000, rd, 0b0111011⟩
  | .divw rd rs1 rs2 => some ⟨0b0000001, rs2, rs1, 0b100, rd, 0b0111011⟩
  | .divuw rd rs1 rs2 => some ⟨0b0000001, rs2, rs1, 0b101, rd, 0b0111011⟩
  | .remw rd rs1 rs2 => some ⟨0b0000001, rs2, rs1, 0b110, rd, 0b0111011⟩
  | .remuw rd rs1 rs2 => some ⟨0b0000001, rs2, rs1, 0b111, rd, 0b0111011⟩
  | .lr aq rl wd rd rs1 => some ⟨(0b00010#5 ++ BitVec.ofBool aq ++ BitVec.ofBool rl), 0b00000, rs1, wd.code, rd, 0b0101111⟩
  | .sc aq rl wd rd rs2 rs1 => some ⟨(0b00011#5 ++ BitVec.ofBool aq ++ BitVec.ofBool rl), rs2, rs1, wd.code, rd, 0b0101111⟩
  | .amoswap aq rl wd rd rs2 rs1 => some ⟨(0b00001#5 ++ BitVec.ofBool aq ++ BitVec.ofBool rl), rs2, rs1, wd.code, rd, 0b0101111⟩
  | .amoadd aq rl wd rd rs2 rs1 => some ⟨(0b00000#5 ++ BitVec.ofBool aq ++ BitVec.ofBool rl), rs2, rs1, wd.code, rd, 0b0101111⟩
  | .amoxor aq rl wd rd rs2 rs1 => some ⟨(0b00100#5 ++ BitVec.ofBool aq ++ BitVec.ofBool rl), rs2, rs1, wd.code, rd, 0b0101111⟩
  | .amoand aq rl wd rd rs2 rs1 => some ⟨(0b01100#5 ++ BitVec.ofBool aq ++ BitVec.ofBool rl), rs2, rs1, wd.code, rd, 0b0101111⟩
  | .amoor aq rl wd rd rs2 rs1 => some ⟨(0b01000#5 ++ BitVec.ofBool aq ++ BitVec.ofBool rl), rs2, rs1, wd.code, rd, 0b0101111⟩
  | .amomin aq rl wd rd rs2 rs1 => some ⟨(0b10000#5 ++ BitVec.ofBool aq ++ BitVec.ofBool rl), rs2, rs1, wd.code, rd, 0b0101111⟩
  | .amomax aq rl wd rd rs2 rs1 => some ⟨(0b10100#5 ++ BitVec.ofBool aq ++ BitVec.ofBool rl), rs2, rs1, wd.code, rd, 0b0101111⟩
  | .amominu aq rl wd rd rs2 rs1 => some ⟨(0b11000#5 ++ BitVec.ofBool aq ++ BitVec.ofBool rl), rs2, rs1, wd.code, rd, 0b0101111⟩
  | .amomaxu aq rl wd rd rs2 rs1 => some ⟨(0b11100#5 ++ BitVec.ofBool aq ++ BitVec.ofBool rl), rs2, rs1, wd.code, rd, 0b0101111⟩
  | .flw rd rs1 imm => some ⟨(imm.extractLsb' 5 7), (imm.extractLsb' 0 5), rs1, 0b010, rd, 0b0000111⟩
  | .fld rd rs1 imm => some ⟨(imm.extractLsb' 5 7), (imm.extractLsb' 0 5), rs1, 0b011, rd, 0b0000111⟩
  | .fsw rs2 rs1 imm => some ⟨(imm.extractLsb' 5 7), rs2, rs1, 0b010, (imm.extractLsb' 0 5), 0b0100111⟩
  | .fsd rs2 rs1 imm => some ⟨(imm.extractLsb' 5 7), rs2, rs1, 0b011, (imm.extractLsb' 0 5), 0b0100111⟩
  | .fmadd t rd rs1 rs2 rs3 rm => some ⟨(rs3 ++ t.code), rs2, rs1, rm.code, rd, 0b1000011⟩
  | .fmsub t rd rs1 rs2 rs3 rm => some ⟨(rs3 ++ t.code), rs2, rs1, rm.code, rd, 0b1000111⟩
  | .fnmsub t rd rs1 rs2 rs3 rm => some ⟨(rs3 ++ t.code), rs2, rs1, rm.code, rd, 0b1001011⟩
  | .fnmadd t rd rs1 rs2 rs3 rm => some ⟨(rs3 ++ t.code), rs2, rs1, rm.code, rd, 0b1001111⟩
  | .fadd t rd rs1 rs2 rm => some ⟨(0b00000#5 ++ t.code), rs2, rs1, rm.code, rd, 0b1010011⟩
  | .fsub t rd rs1 rs2 rm => some ⟨(0b00001#5 ++ t.code), rs2, rs1, rm.code, rd, 0b1010011⟩
  | .fmul t rd rs1 rs2 rm => some ⟨(0b00010#5 ++ t.code), rs2, rs1, rm.code, rd, 0b1010011⟩
  | .fdiv t rd rs1 rs2 rm => some ⟨(0b00011#5 ++ t.code), rs2, rs1, rm.code, rd, 0b1010011⟩
  | .fsqrt t rd rs1 rm => some ⟨(0b01011#5 ++ t.code), 0b00000, rs1, rm.code, rd, 0b1010011⟩
  | .fsgnj t rd rs1 rs2 => some ⟨(0b00100#5 ++ t.code), rs2, rs1, 0b000, rd, 0b1010011⟩
  | .fsgnjn t rd rs1 rs2 => some ⟨(0b00100#5 ++ t.code), rs2, rs1, 0b001, rd, 0b1010011⟩
  | .fsgnjx t rd rs1 rs2 => some ⟨(0b00100#5 ++ t.code), rs2, rs1, 0b010, rd, 0b1010011⟩
  | .fmin t rd rs1 rs2 => some ⟨(0b00101#5 ++ t.code), rs2, rs1, 0b000, rd, 0b1010011⟩
  | .fmax t rd rs1 rs2 => some ⟨(0b00101#5 ++ t.code), rs2, rs1, 0b001, rd, 0b1010011⟩
  | .fcvtSD rd rs1 rm => some ⟨0b0100000, 0b00001, rs1, rm.code, rd, 0b1010011⟩
  | .fcvtDS rd rs1 rm => some ⟨0b0100001, 0b00000, rs1, rm.code, rd, 0b1010011⟩
  | .feq t rd rs1 rs2 => some ⟨(0b10100#5 ++ t.code), rs2, rs1, 0b010, rd, 0b1010011⟩
  | .flt t rd rs1 rs2 => some ⟨(0b10100#5 ++ t.code), rs2, rs1, 0b001, rd, 0b1010011⟩
  | .fle t rd rs1 rs2 => some ⟨(0b10100#5 ++ t.code), rs2, rs1, 0b000, rd, 0b1010011⟩
  | .fclass t rd rs1 => some ⟨(0b11100#5 ++ t.code), 0b00000, rs1, 0b001, rd, 0b1010011⟩
  | .fcvtIntFromFp t v rd rs1 rm => some ⟨(0b11000#5 ++ t.code), v.code, rs1, rm.code, rd, 0b1010011⟩
  | .fcvtFpFromInt t v rd rs1 rm => some ⟨(0b11010#5 ++ t.code), v.code, rs1, rm.code, rd, 0b1010011⟩
  | .fmvXFmt t rd rs1 => some ⟨(0b11100#5 ++ t.code), 0b00000, rs1, 0b000, rd, 0b1010011⟩
  | .fmvFmtX t rd rs1 => some ⟨(0b11110#5 ++ t.code), 0b00000, rs1, 0b000, rd, 0b1010011⟩
  | .fork rd rs1 rs2 => some ⟨0b0000000, rs2, rs1, 0b000, rd, 0b0001011⟩
  | .join rs1 => some ⟨0b0000001, 0b00000, rs1, 0b000, 0b00000, 0b0001011⟩
  | .halt => some ⟨0b0000010, 0b00000, 0b00000, 0b000, 0b00000, 0b0001011⟩
  | .park => some ⟨0b0000011, 0b00000, 0b00000, 0b000, 0b00000, 0b0001011⟩
  | .engbind e => some ⟨0b0000100, (0b000#3 ++ e), 0b00000, 0b000, 0b00000, 0b0001011⟩
  | .engfree e => some ⟨0b0000101, (0b000#3 ++ e), 0b00000, 0b000, 0b00000, 0b0001011⟩
  | .sempost n rs1 => some ⟨0b0000000, n, rs1, 0b001, 0b00000, 0b0001011⟩
  | .semwait n rs1 => some ⟨0b0000001, n, rs1, 0b001, 0b00000, 0b0001011⟩
  | .semtry rd n rs1 => some ⟨0b0000010, n, rs1, 0b001, rd, 0b0001011⟩
  | .ringset rs1 rs2 => some ⟨0b0000000, rs2, rs1, 0b010, 0b00000, 0b0001011⟩
  | .ringget rs1 rs2 => some ⟨0b0000001, rs2, rs1, 0b010, 0b00000, 0b0001011⟩
  | .hbind h rs1 role => some ⟨0b0000010, (0b00#2 ++ h), rs1, 0b010, (0b000#3 ++ role), 0b0001011⟩
  | .hadvh h rs1 => some ⟨0b0000011, (0b00#2 ++ h), rs1, 0b010, 0b00000, 0b0001011⟩
  | .hadvt h rs1 => some ⟨0b0000100, (0b00#2 ++ h), rs1, 0b010, 0b00000, 0b0001011⟩
  | .hwaitf h rs1 => some ⟨0b0000101, (0b00#2 ++ h), rs1, 0b010, 0b00000, 0b0001011⟩
  | .hwaite h rs1 => some ⟨0b0000110, (0b00#2 ++ h), rs1, 0b010, 0b00000, 0b0001011⟩
  | .hpop rd h => some ⟨0b0000111, (0b00#2 ++ h), 0b00000, 0b010, rd, 0b0001011⟩
  | .hpush h rs1 => some ⟨0b0001000, (0b00#2 ++ h), rs1, 0b010, 0b00000, 0b0001011⟩
  | .ldf rd rs1 => some ⟨0b0000000, 0b00000, rs1, 0b011, rd, 0b0001011⟩
  | .ldfe rd rs1 => some ⟨0b0000001, 0b00000, rs1, 0b011, rd, 0b0001011⟩
  | .stf rs2 rs1 => some ⟨0b0000010, rs2, rs1, 0b011, 0b00000, 0b0001011⟩
  | .stef rs2 rs1 => some ⟨0b0000011, rs2, rs1, 0b011, 0b00000, 0b0001011⟩
  | .feset rs1 rs2 => some ⟨0b0000100, rs2, rs1, 0b011, 0b00000, 0b0001011⟩
  | .feclr rs1 rs2 => some ⟨0b0000101, rs2, rs1, 0b011, 0b00000, 0b0001011⟩
  | .feget rd rs1 => some ⟨0b0000110, 0b00000, rs1, 0b011, rd, 0b0001011⟩
  | .gbar rd rs1 rs2 => some ⟨0b0000000, rs2, rs1, 0b100, rd, 0b0001011⟩
  | .garrive rs1 rs2 => some ⟨0b0000001, rs2, rs1, 0b100, 0b00000, 0b0001011⟩
  | .gwait rd rs1 => some ⟨0b0000010, 0b00000, rs1, 0b100, rd, 0b0001011⟩
  | .wpush h rs1 => some ⟨0b0000100, (0b00#2 ++ h), rs1, 0b100, 0b00000, 0b0001011⟩
  | .wpop h rs1 => some ⟨0b0000101, (0b00#2 ++ h), rs1, 0b100, 0b00000, 0b0001011⟩
  | .repf rs1 len hs ws => some ⟨(0b00#2 ++ ws ++ hs.extractLsb' 1 2), (hs.extractLsb' 0 1 ++ len), rs1, 0b101, 0b00000, 0b0001011⟩
  | .align n => some ⟨(n.extractLsb' 5 7), (n.extractLsb' 0 5), 0b00000, 0b110, 0b00000, 0b0001011⟩
  | .mcfg acc rs1 => some ⟨0b0000000, 0b00000, rs1, 0b000, (0b0000#4 ++ acc), 0b0101011⟩
  | .mzero acc => some ⟨0b0000001, 0b00000, 0b00000, 0b000, (0b0000#4 ++ acc), 0b0101011⟩
  | .mload n acc h => some ⟨(BitVec.ofBool n ++ 0b000010#6), 0b00000, (0b00#2 ++ h), 0b000, (0b0000#4 ++ acc), 0b0101011⟩
  | .mout n h acc rs2 => some ⟨(BitVec.ofBool n ++ 0b000011#6), rs2, (0b0000#4 ++ acc), 0b000, (0b00#2 ++ h), 0b0101011⟩
  | .wpset w rs1 => some ⟨0b0000100, 0b00000, rs1, 0b000, (0b00#2 ++ w), 0b0101011⟩
  | .wpget rd w => some ⟨0b0000101, 0b00000, (0b00#2 ++ w), 0b000, rd, 0b0101011⟩
  | .wswap => some ⟨0b0000110, 0b00000, 0b00000, 0b000, 0b00000, 0b0101011⟩
  | .wswapq => some ⟨0b0000111, 0b00000, 0b00000, 0b000, 0b00000, 0b0101011⟩
  | .mma fmt z s a acc h w fs => some ⟨(fs ++ BitVec.ofBool a ++ acc), (0b00#2 ++ w), (0b00#2 ++ h), 0b001, (fmt.code ++ BitVec.ofBool z ++ BitVec.ofBool s), 0b0101011⟩
  | .mmaN fmt z s a acc h w fs => some ⟨(fs ++ BitVec.ofBool a ++ acc), (0b00#2 ++ w), (0b00#2 ++ h), 0b010, (fmt.code ++ BitVec.ofBool z ++ BitVec.ofBool s), 0b0101011⟩
  | .vadd n t hd ha hb => some ⟨(BitVec.ofBool n ++ 0b000000#6), (0b00#2 ++ hb), (0b00#2 ++ ha), t.code, (0b00#2 ++ hd), 0b0101011⟩
  | .vsub n t hd ha hb => some ⟨(BitVec.ofBool n ++ 0b000001#6), (0b00#2 ++ hb), (0b00#2 ++ ha), t.code, (0b00#2 ++ hd), 0b0101011⟩
  | .vmul n t hd ha hb => some ⟨(BitVec.ofBool n ++ 0b000010#6), (0b00#2 ++ hb), (0b00#2 ++ ha), t.code, (0b00#2 ++ hd), 0b0101011⟩
  | .vfma n t hd ha hb => some ⟨(BitVec.ofBool n ++ 0b000011#6), (0b00#2 ++ hb), (0b00#2 ++ ha), t.code, (0b00#2 ++ hd), 0b0101011⟩
  | .vmac n t ha hb => some ⟨(BitVec.ofBool n ++ 0b000100#6), (0b00#2 ++ hb), (0b00#2 ++ ha), t.code, 0b00000, 0b0101011⟩
  | .vmin n t hd ha hb => some ⟨(BitVec.ofBool n ++ 0b000101#6), (0b00#2 ++ hb), (0b00#2 ++ ha), t.code, (0b00#2 ++ hd), 0b0101011⟩
  | .vmax n t hd ha hb => some ⟨(BitVec.ofBool n ++ 0b000110#6), (0b00#2 ++ hb), (0b00#2 ++ ha), t.code, (0b00#2 ++ hd), 0b0101011⟩
  | .vabs n t hd ha => some ⟨(BitVec.ofBool n ++ 0b000111#6), 0b00000, (0b00#2 ++ ha), t.code, (0b00#2 ++ hd), 0b0101011⟩
  | .vneg n t hd ha => some ⟨(BitVec.ofBool n ++ 0b001000#6), 0b00000, (0b00#2 ++ ha), t.code, (0b00#2 ++ hd), 0b0101011⟩
  | .vcmp c n t hd ha hb => some ⟨(BitVec.ofBool n ++ c.code), (0b00#2 ++ hb), (0b00#2 ++ ha), t.code, (0b00#2 ++ hd), 0b0101011⟩
  | .vsel n t hd ha hb => some ⟨(BitVec.ofBool n ++ 0b010100#6), (0b00#2 ++ hb), (0b00#2 ++ ha), t.code, (0b00#2 ++ hd), 0b0101011⟩
  | .vand n hd ha hb => some ⟨(BitVec.ofBool n ++ 0b011000#6), (0b00#2 ++ hb), (0b00#2 ++ ha), 0b110, (0b00#2 ++ hd), 0b0101011⟩
  | .vor n hd ha hb => some ⟨(BitVec.ofBool n ++ 0b011001#6), (0b00#2 ++ hb), (0b00#2 ++ ha), 0b110, (0b00#2 ++ hd), 0b0101011⟩
  | .vxor n hd ha hb => some ⟨(BitVec.ofBool n ++ 0b011010#6), (0b00#2 ++ hb), (0b00#2 ++ ha), 0b110, (0b00#2 ++ hd), 0b0101011⟩
  | .vshl n hd ha hb => some ⟨(BitVec.ofBool n ++ 0b011011#6), (0b00#2 ++ hb), (0b00#2 ++ ha), 0b110, (0b00#2 ++ hd), 0b0101011⟩
  | .vshr n hd ha hb => some ⟨(BitVec.ofBool n ++ 0b011100#6), (0b00#2 ++ hb), (0b00#2 ++ ha), 0b110, (0b00#2 ++ hd), 0b0101011⟩
  | .vrcp n t hd ha => some ⟨(BitVec.ofBool n ++ 0b100000#6), 0b00000, (0b00#2 ++ ha), t.code, (0b00#2 ++ hd), 0b0101011⟩
  | .vrsq n t hd ha => some ⟨(BitVec.ofBool n ++ 0b100001#6), 0b00000, (0b00#2 ++ ha), t.code, (0b00#2 ++ hd), 0b0101011⟩
  | .vexp2 n t hd ha => some ⟨(BitVec.ofBool n ++ 0b100010#6), 0b00000, (0b00#2 ++ ha), t.code, (0b00#2 ++ hd), 0b0101011⟩
  | .vlog2 n t hd ha => some ⟨(BitVec.ofBool n ++ 0b100011#6), 0b00000, (0b00#2 ++ ha), t.code, (0b00#2 ++ hd), 0b0101011⟩
  | .vtanh n t hd ha => some ⟨(BitVec.ofBool n ++ 0b100100#6), 0b00000, (0b00#2 ++ ha), t.code, (0b00#2 ++ hd), 0b0101011⟩
  | .vsig n t hd ha => some ⟨(BitVec.ofBool n ++ 0b100101#6), 0b00000, (0b00#2 ++ ha), t.code, (0b00#2 ++ hd), 0b0101011⟩
  | .vexp2X n hd ha => some ⟨(BitVec.ofBool n ++ 0b100110#6), 0b00000, (0b00#2 ++ ha), 0b100, (0b00#2 ++ hd), 0b0101011⟩
  | .vlog2X n hd ha => some ⟨(BitVec.ofBool n ++ 0b100111#6), 0b00000, (0b00#2 ++ ha), 0b100, (0b00#2 ++ hd), 0b0101011⟩
  | .vcvt n sr sat tgt t hd ha => some ⟨(BitVec.ofBool n ++ 0b101000#6), (BitVec.ofBool sr ++ BitVec.ofBool sat ++ tgt.code), (0b00#2 ++ ha), t.code, (0b00#2 ++ hd), 0b0101011⟩
  | .vsplit3 n hd ha => some ⟨(BitVec.ofBool n ++ 0b101001#6), 0b00000, (0b00#2 ++ ha), 0b100, (0b00#2 ++ hd), 0b0101011⟩
  | .vqnt n sr sat tgt t hd ha => some ⟨(BitVec.ofBool n ++ 0b101010#6), (BitVec.ofBool sr ++ BitVec.ofBool sat ++ tgt.code), (0b00#2 ++ ha), t.code, (0b00#2 ++ hd), 0b0101011⟩
  | .vreds n t hd ha => some ⟨(BitVec.ofBool n ++ 0b110000#6), 0b00000, (0b00#2 ++ ha), t.code, (0b00#2 ++ hd), 0b0101011⟩
  | .vredm n t hd ha => some ⟨(BitVec.ofBool n ++ 0b110001#6), 0b00000, (0b00#2 ++ ha), t.code, (0b00#2 ++ hd), 0b0101011⟩
  | .vgath n t hd ha hb => some ⟨(BitVec.ofBool n ++ 0b110100#6), (0b00#2 ++ hb), (0b00#2 ++ ha), t.code, (0b00#2 ++ hd), 0b0101011⟩
  | .vscat n t hd ha hb => some ⟨(BitVec.ofBool n ++ 0b110101#6), (0b00#2 ++ hb), (0b00#2 ++ ha), t.code, (0b00#2 ++ hd), 0b0101011⟩
  | .vperm n t hd ha hb => some ⟨(BitVec.ofBool n ++ 0b110110#6), (0b00#2 ++ hb), (0b00#2 ++ ha), t.code, (0b00#2 ++ hd), 0b0101011⟩
  | .vaccget n hd => some ⟨(BitVec.ofBool n ++ 0b111000#6), 0b00000, 0b00000, 0b100, (0b00#2 ++ hd), 0b0101011⟩
  | .vaccset n ha => some ⟨(BitVec.ofBool n ++ 0b111001#6), 0b00000, (0b00#2 ++ ha), 0b100, 0b00000, 0b0101011⟩
  | .vaccz => some ⟨0b0111010, 0b00000, 0b00000, 0b100, 0b00000, 0b0101011⟩
  | .rld rd rs1 => some ⟨0b0000000, 0b00000, rs1, 0b000, rd, 0b1011011⟩
  | .rldf rd rs1 => some ⟨0b0000001, 0b00000, rs1, 0b000, rd, 0b1011011⟩
  | .rst rs2 rs1 bt => some ⟨0b0000010, rs2, rs1, 0b000, (0b000#3 ++ bt), 0b1011011⟩
  | .rstf rs2 rs1 bt => some ⟨0b0000011, rs2, rs1, 0b000, (0b000#3 ++ bt), 0b1011011⟩
  | .rstrel sc rs2 rs1 bt => some ⟨(0b0001#4 ++ sc.code), rs2, rs1, 0b000, (0b000#3 ++ bt), 0b1011011⟩
  | .twait rs1 => some ⟨0b0010000, 0b00000, rs1, 0b000, 0b00000, 0b1011011⟩
  | .tfree rs1 => some ⟨0b0010001, 0b00000, rs1, 0b000, 0b00000, 0b1011011⟩
  | .fences sc => some ⟨(0b0011#4 ++ sc.code), 0b00000, 0b00000, 0b000, 0b00000, 0b1011011⟩
  | .ramoAdd rd rs2 rs1 => some ⟨0b0000000, rs2, rs1, 0b001, rd, 0b1011011⟩
  | .ramoFadd rd rs2 rs1 => some ⟨0b0000001, rs2, rs1, 0b001, rd, 0b1011011⟩
  | .ramoMin rd rs2 rs1 => some ⟨0b0000010, rs2, rs1, 0b001, rd, 0b1011011⟩
  | .ramoMax rd rs2 rs1 => some ⟨0b0000011, rs2, rs1, 0b001, rd, 0b1011011⟩
  | .ramoSwap rd rs2 rs1 => some ⟨0b0000000, rs2, rs1, 0b010, rd, 0b1011011⟩
  | .ramoCas rd rs2 rs1 rs3 => some ⟨(rs3 ++ 0b01#2), rs2, rs1, 0b010, rd, 0b1011011⟩
  | .tst rd rs2 rs1 => some ⟨0b0000000, rs2, rs1, 0b011, rd, 0b1011011⟩
  | .dst rs2 rs1 rs3 => some ⟨(rs3 ++ 0b01#2), rs2, rs1, 0b011, 0b00000, 0b1011011⟩
  | .dtst rd rs2 rs1 rs3 => some ⟨(rs3 ++ 0b10#2), rs2, rs1, 0b011, rd, 0b1011011⟩
  | .wenq n h rs1 bt => some ⟨(BitVec.ofBool n ++ 0b000000#6), (0b00#2 ++ h), rs1, 0b100, (0b000#3 ++ bt), 0b1011011⟩
  | .bclose rd bt => some ⟨0b0000001, (0b000#3 ++ bt), 0b00000, 0b100, rd, 0b1011011⟩
  | .copy n rd rs1 h => some ⟨(BitVec.ofBool n ++ 0b000010#6), (0b00#2 ++ h), rs1, 0b100, rd, 0b1011011⟩
  | .copymc n rd rs1 h => some ⟨(BitVec.ofBool n ++ 0b000011#6), (0b00#2 ++ h), rs1, 0b100, rd, 0b1011011⟩
  | .ltset rs1 rs2 => some ⟨0b0000100, rs2, rs1, 0b100, 0b00000, 0b1011011⟩
  | .ltget rs1 rs2 => some ⟨0b0000101, rs2, rs1, 0b100, 0b00000, 0b1011011⟩
  | .fitw rs1 rs2 => some ⟨0b0000000, rs2, rs1, 0b000, 0b00000, 0b1111011⟩
  | .fitr rd => some ⟨0b0000001, 0b00000, 0b00000, 0b000, rd, 0b1111011⟩
  | .vntrank rd rs1 => some ⟨0b0000100, 0b00000, rs1, 0b000, rd, 0b1111011⟩
  | .vntsel rd rs1 rs2 => some ⟨0b0000101, rs2, rs1, 0b000, rd, 0b1111011⟩
  | .vntrack rd rs1 rs2 => some ⟨0b0000110, rs2, rs1, 0b000, rd, 0b1111011⟩
  | .vntlog rd rs1 rs2 => some ⟨0b0000111, rs2, rs1, 0b000, rd, 0b1111011⟩
  | .vntmig rd rs1 rs2 => some ⟨0b0001000, rs2, rs1, 0b000, rd, 0b1111011⟩
  | .migr rd rs1 => some ⟨0b0010000, 0b00000, rs1, 0b000, rd, 0b1111011⟩
  | .segset rs1 rs2 => some ⟨0b0011000, rs2, rs1, 0b000, 0b00000, 0b1111011⟩
  | .segget rd => some ⟨0b0011001, 0b00000, 0b00000, 0b000, rd, 0b1111011⟩
  | .ctxsav rs1 => some ⟨0b0100000, 0b00000, rs1, 0b000, 0b00000, 0b1111011⟩
  | .ctxrst rs1 => some ⟨0b0100001, 0b00000, rs1, 0b000, 0b00000, 0b1111011⟩
  | .suppost rs1 rs2 => some ⟨0b0101000, rs2, rs1, 0b000, 0b00000, 0b1111011⟩
  | .qsce => some ⟨0b0110000, 0b00000, 0b00000, 0b000, 0b00000, 0b1111011⟩
  | _ => none

/-- The word of a well-formed instruction. -/
def encode (i : Instr) : Option InsnWord :=
  if i.wellFormed then (fieldsOf i).map joinWord else none

/-- What the decoder reads from a table row's word (one 32-bit word; a row without bits has none). -/
def decodeTableWord (nbits w : Nat) : Option Instr :=
  if nbits == 32 then (decode (BitVec.ofNat 32 w)).toOption else none

end Sys2Proof
end

