-- ==== Sys2Proof/Config.lean ====
section
/-! DEFINITION. The free values: constants without a body, so that nothing is known of them (log entry 9). -/

namespace Sys2Proof.Config

/-- A word the spec does not state, numbered by the counter State.free. -/
opaque freeWord : Nat → BitVec 64

/-- The op code of a port message flit, which Table 13.10 does not list. -/
opaque portOp : BitVec 6

/-- The device identity key of R384, which never leaves die 4. -/
opaque identityKey : BitVec 256

/-- The rollback counter of R384, in the fuses. -/
opaque rollbackCounter : BitVec 32

/-- One less than the credits that a Sarob port grants a channel (R344). -/
opaque linkCredits : Nat

/-- One less than the requests of a core's slots that the links hold before they are taken at their homes (R196). -/
opaque pathCredits : Nat

/-- A byte of the resident handler of the Bamcia release, 0xF_0000 on (R387). -/
opaque handlerByte : Nat → BitVec 8

end Sys2Proof.Config
end

