-- ==== Sys2Proof/Machine/State.lean ====
section
/-! DEFINITION. The state of one ZV8 package as plain data, and the state after reset.
Sparse parts are kept as maps (sorted association lists, one entry per key): a key that is not listed has the
structure's default, which is its reset value. -/

namespace Sys2Proof.Machine

/-- A sparse table: keys strictly rising. -/
abbrev FMap (α : Type) := List (Nat × α)

/-- Memory: the bytes that are not zero, addresses strictly rising. An unlisted byte reads as zero
(DESIGN CHOICE, log entry 4: the spec gives no contents after power-on). -/
abbrev Memory := List Host.Cell

/-- M mode or U mode (R21). -/
inductive Mode where
  | u
  | m
  deriving DecidableEq, Repr

/-- The slot states of Table 01.11. -/
inductive SlotState where
  | empty
  | issuing
  | parked
  | dropped
  | trapped
  | halted
  deriving DecidableEq, Repr

/-- What a parked slot waits for (R102, R151, R212, R297). Word addresses are global (Machine/Memory). -/
inductive Await where
  | sem (n : Nat)
  | ringFill (ring : Nat)
  | ringRoom (ring : Nat)
  | wordFull (addr : Nat)
  | wordEmpty (addr : Nat)
  | join (mask : Nat)
  | group (g : Nat)
  | interrupt
  | token (t : Nat)
  /-- Slots of a ring, for an instruction of engine e (R151, R171). -/
  | engineRing (e ring : Nat) (room : Bool)
  | fetch (line : Nat)
  deriving DecidableEq, Repr

/-- Which hold put a slot into TRAPPED (Table 01.11). -/
inductive TrapKind where
  | reservedCode
  | migrate
  | vintner
  | quiesce
  | preempt
  deriving DecidableEq, Repr

/-- An instruction of several rotations in progress (R45). -/
inductive Hold where
  /-- The result is written; n further turns are skipped (R95). -/
  | busy (n : Nat)
  /-- FESET or FECLR: the next word address and the words left (R119). -/
  | span (addr : Nat) (left : Nat)
  /-- ALIGN: rotations waited so far, and the virtual cores that have fetched it since (R127). -/
  | align (waited : Nat) (seen : List Nat)
  /-- A remote load waiting for its reply (R197): the number of the request, rd, whether it is an RLDF, and the pointer. -/
  | load (id : Nat) (rd : BitVec 5) (isF : Bool) (ptr : Word)
  /-- A remote atomic waiting for its reply (R205). -/
  | atomic (id : Nat) (rd : BitVec 5) (ptr : Word)
  /-- A BCLOSE waiting for its summaries (R200). -/
  | close (id : Nat) (rd : BitVec 5)
  /-- FENCES: the accesses whose acknowledgement it waits for (R203). -/
  | fences (ids : List Nat)
  /-- REPF reading its frame: the words so far (R125). -/
  | capture (words : List InsnWord)
  /-- REPF running its frame: the words, the next instruction to present (passes still to run, index, phase), and the
  fault that stops it (cause and mtval). -/
  | frame (words : List InsnWord) (cnt ix ph : Nat) (stop : Option (Nat × Word))
  /-- Presented again at each turn until there is room; msg: a message makes the room (R196, R209, R298). -/
  | waiting (msg : Bool)
  /-- An engine instruction that met a full queue, presented again at each turn (R45). -/
  | engine
  /-- CTXSAV or CTXRST waiting for the engines to freeze, then 64 rotations (R240). -/
  | context (left : Option Nat)
  deriving DecidableEq, Repr

/-- The 64-byte code line a slot holds (R297): its device virtual address divided by 64, and its 16 words. -/
structure Line where
  ix    : Nat
  words : List InsnWord
  deriving DecidableEq, Repr

/-- A slot: one hart (R20 to R23, F03, F14 Table 14.2). -/
structure Slot where
  st         : SlotState := .empty
  mode       : Mode := .u
  pc         : Word := 0
  x          : Vector Word 32 := Vector.replicate 32 0
  f          : Vector Word 32 := Vector.replicate 32 0
  fflags     : BitVec 5 := 0
  frm        : BitVec 3 := 0
  h          : Vector (BitVec 8) 8 := Vector.replicate 8 0
  mstMIE     : Bool := false
  mstMPIE    : Bool := false
  mstMPP     : Mode := .u
  mie        : BitVec 4 := 0
  mip        : BitVec 4 := 0
  mtvec      : Word := 0x000F0000
  mcounteren : BitVec 3 := 7
  mscratch   : Word := 0
  mepc       : Word := 0
  mcause     : Word := 0
  mtval      : Word := 0
  mcycle     : Word := 0
  minstret   : Word := 0
  segbase    : Word := 0
  seglim     : Word := 0
  qowner     : BitVec 17 := 0
  bundle     : Nat := 0
  /-- The word an LR reserved (global address), R91. -/
  resv       : Option Nat := none
  /-- Pending token expiries (token values) and a pending copy-side segment fault (offset), R246. -/
  p27        : List Nat := []
  p30        : Option Word := none
  /-- Ring of the most recent mailbox write directed to this slot (R247). -/
  supRing    : Nat := 0
  line       : Option Line := none
  /-- A requested line that has arrived and from which nothing has been issued yet. -/
  ahead      : Option Line := none
  /-- A fetch fault waiting for its turn: the line, and the cause, 1 or 12 (R100). -/
  fetchFault : Option (Nat × Nat) := none
  park       : Option Await := none
  /-- First cycle whose boundary may return the slot to ISSUING (R43, R46). -/
  wakeAt     : Option Nat := none
  hold       : Option Hold := none
  /-- The word of the instruction in progress while hold is set. -/
  insn       : InsnWord := 0
  /-- A remote load was answered with error bits: its pointer, for the trap at the first turn (R197). -/
  reply      : Option Word := none
  /-- A rewound RLDF whose reply has not been seen: the number of its request and its pointer (R354). -/
  rewound    : Option (Nat × Word) := none
  trap       : Option TrapKind := none
  /-- Stands at the reserved word that holds its bundle (R74); leaves TRAPPED for EMPTY (R279). -/
  offender   : Bool := false
  ends       : Bool := false
  /-- The pc of a GBAR that has had its first presentation (R121), and of those at which the traps in progress were taken. -/
  arrived    : Option Word := none
  outer      : List (Option Word) := []
  /-- Cycle of the HALT (R105). -/
  haltAt     : Nat := 0
  deriving DecidableEq, Repr

/-- A ring descriptor (Table 01.9). -/
structure Ring where
  kind  : BitVec 3 := 0
  valid : Bool := false
  lgcnt : BitVec 4 := 0
  size8 : BitVec 10 := 0
  base  : BitVec 20 := 0
  head  : Nat := 0
  tail  : Nat := 0
  fill  : Nat := 0
  scope : BitVec 2 := 0
  sgrp  : BitVec 8 := 0
  level : Bool := false
  vnet  : BitVec 2 := 0
  eng   : BitVec 2 := 0
  port  : BitVec 8 := 0
  deriving DecidableEq, Repr

/-- Where an access goes (R193, R199): a virtual core of this package (its key), the signal memory of a die, a virtual
core or a signal memory of another package, or memory off the cores (HBM, second tier, host; R202). -/
inductive Dest where
  | vc (vk : Nat)
  | sig (die : Nat)
  | farVc (node job vcid : Nat)
  | farSig (node die : Nat)
  | memory
  /-- A physical core or a Sarob ingress, as the source of a redirect marker (R331). -/
  | core (g : Nat)
  | ingress (port : Nat)
  deriving DecidableEq, Repr

/-- The three virtual networks (R254). -/
inductive VNet where
  | request
  | reply
  | control
  deriving DecidableEq, Repr

/-- Remote atomic operations (R205). -/
inductive AtomicOp where
  | add
  | fadd
  | min
  | max
  | swap
  | cas
  deriving DecidableEq, Repr

/-- How a remote store acts at its home (R198, R204). -/
inductive StoreKind where
  | plain
  | setFull
  | release (sc : Scope) (pc : Word)
  /-- A release that a boundary router has forwarded as a plain store. -/
  | missed
  deriving DecidableEq, Repr

/-- What names an access at its source: its number, its slot and its batch. -/
structure Tag where
  id   : Nat
  slot : Nat
  bt   : Nat
  deriving DecidableEq, Repr

/-- What a message carries. -/
inductive Body where
  /-- RLD and RLDF (R197). -/
  | load (id slot : Nat) (ptr : Word) (full : Bool)
  /-- A remote store (R198, R209, R210); heldOn: the value of the token it is held on. -/
  | store (t : Tag) (ptr data : Word) (kind : StoreKind) (heldOn : Option Nat)
  /-- A remote atomic with its sequence id and source core; dup: passed on by the endpoint as retransmitted
  (R206, R345). -/
  | atomic (id slot seq srcCore : Nat) (ptr : Word) (op : AtomicOp) (v cmp : Word) (dup : Bool)
  /-- A close request of BCLOSE id for a batch (R200). -/
  | close (id bt : Nat)
  /-- A WENQ payload for ring ix, from the engine operation with this number (R214). -/
  | enqueue (t : Tag) (ix : Nat) (payload : List Byte)
  /-- A port-ring message: its port and word as pushed (R416). -/
  | port (vnet : VNet) (port : Nat) (word : Word)
  /-- A supervisor message (R243). -/
  | mailbox (sslot ring : Nat) (words : List Word)
  /-- An element of a copy read at another virtual core, signal memory or package: n bytes; bank of the weight store: 0 the active
  bank of its home, 1 the other, 2 and 3 the physical ones (R220). -/
  | copyRead (t : Tag) (ptr : Word) (n bank : Nat)
  /-- An element of a copy written there (R220); full: whether its first and its second word become full with it. -/
  | copyWrite (t : Tag) (ptr : Word) (bytes : List Byte) (bank : Nat) (full : Bool × Bool)
  /-- Bytes of a graft from offset off on, for operation op of the sending package's Vintner (R315). -/
  | rackWrite (op off : Nat) (bytes : List Byte)
  /-- What two Vintners tell each other of a migration (R315): the operation of the one that asks, the code, words. -/
  | vntControl (op code : Nat) (words : List Word)
  /-- A levelled work-ring entry (R298). -/
  | level (ring : Nat) (w0 w1 : Word)
  | loadReply (id slot : Nat) (err : BitVec 16) (v : Word)
  /-- status: 0 done, 1 failed at the home, 2 outcome unknown (R205, R206). -/
  | atomicReply (id slot status : Nat) (v : Word) (flags : BitVec 5)
  | summary (id : Nat) (bits : BitVec 16)
  /-- The request comes back: its home cannot take it now (R197 table full; R357 absent). -/
  | retry (req : Body) (absent : Bool)
  /-- The request comes back: the hold queue is full (R211). -/
  | refusal (req : Body)
  /-- A landing acknowledgement: the access, its error bits, and the miss mark of R356. -/
  | ack (id slot : Nat) (bits : BitVec 16) (miss : Bool)
  | release (tok : Nat)
  | expiry (tok : Nat)
  | scopeMiss (slot : Nat) (record : List Word)
  /-- A redirect marker of the move with this number (R331). -/
  | marker (net : VNet) (move : Nat)
  /-- An arrival at a group (R121). -/
  | arrive (group : Nat) (value : Word)
  /-- An episode of a group completes: its eight results (R121). -/
  | guyline (group : Nat) (results : List Word)
  deriving DecidableEq, Repr

/-- A message in a network: its source, destination and network decide the per-pair order (R255). -/
structure Msg where
  src  : Dest
  dst  : Dest
  net  : VNet
  body : Body
  /-- Sent under the translation that held before the move of its destination with this number, and forwarded by that move and the later
  ones (R331). -/
  before : Option Nat := none
  /-- Sent again after a refusal or a retry (R211, R357). -/
  resent : Bool := false
  deriving DecidableEq, Repr

/-- A flit, eight words (Table 13.10). -/
abbrev Flit := List Word

/-- An entry of the group table (R292) with its guyline episode (R121). -/
structure Group where
  valid    : Bool := false
  owner    : Nat := 0
  own      : Bool := false
  gid      : Nat := 0
  episodes : BitVec 32 := 0
  /-- The open episode: its members (virtual-core keys) and the arrivals made. -/
  members  : List Nat := []
  arrivals : List (Nat × Word) := []
  isOpen   : Bool := false
  /-- Arrivals held for the next episode (R121). -/
  early    : List (Nat × Word) := []
  deriving DecidableEq, Repr

/-- An accumulator configuration (Table 06.2); cw is a physical LM address. -/
structure AccCfg where
  m    : Nat := 64
  n    : Nat := 64
  i32  : Bool := false
  ev   : Bool := false
  cwen : Bool := false
  kb   : Nat := 1
  cw   : Nat := 0
  deriving DecidableEq, Repr

/-- An accepted engine instruction with its acceptance-time operands (R149, R175, R219, Table 14.4). The word is that
after REPF stagger. -/
structure QEntry where
  word   : InsnWord
  slot   : Nat
  frm    : BitVec 3 := 0
  op     : Word := 0
  /-- Rings of the producer, first consumer and second consumer operands, and the slots still to be written or read
  through each. -/
  rd     : Option Nat := none
  ra     : Option Nat := none
  rb     : Option Nat := none
  nd     : Nat := 0
  na     : Nat := 0
  nb     : Nat := 0
  /-- K-blocks completed of an MMA, and its offsets at the start. -/
  kdone  : Nat := 0
  o      : Nat := 0
  bo     : Nat := 0
  /-- The flags its completed K-blocks have raised. -/
  raised : BitVec 5 := 0
  /-- The segment of the issuing slot at acceptance (R219), and its mode. -/
  base   : Nat := 0
  lim    : Nat := 0
  mMode  : Bool := false
  /-- A stamp of the acceptance, for the order between folded virtual cores (R51). -/
  stamp  : Nat := 0
  /-- Number of the access a COPY or WENQ is for FENCES (R203). -/
  id     : Nat := 0
  /-- Position in its REPF frame: passes still to run, index, phase (R125). -/
  pos    : Option (Nat × Nat × Nat) := none
  /-- pc of the instruction, for supervisor messages. -/
  pc     : Word := 0
  /-- A copy behind a faulted one: it completes unstarted (R221). -/
  cancelled : Bool := false
  deriving DecidableEq, Repr

/-- The operation in progress in an engine. -/
structure Running where
  entry : QEntry
  flags : BitVec 5 := 0
  /-- Bank-select bit at the start (R163, R220). -/
  bank  : Bool := false
  /-- Matrix: records consumed or written. Copy: elements of this execution. -/
  count : Nat := 0
  /-- Copy: coordinate record and the two layout entries captured at the start, the next element, the product of the
  extents, the bank-select bits of the virtual cores met, and the fault found: its status and detail. -/
  record : List Word := []
  src   : List Word := []
  dst   : List Word := []
  pos   : Nat := 0
  total : Nat := 0
  banks : List (Nat × Bool) := []
  fault : Option (Nat × Word) := none
  /-- Copy: the messages of its element that are out, the bytes read elsewhere, and that a write was refused. -/
  asked : List Nat := []
  got   : Option (List Byte) := none
  refused : Bool := false
  /-- WENQ: its payload is on its way. -/
  sent  : Bool := false
  /-- All steps but the completion are made. -/
  finished : Bool := false
  deriving DecidableEq, Repr

/-- State of a token entry (R208). -/
inductive TokState where
  | pending
  | landed
  | expired
  deriving DecidableEq, Repr

/-- A token table entry (R208). -/
structure Token where
  valid  : Bool := false
  gen    : Nat := 0
  slot   : Nat := 0
  st     : TokState := .pending
  fol    : Bool := false
  dest   : Dest := .memory
  deps   : List Dest := []
  /-- Cycle of issue in the count of the hosting die, which a move rebases (Table 13.6); a stamp of when it landed or
  expired. -/
  cyc    : Int := 0
  ended  : Nat := 0
  /-- pc of the tokened store, for a message about it (Table 09.7). -/
  pc     : Word := 0
  deriving DecidableEq, Repr

/-- A batch (R199). bits: SDX, and the errors of stores counted by acknowledgement. -/
structure Batch where
  dests : List Dest := []
  bcast : Bool := false
  og    : Bool := false
  bits  : BitVec 16 := 0
  epoch : Nat := 0
  deriving DecidableEq, Repr

/-- A BCLOSE (R200): close requests still to be sent, destinations that have not answered, and the sum so far. -/
structure Close where
  id    : Nat
  bt    : Nat
  epoch : Nat
  slot  : Nat
  todo  : List Dest := []
  wait  : Nat := 0
  bc    : Bool := false
  og    : Bool := false
  npeer : Nat := 0
  bits  : BitVec 16 := 0
  deriving DecidableEq, Repr

/-- An access not yet acknowledged (R203): a store, WENQ or copy. counted: by acknowledgement in batch bt (R199);
token: the entry and generation of its own token (R209). -/
structure Access where
  id    : Nat
  slot  : Nat
  dests : List Dest
  copy  : Bool := false
  bt    : Nat := 0
  epoch : Nat := 0
  counted : Bool := false
  token : Option (Nat × Nat) := none
  deriving DecidableEq, Repr

/-- Why a request stays at its source. -/
inductive KeptWhy where
  /-- Behind an earlier kept request. -/
  | behind
  /-- A release waiting for these accesses (R203). -/
  | release (ids : List Nat)
  /-- A store waiting for the token in this entry (R210, R211). -/
  | token (entry : Nat)
  /-- Refused without a token of its own (R211). -/
  | refused
  /-- Answered with retry by an absent virtual core: the cycle from which it may be reissued (R357). -/
  | absent (due : Nat)
  /-- An RLDF answered with retry by a full far-wait table (R197). -/
  | again (due : Nat)
  deriving DecidableEq, Repr

/-- A request kept at its source, outside the egress queue. wide: later requests of every slot of the virtual core to
the destination stay behind it; otherwise those of its slot. ret: it, or one before it, has come back. refused: it was refused, or
follows a refused one (R211). -/
structure Kept where
  msg  : Msg
  slot : Nat := 0
  why  : KeptWhy := .behind
  wide : Bool := false
  ret  : Bool := false
  refused : Bool := false
  /-- It has never been sent. -/
  fresh : Bool := false
  deriving DecidableEq, Repr

/-- A request in a hold queue (R211). -/
structure Held where
  msg    : Msg
  /-- The token it waits for; none when it waits behind another, or its token has been released. -/
  heldOn : Option Nat := none
  /-- A WENQ payload waiting for a free slot (R214). -/
  enq    : Bool := false
  /-- A direct message that arrived before the redirect marker of its source (R331, step 8). -/
  direct : Bool := false
  deriving DecidableEq, Repr

/-- Error bits recorded for a source and batch (R200). -/
structure ErrRec where
  src  : Dest
  bt   : Nat
  bits : BitVec 16
  /-- The last record of a full table, which also stands for other sources and batches (Table 14.5). -/
  shared : Bool := false
  deriving DecidableEq, Repr

/-- An RLDF waiting at its home (R197). -/
structure FarWait where
  src  : Dest
  slot : Nat
  id   : Nat
  ptr  : Word
  addr : Nat
  deriving DecidableEq, Repr

/-- What a home remembers of one source core's atomics (R206). -/
structure ReplyCache where
  /-- Sequence id, value and flags, most recent first, at most 32. -/
  results : List (Nat × Word × BitVec 5) := []
  used    : Nat := 0
  deriving DecidableEq, Repr

/-- A FORK waiting for its boundary (R103): the registers are copied at the FORK's issue cycle. -/
structure ForkReq where
  slot  : Nat
  image : Slot
  cyc   : Nat
  deriving DecidableEq, Repr

/-- Why a virtual core is being held (R232, R328, R354, R362). qsce: slots are taken at QSCE only. -/
structure HoldReq where
  kind : TrapKind
  qsce : Bool := false
  /-- Slot that caused it, for migration and pre-emption. -/
  slot : Nat := 0
  deriving DecidableEq, Repr

/-- A move in progress (R331). step: 0 queued, 1 waiting for the hold with a target reserved, 2 being copied, 3 copied and
waiting to resume. -/
structure Move where
  step   : Nat := 0
  src    : Nat := 0
  dst    : Nat := 0
  /-- 0 migrate trap, 1 MIGR, 2 return (R333). -/
  status : Nat := 0
  rd     : Nat := 0
  wantDie : Option Nat := none
  heldAt : Nat := 0
  queuedAt : Nat := 0
  waited : Nat := 0
  base   : Nat := 0
  redir  : Nat := 0
  deriving DecidableEq, Repr

/-- A virtual core (R19, Table 01.1). -/
structure VCore where
  gid     : Nat := 0
  vcid    : Nat := 0
  live    : Bool := false
  /-- GCID of the hosting core; none while absent (R356). -/
  place   : Option Nat := none
  fold    : Nat := 0
  fidx    : Nat := 0
  /-- Physical base of the launch segment. -/
  base    : Nat := 0
  groups  : List Nat := []
  supmbox : Word := 0
  fitness : BitVec 32 := 0
  evalcnt : BitVec 32 := 0
  mflags  : BitVec 5 := 0
  /-- Flags of mflags raised in the cycle before flagCyc (R148). -/
  flagNew : BitVec 5 := 0
  flagCyc : Nat := 0
  smring  : BitVec 8 := 0
  evring  : BitVec 8 := 0
  rings   : FMap Ring := []
  sems    : Vector (BitVec 16) 32 := Vector.replicate 32 0
  /-- Engine number to bound slot (R38). -/
  binds   : FMap Nat := []
  /-- Accumulator elements that are not zero: element (i, j) at 64 i + j. -/
  acc0    : FMap (BitVec 32) := []
  acc1    : FMap (BitVec 32) := []
  cfg0    : AccCfg := {}
  cfg1    : AccCfg := {}
  ser0    : Word := 0
  ser1    : Word := 0
  wp      : Vector (BitVec 36) 8 := Vector.replicate 8 0
  bank    : Bool := false
  /-- The projected matrix state of R150. -/
  pcfg0   : AccCfg := {}
  pcfg1   : AccCfg := {}
  pwp     : Vector (BitVec 36) 8 := Vector.replicate 8 0
  pbank   : Bool := false
  /-- WSWAPs waiting for the engine's next instruction boundary (R163). -/
  swaps   : Nat := 0
  vacc    : Vector (BitVec 32) 64 := Vector.replicate 64 0
  /-- Engine number to its queue, oldest first, and to its operation in progress. -/
  queue   : FMap (List QEntry) := []
  run     : FMap Running := []
  frozen  : Bool := false
  /-- Engines whose context of this folded virtual core is in its engine context area (R51). -/
  parkedCtx : List Nat := []
  /-- Layout table (Table 08.8), four words an entry. -/
  lt      : FMap (List Word) := []
  tokens  : FMap Token := []
  holdQ   : List Held := []
  /-- Sources and networks whose requests are turned back until the first resent one arrives (R211, R357); true: with
  retry. -/
  refusing : List (Dest × VNet × Bool) := []
  kept    : List Kept := []
  batches : Vector Batch 4 := Vector.replicate 4 {}
  closes  : List Close := []
  errs    : List ErrRec := []
  unacked : List Access := []
  owed    : Nat := 0
  farWait : List FarWait := []
  cache   : FMap ReplyCache := []
  /-- Guyline: membership index to its pending bit, and to its eight results (R120). -/
  gpend   : FMap Bool := []
  gres    : FMap (List Word) := []
  srkey   : Word := 0
  srpos   : Word := 0
  forks   : List ForkReq := []
  /-- The holds asked for, oldest first. -/
  holds   : List HoldReq := []
  /-- Frozen by CTXSAV (R241). -/
  ctxFrozen : Bool := false
  move    : Option Move := none
  /-- Migration records that wait for room in the event ring. -/
  owedRecs : List (Word × Word) := []
  /-- The slot that took PRE; whether CTXSAV has cleared PRE; whether the ending HALT has issued (R355). -/
  lead    : Option Nat := none
  saveOk  : Bool := false
  ending  : Bool := false
  /-- Address in HBM of the save extent while saved (R353), and whether the copy-out has ended. -/
  extent  : Option Nat := none
  copied  : Bool := false
  absentLog : List Msg := []
  /-- Port messages saved with it (R356). -/
  spilled : List Msg := []
  /-- Cores saved from and, once chosen, resumed on; order of its resumption request (R293, R358). -/
  former  : Nat := 0
  resume  : Option Nat := none
  reqSeq  : Nat := 0
  /-- Stall monitor: cycle at which its clock started, report posted (R300). -/
  stallAt : Option Nat := none
  stallSent : Bool := false
  deriving DecidableEq, Repr

/-- What stays with a physical core (Table 01.1). -/
structure PCore where
  en       : Bool := false
  /-- Reserved for a launch or as a migration target; moving (Table 13.5). -/
  reserved : Bool := false
  mig      : Bool := false
  stallthr : BitVec 32 := 0x00100000
  tokexp   : BitVec 32 := 0x00040000
  sqfen    : Bool := false
  cmapIdx  : BitVec 12 := 0
  egress   : List Msg := []
  /-- Reply and control port messages waiting in the spill area (R416), at most 64. -/
  spill    : List Msg := []
  /-- Atomic sequence counter per destination home (R206). -/
  seqs     : FMap Nat := []
  /-- Which virtual core's context each engine of a folded core holds (R51). -/
  owner    : FMap Nat := []
  /-- Scope-miss reports waiting for the latch (R204). -/
  latchQ   : List Msg := []
  handler  : Bool := false
  /-- A store has changed the resident handler's code (R29, R94). -/
  codeChanged : Bool := false
  /-- Virtual cores absent from this core whose copy-out has not ended (R356). -/
  saving   : List Nat := []
  frozen   : Bool := false
  /-- The time from which a stopped core runs again at a rotation boundary (R365). -/
  thaw     : Option Nat := none
  /-- A cycle, and the LM banks that remote accesses have used in it (R256). -/
  bankCyc  : Nat := 0
  /-- The cycle after that of the last port message taken (R416). -/
  tookCyc  : Nat := 0
  banks    : List Nat := []
  deriving DecidableEq, Repr

/-- A LAUNCH fixed to a rectangle, or a placement request (R293, R295): queue key, packet index and origin. -/
structure FixedRect where
  queue : Nat
  ox    : Nat
  oy    : Nat
  pw    : Nat
  ph    : Nat
  deriving DecidableEq, Repr

/-- A line request of a trellis (R297), and who waits for it. -/
structure LineReq where
  trellis : Nat
  fn      : Nat
  gid     : Nat
  line    : Nat
  waiters : List Nat := []
  deriving DecidableEq, Repr

/-- A line in a trellis instruction cache, tagged with function and gang (R288, R297). -/
structure CacheLine where
  trellis : Nat
  fn      : Nat
  gid     : Nat
  line    : Nat
  words   : List InsnWord
  deriving DecidableEq, Repr

/-- A TLB of a die: the shared one, the I-TLB of a trellis, the micro-TLB of a core (R337). -/
inductive TlbAt where
  | shared
  | itlb (trellis : Nat)
  | micro (core : Nat)
  deriving DecidableEq, Repr

/-- A cached translation (R337): function, page number, log2 of the page size, its leaf, and the TLB that holds it. -/
structure TlbEntry where
  fn   : Nat
  va   : Nat
  lg   : Nat
  leaf : Word
  at_  : TlbAt := .shared
  deriving DecidableEq, Repr

/-- A redirect entry (R325, R331): the number of its move, old and new GCID, and the markers still to be forwarded. -/
structure Redirect where
  num   : Nat
  vk    : Nat
  old   : Nat
  new   : Nat
  left  : List (Dest × VNet) := []
  deriving DecidableEq, Repr

/-- A die (F13, F11). -/
structure Die where
  cyc     : Nat := 0
  nextAt  : Nat := 0
  /-- Core clock in units of 100 MHz. -/
  clock   : Nat := 12
  up      : Bool := false
  bringup : Bool := false
  /-- The change to the service clock has been asked for (R383, step 4). -/
  service : Bool := false
  tested  : Bool := false
  failed  : Bool := false
  frozen  : Bool := false
  lvlint  : Nat := 4096
  deficit : FMap Nat := []
  pointer : FMap Nat := []
  fixed   : List FixedRect := []
  reqs    : List LineReq := []
  icache  : List CacheLine := []
  /-- Trellis to the cycle after its latest served line. -/
  served  : FMap Nat := []
  tlb     : List TlbEntry := []
  /-- Free pages of each stack port and size: (stack port, log2 size, first page address, pages). -/
  pool    : List (Nat × Nat × Nat × Nat) := []
  redirs  : FMap Redirect := []
  /-- UCIe modules up on edges N, E, S, W (R320). -/
  ucie    : List Nat := [8, 8, 8, 8]
  sigWait : List FarWait := []
  /-- Reply cache of the signal unit (R206). -/
  cache   : FMap ReplyCache := []
  /-- One more than the cycle whose boundary work (arbiter, levelling) is done. -/
  arbDone : Nat := 0
  lvlDone : Nat := 0
  /-- Hottest junction, signed, in units of 1/16 °C. -/
  temp    : BitVec 16 := 0
  /-- The clock changed to takes effect at a rotation boundary, not before the time changeAt (R383, R386). -/
  newClock : Option Nat := none
  changeAt : Nat := 0
  /-- Above 110 °C (R386). -/
  hot     : Bool := false
  deriving DecidableEq, Repr

/-- A completion that waits to post (R277): record words, signal pointer. -/
structure Completion where
  word0 : Word
  word1 : Word
  cr    : Bool
  cs    : Option Word
  index : Nat := 0
  type  : Nat := 0
  pkt   : List Word := []
  deriving DecidableEq, Repr

/-- A fetched packet that has not issued, or an issued one that has not completed (R276). -/
structure Packet where
  index : Nat
  words : List Word
  issued : Bool := false
  /-- LAUNCH: die and origin chosen, gang id once placed. QUIESCE: progress. VINTNER: ticket. COPY: bytes moved. -/
  die   : Nat := 0
  gid   : Nat := 0
  step  : Nat := 0
  moved : Nat := 0
  timeout : Option Nat := none
  stamp : Nat := 0
  /-- LAUNCH: header and patch list as read by the launch checks, and the origin once placed. -/
  header : List Word := []
  patches : List Word := []
  /-- WAIT: moved counts the entries read in the evaluation in progress; the time of the last read, plus 1 (R268). -/
  readAt  : Nat := 0
  deriving DecidableEq, Repr

/-- A command queue: its descriptor (Table 11.2) and its packets. -/
structure Queue where
  en      : Bool := false
  memva   : Bool := false
  lgsz    : Nat := 0
  base    : Nat := 0
  prio    : Nat := 0
  pre     : Bool := true
  weight  : Nat := 1
  opmask  : BitVec 16 := 0
  head    : Nat := 0
  tail    : Nat := 0
  stopped : Bool := false
  lgcr    : Nat := 0
  cbase   : Nat := 0
  ebase   : Nat := 0
  chead   : BitVec 16 := 0
  ctail   : BitVec 16 := 0
  /-- Words 8 to 15: the four address windows. -/
  windows : List Word := [0, 0, 0, 0, 0, 0, 0, 0]
  /-- The packet at head, fetched and blocked (R276). -/
  front   : Option Packet := none
  issued  : List Packet := []
  posting : List Completion := []
  /-- A stop leaves the packet at head to be skipped at the restart (R273). -/
  skip    : Bool := false
  /-- The record fault of R436 stopped it. -/
  recFault : Bool := false
  /-- Extent-1 QUIESCE holds its issue (R362). -/
  quiet   : Bool := false
  deriving DecidableEq, Repr

/-- A PCI Express function (F15). -/
structure Func where
  root     : Option Nat := none
  peers    : BitVec 8 := 0
  ringEn   : Bool := false
  ringLg   : Nat := 0
  ringBase : Nat := 0
  frtail   : Nat := 0
  frhead   : Nat := 0
  masked   : BitVec 33 := 0
  pending  : BitVec 33 := 0
  /-- MSI-X vectors fired, oldest first. -/
  fired    : List Nat := []
  /-- Page-table pages taken from the function's table pool. -/
  tables   : Nat := 0
  deriving DecidableEq, Repr

/-- A live gang (R288, R326, Table 14.9). -/
structure Gang where
  live    : Bool := true
  job     : Nat := 0
  die     : Nat := 0
  ox      : Nat := 0
  oy      : Nat := 0
  fold    : Nat := 0
  slots   : Nat := 1
  gw      : Nat := 1
  gh      : Nat := 1
  lmlimit : Nat := 0
  wslimit : Nat := 0
  func    : Nat := 0
  queue   : Nat := 0
  prio    : Nat := 0
  pre     : Bool := false
  image   : Nat := 0
  textSize : Nat := 0
  /-- Patch entries of the image and the group index bound to each symbol (R284, R288). -/
  patches : List Word := []
  symbols : List Nat := []
  gjoin   : Nat := 0
  own     : Nat := 0
  pidx    : Nat := 0
  tag     : Nat := 0
  cr      : Bool := false
  cs      : Option Word := none
  supmbox : Word := 0
  lmask   : Nat := 0
  arg     : Word := 0
  /-- GCIDs whose launch slots the release has not yet made ISSUING (R288, step 6). -/
  toRelease : List Nat := []
  /-- Its state is set, in this cycle of its die, and the release is on its way. -/
  ready   : Option Nat := none
  terminated : Bool := false
  /-- A bundle of it was terminated by a RESUME (R279). -/
  partly : Bool := false
  /-- Its completion is not posted (R374). -/
  silent  : Bool := false
  quiesced : Bool := false
  /-- The sum of the batches that its slots have closed (R413). -/
  closed  : Close := { id := 0, bt := 0, epoch := 0, slot := 0 }
  deriving DecidableEq, Repr

/-- A pair of a selection (Table 09.4). -/
structure VPair where
  child  : Nat
  parent : Nat
  prank  : Nat
  crank  : Nat
  deriving DecidableEq, Repr

/-- A racked pair (R303): VCIDs and the fitness bits of the ranking. -/
structure Racked where
  child  : Nat
  parent : Nat
  cfit   : Nat
  pfit   : Nat
  deriving DecidableEq, Repr

/-- The last racking or migration of a group: generation, seed, sigma, pairs, node of a migration, the logged mark. -/
structure VRecord where
  gen    : Nat
  seed   : Word
  sigma  : Nat
  pairs  : List Racked
  node   : Nat := 0
  logged : Bool := false
  deriving DecidableEq, Repr

/-- Vintner state of a group (Table 12.1). A rank: VCID, fitness bits, evaluation count. -/
structure VGroup where
  ticket    : Nat := 0
  ranking   : Option (List (Nat × Nat × Nat)) := none
  selection : Option (List VPair) := none
  racking   : Option VRecord := none
  migration : Option VRecord := none
  logBase   : Nat := 0
  deriving DecidableEq, Repr

/-- Where a member of a Vintner operation stands. -/
inductive Member where
  | waiting
  | held
  | skipped
  deriving DecidableEq, Repr

/-- How far a Vintner operation is. -/
inductive VStage where
  | queued
  | holding
  /-- Grafts are on their way to children of this package. -/
  | racking
  /-- A migration whose graft is on its way to the other package. -/
  | away
  /-- Performed: the completion is still to be written; the event record is still to be written. -/
  | done
  | record
  deriving DecidableEq, Repr

/-- An operation in the Vintner's queue (R226). kind: funct7 - 4. -/
structure VOp where
  id      : Nat
  kind    : Nat
  grp     : Nat
  ticket  : Nat
  tag     : Nat
  ev      : Bool
  /-- The submitting virtual core; none for a packet and for a migration that comes from another package. -/
  vk      : Option Nat
  /-- LM address of the result buffer, the limit that R31 sets it, and the launch base of the virtual core, all at the issue. -/
  res     : Nat
  lim     : Nat
  base    : Nat := 0
  mMode   : Bool
  /-- VINTNER packet: its queue, packet index and result buffer address. -/
  packet  : Option (Nat × Nat × Nat) := none
  params  : List Word
  /-- The members at submission, in ascending order. -/
  members : List Nat
  stage   : VStage := .queued
  started : Nat := 0
  holds   : List (Nat × Member) := []
  /-- A migration from another package: who asks, and the number of the operation there. -/
  peer    : Option (Dest × Nat) := none
  /-- The last code of the other Vintner, and the fitness bits it reports (R315). -/
  answer  : Option Nat := none
  cfit    : Nat := 0
  /-- Children being racked: graft bytes still to come, elements perturbed. -/
  left    : List (Nat × Nat × Nat) := []
  /-- What a migration will be logged with. -/
  record  : Option VRecord := none
  status  : Nat := 0
  count   : Nat := 0
  results : List Word := []
  deriving DecidableEq, Repr

/-- State of a Sarob link (R344). -/
inductive LinkState where
  | up
  | retraining
  | failed
  deriving DecidableEq, Repr

/-- A Sarob port (R341, R344): X+, X-, Y+, Y-, Z+, Z-, W+, W-. -/
structure Port where
  lanes   : Nat := 8
  link    : LinkState := .up
  /-- Next link sequence to send, next one expected, and whether flits are discarded until it comes. -/
  next    : Nat := 0
  expect  : Nat := 0
  nakSent : Bool := false
  /-- Flits sent and not acknowledged, oldest first, and those waiting for room in the buffer or for a credit. -/
  buffer  : List Flit := []
  waiting : List Flit := []
  /-- Credits in use, by channel: 2 × network + virtual channel. -/
  spent   : FMap Nat := []
  /-- Flits with an unassigned op (R343). -/
  errors  : Nat := 0
  replays : Nat := 0
  downAt  : Nat := 0
  deriving DecidableEq, Repr

/-- A message sent to another package and not yet acknowledged, or answered (R345). -/
structure Sent where
  eseq  : Nat
  msg   : Msg
  tries : Nat := 0
  due   : Nat := 0
  deriving DecidableEq, Repr

/-- The source side of a (destination package, network) pair. -/
structure FarOut where
  next  : Nat := 0
  sent  : List Sent := []
  /-- Requests that expect a reply and have been acknowledged. -/
  asked : List Sent := []
  deriving DecidableEq, Repr

/-- The destination side of a (source package, network) pair: the next sequence, and the arrivals held early. -/
structure FarIn where
  expect : Nat := 0
  early  : List (Nat × List Flit) := []
  deriving DecidableEq, Repr

/-- How far the package has booted (R383, R384). -/
inductive Boot where
  | off
  | running
  | rejected
  deriving DecidableEq, Repr

/-- What an event concerns: the table gives an event no bits, so its operands come from here (log entry 2). Each
event's meaning says which of the fields it reads. -/
structure Ev where
  key  : Nat := 0
  ix   : Nat := 0
  val  : Word := 0
  data : List Word := []
  deriving DecidableEq, Repr

/-- What moves next: an event with its operands, or the barrel (log entry 2). -/
inductive Choice where
  | event (i : Instr) (e : Ev)
  | turn
  deriving DecidableEq, Repr

/-- The state of the package. -/
structure State where
  /-- Bytes of every space (Machine/Memory gives the address of each space) and the words whose full bit is 1. -/
  mem    : Memory := []
  full   : List Nat := []
  /-- Slots by slot key, virtual cores by key, physical cores by GCID, dies by number. -/
  slots  : FMap Slot := []
  vcs    : FMap VCore := []
  cores  : FMap PCore := []
  dies   : FMap Die := []
  gangs  : FMap Gang := []
  groups : FMap Group := []
  funcs  : FMap Func := []
  queues : FMap Queue := []
  /-- Messages accepted by the networks, in order of acceptance. -/
  net    : List Msg := []
  /-- Migration entries (virtual-core key to GCID) and the migration queue (R325, R329). -/
  migs   : FMap Nat := []
  migQ   : List Nat := []
  /-- The Vintner: its queue and its state per group (R226, R303). -/
  vops   : List VOp := []
  vgroups : FMap VGroup := []
  /-- Package time in units of 10 ns / 232,792,560, a common multiple of every clock period. -/
  now    : Nat := 0
  /-- Node id of the package, set by firmware at boot (R340). -/
  node   : Nat := 0
  /-- Number of the next request. -/
  nextId : Nat := 0
  boot   : Boot := .off
  /-- svc of Table 15.1, and whether the host link is up. -/
  svc    : Nat := 0
  hostLink : Bool := false
  /-- Power in W over 1 ms, the limit, and the hottest HBM stack. -/
  pwr    : Nat := 0
  plim   : Nat := 6000
  thbm   : BitVec 16 := 0
  /-- Time of the latest power control step. -/
  powerAt : Nat := 0
  /-- Measurement log: SHA-256 entries (R385). -/
  mlog   : List (List Byte) := []
  /-- What the host last read from a BAR. -/
  hostRead : Word := 0
  /-- Interleaved CXL ports and the bytes of the tier (R382). -/
  tierPorts : List Nat := []
  tierCap   : Nat := 0
  /-- The hash of the firmware-signing key, in the fuses (R384). -/
  keyHash   : List Byte := List.replicate 32 0
  /-- Sarob fabric: sizes of X, Y, Z and W, ports, flits received for this package, sequenced pairs, failed links
  (node, port), unreachable nodes (R340 to R346). -/
  dims   : List Nat := [1, 1, 1, 1]
  ports  : FMap Port := []
  arrived : List (List Flit) := []
  farOut : FMap FarOut := []
  farIn  : FMap FarIn := []
  deadLinks : List (Nat × Nat) := []
  unreachable : List Nat := []
  /-- The next read of host memory, or of the second tier through this port, fails (R381, R382). -/
  hostFail : Bool := false
  cxlFail  : Option Nat := none
  /-- The next write of host memory fails (R381, R436). -/
  hostWriteFail : Bool := false
  /-- The model's own fields: what moves next, the slots of the current cycle that have not had their turn, the slot
  whose turn it is, the operands of the event, the count of free values taken (log entries 2 and 9). -/
  agenda : List Choice := []
  turns  : List Nat := []
  cur    : Nat := 0
  ev     : Ev := {}
  free   : Nat := 0
  deriving DecidableEq, Repr

/-- Why a step can stop: it never does, since the spec gives every instruction and event an effect. -/
inductive Fault where
  deriving DecidableEq, Repr

/-- Why an instruction has no meaning. -/
inductive Refusal where
  /-- Raised by exec for a row that is not modelled. Safe: nothing is claimed of it. -/
  | notModelled (mnemonic : String)
  deriving DecidableEq, Repr

/-- The package right after reset (R383: PERST# not yet released). -/
def State.reset : State := {}

end Sys2Proof.Machine
end

