-- ==== Sys2Proof/Machine/Maps.lean ====
section
/-! DEFINITION. Operations on sparse tables and on memory. Every operation keeps the sorted form. -/

namespace Sys2Proof.Machine

/-! Sparse tables. -/

/-- The entry of a key, if listed. -/
def FMap.get? {α : Type} (m : FMap α) (k : Nat) : Option α :=
  (m.find? (fun p => p.1 == k)).map Prod.snd

/-- The entry of a key, or the default. -/
def FMap.getD {α : Type} (m : FMap α) (k : Nat) (d : α) : α :=
  (FMap.get? m k).getD d

/-- The table without a key. -/
def FMap.del {α : Type} (m : FMap α) (k : Nat) : FMap α :=
  m.filter (fun p => p.1 != k)

/-- A pair put before the first larger key. -/
def insertSorted {α : Type} (k : Nat) (v : α) : List (Nat × α) → List (Nat × α)
  | [] => [(k, v)]
  | p :: t => if p.1 < k then p :: insertSorted k v t else (k, v) :: p :: t

/-- The table with a key set. -/
def FMap.set {α : Type} (m : FMap α) (k : Nat) (v : α) : FMap α :=
  insertSorted k v (FMap.del m k)

/-- The entry of a key changed, when it is listed. -/
def FMap.upd {α : Type} (m : FMap α) (k : Nat) (f : α → α) : FMap α :=
  match FMap.get? m k with
  | some v => FMap.set m k (f v)
  | none => m

/-- Keys strictly rising. -/
def risingKeys : List Nat → Bool
  | [] => true
  | [_] => true
  | a :: b :: t => a < b && risingKeys (b :: t)

/-- The sorted form of a sparse table. -/
def FMap.wf {α : Type} (m : FMap α) : Bool := risingKeys (m.map Prod.fst)

/-! Memory: one address space for every space of Table 10.1. -/

/-- LM byte off of the core with this GCID. -/
def lmAddr (gcid off : Nat) : Nat := gcid * 0x100000 + off
/-- Weight-store byte off of a bank of a core. -/
def wsAddr (gcid : Nat) (bank : Bool) (off : Nat) : Nat :=
  0x80000000 + (gcid * 2 + (if bank then 1 else 0)) * 0x100000 + off
/-- Signal-memory byte off of a die. -/
def sigAddr (die off : Nat) : Nat := 0x400000000 + die * 0x8000 + off
/-- HBM physical byte. -/
def hbmAddr (pa : Nat) : Nat := 0x10000000000000 + pa
/-- Second-tier physical byte. -/
def tierAddr (pa : Nat) : Nat := 0x20000000000000 + pa
/-- Host bus byte. -/
def hostAddr (pa : Nat) : Nat := 0x30000000000000 + pa

/-- The canonical form: addresses strictly rising, no zero byte listed (log entry 4). -/
def Memory.wf (m : Memory) : Bool :=
  risingKeys (m.map Prod.fst) && m.all (fun c => c.2 != 0)

/-- One byte. -/
def Memory.read (m : Memory) (a : Nat) : Byte := FMap.getD m a 0

/-- One byte written; a zero byte is not listed. -/
def Memory.write (m : Memory) (a : Nat) (b : Byte) : Memory :=
  if b == 0 then FMap.del m a else FMap.set m a b

/-- n bytes from a as a number, little-endian (R10). -/
def Memory.readN (m : Memory) (a : Nat) : Nat → Nat
  | 0 => 0
  | n + 1 => (Memory.read m a).toNat + 256 * Memory.readN m (a + 1) n

/-- The low n bytes of v written from a. -/
def Memory.writeN (m : Memory) (a : Nat) (v : Nat) : Nat → Memory
  | 0 => m
  | n + 1 => Memory.writeN (Memory.write m a (BitVec.ofNat 8 v)) (a + 1) (v / 256) n

/-- An 8-byte word. -/
def Memory.word (m : Memory) (a : Nat) : Word := BitVec.ofNat 64 (Memory.readN m a 8)

/-- An 8-byte word written. -/
def Memory.setWord (m : Memory) (a : Nat) (v : Word) : Memory := Memory.writeN m a v.toNat 8

/-- n words from a. -/
def Memory.words (m : Memory) (a n : Nat) : List Word :=
  (List.range n).map (fun i => Memory.word m (a + 8 * i))

/-- Words written from a. -/
def Memory.setWords (m : Memory) (a : Nat) : List Word → Memory
  | [] => m
  | w :: t => Memory.setWords (Memory.setWord m a w) (a + 8) t

/-- n bytes from a. -/
def Memory.bytes (m : Memory) (a n : Nat) : List Byte :=
  (List.range n).map (fun i => Memory.read m (a + i))

/-- Bytes written from a. -/
def Memory.setBytes (m : Memory) (a : Nat) : List Byte → Memory
  | [] => m
  | b :: t => Memory.setBytes (Memory.write m a b) (a + 1) t

/-- n bytes from a set to zero. -/
def Memory.clear (m : Memory) (a n : Nat) : Memory :=
  m.filter (fun c => !(a ≤ c.1 && c.1 < a + n))

/-- Two sorted lists of pairs merged by key. -/
def mergeSorted {α : Type} : List (Nat × α) → List (Nat × α) → List (Nat × α)
  | [], ys => ys
  | x :: xs, ys => insertSorted x.1 x.2 (mergeSorted xs ys)

/-- n bytes from src copied to dst; the source is read before anything is written. -/
def Memory.copy (m : Memory) (src dst n : Nat) : Memory :=
  mergeSorted ((m.filter (fun c => src ≤ c.1 && c.1 < src + n)).map (fun c => (c.1 - src + dst, c.2)))
    (Memory.clear m dst n)

/-! Full/empty bits: the sorted list of the word addresses whose bit is 1. -/

/-- A number put before the first larger one. -/
def insertNat (a : Nat) : List Nat → List Nat
  | [] => [a]
  | b :: t => if b < a then b :: insertNat a t else a :: b :: t

def fullSet (l : List Nat) (a : Nat) : List Nat := insertNat a (l.filter (· != a))
def fullClear (l : List Nat) (a : Nat) : List Nat := l.filter (· != a)
def fullClearRange (l : List Nat) (a n : Nat) : List Nat := l.filter (fun w => !(a ≤ w && w < a + n))
/-- The bits of n bytes from src copied to dst. -/
def fullCopy (l : List Nat) (src dst n : Nat) : List Nat :=
  (((l.filter (fun w => src ≤ w && w < src + n)).map (fun w => w - src + dst))).foldl fullSet
    (fullClearRange l dst n)

/-- Bytes of a word, low byte first. -/
def bytesOf (v n : Nat) : List Byte :=
  (List.range n).map (fun i => BitVec.ofNat 8 (v / 256 ^ i))

/-- The number whose bytes these are, low byte first. -/
def ofBytes : List Byte → Nat
  | [] => 0
  | b :: t => b.toNat + 256 * ofBytes t

/-- Bytes grouped into 8-byte words, the last one padded with zeros. -/
def wordsOfBytes (bs : List Byte) : List Word :=
  (List.range ((bs.length + 7) / 8)).map (fun i => BitVec.ofNat 64 (ofBytes ((bs.drop (8 * i)).take 8)))

/-- The bytes of a list of words. -/
def bytesOfWords (ws : List Word) : List Byte :=
  ws.flatMap (fun w => bytesOf w.toNat 8)

/-- Bits hi..lo of a word as a number. -/
def bits (w : Word) (hi lo : Nat) : Nat := w.toNat / 2 ^ lo % 2 ^ (hi + 1 - lo)

/-- Bit i of a word. -/
def bit (w : Word) (i : Nat) : Bool := w.toNat / 2 ^ i % 2 == 1

end Sys2Proof.Machine
end

