-- ==== Sys2Proof/Machine/Ops.lean ====
section
/-! DEFINITION. The named operations over the state: its parts by key, registers, LM, full/empty bits, rings, waking
parked slots, taking an exception and returning from one. -/

namespace Sys2Proof.Machine

/-- The answer of a meaning. -/
abbrev Out := Host.Outcome State Fault Refusal

/-! Keys. -/

def vkey (gid vcid : Nat) : Nat := gid * 65536 + vcid
def slotKey (vk slot : Nat) : Nat := vk * 16 + slot
/-- Queue q of function f. -/
def queueKey (f q : Nat) : Nat := f * 32 + q
/-- GCID of a core (R6). -/
def gcidOf (die cx cy : Nat) : Nat := die * 256 + cy * 16 + cx

/-! The parts of the state. -/

def State.slot (s : State) (k : Nat) : Slot := FMap.getD s.slots k {}
def State.setSlot (s : State) (k : Nat) (sl : Slot) : State := { s with slots := FMap.set s.slots k sl }
def State.updSlot (s : State) (k : Nat) (f : Slot → Slot) : State := s.setSlot k (f (s.slot k))

/-- Every listed slot changed by f, which also gets its key. -/
def State.mapSlots (s : State) (f : Nat → Slot → Slot) : State :=
  { s with slots := s.slots.map (fun p => (p.1, f p.1 p.2)) }

def State.vc (s : State) (vk : Nat) : VCore := FMap.getD s.vcs vk {}
def State.setVc (s : State) (vk : Nat) (v : VCore) : State := { s with vcs := FMap.set s.vcs vk v }
def State.updVc (s : State) (vk : Nat) (f : VCore → VCore) : State := s.setVc vk (f (s.vc vk))

def State.core (s : State) (g : Nat) : PCore := FMap.getD s.cores g {}
def State.setCore (s : State) (g : Nat) (c : PCore) : State := { s with cores := FMap.set s.cores g c }
def State.updCore (s : State) (g : Nat) (f : PCore → PCore) : State := s.setCore g (f (s.core g))

def State.die (s : State) (d : Nat) : Die := FMap.getD s.dies d {}
def State.setDie (s : State) (d : Nat) (x : Die) : State := { s with dies := FMap.set s.dies d x }
def State.updDie (s : State) (d : Nat) (f : Die → Die) : State := s.setDie d (f (s.die d))

def State.gang? (s : State) (gid : Nat) : Option Gang := FMap.get? s.gangs gid
def State.gang (s : State) (gid : Nat) : Gang := FMap.getD s.gangs gid { live := false }
def State.updGang (s : State) (gid : Nat) (f : Gang → Gang) : State :=
  { s with gangs := FMap.upd s.gangs gid f }

def State.group (s : State) (g : Nat) : Group := FMap.getD s.groups g {}
def State.updGroup (s : State) (g : Nat) (f : Group → Group) : State :=
  { s with groups := FMap.set s.groups g (f (s.group g)) }

def State.func (s : State) (f : Nat) : Func := FMap.getD s.funcs f {}
def State.updFunc (s : State) (f : Nat) (u : Func → Func) : State :=
  { s with funcs := FMap.set s.funcs f (u (s.func f)) }

def State.queue (s : State) (k : Nat) : Queue := FMap.getD s.queues k {}
def State.updQueue (s : State) (k : Nat) (u : Queue → Queue) : State :=
  { s with queues := FMap.set s.queues k (u (s.queue k)) }

/-! The slot whose turn it is. -/

def State.me (s : State) : Slot := s.slot s.cur
def State.vk (s : State) : Nat := s.cur / 16
def State.ix (s : State) : Nat := s.cur % 16
def State.myVc (s : State) : VCore := s.vc s.vk
/-- GCID of the core that hosts a virtual core. -/
def State.coreOf (s : State) (vk : Nat) : Nat := (s.vc vk).place.getD 0
/-- Die that hosts a virtual core. -/
def State.dieOf (s : State) (vk : Nat) : Nat := s.coreOf vk / 256
/-- Cycle count of the die that hosts a virtual core (R42). -/
def State.cycOf (s : State) (vk : Nat) : Nat := (s.die (s.dieOf vk)).cyc
def State.updMe (s : State) (f : Slot → Slot) : State := s.updSlot s.cur f
def State.updMyVc (s : State) (f : VCore → VCore) : State := s.updVc s.vk f

/-- Slots of a virtual core: 16/F (R42). -/
def slotCount (v : VCore) : Nat := 16 / 2 ^ v.fold

/-- Barrel position of a slot (R42). -/
def barrelPos (v : VCore) (slot : Nat) : Nat := v.fidx * slotCount v + slot

/-- Virtual cores a physical core hosts, by key. -/
def State.hosted (s : State) (g : Nat) : List Nat :=
  (s.vcs.filter (fun p => p.2.live && p.2.place == some g)).map Prod.fst

/-- Virtual cores of a gang, by key. -/
def State.vcsOf (s : State) (gid : Nat) : List Nat :=
  (s.vcs.filter (fun p => p.2.live && p.2.gid == gid)).map Prod.fst

/-- The share of a virtual core in each weight-store bank (R52). -/
def State.share (s : State) (vk : Nat) : Nat := (s.gang (s.vc vk).gid).wslimit

/-- Length of the segment the launch of a virtual core declared. -/
def State.launchLenOf (s : State) (vk : Nat) : Nat := (s.gang (s.vc vk).gid).lmlimit

/-- Global address of a weight-store offset of a virtual core: its part of the bank (R52). -/
def State.wsAt (s : State) (vk : Nat) (bank : Bool) (off : Nat) : Nat :=
  let v := s.vc vk
  wsAddr (s.coreOf vk) bank (v.fidx * (0x100000 / 2 ^ v.fold) + off % 0x100000)

/-! Registers. x0 reads as zero and discards writes (R20, R59). -/

def Slot.readX (sl : Slot) (r : BitVec 5) : Word := if r = 0 then 0 else sl.x[r.toNat]'(r.isLt)
def Slot.writeX (sl : Slot) (r : BitVec 5) (v : Word) : Slot :=
  if r = 0 then sl else { sl with x := sl.x.set r.toNat v r.isLt }
def Slot.readF (sl : Slot) (r : BitVec 5) : Word := sl.f[r.toNat]'(r.isLt)
def Slot.writeF (sl : Slot) (r : BitVec 5) (v : Word) : Slot := { sl with f := sl.f.set r.toNat v r.isLt }

def State.x (s : State) (r : BitVec 5) : Word := s.me.readX r
def State.f (s : State) (r : BitVec 5) : Word := s.me.readF r
def State.setX (s : State) (rd : BitVec 5) (v : Word) : State := s.updMe (fun sl => sl.writeX rd v)
def State.setF (s : State) (rd : BitVec 5) (v : Word) : State := s.updMe (fun sl => sl.writeF rd v)

/-- An instruction completes: the pc moves past its word and minstret counts it (R99). -/
def Slot.retireAt (sl : Slot) (pc : Word) : Slot :=
  { sl with pc := pc, minstret := sl.minstret + 1, hold := none, arrived := none }

def State.retire (s : State) : State := s.updMe (fun sl => sl.retireAt (sl.pc + 4))
def State.retireTo (s : State) (pc : Word) : State := s.updMe (fun sl => sl.retireAt pc)

/-- Completion with a result in rd. -/
def State.result (s : State) (rd : BitVec 5) (v : Word) : State := (s.setX rd v).retire

/-- Completion of an instruction of L rotations: the next L - 1 turns are skipped (R45, R95). -/
def State.resultIn (s : State) (L : Nat) (rd : BitVec 5) (v : Word) : State :=
  (s.result rd v).updMe (fun sl => if L ≤ 1 then sl else { sl with hold := some (.busy (L - 1)) })

/-! Exceptions (R245). -/

/-- Trap entry: mepc, mcause and mtval are written, MPIE and MPP save MIE and the mode, and the pc goes to mtvec. A
trap clears the slot's reservation (R91); a GBAR that has arrived is presented on return (R47, R121). -/
def Slot.enter (sl : Slot) (epc cause tval : Word) : Slot :=
  { sl with
    mepc := epc, mcause := cause, mtval := tval,
    mstMPIE := sl.mstMIE, mstMIE := false, mstMPP := sl.mode, mode := .m,
    pc := sl.mtvec, resv := none, hold := none, reply := none, fetchFault := none,
    arrived := none, outer := (if sl.arrived == some sl.pc then sl.arrived else none) :: sl.outer }

/-- Return from the handler: mode and MIE are restored, MPIE becomes 1 and MPP U, and the pc is mepc. A return elsewhere than to the
GBAR at which the trap was taken forgets that it has arrived. -/
def Slot.leave (sl : Slot) : Slot :=
  { sl with
    mode := sl.mstMPP, mstMIE := sl.mstMPIE, mstMPIE := true, mstMPP := .u, pc := sl.mepc,
    arrived := if sl.outer.headD none == some sl.mepc then some sl.mepc else none, outer := sl.outer.tail }

/-- A synchronous exception of the current instruction. -/
def State.trap (s : State) (cause : Nat) (tval : Word) : State :=
  s.updMe (fun sl => sl.enter sl.pc (BitVec.ofNat 64 cause) tval)

/-- The illegal-instruction trap, mtval the word (R71). -/
def State.illegal (s : State) (w : InsnWord) : State := s.trap 2 (w.setWidth 64)

/-- The word of an instruction, as mtval shows it. -/
def insnWord (i : Instr) : InsnWord := (encode i).getD 0

/-- The illegal-instruction trap of an instruction that decodes but may not run. -/
def State.illegalI (s : State) (i : Instr) : State := s.illegal (insnWord i)

/-- An interrupt: bit 63 of mcause is set and mtval is 0. -/
def State.interrupt (s : State) (code : Nat) : State :=
  s.updMe (fun sl => sl.enter sl.pc (BitVec.ofNat 64 (2 ^ 63 + code)) 0)

/-! Waking parked slots (R43, R46). -/

/-- A parked slot that waits for what p accepts may leave at the first boundary at or after cycle cyc + 4; an earlier
enabling event stands. -/
def Slot.wake (sl : Slot) (p : Await → Bool) (cyc : Nat) : Slot :=
  match sl.st, sl.park with
  | .parked, some a =>
    if p a then (match sl.wakeAt with
      | some _ => sl
      | none => { sl with wakeAt := some (cyc + 4) })
    else sl
  | _, _ => sl

/-- Wakes slots of one virtual core. -/
def State.wakeVc (s : State) (vk : Nat) (p : Await → Bool) : State :=
  s.mapSlots (fun k sl => if k / 16 == vk then sl.wake p (s.cycOf vk) else sl)

/-- Wakes slots of every virtual core. -/
def State.wakeAll (s : State) (p : Await → Bool) : State :=
  s.mapSlots (fun k sl => sl.wake p (s.cycOf (k / 16)))

/-- The slot parks on a; the instruction will be presented again (R46). -/
def State.parkOn (s : State) (a : Await) : State :=
  s.updMe (fun sl => { sl with st := .parked, park := some a, wakeAt := none })

/-- The instruction stays in progress and is presented again at each turn (R45); msg: until a message makes room. -/
def State.waitOn (s : State) (msg : Bool) : State := s.updMe (fun sl => { sl with hold := some (.waiting msg) })

/-! LM accesses. -/

/-- The check and map of R31: the physical LM address, or cause and mtval. -/
def lmCheck (sl : Slot) (ea : Word) (n : Nat) (store : Bool) : Except (Nat × Word) Nat :=
  match sl.mode with
  | .u => if ea.toNat + n > sl.seglim.toNat then .error (30, ea) else .ok (sl.segbase.toNat + ea.toNat)
  | .m => if ea.toNat + n > 0x100000 then .error (if store then 7 else 5, ea) else .ok ea.toNat

/-- The access check of R31 before an effect: k receives the global address. -/
def State.lm (s : State) (ea : Word) (n : Nat) (store : Bool) (k : Nat → State) : State :=
  match lmCheck s.me ea n store with
  | .error (c, t) => s.trap c t
  | .ok pa => k (lmAddr (s.coreOf s.vk) pa)

/-- Reservations on the words of n bytes from a are cleared, except the slot's own where own is its key (R91). -/
def State.dropResv (s : State) (a n : Nat) (own : Option Nat) : State :=
  s.mapSlots (fun k sl =>
    match sl.resv with
    | some w => if a < w + 8 && w < a + n && own != some k then { sl with resv := none } else sl
    | none => sl)

/-- Offset of the scope-miss latch in the resident region (Table 01.7). -/
def latchOff : Nat := 0xF2FE0

/-- mip.SMI clears when the handler writes 0 to word 0 of the scope-miss latch of its core (R247). -/
def State.latchWritten (s : State) (a n : Nat) : State :=
  let g := a / 0x100000
  let l := lmAddr g latchOff
  if a < l + 8 && l < a + n && Memory.word s.mem l == 0 then
    s.mapSlots (fun k sl => if (s.vc (k / 16)).place == some g then { sl with mip := sl.mip &&& 0b1101#4 } else sl)
  else s

/-- A write to the resident code of a core, 0xF_0000 to 0xF_1FFF: its handler is no longer the one firmware wrote (R29, R94). -/
def State.codeWritten (s : State) (a n : Nat) : State :=
  let g := a / 0x100000
  let c := lmAddr g 0xF0000
  if a < c + 0x2000 && c < a + n then { s with cores := FMap.upd s.cores g (fun x => { x with codeChanged := true }) } else s

/-- What a slot's write of n bytes at a does beside the bytes: reservations, the scope-miss latch, the resident code. -/
def State.wrote (s : State) (a n : Nat) : State := ((s.dropResv a n (some s.cur)).latchWritten a n).codeWritten a n

/-- A slot's store of the low n bytes of v at a global LM address. Full bits do not change (R32). -/
def State.storeLm (s : State) (a : Nat) (v : Nat) (n : Nat) : State := { s with mem := Memory.writeN s.mem a v n }.wrote a n

/-- The full bit of a word is set, in one step with what else the caller does: waiters wake (R102). -/
def State.setFull (s : State) (a : Nat) : State :=
  ({ s with full := fullSet s.full a }).wakeAll (fun (w : Await) => w == Await.wordFull a)

/-- The full bit of a word is cleared. -/
def State.setEmpty (s : State) (a : Nat) : State :=
  ({ s with full := fullClear s.full a }).wakeAll (fun (w : Await) => w == Await.wordEmpty a)

def State.isFull (s : State) (a : Nat) : Bool := s.full.contains a

/-- An engine, network-interface or remote write of bytes: it clears every reservation it meets (R91). -/
def State.land (s : State) (a : Nat) (bs : List Byte) : State :=
  (({ s with mem := Memory.setBytes s.mem a bs }).dropResv a bs.length none).codeWritten a bs.length

/-- The same of whole words, outside the resident code. -/
def State.putWords (s : State) (a : Nat) (ws : List Word) : State :=
  ({ s with mem := Memory.setWords s.mem a ws }).dropResv a (8 * ws.length) none

/-- Such a write of one word, with its full bit when f is set (R259). -/
def State.landWord (s : State) (a : Nat) (w : Word) (f : Bool) : State :=
  let s := s.land a (bytesOf w.toNat 8)
  if f then s.setFull a else s

/-! Rings (R34 to R36, R115). -/

def Ring.count (r : Ring) : Nat := 2 ^ r.lgcnt.toNat
def Ring.size (r : Ring) : Nat := r.size8.toNat * 8
def Ring.room (r : Ring) : Nat := r.count - r.fill
/-- Offset of slot i of the ring in the LM of its core. -/
def Ring.slotAt (r : Ring) (i : Nat) : Nat := r.base.toNat + (i % r.count) * r.size

def State.ring (s : State) (vk ix : Nat) : Ring := FMap.getD (s.vc vk).rings ix {}
def State.setRing (s : State) (vk ix : Nat) (r : Ring) : State :=
  s.updVc vk (fun v => { v with rings := FMap.set v.rings ix r })

/-- Global address of slot i of a ring. -/
def State.ringAddr (s : State) (vk ix i : Nat) : Nat := lmAddr (s.coreOf vk) ((s.ring vk ix).slotAt i)

/-- mip.SUP clears at a slot when the ring of its most recent mailbox write is empty (R247). -/
def State.clearSup (s : State) (vk ix : Nat) : State :=
  if (s.ring vk ix).fill = 0 then
    s.mapSlots (fun k sl =>
      if k / 16 == vk && sl.supRing == ix then { sl with mip := sl.mip &&& 0b0111#4 } else sl)
  else s

/-- Waits for filled slots of a ring. -/
def Await.onFill (ix : Nat) : Await → Bool
  | .ringFill i => i == ix
  | .engineRing _ i room => i == ix && !room
  | _ => false

/-- Waits for free slots of a ring. -/
def Await.onRoom (ix : Nat) : Await → Bool
  | .ringRoom i => i == ix
  | .engineRing _ i room => i == ix && room
  | _ => false

/-- The tail advances by k: fill and tail change together (R35), and waiters for filled slots wake. -/
def State.advTail (s : State) (vk ix k : Nat) : State :=
  let r := s.ring vk ix
  (s.setRing vk ix { r with tail := (r.tail + k) % r.count, fill := r.fill + k }).wakeVc vk (Await.onFill ix)

/-- The head advances by k, and waiters for free slots wake. -/
def State.advHead (s : State) (vk ix k : Nat) : State :=
  let r := s.ring vk ix
  ((s.setRing vk ix { r with head := (r.head + k) % r.count, fill := r.fill - k }).wakeVc vk (Await.onRoom ix)).clearSup vk ix

/-! Event records and the supervisor mailbox. -/

/-- Where the default event ring stands: none, no record is posted (R26); some true, there is room; some false, the
poster waits (R152). n is the size of the record in bytes. -/
def State.eventRoom (s : State) (vk : Nat) (n : Nat) : Option Bool :=
  let v := s.vc vk
  let r := s.ring vk (v.evring.toNat % 64)
  if v.evring.getLsbD 7 && r.valid && r.kind == 3 && r.size ≥ n then some (decide (r.fill < r.count)) else none

/-- A record written at the tail of a ring, then the tail advanced (R115). -/
def State.postRing (s : State) (vk ix : Nat) (ws : List Word) : State :=
  (s.land (s.ringAddr vk ix (s.ring vk ix).tail) (bytesOfWords ws)).advTail vk ix 1

/-- A record for the default event ring, when there is one with room. -/
def State.postEvent (s : State) (vk : Nat) (w0 w1 : Word) : State :=
  match s.eventRoom vk 16 with
  | some true => s.postRing vk ((s.vc vk).evring.toNat % 64) [w0, w1]
  | _ => s

/-! Scopes (R202, Table 08.4). -/

/-- A virtual core is a member of a group. -/
def State.inGroup (s : State) (vk g : Nat) : Bool := (s.vc vk).groups.contains g

/-- Two virtual cores are hosted where f gives the same; an absent one is hosted nowhere, and lies where itself lies. -/
def State.together (s : State) (f : Nat → Nat) (vk k : Nat) : Bool :=
  k == vk || (match (s.vc vk).place, (s.vc k).place with
    | some g, some h => f g == f h
    | _, _ => false)

def trellisIx (g : Nat) : Nat := g / 256 * 64 + g / 16 % 16 / 2 * 4 + g % 16 / 4

/-- A destination lies within scope sc of a virtual core. -/
def State.inScope (s : State) (vk : Nat) (sc : Scope) (d : Dest) : Bool :=
  match sc with
  | .slot => false
  | .core => (match d with
    | .vc k => s.together id vk k
    | _ => false)
  | .trellis => (match d with
    | .vc k => s.together trellisIx vk k
    | _ => false)
  | .group => (match d with
    | .vc k => s.together trellisIx vk k || (s.vc vk).groups.any (fun g => s.inGroup k g)
    | _ => false)
  | .die => (match d with
    | .vc k => s.together (· / 256) vk k
    | .sig x => (s.vc vk).place.any (fun g => x == g / 256)
    | _ => false)
  | .pkg => (match d with
    | .farVc _ _ _ => false
    | .farSig _ _ => false
    | _ => true)
  | .fabric => true

/-- The accesses of a slot to destinations within sc that are not acknowledged (R203). -/
def State.fencedBy (s : State) (vk slot : Nat) (sc : Scope) : List Nat :=
  ((s.vc vk).unacked.filter (fun a => a.slot == slot && a.dests.any (fun d => s.inScope vk sc d))).map Access.id

def State.fenced (s : State) (sc : Scope) : List Nat := s.fencedBy s.vk s.ix sc

/-- A pending interrupt or asynchronous fault may be taken in the slot's mode (R98, R246). -/
def Slot.takes (sl : Slot) : Bool := sl.mode == .u || sl.mstMIE

/-- The slot leaves PARKED for an interrupt or an asynchronous fault as for an enabling event (R47, R246). -/
def Slot.nudge (sl : Slot) (cyc : Nat) : Slot :=
  if sl.takes then sl.wake (fun _ => true) cyc else sl.wake (fun a => a == Await.interrupt) cyc

/-- mip bit b (0 PRE, 1 SMI, 2 STL, 3 SUP) of a slot becomes 1. -/
def State.setMip (s : State) (k b : Nat) : State :=
  s.updSlot k (fun sl =>
    let sl := { sl with mip := sl.mip ||| ((1 : BitVec 4) <<< b) }
    if sl.mie.getLsbD b then sl.nudge (s.cycOf (k / 16)) else sl)

def State.clearMip (s : State) (k b : Nat) : State :=
  s.updSlot k (fun sl => { sl with mip := sl.mip &&& ~~~ ((1 : BitVec 4) <<< b) })

/-- An interrupt or asynchronous fault is pending and enabled by mie (R106). -/
def Slot.pendingAny (sl : Slot) : Bool := (sl.mip &&& sl.mie) != 0 || !sl.p27.isEmpty || sl.p30.isSome

/-- A number for a request, so that its answer finds it. -/
def State.freshId (s : State) : Nat × State := (s.nextId + 1, { s with nextId := s.nextId + 1 })

end Sys2Proof.Machine
end

