-- ==== Sys2Proof/Machine/Alu.lean ====
section
/-! DEFINITION. RV64I arithmetic, jumps and branches (Table 03.1). -/

namespace Sys2Proof.Machine

/-- A 12-bit immediate, sign-extended. -/
def sext12 (i : BitVec 12) : Word := i.signExtend 64

/-- The low 32 bits, sign-extended. -/
def sextW (v : Word) : Word := (v.setWidth 32).signExtend 64

/-- Shift amount of a 64-bit shift by a register. -/
def shamt6 (v : Word) : Nat := v.toNat % 64

/-- Shift amount of a 32-bit shift by a register. -/
def shamt5 (v : Word) : Nat := v.toNat % 32

def boolWord (b : Bool) : Word := if b then 1 else 0

/-- A 20-bit upper immediate in bits 31 to 12, sign-extended. -/
def upper (i : BitVec 20) : Word := (i ++ (0 : BitVec 12)).signExtend 64

/-- A 32-bit result, sign-extended. -/
def w32 (v : BitVec 32) : Word := v.signExtend 64

def low32 (v : Word) : BitVec 32 := v.setWidth 32

def execLui (rd : XReg) (imm : BitVec 20) (s : State) : Out := .next (s.result rd (upper imm))
def execAuipc (rd : XReg) (imm : BitVec 20) (s : State) : Out := .next (s.result rd (s.me.pc + upper imm))

def execAddi (rd rs1 : XReg) (imm : BitVec 12) (s : State) : Out := .next (s.result rd (s.x rs1 + sext12 imm))
def execSlti (rd rs1 : XReg) (imm : BitVec 12) (s : State) : Out :=
  .next (s.result rd (boolWord ((s.x rs1).slt (sext12 imm))))
def execSltiu (rd rs1 : XReg) (imm : BitVec 12) (s : State) : Out :=
  .next (s.result rd (boolWord ((s.x rs1).ult (sext12 imm))))
def execXori (rd rs1 : XReg) (imm : BitVec 12) (s : State) : Out := .next (s.result rd (s.x rs1 ^^^ sext12 imm))
def execOri (rd rs1 : XReg) (imm : BitVec 12) (s : State) : Out := .next (s.result rd (s.x rs1 ||| sext12 imm))
def execAndi (rd rs1 : XReg) (imm : BitVec 12) (s : State) : Out := .next (s.result rd (s.x rs1 &&& sext12 imm))
def execSlli (rd rs1 : XReg) (sh : BitVec 6) (s : State) : Out := .next (s.result rd (s.x rs1 <<< sh.toNat))
def execSrli (rd rs1 : XReg) (sh : BitVec 6) (s : State) : Out := .next (s.result rd (s.x rs1 >>> sh.toNat))
def execSrai (rd rs1 : XReg) (sh : BitVec 6) (s : State) : Out :=
  .next (s.result rd ((s.x rs1).sshiftRight sh.toNat))

def execAdd (rd rs1 rs2 : XReg) (s : State) : Out := .next (s.result rd (s.x rs1 + s.x rs2))
def execSub (rd rs1 rs2 : XReg) (s : State) : Out := .next (s.result rd (s.x rs1 - s.x rs2))
def execSll (rd rs1 rs2 : XReg) (s : State) : Out := .next (s.result rd (s.x rs1 <<< shamt6 (s.x rs2)))
def execSlt (rd rs1 rs2 : XReg) (s : State) : Out := .next (s.result rd (boolWord ((s.x rs1).slt (s.x rs2))))
def execSltu (rd rs1 rs2 : XReg) (s : State) : Out := .next (s.result rd (boolWord ((s.x rs1).ult (s.x rs2))))
def execXor (rd rs1 rs2 : XReg) (s : State) : Out := .next (s.result rd (s.x rs1 ^^^ s.x rs2))
def execSrl (rd rs1 rs2 : XReg) (s : State) : Out := .next (s.result rd (s.x rs1 >>> shamt6 (s.x rs2)))
def execSra (rd rs1 rs2 : XReg) (s : State) : Out :=
  .next (s.result rd ((s.x rs1).sshiftRight (shamt6 (s.x rs2))))
def execOr (rd rs1 rs2 : XReg) (s : State) : Out := .next (s.result rd (s.x rs1 ||| s.x rs2))
def execAnd (rd rs1 rs2 : XReg) (s : State) : Out := .next (s.result rd (s.x rs1 &&& s.x rs2))

def execAddiw (rd rs1 : XReg) (imm : BitVec 12) (s : State) : Out := .next (s.result rd (sextW (s.x rs1 + sext12 imm)))
def execSlliw (rd rs1 : XReg) (sh : BitVec 5) (s : State) : Out :=
  .next (s.result rd (w32 (low32 (s.x rs1) <<< sh.toNat)))
def execSrliw (rd rs1 : XReg) (sh : BitVec 5) (s : State) : Out :=
  .next (s.result rd (w32 (low32 (s.x rs1) >>> sh.toNat)))
def execSraiw (rd rs1 : XReg) (sh : BitVec 5) (s : State) : Out :=
  .next (s.result rd (w32 ((low32 (s.x rs1)).sshiftRight sh.toNat)))
def execAddw (rd rs1 rs2 : XReg) (s : State) : Out := .next (s.result rd (sextW (s.x rs1 + s.x rs2)))
def execSubw (rd rs1 rs2 : XReg) (s : State) : Out := .next (s.result rd (sextW (s.x rs1 - s.x rs2)))
def execSllw (rd rs1 rs2 : XReg) (s : State) : Out :=
  .next (s.result rd (w32 (low32 (s.x rs1) <<< shamt5 (s.x rs2))))
def execSrlw (rd rs1 rs2 : XReg) (s : State) : Out :=
  .next (s.result rd (w32 (low32 (s.x rs1) >>> shamt5 (s.x rs2))))
def execSraw (rd rs1 rs2 : XReg) (s : State) : Out :=
  .next (s.result rd (w32 ((low32 (s.x rs1)).sshiftRight (shamt5 (s.x rs2)))))

/-! Jumps: a target with bit 1 set traps at the jump, and nothing is written (Table 03.8, cause 0). -/

/-- A jump to target that writes link into rd. -/
def State.jump (s : State) (rd : BitVec 5) (target : Word) : State :=
  if target.getLsbD 1 then s.trap 0 target else (s.setX rd (s.me.pc + 4)).retireTo target

/-- A conditional branch. -/
def State.branch (s : State) (taken : Bool) (off : BitVec 12) : State :=
  let target := s.me.pc + (off ++ (0 : BitVec 1)).signExtend 64
  if taken then (if target.getLsbD 1 then s.trap 0 target else s.retireTo target) else s.retire

def execJal (rd : XReg) (off : BitVec 20) (s : State) : Out :=
  .next (s.jump rd (s.me.pc + (off ++ (0 : BitVec 1)).signExtend 64))
def execJalr (rd rs1 : XReg) (imm : BitVec 12) (s : State) : Out :=
  .next (s.jump rd ((s.x rs1 + sext12 imm) &&& ~~~ 1))

def execBeq (rs1 rs2 : XReg) (off : BitVec 12) (s : State) : Out := .next (s.branch (s.x rs1 == s.x rs2) off)
def execBne (rs1 rs2 : XReg) (off : BitVec 12) (s : State) : Out := .next (s.branch (s.x rs1 != s.x rs2) off)
def execBlt (rs1 rs2 : XReg) (off : BitVec 12) (s : State) : Out := .next (s.branch ((s.x rs1).slt (s.x rs2)) off)
def execBge (rs1 rs2 : XReg) (off : BitVec 12) (s : State) : Out := .next (s.branch (!(s.x rs1).slt (s.x rs2)) off)
def execBltu (rs1 rs2 : XReg) (off : BitVec 12) (s : State) : Out := .next (s.branch ((s.x rs1).ult (s.x rs2)) off)
def execBgeu (rs1 rs2 : XReg) (off : BitVec 12) (s : State) : Out := .next (s.branch (!(s.x rs1).ult (s.x rs2)) off)

end Sys2Proof.Machine
end

