-- ==== Sys2Proof/Machine/Flags.lean ====
section
/-! DEFINITION. The floating-point flags: fflags of a slot (R96) and mflags of a virtual core (R146, R147). -/

namespace Sys2Proof.Machine

/-! Flags, in the bit order of mflags and fflags (bit 3 is SAT there and DZ here). -/
def fNX : BitVec 5 := 1
def fUF : BitVec 5 := 2
def fOF : BitVec 5 := 4
def fSAT : BitVec 5 := 8
def fDZ : BitVec 5 := 8
def fNV : BitVec 5 := 16

def flagIf (b : Bool) (f : BitVec 5) : BitVec 5 := if b then f else 0

/-- Flags ORed into fflags of the current slot. -/
def State.raise (s : State) (fl : BitVec 5) : State := s.updMe (fun sl => { sl with fflags := sl.fflags ||| fl })

/-- Flags ORed into mflags in cycle cyc; those of the cycle are kept apart for a write of the same cycle. -/
def VCore.raise (v : VCore) (cyc : Nat) (fl : BitVec 5) : VCore :=
  { v with mflags := v.mflags ||| fl, flagCyc := cyc + 1, flagNew := if v.flagCyc == cyc + 1 then v.flagNew ||| fl else fl }

/-- A CSR write of mflags in cycle cyc: the flags of the same cycle are ORed into it, earlier ones are replaced (R148). -/
def VCore.writeFlags (v : VCore) (cyc : Nat) (w : BitVec 5) : VCore :=
  { v with mflags := w ||| (if v.flagCyc == cyc + 1 then v.flagNew else 0) }

/-- Flags ORed into mflags of a virtual core. -/
def State.raiseM (s : State) (vk : Nat) (fl : BitVec 5) : State := s.updVc vk (fun v => v.raise (s.cycOf vk) fl)

end Sys2Proof.Machine
end

