-- ==== Sys2Proof/Machine/Formats.lean ====
section
/-! DEFINITION. Number formats and rounding (F05): exact values, one rounding function for every format and mode, and
the arithmetic that scalar and engine instructions share. -/

namespace Sys2Proof.Machine

/-- A floating-point format: E exponent bits, M mantissa bits, bias B; ofp8: E4M3, which has no infinity (Table 05.1). -/
structure Fmt where
  E : Nat
  M : Nat
  B : Nat
  noInf : Bool := false
  deriving DecidableEq, Repr

def fmtE4 : Fmt := { E := 4, M := 3, B := 7, noInf := true }
def fmtE5 : Fmt := { E := 5, M := 2, B := 15 }
def fmtBF : Fmt := { E := 8, M := 7, B := 127 }
def fmtHF : Fmt := { E := 5, M := 10, B := 15 }
def fmt32 : Fmt := { E := 8, M := 23, B := 127 }
def fmt64 : Fmt := { E := 11, M := 52, B := 1023 }

/-- FP8 formats have no signalling NaN (R132). -/
def Fmt.isFp8 (t : Fmt) : Bool := t.E + t.M == 7
def Fmt.bits (t : Fmt) : Nat := 1 + t.E + t.M

/-- The rounding modes of Table 05.3. -/
inductive RMode where
  | rne
  | rtz
  | rdn
  | rup
  | rmm
  deriving DecidableEq, Repr

/-- The mode frm names; none for 5 to 7 (R96, R134). -/
def modeOf (frm : BitVec 3) : Option RMode :=
  match frm.toNat with
  | 0 => some .rne
  | 1 => some .rtz
  | 2 => some .rdn
  | 3 => some .rup
  | 4 => some .rmm
  | _ => none

/-- The mode of an rm field: dyn takes frm. -/
def modeOfRm (rm : Rm) (frm : BitVec 3) : Option RMode :=
  match rm with
  | .rne => some .rne
  | .rtz => some .rtz
  | .rdn => some .rdn
  | .rup => some .rup
  | .rmm => some .rmm
  | .dyn => modeOf frm

/-- An exact value: (-1)^neg × m × 2^e, an infinity, or a NaN. -/
inductive Num where
  | fin (neg : Bool) (m : Nat) (e : Int)
  | inf (neg : Bool)
  | nan (signalling : Bool)
  deriving DecidableEq, Repr

/-- The value of an encoding (R130, R132). -/
def Fmt.value (t : Fmt) (b : Nat) : Num :=
  let neg := b / 2 ^ (t.E + t.M) % 2 == 1
  let e := b / 2 ^ t.M % 2 ^ t.E
  let m := b % 2 ^ t.M
  let top := 2 ^ t.E - 1
  if t.noInf then
    (if e == top && m == 2 ^ t.M - 1 then .nan false
     else if e == 0 then .fin neg m (1 - t.B - t.M)
     else .fin neg (2 ^ t.M + m) ((e : Int) - t.B - t.M))
  else if e == top then
    (if m == 0 then .inf neg else .nan (!t.isFp8 && m / 2 ^ (t.M - 1) == 0))
  else if e == 0 then .fin neg m (1 - t.B - t.M)
  else .fin neg (2 ^ t.M + m) ((e : Int) - t.B - t.M)

/-- The canonical NaN (Table 05.1). -/
def Fmt.qnan (t : Fmt) : Nat :=
  if t.noInf then 2 ^ (t.E + t.M) - 1 else (2 ^ t.E - 1) * 2 ^ t.M + 2 ^ (t.M - 1)

def Fmt.sign (t : Fmt) (neg : Bool) (b : Nat) : Nat := if neg then b + 2 ^ (t.E + t.M) else b
def Fmt.infBits (t : Fmt) (neg : Bool) : Nat := t.sign neg ((2 ^ t.E - 1) * 2 ^ t.M)
/-- Max finite (Table 05.1). -/
def Fmt.maxBits (t : Fmt) : Nat :=
  if t.noInf then 2 ^ (t.E + t.M) - 2 else (2 ^ t.E - 1) * 2 ^ t.M - 1

/-- Does a rounding go away from zero? r / d is the fraction left, odd the parity of the truncated value. -/
def roundsUp (mode : RMode) (neg odd : Bool) (r d : Nat) : Bool :=
  match mode with
  | .rne => d < 2 * r || (2 * r == d && odd)
  | .rtz => false
  | .rdn => neg && r != 0
  | .rup => !neg && r != 0
  | .rmm => d ≤ 2 * r

/-- num / den × 2^e divided by 2^q: quotient, remainder and divisor. -/
def quantum (num den : Nat) (e q : Int) : Nat × Nat × Nat :=
  let n := num * 2 ^ (e - q).toNat
  let d := den * 2 ^ (q - e).toNat
  (n / d, n % d, d)

/-- floor(log2(num / den)) for positive num and den. -/
def log2Q (num den : Nat) : Int :=
  let g : Int := (Nat.log2 num : Int) - Nat.log2 den
  if num * 2 ^ (-g).toNat < den * 2 ^ g.toNat then g - 1 else g

/-- The overflow result of Table 05.4. -/
def Fmt.overflow (t : Fmt) (mode : RMode) (neg sat : Bool) : Nat :=
  let big := if sat then t.sign neg t.maxBits else if t.noInf then t.qnan else t.infBits neg
  let fin := t.sign neg t.maxBits
  match mode with
  | .rne => big
  | .rmm => big
  | .rtz => fin
  | .rdn => if neg then big else fin
  | .rup => if neg then fin else big

/-- Rounding of the exact value (-1)^neg × num / den × 2^e to a format (R133, R135, R136): encoding and flags.
Tininess is detected after rounding. -/
def Fmt.round (t : Fmt) (mode : RMode) (sat neg : Bool) (num den : Nat) (e : Int) : Nat × BitVec 5 :=
  if num == 0 then (t.sign neg 0, 0)
  else
    let ev := log2Q num den + e
    let emin : Int := 1 - t.B
    let q : Int := max (ev - t.M) (emin - t.M)
    let p := quantum num den e q
    let mant := p.1 + (if roundsUp mode neg (p.1 % 2 == 1) p.2.1 p.2.2 then 1 else 0)
    let inexact := p.2.1 != 0
    let mag : Nat := (q + t.M + t.B).toNat * 2 ^ t.M + mant - 2 ^ t.M
    if mag > t.maxBits then (t.overflow mode neg sat, fOF ||| fNX)
    else
      let tiny :=
        ev < emin &&
          (let u := quantum num den e (ev - t.M)
           let m := u.1 + (if roundsUp mode neg (u.1 % 2 == 1) u.2.1 u.2.2 then 1 else 0)
           !(ev == emin - 1 && m == 2 ^ (t.M + 1)))
      (t.sign neg mag, flagIf inexact fNX ||| flagIf (inexact && tiny) fUF)

/-- Rounding of an exact value, with NaN and infinity as arithmetic results (not conversions). -/
def Fmt.roundNum (t : Fmt) (mode : RMode) (v : Num) : Nat × BitVec 5 :=
  match v with
  | .nan sig => (t.qnan, flagIf sig fNV)
  | .inf neg => (t.infBits neg, 0)
  | .fin neg m e => t.round mode false neg m 1 e

/-! Exact arithmetic; the Bool is the invalid operation (NV). -/

/-- Exact dyadic sum; down: an exact zero from opposite signs is -0 (RDN). -/
def addFin (down : Bool) (an : Bool) (am : Nat) (ae : Int) (bn : Bool) (bm : Nat) (be : Int) : Num :=
  let e := min ae be
  let a : Int := (if an then -1 else 1) * (am * 2 ^ (ae - e).toNat : Nat)
  let b : Int := (if bn then -1 else 1) * (bm * 2 ^ (be - e).toNat : Nat)
  let c := a + b
  if c == 0 then .fin (if an == bn then an else down) 0 e
  else .fin (c < 0) c.natAbs e

def numAdd (down : Bool) (a b : Num) : Num × Bool :=
  match a, b with
  | .nan s, .nan u => (.nan false, s || u)
  | .nan s, _ => (.nan false, s)
  | _, .nan u => (.nan false, u)
  | .inf s, .inf u => if s == u then (.inf s, false) else (.nan false, true)
  | .inf s, _ => (.inf s, false)
  | _, .inf u => (.inf u, false)
  | .fin an am ae, .fin bn bm be => (addFin down an am ae bn bm be, false)

def numNeg : Num → Num
  | .fin n m e => .fin (!n) m e
  | .inf n => .inf (!n)
  | .nan s => .nan s

def numMul (a b : Num) : Num × Bool :=
  match a, b with
  | .nan s, .nan u => (.nan false, s || u)
  | .nan s, _ => (.nan false, s)
  | _, .nan u => (.nan false, u)
  | .inf s, .inf u => (.inf (s != u), false)
  | .inf s, .fin u m _ => if m == 0 then (.nan false, true) else (.inf (s != u), false)
  | .fin s m _, .inf u => if m == 0 then (.nan false, true) else (.inf (s != u), false)
  | .fin an am ae, .fin bn bm be => (.fin (an != bn) (am * bm) (ae + be), false)

def isDown : RMode → Bool
  | .rdn => true
  | _ => false

/-- Encodings in, encoding and flags out. -/
def Fmt.add (t : Fmt) (mode : RMode) (a b : Nat) : Nat × BitVec 5 :=
  let r := numAdd (isDown mode) (t.value a) (t.value b)
  let q := t.roundNum mode r.1
  (q.1, q.2 ||| flagIf r.2 fNV)

def Fmt.neg (t : Fmt) (b : Nat) : Nat :=
  if b / 2 ^ (t.E + t.M) % 2 == 1 then b - 2 ^ (t.E + t.M) else b + 2 ^ (t.E + t.M)

def Fmt.sub (t : Fmt) (mode : RMode) (a b : Nat) : Nat × BitVec 5 :=
  let r := numAdd (isDown mode) (t.value a) (numNeg (t.value b))
  let q := t.roundNum mode r.1
  (q.1, q.2 ||| flagIf r.2 fNV)

def Fmt.mul (t : Fmt) (mode : RMode) (a b : Nat) : Nat × BitVec 5 :=
  let r := numMul (t.value a) (t.value b)
  let q := t.roundNum mode r.1
  (q.1, q.2 ||| flagIf r.2 fNV)

/-- a × b + c rounded once; negP and negC negate the product and the addend. -/
def Fmt.fma (t : Fmt) (mode : RMode) (negP negC : Bool) (a b c : Nat) : Nat × BitVec 5 :=
  let p := numMul (t.value a) (t.value b)
  let pv := if negP then numNeg p.1 else p.1
  let cv := if negC then numNeg (t.value c) else t.value c
  let r := numAdd (isDown mode) pv cv
  let q := t.roundNum mode r.1
  (q.1, q.2 ||| flagIf (p.2 || r.2) fNV)

def Fmt.div (t : Fmt) (mode : RMode) (a b : Nat) : Nat × BitVec 5 :=
  match t.value a, t.value b with
  | .nan s, .nan u => (t.qnan, flagIf (s || u) fNV)
  | .nan s, _ => (t.qnan, flagIf s fNV)
  | _, .nan u => (t.qnan, flagIf u fNV)
  | .inf _, .inf _ => (t.qnan, fNV)
  | .inf s, .fin u _ _ => (t.infBits (s != u), 0)
  | .fin s _ _, .inf u => (t.sign (s != u) 0, 0)
  | .fin s m e, .fin u n g =>
    if n == 0 then (if m == 0 then (t.qnan, fNV) else (t.infBits (s != u), fDZ))
    else t.round mode false (s != u) m n (e - g)

/-- Integer square root, by bisection on the bits from bit k down. -/
def isqrtFrom (n : Nat) : Nat → Nat → Nat
  | 0, r => r
  | k + 1, r =>
    let c := r + 2 ^ k
    isqrtFrom n k (if c * c ≤ n then c else r)

def isqrt (n : Nat) : Nat := isqrtFrom n (Nat.log2 n / 2 + 1) 0

def Fmt.sqrt (t : Fmt) (mode : RMode) (a : Nat) : Nat × BitVec 5 :=
  match t.value a with
  | .nan s => (t.qnan, flagIf s fNV)
  | .inf s => if s then (t.qnan, fNV) else (t.infBits false, 0)
  | .fin s m e =>
    if m == 0 then (t.sign s 0, 0)
    else if s then (t.qnan, fNV)
    else
      -- m × 2^e = n × 2^(2h) with at least 2 (M + 3) bits in n; a remainder only makes the value inexact
      let k : Nat := 2 * (t.M + 3) + (if (e % 2 == 0) then 0 else 1)
      let n := m * 2 ^ k
      let r := isqrt n
      t.round mode false false (2 * r + (if r * r == n then 0 else 1)) 1 ((e - k) / 2 - 1)

/-- Order of two values that are not NaN: -1, 0 or 1. -/
def numCmp (a b : Num) : Int :=
  match a, b with
  | .inf s, .inf u => if s == u then 0 else if s then -1 else 1
  | .inf s, _ => if s then -1 else 1
  | _, .inf u => if u then 1 else -1
  | .fin an am ae, .fin bn bm be =>
    let e := min ae be
    let x : Int := (if an then -1 else 1) * (am * 2 ^ (ae - e).toNat : Nat)
    let y : Int := (if bn then -1 else 1) * (bm * 2 ^ (be - e).toNat : Nat)
    if x < y then -1 else if x == y then 0 else 1
  | _, _ => 0

def Num.isNan : Num → Bool
  | .nan _ => true
  | _ => false

def Num.isSig : Num → Bool
  | .nan s => s
  | _ => false

def Num.isNeg : Num → Bool
  | .fin n _ _ => n
  | .inf n => n
  | .nan _ => false

def Num.isZero : Num → Bool
  | .fin _ m _ => m == 0
  | _ => false

/-- The smaller (or larger) of two encodings: a NaN loses to a number, -0 lies below +0 (ratified minimumNumber). -/
def Fmt.minmax (t : Fmt) (max : Bool) (a b : Nat) : Nat × BitVec 5 :=
  let x := t.value a
  let y := t.value b
  let nv := flagIf (x.isSig || y.isSig) fNV
  if x.isNan && y.isNan then (t.qnan, nv)
  else if x.isNan then (b, nv)
  else if y.isNan then (a, nv)
  else
    let c := numCmp x y
    let less := c < 0 || (c == 0 && x.isNeg && !y.isNeg)
    (if less != max then a else b, nv)

/-- The exact value rounded to an integer: the integer and whether it was inexact. -/
def roundInt (mode : RMode) (neg : Bool) (m : Nat) (e : Int) : Int × Bool :=
  let p := quantum m 1 e 0
  let q := p.1 + (if roundsUp mode neg (p.1 % 2 == 1) p.2.1 p.2.2 then 1 else 0)
  (if neg then -(q : Int) else q, p.2.1 != 0)

end Sys2Proof.Machine
end

