-- ==== Sys2Proof/Machine/Convert.lean ====
section
/-! DEFINITION. Conversions of the engines (R133 to R139, Table 05.5) and the counter generator stochastic rounding draws from (R304). -/

namespace Sys2Proof.Machine

/-- Element formats of the conversion targets. -/
inductive Elem where
  | float (t : Fmt)
  | int (bits : Nat)
  deriving DecidableEq, Repr

def tgtElem : CvtTgt → Elem
  | .e4 => .float fmtE4
  | .e5 => .float fmtE5
  | .bf => .float fmtBF
  | .hf => .float fmtHF
  | .f32 => .float fmt32
  | .d => .float fmt64
  | .i8 => .int 8
  | .i32 => .int 32

/-- Element size in bytes of a conversion target (R173). -/
def tgtBytes : CvtTgt → Nat
  | .e4 => 1
  | .e5 => 1
  | .i8 => 1
  | .bf => 2
  | .hf => 2
  | .f32 => 4
  | .i32 => 4
  | .d => 8

/-- Two's-complement encoding of n bits. -/
def intBits (n : Nat) (v : Int) : Nat := (v % (2 ^ n : Nat)).toNat

/-- The value of an n-bit two's-complement encoding. -/
def intVal (n b : Nat) : Int := if b % 2 ^ n < 2 ^ (n - 1) then (b % 2 ^ n : Nat) else ((b % 2 ^ n : Nat) : Int) - (2 ^ n : Nat)

/-- num / den × 2^e rounded to an integer: magnitude with its sign, and whether it was inexact. -/
def roundQ (mode : RMode) (neg : Bool) (num den : Nat) (e : Int) : Int × Bool :=
  let p := quantum num den e 0
  let q := p.1 + (if roundsUp mode neg (p.1 % 2 == 1) p.2.1 p.2.2 then 1 else 0)
  (if neg then -(q : Int) else q, p.2.1 != 0)

/-- Conversion of v / den to a float target. -/
def cvtFloat (t : Fmt) (mode : RMode) (sat : Bool) (v : Num) (den : Nat) : Nat × BitVec 5 :=
  match v with
  | .nan sig => (t.qnan, flagIf sig fNV)
  | .inf neg =>
    if sat then (t.sign neg t.maxBits, fOF ||| fNX)
    else if t.noInf then (t.qnan, fNV)
    else (t.infBits neg, 0)
  | .fin neg m e => t.round mode sat neg m den e

/-- Conversion of v / den to an integer target. An infinity under .SAT raises SAT alone, as Table 05.5 has it (log entry 73). -/
def cvtInt (n : Nat) (mode : RMode) (sat : Bool) (v : Num) (den : Nat) : Nat × BitVec 5 :=
  let lo : Int := -(2 ^ (n - 1) : Nat)
  let hi : Int := (2 ^ (n - 1) - 1 : Nat)
  match v with
  | .nan _ => (if sat then 0 else intBits n lo, fNV)
  | .inf neg => if sat then (intBits n (if neg then lo else hi), fSAT) else (intBits n lo, fNV)
  | .fin neg m e =>
    let r := roundQ mode neg m den e
    if r.1 < lo || hi < r.1 then
      (if sat then (intBits n (if neg then lo else hi), fSAT ||| fNX) else (intBits n lo, fNV))
    else (intBits n r.1, flagIf r.2 fNX)

/-- Conversion of a float value, or of the exact quotient v / den, to a target (Table 05.5). -/
def convert (tgt : CvtTgt) (mode : RMode) (sat : Bool) (v : Num) (den : Nat := 1) : Nat × BitVec 5 :=
  match tgtElem tgt with
  | .float t => cvtFloat t mode sat v den
  | .int n => cvtInt n mode sat v den

/-- Conversion of an INT32 value (Table 05.5, R161). INT8 under .SAT raises SAT alone (log entry 73). -/
def convertInt (tgt : CvtTgt) (mode : RMode) (sat : Bool) (v : Int) : Nat × BitVec 5 :=
  match tgtElem tgt with
  | .float t => t.round mode sat (v < 0) v.natAbs 1 0
  | .int n =>
    if n == 8 && sat then
      (if v < -128 then (intBits 8 (-128), fSAT) else if 127 < v then (127, fSAT) else (intBits 8 v, 0))
    else (intBits n v, 0)

/-- Stochastic rounding of an FP32 value with the draw u (R138). It is tiny when the delivered magnitude is below min normal (log entry 74). -/
def convertSr (tgt : CvtTgt) (sat : Bool) (x : Nat) (u : Nat) : Nat × BitVec 5 :=
  match tgtElem tgt with
  | .int _ => convert tgt .rne sat (fmt32.value x)
  | .float t =>
    match fmt32.value x with
    | .fin neg m e =>
      let plain := cvtFloat t .rne sat (.fin neg m e) 1
      if m == 0 || numCmp (.fin false m e) (t.value t.maxBits) == 1 then plain
      else
        let ev := log2Q m 1 + e
        let emin : Int := 1 - t.B
        let q : Int := max (ev - t.M) (emin - t.M)
        let p := quantum m 1 e q
        if p.2.1 == 0 then plain
        else
          let mant := p.1 + (if u < p.2.1 * 65536 / p.2.2 then 1 else 0)
          let mag : Nat := (q + t.M + t.B).toNat * 2 ^ t.M + mant - 2 ^ t.M
          if mag > t.maxBits then (t.overflow .rne neg sat, fOF ||| fNX)
          else (t.sign neg mag, fNX ||| flagIf (mag < 2 ^ t.M) fUF)
    | v => cvtFloat t .rne sat v 1

/-- The magnitude of a value that is a number; none for a NaN. -/
def Num.mag : Num → Option Num
  | .fin _ m e => some (.fin false m e)
  | .inf _ => some (.inf false)
  | .nan _ => none

/-- The largest magnitude of the values that are not NaNs; zero when there is none. -/
def amaxOf : List Num → Num
  | [] => .fin false 0 0
  | v :: t =>
    let r := amaxOf t
    match v.mag with
    | some a => if numCmp r a == -1 then a else r
    | none => r

/-- The largest finite magnitude of a quantisation target, as VQNT and MOUT use it. -/
def qmax : CvtTgt → Nat
  | .e4 => 448
  | .e5 => 57344
  | _ => 127

/-- The scale of a quantised row: 1.0, or amax / Qmax rounded up (R161, R185). -/
def quantScale (tgt : CvtTgt) (vs : List Num) : Nat :=
  match amaxOf vs with
  | .fin _ m e => if m == 0 then 0x3F800000 else (fmt32.round .rup false false m (qmax tgt) e).1
  | _ => 0x3F800000

/-- x / s for an FP32 scale s that is positive and finite: the value and the divisor convert takes. -/
def scaled (x : Num) (s : Nat) : Num × Nat :=
  match x, fmt32.value s with
  | .fin n m e, .fin _ d f => (.fin n m (e - f), d)
  | v, _ => (v, 1)

/-! The counter generator (R304). -/

def counterG (key c : Word) : Word :=
  let z := c * 0x9E3779B97F4A7C15 + key
  let z := (z ^^^ (z >>> 30)) * 0xBF58476D1CE4E5B9
  let z := (z ^^^ (z >>> 27)) * 0x94D049BB133111EB
  z ^^^ (z >>> 31)

/-- Lane j of a value of the generator. -/
def lane16 (z : Word) (j : Nat) : Nat := bits z (16 * j + 15) (16 * j)

/-- The draw of element k of a conversion whose counter base is c0 (R184). -/
def srDraw (key c0 : Word) (k : Nat) : Nat := lane16 (counterG key (c0 + BitVec.ofNat 64 (k / 4))) (k % 4)

end Sys2Proof.Machine
end

