-- ==== Sys2Proof/Machine/Csr.lean ====
section
/-! DEFINITION. CSRs (Tables 01.2 to 01.6, 03.5 to 03.7, 13.3 to 13.5), the CSR instructions, ECALL, EBREAK, MRET, WFI
and FENCE.I. -/

namespace Sys2Proof.Machine

/-! The package as registers report it. -/

def isF (die : Nat) : Bool := die < 4

/-- Trellis number of a core in its die: eight cores in 4 × 2 (Table 00.2). -/
def trellisOf (g : Nat) : Nat := g / 16 % 16 / 2 * 4 + g % 16 / 4

/-- Package time base of 100 MHz (R99): now counts 10 ns / 232,792,560. -/
def timeUnit : Nat := 232792560
def State.time (s : State) : Word := BitVec.ofNat 64 (s.now / timeUnit)

/-- 0 absent, 1 free, 2 busy, 3 reserved (Table 13.5). -/
def State.coreSt (s : State) (g : Nat) : Nat :=
  let c := s.core g
  if !c.en then 0
  else if c.reserved then 3
  else if (s.hosted g).isEmpty && c.saving.isEmpty && !c.mig then 1
  else 2

/-- Fields put at their bit positions. -/
def pack : List (Nat × Nat) → Nat
  | [] => 0
  | (lo, v) :: t => v * 2 ^ lo + pack t

def bn (b : Bool) : Nat := if b then 1 else 0

/-- Partner die of edges N, E, S, W; 15 where the edge faces no compute die (Table 13.1). -/
def partners (d : Nat) : List Nat :=
  if isF d then [(d + 1) % 4, (d + 3) % 4, 15, d + 4]
  else [(d + 1) % 4 + 4, d - 4, (d + 3) % 4 + 4, 15]

/-- Orientation register (Table 13.4), bits [63:16]. -/
def State.orientation (s : State) (d : Nat) : Nat :=
  let x := s.die d
  let p := partners d
  pack [(0, if isF d then 0 else 1), (1, d % 4), (3, d), (6, bn x.up), (7, bn x.bringup),
    (8, if isF d then 0b1011 else 0b0111),
    (12, p[0]!), (16, p[1]!), (20, p[2]!), (24, p[3]!), (28, 3 * d), (33, 3 * d + 1), (38, 3 * d + 2)]

/-- Position entry (Table 13.5), bits [63:16]. -/
def State.position (s : State) (g : Nat) : Nat :=
  let vks := s.hosted g
  let low := vks.find? (fun k => vks.all (fun j => (s.vc k).fidx ≤ (s.vc j).fidx))
  let st := s.coreSt g
  let v := s.vc (low.getD 0)
  let here := st == 2 && low.isSome
  pack [(0, bn (s.core g).en), (1, st), (3, if here then v.gid else 0), (19, if here then v.fold else 0),
    (21, if here then v.vcid else 0), (37, bn (s.core g).mig)]

/-- Redirect entry (R325), bits [63:16]. -/
def redirectData : Option Redirect → Nat
  | none => 0
  | some r => pack [(0, 1), (1, r.old), (12, r.new), (23, bn (!r.left.isEmpty))]

/-- cmapwin as read (Table 13.3). -/
def State.cmapwin (s : State) (g : Nat) : Word :=
  let d := g / 256
  let ix := (s.core g).cmapIdx.toNat
  let data :=
    if ix < 0x100 then s.position (d * 256 + ix)
    else if ix == 0x100 then s.orientation d
    else if ix == 0x101 then pack [(0, s.migQ.length), (16, s.migs.length)]
    else if 0x200 ≤ ix && ix < 0x240 then redirectData (FMap.get? (s.die d).redirs (ix - 0x200))
    else 0
  BitVec.ofNat 64 (ix + data * 65536)

/-- gshape (Table 01.4). -/
def State.gshape (s : State) (vk : Nat) : Word :=
  let v := s.vc vk
  let g := s.gang v.gid
  BitVec.ofNat 64 (pack [(0, v.vcid % g.gw), (8, v.vcid / g.gw), (16, g.gw), (24, g.gh), (32, v.fold), (34, v.fidx),
    (40, g.own)])

/-- groups (Table 01.4). -/
def groupsWord : Nat → List Nat → Nat
  | _, [] => 0
  | i, g :: t => (g + 0x8000) * 2 ^ (16 * i) + groupsWord (i + 1) t

/-- engbinds (Table 01.5). -/
def engbindsWord (v : VCore) : Nat :=
  pack (v.binds.map (fun p => (8 * p.1, p.2 + 0x80)))

def State.mhartid (s : State) : Word :=
  BitVec.ofNat 64 (s.coreOf s.vk * 16 + barrelPos s.myVc s.ix)

/-- mstatus (Table 03.6). -/
def Slot.mstatus (sl : Slot) : Word :=
  BitVec.ofNat 64 (pack [(3, bn sl.mstMIE), (7, bn sl.mstMPIE), (11, if sl.mstMPP == .m then 3 else 0), (13, 3),
    (32, 2), (63, 1)])

/-- What a CSR address is: unlisted standard addresses do not exist (R98, R25). -/
inductive CsrClass where
  | absent
  /-- lowest mode that may access it, and whether it can be written -/
  | csr (mMode : Bool) (readOnly : Bool)
  deriving DecidableEq, Repr

/-- Tables 01.2 and 03.5 by address. -/
def csrClass (a : Nat) : CsrClass :=
  if 1 ≤ a && a ≤ 3 then .csr false false
  else if 0xC00 ≤ a && a ≤ 0xC1F then .csr false true
  else if 0xCC0 ≤ a && a ≤ 0xCCF then .csr false true
  else if 0x800 ≤ a && a ≤ 0x80F then .csr false false
  else if 0x7C0 ≤ a && a ≤ 0x7CF then .csr true false
  else if 0xF11 ≤ a && a ≤ 0xF15 then .csr true true
  else if a == 0x300 || a == 0x301 || a == 0x304 || a == 0x305 || a == 0x306 || a == 0x320 then .csr true false
  else if 0x323 ≤ a && a ≤ 0x33F then .csr true false
  else if 0x340 ≤ a && a ≤ 0x344 then .csr true false
  else if a == 0xB00 || a == 0xB02 then .csr true false
  else if 0xB03 ≤ a && a ≤ 0xB1F then .csr true false
  else .absent

/-- A U-mode read of cycle, time or instret needs its mcounteren bit (R98). -/
def counterOk (sl : Slot) (a : Nat) : Bool :=
  sl.mode == .m || !(0xC00 ≤ a && a ≤ 0xC02) || sl.mcounteren.getLsbD (a - 0xC00)

/-- The value a CSR reads. Addresses of the listed blocks that are not listed read as zero (R25). -/
def State.csrRead (s : State) (a : Nat) : Word :=
  let sl := s.me
  let v := s.myVc
  let g := s.coreOf s.vk
  let c := s.core g
  let d := g / 256
  match a with
  | 0x001 => sl.fflags.setWidth 64
  | 0x002 => sl.frm.setWidth 64
  | 0x003 => (sl.frm ++ sl.fflags).setWidth 64
  | 0xC00 => sl.mcycle
  | 0xC01 => s.time
  | 0xC02 => sl.minstret
  | 0xCC0 => BitVec.ofNat 64 v.vcid
  | 0xCC1 => BitVec.ofNat 64 g
  | 0xCC2 => s.gshape s.vk
  | 0xCC3 => BitVec.ofNat 64 (s.ix + 16 * barrelPos v s.ix)
  | 0xCC4 => BitVec.ofNat 64 (pack [(0, if isF d then 0 else 1), (1, d % 4), (3, d), (6, bn (s.die d).bringup)])
  | 0xCC5 => BitVec.ofNat 64 (groupsWord 0 v.groups)
  | 0xCC6 => BitVec.ofNat 64 (engbindsWord v)
  | 0xCC7 => if isF d then 7 else 0
  | 0x800 => v.fitness.setWidth 64
  | 0x801 => v.evalcnt.setWidth 64
  | 0x802 => v.mflags.setWidth 64
  | 0x803 => v.smring.setWidth 64
  | 0x804 => v.evring.setWidth 64
  | 0x7C0 => sl.segbase
  | 0x7C1 => sl.seglim
  | 0x7C2 => sl.qowner.setWidth 64
  | 0x7C3 => c.stallthr.setWidth 64
  | 0x7C4 => c.tokexp.setWidth 64
  | 0x7C5 => v.supmbox
  | 0x7C6 => BitVec.ofNat 64 (bn c.sqfen)
  | 0x7C7 => s.cmapwin g
  | 0xF12 => 0xA08
  | 0xF13 => if isF d then 0x0F01 else 0x0E01
  | 0xF14 => s.mhartid
  | 0x300 => sl.mstatus
  | 0x301 => 0x8000000000901129
  | 0x304 => (sl.mie ++ (0 : BitVec 16)).setWidth 64
  | 0x344 => (sl.mip ++ (0 : BitVec 16)).setWidth 64
  | 0x305 => sl.mtvec
  | 0x306 => sl.mcounteren.setWidth 64
  | 0x340 => sl.mscratch
  | 0x341 => sl.mepc
  | 0x342 => sl.mcause
  | 0x343 => sl.mtval
  | 0xB00 => sl.mcycle
  | 0xB02 => sl.minstret
  | _ => 0

/-- Bits kept of a supmbox write (Table 01.6). -/
def supmboxMask : Word := 0x8000000003FFFFFF
/-- Bits kept of a smring or evring write (Table 01.5). -/
def ringCsrMask : BitVec 8 := 0xBF

/-- A segment CSR write that would break base + limit ≤ 0xF_0000 is ignored (R30). -/
def Slot.setSegment (sl : Slot) (base lim : Word) : Slot :=
  if base.toNat + lim.toNat ≤ 0xF0000 then { sl with segbase := base, seglim := lim } else sl

/-- The effect of writing w to a CSR; RZ and RO fields keep their values. -/
def State.csrWrite (s : State) (a : Nat) (w : Word) : State :=
  let g := s.coreOf s.vk
  match a with
  | 0x001 => s.updMe (fun sl => { sl with fflags := w.setWidth 5 })
  | 0x002 => s.updMe (fun sl => { sl with frm := w.setWidth 3 })
  | 0x003 => s.updMe (fun sl => { sl with fflags := w.setWidth 5, frm := w.extractLsb' 5 3 })
  | 0x800 => s.updMyVc (fun v => { v with fitness := w.setWidth 32 })
  | 0x801 => s.updMyVc (fun v => { v with evalcnt := w.setWidth 32 })
  | 0x802 => s.updMyVc (fun v => v.writeFlags (s.cycOf s.vk) (w.setWidth 5))
  | 0x803 => s.updMyVc (fun v => { v with smring := w.setWidth 8 &&& ringCsrMask })
  | 0x804 => s.updMyVc (fun v => { v with evring := w.setWidth 8 &&& ringCsrMask })
  | 0x7C0 => s.updMe (fun sl => sl.setSegment (w &&& 0xFF000) sl.seglim)
  | 0x7C1 => s.updMe (fun sl => sl.setSegment sl.segbase (w &&& 0xFF000))
  | 0x7C2 => s.updMe (fun sl => { sl with qowner := w.setWidth 17 })
  | 0x7C3 => s.updCore g (fun c => { c with stallthr := w.setWidth 32 })
  | 0x7C4 => s.updCore g (fun c => { c with tokexp := w.setWidth 32 })
  | 0x7C5 => s.updMyVc (fun v => { v with supmbox := w &&& supmboxMask })
  | 0x7C6 => s.updCore g (fun c => { c with sqfen := w.getLsbD 0 })
  | 0x7C7 => s.updCore g (fun c => { c with cmapIdx := w.setWidth 12 })
  | 0x300 => s.updMe (fun sl => { sl with
      mstMIE := w.getLsbD 3, mstMPIE := w.getLsbD 7,
      mstMPP := if w.extractLsb' 11 2 == 0b11 then .m else .u })
  | 0x304 => s.updMe (fun sl => { sl with mie := w.extractLsb' 16 4 })
  | 0x305 => s.updMe (fun sl => { sl with mtvec := w &&& ~~~ 3 })
  | 0x306 => s.updMe (fun sl => { sl with mcounteren := w.setWidth 3 })
  | 0x340 => s.updMe (fun sl => { sl with mscratch := w })
  | 0x341 => s.updMe (fun sl => { sl with mepc := w &&& ~~~ 3 })
  | 0x342 => s.updMe (fun sl => { sl with mcause := w &&& 0x800000000000003F })
  | 0x343 => s.updMe (fun sl => { sl with mtval := w })
  | 0xB00 => s.updMe (fun sl => { sl with mcycle := w })
  | 0xB02 => s.updMe (fun sl => { sl with minstret := w })
  | _ => s

/-- A CSR access is allowed: the address exists, the mode reaches it, and no write meets a read-only address
(R21, R25, R98). -/
def State.csrOk (s : State) (a : Nat) (reads writes : Bool) : Bool :=
  match csrClass a with
  | .absent => false
  | .csr m ro => (!m || s.me.mode == .m) && !(ro && writes) && (!reads || counterOk s.me a)

/-- A CSR instruction: new computes the value written from the old one; none does not write. The write takes effect
after the instruction has counted (the ratified text gives it priority over the count). -/
def State.csrOp (s : State) (i : Instr) (rd : BitVec 5) (csr : BitVec 12) (reads : Bool)
    (new : Option (Word → Word)) : State :=
  let a := csr.toNat
  if s.csrOk a reads new.isSome then
    let old := s.csrRead a
    let t := s.result rd old
    match new with
    | some f => t.csrWrite a (f old)
    | none => t
  else s.illegalI i

def execCsrrw (rd rs1 : XReg) (csr : BitVec 12) (s : State) : Out :=
  .next (s.csrOp (.csrrw rd rs1 csr) rd csr (rd != 0) (some (fun _ => s.x rs1)))
def execCsrrs (rd rs1 : XReg) (csr : BitVec 12) (s : State) : Out :=
  .next (s.csrOp (.csrrs rd rs1 csr) rd csr true (if rs1 == 0 then none else some (fun o => o ||| s.x rs1)))
def execCsrrc (rd rs1 : XReg) (csr : BitVec 12) (s : State) : Out :=
  .next (s.csrOp (.csrrc rd rs1 csr) rd csr true (if rs1 == 0 then none else some (fun o => o &&& ~~~ s.x rs1)))
def execCsrrwi (rd : XReg) (u : BitVec 5) (csr : BitVec 12) (s : State) : Out :=
  .next (s.csrOp (.csrrwi rd u csr) rd csr (rd != 0) (some (fun _ => u.setWidth 64)))
def execCsrrsi (rd : XReg) (u : BitVec 5) (csr : BitVec 12) (s : State) : Out :=
  .next (s.csrOp (.csrrsi rd u csr) rd csr true (if u == 0 then none else some (fun o => o ||| u.setWidth 64)))
def execCsrrci (rd : XReg) (u : BitVec 5) (csr : BitVec 12) (s : State) : Out :=
  .next (s.csrOp (.csrrci rd u csr) rd csr true (if u == 0 then none else some (fun o => o &&& ~~~ u.setWidth 64)))

/-! System instructions (R97, R245). -/

def execEcall (s : State) : Out := .next (s.trap (if s.me.mode == .m then 11 else 8) 0)
def execEbreak (s : State) : Out := .next (s.trap 3 s.me.pc)

def execWfi (s : State) : Out := .next (if s.me.mode == .m then s.retire else s.illegalI .wfi)

/-- FENCE.I: every line of the trellis cache, every entry of its I-TLB and every line its slots hold is dropped; a copy
whose completion is observed has finished its writes (R94, R220). It takes 2 rotations (Table 03.4). -/
def execFenceI (_imm : BitVec 12) (_rs1 _rd : XReg) (s : State) : Out :=
  let g := s.coreOf s.vk
  let d := g / 256
  let t := trellisOf g
  let s1 := s.updDie d (fun x => { x with
    icache := x.icache.filter (fun l => l.trellis != t),
    tlb := x.tlb.filter (fun e => e.at_ != .itlb t) })
  let s2 := s1.mapSlots (fun k sl =>
    if s.coreOf (k / 16) / 256 == d && trellisOf (s.coreOf (k / 16)) == t then { sl with line := none, ahead := none } else sl)
  .next (s2.resultIn 2 0 0)

end Sys2Proof.Machine
end

