-- ==== Sys2Proof/Machine/Operands.lean ====
section
/-! DEFINITION. Operand forms: handles and the checks they pass, ring-protection mtval, ring images. -/

namespace Sys2Proof.Machine

/-! mtval of the ring-protection trap (Table 04.3). -/

def rp0 (h : Nat) (pos : Nat) : Word := BitVec.ofNat 64 (h + 16 * pos)
def rp1 (h : Nat) (pos : Nat) : Word := BitVec.ofNat 64 (h + 16 * pos + 64)
def rp2 (ix why : Nat) : Word := BitVec.ofNat 64 (2 * 64 + ix % 256 * 256 + why * 65536)
def rp3 (g why : Nat) : Word := BitVec.ofNat 64 (3 * 64 + g % 256 * 256 + why * 65536)

/-- The ring-protection trap. -/
def State.trap25 (s : State) (tval : Word) : State := s.trap 25 tval

/-- Handle role bits: consumer, producer (Table 01.3). -/
inductive Role where
  | consumer
  | producer
  deriving DecidableEq, Repr

def handleHas (hv : BitVec 8) : Role → Bool
  | .consumer => hv.getLsbD 6
  | .producer => hv.getLsbD 7

/-- A handle of the slot as a ring index, when its role and the ring's validity and kind fit (R24, R110). -/
def State.handle? (s : State) (h : BitVec 3) (role : Role) (kinds : Ring → Bool) : Option Nat :=
  let hv := s.me.h[h.toNat]'(h.isLt)
  let ix := hv.toNat % 64
  let r := s.ring s.vk ix
  if handleHas hv role && r.valid && kinds r then some ix else none

/-- The check of R110 at operand position pos before any effect. -/
def State.withHandle (s : State) (h : BitVec 3) (pos : Nat) (role : Role) (kinds : Ring → Bool) (k : Nat → State) :
    State :=
  match s.handle? h role kinds with
  | some ix => k ix
  | none => s.trap25 (rp0 h.toNat pos)

/-! Ring kinds (Table 04.2). -/
def kindIs (l : List Nat) (r : Ring) : Bool := l.contains r.kind.toNat
/-- A consumer operand of an instruction of engine e. -/
def feeds (e : Nat) (r : Ring) : Bool := r.kind == 0 || (r.kind == 5 && r.eng.toNat == e)

/-! Ring images (Table 01.9). -/

/-- The descriptor of an image, with its base as stored in the image. -/
def ringOfWords (w0 w1 w2 : Word) : Ring :=
  { kind := w0.extractLsb' 0 3, valid := w0.getLsbD 3, lgcnt := w0.extractLsb' 4 4, size8 := w0.extractLsb' 8 10,
    base := w0.extractLsb' 20 20, head := (w1.extractLsb' 0 12).toNat, tail := (w1.extractLsb' 16 12).toNat,
    fill := (w1.extractLsb' 32 13).toNat, scope := w2.extractLsb' 0 2, sgrp := w2.extractLsb' 8 8,
    level := w2.getLsbD 16, vnet := w2.extractLsb' 17 2, eng := w2.extractLsb' 20 2, port := w2.extractLsb' 24 8 }

/-- The image of a descriptor whose base is given. -/
def wordsOfRing (r : Ring) (base : Nat) : List Word :=
  [BitVec.ofNat 64 (r.kind.toNat + (if r.valid then 8 else 0) + r.lgcnt.toNat * 16 + r.size8.toNat * 256
      + base % 0x100000 * 0x100000),
   BitVec.ofNat 64 (r.head + r.tail * 65536 + r.fill * 0x100000000),
   BitVec.ofNat 64 (r.scope.toNat + r.sgrp.toNat * 256 + (if r.level then 65536 else 0) + r.vnet.toNat * 131072
      + r.eng.toNat * 0x100000 + r.port.toNat * 0x1000000),
   0]

/-- The RZ bits of an image are zero. -/
def ringRzOk (w0 w1 w2 w3 : Word) : Bool :=
  (w0 &&& 0xFFFFFF00000C0000) == 0 && (w1 &&& 0xFFFFE000F000F000) == 0 && (w2 &&& 0xFFFFFFFF00C800FC) == 0 && w3 == 0

/-- The ring is named by an engine instruction accepted and not completed (R111). -/
def VCore.ringBusy (v : VCore) (ix : Nat) : Bool :=
  let names := fun (e : QEntry) => e.rd == some ix || e.ra == some ix || e.rb == some ix
  v.queue.any (fun p => p.2.any names) || v.run.any (fun p => names p.2.entry)

end Sys2Proof.Machine
end

