-- ==== Sys2Proof/Machine/Network.lean ====
section
/-! DEFINITION. Sending and answering messages: pointers and homes (R193 to R195), request egress (R196), requests kept
at their source (R203, R210, R211, R357), batches and closes (R199, R200), tokens (R207 to R213), acknowledgements. -/

namespace Sys2Proof.Machine

def sumNat (l : List Nat) : Nat := l.foldl (· + ·) 0

/-! Pointers (Table 08.1). -/

def ptrOff (p : Word) : Nat := bits p 23 0
def ptrVcid (p : Word) : Nat := bits p 39 24
def ptrNode (p : Word) : Nat := bits p 59 40
def ptrSpace (p : Word) : Nat := bits p 63 60

/-- The failing check of R194, as mcause. -/
def ptrCheck (p : Word) (load : Bool) : Option Nat :=
  if ptrOff p % 8 ≠ 0 then some (if load then 4 else 6)
  else if 2 ≤ ptrSpace p || (ptrSpace p == 1 && (bits p 39 27 ≠ 0 || 0x8000 ≤ ptrOff p)) then some (if load then 5 else 7)
  else none

/-- A node field names the issuing package (R193). -/
def State.ownNode (s : State) (n : Nat) : Bool := n == 0xFFFFF || n == s.node

/-- Where a pointer used by a virtual core leads (R193). -/
def State.target (s : State) (vk : Nat) (p : Word) : Dest :=
  let v := s.vc vk
  if ptrSpace p == 0 then
    (if s.ownNode (ptrNode p) then .vc (vkey v.gid (ptrVcid p)) else .farVc (ptrNode p) (s.gang v.gid).job (ptrVcid p))
  else if s.ownNode (ptrNode p) then .sig (bits p 26 24)
  else .farSig (ptrNode p) (bits p 26 24)

def Dest.isFar : Dest → Bool
  | .farVc _ _ _ => true
  | .farSig _ _ => true
  | _ => false

def Dest.isSig : Dest → Bool
  | .sig _ => true
  | .farSig _ _ => true
  | _ => false

/-- The virtual network of a message (Table 10.3). -/
def Body.net : Body → VNet
  | .loadReply _ _ _ _ => .reply
  | .atomicReply _ _ _ _ _ => .reply
  | .summary _ _ => .reply
  | .retry _ _ => .reply
  | .refusal _ => .reply
  | .ack _ _ _ _ => .control
  | .release _ => .control
  | .expiry _ => .control
  | .scopeMiss _ _ => .control
  | .port n _ _ => n
  | .marker n _ => n
  | .guyline _ _ => .control
  | .arrive _ _ => .control
  | .copyRead _ _ _ _ => .request
  | .copyWrite _ _ _ _ _ => .request
  | .rackWrite _ _ _ => .request
  | .vntControl _ _ _ => .request
  | .load _ _ _ _ => .request
  | .store _ _ _ _ _ => .request
  | .atomic _ _ _ _ _ _ _ _ _ => .request
  | .close _ _ => .request
  | .enqueue _ _ _ => .request
  | .mailbox _ _ _ => .request
  | .level _ _ _ => .request

/-! Tokens (Table 08.6, R208). -/

def tokenVal (slot e gen : Nat) : Nat := gen + 64 * e + 4096 * slot

inductive TokenClass where
  | live (e : Nat) (t : Token)
  | stale
  | foreign
  deriving DecidableEq, Repr

def VCore.recognise (v : VCore) (t : Nat) : TokenClass :=
  let gen := t % 64
  let e := t / 64 % 64
  let x := FMap.getD v.tokens e {}
  if x.valid && x.gen == gen && x.slot == t / 4096 % 16 then .live e x
  else if x.gen == (gen + 1) % 64 then .stale
  else .foreign

/-- A token value names a PENDING entry. -/
def VCore.pendingTok (v : VCore) (t : Nat) : Bool :=
  match v.recognise t with
  | .live _ x => x.st == TokState.pending
  | _ => false

/-- The token a store is held on. -/
def Body.heldOn : Body → Option Nat
  | .store _ _ _ _ h => h
  | _ => none

/-- Virtual cores that list a group, in ascending order. -/
def State.membersOf (s : State) (g : Nat) : List Nat :=
  (s.vcs.filter (fun p => p.2.live && p.2.groups.contains g)).map Prod.fst

/-! Entering the networks. -/

/-- A message accepted by its network. -/
def State.send (s : State) (m : Msg) : State := { s with net := s.net ++ [m] }

/-- The answer to a request that comes back; it says whether the request had been sent again. -/
def State.sendBack (s : State) (m : Msg) (b : Body) : State :=
  s.send { src := m.dst, dst := m.src, net := b.net, body := b, resent := m.resent }

/-- An answer from a home to a source. -/
def State.answer (s : State) (home src : Dest) (b : Body) : State :=
  s.send { src := home, dst := src, net := b.net, body := b }

/-- Request egress of the hosting core has room (R196). -/
def State.egressRoom (s : State) (vk : Nat) : Bool := decide ((s.core (s.coreOf vk)).egress.length < 32)

def State.enterEgress (s : State) (vk : Nat) (m : Msg) : State :=
  s.updCore (s.coreOf vk) (fun c => { c with egress := c.egress ++ [m] })

/-- Messages of engines, and supervisor messages of the hardware, have no order against slot messages (R255). -/
def Body.unordered : Body → Bool
  | .enqueue _ _ _ => true
  | .level _ _ _ => true
  | .copyRead _ _ _ _ => true
  | .copyWrite _ _ _ _ _ => true
  | .rackWrite _ _ _ => true
  | .vntControl _ _ _ => true
  | .mailbox _ _ ws => decide (bits (ws.headD 0) 7 0 < 0x80)
  | _ => false

/-- A kept message that a message of a slot to a destination must stay behind. -/
def Kept.blocks (k : Kept) (slot : Nat) (dst : Dest) (net : VNet) : Bool :=
  (match k.why with
   | .again _ => false
   | _ => true) && !k.msg.body.unordered && k.msg.dst == dst && k.msg.net == net && (k.wide || k.slot == slot)

def VCore.blockerOn (v : VCore) (slot : Nat) (dst : Dest) (net : VNet) : Option Kept := v.kept.find? (fun k => k.blocks slot dst net)
def VCore.blocker (v : VCore) (slot : Nat) (dst : Dest) : Option Kept := v.blockerOn slot dst .request

/-- A request of a slot enters egress, or stays behind an earlier kept one. -/
def State.emit (s : State) (vk slot : Nat) (dst : Dest) (b : Body) : State :=
  let m : Msg := { src := .vc vk, dst := dst, net := .request, body := b }
  match (s.vc vk).blocker slot dst with
  | some k => s.updVc vk (fun v => { v with kept := v.kept ++ [{ msg := m, slot := slot, wide := k.wide, ret := k.ret, refused := k.refused, fresh := true }] })
  | none => s.enterEgress vk m

/-- A request kept at its source from the start. -/
def State.keep (s : State) (vk slot : Nat) (dst : Dest) (b : Body) (why : KeptWhy) (wide : Bool) : State :=
  s.updVc vk (fun v => { v with kept := v.kept ++
    [{ msg := { src := .vc vk, dst := dst, net := .request, body := b }, slot := slot, why := why, wide := wide, fresh := true }] })

/-- R196: a message that needs egress (or another place that is full, room false) holds the instruction, or traps a
U-mode slot whose core has sqfen set. -/
def State.withRoom (s : State) (i : Instr) (room : Bool) (k : State) : State :=
  if room then k
  else if (s.core (s.coreOf s.vk)).sqfen && s.me.mode == .u then s.trap 26 ((insnWord i).setWidth 64)
  else s.waitOn true

/-- A request of the current slot to dst can enter egress, or will be kept without it. -/
def State.canSend (s : State) (dst : Dest) : Bool := s.egressRoom s.vk || (s.myVc.blocker s.ix dst).isSome

/-- Messages of a virtual core to a destination on a network are on their way, or are coming back. -/
def State.inFlight (s : State) (vk : Nat) (dst : Dest) (net : VNet) : Bool :=
  (net == .request && (s.core (s.coreOf vk)).egress.any (fun m => m.src == .vc vk && m.dst == dst)) ||
  s.net.any (fun m =>
    (m.src == .vc vk && m.dst == dst && m.net == net && !m.body.unordered) ||
    (m.src == dst && m.dst == .vc vk && (match m.body with
      | .retry b _ => b.net == net
      | .refusal b => b.net == net
      | _ => false)))

/-- Number of the request of a body. -/
def Body.number : Body → Nat
  | .load id _ _ _ => id
  | .store t _ _ _ _ => t.id
  | .atomic id _ _ _ _ _ _ _ _ => id
  | .enqueue t _ _ => t.id
  | .copyRead t _ _ _ => t.id
  | .copyWrite t _ _ _ _ => t.id
  | _ => 0

/-- A kept message as it is sent now: a store is still held on its token only while that is PENDING (R210, R211). -/
def VCore.ready (v : VCore) (k : Kept) (again : Bool) : Msg :=
  { k.msg with resent := again, body := match k.msg.body with
      | .store t p d x h => .store t p d x (h.filter v.pendingTok)
      | b => b }

/-- A kept request may be sent now: its gang is not quiesced, its own reason has passed, nothing before it blocks it, and one that came back, or
follows one that did, goes when nothing of the pair is on its way. -/
def State.sendable (s : State) (vk : Nat) (before : List Kept) (k : Kept) (cyc : Nat) : Bool :=
  let v := s.vc vk
  !(s.gang v.gid).quiesced && (k.msg.body.unordered || !(before.any (fun j => j.blocks k.slot k.msg.dst k.msg.net))) &&
  (!k.ret || k.msg.body.unordered || !s.inFlight vk k.msg.dst k.msg.net) &&
  !(k.refused && k.msg.body.heldOn.any v.pendingTok) &&
  (match k.why with
   | .behind => true
   | .release _ => false
   | .token _ => false
   | .refused => !(v.tokens.any (fun p => p.2.valid && p.2.st == TokState.pending && p.2.deps.contains k.msg.dst))
   | .absent due => due ≤ cyc
   | .again _ => false)

/-- The kept requests that may leave enter egress while it has room. -/
def State.pumpFrom (s : State) (vk cyc : Nat) (before : List Kept) : List Kept → State
  | [] => s.updVc vk (fun v => { v with kept := before })
  | k :: t =>
    let direct := k.msg.net != .request || k.msg.body.unordered
    let m := (s.vc vk).ready k k.ret
    if (direct || s.egressRoom vk) && s.sendable vk before k cyc then
      (if direct then s.send m else s.enterEgress vk m).pumpFrom vk cyc before t
    else s.pumpFrom vk cyc (before ++ [k]) t

/-- An absent-retried request is reissued by its own event; the others go as soon as they may. -/
def State.pump (s : State) (vk : Nat) : State :=
  let wait := (s.vc vk).kept.any (fun k => match k.why with
    | .absent _ => true
    | _ => false)
  s.pumpFrom vk (if wait then 0 else s.cycOf vk) [] (s.vc vk).kept

/-! Batches (R199). -/

/-- A store to dst counted in batch bt; the Bool: counted by acknowledgement. -/
def State.countIn (s : State) (vk bt : Nat) (dst : Dest) : State × Bool :=
  let b := (s.vc vk).batches.getD bt {}
  let put := fun (c : Batch) => s.updVc vk (fun v => { v with batches := v.batches.setIfInBounds bt c })
  let far := dst.isFar
  if !far && b.dests.contains dst then (s, false)
  else if !far && b.dests.length < 64 then (put { b with dests := b.dests ++ [dst] }, false)
  else match dst with
    | .vc _ => (put { b with bcast := true }, false)
    | _ => (put { b with og := true }, true)

/-- A store to dst would be counted by acknowledgement. -/
def State.wouldCount (s : State) (vk bt : Nat) (dst : Dest) : Bool := (s.countIn vk bt dst).2

/-- The 1,024 stores counted by acknowledgement are all out (R199). -/
def VCore.countedFull (v : VCore) : Bool := decide (1024 ≤ (v.unacked.filter (fun a => a.counted)).length)

/-- Error bits for a batch epoch: the batch while it is current, its close afterwards. -/
def VCore.addBits (v : VCore) (bt epoch : Nat) (e : BitVec 16) : VCore :=
  let b := v.batches.getD bt {}
  if b.epoch == epoch then { v with batches := v.batches.setIfInBounds bt { b with bits := b.bits ||| e } }
  else { v with closes := v.closes.map (fun c => if c.bt == bt && c.epoch == epoch then { c with bits := c.bits ||| e } else c) }

def sdxBit : BitVec 16 := 8
def hexBit : BitVec 16 := 4
def nvcBit : BitVec 16 := 2
def winBit : BitVec 16 := 1

/-- A store of the current slot recorded as issued: its number, the state, and its tag. -/
def State.issueStore (s : State) (bt : Nat) (dst : Dest) (token : Option (Nat × Nat)) : Tag × State :=
  let c := s.countIn s.vk bt dst
  let n := c.1.freshId
  let a : Access := {
    id := n.1, slot := s.ix, dests := [dst], bt := bt,
    epoch := (s.myVc.batches.getD bt {}).epoch, counted := c.2, token := token }
  ({ id := n.1, slot := s.ix, bt := bt }, n.2.updMyVc (fun v => { v with unacked := v.unacked ++ [a] }))

/-! Closes (R200, R201). -/

/-- The summary of Table 08.3. -/
def Close.sum (c : Close) : Word :=
  BitVec.ofNat 64 (c.bits.toNat + min c.npeer 65535 * 0x10000 + (if c.bc then 2 ^ 32 else 0) + (if c.og then 2 ^ 33 else 0))

/-- Two closes in one sum: bits, bc and og ORed, npeer summed (Table 11.5). -/
def Close.merge (a c : Close) : Close :=
  { a with bits := a.bits ||| c.bits, npeer := a.npeer + c.npeer, bc := a.bc || c.bc, og := a.og || c.og }

def VCore.closed (v : VCore) (c : Close) : Bool :=
  c.todo.isEmpty && c.wait == 0 && !(v.unacked.any (fun a => a.counted && a.bt == c.bt && a.epoch == c.epoch))

/-- A slot completes an instruction held for a message: the pc moves on, and the slot may issue again. -/
def Slot.finish (sl : Slot) (rd : BitVec 5) (v : Word) : Slot := (sl.writeX rd v).retireAt (sl.pc + 4)

/-- Closes that nothing is awaited for any more complete: rd, or the batch-error trap. The gang keeps their sum for its completion
record (R413). -/
def State.settleCloses (s : State) (vk : Nat) : List Close → State
  | [] => s
  | c :: t =>
    let v := s.vc vk
    (if v.closed c then
      let key := slotKey vk c.slot
      let s1 := (s.updVc vk (fun v => { v with closes := v.closes.filter (fun d => d.id != c.id) })).updGang v.gid
        (fun g => { g with closed := g.closed.merge c })
      match (s.slot key).hold with
      | some (.close id rd) =>
        if id == c.id then
          s1.updSlot key (fun sl => if c.bits == 0 then sl.finish rd c.sum else sl.enter sl.pc 48 c.sum)
        else s1
      | _ => s1
    else s).settleCloses vk t

/-- What waits for acknowledgements is looked at again: closes and FENCES (R200, R203). -/
def State.settle (s : State) (vk : Nat) : State :=
  let s := s.settleCloses vk (s.vc vk).closes
  s.mapSlots (fun k sl =>
    if k / 16 == vk then
      match sl.hold with
      | some (.fences ids) =>
        if (ids.filter (fun i => (s.vc vk).unacked.any (fun a => a.id == i))).isEmpty then sl.finish 0 0 else sl
      | _ => sl
    else sl)

/-! The token table (R208). -/

/-- The entry freed: its generation rises. -/
def Token.free (t : Token) : Token := { t with valid := false, gen := (t.gen + 1) % 64, fol := false, deps := [] }

def VCore.freeToken (v : VCore) (e : Nat) : VCore :=
  { v with tokens := FMap.set v.tokens e (Token.free (FMap.getD v.tokens e {})) }

/-- The entry TST takes: the lowest invalid one, else the landed or expired one that ended earliest (R209). -/
def VCore.tokenEntry (v : VCore) : Option Nat :=
  match (List.range 64).find? (fun e => !(FMap.getD v.tokens e {}).valid) with
  | some e => some e
  | none =>
    let done := v.tokens.filter (fun p => p.2.st != TokState.pending)
    (done.find? (fun p => done.all (fun q => p.2.ended ≤ q.2.ended))).map Prod.fst

/-- The entry taken for a store of a slot to dst; the Nat: its generation. -/
def VCore.takeToken (v : VCore) (e slot : Nat) (dst : Dest) (cyc : Nat) (pc : Word) : VCore × Nat :=
  let old := FMap.getD v.tokens e {}
  let x := if old.valid then old.free else old
  let y : Token := { valid := true, gen := x.gen, slot := slot, st := .pending, dest := dst, cyc := cyc, pc := pc }
  ({ v with tokens := FMap.set v.tokens e y }, x.gen)

/-- Notices to the dependants of a token. -/
def State.notify (s : State) (vk : Nat) (b : Body) : List Dest → State
  | [] => s
  | d :: t => (s.answer (.vc vk) d b).notify vk b t

/-- The token of an entry lands (R209, R210): notices, then a free-on-landing entry is freed; the stores kept for it may
go. -/
def State.landToken (s : State) (vk e : Nat) : State :=
  let x := FMap.getD (s.vc vk).tokens e {}
  let s := s.notify vk (.release (tokenVal x.slot e x.gen)) x.deps
  let n := s.freshId
  let y : Token := if x.fol then x.free else { x with st := .landed, ended := n.1 }
  let s := n.2.updVc vk (fun v => { v with
    tokens := FMap.set v.tokens e y,
    kept := v.kept.map (fun k => if k.why == KeptWhy.token e then { k with why := .behind } else k) })
  s.wakeVc vk (fun a => a == Await.token e)

/-- A supervisor message: hardware kind, source slot, pc, value, detail and payload (Table 09.7). -/
def State.mailWords (s : State) (vk kind slot : Nat) (pc value detail : Word) (payload : List Word) : List Word :=
  [BitVec.ofNat 64 (kind + slot * 0x100 + (s.vc vk).vcid * 0x10000 + s.node * 0x100000000), pc, value, detail] ++
    (payload ++ [0, 0, 0, 0]).take 4

/-- The mailbox of a virtual core: its supervisor's key, slot and ring, when it is set (R243). -/
def State.mailbox (s : State) (vk : Nat) : Option (Nat × Nat × Nat) :=
  let v := s.vc vk
  let m := v.supmbox
  let sk := vkey v.gid (bits m 15 0)
  let sv := s.vc sk
  let slot := bits m 19 16
  let ix := bits m 25 20
  let r := FMap.getD sv.rings ix {}
  if bit m 63 && sv.live && slot < slotCount sv && r.valid && (r.kind == 0 || r.kind == 3) && 64 ≤ r.size then
    some (sk, slot, ix)
  else none

/-- A hardware message to the supervisor mailbox; without one it is dropped (R243). It is sent by the network
interface: it occupies no request egress. -/
def State.mail (s : State) (vk kind slot : Nat) (pc value detail : Word) (payload : List Word) : State :=
  match s.mailbox vk with
  | some (sk, sslot, ix) =>
    s.send { src := .vc vk, dst := .vc sk, net := .request,
             body := .mailbox sslot ix (s.mailWords vk kind slot pc value detail payload) }
  | none => s

/-- A token-expiry fault for a slot, or its message when the slot is EMPTY or HALTED (R213, R246). -/
def State.expiryFault (s : State) (vk slot tok : Nat) (pc : Word) : State :=
  let key := slotKey vk slot
  let sl := s.slot key
  if sl.st == .empty || sl.st == .halted then s.mail vk 2 slot pc (BitVec.ofNat 64 tok) 0 []
  else s.updSlot key (fun sl => ({ sl with p27 := sl.p27 ++ [tok] }).nudge (s.cycOf vk))

/-- A kept store waits for the token of an entry, or is held on it. -/
def VCore.keptOn (v : VCore) (e : Nat) (k : Kept) : Bool :=
  let x := FMap.getD v.tokens e {}
  k.why == KeptWhy.token e || k.msg.body.heldOn == some (tokenVal x.slot e x.gen)

/-- The stores a virtual core keeps for the token of an entry. -/
def VCore.keptFor (v : VCore) (e : Nat) : List Kept := v.kept.filter (v.keptOn e)

/-- The access of a kept store. -/
def VCore.accessOf (v : VCore) (k : Kept) : Option Access :=
  match k.msg.body with
  | .store t _ _ _ _ => v.unacked.find? (fun a => a.id == t.id)
  | _ => none

/-- The tokens of entries expire (R213): notices, the issuing slot's fault, and the kept stores discarded with SDX; the
tokens of discarded stores expire at once. fuel bounds the chain by the number of entries. -/
def State.expireTokens (s : State) (vk : Nat) : Nat → List Nat → State
  | 0, _ => s
  | _, [] => s
  | fuel + 1, e :: rest =>
    let x := FMap.getD (s.vc vk).tokens e {}
    if !(x.valid && x.st == TokState.pending) then s.expireTokens vk fuel rest
    else
      let tok := tokenVal x.slot e x.gen
      let n := (s.notify vk (.expiry tok) x.deps).freshId
      let s1 := n.2.updVc vk (fun v => { v with tokens := FMap.set v.tokens e { x with st := .expired, ended := n.1 } })
      let s2 := (s1.wakeVc vk (fun a => a == Await.token e)).expiryFault vk x.slot tok x.pc
      let gone := (s2.vc vk).keptFor e
      let accs := gone.filterMap (fun k => (s2.vc vk).accessOf k)
      let s3 := s2.updVc vk (fun v =>
        let v := { v with
          kept := v.kept.filter (fun k => !v.keptOn e k),
          unacked := v.unacked.filter (fun a => !(accs.any (fun b => b.id == a.id))) }
        accs.foldl (fun v a => v.addBits a.bt a.epoch sdxBit) v)
      s3.expireTokens vk fuel (rest ++ accs.filterMap (fun a => a.token.map Prod.fst))

/-- Expiry of one entry and what follows from it. -/
def State.expire (s : State) (vk e : Nat) : State := ((s.expireTokens vk 256 [e]).settle vk).pump vk

/-! Acknowledgements (R203, R209, R346). -/

/-- Access id of a virtual core is acknowledged with error bits. -/
def State.acked (s : State) (vk id : Nat) (e : BitVec 16) (miss : Bool) : State :=
  match (s.vc vk).unacked.find? (fun a => a.id == id) with
  | none => s
  | some a =>
    let s := s.updVc vk (fun v =>
      let v := { v with unacked := v.unacked.filter (fun b => b.id != id), owed := v.owed + (if miss then 1 else 0) }
      if a.counted && e != 0 then v.addBits a.bt a.epoch e else v)
    let s := match a.token with
      | some (t, gen) =>
        let x := FMap.getD (s.vc vk).tokens t {}
        if x.valid && x.gen == gen && x.st == TokState.pending then
          (if e == 0 then s.landToken vk t else s.expireTokens vk 256 [t])
        else s
      | none => s
    (s.settle vk).pump vk

end Sys2Proof.Machine
end

