-- ==== Sys2Proof/Machine/Translate.lean ====
section
/-! DEFINITION. Translation of device virtual addresses (R337 to R339, R380 to R382): walk, first-touch binding, peer
apertures, cached translations. -/

namespace Sys2Proof.Machine

/-- The permission an access needs (R338). -/
inductive Need where
  | read
  | write
  | fetch
  deriving DecidableEq, Repr

/-! Page-table entries (Table 13.9). -/

def pteValid (e : Word) : Bool := bit e 0
def pteLeaf (e : Word) : Bool := bit e 1
def pteFt (e : Word) : Bool := bit e 5
def pteSpace (e : Word) : Nat := bits e 8 6
def ptePa (e : Word) : Nat := bits e 51 16 * 65536
def pteAllows (e : Word) : Need → Bool
  | .read => bit e 2
  | .write => bit e 3
  | .fetch => bit e 4

/-- V = 1 and no must-be-zero bit: [15:9], [63:52] and the space codes 4 to 7. -/
def pteOk (e : Word) : Bool := pteValid e && bits e 15 8 == 0 && bits e 63 52 == 0

/-- Levels 3 to 0 (Table 13.8): lowest VA bit, index width, whether a leaf may stand there. -/
def walkLevels : List (Nat × Nat × Bool) := [(42, 10, false), (29, 13, true), (21, 8, true), (16, 5, true)]

/-- The walk from a table: the address of the leaf, the leaf, and log2 of its page. -/
def walkFrom (mem : Memory) (va : Nat) : Nat → List (Nat × Nat × Bool) → Option (Nat × Word × Nat)
  | _, [] => none
  | table, (lo, w, leafOk) :: rest =>
    let a := hbmAddr (table + 8 * (va / 2 ^ lo % 2 ^ w))
    let e := Memory.word mem a
    if !pteOk e then none
    else if pteLeaf e then (if leafOk then some (a, e, lo) else none)
    else walkFrom mem va (ptePa e) rest

def State.walk (s : State) (fn va : Nat) : Option (Nat × Word × Nat) :=
  match (s.func fn).root with
  | some r => if va < 2 ^ 52 then walkFrom s.mem va r walkLevels else none
  | none => none

/-! Free pages (R339). -/

/-- Free pages of a size at a stack port. -/
def freePages (pool : List (Nat × Nat × Nat × Nat)) (stack lg : Nat) : Nat :=
  pool.foldl (fun n p => if p.1 == stack && p.2.1 == lg then n + p.2.2.2 else n) 0

/-- The stack port with the most free pages of a size, the lowest on a tie. -/
def bestStack (pool : List (Nat × Nat × Nat × Nat)) (lg : Nat) : Nat :=
  ((List.range 3).find? (fun p => (List.range 3).all (fun q => freePages pool q lg ≤ freePages pool p lg))).getD 0

/-- One page of a size taken: its address and the pool left. -/
def takePage (pool : List (Nat × Nat × Nat × Nat)) (lg : Nat) : Option (Nat × List (Nat × Nat × Nat × Nat)) :=
  let st := bestStack pool lg
  match pool.find? (fun p => p.1 == st && p.2.1 == lg && p.2.2.2 != 0) with
  | some (a, b, first, n) =>
    some (first, pool.map (fun p => if p == (a, b, first, n) then (a, b, first + 2 ^ lg, n - 1) else p))
  | none => none

/-- A first-touch leaf at address a bound on a die: the page is zeroed, then the leaf is replaced. -/
def State.bindPage (s : State) (die a : Nat) (e : Word) (lg : Nat) : Option (State × Word) :=
  match takePage (s.die die).pool lg with
  | none => none
  | some (pa, pool) =>
    let e2 := (e &&& ~~~ (0x000FFFFFFFFF0020 : Word)) ||| BitVec.ofNat 64 pa
    let s := s.updDie die (fun d => { d with pool := pool })
    some ({ s with mem := Memory.setWord (Memory.clear s.mem (hbmAddr pa) (2 ^ lg)) a e2 }, e2)

/-! Cached translations (R337). -/

def TlbEntry.covers (t : TlbEntry) (fn va : Nat) (u : TlbAt) : Bool :=
  t.fn == fn && t.va == va / 2 ^ t.lg && t.at_ == u

/-- The ways an entry may take: all of a micro-TLB or an I-TLB, which are fully associative; of the shared TLB those of its set (the low
nine bits of the page number: DESIGN CHOICE, log entry 94). -/
def TlbEntry.sameSet (x t : TlbEntry) : Bool := x.at_ == t.at_ && (t.at_ != .shared || x.va % 512 == t.va % 512)

/-- The entries of a TLB that may stand in a set. -/
def TlbAt.ways : TlbAt → Nat
  | .shared => 16
  | .itlb _ => 32
  | .micro _ => 8

/-- An entry added to its TLB; the oldest of a full set leaves it (DESIGN CHOICE, log entry 94). -/
def addTlb (l : List TlbEntry) (t : TlbEntry) : List TlbEntry :=
  let set := l.filter (fun x => x.sameSet t)
  if set.length < t.at_.ways then t :: l
  else match set.getLast? with
    | some old => t :: l.erase old
    | none => t :: l

/-- A leaf found for a unit is kept in the unit's own TLB; by a walk in the shared one too. -/
def State.keepLeaf (s : State) (die : Nat) (t : TlbEntry) (walked : Bool) : State :=
  s.updDie die (fun d =>
    let l := if walked then addTlb d.tlb { t with at_ := .shared } else d.tlb
    { d with tlb := if t.at_ == .shared then l else addTlb l t })

/-- The leaf that maps an address for an access from a die by a unit: from the unit's own TLB, from the shared one, or by a walk. -/
def State.leafOf (s : State) (die fn va : Nat) (need : Need) (u : TlbAt) : Option (State × Word × Nat) :=
  match (s.die die).tlb.find? (fun t => t.covers fn va u) with
  | some t => if pteAllows t.leaf need then some (s, t.leaf, t.lg) else none
  | none =>
    match (s.die die).tlb.find? (fun t => t.covers fn va .shared) with
    | some t => if pteAllows t.leaf need then some (s.keepLeaf die { t with at_ := u } false, t.leaf, t.lg) else none
    | none =>
      match s.walk fn va with
      | none => none
      | some (a, e, lg) =>
        if !pteAllows e need || (pteFt e && pteSpace e != 0) then none
        else
          let keep := fun (s : State) (e : Word) =>
            some (s.keepLeaf die { fn := fn, va := va / 2 ^ lg, lg := lg, leaf := e, at_ := u } true, e, lg)
          if pteFt e then (match s.bindPage die a e lg with
            | some (t, e2) => keep t e2
            | none => none)
          else keep s e

/-- Physical address of va through a leaf. -/
def leafPa (e : Word) (lg va : Nat) : Nat := ptePa e / 2 ^ lg * 2 ^ lg + va % 2 ^ lg

/-- A host access that the environment has made fail. -/
def State.hostFails (s : State) (need : Need) : Bool := if need == .write then s.hostWriteFail else s.hostFail

/-- The CXL port of an address of the second tier: the ports of the set take turns at 256 bytes (R382). -/
def State.tierPort (s : State) (pa : Nat) : Option Nat := s.tierPorts[pa / 256 % s.tierPorts.length]?

/-- An access to the second tier finds no memory, or the environment has made it fail (R382). Beyond the tier every access is a
translation fault (DESIGN CHOICE, log entry 97). -/
def State.tierFails (s : State) (pa : Nat) (need : Need) : Bool :=
  s.tierCap ≤ pa || (need != .write && s.cxlFail.isSome && s.cxlFail == s.tierPort pa)

/-- Translation of one access; none is a translation fault. The Bool: the page is device memory, not host memory. -/
def State.translate (s : State) (die fn va : Nat) (need : Need) (u : TlbAt := .shared) : Option (State × Nat) :=
  match s.leafOf die fn va need u with
  | none => none
  | some (s, e, lg) =>
    let pa := leafPa e lg va
    let tier := fun (s : State) (pa : Nat) =>
      if s.tierFails pa need then none else some (s, tierAddr pa)
    match pteSpace e with
    | 0 => some (s, hbmAddr pa)
    | 1 => tier s pa
    | 2 => if s.hostFails need then none else some (s, hostAddr pa)
    | 3 =>
      let t := pa / 2 ^ 49 % 8
      let va2 := pa % 2 ^ 49 / 65536 * 65536 + va % 65536
      if !(s.func t).peers.getLsbD fn then none
      else (match s.leafOf die t va2 need u with
        | none => none
        | some (s, e2, lg2) =>
          (match pteSpace e2 with
           | 0 => some (s, hbmAddr (leafPa e2 lg2 va2))
           | 1 => tier s (leafPa e2 lg2 va2)
           | _ => none))
    | _ => none

/-- The failure of a host or second-tier access is used up by the fault it causes. -/
def State.readFailed (s : State) : State := { s with hostFail := false, cxlFail := none, hostWriteFail := false }

/-- n bytes at va, which may cross pages: their addresses. -/
def State.translateBytes (s : State) (die fn va : Nat) (need : Need) (n : Nat) (u : TlbAt := .shared) : Option (State × List Nat) :=
  match n with
  | 0 => some (s, [])
  | n + 1 =>
    match s.translate die fn va need u with
    | none => none
    | some (t, a) =>
      match t.translateBytes die fn (va + 1) need n u with
      | some (u, l) => some (u, a :: l)
      | none => none

/-- Bytes read at a list of addresses. -/
def readAt (mem : Memory) (l : List Nat) : List Byte := l.map (fun a => Memory.read mem a)
/-- Bytes written at a list of addresses. -/
def writeAt (mem : Memory) : List Nat → List Byte → Memory
  | a :: l, b :: bs => writeAt (Memory.write mem a b) l bs
  | _, _ => mem

/-- n bytes read at a device virtual address. -/
def State.readVa (s : State) (die fn va n : Nat) (u : TlbAt := .shared) : Option (State × List Byte) :=
  (s.translateBytes die fn va .read n u).map (fun r => (r.1, readAt r.1.mem r.2))

/-- Bytes written at a device virtual address; nothing is written when a byte does not translate. -/
def State.writeVa (s : State) (die fn va : Nat) (bs : List Byte) (u : TlbAt := .shared) : Option State :=
  (s.translateBytes die fn va .write bs.length u).map (fun r => { r.1 with mem := writeAt r.1.mem r.2 bs })

/-- k words read at a device virtual address. -/
def State.readVaWords (s : State) (die fn va k : Nat) (u : TlbAt := .shared) : Option (State × List Word) :=
  (s.readVa die fn va (8 * k) u).map (fun r => (r.1, wordsOfBytes r.2))

/-- PAGE_WALK: a unit of die ev.key asks for the translation of ev.val for function ev.ix; ev.data holds the access: 0
read, 1 write, 2 fetch, 3 a read and 4 a write of a core, and then the trellis or the core. A walk that ends in a leaf leaves it in the
TLBs, with its page bound; a translation fault leaves the state as it is, and the unit that asked for it reports it (R338). A walk is
one step, so that never more than one is in progress on a die, where the device has at most 64 (log entry 94). -/
def execPageWalk (s : State) : Out :=
  let n := (s.ev.data.getD 1 0).toNat
  let a := match (s.ev.data.headD 0).toNat with
    | 0 => (Need.read, TlbAt.shared)
    | 1 => (.write, .shared)
    | 2 => (.fetch, .itlb n)
    | 3 => (.read, .micro n)
    | _ => (.write, .micro n)
  .next (match s.leafOf s.ev.key s.ev.ix s.ev.val.toNat a.1 a.2 with
    | some (t, _, _) => t
    | none => s)

end Sys2Proof.Machine
end

