-- ==== Sys2Proof/Machine/Fetch.lean ====
section
/-! DEFINITION. Trellis fetch (R297): lines, requests, the trellis cache, patches (R284, R288). -/

namespace Sys2Proof.Machine

/-! Patches. -/

/-- Byte o of an image with the patch entries applied: kind 0 replaces the byte, kind 1 bits [27:20] of a word. A symbol that the image
does not declare patches in 0 (DESIGN CHOICE, log entry 108). -/
def patchByte (patches : List Word) (symbols : List Nat) (o : Nat) (b : Byte) : Byte :=
  patches.foldl (fun b p =>
    let off := bits p 31 0
    let g := symbols.getD (bits p 33 32) 0
    if bit p 34 then
      (if o == off + 2 then BitVec.ofNat 8 (g % 16 * 16 + b.toNat % 16)
       else if o == off + 3 then BitVec.ofNat 8 (b.toNat / 16 * 16 + g / 16 % 16)
       else b)
    else if o == off then BitVec.ofNat 8 g else b) b

/-- Bytes from image offset o on, patched. -/
def patchBytes (patches : List Word) (symbols : List Nat) (o : Nat) (bs : List Byte) : List Byte :=
  bs.zipIdx.map (fun p => patchByte patches symbols (o + p.2) p.1)

def insnsOfBytes (bs : List Byte) : List InsnWord :=
  (List.range (bs.length / 4)).map (fun i => BitVec.ofNat 32 (ofBytes ((bs.drop (4 * i)).take 4)))

/-- The words of a line of a gang as its trellis holds it. -/
def patchedLine (g : Gang) (line : Nat) (bs : List Byte) : List InsnWord :=
  let o := 64 * line - g.image
  let inText := decide (g.image + 64 ≤ 64 * line ∧ 64 * line < g.image + 64 + g.textSize)
  insnsOfBytes (if inText then patchBytes g.patches g.symbols o bs else bs)

/-! What a slot sees. -/

inductive Fetched where
  | word (w : InsnWord)
  | miss
  | fault (cause : Nat)

/-- Resident handler code (R29). -/
def residentPc (a : Word) : Bool := decide (0xF0000 ≤ a.toNat ∧ a.toNat < 0xF2000)

/-- The line with this number that a slot has. -/
def Slot.lineOf (sl : Slot) (ix : Nat) : Option Line :=
  match sl.line.filter (fun l => l.ix == ix) with
  | some l => some l
  | none => sl.ahead.filter (fun l => l.ix == ix)

/-- The word at address a for a slot. -/
def State.fetchAt (s : State) (key : Nat) (a : Word) : Fetched :=
  let sl := s.slot key
  if sl.mode == .m && residentPc a then
    .word (BitVec.ofNat 32 (Memory.readN s.mem (lmAddr (s.coreOf (key / 16)) a.toNat) 4))
  else
    let ix := a.toNat / 64
    match sl.lineOf ix with
    | some l => .word (l.words.getD (a.toNat / 4 % 16) 0)
    | none => if sl.fetchFault.any (fun f => f.1 == ix) then .fault ((sl.fetchFault.getD (0, 12)).2) else .miss

/-- A request for a line; it joins one for the same line that is not yet served. -/
def addRequest (l : List LineReq) (r : LineReq) : List LineReq :=
  let same := fun (x : LineReq) => x.trellis == r.trellis && x.fn == r.fn && x.gid == r.gid && x.line == r.line
  if l.any same then
    l.map (fun x => if same x then
      { x with waiters := x.waiters ++ r.waiters.filter (fun k => !x.waiters.contains k) } else x)
  else l ++ [r]

/-- The core of a slot requests a line for it. -/
def State.requestLine (s : State) (key line : Nat) : State :=
  let vk := key / 16
  let g := s.coreOf vk
  let gid := (s.vc vk).gid
  s.updDie (g / 256) (fun d => { d with reqs := addRequest d.reqs {
    trellis := trellisOf g, fn := (s.gang gid).func, gid := gid, line := line, waiters := [key] } })

/-- The slot whose next word has not arrived parks (R297). -/
def State.parkFetch (s : State) (a : Word) : State :=
  (s.requestLine s.cur (a.toNat / 64)).parkOn (.fetch (a.toNat / 64))

/-- A slot that issues from the line that has arrived goes on in it. -/
def Slot.turnLine (sl : Slot) (ix : Nat) : Slot :=
  if sl.ahead.any (fun l => l.ix == ix) then { sl with line := sl.ahead, ahead := none } else sl

/-- The current slot issues the word at its pc; the first word of a line requests the next line. -/
def State.prefetch (s : State) (pc : Word) : State :=
  if s.me.mode == .m && residentPc pc then s
  else
    let s := s.updMe (fun sl => sl.turnLine (pc.toNat / 64))
    let next := pc.toNat / 64 + 1
    if pc.toNat % 64 == 0 && (s.me.lineOf next).isNone then s.requestLine s.cur next else s

/-- A slot that starts or has jumped requests the line of its pc, when it does not have it. -/
def State.wantLine (s : State) (key : Nat) : State :=
  let sl := s.slot key
  if (sl.mode == .m && residentPc sl.pc) || (sl.lineOf (sl.pc.toNat / 64)).isSome then s
  else s.requestLine key (sl.pc.toNat / 64)

/-- The issuing slots of a virtual core that starts request their lines. -/
def State.wantLines (s : State) (vk : Nat) : State :=
  (s.slots.filter (fun (p : Nat × Slot) => p.1 / 16 == vk && p.2.st == .issuing)).foldl (fun t p => t.wantLine p.1) s

/-- A requested line arrives: one that the pc has left behind is not kept. -/
def Slot.deliver (sl : Slot) (l : Line) : Slot :=
  let ix := sl.pc.toNat / 64
  if (l.ix == ix || (l.ix == ix + 1 && !sl.ahead.any (fun a => a.ix == ix))) && !sl.line.any (fun c => c.ix == l.ix) then
    { sl with ahead := some l }
  else sl

def State.cached (s : State) (d : Nat) (r : LineReq) : Option CacheLine :=
  (s.die d).icache.find? (fun c => c.trellis == r.trellis && c.fn == r.fn && c.gid == r.gid && c.line == r.line)

/-- The first request of a trellis whose line may be served in this cycle. -/
def State.serveable (s : State) (d t : Nat) : Option (LineReq × CacheLine) :=
  let x := s.die d
  if FMap.getD x.served t 0 == x.cyc + 1 then none
  else match x.reqs.find? (fun r => r.trellis == t) with
    | some r => (s.cached d r).map (fun c => (r, c))
    | none => none

/-- TRELLIS_LINE_SERVE of trellis ev.ix of die ev.key: the oldest request, when its line is in the cache. -/
def execTrellisLineServe (s : State) : Out :=
  let d := s.ev.key
  .next (match s.serveable d s.ev.ix with
    | none => s
    | some (r, c) =>
      let s := s.updDie d (fun x => { x with
        reqs := x.reqs.erase r, served := FMap.set x.served r.trellis (x.cyc + 1) })
      s.mapSlots (fun k sl =>
        if r.waiters.contains k then
          (sl.deliver { ix := r.line, words := c.words }).wake (fun a => a == Await.fetch r.line) (s.cycOf (k / 16))
        else sl))

/-- A line put into a trellis cache of 128 KiB, that is 2,048 lines; the oldest one leaves a full cache. -/
def addLine (l : List CacheLine) (c : CacheLine) : List CacheLine :=
  let mine := l.filter (fun x => x.trellis == c.trellis)
  if mine.length < 2048 then c :: l
  else match mine.getLast? with
    | some old => c :: l.erase old
    | none => c :: l

/-- Whether request ix of a die waits for a fill. -/
def State.fillable (s : State) (d ix : Nat) : Option LineReq :=
  match (s.die d).reqs[ix]? with
  | some r => if (s.cached d r).isNone then some r else none
  | none => none

/-- ICACHE_FILL for request ev.ix of die ev.key: the line is read from HBM and patched, or the slots that are parked on it
get a fetch fault. -/
def execIcacheFill (s : State) : Out :=
  let d := s.ev.key
  .next (match s.fillable d s.ev.ix with
    | none => s
    | some r =>
      let va := 64 * r.line
      let fail := fun (s : State) (cause : Nat) =>
        (s.updDie d (fun x => { x with reqs := x.reqs.erase r })).mapSlots (fun k sl =>
          if r.waiters.contains k && sl.park == some (.fetch r.line) then
            ({ sl with fetchFault := some (r.line, cause) }).wake (fun a => a == Await.fetch r.line) (s.cycOf (k / 16))
          else sl)
      match s.leafOf d r.fn va .fetch (.itlb r.trellis) with
      | none => fail s 12
      | some (t, e, lg) =>
        if pteSpace e != 0 then fail t 1
        else
          let bs := Memory.bytes t.mem (hbmAddr (leafPa e lg va)) 64
          t.updDie d (fun x => { x with icache := addLine x.icache {
            trellis := r.trellis, fn := r.fn, gid := r.gid, line := r.line, words := patchedLine (t.gang r.gid) r.line bs } }))

end Sys2Proof.Machine
end

