-- ==== Sys2Proof/Machine/Records.lean ====
section
/-! DEFINITION. The slot record (R349, Table 14.2): the words a slot is saved as, and the slot read back from them. -/

namespace Sys2Proof.Machine

/-- Physical LM offset of the slot record of a barrel position (Table 14.1). -/
def slotRecordOff (pos : Nat) : Nat := 0xF4000 + 640 * pos

/-- The handle bytes of word 74. -/
def handleWord (h : Vector (BitVec 8) 8) : Nat :=
  (List.range 8).foldl (fun a i => a + (h.getD i 0).toNat * 256 ^ i) 0

def numOr (l : List Nat) (d : Nat) : Nat := l.foldl min d

/-- The lowest pending token expiry (R349). -/
def lowest : List Nat → Option Nat
  | [] => none
  | a :: t => some (numOr t a)

/-- Word 75 of a slot record; st as it is to be recorded. -/
def recordControl (sl : Slot) (st : Nat) : Nat :=
  pack [(0, sl.fflags.toNat + sl.frm.toNat * 32), (8, bn sl.mstMIE), (9, bn sl.mstMPIE),
    (10, if sl.mstMPP == .m then 3 else 0), (12, sl.mcounteren.toNat), (16, sl.mie.toNat), (20, st),
    (22, if sl.mode == .m then 1 else 0), (24, sl.bundle), (28, bn (!sl.p27.isEmpty)), (29, bn sl.p30.isSome),
    (30, bn (sl.mip.getLsbD 1)), (32, (lowest sl.p27).getD 0)]

/-- Word 76. -/
def recordFaults (sl : Slot) : Nat :=
  pack [(0, (sl.p30.getD 0).toNat % 0x100000), (20, bn (sl.mip.getLsbD 3)), (21, sl.supRing)]

/-- pc at which the slot resumes: past the word for the slot that holds its bundle (R74, R349). -/
def Slot.resumePc (sl : Slot) : Word := if sl.offender then sl.pc + 4 else sl.pc

/-- The slot record, 80 words; base is B of R330, st the recorded state. -/
def slotRecord (sl : Slot) (base st : Nat) : List Word :=
  [sl.resumePc] ++ (List.range 31).map (fun i => sl.x.getD (i + 1) 0) ++ sl.f.toList ++
  [sl.mepc, sl.mcause, sl.mtval, sl.mscratch, sl.mtvec, sl.mcycle, sl.minstret,
   sl.segbase - BitVec.ofNat 64 base, sl.seglim, sl.qowner.setWidth 64, BitVec.ofNat 64 (handleWord sl.h),
   BitVec.ofNat 64 (recordControl sl st), BitVec.ofNat 64 (recordFaults sl), 0, 0, 0]

/-- The recorded state of a slot that a save takes: 0 EMPTY, 1 runs, 2 TRAPPED by a reserved code. A HALTED slot is
recorded EMPTY: it becomes EMPTY at the next boundary (R105). -/
def recordedState (sl : Slot) : Nat :=
  match sl.st with
  | .empty => 0
  | .halted => 0
  | .trapped => if sl.trap == some .reservedCode then 2 else 1
  | _ => 1

/-- The slot of a record; base is the new B. -/
def slotOfRecord (w : List Word) (base : Nat) : Slot :=
  let g := fun (i : Nat) => w.getD i 0
  let c := g 75
  let q := g 76
  { st := match bits c 21 20 with
      | 0 => .empty
      | 2 => .trapped
      | _ => .trapped,
    trap := if bits c 21 20 == 2 then some .reservedCode else none,
    mode := if bit c 22 then .m else .u,
    pc := g 0,
    x := Vector.ofFn (fun i => if i.val == 0 then 0 else g i.val),
    f := Vector.ofFn (fun i => g (32 + i.val)),
    mepc := g 64, mcause := g 65, mtval := g 66, mscratch := g 67, mtvec := g 68, mcycle := g 69, minstret := g 70,
    segbase := g 71 + BitVec.ofNat 64 base, seglim := g 72, qowner := (g 73).setWidth 17,
    h := Vector.ofFn (fun i => (g 74).extractLsb' (8 * i.val) 8),
    fflags := c.setWidth 5, frm := c.extractLsb' 5 3,
    mstMIE := bit c 8, mstMPIE := bit c 9, mstMPP := if bits c 11 10 == 3 then .m else .u,
    mcounteren := c.extractLsb' 12 3, mie := c.extractLsb' 16 4, bundle := bits c 27 24,
    p27 := if bit c 28 then [bits c 47 32] else [],
    p30 := if bit c 29 then some (BitVec.ofNat 64 (bits q 19 0)) else none,
    mip := (if bit c 30 then 2 else 0) ||| (if bit q 20 then 8 else 0),
    supRing := bits q 26 21 }

/-- The record of a slot written into the context save area of its core (R354). -/
def State.writeSlotRecord (s : State) (key : Nat) : State :=
  let vk := key / 16
  let v := s.vc vk
  let sl := s.slot key
  let a := lmAddr (s.coreOf vk) (slotRecordOff (barrelPos v (key % 16)))
  s.putWords a (slotRecord sl v.base (recordedState sl))

/-- What has become pending at a slot since its record was written: its fault bits and mip.SUP (words 75 and 76). -/
def State.refreshRecord (s : State) (key : Nat) : State :=
  let sl := s.slot key
  let a := lmAddr (s.coreOf (key / 16)) (slotRecordOff (barrelPos (s.vc (key / 16)) (key % 16)))
  let keep : Word := 0xFFFF00008FFFFFFF
  let w := (Memory.word s.mem (a + 600) &&& keep) ||| (BitVec.ofNat 64 (recordControl sl 0) &&& ~~~ keep)
  s.putWords (a + 600) [w, BitVec.ofNat 64 (recordFaults sl)]

/-- A slot records its lowest pending token expiry only; the others go to the supervisor mailbox (R349). -/
def Slot.moreExpiries (sl : Slot) : List Nat :=
  match lowest sl.p27 with
  | some t => sl.p27.erase t
  | none => []

end Sys2Proof.Machine
end

