-- ==== Sys2Proof/Machine/Holds.lean ====
section
/-! DEFINITION. Holding a virtual core: the migrate trap and MIGR (R328), pre-emption (R354), Vintner operations (R232)
and QUIESCE (R362). -/

namespace Sys2Proof.Machine

def HoldReq.moves (h : HoldReq) : Bool := h.kind == .migrate
/-- Holds under R354: pre-emption and QUIESCE. -/
def HoldReq.saves (h : HoldReq) : Bool := h.kind == .preempt || h.kind == .quiesce

/-- The slot enters TRAPPED; what it waits for stays with it. -/
def Slot.seize (sl : Slot) (k : TrapKind) : Slot :=
  { sl with st := .trapped, trap := some k, park := none, wakeAt := none }

/-- A slot that leaves TRAPPED goes on where it was: a load that has not been answered is waited for again. -/
def Slot.goOn (sl : Slot) : Slot :=
  { sl with st := (match sl.hold with
      | some (.load _ _ _ _) => .dropped
      | _ => .issuing), trap := none, wakeAt := none }

/-- A held instruction that waits for a message (R328). -/
def Slot.awaits (sl : Slot) : Bool :=
  match sl.hold with
  | some (.load _ _ _ _) => true
  | some (.atomic _ _ _) => true
  | some (.close _ _) => true
  | some (.fences _) => true
  | some (.waiting msg) => msg
  | _ => false

/-- What a hold does at once to a slot that is not at its turn. A dropped slot of a reserved-code bundle stays of it. An RLDF that a move
in the queue has taken waiting is rewound by a QUIESCE (R354, R363). -/
def Slot.heldNow (sl : Slot) (h : HoldReq) : Option Slot :=
  let k := sl.trap.getD h.kind
  match sl.st with
  | .parked => some (sl.seize h.kind)
  | .dropped =>
    (match sl.hold with
     | some (.load id _ isF p) =>
       if h.moves then some (sl.seize k)
       else if h.saves && isF then
         some { (sl.seize k) with hold := none, rewound := some (id, p) }
       else none
     | _ => some (sl.seize k))
  | .trapped =>
    (match sl.hold with
     | some (.load id _ true p) =>
       if h.kind == .quiesce && sl.wakeAt.isNone then some { sl with hold := none, rewound := some (id, p) } else none
     | _ => none)
  | .issuing =>
    if h.moves && sl.awaits then some (sl.seize h.kind)
    else if h.saves && sl.hold == some (.waiting true) then some { (sl.seize h.kind) with hold := none }
    else none
  | _ => none

/-- A slot enters TRAPPED for a hold; pre-emption writes its slot record. -/
def State.seize (s : State) (key : Nat) (sl : Slot) (h : HoldReq) : State :=
  let s := s.setSlot key sl
  if h.kind == .preempt then s.writeSlotRecord key else s

/-- Keys of the slots of a virtual core. -/
def State.slotsOf (s : State) (vk : Nat) : List Nat := (s.slots.filter (fun p => p.1 / 16 == vk)).map Prod.fst

/-- The far-wait entry of a rewound RLDF at a signal unit is dropped (R197), and so is an RLDF that its source keeps. -/
def State.dropSigWait (s : State) (vk slot : Nat) : State :=
  let s := s.updVc vk (fun v => { v with kept := v.kept.filter (fun k => match k.msg.body with
    | .load _ i _ true => i != slot
    | _ => true) })
  { s with dies := s.dies.map (fun p =>
      (p.1, { p.2 with sigWait := p.2.sigWait.filter (fun w => !(w.src == .vc vk && w.slot == slot)) })) }

/-- Every slot is TRAPPED, EMPTY or HALTED (R232, R328); one that leaves TRAPPED at the next boundary is not held. -/
def State.allHeld (s : State) (vk : Nat) : Bool :=
  (s.slotsOf vk).all (fun k =>
    let sl := s.slot k
    (sl.st == .trapped && sl.wakeAt.isNone) || sl.st == .empty || sl.st == .halted)

/-- Held slots other than except one: the lead slot of a pre-emption goes on. -/
def State.siblingsHeld (s : State) (vk lead : Nat) : Bool :=
  (s.slotsOf vk).all (fun k =>
    let sl := s.slot k
    k % 16 == lead || (sl.st == .trapped && sl.wakeAt.isNone) || sl.st == .empty || sl.st == .halted)

/-- A Vintner operation counts a virtual core as held: it is neither moved nor saved until it is released (R312, R335). -/
def State.rackHeld (s : State) (vk : Nat) : Bool := s.vops.any (fun o => o.holds.contains (vk, Member.held))

/-- The die of a slot is at a rotation boundary. -/
def State.atBoundary (s : State) (key : Nat) : Bool := s.cycOf (key / 16) % 16 == 0

/-- The core of a slot runs: its die is up and not stopped by FREEZE. -/
def State.clocked (s : State) (key : Nat) : Bool :=
  let d := s.die (s.dieOf (key / 16))
  d.up && !d.frozen && !(s.core (s.coreOf (key / 16))).frozen

end Sys2Proof.Machine
end

