-- ==== Sys2Proof/Machine/Engines.lean ====
section
/-! DEFINITION. What the four engines share: acceptance (R149, R151), claims, the queues, completion records, REPF
progress. -/

namespace Sys2Proof.Machine

/-- The answer of an engine's acceptance. -/
inductive Accept where
  | fault (cause : Nat) (tval : Word)
  | full
  | wait (ring : Nat) (room : Bool)
  | ok (s : State)

def VCore.queueOf (v : VCore) (e : Nat) : List QEntry := FMap.getD v.queue e []
def VCore.runOf (v : VCore) (e : Nat) : Option Running := FMap.get? v.run e

/-- The accepted, uncompleted instructions of an engine. -/
def VCore.accepted (v : VCore) (e : Nat) : List QEntry :=
  (match v.runOf e with
   | some r => [r.entry]
   | none => []) ++ v.queueOf e

/-- The 8-entry queue is full, or the engines are frozen (R149, R240). -/
def VCore.engineFull (v : VCore) (e : Nat) : Bool := v.frozen || decide (8 ≤ (v.accepted e).length)

/-- Slots of a ring still to be read by the accepted instructions of an engine. -/
def VCore.toRead (v : VCore) (e ix : Nat) : Nat :=
  sumNat ((v.accepted e).map (fun q => (if q.ra == some ix then q.na else 0) + (if q.rb == some ix then q.nb else 0)))

/-- Slots of a ring still to be written by them. -/
def VCore.toWrite (v : VCore) (e ix : Nat) : Nat :=
  sumNat ((v.accepted e).map (fun q => if q.rd == some ix then q.nd else 0))

/-- Available slots of a consumer ring (R151). -/
def State.availFill (s : State) (vk e ix : Nat) : Nat := (s.ring vk ix).fill - (s.vc vk).toRead e ix
/-- Available slots of a producer ring. -/
def State.availRoom (s : State) (vk e ix : Nat) : Nat := (s.ring vk ix).room - (s.vc vk).toWrite e ix

/-- The entry of an instruction of the current slot. -/
def State.newEntry (s : State) (i : Instr) : QEntry :=
  { word := insnWord i, slot := s.ix, frm := s.me.frm, base := s.me.segbase.toNat, lim := s.me.seglim.toNat,
    mMode := s.me.mode == .m, pc := s.me.pc }

/-- The entry goes to the end of its engine's queue. -/
def State.enqueue (s : State) (e : Nat) (q : QEntry) : State :=
  let n := s.freshId
  n.2.updMyVc (fun v => { v with queue := FMap.set v.queue e (v.queueOf e ++ [{ q with stamp := n.1 }]) })

/-- Stages 3 and 4 of R149 for an entry whose first claims are na, nb and nd slots. Of several short rings the slot parks on the first:
the first consumer operand, the second, the producer (DESIGN CHOICE, log entry 106). -/
def State.takeIn (s : State) (e : Nat) (q : QEntry) (na nb nd : Nat) (k : State → State) : Accept :=
  if s.myVc.engineFull e then .full
  else
    let short := fun (r : Option Nat) (n : Nat) (have_ : Nat → Nat) => match r with
      | some ix => if have_ ix < n then some ix else none
      | none => none
    let both := if q.ra == q.rb && q.ra.isSome then short q.ra (na + nb) (s.availFill s.vk e) else none
    match both, short q.ra na (s.availFill s.vk e), short q.rb nb (s.availFill s.vk e), short q.rd nd (s.availRoom s.vk e) with
    | some ix, _, _, _ => .wait ix false
    | _, some ix, _, _ => .wait ix false
    | _, _, some ix, _ => .wait ix false
    | _, _, _, some ix => .wait ix true
    | none, none, none, none => .ok (k (s.enqueue e q))

/-- On a folded core an engine serves the virtual core whose context it holds (R51). -/
def State.serves (s : State) (vk e : Nat) : Bool :=
  let g := s.coreOf vk
  decide ((s.hosted g).length ≤ 1) || FMap.get? (s.core g).owner e == some vk

def State.setRun (s : State) (vk e : Nat) (r : Running) : State := s.updVc vk (fun v => { v with run := FMap.set v.run e r })

/-- The head of the queue becomes the operation in progress. -/
def State.popQueue (s : State) (vk e : Nat) : State :=
  s.updVc vk (fun v => { v with queue := FMap.set v.queue e (v.queueOf e).tail })

/-! REPF progress (R125). -/

/-- x[rs1] of a frame: passes still to run, index, phase (Table 04.5). -/
def progressWord (cnt ix ph : Nat) : Word := BitVec.ofNat 64 (cnt + ix * 2 ^ 32 + ph % 8 * 2 ^ 36)

/-- a is earlier in the frame than b. -/
def frameBefore (a b : Nat × Nat × Nat) : Bool := b.1 < a.1 || (a.1 == b.1 && a.2.1 < b.2.1)

/-- The position of the first frame instruction of a slot that has not completed. -/
def VCore.framePos (v : VCore) (slot : Nat) (next : Nat × Nat × Nat) : Nat × Nat × Nat :=
  (((v.accepted 0 ++ v.accepted 1).filter (fun q => q.slot == slot)).filterMap QEntry.pos).foldl
    (fun m p => if frameBefore p m then p else m) next

/-- After a completion: the progress register of a slot in a frame. -/
def State.frameProgress (s : State) (vk slot : Nat) : State :=
  let key := slotKey vk slot
  match (s.slot key).hold with
  | some (.frame _ cnt ix ph _) =>
    let p := (s.vc vk).framePos slot (cnt, ix, ph)
    s.updSlot key (fun sl => sl.writeX (sl.insn.extractLsb' 15 5) (progressWord p.1 p.2.1 p.2.2))
  | _ => s

/-- The operation in progress of an engine ends: the slots that this engine's operands park on its rings wake, and a frame moves on.
A vector operand is so woken by vector instructions alone: R151's matrix instruction read with engine 1 in place of engine 0
(DEDUCED, log entry 77). -/
def State.endRun (s : State) (vk e : Nat) (q : QEntry) : State :=
  ((s.updVc vk (fun v => { v with run := FMap.del v.run e })).wakeVc vk (fun a => match a with
    | .engineRing g ix _ => g == e && (q.ra == some ix || q.rb == some ix || q.rd == some ix)
    | _ => false)).frameProgress vk q.slot

/-- A ring of a virtual core read from its head: bytes of slot head + k. -/
def State.slotBytes (s : State) (vk ix k n : Nat) : List Byte :=
  Memory.bytes s.mem (s.ringAddr vk ix ((s.ring vk ix).head + k)) n

/-- Bytes written to a slot by an engine: whole words, each with its full bit (R161, R175). -/
def State.putSlot (s : State) (a : Nat) (bs : List Byte) : State :=
  (List.range (bs.length / 8)).foldl (fun t i => t.setFull (a + 8 * i)) (s.land a bs)

end Sys2Proof.Machine
end

