-- ==== Sys2Proof/Machine/Matrix.lean ====
section
/-! DEFINITION. The matrix engine (F06): acceptance of its instructions, their effects in the engine, completion. -/

namespace Sys2Proof.Machine

/-! Configurations (Table 06.2). -/

def cfgOfWord (w : Word) : AccCfg :=
  { m := bits w 6 0, n := bits w 14 8, i32 := bit w 16, ev := bit w 17, cwen := bit w 18, kb := bits w 31 24,
    cw := bits w 51 32 }

def wordOfCfg (c : AccCfg) : Word :=
  BitVec.ofNat 64 (pack [(0, c.m), (8, c.n), (16, bn c.i32), (17, bn c.ev), (18, bn c.cwen), (24, c.kb), (32, c.cw % 0x100000)])

def VCore.cfg (v : VCore) (a : BitVec 1) : AccCfg := if a == 0 then v.cfg0 else v.cfg1
def VCore.pcfg (v : VCore) (a : BitVec 1) : AccCfg := if a == 0 then v.pcfg0 else v.pcfg1
def VCore.setCfg (v : VCore) (a : BitVec 1) (c : AccCfg) : VCore := if a == 0 then { v with cfg0 := c } else { v with cfg1 := c }
def VCore.setPcfg (v : VCore) (a : BitVec 1) (c : AccCfg) : VCore := if a == 0 then { v with pcfg0 := c } else { v with pcfg1 := c }
def VCore.acc (v : VCore) (a : BitVec 1) : FMap (BitVec 32) := if a == 0 then v.acc0 else v.acc1
def VCore.setAcc (v : VCore) (a : BitVec 1) (m : FMap (BitVec 32)) : VCore :=
  if a == 0 then { v with acc0 := m } else { v with acc1 := m }
def VCore.serial (v : VCore) (a : BitVec 1) : Word := if a == 0 then v.ser0 else v.ser1
def VCore.setSerial (v : VCore) (a : BitVec 1) (w : Word) : VCore := if a == 0 then { v with ser0 := w } else { v with ser1 := w }

/-- Element (i, j) of an accumulator. -/
def accGet (m : FMap (BitVec 32)) (i j : Nat) : Nat := (FMap.getD m (64 * i + j) 0).toNat
def accPut (m : FMap (BitVec 32)) (i j : Nat) (b : Nat) : FMap (BitVec 32) :=
  if b % 2 ^ 32 == 0 then FMap.del m (64 * i + j) else FMap.set m (64 * i + j) (BitVec.ofNat 32 b)
/-- The elements outside m rows and n columns; those within are zero. -/
def accClear (a : FMap (BitVec 32)) (m n : Nat) : FMap (BitVec 32) := a.filter (fun p => !(p.1 / 64 < m && p.1 % 64 < n))
/-- The elements within m rows and n columns. -/
def accKeep (a : FMap (BitVec 32)) (m n : Nat) : FMap (BitVec 32) := a.filter (fun p => p.1 / 64 < m && p.1 % 64 < n)

/-! Weight pointers (Table 01.10). -/

def wpOff (w : BitVec 36) : Nat := (w.extractLsb' 0 20).toNat
def wpInc (w : BitVec 36) : Nat := (w.extractLsb' 20 16).toNat
def wpAdvance (w : BitVec 36) : BitVec 36 := w.extractLsb' 20 16 ++ BitVec.ofNat 20 (wpOff w + wpInc w)
def advanceAt (l : Vector (BitVec 36) 8) (n : Nat) : Vector (BitVec 36) 8 := l.setIfInBounds (n % 8) (wpAdvance (l.getD (n % 8) 0))

/-! Format pairs (Table 06.4). -/

def mmaA : MmaFmt → Fmt
  | .e4e4 => fmtE4
  | .e4e5 => fmtE4
  | .e5e4 => fmtE5
  | .e5e5 => fmtE5
  | .bf => fmtBF
  | .hf => fmtHF
  | .d => fmt64
  | .i8 => fmtE4
def mmaB : MmaFmt → Fmt
  | .e4e4 => fmtE4
  | .e4e5 => fmtE5
  | .e5e4 => fmtE4
  | .e5e5 => fmtE5
  | .bf => fmtBF
  | .hf => fmtHF
  | .d => fmt64
  | .i8 => fmtE4
/-- Element size in bytes; a K-block row has 128 bytes. -/
def mmaBytes : MmaFmt → Nat
  | .bf => 2
  | .hf => 2
  | .d => 8
  | _ => 1
def mmaK (f : MmaFmt) : Nat := 128 / mmaBytes f
def fmtIsI8 : MmaFmt → Bool
  | .i8 => true
  | _ => false
def fmtIsD : MmaFmt → Bool
  | .d => true
  | _ => false
def fmtIsFp8 : MmaFmt → Bool
  | .e4e4 => true
  | .e4e5 => true
  | .e5e4 => true
  | .e5e5 => true
  | _ => false

/-! Block sums (R142, R167). A term is an A and a B element, or none where the bitmap has no bit. -/

def plusZero : Num := .fin false 0 0
def isMinusZero : Num → Bool
  | .fin n m _ => n && m == 0
  | _ => false
def isPlusInf : Num → Bool
  | .inf n => !n
  | _ => false
def isMinusInf : Num → Bool
  | .inf n => n
  | _ => false

def exactSum : List Num → Num
  | [] => plusZero
  | v :: t => (numAdd false v (exactSum t)).1

/-- P of an FP8 pair (R142). -/
def fp8Sum (ta tb : Fmt) (terms : List (Option (Nat × Nat))) : Nat × BitVec 5 :=
  let ps := terms.map (fun t => match t with
    | some (a, b) => numMul (ta.value a) (tb.value b)
    | none => (plusZero, false))
  let nan := terms.any (fun t => match t with
    | some (a, b) => (ta.value a).isNan || (tb.value b).isNan
    | none => false)
  let vs := ps.map Prod.fst
  if nan then (fmt32.qnan, 0)
  else if ps.any (fun p => p.2) then (fmt32.qnan, fNV)
  else if vs.any isPlusInf && vs.any isMinusInf then (fmt32.qnan, fNV)
  else if vs.any isPlusInf then (fmt32.infBits false, 0)
  else if vs.any isMinusInf then (fmt32.infBits true, 0)
  else
    let e := exactSum vs
    if e.isZero then (fmt32.sign (vs.all isMinusZero) 0, 0)
    else fmt32.roundNum .rne e

/-- One level of the pairwise tree. -/
def treeLevel (t : Fmt) : List Num → List Num × BitVec 5
  | a :: b :: rest =>
    let r := numAdd false a b
    let q := t.roundNum .rne r.1
    let u := treeLevel t rest
    (t.value q.1 :: u.1, q.2 ||| flagIf r.2 fNV ||| u.2)
  | l => (l, 0)

def treeSum (t : Fmt) : Nat → List Num → Num × BitVec 5
  | 0, l => (l.headD plusZero, 0)
  | n + 1, l =>
    let r := treeLevel t l
    let u := treeSum t n r.1
    (u.1, r.2 ||| u.2)

/-- P of a BF, HF or D pair (R167): the value and the flags of leaves and nodes. -/
def treeBlock (t tab : Fmt) (levels : Nat) (terms : List (Option (Nat × Nat))) : Nat × BitVec 5 :=
  let leaves := terms.map (fun x => match x with
    | some (a, b) => numMul (tab.value a) (tab.value b)
    | none => (plusZero, false))
  let fl := leaves.foldl (fun f p => f ||| flagIf p.2 fNV) 0
  let r := treeSum t levels (leaves.map Prod.fst)
  ((t.roundNum .rne r.1).1, fl ||| r.2)

/-- P of an I8 pair: the exact sum. -/
def i8Sum (terms : List (Option (Nat × Nat))) : Int :=
  terms.foldl (fun acc t => match t with
    | some (a, b) => acc + intVal 8 a * intVal 8 b
    | none => acc) 0

/-- Promotion of P into an element with the scales sA and sB (R143). -/
def promote (acc p sA sB : Nat) : Nat × BitVec 5 :=
  let t := fmt32.mul .rne sA sB
  let u := fmt32.mul .rne p t.1
  let r := fmt32.add .rne acc u.1
  (r.1, t.2 ||| u.2 ||| r.2)

/-- An INT32 element after adding P (R166): clamped, with SAT. -/
def accumI32 (acc : Nat) (p : Int) : Nat × BitVec 5 :=
  let v := intVal 32 acc + p
  if v < -2147483648 then (0x80000000, fSAT) else if 2147483647 < v then (0x7FFFFFFF, fSAT) else (intBits 32 v, 0)

/-! Acceptance. -/

/-- The fields of an MMA word. -/
structure MmaArgs where
  fmt : MmaFmt
  z   : Bool
  s   : Bool
  a   : Bool
  n   : Bool
  acc : BitVec 1
  h   : Handle
  w   : WPtr
  fs  : FReg

/-- Records of one MMA: M × kb on a shape that is not empty (R165). -/
def AccCfg.nrec (c : AccCfg) : Nat := if c.m == 0 || c.n == 0 then 0 else c.m * c.kb

/-- Tile or bitmap offsets from o by step, kb of them, modulo 2^20. -/
def offsets (o step kb : Nat) : List Nat := (List.range kb).map (fun b => (o + step * b) % 0x100000)

/-- The smallest offset at or beyond the share. -/
def beyondShare (share : Nat) (l : List Nat) : Option Nat := lowest (l.filter (fun o => share ≤ o))

def wordFault (i : Instr) : Accept := .fault 2 ((insnWord i).setWidth 64)

/-- MMA and MMA.N (R165). -/
def State.acceptMma (s : State) (i : Instr) (x : MmaArgs) : Accept :=
  let v := s.myVc
  let c := v.pcfg x.acc
  let other := v.pcfg (~~~ x.acc)
  let nrec := c.nrec
  match s.handle? x.h .consumer (feeds 0) with
  | none => .fault 25 (rp0 x.h.toNat 0)
  | some ix =>
    let r := s.ring s.vk ix
    let first := if nrec == 0 then 0 else if x.n then nrec else c.m
    let off := wpOff (v.pwp.getD x.w.toNat 0)
    let bw := (x.w.toNat + 1) % 8
    let boff := wpOff (v.pwp.getD bw 0)
    if c.i32 != fmtIsI8 x.fmt then wordFault i
    else if fmtIsD x.fmt && (other.i32 || other.m != c.m || other.n != c.n) then wordFault i
    else if nrec != 0 && r.size < 136 then .fault 25 (rp0 x.h.toNat 0)
    else if nrec != 0 && r.count < first then .fault 25 (rp1 x.h.toNat 0)
    else if nrec != 0 && off % 8192 != 0 then .fault 4 (BitVec.ofNat 64 off)
    else match (if nrec == 0 then none else beyondShare (s.share s.vk) (offsets off 8192 c.kb)) with
      | some o => .fault 30 (BitVec.ofNat 64 o)
      | none =>
        if x.s && nrec != 0 && boff % 16 != 0 then .fault 4 (BitVec.ofNat 64 boff)
        else match (if x.s && nrec != 0 then beyondShare (s.share s.vk) (offsets boff 16 c.kb) else none) with
          | some o => .fault 30 (BitVec.ofNat 64 o)
          | none =>
            let q := { s.newEntry i with ra := some ix, na := nrec, op := s.f x.fs }
            s.takeIn 0 q first 0 0 (fun t => if x.a then t.updMyVc (fun v =>
              let p := advanceAt v.pwp x.w.toNat
              { v with pwp := if x.s then advanceAt p bw else p }) else t)

/-- MCFG (R154). -/
def State.acceptMcfg (s : State) (i : Instr) (a : BitVec 1) (rs1 : BitVec 5) : Accept :=
  let w := s.x rs1
  let c := cfgOfWord w
  let ea := BitVec.ofNat 64 c.cw
  if (w &&& 0xFFF0000000F88080) != 0 || 64 < c.m || 64 < c.n then wordFault i
  else if c.cwen && c.cw % 8 != 0 then .fault 6 ea
  else match (if c.cwen then lmCheck s.me ea 8 true else .ok 0) with
    | .error (k, t) => .fault k t
    | .ok _ =>
      let c := { c with cw := if s.me.mode == .u then (s.me.segbase.toNat + c.cw) % 0x100000 else c.cw }
      s.takeIn 0 { s.newEntry i with op := wordOfCfg c } 0 0 0 (fun t => t.updMyVc (fun v => v.setPcfg a c))

/-- MLOAD (R158). -/
def State.acceptMload (s : State) (i : Instr) (a : BitVec 1) (h : Handle) : Accept :=
  let c := s.myVc.pcfg a
  match s.handle? h .consumer (feeds 0) with
  | none => .fault 25 (rp0 h.toNat 0)
  | some ix =>
    let r := s.ring s.vk ix
    if 0 < c.m && r.size < 4 * c.n then .fault 25 (rp0 h.toNat 0)
    else if 0 < c.m && r.count < c.m then .fault 25 (rp1 h.toNat 0)
    else s.takeIn 0 { s.newEntry i with ra := some ix, na := c.m } c.m 0 0 id

/-! MOUT's output control (Table 06.3). -/
def outTgt (w : Word) : CvtTgt :=
  match bits w 2 0 with
  | 0 => .e4
  | 1 => .e5
  | 2 => .bf
  | 3 => .hf
  | 4 => .f32
  | 5 => .i8
  | 6 => .i32
  | _ => .d
def tgtIsD : CvtTgt → Bool
  | .d => true
  | _ => false

/-- Bytes MOUT writes per row (R160). -/
def outBytes (w : Word) (n : Nat) : Nat := if bit w 4 then 136 else (n * tgtBytes (outTgt w) + 7) / 8 * 8

/-- MOUT (R160); a ring that is no LM ring comes before the checks of the operands (DESIGN CHOICE, log entry 102). -/
def State.acceptMout (s : State) (i : Instr) (h : Handle) (a : BitVec 1) (rs2 : BitVec 5) : Accept :=
  let w := s.x rs2
  let v := s.myVc
  let c := v.pcfg a
  let o := v.pcfg (~~~ a)
  let t := outTgt w
  match s.handle? h .producer (kindIs [0]) with
  | none => .fault 25 (rp0 h.toNat 0)
  | some ix =>
    let r := s.ring s.vk ix
    if 128 ≤ w.toNat then wordFault i
    else if bit w 3 && !Sys2Proof.CvtTgt.isNarrow t then wordFault i
    else if bit w 4 && (!Sys2Proof.CvtTgt.isNarrow t || c.i32) then wordFault i
    else if tgtIsD t && (c.i32 || o.i32 || o.m != c.m || o.n != c.n) then wordFault i
    else if (modeOf s.me.frm).isNone then wordFault i
    else if 0 < c.m && r.size < outBytes w c.n then .fault 25 (rp0 h.toNat 0)
    else if 0 < c.m && r.count < c.m then .fault 25 (rp1 h.toNat 0)
    else s.takeIn 0 { s.newEntry i with rd := some ix, nd := c.m, op := w } 0 0 c.m id

/-- WPSET (R163). -/
def State.acceptWpset (s : State) (i : Instr) (w : WPtr) (rs1 : BitVec 5) : Accept :=
  s.takeIn 0 { s.newEntry i with op := s.x rs1 } 0 0 0
    (fun t => t.updMyVc (fun v => { v with pwp := v.pwp.setIfInBounds w.toNat ((s.x rs1).setWidth 36) }))

/-- A matrix instruction of the virtual core is in progress: in the engine, or begun and back in the queue (R351). -/
def VCore.matrixBegun (v : VCore) : Bool := (v.runOf 0).isSome || (v.queueOf 0).head?.any (fun q => q.kdone != 0)

/-- The projection follows an inversion of the bank-select bit (R150). -/
def State.projectSwap (s : State) : State := s.updMyVc (fun v => { v with pbank := !v.pbank })

/-- WSWAP (R163): never in the queue; the bit inverts at once when no matrix instruction of the virtual core is in
progress. Frozen engines hold it (DESIGN CHOICE, log entry 103). -/
def State.acceptWswap (s : State) : Accept :=
  if s.myVc.frozen then .full
  else .ok (s.projectSwap.updMyVc (fun v => if v.matrixBegun then { v with swaps := v.swaps + 1 } else { v with bank := !v.bank }))

/-- WPGET reads the projection at the issue turn, of frozen engines too (DESIGN CHOICE, log entry 103). -/
def State.acceptWpget (s : State) (rd : BitVec 5) (w : WPtr) : Accept :=
  .ok (s.setX rd ((s.myVc.pwp.getD w.toNat 0).setWidth 64))

/-- The acceptance of a matrix instruction. -/
def State.acceptMatrix (s : State) (i : Instr) : Accept :=
  match i with
  | .mcfg a rs1 => s.acceptMcfg i a rs1
  | .mzero _ => s.takeIn 0 (s.newEntry i) 0 0 0 id
  | .mload _ a h => s.acceptMload i a h
  | .mout _ h a rs2 => s.acceptMout i h a rs2
  | .wpset w rs1 => s.acceptWpset i w rs1
  | .wpget rd w => s.acceptWpget rd w
  | .wswap => s.acceptWswap
  | .wswapq => s.takeIn 0 (s.newEntry i) 0 0 0 State.projectSwap
  | .mma f z sp a acc h w fs => s.acceptMma i ⟨f, z, sp, a, false, acc, h, w, fs⟩
  | .mmaN f z sp a acc h w fs => s.acceptMma i ⟨f, z, sp, a, true, acc, h, w, fs⟩
  | _ => .full


/-! In the engine. -/

/-- The projection from the engine's state through the queued instructions, as a reload needs it (R150). -/
def VCore.projectEntry (v : VCore) (q : QEntry) : VCore :=
  match decode q.word with
  | .ok (.mcfg a _) => v.setPcfg a (cfgOfWord q.op)
  | .ok (.wpset w _) => { v with pwp := v.pwp.setIfInBounds w.toNat (q.op.setWidth 36) }
  | .ok .wswapq => { v with pbank := !v.pbank }
  | .ok (.mma _ _ sp a _ _ w _) =>
    if a && q.kdone == 0 then
      let p := advanceAt v.pwp w.toNat
      { v with pwp := if sp then advanceAt p (w.toNat + 1) else p }
    else v
  | .ok (.mmaN _ _ sp a _ _ w _) =>
    if a && q.kdone == 0 then
      let p := advanceAt v.pwp w.toNat
      { v with pwp := if sp then advanceAt p (w.toNat + 1) else p }
    else v
  | _ => v

/-- The MMA fields of an entry. -/
def mmaArgs (q : QEntry) : Option MmaArgs :=
  match decode q.word with
  | .ok (.mma f z sp a acc h w fs) => some ⟨f, z, sp, a, false, acc, h, w, fs⟩
  | .ok (.mmaN f z sp a acc h w fs) => some ⟨f, z, sp, a, true, acc, h, w, fs⟩
  | _ => none

/-- The slots an entry waits for are there (R166, R158, R161). -/
def State.matrixReady (s : State) (vk : Nat) (q : QEntry) : Bool :=
  let v := s.vc vk
  let fill := fun (r : Option Nat) => ((r.map (fun ix => (s.ring vk ix).fill)).getD 0)
  match decode q.word with
  | .ok (.mload _ a _) => decide ((v.cfg a).m ≤ fill q.ra)
  | .ok (.mout _ _ a _) => decide ((v.cfg a).m ≤ (q.rd.map (fun ix => (s.ring vk ix).room)).getD 0)
  | _ => match mmaArgs q with
    | some x =>
      let c := v.cfg x.acc
      c.nrec == 0 || (if x.n then q.kdone != 0 || decide (c.nrec ≤ fill q.ra) else decide (c.m ≤ fill q.ra))
    | none => true

/-- The terms of row i and column j of one K-block. -/
def State.mmaTerms (s : State) (vk : Nat) (x : MmaArgs) (bank : Bool) (o bo b j : Nat) (row : List Byte) :
    List (Option (Nat × Nat)) :=
  let eb := mmaBytes x.fmt
  (List.range (mmaK x.fmt)).map (fun k =>
    let at_ := 8 * (k / 8) + j / 8
    let present := !x.s ||
      (Memory.read s.mem (s.wsAt vk bank (bo + 16 * b + at_ / 8))).toNat / 2 ^ (at_ % 8) % 2 == 1
    if present then
      some (ofBytes ((row.drop (eb * k)).take eb),
        Memory.readN s.mem (s.wsAt vk bank (o + 8192 * b + 128 * j + eb * k)) eb)
    else none)

/-- Element (i, j) of the accumulators after one K-block: the new accumulators and the flags. -/
def mmaElement (x : MmaArgs) (op : Word) (accs : FMap (BitVec 32) × FMap (BitVec 32)) (i j : Nat) (word16 : Nat)
    (terms : List (Option (Nat × Nat))) : (FMap (BitVec 32) × FMap (BitVec 32)) × BitVec 5 :=
  let mine := if x.acc == 0 then accs.1 else accs.2
  let put := fun (b : Nat) => if x.acc == 0 then (accPut accs.1 i j b, accs.2) else (accs.1, accPut accs.2 i j b)
  if fmtIsI8 x.fmt then
    let r := accumI32 (accGet mine i j) (i8Sum terms)
    (put r.1, r.2)
  else if fmtIsD x.fmt then
    let p := treeBlock fmt64 fmt64 4 terms
    let r := fmt64.add .rne (accGet accs.1 i j + accGet accs.2 i j * 2 ^ 32) p.1
    ((accPut accs.1 i j (r.1 % 2 ^ 32), accPut accs.2 i j (r.1 / 2 ^ 32)), p.2 ||| r.2)
  else
    let p := if fmtIsFp8 x.fmt then fp8Sum (mmaA x.fmt) (mmaB x.fmt) terms else treeBlock fmt32 (mmaA x.fmt) 6 terms
    let sA := if word16 / 2 ^ 32 % 2 == 1 then word16 % 2 ^ 32 else op.toNat / 2 ^ 32
    let r := promote (accGet mine i j) p.1 sA (op.toNat % 2 ^ 32)
    (put r.1, p.2 ||| r.2)

/-- One K-block of the MMA in progress (R166). -/
def State.mmaBlock (s : State) (vk : Nat) (r : Running) (x : MmaArgs) : State :=
  let v := s.vc vk
  let c := v.cfg x.acc
  let q := r.entry
  let ix := q.ra.getD 0
  let b := q.kdone
  let q0 := if x.n then b * c.m else 0
  let res := (List.range c.m).foldl (fun st i =>
    let rec_ := s.slotBytes vk ix (q0 + i) 136
    let word16 := ofBytes (rec_.drop 128)
    (List.range c.n).foldl (fun (st : (FMap (BitVec 32) × FMap (BitVec 32)) × BitVec 5) j =>
      let e := mmaElement x q.op st.1 i j word16 (s.mmaTerms vk x r.bank q.o q.bo b j (rec_.take 128))
      (e.1, st.2 ||| e.2)) st) ((v.acc0, v.acc1), (0 : BitVec 5))
  let q := { q with kdone := b + 1, na := q.na - c.m }
  let s := s.updVc vk (fun v => { v with acc0 := res.1.1, acc1 := res.1.2 })
  let s := if x.n then s else s.advHead vk ix c.m
  s.setRun vk 0 { r with entry := q, flags := r.flags ||| res.2, count := r.count + c.m, finished := q.kdone == c.kb }

/-- The start of an MMA: .Z, the offsets, the bank and the advance of .A; one that resumes keeps what it saved (R351). -/
def State.mmaStart (s : State) (vk : Nat) (q : QEntry) (x : MmaArgs) : State :=
  let v := s.vc vk
  let c := v.cfg x.acc
  let bw := (x.w.toNat + 1) % 8
  if q.kdone != 0 then s.setRun vk 0 { entry := q, flags := q.raised, bank := v.bank, count := q.kdone * c.m }
  else
    let v1 := if x.z then
        (let w := v.setAcc x.acc (accClear (v.acc x.acc) c.m c.n)
         if fmtIsD x.fmt then w.setAcc (~~~ x.acc) (accClear (v.acc (~~~ x.acc)) c.m c.n) else w)
      else v
    let v2 := if x.a then
        (let p := advanceAt v1.wp x.w.toNat
         { v1 with wp := if x.s then advanceAt p bw else p })
      else v1
    let q := { q with o := wpOff (v.wp.getD x.w.toNat 0), bo := wpOff (v.wp.getD bw 0) }
    (s.setVc vk v2).setRun vk 0 { entry := q, bank := v.bank, finished := c.nrec == 0 }

/-- MCFG (R156). -/
def VCore.configure (v : VCore) (a : BitVec 1) (c : AccCfg) : VCore :=
  let old := v.cfg a
  let m := if old.i32 != c.i32 then [] else accKeep (v.acc a) (min old.m c.m) (min old.n c.n)
  (((v.setAcc a m).setCfg a c).setSerial a 0)

/-- Row i of the source of MOUT: exact values, and the raw patterns a same-format target copies. -/
def rowValues (v : VCore) (a : BitVec 1) (t : CvtTgt) (i n : Nat) : List (Num × Nat) :=
  (List.range n).map (fun j =>
    if tgtIsD t then (plusZero, accGet v.acc0 i j + accGet v.acc1 i j * 2 ^ 32)
    else
      let b := accGet (v.acc a) i j
      (if (v.cfg a).i32 then (let z := intVal 32 b; .fin (z < 0) z.natAbs 0) else fmt32.value b, b))

/-- An element of MOUT without Q. -/
def outElement (i32 : Bool) (t : CvtTgt) (mode : RMode) (sat : Bool) (x : Num × Nat) : Nat × BitVec 5 :=
  match t with
  | .d => (x.2, 0)
  | .f32 => if i32 then convertInt t mode sat (intVal 32 x.2) else (x.2, 0)
  | _ => if i32 then convertInt t mode sat (intVal 32 x.2) else convert t mode sat x.1

/-- The bytes MOUT writes for a row, and its flags (R161). -/
def outRow (i32 : Bool) (w : Word) (mode : RMode) (row : List (Num × Nat)) : List Byte × BitVec 5 :=
  let t := outTgt w
  let fold := fun (l : List (Nat × BitVec 5)) => l.foldl (fun f p => f ||| p.2) (0 : BitVec 5)
  if bit w 4 then
    let sc := quantScale t (row.map Prod.fst)
    let ys := row.map (fun x => let d := scaled x.1 sc; convert t mode true d.1 d.2)
    let data := ys.map (fun y => BitVec.ofNat 8 y.1)
    (data ++ List.replicate (128 - data.length) 0 ++ bytesOf (sc + 2 ^ 32) 8, fold ys)
  else
    let ys := row.map (outElement i32 t mode (bit w 3))
    let data := ys.flatMap (fun y => bytesOf y.1 (tgtBytes t))
    (data ++ List.replicate (outBytes w row.length - data.length) 0, fold ys)

/-- MOUT in the engine (R161). -/
def State.moutRun (s : State) (vk : Nat) (q : QEntry) (n : Bool) (a : BitVec 1) : State :=
  let v := s.vc vk
  let c := v.cfg a
  let mode := (modeOf q.frm).getD .rne
  let ix := q.rd.getD 0
  let rows := (List.range c.m).map (fun i => outRow c.i32 q.op mode (rowValues v a (outTgt q.op) i c.n))
  let tail := (s.ring vk ix).tail
  let s := (rows.zipIdx).foldl (fun t p => t.putSlot (t.ringAddr vk ix (tail + p.2)) p.1.1) s
  let s := if n || c.m == 0 then s else s.advTail vk ix c.m
  let s := if bit q.op 5 then
      s.updVc vk (fun v =>
        let w := v.setAcc a (accClear (v.acc a) c.m c.n)
        if tgtIsD (outTgt q.op) then w.setAcc (~~~ a) (accClear (v.acc (~~~ a)) c.m c.n) else w)
    else s
  s.setRun vk 0 { entry := { q with nd := 0 }, flags := rows.foldl (fun f p => f ||| p.2) 0, count := c.m, finished := true }

/-- MLOAD in the engine (R158). -/
def State.mloadRun (s : State) (vk : Nat) (q : QEntry) (n : Bool) (a : BitVec 1) : State :=
  let c := (s.vc vk).cfg a
  let ix := q.ra.getD 0
  let rows := (List.range c.m).map (fun i => s.slotBytes vk ix i (4 * c.n))
  let m := (rows.zipIdx).foldl (fun m p =>
    (List.range c.n).foldl (fun m j => accPut m p.2 j (ofBytes ((p.1.drop (4 * j)).take 4))) m) ((s.vc vk).acc a)
  let s := s.updVc vk (fun v => v.setAcc a m)
  let s := if n || c.m == 0 then s else s.advHead vk ix c.m
  s.setRun vk 0 { entry := { q with na := 0 }, finished := true }

/-- An instruction other than MMA, done in one step. -/
def State.matrixRun (s : State) (vk : Nat) (q : QEntry) : State :=
  let quiet : Running := { entry := q, finished := true }
  match decode q.word with
  | .ok (.mcfg a _) => (s.updVc vk (fun v => v.configure a (cfgOfWord q.op))).setRun vk 0 quiet
  | .ok (.mzero a) =>
    (s.updVc vk (fun v => v.setAcc a (accClear (v.acc a) (v.cfg a).m (v.cfg a).n))).setRun vk 0 quiet
  | .ok (.mload n a _) => s.mloadRun vk q n a
  | .ok (.mout n _ a _) => s.moutRun vk q n a
  | .ok (.wpset w _) =>
    (s.updVc vk (fun v => { v with wp := v.wp.setIfInBounds w.toNat (q.op.setWidth 36) })).setRun vk 0 quiet
  | .ok .wswapq => (s.updVc vk (fun v => { v with bank := !v.bank })).setRun vk 0 quiet
  | _ => s.setRun vk 0 quiet

/-- The engine can start the head of the queue, or the next K-block of the MMA in progress. -/
def State.matrixCanStart (s : State) (vk : Nat) : Bool :=
  let v := s.vc vk
  match v.runOf 0 with
  | some r => !r.finished && s.matrixReady vk r.entry
  | none => !v.frozen && s.serves vk 0 && (match v.queueOf 0 with
    | q :: _ => s.matrixReady vk q
    | [] => false)

/-- MATRIX_ENGINE_START of virtual core ev.key: the next queued instruction starts, or the MMA in progress goes on with
its next K-block. -/
def execMatrixEngineStart (s : State) : Out :=
  let vk := s.ev.key
  .next (if s.matrixCanStart vk then
      (let block := fun (t : State) => match (t.vc vk).runOf 0 with
        | some r => (match mmaArgs r.entry with
          | some x => if r.finished then t else t.mmaBlock vk r x
          | none => t)
        | none => t
       match (s.vc vk).runOf 0, (s.vc vk).queueOf 0 with
       | some _, _ => block s
       | none, q :: _ =>
         let t := s.popQueue vk 0
         (match mmaArgs q with
          | some x => block (t.mmaStart vk q x)
          | none => t.matrixRun vk q)
       | none, [] => s)
    else s)

/-- The matrix event record (Table 06.1), when the instruction asks for one. -/
def matrixRecord (v : VCore) (r : Running) : Option (Word × Word) :=
  let mk := fun (kind tag : Nat) (a : BitVec 1) =>
    some (BitVec.ofNat 64 (pack [(0, kind), (16, tag % 65536), (32, r.count % 2 ^ 32)]),
      BitVec.ofNat 64 (r.flags.toNat + a.toNat * 256))
  match decode r.entry.word with
  | .ok (.mout _ _ a _) => if bit r.entry.op 6 then mk 2 0 a else none
  | _ => match mmaArgs r.entry with
    | some x => if (v.cfg x.acc).ev then mk 1 (v.serial x.acc + 1).toNat x.acc else none
    | none => none

/-- A record can be posted, or none is due (R152). -/
def State.recordRoom (s : State) (vk : Nat) (rec_ : Option (Word × Word)) : Bool :=
  rec_.isNone || s.eventRoom vk 16 != some false

def State.matrixCanEnd (s : State) (vk : Nat) : Bool :=
  match (s.vc vk).runOf 0 with
  | some r => r.finished && s.recordRoom vk (matrixRecord (s.vc vk) r)
  | none => false

/-- MATRIX_ENGINE_COMPLETE of virtual core ev.key (R152, R155). -/
def execMatrixEngineComplete (s : State) : Out :=
  let vk := s.ev.key
  .next (match s.matrixCanEnd vk, (s.vc vk).runOf 0 with
    | true, some r =>
      let rec_ := matrixRecord (s.vc vk) r
      let s := s.raiseM vk r.flags
      let s := match mmaArgs r.entry with
        | some x =>
          let n := (s.vc vk).serial x.acc + 1
          let c := (s.vc vk).cfg x.acc
          let t := s.updVc vk (fun v => v.setSerial x.acc n)
          if c.cwen then t.landWord (lmAddr (t.coreOf vk) c.cw) n true else t
        | none => s
      let s := match rec_ with
        | some (a, b) => s.postEvent vk a b
        | none => s
      let s := s.endRun vk 0 r.entry
      s.updVc vk (fun v => { v with bank := if v.swaps % 2 == 1 then !v.bank else v.bank, swaps := 0 })
    | _, _ => s)

end Sys2Proof.Machine
end

