-- ==== Sys2Proof/Machine/Mesh.lean ====
section
/-! DEFINITION. The logical meshes (R287, R325): rectangles of cores, free cores, the place of a virtual core in the rectangle of
its gang, distances between dies (Table 13.1), the target of a migration (R329). -/

namespace Sys2Proof.Machine

/-! Rectangles. -/

def meshW (d : Nat) : Nat := if isF d then 16 else 12
def meshH (_d : Nat) : Nat := 12

/-- Cores a gang of shape gw × gh with fold code f occupies (R287). -/
def rectW (gw f : Nat) : Nat := if f == 0 then gw else (gw + 1) / 2
def rectH (gh f : Nat) : Nat := if f == 2 then (gh + 1) / 2 else gh

/-- GCIDs of a rectangle in (cy, cx) order. -/
def rectCores (d ox oy pw ph : Nat) : List Nat :=
  (List.range ph).flatMap (fun y => (List.range pw).map (fun x => gcidOf d (ox + x) (oy + y)))

def inMesh (d ox oy pw ph : Nat) : Bool := ox + pw ≤ meshW d && oy + ph ≤ meshH d

def FixedRect.has (r : FixedRect) (cx cy : Nat) : Bool := r.ox ≤ cx && cx < r.ox + r.pw && r.oy ≤ cy && cy < r.oy + r.ph

/-- A core lies in a rectangle fixed for another request than that of queue k. -/
def State.fixedAway (s : State) (g : Nat) (k : Option Nat) : Bool :=
  (s.die (g / 256)).fixed.any (fun r => r.has (g % 16) (g / 16 % 16) && some r.queue != k)

/-- A core that may be given to a request: free, with its handler written (R387), on a die that is up. -/
def State.coreFree (s : State) (g : Nat) : Bool := (s.die (g / 256)).up && (s.core g).handler && s.coreSt g == 1

/-- All origins of a die in (oy, ox) order. -/
def origins (d : Nat) : List (Nat × Nat) :=
  (List.range (meshH d)).flatMap (fun y => (List.range (meshW d)).map (fun x => (x, y)))

/-- The first origin of a list whose rectangle is accepted core by core. -/
def firstRect (d pw ph : Nat) (ok : Nat → Bool) (l : List (Nat × Nat)) : Option (Nat × Nat) :=
  l.find? (fun o => inMesh d o.1 o.2 pw ph && (rectCores d o.1 o.2 pw ph).all ok)

/-- Core of virtual core n of a gang of this shape (R287), and its fidx. -/
def corePlace (d ox oy gw f n : Nat) : Nat × Nat :=
  let vx := n % gw
  let vy := n / gw
  let a := if f == 0 then 1 else 2
  let b := if f == 2 then 2 else 1
  (gcidOf d (ox + vx / a) (oy + vy / b), if f == 0 then 0 else if f == 1 then vx % 2 else vy % 2 * 2 + vx % 2)

/-- Place of a virtual core in the rectangle of its gang. -/
def State.ownPlace (s : State) (vk : Nat) : Nat :=
  let g := s.gang (s.vc vk).gid
  (corePlace g.die g.ox g.oy g.gw g.fold (s.vc vk).vcid).1

/-! The target of a migration. -/

/-- Links between two dies on the shortest path of Table 13.1. -/
def dieDistance (d e : Nat) : Nat :=
  let r := (d % 4 + 4 - e % 4) % 4
  min r (4 - r) + (if isF d == isF e then 0 else 1)

/-- The F-dies that are up, nearest to a die first, lower numbers first on a tie. -/
def State.nearDies (s : State) (from_ : Nat) : List Nat :=
  (List.range 4).flatMap (fun n => (List.range 4).filter (fun d => dieDistance d from_ == n && (s.die d).up))

/-- The free cores of a die in (cy, cx) order that no arbiter has fixed. -/
def State.freeList (s : State) (d : Nat) : List Nat :=
  (rectCores d 0 0 (meshW d) (meshH d)).filter (fun g => s.coreFree g && !s.fixedAway g none)

/-- Virtual cores whose move has a target and no entries yet. -/
def State.begun (s : State) : List Nat :=
  (s.vcs.filter (fun (p : Nat × VCore) => p.2.move.any (fun m => m.step == 1 || m.step == 2))).map Prod.fst

/-- Those of them that will take a new migration entry. -/
def State.migsSoon (s : State) : List Nat := s.begun.filter (fun k => (FMap.get? s.migs k).isNone)

/-- A migration entry and a redirect entry of the source die are there for a virtual core, beside those that the moves already begun will
take. -/
def State.entriesFor (s : State) (vk : Nat) : Bool :=
  let others := s.begun.filter (· != vk)
  let d := s.dieOf vk
  ((FMap.get? s.migs vk).isSome || decide (s.migs.length + (s.migsSoon.filter (· != vk)).length < 256)) &&
    decide ((s.die d).redirs.length + (others.filter (fun k => s.dieOf k == d)).length < 64)

/-- A virtual core moves out of or into a core, or redirects of one that left it are not freed (Table 13.5). -/
def State.moving (s : State) (g : Nat) : Bool :=
  s.dies.any (fun (d : Nat × Die) => d.2.redirs.any (fun (p : Nat × Redirect) => p.2.old == g)) ||
    s.vcs.any (fun (p : Nat × VCore) => p.2.move.any (fun m => 1 ≤ m.step && ((m.step < 3 && m.src == g) || m.dst == g)))

/-- The target of a move; want: the one die it may go to. -/
def State.moveTarget (s : State) (vk : Nat) (want : Option Nat) : Option Nat :=
  if !s.entriesFor vk then none
  else ((s.nearDies (s.dieOf vk)).filter (fun d => want.isNone || want == some d)).findSome? (fun d => (s.freeList d).head?)

/-- qowner.prio of the slot that caused a move. -/
def State.movePrio (s : State) (vk : Nat) : Nat :=
  match (s.vc vk).holds.find? (fun h => h.kind == .migrate) with
  | some h => (s.slot (slotKey vk h.slot)).qowner.toNat / 256 % 128
  | none => 0

/-- A virtual core put into the migration queue: by descending priority, then by arrival. -/
def State.enqueueMove (s : State) (vk : Nat) : State :=
  let p := s.movePrio vk
  let before := s.migQ.filter (fun k => p ≤ s.movePrio k)
  { s with migQ := before ++ vk :: s.migQ.filter (fun k => !(p ≤ s.movePrio k)) }

/-- A move gets its target: the position is reserved, and both cores show the move (Table 13.5). -/
def State.startMove (s : State) (vk dst : Nat) : State :=
  let s := s.updVc vk (fun v => { v with move := v.move.map (fun m => { m with step := 1, dst := dst }) })
  let s := { s with migQ := s.migQ.filter (· != vk) }
  (s.updCore (s.coreOf vk) (fun c => { c with mig := true })).updCore dst (fun c => { c with mig := true, reserved := true })

/-! The dispatch of the migration queue (R329). -/

/-- A free core of die d and the first queued virtual core it can serve. -/
def State.dispatchPair (s : State) (d : Nat) : Option (Nat × Nat) :=
  (s.freeList d).findSome? (fun g =>
    (s.migQ.find? (fun vk => s.entriesFor vk && !(s.vc vk).holds.any (fun h => h.kind == .quiesce) && (s.vc vk).move.any (fun m => m.step == 0 && (m.wantDie.isNone || m.wantDie == some d)))).map
      (fun vk => (g, vk)))

def State.dispatchDue (s : State) (d : Nat) : Bool :=
  let x := s.die d
  isF d && x.up && !x.frozen && x.cyc % 16 == 0 && (s.dispatchPair d).isSome

end Sys2Proof.Machine
end

