-- ==== Sys2Proof/Machine/Approx.lean ====
section
/-! DEFINITION. The correctly rounded functions of Table 07.4. The irrational values are enclosed between two fixed-point
numbers of 512 fraction bits whose distance is far below the gap of any FP32 or BF16 result to a rounding boundary. -/

namespace Sys2Proof.Machine

/-- Fraction bits, and the bound on the error of an enclosure in units of the last place. -/
def fxBits : Nat := 512
def fxErr : Int := 2 ^ 24
def fxOne : Int := 2 ^ fxBits

def fxMul (a b : Int) : Int := a * b / fxOne
def fxDiv (a b : Int) : Int := a * fxOne / b

/-- The sum over k of z^(2k+1) / (2k+1), n terms from term k on; p is z^(2k+1). -/
def atanhFrom (z2 : Int) : Nat → Nat → Int → Int
  | 0, _, _ => 0
  | n + 1, k, p => p / (2 * k + 1 : Nat) + atanhFrom z2 n (k + 1) (fxMul p z2)

/-- Twice atanh z for |z| ≤ 1/3. -/
def fxTwoAtanh (z : Int) : Int := 2 * atanhFrom (fxMul z z) 200 0 z

/-- ln 2. -/
def fxLn2 : Int := fxTwoAtanh (fxOne / 3)

/-- The sum over k of y^k / k!, n terms from term k on; p is y^k / k!. -/
def expFrom (y : Int) : Nat → Nat → Int → Int
  | 0, _, _ => 0
  | n + 1, k, p => p + expFrom y n (k + 1) (fxMul p y / (k + 1 : Nat))

/-- 2^f for 0 ≤ f < 1. -/
def fxExp2 (f : Int) : Int := expFrom (fxMul f fxLn2) 120 0 fxOne

/-- The fixed-point number (-1)^neg m 2^e, exact for e at least -512. -/
def fxOf (neg : Bool) (m : Nat) (e : Int) : Int :=
  let v : Int := if 0 ≤ e + fxBits then (m * 2 ^ (e + fxBits).toNat : Nat) else (m / 2 ^ (-(e + fxBits)).toNat : Nat)
  if neg then -v else v

/-- The irrational value near v 2^-512 2^sh, rounded: both ends of its enclosure round alike. -/
def fxRound (t : Fmt) (v : Int) (sh : Int) : Nat × BitVec 5 :=
  let lo := v - fxErr
  let mag := if lo < 0 then -(v + fxErr) else lo
  t.round .rne false (lo < 0) (2 * mag.natAbs + 1) 2 (sh - fxBits)

/-- 2^(n + f) for an integer n and a fraction f that is not 0. -/
def roundExp2 (t : Fmt) (n : Int) (f : Int) : Nat × BitVec 5 :=
  if 400 < n then t.round .rne false false 1 1 400
  else if n < -400 then t.round .rne false false 3 2 (-400)
  else fxRound t (fxExp2 f) n

/-- 2^q of a finite q = (-1)^neg m 2^e. -/
def exp2Of (t : Fmt) (neg : Bool) (m : Nat) (e : Int) : Nat × BitVec 5 :=
  if 20 < log2Q m 1 + e then
    (if neg then t.round .rne false false 3 2 (-400) else t.round .rne false false 1 1 400)
  else
    let x := fxOf neg m e
    let n := x / fxOne
    let f := x - n * fxOne
    if m == 0 || f == 0 then t.round .rne false false 1 1 (max (-400) (min n 400)) else roundExp2 t n f

/-- VEXP2.X, and VEXP2.BF: CR(2^x). -/
def approxExp2 (t : Fmt) (b : Nat) : Nat × BitVec 5 :=
  match t.value b with
  | .nan s => (t.qnan, flagIf s fNV)
  | .inf neg => (if neg then 0 else t.infBits false, 0)
  | .fin neg m e => exp2Of t neg m e

/-- VEXP2.F32: the exponent is rounded to a multiple of 2^-22 first. -/
def approxExp2Lean (b : Nat) : Nat × BitVec 5 :=
  match fmt32.value b with
  | .fin neg m e =>
    let q := roundQ .rne neg m 1 (e + 22)
    exp2Of fmt32 (q.1 < 0) q.1.natAbs (-22)
  | _ => approxExp2 fmt32 b

/-- log2 of the positive value m 2^e. -/
def log2Of (t : Fmt) (m : Nat) (e : Int) : Nat × BitVec 5 :=
  let k := Nat.log2 m
  let n : Int := e + k
  if m == 2 ^ k then t.round .rne false (n < 0) n.natAbs 1 0
  else
    -- m 2^-k lies in (1, 2); its logarithm is 2 atanh ((m - 2^k) / (m + 2^k))
    let z := fxDiv (m - 2 ^ k : Nat) (m + 2 ^ k : Nat)
    fxRound t (n * fxOne + fxDiv (fxTwoAtanh z) fxLn2) 0

/-- Special inputs of the logarithm; k receives a positive finite value. -/
def log2With (t : Fmt) (b : Nat) (k : Nat → Int → Nat × BitVec 5) : Nat × BitVec 5 :=
  match t.value b with
  | .nan s => (t.qnan, flagIf s fNV)
  | .inf neg => if neg then (t.qnan, fNV) else (t.infBits false, 0)
  | .fin neg m e => if m == 0 then (t.infBits true, 0) else if neg then (t.qnan, fNV) else k m e

def approxLog2 (t : Fmt) (b : Nat) : Nat × BitVec 5 := log2With t b (log2Of t)

/-- VLOG2.F32: the significand is rounded to 20 significant bits first; that rounding alone raises no NX (log entry 76). -/
def approxLog2Lean (b : Nat) : Nat × BitVec 5 :=
  log2With fmt32 b (fun m e =>
    let g : Int := (Nat.log2 m : Int) - 19
    let q := roundQ .rne false m 1 (-g)
    log2Of fmt32 q.1.natAbs (e + g))

/-- e^-y for y ≥ 0 as a fixed-point number, y below 400. -/
def fxExpNeg (y : Int) : Int :=
  let q := fxDiv y fxLn2
  let n := q / fxOne
  let f := q - n * fxOne
  -- 2^(-n - f) = 2^(1 - f) 2^(-n - 1)
  fxExp2 (fxOne - f) / 2 ^ (n.toNat + 1)

/-- VTANH: CR(tanh x). -/
def approxTanh (t : Fmt) (b : Nat) : Nat × BitVec 5 :=
  match t.value b with
  | .nan s => (t.qnan, flagIf s fNV)
  | .inf neg => (t.round .rne false neg 1 1 0)
  | .fin neg m e =>
    if m == 0 then (t.sign neg 0, 0)
    else
      let ev := log2Q m 1 + e
      -- tiny x: just below |x|; large x: just below 1
      if ev < -40 then t.round .rne false neg (m * 2 ^ 64 - 1) 1 (e - 64)
      else if 5 < ev then t.round .rne false neg (2 ^ 64 - 1) 1 (-64)
      else
        let E := fxExpNeg (2 * fxOf false m e)
        let r := fxRound t (fxDiv (fxOne - E) (fxOne + E)) 0
        (t.sign neg r.1, r.2)

/-- VSIG: CR(1 / (1 + e^-x)). -/
def approxSig (t : Fmt) (b : Nat) : Nat × BitVec 5 :=
  match t.value b with
  | .nan s => (t.qnan, flagIf s fNV)
  | .inf neg => if neg then (0, 0) else t.round .rne false false 1 1 0
  | .fin neg m e =>
    if m == 0 then t.round .rne false false 1 1 (-1)
    else if 7 < log2Q m 1 + e then
      (if neg then t.round .rne false false 3 2 (-400) else t.round .rne false false (2 ^ 64 - 1) 1 (-64))
    else
      let E := fxExpNeg (fxOf false m e)
      fxRound t (if neg then fxDiv E (fxOne + E) else fxDiv fxOne (fxOne + E)) 0

/-- VRCP: CR(1/x). -/
def approxRcp (t : Fmt) (b : Nat) : Nat × BitVec 5 :=
  match t.value b with
  | .nan s => (t.qnan, flagIf s fNV)
  | .inf neg => (t.sign neg 0, 0)
  | .fin neg m e => if m == 0 then (t.infBits neg, 0) else t.round .rne false neg 1 m (-e)

/-- VRSQ: CR(1/√x). -/
def approxRsq (t : Fmt) (b : Nat) : Nat × BitVec 5 :=
  match t.value b with
  | .nan s => (t.qnan, flagIf s fNV)
  | .inf neg => if neg then (t.qnan, fNV) else (0, 0)
  | .fin neg m e =>
    if m == 0 then (t.infBits neg, 0)
    else if neg then (t.qnan, fNV)
    else
      -- an even exponent, then 2^200 / √m, odd in its last place when it is not exact
      let m2 := if e % 2 == 0 then m else 2 * m
      let h : Int := if e % 2 == 0 then e / 2 else (e - 1) / 2
      let r := isqrt (2 ^ 400 / m2)
      let exact := r * r * m2 == 2 ^ 400
      t.round .rne false false (2 * r + (if exact then 0 else 1)) 1 (-h - 201)

end Sys2Proof.Machine
end

