-- ==== Sys2Proof/Machine/Vector.lean ====
section
/-! DEFINITION. The vector engine (F07): acceptance (Table 07.3), the results of every vector instruction, completion. -/

namespace Sys2Proof.Machine

/-! Element types (Table 07.1). -/

def vtBytes : VType → Nat
  | .f32 => 4
  | .bf => 2
  | .i32 => 4
  | .d => 8
def vtFmt : VType → Fmt
  | .f32 => fmt32
  | .bf => fmtBF
  | .i32 => fmt32
  | .d => fmt64
def vtInt : VType → Bool
  | .i32 => true
  | _ => false

/-- The operands of a vector instruction: .N, element type, and its handles. -/
structure VArgs where
  n  : Bool
  t  : VType
  hd : Option Handle := none
  ha : Option Handle := none
  hb : Option Handle := none

def vB (n : Bool) (t : VType) (d a b : Handle) : Option VArgs := some { n := n, t := t, hd := some d, ha := some a, hb := some b }
def vU (n : Bool) (t : VType) (d a : Handle) : Option VArgs := some { n := n, t := t, hd := some d, ha := some a }

/-- The operands of a vector instruction; none for any other. -/
def vecArgs (i : Instr) : Option VArgs :=
  match i with
  | .vadd n t d a b => vB n t d a b
  | .vsub n t d a b => vB n t d a b
  | .vmul n t d a b => vB n t d a b
  | .vfma n t d a b => vB n t d a b
  | .vmac n t a b => some { n := n, t := t, ha := some a, hb := some b }
  | .vmin n t d a b => vB n t d a b
  | .vmax n t d a b => vB n t d a b
  | .vabs n t d a => vU n t d a
  | .vneg n t d a => vU n t d a
  | .vcmp _ n t d a b => vB n t d a b
  | .vsel n t d a b => vB n t d a b
  | .vand n d a b => vB n .i32 d a b
  | .vor n d a b => vB n .i32 d a b
  | .vxor n d a b => vB n .i32 d a b
  | .vshl n d a b => vB n .i32 d a b
  | .vshr n d a b => vB n .i32 d a b
  | .vrcp n t d a => vU n t d a
  | .vrsq n t d a => vU n t d a
  | .vexp2 n t d a => vU n t d a
  | .vlog2 n t d a => vU n t d a
  | .vtanh n t d a => vU n t d a
  | .vsig n t d a => vU n t d a
  | .vexp2X n d a => vU n .f32 d a
  | .vlog2X n d a => vU n .f32 d a
  | .vcvt n _ _ _ t d a => vU n t d a
  | .vsplit3 n d a => vU n .f32 d a
  | .vqnt n _ _ _ t d a => vU n t d a
  | .vreds n t d a => vU n t d a
  | .vredm n t d a => vU n t d a
  | .vgath n t d a b => vB n t d a b
  | .vscat n t d a b => vB n t d a b
  | .vperm n t d a b => vB n t d a b
  | .vaccget n d => some { n := n, t := .f32, hd := some d }
  | .vaccset n a => some { n := n, t := .f32, ha := some a }
  | .vaccz => some { n := false, t := .f32 }
  | _ => none

/-- Class C with .SR: the conversion draws (R184). -/
def vecDraws (i : Instr) : Bool :=
  match i with
  | .vcvt _ sr _ _ _ _ _ => sr
  | .vqnt _ sr _ _ _ _ _ => sr
  | _ => false

/-- Class C (R66). -/
def vecConverts (i : Instr) : Bool :=
  match i with
  | .vcvt _ _ _ _ _ _ _ => true
  | .vqnt _ _ _ _ _ _ _ => true
  | _ => false

/-- Producer claim (R173). -/
def vecNd (i : Instr) : Nat :=
  match i with
  | .vsplit3 _ _ _ => 3
  | _ => 1

def up8 (n : Nat) : Nat := (n + 7) / 8 * 8

/-- wb of Table 07.2 for n elements, an hb slot of sb bytes and an hd slot of sd bytes. -/
def vecWb (i : Instr) (t : VType) (n sb sd : Nat) : Nat :=
  match i with
  | .vcvt _ _ _ g _ _ _ => up8 (n * tgtBytes g)
  | .vqnt _ _ _ _ _ _ _ => 136
  | .vsplit3 _ _ _ => up8 (2 * n)
  | .vreds _ _ _ _ => 8
  | .vredm _ _ _ _ => 8
  | .vgath _ _ _ _ _ => up8 (sb / 4 * vtBytes t)
  | .vscat _ _ _ _ _ => sd
  | .vaccget _ _ => 256
  | _ => up8 (n * vtBytes t)

/-- Bytes an hb slot must have for n elements (check 4 of Table 07.3). -/
def vecNeedB (i : Instr) (t : VType) (n : Nat) : Nat :=
  match i with
  | .vscat _ _ _ _ _ => 4 * n
  | .vperm _ _ _ _ _ => 4 * n
  | .vgath _ _ _ _ _ => 0
  | _ => n * vtBytes t

/-- The ha slot has the size the instruction needs. -/
def vecOkA (i : Instr) (n sa : Nat) : Bool :=
  match i with
  | .vqnt _ _ _ _ _ _ _ => n ≤ 128
  | .vaccset _ _ => 256 ≤ sa
  | _ => true

/-- One operand at acceptance: its zas position, handle number, ring and claim. -/
structure VOperand where
  pos   : Nat
  h     : Nat
  ring  : Option Nat
  claim : Nat
  okSize : Bool := true

/-- The first operand that fails a test. -/
def firstBad (ok : VOperand → Bool) (l : List VOperand) : Option VOperand := l.find? (fun o => !ok o)

/-- The handle operands of an instruction: handle, position, and the role it needs (R24, Table 04.2). -/
def handleUses (i : Instr) : List (Handle × Nat × Role) :=
  match i with
  | .hpop _ h => [(h, 0, .consumer)]
  | .hadvh h _ => [(h, 0, .consumer)]
  | .hwaitf h _ => [(h, 0, .consumer)]
  | .hpush h _ => [(h, 0, .producer)]
  | .hadvt h _ => [(h, 0, .producer)]
  | .hwaite h _ => [(h, 0, .producer)]
  | .wpush h _ => [(h, 0, .producer)]
  | .wpop h _ => [(h, 0, .consumer)]
  | .copy _ _ _ h => [(h, 0, .consumer)]
  | .copymc _ _ _ h => [(h, 0, .consumer)]
  | .wenq _ h _ _ => [(h, 0, .consumer)]
  | .mload _ _ h => [(h, 0, .consumer)]
  | .mout _ h _ _ => [(h, 0, .producer)]
  | .mma _ _ _ _ _ h _ _ => [(h, 0, .consumer)]
  | .mmaN _ _ _ _ _ h _ _ => [(h, 0, .consumer)]
  | _ => match vecArgs i with
    | some x =>
      ((x.hd.map (fun h => (h, Role.producer))).toList ++ (x.ha.map (fun h => (h, Role.consumer))).toList ++
        (x.hb.map (fun h => (h, Role.consumer))).toList).zipIdx.map (fun p => (p.1.1, p.2, p.1.2))
    | none => []

/-- Check 7 of Table 02.12: the mtval of the first handle operand that does not hold its role or names no valid ring (R24). -/
def State.handleFault (s : State) (i : Instr) : Option Word :=
  (handleUses i).findSome? (fun u => if (s.handle? u.1 u.2.2 (fun _ => true)).isSome then none else some (rp0 u.1.toNat u.2.1))

/-- Acceptance of a vector instruction (R149, R171, R174): check 7 of Table 02.12 on every operand, then the checks of Table 07.3. Of
several operands that fail one check mtval names the first in zas order (DESIGN CHOICE, log entry 104: the spec says so of check 5
alone). -/
def State.acceptVector (s : State) (i : Instr) : Accept :=
  match vecArgs i with
  | none => .full
  | some x =>
    let ring := fun (h : Option Handle) (role : Role) (k : Ring → Bool) => h.bind (fun h => s.handle? h role k)
    let rd := ring x.hd .producer (kindIs [0])
    let ra := ring x.ha .consumer (feeds 1)
    let rb := ring x.hb .consumer (feeds 1)
    let size := fun (r : Option Nat) => (r.map (fun ix => (s.ring s.vk ix).size)).getD 0
    let n := size ra / vtBytes x.t
    let pd := if x.hd.isSome then 1 else 0
    let op := fun (h : Option Handle) (pos : Nat) (r : Option Nat) (c : Nat) (ok : Bool) => match h with
      | some h => [({ pos := pos, h := h.toNat, ring := r, claim := c, okSize := ok } : VOperand)]
      | none => []
    let ops :=
      op x.hd 0 rd (vecNd i) (vecWb i x.t n (size rb) (size rd) ≤ size rd) ++
      op x.ha pd ra 1 (vecOkA i n (size ra)) ++
      op x.hb (pd + 1) rb 1 (vecNeedB i x.t n ≤ size rb)
    let claims := fun (o : VOperand) => sumNat ((ops.filter (fun p => p.ring == o.ring)).map VOperand.claim)
    let fits := fun (o : VOperand) => claims o ≤ (o.ring.map (fun ix => (s.ring s.vk ix).count)).getD 0
    let bad2 := Accept.fault 2 ((insnWord i).setWidth 64)
    match s.handleFault i, firstBad (fun o => o.ring.isSome) ops with
    | some t, _ => .fault 25 t
    | none, some o => .fault 25 (rp0 o.h o.pos)
    | none, none =>
      if vecConverts i && (modeOf s.me.frm).isNone then bad2
      else if vecDraws i && s.me.frm != 0 then bad2
      else match firstBad VOperand.okSize ops with
        | some o => .fault 25 (rp0 o.h o.pos)
        | none => match firstBad fits ops with
          | some o => .fault 25 (rp1 o.h o.pos)
          | none =>
            let c := fun (h : Option Handle) (k : Nat) => if h.isSome then k else 0
            let q := { s.newEntry i with
              rd := rd, ra := ra, rb := rb, nd := c x.hd (vecNd i), na := c x.ha 1, nb := c x.hb 1,
              op := if vecDraws i then s.myVc.srpos else 0 }
            s.takeIn 1 q q.na q.nb q.nd (fun t =>
              if vecDraws i then t.updMyVc (fun v => { v with srpos := v.srpos + BitVec.ofNat 64 ((n + 3) / 4) }) else t)

/-! Element results. -/

/-- k elements of eb bytes of a slot. -/
def elems (bs : List Byte) (eb n : Nat) : List Nat := (List.range n).map (fun k => ofBytes ((bs.drop (eb * k)).take eb))

/-- Elements as bytes, padded with zeros to len. -/
def packElems (eb len : Nat) (ys : List Nat) : List Byte :=
  let bs := ys.flatMap (fun y => bytesOf y eb)
  bs ++ List.replicate (len - bs.length) 0

/-- The results of an elementwise operation and the OR of their flags. -/
def gather2 (rs : List (Nat × BitVec 5)) : List Nat × BitVec 5 := (rs.map Prod.fst, rs.foldl (fun f r => f ||| r.2) 0)

/-- The 32-bit operations of R178. -/
def i32Op (f : Int → Int → Int) (a b : Nat) : Nat × BitVec 5 := (intBits 32 (f (intVal 32 a) (intVal 32 b)), 0)

def vecAdd (t : VType) (a b : Nat) : Nat × BitVec 5 := if vtInt t then i32Op (· + ·) a b else (vtFmt t).add .rne a b
def vecSub (t : VType) (a b : Nat) : Nat × BitVec 5 := if vtInt t then i32Op (· - ·) a b else (vtFmt t).sub .rne a b
def vecMul (t : VType) (a b : Nat) : Nat × BitVec 5 := if vtInt t then i32Op (· * ·) a b else (vtFmt t).mul .rne a b
def vecMin (t : VType) (a b : Nat) : Nat × BitVec 5 := if vtInt t then i32Op min a b else (vtFmt t).minmax false a b
def vecMax (t : VType) (a b : Nat) : Nat × BitVec 5 := if vtInt t then i32Op max a b else (vtFmt t).minmax true a b

/-- a × b + c rounded once to out; a and b of format t, c FP32 (R177, R179). -/
def vecFma (t out : Fmt) (a b c : Nat) : Nat × BitVec 5 :=
  let p := numMul (t.value a) (t.value b)
  let r := numAdd false p.1 (fmt32.value c)
  let q := out.roundNum .rne r.1
  (q.1, q.2 ||| flagIf (p.2 || r.2) fNV)

/-- VABS and VNEG of a float. -/
def signOp (t : Fmt) (f : Bool → Bool) (a : Nat) : Nat × BitVec 5 :=
  match t.value a with
  | .nan sig => (t.qnan, flagIf sig fNV)
  | v => (t.sign (f v.isNeg) (a % 2 ^ (t.E + t.M)), 0)

def vecAbs (t : VType) (a : Nat) : Nat × BitVec 5 :=
  if vtInt t then (intBits 32 ((intVal 32 a).natAbs : Int), 0) else signOp (vtFmt t) (fun _ => false) a
def vecNeg (t : VType) (a : Nat) : Nat × BitVec 5 :=
  if vtInt t then (intBits 32 (-(intVal 32 a)), 0) else signOp (vtFmt t) (fun n => !n) a

/-- The condition of VCMP, and NV (R180). -/
def cmpHolds (c : VCmpOp) (t : VType) (a b : Nat) : Bool × Bool :=
  if vtInt t then
    (match c with
     | .eq => intVal 32 a == intVal 32 b
     | .lt => intVal 32 a < intVal 32 b
     | .le => intVal 32 a ≤ intVal 32 b
     | .un => false, false)
  else
    let x := (vtFmt t).value a
    let y := (vtFmt t).value b
    let nan := x.isNan || y.isNan
    let sig := x.isSig || y.isSig
    match c with
    | .eq => (!nan && numCmp x y == 0, sig)
    | .lt => (!nan && numCmp x y < 0, nan)
    | .le => (!nan && numCmp x y ≤ 0, nan)
    | .un => (nan, sig)

def vecCmp (c : VCmpOp) (t : VType) (a b : Nat) : Nat × BitVec 5 :=
  let r := cmpHolds c t a b
  (if r.1 then 2 ^ (8 * vtBytes t) - 1 else 0, flagIf r.2 fNV)

/-- VCVT of one element (R183). -/
def vecCvt (tgt : CvtTgt) (sr sat : Bool) (t : VType) (mode : RMode) (a u : Nat) : Nat × BitVec 5 :=
  if sr then convertSr tgt sat a u
  else if vtInt t then convertInt tgt mode sat (intVal 32 a)
  else convert tgt mode sat ((vtFmt t).value a)

/-- VQNT of one element whose scale is sc (R185). -/
def vecQnt (tgt : CvtTgt) (sr : Bool) (t : VType) (mode : RMode) (sc a u : Nat) : Nat × BitVec 5 :=
  let d := scaled ((vtFmt t).value a) sc
  if sr then
    let x := convert .f32 .rne false d.1 d.2
    let y := convertSr tgt true x.1 u
    (y.1, x.2 ||| y.2)
  else convert tgt mode true d.1 d.2

/-- hi, mid and lo of VSPLIT3, and its flags (R144). -/
def split3 (a : Nat) : (Nat × Nat × Nat) × BitVec 5 :=
  let bf := fun (v : Num) => (match v with
    | .fin n m e => if m == 0 then 0 else (fmtBF.round .rne false n m 1 e).1
    | _ => 0)
  match fmt32.value a with
  | .nan sig => ((0x7FC0, 0x7FC0, 0x7FC0), flagIf sig fNV)
  | .inf n => ((fmtBF.infBits n, 0, 0), 0)
  | .fin n m e =>
    if m == 0 then ((fmtBF.sign n 0, 0, 0), 0)
    else
      let h0 := (fmtBF.round .rne false n m 1 e).1
      let hi := match fmtBF.value h0 with
        | .inf _ => fmtBF.sign n fmtBF.maxBits
        | _ => h0
      let minus := fun (x : Num) (b : Nat) => (numAdd false x (numNeg (fmtBF.value b))).1
      let r1 := minus (.fin n m e) hi
      let mid := bf r1
      let r2 := minus r1 mid
      let lo := bf r2
      ((hi, mid, lo), flagIf (numCmp r2 (fmtBF.value lo) != 0) (fNX ||| fUF))

/-! Reductions (R187). -/

/-- The lanes after all elements: at most 64 partial values. -/
def laneFold (op : Nat → Nat → Nat × BitVec 5) (xs : List Nat) : List Nat × BitVec 5 :=
  let n := min 64 xs.length
  let lane := fun (l : Nat) =>
    let mine := (xs.zipIdx.filter (fun p => p.2 % 64 == l)).map Prod.fst
    (mine.drop 1).foldl (fun (r : Nat × BitVec 5) x => let q := op r.1 x; (q.1, r.2 ||| q.2)) (mine.headD 0, 0)
  gather2 ((List.range n).map lane)

/-- One level: neighbours combined, an absent partner leaves the value. -/
def pairLevel (op : Nat → Nat → Nat × BitVec 5) : List Nat → List Nat × BitVec 5
  | a :: b :: t =>
    let q := op a b
    let r := pairLevel op t
    (q.1 :: r.1, q.2 ||| r.2)
  | l => (l, 0)

def pairTree (op : Nat → Nat → Nat × BitVec 5) : Nat → List Nat → Nat × BitVec 5
  | 0, l => (l.headD 0, 0)
  | n + 1, l =>
    let r := pairLevel op l
    let q := pairTree op n r.1
    (q.1, r.2 ||| q.2)

/-- R187. A single element of type t meets no op; it is the result rounded once, which makes a NaN canonical (R132, R176). -/
def reduce (t : VType) (op : Nat → Nat → Nat × BitVec 5) (xs : List Nat) : Nat × BitVec 5 :=
  match t, xs with
  | .d, [x] => fmt64.roundNum .rne (fmt64.value x)
  | _, _ =>
    let l := laneFold op xs
    let r := pairTree op 6 l.1
    (r.1, l.2 ||| r.2)

/-- VREDS. -/
def vecSum (t : VType) (xs : List Nat) : Nat × BitVec 5 :=
  match t with
  | .bf =>
    let r := reduce .bf (fmt32.add .rne) (xs.map (· * 65536))
    let y := fmtBF.roundNum .rne (fmt32.value r.1)
    (y.1, r.2 ||| y.2)
  | _ => reduce t (vecAdd t) xs

/-! What an instruction writes. -/

/-- The bytes of each produced slot, the new vacc, and the flags. -/
structure VResult where
  out   : List (List Byte) := []
  vacc  : Vector (BitVec 32) 64
  flags : BitVec 5 := 0

/-- VMAC over the elements in order. -/
def macFrom (t : VType) (vacc : Vector (BitVec 32) 64) (f : BitVec 5) : List ((Nat × Nat) × Nat) → VResult
  | [] => { vacc := vacc, flags := f }
  | ((a, b), k) :: rest =>
    let r := vecFma (vtFmt t) fmt32 a b (vacc.getD (k % 64) 0).toNat
    macFrom t (vacc.setIfInBounds (k % 64) (BitVec.ofNat 32 r.1)) (f ||| r.2) rest

/-- VSCAT over the elements in order: the o elements written, and NV. -/
def scatFrom (ys : List Nat) (nv : Bool) : List (Nat × Nat) → List Nat × Bool
  | [] => (ys, nv)
  | (x, ix) :: rest => if ix < ys.length then scatFrom (ys.set ix x) nv rest else scatFrom ys true rest

/-- The result of a vector instruction: ha and hb its slots, frm and the draws captured, sd the hd slot's size. -/
def vecResult (i : Instr) (x : VArgs) (ha hb : List Byte) (sd : Nat) (frm : BitVec 3) (draw : Nat → Nat)
    (vacc : Vector (BitVec 32) 64) : VResult :=
  let t := x.t
  let eb := vtBytes t
  let n := ha.length / eb
  let xs := elems ha eb n
  let ys := elems hb eb n
  let ids := elems hb 4 (hb.length / 4)
  let mode := (modeOf frm).getD .rne
  let wb := vecWb i t n hb.length sd
  let one := fun (r : List Nat × BitVec 5) => ({ out := [packElems eb wb r.1], vacc := vacc, flags := r.2 } : VResult)
  let un := fun (f : Nat → Nat × BitVec 5) => one (gather2 (xs.map f))
  let bin := fun (f : Nat → Nat → Nat × BitVec 5) => one (gather2 ((xs.zip ys).map (fun p => f p.1 p.2)))
  let bits2 := fun (f : Nat → Nat → Nat) => bin (fun a b => (f a b % 2 ^ (8 * eb), 0))
  match i with
  | .vadd _ _ _ _ _ => bin (vecAdd t)
  | .vsub _ _ _ _ _ => bin (vecSub t)
  | .vmul _ _ _ _ _ => bin (vecMul t)
  | .vfma _ _ _ _ _ =>
    one (gather2 ((xs.zip ys).zipIdx.map (fun p => vecFma (vtFmt t) (vtFmt t) p.1.1 p.1.2 (vacc.getD (p.2 % 64) 0).toNat)))
  | .vmac _ _ _ _ => macFrom t vacc 0 (xs.zip ys).zipIdx
  | .vmin _ _ _ _ _ => bin (vecMin t)
  | .vmax _ _ _ _ _ => bin (vecMax t)
  | .vabs _ _ _ _ => un (vecAbs t)
  | .vneg _ _ _ _ => un (vecNeg t)
  | .vcmp c _ _ _ _ _ => bin (vecCmp c t)
  | .vsel _ _ _ _ _ => bits2 (fun a b => if b == 0 then 0 else a)
  | .vand _ _ _ _ => bits2 (fun a b => a &&& b)
  | .vor _ _ _ _ => bits2 (fun a b => a ||| b)
  | .vxor _ _ _ _ => bits2 (fun a b => a ^^^ b)
  | .vshl _ _ _ _ => bits2 (fun a b => a * 2 ^ (b % 32))
  | .vshr _ _ _ _ => bits2 (fun a b => intBits 32 (intVal 32 a / (2 ^ (b % 32) : Nat)))
  | .vrcp _ _ _ _ => un (approxRcp (vtFmt t))
  | .vrsq _ _ _ _ => un (approxRsq (vtFmt t))
  | .vexp2 _ _ _ _ => un (match t with
      | .f32 => approxExp2Lean
      | _ => approxExp2 (vtFmt t))
  | .vlog2 _ _ _ _ => un (match t with
      | .f32 => approxLog2Lean
      | _ => approxLog2 (vtFmt t))
  | .vtanh _ _ _ _ => un (approxTanh (vtFmt t))
  | .vsig _ _ _ _ => un (approxSig (vtFmt t))
  | .vexp2X _ _ _ => un (approxExp2 fmt32)
  | .vlog2X _ _ _ => un (approxLog2 fmt32)
  | .vcvt _ sr sat g _ _ _ =>
    let r := gather2 (xs.zipIdx.map (fun p => vecCvt g sr sat t mode p.1 (draw p.2)))
    { out := [packElems (tgtBytes g) wb r.1], vacc := vacc, flags := r.2 }
  | .vsplit3 _ _ _ =>
    let rs := xs.map split3
    { out := [packElems 2 wb (rs.map (fun r => r.1.1)), packElems 2 wb (rs.map (fun r => r.1.2.1)),
        packElems 2 wb (rs.map (fun r => r.1.2.2))],
      vacc := vacc, flags := rs.foldl (fun f r => f ||| r.2) 0 }
  | .vqnt _ sr _ g _ _ _ =>
    let sc := quantScale g (xs.map (vtFmt t).value)
    let r := gather2 (xs.zipIdx.map (fun p => vecQnt g sr t mode sc p.1 (draw p.2)))
    { out := [packElems 1 128 r.1 ++ bytesOf (sc + 2 ^ 32) 8], vacc := vacc, flags := r.2 }
  | .vreds _ _ _ _ => let r := vecSum t xs; one ([r.1], r.2)
  | .vredm _ _ _ _ => let r := reduce t (vecMax t) xs; one ([r.1], r.2)
  | .vgath _ _ _ _ _ =>
    one (gather2 (ids.map (fun j => if j < n then (xs.getD j 0, 0) else (0, fNV))))
  | .vscat _ _ _ _ _ =>
    let r := scatFrom (List.replicate (sd / eb) 0) false (xs.zip ids)
    one (r.1, flagIf r.2 fNV)
  | .vperm _ _ _ _ _ => one ((ids.take n).map (fun j => xs.getD (j % n) 0), 0)
  | .vaccget _ _ => { out := [packElems 4 256 (vacc.toList.map BitVec.toNat)], vacc := vacc }
  | .vaccset _ _ => { vacc := Vector.ofFn (fun l => BitVec.ofNat 32 (xs.getD l.val 0)) }
  | .vaccz => { vacc := Vector.replicate 64 0 }
  | _ => { vacc := vacc }

/-! In the engine. -/

/-- The claims of an entry are there (R175, step 1). -/
def State.vectorReady (s : State) (vk : Nat) (q : QEntry) : Bool :=
  let fill := fun (r : Option Nat) => (r.map (fun ix => (s.ring vk ix).fill)).getD 0
  let need := if q.ra == q.rb then q.na + q.nb else q.na
  (q.ra.isNone || need ≤ fill q.ra) && (q.rb.isNone || q.nb ≤ fill q.rb) &&
    (match q.rd with
     | some ix => q.nd ≤ (s.ring vk ix).room
     | none => true)

def State.vectorCanStart (s : State) (vk : Nat) : Bool :=
  let v := s.vc vk
  (v.runOf 1).isNone && !v.frozen && s.serves vk 1 && (match v.queueOf 1 with
    | q :: _ => s.vectorReady vk q
    | [] => false)

/-- VECTOR_ENGINE_START of virtual core ev.key. -/
def execVectorEngineStart (s : State) : Out :=
  let vk := s.ev.key
  .next (match s.vectorCanStart vk, (s.vc vk).queueOf 1 with
    | true, q :: _ => (s.popQueue vk 1).setRun vk 1 { entry := q }
    | _, _ => s)

def State.vectorCanEnd (s : State) (vk : Nat) : Bool :=
  match (s.vc vk).runOf 1 with
  | some r => s.vectorReady vk r.entry
  | none => false

/-- The produced slots are written from the tail on. -/
def State.putSlots (s : State) (vk ix k : Nat) : List (List Byte) → State
  | [] => s
  | bs :: t => (s.putSlot (s.ringAddr vk ix ((s.ring vk ix).tail + k)) bs).putSlots vk ix (k + 1) t

/-- Steps 2 to 5 of R175 for an entry. -/
def State.vectorRun (s : State) (vk : Nat) (q : QEntry) (i : Instr) (x : VArgs) : State :=
  let v := s.vc vk
  let slot := fun (r : Option Nat) (k : Nat) => match r with
    | some ix => s.slotBytes vk ix k (s.ring vk ix).size
    | none => []
  let ha := slot q.ra 0
  let hb := slot q.rb (if q.ra == q.rb then 1 else 0)
  let sd := (q.rd.map (fun ix => (s.ring vk ix).size)).getD 0
  let r := vecResult i x ha hb sd q.frm (srDraw v.srkey q.op) v.vacc
  let s := s.updVc vk (fun v => { v with vacc := r.vacc })
  let s := match q.rd with
    | some ix => s.putSlots vk ix 0 r.out
    | none => s
  let take := fun (t : State) (ring : Option Nat) (k : Nat) => match ring with
    | some ix => t.advHead vk ix k
    | none => t
  let s := if x.n then s
    else
      let s := take (take s q.ra q.na) q.rb q.nb
      match q.rd with
      | some ix => s.advTail vk ix q.nd
      | none => s
  (s.raiseM vk r.flags).endRun vk 1 q

/-- VECTOR_ENGINE_COMPLETE of virtual core ev.key. -/
def execVectorEngineComplete (s : State) : Out :=
  let vk := s.ev.key
  .next (match s.vectorCanEnd vk, (s.vc vk).runOf 1 with
    | true, some r =>
      (match decode r.entry.word with
       | .ok i => (match vecArgs i with
         | some x => s.vectorRun vk r.entry i x
         | none => s)
       | _ => s)
    | _, _ => s)

/-! The instructions at their slot's turn. -/


end Sys2Proof.Machine
end

