-- ==== Sys2Proof/Machine/Layout.lean ====
section
/-! DEFINITION. The layout table and the copy engine (F08, R215 to R222). -/

namespace Sys2Proof.Machine

/-! Layout entries (Table 08.8). -/

structure Layout where
  space : Nat
  bank  : Bool
  perm  : Nat
  base  : Nat
  strides : List Nat
  lgs   : List Nat
  sscale : Nat
  vcid  : Nat
  deriving DecidableEq, Repr

def layoutOfWords (w : List Word) : Layout :=
  let g := fun (i : Nat) => w.getD i 0
  { space := bits (g 0) 2 0, bank := bit (g 0) 3, perm := bits (g 0) 5 4, base := bits (g 0) 63 12,
    strides := (List.range 4).map (fun d => bits (g 1) (16 * d + 15) (16 * d)) ++
      (List.range 3).map (fun d => bits (g 2) (16 * d + 15) (16 * d)),
    lgs := (List.range 3).map (fun d => bits (g 2) (5 * d + 52) (5 * d + 48)) ++
      (List.range 4).map (fun d => bits (g 3) (5 * d + 4) (5 * d)),
    sscale := bits (g 3) 23 20, vcid := bits (g 3) 63 48 }

/-- Fields of the base of spaces 1 and 6. -/
def Layout.off (l : Layout) : Nat := l.base % 2 ^ 24
def Layout.node (l : Layout) : Nat := l.base / 2 ^ 28 % 2 ^ 20
def Layout.rspace (l : Layout) : Nat := l.base / 2 ^ 48 % 16

/-- The entry of the layout table of a virtual core. -/
def VCore.layoutWords (v : VCore) (i : Nat) : List Word := FMap.getD v.lt i [0, 0, 0, 0]

/-- The reason LTSET rejects an image; 0 when there is none (R216). -/
def layoutReject (w : List Word) (uMode named : Bool) : Nat :=
  let l := layoutOfWords w
  let g := fun (i : Nat) => w.getD i 0
  let far := l.space == 1 || l.space == 6
  if l.space == 7 || (uMode && 3 ≤ l.space) || (far && l.rspace != 0 && l.rspace != 2) then 1
  else if (l.perm != 0 && !(l.space == 0 || l.space == 1)) ||
      (l.bank && !(l.space == 2 || (l.space == 1 && l.rspace == 2))) ||
      (l.vcid != 0 && !(l.space == 1 || (l.space == 6 && l.vcid < 8))) then 7
  else if named then 9
  else if bits (g 0) 11 6 != 0 || bit (g 2) 63 || bits (g 3) 47 24 != 0 || (far && l.base / 2 ^ 24 % 16 != 0) then 10
  else 0

/-- The entry is named by an accepted, uncompleted copy. -/
def VCore.layoutBusy (v : VCore) (i : Nat) : Bool :=
  (v.accepted 2).any (fun q => bits q.op 5 0 == i || bits q.op 13 8 == i)

/-- A base moved by d, modulo 2^52. -/
def moveBase (w0 : Word) (d : Nat) : Word := (w0.extractLsb' 12 52 + BitVec.ofNat 52 d) ++ w0.extractLsb' 0 12

def execLtset (rs1 rs2 : XReg) (s : State) : Out :=
  let i := s.x rs1
  let a := s.x rs2
  .next (if i.toNat ≥ 64 then s.trap25 (rp2 (i.toNat % 256) 0)
    else if a.toNat % 8 ≠ 0 then s.trap 4 a
    else s.lm a 32 false (fun g =>
      let w := Memory.words s.mem g 4
      let uMode := s.me.mode == .u
      let why := layoutReject w uMode (s.myVc.layoutBusy i.toNat)
      if why != 0 then s.trap25 (rp2 i.toNat why)
      else
        let w0 := w.getD 0 0
        let w0 := if uMode && bits w0 2 0 == 0 then moveBase w0 s.me.segbase.toNat else w0
        (s.updMyVc (fun v => { v with lt := FMap.set v.lt i.toNat (w0 :: w.drop 1) })).retire))

def execLtget (rs1 rs2 : XReg) (s : State) : Out :=
  let i := s.x rs1
  let a := s.x rs2
  .next (if i.toNat ≥ 64 then s.trap25 (rp2 (i.toNat % 256) 0)
    else if a.toNat % 8 ≠ 0 then s.trap 6 a
    else s.lm a 32 true (fun g =>
      let w := s.myVc.layoutWords i.toNat
      let w0 := w.getD 0 0
      let w0 := if s.me.mode == .u && bits w0 2 0 == 0 then moveBase w0 (2 ^ 52 - s.me.segbase.toNat % 2 ^ 52) else w0
      (({ s with mem := Memory.setWords s.mem g (w0 :: w.drop 1) }).wrote g 32).retire))

/-! Coordinates (R217, Table 08.10). -/

/-- A 32-bit field of the record at byte b. -/
def recField (rec_ : List Word) (b : Nat) : Nat := bits (rec_.getD (b / 8) 0) (8 * (b % 8) + 31) (8 * (b % 8))

def recNdim (rec_ : List Word) : Nat := bits (rec_.getD 0 0) 2 0
def recEb (rec_ : List Word) : Nat := 2 ^ bits (rec_.getD 0 0) 9 8
/-- Seven values from byte b: the field below ndim, d above. -/
def recDims (rec_ : List Word) (b d : Nat) : List Nat :=
  (List.range 7).map (fun k => if k < recNdim rec_ then recField rec_ (b + 4 * k) else d)
def recExt (rec_ : List Word) : List Nat := recDims rec_ 8 1
def recSo (rec_ : List Word) : List Nat := recDims rec_ 40 0
def recDo (rec_ : List Word) : List Nat := recDims rec_ 72 0
def product (l : List Nat) : Nat := l.foldl (· * ·) 1

/-- Malformed: an RZ bit, ndim 0, or 2^48 elements or more. -/
def recMalformed (rec_ : List Word) : Bool :=
  let w := rec_.getD 0 0
  bits w 7 3 != 0 || bits w 63 10 != 0 || recField rec_ 36 != 0 || recField rec_ 68 != 0 || recField rec_ 100 != 0 ||
    recNdim rec_ == 0 || 2 ^ 48 ≤ product (recExt rec_)

/-- The box lies inside an entry; an empty box always does. -/
def boxInside (l : Layout) (origin ext : List Nat) : Bool :=
  product ext == 0 ||
    ((origin.zip ext).zip l.lgs).all (fun p => p.1.1 + p.1.2 ≤ 2 ^ p.2)

/-- Coordinates of element p of the extents, dimension 0 fastest. -/
def coords : List Nat → Nat → List Nat
  | [], _ => []
  | e :: t, p => p % e :: coords t (p / e)

/-- perm: bits [8:6], [11:9] or [14:12] of the offset XORed into bits [5:3]. -/
def permute (perm o : Nat) : Nat := if perm == 0 then o else o ^^^ (o / 2 ^ (3 + 3 * perm) % 8 * 8)

/-- Offset of the element at these coordinates. -/
def Layout.offset (l : Layout) (eb : Nat) (c : List Nat) : Nat :=
  let o := eb * ((c.zip l.strides).foldl (fun a p => a + p.1 * p.2) 0) * 2 ^ l.sscale
  if l.space < 2 then permute l.perm o else o

/-! Where an element lies. -/

inductive Place where
  /-- Its bytes. -/
  | here (addrs : List Nat)
  /-- A fault of R220: its status, and the offending offset. -/
  | fault (status : Nat) (detail : Nat)
  /-- At these homes, by pointer and bank code (Body.copyRead). -/
  | away (homes : List (Dest × Word × Nat))

def span (a n : Nat) : List Nat := (List.range n).map (a + ·)

/-- Bytes of an element at its home: in the LM window of a virtual core (R195), in its weight-store share, in a signal memory. bank: as in
Body.copyRead. -/
def State.homeBytes (s : State) (d : Dest) (p : Word) (n bank : Nat) : Option (List Nat) :=
  match d with
  | .vc vk =>
    let v := s.vc vk
    if ptrSpace p == 2 then
      (let b := if bank < 2 then v.bank != (bank == 1) else bank == 3
       if ptrOff p + n ≤ s.share vk then some (span (s.wsAt vk b (ptrOff p)) n) else none)
    else if ptrOff p + n ≤ s.launchLenOf vk then some (span (lmAddr (s.coreOf vk) (v.base + ptrOff p)) n)
    else none
  | .sig x => if 0x8000 < ptrOff p + n || (s.die x).failed then none else some (span (sigAddr x (ptrOff p)) n)
  | _ => none

/-- The bank a copy uses at a virtual core: active is the bit captured at its start. -/
def bankFor (r : Running) (vk : Nat) (active : Bool) : Bool :=
  let b := ((r.banks.find? (fun p => p.1 == vk)).map Prod.snd).getD false
  if active then b else !b

/-- The bank code of an entry at a virtual core of this package, whose bank-select bit was captured at the start, or of another. -/
def bankCode (r : Running) (l : Layout) (vk : Option Nat) : Nat :=
  if l.rspace != 2 then 0
  else match vk with
    | some k => if bankFor r k l.bank then 3 else 2
    | none => if l.bank then 0 else 1

/-- The pointer of an element in an entry of space 1 or 6, at VCID or die x. -/
def farPtr (l : Layout) (o x : Nat) : Word :=
  BitVec.ofNat 64 (pack [(0, o), (24, x), (40, l.node), (60, if l.space == 6 then 1 else l.rspace)])

/-- An element at offset o of an entry; vks: the virtual cores of space 1. write: which translation fault. -/
def State.placeOf (s : State) (vk : Nat) (r : Running) (l : Layout) (vks : List Nat) (o n : Nat) (write : Bool) : State × Place :=
  let q := r.entry
  let job := (s.gang (s.vc vk).gid).job
  match l.space with
  | 0 =>
    let a := l.base + o
    let det := (a + 2 ^ 64 - q.base) % 2 ^ 64
    let ok := if q.mMode then decide (a + n ≤ 0x100000) else decide (q.base ≤ a ∧ a + n ≤ q.base + q.lim)
    (s, if ok then .here (span (lmAddr (s.coreOf vk) a) n) else .fault 3 det)
  | 1 =>
    let off := (l.off + o) % 2 ^ 24
    (s, .away (if s.ownNode l.node then vks.map (fun k => (.vc k, farPtr l off (k % 65536), bankCode r l (some k)))
      else [(.farVc l.node job l.vcid, farPtr l off l.vcid, bankCode r l none)]))
  | 2 =>
    let off := (l.base + o) % 2 ^ 20
    (s, if off + n ≤ s.share vk then .here (span (s.wsAt vk (bankFor r vk l.bank) off) n) else .fault 3 off)
  | 6 =>
    let off := l.off + o
    (s, if 0x8000 < off + n then .fault 6 0
        else .away [(if s.ownNode l.node then .sig (l.vcid % 8) else .farSig l.node (l.vcid % 8), farPtr l off (l.vcid % 8), 0)])
  | _ =>
    match s.translateBytes (s.dieOf vk) (s.gang (s.vc vk).gid).func (l.base + o) (if write then .write else .read) n (.micro (s.coreOf vk)) with
    | some (t, as) => (t, .here as)
    | none => (s.readFailed, .fault (if write then 5 else 4) 0)

/-- Words of an element relative to its entry's space, for FB. -/
def relWords (l : Layout) (o n : Nat) : List Nat :=
  let a := if l.space == 1 then (l.off + o) % 2 ^ 24 else if l.space == 6 then l.off + o else l.base + o
  (span a n).map (· / 8)

/-! The copy in progress. -/

/-- The control word (Table 08.9). -/
def ctlEv (q : QEntry) : Bool := bit q.op 16
def ctlFb (q : QEntry) : Bool := bit q.op 17
def ctlTag (q : QEntry) : Nat := bits q.op 47 32

/-- COPYMC, and the progress register. -/
def copyFields (q : QEntry) : Option (Bool × Bool × BitVec 5) :=
  match decode q.word with
  | .ok (.copy n rd _ _) => some (false, n, rd)
  | .ok (.copymc n rd _ _) => some (true, n, rd)
  | _ => none

/-- Virtual cores a copy writes to, for an entry of space 1. -/
def State.copyTargets (s : State) (vk : Nat) (q : QEntry) (mc : Bool) (l : Layout) : List Nat :=
  if mc then (s.vcs.filter (fun p => p.2.live && p.2.groups.contains (bits q.op 31 24))).map Prod.fst
  else [vkey (s.vc vk).gid l.vcid]

/-- The destinations of a copy, for the scopes of fences (R202, R203). -/
def State.copyDests (s : State) (vk : Nat) (q : QEntry) (mc : Bool) : List Dest :=
  let l := layoutOfWords ((s.vc vk).layoutWords (bits q.op 13 8))
  match l.space with
  | 0 => [.vc vk]
  | 2 => [.vc vk]
  | 1 =>
    if s.ownNode l.node then (s.copyTargets vk q mc l).map Dest.vc
    else [.farVc l.node (s.gang (s.vc vk).gid).job l.vcid]
  | 6 => if s.ownNode l.node then [.sig (l.vcid % 8)] else [.farSig l.node (l.vcid % 8)]
  | _ => [.memory]

/-- The progress registers of the issuing slot: x[rd] and x[rd + 1]. -/
def State.copyProgress (s : State) (vk : Nat) (q : QEntry) (rd : BitVec 5) (p total : Nat) : State :=
  s.updSlot (slotKey vk q.slot) (fun sl =>
    (sl.writeX rd (BitVec.ofNat 64 p)).writeX (rd + 1) (BitVec.ofNat 64 total - BitVec.ofNat 64 p))

/-- Addresses written byte by byte. -/
def State.landElement (s : State) : List Nat → List Byte → State
  | a :: l, b :: bs => (s.land a [b]).landElement l bs
  | _, _ => s

/-- Bytes written at an element's place; the words in full become full with them (R259). -/
def State.landFull (s : State) (as : List Nat) (bs : List Byte) (full : Bool × Bool) : State :=
  let t := s.landElement as bs
  let first := as.headD 0 / 8 * 8
  let t := if full.1 then t.setFull first else t
  if full.2 then t.setFull (first + 8) else t

/-- What one step of an element did. -/
inductive Moved where
  | done (s : State)
  | fault (s : State) (status detail : Nat)
  | wait
  /-- Messages are out: the numbers asked for, the bytes read elsewhere, and whether they are the writes. -/
  | ask (s : State) (ids : List Nat) (got : Option (List Byte)) (sent : Bool)

/-- A message of the copy engine to each home of an element. -/
def State.askHomes (s : State) (vk slot : Nat) (mk : Tag → Word → Nat → Body) : List (Dest × Word × Nat) → State × List Nat
  | [] => (s, [])
  | (d, p, b) :: t =>
    let n := s.freshId
    match (n.2.send { src := .vc vk, dst := d, net := .request, body := mk { id := n.1, slot := slot, bt := 0 } p b }).askHomes vk slot mk t with
    | (u, ids) => (u, n.1 :: ids)

/-- Which words of an element become full with it: FB, and no later element writes the word. -/
def fullWords (r : Running) (dst : Layout) (o n : Nat) (later : List Nat) : Bool × Bool :=
  let ws := relWords dst o n
  let hasBits := dst.space == 0 || (dst.space == 1 && dst.rspace == 0) || dst.space == 6
  let first := ws.headD 0
  let last := ws.getLastD 0
  (ctlFb r.entry && hasBits && !later.contains first, ctlFb r.entry && hasBits && last != first && !later.contains last)

/-- One element: it is read, then written at every target; at another virtual core, signal memory or package by messages (R254). -/
def State.copyElement (s : State) (vk : Nat) (r : Running) (mc : Bool) (later : List Nat) : Moved :=
  let src := layoutOfWords r.src
  let dst := layoutOfWords r.dst
  let eb := recEb r.record
  let k := coords (recExt r.record) r.pos
  let add := fun (a b : List Nat) => (a.zip b).map (fun p => p.1 + p.2)
  let so := src.offset eb (add (recSo r.record) k)
  let d_o := dst.offset eb (add (recDo r.record) k)
  let slot := r.entry.slot
  let write := fun (s : State) (bs : List Byte) =>
    let full := fullWords r dst d_o eb later
    match s.placeOf vk r dst (if dst.space == 1 then s.copyTargets vk r.entry mc dst else []) d_o eb true with
    | (s, .fault st det) => Moved.fault s st det
    | (s, .here as) => .done (s.landFull as bs full)
    | (s, .away hs) =>
      (match s.askHomes vk slot (fun t p b => .copyWrite t p bs b full) hs with
       | (s, ids) => .ask s ids (some bs) true)
  if !r.asked.isEmpty then .wait
  else if r.refused then .fault s 6 0
  else if r.sent then .done s
  else match r.got with
    | some bs => write s bs
    | none =>
      match s.placeOf vk r src [vkey (s.vc vk).gid src.vcid] so eb false with
      | (s, .here as) => write s (readAt s.mem as)
      | (s, .fault st det) => .fault s st det
      | (s, .away hs) =>
        (match s.askHomes vk slot (fun t p b => .copyRead t p eb b) hs with
         | (s, ids) => .ask s ids none false)

/-- Words that elements after p still write, for FB. -/
def laterWords (r : Running) (p : Nat) : List Nat :=
  if ctlFb r.entry then
    let dst := layoutOfWords r.dst
    let eb := recEb r.record
    (List.range (r.total - p)).flatMap (fun i =>
      let c := ((recDo r.record).zip (coords (recExt r.record) (p + i))).map (fun x => x.1 + x.2)
      relWords dst (dst.offset eb c) eb)
  else []

/-- Up to n elements of the copy in progress. -/
def State.copyElements (s : State) (vk : Nat) (mc : Bool) (rd : BitVec 5) : Nat → Running → State
  | 0, r => s.setRun vk 2 r
  | n + 1, r =>
    if r.total ≤ r.pos then s.setRun vk 2 { r with finished := true }
    else match s.copyElement vk r mc (laterWords r (r.pos + 1)) with
      | .wait => s
      | .ask s ids got sent => s.setRun vk 2 { r with asked := ids, got := got, sent := sent }
      | .fault s st det =>
        ((s.copyProgress vk r.entry rd r.pos r.total).setRun vk 2 { r with fault := some (st, BitVec.ofNat 64 det), finished := true }).updVc vk
          (fun v => { v with queue := FMap.set v.queue 2 ((v.queueOf 2).map (fun q => { q with cancelled := true })) })
      | .done s =>
        let r := { r with pos := r.pos + 1, count := r.count + 1, got := none, sent := false, finished := r.total == r.pos + 1 }
        (s.copyProgress vk r.entry rd r.pos r.total).copyElements vk mc rd n r

/-- A message of the copy in progress is answered: bad, with error bits; bs, what was read. -/
def State.copyAnswer (s : State) (vk id : Nat) (bad : Bool) (bs : Option Word) : State :=
  match (s.vc vk).runOf 2 with
  | none => s
  | some r =>
    if !r.asked.contains id then s
    else s.setRun vk 2 { r with
      asked := r.asked.erase id, refused := r.refused || bad,
      got := match bs with
        | some w => some (bytesOf w.toNat (recEb r.record))
        | none => r.got }

/-- The copy in progress is between two elements, or its element only waits for homes that are absent (R222). -/
def VCore.copyBoundary (v : VCore) (r : Running) : Bool :=
  !r.refused && (if r.asked.isEmpty then !r.sent else r.asked.all (fun id => v.kept.any (fun k => k.msg.body.number == id)))

/-- The start of a copy (R220): its record, entries, progress and banks. -/
def State.copyBegin (s : State) (vk : Nat) (q : QEntry) (rd : BitVec 5) : Running :=
  let v := s.vc vk
  let rec_ := wordsOfBytes (s.slotBytes vk (q.ra.getD 0) 0 104)
  let src := v.layoutWords (bits q.op 5 0)
  let dst := v.layoutWords (bits q.op 13 8)
  let p := ((s.slot (slotKey vk q.slot)).readX rd).toNat
  let r : Running := { entry := q, record := rec_, src := src, dst := dst, pos := p,
                       total := product (recExt rec_), banks := s.vcs.map (fun p => (p.1, p.2.bank)) }
  if recMalformed rec_ then { r with fault := some (1, 0), finished := true }
  else if !(boxInside (layoutOfWords src) (recSo rec_) (recExt rec_) &&
      boxInside (layoutOfWords dst) (recDo rec_) (recExt rec_)) then { r with fault := some (2, 0), finished := true }
  else { r with finished := r.total ≤ p }

def State.copyCanStart (s : State) (vk : Nat) : Bool :=
  let v := s.vc vk
  match v.runOf 2 with
  | some r => !r.finished && r.fault.isNone &&
    (!v.frozen || !v.copyBoundary r || v.holds.any (fun h => h.kind == .quiesce))
  | none => !v.frozen && s.serves vk 2 && (match v.queueOf 2 with
    | q :: _ => !q.cancelled && decide (1 ≤ (s.ring vk (q.ra.getD 0)).fill)
    | [] => false)

/-- COPY_ENGINE_START of virtual core ev.key: the next copy starts; one in progress moves ev.ix elements (0: all that are
left); a frozen one only completes its element, and a QUIESCE lets it run on (R222). -/
def execCopyEngineStart (s : State) : Out :=
  let vk := s.ev.key
  .next (if s.copyCanStart vk then
      match (s.vc vk).runOf 2, (s.vc vk).queueOf 2 with
      | some r, _ =>
        (match copyFields r.entry with
         | some (mc, _, rd) => s.copyElements vk mc rd (if s.ev.ix == 0 then r.total - r.pos else s.ev.ix) r
         | none => s)
      | none, q :: _ =>
        (match copyFields q with
         | some (_, _, rd) =>
           let r := s.copyBegin vk q rd
           let t := (s.popQueue vk 2).setRun vk 2 r
           if r.fault.isSome then
             (t.copyProgress vk q rd r.pos r.total).updVc vk
               (fun v => { v with queue := FMap.set v.queue 2 ((v.queueOf 2).map (fun q => { q with cancelled := true })) })
           else t
         | none => s)
      | none, [] => s
    else s)

/-- The copy event record (Table 08.11). -/
def copyRecord (q : QEntry) (mc : Bool) (status count pos : Nat) : Word × Word :=
  (BitVec.ofNat 64 (pack [(0, if mc then 0x11 else 0x10), (8, 2), (12, status), (16, ctlTag q), (32, count % 2 ^ 32)]),
   BitVec.ofNat 64 pos)

/-- The copy at the head of the engine that may complete: the one in progress, or a cancelled one; with its status. -/
def VCore.copyDone (v : VCore) : Option (QEntry × Nat × Nat × Nat) :=
  match v.runOf 2, v.queueOf 2 with
  | some r, _ => if r.finished && r.fault.isNone then some (r.entry, 0, r.count, r.pos) else none
  | none, q :: _ => if q.cancelled then some (q, 7, 0, 0) else none
  | none, [] => none

def State.copyCanEnd (s : State) (vk : Nat) : Bool :=
  match (s.vc vk).copyDone with
  | some (q, _, _, _) => !ctlEv q || s.eventRoom vk 16 != some false
  | none => false

/-- COPY_COMPLETE of virtual core ev.key. A cancelled copy reports the progress its registers hold. -/
def execCopyComplete (s : State) : Out :=
  let vk := s.ev.key
  .next (match s.copyCanEnd vk, (s.vc vk).copyDone with
    | true, some (q, st, count, pos) =>
      (match copyFields q with
       | some (mc, n, rd) =>
         let pos := if st == 7 then ((s.slot (slotKey vk q.slot)).readX rd).toNat else pos
         let w := copyRecord q mc st count pos
         let s := if st == 0 && !n then s.advHead vk (q.ra.getD 0) 1 else s
         let s := if ctlEv q then s.postEvent vk w.1 w.2 else s
         let s := if st == 7 then s.popQueue vk 2 else s.endRun vk 2 q
         s.acked vk q.id 0 false
       | none => s)
    | _, _ => s)

def State.copyFaulted (s : State) (vk : Nat) : Bool :=
  match (s.vc vk).runOf 2 with
  | some r => r.fault.isSome && s.eventRoom vk 16 != some false
  | none => false

/-- COPY_FAULT of virtual core ev.key (R221). Without a usable event ring the record goes to the supervisor mailbox (R26). A later
segment fault of a slot that still has one pending replaces its mtval (DESIGN CHOICE, log entry 81). -/
def execCopyFault (s : State) : Out :=
  let vk := s.ev.key
  .next (match s.copyFaulted vk, (s.vc vk).runOf 2 with
    | true, some r =>
      (match copyFields r.entry, r.fault with
       | some (mc, _, _), some (st, det) =>
         let q := r.entry
         let w := copyRecord q mc st r.count r.pos
         let s := if s.eventRoom vk 16 == some true then s.postEvent vk w.1 w.2
           else s.mail vk 4 q.slot q.pc w.1 w.2 []
         let s := match st, FMap.get? (s.vc vk).binds 2 with
           | 3, some j => s.updSlot (slotKey vk j) (fun sl => ({ sl with p30 := some det }).nudge (s.cycOf vk))
           | _, _ => s
         (s.endRun vk 2 q).acked vk q.id 0 false
       | _, _ => s)
    | _, _ => s)

/-! Acceptance (R219). -/

/-- RZ bits of the control word. -/
def ctlRzOk (w : Word) : Bool := (w &&& 0xFFFF000000FCC0C0) == 0

def State.acceptCopy (s : State) (i : Instr) (mc : Bool) (rs1 : BitVec 5) (h : Handle) : Accept :=
  let w := s.x rs1
  let grp := bits w 31 24
  let bad := Accept.fault 2 ((insnWord i).setWidth 64)
  match s.handle? h .consumer (feeds 2) with
  | none => .fault 25 (rp0 h.toNat 0)
  | some ix =>
    let dst := layoutOfWords (s.myVc.layoutWords (bits w 13 8))
    if (s.ring s.vk ix).size < 104 then .fault 25 (rp0 h.toNat 0)
    else if !ctlRzOk w || (!mc && grp != 0) then bad
    else if mc && !s.inGroup s.vk grp then .fault 25 (rp3 grp 0)
    else if mc && !(dst.space == 1 && s.ownNode dst.node) then bad
    else
      let n := s.freshId
      let q := { s.newEntry i with ra := some ix, na := 1, op := w, id := n.1 }
      match n.2.takeIn 2 q 0 0 0 id with
      | .ok t => .ok (t.updMyVc (fun v => { v with unacked := v.unacked ++
          [{ id := n.1, slot := s.ix, dests := s.copyDests s.vk q mc, copy := true }] }))
      | a => a


end Sys2Proof.Machine
end

