-- ==== Sys2Proof/Machine/Wenq.lean ====
section
/-! DEFINITION. Write with enqueue (R214). -/

namespace Sys2Proof.Machine

def wpfBit : BitVec 16 := 16
def wquBit : BitVec 16 := 32

/-! The target word (Table 08.7). -/

def tgtIx (w : Word) : Nat := bits w 5 0
def tgtHbm (w : Word) : Bool := bit w 63
def tgtRzOk (w : Word) : Bool :=
  bits w 23 6 == 0 && bits w 62 60 == 0 && (!tgtHbm w || bits w 59 24 == 0)

/-- Where a target word leads. -/
def State.wenqDest (s : State) (vk : Nat) (w : Word) : Dest :=
  let v := s.vc vk
  if tgtHbm w then .memory
  else if s.ownNode (bits w 59 40) then .vc (vkey v.gid (bits w 39 24))
  else .farVc (bits w 59 40) (s.gang v.gid).job (bits w 39 24)

def State.acceptWenq (s : State) (i : Instr) (h : Handle) (rs1 : BitVec 5) (bt : Nat) : Accept :=
  let w := s.x rs1
  match s.handle? h .consumer (feeds 3) with
  | none => .fault 25 (rp0 h.toNat 0)
  | some ix =>
    if !tgtRzOk w || (tgtHbm w && s.me.mode == .u) then .fault 2 ((insnWord i).setWidth 64)
    else
      let n := s.freshId
      let d := s.wenqDest s.vk w
      match n.2.takeIn 3 { s.newEntry i with ra := some ix, na := 1, op := w, id := n.1, nb := bt } 0 0 0 id with
      | .ok t => .ok (t.updMyVc (fun v => { v with unacked := v.unacked ++ [{ id := n.1, slot := s.ix, dests := [d], bt := bt }] }))
      | a => a


/-- N and bt of an entry. -/
def wenqFields (q : QEntry) : Option (Bool × Nat) :=
  match decode q.word with
  | .ok (.wenq n _ _ bt) => some (n, bt.toNat)
  | _ => none

/-- The WENQ in progress ends with these error bits: the batch records them, or the head slot is claimed. -/
def State.endWenq (s : State) (vk : Nat) (q : QEntry) (e : BitVec 16) : State :=
  match wenqFields q with
  | none => s
  | some (n, bt) =>
    let s := if e != 0 then s.updVc vk (fun v => v.addBits bt (v.batches.getD bt {}).epoch e)
      else if n then s else s.advHead vk (q.ra.getD 0) 1
    (s.endRun vk 3 q).acked vk q.id 0 false

/-- The payload: the head slot. -/
def State.payload (s : State) (vk : Nat) (q : QEntry) : List Byte :=
  let ix := q.ra.getD 0
  s.slotBytes vk ix 0 (s.ring vk ix).size

/-- The addresses of bytes from va on as far as they translate, and the first that does not. -/
def State.translateUpTo (s : State) (die fn va : Nat) (need : Need) (u : TlbAt) : Nat → State × List Nat × Option Nat
  | 0 => (s, [], none)
  | n + 1 =>
    match s.translate die fn va need u with
    | none => (s.readFailed, [], some va)
    | some (t, a) => match t.translateUpTo die fn (va + 1) need u n with
      | (u, l, e) => (u, a :: l, e)

/-- An enqueue to an HBM queue: the new state, and the error bit with the faulting address. -/
def State.hbmEnqueue (s : State) (vk : Nat) (q : QEntry) : State × Option (BitVec 16 × Nat) :=
  let l := layoutOfWords ((s.vc vk).layoutWords (tgtIx q.op))
  let die := s.dieOf vk
  let fn := (s.gang (s.vc vk).gid).func
  let bs := s.payload vk q
  let count := 2 ^ l.lgs.getD 0 0
  let size := l.strides.getD 0 0 * 2 ^ l.sscale
  if l.space != 3 || size < bs.length then (s, some (wquBit, 0))
  else match s.readVaWords die fn (l.base + 8) 1 (.micro (s.coreOf vk)) with
    | none => (s.readFailed, some (wpfBit, l.base + 8))
    | some (s, t) =>
      let tail := (t.headD 0).toNat
      match s.translateUpTo die fn (l.base + 16 + tail % count * size) .write (.micro (s.coreOf vk)) bs.length with
      | (s, as, e) =>
        let s := { s with mem := writeAt s.mem as bs }
        match e with
        | some va => (s, some (wpfBit, va))
        | none => match s.writeVa die fn (l.base + 8) (bytesOf (tail + 1) 8) (.micro (s.coreOf vk)) with
          | some s => (s, none)
          | none => (s, some (wpfBit, l.base + 8))

def State.wenqCanStep (s : State) (vk : Nat) : Bool :=
  let v := s.vc vk
  (v.runOf 3).isNone && !v.frozen && s.serves vk 3 && (match v.queueOf 3 with
    | q :: _ => decide (1 ≤ (s.ring vk (q.ra.getD 0)).fill)
    | [] => false)

/-- The engine takes the WENQ at the head of its queue: a payload for a ring leaves, one for an HBM queue is written. -/
def State.wenqStep (s : State) (vk : Nat) : State :=
  match s.wenqCanStep vk, (s.vc vk).queueOf 3 with
  | true, q :: _ =>
    let s := s.popQueue vk 3
    if tgtHbm q.op then
      match (s.setRun vk 3 { entry := q }).hbmEnqueue vk q with
      | (s, none) => s.endWenq vk q 0
      | (s, some (e, va)) =>
        let s := if e == wpfBit then s.mail vk 3 q.slot q.pc q.op (BitVec.ofNat 64 va) [] else s
        s.endWenq vk q e
    else
      let dst := (((s.vc vk).unacked.find? (fun a => a.id == q.id)).bind (fun a => a.dests.head?)).getD .memory
      (s.setRun vk 3 { entry := q, sent := true }).send {
        src := .vc vk, dst := dst, net := .request,
        body := .enqueue { id := q.id, slot := q.slot, bt := q.nb } (tgtIx q.op) (s.payload vk q) }
  | _, _ => s

/-- Why a ring cannot take a payload: WQU when it never can. -/
def State.wenqUsable (s : State) (vk ix n : Nat) : Bool :=
  let r := s.ring vk ix
  r.valid && r.kind == 0 && n ≤ r.size

def State.wenqRoom (s : State) (vk ix : Nat) : Bool := decide ((s.ring vk ix).fill < (s.ring vk ix).count)

/-- The payload written into the slot at the tail, then the tail advanced. -/
def State.wenqPut (s : State) (vk ix : Nat) (bs : List Byte) : State :=
  (s.land (s.ringAddr vk ix (s.ring vk ix).tail) bs).advTail vk ix 1

/-- The payloads of the frozen virtual core that wait at their targets, or at their source for an absent one, are withdrawn, and the WENQ is
unstarted again (R351). -/
def State.withdrawWenq (s : State) (vk : Nat) : State :=
  match (s.vc vk).runOf 3 with
  | none => s
  | some r =>
    let mine := fun (h : Held) => h.enq && h.msg.src == .vc vk
    let kept := fun (k : Kept) => (match k.msg.body with
      | .enqueue _ _ _ => true
      | _ => false)
    if s.vcs.any (fun (p : Nat × VCore) => p.2.holdQ.any mine) || (s.vc vk).kept.any kept then
      ({ s with vcs := s.vcs.map (fun (p : Nat × VCore) => (p.1, { p.2 with holdQ := p.2.holdQ.filter (fun h => !mine h) })) }).updVc vk
        (fun v => { v with
          kept := v.kept.filter (fun k => !kept k), run := FMap.del v.run 3, queue := FMap.set v.queue 3 (r.entry :: v.queueOf 3) })
    else s

/-- The arrival of a payload at a virtual core that is there. -/
def State.wenqArrive (s : State) (m : Msg) (vk id slot ix : Nat) (bs : List Byte) : State :=
  if !s.wenqUsable vk ix bs.length then s.answer m.dst m.src (.ack id slot wquBit false)
  else if s.wenqRoom vk ix then (s.wenqPut vk ix bs).answer m.dst m.src (.ack id slot 0 false)
  else if 32 ≤ (s.vc vk).holdQ.length then s.sendBack m (.refusal m.body)
  else
    let s := s.updVc vk (fun v => { v with holdQ := v.holdQ ++ [{ msg := m, enq := true }] })
    match m.src with
    | .vc k => if (s.vc k).frozen then s.withdrawWenq k else s
    | _ => s

/-- A held payload that its ring can take, or can never take any more. -/
def State.heldEnqueue (s : State) (vk : Nat) (h : Held) : Option State :=
  match h.enq, h.msg.body with
  | true, .enqueue t ix bs =>
    if !s.wenqUsable vk ix bs.length then some (s.answer h.msg.dst h.msg.src (.ack t.id t.slot wquBit false))
    else if s.wenqRoom vk ix then some ((s.wenqPut vk ix bs).answer h.msg.dst h.msg.src (.ack t.id t.slot 0 false))
    else none
  | _, _ => none

end Sys2Proof.Machine
end

