-- ==== Sys2Proof/Machine/Control.lean ====
section
/-! DEFINITION. Control of a virtual core: freezing its engines (R240), holding and releasing it (R232, R328, R354, R362),
the migrate trap and MIGR (R238, R328), QSCE (R237), MRET (R245, R355). -/

namespace Sys2Proof.Machine

/-! Freezing: the instruction in progress completes, a copy stops at an element boundary, and what only waits for ring
slots is not in progress (R351). -/

/-- What the operation in progress needs for its next part is there. -/
def State.engineReady (s : State) (vk e : Nat) (q : QEntry) : Bool :=
  match e with
  | 0 => s.matrixReady vk q
  | 1 => s.vectorReady vk q
  | _ => false

/-- The operation is not in progress. A copy stops between two elements; a QUIESCE completes it (R222,
R362). -/
def State.stopped (s : State) (vk e : Nat) (r : Running) : Bool :=
  !r.finished && !s.engineReady vk e r.entry &&
    (if e == 2 then (s.vc vk).copyBoundary r && !(s.vc vk).holds.any (fun h => h.kind == .quiesce) else !r.sent)

/-- The engines of a virtual core are frozen: operations not in progress are the first entries of their queues again. An
MMA keeps the flags it has raised so far (R153). Messages of a copy that absent homes turned back go with it. -/
def State.freeze (s : State) (vk : Nat) : State :=
  let v := s.vc vk
  let back := v.run.filter (fun p => s.stopped vk p.1 p.2)
  let asked := back.flatMap (fun p => p.2.asked)
  (s.updVc vk (fun v => { v with
    frozen := true,
    kept := v.kept.filter (fun k => !asked.contains k.msg.body.number),
    run := v.run.filter (fun p => !s.stopped vk p.1 p.2),
    queue := back.foldl (fun q p => FMap.set q p.1 ({ p.2.entry with raised := p.2.flags } :: FMap.getD q p.1 [])) v.queue })).withdrawWenq vk

/-- Nothing of a virtual core is in progress in its frozen engines, and every cancelled copy has completed (R221). -/
def State.engineIdle (s : State) (vk : Nat) : Bool :=
  let v := s.vc vk
  v.frozen && v.run.all (fun p => s.stopped vk p.1 p.2) && !(v.queue.any (fun p => p.2.any QEntry.cancelled))

/-! Holds. -/

/-- Holds that freeze the engines; a save leaves them to CTXSAV (R354). -/
def HoldReq.freezes (h : HoldReq) : Bool := h.kind != .preempt

/-- The engines freeze once every slot is held, so that a slot held on a full queue and a REPF complete before (R45, R126, R232, R328;
DEDUCED, log entry 84). -/
def State.freezeHeld (s : State) (vk : Nat) : State :=
  let v := s.vc vk
  if !v.holds.isEmpty && !v.frozen && v.holds.any HoldReq.freezes && s.allHeld vk then s.freeze vk else s

/-- The hold that takes a slot which is not at its turn, if one does. -/
def heldBy (holds : List HoldReq) (key : Nat) (sl : Slot) : Option (HoldReq × Slot) :=
  holds.findSome? (fun h =>
    if h.qsce || (h.kind == .preempt && key % 16 == h.slot) then none else (sl.heldNow h).map (fun t => (h, t)))

/-- Every slot that a hold can take now is taken, and the engines freeze once all slots are held. -/
def State.sweep (s : State) (vk : Nat) : State :=
  ((s.slotsOf vk).foldl (fun t key =>
    match heldBy (t.vc vk).holds key (t.slot key) with
    | some (h, sl) =>
      let t := if h.saves then t.dropSigWait vk (key % 16) else t
      t.seize key sl h
    | none => t) s).freezeHeld vk

/-- A hold is asked for: what can be taken at once is taken, the rest at its turn. A slot that another hold has taken before has its
record written by a pre-emption at once. -/
def State.askHold (s : State) (vk : Nat) (h : HoldReq) : State :=
  let s := s.updVc vk (fun v => { v with holds := v.holds ++ [h] })
  let s := s.sweep vk
  if h.kind == .preempt then
    ((s.slotsOf vk).filter (fun k => (s.slot k).st == .trapped && k % 16 != h.slot)).foldl
      (fun t k => t.writeSlotRecord k) s
  else s

/-- A hold of a kind is complete. -/
def State.heldFor (s : State) (vk : Nat) (k : TrapKind) : Bool :=
  (s.vc vk).holds.any (fun h => h.kind == k) && s.allHeld vk && (s.vc vk).forks.isEmpty && s.engineIdle vk

/-- The holds that are left: engines stay frozen for CTXSAV, or for a hold that still takes every slot. -/
def VCore.withHolds (v : VCore) (rest : List HoldReq) : VCore :=
  { v with holds := rest, frozen := v.ctxFrozen || (v.frozen && rest.any (fun h => h.freezes && !h.qsce)) }

/-- The holds of a kind end: its slots return to ISSUING at a boundary after now (R43), unless another hold takes them over,
and the engines run on unless CTXSAV or another hold keeps them frozen. -/
def State.releaseHold (s : State) (vk : Nat) (k : TrapKind) : State :=
  let rest := (s.vc vk).holds.filter (fun h => h.kind != k)
  let s := s.updVc vk (fun v => v.withHolds rest)
  s.mapSlots (fun key sl =>
    if key / 16 == vk && sl.st == .trapped && sl.trap == some k then
      match rest.find? (fun h => !h.qsce && !(h.kind == .preempt && key % 16 == h.slot)) with
      | some h => { sl with trap := some h.kind }
      | none => { sl with wakeAt := some (s.cycOf vk + 1) }
    else sl)

/-! Leaving for an F-die. -/

/-- A move is asked for by the current slot, which is TRAPPED now (R328). -/
def State.askMove (s : State) (status : Nat) (rd : BitVec 5) (want : Option Nat) : State :=
  let s := s.updMe (fun sl => sl.seize .migrate)
  let s := (s.updMyVc (fun v => { v with move := some {
    src := s.coreOf s.vk, status := status, rd := rd.toNat, wantDie := want, queuedAt := s.now, base := v.base } })).askHold s.vk
      { kind := .migrate, slot := s.ix }
  match s.moveTarget s.vk want with
  | some g => s.startMove s.vk g
  | none => s.enqueueMove s.vk

/-- The migrate trap (R244): mcause, mepc and mtval are written, the mode stays. -/
def State.migrateTrap (s : State) (w : InsnWord) : State :=
  (s.updMe (fun sl => { sl with mcause := 24, mepc := sl.pc, mtval := w.setWidth 64, resv := none })).askMove 0 0 none

/-- MIGR (R238). A slot that has come back from its move completes it with 0. -/
def execMigr (rd rs1 : XReg) (s : State) : Out :=
  let t := s.x rs1
  let die := s.dieOf s.vk
  .next (if s.me.mode == .m || !(t.toNat < 4 || t.toNat == 8) then s.illegalI (.migr rd rs1)
    else if (t.toNat == 8 && isF die) || (t.toNat < 4 && die == t.toNat) then s.result rd 1
    else s.askMove 1 rd (if t.toNat == 8 then none else some t.toNat))

/-- QSCE (R237, R232): the slot enters TRAPPED with pc past it when a hold waits for quiesce points. -/
def execQsce (s : State) : Out :=
  let t := s.retire
  .next (match s.me.mode, s.myVc.holds.find? (fun h => h.qsce) with
    | .u, some h => (t.updMe (fun sl => sl.seize h.kind)).sweep s.vk
    | _, _ => t)

/-- MRET; of the slot that took PRE it declines the save, and the siblings are released (R355). -/
def execMret (s : State) : Out :=
  .next (if s.me.mode == .m then
      let t := s.updMe (fun sl => { sl.leave with minstret := sl.minstret + 1, hold := none })
      if s.myVc.lead == some s.ix then
        (t.updMyVc (fun v => { v with lead := none, saveOk := false })).releaseHold s.vk .preempt
      else t
    else s.illegalI .mret)

/-! Engine instructions at their slot's turn. -/

def tgtIsFonly (g : CvtTgt) (t : VType) : Bool := tgtIsD g || t == .d

/-- F-only encodings (Table 01.12). -/
def fOnly (i : Instr) : Bool :=
  match i with
  | .mma f _ _ _ _ _ _ _ => fmtIsD f
  | .mmaN f _ _ _ _ _ _ _ => fmtIsD f
  | .vexp2X _ _ _ => true
  | .vlog2X _ _ _ => true
  | .vcvt _ _ _ g t _ _ => tgtIsFonly g t
  | _ => match vecArgs i with
    | some x => x.t == .d
    | none => false

/-- Engine of an engine instruction: the whole W group, COPY, COPYMC and WENQ (Table 02.12). -/
def engineOf (i : Instr) : Option Nat :=
  match i with
  | .mcfg _ _ => some 0
  | .mzero _ => some 0
  | .mload _ _ _ => some 0
  | .mout _ _ _ _ => some 0
  | .wpset _ _ => some 0
  | .wpget _ _ => some 0
  | .wswap => some 0
  | .wswapq => some 0
  | .mma _ _ _ _ _ _ _ _ => some 0
  | .mmaN _ _ _ _ _ _ _ _ => some 0
  | .copy _ _ _ _ => some 2
  | .copymc _ _ _ _ => some 2
  | .wenq _ _ _ _ => some 3
  | _ => if (vecArgs i).isSome then some 1 else none

/-- Checks 5 and 6 of Table 02.12 for the current slot: an F-only encoding on an L-die, an engine the slot is not bound
to. -/
inductive EngineFate where
  | present
  | migrate
  | illegal
  | unbound (e : Nat)
  deriving DecidableEq, Repr

def State.engineFate (s : State) (i : Instr) : EngineFate :=
  if fOnly i && !isF (s.dieOf s.vk) then (if s.me.mode == .u then .migrate else .illegal)
  else match engineOf i with
    | some e => if FMap.get? s.myVc.binds e == some s.ix then .present else .unbound e
    | none => .present

/-- The current slot is no longer held on a full queue. -/
def State.unheld (s : State) : State := s.updMe (fun sl => { sl with hold := none })

/-- An engine instruction at its slot's turn (R71, R149, R151): a fault traps, a full queue holds the slot, an operand wait
parks it. -/
def State.present (s : State) (i : Instr) (a : Accept) : State :=
  match s.engineFate i with
  | .migrate => s.unheld.migrateTrap (insnWord i)
  | .illegal => s.illegalI i
  | .unbound e => s.trap 29 (BitVec.ofNat 64 e)
  | .present =>
    match a with
    | .fault c t => s.trap c t
    | .full => s.updMe (fun sl => { sl with hold := some .engine })
    | .wait r room => s.unheld.parkOn (.engineRing ((engineOf i).getD 0) r room)
    | .ok t => t.retire

end Sys2Proof.Machine
end

