-- ==== Sys2Proof/Machine/LoadStore.lean ====
section
/-! DEFINITION. Scalar loads and stores, LR/SC and the AMOs: local LM only (R87 to R92). -/

namespace Sys2Proof.Machine

/-- A load of n bytes: ext makes the register value of the number read. -/
def State.load (s : State) (rd rs1 : BitVec 5) (imm : BitVec 12) (n : Nat) (ext : Nat → Word) : State :=
  s.lm (s.x rs1 + sext12 imm) n false (fun a => s.result rd (ext (Memory.readN s.mem a n)))

/-- A store of n bytes of v. -/
def State.store (s : State) (rs1 : BitVec 5) (imm : BitVec 12) (n : Nat) (v : Word) : State :=
  s.lm (s.x rs1 + sext12 imm) n true (fun a => (s.storeLm a v.toNat n).retire)

/-- Sign extension of an n-bit number. -/
def sextN (n v : Nat) : Word := (BitVec.ofNat n v).signExtend 64

def execLb (rd rs1 : XReg) (imm : BitVec 12) (s : State) : Out := .next (s.load rd rs1 imm 1 (sextN 8))
def execLh (rd rs1 : XReg) (imm : BitVec 12) (s : State) : Out := .next (s.load rd rs1 imm 2 (sextN 16))
def execLw (rd rs1 : XReg) (imm : BitVec 12) (s : State) : Out := .next (s.load rd rs1 imm 4 (sextN 32))
def execLd (rd rs1 : XReg) (imm : BitVec 12) (s : State) : Out := .next (s.load rd rs1 imm 8 (BitVec.ofNat 64))
def execLbu (rd rs1 : XReg) (imm : BitVec 12) (s : State) : Out := .next (s.load rd rs1 imm 1 (BitVec.ofNat 64))
def execLhu (rd rs1 : XReg) (imm : BitVec 12) (s : State) : Out := .next (s.load rd rs1 imm 2 (BitVec.ofNat 64))
def execLwu (rd rs1 : XReg) (imm : BitVec 12) (s : State) : Out := .next (s.load rd rs1 imm 4 (BitVec.ofNat 64))

def execSb (rs2 rs1 : XReg) (imm : BitVec 12) (s : State) : Out := .next (s.store rs1 imm 1 (s.x rs2))
def execSh (rs2 rs1 : XReg) (imm : BitVec 12) (s : State) : Out := .next (s.store rs1 imm 2 (s.x rs2))
def execSw (rs2 rs1 : XReg) (imm : BitVec 12) (s : State) : Out := .next (s.store rs1 imm 4 (s.x rs2))
def execSd (rs2 rs1 : XReg) (imm : BitVec 12) (s : State) : Out := .next (s.store rs1 imm 8 (s.x rs2))

/-! LR, SC and the AMOs: natural alignment comes before the check of R31 (R88, R101); aq and rl order nothing (R92). -/

def widthBytes : Width → Nat
  | .w => 4
  | .d => 8

/-- The old word as a register value. -/
def widthExt : Width → Nat → Word
  | .w => sextN 32
  | .d => BitVec.ofNat 64

/-- The 8-byte word that holds a. -/
def wordOf (a : Nat) : Nat := a / 8 * 8

def execLr (_aq _rl : Bool) (wd : Width) (rd rs1 : XReg) (s : State) : Out :=
  let ea := s.x rs1
  .next (if ea.toNat % widthBytes wd ≠ 0 then s.trap 4 ea
    else s.lm ea (widthBytes wd) false (fun a =>
      (s.updMe (fun sl => { sl with resv := some (wordOf a) })).result rd (widthExt wd (Memory.readN s.mem a (widthBytes wd)))))

/-- SC: it succeeds only on the reserved word, and clears the reservation either way (R91). -/
def execSc (_aq _rl : Bool) (wd : Width) (rd rs2 rs1 : XReg) (s : State) : Out :=
  let ea := s.x rs1
  .next (if ea.toNat % widthBytes wd ≠ 0 then s.trap 6 ea
    else s.lm ea (widthBytes wd) true (fun a =>
      let free := fun (t : State) => t.updMe (fun sl => { sl with resv := none })
      if s.me.resv == some (wordOf a) then
        (free (s.storeLm a (s.x rs2).toNat (widthBytes wd))).result rd 0
      else (free s).result rd 1))

/-- An AMO: op takes the old value and rs2, both at the access width. -/
def State.amo (s : State) (wd : Width) (rd rs2 rs1 : BitVec 5) (op : (n : Nat) → BitVec n → BitVec n → BitVec n) :
    State :=
  let ea := s.x rs1
  if ea.toNat % widthBytes wd ≠ 0 then s.trap 6 ea
  else s.lm ea (widthBytes wd) true (fun a =>
    let n := 8 * widthBytes wd
    let old := Memory.readN s.mem a (widthBytes wd)
    let new := op n (BitVec.ofNat n old) ((s.x rs2).setWidth n)
    (s.storeLm a new.toNat (widthBytes wd)).result rd (widthExt wd old))

def execAmoswap (_aq _rl : Bool) (wd : Width) (rd rs2 rs1 : XReg) (s : State) : Out :=
  .next (s.amo wd rd rs2 rs1 (fun _ _ b => b))
def execAmoadd (_aq _rl : Bool) (wd : Width) (rd rs2 rs1 : XReg) (s : State) : Out :=
  .next (s.amo wd rd rs2 rs1 (fun _ a b => a + b))
def execAmoxor (_aq _rl : Bool) (wd : Width) (rd rs2 rs1 : XReg) (s : State) : Out :=
  .next (s.amo wd rd rs2 rs1 (fun _ a b => a ^^^ b))
def execAmoand (_aq _rl : Bool) (wd : Width) (rd rs2 rs1 : XReg) (s : State) : Out :=
  .next (s.amo wd rd rs2 rs1 (fun _ a b => a &&& b))
def execAmoor (_aq _rl : Bool) (wd : Width) (rd rs2 rs1 : XReg) (s : State) : Out :=
  .next (s.amo wd rd rs2 rs1 (fun _ a b => a ||| b))
def execAmomin (_aq _rl : Bool) (wd : Width) (rd rs2 rs1 : XReg) (s : State) : Out :=
  .next (s.amo wd rd rs2 rs1 (fun _ a b => if a.slt b then a else b))
def execAmomax (_aq _rl : Bool) (wd : Width) (rd rs2 rs1 : XReg) (s : State) : Out :=
  .next (s.amo wd rd rs2 rs1 (fun _ a b => if a.slt b then b else a))
def execAmominu (_aq _rl : Bool) (wd : Width) (rd rs2 rs1 : XReg) (s : State) : Out :=
  .next (s.amo wd rd rs2 rs1 (fun _ a b => if a.ult b then a else b))
def execAmomaxu (_aq _rl : Bool) (wd : Width) (rd rs2 rs1 : XReg) (s : State) : Out :=
  .next (s.amo wd rd rs2 rs1 (fun _ a b => if a.ult b then b else a))

end Sys2Proof.Machine
end

