-- ==== Sys2Proof/Machine/Fp.lean ====
section
/-! DEFINITION. The F and D extensions (Table 03.3, R96): the ratified text and IEEE 754-2019, canonical NaN results,
flags to fflags. -/

namespace Sys2Proof.Machine

def fpFmt : FpFmt → Fmt
  | .s => fmt32
  | .d => fmt64

/-- An operand: an .S operand that is not NaN-boxed reads as the canonical NaN (ratified text). -/
def unbox (t : FpFmt) (v : Word) : Nat :=
  match t with
  | .s => if v.toNat / 2 ^ 32 == 2 ^ 32 - 1 then v.toNat % 2 ^ 32 else fmt32.qnan
  | .d => v.toNat

/-- A result as a register value: an .S result is NaN-boxed. -/
def box (t : FpFmt) (b : Nat) : Word :=
  match t with
  | .s => BitVec.ofNat 64 (b % 2 ^ 32 + (2 ^ 32 - 1) * 2 ^ 32)
  | .d => BitVec.ofNat 64 b

def State.fp (s : State) (t : FpFmt) (r : BitVec 5) : Nat := unbox t (s.f r)

/-- Completion with an encoding in an f register and flags. -/
def State.fpResult (s : State) (t : FpFmt) (rd : BitVec 5) (r : Nat × BitVec 5) : State :=
  ((s.setF rd (box t r.1)).raise r.2).retire

/-- Completion with a value in an x register and flags. -/
def State.fpToX (s : State) (rd : BitVec 5) (r : Word × BitVec 5) : State := (s.raise r.2).result rd r.1

/-- The rounding mode of the instruction; a dynamic mode of 5 to 7 is an illegal instruction (R96). -/
def State.rounded (s : State) (i : Instr) (rm : Rm) (k : RMode → State) : State :=
  match modeOfRm rm s.me.frm with
  | some m => k m
  | none => s.illegalI i

/-- FDIV and FSQRT take 2 rotations as .S and 3 as .D (Table 03.4). -/
def fpRotations : FpFmt → Nat
  | .s => 2
  | .d => 3

def State.fpResultIn (s : State) (t : FpFmt) (rd : BitVec 5) (r : Nat × BitVec 5) : State :=
  (s.fpResult t rd r).updMe (fun sl => { sl with hold := some (.busy (fpRotations t - 1)) })

def execFlw (rd : FReg) (rs1 : XReg) (imm : BitVec 12) (s : State) : Out :=
  .next (s.lm (s.x rs1 + sext12 imm) 4 false (fun a => (s.setF rd (box .s (Memory.readN s.mem a 4))).retire))
def execFld (rd : FReg) (rs1 : XReg) (imm : BitVec 12) (s : State) : Out :=
  .next (s.lm (s.x rs1 + sext12 imm) 8 false (fun a => (s.setF rd (Memory.word s.mem a)).retire))
def execFsw (rs2 : FReg) (rs1 : XReg) (imm : BitVec 12) (s : State) : Out := .next (s.store rs1 imm 4 (s.f rs2))
def execFsd (rs2 : FReg) (rs1 : XReg) (imm : BitVec 12) (s : State) : Out := .next (s.store rs1 imm 8 (s.f rs2))

def execFmadd (t : FpFmt) (rd rs1 rs2 rs3 : FReg) (rm : Rm) (s : State) : Out :=
  .next (s.rounded (.fmadd t rd rs1 rs2 rs3 rm) rm (fun m =>
    s.fpResult t rd ((fpFmt t).fma m false false (s.fp t rs1) (s.fp t rs2) (s.fp t rs3))))
def execFmsub (t : FpFmt) (rd rs1 rs2 rs3 : FReg) (rm : Rm) (s : State) : Out :=
  .next (s.rounded (.fmsub t rd rs1 rs2 rs3 rm) rm (fun m =>
    s.fpResult t rd ((fpFmt t).fma m false true (s.fp t rs1) (s.fp t rs2) (s.fp t rs3))))
def execFnmsub (t : FpFmt) (rd rs1 rs2 rs3 : FReg) (rm : Rm) (s : State) : Out :=
  .next (s.rounded (.fnmsub t rd rs1 rs2 rs3 rm) rm (fun m =>
    s.fpResult t rd ((fpFmt t).fma m true false (s.fp t rs1) (s.fp t rs2) (s.fp t rs3))))
def execFnmadd (t : FpFmt) (rd rs1 rs2 rs3 : FReg) (rm : Rm) (s : State) : Out :=
  .next (s.rounded (.fnmadd t rd rs1 rs2 rs3 rm) rm (fun m =>
    s.fpResult t rd ((fpFmt t).fma m true true (s.fp t rs1) (s.fp t rs2) (s.fp t rs3))))

def execFadd (t : FpFmt) (rd rs1 rs2 : FReg) (rm : Rm) (s : State) : Out :=
  .next (s.rounded (.fadd t rd rs1 rs2 rm) rm (fun m =>
    s.fpResult t rd ((fpFmt t).add m (s.fp t rs1) (s.fp t rs2))))
def execFsub (t : FpFmt) (rd rs1 rs2 : FReg) (rm : Rm) (s : State) : Out :=
  .next (s.rounded (.fsub t rd rs1 rs2 rm) rm (fun m =>
    s.fpResult t rd ((fpFmt t).sub m (s.fp t rs1) (s.fp t rs2))))
def execFmul (t : FpFmt) (rd rs1 rs2 : FReg) (rm : Rm) (s : State) : Out :=
  .next (s.rounded (.fmul t rd rs1 rs2 rm) rm (fun m =>
    s.fpResult t rd ((fpFmt t).mul m (s.fp t rs1) (s.fp t rs2))))
def execFdiv (t : FpFmt) (rd rs1 rs2 : FReg) (rm : Rm) (s : State) : Out :=
  .next (s.rounded (.fdiv t rd rs1 rs2 rm) rm (fun m =>
    s.fpResultIn t rd ((fpFmt t).div m (s.fp t rs1) (s.fp t rs2))))
def execFsqrt (t : FpFmt) (rd rs1 : FReg) (rm : Rm) (s : State) : Out :=
  .next (s.rounded (.fsqrt t rd rs1 rm) rm (fun m => s.fpResultIn t rd ((fpFmt t).sqrt m (s.fp t rs1))))

/-- Sign injection: the magnitude of a with a sign. -/
def withSign (t : Fmt) (a : Nat) (neg : Bool) : Nat := t.sign neg (a % 2 ^ (t.E + t.M))
def signBit (t : Fmt) (a : Nat) : Bool := a / 2 ^ (t.E + t.M) % 2 == 1

def execFsgnj (t : FpFmt) (rd rs1 rs2 : FReg) (s : State) : Out :=
  .next (s.fpResult t rd (withSign (fpFmt t) (s.fp t rs1) (signBit (fpFmt t) (s.fp t rs2)), 0))
def execFsgnjn (t : FpFmt) (rd rs1 rs2 : FReg) (s : State) : Out :=
  .next (s.fpResult t rd (withSign (fpFmt t) (s.fp t rs1) (!signBit (fpFmt t) (s.fp t rs2)), 0))
def execFsgnjx (t : FpFmt) (rd rs1 rs2 : FReg) (s : State) : Out :=
  .next (s.fpResult t rd
    (withSign (fpFmt t) (s.fp t rs1) (signBit (fpFmt t) (s.fp t rs1) != signBit (fpFmt t) (s.fp t rs2)), 0))
def execFmin (t : FpFmt) (rd rs1 rs2 : FReg) (s : State) : Out :=
  .next (s.fpResult t rd ((fpFmt t).minmax false (s.fp t rs1) (s.fp t rs2)))
def execFmax (t : FpFmt) (rd rs1 rs2 : FReg) (s : State) : Out :=
  .next (s.fpResult t rd ((fpFmt t).minmax true (s.fp t rs1) (s.fp t rs2)))

/-- Conversion between two float formats as an arithmetic operation. -/
def convertFp (src dst : Fmt) (m : RMode) (a : Nat) : Nat × BitVec 5 := dst.roundNum m (src.value a)

def execFcvtSD (rd rs1 : FReg) (rm : Rm) (s : State) : Out :=
  .next (s.rounded (.fcvtSD rd rs1 rm) rm (fun m => s.fpResult .s rd (convertFp fmt64 fmt32 m (s.fp .d rs1))))
def execFcvtDS (rd rs1 : FReg) (rm : Rm) (s : State) : Out :=
  .next (s.rounded (.fcvtDS rd rs1 rm) rm (fun m => s.fpResult .d rd (convertFp fmt32 fmt64 m (s.fp .s rs1))))

/-- A comparison: quiet comparisons raise NV on a signalling NaN only, the others on every NaN (ratified text). -/
def fpCompare (t : Fmt) (quiet : Bool) (p : Int → Bool) (a b : Nat) : Word × BitVec 5 :=
  let x := t.value a
  let y := t.value b
  if x.isNan || y.isNan then (0, flagIf (!quiet || x.isSig || y.isSig) fNV)
  else (boolWord (p (numCmp x y)), 0)

def execFeq (t : FpFmt) (rd : XReg) (rs1 rs2 : FReg) (s : State) : Out :=
  .next (s.fpToX rd (fpCompare (fpFmt t) true (fun c => c == 0) (s.fp t rs1) (s.fp t rs2)))
def execFlt (t : FpFmt) (rd : XReg) (rs1 rs2 : FReg) (s : State) : Out :=
  .next (s.fpToX rd (fpCompare (fpFmt t) false (fun c => decide (c < 0)) (s.fp t rs1) (s.fp t rs2)))
def execFle (t : FpFmt) (rd : XReg) (rs1 rs2 : FReg) (s : State) : Out :=
  .next (s.fpToX rd (fpCompare (fpFmt t) false (fun c => decide (c ≤ 0)) (s.fp t rs1) (s.fp t rs2)))

/-- The class mask of the ratified text: bit 0 -inf, 1 negative normal, 2 negative subnormal, 3 -0, 4 +0, 5 positive
subnormal, 6 positive normal, 7 +inf, 8 signalling NaN, 9 quiet NaN. -/
def fpClass (t : Fmt) (a : Nat) : Word :=
  match t.value a with
  | .nan sig => if sig then 0x100 else 0x200
  | .inf neg => if neg then 0x001 else 0x080
  | .fin neg m _ =>
    if m == 0 then (if neg then 0x008 else 0x010)
    else if m < 2 ^ t.M then (if neg then 0x004 else 0x020)
    else (if neg then 0x002 else 0x040)

def execFclass (t : FpFmt) (rd : XReg) (rs1 : FReg) (s : State) : Out :=
  .next (s.result rd (fpClass (fpFmt t) (s.fp t rs1)))

/-- Least and greatest integer of an integer format. -/
def intRange : IntFmt → Int × Int
  | .w => (-2 ^ 31, 2 ^ 31 - 1)
  | .wu => (0, 2 ^ 32 - 1)
  | .l => (-2 ^ 63, 2 ^ 63 - 1)
  | .lu => (0, 2 ^ 64 - 1)

/-- The register value of an integer result: 32-bit results are sign-extended. -/
def intToX (v : IntFmt) (n : Int) : Word :=
  match v with
  | .w => w32 (BitVec.ofInt 32 n)
  | .wu => w32 (BitVec.ofInt 32 n)
  | .l => BitVec.ofInt 64 n
  | .lu => BitVec.ofInt 64 n

/-- Float to integer: out of range and NaN saturate with NV (ratified text). -/
def fpToInt (t : Fmt) (v : IntFmt) (m : RMode) (a : Nat) : Word × BitVec 5 :=
  let r := intRange v
  match t.value a with
  | .nan _ => (intToX v r.2, fNV)
  | .inf neg => (intToX v (if neg then r.1 else r.2), fNV)
  | .fin neg n e =>
    let q := roundInt m neg n e
    if q.1 < r.1 then (intToX v r.1, fNV)
    else if r.2 < q.1 then (intToX v r.2, fNV)
    else (intToX v q.1, flagIf q.2 fNX)

/-- The integer an x register holds as an integer format. -/
def xToInt (v : IntFmt) (x : Word) : Int :=
  match v with
  | .w => (low32 x).toInt
  | .wu => (low32 x).toNat
  | .l => x.toInt
  | .lu => x.toNat

/-- An integer rounded to a format. -/
def intToFp (t : Fmt) (m : RMode) (n : Int) : Nat × BitVec 5 := t.round m false (n < 0) n.natAbs 1 0

def execFcvtIntFromFp (t : FpFmt) (v : IntFmt) (rd : XReg) (rs1 : FReg) (rm : Rm) (s : State) : Out :=
  .next (s.rounded (.fcvtIntFromFp t v rd rs1 rm) rm (fun m => s.fpToX rd (fpToInt (fpFmt t) v m (s.fp t rs1))))
def execFcvtFpFromInt (t : FpFmt) (v : IntFmt) (rd : FReg) (rs1 : XReg) (rm : Rm) (s : State) : Out :=
  .next (s.rounded (.fcvtFpFromInt t v rd rs1 rm) rm (fun m =>
    s.fpResult t rd (intToFp (fpFmt t) m (xToInt v (s.x rs1)))))

/-- FMV.X.W moves the low 32 bits as they stand, sign-extended; FMV.X.D all 64. -/
def execFmvXFmt (t : FpFmt) (rd : XReg) (rs1 : FReg) (s : State) : Out :=
  .next (s.result rd (match t with
    | .s => sextW (s.f rs1)
    | .d => s.f rs1))
def execFmvFmtX (t : FpFmt) (rd : FReg) (rs1 : XReg) (s : State) : Out :=
  .next ((s.setF rd (box t (s.x rs1).toNat)).retire)

end Sys2Proof.Machine
end

