-- ==== Sys2Proof/Machine/Remote.lean ====
section
/-! DEFINITION. The A group's slot side: remote loads, stores and atomics, batches, fences and tokens (F08). -/

namespace Sys2Proof.Machine

/-- The pointer check of R194 before a pointer instruction. -/
def State.withPtr (s : State) (p : Word) (load : Bool) (k : State) : State :=
  match ptrCheck p load with
  | some c => s.trap c p
  | none => k

/-! Remote loads (R197). -/

/-- RLD and RLDF. A slot whose load came back with error bits presents it again and takes the trap. -/
def State.remoteLoad (s : State) (i : Instr) (rd rs1 : BitVec 5) (isF : Bool) : State :=
  match s.me.reply with
  | some p => s.trap 5 p
  | none =>
    let p := s.x rs1
    s.withPtr p true (
      let d := s.target s.vk p
      s.withRoom i (s.canSend d) (
        let n := s.freshId
        let t := n.2.updMe (fun sl => { sl with
          st := .dropped, wakeAt := none, hold := some (.load n.1 rd isF p),
          rewound := if isF && sl.rewound.any (fun q => q.2 == p) then sl.rewound else none })
        t.emit s.vk s.ix d (.load n.1 s.ix p isF)))

def execRld (rd rs1 : XReg) (s : State) : Out := .next (s.remoteLoad (.rld rd rs1) rd rs1 false)
def execRldf (rd rs1 : XReg) (s : State) : Out := .next (s.remoteLoad (.rldf rd rs1) rd rs1 true)

/-! Remote stores (R198, R199). -/

/-- Places a store needs: egress, and room among the stores counted by acknowledgement. -/
def State.storeRoom (s : State) (bt : Nat) (d : Dest) : Bool :=
  s.canSend d && !(s.wouldCount s.vk bt d && s.myVc.countedFull)

def State.remoteStore (s : State) (i : Instr) (rs2 rs1 : BitVec 5) (bt : Nat) (kind : StoreKind) : State :=
  let p := s.x rs1
  s.withPtr p false (
    let d := s.target s.vk p
    s.withRoom i (s.storeRoom bt d) (
      let n := s.issueStore bt d none
      (n.2.emit s.vk s.ix d (.store n.1 p (s.x rs2) kind none)).retire))

def execRst (rs2 rs1 : XReg) (bt : BitVec 2) (s : State) : Out :=
  .next (s.remoteStore (.rst rs2 rs1 bt) rs2 rs1 bt.toNat .plain)
def execRstf (rs2 rs1 : XReg) (bt : BitVec 2) (s : State) : Out :=
  .next (s.remoteStore (.rstf rs2 rs1 bt) rs2 rs1 bt.toNat .setFull)

/-- RSTREL: the store is kept while an earlier access of the slot within sc is not acknowledged (R203). -/
def execRstrel (sc : Scope) (rs2 rs1 : XReg) (bt : BitVec 2) (s : State) : Out :=
  let p := s.x rs1
  let i := Instr.rstrel sc rs2 rs1 bt
  .next (s.withPtr p false (
    let d := s.target s.vk p
    let before := s.fenced sc
    let room := if before.isEmpty then s.canSend d else true
    s.withRoom i (room && !(s.wouldCount s.vk bt.toNat d && s.myVc.countedFull)) (
      let n := s.issueStore bt.toNat d none
      let b := Body.store n.1 p (s.x rs2) (.release sc s.me.pc) none
      (if before.isEmpty then n.2.emit s.vk s.ix d b
       else n.2.keep s.vk s.ix d b (.release before) (((s.myVc.blocker s.ix d).map Kept.wide).getD false)).retire)))

/-! FENCE and FENCES (R93, R203). -/

def State.fenceAt (s : State) (sc : Scope) : State :=
  let ids := s.fenced sc
  match s.me.hold with
  | some (.fences _) => s
  | _ => if ids.isEmpty then s.retire else s.updMe (fun sl => { sl with hold := some (.fences ids) })

def execFences (sc : Scope) (s : State) : Out := .next (s.fenceAt sc)
def execFence (_fm pred succ : BitVec 4) (_rs1 _rd : XReg) (s : State) : Out :=
  .next (if pred == 0 || succ == 0 then s.retire else s.fenceAt .core)

/-! BCLOSE (R200, R201). -/

/-- Close requests enter egress while it has room. -/
def State.sendCloses (s : State) (vk slot : Nat) : State :=
  match (s.vc vk).closes.find? (fun c => c.slot == slot && !c.todo.isEmpty) with
  | none => s
  | some c =>
    let n := 32 - (s.core (s.coreOf vk)).egress.length
    let s := (c.todo.take n).foldl (fun t d => t.emit vk slot d (.close c.id c.bt)) s
    s.updVc vk (fun v => { v with closes := v.closes.map (fun x => if x.id == c.id then { x with todo := x.todo.drop n } else x) })

/-- The snapshot of a batch and the empty batch that takes its place. -/
def State.snapshot (s : State) (vk slot bt id : Nat) : State :=
  let v := s.vc vk
  let b := v.batches.getD bt {}
  let all := if b.bcast then b.dests ++ ((s.vcsOf v.gid).map Dest.vc).filter (fun d => !b.dests.contains d) else b.dests
  s.updVc vk (fun v => { v with
    batches := v.batches.setIfInBounds bt { epoch := b.epoch + 1 },
    closes := v.closes ++ [{
      id := id, bt := bt, epoch := b.epoch, slot := slot, todo := all, wait := all.length, bc := b.bcast, og := b.og,
      bits := b.bits }] })

/-- R196 in U mode under sqfen: the trap is taken only when egress is full at the first presentation; with room for some of the
close requests BCLOSE goes on and sends the rest as room comes (DESIGN CHOICE, log entry 78). -/
def execBclose (rd : XReg) (bt : BitVec 2) (s : State) : Out :=
  let b := s.myVc.batches.getD bt.toNat {}
  .next (match s.me.hold with
    | some (.close _ _) => s.sendCloses s.vk s.ix
    | _ => s.withRoom (.bclose rd bt) (b.dests.isEmpty || s.egressRoom s.vk) (
        let n := s.freshId
        let t := (n.2.snapshot s.vk s.ix bt.toNat n.1).updMe (fun sl => { sl with hold := some (.close n.1 rd) })
        (t.sendCloses s.vk s.ix).settle s.vk))

/-! Remote atomics (R205, R206). -/

/-- The sequence id the core takes for a home, and the counter moved on. -/
def State.takeSeq (s : State) (g : Nat) (home : Nat) : Nat × State :=
  let n := FMap.getD (s.core g).seqs home 0
  (n, s.updCore g (fun c => { c with seqs := FMap.set c.seqs home ((n + 1) % 65536) }))

/-- A number for a home, so that each has its own counter. -/
def destKey : Dest → Nat
  | .vc k => 8 * k
  | .sig d => 8 * d + 1
  | .farVc n j v => 8 * ((n * 65536 + j) * 65536 + v) + 2
  | .farSig n d => 8 * (n * 8 + d) + 3
  | .memory => 4
  | .core g => 8 * g + 5
  | .ingress p => 8 * p + 6

def State.remoteAtomic (s : State) (i : Instr) (op : AtomicOp) (rd rs2 rs1 : BitVec 5) (cmp : Word) : State :=
  match s.me.hold with
  | some (.atomic _ _ _) => s
  | _ =>
    let p := s.x rs1
    s.withPtr p false (
      let d := s.target s.vk p
      s.withRoom i (s.canSend d) (
        let n := s.freshId
        let q := n.2.takeSeq (s.coreOf s.vk) (destKey d)
        (q.2.updMe (fun sl => { sl with hold := some (.atomic n.1 rd p) })).emit s.vk s.ix d
          (.atomic n.1 s.ix q.1 (s.coreOf s.vk) p op (s.x rs2) cmp false)))

def execRamoAdd (rd rs2 rs1 : XReg) (s : State) : Out := .next (s.remoteAtomic (.ramoAdd rd rs2 rs1) .add rd rs2 rs1 0)
def execRamoFadd (rd rs2 rs1 : XReg) (s : State) : Out := .next (s.remoteAtomic (.ramoFadd rd rs2 rs1) .fadd rd rs2 rs1 0)
def execRamoMin (rd rs2 rs1 : XReg) (s : State) : Out := .next (s.remoteAtomic (.ramoMin rd rs2 rs1) .min rd rs2 rs1 0)
def execRamoMax (rd rs2 rs1 : XReg) (s : State) : Out := .next (s.remoteAtomic (.ramoMax rd rs2 rs1) .max rd rs2 rs1 0)
def execRamoSwap (rd rs2 rs1 : XReg) (s : State) : Out := .next (s.remoteAtomic (.ramoSwap rd rs2 rs1) .swap rd rs2 rs1 0)
def execRamoCas (rd rs2 rs1 rs3 : XReg) (s : State) : Out :=
  .next (s.remoteAtomic (.ramoCas rd rs2 rs1 rs3) .cas rd rs2 rs1 (s.x rs3))

/-- One FP32 lane of RAMO.FADD. -/
def faddLane (a b : Nat) : Nat × BitVec 5 := fmt32.add .rne (a % 2 ^ 32) (b % 2 ^ 32)

/-- New word and flags of a remote atomic. -/
def atomicNew (op : AtomicOp) (old v cmp : Word) : Word × BitVec 5 :=
  match op with
  | .add => (old + v, 0)
  | .fadd =>
    let l := faddLane old.toNat v.toNat
    let h := faddLane (old.toNat / 2 ^ 32) (v.toNat / 2 ^ 32)
    (BitVec.ofNat 64 (l.1 + h.1 * 2 ^ 32), l.2 ||| h.2)
  | .min => (if old.slt v then old else v, 0)
  | .max => (if old.slt v then v else old, 0)
  | .swap => (v, 0)
  | .cas => (if old == cmp then v else old, 0)

/-! Tokens (R209, R210, R212). -/

/-- TST: an entry, the store, and the token in rd. -/
def execTst (rd rs2 rs1 : XReg) (s : State) : Out :=
  let p := s.x rs1
  .next (s.withPtr p false (
    let d := s.target s.vk p
    s.withRoom (.tst rd rs2 rs1) (s.storeRoom 0 d) (
      match s.myVc.tokenEntry with
      | none => s.waitOn true
      | some e =>
        let k := s.myVc.takeToken e s.ix d (s.cycOf s.vk) s.me.pc
        let n := (s.updMyVc (fun _ => k.1)).issueStore 0 d (some (e, k.2))
        (n.2.emit s.vk s.ix d (.store n.1 p (s.x rs2) .plain none)).result rd
          (BitVec.ofNat 64 (tokenVal s.ix e k.2)))))

/-- How a store ordered after a token goes (R210). -/
inductive DepWay where
  | plain
  | discard
  | held (e : Nat)
  | kept (e : Nat)
  deriving DecidableEq, Repr

/-- The stores kept for tokens are at most 32 (R210). -/
def VCore.keptStores (v : VCore) : Nat :=
  (v.kept.filter (fun k => match k.why with
    | .token _ => true
    | _ => false)).length

def depWay (c : TokenClass) (d : Dest) : Option DepWay :=
  match c with
  | .foreign => none
  | .stale => some .plain
  | .live e t =>
    match t.st with
    | .landed => some .plain
    | .expired => some .discard
    | .pending =>
      if !d.isSig && (t.deps.contains d || t.deps.length < 8) then some (.held e) else some (.kept e)

/-- DST and DTST after the checks: own is the entry of DTST's own token. -/
def State.depStore (s : State) (d : Dest) (p v : Word) (tok : Nat) (way : DepWay) (own : Option (Nat × Nat)) : State :=
  let n := s.issueStore 0 d own
  let b := Body.store n.1 p v .plain none
  match way with
  | .plain => n.2.emit s.vk s.ix d b
  | .discard =>
    let t := n.2.updMyVc (fun c =>
      ({ c with unacked := c.unacked.filter (fun a => a.id != n.1.id) }).addBits 0 (s.myVc.batches.getD 0 {}).epoch sdxBit)
    (match own with
     | some (e, _) => t.expire s.vk e
     | none => t)
  | .held e =>
    let t := n.2.updMyVc (fun c => { c with tokens := FMap.upd c.tokens e (fun x =>
      if x.deps.contains d then x else { x with deps := x.deps ++ [d] }) })
    t.emit s.vk s.ix d (.store n.1 p v .plain (some tok))
  | .kept e => n.2.keep s.vk s.ix d b (.token e) true

/-- Places DST needs: egress unless the store is kept or discarded, and room among the kept stores. -/
def State.depRoom (s : State) (d : Dest) (way : DepWay) : Bool :=
  match way with
  | .plain => s.storeRoom 0 d
  | .held _ => s.storeRoom 0 d
  | .discard => true
  | .kept _ => decide (s.myVc.keptStores < 32) && !(s.wouldCount s.vk 0 d && s.myVc.countedFull)

def execDst (rs2 rs1 rs3 : XReg) (s : State) : Out :=
  let p := s.x rs1
  let tok := (s.x rs3).toNat % 65536
  .next (s.withPtr p false (
    let d := s.target s.vk p
    match depWay (s.myVc.recognise tok) d with
    | none => s.trap 31 (BitVec.ofNat 64 tok)
    | some way => s.withRoom (.dst rs2 rs1 rs3) (s.depRoom d way)
        ((s.depStore d p (s.x rs2) tok way none).retire)))

/-- DTST: its own entry is taken first; the token it names keeps the entry it has. -/
def execDtst (rd rs2 rs1 rs3 : XReg) (s : State) : Out :=
  let p := s.x rs1
  let tok := (s.x rs3).toNat % 65536
  .next (s.withPtr p false (
    let d := s.target s.vk p
    match depWay (s.myVc.recognise tok) d with
    | none => s.trap 31 (BitVec.ofNat 64 tok)
    | some way => s.withRoom (.dtst rd rs2 rs1 rs3) (s.depRoom d way) (
        match s.myVc.tokenEntry with
        | none => s.waitOn true
        | some e =>
          let k := s.myVc.takeToken e s.ix d (s.cycOf s.vk) s.me.pc
          ((s.updMyVc (fun _ => k.1)).depStore d p (s.x rs2) tok way (some (e, k.2))).result rd
            (BitVec.ofNat 64 (tokenVal s.ix e k.2)))))

def execTwait (rs1 : XReg) (s : State) : Out :=
  let tok := (s.x rs1).toNat % 65536
  .next (match s.myVc.recognise tok with
    | .foreign => s.trap 31 (BitVec.ofNat 64 tok)
    | .stale => s.retire
    | .live e t => if t.st == TokState.pending then s.parkOn (.token e) else s.retire)

def execTfree (rs1 : XReg) (s : State) : Out :=
  let tok := (s.x rs1).toNat % 65536
  .next (match s.myVc.recognise tok with
    | .foreign => s.trap 31 (BitVec.ofNat 64 tok)
    | .stale => s.retire
    | .live e t =>
      (s.updMyVc (fun v =>
        if t.st == TokState.pending then { v with tokens := FMap.set v.tokens e { t with fol := true } }
        else v.freeToken e)).retire)

end Sys2Proof.Machine
end

