-- ==== Sys2Proof/Machine/Deliver.lean ====
section
/-! DEFINITION. Messages at their destination: which may be delivered (R255, R331), the answers of a destination that is gone,
absent or full (R195, R211, R357), and accesses performed at their home (R197, R198, R205, R206). -/

namespace Sys2Proof.Machine

def State.msg? (s : State) (n : Nat) : Option Msg := s.net[n]?
def State.dropMsg (s : State) (n : Nat) : State := { s with net := s.net.eraseIdx n }

/-! Which message may be delivered. -/

/-- Replies that carry their slot are written as they arrive (R331, step 8). -/
def Body.slotReply : Body → Bool
  | .loadReply _ _ _ _ => true
  | .atomicReply _ _ _ _ _ => true
  | .summary _ _ => true
  | .retry _ _ => true
  | .refusal _ => true
  | _ => false

/-- The core a virtual core is on: an absent one is on the core it left (R326). -/
def State.liesOn (s : State) (vk : Nat) : Nat := (s.vc vk).place.getD (s.vc vk).former

/-- Where a source enters the package's networks: its core (an absent one: the core it left), or a Sarob ingress. -/
def State.entersAt (s : State) : Dest → Option Dest
  | .vc k => some (.core (s.liesOn k))
  | .core g => some (.core g)
  | .ingress p => some (.ingress p)
  | _ => none

/-- A message was sent before the move with a number. -/
def Msg.precedes (m : Msg) (move : Nat) : Bool := m.before.any (fun j => j ≤ move)

/-- A redirect marker that a message to a moved virtual core must follow is still outstanding: from its source, of a move before which it
was not sent. -/
def State.markerOut (s : State) (vk : Nat) (m : Msg) : Bool :=
  s.dies.any (fun (p : Nat × Die) => p.2.redirs.any (fun (q : Nat × Redirect) =>
    q.2.vk == vk && !m.precedes q.2.num && q.2.left.any (fun l => l.2 == m.net && (match s.entersAt m.src, l.1 with
      | some d, e => d == e
      | none, .ingress _ => m.src.isFar
      | none, _ => false))))

/-- The state of a virtual core is being copied to its new core (R331, steps 2 and 3). -/
def VCore.copying (v : VCore) : Bool := v.move.any (fun m => m.step == 2)

/-- Gates of a destination on this package. -/
def State.gateOpen (s : State) (m : Msg) : Bool :=
  match m.dst with
  | .vc vk =>
    if !(s.vc vk).live then true
    else !(s.vc vk).copying && (m.body.slotReply || !s.markerOut vk m)
  | .sig d => (s.die d).tested
  | _ => false

/-- A store that a boundary must first turn into a plain one (R204). -/
def State.mustMiss (s : State) (m : Msg) : Bool :=
  match m.src, m.body with
  | .vc k, .store _ _ _ (.release sc _) _ =>
    !s.inScope k sc m.dst && (match m.dst with
      | .vc j => s.liesOn j / 256 != s.liesOn k / 256
      | .sig d => d != s.liesOn k / 256
      | .farVc _ _ _ => true
      | .farSig _ _ => true
      | _ => false)
  | _, _ => false

/-- The network of a ring's vnet field. -/
def vnetOf (v : BitVec 2) : VNet :=
  match v.toNat with
  | 0 => .request
  | 1 => .reply
  | _ => .control

/-- The port-in ring of a message, when one with its port and network is valid (rules 2 and 3). -/
def State.portIn (s : State) (vk : Nat) (net : VNet) (port : Nat) : Option Nat :=
  ((s.vc vk).rings.find? (fun (p : Nat × Ring) => p.2.valid && p.2.kind == 1 && p.2.port.toNat == port && vnetOf p.2.vnet == net)).map
    Prod.fst

def State.portRoom (s : State) (vk ix : Nat) : Bool := decide ((s.ring vk ix).fill < (s.ring vk ix).count)

/-- A message to the same virtual core and port waits in the spill area. -/
def PCore.spilled (c : PCore) (m : Msg) : Bool :=
  c.spill.any (fun x => x.dst == m.dst && x.net == m.net && (match x.body, m.body with
    | .port _ p _, .port _ q _ => p == q
    | _, _ => false))

/-- A port message that its ring cannot take, nor the spill area of its core when it may use that (R416, rule 4). -/
def State.portStuck (s : State) (m : Msg) : Bool :=
  match m.dst, m.body with
  | .vc vk, .port net port _ =>
    (s.vc vk).place.isSome && (net == .request || 64 ≤ (s.core (s.coreOf vk)).spill.length) && (match s.portIn vk net port with
      | some ix => !s.portRoom vk ix || (s.core (s.coreOf vk)).spilled m
      | none => false)
  | _, _ => false

/-- A control message to a core waits behind a port message that waits there in its network; one for a virtual core that is held keeps no
other waiting, since nothing would make room for it (log entry 116). -/
def State.behindPort (s : State) (n : Nat) (m : Msg) : Bool :=
  match m.dst with
  | .vc vk => m.net == .control && (s.vc vk).place.isSome && (s.net.take n).any (fun x => x.net == .control && (match x.dst with
      | .vc k => (s.vc k).place == (s.vc vk).place && (s.vc k).holds.isEmpty && s.portStuck x
      | _ => false))
  | _ => false

/-- Message n may be delivered: it has no earlier message of its source, destination and network before it. -/
def State.deliverable (s : State) (n : Nat) : Option Msg :=
  match s.msg? n with
  | none => none
  | some m =>
    let first := m.body.unordered || !((s.net.take n).any (fun x =>
      x.src == m.src && x.dst == m.dst && x.net == m.net && !x.body.unordered))
    if first && s.gateOpen m && !s.mustMiss m && !s.behindPort n m then some m else none

/-! Answers of the network interface. -/

/-- The code by which a Vintner's request is answered when its destination is not there; the codes below ask, those above answer. -/
def vntLost : Nat := 8

/-- The error bits of a destination that is not there, for each kind of request. -/
def State.answerError (s : State) (m : Msg) (e : BitVec 16) : State :=
  match m.body with
  | .load id slot _ _ => s.answer m.dst m.src (.loadReply id slot e 0)
  | .store t _ _ k _ => s.answer m.dst m.src (.ack t.id t.slot e (k == StoreKind.missed))
  | .atomic id slot _ _ _ _ _ _ _ => s.answer m.dst m.src (.atomicReply id slot 1 0 0)
  | .close id _ => s.answer m.dst m.src (.summary id e)
  | .enqueue t _ _ => s.answer m.dst m.src (.ack t.id t.slot e false)
  | .copyRead t _ _ _ => s.answer m.dst m.src (.loadReply t.id t.slot e 0)
  | .copyWrite t _ _ _ _ => s.answer m.dst m.src (.ack t.id t.slot e false)
  | .rackWrite op _ _ => if m.dst.isFar then s.send { src := m.dst, dst := m.src, net := .request, body := .vntControl op vntLost [] } else s
  | .vntControl op code _ => if code < vntLost then s.send { src := m.dst, dst := m.src, net := .request, body := .vntControl op vntLost [] } else s
  | _ => s

/-- Requests from outside the set of a quiesced gang are turned back (R362, step 6). -/
def State.quietFor (s : State) (vk : Nat) (src : Dest) : Bool :=
  (s.gang (s.vc vk).gid).quiesced && (match src with
    | .vc k => !(s.gang (s.vc k).gid).quiesced
    | _ => true)

/-- What meets an arriving request before its access. -/
inductive Gate where
  | gone
  | turned (s : State)
  | go (s : State)

/-- The entry that turns back the requests of a source on a network. -/
def VCore.refusal? (v : VCore) (src : Dest) (net : VNet) : Option (Dest × VNet × Bool) :=
  v.refusing.find? (fun r => r.1 == src && r.2.1 == net)

/-- A message for virtual core vk at its network interface: gone (no such virtual core), turned back, or accepted. -/
def State.gate (s : State) (m : Msg) (vk : Nat) : Gate :=
  let v := s.vc vk
  if !v.live then .gone
  else if v.place.isNone || s.quietFor vk m.src then
    let t := if m.body.unordered || (v.refusal? m.src m.net).isSome then s
      else s.updVc vk (fun v => { v with refusing := v.refusing ++ [(m.src, m.net, true)] })
    .turned (t.sendBack m (.retry m.body true))
  else match (if m.body.unordered then none else v.refusal? m.src m.net) with
    | none => .go s
    | some r =>
      if m.resent then .go (s.updVc vk (fun v => { v with refusing := v.refusing.erase r }))
      else .turned (s.sendBack m (if r.2.2 then .retry m.body true else .refusal m.body))

/-- A source has a held store at a destination (R211). -/
def VCore.holdsFor (v : VCore) (src : Dest) : Bool := v.holdQ.any (fun h => h.msg.src == src && !h.enq && !h.direct)

/-- A request enters the hold queue of a virtual core, or is refused. -/
def State.holdMsg (s : State) (m : Msg) (vk : Nat) (tok : Option Nat) : State :=
  if (s.vc vk).holdQ.length < 32 then s.updVc vk (fun v => { v with holdQ := v.holdQ ++ [{ msg := m, heldOn := tok }] })
  else (s.updVc vk (fun v => { v with refusing := v.refusing ++ [(m.src, m.net, false)] })).sendBack m (.refusal m.body)

/-! Accesses at the home. -/

/-- Global address of the word a pointer names at a destination of this package, inside the home window (R195). -/
def State.homeWord (s : State) (d : Dest) (p : Word) : Option Nat :=
  match d with
  | .vc vk =>
    if ptrOff p + 8 ≤ s.launchLenOf vk then some (lmAddr (s.coreOf vk) ((s.vc vk).base + ptrOff p)) else none
  | .sig x => if (s.die x).failed then none else some (sigAddr x (ptrOff p))
  | _ => none

/-- RLDFs waiting on a physical core. -/
def State.farWaiting (s : State) (g : Nat) : Nat := sumNat ((s.hosted g).map (fun k => (s.vc k).farWait.length))

/-- A load performed at its home; an RLDF of an empty word waits, or is sent away when the table is full (R197). -/
def State.performLoad (s : State) (m : Msg) (id slot : Nat) (p : Word) (isF : Bool) : State :=
  match s.homeWord m.dst p with
  | none => s.answerError m winBit
  | some a =>
    if !isF || s.isFull a then s.answer m.dst m.src (.loadReply id slot 0 (Memory.word s.mem a))
    else
      let w : FarWait := { src := m.src, slot := slot, id := id, ptr := p, addr := a }
      match m.dst with
      | .vc vk =>
        if (s.vc vk).farWait.any (fun x => x.src == m.src && x.slot == slot && x.id == id) then s
        else if s.farWaiting (s.coreOf vk) < 16 then s.updVc vk (fun v => { v with farWait := v.farWait ++ [w] })
        else s.sendBack m (.retry m.body false)
      | .sig x =>
        if (s.die x).sigWait.any (fun y => y.src == m.src && y.slot == slot && y.id == id) then s
        else if (s.die x).sigWait.length < 64 then s.updDie x (fun d => { d with sigWait := d.sigWait ++ [w] })
        else s.sendBack m (.retry m.body false)
      | _ => s

/-- Error bits recorded for a source and batch: at most 64 records, the last of them shared (Table 14.5). -/
def addErr (l : List ErrRec) (src : Dest) (bt : Nat) (e : BitVec 16) : List ErrRec :=
  if l.any (fun r => r.src == src && r.bt == bt) then
    l.map (fun r => if r.src == src && r.bt == bt then { r with bits := r.bits ||| e } else r)
  else if l.length < 64 then l ++ [{ src := src, bt := bt, bits := e }]
  else l.take 63 ++ (l.drop 63).map (fun r => { r with bits := r.bits ||| e, shared := true })

def State.recordErr (s : State) (d src : Dest) (bt : Nat) (e : BitVec 16) : State :=
  match d with
  | .vc vk => s.updVc vk (fun v => { v with errs := addErr v.errs src bt e })
  | _ => s

/-- A store performed at its home, and its acknowledgement. -/
def State.performStore (s : State) (m : Msg) (t : Tag) (p v : Word) (k : StoreKind) : State :=
  match s.homeWord m.dst p with
  | none => (s.recordErr m.dst m.src t.bt winBit).answerError m winBit
  | some a => (s.landWord a v (k == StoreKind.setFull)).answer m.dst m.src (.ack t.id t.slot 0 (k == StoreKind.missed))

/-- The reply cache of a home. -/
def State.cacheOf (s : State) (d : Dest) : FMap ReplyCache :=
  match d with
  | .vc vk => (s.vc vk).cache
  | .sig x => (s.die x).cache
  | _ => []

def State.setCache (s : State) (d : Dest) (c : FMap ReplyCache) : State :=
  match d with
  | .vc vk => s.updVc vk (fun v => { v with cache := c })
  | .sig x => s.updDie x (fun y => { y with cache := c })
  | _ => s

/-- A cache with a result added for a source core: 32 results each, 64 source cores, the least recently used one leaves. A use is a
result that is added; an answer from the cache is none (DESIGN CHOICE, log entry 79). -/
def cacheAdd (c : FMap ReplyCache) (src seq stamp : Nat) (v : Word) (fl : BitVec 5) : FMap ReplyCache :=
  let c := if (FMap.get? c src).isSome || c.length < 64 then c
    else match c.find? (fun (p : Nat × ReplyCache) => c.all (fun (q : Nat × ReplyCache) => p.2.used ≤ q.2.used)) with
      | some p => FMap.del c p.1
      | none => c
  FMap.set c src { results := ((seq, v, fl) :: (FMap.getD c src {}).results).take 32, used := stamp }

/-- The number of a source core in a reply cache. A flit names no core: of another package it stands for the virtual core (log
entry 79). -/
def sourceCore (src : Dest) (core : Nat) : Nat :=
  match src with
  | .farVc n j v => ((n * 65536 + j) * 65536 + v + 1) * 2048
  | _ => core

/-- An atomic at its home (R205, R206): the home's check comes first, a request with a new sequence id executes, and a repeated one is
answered from the cache. -/
def State.performAtomic (s : State) (m : Msg) (id slot seq core : Nat) (p : Word) (op : AtomicOp) (v cmp : Word)
    (dup : Bool) : State :=
  let key := sourceCore m.src core
  let c := s.cacheOf m.dst
  match s.homeWord m.dst p, dup with
  | none, _ => s.answerError m winBit
  | some _, true =>
    (match (FMap.getD c key {}).results.find? (fun r => r.1 == seq) with
     | some (_, w, fl) => s.answer m.dst m.src (.atomicReply id slot 0 w fl)
     | none => s.answer m.dst m.src (.atomicReply id slot 2 0 0))
  | some a, false =>
    let old := Memory.word s.mem a
    let r := atomicNew op old v cmp
    let n := s.freshId
    ((n.2.land a (bytesOf r.1.toNat 8)).setCache m.dst (cacheAdd c key seq n.1 old r.2)).answer m.dst m.src
      (.atomicReply id slot 0 old r.2)

/-- An element of a copy read or written at its home (R220). -/
def State.performCopy (s : State) (m : Msg) : State :=
  match m.body with
  | .copyRead t p n bank =>
    (match s.homeBytes m.dst p n bank with
     | some as => s.answer m.dst m.src (.loadReply t.id t.slot 0 (BitVec.ofNat 64 (ofBytes (readAt s.mem as))))
     | none => s.answerError m winBit)
  | .copyWrite t p bs bank full =>
    (match s.homeBytes m.dst p bs.length bank with
     | some as => (s.landFull as bs full).answer m.dst m.src (.ack t.id t.slot 0 false)
     | none => s.answerError m winBit)
  | _ => s

/-! One remote access per LM bank and cycle, after the slots (R33, R256). -/

/-- Pointer of an access. -/
def Body.ptr? : Body → Option Word
  | .load _ _ p _ => some p
  | .store _ p _ _ _ => some p
  | .atomic _ _ _ _ p _ _ _ _ => some p
  | .copyRead _ p _ _ => some p
  | .copyWrite _ p _ _ _ => some p
  | _ => none

/-- The LM banks of n bytes from a (R28). -/
def lmBanks (a n : Nat) : List Nat := (List.range (min 8 ((a % 8 + n + 7) / 8))).map (fun i => (a / 8 + i) % 8)

/-- The LM bytes of virtual core vk that a message accesses: the address and how many. A message that goes into a ring goes to its tail. -/
def State.lmSpan (s : State) (vk : Nat) (m : Msg) : Option (Nat × Nat) :=
  let atTail := fun (ix n : Nat) => some (s.ringAddr vk ix (s.ring vk ix).tail, n)
  match m.body with
  | .enqueue _ ix bs => atTail ix bs.length
  | .mailbox _ ix ws => atTail ix (8 * ws.length)
  | .level ix _ _ => atTail ix 16
  | .port net port _ => (s.portIn vk net port).bind (fun ix => atTail ix 8)
  | b => (b.ptr?.bind (fun p => if ptrSpace p == 0 then s.homeWord m.dst p else none)).map (fun a => (a, 8))

/-- The slots of the core have had their turns in this cycle, and no remote access has used one of these LM banks in it. -/
def State.banksFree (s : State) (vk : Nat) (banks : List Nat) : Bool :=
  let c := s.core (s.coreOf vk)
  !(s.turns.any (fun k => s.coreOf (k / 16) == s.coreOf vk)) && !(c.bankCyc == s.cycOf vk && banks.any c.banks.contains)

/-- LM banks are used in this cycle. -/
def State.takeBanks (s : State) (vk : Nat) (banks : List Nat) : State :=
  s.updCore (s.coreOf vk) (fun c =>
    { c with bankCyc := s.cycOf vk, banks := banks ++ (if c.bankCyc == s.cycOf vk then c.banks else []) })

/-- The virtual core and the LM banks of the access that a message makes: one of each bank that it touches (DESIGN CHOICE, log entry 112). -/
def State.lmTarget (s : State) (m : Msg) : Option (Nat × List Nat) :=
  match m.dst with
  | .vc vk => if (s.vc vk).place.isNone then none else (s.lmSpan vk m).map (fun x => (vk, lmBanks x.1 x.2))
  | _ => none

/-- The access of a message may be performed in this cycle. -/
def State.homeFree (s : State) (m : Msg) : Bool :=
  match s.lmTarget m with
  | none => true
  | some (vk, banks) => s.banksFree vk banks

/-- The banks of an access are used in this cycle. -/
def State.useBank (s : State) (m : Msg) : State :=
  match s.lmTarget m with
  | none => s
  | some (vk, banks) => s.takeBanks vk banks

/-- A request of a slot or of a copy engine performed at its home. -/
def State.perform (s : State) (m : Msg) : State :=
  let s := s.useBank m
  match m.body with
  | .load id slot p isF => s.performLoad m id slot p isF
  | .store t p v k _ => s.performStore m t p v k
  | .atomic id slot seq core p op v cmp dup => s.performAtomic m id slot seq core p op v cmp dup
  | _ => s.performCopy m

/-- The held requests of a source performed in arrival order up to the first that still waits for a token, or for a bank. -/
def State.drainHeld (s : State) (vk : Nat) (src : Dest) : Nat → State
  | 0 => s
  | n + 1 =>
    match (s.vc vk).holdQ.find? (fun h => h.msg.src == src && !h.enq && !h.direct) with
    | none => s
    | some h =>
      if h.heldOn.isSome || !s.homeFree h.msg then s
      else ((s.updVc vk (fun v => { v with holdQ := v.holdQ.erase h })).perform h.msg).drainHeld vk src n

/-- An arriving load, store or atomic at a home: a destination that is gone answers NVC; behind a held request of its
source an ordered one is held; a held store is held; else it is performed. -/
def State.arriveAccess (s : State) (m : Msg) : State :=
  match m.dst with
  | .vc vk =>
    (match s.gate m vk with
     | .gone => s.answerError m nvcBit
     | .turned t => t
     | .go t =>
       let tok := m.body.heldOn
       if tok.isSome || (!m.body.unordered && (t.vc vk).holdsFor m.src) then t.holdMsg m vk tok else t.perform m)
  | _ => s.perform m

/-- Message ev.ix when it may be delivered. -/
def State.evMsg (s : State) : Option Msg := s.deliverable s.ev.ix
def State.takeEv (s : State) : State := s.dropMsg s.ev.ix
/-- An access that its home can perform in this cycle. -/
def State.evAccess (s : State) : Option Msg := s.evMsg.filter s.homeFree

end Sys2Proof.Machine
end

