-- ==== Sys2Proof/Machine/Threads.lean ====
section
/-! DEFINITION. The T group but REPF: threads, bindings, semaphores, rings, full/empty bits, guyline, work rings and
ALIGN (F04). -/

namespace Sys2Proof.Machine

/-! Slots and bundles (R103 to R106). -/

/-- The smallest bundle number that no live bundle of the virtual core uses: none of a slot that is neither EMPTY nor HALTED, nor of
a slot that a FORK has reserved. -/
def State.freshBundle (s : State) (vk : Nat) : Nat :=
  let used := ((s.slots.filter (fun p => p.1 / 16 == vk && p.2.st != .empty && p.2.st != .halted)).map (fun p => p.2.bundle)) ++
    (s.vc vk).forks.map (fun f => f.image.bundle)
  ((List.range 16).find? (fun b => !used.contains b)).getD 15

/-- A slot that FORK may name: EMPTY or HALTED, and not reserved. -/
def State.forkable (s : State) (j : Nat) : Bool :=
  let st := (s.slot (slotKey s.vk j)).st
  (st == .empty || st == .halted) && !(s.myVc.forks.any (fun f => f.slot == j))

def maskSlots (m : Nat) : List Nat := (List.range 16).filter (fun j => m / 2 ^ j % 2 == 1)

def execFork (rd rs1 rs2 : XReg) (s : State) : Out :=
  let entry := s.x rs1
  let m := (s.x rs2).toNat % 65536
  .next (if entry.extractLsb' 0 2 != 0 then s.trap 0 entry
    else
      let ok := m != 0 && m / 2 ^ s.ix % 2 == 0 && m / 2 ^ slotCount s.myVc == 0 && (maskSlots m).all s.forkable
      if !ok then s.result rd 0
      else
        let me := s.me
        let b := s.freshBundle s.vk
        let mk := fun (j : Nat) => ({
          slot := j, cyc := s.cycOf s.vk,
          image := { ((me.writeX 10 (BitVec.ofNat 64 j)).writeX 11 (BitVec.ofNat 64 m)) with pc := entry, bundle := b } }
          : ForkReq)
        (s.updMyVc (fun v => { v with forks := v.forks ++ (maskSlots m).map mk })).result rd (BitVec.ofNat 64 m))

/-- A named slot is HALTED or EMPTY. -/
def State.joined (s : State) (mask : Nat) : Bool :=
  (maskSlots mask).all (fun j => j == s.ix || slotCount s.myVc ≤ j ||
    (let st := (s.slot (slotKey s.vk j)).st
     st == .halted || st == .empty))

def execJoin (rs1 : XReg) (s : State) : Out :=
  let m := (s.x rs1).toNat % 65536
  .next (if s.joined m then s.retire else s.parkOn (.join m))

/-- Waiters of JOIN that name slot j wake (Table 04.1). -/
def State.wakeJoin (s : State) (vk j : Nat) : State :=
  s.wakeVc vk (fun a => match a with
    | .join m => m / 2 ^ j % 2 == 1
    | _ => false)

/-- HALT; in M mode, by the slot that took PRE and after CTXSAV has cleared it, it ends the save (R355). -/
def execHalt (s : State) : Out :=
  let t := s.updMe (fun sl => { sl with st := .halted, haltAt := s.cycOf s.vk, minstret := sl.minstret + 1, hold := none })
  let t := if s.me.mode == .m && s.myVc.lead == some s.ix && s.myVc.saveOk then
      t.updMyVc (fun v => { v with ending := true })
    else t
  .next (t.wakeJoin s.vk s.ix)

def execPark (s : State) : Out := .next (if s.me.pendingAny then s.retire else s.parkOn .interrupt)

/-! Engine binding (R107). -/

def VCore.bound (v : VCore) (e : Nat) : Option Nat := FMap.get? v.binds e

def execEngbind (e : Engine) (s : State) : Out :=
  .next (match s.myVc.bound e.toNat with
    | none => (s.updMyVc (fun v => { v with binds := FMap.set v.binds e.toNat s.ix })).retire
    | some j => if j == s.ix then s.retire else s.trap 29 (e.setWidth 64))
def execEngfree (e : Engine) (s : State) : Out :=
  .next (if s.myVc.bound e.toNat == some s.ix then
      (s.updMyVc (fun v => { v with binds := FMap.del v.binds e.toNat })).retire
    else s.trap 29 (e.setWidth 64))

/-! Semaphores (R108, R109). -/

def State.sem (s : State) (n : BitVec 5) : Nat := (s.myVc.sems[n.toNat]'(n.isLt)).toNat
def State.setSem (s : State) (n : BitVec 5) (v : Nat) : State :=
  s.updMyVc (fun c => { c with sems := c.sems.set n.toNat (BitVec.ofNat 16 v) n.isLt })

def execSempost (n : SemIx) (rs1 : XReg) (s : State) : Out :=
  let k := (s.x rs1).toNat % 65536
  .next (((s.setSem n (min (s.sem n + k) 65535)).wakeVc s.vk (fun a => a == Await.sem n.toNat)).retire)
def execSemwait (n : SemIx) (rs1 : XReg) (s : State) : Out :=
  let k := (s.x rs1).toNat % 65536
  .next (if k ≤ s.sem n then (s.setSem n (s.sem n - k)).retire else s.parkOn (.sem n.toNat))
def execSemtry (rd : XReg) (n : SemIx) (rs1 : XReg) (s : State) : Out :=
  let k := (s.x rs1).toNat % 65536
  let old := s.sem n
  .next (if k ≤ old then (s.setSem n (old - k)).result rd (BitVec.ofNat 64 (0x10000 + old))
    else s.result rd (BitVec.ofNat 64 old))

/-! Ring descriptors (R111). -/

/-- The first reason RINGSET rejects a valid image; 0 when there is none. -/
def State.ringReject (s : State) (ix : Nat) (w0 w1 w2 w3 : Word) : Nat :=
  let r := ringOfWords w0 w1 w2
  let c := r.count
  let ext := c * r.size
  let inside := if s.me.mode == .u then decide (r.base.toNat + ext ≤ s.me.seglim.toNat)
    else decide (r.base.toNat + ext ≤ 0x100000)
  if r.kind.toNat > 5 then 1
  else if r.lgcnt.toNat > 12 then 2
  else if r.size8.toNat == 0 || r.size8.toNat > 512 then 3
  else if r.base.toNat % 8 != 0 then 4
  else if !inside then 5
  else if r.head ≥ c || r.tail ≥ c || r.fill > c || (r.tail + c - r.head) % c != r.fill % c then 6
  else if r.scope == 3 || r.vnet == 3 || (r.kind == 4 && (r.size8.toNat != 2 || (r.scope == 0 && r.level))) then 7
  else if (r.kind == 1 || r.kind == 2) &&
      s.myVc.rings.any (fun p => p.1 != ix && p.2.valid && p.2.kind == r.kind && p.2.port == r.port) then 8
  else if s.myVc.ringBusy ix then 9
  else if !ringRzOk w0 w1 w2 w3 then 10
  else 0

/-- A levelled entry of a ring, or one that comes back. -/
def Body.levels (ix : Nat) : Body → Bool
  | .level r _ _ => r == ix
  | .retry b _ => b.levels ix
  | _ => false

/-- Levelled entries on their way to the ring: in the networks, behind a redirect marker, coming back, or kept to be sent again. -/
def State.levelOnWay (s : State) (vk ix : Nat) : Nat :=
  (s.net.filter (fun m => (m.dst == .vc vk || m.src == .vc vk) && m.body.levels ix && (m.dst == .vc vk) == (m.net == .request))).length +
    ((s.vc vk).holdQ.filter (fun h => h.direct && h.msg.body.levels ix)).length +
    sumNat (s.vcs.map (fun p => (p.2.kept.filter (fun k => k.msg.dst == .vc vk && k.msg.body.levels ix)).length))

/-- Levelled entries are on their way to the ring (R298). -/
def State.levelInTransit (s : State) (vk ix : Nat) : Bool := s.levelOnWay vk ix != 0

/-- The slot stays at the instruction and presents it again at its next turn (R45). -/
def State.held (s : State) : State := s

def execRingset (rs1 rs2 : XReg) (s : State) : Out :=
  let i := s.x rs1
  let a := s.x rs2
  .next (if i.toNat ≥ 64 then s.trap25 (rp2 (i.toNat % 256) 0)
    else if a.toNat % 8 ≠ 0 then s.trap 4 a
    else s.lm a 32 false (fun g =>
      let ix := i.toNat
      let w := Memory.words s.mem g 4
      let w0 := w[0]!
      let w1 := w[1]!
      let w2 := w[2]!
      let r := ringOfWords w0 w1 w2
      if s.levelInTransit s.vk ix then s.waitOn false
      else if !r.valid then
        (if s.myVc.ringBusy ix then s.trap25 (rp2 ix 9)
         else (((s.setRing s.vk ix {}).wakeVc s.vk
           (fun a => a.onFill ix || a.onRoom ix)).clearSup s.vk ix).retire)
      else
        let why := s.ringReject ix w0 w1 w2 (w[3]!)
        if why ≠ 0 then s.trap25 (rp2 ix why)
        else
          let base := if s.me.mode == .u then r.base + s.me.segbase.setWidth 20 else r.base
          (((s.setRing s.vk ix { r with base := base }).wakeVc s.vk
            (fun a => a.onFill ix || a.onRoom ix)).clearSup s.vk ix).retire))

def execRingget (rs1 rs2 : XReg) (s : State) : Out :=
  let i := s.x rs1
  let a := s.x rs2
  .next (if i.toNat ≥ 64 then s.trap25 (rp2 (i.toNat % 256) 0)
    else if a.toNat % 8 ≠ 0 then s.trap 6 a
    else s.lm a 32 true (fun g =>
      let r := s.ring s.vk i.toNat
      let base := if s.me.mode == .u then (r.base - s.me.segbase.setWidth 20).toNat else r.base.toNat
      (({ s with mem := Memory.setWords s.mem g (wordsOfRing r base) }).wrote g 32).retire))

/-! Handles (R112 to R114). -/

def execHbind (h : Handle) (rs1 : XReg) (role : BitVec 2) (s : State) : Out :=
  let r := s.x rs1
  .next (if r.toNat ≥ 64 then s.trap25 (rp2 (r.toNat % 256) 0)
    else (s.updMe (fun sl => { sl with h := sl.h.set h.toNat (role ++ r.setWidth 6) h.isLt })).retire)

def execHwaitf (h : Handle) (rs1 : XReg) (s : State) : Out :=
  .next (s.withHandle h 0 .consumer (kindIs [0, 1, 3, 4]) (fun ix =>
    let r := s.ring s.vk ix
    let k := (s.x rs1).toNat
    if k > r.count then s.trap25 (rp1 h.toNat 0)
    else if k ≤ r.fill then s.retire else s.parkOn (.ringFill ix)))
def execHwaite (h : Handle) (rs1 : XReg) (s : State) : Out :=
  .next (s.withHandle h 0 .producer (kindIs [0, 2, 4, 5]) (fun ix =>
    let r := s.ring s.vk ix
    let k := (s.x rs1).toNat
    if k > r.count then s.trap25 (rp1 h.toNat 0)
    else if k ≤ r.room then s.retire else s.parkOn (.ringRoom ix)))
def execHadvh (h : Handle) (rs1 : XReg) (s : State) : Out :=
  .next (s.withHandle h 0 .consumer (kindIs [0, 1, 3]) (fun ix =>
    let k := (s.x rs1).toNat
    if k > (s.ring s.vk ix).fill then s.trap25 (rp1 h.toNat 0)
    else if k = 0 then s.retire else (s.advHead s.vk ix k).retire))
def execHadvt (h : Handle) (rs1 : XReg) (s : State) : Out :=
  .next (s.withHandle h 0 .producer (kindIs [0, 2, 5]) (fun ix =>
    let k := (s.x rs1).toNat
    if k > (s.ring s.vk ix).room then s.trap25 (rp1 h.toNat 0)
    else if k = 0 then s.retire else (s.advTail s.vk ix k).retire))
def execHpop (rd : XReg) (h : Handle) (s : State) : Out :=
  .next (s.withHandle h 0 .consumer (kindIs [0, 1, 3]) (fun ix =>
    let r := s.ring s.vk ix
    if r.fill ≥ 1 then
      (s.advHead s.vk ix 1).result rd (Memory.word s.mem (s.ringAddr s.vk ix r.head))
    else s.parkOn (.ringFill ix)))

/-- HPUSH; on a full port-out ring of the request network with sqfen set, a U-mode slot traps instead of parking
(R196, R301). -/
def execHpush (h : Handle) (rs1 : XReg) (s : State) : Out :=
  .next (s.withHandle h 0 .producer (kindIs [0, 2, 5]) (fun ix =>
    let r := s.ring s.vk ix
    if r.fill < r.count then
      ((s.storeLm (s.ringAddr s.vk ix r.tail) (s.x rs1).toNat 8).advTail s.vk ix 1).retire
    else if r.kind == 2 && r.vnet == 0 && (s.core (s.coreOf s.vk)).sqfen && s.me.mode == .u then
      s.trap 26 ((insnWord (.hpush h rs1)).setWidth 64)
    else s.parkOn (.ringRoom ix)))

/-! Full/empty bits (R118, R119). -/

/-- LDF and LDFE. -/
def State.loadFull (s : State) (rd rs1 : BitVec 5) (take : Bool) : State :=
  let ea := s.x rs1
  if ea.toNat % 8 ≠ 0 then s.trap 4 ea
  else s.lm ea 8 false (fun a =>
    if s.isFull a then
      let t := if take then s.setEmpty a else s
      t.result rd (Memory.word s.mem a)
    else s.parkOn (.wordFull a))

/-- STF and STEF. -/
def State.storeFull (s : State) (rs2 rs1 : BitVec 5) (waits : Bool) : State :=
  let ea := s.x rs1
  if ea.toNat % 8 ≠ 0 then s.trap 6 ea
  else s.lm ea 8 true (fun a =>
    if waits && s.isFull a then s.parkOn (.wordEmpty a)
    else ((s.storeLm a (s.x rs2).toNat 8).setFull a).retire)

def execLdf (rd rs1 : XReg) (s : State) : Out := .next (s.loadFull rd rs1 false)
def execLdfe (rd rs1 : XReg) (s : State) : Out := .next (s.loadFull rd rs1 true)
def execStf (rs2 rs1 : XReg) (s : State) : Out := .next (s.storeFull rs2 rs1 false)
def execStef (rs2 rs1 : XReg) (s : State) : Out := .next (s.storeFull rs2 rs1 true)

/-- n words from a set or cleared, in ascending order. -/
def State.spanBits (s : State) (set : Bool) (a : Nat) : Nat → State
  | 0 => s
  | n + 1 => (if set then s.setFull a else s.setEmpty a).spanBits set (a + 8) n

/-- FESET and FECLR change 1,024 words a rotation; hold.span says where they stand. -/
def State.feSpan (s : State) (rs1 rs2 : BitVec 5) (set : Bool) : State :=
  let go := fun (a n : Nat) =>
    if n ≤ 1024 then (s.spanBits set a n).retire
    else (s.spanBits set a 1024).updMe (fun sl => { sl with hold := some (.span (a + 8192) (n - 1024)) })
  match s.me.hold with
  | some (.span a n) => go a n
  | _ =>
    let ea := s.x rs1
    let n := (s.x rs2).toNat
    if n = 0 then s.retire
    else if ea.toNat % 8 ≠ 0 then s.trap 6 ea
    else s.lm ea (8 * n) true (fun a => go a n)

def execFeset (rs1 rs2 : XReg) (s : State) : Out := .next (s.feSpan rs1 rs2 true)
def execFeclr (rs1 rs2 : XReg) (s : State) : Out := .next (s.feSpan rs1 rs2 false)
def execFeget (rd rs1 : XReg) (s : State) : Out :=
  let ea := s.x rs1 &&& ~~~ 7
  .next (s.lm ea 8 false (fun a => s.result rd (boolWord (s.isFull a))))

/-! The guyline network (R120, R121). -/

/-- Membership number of a group in the issuing virtual core's groups CSR. -/
def State.memberOf (s : State) (g : Nat) : Option Nat := s.myVc.groups.findIdx? (· == g)

def State.gpending (s : State) (i : Nat) : Bool := FMap.getD s.myVc.gpend i false

/-- The result of operator op of the last episode of membership i. -/
def State.gresult (s : State) (i op : Nat) : Word := (FMap.getD s.myVc.gres i []).getD op 0

/-- The arrival is sent to the guyline network, and the pending bit of membership i is set. -/
def State.garrive (s : State) (i g : Nat) (v : Word) : State :=
  (s.send { src := .vc s.vk, dst := .memory, net := .control, body := .arrive g v }).updMyVc (fun c => { c with gpend := FMap.set c.gpend i true })

def execGarrive (rs1 rs2 : XReg) (s : State) : Out :=
  let g := (s.x rs1).toNat % 256
  .next (match s.memberOf g with
    | none => s.trap25 (rp3 g 0)
    | some i => if s.gpending i then s.trap25 (rp3 g 1) else (s.garrive i g (s.x rs2)).retire)

/-- The wait and the result of GWAIT and GBAR. -/
def State.gwait (s : State) (rd rs1 : BitVec 5) (i g : Nat) : State :=
  if s.gpending i then s.parkOn (.group g)
  else s.result rd (s.gresult i ((s.x rs1).toNat / 256 % 8))

def execGwait (rd rs1 : XReg) (s : State) : Out :=
  let g := (s.x rs1).toNat % 256
  .next (match s.memberOf g with
    | none => s.trap25 (rp3 g 0)
    | some i => s.gwait rd rs1 i g)

/-- GBAR arrives at its first presentation only. -/
def execGbar (rd rs1 rs2 : XReg) (s : State) : Out :=
  let g := (s.x rs1).toNat % 256
  .next (match s.memberOf g with
    | none => s.trap25 (rp3 g 0)
    | some i =>
      let first := s.me.arrived != some s.me.pc
      let t := if first && !s.gpending i then s.garrive i g (s.x rs2) else s
      (t.updMe (fun sl => { sl with arrived := some sl.pc })).gwait rd rs1 i g)

/-! Work rings (R122, R123, R264). -/

/-- The scope of Table 08.4 a work-ring scope stands for (R264). -/
def workScope (r : Ring) : Scope :=
  match r.scope.toNat with
  | 0 => .core
  | 1 => .group
  | _ => .pkg

/-- R123: a group scope must be a membership of the virtual core. -/
def State.workOk (s : State) (r : Ring) : Bool := r.scope != 1 || (s.memberOf r.sgrp.toNat).isSome

def execWpush (h : Handle) (rs1 : XReg) (s : State) : Out :=
  .next (s.withHandle h 0 .producer (kindIs [4]) (fun ix =>
    let r := s.ring s.vk ix
    let a := s.x rs1
    if !s.workOk r then s.trap25 (rp3 r.sgrp.toNat 2)
    else if a.toNat % 8 ≠ 0 then s.trap 4 a
    else s.lm a 16 false (fun g =>
      if r.fill = r.count then s.trap25 (rp1 h.toNat 0)
      else if !(s.fenced (workScope r)).isEmpty then s.held
      else
        let e := Memory.words s.mem g 2
        let t := s.ringAddr s.vk ix r.tail
        ((({ s with mem := Memory.setWords s.mem t e }).wrote t 16).advTail s.vk ix 1).retire)))

def execWpop (h : Handle) (rs1 : XReg) (s : State) : Out :=
  .next (s.withHandle h 0 .consumer (kindIs [4]) (fun ix =>
    let r := s.ring s.vk ix
    let a := s.x rs1
    if !s.workOk r then s.trap25 (rp3 r.sgrp.toNat 2)
    else if a.toNat % 8 ≠ 0 then s.trap 6 a
    else if r.fill = 0 then
      s.parkOn (.ringFill ix)
    else s.lm a 16 true (fun g =>
      let e := Memory.words s.mem (s.ringAddr s.vk ix r.head) 2
      ((({ s with mem := Memory.setWords s.mem g e }).wrote g 16).advHead s.vk ix 1).retire)))

/-! ALIGN (R127). -/

/-- The virtual cores of the gang on other cores of the trellis whose same slot is not EMPTY. Of a folded core that hosts several
of the gang each one counts: ALIGN waits for all of them (DESIGN CHOICE, log entry 72: R127 names cores, not virtual cores). -/
def State.alignPeers (s : State) : List Nat :=
  let here := s.coreOf s.vk
  (s.vcs.filter (fun p => p.2.live && p.2.gid == s.myVc.gid && p.2.place.isSome && s.coreOf p.1 != here &&
    trellisIx (s.coreOf p.1) == trellisIx here && (s.slot (slotKey p.1 s.ix)).st != .empty)).map Prod.fst

/-- A slot is held at an ALIGN at this pc. -/
def Slot.atAlign (sl : Slot) (pc : Word) : Bool :=
  match sl.hold with
  | some (.align _ _) => sl.pc == pc
  | _ => false

def execAlign (n : BitVec 12) (s : State) : Out :=
  let pc := s.me.pc
  let peers := s.alignPeers
  let waited := match s.me.hold with
    | some (.align w _) => w
    | _ => 0
  let seen := match s.me.hold with
    | some (.align _ l) => l
    | _ => []
  -- this presentation fetches the pc: the peers held at it have seen this virtual core
  let t := s.mapSlots (fun k sl =>
    match sl.hold with
    | some (.align w l) =>
      if k % 16 == s.ix && peers.contains (k / 16) && sl.pc == pc then { sl with hold := some (.align w (s.vk :: l)) }
      else sl
    | _ => sl)
  let all := peers.all (fun p => seen.contains p || (s.slot (slotKey p s.ix)).atAlign pc)
  .next (if all || n.toNat ≤ waited || s.me.pendingAny then t.retire
    else t.updMe (fun sl => { sl with hold := some (.align (waited + 1) seen) }))

end Sys2Proof.Machine
end

