-- ==== Sys2Proof/Machine/Level.lean ====
section
/-! DEFINITION. Neighbour load levelling (R298), the stall monitor (R300), failed reads of host memory and of the second tier
(R381, R382). -/

namespace Sys2Proof.Machine

/-! Levelling. -/

/-- The virtual core at (x, y) of a gang, when it is inside the gang. -/
def State.atShape (s : State) (gid : Nat) (x y : Int) : Option Nat :=
  let g := s.gang gid
  if 0 ≤ x && x < g.gw && 0 ≤ y && y < g.gh then some (vkey gid (y.toNat * g.gw + x.toNat)) else none

/-- The virtual cores at +x, +y, -x, -y. -/
def State.neighbours (s : State) (vk : Nat) : List Nat :=
  let v := s.vc vk
  let x : Int := v.vcid % (s.gang v.gid).gw
  let y : Int := v.vcid / (s.gang v.gid).gw
  [s.atShape v.gid (x + 1) y, s.atShape v.gid x (y + 1), s.atShape v.gid (x - 1) y, s.atShape v.gid x (y - 1)].filterMap id

/-- Not held, pre-empted or migrating. -/
def VCore.atHome (v : VCore) : Bool := v.live && v.place.isSome && v.holds.isEmpty && v.move.isNone

def Ring.levelled (r : Ring) : Bool := r.valid && r.kind == 4 && r.level

/-- The neighbours a ring may ship to. -/
def State.levelPeers (s : State) (vk ix : Nat) : List Nat :=
  let r := s.ring vk ix
  (s.neighbours vk).filter (fun k =>
    let q := s.ring k ix
    (s.vc k).atHome && q.levelled && q.scope == r.scope && q.sgrp == r.sgrp)

/-- n entries leave a ring for another, oldest first. -/
def State.ship (s : State) (vk ix tk : Nat) : Nat → State
  | 0 => s
  | n + 1 =>
    let w := Memory.words s.mem (s.ringAddr vk ix (s.ring vk ix).head) 2
    ((s.advHead vk ix 1).send {
      src := .vc vk, dst := .vc tk, net := .request, body := .level ix (w.getD 0 0) (w.getD 1 0) }).ship vk ix tk n

/-- One ring of one virtual core; s0 is the state in which the fills are sampled. -/
def State.levelRing (s0 s : State) (vk ix : Nat) : State :=
  let f := (s0.ring vk ix).fill
  let peers := s0.levelPeers vk ix
  let fillOf := fun (k : Nat) => (s0.ring k ix).fill
  match peers.find? (fun k => peers.all (fun j => fillOf k ≤ fillOf j)) with
  | none => s
  | some m =>
    if f < fillOf m + 2 then s
    else s.ship vk ix m (min (min 4 ((f - fillOf m) / 2)) ((s.ring m ix).room - s.levelOnWay m ix))

/-- The die is at a levelling cycle whose work is not done. -/
def State.levelDue (s : State) (d : Nat) : Bool :=
  let x := s.die d
  x.up && x.cyc % x.lvlint == 0 && x.lvlDone != x.cyc + 1

/-- LEVELLING_TICK of die ev.key: its virtual cores ship in ascending order of their keys, so that of two that ship to one ring the
first takes its free slots first (DESIGN CHOICE, log entry 109). -/
def execLevellingTick (s : State) : Out :=
  let d := s.ev.key
  .next (if !s.levelDue d then s
    else
      let mine := s.vcs.filter (fun (p : Nat × VCore) => p.2.live && p.2.place.isSome && !p.2.copying && s.dieOf p.1 == d)
      let t := s.updDie d (fun x => { x with lvlDone := x.cyc + 1 })
      mine.foldl (fun t (p : Nat × VCore) =>
        p.2.rings.foldl (fun t (q : Nat × Ring) => if q.2.levelled then s.levelRing t p.1 q.1 else t) t) t)

/-- LEVELLING_ENTRY_ARRIVAL of message ev.ix: a ring that has filled up meanwhile makes the entry wait. -/
def execLevellingEntryArrival (s : State) : Out :=
  .next (match s.evAccess with
    | some m => (match m.dst, m.body with
      | .vc vk, .level ix w0 w1 =>
        let t := s.dropMsg s.ev.ix
        (match t.gate m vk with
         | .gone => t
         | .turned u => u
         | .go u =>
           let r := u.ring vk ix
           if r.fill < r.count then (u.useBank m).postRing vk ix [w0, w1] else s)
      | _, _ => s)
    | none => s)

/-! The stall monitor. -/

def Slot.busySlot (sl : Slot) : Bool := sl.st != .empty && sl.st != .halted

/-- A slot that the monitor counts as stalled. -/
def Slot.stalled (sl : Slot) : Bool :=
  match sl.st, sl.park, sl.hold with
  | .parked, some (.fetch _), _ => false
  | .parked, _, _ => true
  | .dropped, _, some (.load _ _ true _) => true
  | _, _, _ => false

/-- The condition under which the stall clock runs. -/
def State.stallNow (s : State) (vk : Nat) : Bool :=
  let v := s.vc vk
  let busy := (s.slotsOf vk).filter (fun k => (s.slot k).busySlot)
  v.live && v.place.isSome && !busy.isEmpty && busy.all (fun k => (s.slot k).stalled)

/-- The stall clock of a virtual core at a cycle of its die. -/
def State.stallClock (s : State) (vk : Nat) : State :=
  if s.stallNow vk then s.updVc vk (fun v => { v with stallAt := some (v.stallAt.getD (s.cycOf vk)) })
  else s.updVc vk (fun v => { v with stallAt := none, stallSent := false })

/-- Object of a word: ea[14:3]. -/
def Slot.wordObject (sl : Slot) (a : Nat) : Nat :=
  (a % 0x100000 + 0x100000 - (if sl.mode == .u then sl.segbase.toNat else 0)) / 8 % 4096

/-- Kind and object of a slot (Table 11.13). -/
def Slot.stallEntry (sl : Slot) (v : VCore) : Nat :=
  let e := fun (kind object : Nat) => kind + object % 4096 * 16
  match sl.st, sl.park, sl.hold with
  | .dropped, _, some (.load _ _ _ p) => e 10 (if ptrSpace p == 0 then ptrVcid p else 0xF00 + bits p 26 24)
  | .parked, some a, _ =>
    (match a with
     | .sem n => e 1 n
     | .ringFill r => e 2 r
     | .ringRoom r => e 3 r
     | .engineRing _ r room => e (if room then 3 else 2) r
     | .wordFull w => e 4 (sl.wordObject w)
     | .wordEmpty w => e 5 (sl.wordObject w)
     | .join m => e 6 m
     | .group g => e 7 g
     | .token t => e 8 (t * 64 + (FMap.getD v.tokens t {}).gen)
     | .interrupt => e 9 0
     | .fetch _ => 0)
  | _, _, _ => 0

/-- Words 4 to 7 of a stall report. -/
def State.stallWords (s : State) (vk : Nat) : List Word :=
  (List.range 4).map (fun w => BitVec.ofNat 64 (pack ((List.range 4).map (fun k =>
    (16 * k, (s.slot (slotKey vk (4 * w + k))).stallEntry (s.vc vk))))))

def State.stallDue (s : State) (vk : Nat) : Bool :=
  let v := s.vc vk
  s.stallNow vk && !v.stallSent &&
    v.stallAt.any (fun c => c + (s.core (s.coreOf vk)).stallthr.toNat ≤ s.cycOf vk)

/-- STALL_REPORT of virtual core ev.key, from its lowest slot that is neither EMPTY nor HALTED. -/
def execStallReport (s : State) : Out :=
  let vk := s.ev.key
  .next (if !s.stallDue vk then s
    else match (s.slotsOf vk).find? (fun k => (s.slot k).busySlot) with
      | none => s
      | some k =>
        (((s.mail vk 5 (k % 16) 0 0 0 (s.stallWords vk)).updVc vk (fun v => { v with stallSent := true })).setMip k 2))

/-! Failed reads. -/

/-- HOST_READ_FAILURE: the next read of host memory fails; with ev.ix = 1 the next write (R436). -/
def execHostReadFailure (s : State) : Out :=
  .next (if s.ev.ix == 1 then { s with hostWriteFail := true } else { s with hostFail := true })

/-- CXL_READ_FAILURE: the next read of the second tier through port ev.ix fails. -/
def execCxlReadFailure (s : State) : Out := .next { s with cxlFail := some (s.ev.ix % 8) }

end Sys2Proof.Machine
end

