-- ==== Sys2Proof/Machine/Queues.lean ====
section
/-! DEFINITION. Command queues: descriptors (Table 11.2), memory accesses of the command processor, error records (R283,
R436), MSI-X (R373). -/

namespace Sys2Proof.Machine

/-! Memory of the command processor of function f, which is die f. -/

/-- n bytes read from the memory that mem names: 0 host bus, 1 device virtual. -/
def State.cpRead (s : State) (f : Nat) (va : Bool) (a n : Nat) : Option (State × List Byte) :=
  if va then s.readVa f f a n
  else if s.hostFail then none else some (s, Memory.bytes s.mem (hostAddr a) n)

def State.cpWrite (s : State) (f : Nat) (va : Bool) (a : Nat) (bs : List Byte) : Option State :=
  if va then s.writeVa f f a bs
  else if s.hostWriteFail then none else some { s with mem := Memory.setBytes s.mem (hostAddr a) bs }

/-- MSI-X vector v of function f (R373). -/
def State.fire (s : State) (f v : Nat) : State :=
  s.updFunc f (fun x => if x.masked.getLsbD v then { x with pending := x.pending ||| ((1 : BitVec 33) <<< v) }
    else { x with fired := x.fired ++ [v] })

def Queue.count (q : Queue) : Nat := 2 ^ q.lgsz
def Queue.records (q : Queue) : Nat := 2 ^ q.lgcr

/-- The type of a packet. -/
def Packet.type (p : Packet) : Nat := bits (p.words.getD 0 0) 7 0

/-- The LAUNCH packet of a placed gang that has not been released. -/
def Queue.launching (q : Queue) (gid : Nat) : Option Packet := q.issued.find? (fun p => p.type == 1 && p.gid == gid && !p.issued)

/-- That packet changed. -/
def Queue.updLaunching (q : Queue) (gid : Nat) (f : Packet → Packet) : Queue :=
  { q with issued := q.issued.map (fun p => if p.type == 1 && p.gid == gid && !p.issued then f p else p) }

/-- No earlier packet of the queue of a gang is still to issue (R276). -/
def Queue.inTurn (q : Queue) (gid : Nat) : Bool :=
  (q.launching gid).isNone || (q.issued.find? (fun p => !p.issued)).any (fun p => p.gid == gid)

def Packet.ord (p : Packet) : Bool := bit (p.words.getD 0 0) 8

/-- The fetched packet at head is blocked (R276): its ORD bit, a condition that was not met, a LAUNCH not yet placed, or a packet before
it that has not issued. -/
def Queue.blocked (q : Queue) : Bool :=
  match q.front with
  | none => false
  | some p => p.type == 1 || ((p.type == 4 || p.type == 5) && p.step == 1) || !(q.issued.all Packet.issued) ||
      (p.ord && !(q.issued.isEmpty && q.posting.isEmpty))

/-- w2[34:32] (R272). -/
def Queue.stateCode (q : Queue) : Nat :=
  if !q.en then 0
  else if q.stopped then 4
  else if q.blocked then 3
  else if q.head == q.tail && q.front.isNone && q.issued.isEmpty && q.posting.isEmpty then 1
  else 2

/-- The error record of Table 11.9. -/
def errorWords (cause type index check : Nat) (addr : Word) (data : List Word) : List Word :=
  [BitVec.ofNat 64 (pack [(0, cause), (8, type), (16, index), (32, check)]), addr] ++
    (data ++ [0, 0, 0, 0]).take 4 ++ [0, 0]

/-- A queue writes its error record and enters state 4; without a record when the write faults (R436). -/
def State.stopQueue (s : State) (k : Nat) (ws : List Word) : State :=
  let q := s.queue k
  let f := k / 32
  let s := (s.cpWrite f q.memva (q.ebase * 64) (bytesOfWords ws)).getD s.readFailed
  (s.updQueue k (fun q => { q with stopped := true })).fire f 32

/-- The queue named by a slot's qowner (Table 01.6). -/
def Slot.queueKey (sl : Slot) : Nat := Machine.queueKey ((sl.qowner.toNat) / 32 % 8) (sl.qowner.toNat % 32)

/-- The reserved-code message of a slot goes to the error record of its queue, which stops (R73, R283). -/
def State.queueReserved (s : State) (sl : Slot) (msg : List Word) : State :=
  if sl.qowner.getLsbD 16 then
    s.stopQueue sl.queueKey (errorWords 4 0 (s.queue sl.queueKey).head 0 0 (msg.take 4))
  else s

end Sys2Proof.Machine
end

