-- ==== Sys2Proof/Machine/Population.lean ====
section
/-! DEFINITION. Fitness (R224), submission to the Vintner (R225, R226), segments (R239), SUPPOST (R242). -/

namespace Sys2Proof.Machine

/-! Fitness. -/

def execFitw (rs1 rs2 : XReg) (s : State) : Out :=
  .next ((s.updMyVc (fun v => { v with fitness := (s.x rs1).setWidth 32, evalcnt := (s.x rs2).setWidth 32 })).retire)
def execFitr (rd : XReg) (s : State) : Out :=
  .next (s.result rd (s.myVc.evalcnt ++ s.myVc.fitness))

/-! Submission. -/

/-- The must-be-zero bits of the control word. -/
def vctlOk (w : Word) : Bool := bits w 15 8 == 0 && bits w 39 33 == 0 && bits w 63 60 == 0

/-- Words of the parameter block of operation kind k (Table 09.4). -/
def vblockWords (k : Nat) : Nat :=
  match k with
  | 0 => 0
  | 1 => 2
  | 2 => 6
  | 3 => 1
  | _ => 7

/-- Must-be-zero bits of the racking parameters (Table 09.6). -/
def rackRz (b : List Word) : Bool :=
  bits (b.getD 0 0) 31 1 == 0 && bits (b.getD 2 0) 63 49 == 0 && bits (b.getD 3 0) 63 45 == 0 &&
  !bit (b.getD 4 0) 20 && bits (b.getD 4 0) 63 45 == 0 && bits (b.getD 5 0) 31 21 == 0 && bits (b.getD 5 0) 63 48 == 0

/-- Must-be-zero bits of a parameter block. -/
def vblockOk (k : Nat) (b : List Word) : Bool :=
  match k with
  | 0 => true
  | 1 => bits (b.getD 0 0) 7 1 == 0 && bits (b.getD 0 0) 15 13 == 0 && bits (b.getD 0 0) 63 32 == 0
  | 2 => rackRz b
  | 3 => bits (b.getD 0 0) 7 1 == 0 && bits (b.getD 0 0) 63 16 == 0
  | _ => rackRz b && bits (b.getD 6 0) 63 52 == 0

/-- Size of the result buffer as checked at issue; n members. -/
def vresBytes (k : Nat) (b : List Word) (n : Nat) : Nat :=
  match k with
  | 0 => 8 + 8 * n
  | 1 => 8 + 8 * bits (b.getD 0 0) 31 16
  | 3 => 16
  | _ => 8

def State.vgroup (s : State) (g : Nat) : VGroup := FMap.getD s.vgroups g {}
def State.updVgroup (s : State) (g : Nat) (f : VGroup → VGroup) : State :=
  { s with vgroups := FMap.set s.vgroups g (f (s.vgroup g)) }

def State.vqueueFull (s : State) : Bool := decide (64 ≤ s.vops.length)

/-- An operation enters the queue with the next ticket of its group. -/
def State.submit (s : State) (mk : Nat → Nat → VOp) (g : Nat) : Nat × State :=
  let t := (s.vgroup g).ticket
  let n := s.freshId
  (t, ({ n.2 with vops := s.vops ++ [mk n.1 t] }).updVgroup g (fun x => { x with ticket := (t + 1) % 65536 }))

/-- The five instructions: kind k, rs2 the block (none for VNTRANK). -/
def State.vintner (s : State) (i : Instr) (k : Nat) (rd rs1 : BitVec 5) (rs2 : Option (BitVec 5)) : State :=
  let c := s.x rs1
  let g := bits c 7 0
  let res := BitVec.ofNat 64 (bits c 59 40)
  let after := fun (b : List Word) =>
    let ms := s.membersOf g
    if !vblockOk k b then s.illegalI i
    else if res.toNat % 8 ≠ 0 then s.trap 6 res
    else s.lm res (vresBytes k b ms.length) true (fun a =>
      if s.vqueueFull then s.result rd (BitVec.ofNat 64 (2 ^ 63))
      else
        let u := s.me.mode == .u
        let seg := if u then s.me.segbase.toNat else 0
        let n := s.submit (fun id t => {
          id := id, kind := k, grp := g, ticket := t, tag := bits c 31 16, ev := bit c 32, vk := some s.vk, res := seg + res.toNat,
          lim := seg + (if u then s.me.seglim.toNat else 0x100000), base := s.myVc.base, mMode := !u, params := b, members := ms }) g
        (n.2.setEmpty a).result rd (BitVec.ofNat 64 n.1))
  if !vctlOk c then s.illegalI i
  else if !s.myVc.groups.contains g then s.trap25 (rp3 g 0)
  else match rs2 with
    | none => after []
    | some r =>
      let p := s.x r
      if p.toNat % 8 ≠ 0 then s.trap 4 p
      else s.lm p (8 * vblockWords k) false (fun a => after (Memory.words s.mem a (vblockWords k)))

def execVntrank (rd rs1 : XReg) (s : State) : Out := .next (s.vintner (.vntrank rd rs1) 0 rd rs1 none)
def execVntsel (rd rs1 rs2 : XReg) (s : State) : Out := .next (s.vintner (.vntsel rd rs1 rs2) 1 rd rs1 (some rs2))
def execVntrack (rd rs1 rs2 : XReg) (s : State) : Out := .next (s.vintner (.vntrack rd rs1 rs2) 2 rd rs1 (some rs2))
def execVntlog (rd rs1 rs2 : XReg) (s : State) : Out := .next (s.vintner (.vntlog rd rs1 rs2) 3 rd rs1 (some rs2))
def execVntmig (rd rs1 rs2 : XReg) (s : State) : Out := .next (s.vintner (.vntmig rd rs1 rs2) 4 rd rs1 (some rs2))

/-! Segments. -/

def execSegset (rs1 rs2 : XReg) (s : State) : Out :=
  let o := s.x rs1
  let l := s.x rs2
  .next (if o.toNat % 4096 ≠ 0 || l.toNat % 4096 ≠ 0 || o.toNat + l.toNat > s.launchLenOf s.vk then s.trap 30 (o + l)
    else (s.updMe (fun sl => { sl with segbase := BitVec.ofNat 64 s.myVc.base + o, seglim := l })).retire)

def execSegget (rd : XReg) (s : State) : Out :=
  let o := s.me.segbase - BitVec.ofNat 64 s.myVc.base
  .next (s.result rd (s.me.seglim.setWidth 32 ++ o.setWidth 32))

/-! The supervisor mailbox. -/

def execSuppost (rs1 rs2 : XReg) (s : State) : Out :=
  let k := s.x rs2
  let a := s.x rs1
  let i := Instr.suppost rs1 rs2
  .next (if k.toNat < 0x80 || 0xFF < k.toNat then s.illegalI i
    else if a.toNat % 8 ≠ 0 then s.trap 4 a
    else s.lm a 32 false (fun g =>
      match s.mailbox s.vk with
      | none => s.retire
      | some (sk, sslot, ix) =>
        let d := Dest.vc sk
        s.withRoom i (s.canSend d)
          ((s.emit s.vk s.ix d (.mailbox sslot ix (s.mailWords s.vk k.toNat s.ix 0 0 0 (Memory.words s.mem g 4)))).retire)))

end Sys2Proof.Machine
end

