-- ==== Sys2Proof/Machine/Gang.lean ====
section
/-! DEFINITION. Groups (R270, R292), rectangles of cores (R287), the termination and the end of a gang (R269, R291). -/

namespace Sys2Proof.Machine

/-! Groups. -/

/-- The lowest-numbered free group entry. -/
def State.freeGroup (s : State) : Option Nat := (List.range 256).find? (fun g => !(s.group g).valid)

/-- A group entry returns to free, with its Vintner state (R303). -/
def State.dropGroup (s : State) (g : Nat) : State :=
  { s with groups := FMap.del s.groups g, vgroups := FMap.del s.vgroups g }

/-- GALLOC: the host reads the register of function ev.key. -/
def execGalloc (s : State) : Out :=
  .next (if !s.hostLink then s else match s.freeGroup with
    | none => { s with hostRead := 0 }
    | some g =>
      { (s.dropGroup g).updGroup g (fun x => { x with valid := true, owner := s.ev.key % 8 }) with
        hostRead := BitVec.ofNat 64 (2 ^ 63 + g) })

/-- GFREE: the host writes ev.val to the register of function ev.key. -/
def execGfree (s : State) : Out :=
  let g := s.ev.val.toNat % 256
  let x := s.group g
  .next (if s.hostLink && x.valid && !x.own && x.owner == s.ev.key % 8 && (s.membersOf g).isEmpty then s.dropGroup g else s)

/-! Termination (R279, R291). -/

/-- Requests and engine entries of a virtual core that will no longer be made; a copy in progress whose messages are among them ends
refused. -/
def State.discardWork (s : State) (vk : Nat) : State :=
  let v := s.vc vk
  let unsent := v.kept.filterMap (fun k => match k.msg.body with
    | .store t _ _ _ _ => some t.id
    | _ => none)
  let lost := v.kept.map (fun k => k.msg.body.number)
  let queued := (v.queueOf 2 ++ v.queueOf 3).map QEntry.id
  s.updVc vk (fun v => { v with
    run := v.run.map (fun (p : Nat × Running) => (p.1, { p.2 with
      asked := p.2.asked.filter (fun id => !lost.contains id), refused := p.2.refused || p.2.asked.any lost.contains })),
    queue := [], kept := [], closes := [], forks := [], swaps := 0, holds := [], move := none, ctxFrozen := false, frozen := false,
    lead := none, ending := false,
    unacked := v.unacked.filter (fun a => !(unsent.contains a.id || queued.contains a.id)),
    tokens := v.tokens.map (fun (p : Nat × Token) =>
      (p.1, if v.unacked.any (fun a => unsent.contains a.id && a.token.any (fun t => t.1 == p.1)) then { p.2 with st := .expired } else p.2)) })

/-- A move that goes no further leaves its cores (Table 13.5). -/
def State.endMove (s : State) (m : Option Move) : State :=
  match m with
  | none => s
  | some m =>
    let t := if m.step == 0 then s else s.updCore m.dst (fun c => { c with reserved := false, mig := s.moving m.dst })
    t.updCore m.src (fun c => { c with mig := s.moving m.src })

/-- A gang is terminated: its slots are EMPTY at once, and its absent virtual cores are withdrawn. A move ends, but for one whose state
is being copied. -/
def State.terminate (s : State) (gid : Nat) : State :=
  let vks := s.vcsOf gid
  let s := { s with migQ := s.migQ.filter (fun k => !vks.contains k) }
  let s := vks.foldl (fun t vk =>
    if (t.vc vk).place.isSome && !(t.vc vk).copying then (t.discardWork vk).endMove (t.vc vk).move
    else if (t.vc vk).place.isSome then
      (t.discardWork vk).updVc vk (fun v => { v with
        move := (t.vc vk).move, frozen := true, holds := (t.vc vk).holds.filter (fun h => h.kind == .migrate) })
    else (match (t.vc vk).resume with
      | some c => t.updCore c (fun x => { x with reserved := false })
      | none => t).updVc vk (fun v => { v with absentLog := [], spilled := [], extent := none, resume := none, kept := [], unacked := [], holdQ := [], queue := [] })) s
  let s := s.mapSlots (fun k sl => if vks.contains (k / 16) then
      { sl with st := .empty, park := none, hold := none, wakeAt := none, trap := none, ends := false } else sl)
  let s := { s with cores := s.cores.map (fun (p : Nat × PCore) => (p.1, { p.2 with
    saving := p.2.saving.filter (fun k => !vks.contains k),
    frozen := p.2.frozen && !vks.any (fun k => (s.vc k).place == some p.1) })) }
  let g := s.gang gid
  let s := if g.ready.isNone then
      (rectCores g.die g.ox g.oy (rectW g.gw g.fold) (rectH g.gh g.fold)).foldl (fun t c => t.updCore c (fun x => { x with reserved := false })) s
    else s
  let s := s.updQueue (queueKey g.func g.queue) (fun q => q.updLaunching gid (fun x => { x with issued := true }))
  s.updGang gid (fun g => { g with terminated := true, quiesced := false, toRelease := [] })

/-! The end of a gang. -/

/-- Nothing of a virtual core is outstanding (R269, R291), and its port-out rings have been emptied (R416). -/
def State.vcQuiet (s : State) (terminated : Bool) (vk : Nat) : Bool :=
  let v := s.vc vk
  let idle := v.run.isEmpty && v.queue.all (fun (p : Nat × List QEntry) => p.2.isEmpty) && v.unacked.isEmpty && v.kept.isEmpty && v.forks.isEmpty &&
    v.closes.isEmpty && v.tokens.all (fun (p : Nat × Token) => !(p.2.valid && p.2.st == TokState.pending))
  let ports := v.place.isNone || v.rings.all (fun (p : Nat × Ring) => !(p.2.valid && p.2.kind == 2) || p.2.fill == 0)
  (s.slotsOf vk).all (fun k => (s.slot k).st == .empty) && ports && v.holds.isEmpty && v.move.isNone && (terminated || v.place.isSome) && idle

/-- Outstanding messages of the virtual cores of a gang (R269; port messages: R416). -/
def State.gangMessages (s : State) (gid : Nat) : Bool :=
  let mine := fun (m : Msg) => (match m.src with
    | .vc k => decide (k / 65536 = gid)
    | _ => false)
  let counts := fun (m : Msg) => mine m && (m.net == .request || (match m.body with
    | .port _ _ _ => true
    | _ => false))
  s.net.any counts || s.cores.any (fun (p : Nat × PCore) => p.2.egress.any mine || p.2.spill.any mine)

def State.gangDone (s : State) (gid : Nat) : Bool :=
  match s.gang? gid with
  | none => false
  | some g =>
    g.toRelease.isEmpty && (g.ready.isSome || g.terminated) &&
      (s.vcsOf gid).all (s.vcQuiet g.terminated) && !s.gangMessages gid &&
      !(s.vops.any (fun o => (o.stage == .holding || o.stage == .racking) && o.holds.any (fun h => h.1 / 65536 == gid)))

/-- What the destinations of a batch have recorded for it, and what the source has: the implicit BCLOSE of R269. -/
def State.endClose (s : State) (vk bt : Nat) : Close :=
  let v := s.vc vk
  let b := v.batches.getD bt {}
  let all := if b.bcast then b.dests ++ ((s.vcsOf v.gid).map Dest.vc).filter (fun d => !b.dests.contains d) else b.dests
  let bitsOf := fun (d : Dest) => (match d with
    | .vc k => if !(s.vc k).live then nvcBit else ((s.vc k).errs.filter (fun r => r.shared || (r.src == .vc vk && r.bt == bt))).foldl (fun a r => a ||| r.bits) (0 : BitVec 16)
    | .sig x => if (s.die x).failed then winBit else 0
    | _ => 0)
  let l := all.map bitsOf
  { id := 0, bt := bt, epoch := 0, slot := 0, bc := b.bcast, og := b.og, bits := l.foldl (· ||| ·) b.bits,
    npeer := (l.filter (· != 0)).length }

/-- All batches of a gang in one summary, those that its slots have closed too (R413; DEDUCED, log entry 115). -/
def State.endSummary (s : State) (gid : Nat) : Close :=
  ((s.vcsOf gid).flatMap (fun vk => (List.range 4).map (s.endClose vk))).foldl Close.merge (s.gang gid).closed

/-- A completion for a packet (Table 11.5). -/
def Packet.completion (p : Packet) (status value : Nat) (detail : Word) : Completion :=
  let w := p.words.getD 0 0
  { word0 := BitVec.ofNat 64 (pack [(0, 0x50 + bits w 7 0), (8, 0xE), (12, status % 16), (16, bits w 31 16), (32, value % 2 ^ 32)]),
    word1 := detail, cr := bit w 9, cs := if bit w 10 then some (p.words.getD 7 0) else none, index := p.index,
    type := bits w 7 0, pkt := p.words.take 4 }

/-- An issued packet completes: its completion waits to post. -/
def Queue.finish (q : Queue) (p : Packet) (c : Completion) : Queue :=
  { q with issued := q.issued.erase p, posting := q.posting ++ [c] }

/-- A virtual core of a gang that has ended: what its EMPTY slots and it held stays to be read (R105). -/
def VCore.ended_ (v : VCore) : VCore :=
  { v with
    live := false, place := none, former := v.place.getD v.former, holds := [], holdQ := [], farWait := [], cache := [], refusing := [],
    extent := none, resume := none, move := none, absentLog := [], spilled := [], lead := none }

/-- Requests that wait at a virtual core whose gang ends are answered with NVC (log entry 90). -/
def State.answerWaiting (s : State) (vk : Nat) : State :=
  let v := s.vc vk
  let t := v.farWait.foldl (fun t w => t.answer (.vc vk) w.src (.loadReply w.id w.slot nvcBit 0)) s
  v.holdQ.foldl (fun t h => t.answerError h.msg nvcBit) t

/-- What ended gangs have left of virtual cores that ok names is gone. -/
def State.forget (s : State) (ok : Nat → VCore → Bool) : State :=
  let gone := (s.vcs.filter (fun (p : Nat × VCore) => !p.2.live && ok p.1 p.2)).map Prod.fst
  { s with vcs := s.vcs.filter (fun (p : Nat × VCore) => !gone.contains p.1),
           slots := s.slots.filter (fun (p : Nat × Slot) => !gone.contains (p.1 / 16)) }

/-- A gang leaves the package: its group, the translations of its virtual cores, its patched lines; the cores are free. -/
def State.dropGang (s : State) (gid : Nat) : State :=
  let g := s.gang gid
  let own := fun (k : Nat) => k / 65536 == gid
  let s := (s.vcsOf gid).foldl State.answerWaiting s
  let s := if g.own != 256 then s.dropGroup g.own else s
  { s with
    gangs := FMap.del s.gangs gid,
    vcs := s.vcs.map (fun (p : Nat × VCore) => (p.1, if own p.1 then p.2.ended_ else p.2)),
    migs := s.migs.filter (fun (p : Nat × Nat) => !own p.1),
    migQ := s.migQ.filter (fun k => !own k),
    cores := s.cores.map (fun (p : Nat × PCore) => (p.1, { p.2 with
      owner := p.2.owner.filter (fun (q : Nat × Nat) => !own q.2), saving := p.2.saving.filter (fun k => !own k) })),
    dies := s.dies.map (fun (p : Nat × Die) => (p.1, { p.2 with
      icache := p.2.icache.filter (fun c => c.gid != gid), reqs := p.2.reqs.filter (fun r => r.gid != gid) })) }

/-- The LAUNCH packet of a gang: the issued one, or for a restored gang the words its record gives (Table 14.9); words 2 and 3
are then free (log entry 9). -/
def State.launchPacket (s : State) (gid : Nat) : Packet :=
  let g := s.gang gid
  match (s.queue (queueKey g.func g.queue)).issued.find? (fun p => p.gid == gid) with
  | some p => p
  | none => { index := g.pidx, gid := gid, words :=
      [BitVec.ofNat 64 (pack [(0, 1), (9, bn g.cr), (10, bn g.cs.isSome), (16, g.tag), (32, g.job)]), BitVec.ofNat 64 g.image,
       Config.freeWord s.free, Config.freeWord (s.free + 1), 0, 0, 0, g.cs.getD 0] }

/-- GANG_END of gang ev.key. -/
def execGangEnd (s : State) : Out :=
  let gid := s.ev.key
  .next (if !s.gangDone gid then s
    else
      let g := s.gang gid
      let c := s.endSummary gid
      let st := if g.terminated || g.partly then 2 else if c.bits != 0 then 1 else 0
      let p := s.launchPacket gid
      let t := { s.dropGang gid with free := s.free + 2 }
      if g.silent then t.updQueue (queueKey g.func g.queue) (fun q => { q with issued := q.issued.filter (fun x => x.type != 1 || x.gid != gid) })
      else t.updQueue (queueKey g.func g.queue) (fun q => q.finish p (p.completion st gid c.sum)))

end Sys2Proof.Machine
end

