-- ==== Sys2Proof/Machine/Launch.lean ====
section
/-! DEFINITION. LAUNCH: the image header and the launch checks (R284 to R287), placement and release (R288, R289). -/

namespace Sys2Proof.Machine

/-! The packet (Table 11.11) and the header (Table 11.10). -/

def Packet.word (p : Packet) (i : Nat) : Word := p.words.getD i 0
def Packet.job (p : Packet) : Nat := bits (p.word 0) 47 32
def Packet.image (p : Packet) : Nat := (p.word 1).toNat
def Packet.any (p : Packet) : Bool := bit (p.word 2) 3
def Packet.fixo (p : Packet) : Bool := bit (p.word 2) 4
def Packet.ox (p : Packet) : Nat := bits (p.word 2) 11 8
def Packet.oy (p : Packet) : Nat := bits (p.word 2) 15 12
def Packet.lmask (p : Packet) : Nat := bits (p.word 4) 15 0
def Packet.joins (p : Packet) (n : Nat) : List Nat := (List.range n).map (fun i => bits (p.word 6) (8 * i + 7) (8 * i))

structure Header where
  magic : Nat
  ver   : Nat
  gw    : Nat
  gh    : Nat
  fold  : Nat
  slots : Nat
  lm    : Nat
  ws    : Nat
  ngrp  : Nat
  entry : Nat
  tsize : Nat
  doff  : Nat
  dsize : Nat
  poff  : Nat
  pcnt  : Nat
  deriving DecidableEq, Repr

def headerOf (w : List Word) : Header :=
  let g := fun (i : Nat) => w.getD i 0
  { magic := bits (g 0) 15 0, ver := bits (g 0) 23 16, gw := bits (g 1) 7 0, gh := bits (g 1) 15 8, fold := bits (g 1) 17 16,
    slots := bits (g 1) 22 18, lm := bits (g 1) 51 32, ws := bits (g 2) 20 0, ngrp := bits (g 2) 22 21,
    entry := bits (g 3) 31 0, tsize := bits (g 3) 63 32, doff := bits (g 4) 31 0, dsize := bits (g 4) 63 32,
    poff := bits (g 6) 31 0, pcnt := bits (g 6) 47 32 }

/-- Reserved bits of the header are zero. -/
def headerRz (w : List Word) : Bool :=
  let g := fun (i : Nat) => w.getD i 0
  bits (g 0) 63 24 == 0 && bits (g 1) 31 23 == 0 && bits (g 1) 63 52 == 0 && bits (g 2) 63 23 == 0 && g 5 == 0 &&
    bits (g 6) 63 48 == 0 && g 7 == 0

def Packet.hd (p : Packet) : Header := headerOf p.header

/-- Engine context area of a folded virtual core (R348). -/
def ctxE : Nat := 0xA000

/-- Extents the header names: text, data, patch list, as address and length. -/
def Header.extents (h : Header) (image : Nat) : List (Nat × Nat) :=
  [(image + 64, h.tsize), (image + h.doff, h.dsize), (image + h.poff, 8 * h.pcnt)].filter (fun x => x.2 != 0)

/-! The launch checks (R286). -/

/-- Free logical cores of a die; none while it has not come up. -/
def State.freeCores (s : State) (d : Nat) : Nat :=
  ((rectCores d 0 0 (meshW d) (meshH d)).filter s.coreFree).length

/-- The rectangle of a LAUNCH lies within the logical mesh of a die: at its origin when that is fixed. -/
def Packet.fits (p : Packet) (pw ph d : Nat) : Bool := if p.fixo then inMesh d p.ox p.oy pw ph else inMesh d 0 0 pw ph

/-- The die chosen with any = 1 (R287). -/
def State.anyDie (s : State) (p : Packet) (pw ph : Nat) : Nat :=
  let ds := (List.range 8).filter (p.fits pw ph)
  (ds.find? (fun d => ds.all (fun e => s.freeCores e ≤ s.freeCores d))).getD 0

/-- A group allocated by function f through GALLOC. -/
def State.allocated (s : State) (f g : Nat) : Bool :=
  let x := s.group g
  x.valid && !x.own && x.owner == f

/-- The die a LAUNCH is fixed to at its fetch (R287). -/
def State.launchDie (s : State) (p : Packet) : Nat :=
  if p.any then s.anyDie p (rectW p.hd.gw p.hd.fold) (rectH p.hd.gh p.hd.fold) else bits (p.word 2) 2 0

/-- The number of the first launch check that fails; 0 when all pass. -/
def State.launchCheck (s : State) (f : Nat) (p : Packet) : Nat :=
  let h := p.hd
  let F := 2 ^ h.fold
  let pw := rectW h.gw h.fold
  let ph := rectH h.gh h.fold
  let w5 := p.word 5
  if h.magic != 0x5A38 || h.ver != 1 || !headerRz p.header || h.gw == 0 || h.gh == 0 || 2 < h.fold || h.slots == 0 ||
      16 / F < h.slots || h.lm % 4096 != 0 || p.patches.any (fun e => bits e 63 35 != 0 || bits e 33 32 == 3 ||
        (bit e 34 && bits e 31 0 % 4 != 0)) then 1
  else if (h.fold != 0 && 0xF0000 < F * (h.lm + ctxE)) || (h.fold == 0 && 0xF0000 < h.lm) || 0x100000 / F < h.ws then 2
  else if h.lm < h.dsize || h.tsize ≤ h.entry then 3
  else if !(if p.any then (List.range 8).any (p.fits pw ph) else p.fits pw ph (bits (p.word 2) 2 0)) then 4
  else if (p.joins h.ngrp).any (fun g => !s.allocated f g) then 5
  else if bit w5 26 && (h.gw * h.gh ≤ bits w5 15 0 || h.slots ≤ bits w5 19 16) then 6
  else if p.job != 0 && s.gangs.any (fun (q : Nat × Gang) => q.2.job == p.job) then 7
  else if p.lmask == 0 || 2 ^ h.slots ≤ p.lmask then 8
  else 0

/-- The packet at head is fetched, the queue runs, and R276 lets it issue: no LAUNCH before it is still to be released. A LAUNCH may be
checked and placed meanwhile (R294's example); it is released in its turn. While a QUIESCE of the device stops the queues only a RESUME
issues (R362, R364). -/
def State.ripe (s : State) (k : Nat) (types : List Nat) : Option Packet :=
  let q := s.queue k
  match q.front with
  | some p =>
    if q.en && !q.stopped && (!q.quiet || p.type == 8) && types.contains p.type && (!p.ord || (q.issued.isEmpty && q.posting.isEmpty)) &&
        (p.type == 1 || q.issued.all Packet.issued) then some p
    else none
  | none => none

/-- LAUNCH_PACKET of queue ev.key: the checked LAUNCH becomes a request of its die (R293). -/
def execLaunchPacket (s : State) : Out :=
  let k := s.ev.key
  .next (match s.ripe k [1] with
    | none => s
    | some p =>
      if p.step != 0 then s
      else
        let n := s.freshId
        n.2.updQueue k (fun q => { q with front := some { p with step := 1, stamp := n.1 } }))

/-! Placement. -/

/-- A core as a launch leaves it: its CSRs at their reset values (R25), no engine context on it. -/
def PCore.launched (c : PCore) : PCore :=
  { c with reserved := false, owner := [], stallthr := 0x00100000, tokexp := 0x00040000, sqfen := false, cmapIdx := 0 }

/-- A gang id not in use, from 0x0001 to 0xFFFE: which one is free (log entry 9). -/
def State.newGid (s : State) : Nat :=
  let a := (Config.freeWord s.free).toNat
  let ids := (List.range 2048).map (fun i => (a + i) % 0xFFFE + 1)
  (ids.find? (fun g => (s.gang? g).isNone)).getD 1

/-- Step 1: cores reserved, gang id and own group allocated; the queue goes on to its next packet. With sv = 0 the whole supmbox of the
gang is 0 (DESIGN CHOICE, log entry 82). -/
def State.reserve (s : State) (k : Nat) (p : Packet) (ox oy own : Nat) : State :=
  let h := p.hd
  let q := s.queue k
  let gid := s.newGid
  let cores := rectCores p.die ox oy (rectW h.gw h.fold) (rectH h.gh h.fold)
  let w5 := p.word 5
  let g : Gang := {
    job := p.job, die := p.die, ox := ox, oy := oy, fold := h.fold, slots := h.slots, gw := h.gw, gh := h.gh, lmlimit := h.lm,
    wslimit := h.ws, func := k / 32, queue := k % 32, prio := q.prio, pre := q.pre, image := p.image, textSize := h.tsize,
    patches := p.patches, symbols := p.joins h.ngrp,
    gjoin := (p.word 6).toNat % 2 ^ (8 * h.ngrp), own := own, pidx := p.index, tag := bits (p.word 0) 31 16,
    cr := bit (p.word 0) 9, cs := if bit (p.word 0) 10 then some (p.word 7) else none,
    supmbox := BitVec.ofNat 64 (if bit w5 26 then 2 ^ 63 + bits w5 25 0 else 0), lmask := p.lmask, arg := p.word 3 }
  let s := s.forget (fun k _ => k / 65536 == gid)
  let s := { s with free := s.free + 1, gangs := FMap.set s.gangs gid g }
  let s := (s.dropGroup own).updGroup own (fun x => { x with valid := true, owner := k / 32, own := true, gid := gid })
  let s := cores.foldl (fun t c => t.updCore c (fun x => { x with reserved := true })) s
  let s := s.updDie p.die (fun d => { d with fixed := d.fixed.filter (fun r => r.queue != k) })
  s.updQueue k (fun q => { q with
    front := none, head := (q.head + 1) % q.count, issued := q.issued ++ [{ p with step := 2, gid := gid }] })

/-- n bytes of a gang's image from offset o, patched. -/
def State.imageBytes (s : State) (g : Gang) (o n : Nat) : Option (State × List Byte) :=
  (s.readVa g.die g.func (g.image + o) n).map (fun r => (r.1, patchBytes g.patches g.symbols o r.2))

/-- The first lines of the text, at most 128 KiB (step 2). Words of the last line that lie past them read as 0 (DESIGN CHOICE, log
entry 83). -/
def textLines (g : Gang) (gid : Nat) (bs : List Byte) (trellis : Nat) : List CacheLine :=
  (List.range ((bs.length + 63) / 64)).map (fun i =>
    { trellis := trellis, fn := g.func, gid := gid, line := g.image / 64 + 1 + i,
      words := insnsOfBytes ((bs.drop (64 * i)).take 64) })

/-- The lines put into the caches of the trellises of a rectangle. -/
def State.multicast (s : State) (gid : Nat) (g : Gang) (bs : List Byte) : State :=
  let ts := ((rectCores g.die g.ox g.oy (rectW g.gw g.fold) (rectH g.gh g.fold)).map trellisOf).eraseDups
  let new := ts.flatMap (textLines g gid bs)
  let n := (bs.length + 63) / 64
  s.updDie g.die (fun d => { d with icache := new ++
    (d.icache.filter (fun c => !ts.contains c.trellis) ++
      ts.flatMap (fun t => (d.icache.filter (fun c => c.trellis == t)).take (2048 - n))) })

/-- qowner of the slots of a gang (R289). -/
def Gang.owner (g : Gang) : BitVec 17 :=
  BitVec.ofNat 17 (pack [(0, g.queue), (5, g.func), (8, g.prio), (15, bn g.pre), (16, 1)])

/-- Slot n of a virtual core at launch (R23, R289). -/
def launchSlot (g : Gang) (base n : Nat) : Slot :=
  let sl : Slot := { segbase := BitVec.ofNat 64 base, seglim := BitVec.ofNat 64 g.lmlimit, qowner := g.owner, pc := BitVec.ofNat 64 (g.image + 64) }
  if g.lmask / 2 ^ n % 2 == 1 then
    { ((sl.writeX 10 (BitVec.ofNat 64 n)).writeX 11 (BitVec.ofNat 64 g.lmask)).writeX 12 g.arg with
      mie := if g.pre then 1 else 0 }
  else sl

/-- The stochastic-rounding key of a virtual core (R305, Table 12.2). -/
def launchKey (job vcid : Nat) : Word := counterG (BitVec.ofNat 64 job) (BitVec.ofNat 64 (2 ^ 63 + vcid % 65536))

/-- Steps 3 to 5 for one virtual core. The engine context area of a folded one begins as zeros (R348). -/
def State.launchVc (s : State) (gid : Nat) (g : Gang) (entry : Nat) (data : List Byte) (n : Nat) : State :=
  let p := corePlace g.die g.ox g.oy g.gw g.fold n
  let base := if g.fold == 0 then 0 else p.2 * (g.lmlimit + ctxE)
  let vk := vkey gid n
  let v : VCore := {
    gid := gid, vcid := n, live := true, place := some p.1, fold := g.fold, fidx := p.2, base := base,
    groups := g.own :: g.symbols, supmbox := g.supmbox,
    srkey := launchKey g.job n }
  let a := lmAddr p.1 base
  let s := { s with mem := Memory.setBytes (Memory.clear s.mem a g.lmlimit) a data, full := fullClearRange s.full a g.lmlimit }
  let s := if g.fold == 0 then s else { s with mem := Memory.clear s.mem (a + g.lmlimit) ctxE }
  let s := s.setVc vk v
  (List.range (16 / 2 ^ g.fold)).foldl (fun t j =>
    t.setSlot (slotKey vk j) { launchSlot g base j with pc := BitVec.ofNat 64 (g.image + 64 + entry) }) s

/-- LAUNCH_PLACEMENT of gang ev.key: steps 2 to 6. It waits while its image cannot be read. -/
def execLaunchPlacement (s : State) : Out :=
  let gid := s.ev.key
  let g := s.gang gid
  let k := queueKey g.func g.queue
  .next (match (s.queue k).launching gid with
    | none => s
    | some p =>
      if p.step != 2 || (s.gang? gid).isNone then s
      else
        let h := p.hd
        match s.imageBytes g 64 (min h.tsize 0x20000) with
        | none => s
        | some (t, text) => match t.imageBytes g h.doff h.dsize with
          | none => s
          | some (t, data) =>
            let t := t.multicast gid g text
            let cores := rectCores g.die g.ox g.oy (rectW g.gw g.fold) (rectH g.gh g.fold)
            let t := t.forget (fun _ v => cores.contains v.former)
            let t := (List.range (g.gw * g.gh)).foldl (fun t n => t.launchVc gid g h.entry data n) t
            let t := cores.foldl (fun t c => t.updCore c PCore.launched) t
            let t := t.updGang gid (fun x => { x with toRelease := cores, ready := some (t.die g.die).cyc })
            t.updQueue k (fun q => q.updLaunching gid (fun x => { x with step := 3 })))

/-- The release reaches a core at this boundary. -/
def State.releasable (s : State) (gid c : Nat) : Bool :=
  let d := s.die (c / 256)
  let g := s.gang gid
  g.toRelease.contains c && d.cyc % 16 == 0 && d.up && !d.frozen && !(s.core c).frozen && g.ready.any (fun t => t < d.cyc) &&
    (s.queue (queueKey g.func g.queue)).inTurn gid

/-- The LAUNCH issues when its last core has started (R288, step 6). -/
def State.issueLaunch (s : State) (gid : Nat) : State :=
  let g := s.gang gid
  let k := queueKey g.func g.queue
  if !g.toRelease.isEmpty then s
  else s.updQueue k (fun q => q.updLaunching gid (fun x => { x with issued := true }))

/-- GANG_RELEASE_AT_CORE of gang ev.ix at core ev.key. -/
def execGangReleaseAtCore (s : State) : Out :=
  let c := s.ev.key
  let gid := s.ev.ix
  .next (if !s.releasable gid c then s
    else
      let g := s.gang gid
      let vks := (s.hosted c).filter (fun k => (s.vc k).gid == gid)
      let t := s.mapSlots (fun k sl =>
        if vks.contains (k / 16) && g.lmask / 2 ^ (k % 16) % 2 == 1 then { sl with st := .issuing } else sl)
      let t := vks.foldl (fun t k => (t.wantLines k).sweep k) t
      (t.updGang gid (fun x => { x with toRelease := x.toRelease.erase c })).issueLaunch gid)

end Sys2Proof.Machine
end

