-- ==== Sys2Proof/Machine/Arbiter.lean ====
section
/-! DEFINITION. The issue-slot arbiter (R293 to R296), the target of a resumption (R358). -/

namespace Sys2Proof.Machine

/-! Requests. -/

/-- A request of a queue on a die: its order, its cost, and for a resumption the core it was saved on, its gang, and the position in the
rectangle of the gang that its virtual cores share (R358). -/
structure Request where
  queue : Nat
  stamp : Nat
  cores : Nat
  former : Option (Nat × Nat × Nat)
  deriving DecidableEq, Repr

/-- Virtual cores of a gang saved from a core that still wait for their resumption. -/
def State.savedOn (s : State) (g gid : Nat) : List Nat :=
  (s.vcs.filter (fun (p : Nat × VCore) => p.2.live && p.2.gid == gid && p.2.place.isNone && p.2.former == g && p.2.resume.isNone && p.2.extent.isSome &&
    !(s.gang p.2.gid).terminated)).map Prod.fst

/-- Those of them with a position in common: they were folded together (R358). -/
def State.savedFrom (s : State) (g gid own : Nat) : List Nat := (s.savedOn g gid).filter (fun k => s.ownPlace k == own)

/-- The positions of the virtual cores of a gang saved from a core, each once. -/
def State.savedPlaces (s : State) (g gid : Nat) : List Nat :=
  (s.savedOn g gid).foldl (fun l k => if l.contains (s.ownPlace k) then l else l ++ [s.ownPlace k]) []

/-- The virtual cores of a position saved from a core that are all out, copied and not resumed: one request. -/
def State.resumptions (s : State) (d : Nat) : List Request :=
  (rectCores d 0 0 (meshW d) (meshH d)).flatMap (fun g =>
    (s.gangs.map Prod.fst).flatMap (fun gid => (s.savedPlaces g gid).filterMap (fun own =>
      let vks := s.savedFrom g gid own
      if vks.all (fun k => (s.vc k).copied) && !((s.hosted g).any (fun k => (s.vc k).gid == gid && s.ownPlace k == own)) && !(s.gang gid).quiesced then
        some { queue := queueKey (s.gang gid).func (s.gang gid).queue, cores := 1, former := some (g, gid, own),
               stamp := (vks.map (fun k => (s.vc k).reqSeq)).foldl max 0 }
      else none)))

/-- The LAUNCH of a queue that waits to be placed on a die. -/
def State.launchOn (s : State) (d k : Nat) : Option Packet :=
  match (s.queue k).front with
  | some p => if p.step == 1 && p.die == d && !(s.queue k).stopped && !(s.queue k).quiet then some p else none
  | none => none

/-- All requests of a die. -/
def State.requests (s : State) (d : Nat) : List Request :=
  (s.queues.filterMap (fun (p : Nat × Queue) => (s.launchOn d p.1).map (fun x =>
    { queue := p.1, stamp := x.stamp, cores := rectW x.hd.gw x.hd.fold * rectH x.hd.gh x.hd.fold, former := none }))) ++
    s.resumptions d

/-- The oldest request of each queue, queues ascending. -/
def State.oldestRequests (s : State) (d : Nat) : List Request :=
  let all := s.requests d
  (List.range 256).filterMap (fun k =>
    let mine := all.filter (fun r => r.queue == k)
    mine.find? (fun r => mine.all (fun x => r.stamp ≤ x.stamp)))

/-! Placeable requests. -/

/-- The rectangle fixed for a queue's LAUNCH on a die. -/
def State.fixedFor (s : State) (d k : Nat) : Option FixedRect := (s.die d).fixed.find? (fun r => r.queue == k)

/-- Candidate origins of a LAUNCH. -/
def Packet.origins (p : Packet) : List (Nat × Nat) := if p.fixo then [(p.ox, p.oy)] else Machine.origins p.die

/-- Where a LAUNCH can be placed now. -/
def State.launchRect (s : State) (k : Nat) (p : Packet) : Option (Nat × Nat) :=
  let os := match s.fixedFor p.die k with
    | some r => [(r.ox, r.oy)]
    | none => p.origins
  if s.freeGroup.isNone then none
  else firstRect p.die (rectW p.hd.gw p.hd.fold) (rectH p.hd.gh p.hd.fold) (fun g => s.coreFree g && !s.fixedAway g (some k)) os

/-- The core a resumption of the virtual cores of a gang saved from a core takes (R358); entries that moves already begun will take are
in use. -/
def State.resumeCore (s : State) (g gid own : Nat) : Option Nat :=
  let vks := s.savedFrom g gid own
  let ok := fun (c : Nat) => s.coreFree c && !s.fixedAway c none
  let room := fun (c : Nat) => s.migs.length + s.migsSoon.length + (vks.filter (fun k => (FMap.get? s.migs k).isNone && s.ownPlace k != c)).length ≤ 256
  if ok g then some g
  else (rectCores (g / 256) 0 0 (meshW (g / 256)) (meshH (g / 256))).find? (fun c => ok c && room c)

def State.placeable (s : State) (r : Request) : Bool :=
  match r.former with
  | some (g, gid, own) => (s.resumeCore g gid own).isSome
  | none => (match (s.queue r.queue).front with
    | some p => (s.launchRect r.queue p).isSome
    | none => false)

/-- A virtual core is given its core for the resumption, with a migration entry when it is not in its gang's rectangle. -/
def State.resumeOn (s : State) (vk c : Nat) : State :=
  let s := s.updVc vk (fun v => { v with resume := some c })
  if s.ownPlace vk == c then { s with migs := FMap.del s.migs vk } else { s with migs := FMap.set s.migs vk c }

/-- A request is placed. -/
def State.placeRequest (s : State) (r : Request) : State :=
  match r.former with
  | some (g, gid, own) => (match s.resumeCore g gid own with
    | some c => ((s.savedFrom g gid own).foldl (fun t k => t.resumeOn k c) s).updCore c (fun x => { x with reserved := true })
    | none => s)
  | none => (match (s.queue r.queue).front with
    | some p => (match s.launchRect r.queue p, s.freeGroup with
      | some o, some own => s.reserve r.queue p o.1 o.2 own
      | _, _ => s)
    | none => s)

/-! Deficit round robin (R294). -/

/-- The member of a list after q, wrapping. -/
def nextAfter (l : List Nat) (q : Nat) : Nat := (l.find? (fun x => q < x)).getD (l.headD q)

/-- The loop of R294: the queue served and the deficits. cost and weight by queue. -/
def roundRobin (members : List Nat) (cost weight : Nat → Nat) : Nat → FMap Nat → Nat → Nat × FMap Nat
  | 0, d, q => (q, d)
  | n + 1, d, q =>
    if FMap.getD d q 0 < cost q then
      roundRobin members cost weight n (FMap.set d q (FMap.getD d q 0 + 16 * weight q)) (nextAfter members q)
    else (q, d)

/-- The placement step. -/
def State.arbitrate (s : State) (d : Nat) (Q : List Request) : State :=
  let inQ := fun (k : Nat) => Q.any (fun r => r.queue == k)
  let s := s.updDie d (fun x => { x with deficit := x.deficit.filter (fun (p : Nat × Nat) => inQ p.1) })
  match Q with
  | [] => s
  | _ =>
    let prio := fun (k : Nat) => (s.queue k).prio
    let L := (Q.map (fun r => prio r.queue)).foldl max 0
    let S := (Q.map Request.queue).filter (fun k => prio k == L)
    let ptr := FMap.getD (s.die d).pointer L 0
    let q := (S.find? (fun k => ptr ≤ k)).getD (S.headD 0)
    let cost := fun (k : Nat) => 16 * ((Q.find? (fun r => r.queue == k)).map Request.cores).getD 0
    let r := roundRobin S cost (fun k => (s.queue k).weight) (256 * 256) (s.die d).deficit q
    let s := s.updDie d (fun x => { x with
      deficit := FMap.set r.2 r.1 (FMap.getD r.2 r.1 0 - cost r.1), pointer := FMap.set x.pointer L r.1 })
    match Q.find? (fun x => x.queue == r.1) with
    | some x => s.placeRequest x
    | none => s

/-! The pre-emption step (R295). -/

/-- The slots of a core's virtual cores that are not EMPTY. -/
def State.busySlots (s : State) (c : Nat) : List Slot :=
  ((s.hosted c).flatMap (fun vk => s.slotsOf vk)).map s.slot |>.filter (fun sl => sl.st != .empty)

/-- A core is pre-emptible for priority P: an occupied one, not one that is reserved (DESIGN CHOICE, log entry 107). -/
def State.preemptible (s : State) (c P : Nat) : Bool :=
  s.coreSt c == 2 && (s.busySlots c).all (fun sl =>
    sl.qowner.getLsbD 16 && sl.qowner.getLsbD 15 && decide (sl.qowner.toNat / 256 % 128 < P))

/-- The first candidate rectangle of a LAUNCH of queue k. -/
def State.candidate (s : State) (k : Nat) (p : Packet) : Option (Nat × Nat) :=
  firstRect p.die (rectW p.hd.gw p.hd.fold) (rectH p.hd.gh p.hd.fold)
    (fun g => (s.coreFree g || s.preemptible g (s.queue k).prio) && !s.fixedAway g none) p.origins

/-- A virtual core leaves the migration queue for its pre-emption (R335). -/
def State.leaveQueue (s : State) (vk : Nat) : State :=
  if s.migQ.contains vk then
    (({ s with migQ := s.migQ.filter (· != vk) }).updVc vk (fun v => { v with move := none })).releaseHold vk .migrate
  else s

/-- PRE is set for a victim: at its lowest-numbered slot that is not EMPTY, unless it is pending or being served. A victim in
the migration queue leaves it. -/
def State.victim (s : State) (vk : Nat) : State :=
  let ks := (s.slotsOf vk).filter (fun k => (s.slot k).st != .empty)
  let s := s.leaveQueue vk
  if (s.vc vk).lead.isSome || ks.any (fun k => (s.slot k).mip.getLsbD 0) then s
  else match ks with
    | [] => s
    | k :: _ => s.setMip k 0

/-- The victims of the rectangles fixed on a die. -/
def State.fixedVictims (s : State) (d : Nat) : State :=
  ((s.die d).fixed.flatMap (fun r => rectCores d r.ox r.oy r.pw r.ph)).foldl (fun t c =>
    (t.hosted c).foldl (fun t vk => t.victim vk) t) s

/-- A LAUNCH that is not placeable, is not fixed, and has a candidate rectangle. -/
def State.unfixed (s : State) (d : Nat) (r : Request) : Option (Nat × Packet × (Nat × Nat)) :=
  match r.former, (s.queue r.queue).front with
  | none, some p =>
    if (s.fixedFor d r.queue).isSome || s.placeable r then none
    else (s.candidate r.queue p).map (fun o => (r.queue, p, o))
  | _, _ => none

/-- The pre-emption step; Lp is one more than the largest priority of a placeable request. -/
def State.preemptStep (s : State) (d : Nat) (rs Q : List Request) : State :=
  let prio := fun (k : Nat) => (s.queue k).prio
  let Lp := (Q.map (fun r => prio r.queue + 1)).foldl max 0
  let U := rs.filterMap (s.unfixed d)
  let Lu := (U.map (fun u => prio u.1)).foldl max 0
  match U.find? (fun u => prio u.1 == Lu) with
  | none => s
  | some (k, p, o) =>
    if Lu + 1 ≤ Lp then s
    else s.updDie d (fun x => { x with fixed := x.fixed ++
      [{ queue := k, ox := o.1, oy := o.2, pw := rectW p.hd.gw p.hd.fold, ph := rectH p.hd.gh p.hd.fold }] })

def State.arbiterDue (s : State) (d : Nat) : Bool :=
  let x := s.die d
  x.up && !x.frozen && x.cyc % 16 == 0 && x.arbDone != x.cyc + 1 && !s.dispatchDue d

/-- ARBITER_BOUNDARY of die ev.key, after the migration queue has been served (R329). -/
def execArbiterBoundary (s : State) : Out :=
  let d := s.ev.key
  .next (if !s.arbiterDue d then s
    else
      let s := s.updDie d (fun x => { x with arbDone := x.cyc + 1 })
      let rs := s.oldestRequests d
      let Q := rs.filter s.placeable
      let t := (s.preemptStep d rs Q).fixedVictims d
      t.arbitrate d (rs.filter t.placeable))

/-- A LAUNCH that has not been placed is withdrawn (R273, R295): its rectangle is unfixed and every pending PRE of it is
withdrawn. -/
def State.unfix (s : State) (k : Nat) : State :=
  (List.range 8).foldl (fun t d =>
    match t.fixedFor d k with
    | none => t
    | some r =>
      let vks := (rectCores d r.ox r.oy r.pw r.ph).flatMap t.hosted
      let t := t.updDie d (fun x => { x with fixed := x.fixed.filter (fun y => y.queue != k) })
      t.mapSlots (fun key sl => if vks.contains (key / 16) then { sl with mip := sl.mip &&& 0b1110#4 } else sl)) s

end Sys2Proof.Machine
end

