-- ==== Sys2Proof/Machine/Bars.lean ====
section
/-! DEFINITION. The registers of a function (R270 to R273, R292, R373, R375): what the host reads in BAR 0 and BAR 2, and the events of
its writes. A host access is an aligned access of 8 bytes; the link must be up. -/

namespace Sys2Proof.Machine

/-! Registers as they read. -/

/-- A queue descriptor (Table 11.2), 16 words. -/
def Queue.descriptor (q : Queue) : List Word :=
  [BitVec.ofNat 64 (pack [(0, bn q.en), (1, bn q.memva), (2, q.lgsz), (7, q.base)]),
   BitVec.ofNat 64 (pack [(0, q.prio), (7, bn q.pre), (8, q.weight), (16, q.opmask.toNat)]),
   BitVec.ofNat 64 (pack [(0, q.head), (16, q.tail), (32, q.stateCode)]),
   BitVec.ofNat 64 (pack [(0, q.lgcr), (6, q.cbase)]),
   BitVec.ofNat 64 (pack [(6, q.ebase)]),
   BitVec.ofNat 64 (pack [(0, q.chead.toNat), (16, q.ctail.toNat)]), 0, 0] ++ q.windows

/-- A group entry (Table 11.12). -/
def State.groupWords (s : State) (g : Nat) : List Word :=
  let x := s.group g
  if !x.valid then [0, 0]
  else [BitVec.ofNat 64 (pack [(0, 1), (1, x.owner), (4, bn x.own), (16, (s.membersOf g).length), (32, if x.own then x.gid else 0)]),
        x.episodes.setWidth 64]

/-- A read of BAR 0 of function f, but for GALLOC, which is an event. -/
def State.bar0 (s : State) (f off : Nat) : Word :=
  if off % 8 != 0 then 0
  else if 0x1000 ≤ off && off < 0x2000 then (s.queue (queueKey f ((off - 0x1000) / 0x80))).descriptor.getD (off % 0x80 / 8) 0
  else if off == 0x3010 then BitVec.ofNat 64 (s.die f).lvlint
  else if 0x4000 ≤ off && off < 0x5000 then (s.groupWords ((off - 0x4000) / 16)).getD (off % 16 / 8) 0
  else 0

/-- Service clock of a die in units of 100 MHz (R383). -/
def serviceClock (d : Nat) : Nat := if isF d then 20 else 16
/-- The highest clock of a die now: in bring-up an L-die runs at 1.2 GHz. -/
def State.topClock (s : State) (d : Nat) : Nat := if !isF d && (s.die d).bringup then 12 else serviceClock d

/-- A read of the configuration header that every function reports (R372), its fields where PCI Express has them (PRESUMED, log
entry 96); the rest of it is free. -/
def State.configHeader (s : State) (off : Nat) : Word :=
  let free := Config.freeWord (s.free + off)
  let upper := free.extractLsb' 32 32
  match off with
  | 0 => upper ++ (0x0A08 : BitVec 16) ++ (0x1F9B : BitVec 16)
  | 8 => upper ++ (0x120000 : BitVec 24) ++ (0x01 : BitVec 8)
  | _ => free

/-- A read of BAR 2 of function f (Table 15.1). -/
def State.bar2 (s : State) (f off : Nat) : Word :=
  let x := s.func f
  let hottest := ((List.range 8).map (fun d => (s.die d).temp)).foldl (fun a t => if a.slt t then t else a) (s.die 0).temp
  match off with
  | 0x000 => BitVec.ofNat 64 (pack [(0, bn x.ringEn), (1, x.ringLg), (6, x.ringBase)])
  | 0x010 => BitVec.ofNat 64 x.frhead
  | 0x018 => BitVec.ofNat 64 (s.orientation f * 65536)
  | 0x020 => BitVec.ofNat 64 (pack ((List.range 8).map (fun d => (d, bn (s.die d).up)) ++ [(8, s.svc)]))
  | 0x028 => BitVec.ofNat 64 (pack [(0, (s.die f).clock * 100), (16, bn ((s.die f).up && decide ((s.die f).clock < serviceClock f)))])
  | 0x030 => BitVec.ofNat 64 (pack [(0, hottest.toNat), (16, s.thbm.toNat)])
  | 0x038 => BitVec.ofNat 64 (pack [(0, s.pwr), (16, s.plim)])
  | _ => 0

/-! Writes of BAR 0. ev.key is a queue key. -/

/-- DOORBELL: ev.val is the new tail. -/
def execDoorbell (s : State) : Out :=
  .next (if !s.hostLink || !(s.queue s.ev.key).en then s
    else s.updQueue s.ev.key (fun q => { q with tail := s.ev.val.toNat % 65536 % q.count }))

/-- Word 0 of a descriptor written while the queue is disabled. -/
def Queue.writeW0 (q : Queue) (w : Word) : Queue :=
  { q with memva := bit w 1, lgsz := bits w 6 2, base := bits w 63 7 }

/-- QUEUE_ENABLE: word 0 is written with ev.val, whose en is 1, while en = 0. -/
def execQueueEnable (s : State) : Out :=
  let q := s.queue s.ev.key
  let w := s.ev.val
  let r := q.writeW0 w
  .next (if !s.hostLink || q.en || !bit w 0 || r.lgsz < 4 || 16 < r.lgsz || q.lgcr < 4 || 16 < q.lgcr then s
    else s.updQueue s.ev.key (fun _ =>
      { r with en := true, stopped := false, skip := false, head := if q.skip then (q.head + 1) % r.count else q.head }))

/-- A queue is disabled (R273): a LAUNCH not yet placed and a WAIT are withdrawn. -/
def State.disableQueue (s : State) (k : Nat) : State :=
  (s.unfix k).updQueue k (fun q => { q with
    en := false,
    front := none })

/-- QUEUE_DISABLE: word 0 is written with en = 0. -/
def execQueueDisable (s : State) : Out :=
  .next (if !s.hostLink || !(s.queue s.ev.key).en || bit s.ev.val 0 then s else s.disableQueue s.ev.key)

/-- COMPLETION_HEAD_WRITE: ev.val is word 5. -/
def execCompletionHeadWrite (s : State) : Out :=
  .next (if !s.hostLink then s else s.updQueue s.ev.key (fun q => { q with chead := s.ev.val.setWidth 16 }))

/-! Registers without behaviour of their own. -/

/-- A write of a descriptor word while en = 0. -/
def Queue.writeWord (q : Queue) (i : Nat) (w : Word) : Queue :=
  match i with
  | 0 => q.writeW0 w
  | 1 => { q with prio := bits w 6 0, pre := bit w 7, weight := max 1 (bits w 15 8), opmask := (w >>> 16).setWidth 16 }
  | 3 => { q with lgcr := bits w 4 0, cbase := bits w 63 6 }
  | 4 => { q with ebase := bits w 63 6 }
  | _ => if 8 ≤ i then { q with windows := q.windows.set (i - 8) (w &&& (if i % 2 == 0 then 0xFFFFFFFFFFFF0003 else 0xFFFFFFFFFFFF0000)) }
    else q

/-- A write of word i of the descriptor of queue k. A write of prio or weight sets the deficit of the queue to 0 (R294). -/
def State.writeDescriptor (s : State) (k i : Nat) (w : Word) : State :=
  let q := s.queue k
  if q.en || (i == 0 && bit w 0) then s
  else
    let s := s.updQueue k (fun q => q.writeWord i w)
    if i == 1 then { s with dies := s.dies.map (fun (p : Nat × Die) => (p.1, { p.2 with deficit := FMap.del p.2.deficit k })) } else s

def State.writeBar0 (s : State) (f off : Nat) (w : Word) : State :=
  if off % 8 != 0 then s
  else if 0x1000 ≤ off && off < 0x2000 then s.writeDescriptor (queueKey f ((off - 0x1000) / 0x80)) (off % 0x80 / 8) w
  else if off == 0x3010 then
    (let v := bits w 16 0
     if 1024 ≤ v && v ≤ 65536 then s.updDie f (fun d => { d with lvlint := v }) else s)
  else s

/-- Word 0x000 of BAR 2: like w0 of a queue, its fields change only while the ring is disabled. -/
def Func.writeRing (x : Func) (w : Word) : Func :=
  if x.ringEn then (if bit w 0 then x else { x with ringEn := false })
  else
    let lg := bits w 4 1
    if bit w 0 && (lg < 4 || 12 < lg) then x
    else { x with ringEn := bit w 0, ringLg := lg, ringBase := bits w 63 6 }

/-- The mask bit of an MSI-X vector; an unmasked pending one fires. -/
def State.maskVector (s : State) (f v : Nat) (m : Bool) : State :=
  let b := (1 : BitVec 33) <<< v
  if m then s.updFunc f (fun x => { x with masked := x.masked ||| b })
  else
    let was := (s.func f).pending.getLsbD v
    let t := s.updFunc f (fun x => { x with masked := x.masked &&& ~~~b, pending := x.pending &&& ~~~b })
    if was then t.fire f v else t

/-- REGISTER_WRITE: the host writes ev.val at offset ev.ix of function ev.key; ev.data is [0] for BAR 0, [1] for BAR 2, [2] for the
mask bit of MSI-X vector ev.ix. -/
def execRegisterWrite (s : State) : Out :=
  let f := s.ev.key % 8
  .next (if !s.hostLink then s
    else match (s.ev.data.headD 0).toNat with
      | 0 => s.writeBar0 f s.ev.ix s.ev.val
      | 1 => if s.ev.ix == 0 then s.updFunc f (fun x => x.writeRing s.ev.val) else s
      | _ => s.maskVector f (s.ev.ix % 33) (bit s.ev.val 0))

/-- REQUEST_RING_DOORBELL: ev.val is the new tail of the request ring of function ev.key. -/
def execRequestRingDoorbell (s : State) : Out :=
  let f := s.ev.key % 8
  .next (if !s.hostLink || !(s.func f).ringEn then s
    else s.updFunc f (fun x => { x with frtail := s.ev.val.toNat % 65536 % 2 ^ x.ringLg }))

end Sys2Proof.Machine
end

