-- ==== Sys2Proof/Machine/Vintner.lean ====
section
/-! DEFINITION. What the Vintner performs (F12, R228 to R236): ranking, selection, racking, the vintage log, migration of
individuals. -/

namespace Sys2Proof.Machine

/-! Ranking (R228). -/

/-- a ranks strictly before b: descending FP32 value, NaNs last. -/
def fitBefore (a b : Nat) : Bool :=
  match fmt32.value a, fmt32.value b with
  | .nan _, _ => false
  | _, .nan _ => true
  | x, y => numCmp x y == 1

/-- A member put behind those that rank before it, and behind its equals. -/
def insertRank (r : Nat × Nat × Nat) : List (Nat × Nat × Nat) → List (Nat × Nat × Nat)
  | [] => [r]
  | x :: t => if fitBefore r.2.1 x.2.1 then r :: x :: t else x :: insertRank r t

/-- Members in ascending VCID ranked. -/
def rankAll (l : List (Nat × Nat × Nat)) : List (Nat × Nat × Nat) := l.foldl (fun acc r => insertRank r acc) []

/-! Selection (R306, R307). -/

def vcidAt (rk : List (Nat × Nat × Nat)) (i : Nat) : Nat := (rk.getD i (0, 0, 0)).1

def truncationPairs (rk : List (Nat × Nat × Nat)) (q : Nat) : List VPair :=
  let n := rk.length
  (List.range q).map (fun i =>
    { child := vcidAt rk (n - q + i), parent := vcidAt rk i, prank := i, crank := n - q + i })

/-- The best of the entrants of child i. -/
def tournamentBest (kt : Word) (n tsize i : Nat) : Nat :=
  (List.range tsize).foldl (fun best k =>
    let j := lane16 (counterG kt (BitVec.ofNat 64 (4 * i + k / 4))) (k % 4) * n / 65536
    if j < best then j else best) n

def tournamentPairs (rk : List (Nat × Nat × Nat)) (seed : Word) (q tsize : Nat) : List VPair :=
  let n := rk.length
  let kt := counterG seed (BitVec.allOnes 64)
  (List.range q).map (fun i =>
    let p := tournamentBest kt n tsize i
    { child := vcidAt rk (n - q + i), parent := vcidAt rk p, prank := p, crank := n - q + i })

/-! Racking parameters (Table 09.6). -/

def rkFmt (c : Nat) : Elem :=
  match c with
  | 0 => .float fmtE4
  | 1 => .float fmtE5
  | 2 => .float fmtBF
  | 3 => .float fmtHF
  | 4 => .float fmt32
  | _ => .int 8

def elemBytes : Elem → Nat
  | .float t => t.bits / 8
  | .int n => n / 8

structure RackPar where
  pmode : Bool
  gen   : Nat
  seed  : Word
  sigma : Nat
  pthr  : Nat
  wsoff : Nat
  active : Bool
  wsfmt : Nat
  wslen : Nat
  lmoff : Nat
  lmfmt : Nat
  lmlen : Nat
  noff  : Nat
  nen   : Bool
  tmo   : Nat
  deriving DecidableEq, Repr

def rackPar (b : List Word) : RackPar :=
  let w := fun i => b.getD i 0
  { pmode := bit (w 0) 0, gen := bits (w 0) 63 32, seed := w 1, sigma := bits (w 2) 31 0, pthr := bits (w 2) 48 32,
    wsoff := bits (w 3) 19 0, active := bit (w 3) 20, wsfmt := bits (w 3) 23 21, wslen := bits (w 3) 44 24,
    lmoff := bits (w 4) 19 0, lmfmt := bits (w 4) 23 21, lmlen := bits (w 4) 44 24, noff := bits (w 5) 19 0,
    nen := bit (w 5) 20, tmo := bits (w 5) 47 32 }

def finite32 (b : Nat) : Bool :=
  match fmt32.value b with
  | .fin _ _ _ => true
  | _ => false

/-- The status-2 conditions of R231 and R310 for a child with this share and launch length. -/
def RackPar.ok (p : RackPar) (share len : Nat) : Bool :=
  p.wsfmt ≤ 5 && p.lmfmt ≤ 5 && p.wslen % elemBytes (rkFmt p.wsfmt) == 0 && p.lmlen % elemBytes (rkFmt p.lmfmt) == 0 &&
  (p.wslen == 0 || p.wsoff + p.wslen ≤ share) && (p.lmlen == 0 || p.lmoff + p.lmlen ≤ len) && p.pthr ≤ 65536 &&
  (!p.nen || (p.noff % 8 == 0 && p.noff + 8 ≤ len)) && finite32 p.sigma

/-! Perturbation (R309, R310). -/

/-- x + delta back in the format of the element. An infinite delta makes an I8 element 127 or -128 (DESIGN CHOICE, log entry 110). -/
def reencode (el : Elem) (b : Nat) (delta : Nat) : Nat :=
  let x := match el with
    | .float t => t.value b
    | .int n => Num.fin (intVal n b < 0) (intVal n b).natAbs 0
  match x, fmt32.value delta with
  | .nan _, _ => b
  | .inf _, _ => b
  | _, .nan _ => b
  | _, .inf neg =>
    (match el with
     | .float t => t.sign neg t.maxBits
     | .int n => intBits n (if neg then -(2 ^ (n - 1) : Nat) else (2 ^ (n - 1) - 1 : Nat)))
  | .fin xn xm xe, .fin dn dm de =>
    if dm == 0 then b
    else match el, addFin false xn xm xe dn dm de with
      | .float t, .fin yn ym ye => (t.round .rne true yn ym 1 ye).1
      | .int n, .fin yn ym ye =>
        let r := (roundQ .rne yn ym 1 ye).1
        intBits n (max (-(2 ^ (n - 1) : Nat)) (min r (2 ^ (n - 1) - 1 : Nat)))
      | _, _ => b

/-- delta of an element: RN32(sigma × RN32(d × c)). -/
def rackDelta (sigma : Nat) (w1 : Word) : Nat :=
  let sum := lane16 w1 0 + lane16 w1 1 + lane16 w1 2 + lane16 w1 3
  let d : Int := (sum : Int) - 131070
  let eps := (fmt32.roundNum .rne (numMul (.fin (d < 0) d.natAbs 0) (fmt32.value 0x37DDB3D7)).1).1
  (fmt32.roundNum .rne (numMul (fmt32.value sigma) (fmt32.value eps)).1).1

/-- Element e: its new bits, and whether it was selected. -/
def perturb (p : RackPar) (kr : Word) (el : Elem) (e b : Nat) : Nat × Bool :=
  let w2 := counterG kr (BitVec.ofNat 64 (2 * e + 1))
  if p.pthr == 65536 || lane16 w2 0 < p.pthr then
    (reencode el b (rackDelta p.sigma (counterG kr (BitVec.ofNat 64 (2 * e)))), true)
  else (b, false)

/-- n elements from number e on: the new bytes and how many were selected. -/
def perturbBytes (p : RackPar) (kr : Word) (el : Elem) (bs : List Byte) (e : Nat) : Nat → List Byte × Nat
  | 0 => ([], 0)
  | n + 1 =>
    let w := elemBytes el
    let r := perturb p kr el e (ofBytes (bs.take w))
    let t := perturbBytes p kr el (bs.drop w) (e + 1) n
    (bytesOf r.1 w ++ t.1, t.2 + (if r.2 then 1 else 0))

/-- Key Kr of a child (Table 12.2). -/
def rackKey (p : RackPar) (child : Nat) : Word := counterG p.seed (BitVec.ofNat 64 (p.gen * 2 ^ 32 + child))

/-- The graft of a virtual core: weight-store bytes, then LM bytes. -/
def State.readGraft (s : State) (p : RackPar) (vk : Nat) : List Byte :=
  let v := s.vc vk
  let bank := if p.active then v.bank else !v.bank
  Memory.bytes s.mem (s.wsAt vk bank p.wsoff) p.wslen ++ Memory.bytes s.mem (lmAddr (s.coreOf vk) (v.base + p.lmoff)) p.lmlen

/-- Pieces of a graft from offset off on, of at most 1,024 bytes. -/
def graftPieces : Nat → Nat → List Byte → List (Nat × List Byte)
  | 0, _, _ => []
  | n + 1, off, bs => if bs.isEmpty then [] else (off, bs.take 1024) :: graftPieces n (off + 1024) (bs.drop 1024)

/-- A graft sent to a child as racking writes on the request network (R254, R315). -/
def State.sendGraft (s : State) (src dst : Dest) (op : Nat) (p : RackPar) (graft : List Byte) : State :=
  let part := fun (off : Nat) (bs : List Byte) => graftPieces (bs.length / 1024 + 1) off bs
  (part 0 (graft.take p.wslen) ++ part p.wslen (graft.drop p.wslen)).foldl
    (fun t c => t.send { src := src, dst := dst, net := .request, body := .rackWrite op c.1 c.2 }) s

/-- The LM bytes of a child that a piece of a graft of n bytes from off on is written to (R233). -/
def State.rackSpan (s : State) (p : RackPar) (vk off n : Nat) : Option (Nat × Nat) :=
  if off < p.wslen then none else some (lmAddr (s.coreOf vk) ((s.vc vk).base + p.lmoff + (off - p.wslen)), n)

/-- The racking engine of a child writes a piece of its graft, perturbed (R309, R310). The Nat: elements perturbed. -/
def State.rackPiece (s : State) (p : RackPar) (vk off : Nat) (bs : List Byte) : State × Nat :=
  let v := s.vc vk
  let kr := rackKey p v.vcid
  let ew := rkFmt p.wsfmt
  let elm := rkFmt p.lmfmt
  let bank := if p.active then v.bank else !v.bank
  if off < p.wslen then
    let w := perturbBytes p kr ew bs (off / elemBytes ew) (bs.length / elemBytes ew)
    ({ s with mem := Memory.setBytes s.mem (s.wsAt vk bank (p.wsoff + off)) w.1 }, w.2)
  else
    let o := off - p.wslen
    let l := perturbBytes p kr elm bs (p.wslen / elemBytes ew + o / elemBytes elm) (bs.length / elemBytes elm)
    (s.land (lmAddr (s.coreOf vk) (v.base + p.lmoff + o)) l.1, l.2)

/-- After its graft, a child's fitness pair is reset and its notification word written (R233). -/
def State.rackedChild (s : State) (p : RackPar) (vk parent : Nat) : State :=
  let t := s.updVc vk (fun v => { v with fitness := 0, evalcnt := 0 })
  if p.nen then
    t.landWord (lmAddr (s.coreOf vk) ((s.vc vk).base + p.noff)) (BitVec.ofNat 64 (p.gen * 2 ^ 32 + parent)) true
  else t

/-! Operations. -/

def State.vop? (s : State) (id : Nat) : Option VOp := s.vops.find? (fun o => o.id == id)
def State.updVop (s : State) (id : Nat) (f : VOp → VOp) : State :=
  { s with vops := s.vops.map (fun o => if o.id == id then f o else o) }

/-- The oldest operation of its group: the operations of a group are performed in submission order. -/
def State.vfirst (s : State) (o : VOp) : Bool :=
  s.vops.all (fun x => !(x.grp == o.grp && x.peer.isNone && x.id < o.id) || o.peer.isSome)

/-- The operation is performed: what is left is its completion. -/
def VOp.finish (o : VOp) (status count : Nat) (results : List Word) : VOp :=
  { o with stage := .done, status := status, count := count, results := results }

/-- Its members lie in one gang (R302). -/
def State.oneGang (s : State) (o : VOp) : Bool :=
  o.members.all (fun m => (s.vc m).gid == (s.vc (o.members.headD 0)).gid)

/-- Virtual core of a VCID among the members of an operation. -/
def State.memberVk (s : State) (o : VOp) (vcid : Nat) : Nat :=
  (o.members.find? (fun m => (s.vc m).vcid == vcid)).getD 0

/-- VINTNER_RANK_PERFORM of operation ev.key. The pairs are all read in this one step (DESIGN CHOICE, log entry 80). -/
def execVintnerRankPerform (s : State) : Out :=
  .next (match s.vop? s.ev.key with
    | none => s
    | some o =>
      if o.kind != 0 || o.stage != .queued || !s.vfirst o then s
      else if !s.oneGang o then s.updVop o.id (fun o => o.finish 2 0 [])
      else
        let rk := rankAll (o.members.map (fun m => ((s.vc m).vcid, (s.vc m).fitness.toNat, (s.vc m).evalcnt.toNat)))
        let t := s.updVgroup o.grp (fun g => { g with
          ranking := if rk.isEmpty then none else some rk, selection := none })
        t.updVop o.id (fun o => o.finish 0 rk.length (rk.map (fun r => BitVec.ofNat 64 (r.2.1 + r.1 * 2 ^ 32)))))

/-- VINTNER_SELECT_PERFORM of operation ev.key. -/
def execVintnerSelectPerform (s : State) : Out :=
  .next (match s.vop? s.ev.key with
    | none => s
    | some o =>
      if o.kind != 1 || o.stage != .queued || !s.vfirst o then s
      else if !s.oneGang o then s.updVop o.id (fun o => o.finish 2 0 [])
      else match (s.vgroup o.grp).ranking with
        | none => s.updVop o.id (fun o => o.finish 1 0 [])
        | some rk =>
          let w := o.params.getD 0 0
          let q := bits w 31 16
          let ts := bits w 12 8
          let n := rk.length
          let tour := bit w 0
          if q == 0 || (!tour && n / 2 < q) || (tour && (n < q || ts < 2 || 16 < ts)) then
            s.updVop o.id (fun o => o.finish 2 0 [])
          else
            let ps := if tour then tournamentPairs rk (o.params.getD 1 0) q ts else truncationPairs rk q
            (s.updVgroup o.grp (fun g => { g with selection := some ps })).updVop o.id (fun o => o.finish 0 q
              (ps.map (fun p => BitVec.ofNat 64 (p.child + p.parent * 2 ^ 16 + p.prank * 2 ^ 32 + p.crank * 2 ^ 48)))))

/-! Holding members (R232). -/

def listNub (l : List Nat) : List Nat := l.foldl (fun acc a => if acc.contains a then acc else acc ++ [a]) []

/-- An earlier or running operation has a claim on one of these virtual cores. -/
def State.vclaimed (s : State) (o : VOp) (ms : List Nat) : Bool :=
  s.vops.any (fun x => x.id != o.id && (
    ((x.stage == .holding || x.stage == .racking || x.stage == .away) &&
      x.holds.any (fun h => h.2 != .skipped && ms.contains h.1)) ||
    (x.id < o.id && x.stage == .queued && (x.kind == 2 || x.kind == 4) && x.members.any (fun m => ms.contains m))))

/-- Holds asked for. -/
def State.vhold (s : State) (o : VOp) (p : RackPar) (ms : List Nat) : State :=
  let t := ms.foldl (fun t m => t.askHold m { kind := .vintner, qsce := !p.pmode }) s
  t.updVop o.id (fun o => { o with stage := .holding, started := s.now, holds := ms.map (fun m => (m, Member.waiting)) })

/-- A member stands still for a Vintner operation, whichever hold took its slots: not in a save that ends, a copy, or a cut. -/
def State.memberStill (s : State) (vk : Nat) : Bool :=
  let v := s.vc vk
  v.place.isSome && s.heldFor vk .vintner && !v.ending && v.move.all (fun m => m.step ≤ 1) && !(s.gang v.gid).quiesced

/-- VINTNER_MEMBER_HELD: member ev.ix of operation ev.key is held, and its slots stay so when another hold of them ends. -/
def execVintnerMemberHeld (s : State) : Out :=
  let vk := s.ev.ix
  .next (match s.vop? s.ev.key with
    | none => s
    | some o =>
      if o.stage == .holding && o.holds.contains (vk, .waiting) && s.memberStill vk then
        (s.updVop o.id (fun o => { o with holds := o.holds.map (fun h => if h.1 == vk then (h.1, .held) else h) })).updVc vk (fun v => { v with
          holds := v.holds.map (fun h => if h.kind == .vintner then { h with qsce := false } else h) })
      else s)

/-- One microsecond in units of the package time. -/
def usUnits : Nat := 100 * timeUnit

/-- VINTNER_HOLD_TIMEOUT: member ev.ix of operation ev.key is skipped. -/
def execVintnerHoldTimeout (s : State) : Out :=
  .next (match s.vop? s.ev.key with
    | none => s
    | some o =>
      let p := rackPar o.params
      if o.stage == .holding && p.tmo != 0 && o.holds.contains (s.ev.ix, .waiting) && o.started + p.tmo * usUnits ≤ s.now then
        (s.updVop o.id (fun o => { o with
          holds := o.holds.map (fun h => if h.1 == s.ev.ix then (h.1, .skipped) else h) })).releaseHold s.ev.ix .vintner
      else s)

def VOp.allSettled (o : VOp) : Bool := o.holds.all (fun h => h.2 != .waiting)
def VOp.isHeld (o : VOp) (vk : Nat) : Bool := o.holds.contains (vk, .held)
def VOp.anySkipped (o : VOp) : Bool := o.holds.any (fun h => h.2 == .skipped)

/-- Members of an operation that are still held are released, and the operation forgets them. -/
def State.vreleaseOnly (s : State) (o : VOp) (ms : List Nat) : State :=
  let out := fun (h : Nat × Member) => h.2 == .held && ms.contains h.1
  ((o.holds.filter out).foldl (fun t h => t.releaseHold h.1 .vintner) s).updVop o.id
    (fun o => { o with holds := o.holds.filter (fun h => !out h) })

def State.vrelease (s : State) (o : VOp) : State := s.vreleaseOnly o (o.holds.map Prod.fst)

/-- The operation racks these children, each with a graft: its parents are released, one that is racked itself only when it has been
written (R233), and the grafts, read before, leave. -/
def State.rackSend (s : State) (o : VOp) (parents : List Nat) (l : List (Nat × Nat × List Byte)) : State :=
  let p := rackPar o.params
  let children := l.map Prod.fst
  let t := s.vreleaseOnly o (parents.filter (fun m => !children.contains m))
  let u := l.foldl (fun t x => t.sendGraft (.vc x.2.1) (.vc x.1) o.id p x.2.2) t
  u.updVop o.id (fun o => { o with stage := .racking, left := children.map (fun c => (c, p.wslen + p.lmlen, 0)) })

/-- Every graft has been written, or its child is gone. -/
def State.rackedAll (s : State) (o : VOp) : Bool := o.left.all (fun x => x.2.1 == 0 || !(s.vc x.1).live)

/-- The operation that a racking write or a message of another Vintner belongs to. -/
def State.vopOf (s : State) (src : Dest) (op : Nat) : Option VOp :=
  if src.isFar then s.vops.find? (fun o => o.peer == some (src, op)) else s.vop? op

/-- A racking write reaches its child; an absent one answers with retry (R357). -/
def State.rackArrives (s : State) (n : Nat) : State :=
  match s.deliverable n with
  | none => s
  | some m => match m.dst, m.body with
    | .vc vk, .rackWrite op off bs =>
      let t := s.dropMsg n
      (match s.vopOf m.src op, t.gate m vk with
       | none, _ => t
       | _, .gone => t
       | _, .turned u => u
       | some o, .go u =>
         let banks := ((u.rackSpan (rackPar o.params) vk off bs.length).map (fun x => lmBanks x.1 x.2)).getD []
         if !o.left.any (fun x => x.1 == vk) then u
         else if !banks.isEmpty && !u.banksFree vk banks then s
         else
           let r := (if banks.isEmpty then u else u.takeBanks vk banks).rackPiece (rackPar o.params) vk off bs
           r.1.updVop o.id (fun o => { o with
             left := o.left.map (fun x => if x.1 == vk then (vk, x.2.1 - bs.length, x.2.2 + r.2) else x) }))
    | _, _ => s

/-! Racking (R231, R233). -/

/-- The result words of the pairs, and the racked ones. -/
def State.rackPairs (s : State) (o : VOp) (rk : List (Nat × Nat × Nat)) : List VPair → List Word × List Racked
  | [] => ([], [])
  | pr :: rest =>
    let t := s.rackPairs o rk rest
    match o.left.find? (fun x => x.1 == s.memberVk o pr.child) with
    | some x => (BitVec.ofNat 64 (pr.child + x.2.2 * 2 ^ 32) :: t.1,
        { child := pr.child, parent := pr.parent, cfit := (rk.getD pr.crank (0, 0, 0)).2.1,
          pfit := (rk.getD pr.prank (0, 0, 0)).2.1 } :: t.2)
    | none => (BitVec.ofNat 64 (pr.child + 2 ^ 16) :: t.1, t.2)

/-- The start of a VNTRACK: its checks, then the holds. -/
def State.rackStart (s : State) (o : VOp) : State :=
  let g := s.vgroup o.grp
  let p := rackPar o.params
  match g.selection with
  | none => s.updVop o.id (fun o => o.finish 1 0 [])
  | some ps =>
    let children := ps.map (fun x => s.memberVk o x.child)
    let known := ps.all (fun x => o.members.any (fun m => (s.vc m).vcid == x.child) && o.members.any (fun m => (s.vc m).vcid == x.parent))
    let resOk := o.packet.isSome || o.res + 8 + 8 * ps.length ≤ o.lim
    if !resOk || !known || !(children.all (fun c => p.ok (s.share c) (s.launchLenOf c))) then s.updVop o.id (fun o => o.finish 2 0 [])
    else
      let ms := listNub (ps.flatMap (fun x => [s.memberVk o x.parent, s.memberVk o x.child]))
      if s.vclaimed o ms then s else s.vhold o p ms

/-- Every member is held or skipped: the grafts of the held pairs are read and leave. -/
def State.rackGo (s : State) (o : VOp) : State :=
  let p := rackPar o.params
  let ps := ((s.vgroup o.grp).selection.getD []).map (fun x => (s.memberVk o x.child, s.memberVk o x.parent))
  s.rackSend o (ps.map Prod.snd) ((ps.filter (fun x => o.isHeld x.1 && o.isHeld x.2)).map (fun x => (x.1, x.2, s.readGraft p x.2)))

/-- The children are written: fitness, notification, release, results. -/
def State.rackFinish (s : State) (o : VOp) : State :=
  let g := s.vgroup o.grp
  let p := rackPar o.params
  let ps := g.selection.getD []
  let t := ps.foldl (fun t x =>
    let c := s.memberVk o x.child
    if o.left.any (fun y => y.1 == c) && (s.vc c).live then t.rackedChild p c x.parent else t) s
  let r := s.rackPairs o (g.ranking.getD []) ps
  ((t.vrelease o).updVgroup o.grp (fun x => { x with
    racking := some { gen := p.gen, seed := p.seed, sigma := p.sigma, pairs := r.2 } })).updVop o.id
      (fun o => o.finish (if o.anySkipped then 3 else 0) r.2.length r.1)

/-- VINTNER_RACK_PERFORM of operation ev.key: its start, the grafts once its members are settled, its end; with ev.val = 1 the racking write
in message ev.ix reaches its child. -/
def execVintnerRackPerform (s : State) : Out :=
  .next (if s.ev.val == 1 then s.rackArrives s.ev.ix
    else match s.vop? s.ev.key with
      | none => s
      | some o =>
        if o.kind != 2 || !s.vfirst o then s
        else match o.stage with
          | .queued => if s.oneGang o then s.rackStart o else s.updVop o.id (fun o => o.finish 2 0 [])
          | .holding => if o.allSettled then s.rackGo o else s
          | .racking => if s.rackedAll o then s.rackFinish o else s
          | _ => s)

/-! The vintage log (R313, R314). -/

def recordWords (r : VRecord) (flags : Nat) (mig : Bool) (x : Racked) : List Word :=
  [BitVec.ofNat 64 (r.gen + x.child * 2 ^ 32 + x.parent * 2 ^ 48), r.seed, BitVec.ofNat 64 (r.sigma + x.pfit * 2 ^ 32),
   BitVec.ofNat 64 (x.cfit + flags * 2 ^ 32 + (if mig then 2 ^ 40 + r.node * 2 ^ 44 else 0))]

/-- The bytes of the records translated one record after the other. -/
def State.logAddrs (s : State) (fn l cap tail : Nat) : Nat → Option (State × List Nat)
  | 0 => some (s, [])
  | k + 1 =>
    match s.translateBytes 4 fn (l + 32 + 32 * (tail % cap)) .write 32 with
    | none => none
    | some (t, a) => match t.logAddrs fn l cap (tail + 1) k with
      | none => none
      | some (u, b) => some (u, a ++ b)

/-- VINTNER_LOG_PERFORM of operation ev.key. That there is nothing to log comes before the log (DESIGN CHOICE, log entry 111). -/
def execVintnerLogPerform (s : State) : Out :=
  .next (match s.vop? s.ev.key with
    | none => s
    | some o =>
      if o.kind != 3 || o.stage != .queued || !s.vfirst o then s
      else if !s.oneGang o then s.updVop o.id (fun o => o.finish 2 0 [])
      else
        let w := o.params.getD 0 0
        let mig := bit w 0
        let g := s.vgroup o.grp
        let rec_ := if mig then g.migration else g.racking
        let fin := fun (s : State) (st n : Nat) (r : List Word) => s.updVop o.id (fun o => o.finish st n r)
        match rec_ with
        | none => fin s 6 0 []
        | some r =>
          if r.logged || r.pairs.isEmpty then fin s 6 0 []
          else if g.logBase == 0 then fin s 4 0 []
          else
            let fn := (s.group o.grp).owner
            let l := g.logBase
            match s.readVaWords 4 fn l 4 with
            | none => fin s.readFailed 7 0 []
            | some (s, h) =>
              let w0 := (h.getD 0 0).toNat
              let cap := 2 ^ (w0 % 32)
              let tail := (h.getD 1 0).toNat
              let head := (h.getD 2 0).toNat
              let k := r.pairs.length
              if 32 ≤ w0 || w0 < 4 || 24 < w0 || h.getD 3 0 != 0 || cap < (tail + 2 ^ 64 - head) % 2 ^ 64 + k then fin s 4 0 []
              else match s.logAddrs fn l cap tail k with
                | none => fin s.readFailed 7 0 []
                | some (s, as) => match s.translateBytes 4 fn (l + 8) .write 8 with
                  | none => fin s.readFailed 7 0 []
                  | some (s, ta) =>
                    let bs := bytesOfWords (r.pairs.flatMap (recordWords r (bits w 15 8) mig))
                    let s := { s with mem := writeAt (writeAt s.mem as bs) ta (bytesOf (tail + k) 8) }
                    let done := fun (x : Option VRecord) => x.map (fun y => { y with logged := true })
                    let s := s.updVgroup o.grp (fun x =>
                      if mig then { x with migration := done x.migration } else { x with racking := done x.racking })
                    fin s 0 k [BitVec.ofNat 64 tail])

/-! Migration of individuals (R236, R315). -/

def migSrc (b : List Word) : Nat := bits (b.getD 6 0) 15 0
def migDst (b : List Word) : Nat := bits (b.getD 6 0) 31 16
def migNode (b : List Word) : Nat := bits (b.getD 6 0) 51 32

/-- What a migration is logged with; the source's fitness as read at the hold. -/
def State.migRecord (s : State) (o : VOp) (cfit : Nat) : VRecord :=
  let p := rackPar o.params
  { gen := p.gen, seed := p.seed, sigma := p.sigma, node := migNode o.params,
    pairs := [{ child := migDst o.params, parent := migSrc o.params, cfit := cfit,
                pfit := (s.vc (s.memberVk o (migSrc o.params))).fitness.toNat }] }

/-! What two Vintners tell each other (R315, log entry 89): 0 hold the destination, 1 withdrawn, 2 the graft is complete; the answers are
8 no such destination, 9 held, with its fitness bits, 10 skipped, 11 parameters invalid, 12 racked. -/

/-- The destination of a migration to another package. -/
def State.migFar (s : State) (o : VOp) : Dest :=
  .farVc (migNode o.params) (s.gang (s.vc (s.memberVk o (migSrc o.params))).gid).job (migDst o.params)

def State.tell (s : State) (src dst : Dest) (op code : Nat) (ws : List Word) : State :=
  s.send { src := src, dst := dst, net := .request, body := .vntControl op code ws }

/-- Start: the source is a member; a destination on this package is held with it, one on another by its Vintner. -/
def State.migStart (s : State) (o : VOp) : State :=
  let p := rackPar o.params
  let src := s.memberVk o (migSrc o.params)
  let known := o.members.any (fun m => (s.vc m).vcid == migSrc o.params)
  let dst := vkey (s.vc src).gid (migDst o.params)
  let own := s.ownNode (migNode o.params)
  if !known || !p.ok (s.share src) (s.launchLenOf src) then s.updVop o.id (fun o => o.finish 2 0 [])
  else if !own && (s.gang (s.vc src).gid).job == 0 then s.updVop o.id (fun o => o.finish 5 0 [])
  else if own && !(s.vc dst).live then s.updVop o.id (fun o => o.finish 5 0 [])
  else
    let ms := if own then listNub [src, dst] else [src]
    if s.vclaimed o ms then s
    else if own then s.vhold o p ms
    else (s.vhold o p ms).tell (.vc src) (s.migFar o) o.id 0 o.params

/-- The members are settled, and another package has answered: the graft is read, the source released, the graft sent. -/
def State.migGo (s : State) (o : VOp) : State :=
  let p := rackPar o.params
  let src := s.memberVk o (migSrc o.params)
  let dst := vkey (s.vc src).gid (migDst o.params)
  let give := fun (s : State) (st : Nat) => (s.vrelease o).updVop o.id (fun o => o.finish st 0 [])
  if s.ownNode (migNode o.params) then
    (if o.anySkipped then give s 3
     else (s.rackSend o [src] [(dst, src, s.readGraft p src)]).updVop o.id (fun x => { x with
       record := some (s.migRecord o (s.vc dst).fitness.toNat) }))
  else match o.answer with
    | none => s
    | some 9 =>
      if o.anySkipped then give (s.tell (.vc src) (s.migFar o) o.id 1 []) 3
      else
        let t := ((s.vrelease o).sendGraft (.vc src) (s.migFar o) o.id p (s.readGraft p src)).tell (.vc src) (s.migFar o) o.id 2 []
        t.updVop o.id (fun x => { x with stage := .away, record := some (s.migRecord o o.cfit) })
    | some 10 => give s 3
    | some 11 => give s 2
    | some _ => give s 5

/-- The migration is done: its record is the group's last. -/
def State.migDone (s : State) (o : VOp) : State :=
  (s.updVgroup o.grp (fun x => { x with migration := o.record })).updVop o.id (fun o => o.finish 0 1 [])

/-- The destination of a migration within this package is written. -/
def State.migRacked (s : State) (o : VOp) : State :=
  let dst := vkey (s.vc (s.memberVk o (migSrc o.params))).gid (migDst o.params)
  ((s.rackedChild (rackPar o.params) dst (migSrc o.params)).vrelease o).migDone o

/-- A migration from another package goes on: its destination is held, or skipped; its graft arrives; the source is told. -/
def State.migPeer (s : State) (o : VOp) (src : Dest) (op : Nat) : State :=
  let d := o.members.headD 0
  let p := rackPar o.params
  let drop := fun (s : State) => let t := s.vrelease o; { t with vops := t.vops.filter (fun x => x.id != o.id) }
  let say := fun (s : State) (code : Nat) (ws : List Word) => s.tell (.vc d) src op code ws
  if !(s.vc d).live then say (drop s) vntLost []
  else if o.answer == some 1 then drop s
  else match o.stage with
    | .queued => if s.vclaimed o [d] then s else s.vhold o p [d]
    | .holding =>
      if !o.allSettled then s
      else if !o.isHeld d then say (drop s) 10 []
      else (say s 9 [(s.vc d).fitness.setWidth 64]).updVop o.id (fun o => { o with
        stage := .racking, left := [(d, p.wslen + p.lmlen, 0)] })
    | .racking =>
      if o.answer == some 2 && s.rackedAll o then say (drop (s.rackedChild p d (migSrc o.params))) 12 []
      else s
    | _ => s

/-- Another Vintner asks for a destination: an operation of its own waits for it, in the order of arrival (R315). -/
def State.migAsked (s : State) (m : Msg) (d op : Nat) (ws : List Word) : State :=
  let p := rackPar ws
  let n := s.freshId
  if !p.ok (s.share d) (s.launchLenOf d) then s.tell m.dst m.src op 11 []
  else { n.2 with vops := s.vops ++ [{
    id := n.1, kind := 4, grp := 0, ticket := 0, tag := 0, ev := false, vk := none, res := 0, lim := 0, mMode := false,
    params := ws, members := [d], peer := some (m.src, op) }] }

/-- A message of another Vintner arrives. -/
def State.migMessage (s : State) (n : Nat) : State :=
  match s.deliverable n with
  | none => s
  | some m => match m.dst, m.body with
    | .vc vk, .vntControl op code ws =>
      let t := s.dropMsg n
      if code == 0 then
        (match t.gate m vk with
         | .gone => t.answerError m nvcBit
         | .turned u => u
         | .go u => u.migAsked m vk op ws)
      else if code < vntLost then
        (match t.vopOf m.src op with
         | some o => t.updVop o.id (fun o => { o with answer := some code })
         | none => t)
      else t.updVop op (fun o => { o with answer := some code, cfit := (ws.headD 0).toNat })
    | _, _ => s

/-- VINTNER_MIGRATE_PERFORM of operation ev.key: its start, its work, its end; with ev.val = 1 message ev.ix of another Vintner arrives. -/
def execVintnerMigratePerform (s : State) : Out :=
  .next (if s.ev.val == 1 then s.migMessage s.ev.ix
    else match s.vop? s.ev.key with
      | none => s
      | some o =>
        if o.kind != 4 then s
        else match o.peer, o.stage with
          | some (src, op), _ => s.migPeer o src op
          | none, .queued =>
            if !s.vfirst o then s
            else if s.oneGang o then s.migStart o else s.updVop o.id (fun o => o.finish 2 0 [])
          | none, .holding => if o.allSettled then s.migGo o else s
          | none, .racking => if s.rackedAll o then s.migRacked o else s
          | none, .away =>
            (match o.answer with
             | some 12 => s.migDone o
             | some 8 => s.updVop o.id (fun o => o.finish 5 0 [])
             | _ => s)
          | _, _ => s)

/-- A node can no longer be reached: migrations to it fail, migrations from it are withdrawn. -/
def State.migUnreachable (s : State) (n : Nat) : State :=
  { s with vops := s.vops.map (fun o => match o.peer with
      | some (.farVc k _ _, _) => if k == n then { o with answer := some 1 } else o
      | some _ => o
      | none => if o.kind == 4 && migNode o.params == n && o.answer != some 12 then { o with answer := some vntLost } else o) }

/-! Completion (R227). -/

/-- The status word of Table 09.3. -/
def VOp.statusWord (o : VOp) : Word :=
  BitVec.ofNat 64 (pack [(0, o.status), (8, 0x40 + o.kind), (16, o.tag), (32, o.count % 65536), (48, o.ticket)])

/-- The event record of R227. -/
def VOp.eventWords (o : VOp) : Word × Word :=
  (BitVec.ofNat 64 (pack [(0, 0x40 + o.kind), (8, 0xF), (12, o.status % 16), (16, o.tag), (32, o.count)]), BitVec.ofNat 64 o.ticket)

/-- Global address of the result buffer; in U mode it has moved with the launch segment. -/
def State.vresult (s : State) (o : VOp) (vk : Nat) : Nat :=
  lmAddr (s.coreOf vk) (if o.mMode then o.res else (s.vc vk).base + o.res - o.base)

/-- The operation leaves the queue. -/
def State.dropVop (s : State) (id : Nat) : State := { s with vops := s.vops.filter (fun x => x.id != id) }

/-- The packet's results are written to device memory; a write that faults is status 7. -/
def State.vpacketResults (s : State) (o : VOp) (f va : Nat) : State × Nat :=
  match s.writeVa f f (va + 8) (bytesOfWords o.results) with
  | none => (s.readFailed, 7)
  | some t => match t.writeVa f f va (bytesOf o.statusWord.toNat 8) with
    | none => (t.readFailed, 7)
    | some u => (u, o.status)

/-- The record that a VINTNER packet completes with, put among the completions of its queue. -/
def State.vpacketDone (s : State) (o : VOp) (k ix st : Nat) : State :=
  s.updQueue k (fun q =>
    match q.issued.find? (fun p => p.index == ix) with
    | none => q
    | some p =>
      let w := p.words.getD 0 0
      { q with
        issued := q.issued.erase p,
        posting := q.posting ++ [{
          word0 := BitVec.ofNat 64 (pack [(0, 0x56), (8, 0xE), (12, st % 16), (16, bits w 31 16), (32, o.count)]),
          word1 := BitVec.ofNat 64 o.ticket, cr := bit w 9, cs := if bit w 10 then some (p.words.getD 7 0) else none,
          index := ix, type := 6, pkt := p.words.take 4 }] })

/-- The event record, when asked for; a full event ring makes it wait. -/
def State.vpostRecord (s : State) (o : VOp) (vk : Nat) : State :=
  if !o.ev then s.dropVop o.id
  else match s.eventRoom vk 16 with
    | some false => s.updVop o.id (fun o => { o with stage := .record })
    | _ => (s.postEvent vk o.eventWords.1 o.eventWords.2).dropVop o.id

/-- VINTNER_COMPLETION of operation ev.key. The results wait while the submitting virtual core is absent. -/
def execVintnerCompletion (s : State) : Out :=
  .next (match s.vop? s.ev.key with
    | none => s
    | some o =>
      match o.packet, o.vk with
      | some (k, ix, va), _ =>
        if o.stage != .done then s
        else
          let r := s.vpacketResults o (k / 32) va
          (r.1.vpacketDone o k ix r.2).dropVop o.id
      | none, some vk =>
        if !(s.vc vk).live then (if o.stage == .done || o.stage == .record then s.dropVop o.id else s)
        else if (s.vc vk).place.isNone then s
        else if o.stage == .record then s.vpostRecord o vk
        else if o.stage == .done then
          let a := s.vresult o vk
          let t := s.land (a + 8) (bytesOfWords o.results)
          (t.landWord a o.statusWord true).vpostRecord o vk
        else s
      | none, none => s)

end Sys2Proof.Machine
end

