-- ==== Sys2Proof/Machine/Packets.lean ====
section
/-! DEFINITION. Packets (R274 to R283): fetch and the validator, NOP, COPY, SIGNAL, WAIT, VINTNER, completions (R277, R436). LAUNCH
is in Launch, QUIESCE, RESUME and FREEZE are in Quiesce. ev.key is the queue key. -/

namespace Sys2Proof.Machine

/-! Fields. -/

def Packet.cr (p : Packet) : Bool := bit (p.word 0) 9
def Packet.cs (p : Packet) : Bool := bit (p.word 0) 10
def Packet.n (p : Packet) : Nat := bits (p.word 0) 15 12
def Packet.op (p : Packet) : Nat := bits (p.word 0) 33 32
def Packet.srcSpace (p : Packet) : Nat := bits (p.word 0) 34 32
def Packet.dstSpace (p : Packet) : Nat := bits (p.word 0) 37 35
def Packet.len (p : Packet) : Nat := (p.word 3).toNat
def Packet.vkind (p : Packet) : Nat := bits (p.word 0) 38 32 - 4
def Packet.extent (p : Packet) : Bool := bit (p.word 0) 32
def Packet.gidOf (p : Packet) : Nat := bits (p.word 1) 15 0

/-- The packet as one number, for the WAIT entries. -/
def Packet.number (p : Packet) : Nat := ofBytes (bytesOfWords p.words)
/-- WAIT entry e (R280). -/
def Packet.entry (p : Packet) (e : Nat) : Nat := p.number / 2 ^ (32 + 40 * e) % 2 ^ 40

/-! Check 1 (Table 11.8). -/

/-- A signal pointer of space 1 that names a present die. -/
def State.signalOk (s : State) (p : Word) : Bool :=
  ptrSpace p == 1 && (ptrCheck p false).isNone && (!s.ownNode (ptrNode p) || !(s.die (bits p 26 24)).failed)

/-- A must-be-zero bit, or a field out of its range. -/
def State.malformed (s : State) (p : Packet) : Bool :=
  let w := p.word
  let z := fun (i hi lo : Nat) => bits (w i) hi lo == 0
  let tail := z 4 63 0 && z 5 63 0 && z 6 63 0
  let wait := p.type == 4 || p.type == 5
  let head := p.type ≤ 9 && z 0 11 11 && (if wait then 1 ≤ p.n && p.n ≤ 12 && !p.cs else p.n == 0) && (!p.cs || s.signalOk (w 7))
  let body := match p.type with
    | 0 => true
    | 1 => z 0 63 48 && (w 1).toNat % 64 == 0 && z 2 7 5 && z 2 63 16 && z 4 63 16 && z 5 63 27 && z 6 63 24
    | 2 =>
      let sp := fun (n : Nat) => 3 ≤ n && n ≤ 5
      z 0 63 38 && sp p.srcSpace && sp p.dstSpace && (w 1).toNat % 8 == 0 && (w 2).toNat % 8 == 0 && p.len % 8 == 0 &&
        8 ≤ p.len && p.len ≤ 2 ^ 40 && tail
    | 3 => z 0 63 34 && p.op ≤ 2 && s.signalOk (w 1) && z 3 63 0 && tail
    | 6 => z 0 63 39 && 4 ≤ bits (w 0) 38 32 && bits (w 0) 38 32 ≤ 8 && vctlOk (w 1) && z 1 59 40 && tail
    | 8 => z 0 63 34 && z 3 63 0 && tail
    | 4 => (List.range p.n).all (fun e => !(s.die (p.entry e / 2 ^ 12 % 8)).failed)
    | 5 => (List.range p.n).all (fun e => !(s.die (p.entry e / 2 ^ 12 % 8)).failed)
    | _ => z 0 63 33 && z 1 31 18 && z 1 63 48 && (w 2).toNat % 64 == 0 && tail
  !(head && body)

/-! Check 3: windows (R282). -/

/-- n bytes at a lie within one valid window of a kind: 0 device virtual, 1 host bus. -/
def Queue.inWindow (q : Queue) (kind a n : Nat) : Bool :=
  (List.range 4).any (fun i =>
    let lo := q.windows.getD (2 * i) 0
    let hi := q.windows.getD (2 * i + 1) 0
    bit lo 0 && bits lo 1 1 == kind && bits lo 63 16 * 65536 ≤ a && a + n ≤ bits hi 63 16 * 65536)

/-- The first of a list of ranges (kind, address, length) that no window holds: its address. -/
def Queue.outside (q : Queue) (l : List (Nat × Nat × Nat)) : Option Nat :=
  (l.find? (fun r => !q.inWindow r.1 r.2.1 r.2.2)).map (fun r => r.2.1)

/-- Ranges of a COPY, and of a VINTNER packet whose parameter block is b. -/
def Packet.copyRanges (p : Packet) : List (Nat × Nat × Nat) :=
  let k := fun (sp : Nat) => if sp == 5 then 1 else 0
  [(k p.srcSpace, (p.word 1).toNat, p.len), (k p.dstSpace, (p.word 2).toNat, p.len)]

def State.vintnerRanges (s : State) (p : Packet) (b : List Word) : List (Nat × Nat × Nat) :=
  let g := bits (p.word 1) 7 0
  let n := if p.vkind == 2 then 8 + 8 * ((s.vgroup g).selection.getD []).length else vresBytes p.vkind b (s.membersOf g).length
  (if p.vkind == 0 then [] else [(0, (p.word 2).toNat, 8 * vblockWords p.vkind)]) ++ [(0, (p.word 3).toNat, n)]

/-! Check 4: ownership. -/

def State.notOwner (s : State) (f : Nat) (p : Packet) : Bool :=
  if !(7 ≤ p.type) then false
  else if p.extent && p.type != 8 then f != 4
  else match s.gang? p.gidOf with
    | some g => g.func != f
    | none => false

/-! The validator. -/

/-- What the validator answers: a packet to block at head, or a rejection: cause, address and launch check. -/
inductive Verdict where
  | good (s : State) (p : Packet)
  | bad (s : State) (cause addr check : Nat)

/-- Some page of n bytes at a that translates for a read fails: pages have at least 64 KiB. -/
def State.walkPages (s : State) (f : Nat) : List Nat → Option State
  | [] => some s
  | a :: t => match s.translate f f a .read with
    | none => none
    | some (u, _) => u.walkPages f t

def pagesOf (a n : Nat) : List Nat :=
  if n == 0 then [] else a :: ((List.range (n / 65536 + 1)).map (fun i => (a / 65536 + 1 + i) * 65536)).filter (fun x => x < a + n)

/-- The text and the data of an image are read (check 5): the extent that cannot be. -/
def State.readExtents (s : State) (f : Nat) : List (Nat × Nat) → State × Option Nat
  | [] => (s, none)
  | x :: t => match s.walkPages f (pagesOf x.1 x.2) with
    | none => (s.readFailed, some x.1)
    | some u => u.readExtents f t

/-- Checks 3, 5 and 6 of a LAUNCH: its image is read, and the launch checks are made; its die is fixed (R287). -/
def State.launchRanges (s : State) (k : Nat) (p : Packet) : Verdict :=
  let f := k / 32
  let q := s.queue k
  match q.outside [(0, p.image, 64)] with
  | some a => .bad s 2 a 0
  | none => match s.readVaWords f f p.image 8 with
    | none => .bad s.readFailed 6 p.image 0
    | some (s, hw) =>
      let h := headerOf hw
      match q.outside ((h.extents p.image).map (fun x => (0, x.1, x.2))) with
      | some a => .bad s 2 a 0
      | none => match s.readVaWords f f (p.image + h.poff) h.pcnt with
        | none => .bad s.readFailed 6 (p.image + h.poff) 0
        | some (s, ps) =>
          match s.readExtents f [(p.image + 64, h.tsize), (p.image + h.doff, h.dsize)] with
          | (s, some a) => .bad s 6 a 0
          | (s, none) =>
            let p := { p with header := hw, patches := ps }
            let c := s.launchCheck f p
            if c != 0 then .bad s 5 0 c else .good s { p with die := s.launchDie p }

/-- The checks of Table 11.8. -/
def State.validate (s : State) (k : Nat) (p : Packet) : Verdict :=
  let f := k / 32
  let q := s.queue k
  let ranges := fun (l : List (Nat × Nat × Nat)) => (match q.outside l with
    | some a => Verdict.bad s 2 a 0
    | none => if s.notOwner f p then .bad s 7 0 0 else .good s p)
  if s.malformed p then .bad s 3 0 0
  else if !q.opmask.getLsbD p.type then .bad s 1 0 0
  else match p.type with
    | 1 => s.launchRanges k p
    | 2 => ranges p.copyRanges
    | 6 => ranges (s.vintnerRanges p (((s.readVaWords f f (p.word 2).toNat (vblockWords p.vkind)).map Prod.snd).getD []))
    | _ => ranges []

/-- A packet is rejected (R283): head stays at it until the queue is started again. -/
def State.reject (s : State) (k cause type check : Nat) (addr : Nat) (data : List Word) : State :=
  (s.stopQueue k (errorWords cause type ((s.queue k).head % (s.queue k).count) check (BitVec.ofNat 64 addr) data)).updQueue k
    (fun q => { q with front := none, skip := true })

def Queue.canFetch (q : Queue) : Bool :=
  q.en && !q.stopped && !q.recFault && q.front.isNone && q.head % q.count != q.tail % q.count

/-- PACKET_FETCH. A packet that cannot be read is rejected; its words are then free (log entry 9). -/
def execPacketFetch (s : State) : Out :=
  let k := s.ev.key
  let q := s.queue k
  let ix := q.head % q.count
  let a := q.base * 128 + 64 * ix
  .next (if s.svc == 0 || !q.canFetch then s
    else match s.cpRead (k / 32) q.memva a 64 with
      | none =>
        let w := (List.range 4).map (fun i => Config.freeWord (s.free + i))
        ({ s.readFailed with free := s.free + 4 }).reject k 6 (bits (w.getD 0 0) 7 0) 0 a w
      | some (t, bs) =>
        let p : Packet := { index := ix, words := wordsOfBytes bs }
        match t.validate k p with
        | .good u p => u.updQueue k (fun q => { q with front := some p })
        | .bad u c addr check => u.reject k c p.type check addr (p.words.take 4))

/-! Issue and completion. -/

/-- The packet at head issues. -/
def State.issue (s : State) (k : Nat) (p : Packet) : State :=
  s.updQueue k (fun q => { q with front := none, head := (q.head + 1) % q.count, issued := q.issued ++ [{ p with issued := true }] })

/-- An issued packet completes. -/
def State.complete (s : State) (k : Nat) (p : Packet) (status value : Nat) (detail : Word) : State :=
  s.updQueue k (fun q => q.finish { p with issued := true } (p.completion status value detail))

/-- NOP_PACKET. -/
def execNopPacket (s : State) : Out :=
  let k := s.ev.key
  .next (match s.ripe k [0] with
    | some p => (s.issue k p).complete k p 0 0 0
    | none => s)

/-! COPY. -/

/-- A word read or written by the command copy unit. -/
def State.unitRead (s : State) (f sp a : Nat) : Option (State × List Byte) := s.cpRead f (sp != 5) a 8
def State.unitWrite (s : State) (f sp a : Nat) (bs : List Byte) : Option State := s.cpWrite f (sp != 5) a bs

/-- Up to n words of a COPY in progress, in ascending order; its end or its fault completes it. -/
def State.copyWords (s : State) (k : Nat) (p : Packet) : Nat → State
  | 0 => s
  | n + 1 =>
    let f := k / 32
    let stop := fun (s : State) (status : Nat) => s.complete k p status (p.moved % 2 ^ 32) (BitVec.ofNat 64 (p.len - p.moved))
    match s.unitRead f p.srcSpace ((p.word 1).toNat + p.moved) with
    | none => stop s.readFailed 4
    | some (t, bs) => match t.unitWrite f p.dstSpace ((p.word 2).toNat + p.moved) bs with
      | none => stop t.readFailed 5
      | some t =>
        let p' := { p with moved := p.moved + 8 }
        let t := t.updQueue k (fun q => { q with issued := q.issued.map (fun x => if x == p then p' else x) })
        if p'.moved < p.len then t.copyWords k p' n
        else t.complete k p' 0 (p'.moved % 2 ^ 32) 0

/-- COPY_PACKET: the packet issues; with ev.val = 1 its oldest COPY moves at most ev.ix more words. -/
def execCopyPacket (s : State) : Out :=
  let k := s.ev.key
  .next (if s.ev.val == 1 then
      (match (s.queue k).issued.find? (fun p => p.type == 2) with
       | some p => s.copyWords k p s.ev.ix
       | none => s)
    else match s.ripe k [2] with
      | some p => s.issue k p
      | none => s)

/-! Signals. -/

/-- An update of a signal word by a command processor: 0 store, 1 add, 2 store and set full; id: the number of its answer when the
word is on another package. On a die that is not present it has no effect (R195). -/
def State.signal (s : State) (p : Word) (op : Nat) (v : Word) (id : Nat) : State :=
  let d := bits p 26 24
  if s.ownNode (ptrNode p) then
    if (s.die d).failed then s
    else (let a := sigAddr d (ptrOff p)
     if op == 1 then s.land a (bytesOf (atomicNew .add (Memory.word s.mem a) v 0).1.toNat 8) else s.landWord a v (op == 2))
  else
    s.send { src := .memory, dst := .farSig (ptrNode p) d, net := .request, body :=
      if op == 1 then .atomic id 0 (id % 65536) 0 p .add v 0 false
      else .store { id := id, slot := 0, bt := 0 } p v (if op == 2 then .setFull else .plain) none }

/-- The signal unit that a pointer names can be reached. -/
def State.signalReady (s : State) (p : Word) : Bool := !s.ownNode (ptrNode p) || (s.die (bits p 26 24)).tested

/-- The answer of a signal update on another package. -/
def Msg.answers (m : Msg) : Option Nat :=
  match m.dst, m.body with
  | .memory, .ack id _ _ _ => some id
  | .memory, .atomicReply id _ _ _ _ => some id
  | _, _ => none

/-- SIGNAL_PACKET: the packet is sent, and completes when the write is performed: at once on this package; with ev.val = 1 the
answer ev.ix from another package completes it. -/
def execSignalPacket (s : State) : Out :=
  let k := s.ev.key
  .next (if s.ev.val == 1 then
      (match s.net[s.ev.ix]? with
       | some m => (match m.answers with
         | some id =>
           let t := { s with net := s.net.eraseIdx s.ev.ix }
           (match (t.queue k).issued.find? (fun p => p.type == 3 && p.stamp == id) with
            | some p => t.complete k p 0 0 0
            | none => t)
         | none => s)
       | none => s)
    else match s.ripe k [3] with
      | none => s
      | some p =>
        if !s.signalReady (p.word 1) then s
        else
          let n := s.freshId
          let p := { p with stamp := n.1 }
          let t := (n.2.signal (p.word 1) p.op (p.word 2) n.1).issue k p
          if s.ownNode (ptrNode (p.word 1)) then t.complete k p 0 0 0 else t)

/-! WAIT. -/

/-- An entry compares true; at a die that has failed its test meanwhile none does (DESIGN CHOICE, log entry 91). -/
def State.entryHolds (s : State) (e : Nat) : Bool :=
  let w := (Memory.word s.mem (sigAddr (e / 2 ^ 12 % 8) (8 * (e % 2 ^ 12)))).toNat
  let v := e / 2 ^ 17
  !(s.die (e / 2 ^ 12 % 8)).failed && (match e / 2 ^ 15 % 4 with
    | 0 => v ≤ w
    | 1 => w < v
    | 2 => w == v
    | _ => w != v)

/-- The answer of one read of the evaluation of a WAIT (R268): it holds, with the value of its completion; it does not; or it goes on. -/
inductive WaitRead where
  | holds (value : Nat)
  | fails
  | next
  deriving DecidableEq, Repr

/-- Entry p.moved is read: WAIT_ALL holds with its last entry, WAIT_ANY with the first that compares true. -/
def State.waitRead (s : State) (p : Packet) : WaitRead :=
  let last := p.moved + 1 == p.n
  match p.type == 4, s.entryHolds (p.entry p.moved) with
  | true, true => if last then .holds 0 else .next
  | true, false => .fails
  | false, true => .holds p.moved
  | false, false => if last then .fails else .next

/-- The next entry of the WAIT at the head of a queue is read: one after the other, each at its own time, so the values need not have stood
together. A die whose self-test has not ended holds it (R195). -/
def State.evaluate (s : State) (k : Nat) (p : Packet) : State :=
  let x := s.die (p.entry p.moved / 2 ^ 12 % 8)
  let put := fun (moved step : Nat) => s.updQueue k (fun q => { q with front := some { p with moved := moved, step := step, readAt := s.now + 1 } })
  if p.readAt == s.now + 1 || !x.tested then s
  else match s.waitRead p with
    | .holds v => (s.issue k p).complete k p 0 v 0
    | .fails => if p.moved == 0 && p.step == 1 then s else put 0 1
    | .next => put (p.moved + 1) p.step

/-- The first read of the first evaluation, when the queue reaches the WAIT. -/
def State.firstWait (s : State) (k type : Nat) : State :=
  match s.ripe k [type] with
  | some p => if p.step == 0 && p.moved == 0 then s.evaluate k p else s
  | none => s

def execWaitAll (s : State) : Out := .next (s.firstWait s.ev.key 4)
def execWaitAny (s : State) : Out := .next (s.firstWait s.ev.key 5)

/-- WAIT_EVALUATION: any later read. -/
def execWaitEvaluation (s : State) : Out :=
  let k := s.ev.key
  .next (match s.ripe k [4, 5] with
    | some p => if p.step == 1 || p.moved != 0 then s.evaluate k p else s
    | none => s)

/-! VINTNER. -/

/-- VINTNER_PACKET: the operation is submitted; a full Vintner queue makes the packet wait. A parameter block that cannot be read gives
status 7, one with a must-be-zero bit set status 2. -/
def execVintnerPacket (s : State) : Out :=
  let k := s.ev.key
  let f := k / 32
  .next (match s.ripe k [6] with
    | none => s
    | some p =>
      if s.vqueueFull then s
      else
        let c := p.word 1
        let g := bits c 7 0
        let blk := if p.vkind == 0 then some (s, []) else s.readVaWords f f (p.word 2).toNat (vblockWords p.vkind)
        let t := (blk.map Prod.fst).getD s.readFailed
        let b := (blk.map Prod.snd).getD []
        let status := if blk.isNone then 7 else if vblockOk p.vkind b then 0 else 2
        let mk := fun (id ticket : Nat) =>
          let o : VOp := {
            id := id, kind := p.vkind, grp := g, ticket := ticket, tag := bits c 31 16, ev := bit c 32, vk := none, res := 0, lim := 0,
            mMode := true, packet := some (k, p.index, (p.word 3).toNat), params := b, members := t.membersOf g }
          if status == 0 then o else o.finish status 0 []
        (t.submit mk g).2.issue k p)

/-! Completions (R277, R436). -/

/-- The ring has room for a record. -/
def Queue.recordRoom (q : Queue) : Bool := (q.ctail - q.chead).toNat != q.records
def Queue.recordAt (q : Queue) : Nat := q.cbase * 64 + 16 * (q.ctail.toNat % q.records)

/-- The first waiting completion posts: its record is written, its vector fires, its signal is updated. -/
def State.posted (s : State) (k : Nat) (c : Completion) : State :=
  let s := s.updQueue k (fun q =>
    { q with posting := q.posting.drop 1, recFault := q.recFault && !(q.posting.drop 1).isEmpty })
  match c.cs with
  | some p => let n := s.freshId
    n.2.signal p 1 1 n.1
  | none => s

/-- PACKET_COMPLETION. -/
def execPacketCompletion (s : State) : Out :=
  let k := s.ev.key
  let q := s.queue k
  .next (match q.posting with
    | [] => s
    | c :: _ =>
      if (q.stopped && q.recFault) || (c.cr && !q.recordRoom) || !(c.cs.all s.signalReady) then s
      else if !c.cr then s.posted k c
      else match s.cpWrite (k / 32) q.memva q.recordAt (bytesOfWords [c.word0, c.word1]) with
        | some t => ((t.updQueue k (fun q => { q with ctail := q.ctail + 1 })).fire (k / 32) (k % 32)).posted k c
        | none => (s.readFailed.updQueue k (fun q => { q with recFault := true })).stopQueue k
            (errorWords 8 c.type c.index 0 (BitVec.ofNat 64 q.recordAt) c.pkt))

end Sys2Proof.Machine
end

