-- ==== Sys2Proof/Machine/Boundary.lean ====
section
/-! DEFINITION. What happens to slots without a word of their own: illegal and reserved words (R71 to R74), interrupts and
asynchronous faults (R245 to R248), the changes at rotation boundaries (R43, R103, R105). -/

namespace Sys2Proof.Machine

/-- ILLEGAL_INSTRUCTION_WORD: the word is ev.val. -/
def execIllegalInstructionWord (s : State) : Out := .next (s.illegal (s.ev.val.setWidth 32))

/-! Reserved codes (R72, R73). -/

/-- What a sibling does when its bundle takes the reserved-code trap. -/
def Slot.reserve (sl : Slot) : Slot :=
  match sl.st with
  | .empty => sl
  | .halted => sl
  | .dropped => { sl with trap := some .reservedCode }
  | _ => sl.seize .reservedCode

/-- The current slot, in U mode, decodes the reserved word w. -/
def State.reservedCode (s : State) (w : InsnWord) : State :=
  let me := s.me
  let mine := fun (k : Nat) (sl : Slot) => k / 16 == s.vk && sl.bundle == me.bundle
  let t := s.mapSlots (fun k sl => if k == s.cur then { sl.seize .reservedCode with offender := true, resv := none } else if mine k sl then sl.reserve else sl)
  let t := if s.myVc.holds.any (fun h => h.kind == .preempt) then
      ((t.slotsOf s.vk).filter (fun k => mine k (t.slot k) && (t.slot k).st == .trapped)).foldl (fun t k => t.writeSlotRecord k) t
    else t
  match s.mailbox s.vk with
  | some _ => t.mail s.vk 1 s.ix me.pc (w.setWidth 64) 0 []
  | none => t.queueReserved me (s.mailWords s.vk 1 s.ix me.pc (w.setWidth 64) 0 [])

/-- RESERVED_CODE: the word is ev.val. -/
def execReservedCode (s : State) : Out :=
  .next (if s.me.mode == .u && s.me.st == .issuing then s.reservedCode (s.ev.val.setWidth 32) else s)

/-- A reserved-code bundle leaves TRAPPED at the next boundary (R74, R279); term: its slots become EMPTY then, one that still waits for
a reply too. -/
def State.resumeBundle (s : State) (vk bundle : Nat) (term : Bool) : State :=
  s.mapSlots (fun k sl =>
    if k / 16 == vk && sl.bundle == bundle && sl.trap == some .reservedCode then
      (if sl.st == .trapped then { sl with wakeAt := some (s.cycOf vk + 1), ends := term }
       else if term then { sl.seize .reservedCode with hold := none, wakeAt := some (s.cycOf vk + 1), ends := true }
       else { sl with trap := none })
    else sl)

/-! Interrupts and asynchronous faults (R245 to R248). -/

/-- The first enabled pending interrupt: 0 PRE, 1 SMI, 2 STL, 3 SUP. -/
def Slot.irq (sl : Slot) : Option Nat := (List.range 4).find? (fun b => (sl.mip &&& sl.mie).getLsbD b)

/-- An asynchronous fault is pending that the slot can take now. -/
def Slot.asyncReady (sl : Slot) : Bool := sl.takes && (!sl.p27.isEmpty || sl.p30.isSome)
/-- An interrupt is pending that the slot can take now. -/
def Slot.irqReady (sl : Slot) : Bool := sl.takes && sl.irq.isSome

/-- ASYNC_FAULT_TAKEN: mcause 27 before 30. -/
def execAsyncFaultTaken (s : State) : Out :=
  let sl := s.me
  .next (if sl.st != .issuing || !sl.asyncReady then s
    else match sl.p27, sl.p30 with
      | t :: rest, _ => (s.updMe (fun x => { x with p27 := rest })).trap 27 (BitVec.ofNat 64 t)
      | [], some off => (s.updMe (fun x => { x with p30 := none })).trap 30 off
      | [], none => s)

/-- INTERRUPT_TAKEN. STL clears when it is taken; the take of PRE holds the other slots of the virtual core (R354). -/
def execInterruptTaken (s : State) : Out :=
  let sl := s.me
  .next (if sl.st != .issuing || !sl.takes || sl.asyncReady then s
    else match sl.irq with
      | none => s
      | some b =>
        let t := s.interrupt (16 + b)
        if b == 2 then t.clearMip s.cur 2
        else if b == 0 then
          (t.updMyVc (fun v => { v with lead := some s.ix, saveOk := false, ending := false })).askHold s.vk
            { kind := .preempt, slot := s.ix }
        else t)

/-! Changes at a rotation boundary. ev.key is the slot key. -/

def State.canForkStart (s : State) (key : Nat) : Bool :=
  s.atBoundary key && s.clocked key &&
    (s.vc (key / 16)).forks.any (fun f => f.slot == key % 16 && f.cyc < s.cycOf (key / 16))

/-- The started slot: the listed registers of the issuing slot at its FORK; the others keep their values. -/
def forkedSlot (old image : Slot) : Slot :=
  { old with
    st := .issuing, mode := .u, pc := image.pc, x := image.x, f := image.f, frm := image.frm, fflags := 0, h := image.h,
    segbase := image.segbase, seglim := image.seglim, qowner := image.qowner, mie := image.mie, bundle := image.bundle,
    mstMIE := false, mstMPIE := false, mstMPP := .u, resv := none, line := none, ahead := none, fetchFault := none, park := none,
    wakeAt := none, hold := none, reply := none, rewound := none, trap := none, arrived := none, outer := [] }

/-- FORK_SLOT_START. -/
def execForkSlotStart (s : State) : Out :=
  let key := s.ev.key
  let vk := key / 16
  .next (if !s.canForkStart key then s
    else match (s.vc vk).forks.find? (fun f => f.slot == key % 16) with
      | none => s
      | some f =>
        let t := s.updVc vk (fun v => { v with forks := v.forks.erase f })
        ((t.updSlot key (fun old => forkedSlot old f.image)).wantLine key).sweep vk)

def State.canEmpty (s : State) (key : Nat) : Bool :=
  let sl := s.slot key
  sl.st == .halted && s.atBoundary key && s.clocked key && sl.haltAt < s.cycOf (key / 16) &&
    !((s.vc (key / 16)).forks.any (fun f => f.slot == key % 16))

/-- HALTED_TO_EMPTY. -/
def execHaltedToEmpty (s : State) : Out :=
  .next (if s.canEmpty s.ev.key then s.updSlot s.ev.key (fun sl => { sl with st := .empty }) else s)

/-- A parked slot, or a dropped one whose reply has been written, may return at this boundary. -/
def State.canUnpark (s : State) (key : Nat) : Bool :=
  let sl := s.slot key
  (sl.st == .parked || (sl.st == .dropped && sl.trap.isNone)) && s.atBoundary key && s.clocked key &&
    sl.wakeAt.any (fun c => c ≤ s.cycOf (key / 16))

/-- SLOT_UNPARK. -/
def execSlotUnpark (s : State) : Out :=
  .next (if s.canUnpark s.ev.key then
      s.updSlot s.ev.key (fun sl => { sl with st := .issuing, park := none, wakeAt := none })
    else s)

def State.canRelease (s : State) (key : Nat) : Bool :=
  let sl := s.slot key
  sl.st == .trapped && s.atBoundary key && s.clocked key && sl.wakeAt.any (fun c => c ≤ s.cycOf (key / 16))

/-- The slot that held its bundle passes its reserved word. -/
def Slot.passWord (sl : Slot) : Slot :=
  if sl.offender then { sl with pc := sl.pc + 4, hold := none, offender := false } else sl

/-- TRAPPED_RELEASE: to ISSUING, to DROPPED when its load has not been answered, or to EMPTY when it was ended; a hold still to be answered takes the slot over again. -/
def execTrappedRelease (s : State) : Out :=
  let key := s.ev.key
  .next (if !s.canRelease key then s
    else if (s.slot key).ends then
      (s.updSlot key (fun sl => { sl with
        st := .empty, trap := none, wakeAt := none, hold := none, offender := false, ends := false })).wakeJoin (key / 16) (key % 16)
    else
      ((s.updSlot key (fun sl => sl.passWord.goOn)).wantLine key).sweep (key / 16))

end Sys2Proof.Machine
end

