-- ==== Sys2Proof/Machine/Flit.lean ====
section
/-! DEFINITION. Flits (R343, Table 13.10): a message as flits and back, CRC-32. Payload layouts that R343 does not give (replies,
control messages, WENQ payloads, copy and racking writes, Vintner control, port messages) are the model's (log entry 26). -/

namespace Sys2Proof.Machine

/-! CRC-32 of IEEE 802.3. -/

def crcStep (c : Nat) : Nat → Nat
  | 0 => c
  | n + 1 => crcStep (if c % 2 == 1 then c / 2 ^^^ 0xEDB88320 else c / 2) n

def crc32 (bs : List Byte) : Nat := bs.foldl (fun c b => crcStep (c ^^^ b.toNat) 8) 0xFFFFFFFF ^^^ 0xFFFFFFFF

/-- The crc field written: over bytes 0 to 59. -/
def sealFlit (f : Flit) : Flit :=
  let f := f.take 7 ++ [(f.getD 7 0) &&& 0xFFFFFFFF]
  f.take 7 ++ [(f.getD 7 0) ||| BitVec.ofNat 64 (crc32 ((bytesOfWords f).take 60) * 2 ^ 32)]

def crcOk (f : Flit) : Bool := f.length == 8 && bits (f.getD 7 0) 63 32 == crc32 ((bytesOfWords f).take 60)

/-! Fields. -/

def flitVn (f : Flit) : Nat := bits (f.getD 0 0) 1 0
def flitOp (f : Flit) : Nat := bits (f.getD 0 0) 7 2
def flitDnode (f : Flit) : Nat := bits (f.getD 0 0) 27 8
def flitSnode (f : Flit) : Nat := bits (f.getD 0 0) 47 28
def flitEseq (f : Flit) : Nat := bits (f.getD 0 0) 63 48
def flitDvc (f : Flit) : Nat := bits (f.getD 1 0) 15 0
def flitSvc (f : Flit) : Nat := bits (f.getD 1 0) 31 16
def flitSlot (f : Flit) : Nat := bits (f.getD 1 0) 35 32
def flitBt (f : Flit) : Nat := bits (f.getD 1 0) 37 36
def flitVch (f : Flit) : Bool := bit (f.getD 1 0) 38
def flitDup (f : Flit) : Bool := bit (f.getD 1 0) 39
def flitJob (f : Flit) : Nat := bits (f.getD 1 0) 55 40
def flitNfl (f : Flit) : Nat := bits (f.getD 1 0) 62 56
def flitLseq (f : Flit) : Nat := bits (f.getD 7 0) 15 0
def flitLack (f : Flit) : Nat := bits (f.getD 7 0) 31 16

/-- Bits hi..lo of word i of a flit replaced. -/
def setField (f : Flit) (i hi lo v : Nat) : Flit :=
  let w := f.getD i 0
  let mask := (2 ^ (hi + 1 - lo) - 1) * 2 ^ lo
  f.set i ((w &&& ~~~ BitVec.ofNat 64 mask) ||| BitVec.ofNat 64 (v % 2 ^ (hi + 1 - lo) * 2 ^ lo))

/-- The op codes of Table 13.10 by network. -/
def opAssigned (vn op : Nat) : Bool :=
  match vn with
  | 0 => op ≤ 0x0D || op == Config.portOp.toNat
  | 1 => (0x10 ≤ op && op ≤ 0x14) || op == Config.portOp.toNat
  | 2 => (0x20 ≤ op && op ≤ 0x26) || op == Config.portOp.toNat
  | _ => 0x30 ≤ op && op ≤ 0x32

/-! A message as flits. -/

def vnetCode : VNet → Nat
  | .request => 0
  | .reply => 1
  | .control => 2

def vnetOfCode : Nat → VNet
  | 0 => .request
  | 1 => .reply
  | _ => .control

def atomicCode : AtomicOp → Nat
  | .add => 0
  | .fadd => 1
  | .min => 2
  | .max => 3
  | .swap => 4
  | .cas => 5

def atomicOf : Nat → AtomicOp
  | 0 => .add
  | 1 => .fadd
  | 2 => .min
  | 3 => .max
  | 4 => .swap
  | _ => .cas

/-- The op of a message; own: a store with a token of its own. A levelled entry never leaves its die. -/
def Body.op (own : Bool) : Body → Nat
  | .load _ _ _ isF => if isF then 1 else 0
  | .store _ _ _ k h => if h.isSome then 7 else if own then 6 else (match k with
    | .setFull => 3
    | .release _ _ => 4
    | _ => 2)
  | .atomic _ _ _ _ _ _ _ _ _ => 5
  | .close _ _ => 8
  | .enqueue _ _ _ => 9
  | .copyRead _ _ _ _ => 0
  | .copyWrite _ _ _ _ _ => 0x0A
  | .rackWrite _ _ _ => 0x0B
  | .mailbox _ _ _ => 0x0C
  | .vntControl _ _ _ => 0x0D
  | .level _ _ _ => Config.portOp.toNat
  | .port _ _ _ => Config.portOp.toNat
  | .loadReply _ _ _ _ => 0x10
  | .atomicReply _ _ _ _ _ => 0x11
  | .retry _ _ => 0x12
  | .summary _ _ => 0x13
  | .refusal _ => 0x14
  | .ack _ _ _ _ => 0x20
  | .release _ => 0x21
  | .expiry _ => 0x22
  | .scopeMiss _ _ => 0x23
  | .guyline _ _ => 0x24
  | .arrive _ _ => 0x24
  | .marker _ _ => 0x26

/-- Slot and batch fields. -/
def Body.tags : Body → Nat × Nat
  | .load _ slot _ _ => (slot, 0)
  | .store t _ _ _ _ => (t.slot, t.bt)
  | .atomic _ slot _ _ _ _ _ _ _ => (slot, 0)
  | .close _ bt => (0, bt)
  | .enqueue t _ _ => (t.slot, t.bt)
  | .copyRead t _ _ _ => (t.slot, 0)
  | .copyWrite t _ _ _ _ => (t.slot, 0)
  | .loadReply _ slot _ _ => (slot, 0)
  | .atomicReply _ slot _ _ _ => (slot, 0)
  | .ack _ slot _ _ => (slot, 0)
  | .scopeMiss slot _ => (slot, 0)
  | .mailbox sslot _ _ => (sslot, 0)
  | _ => (0, 0)

/-- What a request from another package is answered by: its number is made of its pointer, its atomic sequence and its end-to-end
sequence. -/
def idOf (p : Word) (seq eseq : Nat) : Nat := p.toNat + seq % 65536 * 2 ^ 64 + eseq % 65536 * 2 ^ 80
def idPtr (id : Nat) : Word := BitVec.ofNat 64 id
def idSeqs (id : Nat) : Nat := id / 2 ^ 64 % 2 ^ 32
def idEseq (id : Nat) : Nat := id / 2 ^ 80 % 65536

/-- Pointer and sequence of a request. -/
def Body.askedFor : Body → Word × Nat
  | .load _ _ p _ => (p, 0)
  | .store _ p _ _ _ => (p, 0)
  | .atomic _ _ seq _ p _ _ _ _ => (p, seq)
  | .copyRead _ p _ _ => (p, 0)
  | .copyWrite _ p _ _ _ => (p, 0)
  | _ => (0, 0)

/-- Payload words. What a request needs beyond the one-flit fields of R343 stands in a second flit. -/
def Body.payload : Body → List Word
  | .load _ _ p _ => [p]
  | .store _ p v _ h => [p, v, BitVec.ofNat 64 (h.getD 0)]
  | .atomic _ _ seq _ p op v cmp _ => [p, v, cmp, BitVec.ofNat 64 seq, 0, BitVec.ofNat 64 (atomicCode op)]
  | .copyRead _ p n bank => [p, 0, 0, 0, 0, BitVec.ofNat 64 (n + bank * 16)]
  | .copyWrite _ p bs bank full => [p, BitVec.ofNat 64 (ofBytes bs), 0, 0, 0,
      BitVec.ofNat 64 (bs.length + bank * 16 + (if full.1 then 64 else 0) + (if full.2 then 128 else 0))]
  | .rackWrite op off bs => [BitVec.ofNat 64 op, BitVec.ofNat 64 off, BitVec.ofNat 64 bs.length] ++ wordsOfBytes bs
  | .vntControl op code ws => [BitVec.ofNat 64 op, BitVec.ofNat 64 code, BitVec.ofNat 64 ws.length] ++ ws
  | .close _ _ => []
  | .enqueue _ ix bs => BitVec.ofNat 64 (ix + bs.length * 2 ^ 48) :: wordsOfBytes bs
  | .mailbox _ ring ws => BitVec.ofNat 64 ring :: ws
  | .level ring w0 w1 => [BitVec.ofNat 64 ring, w0, w1]
  | .port _ p w => [w, BitVec.ofNat 64 p]
  | .loadReply id _ err v => [BitVec.ofNat 64 (err.toNat * 65536), v, idPtr id, BitVec.ofNat 64 (idSeqs id)]
  | .atomicReply id _ st v fl => [BitVec.ofNat 64 (st * 2 ^ 32 + fl.toNat * 2 ^ 34), v, idPtr id, BitVec.ofNat 64 (idSeqs id)]
  | .summary _ b => [BitVec.ofNat 64 (b.toNat * 65536)]
  | .retry req a => [BitVec.ofNat 64 (if a then 1 else 0), 0, idPtr req.number, BitVec.ofNat 64 (idSeqs req.number)]
  | .refusal req => [0, 0, idPtr req.number, BitVec.ofNat 64 (idSeqs req.number)]
  | .ack id _ e miss => [BitVec.ofNat 64 ((if miss then 1 else 0) + e.toNat * 65536), 0, idPtr id, BitVec.ofNat 64 (idSeqs id)]
  | .release t => [0, 0, BitVec.ofNat 64 t]
  | .expiry t => [0, 0, BitVec.ofNat 64 t]
  | .scopeMiss _ ws => ws
  | .guyline g rs => BitVec.ofNat 64 g :: rs
  | .arrive g v => [BitVec.ofNat 64 g, v]
  | .marker _ _ => []

/-- Node, VCID and job of an end of a message. A signal unit has the VCID 0xF00 + die. -/
def State.endOf (s : State) : Dest → Nat × Nat × Nat
  | .vc k => (s.node, k % 65536, (s.gang (k / 65536)).job)
  | .sig d => (s.node, 0xF00 + d, 0)
  | .farVc n j v => (n, v, j)
  | .farSig n d => (n, 0xF00 + d, 0)
  | _ => (s.node, 0, 0)

/-- Five payload words a flit. -/
def chunks5 : Nat → List Word → List (List Word)
  | 0, _ => []
  | n + 1, ws => if ws.length ≤ 5 then [ws] else ws.take 5 :: chunks5 n (ws.drop 5)

/-- The flits of a message; own: its store has a token of its own. -/
def State.flitsOf (s : State) (m : Msg) (eseq : Nat) (own : Bool) : List Flit :=
  let a := s.endOf m.src
  let b := s.endOf m.dst
  let t := m.body.tags
  let dup := match m.body with
    | .atomic _ _ _ _ _ _ _ _ d => d
    | _ => false
  let cs := chunks5 128 m.body.payload
  let w0 := BitVec.ofNat 64 (vnetCode m.net + m.body.op own * 4 + b.1 % 2 ^ 20 * 2 ^ 8 + a.1 % 2 ^ 20 * 2 ^ 28 + eseq % 65536 * 2 ^ 48)
  let w1 := fun (left : Nat) => BitVec.ofNat 64 (b.2.1 % 65536 + a.2.1 % 65536 * 2 ^ 16 + t.1 % 16 * 2 ^ 32 + t.2 % 4 * 2 ^ 36 +
    (if dup then 2 ^ 39 else 0) + (if b.2.2 != 0 then b.2.2 else a.2.2) % 65536 * 2 ^ 40 + left % 128 * 2 ^ 56)
  cs.zipIdx.map (fun p => sealFlit ([w0, w1 (cs.length - 1 - p.2)] ++ p.1 ++ List.replicate (5 - p.1.length) 0 ++ [0]))

/-! Flits as a message. -/

/-- Payload words of the flits of a message. -/
def flitPayload (fs : List Flit) : List Word := fs.flatMap (fun f => (f.drop 2).take 5)

/-- The body of a request, control or port message of flits. Replies are matched with their requests elsewhere. -/
def bodyOfFlits (fs : List Flit) : Option Body :=
  let f := fs.headD []
  let w := flitPayload fs
  let g := fun (i : Nat) => w.getD i 0
  let slot := flitSlot f
  let e := flitEseq f
  let tag : Tag := { id := idOf (g 0) 0 e, slot := slot, bt := flitBt f }
  let store := fun (k : StoreKind) (h : Option Nat) => some (Body.store tag (g 0) (g 1) k h)
  let n := (g 5).toNat % 16
  let bank := (g 5).toNat / 16 % 4
  if flitOp f == Config.portOp.toNat then some (.port (vnetOfCode (flitVn f)) (g 1).toNat (g 0))
  else match flitOp f with
    | 0x00 => if fs.length == 2 then some (.copyRead tag (g 0) n bank) else some (.load tag.id slot (g 0) false)
    | 0x01 => some (.load tag.id slot (g 0) true)
    | 0x02 => store .plain none
    | 0x03 => store .setFull none
    | 0x04 => store .plain none
    | 0x05 =>
      let seq := bits (g 3) 15 0
      some (.atomic (idOf (g 0) seq e) slot seq (flitSvc f) (g 0) (atomicOf (bits (g 5) 2 0)) (g 1) (g 2) (flitDup f))
    | 0x06 => store .plain none
    | 0x07 => store .plain (some (bits (g 2) 15 0))
    | 0x09 => some (.enqueue { tag with id := idOf 0 0 e } (bits (g 0) 5 0) ((bytesOfWords (w.drop 1)).take (bits (g 0) 63 48)))
    | 0x0A => some (.copyWrite tag (g 0) (bytesOf (g 1).toNat n) bank (bit (g 5) 6, bit (g 5) 7))
    | 0x0B => some (.rackWrite (g 0).toNat (g 1).toNat ((bytesOfWords (w.drop 3)).take (g 2).toNat))
    | 0x0C => some (.mailbox slot (bits (g 0) 5 0) ((w.drop 1).take 8))
    | 0x0D => some (.vntControl (g 0).toNat (g 1).toNat ((w.drop 3).take (g 2).toNat))
    | 0x21 => some (.release (bits (g 2) 15 0))
    | 0x22 => some (.expiry (bits (g 2) 15 0))
    | 0x23 => some (.scopeMiss slot (w.take 4))
    | 0x24 => some (.guyline (bits (g 0) 7 0) ((w.drop 1).take 8))
    | _ => none

/-- Flits grouped into messages: the first of each names how many follow. -/
def groupFlits : Nat → List Flit → List (List Flit)
  | 0, _ => []
  | _, [] => []
  | n + 1, f :: t => (f :: t.take (flitNfl f)) :: groupFlits n (t.drop (flitNfl f))

/-! Flits out to another package (R345). -/

/-- Key of a (package, network) pair. -/
def pairKey (node vn : Nat) : Nat := node * 4 + vn
def State.out (s : State) (k : Nat) : FarOut := FMap.getD s.farOut k {}
def State.updOut (s : State) (k : Nat) (f : FarOut → FarOut) : State := { s with farOut := FMap.set s.farOut k (f (s.out k)) }

def Dest.nodeOf : Dest → Option Nat
  | .farVc n _ _ => some n
  | .farSig n _ => some n
  | _ => none

/-- Flits sent to a pair and not acknowledged. -/
def State.unackedFlits (s : State) (k : Nat) : Nat :=
  sumNat ((s.out k).sent.map (fun x => (s.flitsOf x.msg x.eseq false).length))

end Sys2Proof.Machine
end

