-- ==== Sys2Proof/Machine/Guyline.lean ====
section
/-! DEFINITION. The guyline network (R120, R121): arrivals at a group, the eight results of an episode, their way to the members. -/

namespace Sys2Proof.Machine

/-- The least value of a list under an order. -/
def leastBy (le : Word → Word → Bool) : List Word → Word
  | [] => 0
  | a :: t => t.foldl (fun m x => if le m x then m else x) a

/-- The eight results of Table 04.4. -/
def combine (l : List Word) : List Word :=
  [l.foldl (· + ·) 0, leastBy (fun a b => a.ule b) l, leastBy (fun a b => b.ule a) l,
   leastBy (fun a b => a.sle b) l, leastBy (fun a b => b.sle a) l,
   l.foldl (· &&& ·) (BitVec.allOnes 64), l.foldl (· ||| ·) 0, l.foldl (· ^^^ ·) 0]

/-- An arrival of a virtual core reaches a group: it opens an episode, whose members are read now (DESIGN CHOICE, log entry 101), joins
the open one, or is held for the next. -/
def State.arrive (s : State) (vk g : Nat) (v : Word) : State :=
  s.updGroup g (fun x =>
    if !x.isOpen then { x with isOpen := true, members := s.membersOf g, arrivals := [(vk, v)] }
    else if x.members.contains vk then { x with arrivals := x.arrivals ++ [(vk, v)] }
    else { x with early := x.early ++ [(vk, v)] })

/-- The results reach a member: they are stored, its pending bit clears, and its waiters wake. -/
def State.guylineResults (s : State) (vk g : Nat) (rs : List Word) : State :=
  match (s.vc vk).groups.findIdx? (· == g) with
  | none => s
  | some i =>
    (s.updVc vk (fun v => { v with gpend := FMap.set v.gpend i false, gres := FMap.set v.gres i rs })).wakeVc vk
      (fun a => a == Await.group g)

/-- A control message for an absent virtual core goes to its absent-control log (R357). -/
def State.logAbsent (s : State) (vk : Nat) (m : Msg) : State := s.updVc vk (fun v => { v with absentLog := v.absentLog ++ [m] })

def State.episodeComplete (s : State) (g : Nat) : Bool :=
  let x := s.group g
  x.isOpen && x.members.all (fun m => x.arrivals.any (fun p => p.1 == m))

/-- The completion of an episode is sent to its members; arrivals held for the next one open it. -/
def State.completeEpisode (s : State) (g : Nat) : State :=
  let x := s.group g
  let rs := combine (x.arrivals.map Prod.snd)
  let t := x.members.foldl (fun t vk => t.send { src := .memory, dst := .vc vk, net := .control, body := .guyline g rs }) s
  t.updGroup g (fun y => { y with
    episodes := y.episodes + 1, arrivals := x.early, early := [], isOpen := !x.early.isEmpty,
    members := if x.early.isEmpty then [] else t.membersOf g })

/-- An arrival, or a completion, reaches its end; the member may be absent. -/
def State.guylineArrival (s : State) (n : Nat) : State :=
  match s.msg? n with
  | none => s
  | some m => match m.src, m.dst, m.body with
    | .vc vk, _, .arrive g v => (s.dropMsg n).arrive vk g v
    | _, .vc vk, .guyline g rs =>
      if (s.deliverable n).isNone then s
      else if !(s.vc vk).live then s.dropMsg n
      else if (s.vc vk).place.isNone then (s.dropMsg n).logAbsent vk m
      else (s.dropMsg n).guylineResults vk g rs
    | _, _, _ => s

/-- GUYLINE_EPISODE_COMPLETION of group ev.key; with ev.val = 1 message ev.ix of the guyline network arrives. -/
def execGuylineEpisodeCompletion (s : State) : Out :=
  .next (if s.ev.val == 1 then s.guylineArrival s.ev.ix
    else if s.episodeComplete s.ev.key then s.completeEpisode s.ev.key else s)

end Sys2Proof.Machine
end

