-- ==== Sys2Proof/Machine/Home.lean ====
section
/-! DEFINITION. The events of remote access (F08): requests at their homes, replies, acknowledgements, notices, refusals and
retries. ev.ix is the place of the message in the networks unless an event says otherwise. -/

namespace Sys2Proof.Machine

/-! Loads (R197). -/

/-- REMOTE_LOAD_AT_HOME: a load, or a copy engine's read. -/
def execRemoteLoadAtHome (s : State) : Out :=
  .next (match s.evAccess with
    | some m => (match m.body with
      | .load _ _ _ _ => s.takeEv.arriveAccess m
      | .copyRead _ _ _ _ => s.takeEv.arriveAccess m
      | _ => s)
    | none => s)

def State.readyWait (s : State) (l : List FarWait) : Option FarWait := l.find? (fun w => s.isFull w.addr)

/-- FAR_WAIT_RELEASE of virtual core ev.key, or with ev.val = 1 of the signal unit of die ev.key: the first waiting RLDF whose
word is full is answered. -/
def execFarWaitRelease (s : State) : Out :=
  let k := s.ev.key
  .next (if s.ev.val == 1 then
      (match s.readyWait (s.die k).sigWait with
       | some w => (s.updDie k (fun d => { d with sigWait := d.sigWait.erase w })).answer (.sig k) w.src
           (.loadReply w.id w.slot 0 (Memory.word s.mem w.addr))
       | none => s)
    else if !(s.vc k).live || (s.vc k).place.isNone || (s.vc k).copying then s
    else match s.readyWait (s.vc k).farWait with
      | some w =>
        let banks := lmBanks w.addr 8
        if !s.banksFree k banks then s
        else ((s.takeBanks k banks).updVc k (fun v => { v with farWait := v.farWait.erase w })).answer (.vc k) w.src
          (.loadReply w.id w.slot 0 (Memory.word s.mem w.addr))
      | none => s)

/-- A slot whose instruction was answered: a dropped one returns at a boundary, or enters TRAPPED for the bundle or hold that
waits for it. -/
def Slot.answered (sl : Slot) (cyc : Nat) : Slot :=
  match sl.st, sl.trap with
  | .dropped, some k => sl.seize k
  | .dropped, none => { sl with wakeAt := some (cyc + 4) }
  | _, _ => sl

/-- The load of a slot is answered with this number. -/
def Slot.expects (sl : Slot) (id : Nat) : Option (BitVec 5 × Word) :=
  match sl.hold with
  | some (.load i rd _ p) => if i == id || sl.rewound.any (fun r => r.1 == id) then some (rd, p) else none
  | _ => none

/-- A slot that has entered TRAPPED for its bundle while a pre-emption holds its virtual core has its record written (R354). -/
def State.recordTrapped (s : State) (key : Nat) : State :=
  if (s.slot key).st == .trapped && (s.vc (key / 16)).holds.any (fun h => h.kind == .preempt && key % 16 != h.slot) then s.writeSlotRecord key else s

/-- REMOTE_LOAD_REPLY: rd is written, or the fault is left for the first turn; the copy engine takes what it asked for; any other reply
is discarded (R345, R354). -/
def execRemoteLoadReply (s : State) : Out :=
  .next (match s.evMsg with
    | some m => (match m.dst, m.body with
      | .vc vk, .loadReply id slot err v =>
        let t := s.takeEv
        let key := slotKey vk slot
        if !(s.vc vk).live || (s.vc vk).place.isNone then t
        else match (s.slot key).expects id with
          | none => t.copyAnswer vk id (err != 0) (some v)
          | some (rd, p) =>
            (t.updSlot key (fun sl =>
              let sl := if err == 0 then sl.finish rd v else { sl with hold := none, reply := some p }
              ({ sl with rewound := none }).answered (s.cycOf vk))).recordTrapped key |>.sweep vk
      | _, _ => s)
    | none => s)

/-! Requests that come back (R197, R211, R357). -/

/-- A returned message put among the kept ones: after those of its pair that came back before it, before those that have never been
sent. One that had been sent again (again) was the first of its pair, and is so once more. -/
def insertReturned (again : Bool) (k : Kept) : List Kept → List Kept
  | [] => [k]
  | x :: t =>
    let pair := x.msg.dst == k.msg.dst && x.msg.net == k.msg.net && !x.msg.body.unordered && !k.msg.body.unordered
    if pair && (again || x.fresh) then k :: x :: t else x :: insertReturned again k t

/-- The slot of a request. -/
def Body.slotOf : Body → Nat
  | .load _ slot _ _ => slot
  | .store t _ _ _ _ => t.slot
  | .atomic _ slot _ _ _ _ _ _ _ => slot
  | _ => 0

/-- Two messages of one source are of a pair that keeps its order. -/
def Kept.paired (k j : Kept) : Bool :=
  k.msg.dst == j.msg.dst && k.msg.net == j.msg.net && !k.msg.body.unordered && !j.msg.body.unordered

/-- A message of virtual core vk comes back; again: it had been sent again. -/
def State.keepReturned (s : State) (vk : Nat) (dst : Dest) (b : Body) (why : KeptWhy) (wide again : Bool) : State :=
  let k : Kept := {
    msg := { src := .vc vk, dst := dst, net := b.net, body := b }, slot := b.slotOf, why := why, wide := wide, ret := true }
  s.updVc vk (fun v => { v with kept := insertReturned again k v.kept })

/-- A refused message is kept, and all that is kept of its pair stays with it (R211). -/
def State.keepRefused (s : State) (vk : Nat) (m : Msg) (b : Body) (why : KeptWhy) : State :=
  let mine := fun (k : Kept) => k.msg.dst == m.src && k.msg.net == b.net && !k.msg.body.unordered
  (s.keepReturned vk m.src b why true m.resent).updVc vk (fun v => { v with
    kept := v.kept.map (fun k => if mine k then { k with refused := true } else k) })

/-- A kept message is sent again; one that found a table full is no first message of its pair. -/
def State.resend (s : State) (vk : Nat) (k : Kept) : State :=
  let m := (s.vc vk).ready k (match k.why with
    | .again _ => false
    | _ => k.ret)
  let s := s.updVc vk (fun v => { v with kept := v.kept.erase k })
  if k.msg.net != .request || k.msg.body.unordered then s.send m else s.enterEgress vk m

/-- A store kept for a token that has expired is discarded (R210, R213). -/
def State.discardStore (s : State) (vk : Nat) (b : Body) : State :=
  match b with
  | .store t _ _ _ _ =>
    (match (s.vc vk).unacked.find? (fun a => a.id == t.id) with
     | none => s
     | some a =>
       let s := s.updVc vk (fun v =>
         ({ v with unacked := v.unacked.filter (fun x => x.id != a.id) }).addBits a.bt a.epoch sdxBit)
       match a.token with
       | some (e, _) => s.expire vk e
       | none => (s.settle vk).pump vk)
  | _ => s

/-- A returned store was held on a token that has expired meanwhile. -/
def State.expiredOn (s : State) (vk : Nat) (b : Body) : Bool :=
  b.heldOn.any (fun t => match (s.vc vk).recognise t with
    | .live _ x => x.st == TokState.expired
    | _ => false)

/-- A payload that comes back to a frozen virtual core is withdrawn (R351). -/
def State.stopWenq (s : State) (vk : Nat) : State := if (s.vc vk).frozen then s.withdrawWenq vk else s

/-- A retry reply for message kind absent reaches its source: the request is kept until 64 cc later. -/
def State.retryArrives (s : State) (absent : Bool) : Option State :=
  match s.evMsg with
  | some m => (match m.dst, m.body with
    | .vc vk, .retry b a =>
      if a != absent then none
      else if !(s.vc vk).live then some s.takeEv
      else if s.expiredOn vk b then some (s.takeEv.discardStore vk b)
      else some ((s.takeEv.keepReturned vk m.src b (if a then .absent (s.cycOf vk + 64) else .again (s.cycOf vk + 64)) a m.resent).stopWenq vk)
    | _, _ => none)
  | none => none

/-- The first kept message of a virtual core whose 64 cc have passed, absent or not, or that follows one that came back, when
it may be sent. -/
def State.dueKept (s : State) (vk : Nat) (absent : Bool) : Option Kept :=
  let v := s.vc vk
  if !v.live || v.place.isNone || v.copying then none
  else (v.kept.zipIdx.find? (fun p => (match p.1.why with
    | .absent due => absent && due ≤ s.cycOf vk && s.sendable vk (v.kept.take p.2) p.1 (s.cycOf vk)
    | .behind => absent && p.1.ret && s.sendable vk (v.kept.take p.2) p.1 (s.cycOf vk)
    | .again due => !absent && due ≤ s.cycOf vk && !(v.kept.any (fun j => j.refused && j.paired p.1))
    | _ => false) && (p.1.msg.net != .request || p.1.msg.body.unordered || s.egressRoom vk))).map Prod.fst

/-- RLDF_RETRY_REISSUE: the retry reply ev.ix arrives, or with ev.val = 1 virtual core ev.key sends a request again. -/
def execRldfRetryReissue (s : State) : Out :=
  .next (if s.ev.val == 1 then
      (match s.dueKept s.ev.key false with
       | some k => s.resend s.ev.key k
       | none => s)
    else (s.retryArrives false).getD s)

/-- ABSENT_RETRY_REISSUE: as above for a message that an absent virtual core turned back. -/
def execAbsentRetryReissue (s : State) : Out :=
  .next (if s.ev.val == 1 then
      (match s.dueKept s.ev.key true with
       | some k => (s.resend s.ev.key k).pump s.ev.key
       | none => s)
    else (s.retryArrives true).getD s)

/-- HOLD_REFUSAL: the refused request is kept (R211); a refused WENQ payload is sent again 64 cc later. -/
def execHoldRefusal (s : State) : Out :=
  .next (match s.evMsg with
    | some m => (match m.dst, m.body with
      | .vc vk, .refusal b =>
        let t := s.takeEv
        if !(s.vc vk).live then t
        else (match b with
          | .enqueue _ _ _ => (t.keepReturned vk m.src b (.again (s.cycOf vk + 64)) false false).stopWenq vk
          | .store tg p d k (some tok) =>
            (match (s.vc vk).recognise tok with
             | .live e x =>
               (match x.st with
                | .pending => t.keepRefused vk m b (.token e)
                | .landed => (t.keepRefused vk m b .behind).pump vk
                | .expired => t.discardStore vk (.store tg p d k (some tok)))
             | _ => (t.keepRefused vk m b .behind).pump vk)
          | _ => (t.keepRefused vk m b .refused).pump vk)
      | _, _ => s)
    | none => s)

/-- RSTREL_SEND of virtual core ev.key: the first kept release whose fence condition holds may go. -/
def execRstrelSend (s : State) : Out :=
  let vk := s.ev.key
  let v := s.vc vk
  let ready := fun (k : Kept) => (match k.why with
    | .release ids => !(ids.any (fun i => v.unacked.any (fun a => a.id == i)))
    | _ => false)
  .next (match v.kept.find? ready with
    | none => s
    | some k => (s.updVc vk (fun v => { v with
        kept := v.kept.map (fun x => if x == k then { x with why := .behind } else x) })).pump vk)

/-! Stores (R198, R210, R211). -/

/-- REMOTE_STORE_AT_HOME: a store that is not held on a token, or a copy engine's write. -/
def execRemoteStoreAtHome (s : State) : Out :=
  .next (match s.evAccess with
    | some m => (match m.body with
      | .store _ _ _ _ none => s.takeEv.arriveAccess m
      | .copyWrite _ _ _ _ _ => s.takeEv.arriveAccess m
      | _ => s)
    | none => s)

/-- HELD_STORE_ARRIVAL; with ev.val = 1 virtual core ev.key performs the request at place ev.ix of its hold queue and what follows it
of its source, when nothing holds it any more. -/
def execHeldStoreArrival (s : State) : Out :=
  .next (if s.ev.val == 1 then
      (match (s.vc s.ev.key).holdQ[s.ev.ix]? with
       | some h => if h.enq || h.direct || (s.vc s.ev.key).place.isNone || (s.vc s.ev.key).copying then s
         else s.drainHeld s.ev.key h.msg.src 33
       | none => s)
    else match s.evMsg with
    | some m => (match m.body with
      | .store _ _ _ _ (some _) => s.takeEv.arriveAccess m
      | _ => s)
    | none => s)

/-! Scope misses (R204). -/

def scopes : List Scope := [.slot, .core, .trellis, .group, .die, .pkg, .fabric]
def scopeCode (sc : Scope) : Nat := (scopes.findIdx? (· == sc)).getD 0

/-- Smallest scope that contains a destination. -/
def State.needScope (s : State) (vk : Nat) (d : Dest) : Nat := (scopes.findIdx? (fun sc => s.inScope vk sc d)).getD 6

/-- The record of Table 08.5. -/
def missRecord (need : Nat) (t : Tag) (sc : Scope) (pc p v : Word) : List Word :=
  [BitVec.ofNat 64 (pack [(0, 0x30), (8, 3), (12, need), (16, t.slot), (20, t.bt), (22, scopeCode sc), (32, bits pc 31 0)]), p, v, 0]

/-- SCOPE_MISS_AT_BOUNDARY of message ev.ix. -/
def execScopeMissAtBoundary (s : State) : Out :=
  .next (match s.msg? s.ev.ix with
    | some m => (match m.src, m.body with
      | .vc k, .store t p v (.release sc pc) h =>
        if s.mustMiss m then
          ({ s with net := s.net.set s.ev.ix { m with body := .store t p v .missed h } }).send {
            src := .memory, dst := .vc k, net := .control,
            body := .scopeMiss t.slot (missRecord (s.needScope k m.dst) t sc pc p v) }
        else s
      | _, _ => s)
    | none => s)

/-- The report delivered: to the event ring of smring, or to the latch of the core; none while it must wait. -/
def State.reportMiss (s : State) (vk slot : Nat) (ws : List Word) : Option State :=
  let v := s.vc vk
  let ix := v.smring.toNat % 64
  let r := s.ring vk ix
  let g := s.coreOf vk
  if v.smring.getLsbD 7 && r.valid && r.kind == 3 && 32 ≤ r.size then
    (if r.fill < r.count then some (s.postRing vk ix ws) else none)
  else if Memory.word s.mem (lmAddr g latchOff) == 0 then
    some ((s.land (lmAddr g latchOff) (bytesOfWords ws)).setMip (slotKey vk slot) 1)
  else none

/-- SCOPE_MISS_REPORT: message ev.ix arrives, and waits at the network interface when it must; with ev.val = 1 the first
report that waits at core ev.key is delivered. -/
def execScopeMissReport (s : State) : Out :=
  .next (if s.ev.val == 1 then
      (match (s.core s.ev.key).latchQ with
       | m :: rest => (match m.dst, m.body with
         | .vc vk, .scopeMiss slot ws =>
           let t := s.updCore s.ev.key (fun c => { c with latchQ := rest })
           if (s.vc vk).place != some s.ev.key then (if (s.vc vk).live then t.logAbsent vk m else t)
           else (t.reportMiss vk slot ws).getD s
         | _, _ => s)
       | [] => s)
    else match s.evMsg with
      | some m => (match m.dst, m.body with
        | .vc vk, .scopeMiss slot ws =>
          let t := s.takeEv.updVc vk (fun v => { v with owed := v.owed - 1 })
          if !(s.vc vk).live then s.takeEv
          else if (s.vc vk).place.isNone then t.logAbsent vk m
          else match t.reportMiss vk slot ws with
            | some u => if (s.core (s.coreOf vk)).latchQ.isEmpty then u
              else t.updCore (s.coreOf vk) (fun c => { c with latchQ := c.latchQ ++ [m] })
            | none => t.updCore (s.coreOf vk) (fun c => { c with latchQ := c.latchQ ++ [m] })
        | _, _ => s)
      | none => s)

/-! Atomics (R205, R206). -/

/-- REMOTE_ATOMIC_AT_HOME. -/
def execRemoteAtomicAtHome (s : State) : Out :=
  .next (match s.evAccess with
    | some m => (match m.body with
      | .atomic _ _ _ _ _ _ _ _ _ => s.takeEv.arriveAccess m
      | _ => s)
    | none => s)

/-- REMOTE_ATOMIC_REPLY: the first reply; later ones find nobody waiting. -/
def execRemoteAtomicReply (s : State) : Out :=
  .next (match s.evMsg with
    | some m => (match m.dst, m.body with
      | .vc vk, .atomicReply id slot st v fl =>
        let t := s.takeEv
        let key := slotKey vk slot
        (match (s.slot key).hold with
         | some (.atomic i rd p) =>
           if i != id then t
           else
             (t.updSlot key (fun sl =>
               match st with
               | 0 => ({ sl with fflags := sl.fflags ||| fl }).finish rd v
               | 1 => sl.enter sl.pc 7 p
               | _ => sl.enter sl.pc 28 p)).sweep vk
         | _ => t)
      | _, _ => s)
    | none => s)

/-! Acknowledgements and tokens (R203, R209, R211, R213). -/

/-- A write of the copy in progress, or a store, is acknowledged. -/
def State.landed (s : State) (vk id : Nat) (e : BitVec 16) (miss : Bool) : State :=
  (s.copyAnswer vk id (e != 0) none).acked vk id e miss

/-- LANDING_ACKNOWLEDGEMENT: of the WENQ in progress, of a write of the copy in progress, or of a store. -/
def execLandingAcknowledgement (s : State) : Out :=
  .next (match s.evMsg with
    | some m => (match m.dst, m.body with
      | .vc vk, .ack id _ e miss =>
        let t := s.takeEv
        (match (s.vc vk).runOf 3 with
         | some r => if r.entry.id == id && r.sent then t.endWenq vk r.entry e else t.landed vk id e miss
         | none => t.landed vk id e miss)
      | _, _ => s)
    | none => s)

/-- A store held on this token is still on its way between the two, or waits at its destination for a redirect marker (the notice must not
overtake it). -/
def State.heldOnWay (s : State) (src dst : Dest) (tok : Nat) : Bool :=
  let mine := fun (m : Msg) => m.src == src && m.dst == dst && (match m.body with
    | .store _ _ _ _ (some t) => t == tok
    | _ => false)
  s.net.any mine || s.cores.any (fun (p : Nat × PCore) => p.2.egress.any mine) || (match dst with
    | .vc vk => (s.vc vk).holdQ.any (fun h => h.direct && mine h.msg)
    | _ => false)

/-- RELEASE_NOTICE. -/
def execReleaseNotice (s : State) : Out :=
  .next (match s.evMsg with
    | some m => (match m.dst, m.body with
      | .vc vk, .release tok =>
        if s.heldOnWay m.src m.dst tok then s
        else if !(s.vc vk).live then s.takeEv
        else if (s.vc vk).place.isNone then s.takeEv.logAbsent vk m
        else
          (s.takeEv.updVc vk (fun v => { v with holdQ := v.holdQ.map (fun h =>
            if h.msg.src == m.src && h.heldOn == some tok then { h with heldOn := none } else h) })).drainHeld vk m.src 33
      | _, _ => s)
    | none => s)

/-- TOKEN_EXPIRY of entry ev.ix of virtual core ev.key. -/
def State.tokenDue (s : State) (vk e : Nat) : Bool :=
  let v := s.vc vk
  let t := FMap.getD v.tokens e {}
  v.live && v.place.isSome && t.valid && t.st == TokState.pending &&
    t.cyc + ((s.core (s.coreOf vk)).tokexp.toNat : Int) ≤ (s.cycOf vk : Int)

def execTokenExpiry (s : State) : Out :=
  .next (if s.tokenDue s.ev.key s.ev.ix then s.expire s.ev.key s.ev.ix else s)

/-- The stores held on an expired token are discarded: HEX is recorded, and the stores are acknowledged as failed. -/
def State.discardHeld (s : State) (vk : Nat) (src : Dest) (tok : Nat) : State :=
  let mine := fun (h : Held) => h.msg.src == src && h.heldOn == some tok
  let gone := (s.vc vk).holdQ.filter mine
  let s := s.updVc vk (fun v => { v with holdQ := v.holdQ.filter (fun h => !mine h) })
  gone.foldl (fun t h => match h.msg.body with
    | .store g _ _ _ _ => (t.recordErr (.vc vk) src g.bt hexBit).answer (.vc vk) src (.ack g.id g.slot hexBit false)
    | _ => t) s

/-- EXPIRY_NOTICE. -/
def execExpiryNotice (s : State) : Out :=
  .next (match s.evMsg with
    | some m => (match m.dst, m.body with
      | .vc vk, .expiry tok =>
        if s.heldOnWay m.src m.dst tok then s
        else if !(s.vc vk).live then s.takeEv
        else if (s.vc vk).place.isNone then s.takeEv.logAbsent vk m
        else (s.takeEv.discardHeld vk m.src tok).drainHeld vk m.src 33
      | _, _ => s)
    | none => s)

/-! WENQ (R214). -/

/-- A payload uses the banks of the slot that it is written to. -/
def State.usePayload (s : State) (vk : Nat) (m : Msg) : State :=
  match m.body with
  | .enqueue _ ix bs => if s.wenqUsable vk ix bs.length && s.wenqRoom vk ix then s.useBank m else s
  | _ => s

/-- WENQ_DELIVERY. ev.val 0: the engine of virtual core ev.key takes its next WENQ; 1: the payload of message ev.ix arrives;
2: the payload at place ev.ix of the hold queue of virtual core ev.key is written, or can never be. -/
def execWenqDelivery (s : State) : Out :=
  .next (match s.ev.val.toNat with
    | 0 => s.wenqStep s.ev.key
    | 1 => (match s.evAccess with
      | some m => (match m.dst, m.body with
        | .vc vk, .enqueue t ix bs =>
          (match s.takeEv.gate m vk with
           | .gone => s.takeEv.answerError m nvcBit
           | .turned u => u
           | .go u => (u.usePayload vk m).wenqArrive m vk t.id t.slot ix bs)
        | _, _ => s)
      | none => s)
    | _ =>
      let v := s.vc s.ev.key
      if !v.live || v.place.isNone || v.copying then s
      else match v.holdQ[s.ev.ix]? with
        | none => s
        | some h => match (s.usePayload s.ev.key h.msg).heldEnqueue s.ev.key h, s.homeFree h.msg with
          | none, _ => s
          | _, false => s
          | some t, true => t.updVc s.ev.key (fun v => { v with holdQ := v.holdQ.erase h }))

/-! Closes (R200). -/

/-- The error bits a virtual core has recorded for a source and batch. -/
def closeBits (l : List ErrRec) (src : Dest) (bt : Nat) : BitVec 16 :=
  l.foldl (fun a r => if r.shared || (r.src == src && r.bt == bt) then a ||| r.bits else a) 0

/-- BATCH_CLOSE_AT_DESTINATION. -/
def execBatchCloseAtDestination (s : State) : Out :=
  .next (match s.evMsg with
    | some m => (match m.dst, m.body with
      | .vc vk, .close id bt =>
        (match s.takeEv.gate m vk with
         | .gone => s.takeEv.answerError m nvcBit
         | .turned t => t
         | .go t =>
           (t.updVc vk (fun v => { v with
             errs := v.errs.filter (fun r => r.shared || !(r.src == m.src && r.bt == bt)) })).answer m.dst m.src
             (.summary id (closeBits (t.vc vk).errs m.src bt)))
      | .sig d, .close id _ => s.takeEv.answer m.dst m.src (.summary id (if (s.die d).failed then winBit else 0))
      | _, _ => s)
    | none => s)

/-- BATCH_SUMMARY. -/
def execBatchSummary (s : State) : Out :=
  .next (match s.evMsg with
    | some m => (match m.dst, m.body with
      | .vc vk, .summary id e =>
        (s.takeEv.updVc vk (fun v => { v with closes := v.closes.map (fun c =>
          if c.id == id then { c with wait := c.wait - 1, bits := c.bits ||| e, npeer := c.npeer + (if e == 0 then 0 else 1) }
          else c) })).settle vk
      | _, _ => s)
    | none => s)

end Sys2Proof.Machine
end

