-- ==== Sys2Proof/Machine/Context.lean ====
section
/-! DEFINITION. The engine block (R350, Tables 14.3 and 14.4), CTXSAV and CTXRST (R240, R241), the engine switch of folded
cores (R51, R360). -/

namespace Sys2Proof.Machine

/-- Size of an engine block, and of the engine context area E (R348). -/
def blockBytes : Nat := 38912
def contextArea : Nat := 0xA000

/-! Parts of the block. -/

/-- Element words of an accumulator: elements 2n and 2n + 1 in word n. -/
def accWords (m : FMap (BitVec 32)) : List Word :=
  (List.range 2048).map (fun n => FMap.getD m (2 * n + 1) 0 ++ FMap.getD m (2 * n) 0)

def accOfWords (ws : List Word) : FMap (BitVec 32) :=
  (ws.zipIdx.flatMap (fun p => [(2 * p.2, p.1.setWidth 32), (2 * p.2 + 1, p.1.extractLsb' 32 32)])).filter
    (fun (p : Nat × BitVec 32) => p.2 != 0)

def vaccWords (v : Vector (BitVec 32) 64) : List Word :=
  (List.range 32).map (fun n => v.getD (2 * n + 1) 0 ++ v.getD (2 * n) 0)

def vaccOfWords (ws : List Word) : Vector (BitVec 32) 64 :=
  Vector.ofFn (fun i => (ws.getD (i.val / 2) 0).extractLsb' (32 * (i.val % 2)) 32)

/-- Segment offset of a physical LM address. -/
def cfgWord (c : AccCfg) (base : Nat) : Word := wordOfCfg { c with cw := (c.cw + 0x100000 - base) % 0x100000 }
def cfgBack (w : Word) (base : Nat) : AccCfg :=
  let c := cfgOfWord w
  { c with cw := (c.cw + base) % 0x100000 }

/-- The flags that the MMAs in a matrix queue have raised before they were interrupted. -/
def VCore.raisedFlags (v : VCore) : BitVec 5 := (v.queueOf 0).foldl (fun a q => a ||| q.raised) 0

/-- Matrix control, 16 words. A queue entry has no field for the flags that an interrupted MMA has raised: they go with mflags (DEDUCED, log
entry 30). -/
def matrixControl (v : VCore) : List Word :=
  [cfgWord v.cfg0 v.base, cfgWord v.cfg1 v.base, v.ser0, v.ser1] ++ v.wp.toList.map (fun w => w.setWidth 64) ++
    [(v.mflags ||| v.raisedFlags).setWidth 64, BitVec.ofNat 64 (bn v.bank), 0, 0]

def semWords (v : VCore) : List Word :=
  (List.range 8).map (fun n =>
    BitVec.ofNat 64 ((List.range 4).foldl (fun a k => a + (v.sems.getD (4 * n + k) 0).toNat * 2 ^ (16 * k)) 0))

/-- An instruction whose operand is an LM configuration word. -/
def isMcfg (w : InsnWord) : Bool :=
  match decode w with
  | .ok (.mcfg _ _) => true
  | _ => false

/-- A queue entry (Table 14.4). -/
def entryWords (e : Nat) (q : QEntry) (base : Nat) : List Word :=
  [BitVec.ofNat 64 (pack [(0, q.word.toNat), (32, e), (36, q.slot), (40, q.frm.toNat), (43, q.kdone)]),
   if isMcfg q.word then cfgWord (cfgOfWord q.op) base else q.op,
   if q.kdone != 0 then BitVec.ofNat 64 (q.o + q.bo * 2 ^ 20) else 0, 0]

/-- The eight entries of an engine. -/
def queueWords (v : VCore) (e : Nat) : List Word :=
  (List.range 8).flatMap (fun i => match (v.queueOf e)[i]? with
    | some q => entryWords e q v.base
    | none => [0, 0, 0, 0])

/-- A layout entry with its LM base as a segment offset, or back. Every entry of space 0 moves, one never set too, so that LTGET
reads it as before (Table 13.6). -/
def layoutMoved (w : List Word) (d : Word) : List Word :=
  if (layoutOfWords w).space != 0 then w
  else ((w.headD 0).extractLsb' 12 52 + d.setWidth 52 ++ (w.headD 0).setWidth 12) :: w.tail

/-- The scope-miss latch of a core. -/
def State.latch (s : State) (g : Nat) : List Word := Memory.words s.mem (lmAddr g latchOff) 4

/-- The engine block of a virtual core. -/
def State.engineBlock (s : State) (vk : Nat) : List Word :=
  let v := s.vc vk
  let smi := (s.slotsOf vk).any (fun k => (s.slot k).mip.getLsbD 1)
  [BitVec.ofNat 64 (pack [(0, 0x4358), (16, 1), (24, v.fold), (26, v.fidx)]), BitVec.ofNat 64 (v.vcid + v.gid * 65536)] ++
    List.replicate 6 0 ++ matrixControl v ++ vaccWords v.vacc ++ semWords v ++
    [BitVec.ofNat 64 (engbindsWord v), v.evalcnt ++ v.fitness, (v.evring ++ v.smring).setWidth 64, v.supmbox, v.srkey, v.srpos,
     s.gshape vk, BitVec.ofNat 64 (groupsWord 0 v.groups)] ++
    (if smi then s.latch (s.coreOf vk) else [0, 0, 0, 0]) ++ List.replicate 52 0 ++
    (List.range 4).flatMap (queueWords v) ++
    (List.range 64).flatMap (fun i =>
      let r := FMap.getD v.rings i {}
      wordsOfRing r (if r.valid then (r.base.toNat + 0x100000 - v.base) % 0x100000 else 0)) ++
    (List.range 64).flatMap (fun i => layoutMoved (v.layoutWords i) (BitVec.ofNat 64 (2 ^ 52 - v.base))) ++
    accWords v.acc0 ++ accWords v.acc1

/-! Loading a block. -/

/-- The ring a handle of a slot names. -/
def Slot.ringOf (sl : Slot) (h : Handle) : Nat := (sl.h.getD h.toNat 0).toNat % 64

/-- What acceptance recorded beside the words of an entry: the rings, through the handles of its slot, and the slots still to
be read and written. -/
def QEntry.relink (q : QEntry) (sl : Slot) (v : VCore) : QEntry :=
  match decode q.word with
  | .ok (.mload _ a h) => { q with ra := some (sl.ringOf h), na := (v.pcfg a).m }
  | .ok (.mout _ h a _) => { q with rd := some (sl.ringOf h), nd := (v.pcfg a).m }
  | .ok (.copy _ _ _ h) => { q with ra := some (sl.ringOf h), na := 1 }
  | .ok (.copymc _ _ _ h) => { q with ra := some (sl.ringOf h), na := 1 }
  | .ok (.wenq _ h _ bt) => { q with ra := some (sl.ringOf h), na := 1, nb := bt.toNat }
  | .ok i =>
    (match mmaArgs q, vecArgs i with
     | some x, _ => { q with ra := some (sl.ringOf x.h), na := (v.pcfg x.acc).nrec - q.kdone * (v.pcfg x.acc).m }
     | none, some x => { q with
         rd := x.hd.map sl.ringOf, ra := x.ha.map sl.ringOf, rb := x.hb.map sl.ringOf,
         nd := if x.hd.isSome then vecNd i else 0, na := bn x.ha.isSome, nb := bn x.hb.isSome }
     | none, none => q)
  | .error _ => q

/-- The destinations of a COPY, COPYMC or WENQ entry. -/
def State.entryDests (s : State) (vk : Nat) (q : QEntry) : List Dest :=
  match decode q.word with
  | .ok (.copy _ _ _ _) => s.copyDests vk q false
  | .ok (.copymc _ _ _ _) => s.copyDests vk q true
  | .ok (.wenq _ _ _ _) => [s.wenqDest vk q.op]
  | _ => []

/-- An entry of a block put at the end of its queue. A copy or a WENQ is an access again (R203); the pc of an entry is not
in the block: it is a free value, shown only by a later fault message (log entry 9). -/
def State.loadEntry (s : State) (vk : Nat) (w : List Word) : State :=
  let w0 := w.getD 0 0
  if w.all (fun x => x == 0) then s
  else
    let e := bits w0 33 32
    let v := s.vc vk
    let sl := s.slot (slotKey vk (bits w0 39 36))
    let word : InsnWord := w0.setWidth 32
    let kd := bits w0 50 43
    let n := s.freshId
    let q : QEntry := {
      word := word, slot := bits w0 39 36, frm := w0.extractLsb' 40 3,
      op := if isMcfg word then wordOfCfg (cfgBack (w.getD 1 0) v.base) else w.getD 1 0,
      kdone := kd, o := bits (w.getD 2 0) 19 0, bo := bits (w.getD 2 0) 39 20,
      base := sl.segbase.toNat, lim := sl.seglim.toNat, mMode := sl.mode == .m, stamp := n.1, id := n.1,
      pc := Config.freeWord s.free }
    let q := q.relink sl v
    let s := { n.2 with free := s.free + 1 }
    let ds := s.entryDests vk q
    s.updVc vk (fun v =>
      let v := { v with queue := FMap.set v.queue e (v.queueOf e ++ [q]) }
      let v := if e == 0 then v.projectEntry q else v
      if 2 ≤ e then { v with unacked := v.unacked ++ [{ id := n.1, slot := q.slot, dests := ds, copy := e == 2, bt := q.nb }] }
      else v)

def wordsAt (ws : List Word) (off n : Nat) : List Word := (ws.drop (off / 8)).take n

/-- The tables of a block without its queue entries; the virtual core keeps its place, shape and groups. Table 14.3 has no field for
WSWAPs that wait for the boundary: they stay with the virtual core while the block's MMA goes on, and are lost with it
(DESIGN CHOICE, log entry 75). -/
def VCore.loadTables (v : VCore) (ws : List Word) : VCore :=
  let g := fun (off : Nat) => ws.getD (off / 8) 0
  let eb := g 0x200
  let c0 := cfgBack (g 0x40) v.base
  let c1 := cfgBack (g 0x48) v.base
  let wp : Vector (BitVec 36) 8 := Vector.ofFn (fun i => (g (0x60 + 8 * i.val)).setWidth 36)
  { v with
    cfg0 := c0, cfg1 := c1, pcfg0 := c0, pcfg1 := c1, ser0 := g 0x50, ser1 := g 0x58, wp := wp, pwp := wp,
    mflags := (g 0xA0).setWidth 5, flagCyc := 0, bank := bit (g 0xA8) 0, pbank := bit (g 0xA8) 0, parkedCtx := [], vacc := vaccOfWords (wordsAt ws 0xC0 32),
    sems := Vector.ofFn (fun i => (g (0x1C0 + i.val / 4 * 8)).extractLsb' (16 * (i.val % 4)) 16),
    binds := ((List.range 4).filter (fun e => bit eb (8 * e + 7))).map (fun e => (e, bits eb (8 * e + 3) (8 * e))),
    fitness := (g 0x208).setWidth 32, evalcnt := (g 0x208).extractLsb' 32 32,
    smring := (g 0x210).setWidth 8 &&& ringCsrMask, evring := (g 0x210).extractLsb' 8 8 &&& ringCsrMask, supmbox := g 0x218 &&& supmboxMask, srkey := g 0x220, srpos := g 0x228,
    rings := ((List.range 64).map (fun i =>
      let r := ringOfWords (g (0x800 + 32 * i)) (g (0x808 + 32 * i)) (g (0x810 + 32 * i))
      (i, if r.valid then { r with base := r.base + BitVec.ofNat 20 v.base } else r))).filter (fun (p : Nat × Ring) => p.2 != {}),
    lt := ((List.range 64).map (fun i =>
      (i, layoutMoved (wordsAt ws (0x1000 + 32 * i) 4) (BitVec.ofNat 64 v.base)))).filter
        (fun (p : Nat × List Word) => !p.2.all (fun x => x == 0)),
    acc0 := accOfWords (wordsAt ws 0x1800 2048), acc1 := accOfWords (wordsAt ws 0x5800 2048), queue := [] }

/-- A block loaded into a virtual core whose slots are in place: tables, then entries in queue order. -/
def State.loadBlock (s : State) (vk : Nat) (ws : List Word) : State :=
  let s := s.updVc vk (fun v => v.loadTables ws)
  ((List.range 32).foldl (fun t i => t.loadEntry vk (wordsAt ws (0x400 + 32 * i) 4)) s).updVc vk (fun v =>
    let n := if v.matrixBegun then v.swaps else 0
    { v with swaps := n, pbank := v.pbank != (n % 2 == 1) })

/-- The header CTXRST accepts. -/
def blockOk (w0 : Word) : Bool := bits w0 15 0 == 0x4358 && bits w0 23 16 == 1

/-! Contexts in the engine context area. -/

/-- Physical LM offset of the engine context area of a folded virtual core (R348). -/
def State.areaOff (s : State) (vk : Nat) : Nat :=
  (s.vc vk).base + (s.gang (s.vc vk).gid).lmlimit

/-- The context of an engine written to the area of its virtual core: an engine's write to the words it writes, and no others (R91, R360). -/
def State.parkContext (s : State) (vk e : Nat) : State :=
  let a := lmAddr (s.coreOf vk) (s.areaOff vk)
  let v := s.vc vk
  let t := if e == 0 then ((s.putWords (a + 0x40) (matrixControl v)).putWords (a + 0x1800) (accWords v.acc0)).putWords (a + 0x5800) (accWords v.acc1)
    else if e == 1 then s.putWords (a + 0xC0) (vaccWords v.vacc)
    else s
  t.updVc vk (fun v => { v with parkedCtx := if e < 2 then e :: v.parkedCtx.filter (· != e) else v.parkedCtx })

/-! CTXSAV and CTXRST. -/

/-- The wait of R240 and the 64 rotations: done is what happens at the end. -/
def State.contextWait (s : State) (left : Option Nat) (done : State) : State :=
  match left with
  | none => if s.engineIdle s.vk then s.updMe (fun sl => { sl with hold := some (.context (some 63)) }) else s
  | some 0 => done
  | some (n + 1) => s.updMe (fun sl => { sl with hold := some (.context (some n)) })

/-- The engines freeze for a context instruction. -/
def State.contextFreeze (s : State) : State :=
  (s.freeze s.vk).updMyVc (fun v => { v with ctxFrozen := true })

/-- The block is written, and PRE clears. -/
def State.ctxsavDone (s : State) (a : Nat) : State :=
  let s := s.freeze s.vk
  let s := (({ s with mem := Memory.setWords s.mem a (s.engineBlock s.vk) }).wrote a blockBytes)
  let s := s.mapSlots (fun k sl => if k / 16 == s.vk then { sl with mip := sl.mip &&& 0b1110#4 } else sl)
  (if s.myVc.lead == some s.ix then s.updMyVc (fun v => { v with saveOk := true }) else s).retire

def execCtxsav (rs1 : XReg) (s : State) : Out :=
  let a := s.x rs1
  .next (if s.me.mode == .u then s.illegalI (.ctxsav rs1)
    else match s.me.hold with
      | some (.context left) => s.contextWait left (s.ctxsavDone (lmAddr (s.coreOf s.vk) a.toNat))
      | _ =>
        if a.toNat % 64 ≠ 0 then s.trap 6 a
        else s.lm a blockBytes true (fun _ => (s.contextFreeze).updMe (fun sl => { sl with hold := some (.context none) })))

/-- The groups word of a block: memberships in order. -/
def groupsOfWord (w : Word) : List Nat :=
  (((List.range 4).map (fun i => bits w (16 * i + 15) (16 * i))).filter (fun h => 0x8000 ≤ h)).map (· % 256)

/-- The unstarted entries are discarded, the block is loaded, and the engines run on. A context whose engine serves another virtual
core of a folded core goes to the engine context area (R240). -/
def State.ctxrstDone (s : State) (a : Nat) : State :=
  let s := s.freeze s.vk
  let parked := s.myVc.parkedCtx
  let gone := (s.myVc.queueOf 2 ++ s.myVc.queueOf 3).map QEntry.id
  let s := s.updMyVc (fun v => { v with unacked := v.unacked.filter (fun x => !gone.contains x.id) })
  let ws := Memory.words s.mem a (blockBytes / 8)
  let s := (s.loadBlock s.vk ws).updMyVc (fun v => { v with groups := groupsOfWord (ws.getD (0x238 / 8) 0) })
  let s := (List.range 64).foldl (fun t ix => t.clearSup s.vk ix) (parked.foldl (fun t e => t.parkContext s.vk e) s)
  let s := s.updMyVc (fun v => { v with ctxFrozen := false, frozen := false })
  (s.settle s.vk).retire

def execCtxrst (rs1 : XReg) (s : State) : Out :=
  let a := s.x rs1
  .next (if s.me.mode == .u then s.illegalI (.ctxrst rs1)
    else match s.me.hold with
      | some (.context left) => s.contextWait left (s.ctxrstDone (lmAddr (s.coreOf s.vk) a.toNat))
      | _ =>
        if a.toNat % 64 ≠ 0 then s.trap 4 a
        else s.lm a blockBytes false (fun g =>
          if !blockOk (Memory.word s.mem g) then s.illegalI (.ctxrst rs1)
          else (s.contextFreeze).updMe (fun sl => { sl with hold := some (.context none) })))

/-! The engine switch. -/

/-- Stamp of the oldest unstarted entry of an engine. -/
def VCore.oldest (v : VCore) (e : Nat) : Option Nat := ((v.queueOf e).head?).map QEntry.stamp

/-- The virtual core an engine of a folded core serves next. -/
def State.incoming (s : State) (g e : Nat) : Option Nat :=
  let cs := (s.hosted g).filter (fun k => !(s.vc k).frozen && ((s.vc k).oldest e).isSome)
  cs.find? (fun k => cs.all (fun j => ((s.vc k).oldest e).getD 0 ≤ ((s.vc j).oldest e).getD 0))

/-- The engine of the outgoing virtual core has nothing left for it. -/
def State.outgoingDone (s : State) (g e : Nat) : Bool :=
  match FMap.get? (s.core g).owner e with
  | none => true
  | some k => (s.vc k).place != some g || (((s.vc k).runOf e).isNone && ((s.vc k).frozen || ((s.vc k).queueOf e).isEmpty))

/-- A parked context comes back: the accumulators, or vacc. -/
def State.unparkContext (s : State) (vk e : Nat) : State :=
  let a := lmAddr (s.coreOf vk) (s.areaOff vk)
  if (s.vc vk).parkedCtx.contains e then
    s.updVc vk (fun v =>
      let v := { v with parkedCtx := v.parkedCtx.filter (· != e) }
      if e == 0 then { v with
        acc0 := accOfWords (Memory.words s.mem (a + 0x1800) 2048), acc1 := accOfWords (Memory.words s.mem (a + 0x5800) 2048) }
      else { v with vacc := vaccOfWords (Memory.words s.mem (a + 0xC0) 32) })
  else s

/-- An engine of a folded core can switch. -/
def State.canSwitch (s : State) (g e : Nat) : Option Nat :=
  if (s.hosted g).length ≤ 1 || !s.outgoingDone g e then none
  else match s.incoming g e with
    | some k => if FMap.get? (s.core g).owner e == some k then none else some k
    | none => none

/-- ENGINE_CONTEXT_SWITCH of engine ev.ix of core ev.key. -/
def execEngineContextSwitch (s : State) : Out :=
  let g := s.ev.key
  let e := s.ev.ix
  .next (match s.canSwitch g e with
    | none => s
    | some k =>
      let t := match FMap.get? (s.core g).owner e with
        | some o => if (s.vc o).place == some g then s.parkContext o e else s
        | none => s
      (t.unparkContext k e).updCore g (fun c => { c with owner := FMap.set c.owner e k }))

end Sys2Proof.Machine
end

