-- ==== Sys2Proof/Machine/Ports.lean ====
section
/-! DEFINITION. Request egress (R196), mailbox messages (R243), port messages (R415, R416). -/

namespace Sys2Proof.Machine

/-- A request to another package leaves egress only while its pair has at most 1,024 flits out (R345). -/
def State.farRoom (s : State) (m : Msg) : Bool :=
  match m.dst.nodeOf with
  | none => true
  | some d =>
    let k := pairKey d (vnetCode m.net)
    let near := s.net.filter (fun x => x.dst.nodeOf == some d && x.net == m.net)
    s.unreachable.contains d ||
      decide (s.unackedFlits k + sumNat (near.map (fun x => (s.flitsOf x 0 false).length)) + (s.flitsOf m 0 false).length ≤ 1024)

/-- A request of a slot of core g that its destination has not taken: it uses a credit of the first link of its route. -/
def State.usesCredit (s : State) (g : Nat) (m : Msg) : Bool :=
  m.net == .request && !m.body.unordered && (match m.src with
    | .vc k => s.coreOf k == g
    | _ => false)

/-- The first link holds a credit for a request of core g (R196): how many there are the spec does not say (log entry 9). -/
def State.hasCredit (s : State) (g : Nat) : Bool :=
  let n := (s.net.filter (s.usesCredit g)).length
  n == 0 || decide (n ≤ Config.pathCredits)

/-- REQUEST_EGRESS_ACCEPT of core ev.key: the first link takes the oldest request, and kept requests move up. -/
def execRequestEgressAccept (s : State) : Out :=
  let g := s.ev.key
  .next (match (s.core g).egress with
    | [] => s
    | m :: rest =>
      if !s.farRoom m || !s.hasCredit g then s
      else
      let t := (s.updCore g (fun c => { c with egress := rest })).send m
      (s.hosted g).foldl (fun t k => t.pump k) t)

/-! Supervisor messages. -/

/-- A message whose mailbox is no longer set: one of a reserved code goes to the error record of its slot's queue, any other is
dropped (R243). -/
def State.mailboxGone (s : State) (m : Msg) (ws : List Word) : State :=
  match m.src with
  | .vc k => if bits (ws.headD 0) 7 0 == 1 then s.queueReserved (s.slot (slotKey k (bits (ws.headD 0) 11 8))) ws else s
  | _ => s

/-- MAILBOX_MESSAGE_WRITE of message ev.ix: a full ring makes it wait. -/
def execMailboxMessageWrite (s : State) : Out :=
  .next (match s.evAccess with
    | some m => (match m.dst, m.body with
      | .vc vk, .mailbox sslot ix ws =>
        (match s.takeEv.gate m vk with
         | .gone => s.takeEv.mailboxGone m ws
         | .turned t => t
         | .go t =>
           let r := t.ring vk ix
           if !(r.valid && (r.kind == 0 || r.kind == 3) && 64 ≤ r.size && sslot < slotCount (t.vc vk)) then t.mailboxGone m ws
           else if r.fill < r.count then
             (((t.useBank m).postRing vk ix ws).updSlot (slotKey vk sslot) (fun sl => { sl with supRing := ix })).setMip (slotKey vk sslot) 3
           else s)
      | _, _ => s)
    | none => s)

/-! Ports. -/

/-- A port-out ring whose head can be taken now. -/
def State.takeable (s : State) (vk ix : Nat) : Bool :=
  let r := s.ring vk ix
  r.valid && r.kind == 2 && 1 ≤ r.fill && (r.vnet != 0 || s.egressRoom vk)

/-- The port-out ring a virtual core serves next: the lowest; one message of a core in a cycle, and none of a gang at its cut. -/
def State.portToTake (s : State) (vk : Nat) : Option Nat :=
  let v := s.vc vk
  if !v.live || v.place.isNone || v.copying || (s.gang v.gid).quiesced || (s.core (s.coreOf vk)).tookCyc == s.cycOf vk + 1 then none
  else (v.rings.map Prod.fst).find? (fun ix => s.takeable vk ix)

/-- A message of a virtual core on a network: behind kept ones of its pair, or into the network. -/
def State.emitOn (s : State) (vk : Nat) (dst : Dest) (net : VNet) (b : Body) : State :=
  let m : Msg := { src := .vc vk, dst := dst, net := net, body := b }
  match (s.vc vk).blockerOn 16 dst net with
  | some k => s.updVc vk (fun v => { v with kept := v.kept ++ [{ msg := m, slot := 16, wide := k.wide, ret := k.ret, fresh := true }] })
  | none => if net == .request then s.enterEgress vk m else s.send m

/-- PORT_OUT_TAKE of virtual core ev.key (R416, rule 1). -/
def execPortOutTake (s : State) : Out :=
  let vk := s.ev.key
  .next (match s.portToTake vk with
    | none => s
    | some ix =>
      let r := s.ring vk ix
      let w := Memory.word s.mem (s.ringAddr vk ix r.head)
      let v := s.vc vk
      let out := (w.extractLsb' 24 40) ++ r.port ++ BitVec.ofNat 16 v.vcid
      (s.emitOn vk (.vc (vkey v.gid (bits w 15 0))) (vnetOf r.vnet) (.port (vnetOf r.vnet) (bits w 23 16) out)).advHead vk ix 1
        |>.updCore (s.coreOf vk) (fun c => { c with tookCyc := s.cycOf vk + 1 }))

/-- A port message written at the tail of its ring. -/
def State.portPut (s : State) (vk ix : Nat) (w : Word) : State :=
  (s.land (s.ringAddr vk ix (s.ring vk ix).tail) (bytesOf w.toNat 8)).advTail vk ix 1

/-- The spill area of a core in LM (Table 01.7): its messages as flits, oldest first (DESIGN CHOICE, log entry 88). -/
def spillOff : Nat := 0xF3000
def State.putSpill (s : State) (g : Nat) (l : List Msg) : State :=
  let t := s.updCore g (fun c => { c with spill := l })
  l.zipIdx.foldl (fun t p => t.land (lmAddr g (spillOff + 64 * p.2)) (bytesOfWords ((s.flitsOf p.1 0 false).headD []))) t

/-- PORT_MESSAGE_DELIVERY of message ev.ix (rules 2 to 4). -/
def execPortMessageDelivery (s : State) : Out :=
  .next (match s.evAccess with
    | some m => (match m.dst, m.body with
      | .vc vk, .port net port w =>
        (match s.takeEv.gate m vk with
         | .gone => s.takeEv
         | .turned t => t
         | .go t =>
           let g := s.coreOf vk
           match t.portIn vk net port with
           | none => t
           | some ix =>
             if t.portRoom vk ix && !(t.core g).spilled m then (t.useBank m).portPut vk ix w
             else if net != .request && (t.core g).spill.length < 64 then
               t.putSpill g ((t.core g).spill ++ [m])
             else s)
      | _, _ => s)
    | none => s)

/-- The first spilled message that can leave the spill area. -/
def State.spillReady (s : State) (g : Nat) : Option Msg :=
  (s.core g).spill.find? (fun m => match m.dst, m.body with
    | .vc vk, .port net port _ => (match s.portIn vk net port with
      | some ix => s.portRoom vk ix
      | none => true)
    | _, _ => true)

/-- PORT_MESSAGE_SPILL_RELEASE of core ev.key. -/
def execPortMessageSpillRelease (s : State) : Out :=
  let g := s.ev.key
  .next (match s.spillReady g with
    | none => s
    | some m =>
      if !s.homeFree m then s
      else
      let t := (s.useBank m).putSpill g ((s.core g).spill.erase m)
      match m.dst, m.body with
      | .vc vk, .port net port w => (match s.portIn vk net port with
        | some ix => t.portPut vk ix w
        | none => t)
      | _, _ => t)

end Sys2Proof.Machine
end

