-- ==== Sys2Proof/Machine/Migrate.lean ====
section
/-! DEFINITION. Moving a virtual core (R328 to R335): the queue, the copy, redirects and markers, resumption. -/

namespace Sys2Proof.Machine

/-! The migration queue. -/

/-- MIGRATION_QUEUE_DISPATCH of F-die ev.key: its first free core goes to the first queued entry that it can serve. -/
def execMigrationQueueDispatch (s : State) : Out :=
  .next (if !s.dispatchDue s.ev.key then s
    else match s.dispatchPair s.ev.key with
      | none => s
      | some (g, vk) =>
        (s.updVc vk (fun v => { v with move := v.move.map (fun m => { m with waited := s.now - m.queuedAt }) })).startMove vk g)

/-! The hold. -/

/-- A move waits for its hold, and for the end of a Vintner operation that holds the virtual core (R335). -/
def State.moveHeld (s : State) (vk : Nat) : Bool :=
  let v := s.vc vk
  v.move.any (fun m => m.step == 1) && s.heldFor vk .migrate && !s.rackHeld vk

/-- The rest of a virtual core's request egress is sent out. -/
def State.flushEgress (s : State) (vk : Nat) : State :=
  let g := s.coreOf vk
  let mine := fun (m : Msg) => m.src == .vc vk
  let out := (s.core g).egress.filter mine
  { s.updCore g (fun c => { c with egress := c.egress.filter (fun m => !mine m) }) with net := s.net ++ out }

/-- MIGRATION_HOLD_COMPLETE of virtual core ev.key: its egress empties, its reservations are lost (R91), the copy begins. -/
def execMigrationHoldComplete (s : State) : Out :=
  let vk := s.ev.key
  .next (if !s.moveHeld vk then s
    else
      let t := (s.freeze vk).flushEgress vk
      let t := t.mapSlots (fun k sl => if k / 16 == vk then { sl with resv := none } else sl)
      t.updVc vk (fun v => { v with move := v.move.map (fun m => { m with step := 2, heldAt := s.now, base := v.base }) }))

/-! The state that moves (Table 13.6). -/

/-- A ring descriptor with its base moved down by b. -/
def Ring.rebase (r : Ring) (b : Nat) : Ring := if r.valid then { r with base := r.base - BitVec.ofNat 20 b } else r

def AccCfg.rebase (c : AccCfg) (b : Nat) : AccCfg := { c with cw := (c.cw + 0x100000 - b) % 0x100000 }

def QEntry.rebase (q : QEntry) (b : Nat) : QEntry :=
  { q with base := q.base - b, op := if isMcfg q.word then wordOfCfg ((cfgOfWord q.op).rebase b) else q.op }

/-- A due time in cycles of the old die, in those of the new one. -/
def redue (old new due : Nat) : Nat := due + new - old

def KeptWhy.redue (old new : Nat) : KeptWhy → KeptWhy
  | .absent d => .absent (Machine.redue old new d)
  | .again d => .again (Machine.redue old new d)
  | w => w

/-- A virtual core at its new place: addresses minus B, times in cycles of the new die. -/
def VCore.moved_ (v : VCore) (dst oldCore b oldCyc newCyc : Nat) : VCore :=
  { v with
    place := some dst, base := 0, stallAt := none, parkedCtx := [], flagCyc := 0,
    rings := v.rings.map (fun (p : Nat × Ring) => (p.1, p.2.rebase b)),
    cfg0 := v.cfg0.rebase b, cfg1 := v.cfg1.rebase b, pcfg0 := v.pcfg0.rebase b, pcfg1 := v.pcfg1.rebase b,
    queue := v.queue.map (fun (p : Nat × List QEntry) => (p.1, p.2.map (fun q => q.rebase b))),
    lt := if b == 0 then v.lt
      else (List.range 64).map (fun i => (i, layoutMoved (v.layoutWords i) (BitVec.ofNat 64 (2 ^ 52 - b)))),
    tokens := v.tokens.map (fun (p : Nat × Token) => (p.1, { p.2 with cyc := p.2.cyc - oldCyc + newCyc })),
    kept := v.kept.map (fun k => { k with why := k.why.redue oldCyc newCyc }),
    farWait := v.farWait.map (fun w => { w with addr := w.addr - lmAddr oldCore b + lmAddr dst 0 }) }

def Slot.moved (sl : Slot) (b newCyc : Nat) : Slot :=
  { sl with segbase := sl.segbase - BitVec.ofNat 64 b, line := none, ahead := none, fetchFault := none, haltAt := 0,
            wakeAt := sl.wakeAt.map (fun _ => newCyc + 1) }

/-- LM with full bits, and both weight-store shares, copied to the new core. -/
def State.copyStores (s : State) (vk dst : Nat) : State :=
  let v := s.vc vk
  let g := s.gang v.gid
  let a := lmAddr (s.coreOf vk) v.base
  let n := g.lmlimit + (if v.fold == 0 then 0 else contextArea)
  let ws := fun (m : Memory) (bank : Bool) =>
    let o := v.fidx * (0x100000 / 2 ^ v.fold)
    Memory.copy m (wsAddr (s.coreOf vk) bank o) (wsAddr dst bank o) g.wslimit
  { s with mem := ws (ws (Memory.copy s.mem a (lmAddr dst 0) n) false) true, full := fullCopy s.full a (lmAddr dst 0) g.lmlimit }

/-- Every point that sends a marker: the enabled cores and the eight Sarob ingresses, on each network. -/
def State.markerPoints (s : State) : List (Dest × VNet) :=
  (((s.cores.filter (fun (p : Nat × PCore) => p.2.en)).map (fun (p : Nat × PCore) => Dest.core p.1)) ++ (List.range 8).map Dest.ingress).flatMap
    (fun d => [(d, .request), (d, .reply), (d, .control)])

/-- Step 4 to 6: the migration entry, the redirect entry of the source die, the markers; messages on their way go by the old core, and
so do the port messages of its spill area, which come first, and the scope-miss reports that wait there. -/
def State.redirectTo (s : State) (vk old dst status : Nat) : State :=
  let home := status == 2 && s.ownPlace vk == dst
  let s := { s with migs := if home then FMap.del s.migs vk else FMap.set s.migs vk dst }
  let d := old / 256
  let ix := ((List.range 64).find? (fun i => (FMap.get? (s.die d).redirs i).isNone)).getD 0
  let pts := s.markerPoints
  let n := s.freshId
  let s := n.2.updDie d (fun x => { x with redirs := FMap.set x.redirs ix { num := n.1, vk := vk, old := old, new := dst, left := pts } })
  let s := s.updVc vk (fun v => { v with move := v.move.map (fun m => { m with redir := ix }) })
  let mine := fun (m : Msg) => m.dst == .vc vk
  let mark := fun (m : Msg) => if mine m && m.before.isNone then { m with before := some n.1 } else m
  let spilled := ((s.core old).spill.filter mine).map mark
  let s := s.putSpill old ((s.core old).spill.filter (fun m => !mine m))
  let reports := (s.core old).latchQ.filter mine
  let s := (s.updCore old (fun c => { c with latchQ := c.latchQ.filter (fun m => !mine m) })).updCore dst (fun c => { c with latchQ := c.latchQ ++ reports })
  let s := s.updVc vk (fun v => { v with holdQ := v.holdQ.map (fun h => if h.direct then { h with msg := mark h.msg } else h) })
  { s with net := spilled ++ s.net.map mark ++
      pts.map (fun p => { src := p.1, dst := .vc vk, net := p.2, body := .marker p.2 n.1 }) }

def State.copyDone (s : State) (vk : Nat) : Option Move :=
  match (s.vc vk).move with
  | some m => if m.step == 2 then some m else none
  | none => none

/-- MIGRATION_STATE_COPY_DONE of virtual core ev.key. -/
def execMigrationStateCopyDone (s : State) : Out :=
  let vk := s.ev.key
  .next (match s.copyDone vk with
    | none => s
    | some m =>
      let b := (s.vc vk).base
      let oldCyc := (s.die (m.src / 256)).cyc
      let newCyc := (s.die (m.dst / 256)).cyc
      let t := (s.vc vk).parkedCtx.foldl (fun t e => t.unparkContext vk e) (s.forget (fun _ v => v.former == m.dst))
      let t := t.copyStores vk m.dst
      let t := t.updVc vk (fun v => v.moved_ m.dst m.src b oldCyc newCyc)
      let t := t.mapSlots (fun k sl => if k / 16 == vk then sl.moved b newCyc else sl)
      let t := t.updVc vk (fun v => { v with move := v.move.map (fun x => { x with step := 3 }) })
      t.redirectTo vk m.src m.dst m.status)

/-! Markers (R331, steps 5 to 9). -/

/-- The marker of a move has nothing before it that its source sent under the old entry. -/
def State.markerFree (s : State) (n move : Nat) (m : Msg) : Bool :=
  !((s.net.take n).any (fun x => x.dst == m.dst && x.precedes move && x.net == m.net && (match x.body with
    | .marker _ _ => false
    | _ => true) && (match s.entersAt x.src, m.src with
      | some d, e => d == e
      | none, .ingress _ => x.src.isFar
      | none, _ => false)))

/-- The redirect entry of a move with a marker point dropped. -/
def State.dropMarker (s : State) (move : Nat) (p : Dest × VNet) : State :=
  { s with dies := s.dies.map (fun (q : Nat × Die) => (q.1, { q.2 with
      redirs := q.2.redirs.map (fun (r : Nat × Redirect) =>
        (r.1, if r.2.num == move then { r.2 with left := r.2.left.erase p } else r.2)) })) }

/-- Direct messages that wait in the hold queue of a moved virtual core for a marker that has passed go on, before those still in the
networks (R331, step 8). -/
def State.directOn (s : State) (vk : Nat) : State :=
  let goes := fun (h : Held) => h.direct && !s.markerOut vk h.msg
  let out := ((s.vc vk).holdQ.filter goes).map Held.msg
  { s.updVc vk (fun v => { v with holdQ := v.holdQ.filter (fun h => !goes h) }) with net := out ++ s.net }

/-- A direct message enters the hold queue of a moved virtual core while the marker of its source is outstanding; beyond 32 entries it
waits in its network. -/
def State.holdDirect (s : State) (n : Nat) : State :=
  match s.msg? n with
  | none => s
  | some m => match m.dst with
    | .vc vk =>
      let v := s.vc vk
      let first := m.body.unordered || !((s.net.take n).any (fun x => x.src == m.src && x.dst == m.dst && x.net == m.net && !x.body.unordered))
      let mark := match m.body with
        | .marker _ _ => true
        | _ => false
      if first && !mark && v.live && v.place.isSome && !v.copying && !m.body.slotReply && s.markerOut vk m &&
          v.holdQ.length < 32 then
        (s.dropMsg n).updVc vk (fun v => { v with holdQ := v.holdQ ++ [{ msg := m, direct := true }] })
      else s
    | _ => s

/-- REDIRECT_MARKER, message ev.ix; with ev.val = 1 message ev.ix is one that must wait for its marker. -/
def execRedirectMarker (s : State) : Out :=
  .next (if s.ev.val == 1 then s.holdDirect s.ev.ix
    else match s.msg? s.ev.ix with
    | some m => (match m.dst, m.body with
      | .vc vk, .marker net move =>
        if s.markerFree s.ev.ix move m then ((s.dropMsg s.ev.ix).dropMarker move (m.src, net)).directOn vk else s
      | _, _ => s)
    | none => s)

/-- MIGRATION_REDIRECT_FREED: redirect entry ev.ix of die ev.key. -/
def execMigrationRedirectFreed (s : State) : Out :=
  let d := s.ev.key
  .next (match FMap.get? (s.die d).redirs s.ev.ix with
    | some r =>
      if !r.left.isEmpty then s
      else
        let t := s.updDie d (fun x => { x with redirs := FMap.del x.redirs s.ev.ix })
        t.updCore r.old (fun c => { c with mig := t.moving r.old })
    | none => s)

/-! Resumption. -/

/-- The migration record (Table 13.7). -/
def moveRecord (m : Move) (now : Nat) : Word × Word :=
  let us := m.waited / (100 * timeUnit)
  let ns := (now - m.heldAt) * 10 / timeUnit
  (BitVec.ofNat 64 (pack [(0, 0x60), (8, 0xC), (12, m.status), (16, min us 65535), (32, m.src), (48, m.dst)]),
   BitVec.ofNat 64 (pack [(0, min ns (2 ^ 32 - 1)), (32, m.base)]))

/-- The slots held for a move go on where they were (step 7); another hold that waits takes them over. -/
def State.leaveMove (s : State) (vk : Nat) (m : Move) : State :=
  let req := (s.vc vk).holds.find? (fun h => h.kind == .migrate)
  let rest := (s.vc vk).holds.filter (fun h => h.kind != .migrate)
  let s := s.updVc vk (fun v => v.withHolds rest)
  let s := s.mapSlots (fun key sl =>
    if key / 16 == vk && sl.st == .trapped && sl.trap == some .migrate then
      let sl := sl.goOn
      if m.status == 1 && req.any (fun h => h.slot == key % 16) then sl.finish (BitVec.ofNat 5 m.rd) 0 else sl
    else sl)
  (s.wantLines vk).sweep vk

def State.canResumeMove (s : State) (vk : Nat) : Option Move :=
  match (s.vc vk).move with
  | some m => if m.step == 3 && (s.die (m.dst / 256)).cyc % 16 == 0 && s.clocked (16 * vk) then some m else none
  | none => none

/-- The oldest migration record that waits is posted, when there is room. -/
def State.postOwed (s : State) (vk : Nat) : State :=
  match (s.vc vk).owedRecs with
  | w :: rest => if s.eventRoom vk 16 == some false then s
    else (s.postEvent vk w.1 w.2).updVc vk (fun v => { v with owedRecs := rest })
  | [] => s

/-- MIGRATION_RESUME of virtual core ev.key. A full event ring makes the record wait, not the slots; with ev.val = 1 a record
that waits is posted. -/
def execMigrationResume (s : State) : Out :=
  let vk := s.ev.key
  .next (if s.ev.val == 1 then s.postOwed vk
    else match s.canResumeMove vk with
      | none => s
      | some m =>
        let t := (s.leaveMove vk m).updVc vk (fun v => { v with move := none, owedRecs := v.owedRecs ++ [moveRecord m s.now] })
        let t := t.updCore m.dst (fun c => { c with reserved := false, mig := t.moving m.dst })
        t.postOwed vk)

end Sys2Proof.Machine
end

