-- ==== Sys2Proof/Machine/Save.lean ====
section
/-! DEFINITION. Saving a virtual core and bringing it back (R352 to R358): the network-interface block, the save extent, the
end of a save, the copy-out, resumption. -/

namespace Sys2Proof.Machine

def padWords (n : Nat) (l : List Word) : List Word := (l ++ List.replicate (n - l.length) 0).take n

/-! The network-interface block (Table 14.5). -/

/-- A destination as 36 bits: VCID and node; a signal memory has the VCID 0xF00 + die. -/
def State.destBits (s : State) (d : Dest) : Nat :=
  let e := s.endOf d
  e.2.1 + e.1 % 2 ^ 20 * 65536

def guylineWords (v : VCore) : List Word :=
  (List.range 4).flatMap (fun i =>
    BitVec.ofNat 64 (bn (FMap.getD v.gpend i false)) :: padWords 9 (FMap.getD v.gres i []))

/-- Stores of a batch epoch that are counted by acknowledgement and still out. -/
def VCore.countedOut (v : VCore) (bt : Nat) : Nat :=
  (v.unacked.filter (fun a => a.counted && a.bt == bt && a.epoch == (v.batches.getD bt {}).epoch)).length

def State.batchWords (s : State) (v : VCore) : List Word :=
  (List.range 4).flatMap (fun i =>
    let b := v.batches.getD i {}
    let ids := b.dests.map (fun d => (s.endOf d).2.1)
    [BitVec.ofNat 64 (pack [(0, b.dests.length), (7, bn b.bcast), (8, bn b.og), (16, b.bits.toNat)]),
     BitVec.ofNat 64 (v.countedOut i), 0, 0] ++
      (List.range 16).map (fun n => BitVec.ofNat 64 (pack ((List.range 4).map (fun k => (16 * k, ids.getD (4 * n + k) 0))))))

def State.errWords (s : State) (v : VCore) : List Word :=
  padWords 128 (v.errs.flatMap (fun e =>
    let d := s.endOf e.src
    [BitVec.ofNat 64 (pack [(0, d.2.1), (16, d.1 % 2 ^ 20), (36, e.bt)]), e.bits.setWidth 64]))

/-- The stores a virtual core keeps. -/
def VCore.storesKept (v : VCore) : List Kept := v.kept.filter (fun k => match k.msg.body with
  | .store _ _ _ _ _ => true
  | _ => false)

/-- How a kept store is to act at its home, as the record of it says: Table 14.5 has no field for it (DESIGN CHOICE, log entry 93). -/
def keptKind : StoreKind → Nat
  | .plain => 0
  | .missed => 0
  | .setFull => 1
  | .release sc _ => 2 + 4 * scopeCode sc

/-- The token of its own that a store has. -/
def VCore.ownToken (v : VCore) (t : Tag) : Option Nat :=
  match v.unacked.find? (fun a => a.id == t.id) with
  | some a => a.token.map (fun x => tokenVal (FMap.getD v.tokens x.1 {}).slot x.1 x.2)
  | none => none

/-- The record of a kept store. -/
def VCore.keptRecord (v : VCore) (k : Kept) : List Word :=
  match k.msg.body with
  | .store t p d x h =>
    let tok := match k.why with
      | .token e => some (tokenVal (FMap.getD v.tokens e {}).slot e (FMap.getD v.tokens e {}).gen)
      | _ => h
    let own := v.ownToken t
    [p, d, BitVec.ofNat 64 (pack [(0, tok.getD 0), (16, t.slot), (20, t.bt), (22, bn own.isSome), (23, 1), (24, own.getD 0),
      (40, bn tok.isSome), (41, keptKind x)]), 0]
  | _ => [0, 0, 0, 0]

/-- The kept stores that a block has room for. -/
def VCore.keptFirst (v : VCore) : List Kept := v.storesKept.take 32

def keptWords (v : VCore) : List Word := padWords 128 (v.keptFirst.flatMap v.keptRecord)

/-- Kept stores beyond the 32 of a block stand in the spill area of their virtual core, in 64 bytes each (DESIGN CHOICE, log entry 114). -/
def keptMark : Word := 0xFF
def VCore.keptBeyond (v : VCore) : List Flit := (v.storesKept.drop 32).map (fun k => [keptMark, 0] ++ v.keptRecord k ++ [0, 0])

def tokStateCode : TokState → Nat
  | .pending => 0
  | .landed => 1
  | .expired => 2

/-- Forty-bit strides of dependants over w2 to w6. -/
def depWords (l : List Nat) : List Word :=
  let n := l.zipIdx.foldl (fun a p => a + p.1 * 2 ^ (40 * p.2)) 0
  (List.range 5).map (fun i => BitVec.ofNat 64 (n / 2 ^ (64 * i)))

def State.tokenWords (s : State) (v : VCore) (cyc : Nat) : List Word :=
  (List.range 64).flatMap (fun e =>
    let t := FMap.getD v.tokens e {}
    let age := if t.valid then ((cyc : Int) - t.cyc).toNat else 0
    [BitVec.ofNat 64 (pack [(0, bn t.valid), (1, t.gen), (7, t.slot), (11, tokStateCode t.st), (13, bn t.fol),
       (14, t.deps.length), (32, min age (2 ^ 32 - 1))]),
     BitVec.ofNat 64 (if t.valid then s.destBits t.dest else 0)] ++ depWords (t.deps.map s.destBits) ++ [0])

/-- The token of its own that the store of a message of this package has at its source. -/
def State.ownTokenOf (s : State) (m : Msg) : Option Nat :=
  match m.src, m.body with
  | .vc k, .store t _ _ _ _ => (s.vc k).ownToken t
  | _, _ => none

/-- A held request as flits. Table 13.10 has no field for the own token of a DTST: vch says that eseq, which means nothing within a
package, holds it (DESIGN CHOICE, log entry 93). -/
def State.heldFlits (s : State) (h : Held) : List Flit :=
  match s.ownTokenOf h.msg with
  | some t => (s.flitsOf h.msg t true).map (fun f => sealFlit (setField f 1 38 38 1))
  | none => s.flitsOf h.msg (if h.msg.src.isFar then idEseq h.msg.body.number else 0) false

/-- The hold queue of a block: flits in arrival order. -/
def State.holdFlits (s : State) (v : VCore) : List Flit := v.holdQ.flatMap s.heldFlits
def State.holdWords (s : State) (v : VCore) : List Word := padWords 256 (s.holdFlits v).flatten

/-- The first requests of a hold queue whose flits fill at most n places; a WENQ payload takes none. -/
def State.heldFit (s : State) (n : Nat) : List Held → List Held
  | [] => []
  | h :: t =>
    if h.enq then s.heldFit n t
    else if (s.heldFlits h).length ≤ n then h :: s.heldFit (n - (s.heldFlits h).length) t
    else []

/-- What a block cannot hold of the hold queue of a virtual core leaves it: the requests that stay, and those that go. -/
def State.splitHolds (s : State) (vk : Nat) : List Held × List Held :=
  let fit := s.heldFit 32 (s.vc vk).holdQ
  (fit, (s.vc vk).holdQ.filter (fun h => !fit.contains h))

/-- At the end of a save those go back to their sources with retry (DESIGN CHOICE, log entry 86). -/
def State.trimHolds (s : State) (vk : Nat) : State :=
  (s.splitHolds vk).2.foldl (fun t h => t.sendBack h.msg (.retry h.msg.body true)) (s.updVc vk (fun v => { v with holdQ := (s.splitHolds vk).1 }))

/-- The block of a virtual core at cycle cyc of its die, 9,216 bytes. -/
def State.niBlock (s : State) (v : VCore) (cyc : Nat) : List Word :=
  [BitVec.ofNat 64 (0x494E + 0x10000),
   BitVec.ofNat 64 (pack [(0, (s.holdFlits v).length), (8, v.keptFirst.length), (16, v.errs.length)]), 0, 0, 0, 0, 0, 0] ++
    guylineWords v ++ s.batchWords v ++ s.errWords v ++ keptWords v ++ s.tokenWords v cyc ++ s.holdWords v

/-! The save extent (R353, Table 14.6). -/

/-- Stack port p of die d begins at this physical address (R322). -/
def stackBase (d p : Nat) : Nat := (3 * d + p) * 2 ^ 44
/-- The firmware's save extents: 256 of 4 MiB on stack port 0 of each die (log entry 10). -/
def extentAt (d i : Nat) : Nat := stackBase d 0 + 85 * 2 ^ 30 + i * 0x400000

def State.freeExtent (s : State) (d : Nat) : Option Nat :=
  ((List.range 256).map (extentAt d)).find? (fun a => !s.vcs.any (fun (p : Nat × VCore) => p.2.extent == some a))

/-- Full/empty bits of n words from a as bytes. -/
def fullBytes (full : List Nat) (a n : Nat) : List Byte :=
  (List.range ((n + 7) / 8)).map (fun i =>
    BitVec.ofNat 8 ((List.range 8).foldl (fun x j => x + (if full.contains (a + 8 * (8 * i + j)) then 2 ^ j else 0)) 0))

/-- The bits of such bytes set from a on. -/
def setFullBytes (full : List Nat) (a : Nat) (bs : List Byte) : List Nat :=
  bs.zipIdx.foldl (fun l p =>
    if p.1 == 0 then l
    else (List.range 8).foldl (fun l j => if p.1.getLsbD j then fullSet l (a + 8 * (8 * p.2 + j)) else l) l) full

/-- Physical LM offset of the engine block that CTXSAV has written (R355). -/
def State.blockOff (s : State) (vk : Nat) : Nat := if (s.vc vk).fold == 0 then 0xF6800 else s.areaOff vk

/-! The end of a save (R356). -/

/-- Nothing that a virtual core has sent waits for an answer. -/
def State.drained (s : State) (vk : Nat) : Bool :=
  let v := s.vc vk
  let queued := (v.queueOf 2 ++ v.queueOf 3).map QEntry.id
  v.unacked.all (fun a => queued.contains a.id) && v.closes.isEmpty && v.owed == 0 &&
    v.tokens.all (fun (p : Nat × Token) => !(p.2.valid && p.2.st == TokState.pending)) &&
    !(s.core (s.coreOf vk)).egress.any (fun m => m.src == .vc vk) && v.run.isEmpty

def State.canSaveEnd (s : State) (vk : Nat) : Bool :=
  let v := s.vc vk
  v.live && !s.rackHeld vk && !v.holdQ.any (fun h => h.direct) && v.place.isSome && v.ending && s.atBoundary (16 * vk) && s.clocked (16 * vk) &&
    v.lead.any (fun l => s.siblingsHeld vk l && ((s.slot (slotKey vk l)).st == .halted || (s.slot (slotKey vk l)).st == .empty)) &&
    s.drained vk && (s.freeExtent (s.dieOf vk)).isSome

/-- RLDFs waiting at a virtual core are answered with retry. -/
def State.retryWaits (s : State) (vk : Nat) : State :=
  ((s.vc vk).farWait.foldl (fun t w => t.answer (.vc vk) w.src (.retry (.load w.id w.slot w.ptr true) false)) s).updVc vk
    (fun v => { v with farWait := [] })

/-- Reports that wait at the core for a virtual core go to its absent-control log. -/
def State.latchToLog (s : State) (vk : Nat) : State :=
  let g := s.coreOf vk
  let mine := fun (m : Msg) => m.dst == .vc vk
  let out := (s.core g).latchQ.filter mine
  (s.updCore g (fun c => { c with latchQ := c.latchQ.filter (fun m => !mine m) })).updVc vk (fun v => { v with absentLog := v.absentLog ++ out })

/-- The message of a further pending token expiry of slot key (R349). The pc of its store is known while its entry stands; else it is
free (log entry 9). -/
def State.mailExpiry (s : State) (key tok : Nat) : State :=
  let vk := key / 16
  match (s.vc vk).recognise tok with
  | .live _ x => s.mail vk 2 (key % 16) x.pc (BitVec.ofNat 64 tok) 0 []
  | _ => ({ s with free := s.free + 1 }).mail vk 2 (key % 16) (Config.freeWord s.free) (BitVec.ofNat 64 tok) 0 []

/-- The slots of a virtual core keep one pending token expiry each, the lowest (R349). -/
def State.mailExtras (s : State) (vk : Nat) : State :=
  (s.slotsOf vk).foldl (fun t k =>
    ((t.slot k).moreExpiries.foldl (fun t tok => t.mailExpiry k tok) t).updSlot k (fun x => { x with p27 := (lowest x.p27).toList })) s

def State.hasExtras (s : State) (vk : Nat) : Bool := (s.slotsOf vk).any (fun k => !(s.slot k).moreExpiries.isEmpty)

/-- What has changed since CTXSAV in the engine block of a virtual core: its rings, by messages, and the latch (log entry 85). -/
def State.refreshBlock (s : State) (vk : Nat) : State :=
  let a := lmAddr (s.coreOf vk) (s.blockOff vk)
  let b := s.engineBlock vk
  (s.putWords (a + 0x240) (wordsAt b 0x240 4)).putWords (a + 0x800) (wordsAt b 0x800 256)

/-- The saved records brought up to the end of the save. -/
def State.refreshSaved (s : State) (vk : Nat) : State :=
  ((s.slotsOf vk).foldl State.refreshRecord (s.mailExtras vk)).refreshBlock vk

/-- Records of the slots that hold no thread. -/
def State.emptyRecords (s : State) (vk lead : Nat) : State :=
  (List.range (slotCount (s.vc vk))).foldl (fun t j =>
    let st := (t.slot (slotKey vk j)).st
    if j != lead && (st == .empty || st == .halted) then t.writeSlotRecord (slotKey vk j) else t) s

def Body.isPort : Body → Bool
  | .port _ _ _ => true
  | _ => false

/-- Port messages of the request network that wait for a virtual core at its network interface, at most n (R356, step 3): none
stands behind another kind of message of its source. -/
def State.waitingPorts (s : State) (vk n : Nat) : List Msg :=
  ((s.net.zipIdx.filter (fun (p : Msg × Nat) =>
    let m := p.1
    m.dst == .vc vk && m.net == .request && m.body.isPort && s.gateOpen m && ((s.vc vk).refusal? m.src m.net).isNone &&
      !((s.net.take p.2).any (fun x => x.src == m.src && x.dst == m.dst && x.net == m.net && !x.body.isPort)))).map Prod.fst).take n

/-- PREEMPTION_SAVE_END of virtual core ev.key. -/
def execPreemptionSaveEnd (s : State) : Out :=
  let vk := s.ev.key
  let g := s.coreOf vk
  .next (if !s.canSaveEnd vk then s
    else match s.freeExtent (g / 256) with
      | none => s
      | some x =>
        let t := (((s.emptyRecords vk ((s.vc vk).lead.getD 16)).refreshSaved vk).retryWaits vk).trimHolds vk
        let mine := fun (m : Msg) => m.dst == .vc vk
        let waiting := t.waitingPorts vk (64 - (t.core g).spill.length)
        let t := { t with net := waiting.foldl List.erase t.net }
        let spill := (t.core g).spill.filter mine ++ waiting
        let t := (t.putSpill g ((t.core g).spill.filter (fun m => !mine m))).updCore g (fun c => { c with saving := c.saving ++ [vk] })
        let ni := t.niBlock (t.vc vk) (t.cycOf vk)
        let flits := padWords 512 (spill.flatMap (fun m => (t.flitsOf m 0 false).headD []))
        let m := Memory.setWords (Memory.setWords t.mem (hbmAddr (x + 0xC000)) flits) (hbmAddr (x + 0xD000)) ni
        let t := { t with mem := Memory.setWords m (hbmAddr (x + 0xF400)) [0, 0, 0, 0, 0, 0, 0, 0] }
        let t := t.latchToLog vk
        let t := t.mapSlots (fun k sl => if k / 16 == vk then
            { sl with st := .empty, trap := none, park := none, hold := none, wakeAt := none, resv := none } else sl)
        let n := t.freshId
        n.2.updVc vk (fun v => { v with
          place := none, former := g, extent := some x, copied := false, lead := none, ending := false, saveOk := false,
          reqSeq := n.1, spilled := spill, cache := [], unacked := [], stallAt := none, parkedCtx := [],
          holds := v.holds.filter (fun h => h.kind != .preempt) }))

/-! The copy-out. -/

/-- Words of the context area of an extent: the slot records, then the engine block. -/
def State.contextWords (s : State) (vk : Nat) : List Word :=
  let v := s.vc vk
  let at_ := fun (off n : Nat) => Memory.words s.mem (lmAddr v.former off) n
  padWords 1280 ((List.range (slotCount v)).flatMap (fun j => at_ (slotRecordOff (barrelPos v j)) 80)) ++
    at_ (s.blockOff vk) (blockBytes / 8)

/-- Offsets in an extent. -/
def extFull : Nat := 0x10000
def extLm : Nat := 0x14000

/-- SAVE_COPY_OUT_DONE of virtual core ev.key. -/
def execSaveCopyOutDone (s : State) : Out :=
  let vk := s.ev.key
  let v := s.vc vk
  let g := s.gang v.gid
  .next (match v.extent with
    | none => s
    | some x =>
      if v.place.isSome || v.copied || !(s.core v.former).saving.contains vk then s
      else
        let a := lmAddr v.former v.base
        let wo := v.fidx * (0x100000 / 2 ^ v.fold)
        let m := Memory.setWords s.mem (hbmAddr x) (s.contextWords vk)
        let m := Memory.setBytes m (hbmAddr (x + extFull)) (fullBytes s.full a (g.lmlimit / 8))
        let m := Memory.copy m a (hbmAddr (x + extLm)) g.lmlimit
        let m := Memory.copy m (wsAddr v.former false wo) (hbmAddr (x + extLm + g.lmlimit)) g.wslimit
        let m := Memory.copy m (wsAddr v.former true wo) (hbmAddr (x + extLm + g.lmlimit + g.wslimit)) g.wslimit
        (({ s with mem := m }).updVc vk (fun v => { v with copied := true })).updCore v.former
          (fun c => { c with saving := c.saving.erase vk }))

/-! Resumption (R358). -/

/-- A control message for a virtual core performed. -/
def State.performControl (s : State) (vk : Nat) (m : Msg) : State :=
  match m.body with
  | .release tok =>
    (s.updVc vk (fun v => { v with holdQ := v.holdQ.map (fun h =>
      if h.msg.src == m.src && h.heldOn == some tok then { h with heldOn := none } else h) })).drainHeld vk m.src 33
  | .expiry tok => (s.discardHeld vk m.src tok).drainHeld vk m.src 33
  | .guyline g rs => s.guylineResults vk g rs
  | .scopeMiss slot ws =>
    (match s.reportMiss vk slot ws with
     | some t => t
     | none => s.updCore (s.coreOf vk) (fun c => { c with latchQ := c.latchQ ++ [m] }))
  | _ => s

/-- The words of an extent's context area put into slots and tables of a virtual core that has its place and base. A slot keeps what the
record has no field for: a rewound RLDF (R354), a GBAR that has arrived (R121). -/
def State.loadContext (s : State) (vk : Nat) (ctx : List Word) : State :=
  let v := s.vc vk
  let s := (List.range (slotCount v)).foldl (fun t j =>
    let r := (ctx.drop (80 * j)).take 80
    let old := t.slot (slotKey vk j)
    let sl := { slotOfRecord r v.base with rewound := old.rewound, arrived := old.arrived, outer := old.outer }
    t.setSlot (slotKey vk j) (if bits (r.getD 75 0) 21 20 == 1 then { sl with st := .issuing } else sl)) s
  let blk := ctx.drop 1280
  let s := s.loadBlock vk blk
  if (s.slotsOf vk).any (fun k => (s.slot k).mip.getLsbD 1) then
    s.putWords (lmAddr (s.coreOf vk) latchOff) (wordsAt blk 0x240 4)
  else s

/-- LM, full bits and weight-store shares read from an extent (x: its address as a memory address) into a virtual core that has
its place. An engine context area begins as zeros (R348). -/
def State.loadStores (s : State) (vk x : Nat) : State :=
  let v := s.vc vk
  let g := s.gang v.gid
  let c := s.coreOf vk
  let a := lmAddr c v.base
  let wo := v.fidx * (0x100000 / 2 ^ v.fold)
  let m := Memory.copy s.mem (x + extLm) a g.lmlimit
  let m := if v.fold == 0 then m else Memory.clear m (a + g.lmlimit) contextArea
  let m := Memory.copy m (x + extLm + g.lmlimit) (wsAddr c false wo) g.wslimit
  let m := Memory.copy m (x + extLm + g.lmlimit + g.wslimit) (wsAddr c true wo) g.wslimit
  ({ s with mem := m, full := setFullBytes (fullClearRange s.full a g.lmlimit) a (Memory.bytes s.mem (x + extFull) ((g.lmlimit / 8 + 7) / 8)) }).dropResv a
    (g.lmlimit + (if v.fold == 0 then 0 else contextArea)) none

/-- The absent-control log performed in order. -/
def State.performLog (s : State) (vk : Nat) : State :=
  let log := (s.vc vk).absentLog
  log.foldl (fun t m => t.performControl vk m) (s.updVc vk (fun v => { v with absentLog := [] }))

def State.canResume (s : State) (vk : Nat) : Option (Nat × Nat) :=
  let v := s.vc vk
  match v.resume, v.extent with
  | some c, some x =>
    if v.live && v.place.isNone && v.copied && !(s.gang v.gid).quiesced && (s.die (c / 256)).up && !(s.die (c / 256)).frozen && (s.die (c / 256)).cyc % 16 == 0 then some (c, x)
    else none
  | _, _ => none

/-- RESUMPTION_LOAD_DONE of virtual core ev.key. -/
def execResumptionLoadDone (s : State) : Out :=
  let vk := s.ev.key
  .next (match s.canResume vk with
    | none => s
    | some (c, x) =>
      let t := (s.forget (fun _ v => v.former == c)).updVc vk (fun v => { v with place := some c, resume := none, frozen := false, ctxFrozen := false })
      let t := (t.loadStores vk (hbmAddr x)).loadContext vk (Memory.words s.mem (hbmAddr x) 6144)
      let t := (t.putSpill c ((t.vc vk).spilled ++ (t.core c).spill)).updCore c (fun p => { p with
        reserved := s.vcs.any (fun (q : Nat × VCore) => q.1 != vk && q.2.resume == some c) })
      let t := t.updVc vk (fun v => { v with extent := none, copied := false, spilled := [] })
      ((t.performLog vk).wantLines vk).sweep vk)

end Sys2Proof.Machine
end

