-- ==== Sys2Proof/Machine/Quiesce.lean ====
section
/-! DEFINITION. QUIESCE, FREEZE and RESUME (R279, R361 to R365). A QUIESCE or FREEZE that has issued stands in its queue: Packet.step 1
is waiting for moves, saves and Vintner operations and taking its holds, 2 is after the cut with an image still to be written;
Packet.moved is the status of its image. -/

namespace Sys2Proof.Machine

/-! The set. -/

/-- Gangs of the set of a QUIESCE or FREEZE packet. -/
def State.setOf (s : State) (p : Packet) : List Nat :=
  if p.extent then s.gangs.map Prod.fst else if (s.gang? p.gidOf).isSome then [p.gidOf] else []

def State.setVcs (s : State) (p : Packet) : List Nat := (s.setOf p).flatMap s.vcsOf

def Packet.qp (p : Packet) : Bool := bit (p.word 1) 16
def Packet.hx (p : Packet) : Bool := bit (p.word 1) 17
def Packet.tmo (p : Packet) : Nat := bits (p.word 1) 47 32
def Packet.buf (p : Packet) : Nat := (p.word 2).toNat
def Packet.freezes (p : Packet) : Bool := p.type == 9

def State.updIssued (s : State) (k ix : Nat) (f : Packet → Packet) : State :=
  s.updQueue k (fun q => { q with issued := q.issued.map (fun p => if p.index == ix then f p else p) })

/-- The QUIESCE or FREEZE in progress with an index. -/
def State.quiesceAt (s : State) (k ix step : Nat) : Option Packet :=
  (s.queue k).issued.find? (fun p => p.index == ix && (p.type == 7 || p.type == 9) && p.step == step)

/-! The holds (steps 1 to 3). -/

def VCore.quiescing (v : VCore) : Bool := v.holds.any (fun h => h.kind == .quiesce)

/-- A Vintner operation of the set is still to complete: one that a virtual core submitted or that holds it. -/
def State.vintnerBusy (s : State) (vk : Nat) : Bool :=
  s.vops.any (fun o => o.vk == some vk || o.holds.any (fun h => h.1 == vk && h.2 != .skipped && (o.stage == .holding || o.stage == .racking)))

/-- The hold of a present virtual core may be taken: no move and no save of it is in progress, and no Vintner operation. -/
def State.canQuiesce (s : State) (vk : Nat) : Bool :=
  let v := s.vc vk
  v.live && v.place.isSome && !v.quiescing && v.move.all (fun m => m.step == 0) && v.lead.isNone && !v.ending && !s.vintnerBusy vk

/-- Holds are asked for where they may be. -/
def State.takeHolds (s : State) (p : Packet) : State :=
  (s.setVcs p).foldl (fun t vk =>
    if t.canQuiesce vk then t.askHold vk { kind := .quiesce, qsce := p.qp && p.moved == 0 } else t) s

/-- A QUIESCE or FREEZE of queue k is sent. -/
def State.startQuiesce (s : State) (k : Nat) (p : Packet) : State :=
  let s := s.issue k p
  if (s.setOf p).isEmpty && !p.extent then s.complete k p 0 0 0
  else
    let s := if p.extent then { s with queues := s.queues.map (fun (q : Nat × Queue) => (q.1, { q.2 with quiet := true })) } else s
    let s := s.updIssued k p.index (fun x => { x with
      step := 1, moved := 0, timeout := if p.qp then some (s.now + p.tmo * usUnits) else none })
    s.takeHolds p

/-- The packet is sent, or with ev.val = 1 the holds that have become possible are taken for packet ev.ix. -/
def State.quiesceStep (s : State) (type : Nat) : State :=
  let k := s.ev.key
  if s.ev.val == 1 then
    (match s.quiesceAt k s.ev.ix 1 with
     | some p => if p.type == type then s.takeHolds p else s
     | none => s)
  else match s.ripe k [type] with
    | some p => s.startQuiesce k p
    | none => s

def execQuiescePacket (s : State) : Out := .next (s.quiesceStep 7)
def execFreezePacket (s : State) : Out := .next (s.quiesceStep 9)

/-- A hold that waited for quiesce points now takes every slot. -/
def State.forceHold (s : State) (vk : Nat) : State :=
  let v := s.vc vk
  if v.holds.any (fun h => h.kind == .quiesce && h.qsce) then
    let s := s.updVc vk (fun v => { v with holds := v.holds.map (fun h => if h.kind == .quiesce then { h with qsce := false } else h) })
    s.sweep vk
  else s

/-- QUIESCE_POINT_TIMEOUT of packet ev.ix of queue ev.key: what still runs after tmo is held at once; the image will carry status 2. -/
def execQuiescePointTimeout (s : State) : Out :=
  let k := s.ev.key
  .next (match s.quiesceAt k s.ev.ix 1 with
    | none => s
    | some p =>
      let late := (s.setVcs p).any (fun vk => (s.vc vk).place.isSome && !s.heldFor vk .quiesce)
      if p.timeout.any (fun t => t ≤ s.now) && late && p.moved == 0 then
        (s.setVcs p).foldl (fun t vk => t.forceHold vk) (s.updIssued k p.index (fun x => { x with moved := 2 }))
      else s)

/-! The cut (steps 4 to 6). -/

/-- An end of a message belongs to the set. -/
def inSet (set : List Nat) : Dest → Bool
  | .vc k => set.contains (k / 65536)
  | _ => false

/-- A message that only waits for its full ring: of a mailbox, or of a port. -/
def State.ringBlocked (s : State) (m : Msg) : Bool :=
  match m.dst, m.body with
  | .vc vk, .mailbox _ ix _ => (s.ring vk ix).count ≤ (s.ring vk ix).fill
  | _, _ => s.portStuck m

/-- Message m at place n waits for a full ring, or behind such a message. -/
def State.stuck (s : State) (m : Msg) (n : Nat) : Bool :=
  s.ringBlocked m || (!m.body.unordered && (s.net.take n).any (fun x =>
    x.src == m.src && x.dst == m.dst && x.net == m.net && !x.body.unordered && s.ringBlocked x))

/-- The egress of core g is full up behind such messages: they hold every credit of its first link (R196). -/
def State.egressStuck (s : State) (g : Nat) : Bool :=
  !s.hasCredit g && s.net.zipIdx.all (fun p => !s.usesCredit g p.1 || s.stuck p.1 p.2)

/-- Messages by or to the set that are in a network, an egress queue or a link buffer. -/
def State.setMessages (s : State) (set : List Nat) : Bool :=
  let mine := fun (m : Msg) => (inSet set m.src || inSet set m.dst)
  s.net.zipIdx.any (fun p => mine p.1 && !s.stuck p.1 p.2) || s.cores.any (fun (c : Nat × PCore) => c.2.egress.any mine && !s.egressStuck c.1) ||
    s.farOut.any (fun (o : Nat × FarOut) => o.2.sent.any (fun x => mine x.msg) || o.2.asked.any (fun x => mine x.msg))

/-- A virtual core stands still: held, or saved with its copy-out ended. -/
def State.still (s : State) (vk : Nat) : Bool :=
  let v := s.vc vk
  if v.place.isSome then s.heldFor vk .quiesce && v.move.all (fun m => m.step == 0) && !v.holdQ.any (fun h => h.direct) else v.copied

def State.canCut (s : State) (p : Packet) : Bool :=
  (s.setVcs p).all (fun vk => s.still vk && !s.vintnerBusy vk) && (s.setOf p).all (fun g => (s.gang g).toRelease.isEmpty && ((s.gang g).ready.isSome || (s.gang g).terminated)) &&
    !s.setMessages (s.setOf p)

/-- Slot of a message that is kept: 16 for one of no slot. -/
def Body.keptSlot (b : Body) : Nat :=
  match b with
  | .store t _ _ _ _ => t.slot
  | _ => 16

/-- A message goes back to its source and is kept there; one of another package goes back with retry. -/
def State.bringHome (s : State) (m : Msg) : State :=
  match m.src with
  | .vc vk => s.updVc vk (fun v => { v with
      kept := insertReturned m.resent { msg := { m with before := none }, slot := m.body.keptSlot, wide := true, ret := true } v.kept })
  | _ => s.sendBack m (.retry m.body true)

/-- What a block cannot hold of the hold queue of a virtual core is kept at its source, before all of its pair that is kept there. -/
def State.holdsHome (s : State) (vk : Nat) : State :=
  (s.splitHolds vk).2.reverse.foldl (fun t h => t.bringHome { h.msg with resent := true }) (s.updVc vk (fun v => { v with holdQ := (s.splitHolds vk).1 }))

/-- Messages of the set that wait for a full ring, and those behind them in the networks and in egress, stay with their sources. -/
def State.stuckHome (s : State) (set : List Nat) : State :=
  let ofSet := fun (m : Msg) => inSet set m.src || inSet set m.dst
  let mine := fun (p : Msg × Nat) => ofSet p.1 && s.stuck p.1 p.2
  let out := (s.net.zipIdx.filter mine).map Prod.fst
  let queued := (s.cores.filter (fun (c : Nat × PCore) => s.egressStuck c.1)).flatMap (fun c => c.2.egress.filter ofSet)
  let t := { s with
    net := (s.net.zipIdx.filter (fun p => !mine p)).map Prod.fst,
    cores := s.cores.map (fun (c : Nat × PCore) =>
      (c.1, if s.egressStuck c.1 then { c.2 with egress := c.2.egress.filter (fun m => !ofSet m) } else c.2)) }
  (out ++ queued).foldl State.bringHome t

/-- Far-wait entries of the set inside the set go: their slots have been rewound. -/
def State.dropSetWaits (s : State) (set : List Nat) : State :=
  { s with vcs := s.vcs.map (fun (v : Nat × VCore) =>
      (v.1, if set.contains (v.1 / 65536) then { v.2 with farWait := v.2.farWait.filter (fun w => !inSet set w.src) } else v.2)) }

/-- Port and mailbox messages that wait for a virtual core, in its spill area and at their sources: an extent records them in its spill
area (DESIGN CHOICE, log entry 84). -/
def State.waitingFor (s : State) (vk : Nat) : List Msg :=
  let at_ := fun (m : Msg) => m.dst == .vc vk && (m.body.isPort || (match m.body with
    | .mailbox _ _ _ => true
    | _ => false))
  (match (s.vc vk).place with
   | some c => (s.core c).spill.filter at_
   | none => (s.vc vk).spilled) ++
    (s.vcsOf (s.vc vk).gid).flatMap (fun k => ((s.vc k).kept.map Kept.msg).filter at_)

/-- What the spill area of an extent holds: those messages, and the stores kept beyond a block. -/
def State.spillFlits (s : State) (vk : Nat) : List Flit :=
  (s.waitingFor vk).flatMap (fun m => s.flitsOf m 0 false) ++ (s.vc vk).keptBeyond

def State.spillWords (s : State) (vk : Nat) : List Word := padWords 512 (s.spillFlits vk).flatten

/-- The set as its image records it: what waits for full rings, and held requests beyond a block, are at their sources. -/
def State.cutSet (s : State) (p : Packet) : State :=
  let set := s.setOf p
  (s.setVcs p).foldl State.holdsHome ((s.stuckHome set).dropSetWaits set)

/-- The clocks of the cores that host the set, or of every die, stop (R365). -/
def State.stopClocks (s : State) (p : Packet) : State :=
  if p.extent then { s with dies := s.dies.map (fun (d : Nat × Die) => (d.1, { d.2 with frozen := true })) }
  else (s.setVcs p).foldl (fun t vk => match (t.vc vk).place with
    | some c => t.updCore c (fun x => { x with frozen := true })
    | none => t) s

/-- QUIESCE_CUT of packet ev.ix of queue ev.key: pending token expiries that the slot records cannot hold are mailed first (R349). With
buf = 0 the packet completes. The cut waits while a spill area of the image could not hold what belongs there (log entry 114). -/
def execQuiesceCut (s : State) : Out :=
  let k := s.ev.key
  .next (match s.quiesceAt k s.ev.ix 1 with
    | none => s
    | some p =>
      let more := (s.setVcs p).filter s.hasExtras
      if (s.setVcs p).all s.still && !more.isEmpty then more.foldl State.mailExtras s
      else if !s.canCut p then s
      else
        let t := s.cutSet p
        if (s.setVcs p).any (fun vk => decide (64 < (t.spillFlits vk).length)) then s
        else
        let t := (s.setOf p).foldl (fun t g => t.updGang g (fun x => { x with quiesced := true })) t
        let t := if p.freezes then t.stopClocks p else t
        if p.buf == 0 then t.complete k p 0 0 0 else t.updIssued k p.index (fun x => { x with step := 2 }))

/-! RESUME (R279, R364). -/

/-- The next multiple of 160 ns, where rotations of every clock meet. -/
def rotationsMeet (now : Nat) : Nat := (now / (16 * timeUnit) + 1) * (16 * timeUnit)

/-- A stopped die runs again: its next cycle is the first of a rotation, where rotations of every clock meet. -/
def Die.restart (x : Die) (now : Nat) : Die :=
  if !x.frozen then x
  else { x with frozen := false, cyc := x.cyc / 16 * 16 + 15, nextAt := rotationsMeet now }

/-- Clocks run again on the cores and dies that host a gang: a stopped core at the first rotation boundary of its die from the same time
on (log entry 92). -/
def State.startClocks (s : State) (gid : Nat) : State :=
  (s.vcsOf gid).foldl (fun t vk => match (t.vc vk).place with
    | some c => (t.updCore c (fun x => { x with thaw := if x.frozen then some (rotationsMeet s.now) else none })).updDie (c / 256)
        (fun d => d.restart s.now)
    | none => t) s

/-- The quiesce hold of a gang ends, or with term the gang. -/
def State.unquiesce (s : State) (gid : Nat) (term : Bool) : State :=
  let s := s.startClocks gid
  if term then
    ((s.vcsOf gid).foldl (fun t vk => t.updVc vk (fun v => { v with holds := v.holds.filter (fun h => h.kind != .quiesce) })) s).terminate gid
  else
    let t := ((s.vcsOf gid).foldl (fun t vk => t.releaseHold vk .quiesce) s).updGang gid (fun g => { g with quiesced := false })
    (s.vcsOf gid).foldl State.pump t

/-- Reserved-code bundles: of one slot, or of all of a gang (R279). -/
def State.resumeCodes (s : State) (gid : Nat) (all term : Bool) (vcid slot : Nat) : State :=
  let trapped := fun (key : Nat) => (s.slot key).trap == some .reservedCode
  let keys := if all then (s.vcsOf gid).flatMap (fun vk => (s.slotsOf vk).filter trapped)
    else [slotKey (vkey gid vcid) slot].filter trapped
  let t := keys.foldl (fun t key => t.resumeBundle (key / 16) (s.slot key).bundle term) s
  if term && !keys.isEmpty then t.updGang gid (fun g => { g with partly := true }) else t

/-- RESUME_PACKET. -/
def execResumePacket (s : State) : Out :=
  let k := s.ev.key
  .next (match s.ripe k [8] with
    | none => s
    | some p =>
      let t := (s.issue k p).complete k p 0 0 0
      let term := bit (p.word 0) 33
      let gid := p.gidOf
      if gid == 0xFFFF then
        (if k / 32 != 4 then t
         else
           let t := ((t.gangs.filter (fun (g : Nat × Gang) => g.2.quiesced)).map Prod.fst).foldl (fun t g => t.unquiesce g term) t
           { t with
             queues := t.queues.map (fun (q : Nat × Queue) => (q.1, { q.2 with quiet := false })),
             dies := t.dies.map (fun (d : Nat × Die) => (d.1, d.2.restart s.now)) })
      else match s.gang? gid with
        | none => t
        | some g =>
          if g.quiesced && term then t.unquiesce gid true
          else
            let t := t.resumeCodes gid (bit (p.word 0) 32) term (bits (p.word 2) 15 0) (bits (p.word 2) 19 16)
            if g.quiesced then t.unquiesce gid false else t)

/-- A QUIESCE or FREEZE in progress is given up: what it holds goes on (R374). -/
def State.abandonQuiesce (s : State) (k : Nat) (p : Packet) : State :=
  let t := (s.setOf p).foldl (fun t g => t.unquiesce g false) s
  let t := if p.extent then { t with
      queues := t.queues.map (fun (q : Nat × Queue) => (q.1, { q.2 with quiet := false })),
      dies := t.dies.map (fun (d : Nat × Die) => (d.1, d.2.restart s.now)) } else t
  t.updQueue k (fun q => { q with issued := q.issued.filter (fun x => x.index != p.index || (x.type != 7 && x.type != 9)) })

end Sys2Proof.Machine
end

