-- ==== Sys2Proof/Machine/Sha.lean ====
section
/-! DEFINITION. SHA-256 and ECDSA on P-256, which R366, R369, R384 and R385 name (their standards: FIPS 180-4 and FIPS 186-4; log
entry 11). -/

namespace Sys2Proof.Machine

/-! SHA-256. Its constants are the first 32 bits of the fractions of cube and square roots of primes. -/

/-- The n-th root of v by its bits from bit k - 1 down: the greatest number below 2^k, r included, whose n-th power is at most v. -/
def rootBits (n v : Nat) : Nat → Nat → Nat
  | 0, r => r
  | k + 1, r => rootBits n v k (if (r + 2 ^ k) ^ n ≤ v then r + 2 ^ k else r)

/-- 32 bits of the fraction of the n-th root of p. -/
def rootFraction (n p : Nat) : BitVec 32 := BitVec.ofNat 32 (rootBits n (p * 2 ^ (32 * n)) 37 0)

/-- The first 64 primes, which end at 311. -/
def shaPrimes : List Nat := (List.range 312).filter (fun n => 2 ≤ n && (List.range 18).all (fun d => d < 2 || d == n || n % d != 0))

def shaK : List (BitVec 32) := shaPrimes.map (rootFraction 3)

/-- The working variables as two chains, latest first: a, b, c, d and e, f, g, h. -/
structure ShaChains where
  a : List (BitVec 32)
  e : List (BitVec 32)

def shaInit : ShaChains :=
  let h := (shaPrimes.take 8).map (rootFraction 2)
  { a := h.take 4, e := h.drop 4 }

/-- Bytes as a number, high byte first: FIPS 180-4 and FIPS 186-4 read a byte string so. -/
def beNat (bs : List Byte) : Nat := ofBytes bs.reverse
/-- The low n bytes of a number, high byte first. -/
def beBytes (v n : Nat) : List Byte := (bytesOf v n).reverse

/-- The exclusive or of a word turned right by each amount. -/
def turned (x : BitVec 32) (by_ : List Nat) : BitVec 32 := by_.foldl (fun y n => y ^^^ x.rotateRight n) 0

/-- A window of sixteen words of the schedule, oldest first, moved on by one word. -/
def shaNext (win : List (BitVec 32)) : List (BitVec 32) :=
  match win with
  | [] => []
  | w0 :: rest =>
    let w1 := win.getD 1 0
    let w14 := win.getD 14 0
    rest ++ [w0 + (turned w1 [7, 18] ^^^ w1 >>> 3) + win.getD 9 0 + (turned w14 [17, 19] ^^^ w14 >>> 10)]

/-- A round with constant k and word w: a new head for each chain. -/
def ShaChains.round (s : ShaChains) (k w : BitVec 32) : ShaChains :=
  match s.a, s.e with
  | [a, b, c, d], [e, f, g, h] =>
    let pick := (e &&& (f ^^^ g)) ^^^ g
    let both := (a &&& (b ||| c)) ||| (b &&& c)
    let t := k + w + h + pick + turned e [6, 11, 25]
    { a := [t + both + turned a [2, 13, 22], a, b, c], e := [d + t, e, f, g] }
  | _, _ => s

/-- The rounds with these constants, from a window of the schedule. -/
def ShaChains.rounds : List (BitVec 32) → List (BitVec 32) → ShaChains → ShaChains
  | [], _, s => s
  | k :: ks, win, s => ShaChains.rounds ks (shaNext win) (s.round k (win.headD 0))

/-- n blocks of 64 bytes. -/
def ShaChains.blocks (s : ShaChains) (bs : List Byte) : Nat → ShaChains
  | 0 => s
  | n + 1 =>
    let win := (List.range 16).map (fun i => BitVec.ofNat 32 (beNat ((bs.drop (4 * i)).take 4)))
    let t := ShaChains.rounds shaK win s
    ShaChains.blocks { a := List.zipWith (· + ·) s.a t.a, e := List.zipWith (· + ·) s.e t.e } (bs.drop 64) n

/-- SHA-256 of a byte string, 32 bytes. -/
def sha256 (bs : List Byte) : List Byte :=
  let n := bs.length
  let total := (n + 72) / 64
  let padded := bs ++ 0x80 :: List.replicate (64 * total - 9 - n) 0 ++ beBytes (8 * n) 8
  let s := shaInit.blocks padded total
  (s.a ++ s.e).flatMap (fun w => beBytes w.toNat 4)

/-! P-256. -/

def p256P : Nat := 0xffffffff00000001000000000000000000000000ffffffffffffffffffffffff
def p256N : Nat := 0xffffffff00000000ffffffffffffffffbce6faada7179e84f3b9cac2fc632551
def p256B : Nat := 0x5ac635d8aa3a93e7b3ebbd55769886bc651d06b0cc53b0f63bce3c3e27d2604b
def p256G : Nat × Nat :=
  (0x6b17d1f2e12c4247f8bce6e563a440f277037d812deb33a0f4a13945d898c296,
   0x4fe342e2fe1a7f9b8ee7eb4a7c0f9e162bce33576b315ececbb6406837bf51f5)

/-- b to the power whose low n bits are those of e, modulo m. -/
def powMod (m b e : Nat) : Nat → Nat
  | 0 => 1 % m
  | n + 1 =>
    let r := powMod m (b * b % m) (e / 2) n
    if e % 2 == 1 then r * b % m else r

/-- Inverse modulo a prime. -/
def invMod (m a : Nat) : Nat := powMod m (a % m) (m - 2) 256

/-- Sum of two points; none is the point at infinity. -/
def pointAdd : Option (Nat × Nat) → Option (Nat × Nat) → Option (Nat × Nat)
  | none, q => q
  | p, none => p
  | some (x1, y1), some (x2, y2) =>
    let P := p256P
    if x1 == x2 && (y1 + y2) % P == 0 then none
    else
      let l := if x1 == x2 then (3 * x1 * x1 + (P - 3)) % P * invMod P (2 * y1) % P
        else (y2 + P - y1) % P * invMod P (x2 + P - x1) % P
      let x3 := (l * l + 2 * P - x1 - x2) % P
      some (x3, (l * (x1 + P - x3) + P - y1) % P)

/-- k times a point, k below 2^n. -/
def pointMul (p : Option (Nat × Nat)) (k : Nat) : Nat → Option (Nat × Nat)
  | 0 => none
  | n + 1 =>
    let r := pointMul (pointAdd p p) (k / 2) n
    if k % 2 == 1 then pointAdd p r else r

def onCurve (q : Nat × Nat) : Bool :=
  q.1 < p256P && q.2 < p256P && q.2 * q.2 % p256P == (q.1 * q.1 * q.1 + (p256P - 3) * q.1 + p256B) % p256P

/-- The public key (x, y) of a private one; numbers in memory have their low byte first (R10). -/
def publicKey (d : Nat) : List Byte :=
  match pointMul (some p256G) d 256 with
  | some q => bytesOf q.1 32 ++ bytesOf q.2 32
  | none => List.replicate 64 0

/-- The signature (r, s), low bytes first (R10), of a hash under private key d with the nonce k. -/
def ecdsaSign (d k : Nat) (hash : List Byte) : List Byte :=
  match pointMul (some p256G) k 256 with
  | some q =>
    let r := q.1 % p256N
    bytesOf r 32 ++ bytesOf (invMod p256N k * (beNat hash + r * d) % p256N) 32
  | none => List.replicate 64 0

/-- A signature verifies under a public key. -/
def ecdsaVerify (key hash sig : List Byte) : Bool :=
  let q := (ofBytes (key.take 32), ofBytes (key.drop 32))
  let r := ofBytes (sig.take 32)
  let s := ofBytes (sig.drop 32)
  let w := invMod p256N s
  let x := pointAdd (pointMul (some p256G) (beNat hash * w % p256N) 256) (pointMul (some q) (r * w % p256N) 256)
  onCurve q && 0 < r && r < p256N && 0 < s && s < p256N &&
    (match x with
     | some p => p.1 % p256N == r
     | none => false)

end Sys2Proof.Machine
end

