-- ==== Sys2Proof/Machine/Image.lean ====
section
/-! DEFINITION. The cellar image (R366 to R368): its parts as bytes, and CELLAR_IMAGE_WRITTEN. -/

namespace Sys2Proof.Machine

/-- Zeros up to a multiple of 64. -/
def align64 (bs : List Byte) : List Byte := bs ++ List.replicate ((64 - bs.length % 64) % 64) 0

/-! Keys and hashes (log entry 11). -/

def deviceKey : Nat := Config.identityKey.toNat % (p256N - 1) + 1
def devicePublic : List Byte := publicKey deviceKey

/-- A signature under the identity key; its nonce is free. -/
def State.signHash (s : State) (hash : List Byte) : List Byte :=
  let k := (List.range 4).foldl (fun a i => a * 2 ^ 64 + (Config.freeWord (s.free + i)).toNat) 0
  ecdsaSign deviceKey (k % (p256N - 1) + 1) hash

/-! Gang records (Table 14.9). -/

def gangRecord (gid : Nat) (g : Gang) (nvc first : Nat) : List Word :=
  [pack [(0, gid), (16, g.job), (32, g.die), (35, bn (!isF g.die)), (36, g.fold), (38, g.slots), (43, g.gw), (51, g.gh)],
   pack [(0, g.lmlimit), (20, g.wslimit), (41, g.func), (44, g.queue), (49, g.prio), (56, bn g.pre)],
   g.image,
   pack [(0, g.pidx), (16, g.tag), (32, bn g.cr), (33, bn g.cs.isSome)],
   (g.cs.getD 0).toNat, g.gjoin + g.own * 2 ^ 24, g.supmbox.toNat, nvc + first * 2 ^ 16].map (BitVec.ofNat 64)

/-! Virtual-core records (R367). -/

/-- The save extent of a present virtual core, as a save would write it. -/
def State.presentExtent (s : State) (vk : Nat) : List Byte :=
  let v := s.vc vk
  let g := s.gang v.gid
  let c := s.coreOf vk
  let a := lmAddr c v.base
  let recs := (List.range (slotCount v)).flatMap (fun j =>
    let sl := s.slot (slotKey vk j)
    slotRecord sl v.base (recordedState sl))
  let wo := v.fidx * (0x100000 / 2 ^ v.fold)
  let full := fullBytes s.full a (g.lmlimit / 8)
  bytesOfWords (padWords 1280 recs ++ s.engineBlock vk ++ s.spillWords vk ++ s.niBlock v (s.cycOf vk) ++ padWords 384 []) ++
    full ++ List.replicate (0x4000 - full.length) 0 ++ Memory.bytes s.mem a g.lmlimit ++
    Memory.bytes s.mem (wsAddr c false wo) g.wslimit ++ Memory.bytes s.mem (wsAddr c true wo) g.wslimit

/-- The extent of an absent virtual core, with the messages its absent-control log holds by now. -/
def State.absentExtent (s : State) (vk x : Nat) : List Byte :=
  let v := s.vc vk
  let g := s.gang v.gid
  let at_ := fun (off n : Nat) => Memory.bytes s.mem (hbmAddr (x + off)) n
  let log := v.absentLog.flatMap (fun m => s.flitsOf m 0 false)
  at_ 0 0xC000 ++ bytesOfWords (s.spillWords vk) ++ at_ 0xD000 0x2400 ++ bytesOfWords (padWords 384 (padWords 8 [BitVec.ofNat 64 log.length] ++ log.flatten)) ++
    at_ extFull (0x4000 + g.lmlimit + 2 * g.wslimit)

/-- Virtual core n of its gang record ix. -/
def State.vcRecord (s : State) (ix vk : Nat) : List Byte :=
  let v := s.vc vk
  let g := s.gang v.gid
  let host := v.place.getD v.former
  let ext := match v.place, v.extent with
    | none, some x => s.absentExtent vk x
    | _, _ => s.presentExtent vk
  bytesOfWords (padWords 8
    [BitVec.ofNat 64 (pack [(0, v.vcid), (16, ix), (32, bn v.place.isNone), (33, bn (v.move.any (fun m => m.step == 0))),
       (34, bn (!isF g.die && isF (host / 256)))]),
     BitVec.ofNat 64 (64 + ext.length)]) ++ ext

/-! The later sections (Table 14.10). -/

/-- Groups of an image. -/
def State.imageGroups (s : State) (p : Packet) : List Nat :=
  if p.extent then (List.range 256).filter (fun g => (s.group g).valid)
  else (s.setOf p).flatMap (fun gid => match (s.vcsOf gid) with
    | vk :: _ => (s.vc vk).groups
    | [] => [(s.gang gid).own])

def State.groupSection (s : State) (p : Packet) : List Byte :=
  let gs := s.imageGroups p
  bytesOfWords ((List.range 256).flatMap (fun g => if gs.contains g then s.groupWords g else [0, 0]))

/-- A Vintner entry: its head, the ranking, the selection, the racked children. Generation, seed and σ are those of the racking, or of the
migration when the group has no racking. -/
def vintnerEntry (g : Nat) (x : VGroup) : List Word :=
  let rk := x.ranking.getD []
  let sel := x.selection.getD []
  let r : VRecord := (x.racking <|> x.migration).getD { gen := 0, seed := 0, sigma := 0, pairs := [] }
  let racked := (x.racking.map VRecord.pairs).getD []
  let mg : Racked := ((x.migration.map VRecord.pairs).getD []).headD { child := 0, parent := 0, cfit := 0, pfit := 0 }
  let logged := fun (o : Option VRecord) => bn (o.any VRecord.logged)
  [BitVec.ofNat 64 (pack [(0, g), (8, x.ticket), (24, rk.length), (40, bn x.ranking.isSome), (41, bn x.selection.isSome),
     (42, bn x.racking.isSome), (43, bn x.migration.isSome), (44, logged x.racking), (45, logged x.migration)]),
   BitVec.ofNat 64 (pack [(0, sel.length), (16, racked.length), (32, mg.parent), (48, mg.child)]),
   BitVec.ofNat 64 r.gen, r.seed,
   BitVec.ofNat 64 (pack [(0, r.sigma), (32, (x.migration.map VRecord.node).getD 0)]),
   BitVec.ofNat 64 x.logBase, BitVec.ofNat 64 (mg.pfit + mg.cfit * 2 ^ 32), 0] ++
    rk.map (fun t => BitVec.ofNat 64 (t.2.1 % 2 ^ 32 + t.1 * 2 ^ 32)) ++
    sel.map (fun y => BitVec.ofNat 64 (pack [(0, y.child), (16, y.parent), (32, y.prank), (48, y.crank)])) ++
    racked.flatMap (fun y => [BitVec.ofNat 64 (y.parent + y.child * 2 ^ 16), BitVec.ofNat 64 (y.pfit + y.cfit * 2 ^ 32)])

def State.vintnerSection (s : State) (p : Packet) : List Byte :=
  let es := s.vgroups.filter (fun (x : Nat × VGroup) => (s.imageGroups p).contains x.1)
  bytesOfWords (BitVec.ofNat 64 es.length :: es.flatMap (fun (x : Nat × VGroup) => vintnerEntry x.1 x.2))

/-- A part of a given length in bytes. -/
def padBytes (n : Nat) (bs : List Byte) : List Byte := (bs ++ List.replicate (n - bs.length) 0).take n

/-- Queues, arbiter state and signal memory of a die, 38,656 bytes. -/
def State.dieSection (s : State) (d : Nat) : List Byte :=
  let x := s.die d
  bytesOfWords ((List.range 32).flatMap (fun q => (s.queue (queueKey d q)).descriptor)) ++
    (List.range 256).flatMap (fun k => bytesOf (FMap.getD x.deficit k 0) 4) ++
    (List.range 128).flatMap (fun l => bytesOf (FMap.getD x.pointer l 0) 1) ++
    padBytes 0x80 (bytesOf x.lvlint 8) ++ Memory.bytes s.mem (sigAddr d 0) 0x8000 ++ fullBytes s.full (sigAddr d 0) 4096

def State.queueSection (s : State) (p : Packet) : List Byte :=
  if p.extent then (List.range 8).flatMap s.dieSection else []

/-! Extents. -/

/-- The valid leaves under a table: address, log2 of the page, leaf. -/
def leavesFrom (mem : Memory) : Nat → Nat → List (Nat × Nat × Bool) → List (Nat × Nat × Word)
  | _, _, [] => []
  | table, va, (lo, w, leafOk) :: rest =>
    (List.range (2 ^ w)).flatMap (fun i =>
      let e := Memory.word mem (hbmAddr (table + 8 * i))
      if !pteOk e then []
      else if pteLeaf e then (if leafOk then [(va + i * 2 ^ lo, lo, e)] else [])
      else leavesFrom mem (ptePa e) (va + i * 2 ^ lo) rest)

def State.leaves (s : State) (f : Nat) : List (Nat × Nat × Word) :=
  match (s.func f).root with
  | some r => leavesFrom s.mem r 0 walkLevels
  | none => []

/-- A run of addresses of one space and one permission. -/
structure Run where
  space : Nat
  perm  : Nat
  va    : Nat
  len   : Nat
  pages : List (Nat × Nat × Word)
  deriving DecidableEq, Repr

/-- Maximal runs of ascending leaves. -/
def runs : List (Nat × Nat × Word) → List Run
  | [] => []
  | (va, lg, e) :: t =>
    let r : Run := { space := pteSpace e, perm := bits e 4 2, va := va, len := 2 ^ lg, pages := [(va, lg, e)] }
    match runs t with
    | x :: rest => if x.space == r.space && x.perm == r.perm && va + 2 ^ lg == x.va then
        { r with len := r.len + x.len, pages := r.pages ++ x.pages } :: rest
      else r :: x :: rest
    | [] => [r]

/-- Contents of a run; a page that is not yet bound reads as zero. -/
def State.runBytes (s : State) (r : Run) : List Byte :=
  r.pages.flatMap (fun p =>
    if pteFt p.2.2 then List.replicate (2 ^ p.2.1) 0
    else Memory.bytes s.mem (if r.space == 0 then hbmAddr (leafPa p.2.2 p.2.1 p.1) else tierAddr (leafPa p.2.2 p.2.1 p.1)) (2 ^ p.2.1))

/-- The runs of a function in HBM and in the second tier. -/
def State.runsOf (s : State) (f : Nat) : List Run := (runs (s.leaves f)).filter (fun r => r.space ≤ 1)

def State.extentSection (s : State) (p : Packet) : List Byte :=
  let fs := if p.extent then List.range 8 else (s.setOf p).map (fun g => (s.gang g).func)
  let refs := (List.range 8).flatMap (fun f => match (s.func f).root with
    | some r => if fs.contains f then [BitVec.ofNat 64 (r + 1), 0] else [0, 0]
    | none => [0, 0])
  let es := fs.flatMap (fun f => (s.runsOf f).map (fun r => (f, r)))
  bytesOfWords (BitVec.ofNat 64 es.length :: refs) ++ es.flatMap (fun x =>
    let r := x.2
    bytesOfWords [BitVec.ofNat 64 (pack [(0, r.space + 3), (3, x.1), (6, bn p.hx), (7, r.perm)]),
      BitVec.ofNat 64 r.va, BitVec.ofNat 64 r.len, 0] ++
      (if p.hx then sha256 (s.runBytes r) else List.replicate 32 0))

/-! The image. -/

/-- Header words with the offsets of the later sections. -/
def State.imageHeader (s : State) (p : Packet) (status len g v : Nat) (offs : List Nat) : List Word :=
  [BitVec.ofNat 64 (pack [(0, 0x4C4C4543), (32, 1), (48, bn p.extent), (56, status)]), BitVec.ofNat 64 len,
   BitVec.ofNat 64 (pack [(0, g), (16, v), (32, s.node)])] ++ offs.map (BitVec.ofNat 64)

/-- Gang records and virtual-core records. -/
def State.imageRecords (s : State) (p : Packet) : List Byte × List Byte :=
  let gs := s.setOf p
  let firsts := gs.foldl (fun (acc : List (Nat × Nat) × Nat) g => (acc.1 ++ [(g, acc.2)], acc.2 + (s.vcsOf g).length)) ([], 0)
  (firsts.1.flatMap (fun x => bytesOfWords (gangRecord x.1 (s.gang x.1) (s.vcsOf x.1).length x.2)),
   gs.zipIdx.flatMap (fun x => (s.vcsOf x.1).flatMap (s.vcRecord x.2)))

/-- The image of a QUIESCE or FREEZE packet at its cut, and the header that stands for it when the buffer is too small. -/
def State.image (s : State) (p : Packet) : List Byte × List Byte :=
  let gs := s.setOf p
  let v := (s.setVcs p).length
  let r := s.imageRecords p
  let a := r.1 ++ align64 r.2
  let b := [align64 (s.groupSection p), align64 (s.vintnerSection p), align64 (s.queueSection p), align64 (s.extentSection p)]
  let at_ := fun (i : Nat) => 64 + a.length + ((b.take i).map List.length).foldl (· + ·) 0
  let len := at_ 4 + 128
  let hd := fun (st : Nat) => bytesOfWords (s.imageHeader p st len gs.length v [at_ 0, at_ 1, at_ 2, at_ 3, at_ 4])
  let body := hd p.moved ++ a ++ b.flatten
  let hash := sha256 body
  (body ++ hash ++ s.signHash hash ++ sha256 devicePublic, hd 1)

/-- CELLAR_IMAGE_WRITTEN of packet ev.ix of queue ev.key: the image, or its header alone, is written to the buffer, and the packet
completes; a buffer that does not translate keeps what it held (log entry 27). -/
def execCellarImageWritten (s : State) : Out :=
  let k := s.ev.key
  .next (match s.quiesceAt k s.ev.ix 2 with
    | none => s
    | some p =>
      let im := s.image p
      let out := if (p.word 3).toNat < im.1.length then im.2 else im.1
      let t := (s.writeVa (k / 32) (k / 32) p.buf out).getD s.readFailed
      { t with free := t.free + 4 }.complete k p 0 0 0)

end Sys2Proof.Machine
end

