-- ==== Sys2Proof/Machine/Restore.lean ====
section
/-! DEFINITION. Restore of a cellar image (R369 to R371): reading its parts, the checks, placement, and loading. -/

namespace Sys2Proof.Machine

/-! Reading an image. -/

/-- Word at a byte offset of an image. -/
def imWord (im : List Byte) (off : Nat) : Word := BitVec.ofNat 64 (ofBytes ((im.drop off).take 8))
def imWords (im : List Byte) (off n : Nat) : List Word := wordsOfBytes ((im.drop off).take (8 * n))

/-- Offset i of the later sections: 0 group, 1 Vintner, 2 queue and signal, 3 extent, 4 attestation. -/
def sectionOff (im : List Byte) (i : Nat) : Nat := (imWord im (24 + 8 * i)).toNat
def imGangs (im : List Byte) : Nat := bits (imWord im 16) 15 0
def imDevice (im : List Byte) : Bool := bit (imWord im 0) 48

/-- A virtual-core record: its header and its extent. -/
structure VcRec where
  vcid   : Nat
  gang   : Nat
  absent : Bool
  queued : Bool
  onF    : Bool
  ext    : List Byte
  deriving DecidableEq, Repr

def vcRecs (im : List Byte) : Nat → Nat → List VcRec
  | 0, _ => []
  | n + 1, off =>
    let w := imWord im off
    let len := (imWord im (off + 8)).toNat
    { vcid := bits w 15 0, gang := bits w 31 16, absent := bit w 32, queued := bit w 33, onF := bit w 34,
      ext := (im.drop (off + 64)).take (len - 64) } :: vcRecs im n (off + len)

def imVcs (im : List Byte) : List VcRec := vcRecs im (bits (imWord im 16) 31 16) (64 + 64 * imGangs im)

/-- Gang record i as words. -/
def imGang (im : List Byte) (i : Nat) : List Word := imWords im (64 + 64 * i) 8

/-- The gang of a record, before it is placed. -/
def gangOf (w : List Word) : Gang :=
  let g := fun (i : Nat) => w.getD i 0
  { job := bits (g 0) 31 16, die := bits (g 0) 34 32, fold := bits (g 0) 37 36, slots := bits (g 0) 42 38,
    gw := bits (g 0) 50 43, gh := bits (g 0) 58 51, lmlimit := bits (g 1) 19 0, wslimit := bits (g 1) 40 20,
    func := bits (g 1) 43 41, queue := bits (g 1) 48 44, prio := bits (g 1) 55 49, pre := bit (g 1) 56, image := (g 2).toNat,
    pidx := bits (g 3) 15 0, tag := bits (g 3) 31 16, cr := bit (g 3) 32, cs := if bit (g 3) 33 then some (g 4) else none,
    gjoin := bits (g 5) 23 0, own := bits (g 5) 31 24, supmbox := g 6, quiesced := true }

/-! The checks of R369. -/

/-- The granules of an extent, 64 KiB each. -/
def granules (va len : Nat) : List Nat := (List.range (len / 65536)).map (fun i => va + 65536 * i)

/-- An address is mapped for a function with the permissions of an extent. -/
def State.mappedWith (s : State) (f va perm : Nat) : Bool :=
  match s.walk f va with
  | some (_, e, _) => bits e 4 2 &&& perm == perm
  | none => false

def State.granuleBytes (s : State) (f va : Nat) : List Byte :=
  match s.walk f va with
  | some (_, e, lg) =>
    if pteFt e then List.replicate 65536 0
    else
      let pa := leafPa e lg va
      Memory.bytes s.mem (match pteSpace e with
        | 0 => hbmAddr pa
        | 1 => tierAddr pa
        | _ => hostAddr pa) 65536
  | none => []

/-- An extent of an image is there. -/
def State.extentOk (s : State) (w : List Word) : Bool :=
  let w0 := w.getD 0 0
  let f := bits w0 5 3
  let gs := granules (w.getD 1 0).toNat (w.getD 2 0).toNat
  gs.all (fun va => s.mappedWith f va (bits w0 9 7)) &&
    (!bit w0 6 || sha256 (gs.flatMap (s.granuleBytes f)) == bytesOfWords ((w.drop 4).take 4))

/-- Group entries of an image that are valid. -/
def imGroups (im : List Byte) : List (Nat × List Word) :=
  ((List.range 256).map (fun g => (g, imWords im (sectionOff im 0 + 16 * g) 2))).filter (fun x => bit (x.2.headD 0) 0)

/-- The checks but placement; key: the public key supplied. -/
def State.imageOk (s : State) (im : List Byte) (key : Option (List Byte)) : Bool :=
  let w0 := imWord im 0
  let att := sectionOff im 4
  let hash := sha256 (im.take att)
  let at_ := fun (o n : Nat) => (im.drop (att + o)).take n
  let ex := sectionOff im 3
  let st := bits w0 63 56
  let gangs := (List.range (imGangs im)).map (fun i => gangOf (imGang im i))
  bits w0 31 0 == 0x4C4C4543 && bits w0 47 32 == 1 && (st == 0 || st == 2) && (imWord im 8).toNat ≤ im.length &&
    at_ 0 32 == hash &&
    key.all (fun k => sha256 k != at_ 96 32 || ecdsaVerify k hash (at_ 32 64)) &&
    (List.range (imWord im ex).toNat).all (fun i => s.extentOk (imWords im (ex + 136 + 64 * i) 8)) &&
    gangs.all (fun g => g.job == 0 || !s.gangs.any (fun (q : Nat × Gang) => q.2.job == g.job)) &&
    (imGroups im).all (fun x => !(s.group x.1).valid) && (!imDevice im || s.gangs.isEmpty)

/-! Placement (R370). -/

/-- A fold is legal for a gang. -/
def foldLegal (g : Gang) (f : Nat) : Bool :=
  g.slots ≤ 16 / 2 ^ f && 2 ^ f * (g.lmlimit + ctxE) ≤ 0xF0000 && g.wslimit ≤ 0x100000 / 2 ^ f

/-- The first rectangle of the search: fold, die and origin. -/
def State.findPlace (s : State) (g : Gang) : Option (Nat × Nat × (Nat × Nat)) :=
  let folds := (List.range 3).filter (fun f => g.fold ≤ f && foldLegal g f)
  let same := (List.range 8).filter (fun d => isF d == isF g.die)
  let at_ := fun (ds : List Nat) => folds.flatMap (fun f => ds.map (fun d => (f, d)))
  let l := at_ same ++ (if isF g.die then [] else at_ ((List.range 8).filter isF))
  l.findSome? (fun x =>
    (firstRect x.2 (rectW g.gw x.1) (rectH g.gh x.1) (fun c => s.coreFree c && !s.fixedAway c none) (origins x.2)).map
      (fun o => (x.1, x.2, o)))

/-! Loading. -/

/-- The end that a node and a VCID name, for a virtual core of gang gid; node: that of the image. -/
def destOf (node gid job n v : Nat) : Dest :=
  if n == node then (if 0xF00 ≤ v then .sig (v - 0xF00) else .vc (vkey gid v))
  else if 0xF00 ≤ v then .farSig n (v - 0xF00) else .farVc n job v

/-- The tables of a network-interface block, but the kept stores and the hold queue. -/
def VCore.loadNi (v : VCore) (ni : List Word) (node job cyc : Nat) : VCore :=
  let g := fun (i : Nat) => ni.getD i 0
  let dest := fun (w : Nat) => destOf node v.gid job (w / 65536 % 2 ^ 20) (w % 65536)
  { v with
    gpend := ((List.range 4).filter (fun i => bit (g (8 + 10 * i)) 0)).map (fun i => (i, true)),
    gres := (List.range v.groups.length).map (fun i => (i, (ni.drop (9 + 10 * i)).take 8)),
    batches := Vector.ofFn (fun i =>
      let b := 48 + 20 * i.val
      { dests := (List.range (bits (g b) 6 0)).map (fun n => dest (bits (g (b + 4 + n / 4)) (16 * (n % 4) + 15) (16 * (n % 4)) + node * 65536)),
        bcast := bit (g b) 7, og := bit (g b) 8, bits := (g b).extractLsb' 16 16 }),
    errs := (List.range (bits (g 1) 22 16)).map (fun n =>
      { src := dest (bits (g (128 + 2 * n)) 35 0), bt := bits (g (128 + 2 * n)) 37 36, bits := (g (129 + 2 * n)).setWidth 16,
        shared := n == 63 }),
    tokens := ((List.range 64).map (fun e =>
      let b := 384 + 8 * e
      let w := g b
      let deps := (List.range 5).foldl (fun a i => a + (g (b + 2 + i)).toNat * 2 ^ (64 * i)) 0
      let t : Token := {
        valid := bit w 0, gen := bits w 6 1, slot := bits w 10 7,
        st := (match bits w 12 11 with
          | 0 => TokState.pending
          | 1 => .landed
          | _ => .expired),
        fol := bit w 13, dest := dest (bits (g (b + 1)) 35 0),
        deps := (List.range (bits w 17 14)).map (fun k => dest (deps / 2 ^ (40 * k) % 2 ^ 36)),
        cyc := (cyc : Int) - bits w 63 32 }
      (e, t))).filter (fun (p : Nat × Token) => p.2 != {}) }

/-- The entry of a token value that is valid and pending. -/
def VCore.pendingToken (v : VCore) (t : Nat) : Option Nat :=
  match v.recognise t with
  | .live e x => if x.st == TokState.pending then some e else none
  | _ => none

/-- How a kept store acts (log entry 93); the pc of a release is not recorded and free (log entry 9). -/
def keptKindOf (c : Word) (pc : Word) : StoreKind :=
  match bits c 42 41 with
  | 1 => .setFull
  | 2 => .release (scopes.getD (bits c 45 43) .slot) pc
  | _ => .plain

/-- A kept store of its record, with its access. -/
def State.loadKept (s : State) (vk : Nat) (w : List Word) : State :=
  let g := fun (i : Nat) => w.getD i 0
  let v := s.vc vk
  let c := g 2
  let n := s.freshId
  let d := s.target vk (g 0)
  let own := if bit c 22 then some (bits c 39 24 / 64 % 64, bits c 39 24 % 64) else none
  let k : Kept := {
    msg := { src := .vc vk, dst := d, net := .request,
             body := .store { id := n.1, slot := bits c 19 16, bt := bits c 21 20 } (g 0) (g 1) (keptKindOf c (Config.freeWord s.free)) none },
    slot := bits c 19 16, wide := true, fresh := true,
    why := match (if bit c 40 then v.pendingToken (bits c 15 0) else none) with
      | some e => .token e
      | none => .behind }
  let a : Access := { id := n.1, slot := bits c 19 16, dests := [d], bt := bits c 21 20, counted := d.isFar, token := own }
  ({ n.2 with free := s.free + 1 }).updVc vk (fun v => { v with kept := v.kept ++ [k], unacked := v.unacked ++ [a] })

/-- The accesses that kept release n of a virtual core waits for: of its slot and scope, but those kept behind it (R203). -/
def State.releaseWaits (s : State) (vk n : Nat) (k : Kept) : List Nat :=
  let v := s.vc vk
  match k.msg.body with
  | .store t _ _ (.release sc _) _ =>
    let later := (v.kept.drop n).map (fun x => x.msg.body.number)
    (s.fencedBy vk t.slot sc).filter (fun i => !later.contains i)
  | _ => []

/-- The kept releases of a virtual core wait again for what is not acknowledged. -/
def State.linkReleases (s : State) (vk : Nat) : State :=
  s.updVc vk (fun v => { v with kept := v.kept.zipIdx.map (fun p =>
    let ids := s.releaseWaits vk p.2 p.1
    if ids.isEmpty then p.1 else { p.1 with why := .release ids }) })

/-- A message of flits as it stands for a virtual core of a restored gang. -/
def State.msgOfFlits (_s : State) (vk node job : Nat) (fs : List Flit) : Option Msg :=
  let f := fs.headD []
  (bodyOfFlits fs).map (fun b =>
    { src := destOf node (vk / 65536) job (flitSnode f) (flitSvc f), dst := .vc vk, net := vnetOfCode (flitVn f), body := b })

/-- The own token that the flit of a held store names (log entry 93): entry and generation. -/
def flitOwnToken (f : Flit) : Option (Nat × Nat) := if flitVch f then some (flitEseq f / 64 % 64, flitEseq f % 64) else none

/-- A held store of a virtual core of the image: a new number, and an access of its source. -/
def State.loadHeld (s : State) (m : Msg) (own : Option (Nat × Nat)) : Msg × State :=
  match m.src, m.body with
  | .vc k, .store t p d kind h =>
    let n := s.freshId
    let a : Access := { id := n.1, slot := t.slot, dests := [m.dst], bt := t.bt, token := own }
    ({ m with body := .store { t with id := n.1 } p d kind h }, n.2.updVc k (fun v => { v with unacked := v.unacked ++ [a] }))
  | _, _ => (m, s)

/-- A request put back into a hold queue: one of the image is held only while its token is pending. -/
def State.putHeld (s : State) (vk : Nat) (m : Msg) : State :=
  let on := match m.src, m.body.heldOn with
    | .vc k, some t => ((s.vc k).pendingToken t).map (fun _ => t)
    | _, h => h
  s.updVc vk (fun v => { v with holdQ := v.holdQ ++ [{ msg := m, heldOn := on }] })

/-- The hold queue of a block. -/
def State.loadHolds (s : State) (vk node job : Nat) (ni : List Word) : State :=
  (groupFlits 32 ((List.range (bits (ni.getD 1 0) 5 0)).map (fun i => (ni.drop (896 + 8 * i)).take 8))).foldl (fun t fs =>
    match t.msgOfFlits vk node job fs with
    | none => t
    | some m =>
      let x := t.loadHeld m (flitOwnToken (fs.headD []))
      x.2.putHeld vk x.1) s

/-- Where virtual core n of a placed gang goes: core, fidx, base. -/
def placeIn (g : Gang) (n : Nat) : Nat × Nat × Nat :=
  let p := corePlace g.die g.ox g.oy g.gw g.fold n
  (p.1, p.2, if g.fold == 0 then 0 else p.2 * (g.lmlimit + ctxE))

/-- A free F-core for a virtual core that was on an F-die by migration (R329), with a migration entry left for it. -/
def State.fCore (s : State) (die : Nat) : Option Nat :=
  if s.migs.length + s.migsSoon.length < 256 then (s.nearDies die).findSome? (fun d => (s.freeList d).head?) else none

/-- The messages of a record's spill area. -/
def State.spillOf (s : State) (vk node job : Nat) (r : VcRec) : List Msg :=
  (groupFlits 64 (((List.range 64).map (fun i => imWords r.ext (0xC000 + 64 * i) 8)).filter
    (fun f => f.any (fun w => w != 0) && f.getD 0 0 != keptMark))).filterMap (s.msgOfFlits vk node job)

/-- The records of the kept stores of an extent, those of the block and those beyond it (log entry 114). -/
def VcRec.keptRecords (r : VcRec) : List (List Word) :=
  let ni := imWords r.ext 0xD000 1152
  (List.range (bits (ni.getD 1 0) 13 8)).map (fun n => (ni.drop (256 + 4 * n)).take 4) ++
    (((List.range 64).map (fun i => imWords r.ext (0xC000 + 64 * i) 8)).filter (fun f => f.getD 0 0 == keptMark)).map (fun f => (f.drop 2).take 4)

/-- Scratch address from which an extent is loaded. -/
def scratchAddr : Nat := 0x70000000000000

/-- A virtual core loaded from its record: context, stores, tables of its network interface. -/
def State.loadVc (s : State) (gid node : Nat) (r : VcRec) : State :=
  let g := s.gang gid
  let vk := vkey gid r.vcid
  let own := placeIn g r.vcid
  let away := r.onF && !isF g.die
  let f := if away then s.fCore g.die else none
  let c := f.getD own.1
  let base := if f.isSome then 0 else own.2.2
  let v : VCore := {
    gid := gid, vcid := r.vcid, live := true, place := some c, fold := g.fold, fidx := own.2.1, base := base,
    groups := g.own :: g.symbols }
  let s := (s.forget (fun k v => k / 65536 == gid || v.former == c)).setVc vk v
  let s := if f.isSome then { s with migs := FMap.set s.migs vk c } else s
  let s := { s with mem := Memory.setBytes s.mem scratchAddr r.ext }
  let s := s.loadStores vk scratchAddr
  let s := { s with mem := Memory.clear s.mem scratchAddr r.ext.length }
  let s := s.loadContext vk (imWords r.ext 0 6144)
  let s := s.updVc vk (fun v => { v with holds := [{ kind := .quiesce }], frozen := true })
  let s := s.mapSlots (fun k sl => if k / 16 == vk && sl.st == .issuing then sl.seize .quiesce else sl)
  let s := if away && f.isNone then
      (s.updVc vk (fun v => { v with
        holds := { kind := .migrate } :: v.holds,
        move := some { src := c, queuedAt := s.now, base := base } })).enqueueMove vk
    else s
  let ni := imWords r.ext 0xD000 1152
  let s := s.updVc vk (fun v => v.loadNi ni node g.job (s.cycOf vk))
  let s := r.keptRecords.foldl (fun t w => t.loadKept vk w) s
  s.putSpill c ((s.core c).spill ++ (s.spillOf vk node g.job r).filter (fun m => m.body.isPort))

/-- What can only be done once every virtual core is there: hold queues, and absent-control logs. -/
def State.finishVc (s : State) (gid node : Nat) (r : VcRec) : State :=
  let g := s.gang gid
  let vk := vkey gid r.vcid
  let s := s.loadHolds vk node g.job (imWords r.ext 0xD000 1152)
  let s := ((s.spillOf vk node g.job r).filter (fun m => !m.body.isPort)).foldl (fun t m => match m.src with
    | .vc k => t.updVc k (fun v => { v with kept := v.kept ++ [{ msg := m, slot := 16, ret := true, fresh := true }] })
    | _ => t) s
  let n := (imWord r.ext 0xF400).toNat
  let log := (groupFlits 47 ((List.range n).map (fun i => imWords r.ext (0xF440 + 64 * i) 8))).filterMap (s.msgOfFlits vk node g.job)
  log.foldl (fun t m => t.performControl vk m) s

/-- One gang placed: its id and the state with it. Its patch list is read from its code image again (R288). -/
def State.placeGang (s : State) (g : Gang) : Option (Nat × State) :=
  match s.findPlace g with
  | none => none
  | some (f, d, o) =>
    let gid := s.newGid
    let hw := ((s.readVaWords 4 g.func g.image 8).map Prod.snd).getD []
    let h := headerOf hw
    let ps := ((s.readVaWords 4 g.func (g.image + h.poff) h.pcnt).map Prod.snd).getD []
    let g := { g with
      fold := f, die := d, ox := o.1, oy := o.2, textSize := h.tsize, patches := ps, ready := some (s.die d).cyc,
      symbols := (List.range h.ngrp).map (fun i => g.gjoin / 256 ^ i % 256) }
    some (gid, { s with gangs := FMap.set s.gangs gid g, free := s.free + 1 })

/-- Every gang placed in image order, each with its virtual cores; none when one finds no place. -/
def State.placeGangs (s : State) (node : Nat) (recs : List VcRec) : List (Nat × Gang) → Option (List Nat × State)
  | [] => some ([], s)
  | (i, g) :: rest =>
    match s.placeGang g with
    | none => none
    | some (gid, t) =>
      let t := (recs.filter (fun r => r.gang == i)).foldl (fun t r => t.loadVc gid node r) t
      (t.placeGangs node recs rest).map (fun x => (gid :: x.1, x.2))

/-- Groups of an image: an own group belongs to the new id of its gang. An episode that was open has the arrivals of its pending
members; their values are not in an image and are free (log entry 9). -/
def State.loadGroup (s : State) (ids : List (Nat × Nat)) (x : Nat × List Word) : State :=
  let w := x.2.getD 0 0
  let own := bit w 4
  let gid := ((ids.find? (fun p => p.1 == bits w 47 32)).map Prod.snd).getD 0
  let s := s.updGroup x.1 (fun _ => {
    valid := true, owner := bits w 3 1, own := own, gid := if own then gid else 0, episodes := (x.2.getD 1 0).setWidth 32 })
  let ms := s.membersOf x.1
  let here := ms.filter (fun vk => match (s.vc vk).groups.findIdx? (· == x.1) with
    | some i => FMap.getD (s.vc vk).gpend i false
    | none => false)
  if here.isEmpty then s
  else { s.updGroup x.1 (fun y => { y with
      isOpen := true, members := ms, arrivals := here.zipIdx.map (fun p => (p.1, Config.freeWord (s.free + p.2))) }) with
    free := s.free + here.length }

/-! The Vintner section. -/

def vgroupOf (im : List Byte) (off : Nat) : Nat × VGroup × Nat :=
  let w := fun (i : Nat) => imWord im (off + 8 * i)
  let n := bits (w 0) 39 24
  let q := bits (w 1) 15 0
  let rc := bits (w 1) 31 16
  let rk := (List.range n).map (fun i =>
    let x := imWord im (off + 64 + 8 * i)
    (bits x 47 32, bits x 31 0, 0))
  let sel := (List.range q).map (fun i =>
    let x := imWord im (off + 64 + 8 * (n + i))
    ({ child := bits x 15 0, parent := bits x 31 16, prank := bits x 47 32, crank := bits x 63 48 } : VPair))
  let racked := (List.range rc).map (fun i =>
    let a := imWord im (off + 64 + 8 * (n + q + 2 * i))
    let b := imWord im (off + 64 + 8 * (n + q + 2 * i + 1))
    ({ child := bits a 31 16, parent := bits a 15 0, cfit := bits b 63 32, pfit := bits b 31 0 } : Racked))
  let r : VRecord := { gen := (w 2).toNat, seed := w 3, sigma := bits (w 4) 31 0, pairs := racked, logged := bit (w 0) 44 }
  let m : VRecord := { r with
    pairs := [{ child := bits (w 1) 63 48, parent := bits (w 1) 47 32, cfit := bits (w 6) 63 32, pfit := bits (w 6) 31 0 }],
    node := bits (w 4) 51 32, logged := bit (w 0) 45 }
  (bits (w 0) 7 0,
   { ticket := bits (w 0) 23 8, ranking := if bit (w 0) 40 then some rk else none,
     selection := if bit (w 0) 41 then some sel else none, racking := if bit (w 0) 42 then some r else none,
     migration := if bit (w 0) 43 then some m else none, logBase := (w 5).toNat },
   off + 64 + 8 * (n + q + 2 * rc))

def vgroupsOf (im : List Byte) : Nat → Nat → List (Nat × VGroup)
  | 0, _ => []
  | n + 1, off =>
    let x := vgroupOf im off
    (x.1, x.2.1) :: vgroupsOf im n x.2.2

/-! The queue and signal section. -/

/-- A queue of its descriptor. Whether a stopped queue skips the packet at head is not in the image (log entry 9). -/
def queueOfWords (w : List Word) (skip : Bool) : Queue :=
  let g := fun (i : Nat) => w.getD i 0
  let q : Queue := {}
  let q := ((q.writeW0 (g 0)).writeWord 1 (g 1)).writeWord 3 (g 3)
  { q.writeWord 4 (g 4) with
    en := bit (g 0) 0, head := bits (g 2) 15 0, tail := bits (g 2) 31 16, stopped := bits (g 2) 34 32 == 4,
    skip := bits (g 2) 34 32 == 4 && skip, chead := (g 5).setWidth 16, ctail := (g 5).extractLsb' 16 16,
    windows := (w.drop 8).take 8, quiet := true }

def State.loadDie (s : State) (im : List Byte) (d : Nat) : State :=
  let o := sectionOff im 2 + 38656 * d
  let s := (List.range 32).foldl (fun t q =>
    { t.updQueue (queueKey d q) (fun _ => queueOfWords (imWords im (o + 128 * q) 16) (bit (Config.freeWord t.free) 0)) with free := t.free + 1 }) s
  let num := fun (off n : Nat) => ofBytes ((im.drop (o + off)).take n)
  let s := s.updDie d (fun x => { x with
    deficit := ((List.range 256).map (fun k => (k, num (0x1000 + 4 * k) 4))).filter (fun p => p.2 != 0),
    pointer := ((List.range 128).map (fun l => (l, num (0x1400 + l) 1))).filter (fun p => p.2 != 0),
    lvlint := num 0x1480 8 })
  let a := sigAddr d 0
  { s with
    mem := Memory.setBytes (Memory.clear s.mem a 0x8000) a ((im.drop (o + 0x1500)).take 0x8000),
    full := setFullBytes (fullClearRange s.full a 0x8000) a ((im.drop (o + 0x9500)).take 512) }

/-! The restore. -/

/-- What a restore answers: its status, the gang ids assigned, and the state. -/
def State.restore (s : State) (im : List Byte) (key : Option (List Byte)) : Nat × List Nat × State :=
  if !s.imageOk im key then (5, [], s)
  else
    let recs := imVcs im
    let gangs := (List.range (imGangs im)).map (fun i => (i, gangOf (imGang im i)))
    let node := bits (imWord im 16) 51 32
    match s.placeGangs node recs gangs with
    | none => (6, [], s)
    | some (ids, t) =>
      let old := (List.range (imGangs im)).map (fun i => bits ((imGang im i).getD 0 0) 15 0)
      let t := recs.foldl (fun t r => t.finishVc (ids.getD r.gang 0) node r) t
      let t := recs.foldl (fun t r => t.linkReleases (vkey (ids.getD r.gang 0) r.vcid)) t
      let t := (imGroups im).foldl (fun t x => t.loadGroup (old.zip ids) x) t
      let vo := sectionOff im 1
      let t := (vgroupsOf im (imWord im vo).toNat (vo + 8)).foldl (fun t x => { t with vgroups := FMap.set t.vgroups x.1 x.2 }) t
      let t := if imDevice im then (List.range 8).foldl (fun t d => t.loadDie im d) t else t
      (0, ids, { t with mlog := t.mlog ++ [(im.drop (sectionOff im 4)).take 32] })

end Sys2Proof.Machine
end

