-- ==== Sys2Proof/Machine/Firmware.lean ====
section
/-! DEFINITION. Firmware requests (R376 to R382, Table 15.3) and the function-level reset (R374). ev.key is the function. A request is
performed by the event of its code when it stands at frhead; the event of MAP also answers a request whose code is not assigned. -/

namespace Sys2Proof.Machine

/-! The request ring. -/

def Func.count (x : Func) : Nat := 2 ^ x.ringLg
def State.requestAt (s : State) (f : Nat) : Nat :=
  let x := s.func f
  hostAddr (x.ringBase * 64 + 64 * (x.frhead % x.count))

/-- The request at frhead, when there is one. -/
def State.fwRequest (s : State) (f : Nat) : Option (List Word) :=
  let x := s.func f
  if s.svc != 0 && x.ringEn && x.frhead % x.count != x.frtail then some (Memory.words s.mem (s.requestAt f) 8) else none

/-- The answer (R378): response words from w4 on, then word 0 with status and done, then frhead and vector 32. -/
def State.respond (s : State) (f : Nat) (w0 : Word) (status : Nat) (resp : List Word) : State :=
  let a := s.requestAt f
  let m := Memory.setWords s.mem (a + 32) resp
  let m := Memory.setWord m a ((w0 &&& 0x7FFFFFFFFFFF00FF) ||| BitVec.ofNat 64 (2 ^ 63 + status * 256))
  (({ s with mem := m }).updFunc f (fun x => { x with frhead := (x.frhead + 1) % x.count })).fire f 32

/-- The bits that a request of a code lists (Table 15.3), by word; every other bit of it must be zero (DESIGN CHOICE, log entry 48). -/
def fwListed (code : Nat) : List Word :=
  let all : Word := BitVec.allOnes 64
  (0xFFFF00FF : Word) :: ((match code with
    | 1 => [all, all, all, 0x1FF]
    | 2 => [all, all]
    | 3 => [0xFF, all]
    | 4 => [0xFF]
    | 5 => [0xFFFFFFFF, 0xFF7]
    | 6 => [all, all, all]
    | 7 => [all, all]
    | _ => [0xFFFF]) : List Word)

/-- A request sets a bit that must be zero; status and done are among them. -/
def fwMalformed (code : Nat) (w : List Word) : Bool :=
  (List.range 8).any (fun i => (w.getD i 0) &&& ~~~ ((fwListed code).getD i 0) != 0)

/-- The request of function f at frhead is served when it has this code: act gives status, response and the state after it; a status
other than 0 changes nothing. -/
def State.serve (s : State) (code : Nat) (act : Nat → List Word → State → Nat × List Word × State) : State :=
  let f := s.ev.key % 8
  match s.fwRequest f with
  | none => s
  | some w =>
    let w0 := w.getD 0 0
    let c := bits w0 7 0
    if c != code && !(code == 1 && !(1 ≤ c && c ≤ 8)) then s
    else if c != code || fwMalformed code w then s.respond f w0 1 []
    else
      let r := act f w s
      if r.1 == 0 then r.2.2.respond f w0 0 r.2.1 else s.respond f w0 r.1 []

/-! MAP (R379). -/

/-- The firmware's table pages of a die: 16,384 of 64 KiB on stack port 0 (log entry 10). -/
def tablePage (d i : Nat) : Nat := stackBase d 0 + 84 * 2 ^ 30 + 65536 * i

/-- A leaf written for va at the level of its size, with tables where there are none. -/
def State.mapAt (s : State) (f va lg : Nat) (leaf : Word) : Nat → List (Nat × Nat × Bool) → Option State
  | _, [] => none
  | table, (lo, w, _) :: rest =>
    let a := hbmAddr (table + 8 * (va / 2 ^ lo % 2 ^ w))
    let e := Memory.word s.mem a
    if lo == lg then some { s with mem := Memory.setWord s.mem a leaf }
    else if pteOk e && !pteLeaf e then s.mapAt f va lg leaf (ptePa e) rest
    else
      let n := (s.func f).tables
      if 16384 ≤ n then none
      else
        let t := tablePage f n
        let m := Memory.setWord (Memory.clear s.mem (hbmAddr t) 65536) a (BitVec.ofNat 64 (t + 1))
        (({ s with mem := m }).updFunc f (fun x => { x with tables := n + 1 })).mapAt f va lg leaf t rest

/-- A leaf without its page (Table 13.9). -/
def leafWord (space perm : Nat) (ft : Bool) (pa : Nat) : Word :=
  BitVec.ofNat 64 (3 + perm * 4 + bn ft * 32 + space * 64 + pa)

/-- Pages mapped one after the other: bind takes a page from the pools of die f; none when a table page or a page is missing. -/
def State.mapPages (s : State) (f lg space perm : Nat) (ft : Bool) (backing : Nat) : Nat → Nat → Option State
  | _, 0 => some s
  | va, n + 1 =>
    match (s.func f).root with
    | none => none
    | some root =>
      let next := fun (t : State) (pa : Nat) =>
        (t.mapAt f va lg (leafWord space perm ft pa) root walkLevels).bind (fun u =>
          u.mapPages f lg space perm ft (backing + 2 ^ lg) (va + 2 ^ lg) n)
      if space == 0 && !ft then
        (match takePage (s.die f).pool lg with
         | some (pa, pool) => next { s.updDie f (fun d => { d with pool := pool }) with mem := Memory.clear s.mem (hbmAddr pa) (2 ^ lg) } pa
         | none => none)
      else next s (if ft then 0 else backing)

def pageLg (code : Nat) : Nat := if code == 0 then 16 else if code == 1 then 21 else 29

/-- MAP. -/
def State.fwMap (f : Nat) (w : List Word) (s : State) : Nat × List Word × State :=
  let g := fun (i : Nat) => (w.getD i 0).toNat
  let o := w.getD 4 0
  let space := bits o 2 0
  let ft := bit o 6
  let lg := pageLg (bits o 8 7)
  let bad := bits o 8 7 == 3 || 3 < space || g 1 % 2 ^ lg != 0 || g 2 % 2 ^ lg != 0 || g 3 % 2 ^ lg != 0 ||
    (ft && space != 0) || (space == 0 && g 3 != 0) || 2 ^ 52 < g 1 + g 2 || 2 ^ 52 < g 3 + g 2
  if bad then (1, [], s)
  else if (granules (g 1) (g 2)).any (fun va => (s.walk f va).isSome) then (3, [], s)
  else match s.mapPages f lg space (bits o 5 3) ft (g 3) (g 1) (g 2 / 2 ^ lg) with
    | some t => (0, [], t)
    | none => (4, [], s)

def execMapRequest (s : State) : Out := .next (s.serve 1 State.fwMap)

/-! UNMAP. -/

/-- A page that a leaf has bound in HBM returns to the pool of its stack. -/
def State.freePage (s : State) (e : Word) (lg : Nat) : State :=
  if pteSpace e != 0 || pteFt e then s
  else
    let pa := ptePa e / 2 ^ lg * 2 ^ lg
    let st := pa / 2 ^ 44
    s.updDie (st / 3) (fun d => { d with pool := d.pool ++ [(st % 3, lg, pa, 1)] })

/-- The leaf that maps va becomes invalid. -/
def State.unmapLeaf (s : State) (f va : Nat) : State :=
  match s.walk f va with
  | some (a, e, lg) => { s with mem := Memory.setWord s.mem a 0 }.freePage e lg
  | none => s

/-- No TLB holds a translation of function f for the range. -/
def State.dropTlb (s : State) (f va n : Nat) : State :=
  { s with dies := s.dies.map (fun (p : Nat × Die) => (p.1, { p.2 with
      tlb := p.2.tlb.filter (fun t => !(t.fn == f && t.va * 2 ^ t.lg < va + n && va < (t.va + 1) * 2 ^ t.lg)) })) }

/-- UNMAP. An access translated through the range has been performed: an access and its translation are one step. -/
def State.fwUnmap (f : Nat) (w : List Word) (s : State) : Nat × List Word × State :=
  let va := (w.getD 1 0).toNat
  let n := (w.getD 2 0).toNat
  let gs := granules va n
  let cut := gs.any (fun a => match s.walk f a with
    | some (_, _, lg) => a / 2 ^ lg * 2 ^ lg < va || va + n < (a / 2 ^ lg + 1) * 2 ^ lg
    | none => false)
  if va % 65536 != 0 || n % 65536 != 0 || cut then (1, [], s)
  else (0, [], (gs.foldl (fun t a => t.unmapLeaf f a) s).dropTlb f va n)

def execUnmapRequest (s : State) : Out := .next (s.serve 2 State.fwUnmap)

/-! The other requests. -/

/-- LOGBASE. -/
def State.fwLogbase (f : Nat) (w : List Word) (s : State) : Nat × List Word × State :=
  let g := bits (w.getD 1 0) 7 0
  let l := (w.getD 2 0).toNat
  if l % 64 != 0 then (1, [], s)
  else if !((s.group g).valid && (s.group g).owner == f) then (2, [], s)
  else if s.vops.any (fun o => o.kind == 3 && o.grp == g) then (3, [], s)
  else (0, [], s.updVgroup g (fun x => { x with logBase := l }))

def execLogbaseRequest (s : State) : Out := .next (s.serve 3 State.fwLogbase)

/-- PEERGRANT. -/
def State.fwPeergrant (f : Nat) (w : List Word) (s : State) : Nat × List Word × State :=
  (0, [], s.updFunc f (fun x => { x with peers := (w.getD 1 0).setWidth 8 }))

def execPeergrantRequest (s : State) : Out := .next (s.serve 4 State.fwPeergrant)

/-- RETURN (R336): the move begins, with its target given. -/
def State.fwReturn (f : Nat) (w : List Word) (s : State) : Nat × List Word × State :=
  let w1 := w.getD 1 0
  let w2 := w.getD 2 0
  let gid := bits w1 15 0
  let vk := vkey gid (bits w1 31 16)
  let v := s.vc vk
  let d := bits w2 2 0
  let cx := bits w2 7 4
  let cy := bits w2 11 8
  let dst := gcidOf d cx cy
  if d < 4 then (1, [], s)
  else if !((s.gang? gid).isSome && (s.gang gid).func == f && v.live) then (2, [], s)
  else if !v.holds.isEmpty || v.move.isSome || v.place.isNone || v.lead.isSome || !s.entriesFor vk then (3, [], s)
  else if meshW d ≤ cx || meshH d ≤ cy || !s.coreFree dst || s.fixedAway dst none then (4, [], s)
  else
    let t := s.updVc vk (fun v => { v with move := some { src := s.coreOf vk, status := 2, queuedAt := s.now, base := v.base } })
    (0, [], (t.askHold vk { kind := .migrate, slot := 16 }).startMove vk dst)

def execReturnRequest (s : State) : Out := .next (s.serve 5 State.fwReturn)

/-- Gang ids four to a word, 0xFFFF beyond the last. -/
def idWords (ids : List Nat) : List Word :=
  (List.range 4).map (fun i => BitVec.ofNat 64 (pack ((List.range 4).map (fun k => (16 * k, ids.getD (4 * i + k) 0xFFFF)))))

/-- RESTORE; an image or a key that cannot be read fails verification. -/
def State.fwRestore (f : Nat) (w : List Word) (s : State) : Nat × List Word × State :=
  let va := fun (i : Nat) => (w.getD i 0).toNat
  match s.readVa 4 f (va 1) (va 2) with
  | none => (5, [], s)
  | some (t, im) =>
    let key := if va 3 == 0 then some (t, none) else (t.readVa 4 f (va 3) 64).map (fun r => (r.1, some r.2))
    match key with
    | none => (5, [], s)
    | some (t, k) =>
      let r := t.restore im k
      (r.1, idWords r.2.1, r.2.2)

def execRestoreRequest (s : State) : Out := .next (s.serve 6 State.fwRestore)

/-- The attestation report (R385). -/
def State.report (s : State) (nonce : List Byte) : List Byte :=
  let b := nonce ++ sha256 s.mlog.flatten ++ bytesOf s.mlog.length 4 ++ List.replicate 60 0
  b ++ s.signHash (sha256 b) ++ sha256 devicePublic ++ List.replicate 32 0

/-- ATTEST; a nonce or a report that does not translate is malformed. -/
def State.fwAttest (f : Nat) (w : List Word) (s : State) : Nat × List Word × State :=
  if f != 4 then (2, [], s)
  else match s.readVa 4 f (w.getD 1 0).toNat 32 with
    | none => (1, [], s)
    | some (t, nonce) => match t.writeVa 4 f (w.getD 2 0).toNat (t.report nonce) with
      | none => (1, [], s)
      | some u => (0, [], { u with free := u.free + 4 })

def execAttestRequest (s : State) : Out := .next (s.serve 7 State.fwAttest)

/-- POWERCAP. -/
def State.fwPowercap (f : Nat) (w : List Word) (s : State) : Nat × List Word × State :=
  let p := bits (w.getD 1 0) 15 0
  if p < 1500 || 6000 < p then (1, [], s)
  else if f != 4 then (2, [], s)
  else (0, [], { s with plim := p })

def execPowercapRequest (s : State) : Out := .next (s.serve 8 State.fwPowercap)

/-! Function-level reset. -/

/-- Step 1 for one queue. -/
def State.resetQueue (s : State) (k : Nat) : State :=
  let s := ((s.queue k).issued.filter (fun p => p.type == 7 || p.type == 9)).foldl (fun t p => t.abandonQuiesce k p) s
  s.disableQueue k

/-- Step 4: every leaf of the function becomes invalid; its tables but the root are free again. -/
def State.clearMappings (s : State) (f : Nat) : State :=
  let s := (s.leaves f).foldl (fun t p => t.freePage p.2.2 p.2.1) s
  let s := match (s.func f).root with
    | some r => { s with mem := Memory.clear s.mem (hbmAddr r) 65536 }
    | none => s
  (s.updFunc f (fun x => { x with tables := min x.tables 1 })).dropTlb f 0 (2 ^ 52)

/-- FUNCTION_LEVEL_RESET of function ev.key. -/
def execFunctionLevelReset (s : State) : Out :=
  let f := s.ev.key % 8
  .next (if !s.hostLink then s
    else
      let t := (List.range 32).foldl (fun t q => t.resetQueue (queueKey f q)) s
      let t := t.updFunc f (fun x => { x with ringEn := false })
      let gids := (t.gangs.filter (fun (g : Nat × Gang) => g.2.func == f)).map Prod.fst
      let t := gids.foldl (fun t g => (t.terminate g).updGang g (fun x => { x with silent := true })) t
      let own := (t.groups.filter (fun (g : Nat × Group) => g.2.valid && !g.2.own && g.2.owner == f)).map Prod.fst
      let t := own.foldl (fun t g => t.dropGroup g) t
      let t := { t with vcs := t.vcs.map (fun (v : Nat × VCore) =>
        (v.1, if gids.contains v.2.gid then { v.2 with groups := v.2.groups.filter (fun g => !own.contains g) } else v.2)) }
      t.clearMappings f)

end Sys2Proof.Machine
end

