-- ==== Sys2Proof/Machine/Boot.lean ====
section
/-! DEFINITION. Bring-up (R383, R384, R387), power and temperature (R386), die-to-die modules (R320). -/

namespace Sys2Proof.Machine

/-! PERST# (R383, step 1). -/

/-- The largest power-of-two set of trained CXL ports, lowest numbers first (R382); mask: the trained ports. -/
def tierSet (mask : Nat) : List Nat :=
  let l := (List.range 8).filter (fun p => mask / 2 ^ p % 2 == 1)
  l.take (if 8 ≤ l.length then 8 else if 4 ≤ l.length then 4 else if 2 ≤ l.length then 2 else l.length)

/-- The bytes of the tier: every port of the set contributes the least capacity found among them, at most 4,096 GB in all (R4, R382). -/
def tierSize (ports : List Nat) (cap : Nat → Nat) : Nat :=
  min (4096 * 10 ^ 9) (ports.length * (ports.map cap).foldl min (4096 * 10 ^ 9))

/-- Sizes of X, Y, Z and W from their bytes, within R340. -/
def fabricDims (w : Word) : List Nat :=
  [(0, 4), (1, 4), (2, 32), (3, 32)].map (fun p => max 1 (min p.2 (bits w (8 * p.1 + 7) (8 * p.1))))

/-- A node id within those sizes. -/
def fabricNode (dims : List Nat) (w : Word) : Nat :=
  let at_ := fun (i hi lo : Nat) => min (bits w hi lo) (dims.getD i 1 - 1)
  at_ 0 1 0 + 4 * at_ 1 3 2 + 16 * at_ 2 8 4 + 512 * at_ 3 13 9

/-! The boot ROM's check of the image (R384). Operands of PERST_RELEASE: ev.val bit 0 is a header that is well formed; ev.data is the security
version of the image, the node id, the sizes of X, Y, Z and W one byte each, the trained CXL ports, the capacity in bytes found at each of
the eight, the public key (x, y), the signature (r, s), and the words of the image. -/

def bootKey (data : List Word) : List Byte := bytesOfWords ((data.drop 12).take 8)
def bootSignature (data : List Word) : List Byte := bytesOfWords ((data.drop 20).take 8)
def bootHash (data : List Word) : List Byte := sha256 (bytesOfWords (data.drop 28))

/-- The image is accepted. -/
def State.imageAccepted (s : State) (header : Bool) (data : List Word) : Bool :=
  header && decide (Config.rollbackCounter.toNat ≤ (data.getD 0 0).toNat) && sha256 (bootKey data) == s.keyHash &&
    ecdsaVerify (bootKey data) (bootHash data) (bootSignature data)

/-- The firmware allocates the root table of every function. -/
def State.rootTables (s : State) : State :=
  (List.range 8).foldl (fun t f => t.updFunc f (fun x => { x with root := some (tablePage f 0), tables := 1 })) s

/-- PERST_RELEASE. What the boot ROM and the firmware find comes from outside. The configuration entry of the measurement log is free (log
entry 11). -/
def execPerstRelease (s : State) : Out :=
  let d := fun (i : Nat) => s.ev.data.getD i 0
  .next (if s.boot != .off then s
    else if !s.imageAccepted (bit s.ev.val 0) s.ev.data then { s with boot := .rejected }
    else
      let conf := bytesOfWords ((List.range 4).map (fun i => Config.freeWord (s.free + i)))
      let dims := fabricDims (d 2)
      let ports := tierSet (bits (d 3) 7 0)
      { s.rootTables with
        boot := .running, hostLink := true, node := fabricNode dims (d 1), free := s.free + 4, dims := dims,
        tierPorts := ports, tierCap := tierSize ports (fun p => (d (4 + p)).toNat), mlog := [bootHash s.ev.data, conf] })

/-! Self-tests (R383, steps 2 and 3). -/

/-- The free pages of a die's stacks that no table and no save extent uses (log entry 10). -/
def freshPool (d : Nat) : List (Nat × Nat × Nat × Nat) :=
  (List.range 3).flatMap (fun p =>
    [(p, 29, stackBase d p, 128), (p, 21, stackBase d p + 64 * 2 ^ 30, 8192), (p, 16, stackBase d p + 80 * 2 ^ 30, 65536)])

/-- The resident handler written into a core (R387): its code and initial data, with the latch word zero, and zeros above. -/
def State.writeHandler (s : State) (g : Nat) : State :=
  let code := (List.range 0x3000).map Config.handlerByte
  let m := Memory.setBytes (Memory.clear s.mem (lmAddr g 0xF0000) 0x10000) (lmAddr g 0xF0000) code
  let m := Memory.setWord m (lmAddr g latchOff) 0
  ({ s with mem := m }).updCore g (fun c => { c with en := true, handler := true, codeChanged := false })

/-- The cores of a die that a map of 256 bits, (cy, cx) at cy × 16 + cx, enables. -/
def enabledCores (d : Nat) (map : List Word) : List Nat :=
  (rectCores d 0 0 (meshW d) (meshH d)).filter (fun g => bit (map.getD (g % 256 / 64) 0) (g % 64))

/-- Length of a cycle at a clock in units of 100 MHz. -/
def period (clock : Nat) : Nat := timeUnit / clock

/-- A die whose test has passed starts: its rotation boundaries lie at multiples of sixteen periods of package time. -/
def State.startDie (s : State) (d : Nat) : State :=
  let clock := if isF d then 20 else 12
  let rot := 16 * period clock
  s.updDie d (fun x => { x with
    up := true, tested := true, bringup := !isF d, clock := clock, cyc := 0, nextAt := (s.now / rot + 1) * rot,
    pool := freshPool d })

/-- The fewest enabled cores of a die (R3). -/
def minCores (d : Nat) : Nat := if isF d then 184 else 140

/-- DIE_SELF_TEST_END of die ev.key: ev.val bit 0 is set when it passed, ev.data is the map of its enabled cores; one that names fewer
cores than R3 guarantees fails (DEDUCED, log entry 98). An F-die ends its test once die 4 is up. -/
def execDieSelfTestEnd (s : State) : Out :=
  let d := s.ev.key % 8
  .next (if s.boot != .running || (s.die d).tested || (isF d && s.svc == 0) then s
    else if !bit s.ev.val 0 || (enabledCores d s.ev.data).length < minCores d then s.updDie d (fun x => { x with tested := true, failed := true })
    else
      let t := (enabledCores d s.ev.data).foldl (fun t g => t.writeHandler g) s
      let t := t.startDie d
      if d == 4 then { t with svc := max 1 t.svc } else t)

/-- SERVICE_CLOCK_CHANGE (step 4): with every die up, the L-dies are to change together, at the next time at which rotations of every
clock meet. There bringup clears and svc rises (Die.cycle, State.inService). A die that has failed leaves svc at 1. -/
def execServiceClockChange (s : State) : Out :=
  .next (if s.svc != 1 || !(List.range 8).all (fun d => (s.die d).up) || s.dies.any (fun (p : Nat × Die) => p.2.service) then s
    else { s with
      dies := s.dies.map (fun (p : Nat × Die) => (p.1, if isF p.1 then p.2 else
        { p.2 with service := true, newClock := if p.2.hot then p.2.newClock else some 16, changeAt := rotationsMeet s.now })) })

/-! Power and temperature (R386). -/

def minClock (d : Nat) : Nat := if isF d then 10 else 8

/-- Junction limits in units of 1/16 °C. -/
def tj110 : Int := 1760
def tj120 : Int := 1920

/-- A power step of one die: down while the package draws more than plim, up again while it draws less. -/
def State.powerStep (s : State) (d : Nat) (x : Die) : Die :=
  let c := x.newClock.getD x.clock
  if !x.up then x
  else if x.hot then { x with newClock := some (minClock d) }
  else if s.plim < s.pwr then { x with newClock := some (max (minClock d) (c - 1)) }
  else if s.pwr < s.plim && c < s.topClock d then { x with newClock := some (c + 1) }
  else x

/-- A junction above 120 °C: every gang is terminated and the host link goes down. -/
def State.overheated (s : State) : State := { (s.gangs.map Prod.fst).foldl (fun u g => u.terminate g) s with hostLink := false }

/-- POWER_CONTROL_TICK: 1 ms after the one before. ev.val is the power measured over it, ev.data the hottest HBM stack and the
junction of each die, as 16-bit values. -/
def execPowerControlTick (s : State) : Out :=
  .next (if s.boot != .running || s.now < s.powerAt + 1000 * usUnits then s
    else
      let t := { s with powerAt := s.now, pwr := bits s.ev.val 15 0, thbm := (s.ev.data.headD 0).setWidth 16 }
      let temp := fun (d : Nat) => (s.ev.data.getD (d + 1) 0).setWidth 16
      let t := { t with dies := t.dies.map (fun (p : Nat × Die) =>
        (p.1, t.powerStep p.1 { p.2 with temp := temp p.1, hot := p.2.up && decide (tj110 < (temp p.1).toInt) })) }
      if t.dies.any (fun (p : Nat × Die) => p.2.up && decide (tj120 < (temp p.1).toInt)) then t.overheated else t)

/-- JUNCTION_OVER_110C: die ev.key is at ev.val. -/
def execJunctionOver110c (s : State) : Out :=
  let t : BitVec 16 := s.ev.val.setWidth 16
  .next (if !(s.die s.ev.key).up || t.toInt ≤ tj110 then s
    else s.updDie s.ev.key (fun x => { x with temp := t, hot := true, newClock := some (minClock s.ev.key) }))

/-- JUNCTION_OVER_120C: die ev.key is at ev.val; every gang is terminated and the host link goes down. -/
def execJunctionOver120c (s : State) : Out :=
  let t : BitVec 16 := s.ev.val.setWidth 16
  .next (if !(s.die s.ev.key).up || t.toInt ≤ tj120 then s
    else (s.updDie s.ev.key (fun x => { x with temp := t, hot := true, newClock := some (minClock s.ev.key) })).overheated)

/-! Die-to-die modules. -/

/-- The facing edge of the partner of edge e. -/
def facing (d e : Nat) : Nat :=
  if isF d then (if e == 1 then 0 else 1) else (if e == 0 then 2 else if e == 1 then 3 else 0)

def dropModule (l : List Nat) (e : Nat) : List Nat := l.set e (l.getD e 0 - 1)

/-- UCIE_MODULE_FAIL on edge ev.ix of die ev.key: the link runs on the modules that remain, at both ends. -/
def execUcieModuleFail (s : State) : Out :=
  let d := s.ev.key % 8
  let e := s.ev.ix
  let p := (partners d).getD e 15
  .next (if p == 15 then s
    else (s.updDie d (fun x => { x with ucie := dropModule x.ucie e })).updDie p
      (fun x => { x with ucie := dropModule x.ucie (facing d e) }))

end Sys2Proof.Machine
end

