-- ==== Sys2Proof/Machine/Issue.lean ====
section
/-! DEFINITION. The engine instructions at their slot's turn: matrix (F06), vector (F07), copy and network interface (F08). -/

namespace Sys2Proof.Machine

def execMcfg (acc : BitVec 1) (rs1 : XReg) (s : State) : Out := .next (s.present (.mcfg acc rs1) (s.acceptMatrix (.mcfg acc rs1)))
def execMzero (acc : BitVec 1) (s : State) : Out := .next (s.present (.mzero acc) (s.acceptMatrix (.mzero acc)))
def execMload (n : Bool) (acc : BitVec 1) (h : Handle) (s : State) : Out :=
  .next (s.present (.mload n acc h) (s.acceptMatrix (.mload n acc h)))
def execMout (n : Bool) (h : Handle) (acc : BitVec 1) (rs2 : XReg) (s : State) : Out :=
  .next (s.present (.mout n h acc rs2) (s.acceptMatrix (.mout n h acc rs2)))
def execWpset (w : WPtr) (rs1 : XReg) (s : State) : Out := .next (s.present (.wpset w rs1) (s.acceptMatrix (.wpset w rs1)))
def execWpget (rd : XReg) (w : WPtr) (s : State) : Out := .next (s.present (.wpget rd w) (s.acceptMatrix (.wpget rd w)))
def execWswap (s : State) : Out := .next (s.present .wswap (s.acceptMatrix .wswap))
def execWswapq (s : State) : Out := .next (s.present .wswapq (s.acceptMatrix .wswapq))
def execMma (fmt : MmaFmt) (z sp a : Bool) (acc : BitVec 1) (h : Handle) (w : WPtr) (fs : FReg) (s : State) : Out :=
  .next (s.present (.mma fmt z sp a acc h w fs) (s.acceptMatrix (.mma fmt z sp a acc h w fs)))
def execMmaN (fmt : MmaFmt) (z sp a : Bool) (acc : BitVec 1) (h : Handle) (w : WPtr) (fs : FReg) (s : State) : Out :=
  .next (s.present (.mmaN fmt z sp a acc h w fs) (s.acceptMatrix (.mmaN fmt z sp a acc h w fs)))
def execVadd (n : Bool) (t : VType) (hd ha hb : Handle) (s : State) : Out := .next (s.present (.vadd n t hd ha hb) (s.acceptVector (.vadd n t hd ha hb)))
def execVsub (n : Bool) (t : VType) (hd ha hb : Handle) (s : State) : Out := .next (s.present (.vsub n t hd ha hb) (s.acceptVector (.vsub n t hd ha hb)))
def execVmul (n : Bool) (t : VType) (hd ha hb : Handle) (s : State) : Out := .next (s.present (.vmul n t hd ha hb) (s.acceptVector (.vmul n t hd ha hb)))
def execVfma (n : Bool) (t : VType) (hd ha hb : Handle) (s : State) : Out := .next (s.present (.vfma n t hd ha hb) (s.acceptVector (.vfma n t hd ha hb)))
def execVmac (n : Bool) (t : VType) (ha hb : Handle) (s : State) : Out := .next (s.present (.vmac n t ha hb) (s.acceptVector (.vmac n t ha hb)))
def execVmin (n : Bool) (t : VType) (hd ha hb : Handle) (s : State) : Out := .next (s.present (.vmin n t hd ha hb) (s.acceptVector (.vmin n t hd ha hb)))
def execVmax (n : Bool) (t : VType) (hd ha hb : Handle) (s : State) : Out := .next (s.present (.vmax n t hd ha hb) (s.acceptVector (.vmax n t hd ha hb)))
def execVabs (n : Bool) (t : VType) (hd ha : Handle) (s : State) : Out := .next (s.present (.vabs n t hd ha) (s.acceptVector (.vabs n t hd ha)))
def execVneg (n : Bool) (t : VType) (hd ha : Handle) (s : State) : Out := .next (s.present (.vneg n t hd ha) (s.acceptVector (.vneg n t hd ha)))
def execVcmp (c : VCmpOp) (n : Bool) (t : VType) (hd ha hb : Handle) (s : State) : Out :=
  .next (s.present (.vcmp c n t hd ha hb) (s.acceptVector (.vcmp c n t hd ha hb)))
def execVsel (n : Bool) (t : VType) (hd ha hb : Handle) (s : State) : Out := .next (s.present (.vsel n t hd ha hb) (s.acceptVector (.vsel n t hd ha hb)))
def execVand (n : Bool) (hd ha hb : Handle) (s : State) : Out := .next (s.present (.vand n hd ha hb) (s.acceptVector (.vand n hd ha hb)))
def execVor (n : Bool) (hd ha hb : Handle) (s : State) : Out := .next (s.present (.vor n hd ha hb) (s.acceptVector (.vor n hd ha hb)))
def execVxor (n : Bool) (hd ha hb : Handle) (s : State) : Out := .next (s.present (.vxor n hd ha hb) (s.acceptVector (.vxor n hd ha hb)))
def execVshl (n : Bool) (hd ha hb : Handle) (s : State) : Out := .next (s.present (.vshl n hd ha hb) (s.acceptVector (.vshl n hd ha hb)))
def execVshr (n : Bool) (hd ha hb : Handle) (s : State) : Out := .next (s.present (.vshr n hd ha hb) (s.acceptVector (.vshr n hd ha hb)))
def execVrcp (n : Bool) (t : VType) (hd ha : Handle) (s : State) : Out := .next (s.present (.vrcp n t hd ha) (s.acceptVector (.vrcp n t hd ha)))
def execVrsq (n : Bool) (t : VType) (hd ha : Handle) (s : State) : Out := .next (s.present (.vrsq n t hd ha) (s.acceptVector (.vrsq n t hd ha)))
def execVexp2 (n : Bool) (t : VType) (hd ha : Handle) (s : State) : Out := .next (s.present (.vexp2 n t hd ha) (s.acceptVector (.vexp2 n t hd ha)))
def execVlog2 (n : Bool) (t : VType) (hd ha : Handle) (s : State) : Out := .next (s.present (.vlog2 n t hd ha) (s.acceptVector (.vlog2 n t hd ha)))
def execVtanh (n : Bool) (t : VType) (hd ha : Handle) (s : State) : Out := .next (s.present (.vtanh n t hd ha) (s.acceptVector (.vtanh n t hd ha)))
def execVsig (n : Bool) (t : VType) (hd ha : Handle) (s : State) : Out := .next (s.present (.vsig n t hd ha) (s.acceptVector (.vsig n t hd ha)))
def execVexp2X (n : Bool) (hd ha : Handle) (s : State) : Out := .next (s.present (.vexp2X n hd ha) (s.acceptVector (.vexp2X n hd ha)))
def execVlog2X (n : Bool) (hd ha : Handle) (s : State) : Out := .next (s.present (.vlog2X n hd ha) (s.acceptVector (.vlog2X n hd ha)))
def execVcvt (n sr sat : Bool) (tgt : CvtTgt) (t : VType) (hd ha : Handle) (s : State) : Out :=
  .next (s.present (.vcvt n sr sat tgt t hd ha) (s.acceptVector (.vcvt n sr sat tgt t hd ha)))
def execVsplit3 (n : Bool) (hd ha : Handle) (s : State) : Out := .next (s.present (.vsplit3 n hd ha) (s.acceptVector (.vsplit3 n hd ha)))
def execVqnt (n sr sat : Bool) (tgt : CvtTgt) (t : VType) (hd ha : Handle) (s : State) : Out :=
  .next (s.present (.vqnt n sr sat tgt t hd ha) (s.acceptVector (.vqnt n sr sat tgt t hd ha)))
def execVreds (n : Bool) (t : VType) (hd ha : Handle) (s : State) : Out := .next (s.present (.vreds n t hd ha) (s.acceptVector (.vreds n t hd ha)))
def execVredm (n : Bool) (t : VType) (hd ha : Handle) (s : State) : Out := .next (s.present (.vredm n t hd ha) (s.acceptVector (.vredm n t hd ha)))
def execVgath (n : Bool) (t : VType) (hd ha hb : Handle) (s : State) : Out := .next (s.present (.vgath n t hd ha hb) (s.acceptVector (.vgath n t hd ha hb)))
def execVscat (n : Bool) (t : VType) (hd ha hb : Handle) (s : State) : Out := .next (s.present (.vscat n t hd ha hb) (s.acceptVector (.vscat n t hd ha hb)))
def execVperm (n : Bool) (t : VType) (hd ha hb : Handle) (s : State) : Out := .next (s.present (.vperm n t hd ha hb) (s.acceptVector (.vperm n t hd ha hb)))
def execVaccget (n : Bool) (hd : Handle) (s : State) : Out := .next (s.present (.vaccget n hd) (s.acceptVector (.vaccget n hd)))
def execVaccset (n : Bool) (ha : Handle) (s : State) : Out := .next (s.present (.vaccset n ha) (s.acceptVector (.vaccset n ha)))
def execVaccz (s : State) : Out := .next (s.present .vaccz (s.acceptVector .vaccz))
def execCopy (n : Bool) (rd rs1 : XReg) (h : Handle) (s : State) : Out :=
  .next (s.present (.copy n rd rs1 h) (s.acceptCopy (.copy n rd rs1 h) false rs1 h))
def execCopymc (n : Bool) (rd rs1 : XReg) (h : Handle) (s : State) : Out :=
  .next (s.present (.copymc n rd rs1 h) (s.acceptCopy (.copymc n rd rs1 h) true rs1 h))
def execWenq (n : Bool) (h : Handle) (rs1 : XReg) (bt : BitVec 2) (s : State) : Out :=
  .next (s.present (.wenq n h rs1 bt) (s.acceptWenq (.wenq n h rs1 bt) h rs1 bt.toNat))

end Sys2Proof.Machine
end

