-- ==== Sys2Proof/Machine/MulDiv.lean ====
section
/-! DEFINITION. The M extension (Table 03.2); a division takes 3 rotations, its 32-bit form 2 (Table 03.4). The
division corners are those of the ratified text: by zero, quotient all ones and remainder the dividend; the signed
overflow gives the dividend and 0. -/

namespace Sys2Proof.Machine

/-- The high half of a product of exact integers. -/
def mulHigh (a b : Int) : Word := BitVec.ofInt 64 (a * b / 2 ^ 64)

/-- Signed quotient rounded toward zero, at any width. -/
def divS {n : Nat} (a b : BitVec n) : BitVec n := if b = 0 then BitVec.allOnes n else a.sdiv b
/-- Signed remainder with the sign of the dividend. -/
def remS {n : Nat} (a b : BitVec n) : BitVec n := if b = 0 then a else a.srem b
def divU {n : Nat} (a b : BitVec n) : BitVec n := if b = 0 then BitVec.allOnes n else a / b
def remU {n : Nat} (a b : BitVec n) : BitVec n := if b = 0 then a else a % b

def execMul (rd rs1 rs2 : XReg) (s : State) : Out := .next (s.result rd (s.x rs1 * s.x rs2))
def execMulh (rd rs1 rs2 : XReg) (s : State) : Out := .next (s.result rd (mulHigh (s.x rs1).toInt (s.x rs2).toInt))
def execMulhsu (rd rs1 rs2 : XReg) (s : State) : Out := .next (s.result rd (mulHigh (s.x rs1).toInt (s.x rs2).toNat))
def execMulhu (rd rs1 rs2 : XReg) (s : State) : Out := .next (s.result rd (mulHigh (s.x rs1).toNat (s.x rs2).toNat))
def execDiv (rd rs1 rs2 : XReg) (s : State) : Out := .next (s.resultIn 3 rd (divS (s.x rs1) (s.x rs2)))
def execDivu (rd rs1 rs2 : XReg) (s : State) : Out := .next (s.resultIn 3 rd (divU (s.x rs1) (s.x rs2)))
def execRem (rd rs1 rs2 : XReg) (s : State) : Out := .next (s.resultIn 3 rd (remS (s.x rs1) (s.x rs2)))
def execRemu (rd rs1 rs2 : XReg) (s : State) : Out := .next (s.resultIn 3 rd (remU (s.x rs1) (s.x rs2)))
def execMulw (rd rs1 rs2 : XReg) (s : State) : Out := .next (s.result rd (sextW (s.x rs1 * s.x rs2)))
def execDivw (rd rs1 rs2 : XReg) (s : State) : Out :=
  .next (s.resultIn 2 rd (w32 (divS (low32 (s.x rs1)) (low32 (s.x rs2)))))
def execDivuw (rd rs1 rs2 : XReg) (s : State) : Out :=
  .next (s.resultIn 2 rd (w32 (divU (low32 (s.x rs1)) (low32 (s.x rs2)))))
def execRemw (rd rs1 rs2 : XReg) (s : State) : Out :=
  .next (s.resultIn 2 rd (w32 (remS (low32 (s.x rs1)) (low32 (s.x rs2)))))
def execRemuw (rd rs1 rs2 : XReg) (s : State) : Out :=
  .next (s.resultIn 2 rd (w32 (remU (low32 (s.x rs1)) (low32 (s.x rs2)))))

end Sys2Proof.Machine
end

