-- ==== Sys2Proof/Machine/Repf.lean ====
section
/-! DEFINITION. REPF (R125, R126): capture and checks of the frame, the stagger, the sequencer. -/

namespace Sys2Proof.Machine

/-- A W-group instruction with its handle fields moved on by d and its weight pointer by e, modulo 8 (R125). -/
def stagger (i : Instr) (d e : BitVec 3) : Instr :=
  match i with
  | .mload n acc h => .mload n acc (h + d)
  | .mout n h acc rs2 => .mout n (h + d) acc rs2
  | .wpset w rs1 => .wpset (w + e) rs1
  | .wpget rd w => .wpget rd (w + e)
  | .mma f z s a acc h w fs => .mma f z s a acc (h + d) (w + e) fs
  | .mmaN f z s a acc h w fs => .mmaN f z s a acc (h + d) (w + e) fs
  | .vadd n t hd ha hb => .vadd n t (hd + d) (ha + d) (hb + d)
  | .vsub n t hd ha hb => .vsub n t (hd + d) (ha + d) (hb + d)
  | .vmul n t hd ha hb => .vmul n t (hd + d) (ha + d) (hb + d)
  | .vfma n t hd ha hb => .vfma n t (hd + d) (ha + d) (hb + d)
  | .vmac n t ha hb => .vmac n t (ha + d) (hb + d)
  | .vmin n t hd ha hb => .vmin n t (hd + d) (ha + d) (hb + d)
  | .vmax n t hd ha hb => .vmax n t (hd + d) (ha + d) (hb + d)
  | .vabs n t hd ha => .vabs n t (hd + d) (ha + d)
  | .vneg n t hd ha => .vneg n t (hd + d) (ha + d)
  | .vcmp c n t hd ha hb => .vcmp c n t (hd + d) (ha + d) (hb + d)
  | .vsel n t hd ha hb => .vsel n t (hd + d) (ha + d) (hb + d)
  | .vand n hd ha hb => .vand n (hd + d) (ha + d) (hb + d)
  | .vor n hd ha hb => .vor n (hd + d) (ha + d) (hb + d)
  | .vxor n hd ha hb => .vxor n (hd + d) (ha + d) (hb + d)
  | .vshl n hd ha hb => .vshl n (hd + d) (ha + d) (hb + d)
  | .vshr n hd ha hb => .vshr n (hd + d) (ha + d) (hb + d)
  | .vrcp n t hd ha => .vrcp n t (hd + d) (ha + d)
  | .vrsq n t hd ha => .vrsq n t (hd + d) (ha + d)
  | .vexp2 n t hd ha => .vexp2 n t (hd + d) (ha + d)
  | .vlog2 n t hd ha => .vlog2 n t (hd + d) (ha + d)
  | .vtanh n t hd ha => .vtanh n t (hd + d) (ha + d)
  | .vsig n t hd ha => .vsig n t (hd + d) (ha + d)
  | .vexp2X n hd ha => .vexp2X n (hd + d) (ha + d)
  | .vlog2X n hd ha => .vlog2X n (hd + d) (ha + d)
  | .vcvt n sr sat g t hd ha => .vcvt n sr sat g t (hd + d) (ha + d)
  | .vsplit3 n hd ha => .vsplit3 n (hd + d) (ha + d)
  | .vqnt n sr sat g t hd ha => .vqnt n sr sat g t (hd + d) (ha + d)
  | .vreds n t hd ha => .vreds n t (hd + d) (ha + d)
  | .vredm n t hd ha => .vredm n t (hd + d) (ha + d)
  | .vgath n t hd ha hb => .vgath n t (hd + d) (ha + d) (hb + d)
  | .vscat n t hd ha hb => .vscat n t (hd + d) (ha + d) (hb + d)
  | .vperm n t hd ha hb => .vperm n t (hd + d) (ha + d) (hb + d)
  | .vaccget n hd => .vaccget n (hd + d)
  | .vaccset n ha => .vaccset n (ha + d)
  | i => i

/-- Engine of a W-group instruction. -/
def wGroup (i : Instr) : Option Nat :=
  match engineOf i with
  | some 0 => some 0
  | some 1 => some 1
  | _ => none

/-- The acceptance of a W-group instruction of the current slot. -/
def State.acceptW (s : State) (i : Instr) : Accept :=
  if wGroup i == some 0 then s.acceptMatrix i else s.acceptVector i

/-- The checks of Table 02.12 on a frame word, with the W-group check of R125 last: what the REPF does instead. The acceptance
checks of R165 and R174 are no part of it: they are frame faults (R170, R192). A reserved code among the words leaves the pc at the REPF
(DESIGN CHOICE, log entry 100). -/
def State.frameCheck (s : State) (w : InsnWord) : Option State :=
  match decode w with
  | .error .reservedCode => some (if s.me.mode == .u then s.reservedCode w else s.illegal w)
  | .error _ => some (s.illegal w)
  | .ok i =>
    match i, s.me.mode with
    | .ctxsav _, _ => some (s.illegal w)
    | .ctxrst _, _ => some (s.illegal w)
    | _, _ =>
      match s.engineFate i with
      | .migrate => some (s.migrateTrap w)
      | .illegal => some (s.illegal w)
      | .unbound e => some (s.trap 29 (BitVec.ofNat 64 e))
      | .present =>
        match s.handleFault i with
        | some t => some (s.trap 25 t)
        | none => if (wGroup i).isNone then some (s.illegal w) else none

/-- Frame words are captured as they arrive: n words still to read. A word that has not arrived parks the slot; it goes on
from there. -/
def State.captureFrame (s : State) (words : List InsnWord) : Nat → Except State (List InsnWord)
  | 0 => .ok words
  | n + 1 =>
    let a := s.me.pc + BitVec.ofNat 64 (4 + 4 * words.length)
    match s.fetchAt s.cur a with
    | .miss => .error ((s.updMe (fun sl => { sl with hold := some (.capture words) })).parkFetch a)
    | .fault c => .error (s.trap c a)
    | .word w =>
      match s.frameCheck w with
      | some t => .error t
      | none => s.captureFrame (words ++ [w]) n

/-- Accepted frame instructions of a slot that have not completed. -/
def State.frameBusy (s : State) (key : Nat) : Bool :=
  let v := s.vc (key / 16)
  (v.accepted 0 ++ v.accepted 1).any (fun q => q.slot == key % 16 && q.pos.isSome)

/-- Words of a frame: the field is one less (Table 02.5). -/
def frameLen (len : BitVec 4) : Nat := len.toNat + 1

/-- REPF at its turn. During the frame the turn only looks whether it has ended: the sequencer presents
(REPF_FRAME_PRESENT). -/
def execRepf (rs1 : XReg) (len : BitVec 4) (_hs _ws : BitVec 3) (s : State) : Out :=
  let p := s.x rs1
  let cnt := bits p 31 0
  let ix := bits p 35 32
  let ph := bits p 38 36
  let start := fun (words : List InsnWord) =>
    match s.captureFrame words (frameLen len - words.length) with
    | .error t => t
    | .ok ws =>
      if cnt == 0 then s.retireTo (s.me.pc + BitVec.ofNat 64 (4 + 4 * frameLen len))
      else s.updMe (fun sl => { sl with hold := some (.frame ws cnt ix ph none) })
  .next (match s.me.hold with
    | some (.frame _ n _ _ stop) =>
      if s.frameBusy s.cur then s
      else (match stop with
        | some (c, t) => s.trap c t
        | none => if n == 0 then s.retireTo (s.me.pc + BitVec.ofNat 64 (4 + 4 * frameLen len)) else s)
    | some (.capture words) => start words
    | _ => if frameLen len ≤ ix then s.illegalI (.repf rs1 len _hs _ws) else start [])

/-- The position after (cnt, ix, ph) in a frame of len words. -/
def nextPos (len cnt ix ph : Nat) : Nat × Nat × Nat :=
  if ix + 1 < len then (cnt, ix + 1, ph) else (cnt - 1, 0, (ph + 1) % 8)

/-- The last entry of an engine's queue gets its frame position. -/
def VCore.markFrame (v : VCore) (e n : Nat) (pos : Nat × Nat × Nat) : VCore :=
  let q := v.queueOf e
  if q.length == n then v
  else { v with queue := FMap.set v.queue e (q.take n ++ (q.drop n).map (fun x => { x with pos := some pos })) }

/-- The sequencer may present: nothing has stopped the frame, no interrupt or fault is to be taken, no hold waits. -/
def State.canPresent (s : State) (key : Nat) : Bool :=
  let sl := s.slot key
  sl.st == .issuing && s.clocked key && !sl.asyncReady && !sl.irqReady &&
    !((s.vc (key / 16)).holds.any (fun h => !h.qsce && !(h.kind == .preempt && key % 16 == h.slot))) &&
    (match sl.hold with
     | some (.frame _ cnt _ _ none) => cnt != 0
     | _ => false)

/-- REPF_FRAME_PRESENT of slot ev.key: the next frame instruction is presented. -/
def execRepfFramePresent (s : State) : Out :=
  let s0 := s
  let s := { s with cur := s.ev.key }
  .next (if !s.canPresent s.cur then s0
    else match decode s.me.insn, s.me.hold with
      | .ok (.repf rs1 len hs ws), some (.frame words cnt ix ph none) =>
        (match decode (words.getD ix 0) with
         | .error _ => s0
         | .ok f =>
           let i := stagger f (BitVec.ofNat 3 (ph * hs.toNat)) (BitVec.ofNat 3 (ph * ws.toNat))
           let e := (wGroup i).getD 0
           let n := (s.myVc.queueOf e).length
           match s.acceptW i with
           | .fault c t =>
             { s.updMe (fun sl => { sl with hold := some (.frame words cnt ix ph (some (c, t))) }) with cur := s0.cur }
           | .full => s0
           | .wait _ _ => s0
           | .ok t =>
             let t := t.updMyVc (fun v => v.markFrame e n (cnt, ix, ph))
             let p := nextPos (frameLen len) cnt ix ph
             let t := t.updMe (fun sl => ({ sl with hold := some (.frame words p.1 p.2.1 p.2.2 none) }).writeX rs1
               (progressWord cnt ix ph))
             { t.frameProgress t.vk t.ix with cur := s0.cur })
      | _, _ => s0)

end Sys2Proof.Machine
end

