-- ==== Sys2Proof/Machine/Sarob.lean ====
section
/-! DEFINITION. The Sarob fabric (R340 to R347): routes, the link layer, the end-to-end layer. Other packages are the environment: the
flits they send come in as events, and the flits this package sends stand in its ports. -/

namespace Sys2Proof.Machine

/-! Coordinates and routes (R340, R342). -/

/-- x, y, z and w of a node id. -/
def coordsOf (n : Nat) : List Nat := [n % 4, n / 4 % 4, n / 16 % 32, n / 512 % 32]
def nodeOf (c : List Nat) : Nat := c.getD 0 0 + c.getD 1 0 * 4 + c.getD 2 0 * 16 + c.getD 3 0 * 512

/-- The node one hop from n through port p (X+, X-, Y+, Y-, Z+, Z-, W+, W-); X and Y are meshes, Z and W tori. -/
def neighbour (dims : List Nat) (n p : Nat) : Option Nat :=
  let c := coordsOf n
  let a := p / 2
  let v := c.getD a 0
  let d := dims.getD a 1
  let at_ := fun (x : Nat) => some (nodeOf (c.set a x))
  if p % 2 == 0 then (if v + 1 < d then at_ (v + 1) else if 2 ≤ a && 1 < d then at_ 0 else none)
  else (if 0 < v then at_ (v - 1) else if 2 ≤ a && 1 < d then at_ (d - 1) else none)

/-- The port towards a coordinate on a torus: the shorter way, + on a tie. -/
def torusPort (a v t d : Nat) : Option Nat :=
  if v == t then none
  else if (t + d - v) % d ≤ (v + d - t) % d then some (2 * a) else some (2 * a + 1)

def meshPort (a v t : Nat) : Option Nat := if v == t then none else if v < t then some (2 * a) else some (2 * a + 1)

/-- The port of the next hop from node n to node t, with the detour of R342. -/
def nextHop (dims : List Nat) (dead : List (Nat × Nat)) (n t : Nat) : Option Nat :=
  let c := coordsOf n
  let e := coordsOf t
  let ok := fun (p : Nat) => !dead.contains (n, p) && (neighbour dims n p).isSome
  match torusPort 2 (c.getD 2 0) (e.getD 2 0) (dims.getD 2 1) <|> torusPort 3 (c.getD 3 0) (e.getD 3 0) (dims.getD 3 1) with
  | some p =>
    if ok p then some p
    else
      let side := if (neighbour dims n 0).isSome then 0 else 1
      if ok side then some side else none
  | none => match meshPort 0 (c.getD 0 0) (e.getD 0 0) <|> meshPort 1 (c.getD 1 0) (e.getD 1 0) with
    | some p => if ok p then some p else none
    | none => none

/-- The route from n reaches t within a number of hops. -/
def reaches (dims : List Nat) (dead : List (Nat × Nat)) (t : Nat) : Nat → Nat → Bool
  | 0, n => n == t
  | k + 1, n => n == t || (match nextHop dims dead n t with
    | some p => (match neighbour dims n p with
      | some m => reaches dims dead t k m
      | none => false)
    | none => false)

/-- A route to a node. -/
def State.hasRoute (s : State) (t : Nat) : Bool := reaches s.dims s.deadLinks t 80 s.node

/-- A hop through a port crosses the dateline of its torus. -/
def crosses (dims : List Nat) (n p : Nat) : Bool :=
  let v := (coordsOf n).getD (p / 2) 0
  4 ≤ p && (if p % 2 == 0 then v + 1 == dims.getD (p / 2) 1 else v == 0)

/-! The link layer (R341, R344). -/

def State.port (s : State) (p : Nat) : Port := FMap.getD s.ports p {}
def State.updPort (s : State) (p : Nat) (f : Port → Port) : State := { s with ports := FMap.set s.ports p (f (s.port p)) }

/-- Last sequence received in order. -/
def Port.lack (x : Port) : Nat := (x.expect + 65535) % 65536

/-- The channel whose credits a flit uses; 6 and 7: a link-control flit, which needs none. -/
def channel (f : Flit) : Nat := 2 * flitVn f + (if flitVch f then 1 else 0)

/-- A flit may be sent: the replay buffer has room, its channel a credit, and no flit of its channel waits before it. -/
def Port.canPut (x : Port) (f : Flit) : Bool :=
  decide (x.buffer.length < 512) && (flitVn f == 3 || FMap.getD x.spent (channel f) 0 ≤ Config.linkCredits) &&
    !(x.waiting.any (fun g => channel g == channel f))

/-- A flit given its link sequence and put into the replay buffer, or among those that wait. -/
def Port.put (x : Port) (f : Flit) : Port :=
  if x.canPut f then
    { x with
      next := (x.next + 1) % 65536, buffer := x.buffer ++ [sealFlit (setField (setField f 7 15 0 x.next) 7 31 16 x.lack)],
      spent := if flitVn f == 3 then x.spent else FMap.upd x.spent (channel f) (· + 1) }
  else { x with waiting := x.waiting ++ [f] }

/-- Waiting flits move into the room of the buffer. -/
def Port.refill (x : Port) : Port :=
  x.waiting.foldl (fun y f => y.put f) { x with waiting := [] }

/-- Flits up to a link sequence are acknowledged. -/
def Port.acked (x : Port) (lack : Nat) : Port :=
  let left := x.buffer.filter (fun f => !((lack + 65536 - flitLseq f) % 65536 < 512))
  ({ x with buffer := left, replays := if left.length < x.buffer.length then 0 else x.replays }).refill

/-- A link-control flit; a credit return names its channel and a count (log entry 26). -/
def linkFlit (op channel n : Nat) : Flit := [BitVec.ofNat 64 (3 + op * 4), 0, BitVec.ofNat 64 channel, BitVec.ofNat 64 n, 0, 0, 0, 0]

/-- Credits of a channel come back. -/
def Port.credit (x : Port) (c n : Nat) : Port := ({ x with spent := FMap.upd x.spent c (· - n) }).refill

/-- A flit sent on towards a node. -/
def State.forward (s : State) (t : Nat) (f : Flit) : State :=
  match nextHop s.dims s.deadLinks s.node t with
  | some p => s.updPort p (fun x => x.put (if crosses s.dims s.node p then setField f 1 38 38 1 else f))
  | none => s

/-- A NAK flit, which names lack, is sent, once until the expected flit comes. -/
def State.nak (s : State) (p : Nat) : State :=
  s.updPort p (fun x => if x.nakSent then x else ({ x with nakSent := true }).put (linkFlit 0x31 0 0))

/-- The sender of a port replays from lack + 1. -/
def State.replay (s : State) (p lack : Nat) : State :=
  s.updPort p (fun x =>
    let y := x.acked lack
    { y with replays := if y.buffer.isEmpty then 0 else y.replays + 1 })

/-- Two flits belong to one message: the second follows the first. -/
def follows (a b : Flit) : Bool :=
  a.getD 0 0 == b.getD 0 0 && flitDvc a == flitDvc b && flitSvc a == flitSvc b && flitNfl a == flitNfl b + 1

/-- A flit for this package joins the message it continues, or begins one. -/
def joinFlit (l : List (List Flit)) (f : Flit) : List (List Flit) :=
  match l.find? (fun g => (g.getLast?).any (fun a => follows a f)) with
  | some g => l.map (fun x => if x == g then x ++ [f] else x)
  | none => l ++ [[f]]

/-- A flit accepted in order at port p: link control acts here; any other goes on or has arrived, and its credit goes back. -/
def State.takeFlit (s : State) (p : Nat) (f : Flit) : State :=
  if !opAssigned (flitVn f) (flitOp f) then s.updPort p (fun x => { x with errors := x.errors + 1 })
  else if flitVn f == 3 then
    (match flitOp f with
     | 0x31 => s.replay p (flitLack f)
     | 0x32 => s.updPort p (fun x => x.credit (f.getD 2 0).toNat (f.getD 3 0).toNat)
     | _ => s)
  else
    let t := s.updPort p (fun x => x.put (linkFlit 0x32 (channel f) 1))
    if flitDnode f == s.node then { t with arrived := joinFlit t.arrived f } else t.forward (flitDnode f) f

/-- SAROB_FLIT_RECEIVE at port ev.key of the flit ev.data. -/
def execSarobFlitReceive (s : State) : Out :=
  let p := s.ev.key
  let f := s.ev.data
  let x := s.port p
  .next (if x.link != .up then s
    else if !crcOk f then s.nak p
    else if flitLseq f == x.expect then
      (s.updPort p (fun x => ({ x with expect := (x.expect + 1) % 65536, nakSent := false }).acked (flitLack f))).takeFlit p f
    else if (x.expect + 65536 - flitLseq f) % 65536 ≤ 32768 then s
    else s.nak p)

/-- SAROB_NAK_REPLAY: a NAK that names ev.val reaches port ev.key. -/
def execSarobNakReplay (s : State) : Out :=
  .next (if (s.port s.ev.key).link == .up then s.replay s.ev.key (s.ev.val.toNat % 65536) else s)

/-- SAROB_LINK_DOWN of port ev.key after 16 replays without progress. -/
def execSarobLinkDown (s : State) : Out :=
  let x := s.port s.ev.key
  .next (if x.link == .up && 16 ≤ x.replays then s.updPort s.ev.key (fun x => { x with link := .retraining, downAt := s.now }) else s)

/-- SAROB_LINK_UP: retraining has succeeded within 1 ms; what is not acknowledged is replayed. -/
def execSarobLinkUp (s : State) : Out :=
  let x := s.port s.ev.key
  .next (if x.link == .retraining && s.now < x.downAt + 1000 * usUnits then
      s.updPort s.ev.key (fun x => { x with link := .up, replays := 0 })
    else s)

/-- SAROB_LANE_FAIL: port ev.key runs at 4 lanes. -/
def execSarobLaneFail (s : State) : Out :=
  .next (if s.ev.key < 8 then s.updPort s.ev.key (fun x => { x with lanes := 4 }) else s)

/-! The end-to-end layer (R345, R346). -/

/-- The flits of a message, on their way to its node. -/
def State.transmit (s : State) (m : Msg) (eseq : Nat) : State :=
  match m.dst.nodeOf with
  | some n => (s.flitsOf m eseq ((s.ownTokenOf m).isSome)).foldl (fun t f => t.forward n f) s
  | none => s

def retryTime : Nat := 100 * usUnits

/-- Message n of the networks may leave the package: it is the first of its pair and network. -/
def State.leaves? (s : State) (n : Nat) : Option (Msg × Nat) :=
  match s.msg? n with
  | none => none
  | some m =>
    let first := m.body.unordered || !((s.net.take n).any (fun x => x.src == m.src && x.dst == m.dst && x.net == m.net && !x.body.unordered))
    if first && !s.mustMiss m then m.dst.nodeOf.map (fun d => (m, d)) else none

/-- A release or expiry notice to another package waits until the stores held on its token have been taken there: they travel on
another network (R412, log entry 87). -/
def State.noticeWaits (s : State) (m : Msg) (d : Nat) : Bool :=
  let held := fun (tok : Nat) => s.heldOnWay m.src m.dst tok ||
    (s.out (pairKey d 0)).sent.any (fun x => x.msg.src == m.src && x.msg.dst == m.dst && x.msg.body.heldOn == some tok)
  match m.body with
  | .release tok => held tok
  | .expiry tok => held tok
  | _ => false

/-- The source endpoint takes a message: to an unreachable node it is answered at once; the request and control networks are
sequenced, with at most 1,024 flits not acknowledged. -/
def State.depart (s : State) (n : Nat) : State :=
  match s.leaves? n with
  | none => s
  | some (m, d) =>
    let t := s.dropMsg n
    let k := pairKey d (vnetCode m.net)
    if s.unreachable.contains d then t.answerError m nvcBit
    else if s.noticeWaits m d then s
    else if m.net == .reply then t.transmit m 0
    else if 1024 < s.unackedFlits k + (s.flitsOf m 0 false).length then s
    else
      let e := (s.out k).next
      (t.updOut k (fun o => { o with
        next := (e + 1) % 65536, sent := o.sent ++ [{ eseq := e, msg := m, due := s.now + retryTime }] })).transmit m e

/-- A request that expects a reply or a landing acknowledgement. -/
def Body.expects : Body → Bool
  | .load _ _ _ _ => true
  | .store _ _ _ _ _ => true
  | .atomic _ _ _ _ _ _ _ _ _ => true
  | .enqueue _ _ _ => true
  | .copyRead _ _ _ _ => true
  | .copyWrite _ _ _ _ _ => true
  | _ => false

/-- A request whose answer travels on the reply network. -/
def Body.replies : Body → Bool
  | .load _ _ _ _ => true
  | .atomic _ _ _ _ _ _ _ _ _ => true
  | .copyRead _ _ _ _ => true
  | _ => false

/-! Arrivals. -/

/-- The destination of a message from another package (R290). -/
def State.localDest (s : State) (f : Flit) : Dest :=
  let v := flitDvc f
  if 0xF00 ≤ v then .sig (v - 0xF00)
  else match s.gangs.find? (fun (g : Nat × Gang) => flitJob f != 0 && g.2.job == flitJob f) with
    | some g => .vc (vkey g.1 v)
    | none => .vc v

def farSource (f : Flit) : Dest :=
  if 0xF00 ≤ flitSvc f then .farSig (flitSnode f) (flitSvc f - 0xF00) else .farVc (flitSnode f) (flitJob f) (flitSvc f)

/-- The request an answer names: of this virtual core and slot, by its sequence end to end, pointer and atomic sequence. -/
def Sent.answeredBy (x : Sent) (dst : Dest) (slot id : Nat) : Bool :=
  x.msg.src == dst && x.msg.body.tags.1 == slot && id == idOf x.msg.body.askedFor.1 x.msg.body.askedFor.2 x.eseq
/-- The answered request, taken off the list. -/
def State.answered (s : State) (f : Flit) (w : List Word) : Option (Body × State) :=
  let k := pairKey (flitSnode f) 0
  let o := s.out k
  let dst := if flitDvc f == 0 && flitJob f == 0 then Dest.memory else s.localDest f
  let hit := fun (x : Sent) => x.answeredBy dst (flitSlot f) ((w.getD 2 0).toNat + bits (w.getD 3 0) 31 0 * 2 ^ 64)
  match (o.asked ++ o.sent).find? hit with
  | some x => some (x.msg.body, s.updOut k (fun o => { o with asked := o.asked.erase x, sent := o.sent.erase x }))
  | none => none

/-- An answer as a message of this package; a later answer to the same request is discarded. -/
def State.arriveAnswer (s : State) (fs : List Flit) : State :=
  let f := fs.headD []
  let w := flitPayload fs
  let w0 := w.getD 0 0
  match s.answered f w with
  | none => s
  | some (b, t) =>
    let id := b.number
    let body := match flitOp f with
      | 0x10 => Body.loadReply id (flitSlot f) (w0.extractLsb' 16 16) (w.getD 1 0)
      | 0x11 => .atomicReply id (flitSlot f) (bits w0 33 32) (w.getD 1 0) (w0.extractLsb' 34 5)
      | 0x12 => .retry b (bit w0 0)
      | 0x14 => .refusal b
      | _ => .ack id (flitSlot f) (w0.extractLsb' 16 16) (bit w0 0)
    let dst := if flitDvc f == 0 && flitJob f == 0 then Dest.memory else s.localDest f
    t.send { src := farSource f, dst := dst, net := body.net, body := body }

/-- A message of the request or the control network reaches its home; dup: it is a duplicate. -/
def State.arriveAt (s : State) (fs : List Flit) (dup : Bool) : State :=
  let f := fs.headD []
  if flitOp f == 0x20 then s.arriveAnswer fs
  else match bodyOfFlits fs with
    | none => s
    | some b =>
      let b := match b with
        | .atomic id slot seq c p op v cmp d => Body.atomic id slot seq c p op v cmp (d || dup)
        | b => b
      s.send { src := farSource f, dst := s.localDest f, net := vnetOfCode (flitVn f), body := b }

/-- The early arrivals that now follow in order. -/
def State.drainEarly (s : State) (k : Nat) : Nat → State
  | 0 => s
  | n + 1 =>
    let i := FMap.getD s.farIn k ({} : FarIn)
    match i.early.find? (fun e => e.1 == i.expect) with
    | none => s
    | some e =>
      let j : FarIn := { expect := (i.expect + 1) % 65536, early := i.early.filter (fun x => x.1 != e.1) }
      (({ s with farIn := FMap.set s.farIn k j }).arriveAt e.2 false).drainEarly k n

/-- The cumulative acknowledgement, op 0x25, of a pair. -/
def State.ackFlit (s : State) (node vn : Nat) : Flit :=
  let i := FMap.getD s.farIn (pairKey node vn) ({} : FarIn)
  sealFlit [BitVec.ofNat 64 (2 + 0x25 * 4 + node * 2 ^ 8 + s.node * 2 ^ 28), 0,
    BitVec.ofNat 64 ((i.expect + 65535) % 65536 + vn * 65536), 0, 0, 0, 0, 0]

/-- A duplicate passed to its home. -/
def dupPasses (op : Nat) : Bool := op == 0 || op == 1 || op == 5

/-- The destination endpoint delivers a complete message in order, holds it early, or discards it as a duplicate; then it
acknowledges. -/
def State.endpoint (s : State) (n : Nat) : State :=
  match s.arrived[n]? with
  | none => s
  | some fs =>
    let f := fs.headD []
    let t := { s with arrived := s.arrived.eraseIdx n }
    if (fs.getLast?).any (fun g => flitNfl g != 0) || flitOp f == 0x25 then s
    else if flitVn f == 1 then t.arriveAnswer fs
    else
      let k := pairKey (flitSnode f) (flitVn f)
      let i := FMap.getD s.farIn k ({} : FarIn)
      let e := flitEseq f
      let u := if e == i.expect then
          (({ t with farIn := FMap.set t.farIn k { i with expect := (e + 1) % 65536 } }).arriveAt fs false).drainEarly k (i.early.length + 1)
        else if (e + 65536 - i.expect) % 65536 < 32768 then
          (if i.early.any (fun x => x.1 == e) then t
           else { t with farIn := FMap.set t.farIn k { i with early := i.early ++ [(e, fs)] } })
        else if dupPasses (flitOp f) then t.arriveAt fs true
        else t
      u.forward (flitSnode f) (u.ackFlit (flitSnode f) (flitVn f))

/-- ENDPOINT_DELIVERY of arrived message ev.ix; with ev.val = 1 the source endpoint takes message ev.ix of the networks. -/
def execEndpointDelivery (s : State) : Out :=
  .next (if s.ev.val == 1 then s.depart s.ev.ix else s.endpoint s.ev.ix)

/-- END_TO_END_ACKNOWLEDGEMENT, arrived message ev.ix: what it covers is acknowledged; a request waits on for its answer. -/
def execEndToEndAcknowledgement (s : State) : Out :=
  .next (match s.arrived[s.ev.ix]? with
    | none => s
    | some fs =>
      let f := fs.headD []
      if flitOp f != 0x25 then s
      else
        let c := bits (f.getD 2 0) 15 0
        let k := pairKey (flitSnode f) (bits (f.getD 2 0) 17 16)
        let covered := fun (x : Sent) => (c + 65536 - x.eseq) % 65536 < 32768
        ({ s with arrived := s.arrived.eraseIdx s.ev.ix }).updOut k (fun o => { o with
          sent := o.sent.filter (fun x => !covered x),
          asked := o.asked ++ o.sent.filter (fun x => covered x && x.msg.body.expects) }))

/-- RETRANSMISSION_TIMEOUT of pair ev.key, sequence ev.ix: a request whose reply has not come within 100 µs goes out again, at most 8
times without an acknowledgement. -/
def execRetransmissionTimeout (s : State) : Out :=
  let k := s.ev.key
  let o := s.out k
  let due := fun (x : Sent) => x.eseq == s.ev.ix && x.msg.body.replies && x.due ≤ s.now
  let bump := fun (x : Sent) => { x with tries := x.tries + 1, due := s.now + retryTime }
  .next (match o.sent.find? due, o.asked.find? due with
    | some x, _ => if 8 ≤ x.tries then s
      else (s.updOut k (fun o => { o with sent := o.sent.map (fun y => if y == x then bump y else y) })).transmit x.msg x.eseq
    | none, some x =>
      (s.updOut k (fun o => { o with asked := o.asked.map (fun y => if y == x then bump y else y) })).transmit x.msg x.eseq
    | none, none => s)

/-- Every message of a pair that waits for an acknowledgement goes out again (failover). -/
def State.resendPair (s : State) (k : Nat) : State :=
  let s := s.updOut k (fun o => { o with sent := o.sent.map (fun x => { x with tries := x.tries + 1 }) })
  (s.out k).sent.foldl (fun t x => t.transmit x.msg x.eseq) s

/-- SAROB_LINK_FAILED: the link of port ev.key is not up within 1 ms; with ev.val = 1 firmware learns that the link of port ev.ix of
node ev.key has failed. Routes fail over, and what is not acknowledged is sent again. -/
def execSarobLinkFailed (s : State) : Out :=
  let n := if s.ev.val == 1 then s.ev.key else s.node
  let p := if s.ev.val == 1 then s.ev.ix else s.ev.key
  let x := s.port p
  let own := n == s.node
  let late := x.link == .retraining && x.downAt + 1000 * usUnits ≤ s.now
  .next (if s.deadLinks.contains (n, p) || (own && !late) then s
    else
      let back := match neighbour s.dims n p with
        | some m => [(m, p ^^^ 1)]
        | none => []
      let t := { s with deadLinks := s.deadLinks ++ (n, p) :: back }
      let t := if own then t.updPort p (fun x => { x with link := .failed, buffer := [], waiting := [], spent := [] }) else t
      (t.farOut.map Prod.fst).foldl (fun t k => t.resendPair k) t)

/-- NODE_UNREACHABLE: no route leads to node ev.key, or a message to it has been retransmitted 8 times: everything pending for it is
answered with errors. Sequences not acknowledged are used again once a route is restored (log entry 28). -/
def execNodeUnreachable (s : State) : Out :=
  let n := s.ev.key
  let ks := [pairKey n 0, pairKey n 2]
  let tired := ks.any (fun k => (s.out k).sent.any (fun x => 8 ≤ x.tries))
  .next (if s.unreachable.contains n || n == s.node || !(tired || !s.hasRoute n) then s
    else
      let pending := ks.flatMap (fun k => (s.out k).asked ++ (s.out k).sent)
      let t := ks.foldl (fun t k => t.updOut k (fun o =>
        { next := ((o.sent.head?).map Sent.eseq).getD o.next })) { s with unreachable := s.unreachable ++ [n] }
      (pending.foldl (fun t x => t.answerError x.msg nvcBit) t).migUnreachable n)

/-- ROUTE_RESTORED to node ev.key by firmware; with ev.val = 1 the link of port ev.ix of that node works again. -/
def execRouteRestored (s : State) : Out :=
  .next (if s.ev.val == 1 then
      (let back := match neighbour s.dims s.ev.key s.ev.ix with
        | some m => [(m, s.ev.ix ^^^ 1)]
        | none => []
       let gone := (s.ev.key, s.ev.ix) :: back
       let t := { s with deadLinks := s.deadLinks.filter (fun l => !gone.contains l) }
       if s.ev.key == s.node then t.updPort s.ev.ix (fun x => { x with link := .up, replays := 0 }) else t)
    else if s.hasRoute s.ev.key then { s with unreachable := s.unreachable.filter (· != s.ev.key) }
    else s)

end Sys2Proof.Machine
end

