-- ==== Sys2Proof/Machine/Dispatch.lean ====
section
/-! DEFINITION. The dispatch: one arm per constructor of Instr, each a direct call of that instruction's meaning. -/

namespace Sys2Proof.Machine

def exec (i : Instr) (s : State) : Host.Outcome State Fault Refusal :=
  match i with
  | .lui rd imm => Sys2Proof.Machine.execLui rd imm s
  | .auipc rd imm => Sys2Proof.Machine.execAuipc rd imm s
  | .jal rd off => Sys2Proof.Machine.execJal rd off s
  | .jalr rd rs1 imm => Sys2Proof.Machine.execJalr rd rs1 imm s
  | .beq rs1 rs2 off => Sys2Proof.Machine.execBeq rs1 rs2 off s
  | .bne rs1 rs2 off => Sys2Proof.Machine.execBne rs1 rs2 off s
  | .blt rs1 rs2 off => Sys2Proof.Machine.execBlt rs1 rs2 off s
  | .bge rs1 rs2 off => Sys2Proof.Machine.execBge rs1 rs2 off s
  | .bltu rs1 rs2 off => Sys2Proof.Machine.execBltu rs1 rs2 off s
  | .bgeu rs1 rs2 off => Sys2Proof.Machine.execBgeu rs1 rs2 off s
  | .lb rd rs1 imm => Sys2Proof.Machine.execLb rd rs1 imm s
  | .lh rd rs1 imm => Sys2Proof.Machine.execLh rd rs1 imm s
  | .lw rd rs1 imm => Sys2Proof.Machine.execLw rd rs1 imm s
  | .ld rd rs1 imm => Sys2Proof.Machine.execLd rd rs1 imm s
  | .lbu rd rs1 imm => Sys2Proof.Machine.execLbu rd rs1 imm s
  | .lhu rd rs1 imm => Sys2Proof.Machine.execLhu rd rs1 imm s
  | .lwu rd rs1 imm => Sys2Proof.Machine.execLwu rd rs1 imm s
  | .sb rs2 rs1 imm => Sys2Proof.Machine.execSb rs2 rs1 imm s
  | .sh rs2 rs1 imm => Sys2Proof.Machine.execSh rs2 rs1 imm s
  | .sw rs2 rs1 imm => Sys2Proof.Machine.execSw rs2 rs1 imm s
  | .sd rs2 rs1 imm => Sys2Proof.Machine.execSd rs2 rs1 imm s
  | .addi rd rs1 imm => Sys2Proof.Machine.execAddi rd rs1 imm s
  | .slti rd rs1 imm => Sys2Proof.Machine.execSlti rd rs1 imm s
  | .sltiu rd rs1 imm => Sys2Proof.Machine.execSltiu rd rs1 imm s
  | .xori rd rs1 imm => Sys2Proof.Machine.execXori rd rs1 imm s
  | .ori rd rs1 imm => Sys2Proof.Machine.execOri rd rs1 imm s
  | .andi rd rs1 imm => Sys2Proof.Machine.execAndi rd rs1 imm s
  | .slli rd rs1 sh => Sys2Proof.Machine.execSlli rd rs1 sh s
  | .srli rd rs1 sh => Sys2Proof.Machine.execSrli rd rs1 sh s
  | .srai rd rs1 sh => Sys2Proof.Machine.execSrai rd rs1 sh s
  | .add rd rs1 rs2 => Sys2Proof.Machine.execAdd rd rs1 rs2 s
  | .sll rd rs1 rs2 => Sys2Proof.Machine.execSll rd rs1 rs2 s
  | .slt rd rs1 rs2 => Sys2Proof.Machine.execSlt rd rs1 rs2 s
  | .sltu rd rs1 rs2 => Sys2Proof.Machine.execSltu rd rs1 rs2 s
  | .xor rd rs1 rs2 => Sys2Proof.Machine.execXor rd rs1 rs2 s
  | .srl rd rs1 rs2 => Sys2Proof.Machine.execSrl rd rs1 rs2 s
  | .or rd rs1 rs2 => Sys2Proof.Machine.execOr rd rs1 rs2 s
  | .and rd rs1 rs2 => Sys2Proof.Machine.execAnd rd rs1 rs2 s
  | .sub rd rs1 rs2 => Sys2Proof.Machine.execSub rd rs1 rs2 s
  | .sra rd rs1 rs2 => Sys2Proof.Machine.execSra rd rs1 rs2 s
  | .addiw rd rs1 imm => Sys2Proof.Machine.execAddiw rd rs1 imm s
  | .slliw rd rs1 sh => Sys2Proof.Machine.execSlliw rd rs1 sh s
  | .srliw rd rs1 sh => Sys2Proof.Machine.execSrliw rd rs1 sh s
  | .sraiw rd rs1 sh => Sys2Proof.Machine.execSraiw rd rs1 sh s
  | .addw rd rs1 rs2 => Sys2Proof.Machine.execAddw rd rs1 rs2 s
  | .sllw rd rs1 rs2 => Sys2Proof.Machine.execSllw rd rs1 rs2 s
  | .srlw rd rs1 rs2 => Sys2Proof.Machine.execSrlw rd rs1 rs2 s
  | .subw rd rs1 rs2 => Sys2Proof.Machine.execSubw rd rs1 rs2 s
  | .sraw rd rs1 rs2 => Sys2Proof.Machine.execSraw rd rs1 rs2 s
  | .fence fm pred succ rs1 rd => Sys2Proof.Machine.execFence fm pred succ rs1 rd s
  | .fenceI imm rs1 rd => Sys2Proof.Machine.execFenceI imm rs1 rd s
  | .csrrw rd rs1 csr => Sys2Proof.Machine.execCsrrw rd rs1 csr s
  | .csrrs rd rs1 csr => Sys2Proof.Machine.execCsrrs rd rs1 csr s
  | .csrrc rd rs1 csr => Sys2Proof.Machine.execCsrrc rd rs1 csr s
  | .csrrwi rd u csr => Sys2Proof.Machine.execCsrrwi rd u csr s
  | .csrrsi rd u csr => Sys2Proof.Machine.execCsrrsi rd u csr s
  | .csrrci rd u csr => Sys2Proof.Machine.execCsrrci rd u csr s
  | .mul rd rs1 rs2 => Sys2Proof.Machine.execMul rd rs1 rs2 s
  | .mulh rd rs1 rs2 => Sys2Proof.Machine.execMulh rd rs1 rs2 s
  | .mulhsu rd rs1 rs2 => Sys2Proof.Machine.execMulhsu rd rs1 rs2 s
  | .mulhu rd rs1 rs2 => Sys2Proof.Machine.execMulhu rd rs1 rs2 s
  | .div rd rs1 rs2 => Sys2Proof.Machine.execDiv rd rs1 rs2 s
  | .divu rd rs1 rs2 => Sys2Proof.Machine.execDivu rd rs1 rs2 s
  | .rem rd rs1 rs2 => Sys2Proof.Machine.execRem rd rs1 rs2 s
  | .remu rd rs1 rs2 => Sys2Proof.Machine.execRemu rd rs1 rs2 s
  | .mulw rd rs1 rs2 => Sys2Proof.Machine.execMulw rd rs1 rs2 s
  | .divw rd rs1 rs2 => Sys2Proof.Machine.execDivw rd rs1 rs2 s
  | .divuw rd rs1 rs2 => Sys2Proof.Machine.execDivuw rd rs1 rs2 s
  | .remw rd rs1 rs2 => Sys2Proof.Machine.execRemw rd rs1 rs2 s
  | .remuw rd rs1 rs2 => Sys2Proof.Machine.execRemuw rd rs1 rs2 s
  | .lr aq rl wd rd rs1 => Sys2Proof.Machine.execLr aq rl wd rd rs1 s
  | .sc aq rl wd rd rs2 rs1 => Sys2Proof.Machine.execSc aq rl wd rd rs2 rs1 s
  | .amoswap aq rl wd rd rs2 rs1 => Sys2Proof.Machine.execAmoswap aq rl wd rd rs2 rs1 s
  | .amoadd aq rl wd rd rs2 rs1 => Sys2Proof.Machine.execAmoadd aq rl wd rd rs2 rs1 s
  | .amoxor aq rl wd rd rs2 rs1 => Sys2Proof.Machine.execAmoxor aq rl wd rd rs2 rs1 s
  | .amoand aq rl wd rd rs2 rs1 => Sys2Proof.Machine.execAmoand aq rl wd rd rs2 rs1 s
  | .amoor aq rl wd rd rs2 rs1 => Sys2Proof.Machine.execAmoor aq rl wd rd rs2 rs1 s
  | .amomin aq rl wd rd rs2 rs1 => Sys2Proof.Machine.execAmomin aq rl wd rd rs2 rs1 s
  | .amomax aq rl wd rd rs2 rs1 => Sys2Proof.Machine.execAmomax aq rl wd rd rs2 rs1 s
  | .amominu aq rl wd rd rs2 rs1 => Sys2Proof.Machine.execAmominu aq rl wd rd rs2 rs1 s
  | .amomaxu aq rl wd rd rs2 rs1 => Sys2Proof.Machine.execAmomaxu aq rl wd rd rs2 rs1 s
  | .flw rd rs1 imm => Sys2Proof.Machine.execFlw rd rs1 imm s
  | .fld rd rs1 imm => Sys2Proof.Machine.execFld rd rs1 imm s
  | .fsw rs2 rs1 imm => Sys2Proof.Machine.execFsw rs2 rs1 imm s
  | .fsd rs2 rs1 imm => Sys2Proof.Machine.execFsd rs2 rs1 imm s
  | .fmadd t rd rs1 rs2 rs3 rm => Sys2Proof.Machine.execFmadd t rd rs1 rs2 rs3 rm s
  | .fmsub t rd rs1 rs2 rs3 rm => Sys2Proof.Machine.execFmsub t rd rs1 rs2 rs3 rm s
  | .fnmsub t rd rs1 rs2 rs3 rm => Sys2Proof.Machine.execFnmsub t rd rs1 rs2 rs3 rm s
  | .fnmadd t rd rs1 rs2 rs3 rm => Sys2Proof.Machine.execFnmadd t rd rs1 rs2 rs3 rm s
  | .fadd t rd rs1 rs2 rm => Sys2Proof.Machine.execFadd t rd rs1 rs2 rm s
  | .fsub t rd rs1 rs2 rm => Sys2Proof.Machine.execFsub t rd rs1 rs2 rm s
  | .fmul t rd rs1 rs2 rm => Sys2Proof.Machine.execFmul t rd rs1 rs2 rm s
  | .fdiv t rd rs1 rs2 rm => Sys2Proof.Machine.execFdiv t rd rs1 rs2 rm s
  | .fsqrt t rd rs1 rm => Sys2Proof.Machine.execFsqrt t rd rs1 rm s
  | .fsgnj t rd rs1 rs2 => Sys2Proof.Machine.execFsgnj t rd rs1 rs2 s
  | .fsgnjn t rd rs1 rs2 => Sys2Proof.Machine.execFsgnjn t rd rs1 rs2 s
  | .fsgnjx t rd rs1 rs2 => Sys2Proof.Machine.execFsgnjx t rd rs1 rs2 s
  | .fmin t rd rs1 rs2 => Sys2Proof.Machine.execFmin t rd rs1 rs2 s
  | .fmax t rd rs1 rs2 => Sys2Proof.Machine.execFmax t rd rs1 rs2 s
  | .fcvtSD rd rs1 rm => Sys2Proof.Machine.execFcvtSD rd rs1 rm s
  | .fcvtDS rd rs1 rm => Sys2Proof.Machine.execFcvtDS rd rs1 rm s
  | .feq t rd rs1 rs2 => Sys2Proof.Machine.execFeq t rd rs1 rs2 s
  | .flt t rd rs1 rs2 => Sys2Proof.Machine.execFlt t rd rs1 rs2 s
  | .fle t rd rs1 rs2 => Sys2Proof.Machine.execFle t rd rs1 rs2 s
  | .fclass t rd rs1 => Sys2Proof.Machine.execFclass t rd rs1 s
  | .fcvtIntFromFp t v rd rs1 rm => Sys2Proof.Machine.execFcvtIntFromFp t v rd rs1 rm s
  | .fcvtFpFromInt t v rd rs1 rm => Sys2Proof.Machine.execFcvtFpFromInt t v rd rs1 rm s
  | .fmvXFmt t rd rs1 => Sys2Proof.Machine.execFmvXFmt t rd rs1 s
  | .fmvFmtX t rd rs1 => Sys2Proof.Machine.execFmvFmtX t rd rs1 s
  | .fork rd rs1 rs2 => Sys2Proof.Machine.execFork rd rs1 rs2 s
  | .join rs1 => Sys2Proof.Machine.execJoin rs1 s
  | .engbind e => Sys2Proof.Machine.execEngbind e s
  | .engfree e => Sys2Proof.Machine.execEngfree e s
  | .sempost n rs1 => Sys2Proof.Machine.execSempost n rs1 s
  | .semwait n rs1 => Sys2Proof.Machine.execSemwait n rs1 s
  | .semtry rd n rs1 => Sys2Proof.Machine.execSemtry rd n rs1 s
  | .ringset rs1 rs2 => Sys2Proof.Machine.execRingset rs1 rs2 s
  | .ringget rs1 rs2 => Sys2Proof.Machine.execRingget rs1 rs2 s
  | .hbind h rs1 role => Sys2Proof.Machine.execHbind h rs1 role s
  | .hadvh h rs1 => Sys2Proof.Machine.execHadvh h rs1 s
  | .hadvt h rs1 => Sys2Proof.Machine.execHadvt h rs1 s
  | .hwaitf h rs1 => Sys2Proof.Machine.execHwaitf h rs1 s
  | .hwaite h rs1 => Sys2Proof.Machine.execHwaite h rs1 s
  | .hpop rd h => Sys2Proof.Machine.execHpop rd h s
  | .hpush h rs1 => Sys2Proof.Machine.execHpush h rs1 s
  | .ldf rd rs1 => Sys2Proof.Machine.execLdf rd rs1 s
  | .ldfe rd rs1 => Sys2Proof.Machine.execLdfe rd rs1 s
  | .stf rs2 rs1 => Sys2Proof.Machine.execStf rs2 rs1 s
  | .stef rs2 rs1 => Sys2Proof.Machine.execStef rs2 rs1 s
  | .feset rs1 rs2 => Sys2Proof.Machine.execFeset rs1 rs2 s
  | .feclr rs1 rs2 => Sys2Proof.Machine.execFeclr rs1 rs2 s
  | .feget rd rs1 => Sys2Proof.Machine.execFeget rd rs1 s
  | .gbar rd rs1 rs2 => Sys2Proof.Machine.execGbar rd rs1 rs2 s
  | .garrive rs1 rs2 => Sys2Proof.Machine.execGarrive rs1 rs2 s
  | .gwait rd rs1 => Sys2Proof.Machine.execGwait rd rs1 s
  | .wpush h rs1 => Sys2Proof.Machine.execWpush h rs1 s
  | .wpop h rs1 => Sys2Proof.Machine.execWpop h rs1 s
  | .repf rs1 len hs ws => Sys2Proof.Machine.execRepf rs1 len hs ws s
  | .align n => Sys2Proof.Machine.execAlign n s
  | .mcfg acc rs1 => Sys2Proof.Machine.execMcfg acc rs1 s
  | .mzero acc => Sys2Proof.Machine.execMzero acc s
  | .mload n acc h => Sys2Proof.Machine.execMload n acc h s
  | .mout n h acc rs2 => Sys2Proof.Machine.execMout n h acc rs2 s
  | .wpset w rs1 => Sys2Proof.Machine.execWpset w rs1 s
  | .wpget rd w => Sys2Proof.Machine.execWpget rd w s
  | .mma fmt z sp a acc h w fs => Sys2Proof.Machine.execMma fmt z sp a acc h w fs s
  | .mmaN fmt z sp a acc h w fs => Sys2Proof.Machine.execMmaN fmt z sp a acc h w fs s
  | .vadd n t hd ha hb => Sys2Proof.Machine.execVadd n t hd ha hb s
  | .vsub n t hd ha hb => Sys2Proof.Machine.execVsub n t hd ha hb s
  | .vmul n t hd ha hb => Sys2Proof.Machine.execVmul n t hd ha hb s
  | .vfma n t hd ha hb => Sys2Proof.Machine.execVfma n t hd ha hb s
  | .vmac n t ha hb => Sys2Proof.Machine.execVmac n t ha hb s
  | .vmin n t hd ha hb => Sys2Proof.Machine.execVmin n t hd ha hb s
  | .vmax n t hd ha hb => Sys2Proof.Machine.execVmax n t hd ha hb s
  | .vabs n t hd ha => Sys2Proof.Machine.execVabs n t hd ha s
  | .vneg n t hd ha => Sys2Proof.Machine.execVneg n t hd ha s
  | .vcmp c n t hd ha hb => Sys2Proof.Machine.execVcmp c n t hd ha hb s
  | .vsel n t hd ha hb => Sys2Proof.Machine.execVsel n t hd ha hb s
  | .vand n hd ha hb => Sys2Proof.Machine.execVand n hd ha hb s
  | .vor n hd ha hb => Sys2Proof.Machine.execVor n hd ha hb s
  | .vxor n hd ha hb => Sys2Proof.Machine.execVxor n hd ha hb s
  | .vshl n hd ha hb => Sys2Proof.Machine.execVshl n hd ha hb s
  | .vshr n hd ha hb => Sys2Proof.Machine.execVshr n hd ha hb s
  | .vrcp n t hd ha => Sys2Proof.Machine.execVrcp n t hd ha s
  | .vrsq n t hd ha => Sys2Proof.Machine.execVrsq n t hd ha s
  | .vexp2 n t hd ha => Sys2Proof.Machine.execVexp2 n t hd ha s
  | .vlog2 n t hd ha => Sys2Proof.Machine.execVlog2 n t hd ha s
  | .vtanh n t hd ha => Sys2Proof.Machine.execVtanh n t hd ha s
  | .vsig n t hd ha => Sys2Proof.Machine.execVsig n t hd ha s
  | .vexp2X n hd ha => Sys2Proof.Machine.execVexp2X n hd ha s
  | .vlog2X n hd ha => Sys2Proof.Machine.execVlog2X n hd ha s
  | .vcvt n sr sat tgt t hd ha => Sys2Proof.Machine.execVcvt n sr sat tgt t hd ha s
  | .vsplit3 n hd ha => Sys2Proof.Machine.execVsplit3 n hd ha s
  | .vqnt n sr sat tgt t hd ha => Sys2Proof.Machine.execVqnt n sr sat tgt t hd ha s
  | .vreds n t hd ha => Sys2Proof.Machine.execVreds n t hd ha s
  | .vredm n t hd ha => Sys2Proof.Machine.execVredm n t hd ha s
  | .vgath n t hd ha hb => Sys2Proof.Machine.execVgath n t hd ha hb s
  | .vscat n t hd ha hb => Sys2Proof.Machine.execVscat n t hd ha hb s
  | .vperm n t hd ha hb => Sys2Proof.Machine.execVperm n t hd ha hb s
  | .vaccget n hd => Sys2Proof.Machine.execVaccget n hd s
  | .vaccset n ha => Sys2Proof.Machine.execVaccset n ha s
  | .rld rd rs1 => Sys2Proof.Machine.execRld rd rs1 s
  | .rldf rd rs1 => Sys2Proof.Machine.execRldf rd rs1 s
  | .rst rs2 rs1 bt => Sys2Proof.Machine.execRst rs2 rs1 bt s
  | .rstf rs2 rs1 bt => Sys2Proof.Machine.execRstf rs2 rs1 bt s
  | .rstrel sc rs2 rs1 bt => Sys2Proof.Machine.execRstrel sc rs2 rs1 bt s
  | .twait rs1 => Sys2Proof.Machine.execTwait rs1 s
  | .tfree rs1 => Sys2Proof.Machine.execTfree rs1 s
  | .fences sc => Sys2Proof.Machine.execFences sc s
  | .ramoAdd rd rs2 rs1 => Sys2Proof.Machine.execRamoAdd rd rs2 rs1 s
  | .ramoFadd rd rs2 rs1 => Sys2Proof.Machine.execRamoFadd rd rs2 rs1 s
  | .ramoMin rd rs2 rs1 => Sys2Proof.Machine.execRamoMin rd rs2 rs1 s
  | .ramoMax rd rs2 rs1 => Sys2Proof.Machine.execRamoMax rd rs2 rs1 s
  | .ramoSwap rd rs2 rs1 => Sys2Proof.Machine.execRamoSwap rd rs2 rs1 s
  | .ramoCas rd rs2 rs1 rs3 => Sys2Proof.Machine.execRamoCas rd rs2 rs1 rs3 s
  | .tst rd rs2 rs1 => Sys2Proof.Machine.execTst rd rs2 rs1 s
  | .dst rs2 rs1 rs3 => Sys2Proof.Machine.execDst rs2 rs1 rs3 s
  | .dtst rd rs2 rs1 rs3 => Sys2Proof.Machine.execDtst rd rs2 rs1 rs3 s
  | .wenq n h rs1 bt => Sys2Proof.Machine.execWenq n h rs1 bt s
  | .bclose rd bt => Sys2Proof.Machine.execBclose rd bt s
  | .copy n rd rs1 h => Sys2Proof.Machine.execCopy n rd rs1 h s
  | .copymc n rd rs1 h => Sys2Proof.Machine.execCopymc n rd rs1 h s
  | .ltset rs1 rs2 => Sys2Proof.Machine.execLtset rs1 rs2 s
  | .ltget rs1 rs2 => Sys2Proof.Machine.execLtget rs1 rs2 s
  | .fitw rs1 rs2 => Sys2Proof.Machine.execFitw rs1 rs2 s
  | .fitr rd => Sys2Proof.Machine.execFitr rd s
  | .vntrank rd rs1 => Sys2Proof.Machine.execVntrank rd rs1 s
  | .vntsel rd rs1 rs2 => Sys2Proof.Machine.execVntsel rd rs1 rs2 s
  | .vntrack rd rs1 rs2 => Sys2Proof.Machine.execVntrack rd rs1 rs2 s
  | .vntlog rd rs1 rs2 => Sys2Proof.Machine.execVntlog rd rs1 rs2 s
  | .vntmig rd rs1 rs2 => Sys2Proof.Machine.execVntmig rd rs1 rs2 s
  | .migr rd rs1 => Sys2Proof.Machine.execMigr rd rs1 s
  | .segset rs1 rs2 => Sys2Proof.Machine.execSegset rs1 rs2 s
  | .segget rd => Sys2Proof.Machine.execSegget rd s
  | .ctxsav rs1 => Sys2Proof.Machine.execCtxsav rs1 s
  | .ctxrst rs1 => Sys2Proof.Machine.execCtxrst rs1 s
  | .suppost rs1 rs2 => Sys2Proof.Machine.execSuppost rs1 rs2 s
  | .ecall => Sys2Proof.Machine.execEcall s
  | .ebreak => Sys2Proof.Machine.execEbreak s
  | .mret => Sys2Proof.Machine.execMret s
  | .wfi => Sys2Proof.Machine.execWfi s
  | .illegalInstructionWord => Sys2Proof.Machine.execIllegalInstructionWord s
  | .reservedCode => Sys2Proof.Machine.execReservedCode s
  | .interruptTaken => Sys2Proof.Machine.execInterruptTaken s
  | .asyncFaultTaken => Sys2Proof.Machine.execAsyncFaultTaken s
  | .forkSlotStart => Sys2Proof.Machine.execForkSlotStart s
  | .halt => Sys2Proof.Machine.execHalt s
  | .haltedToEmpty => Sys2Proof.Machine.execHaltedToEmpty s
  | .park => Sys2Proof.Machine.execPark s
  | .slotUnpark => Sys2Proof.Machine.execSlotUnpark s
  | .trappedRelease => Sys2Proof.Machine.execTrappedRelease s
  | .guylineEpisodeCompletion => Sys2Proof.Machine.execGuylineEpisodeCompletion s
  | .repfFramePresent => Sys2Proof.Machine.execRepfFramePresent s
  | .wswap => Sys2Proof.Machine.execWswap s
  | .wswapq => Sys2Proof.Machine.execWswapq s
  | .matrixEngineStart => Sys2Proof.Machine.execMatrixEngineStart s
  | .matrixEngineComplete => Sys2Proof.Machine.execMatrixEngineComplete s
  | .vaccz => Sys2Proof.Machine.execVaccz s
  | .vectorEngineStart => Sys2Proof.Machine.execVectorEngineStart s
  | .vectorEngineComplete => Sys2Proof.Machine.execVectorEngineComplete s
  | .engineContextSwitch => Sys2Proof.Machine.execEngineContextSwitch s
  | .remoteLoadAtHome => Sys2Proof.Machine.execRemoteLoadAtHome s
  | .farWaitRelease => Sys2Proof.Machine.execFarWaitRelease s
  | .rldfRetryReissue => Sys2Proof.Machine.execRldfRetryReissue s
  | .remoteLoadReply => Sys2Proof.Machine.execRemoteLoadReply s
  | .rstrelSend => Sys2Proof.Machine.execRstrelSend s
  | .remoteStoreAtHome => Sys2Proof.Machine.execRemoteStoreAtHome s
  | .scopeMissAtBoundary => Sys2Proof.Machine.execScopeMissAtBoundary s
  | .scopeMissReport => Sys2Proof.Machine.execScopeMissReport s
  | .remoteAtomicAtHome => Sys2Proof.Machine.execRemoteAtomicAtHome s
  | .remoteAtomicReply => Sys2Proof.Machine.execRemoteAtomicReply s
  | .landingAcknowledgement => Sys2Proof.Machine.execLandingAcknowledgement s
  | .heldStoreArrival => Sys2Proof.Machine.execHeldStoreArrival s
  | .holdRefusal => Sys2Proof.Machine.execHoldRefusal s
  | .releaseNotice => Sys2Proof.Machine.execReleaseNotice s
  | .tokenExpiry => Sys2Proof.Machine.execTokenExpiry s
  | .expiryNotice => Sys2Proof.Machine.execExpiryNotice s
  | .wenqDelivery => Sys2Proof.Machine.execWenqDelivery s
  | .batchCloseAtDestination => Sys2Proof.Machine.execBatchCloseAtDestination s
  | .batchSummary => Sys2Proof.Machine.execBatchSummary s
  | .copyEngineStart => Sys2Proof.Machine.execCopyEngineStart s
  | .copyComplete => Sys2Proof.Machine.execCopyComplete s
  | .copyFault => Sys2Proof.Machine.execCopyFault s
  | .vintnerRankPerform => Sys2Proof.Machine.execVintnerRankPerform s
  | .vintnerSelectPerform => Sys2Proof.Machine.execVintnerSelectPerform s
  | .vintnerRackPerform => Sys2Proof.Machine.execVintnerRackPerform s
  | .vintnerMemberHeld => Sys2Proof.Machine.execVintnerMemberHeld s
  | .vintnerHoldTimeout => Sys2Proof.Machine.execVintnerHoldTimeout s
  | .vintnerLogPerform => Sys2Proof.Machine.execVintnerLogPerform s
  | .vintnerMigratePerform => Sys2Proof.Machine.execVintnerMigratePerform s
  | .vintnerCompletion => Sys2Proof.Machine.execVintnerCompletion s
  | .qsce => Sys2Proof.Machine.execQsce s
  | .mailboxMessageWrite => Sys2Proof.Machine.execMailboxMessageWrite s
  | .requestEgressAccept => Sys2Proof.Machine.execRequestEgressAccept s
  | .portOutTake => Sys2Proof.Machine.execPortOutTake s
  | .portMessageDelivery => Sys2Proof.Machine.execPortMessageDelivery s
  | .portMessageSpillRelease => Sys2Proof.Machine.execPortMessageSpillRelease s
  | .absentRetryReissue => Sys2Proof.Machine.execAbsentRetryReissue s
  | .trellisLineServe => Sys2Proof.Machine.execTrellisLineServe s
  | .icacheFill => Sys2Proof.Machine.execIcacheFill s
  | .pageWalk => Sys2Proof.Machine.execPageWalk s
  | .levellingTick => Sys2Proof.Machine.execLevellingTick s
  | .levellingEntryArrival => Sys2Proof.Machine.execLevellingEntryArrival s
  | .stallReport => Sys2Proof.Machine.execStallReport s
  | .arbiterBoundary => Sys2Proof.Machine.execArbiterBoundary s
  | .launchPlacement => Sys2Proof.Machine.execLaunchPlacement s
  | .gangReleaseAtCore => Sys2Proof.Machine.execGangReleaseAtCore s
  | .gangEnd => Sys2Proof.Machine.execGangEnd s
  | .migrationQueueDispatch => Sys2Proof.Machine.execMigrationQueueDispatch s
  | .migrationHoldComplete => Sys2Proof.Machine.execMigrationHoldComplete s
  | .migrationStateCopyDone => Sys2Proof.Machine.execMigrationStateCopyDone s
  | .redirectMarker => Sys2Proof.Machine.execRedirectMarker s
  | .migrationResume => Sys2Proof.Machine.execMigrationResume s
  | .migrationRedirectFreed => Sys2Proof.Machine.execMigrationRedirectFreed s
  | .preemptionSaveEnd => Sys2Proof.Machine.execPreemptionSaveEnd s
  | .saveCopyOutDone => Sys2Proof.Machine.execSaveCopyOutDone s
  | .resumptionLoadDone => Sys2Proof.Machine.execResumptionLoadDone s
  | .quiesceCut => Sys2Proof.Machine.execQuiesceCut s
  | .quiescePointTimeout => Sys2Proof.Machine.execQuiescePointTimeout s
  | .cellarImageWritten => Sys2Proof.Machine.execCellarImageWritten s
  | .doorbell => Sys2Proof.Machine.execDoorbell s
  | .queueEnable => Sys2Proof.Machine.execQueueEnable s
  | .queueDisable => Sys2Proof.Machine.execQueueDisable s
  | .completionHeadWrite => Sys2Proof.Machine.execCompletionHeadWrite s
  | .galloc => Sys2Proof.Machine.execGalloc s
  | .gfree => Sys2Proof.Machine.execGfree s
  | .registerWrite => Sys2Proof.Machine.execRegisterWrite s
  | .packetFetch => Sys2Proof.Machine.execPacketFetch s
  | .nopPacket => Sys2Proof.Machine.execNopPacket s
  | .launchPacket => Sys2Proof.Machine.execLaunchPacket s
  | .copyPacket => Sys2Proof.Machine.execCopyPacket s
  | .signalPacket => Sys2Proof.Machine.execSignalPacket s
  | .waitAll => Sys2Proof.Machine.execWaitAll s
  | .waitAny => Sys2Proof.Machine.execWaitAny s
  | .waitEvaluation => Sys2Proof.Machine.execWaitEvaluation s
  | .vintnerPacket => Sys2Proof.Machine.execVintnerPacket s
  | .quiescePacket => Sys2Proof.Machine.execQuiescePacket s
  | .resumePacket => Sys2Proof.Machine.execResumePacket s
  | .freezePacket => Sys2Proof.Machine.execFreezePacket s
  | .packetCompletion => Sys2Proof.Machine.execPacketCompletion s
  | .requestRingDoorbell => Sys2Proof.Machine.execRequestRingDoorbell s
  | .mapRequest => Sys2Proof.Machine.execMapRequest s
  | .unmapRequest => Sys2Proof.Machine.execUnmapRequest s
  | .logbaseRequest => Sys2Proof.Machine.execLogbaseRequest s
  | .peergrantRequest => Sys2Proof.Machine.execPeergrantRequest s
  | .returnRequest => Sys2Proof.Machine.execReturnRequest s
  | .restoreRequest => Sys2Proof.Machine.execRestoreRequest s
  | .attestRequest => Sys2Proof.Machine.execAttestRequest s
  | .powercapRequest => Sys2Proof.Machine.execPowercapRequest s
  | .functionLevelReset => Sys2Proof.Machine.execFunctionLevelReset s
  | .perstRelease => Sys2Proof.Machine.execPerstRelease s
  | .dieSelfTestEnd => Sys2Proof.Machine.execDieSelfTestEnd s
  | .serviceClockChange => Sys2Proof.Machine.execServiceClockChange s
  | .powerControlTick => Sys2Proof.Machine.execPowerControlTick s
  | .junctionOver110c => Sys2Proof.Machine.execJunctionOver110c s
  | .junctionOver120c => Sys2Proof.Machine.execJunctionOver120c s
  | .hostReadFailure => Sys2Proof.Machine.execHostReadFailure s
  | .cxlReadFailure => Sys2Proof.Machine.execCxlReadFailure s
  | .ucieModuleFail => Sys2Proof.Machine.execUcieModuleFail s
  | .sarobLaneFail => Sys2Proof.Machine.execSarobLaneFail s
  | .sarobFlitReceive => Sys2Proof.Machine.execSarobFlitReceive s
  | .sarobNakReplay => Sys2Proof.Machine.execSarobNakReplay s
  | .sarobLinkDown => Sys2Proof.Machine.execSarobLinkDown s
  | .sarobLinkFailed => Sys2Proof.Machine.execSarobLinkFailed s
  | .endpointDelivery => Sys2Proof.Machine.execEndpointDelivery s
  | .endToEndAcknowledgement => Sys2Proof.Machine.execEndToEndAcknowledgement s
  | .retransmissionTimeout => Sys2Proof.Machine.execRetransmissionTimeout s
  | .nodeUnreachable => Sys2Proof.Machine.execNodeUnreachable s
  | .sarobLinkUp => Sys2Proof.Machine.execSarobLinkUp s
  | .routeRestored => Sys2Proof.Machine.execRouteRestored s

end Sys2Proof.Machine
end

