-- ==== Sys2Proof/Machine/Handler.lean ====
section
/-! DEFINITION. The resident handler shipped in the firmware (R201, R261, R355, R388 Table 15.4, R417 Table 19.2). Its code is not
in the spec: a slot at mtvec's reset address issues one instruction of its action each turn; its pc says how many are left, the last but
one does what the action is for, and MRET or HALT is the last (log entry 12). -/

namespace Sys2Proof.Machine

def handlerEntry : Word := 0xF0000
/-- Where the stand-in for the save of R355 has its CTXSAV and its HALT. -/
def handlerSave : Word := 0xF0004
def handlerHalt : Word := 0xF0008

/-- The most instructions of an action, and the end of the words they stand in. -/
def actionMax : Nat := 160
def handlerEnd : Word := 0xF1000

/-- The word of an action with left instructions still to issue, itself included. -/
def handlerAt (left : Nat) : Word := handlerEnd - BitVec.ofNat 64 (4 * left)

/-- The instructions left at a pc within an action. -/
def actionLeft (pc : Word) : Option Nat :=
  let left := (handlerEnd - pc).toNat / 4
  if 1 ≤ left && left ≤ actionMax && pc == handlerAt left then some left else none

/-- The current slot is at the resident handler of its core, as firmware wrote it: at its entry, in an action, or, having taken PRE, at the
CTXSAV or HALT of its save. After a store to its code the words in LM are fetched (R29, R94), as they are at every other pc. -/
def State.inHandler (s : State) : Bool :=
  let c := s.core (s.coreOf s.vk)
  s.me.mode == .m && c.handler && !c.codeChanged &&
    (s.me.pc == handlerEntry || (actionLeft s.me.pc).isSome ||
      (s.myVc.lead == some s.ix && (s.me.pc == handlerSave || s.me.pc == handlerHalt)))

/-- The action stands before the last left instructions. -/
def State.actionAt (s : State) (left : Nat) : State := s.updMe (fun sl => { sl with pc := handlerAt left })

/-- An instruction of the action has issued; left are still to come. -/
def State.actionOn (s : State) (left : Nat) : State := (s.actionAt left).updMe (fun sl => { sl with minstret := sl.minstret + 1 })

/-- MRET, the last instruction of an action. -/
def State.handled (s : State) : State :=
  s.updMe (fun sl => { sl.leave with minstret := sl.minstret + 1, hold := none })

/-- The word of the slot's program at a. -/
def State.codeWord (s : State) (a : Word) : InsnWord :=
  let gid := s.myVc.gid
  let line := a.toNat / 64
  match s.leafOf (s.dieOf s.vk) (s.gang gid).func (64 * line) .fetch (.itlb (trellisOf (s.coreOf s.vk))) with
  | none => s.me.insn
  | some (t, e, lg) =>
    (patchedLine (t.gang gid) line (Memory.bytes t.mem (hbmAddr (leafPa e lg (64 * line))) 64)).getD (a.toNat / 4 % 16) 0

/-- A report of the handler: as SUPPOST issued in M mode; it waits for egress. none: it has to wait. -/
def State.handlerReport (s : State) (kind : Nat) (payload : List Word) : Option State :=
  match s.mailbox s.vk with
  | none => some s
  | some (sk, sslot, ix) =>
    if s.canSend (.vc sk) then
      some (s.emit s.vk s.ix (.vc sk) (.mailbox sslot ix (s.mailWords s.vk kind s.ix 0 0 0 payload)))
    else none

def slotWord (s : State) : Word := BitVec.ofNat 64 s.ix

/-- A return passes n words. -/
def State.pass (s : State) (n : Nat) : State := s.updMe (fun sl => { sl with mepc := sl.mepc + BitVec.ofNat 64 (4 * n) })

/-- ECALL from U mode (Table 19.2). -/
def State.handleEcall (s : State) : State :=
  if s.x 17 == 1 then
    let g := s.coreOf s.vk
    let old := (s.core g).sqfen
    let t := s.updCore g (fun c => { c with sqfen := bit (s.x 10) 0 })
    (t.setX 10 (BitVec.ofNat 64 (bn old))).pass 1
  else (s.setX 10 (BitVec.allOnes 64)).pass 1

/-- mcause 48 (R201). -/
def State.handleBatch (s : State) : State :=
  let rd := (s.codeWord s.me.mepc).extractLsb' 7 5
  (s.setX rd s.me.mtval).pass 1

/-- SMI (R261): FENCES at the record's need scope, then RSTREL at that scope with the recorded pointer and data; the latch is
cleared. none: it has to wait. -/
def State.handleMiss (s : State) : Option State :=
  let a := lmAddr (s.coreOf s.vk) latchOff
  let w := Memory.words s.mem a 4
  let sc := (scopeOf ((w.getD 0 0).extractLsb' 12 3)).getD .fabric
  let bt := bits (w.getD 0 0) 21 20
  let p := w.getD 1 0
  let d := s.target s.vk p
  if !(s.fenced sc).isEmpty || !s.storeRoom bt d then none
  else
    let n := s.issueStore bt d none
    let t := n.2.emit s.vk s.ix d (.store n.1 p (w.getD 2 0) (.release sc s.me.pc) none)
    some (t.storeLm a 0 8)

/-- PRE (R355): the slot's own record as it will resume; then CTXSAV at the engine block address, and HALT. -/
def State.handlePre (s : State) : State :=
  let sl := s.me
  let a := lmAddr (s.coreOf s.vk) (slotRecordOff (barrelPos s.myVc s.ix))
  let w := slotRecord { sl with pc := sl.mepc, mode := sl.mstMPP, mstMIE := sl.mstMPIE } s.myVc.base (recordedState sl)
  let t := { s with mem := Memory.setWords s.mem a w }.wrote a 640
  t.updMe (fun x => { x.writeX 5 (BitVec.ofNat 64 (s.blockOff s.vk)) with
    pc := handlerSave, minstret := x.minstret + 1, hold := none })

/-- A cause of Table 15.4 that the handler does not repair. -/
def reportedOnly (cause : Word) : Bool := !cause.getLsbD 63 && cause != 8 && cause != 26 && cause != 27 && cause != 48

/-- Instructions of the action of a cause: those of Table 19.2, else a free count from the fewest it needs to 160. CTXSAV and HALT of the
save of R355 stand apart. -/
def State.actionCount (s : State) : Nat :=
  let sl := s.me
  let free := fun (low high : Nat) => low + (Config.freeWord s.free).toNat % (high + 1 - low)
  if sl.mcause.getLsbD 63 then
    (match bits sl.mcause 7 0 with
     | 16 => free 1 158
     | 17 => free 4 160
     | 18 => free 1 160
     | _ => free 2 160)
  else match sl.mcause.toNat with
    | 8 => if s.x 17 == 1 then 9 else 5
    | 26 => 6
    | _ => free 2 160

/-- What an action does before its last instruction: Table 15.4 and Table 19.2. none: it has to wait. -/
def State.handlerActs (s : State) : Option State :=
  let sl := s.me
  let info := BitVec.ofNat 64 (s.ix + (if sl.mstMPP == .m then 3 else 0) * 16)
  if sl.mcause.getLsbD 63 then
    (match bits sl.mcause 7 0 with
     | 16 => some s
     | 17 => s.handleMiss
     | 18 => some s
     | _ => some (s.updMe (fun x => { x with mie := x.mie &&& 0b0111#4 })))
  else match sl.mcause.toNat with
    | 8 => some s.handleEcall
    | 26 => some (s.pass 2)
    | 27 => s.handlerReport 0x81 [sl.mtval, sl.mepc, 0, slotWord s]
    | 48 => some s.handleBatch
    | _ => s.handlerReport 0x80 [sl.mcause, sl.mepc, sl.mtval, info]

/-- The last instruction of the action of the cause in mcause: HALT after a report that nothing repairs, else MRET. The save of PRE goes
on. -/
def State.handle (s : State) : Out :=
  if s.me.mcause == BitVec.ofNat 64 (2 ^ 63 + 16) then .next s.handlePre
  else if reportedOnly s.me.mcause then exec .halt s
  else .next s.handled

/-- One instruction of an action of which left are to issue. -/
def State.actionTurn (s : State) (left : Nat) : Out :=
  match left with
  | 0 => s.handle
  | 1 => s.handle
  | 2 => .next (match s.handlerActs with
      | some t => t.actionOn 1
      | none => s.actionAt 2)
  | n + 3 => .next (s.actionOn (n + 2))

/-- A turn of a slot at the handler. -/
def State.handlerTurn (s : State) : Out :=
  match actionLeft s.me.pc with
  | some left => s.actionTurn left
  | none =>
    if s.me.pc == handlerSave then
      exec (.ctxsav 5) (s.updMe (fun sl => { sl with insn := insnWord (.ctxsav 5) }))
    else if s.me.pc == handlerHalt then exec .halt s
    else { s with free := s.free + 1 }.actionTurn s.actionCount

end Sys2Proof.Machine
end

