-- ==== Sys2Proof/Machine/Turn.lean ====
section
/-! DEFINITION. One turn of the barrel (R42 to R48): what a slot does at its position, from the holds, faults and interrupts that
come before its instruction (R98, R246, R248, R328, R354) to the word it fetches, decodes and presents (R71, R297). -/

namespace Sys2Proof.Machine

/-- An accepted frame instruction of the current slot is in progress. -/
def State.frameRuns (s : State) : Bool :=
  [s.myVc.runOf 0, s.myVc.runOf 1].any (fun r => r.any (fun r => r.entry.slot == s.ix && r.entry.pos.isSome))

/-- A REPF that is capturing, or none of whose accepted frame instructions is still to complete, can be left (R125). Under CTXSAV's
freeze those not in progress stay in their queues, as R240 has them (log entry 84). -/
def State.repfIdle (s : State) : Bool :=
  match s.me.hold with
  | some (.capture _) => true
  | some (.frame _ _ _ _ _) => !s.frameBusy s.cur || (s.myVc.frozen && !s.frameRuns)
  | _ => false

/-- A REPF that is left while frozen engines keep frame instructions of it: its progress register names the first instruction that no
engine has, so that none runs twice (R126; DESIGN CHOICE, log entry 84). -/
def State.leaveFrame (s : State) : State :=
  match s.me.hold with
  | some (.frame _ cnt ix ph _) =>
    if s.frameBusy s.cur then s.updMe (fun sl => sl.writeX (sl.insn.extractLsb' 15 5) (progressWord cnt ix ph)) else s
  | _ => s

/-- An engine instruction waits for a place in its queue: it has had no effect (R45). -/
def State.atQueue (s : State) : Bool := s.me.hold == some .engine

/-- The current slot is at an instruction boundary. One held on the queue of a frozen engine can be taken with its instruction
unissued, since nothing else would let CTXSAV's save end (R45, R240; DESIGN CHOICE, log entry 84). -/
def State.between (s : State) : Bool := s.me.hold.isNone || s.repfIdle || (s.atQueue && s.myVc.frozen)

/-- An interrupt or asynchronous fault can be taken: between instructions, or before an engine instruction is presented again, which
has had no effect so far (R45, R248; DESIGN CHOICE, log entry 84). -/
def State.open_ (s : State) : Bool := s.between || s.atQueue

/-- The hold that takes the current slot at its turn, if one does. -/
def State.turnHold (s : State) : Option HoldReq :=
  s.myVc.holds.find? (fun h => !h.qsce && !(h.kind == .preempt && h.slot == s.ix))

/-- What the word at the pc does. -/
def State.presentWord (s : State) (w : InsnWord) : Out :=
  let e := { s with ev := { val := w.setWidth 64 } }
  match decode w with
  | .ok i => exec i s
  | .error .reservedCode =>
    if s.me.mode == .u then exec .reservedCode e else exec .illegalInstructionWord e
  | .error _ => exec .illegalInstructionWord e

/-- Before an instruction issues: the slot goes on in the line of its pc, and its word is kept while it is in progress. -/
def State.startWord (s : State) (w : InsnWord) : State := (s.prefetch s.me.pc).updMe (fun sl => { sl with insn := w })

/-- Fetch at the pc; a word that has not arrived parks the slot. -/
def State.fetchTurn (s : State) : Out :=
  let a := s.me.pc
  match s.fetchAt s.cur a with
  | .miss => .next (s.parkFetch a)
  | .fault c => .next (s.trap c a)
  | .word w => (s.startWord w).presentWord w

/-- The turn of an issuing slot. -/
def State.slotTurn (s : State) : Out :=
  let sl := s.me
  match sl.hold, sl.reply with
  | some (.busy n), _ => .next (s.updMe (fun x => { x with hold := if n ≤ 1 then none else some (.busy (n - 1)) }))
  | _, some p => .next (s.trap 5 p)
  | _, none =>
    match s.between, s.turnHold with
    | true, some h =>
      let t := s.leaveFrame
      .next ((t.seize t.cur (t.me.seize h.kind) h).sweep t.vk)
    | _, _ =>
      if s.open_ && sl.asyncReady then exec .asyncFaultTaken s.leaveFrame
      else if s.open_ && sl.irqReady then exec .interruptTaken s.leaveFrame
      else if sl.hold.isSome then s.presentWord sl.insn
      else if s.inHandler then s.handlerTurn
      else s.fetchTurn

/-- A slot has its turn in the current cycle of its die (R42). -/
def State.atTurn (s : State) (key : Nat) : Bool :=
  let v := s.vc (key / 16)
  v.live && v.place.isSome && s.clocked key && s.cycOf (key / 16) % 16 == barrelPos v (key % 16)

/-- After a turn: a slot that goes elsewhere than to the next word, or whose line has been invalidated, requests the line it goes
to. -/
def State.afterTurn (s : State) (key : Nat) (pc : Word) : State :=
  let sl := s.slot key
  if sl.st == .issuing && ((sl.pc != pc && sl.pc != pc + 4) || (sl.lineOf (pc.toNat / 64)).isNone) then s.wantLine key else s

/-- What follows a next state. -/
def andThen (o : Out) (f : State → State) : Out :=
  match o with
  | .next t => .next (f t)
  | .fault r => .fault r
  | .refused r => .refused r

/-- The first slot of turns has its turn; one that is not ISSUING, or has stopped or moved meanwhile, leaves a bubble. -/
def State.turn (s : State) (key : Nat) (rest : List Nat) : Out :=
  let t := { s with cur := key, turns := rest }
  if t.me.st == .issuing && t.atTurn key then andThen t.slotTurn (fun u => u.afterTurn key t.me.pc) else .next t

end Sys2Proof.Machine
end

