-- ==== Sys2Proof/Machine/Tick.lean ====
section
/-! DEFINITION. Time (R42, R99, R386): the die whose next cycle comes first advances, and the slots whose barrel position that cycle
is get their turns. -/

namespace Sys2Proof.Machine

/-- Dies whose clocks run: up, and not stopped by FREEZE. -/
def State.running (s : State) : List (Nat × Die) := s.dies.filter (fun (p : Nat × Die) => p.2.up && !p.2.frozen)

/-- The running die whose next cycle comes first; of equals, the one with the lowest number. -/
def State.nextDie (s : State) : Option (Nat × Die) :=
  s.running.find? (fun p => s.running.all (fun q => p.2.nextAt ≤ q.2.nextAt))

/-- A die's next cycle. A new clock takes effect at a rotation boundary (R386); the change to the service clock ends the bring-up clock
(R383). -/
def Die.cycle (x : Die) : Die :=
  let c := x.cyc + 1
  let change := c % 16 == 0 && decide (x.changeAt ≤ x.nextAt)
  let clock := if change then x.newClock.getD x.clock else x.clock
  { x with cyc := c, clock := clock, newClock := if change then none else x.newClock, bringup := x.bringup && !(change && x.service),
           nextAt := x.nextAt + period clock }

/-- Every L-die has changed to the service clock: svc = 2 (R383, step 4). -/
def State.inService (s : State) : State :=
  if s.svc == 1 && s.dies.any (fun (p : Nat × Die) => p.2.service) && s.dies.all (fun (p : Nat × Die) => !p.2.bringup) then { s with svc := 2 }
  else s

/-- Keys of the slots of the virtual cores that a die hosts. -/
def State.slotsOn (s : State) (d : Nat) : List Nat :=
  (s.slots.filter (fun (p : Nat × Slot) =>
    let v := s.vc (p.1 / 16)
    v.live && v.place.any (fun g => g / 256 == d))).map Prod.fst

/-- mcycle counts the cycles in which a slot is not EMPTY (R99) and its core is not stopped (R365). -/
def State.countCycle (s : State) (d : Nat) : State :=
  let on := s.slotsOn d
  s.mapSlots (fun k sl => if on.contains k && sl.st != .empty && s.clocked k then { sl with mcycle := sl.mcycle + 1 } else sl)

/-- Stopped cores of a die run again at a rotation boundary (R365). -/
def State.thawCores (s : State) (d : Nat) : State :=
  if (s.die d).cyc % 16 != 0 then s
  else { s with cores := s.cores.map (fun (p : Nat × PCore) =>
      (p.1, if p.1 / 256 == d && p.2.thaw.any (fun t => t ≤ s.now) then { p.2 with frozen := false, thaw := none } else p.2)) }

/-- One cycle of one die; with every clock stopped, 10 ns of the package time base. -/
def State.tick (s : State) : State :=
  match s.nextDie with
  | none => if s.boot == .running then { s with now := s.now + timeUnit } else s
  | some (d, x) =>
    let t := (({ s with now := x.nextAt }.setDie d x.cycle).inService.thawCores d).countCycle d
    let t := (t.vcs.filter (fun (p : Nat × VCore) => p.2.live && p.2.place.any (fun g => g / 256 == d))).foldl
      (fun t p => (t.stallClock p.1).freezeHeld p.1) t
    { t with turns := (t.slotsOn d).filter t.atTurn }

end Sys2Proof.Machine
end

