-- ==== Sys2Proof/Machine/Auto.lean ====
section
/-! DEFINITION. The default order of events (log entry 7): when the agenda names none, the first event that would change the state
happens, and the barrel goes on when there is none. Events that come from outside the package happen only from the agenda. -/

namespace Sys2Proof.Machine

/-- An event with its operands. -/
abbrev Cand := Instr × Ev

def at_ (i : Instr) (key : Nat) : Cand := (i, { key := key })
def atIx (i : Instr) (key ix : Nat) : Cand := (i, { key := key, ix := ix })
def atVal (i : Instr) (key : Nat) (val : Word) : Cand := (i, { key := key, val := val })

/-- What may happen to a message in the networks. -/
def Body.events : Body → List Instr
  | .load _ _ _ _ => [.remoteLoadAtHome]
  | .store _ _ _ _ none => [.scopeMissAtBoundary, .remoteStoreAtHome]
  | .store _ _ _ _ (some _) => [.heldStoreArrival]
  | .atomic _ _ _ _ _ _ _ _ _ => [.remoteAtomicAtHome]
  | .close _ _ => [.batchCloseAtDestination]
  | .enqueue _ _ _ => []
  | .port _ _ _ => [.portMessageDelivery]
  | .mailbox _ _ _ => [.mailboxMessageWrite]
  | .level _ _ _ => [.levellingEntryArrival]
  | .loadReply _ _ _ _ => [.remoteLoadReply]
  | .atomicReply _ _ _ _ _ => [.remoteAtomicReply]
  | .summary _ _ => [.batchSummary]
  | .retry _ _ => [.rldfRetryReissue, .absentRetryReissue]
  | .refusal _ => [.holdRefusal]
  | .ack _ _ _ _ => [.landingAcknowledgement]
  | .release _ => [.releaseNotice]
  | .expiry _ => [.expiryNotice]
  | .scopeMiss _ _ => [.scopeMissReport]
  | .copyRead _ _ _ _ => [.remoteLoadAtHome]
  | .copyWrite _ _ _ _ _ => [.remoteStoreAtHome]
  | .rackWrite _ _ _ => []
  | .vntControl _ _ _ => []
  | .marker _ _ => [.redirectMarker]
  | .guyline _ _ => []
  | .arrive _ _ => []

/-- The event that takes a message with ev.val = 1. -/
def Body.eventsOne : Body → List Instr
  | .enqueue _ _ _ => [.wenqDelivery]
  | .rackWrite _ _ _ => [.vintnerRackPerform]
  | .vntControl _ _ _ => [.vintnerMigratePerform]
  | .guyline _ _ => [.guylineEpisodeCompletion]
  | .arrive _ _ => [.guylineEpisodeCompletion]
  | _ => []

/-- Candidates of message n: at its destination, on its way out of the package, or into the hold queue of a moved virtual core. -/
def msgCands (n : Nat) (m : Msg) : List Cand :=
  m.body.events.map (fun i => (i, { ix := n })) ++
    (m.body.eventsOne ++ [Instr.endpointDelivery, .redirectMarker]).map (fun i => (i, { ix := n, val := 1 }))

def slotCands (k : Nat) : List Cand :=
  [at_ .haltedToEmpty k, at_ .forkSlotStart k, at_ .slotUnpark k, at_ .trappedRelease k, at_ .repfFramePresent k]

/-- Candidates of a virtual core. -/
def vcCands (k : Nat) (v : VCore) : List Cand :=
  [at_ .matrixEngineComplete k, at_ .matrixEngineStart k, at_ .vectorEngineComplete k, at_ .vectorEngineStart k,
   at_ .copyFault k, at_ .copyComplete k, at_ .copyEngineStart k, at_ .wenqDelivery k, at_ .rstrelSend k,
   at_ .farWaitRelease k, atVal .rldfRetryReissue k 1, atVal .absentRetryReissue k 1, at_ .portOutTake k,
   at_ .migrationHoldComplete k, at_ .migrationStateCopyDone k, at_ .migrationResume k, atVal .migrationResume k 1,
   at_ .preemptionSaveEnd k, at_ .saveCopyOutDone k, at_ .resumptionLoadDone k, at_ .stallReport k] ++
  v.tokens.map (fun (t : Nat × Token) => atIx .tokenExpiry k t.1) ++
  (List.range v.holdQ.length).flatMap (fun n =>
    [(Instr.wenqDelivery, ({ key := k, ix := n, val := 2 } : Ev)), (Instr.heldStoreArrival, ({ key := k, ix := n, val := 1 } : Ev))])

def coreCands (g : Nat) : List Cand :=
  [at_ .requestEgressAccept g, at_ .portMessageSpillRelease g, atVal .scopeMissReport g 1] ++
    (List.range 4).map (atIx .engineContextSwitch g)

def dieCands (d : Nat) (x : Die) : List Cand :=
  [atVal .farWaitRelease d 1] ++
  x.reqs.map (fun r => atIx .trellisLineServe d r.trellis) ++
  (List.range x.reqs.length).map (atIx .icacheFill d) ++
  x.redirs.map (fun (r : Nat × Redirect) => atIx .migrationRedirectFreed d r.1) ++
  [at_ .migrationQueueDispatch d, at_ .levellingTick d, at_ .arbiterBoundary d]

def gangCands (k : Nat) (g : Gang) : List Cand :=
  [at_ .launchPlacement k] ++ g.toRelease.map (fun c => atIx .gangReleaseAtCore c k) ++ [at_ .gangEnd k]

def opCands (o : VOp) : List Cand :=
  [at_ .vintnerRankPerform o.id, at_ .vintnerSelectPerform o.id, at_ .vintnerRackPerform o.id, at_ .vintnerLogPerform o.id,
   at_ .vintnerMigratePerform o.id, at_ .vintnerCompletion o.id] ++
  o.members.flatMap (fun m => [atIx .vintnerMemberHeld o.id m, atIx .vintnerHoldTimeout o.id m])

/-- Candidates of a packet in progress. A COPY moves all its words. -/
def packetCands (k : Nat) (p : Packet) : List Cand :=
  [(.quiescePacket, { key := k, ix := p.index, val := 1 }), (.freezePacket, { key := k, ix := p.index, val := 1 }),
   atIx .quiesceCut k p.index, atIx .quiescePointTimeout k p.index, atIx .cellarImageWritten k p.index,
   (.copyPacket, { key := k, ix := p.len / 8 + 1, val := 1 })]

def queueCands (k : Nat) (q : Queue) : List Cand :=
  q.issued.flatMap (packetCands k) ++
  [at_ .packetCompletion k, at_ .packetFetch k, at_ .nopPacket k, at_ .launchPacket k, at_ .copyPacket k, at_ .signalPacket k,
   at_ .waitAll k, at_ .waitAny k, at_ .waitEvaluation k, at_ .vintnerPacket k, at_ .quiescePacket k, at_ .resumePacket k,
   at_ .freezePacket k]

def funcCands (f : Nat) : List Cand :=
  [at_ .mapRequest f, at_ .unmapRequest f, at_ .logbaseRequest f, at_ .peergrantRequest f, at_ .returnRequest f,
   at_ .restoreRequest f, at_ .attestRequest f, at_ .powercapRequest f]

/-- Candidates of the fabric: arrivals, retransmissions, ports whose links are down. -/
def State.farCands (s : State) : List Cand :=
  (List.range s.arrived.length).flatMap (fun n =>
    [(.endToEndAcknowledgement, { ix := n }), (.endpointDelivery, { ix := n })]) ++
  s.farOut.flatMap (fun (p : Nat × FarOut) =>
    (p.2.sent ++ p.2.asked).map (fun x => atIx .retransmissionTimeout p.1 x.eseq) ++ [at_ .nodeUnreachable (p.1 / 4)]) ++
  s.ports.flatMap (fun (p : Nat × Port) => [at_ .sarobLinkDown p.1, at_ .sarobLinkFailed p.1])

/-- Every event that the package itself may make now, in the default order. -/
def State.candidates (s : State) : List Cand :=
  s.slots.flatMap (fun (p : Nat × Slot) => slotCands p.1) ++
  s.groups.map (fun (p : Nat × Group) => at_ .guylineEpisodeCompletion p.1) ++
  s.net.zipIdx.flatMap (fun p => msgCands p.2 p.1) ++
  s.vcs.flatMap (fun (p : Nat × VCore) => vcCands p.1 p.2) ++
  s.cores.flatMap (fun (p : Nat × PCore) => coreCands p.1) ++
  s.gangs.flatMap (fun (p : Nat × Gang) => gangCands p.1 p.2) ++
  s.vops.flatMap opCands ++
  s.dies.flatMap (fun (p : Nat × Die) => dieCands p.1 p.2) ++
  s.queues.flatMap (fun (p : Nat × Queue) => queueCands p.1 p.2) ++
  s.queues.flatMap (fun (p : Nat × Queue) => (List.range s.net.length).map (fun n =>
    (Instr.signalPacket, ({ key := p.1, ix := n, val := 1 } : Ev)))) ++
  s.funcs.flatMap (fun (p : Nat × Func) => funcCands p.1) ++
  s.farCands ++ [at_ .serviceClockChange 0]

/-- The state after a candidate, when it changes the state beyond its operands. -/
def State.tryEvent (s : State) (c : Cand) : Option State :=
  match exec c.1 { s with ev := c.2 } with
  | .next t => if t == { s with ev := c.2 } then none else some t
  | _ => none

/-- The first event that happens by itself now. -/
def State.autoEvent (s : State) : Option State := s.candidates.findSome? s.tryEvent

end Sys2Proof.Machine
end

