-- ==== Sys2Proof/Machine/Barrel.lean ====
section
/-! DEFINITION. What a step does (log entry 2), and where the next instruction comes from (log entry 5). -/

namespace Sys2Proof.Machine

/-- The barrel: the next turn of the current cycle, or the next cycle. -/
def State.barrel (s : State) : Out :=
  match s.turns with
  | key :: rest => s.turn key rest
  | [] => .next s.tick

/-- One step: what the agenda names; without an agenda an event that happens by itself, or the barrel. -/
def State.advance (s : State) : Out :=
  match s.agenda with
  | .event i e :: rest => exec i { s with ev := e, agenda := rest }
  | .turn :: rest => ({ s with agenda := rest }).barrel
  | [] => match s.autoEvent with
    | some t => .next t
    | none => s.barrel

/-- A line of code with the word w at address a. -/
def lineWith (a : Word) (w : InsnWord) : Line :=
  { ix := a.toNat / 64, words := (List.replicate 16 0).set (a.toNat / 4 % 16) w }

/-- The slot s.cur is ISSUING on a running core, its turn is next, and the code line it holds has w at its pc. -/
def State.placeWord (s : State) (w : InsnWord) : State :=
  let key := s.cur
  let vk := key / 16
  let v := { s.vc vk with live := true, place := some (s.coreOf vk), holds := [] }
  let g := s.coreOf vk
  let s := { s with
    boot := if s.boot == Boot.rejected then Boot.running else s.boot,
    agenda := .turn :: s.agenda, turns := key :: s.turns }
  let s := (s.setVc vk v).updCore g (fun c => { c with frozen := false })
  let s := s.updDie (g / 256) (fun x => { x with
    up := true, frozen := false, cyc := x.cyc / 16 * 16 + barrelPos v (key % 16) })
  s.updSlot key (fun sl => { sl with
    st := .issuing, mode := if residentPc sl.pc then .u else sl.mode, mip := 0, p27 := [], p30 := none,
    line := some (lineWith sl.pc w), ahead := none, fetchFault := none, park := none, wakeAt := none, hold := none, reply := none })

end Sys2Proof.Machine
end

