-- ==== Sys2Proof/Machine/Step.lean ====
section
/-! DEFINITION. The step of the package, and the placing of an instruction where it fetches its next one. -/

namespace Sys2Proof.Machine

/-- One step. In a package whose boot image was rejected nothing happens any more: an event passes without effect (R384). -/
def step (s : State) : Host.Outcome State Fault Refusal :=
  if s.boot == .rejected then .next { s with agenda := s.agenda.drop 1 } else s.advance

/-- s with an instruction of the table stored where step fetches its next one (log entry 5). -/
def State.withFetchWord (s : State) (nbits w : Nat) : State :=
  s.placeWord (BitVec.ofNat 32 (w % 2 ^ nbits))

end Sys2Proof.Machine
end

