-- ==== Sys2Proof/Safety.lean ====
section
/-! DEFINITION. What counts as a safe run: no step faults or is refused, and the data of the state keeps its form. -/

namespace Sys2Proof

/-- The memory keeps its canonical form. -/
def Machine.State.Inv (s : Machine.State) : Prop := Machine.Memory.wf s.mem = true

/-- A step answers a next state. -/
def goesOn (s : Machine.State) : Prop := ∃ t, Machine.step s = .next t

/-- n steps answer next states, each keeping the form. -/
def safeFor : Nat → Machine.State → Prop
  | 0, s => s.Inv
  | n + 1, s => s.Inv ∧ ∃ t, Machine.step s = .next t ∧ safeFor n t

end Sys2Proof
end

