-- ==== Sys2Proof/Certificates/Slice0/Obligations.lean ====
section
/-! DEFINITION. The statements for the provers. -/

open Sys2Proof Sys2Proof.Machine

/-! What a statement says of a completed instruction. -/

namespace Sys2Proof.Claim

/-- Only the current slot differs, and of it only x[rd], the pc, the count of instructions, the hold and the mark of a GBAR:
x[rd] is v (x0 stays), the pc is p, one more instruction has issued, and neither hold nor mark is left. -/
structure Did (s t : State) (rd : XReg) (v p : Word) : Prop where
  x : ∀ r, t.x r = if r = rd ∧ rd ≠ 0 then v else s.x r
  pc : t.me.pc = p
  count : t.me.minstret = s.me.minstret + 1
  hold : t.me.hold = none
  arrived : t.me.arrived = none
  slot : { t.me with x := s.me.x, pc := s.me.pc, minstret := s.me.minstret, hold := s.me.hold, arrived := s.me.arrived } = s.me
  others : ∀ k, k ≠ s.cur → t.slot k = s.slot k
  rest : { t with slots := s.slots } = s

/-- Memory after the low n bytes of v have been stored at a, and nothing else of memory. -/
def Stored (s t : State) (a n v : Nat) : Prop :=
  ∀ j, Memory.read t.mem j = if a ≤ j ∧ j < a + n then BitVec.ofNat 8 (v / 256 ^ (j - a)) else Memory.read s.mem j

/-- Of the cores no more than the mark that the resident code has been stored to differs (R29, R94). -/
def CodeMarked (s t : State) : Prop := ∀ g, { t.core g with codeChanged := (s.core g).codeChanged } = s.core g

/-- A local store that completes: memory as stored; the reservations of other slots on the words it meets end, and no other of theirs
(R91); SMI may clear, and a store to the resident code is marked; nothing else changes but what completion changes; x[rd] is w. -/
structure StoreDone (s t : State) (a n v : Nat) (rd : XReg) (w : Word) : Prop where
  mem : Stored s t a n v
  x : ∀ r, t.x r = if r = rd ∧ rd ≠ 0 then w else s.x r
  f : ∀ r, t.f r = s.f r
  pc : t.me.pc = s.me.pc + 4
  hold : t.me.hold = none
  arrived : t.me.arrived = none
  slot : { t.me with x := s.me.x, pc := s.me.pc, minstret := s.me.minstret, hold := s.me.hold, arrived := s.me.arrived,
                     resv := s.me.resv, mip := s.me.mip } = s.me
  others : ∀ k, k ≠ s.cur → { t.slot k with resv := (s.slot k).resv, mip := (s.slot k).mip } = s.slot k
  drops : ∀ k w, k ≠ s.cur → (s.slot k).resv = some w → (t.slot k).resv = if a < w + 8 ∧ w < a + n then none else some w
  cores : CodeMarked s t
  rest : { t with slots := s.slots, mem := s.mem, cores := s.cores } = s

/-- Only virtual-core data of the current virtual core, and what a completion changes of the current slot, differ. -/
structure VcDone (s t : State) (v : VCore) (rd : XReg) (w : Word) : Prop where
  vc : t.myVc = v
  vcs : ∀ k, k ≠ s.vk → t.vc k = s.vc k
  x : ∀ r, t.x r = if r = rd ∧ rd ≠ 0 then w else s.x r
  pc : t.me.pc = s.me.pc + 4
  hold : t.me.hold = none
  arrived : t.me.arrived = none
  slot : { t.me with x := s.me.x, pc := s.me.pc, minstret := s.me.minstret, hold := s.me.hold, arrived := s.me.arrived,
                     wakeAt := s.me.wakeAt } = s.me
  others : ∀ k, k ≠ s.cur → { t.slot k with wakeAt := (s.slot k).wakeAt, mip := (s.slot k).mip } = s.slot k
  rest : { t with slots := s.slots, vcs := s.vcs } = s

/-- The slot has parked on a, and nothing else differs. -/
structure Parked (s t : State) (a : Await) : Prop where
  me : t.me = { s.me with st := .parked, park := some a, wakeAt := none }
  others : ∀ k, k ≠ s.cur → t.slot k = s.slot k
  rest : { t with slots := s.slots } = s

/-- The slot has completed with w in x[rd]; of it and of the other slots no more than reservations, mip and wake times differ besides. -/
structure Kept (s t : State) (rd : XReg) (w : Word) : Prop where
  x : ∀ r, t.x r = if r = rd ∧ rd ≠ 0 then w else s.x r
  pc : t.me.pc = s.me.pc + 4
  hold : t.me.hold = none
  arrived : t.me.arrived = none
  slot : { t.me with x := s.me.x, pc := s.me.pc, minstret := s.me.minstret, hold := s.me.hold, arrived := s.me.arrived,
                     resv := s.me.resv, mip := s.me.mip, wakeAt := s.me.wakeAt } = s.me
  others : ∀ k, k ≠ s.cur → { t.slot k with resv := (s.slot k).resv, mip := (s.slot k).mip, wakeAt := (s.slot k).wakeAt } = s.slot k

/-- Besides, one ring of the virtual core differs, which is now q; memory is said apart. -/
structure RingMoved (s t : State) (ix : Nat) (q : Ring) (rd : XReg) (w : Word) : Prop where
  kept : Kept s t rd w
  ring : t.ring s.vk ix = q
  rings : ∀ j, j ≠ ix → t.ring s.vk j = s.ring s.vk j
  vc : { t.myVc with rings := s.myVc.rings } = s.myVc
  vcs : ∀ k, k ≠ s.vk → t.vc k = s.vc k
  cores : CodeMarked s t
  rest : { t with slots := s.slots, vcs := s.vcs, mem := s.mem, cores := s.cores } = s

/-- A trap: the slot is at its handler with the cause, the value and the saved status (R245), and what was in progress ends; a GBAR
that has arrived is remembered for the return (R121; the list of marks is the model's). Nothing else differs. -/
structure Trapped (s t : State) (cause tval epc : Word) : Prop where
  mepc : t.me.mepc = epc
  mcause : t.me.mcause = cause
  mtval : t.me.mtval = tval
  mpie : t.me.mstMPIE = s.me.mstMIE
  mie : t.me.mstMIE = false
  mpp : t.me.mstMPP = s.me.mode
  mode : t.me.mode = .m
  pc : t.me.pc = s.me.mtvec
  resv : t.me.resv = none
  hold : t.me.hold = none
  arrived : t.me.arrived = none
  outer : t.me.outer = (if s.me.arrived = some s.me.pc then s.me.arrived else none) :: s.me.outer
  slot : { t.me with mepc := s.me.mepc, mcause := s.me.mcause, mtval := s.me.mtval, mstMPIE := s.me.mstMPIE, mstMIE := s.me.mstMIE,
                     mstMPP := s.me.mstMPP, mode := s.me.mode, pc := s.me.pc, resv := s.me.resv, hold := s.me.hold,
                     arrived := s.me.arrived, outer := s.me.outer, reply := s.me.reply, fetchFault := s.me.fetchFault } = s.me
  others : ∀ k, k ≠ s.cur → t.slot k = s.slot k
  rest : { t with slots := s.slots } = s

/-- Where a local access of n bytes at ea lies, by the check of R31. -/
def At (s : State) (ea : Word) (n : Nat) (store : Bool) (a : Nat) : Prop :=
  ∃ pa, lmCheck s.me ea n store = .ok pa ∧ a = lmAddr (s.coreOf s.vk) pa

/-- n bytes of memory from a as a number, low byte first. -/
def number (s : State) (a n : Nat) : Nat := ((List.range n).map (fun i => (Memory.read s.mem (a + i)).toNat * 256 ^ i)).sum

end Sys2Proof.Claim

open Sys2Proof.Claim

/-! The machine as a whole. -/

/-- R98 Table 03.5, R29: what reset leaves of what the spec gives a value: mtvec, mcounteren, the thresholds, the
rings invalid, no queue enabled, the reset power limit, package in reset. -/
def Obligations.ResetLeaves : Prop :=
  (∀ k, (State.reset.slot k).st = .empty ∧ (State.reset.slot k).mtvec = 0x000F0000 ∧ (State.reset.slot k).mcounteren = 7 ∧
    (State.reset.slot k).mie = 0 ∧ (State.reset.slot k).mstMIE = false ∧ (State.reset.slot k).qowner.getLsbD 16 = false) ∧
  (∀ vk ix, (State.reset.ring vk ix).valid = false) ∧
  (∀ g, (State.reset.core g).stallthr = 0x00100000 ∧ (State.reset.core g).tokexp = 0x00040000 ∧ (State.reset.core g).sqfen = false) ∧
  (∀ k, (State.reset.queue k).en = false ∧ (State.reset.queue k).pre = true ∧ (State.reset.queue k).weight = 1) ∧
  (∀ d, (State.reset.die d).up = false) ∧ State.reset.boot = .off ∧ State.reset.plim = 6000

/-- The memory after reset has the canonical form. The form is the model's (log entry 4). -/
def Obligations.ResetKeepsForm : Prop := State.reset.Inv

/-- Every step keeps the canonical form of memory. The form is the model's (log entry 4). -/
def Obligations.StepKeepsForm : Prop := ∀ s t : State, s.Inv → step s = .next t → t.Inv

/-- A step whose slot has its turn at a word it holds runs that instruction: the word decodes to i, and the step is
exec i, after the slot has moved on in its code lines and before the line of a jump is requested (R42, R71, R297; the
rest of the step is the model's own, log entry 2). -/
def Obligations.StepRunsDecoded : Prop :=
  ∀ (s : State) (key : Nat) (rest : List Nat) (w : InsnWord) (i : Instr),
    s.boot ≠ .rejected → s.agenda = [.turn] → s.turns = key :: rest →
    let t := { s with agenda := [], cur := key, turns := rest }
    t.me.st = .issuing → t.atTurn key = true → t.me.hold = none → t.me.reply = none → t.turnHold = none →
    t.me.asyncReady = false → t.me.irqReady = false → t.inHandler = false →
    t.fetchAt key t.me.pc = .word w → decode w = .ok i →
    step s = andThen (exec i (t.startWord w)) (fun u => u.afterTurn key t.me.pc)

/-- Decoding what encode writes gives the instruction back, for every well-formed instruction that has a word. -/
def Obligations.DecodeEncode : Prop :=
  ∀ (i : Instr) (w : InsnWord), i.wellFormed = true → encode i = some w → decode w = .ok i

/-- Words of F02 to F09 written out from their encodings. -/
def Obligations.SpecWordsDecode : Prop :=
  decode 0x0E40248B = .ok (.hpop 9 4) ∧ decode 0x0936500B = .ok (.repf 12 3 1 1) ∧ decode 0x045300DB = .ok (.rst 5 6 1) ∧
  decode 0x0023C0DB = .ok (.wenq false 2 7 1) ∧ decode 0x00B5007B = .ok (.fitw 10 11) ∧ decode 0x0C7302FB = .ok (.vntrack 5 6 7) ∧
  decode 0x000302DB = .ok (.rld 5 6) ∧ decode 0x022044DB = .ok (.bclose 9 2) ∧ decode 0x0400000B = .ok .halt

/-- R20, R59, R99: a completion writes x[rd] (x0 never), moves the pc past the word, counts the instruction and leaves
the rest. No instruction stops the machine: each has a next state in every state. -/
def Obligations.CompletionFrame : Prop :=
  (∀ (s : State) (rd : XReg) (v : Word), Did s (s.result rd v) rd v (s.me.pc + 4)) ∧
  (∀ s : State, Did s s.retire 0 0 (s.me.pc + 4)) ∧ (∀ (s : State) (p : Word), Did s (s.retireTo p) 0 0 p) ∧
  ∀ (i : Instr) (s : State), ∃ t, exec i s = .next t

/-! RV64I and M. -/

/-- Table 03.1: the integer results, by exact arithmetic on the operands' values. -/
def Obligations.IntegerArithmetic : Prop :=
  ∀ (s : State) (rd rs1 rs2 : XReg) (imm : BitVec 12) (up : BitVec 20) (sh6 : BitVec 6) (sh5 : BitVec 5),
    let a := s.x rs1
    let b := s.x rs2
    let a32 := a.setWidth 32
    let r := fun (i : Instr) (v : Word) => exec i s = .next (s.result rd v)
    let w := fun (i : Instr) (v : BitVec 32) => exec i s = .next (s.result rd (v.signExtend 64))
    (r (.lui rd up) (BitVec.ofInt 64 (up.toInt * 4096)) ∧ r (.auipc rd up) (s.me.pc + BitVec.ofInt 64 (up.toInt * 4096))) ∧
    (r (.addi rd rs1 imm) (BitVec.ofInt 64 (a.toInt + imm.toInt)) ∧ r (.slti rd rs1 imm) (if a.toInt < imm.toInt then 1 else 0) ∧
     r (.sltiu rd rs1 imm) (if a.toNat < (BitVec.ofInt 64 imm.toInt).toNat then 1 else 0) ∧
     r (.xori rd rs1 imm) (a ^^^ BitVec.ofInt 64 imm.toInt) ∧ r (.ori rd rs1 imm) (a ||| BitVec.ofInt 64 imm.toInt) ∧
     r (.andi rd rs1 imm) (a &&& BitVec.ofInt 64 imm.toInt)) ∧
    (r (.slli rd rs1 sh6) (BitVec.ofNat 64 (a.toNat * 2 ^ sh6.toNat)) ∧ r (.srli rd rs1 sh6) (BitVec.ofNat 64 (a.toNat / 2 ^ sh6.toNat)) ∧
     r (.srai rd rs1 sh6) (BitVec.ofInt 64 (a.toInt / 2 ^ sh6.toNat))) ∧
    (r (.add rd rs1 rs2) (BitVec.ofInt 64 (a.toInt + b.toInt)) ∧ r (.sub rd rs1 rs2) (BitVec.ofInt 64 (a.toInt - b.toInt)) ∧
     r (.slt rd rs1 rs2) (if a.toInt < b.toInt then 1 else 0) ∧ r (.sltu rd rs1 rs2) (if a.toNat < b.toNat then 1 else 0) ∧
     r (.xor rd rs1 rs2) (a ^^^ b) ∧ r (.or rd rs1 rs2) (a ||| b) ∧ r (.and rd rs1 rs2) (a &&& b) ∧
     r (.sll rd rs1 rs2) (BitVec.ofNat 64 (a.toNat * 2 ^ (b.toNat % 64))) ∧
     r (.srl rd rs1 rs2) (BitVec.ofNat 64 (a.toNat / 2 ^ (b.toNat % 64))) ∧
     r (.sra rd rs1 rs2) (BitVec.ofInt 64 (a.toInt / 2 ^ (b.toNat % 64)))) ∧
    (w (.addiw rd rs1 imm) (BitVec.ofInt 32 (a.toInt + imm.toInt)) ∧ w (.addw rd rs1 rs2) (BitVec.ofInt 32 (a.toInt + b.toInt)) ∧
     w (.subw rd rs1 rs2) (BitVec.ofInt 32 (a.toInt - b.toInt)) ∧
     w (.slliw rd rs1 sh5) (BitVec.ofNat 32 (a.toNat * 2 ^ sh5.toNat)) ∧ w (.srliw rd rs1 sh5) (BitVec.ofNat 32 (a32.toNat / 2 ^ sh5.toNat)) ∧
     w (.sraiw rd rs1 sh5) (BitVec.ofInt 32 (a32.toInt / 2 ^ sh5.toNat)) ∧
     w (.sllw rd rs1 rs2) (BitVec.ofNat 32 (a.toNat * 2 ^ (b.toNat % 32))) ∧
     w (.srlw rd rs1 rs2) (BitVec.ofNat 32 (a32.toNat / 2 ^ (b.toNat % 32))) ∧
     w (.sraw rd rs1 rs2) (BitVec.ofInt 32 (a32.toInt / 2 ^ (b.toNat % 32))))

/-- Table 03.2 with the ratified corners: a division by zero gives all ones and the dividend, the signed overflow the
dividend and 0; divisions occupy 3 rotations, 32-bit ones 2 (Table 03.4). The corners are the ratified text's (log
entry 63). -/
def Obligations.MultiplyDivide : Prop :=
  ∀ (s : State) (rd rs1 rs2 : XReg),
    let a := s.x rs1
    let b := s.x rs2
    let a32 := a.setWidth 32
    let b32 := b.setWidth 32
    let r := fun (i : Instr) (v : Word) => exec i s = .next (s.result rd v)
    let d := fun (i : Instr) (v : Word) => exec i s = .next (s.resultIn 3 rd v)
    let w := fun (i : Instr) (v : BitVec 32) => exec i s = .next (s.resultIn 2 rd (v.signExtend 64))
    (r (.mul rd rs1 rs2) (BitVec.ofInt 64 (a.toInt * b.toInt)) ∧ r (.mulh rd rs1 rs2) (BitVec.ofInt 64 (a.toInt * b.toInt / 2 ^ 64)) ∧
     r (.mulhsu rd rs1 rs2) (BitVec.ofInt 64 (a.toInt * b.toNat / 2 ^ 64)) ∧
     r (.mulhu rd rs1 rs2) (BitVec.ofNat 64 (a.toNat * b.toNat / 2 ^ 64)) ∧
     r (.mulw rd rs1 rs2) ((BitVec.ofInt 32 (a.toInt * b.toInt)).signExtend 64)) ∧
    (d (.div rd rs1 rs2) (if b = 0 then BitVec.ofInt 64 (-1) else BitVec.ofInt 64 (a.toInt.tdiv b.toInt)) ∧
     d (.rem rd rs1 rs2) (if b = 0 then a else BitVec.ofInt 64 (a.toInt.tmod b.toInt)) ∧
     d (.divu rd rs1 rs2) (if b = 0 then BitVec.ofInt 64 (-1) else BitVec.ofNat 64 (a.toNat / b.toNat)) ∧
     d (.remu rd rs1 rs2) (if b = 0 then a else BitVec.ofNat 64 (a.toNat % b.toNat))) ∧
    (w (.divw rd rs1 rs2) (if b32 = 0 then BitVec.ofInt 32 (-1) else BitVec.ofInt 32 (a32.toInt.tdiv b32.toInt)) ∧
     w (.remw rd rs1 rs2) (if b32 = 0 then a32 else BitVec.ofInt 32 (a32.toInt.tmod b32.toInt)) ∧
     w (.divuw rd rs1 rs2) (if b32 = 0 then BitVec.ofInt 32 (-1) else BitVec.ofNat 32 (a32.toNat / b32.toNat)) ∧
     w (.remuw rd rs1 rs2) (if b32 = 0 then a32 else BitVec.ofNat 32 (a32.toNat % b32.toNat)))

/-- Jumps and branches: to an aligned target the pc goes there and the link is the next pc; a branch not taken goes
on; a taken one or a jump to a misaligned target takes the misaligned-fetch trap and writes nothing (Table 03.8, cause
0). -/
def Obligations.JumpsAndBranches : Prop :=
  ∀ (s : State) (rd rs1 rs2 : XReg) (o20 : BitVec 20) (o12 : BitVec 12),
    let a := s.x rs1
    let b := s.x rs2
    let link := s.me.pc + 4
    let j := fun (i : Instr) (p : Word) =>
      (p.getLsbD 1 = false → ∃ t, exec i s = .next t ∧ Did s t rd link p) ∧
      (p.getLsbD 1 = true → ∃ t, exec i s = .next t ∧ Trapped s t 0 p s.me.pc)
    let br := fun (i : Instr) (c : Prop) =>
      let p := s.me.pc + BitVec.ofInt 64 (2 * o12.toInt)
      (¬ c → ∃ t, exec i s = .next t ∧ Did s t 0 0 link) ∧
      (c → p.getLsbD 1 = false → ∃ t, exec i s = .next t ∧ Did s t 0 0 p) ∧
      (c → p.getLsbD 1 = true → ∃ t, exec i s = .next t ∧ Trapped s t 0 p s.me.pc)
    j (.jal rd o20) (s.me.pc + BitVec.ofInt 64 (2 * o20.toInt)) ∧
    j (.jalr rd rs1 o12) (BitVec.ofNat 64 ((a + BitVec.ofInt 64 o12.toInt).toNat / 2 * 2)) ∧
    br (.beq rs1 rs2 o12) (a = b) ∧ br (.bne rs1 rs2 o12) (a ≠ b) ∧
    br (.blt rs1 rs2 o12) (a.toInt < b.toInt) ∧ br (.bge rs1 rs2 o12) (b.toInt ≤ a.toInt) ∧
    br (.bltu rs1 rs2 o12) (a.toNat < b.toNat) ∧ br (.bgeu rs1 rs2 o12) (b.toNat ≤ a.toNat)

/-! Local memory. -/

/-- R31: the check of a local access: in U mode inside the segment, with the segment-limit cause and the effective
address as mtval outside; in M mode inside 1 MiB, with the access-fault causes outside. -/
def Obligations.SegmentCheck : Prop :=
  ∀ (sl : Slot) (ea : Word) (n : Nat) (store : Bool),
    (sl.mode = .u → ea.toNat + n ≤ sl.seglim.toNat → lmCheck sl ea n store = .ok (sl.segbase.toNat + ea.toNat)) ∧
    (sl.mode = .u → sl.seglim.toNat < ea.toNat + n → lmCheck sl ea n store = .error (30, ea)) ∧
    (sl.mode = .m → ea.toNat + n ≤ 0x100000 → lmCheck sl ea n store = .ok ea.toNat) ∧
    (sl.mode = .m → 0x100000 < ea.toNat + n → lmCheck sl ea n store = .error (if store then 7 else 5, ea))

/-- R31, R87, R88: loads: the bytes of the segment, low byte first, extended as the mnemonic says; FLW boxes its word (as ratified, log
entry 63). -/
def Obligations.Loads : Prop :=
  ∀ (s : State) (rd rs1 : XReg) (fd : FReg) (imm : BitVec 12) (a : Nat),
    let ea := s.x rs1 + BitVec.ofInt 64 imm.toInt
    let l := fun (i : Instr) (n : Nat) (v : Word) => At s ea n false a → ∃ t, exec i s = .next t ∧ Did s t rd v (s.me.pc + 4)
    let fl := fun (i : Instr) (n : Nat) (v : Word) => At s ea n false a → exec i s = .next ((s.setF fd v).retire)
    l (.lb rd rs1 imm) 1 ((BitVec.ofNat 8 (number s a 1)).signExtend 64) ∧ l (.lbu rd rs1 imm) 1 (BitVec.ofNat 64 (number s a 1)) ∧
    l (.lh rd rs1 imm) 2 ((BitVec.ofNat 16 (number s a 2)).signExtend 64) ∧ l (.lhu rd rs1 imm) 2 (BitVec.ofNat 64 (number s a 2)) ∧
    l (.lw rd rs1 imm) 4 ((BitVec.ofNat 32 (number s a 4)).signExtend 64) ∧ l (.lwu rd rs1 imm) 4 (BitVec.ofNat 64 (number s a 4)) ∧
    l (.ld rd rs1 imm) 8 (BitVec.ofNat 64 (number s a 8)) ∧
    fl (.fld fd rs1 imm) 8 (BitVec.ofNat 64 (number s a 8)) ∧
    fl (.flw fd rs1 imm) 4 (0xFFFFFFFF#32 ++ BitVec.ofNat 32 (number s a 4))

/-- R31, R32, R87, R88, R91: stores: the low bytes of the source at the checked address, all other memory as it was. A store ends the
reservations of the other slots on the words it meets, and not its own slot's. -/
def Obligations.Stores : Prop :=
  ∀ (s : State) (rs2 rs1 : XReg) (fs2 : FReg) (imm : BitVec 12) (a : Nat),
    let ea := s.x rs1 + BitVec.ofInt 64 imm.toInt
    let st := fun (i : Instr) (n : Nat) (v : Word) => At s ea n true a → ∃ t, exec i s = .next t ∧ StoreDone s t a n v.toNat 0 0 ∧
      t.me.resv = s.me.resv
    st (.sb rs2 rs1 imm) 1 (s.x rs2) ∧ st (.sh rs2 rs1 imm) 2 (s.x rs2) ∧ st (.sw rs2 rs1 imm) 4 (s.x rs2) ∧
    st (.sd rs2 rs1 imm) 8 (s.x rs2) ∧ st (.fsw fs2 rs1 imm) 4 (s.f fs2) ∧ st (.fsd fs2 rs1 imm) 8 (s.f fs2)

/-- R31: a load or store outside takes the trap the check names and has no effect. -/
def Obligations.OutsideTraps : Prop :=
  ∀ (s : State) (r rs1 : XReg) (f : FReg) (imm : BitVec 12) (c : Nat) (tv : Word),
    let ea := s.x rs1 + BitVec.ofInt 64 imm.toInt
    let tr := fun (i : Instr) (n : Nat) (store : Bool) =>
      lmCheck s.me ea n store = .error (c, tv) → ∃ t, exec i s = .next t ∧ Trapped s t (BitVec.ofNat 64 c) tv s.me.pc
    tr (.lb r rs1 imm) 1 false ∧ tr (.lbu r rs1 imm) 1 false ∧ tr (.lh r rs1 imm) 2 false ∧ tr (.lhu r rs1 imm) 2 false ∧
    tr (.lw r rs1 imm) 4 false ∧ tr (.lwu r rs1 imm) 4 false ∧ tr (.ld r rs1 imm) 8 false ∧ tr (.flw f rs1 imm) 4 false ∧
    tr (.fld f rs1 imm) 8 false ∧ tr (.sb r rs1 imm) 1 true ∧ tr (.sh r rs1 imm) 2 true ∧ tr (.sw r rs1 imm) 4 true ∧
    tr (.sd r rs1 imm) 8 true ∧ tr (.fsw f rs1 imm) 4 true ∧ tr (.fsd f rs1 imm) 8 true

/-- R31, R85, R88, R90 to R92, R101: LR, SC and the AMOs on an aligned word of the segment: LR reserves the 8-byte word; SC stores and
gives 0 exactly when the slot's reservation is on it, else gives 1 and stores nothing, and clears the reservation; an AMO gives the
old value and stores the operation's result (as ratified, log entry 63). What a successful SC or an AMO stores ends the reservations of the
other slots on its words. At an address that is not a multiple of the width LR takes
the trap of cause 4, SC and the AMOs that of cause 6, before the check of R31, which traps outside the segment. -/
def Obligations.LocalAtomics : Prop :=
  ∀ (s : State) (aq rl : Bool) (rd rs2 rs1 : XReg) (a : Nat),
    let ea := s.x rs1
    let sext := fun (wd : Width) (v : Nat) => match wd with
      | .w => (BitVec.ofNat 32 v).signExtend 64
      | .d => BitVec.ofNat 64 v
    let size := fun (wd : Width) => match wd with
      | .w => 4
      | .d => 8
    let sgn := fun (n v : Nat) => (BitVec.ofNat (8 * n) v).toInt
    let cut := fun (wd : Width) (v : Nat) => v % 256 ^ size wd
    let here := fun (wd : Width) (store : Bool) => ea.toNat % size wd = 0 ∧ At s ea (size wd) store a
    let amo := fun (i : Width → Instr) (op : Width → Nat → Nat → Nat) => ∀ wd, here wd true →
      let old := number s a (size wd)
      ∃ t, exec (i wd) s = .next t ∧ StoreDone s t a (size wd) (op wd old (cut wd (s.x rs2).toNat)) rd (sext wd old) ∧
        t.me.resv = s.me.resv
    (∀ wd, here wd false → ∃ t, exec (.lr aq rl wd rd rs1) s = .next t ∧ t.me.resv = some (a / 8 * 8) ∧
      Kept s t rd (sext wd (number s a (size wd))) ∧ { t with slots := s.slots } = s) ∧
    (∀ wd, here wd true → s.me.resv = some (a / 8 * 8) →
      ∃ t, exec (.sc aq rl wd rd rs2 rs1) s = .next t ∧ StoreDone s t a (size wd) (s.x rs2).toNat rd 0 ∧ t.me.resv = none) ∧
    (∀ wd, here wd true → s.me.resv ≠ some (a / 8 * 8) →
      ∃ t, exec (.sc aq rl wd rd rs2 rs1) s = .next t ∧ t.me.resv = none ∧ Kept s t rd 1 ∧ { t with slots := s.slots } = s) ∧
    amo (fun wd => .amoswap aq rl wd rd rs2 rs1) (fun _ _ b => b) ∧
    amo (fun wd => .amoadd aq rl wd rd rs2 rs1) (fun _ o b => o + b) ∧
    amo (fun wd => .amoxor aq rl wd rd rs2 rs1) (fun _ o b => o ^^^ b) ∧
    amo (fun wd => .amoand aq rl wd rd rs2 rs1) (fun _ o b => o &&& b) ∧
    amo (fun wd => .amoor aq rl wd rd rs2 rs1) (fun _ o b => o ||| b) ∧
    amo (fun wd => .amomin aq rl wd rd rs2 rs1) (fun wd o b => if sgn (size wd) o < sgn (size wd) b then o else b) ∧
    amo (fun wd => .amomax aq rl wd rd rs2 rs1) (fun wd o b => if sgn (size wd) o < sgn (size wd) b then b else o) ∧
    amo (fun wd => .amominu aq rl wd rd rs2 rs1) (fun _ o b => min o b) ∧
    amo (fun wd => .amomaxu aq rl wd rd rs2 rs1) (fun _ o b => max o b) ∧
    (∀ wd, let i : Instr := .lr aq rl wd rd rs1
      (ea.toNat % size wd ≠ 0 → ∃ t, exec i s = .next t ∧ Trapped s t 4 ea s.me.pc) ∧
      (∀ c tv, ea.toNat % size wd = 0 → lmCheck s.me ea (size wd) false = .error (c, tv) →
        ∃ t, exec i s = .next t ∧ Trapped s t (BitVec.ofNat 64 c) tv s.me.pc)) ∧
    (∀ wd, ∀ i ∈ ([.sc aq rl wd rd rs2 rs1, .amoswap aq rl wd rd rs2 rs1, .amoadd aq rl wd rd rs2 rs1, .amoxor aq rl wd rd rs2 rs1,
        .amoand aq rl wd rd rs2 rs1, .amoor aq rl wd rd rs2 rs1, .amomin aq rl wd rd rs2 rs1, .amomax aq rl wd rd rs2 rs1,
        .amominu aq rl wd rd rs2 rs1, .amomaxu aq rl wd rd rs2 rs1] : List Instr),
      (ea.toNat % size wd ≠ 0 → ∃ t, exec i s = .next t ∧ Trapped s t 6 ea s.me.pc) ∧
      (∀ c tv, ea.toNat % size wd = 0 → lmCheck s.me ea (size wd) true = .error (c, tv) →
        ∃ t, exec i s = .next t ∧ Trapped s t (BitVec.ofNat 64 c) tv s.me.pc))

/-! Exceptions and CSRs. -/

/-- R245: taking a trap and returning from one; R98, R246 to R248: an interrupt, an asynchronous fault, the lowest cause first. PRE,
taken by the lead slot, holds its parked siblings; STL clears when it is taken (R247, R354); MRET of the lead slot declines the save: its
siblings leave TRAPPED at the next boundary, and engines that CTXSAV froze stay frozen (R355). The operands in ev, and how the machine
holds a save and its decline, are the model's (log entries 2 and 19). -/
def Obligations.Exceptions : Prop :=
  ∀ s : State,
    (∃ t, exec .ecall s = .next t ∧ Trapped s t (if s.me.mode = .m then 11 else 8) 0 s.me.pc) ∧
    (∃ t, exec .ebreak s = .next t ∧ Trapped s t 3 s.me.pc s.me.pc) ∧
    (∃ t, exec .illegalInstructionWord s = .next t ∧ Trapped s t 2 ((s.ev.val.setWidth 32).setWidth 64) s.me.pc) ∧
    (s.me.mode = .m → s.myVc.lead ≠ some s.ix → ∃ t, exec .mret s = .next t ∧ t.me.mode = s.me.mstMPP ∧
      t.me.mstMIE = s.me.mstMPIE ∧ t.me.mstMPIE = true ∧ t.me.mstMPP = .u ∧ t.me.pc = s.me.mepc ∧
      t.me.arrived = (if s.me.outer.head? = some (some s.me.mepc) then some s.me.mepc else none) ∧ t.me.outer = s.me.outer.tail ∧
      { t.me with mode := s.me.mode, mstMIE := s.me.mstMIE, mstMPIE := s.me.mstMPIE, mstMPP := s.me.mstMPP, pc := s.me.pc,
                  minstret := s.me.minstret, hold := s.me.hold, arrived := s.me.arrived, outer := s.me.outer } = s.me ∧ (∀ k, k ≠ s.cur → t.slot k = s.slot k) ∧ { t with slots := s.slots } = s) ∧
    (s.me.mode = .u → ∃ t, exec .mret s = .next t ∧ Trapped s t 2 0x30200073 s.me.pc) ∧
    (s.me.mode = .m → ∃ t, exec .wfi s = .next t ∧ Did s t 0 0 (s.me.pc + 4)) ∧
    (s.me.mode = .u → ∃ t, exec .wfi s = .next t ∧ Trapped s t 2 0x10500073 s.me.pc) ∧
    (∀ tok rest, s.me.st = .issuing → s.me.takes = true → s.me.p27 = tok :: rest →
      ∃ t, exec .asyncFaultTaken s = .next t ∧ t.me.p27 = rest ∧
        Trapped s (t.updMe (fun sl => { sl with p27 := s.me.p27 })) 27 (BitVec.ofNat 64 tok) s.me.pc) ∧
    (∀ off, s.me.st = .issuing → s.me.takes = true → s.me.p27 = [] → s.me.p30 = some off →
      ∃ t, exec .asyncFaultTaken s = .next t ∧ t.me.p30 = none ∧
        Trapped s (t.updMe (fun sl => { sl with p30 := s.me.p30 })) 30 off s.me.pc) ∧
    (∀ b, s.me.st = .issuing → s.me.takes = true → s.me.asyncReady = false → s.me.irq = some b →
      let cause := BitVec.ofNat 64 (2 ^ 63 + 16 + b)
      (b = 1 ∨ b = 3 → ∃ t, exec .interruptTaken s = .next t ∧ Trapped s t cause 0 s.me.pc) ∧
      (b = 2 → ∃ t, exec .interruptTaken s = .next t ∧ t.me.mip = s.me.mip &&& 0b1011#4 ∧
        Trapped s (t.updMe (fun sl => { sl with mip := s.me.mip })) cause 0 s.me.pc) ∧
      (b = 0 → s.myVc.holds = [] → ∃ t, exec .interruptTaken s = .next t ∧ t.me.mcause = cause ∧ t.me.mtval = 0 ∧ t.me.mepc = s.me.pc ∧
        t.me.mode = .m ∧ t.me.mstMPP = s.me.mode ∧ t.me.mstMPIE = s.me.mstMIE ∧ t.me.mstMIE = false ∧ t.me.pc = s.me.mtvec ∧
        t.me.x = s.me.x ∧ t.me.f = s.me.f ∧ t.me.mip = s.me.mip ∧ t.myVc.lead = some s.ix ∧ t.myVc.saveOk = false ∧
        t.myVc.holds = [⟨.preempt, false, s.ix⟩] ∧ t.myVc.frozen = s.myVc.frozen ∧
        (∀ k, k ≠ s.cur → k / 16 = s.vk → (s.slot k).st = .parked → (t.slot k).st = .trapped ∧ (t.slot k).trap = some .preempt ∧
          (t.slot k).pc = (s.slot k).pc ∧ (t.slot k).x = (s.slot k).x ∧ (t.slot k).f = (s.slot k).f) ∧
        (∀ k, k / 16 ≠ s.vk → { t.slot k with resv := (s.slot k).resv } = s.slot k) ∧
        ∀ j, (∀ n < 16, let r := lmAddr (s.coreOf s.vk) (0xF4000 + 640 * (s.myVc.fidx * (16 / 2 ^ s.myVc.fold) + n))
          j < r ∨ r + 640 ≤ j) → Memory.read t.mem j = Memory.read s.mem j)) ∧
    (s.me.mode = .m → s.me.st = .issuing → s.myVc.lead = some s.ix → s.myVc.holds = [⟨.preempt, false, s.ix⟩] →
      ∃ t, exec .mret s = .next t ∧ t.me.mode = s.me.mstMPP ∧ t.me.mstMIE = s.me.mstMPIE ∧ t.me.mstMPIE = true ∧ t.me.mstMPP = .u ∧
        t.me.pc = s.me.mepc ∧ t.me.x = s.me.x ∧ t.me.f = s.me.f ∧ t.me.st = .issuing ∧ t.myVc.lead = none ∧ t.myVc.saveOk = false ∧
        t.myVc.holds = [] ∧ (s.myVc.ctxFrozen = true → t.myVc.frozen = true) ∧
        { t.myVc with lead := s.myVc.lead, saveOk := s.myVc.saveOk, holds := s.myVc.holds, frozen := s.myVc.frozen } = s.myVc ∧
        (∀ k, k ≠ s.cur → (k / 16 = s.vk → (s.slot k).st = .trapped → (s.slot k).trap = some .preempt →
            t.slot k = { s.slot k with wakeAt := some (s.cycOf s.vk + 1) }) ∧
          (k / 16 ≠ s.vk ∨ (s.slot k).st ≠ .trapped ∨ (s.slot k).trap ≠ some .preempt → t.slot k = s.slot k)) ∧
        (∀ k, k ≠ s.vk → t.vc k = s.vc k) ∧ { t with slots := s.slots, vcs := s.vcs } = s)

/-- The value a write of w leaves in a CSR of plain storage, in M mode (Tables 01.2, 03.5 to 03.7): w with the bits that do not exist
cleared. -/
def Sys2Proof.Claim.csrKeeps : List (BitVec 12 × Word) :=
  [(0x001, 0x1F), (0x002, 0x7), (0x003, 0xFF), (0x800, 0xFFFFFFFF), (0x801, 0xFFFFFFFF), (0x802, 0x1F), (0x803, 0xBF), (0x804, 0xBF),
   (0x7C2, 0x1FFFF), (0x7C3, 0xFFFFFFFF), (0x7C4, 0xFFFFFFFF), (0x7C5, 0x8000000003FFFFFF), (0x7C6, 1), (0x304, 0xF0000),
   (0x305, 0xFFFFFFFFFFFFFFFC), (0x306, 7), (0x340, 0xFFFFFFFFFFFFFFFF), (0x341, 0xFFFFFFFFFFFFFFFC), (0x342, 0x800000000000003F),
   (0x343, 0xFFFFFFFFFFFFFFFF), (0xB00, 0xFFFFFFFFFFFFFFFF), (0xB02, 0xFFFFFFFFFFFFFFFF)]

/-- The values of the CSRs that only report, and of those that a U-mode program reads (Tables 01.2 to 01.5, 03.5 to 03.7). -/
def Sys2Proof.Claim.CsrValues : Prop :=
  ∀ (s : State) (rd : XReg),
    let v := s.myVc
    let g := s.gang v.gid
    let d := s.coreOf s.vk / 256
    let pos := v.fidx * (16 / 2 ^ v.fold) + s.ix
    let one := fun (b : Bool) => if b then 1 else 0
    let reads := fun (a : BitVec 12) (w : Word) => ∃ t, exec (.csrrs rd 0 a) s = .next t ∧ Did s t rd w (s.me.pc + 4)
    let num := fun (a : BitVec 12) (n : Nat) => reads a (BitVec.ofNat 64 n)
    let no := fun (a : BitVec 12) => ∃ t w, exec (.csrrs rd 0 a) s = .next t ∧ encode (.csrrs rd 0 a) = some w ∧ Trapped s t 2 (w.setWidth 64) s.me.pc
    (reads 0x001 (s.me.fflags.setWidth 64) ∧ reads 0x002 (s.me.frm.setWidth 64) ∧ num 0x003 (s.me.fflags.toNat + 32 * s.me.frm.toNat) ∧
      reads 0x800 (v.fitness.setWidth 64) ∧ reads 0x801 (v.evalcnt.setWidth 64) ∧ reads 0x802 (v.mflags.setWidth 64) ∧
      reads 0x803 (v.smring.setWidth 64) ∧ reads 0x804 (v.evring.setWidth 64)) ∧
    (num 0xCC0 v.vcid ∧ num 0xCC1 (s.coreOf s.vk) ∧
      num 0xCC2 (v.vcid % g.gw + 2 ^ 8 * (v.vcid / g.gw) + 2 ^ 16 * g.gw + 2 ^ 24 * g.gh + 2 ^ 32 * v.fold + 2 ^ 34 * v.fidx + 2 ^ 40 * g.own) ∧
      num 0xCC3 (s.ix + 16 * pos) ∧
      num 0xCC4 ((if d < 4 then 0 else 1) + 2 * (d % 4) + 8 * d + 64 * one (s.die d).bringup) ∧ num 0xCC7 (if d < 4 then 7 else 0)) ∧
    ((∀ k ∈ v.groups, k < 256) → ∃ w, reads 0xCC5 w ∧ ∀ i < 4, w.extractLsb' (16 * i) 16 = match v.groups[i]? with
      | some k => BitVec.ofNat 16 (0x8000 + k)
      | none => 0) ∧
    ((v.binds.map Prod.fst).Nodup → (∀ p ∈ v.binds, p.1 < 4 ∧ p.2 < 16) → ∃ w, reads 0xCC6 w ∧ w.toNat < 2 ^ 32 ∧
      ∀ e < 4, w.extractLsb' (8 * e) 8 = match FMap.get? v.binds e with
        | some j => BitVec.ofNat 8 (0x80 + j)
        | none => 0) ∧
    (∀ n, (0xC03 ≤ n ∧ n ≤ 0xC1F) ∨ (0xCC8 ≤ n ∧ n ≤ 0xCCF) ∨ (0x805 ≤ n ∧ n ≤ 0x80F) → num (BitVec.ofNat 12 n) 0) ∧
    (∀ n < 3, let w := [s.me.mcycle, s.time, s.me.minstret].getD n 0
      let a := BitVec.ofNat 12 (0xC00 + n)
      (s.me.mode = .m ∨ s.me.mcounteren.getLsbD n = true → reads a w) ∧ (s.me.mode = .u → s.me.mcounteren.getLsbD n = false → no a)) ∧
    (s.me.mode = .m → num 0xF11 0 ∧ num 0xF12 0xA08 ∧ num 0xF13 (if d < 4 then 0x0F01 else 0x0E01) ∧ num 0xF14 (s.coreOf s.vk * 16 + pos) ∧
      num 0xF15 0 ∧ num 0x301 0x8000000000901129 ∧ num 0x304 (s.me.mie.toNat * 65536) ∧ num 0x344 (s.me.mip.toNat * 65536) ∧
      reads 0x7C0 s.me.segbase ∧ reads 0x7C1 s.me.seglim ∧
      ∀ n, n = 0x320 ∨ (0x323 ≤ n ∧ n ≤ 0x33F) ∨ (0xB03 ≤ n ∧ n ≤ 0xB1F) ∨ (0x7C8 ≤ n ∧ n ≤ 0x7CF) → num (BitVec.ofNat 12 n) 0)

/-- What a write leaves of the CSRs with fields of several kinds: mstatus (Table 03.6), the segment CSRs (R30), cmapwin (R323, Tables 13.3
to 13.5), and those that a write does not change (Tables 01.2, 03.5, 03.7). -/
def Sys2Proof.Claim.CsrFields : Prop :=
  ∀ (s : State) (rd rs1 : XReg), s.me.mode = .m →
    let w := s.x rs1
    let c := s.coreOf s.vk
    let wr := fun (a : BitVec 12) (p : State → Prop) => ∃ t, exec (.csrrw rd rs1 a) s = .next t ∧ p t
    let status := fun (sl : Slot) => BitVec.ofNat 64 ((if sl.mstMIE = true then 8 else 0) + (if sl.mstMPIE = true then 128 else 0) +
      (if sl.mstMPP = .m then 3 * 2 ^ 11 else 0) + 3 * 2 ^ 13 + 2 * 2 ^ 32 + 2 ^ 63)
    let seg := w &&& 0xFF000
    let ix := w.toNat % 4096
    wr 0x300 (fun t => Did s (t.updMe (fun sl => { sl with mstMIE := s.me.mstMIE, mstMPIE := s.me.mstMPIE, mstMPP := s.me.mstMPP }))
      rd (status s.me) (s.me.pc + 4) ∧ t.me.mstMIE = w.getLsbD 3 ∧ t.me.mstMPIE = w.getLsbD 7 ∧
      (t.me.mstMPP = .m ↔ w.getLsbD 11 = true ∧ w.getLsbD 12 = true)) ∧
    wr 0x7C0 (fun t => Did s (t.updMe (fun sl => { sl with segbase := s.me.segbase })) rd s.me.segbase (s.me.pc + 4) ∧
      t.me.segbase = if seg.toNat + s.me.seglim.toNat ≤ 0xF0000 then seg else s.me.segbase) ∧
    wr 0x7C1 (fun t => Did s (t.updMe (fun sl => { sl with seglim := s.me.seglim })) rd s.me.seglim (s.me.pc + 4) ∧
      t.me.seglim = if s.me.segbase.toNat + seg.toNat ≤ 0xF0000 then seg else s.me.seglim) ∧
    wr 0x7C7 (fun t => Did s { t with cores := s.cores } rd (s.csrRead 0x7C7) (s.me.pc + 4) ∧ (∀ k, k ≠ c → t.core k = s.core k) ∧
      (t.core c).cmapIdx = w.setWidth 12 ∧ { t.core c with cmapIdx := (s.core c).cmapIdx } = s.core c ∧
      (t.csrRead 0x7C7).setWidth 12 = w.setWidth 12 ∧
      (0x101 < ix → ix < 0x200 ∨ 0x240 ≤ ix → t.csrRead 0x7C7 = BitVec.ofNat 64 ix) ∧
      (ix = 0x101 → t.csrRead 0x7C7 = BitVec.ofNat 64 (0x101 + 2 ^ 16 * s.migQ.length + 2 ^ 32 * s.migs.length)) ∧
      (ix = 0x100 → c / 256 = 5 → (s.die 5).up = true → (s.die 5).bringup = false → t.csrRead 0x7C7 = 0x0460FF41676B0100) ∧
      (∀ r, 0x200 ≤ ix → ix < 0x240 → FMap.get? (s.die (c / 256)).redirs (ix - 0x200) = some r →
        t.csrRead 0x7C7 = BitVec.ofNat 64 (ix + 2 ^ 16 + 2 ^ 17 * r.old + 2 ^ 28 * r.new + (if r.left = [] then 0 else 2 ^ 39))) ∧
      (ix < 0x100 → let g := c / 256 * 256 + ix
        ((s.core g).en = false → (s.core g).mig = false → t.csrRead 0x7C7 = BitVec.ofNat 64 ix) ∧
        ((s.core g).en = true → (s.core g).reserved = false → s.hosted g = [] → (s.core g).saving = [] → (s.core g).mig = false →
          t.csrRead 0x7C7 = BitVec.ofNat 64 (ix + 2 ^ 16 + 2 ^ 17)) ∧
        (∀ k, (s.core g).en = true → (s.core g).reserved = false → s.hosted g = [k] → (s.core g).mig = false →
          t.csrRead 0x7C7 = BitVec.ofNat 64 (ix + 2 ^ 16 + 2 ^ 18 + 2 ^ 19 * (s.vc k).gid + 2 ^ 35 * (s.vc k).fold + 2 ^ 37 * (s.vc k).vcid)))) ∧
    (∀ n, n = 0x301 ∨ n = 0x320 ∨ (0x323 ≤ n ∧ n ≤ 0x33F) ∨ n = 0x344 ∨ (0x7C8 ≤ n ∧ n ≤ 0x7CF) ∨ (0xB03 ≤ n ∧ n ≤ 0xB1F) →
      wr (BitVec.ofNat 12 n) (fun t => Did s t rd (s.csrRead n) (s.me.pc + 4)))

/-- The CSR instructions in M mode, and in U mode on the CSRs it reaches: rd gets the old value, the CSR the new one with the bits that exist; the write of
minstret has priority over the count. A set or clear of x0 or 0 writes nothing. R21, R25, R98: from U mode an M-mode
CSR, and in either mode a write of a read-only one or any access to one that does not exist, takes the
illegal-instruction trap. R148: flags that mflags gains in the cycle of a write are ORed into what is written. What the CSRs read (Tables 01.2 to 01.5,
03.5 to 03.7, 13.3 to 13.5) and what a write leaves of their fields. The order of a write of minstret and its count, and the time base's unit: log entries 20 and 2. -/
def Obligations.CsrAccess : Prop :=
  CsrValues ∧ CsrFields ∧
  (∀ (s : State) (rd rs1 : XReg) (u : BitVec 5) (p : BitVec 12 × Word), p ∈ csrKeeps → s.me.mode = .m ∨ p.1.extractLsb' 8 2 = 0 →
    (p.1 = 0x802 → s.myVc.flagCyc ≠ s.cycOf s.vk + 1) →
    let a := p.1
    let old := s.csrRead a.toNat
    let done := fun (i : Instr) (new : Word) => ∃ t, exec i s = .next t ∧ t.csrRead a.toNat = new &&& p.2 ∧ t.me.pc = s.me.pc + 4 ∧
      (∀ r, t.x r = if r = rd ∧ rd ≠ 0 then old else s.x r) ∧ (∀ r, t.f r = s.f r) ∧ t.me.mode = s.me.mode ∧ t.me.st = s.me.st ∧
      t.me.h = s.me.h ∧ t.me.segbase = s.me.segbase ∧ t.me.seglim = s.me.seglim ∧
      (∀ k, k ≠ s.cur → t.slot k = s.slot k) ∧ (∀ k, k ≠ s.vk → t.vc k = s.vc k) ∧
      { t with slots := s.slots, vcs := s.vcs, cores := s.cores } = s ∧
      ∀ q ∈ csrKeeps, q.1 ≠ a → (a.toNat ≤ 3 → 3 < q.1.toNat) → q.1 ≠ 0xB02 → t.csrRead q.1.toNat = s.csrRead q.1.toNat
    let uw : Word := u.setWidth 64
    done (.csrrw rd rs1 a) (s.x rs1) ∧ done (.csrrwi rd u a) uw ∧
    (rs1 ≠ 0 → done (.csrrs rd rs1 a) (old ||| s.x rs1) ∧ done (.csrrc rd rs1 a) (old &&& ~~~ s.x rs1)) ∧
    (u ≠ 0 → done (.csrrsi rd u a) (old ||| uw) ∧ done (.csrrci rd u a) (old &&& ~~~ uw)) ∧
    (∃ t, exec (.csrrs rd 0 a) s = .next t ∧ Did s t rd old (s.me.pc + 4)) ∧
    (∃ t, exec (.csrrci rd 0 a) s = .next t ∧ Did s t rd old (s.me.pc + 4))) ∧
  (∀ (s : State) (rs1 : XReg), s.myVc.flagCyc = s.cycOf s.vk + 1 → ∃ t, exec (.csrrw 0 rs1 0x802) s = .next t ∧
    VcDone s t { s.myVc with mflags := (s.x rs1).setWidth 5 ||| s.myVc.flagNew } 0 0) ∧
  (∀ (s : State) (rd rs1 : XReg) (a : BitVec 12),
    (s.me.mode = .u → a ∈ ([0x300, 0x304, 0x305, 0x340, 0x341, 0x342, 0x343, 0x7C0, 0x7C1, 0x7C2, 0xB00, 0xF14] : List (BitVec 12)) →
      ∃ t w, exec (.csrrw rd rs1 a) s = .next t ∧ encode (.csrrw rd rs1 a) = some w ∧ Trapped s t 2 (w.setWidth 64) s.me.pc) ∧
    (a ∈ ([0xC00, 0xC01, 0xC02, 0xCC0, 0xCC1, 0xF12, 0xF13, 0xF14] : List (BitVec 12)) →
      ∃ t w, exec (.csrrw rd rs1 a) s = .next t ∧ encode (.csrrw rd rs1 a) = some w ∧ Trapped s t 2 (w.setWidth 64) s.me.pc) ∧
    (csrClass a.toNat = .absent →
      ∃ t w, exec (.csrrs rd rs1 a) s = .next t ∧ encode (.csrrs rd rs1 a) = some w ∧ Trapped s t 2 (w.setWidth 64) s.me.pc))


/-! F and D. -/

/-- Of the current slot only f[rd], fflags and what a completion changes differ; L rotations (Table 03.4). -/
structure Sys2Proof.Claim.FpDone (s t : State) (rd : FReg) (v : Word) (fl : BitVec 5) (L : Nat) : Prop where
  f : ∀ r, t.f r = if r = rd then v else s.f r
  x : ∀ r, t.x r = s.x r
  flags : t.me.fflags = s.me.fflags ||| fl
  pc : t.me.pc = s.me.pc + 4
  hold : t.me.hold = if L ≤ 1 then none else some (.busy (L - 1))
  arrived : t.me.arrived = none
  slot : { t.me with f := s.me.f, fflags := s.me.fflags, pc := s.me.pc, minstret := s.me.minstret, hold := s.me.hold, arrived := s.me.arrived } = s.me
  others : ∀ k, k ≠ s.cur → t.slot k = s.slot k
  rest : { t with slots := s.slots } = s

/-- Of the current slot only x[rd], fflags and what a completion changes differ. -/
structure Sys2Proof.Claim.FlagDone (s t : State) (rd : XReg) (v : Word) (fl : BitVec 5) : Prop where
  x : ∀ r, t.x r = if r = rd ∧ rd ≠ 0 then v else s.x r
  f : ∀ r, t.f r = s.f r
  flags : t.me.fflags = s.me.fflags ||| fl
  pc : t.me.pc = s.me.pc + 4
  hold : t.me.hold = none
  arrived : t.me.arrived = none
  slot : { t.me with x := s.me.x, fflags := s.me.fflags, pc := s.me.pc, minstret := s.me.minstret, hold := s.me.hold, arrived := s.me.arrived } = s.me
  others : ∀ k, k ≠ s.cur → t.slot k = s.slot k
  rest : { t with slots := s.slots } = s

/-- An f register holds a NaN-boxed single. -/
def Sys2Proof.Claim.Boxed (v : Word) : Prop := v.extractLsb' 32 32 = 0xFFFFFFFF#32

/-- Sign injection, moves, classes, comparisons, minimum and maximum (Table 03.3): the bits for sign injection and
moves; a comparison with a NaN gives 0 and raises NV (FEQ only for a signalling one), otherwise 1 or 0 by the order of
the values; FCLASS gives the one bit of the operand's class, FMIN and FMAX the smaller and the larger with -0 below +0, a number rather
than a NaN, the canonical NaN for two, and NV for a signalling one. As ratified (log entry 63). -/
def Obligations.FpMovesAndCompares : Prop :=
  ∀ (s : State) (fd rs1 rs2 : FReg) (rd x1 : XReg) (t : FpFmt),
    let a := s.f rs1
    let b := s.f rs2
    let fp := fun (i : Instr) (v : Word) => ∃ u, exec i s = .next u ∧ FpDone s u fd v 0 1
    let sg := fun (i : FpFmt → Instr) (op : BitVec 1 → BitVec 1 → BitVec 1) =>
      fp (i .d) (op (a.extractLsb' 63 1) (b.extractLsb' 63 1) ++ a.extractLsb' 0 63) ∧
      (Boxed a → Boxed b → fp (i .s) (0xFFFFFFFF#32 ++ (op (a.extractLsb' 31 1) (b.extractLsb' 31 1) ++ a.extractLsb' 0 31)))
    let p := (fpFmt t).value (s.fp t rs1)
    let q := (fpFmt t).value (s.fp t rs2)
    let x := s.fp t rs1
    let y := s.fp t rs2
    let M := if t = .s then 23 else 52
    let E := if t = .s then 8 else 11
    let sign := fun (z : Nat) => z / 2 ^ (M + E)
    let ex := x / 2 ^ M % 2 ^ E
    let neg := sign x = 1
    let cls := if ex = 2 ^ E - 1 then (if x % 2 ^ M = 0 then (if neg then 0 else 7) else if x / 2 ^ (M - 1) % 2 = 0 then 8 else 9)
      else if ex = 0 then (if x % 2 ^ M = 0 then (if neg then 3 else 4) else if neg then 2 else 5) else if neg then 1 else 6
    let cmp := fun (i : Instr) (quiet : Bool) (r : Int → Prop) =>
      ((p.isNan || q.isNan) = true → ∃ u, exec i s = .next u ∧
        FlagDone s u rd 0 (if quiet = false ∨ p.isSig = true ∨ q.isSig = true then 0b10000 else 0)) ∧
      ((p.isNan || q.isNan) = false → (r (numCmp p q) → ∃ u, exec i s = .next u ∧ FlagDone s u rd 1 0) ∧
        (¬ r (numCmp p q) → ∃ u, exec i s = .next u ∧ FlagDone s u rd 0 0))
    sg (fun t => .fsgnj t fd rs1 rs2) (fun _ y => y) ∧ sg (fun t => .fsgnjn t fd rs1 rs2) (fun _ y => ~~~ y) ∧
    sg (fun t => .fsgnjx t fd rs1 rs2) (fun x y => x ^^^ y) ∧
    (∃ u, exec (.fmvXFmt .s rd rs1) s = .next u ∧ Did s u rd ((a.extractLsb' 0 32).signExtend 64) (s.me.pc + 4)) ∧
    (∃ u, exec (.fmvXFmt .d rd rs1) s = .next u ∧ Did s u rd a (s.me.pc + 4)) ∧
    fp (.fmvFmtX .s fd x1) (0xFFFFFFFF#32 ++ (s.x x1).extractLsb' 0 32) ∧ fp (.fmvFmtX .d fd x1) (s.x x1) ∧
    (∃ u, exec (.fclass t rd rs1) s = .next u ∧ Did s u rd (BitVec.ofNat 64 (2 ^ cls)) (s.me.pc + 4)) ∧
    cmp (.feq t rd rs1 rs2) true (fun c => c = 0) ∧ cmp (.flt t rd rs1 rs2) false (fun c => c < 0) ∧
    cmp (.fle t rd rs1 rs2) false (fun c => c ≤ 0) ∧
    (∀ i r, (i, r) ∈ ([(.fmin t fd rs1 rs2, if numCmp p q < 0 ∨ numCmp p q = 0 ∧ sign x = 1 then x else y),
        (.fmax t fd rs1 rs2, if 0 < numCmp p q ∨ numCmp p q = 0 ∧ sign y = 1 then x else y)] : List (Instr × Nat)) →
      ∃ u, exec i s = .next u ∧ FpDone s u fd
        (box t (if p.isNan = true ∧ q.isNan = true then (if t = .s then 0x7FC00000 else 0x7FF8000000000000)
          else if p.isNan = true then y else if q.isNan = true then x else r))
        (if p.isSig = true ∨ q.isSig = true then 0b10000 else 0) 1)

/-- The k-th magnitude of a format as m × 2^e (Table 05.1), going on above its largest. -/
def Sys2Proof.Claim.magnitude (t : Fmt) (k : Nat) : Nat × Int :=
  if k < 2 ^ t.M then (k, 1 - t.B - t.M) else (2 ^ t.M + k % 2 ^ t.M, ((k / 2 ^ t.M : Nat) : Int) - t.B - t.M)

/-- How num / den × 2^e compares with m × 2^f. -/
def Sys2Proof.Claim.versus (num den : Nat) (e : Int) (m : Nat) (f : Int) : Ordering :=
  compare (num * 2 ^ (e - min e f).toNat) (m * den * 2 ^ (f - min e f).toNat)

/-- The modes of Table 05.3: is the neighbour farther from zero taken, for a value between two neighbours that is exact at the nearer
one to zero or not, compares with their middle as mid, and lies above an odd one? -/
def Sys2Proof.Claim.takesUpper (mode : RMode) (neg exact : Bool) (mid : Ordering) (odd : Bool) : Bool :=
  match mode with
  | .rne => mid == .gt || (mid == .eq && odd)
  | .rtz => false
  | .rdn => neg && !exact
  | .rup => !neg && !exact
  | .rmm => mid != .lt

/-- Formats with the encodings of their largest number and of what lies above it: infinity, or the NaN of E4M3 (Table 05.1). -/
def Sys2Proof.Claim.formats : List (Fmt × Nat × Nat) :=
  [(fmtE4, 0x7E, 0x7F), (fmtE5, 0x7B, 0x7C), (fmtBF, 0x7F7F, 0x7F80), (fmtHF, 0x7BFF, 0x7C00), (fmt32, 0x7F7FFFFF, 0x7F800000),
   (fmt64, 0x7FEFFFFFFFFFFFFF, 0x7FF0000000000000)]

/-- R133, R135, R136, Tables 05.3 and 05.4: r, with its flags, is the correct rounding of a value that is not zero, of sign neg, whose
magnitude compares with m × 2^e as against m e says: one of the two neighbours lo and lo + 1 among the magnitudes of the format, the
one the mode takes, or the overflow result beyond the largest; NX exactly when inexact, UF exactly when inexact and tiny after rounding. -/
def Sys2Proof.Claim.Rounded (t : Fmt) (big above : Nat) (mode : RMode) (sat neg : Bool) (against : Nat → Int → Ordering)
    (r : Nat × BitVec 5) : Prop :=
  ∀ lo,
    let at_ := fun k => against (magnitude t k).1 (magnitude t k).2
    let least : Int := 1 - t.B - t.M
    let exact := at_ lo == .eq
    let mid := against (2 * (magnitude t lo).1 + 1) ((magnitude t lo).2 - 1)
    let up := takesUpper mode neg exact mid (lo % 2 == 1)
    let k := if up then lo + 1 else lo
    let reaches := takesUpper mode neg (against (2 ^ (t.M + 1) - 1) (least - 1) != .gt) (against (2 ^ (t.M + 2) - 1) (least - 2)) true
    let infinite := match mode with
      | .rne => true
      | .rmm => true
      | .rtz => false
      | .rdn => neg
      | .rup => !neg
    let beyond := if infinite = false ∨ sat = true then t.sign neg big else if t.noInf then above else t.sign neg above
    at_ lo ≠ .lt → at_ (lo + 1) = .lt →
      (k ≤ big → r.1 = t.sign neg k ∧ (r.2.getLsbD 0 = true ↔ exact = false) ∧
        (r.2.getLsbD 1 = true ↔ exact = false ∧ (lo + 1 < 2 ^ t.M ∨ lo + 1 = 2 ^ t.M ∧ reaches = false)) ∧ r.2.toNat < 4) ∧
      (big < k → r = (beyond, fOF ||| fNX))

/-- FP arithmetic and conversions (R96): with a rounding mode, static or from frm, the correctly rounded result, its
flags ORed into fflags; FDIV and FSQRT occupy 2 rotations as .S and 3 as .D. What correctly rounded means, for the formats of Table 05.1
(R133, R135, R136). As ratified (log entry 63). -/
def Obligations.FpArithmetic : Prop :=
  (∀ (s : State) (t : FpFmt) (v : IntFmt) (fd rs1 rs2 rs3 : FReg) (rd x1 : XReg) (rm : Rm) (m : RMode), modeOfRm rm s.me.frm = some m →
    let F := fpFmt t
    let a := s.fp t rs1
    let b := s.fp t rs2
    let c := s.fp t rs3
    let slow := match t with
      | .s => 2
      | .d => 3
    let fp := fun (i : Instr) (u : FpFmt) (r : Nat × BitVec 5) (L : Nat) => ∃ w, exec i s = .next w ∧ FpDone s w fd (box u r.1) r.2 L
    fp (.fadd t fd rs1 rs2 rm) t (F.add m a b) 1 ∧ fp (.fsub t fd rs1 rs2 rm) t (F.sub m a b) 1 ∧
    fp (.fmul t fd rs1 rs2 rm) t (F.mul m a b) 1 ∧ fp (.fdiv t fd rs1 rs2 rm) t (F.div m a b) slow ∧
    fp (.fsqrt t fd rs1 rm) t (F.sqrt m a) slow ∧
    fp (.fmadd t fd rs1 rs2 rs3 rm) t (F.fma m false false a b c) 1 ∧ fp (.fmsub t fd rs1 rs2 rs3 rm) t (F.fma m false true a b c) 1 ∧
    fp (.fnmsub t fd rs1 rs2 rs3 rm) t (F.fma m true false a b c) 1 ∧ fp (.fnmadd t fd rs1 rs2 rs3 rm) t (F.fma m true true a b c) 1 ∧
    fp (.fcvtSD fd rs1 rm) .s (fmt32.roundNum m (fmt64.value (s.fp .d rs1))) 1 ∧
    fp (.fcvtDS fd rs1 rm) .d (fmt64.roundNum m (fmt32.value (s.fp .s rs1))) 1 ∧
    fp (.fcvtFpFromInt t v fd x1 rm) t (intToFp F m (xToInt v (s.x x1))) 1 ∧
    (∃ w, exec (.fcvtIntFromFp t v rd rs1 rm) s = .next w ∧ FlagDone s w rd (fpToInt F v m a).1 (fpToInt F v m a).2)) ∧
  ∀ (t : Fmt) (big above : Nat) (m : RMode), (t, big, above) ∈ formats →
    let right := Rounded t big above m
    let sgn := fun (neg : Bool) (n : Nat) => if neg then - (n : Int) else (n : Int)
    let sum := fun (an : Bool) (am : Nat) (ae : Int) (bn : Bool) (bm : Nat) (be : Int) (r : Nat × BitVec 5) =>
      let e := min ae be
      let n := sgn an (am * 2 ^ (ae - e).toNat) + sgn bn (bm * 2 ^ (be - e).toNat)
      (n ≠ 0 → right false (decide (n < 0)) (versus n.natAbs 1 e) r) ∧
      (n = 0 → r = (t.sign (if an = bn then an else m == .rdn) 0, 0))
    let invalid := fun (r : Nat × BitVec 5) (nv : Bool) => r = (t.qnan, if nv then fNV else 0)
    (∀ sat neg num den e, 0 < num → 0 < den → right sat neg (versus num den e) (t.round m sat neg num den e)) ∧
    (∀ v, (∀ neg n e, v = .fin neg n e → n ≠ 0 → right false neg (versus n 1 e) (t.roundNum m v)) ∧
      (∀ neg e, v = .fin neg 0 e → t.roundNum m v = (t.sign neg 0, 0)) ∧ (∀ neg, v = .inf neg → t.roundNum m v = (t.infBits neg, 0)) ∧ (∀ sig, v = .nan sig → invalid (t.roundNum m v) sig)) ∧
    (∀ n : Int, n ≠ 0 → right false (decide (n < 0)) (versus n.natAbs 1 0) (intToFp t m n)) ∧
    (∀ (v : IntFmt) (a : Nat) (neg : Bool) (n : Nat) (e : Int) (lo : Nat), t.value a = .fin neg n e → versus n 1 e lo 0 ≠ .lt →
      versus n 1 e (lo + 1) 0 = .lt →
      let exact := versus n 1 e lo 0 == .eq
      let z := sgn neg (if takesUpper m neg exact (versus n 1 e (2 * lo + 1) (-1)) (lo % 2 == 1) then lo + 1 else lo)
      let r := intRange v
      fpToInt t v m a = if z < r.1 then (intToX v r.1, fNV) else if r.2 < z then (intToX v r.2, fNV)
        else (intToX v z, if exact then 0 else fNX)) ∧
    (∀ a b c an am ae bn bm be cn cm ce, t.value a = .fin an am ae → t.value b = .fin bn bm be → t.value c = .fin cn cm ce →
      sum an am ae bn bm be (t.add m a b) ∧ sum an am ae (!bn) bm be (t.sub m a b) ∧
      (am * bm ≠ 0 → right false (an != bn) (versus (am * bm) 1 (ae + be)) (t.mul m a b)) ∧
      (am * bm = 0 → t.mul m a b = (t.sign (an != bn) 0, 0)) ∧
      (∀ np nc, sum ((an != bn) != np) (am * bm) (ae + be) (cn != nc) cm ce (t.fma m np nc a b c)) ∧
      (bm ≠ 0 → am ≠ 0 → right false (an != bn) (versus am bm (ae - be)) (t.div m a b)) ∧
      (bm ≠ 0 → am = 0 → t.div m a b = (t.sign (an != bn) 0, 0)) ∧ (bm = 0 → am = 0 → invalid (t.div m a b) true) ∧
      (bm = 0 → am ≠ 0 → t.div m a b = (t.infBits (an != bn), fDZ)) ∧
      (am = 0 → t.sqrt m a = (t.sign an 0, 0)) ∧ (am ≠ 0 → an = true → invalid (t.sqrt m a) true) ∧
      (am ≠ 0 → an = false → right false false (fun k f => versus am 1 ae (k * k) (2 * f)) (t.sqrt m a))) ∧
    ∀ a b, let x := t.value a
      let y := t.value b
      ((x.isNan || y.isNan) = true → invalid (t.add m a b) (x.isSig || y.isSig) ∧ invalid (t.sub m a b) (x.isSig || y.isSig) ∧
        invalid (t.mul m a b) (x.isSig || y.isSig) ∧ invalid (t.div m a b) (x.isSig || y.isSig)) ∧
      (x.isNan = true → invalid (t.sqrt m a) x.isSig) ∧ (x = .inf true → invalid (t.sqrt m a) true) ∧
      (x = .inf false → t.sqrt m a = (t.infBits false, 0)) ∧
      (∀ p q n e, x = .inf p → y = .fin q n e → t.add m a b = (t.infBits p, 0) ∧ t.add m b a = (t.infBits p, 0) ∧
        t.sub m a b = (t.infBits p, 0) ∧ t.sub m b a = (t.infBits (!p), 0) ∧ (n ≠ 0 → t.mul m a b = (t.infBits (p != q), 0)) ∧
        t.div m a b = (t.infBits (p != q), 0) ∧ t.div m b a = (t.sign (p != q) 0, 0)) ∧
      (∀ p q, x = .inf p → y = .inf q → (p ≠ q → invalid (t.add m a b) true) ∧ (p = q → invalid (t.sub m a b) true) ∧
        (p = q → t.add m a b = (t.infBits p, 0)) ∧ t.mul m a b = (t.infBits (p != q), 0) ∧ invalid (t.div m a b) true) ∧
      (∀ p q e, x = .inf p → y = .fin q 0 e → invalid (t.mul m a b) true ∧ invalid (t.mul m b a) true)

/-- R96: a dynamic rounding mode of 5 to 7 makes each of them an illegal instruction. R134: so does frm of 5 to 7 for
the engine instructions that read it at issue, MOUT, VCVT and VQNT, which have passed the checks that come before
(R71, R107, R174). -/
def Obligations.FpModeTraps : Prop :=
  ∀ (s : State) (t : FpFmt) (v : IntFmt) (fd rs1 rs2 rs3 : FReg) (rd x1 : XReg), 5 ≤ s.me.frm.toNat →
    (∀ i ∈ ([.fadd t fd rs1 rs2 .dyn, .fsub t fd rs1 rs2 .dyn, .fmul t fd rs1 rs2 .dyn, .fdiv t fd rs1 rs2 .dyn, .fsqrt t fd rs1 .dyn,
      .fmadd t fd rs1 rs2 rs3 .dyn, .fmsub t fd rs1 rs2 rs3 .dyn, .fnmsub t fd rs1 rs2 rs3 .dyn, .fnmadd t fd rs1 rs2 rs3 .dyn,
      .fcvtSD fd rs1 .dyn, .fcvtDS fd rs1 .dyn, .fcvtFpFromInt t v fd x1 .dyn, .fcvtIntFromFp t v rd rs1 .dyn] : List Instr),
      ∃ u w, exec i s = .next u ∧ encode i = some w ∧ Trapped s u 2 (w.setWidth 64) s.me.pc) ∧
    (∀ (n sr sat : Bool) (g : CvtTgt) (k : VType) (a : BitVec 1) (d b : Handle),
      let illegal := fun (i : Instr) => ∃ u, exec i s = .next u ∧ Trapped s u 2 (((encode i).getD 0).setWidth 64) s.me.pc
      let named := FMap.get? s.myVc.binds 1 = some s.ix ∧ (s.handle? d .producer (kindIs [0])).isSome = true ∧
        (s.handle? b .consumer (feeds 1)).isSome = true
      (FMap.get? s.myVc.binds 0 = some s.ix → (s.handle? d .producer (kindIs [0])).isSome = true → illegal (.mout n d a rd)) ∧
      (named → (fOnly (.vcvt n sr sat g k d b) = true → isF (s.dieOf s.vk) = true) → illegal (.vcvt n sr sat g k d b)) ∧
      (named → (fOnly (.vqnt n sr sat g k d b) = true → isF (s.dieOf s.vk) = true) → illegal (.vqnt n sr sat g k d b)))

/-! Threads, semaphores, rings, full bits, guyline. -/

/-- R103 to R106 and the slot states of Table 01.11: FORK to free slots names them for the next boundary, with the registers they
start with and a bundle number that no live bundle uses, and returns its mask; with a slot that is not free or does not exist it starts
nothing and returns 0. JOIN and PARK complete or park. HALT changes no register; that of the slot that took PRE, after CTXSAV cleared it,
ends the save (R355). What a FORK leaves unlisted, the pc of a HALT, how a save ends: log entries 16 and 19. -/
def Obligations.Threads : Prop :=
  ∀ (s : State) (rd rs1 rs2 : XReg),
    let m := (s.x rs2).toNat % 65536
    let st := fun (j : Nat) => (s.slot (slotKey s.vk j)).st
    let free := fun (j : Nat) => (st j = .empty ∨ st j = .halted) ∧ ∀ f ∈ s.myVc.forks, f.slot ≠ j
    let unused := fun (b : Nat) => (∀ p ∈ s.slots, p.1 / 16 = s.vk → p.2.st ≠ .empty → p.2.st ≠ .halted → p.2.bundle ≠ b) ∧
      ∀ f ∈ s.myVc.forks, f.image.bundle ≠ b
    (s.x rs1 &&& 3 = 0 → m ≠ 0 → m.testBit s.ix = false → m < 2 ^ slotCount s.myVc →
      (∀ j, m.testBit j = true → free j) →
      ∃ t, exec (.fork rd rs1 rs2) s = .next t ∧ VcDone s t { s.myVc with forks := t.myVc.forks } rd (BitVec.ofNat 64 m) ∧
        (∀ f, f ∈ s.myVc.forks → f ∈ t.myVc.forks) ∧
        ∀ j < 16, m.testBit j = true → ∃ f ∈ t.myVc.forks, f.slot = j ∧ f.cyc = s.cycOf s.vk ∧ f.image.pc = s.x rs1 ∧
          f.image.readX 10 = BitVec.ofNat 64 j ∧ f.image.readX 11 = BitVec.ofNat 64 m ∧ f.image.f = s.me.f ∧
          (∀ r : XReg, r ≠ 10 → r ≠ 11 → f.image.readX r = s.x r) ∧ f.image.frm = s.me.frm ∧ f.image.h = s.me.h ∧
          f.image.segbase = s.me.segbase ∧ f.image.seglim = s.me.seglim ∧ f.image.qowner = s.me.qowner ∧ f.image.mie = s.me.mie ∧
          ((∃ b < 16, unused b) → unused f.image.bundle)) ∧
    (s.x rs1 &&& 3 = 0 → 2 ^ slotCount s.myVc ≤ m ∨ (∃ j, m.testBit j = true ∧ ¬ free j) →
      ∃ t, exec (.fork rd rs1 rs2) s = .next t ∧ Did s t rd 0 (s.me.pc + 4)) ∧
    (s.x rs1 &&& 3 = 0 → m = 0 ∨ m.testBit s.ix = true → ∃ t, exec (.fork rd rs1 rs2) s = .next t ∧ Did s t rd 0 (s.me.pc + 4)) ∧
    (s.x rs1 &&& 3 ≠ 0 → ∃ t, exec (.fork rd rs1 rs2) s = .next t ∧ Trapped s t 0 (s.x rs1) s.me.pc) ∧
    (s.joined ((s.x rs1).toNat % 65536) = true → ∃ t, exec (.join rs1) s = .next t ∧ Did s t 0 0 (s.me.pc + 4)) ∧
    (s.joined ((s.x rs1).toNat % 65536) = false → ∃ t, exec (.join rs1) s = .next t ∧ Parked s t (.join ((s.x rs1).toNat % 65536))) ∧
    (s.me.pendingAny = true → ∃ t, exec .park s = .next t ∧ Did s t 0 0 (s.me.pc + 4)) ∧
    (s.me.pendingAny = false → ∃ t, exec .park s = .next t ∧ Parked s t .interrupt) ∧
    (∃ t, exec .halt s = .next t ∧ t.me.st = .halted ∧ t.me.minstret = s.me.minstret + 1 ∧
      { t.me with st := s.me.st, minstret := s.me.minstret, hold := s.me.hold, haltAt := s.me.haltAt } = s.me ∧
      (∀ k, k ≠ s.cur → { t.slot k with wakeAt := (s.slot k).wakeAt } = s.slot k) ∧
      (∀ k n, k ≠ s.cur → k / 16 = s.vk → (s.slot k).st = .parked → (s.slot k).park = some (.join n) → n.testBit s.ix = true →
        (t.slot k).wakeAt.isSome = true) ∧
      (s.me.mode = .u ∨ s.myVc.lead ≠ some s.ix ∨ s.myVc.saveOk = false → { t with slots := s.slots } = s) ∧
      (s.me.mode = .m → s.myVc.lead = some s.ix → s.myVc.saveOk = true → t.myVc = { s.myVc with ending := true } ∧
        (∀ k, k ≠ s.vk → t.vc k = s.vc k) ∧ { t with slots := s.slots, vcs := s.vcs } = s))

/-- The changes of a slot at a rotation boundary (R43, R46, R103, R105): started by a FORK, in U mode with fflags
and mstatus as at reset, from HALTED to EMPTY, from
PARKED and from TRAPPED to ISSUING, or to DROPPED while its load is out; ev.key names the slot. The operands in ev are the model's (log entry 2). -/
def Obligations.BoundaryChanges : Prop :=
  ∀ s : State,
    let k := s.ev.key
    let vk := k / 16
    (∀ f, s.canForkStart k = true → (s.vc vk).forks.find? (fun f => f.slot == k % 16) = some f → (s.vc vk).holds = [] →
      ∃ t, exec .forkSlotStart s = .next t ∧ (t.slot k).st = .issuing ∧ (t.slot k).mode = .u ∧ (t.slot k).pc = f.image.pc ∧
        (t.slot k).x = f.image.x ∧ (t.slot k).f = f.image.f ∧ (t.slot k).bundle = f.image.bundle ∧ (t.slot k).frm = f.image.frm ∧
        (t.slot k).fflags = 0 ∧ (t.slot k).h = f.image.h ∧ (t.slot k).segbase = f.image.segbase ∧ (t.slot k).seglim = f.image.seglim ∧
        (t.slot k).qowner = f.image.qowner ∧ (t.slot k).mie = f.image.mie ∧ (t.slot k).mstMIE = false ∧ (t.slot k).mstMPIE = false ∧
        (t.slot k).mstMPP = .u ∧ (t.slot k).mepc = (s.slot k).mepc ∧ t.mem = s.mem) ∧
    (s.canEmpty k = true → ∃ t, exec .haltedToEmpty s = .next t ∧ (t.slot k).st = .empty ∧ (∀ j, j ≠ k → t.slot j = s.slot j) ∧
      { t with slots := s.slots } = s) ∧
    (s.canUnpark k = true → ∃ t, exec .slotUnpark s = .next t ∧ (t.slot k).st = .issuing ∧ (t.slot k).park = none ∧
      (t.slot k).pc = (s.slot k).pc ∧ (∀ j, j ≠ k → t.slot j = s.slot j) ∧ { t with slots := s.slots } = s) ∧
    (s.canRelease k = true → (s.slot k).ends = false → (s.vc vk).holds = [] → ∃ t, exec .trappedRelease s = .next t ∧
      (((s.slot k).offender = true ∨ ∀ id r f p, (s.slot k).hold ≠ some (.load id r f p)) → (t.slot k).st = .issuing) ∧
      (∀ id r f p, (s.slot k).offender = false → (s.slot k).hold = some (.load id r f p) → (t.slot k).st = .dropped) ∧
      (t.slot k).trap = none ∧
      (t.slot k).pc = (if (s.slot k).offender = true then (s.slot k).pc + 4 else (s.slot k).pc) ∧ t.mem = s.mem) ∧
    (s.canRelease k = true → (s.slot k).ends = true → ∃ t, exec .trappedRelease s = .next t ∧ (t.slot k).st = .empty ∧ t.mem = s.mem)

/-- R107: engine bindings. R108: the semaphore instructions and their words; a SEMWAIT that finds too little parks,
and a SEMPOST wakes the slots parked on its semaphore (R109). -/
def Obligations.BindingsAndSemaphores : Prop :=
  ∀ (s : State) (e : Engine) (n : SemIx) (rd rs1 : XReg),
    let k := (s.x rs1).toNat % 65536
    let v := s.myVc
    let old := (v.sems[n.toNat]'(n.isLt)).toNat
    let sem := fun (j : Nat) => { v with sems := v.sems.set n.toNat (BitVec.ofNat 16 j) n.isLt }
    (FMap.get? v.binds e.toNat = none → ∃ t, exec (.engbind e) s = .next t ∧ FMap.get? t.myVc.binds e.toNat = some s.ix ∧
      (∀ d, d ≠ e.toNat → FMap.get? t.myVc.binds d = FMap.get? v.binds d) ∧ VcDone s t { v with binds := t.myVc.binds } 0 0) ∧
    (FMap.get? v.binds e.toNat = some s.ix → ∃ t, exec (.engbind e) s = .next t ∧ Did s t 0 0 (s.me.pc + 4)) ∧
    (∀ j, j ≠ s.ix → FMap.get? v.binds e.toNat = some j → ∃ t, exec (.engbind e) s = .next t ∧ Trapped s t 29 (e.setWidth 64) s.me.pc) ∧
    (FMap.get? v.binds e.toNat = some s.ix → ∃ t, exec (.engfree e) s = .next t ∧ FMap.get? t.myVc.binds e.toNat = none ∧
      (∀ d, d ≠ e.toNat → FMap.get? t.myVc.binds d = FMap.get? v.binds d) ∧ VcDone s t { v with binds := t.myVc.binds } 0 0) ∧
    (FMap.get? v.binds e.toNat ≠ some s.ix → ∃ t, exec (.engfree e) s = .next t ∧ Trapped s t 29 (e.setWidth 64) s.me.pc) ∧
    (∃ t, exec (.sempost n rs1) s = .next t ∧ VcDone s t (sem (min (old + k) 65535)) 0 0 ∧
      ∀ j, j / 16 = s.vk → (s.slot j).st = .parked → (s.slot j).park = some (.sem n.toNat) → (t.slot j).wakeAt.isSome = true) ∧
    (k ≤ old → ∃ t, exec (.semwait n rs1) s = .next t ∧ VcDone s t (sem (old - k)) 0 0) ∧
    (old < k → ∃ t, exec (.semwait n rs1) s = .next t ∧ Parked s t (.sem n.toNat)) ∧
    (k ≤ old → ∃ t, exec (.semtry rd n rs1) s = .next t ∧ VcDone s t (sem (old - k)) rd (BitVec.ofNat 64 (65536 + old))) ∧
    (old < k → ∃ t, exec (.semtry rd n rs1) s = .next t ∧ Did s t rd (BitVec.ofNat 64 old) (s.me.pc + 4)) ∧
    encode (.sempost n rs1) = some (0b0000000#7 ++ n ++ rs1 ++ 0b001#3 ++ 0b00000#5 ++ 0b0001011#7) ∧
    encode (.semwait n rs1) = some (0b0000001#7 ++ n ++ rs1 ++ 0b001#3 ++ 0b00000#5 ++ 0b0001011#7) ∧
    encode (.semtry rd n rs1) = some (0b0000010#7 ++ n ++ rs1 ++ 0b001#3 ++ rd ++ 0b0001011#7)

/-- R111, R117: RINGSET of a good image sets the descriptor and enables the slots parked on the ring; a rejected one takes the
ring-protection trap of class 2 with the lowest of the ten reasons and changes nothing; while levelled entries are on their way to the ring
it waits (R298; its form is the model's, log entry 38). RINGGET stores the image back. Their alignment traps. R112: HBIND sets a handle,
whatever the descriptor; an index of 64 or more takes the ring-protection trap; its word. -/
def Obligations.RingDescriptors : Prop :=
  ∀ (s : State) (h : Handle) (rs1 rs2 : XReg) (role : BitVec 2) (g : Nat),
    let i := s.x rs1
    let a := s.x rs2
    let w := Memory.words s.mem g 4
    let r := ringOfWords w[0]! w[1]! w[2]!
    let n := fun (k lo len : Nat) => (w[k]!).toNat / 2 ^ lo % 2 ^ len
    let kind := n 0 0 3
    let size8 := n 0 8 10
    let base := n 0 20 20
    let head := n 1 0 12
    let tail := n 1 16 12
    let fill := n 1 32 13
    let scope := n 2 0 2
    let count := 2 ^ n 0 4 4
    let busy := s.myVc.ringBusy i.toNat = true
    let why : Nat → Prop := fun k =>
      (k = 1 ∧ 5 < kind) ∨ (k = 2 ∧ 12 < n 0 4 4) ∨ (k = 3 ∧ (size8 = 0 ∨ 512 < size8)) ∨ (k = 4 ∧ base % 8 ≠ 0) ∨
      (k = 5 ∧ (if s.me.mode = .u then s.me.seglim.toNat else 0x100000) < base + count * (8 * size8)) ∨
      (k = 6 ∧ (count ≤ head ∨ count ≤ tail ∨ count < fill ∨ (tail + count - head) % count ≠ fill % count)) ∨
      (k = 7 ∧ (scope = 3 ∨ n 2 17 2 = 3 ∨ kind = 4 ∧ (size8 ≠ 2 ∨ scope = 0 ∧ n 2 16 1 = 1))) ∨
      (k = 8 ∧ (kind = 1 ∨ kind = 2) ∧ ∃ p ∈ s.myVc.rings, p.1 ≠ i.toNat ∧ p.2.valid = true ∧ p.2.kind.toNat = kind ∧
        p.2.port.toNat = n 2 24 8) ∨
      (k = 9 ∧ busy) ∨
      (k = 10 ∧ (n 0 18 2 ≠ 0 ∨ n 0 40 24 ≠ 0 ∨ n 1 12 4 ≠ 0 ∨ n 1 28 4 ≠ 0 ∨ n 1 45 19 ≠ 0 ∨ n 2 2 6 ≠ 0 ∨ n 2 19 1 ≠ 0 ∨ n 2 22 2 ≠ 0 ∨
        n 2 32 32 ≠ 0 ∨ w[3]! ≠ 0))
    let here := i.toNat < 64 ∧ a.toNat % 8 = 0 ∧ At s a 32 false g ∧ s.levelInTransit s.vk i.toNat = false
    let trap2 := fun (k : Nat) => ∃ t, exec (.ringset rs1 rs2) s = .next t ∧
      Trapped s t 25 (BitVec.ofNat 64 (128 + 256 * i.toNat + 65536 * k)) s.me.pc
    (∀ k, here → r.valid = true → why k → (∀ j < k, ¬ why j) → trap2 k) ∧ (here → r.valid = false → busy → trap2 9) ∧
    (i.toNat < 64 → a.toNat % 8 ≠ 0 → (∃ t, exec (.ringset rs1 rs2) s = .next t ∧ Trapped s t 4 a s.me.pc) ∧
      ∃ t, exec (.ringget rs1 rs2) s = .next t ∧ Trapped s t 6 a s.me.pc) ∧
    (i.toNat < 64 → a.toNat % 8 = 0 → ∀ c tv,
      (lmCheck s.me a 32 false = .error (c, tv) → ∃ t, exec (.ringset rs1 rs2) s = .next t ∧ Trapped s t (BitVec.ofNat 64 c) tv s.me.pc) ∧
      (lmCheck s.me a 32 true = .error (c, tv) → ∃ t, exec (.ringget rs1 rs2) s = .next t ∧ Trapped s t (BitVec.ofNat 64 c) tv s.me.pc)) ∧
    (i.toNat < 64 → a.toNat % 8 = 0 → At s a 32 false g → s.levelInTransit s.vk i.toNat = true →
      ∃ t, exec (.ringset rs1 rs2) s = .next t ∧ t.me = { s.me with hold := some (.waiting false) } ∧
        (∀ k, k ≠ s.cur → t.slot k = s.slot k) ∧ { t with slots := s.slots } = s) ∧
    (here → r.valid = true → (∀ k, ¬ why k) →
      ∃ t, exec (.ringset rs1 rs2) s = .next t ∧
        (∀ k, k ≠ s.cur → k / 16 = s.vk → (s.slot k).st = .parked →
          (s.slot k).park = some (.ringFill i.toNat) ∨ (s.slot k).park = some (.ringRoom i.toNat) → (t.slot k).wakeAt.isSome = true) ∧
        RingMoved s t i.toNat { r with base := if s.me.mode = .u then r.base + s.me.segbase.setWidth 20 else r.base } 0 0 ∧
        t.mem = s.mem) ∧
    (here → r.valid = false → ¬ busy → ∃ t, exec (.ringset rs1 rs2) s = .next t ∧ RingMoved s t i.toNat {} 0 0 ∧ t.mem = s.mem) ∧
    (64 ≤ i.toNat → ∃ t, exec (.ringset rs1 rs2) s = .next t ∧ Trapped s t 25 (BitVec.ofNat 64 (128 + i.toNat % 256 * 256)) s.me.pc) ∧
    (i.toNat < 64 → a.toNat % 8 = 0 → At s a 32 true g →
      ∃ t, exec (.ringget rs1 rs2) s = .next t ∧ Kept s t 0 0 ∧ CodeMarked s t ∧
        { t with slots := s.slots, mem := s.mem, cores := s.cores } = s ∧
        Memory.words t.mem g 4 = wordsOfRing (s.ring s.vk i.toNat)
          (if s.me.mode = .u then ((s.ring s.vk i.toNat).base - s.me.segbase.setWidth 20).toNat else (s.ring s.vk i.toNat).base.toNat) ∧
        (∀ j, j < g ∨ g + 32 ≤ j → Memory.read t.mem j = Memory.read s.mem j)) ∧
    (i.toNat < 64 → ∃ t, exec (.hbind h rs1 role) s = .next t ∧ t.me.pc = s.me.pc + 4 ∧ t.me.x = s.me.x ∧ t.me.f = s.me.f ∧
      t.me.h = s.me.h.set h.toNat (role ++ i.setWidth 6) h.isLt ∧ (∀ k, k ≠ s.cur → t.slot k = s.slot k) ∧ { t with slots := s.slots } = s) ∧
    (64 ≤ i.toNat → ∃ t, exec (.hbind h rs1 role) s = .next t ∧ Trapped s t 25 (BitVec.ofNat 64 (128 + i.toNat % 256 * 256)) s.me.pc) ∧
    encode (.hbind h rs1 role) = some (0b0000010#7 ++ 0b00#2 ++ h ++ rs1 ++ 0b010#3 ++ 0b000#3 ++ role ++ 0b0001011#7)

/-- R113: waits and advances of a ring through a handle: a count they cannot meet takes the ring-protection trap of
class 1, a handle that does not fit (R110) that of class 0; their words. R114, R115: HPOP and HPUSH. -/
def Obligations.RingTransfers : Prop :=
  ∀ (s : State) (h : Handle) (rd rs1 : XReg) (ix : Nat),
    let r := s.ring s.vk ix
    let k := (s.x rs1).toNat
    let con := fun (kinds : List Nat) => s.handle? h .consumer (kindIs kinds) = some ix
    let pro := fun (kinds : List Nat) => s.handle? h .producer (kindIs kinds) = some ix
    (con [0, 1, 3, 4] → k ≤ r.count → k ≤ r.fill → ∃ t, exec (.hwaitf h rs1) s = .next t ∧ Did s t 0 0 (s.me.pc + 4)) ∧
    (con [0, 1, 3, 4] → k ≤ r.count → r.fill < k → ∃ t, exec (.hwaitf h rs1) s = .next t ∧ Parked s t (.ringFill ix)) ∧
    (pro [0, 2, 4, 5] → k ≤ r.count → k ≤ r.room → ∃ t, exec (.hwaite h rs1) s = .next t ∧ Did s t 0 0 (s.me.pc + 4)) ∧
    (pro [0, 2, 4, 5] → k ≤ r.count → r.room < k → ∃ t, exec (.hwaite h rs1) s = .next t ∧ Parked s t (.ringRoom ix)) ∧
    let trap1 := fun (i : Instr) => ∃ t, exec i s = .next t ∧ Trapped s t 25 (BitVec.ofNat 64 (64 + h.toNat)) s.me.pc
    let trap0 := fun (i : Instr) => ∃ t, exec i s = .next t ∧ Trapped s t 25 (BitVec.ofNat 64 h.toNat) s.me.pc
    let still := fun (i : Instr) => ∃ t, exec i s = .next t ∧ Did s t 0 0 (s.me.pc + 4)
    let word := fun (i : Instr) (f : BitVec 7) => encode i = some (f ++ 0b00#2 ++ h ++ rs1 ++ 0b010#3 ++ 0b00000#5 ++ 0b0001011#7)
    (con [0, 1, 3, 4] → r.count < k → trap1 (.hwaitf h rs1)) ∧ (pro [0, 2, 4, 5] → r.count < k → trap1 (.hwaite h rs1)) ∧
    (con [0, 1, 3] → r.fill < k → trap1 (.hadvh h rs1)) ∧ (pro [0, 2, 5] → r.room < k → trap1 (.hadvt h rs1)) ∧
    (s.handle? h .consumer (kindIs [0, 1, 3, 4]) = none → trap0 (.hwaitf h rs1)) ∧
    (s.handle? h .producer (kindIs [0, 2, 4, 5]) = none → trap0 (.hwaite h rs1)) ∧
    (s.handle? h .consumer (kindIs [0, 1, 3]) = none → trap0 (.hadvh h rs1)) ∧
    (s.handle? h .producer (kindIs [0, 2, 5]) = none → trap0 (.hadvt h rs1)) ∧
    (con [0, 1, 3] → k = 0 → still (.hadvh h rs1)) ∧ (pro [0, 2, 5] → k = 0 → still (.hadvt h rs1)) ∧
    word (.hadvh h rs1) 0b0000011 ∧ word (.hadvt h rs1) 0b0000100 ∧ word (.hwaitf h rs1) 0b0000101 ∧ word (.hwaite h rs1) 0b0000110 ∧
    (con [0, 1, 3] → 0 < k → k ≤ r.fill → ∃ t, exec (.hadvh h rs1) s = .next t ∧
      RingMoved s t ix { r with head := (r.head + k) % r.count, fill := r.fill - k } 0 0 ∧ t.mem = s.mem) ∧
    (pro [0, 2, 5] → 0 < k → k ≤ r.room → ∃ t, exec (.hadvt h rs1) s = .next t ∧
      RingMoved s t ix { r with tail := (r.tail + k) % r.count, fill := r.fill + k } 0 0 ∧ t.mem = s.mem) ∧
    (con [0, 1, 3] → 1 ≤ r.fill → ∃ t, exec (.hpop rd h) s = .next t ∧
      RingMoved s t ix { r with head := (r.head + 1) % r.count, fill := r.fill - 1 } rd
        (BitVec.ofNat 64 (number s (s.ringAddr s.vk ix r.head) 8)) ∧ t.mem = s.mem) ∧
    (con [0, 1, 3] → r.fill = 0 → ∃ t, exec (.hpop rd h) s = .next t ∧ Parked s t (.ringFill ix)) ∧
    (pro [0, 2, 5] → r.fill < r.count → ∃ t, exec (.hpush h rs1) s = .next t ∧
      RingMoved s t ix { r with tail := (r.tail + 1) % r.count, fill := r.fill + 1 } 0 0 ∧ Stored s t (s.ringAddr s.vk ix r.tail) 8 (s.x rs1).toNat) ∧
    (pro [0, 2, 5] → r.count ≤ r.fill →
      let fenced := r.kind = 2 ∧ r.vnet = 0 ∧ (s.core (s.coreOf s.vk)).sqfen = true ∧ s.me.mode = .u
      (fenced → ∃ t, exec (.hpush h rs1) s = .next t ∧ Trapped s t 26 (((encode (.hpush h rs1)).getD 0).setWidth 64) s.me.pc) ∧
      (¬ fenced → ∃ t, exec (.hpush h rs1) s = .next t ∧ Parked s t (.ringRoom ix))) ∧
    (s.handle? h .consumer (kindIs [0, 1, 3]) = none → ∃ t, exec (.hpop rd h) s = .next t ∧ Trapped s t 25 (BitVec.ofNat 64 h.toNat) s.me.pc) ∧
    (s.handle? h .producer (kindIs [0, 2, 5]) = none → ∃ t, exec (.hpush h rs1) s = .next t ∧ Trapped s t 25 (BitVec.ofNat 64 h.toNat) s.me.pc)

/-- R118, R119: LDF and LDFE of a full word, STF and STEF, FEGET; an empty word parks a load, a full one STEF; FESET
and FECLR change 1,024 words a rotation. -/
def Obligations.FullEmpty : Prop :=
  ∀ (s : State) (rd rs1 rs2 : XReg) (a : Nat),
    let ea := s.x rs1
    let n := (s.x rs2).toNat
    let ok := fun (store : Bool) => ea.toNat % 8 = 0 ∧ At s ea 8 store a
    let got := BitVec.ofNat 64 (number s a 8)
    let waits := fun (i : Instr) (w : Await) => ∃ t, exec i s = .next t ∧ Parked s t w
    let bits := fun (t : State) (v : Bool) => t.isFull a = v ∧ ∀ b, b ≠ a → t.isFull b = s.isFull b
    let rest := fun (t : State) => CodeMarked s t ∧ { t with slots := s.slots, mem := s.mem, full := s.full, cores := s.cores } = s
    let put := fun (i : Instr) (v : Bool) (a n : Nat) =>
      let k := min n 1024
      ∃ t, exec i s = .next t ∧ (∀ j < k, t.isFull (a + 8 * j) = v) ∧ (∀ b, (∀ j < k, b ≠ a + 8 * j) → t.isFull b = s.isFull b) ∧
        t.mem = s.mem ∧ rest t ∧ (n ≤ 1024 → Kept s t 0 0) ∧
        (1024 < n → t.me.hold = some (.span (a + 8192) (n - 1024)) ∧ t.me.pc = s.me.pc ∧ t.me.x = s.me.x ∧ t.me.f = s.me.f)
    (ok false → s.isFull a = true → ∃ t, exec (.ldf rd rs1) s = .next t ∧ Did s t rd got (s.me.pc + 4)) ∧
    (ok false → s.isFull a = true → ∃ t, exec (.ldfe rd rs1) s = .next t ∧ Kept s t rd got ∧ bits t false ∧
      t.mem = s.mem ∧ rest t) ∧
    (ok false → s.isFull a = false → waits (.ldf rd rs1) (.wordFull a) ∧ waits (.ldfe rd rs1) (.wordFull a)) ∧
    (ok true → ∃ t, exec (.stf rs2 rs1) s = .next t ∧ Kept s t 0 0 ∧ bits t true ∧ Stored s t a 8 n ∧ rest t) ∧
    (ok true → s.isFull a = false → ∃ t, exec (.stef rs2 rs1) s = .next t ∧ Kept s t 0 0 ∧ bits t true ∧ Stored s t a 8 n ∧ rest t) ∧
    (ok true → s.isFull a = true → waits (.stef rs2 rs1) (.wordEmpty a)) ∧
    (0 < n → s.me.hold = none → ea.toNat % 8 = 0 → At s ea (8 * n) true a →
      put (.feset rs1 rs2) true a n ∧ put (.feclr rs1 rs2) false a n) ∧
    (∀ b m, s.me.hold = some (.span b m) → put (.feset rs1 rs2) true b m ∧ put (.feclr rs1 rs2) false b m) ∧
    (n = 0 → s.me.hold = none → (∃ t, exec (.feset rs1 rs2) s = .next t ∧ Did s t 0 0 (s.me.pc + 4)) ∧
      ∃ t, exec (.feclr rs1 rs2) s = .next t ∧ Did s t 0 0 (s.me.pc + 4)) ∧
    (At s (BitVec.ofNat 64 (ea.toNat / 8 * 8)) 8 false a →
      ∃ t, exec (.feget rd rs1) s = .next t ∧ Did s t rd (if s.isFull a = true then 1 else 0) (s.me.pc + 4)) ∧
    (ea.toNat % 8 ≠ 0 → ∃ t, exec (.stf rs2 rs1) s = .next t ∧ Trapped s t 6 ea s.me.pc)

/-- The eight results of Table 04.4 over the values of an episode. -/
structure Sys2Proof.Claim.Combined (vs rs : List Word) : Prop where
  eight : rs.length = 8
  sum : rs[0]? = some (BitVec.ofNat 64 (vs.map BitVec.toNat).sum)
  minU : ∃ r ∈ vs, rs[1]? = some r ∧ ∀ v ∈ vs, r.toNat ≤ v.toNat
  maxU : ∃ r ∈ vs, rs[2]? = some r ∧ ∀ v ∈ vs, v.toNat ≤ r.toNat
  minS : ∃ r ∈ vs, rs[3]? = some r ∧ ∀ v ∈ vs, r.toInt ≤ v.toInt
  maxS : ∃ r ∈ vs, rs[4]? = some r ∧ ∀ v ∈ vs, v.toInt ≤ r.toInt
  and_ : ∃ r, rs[5]? = some r ∧ ∀ i < 64, r.getLsbD i = true ↔ ∀ v ∈ vs, v.getLsbD i = true
  or_ : ∃ r, rs[6]? = some r ∧ ∀ i < 64, r.getLsbD i = true ↔ ∃ v ∈ vs, v.getLsbD i = true
  xor_ : ∃ r, rs[7]? = some r ∧ ∀ i < 64, r.getLsbD i = true ↔ (vs.filter (fun v => v.getLsbD i)).length % 2 = 1

/-- R120, R121, Table 04.4: GARRIVE, GWAIT and GBAR of a member; an arrival opens an episode, joins it, or is held for the next; the
completion of an episode is sent to its members with the eight results, which the member then holds with its pending bit cleared and
its waiting slots woken. The operands in ev, and that arrivals and completions are messages of the control network, are the model's
(log entry 2). -/
def Obligations.Guyline : Prop :=
  ∀ (s : State) (rd rs1 rs2 : XReg) (i : Nat),
    let g := (s.x rs1).toNat % 256
    let arrival := Msg.mk (.vc s.vk) .memory .control (.arrive g (s.x rs2)) none false
    let e := s.ev.key
    let x := s.group e
    let trap := fun (j : Instr) (why : Nat) => ∃ t, exec j s = .next t ∧ Trapped s t 25 (BitVec.ofNat 64 (192 + g * 256 + 65536 * why)) s.me.pc
    (s.memberOf g = some i → s.gpending i = false →
      ∃ t, exec (.garrive rs1 rs2) s = .next t ∧ t.gpending i = true ∧ Kept s t 0 0 ∧ t.net = s.net ++ [arrival] ∧
        { t with slots := s.slots, vcs := s.vcs, net := s.net } = s ∧ { t.myVc with gpend := s.myVc.gpend } = s.myVc ∧
        (∀ k, k ≠ s.vk → t.vc k = s.vc k)) ∧
    (s.memberOf g = some i → s.gpending i = true → trap (.garrive rs1 rs2) 1) ∧
    (s.memberOf g = none → trap (.garrive rs1 rs2) 0 ∧ trap (.gwait rd rs1) 0 ∧ trap (.gbar rd rs1 rs2) 0) ∧
    (s.memberOf g = some i → s.gpending i = false → ∃ t, exec (.gwait rd rs1) s = .next t ∧
      Did s t rd (s.gresult i ((s.x rs1).toNat / 256 % 8)) (s.me.pc + 4)) ∧
    (s.memberOf g = some i → s.gpending i = true → ∃ t, exec (.gwait rd rs1) s = .next t ∧ Parked s t (.group g)) ∧
    (s.memberOf g = some i → s.gpending i = false → s.me.arrived = some s.me.pc → ∃ t, exec (.gbar rd rs1 rs2) s = .next t ∧
      Did s t rd (s.gresult i ((s.x rs1).toNat / 256 % 8)) (s.me.pc + 4)) ∧
    (s.memberOf g = some i → s.gpending i = false → s.me.arrived ≠ some s.me.pc → ∃ t, exec (.gbar rd rs1 rs2) s = .next t ∧
      t.gpending i = true ∧ t.me = { s.me with st := .parked, park := some (.group g), wakeAt := none, arrived := some s.me.pc } ∧
      t.net = s.net ++ [arrival] ∧ (∀ k, k ≠ s.cur → t.slot k = s.slot k) ∧ { t with slots := s.slots, vcs := s.vcs, net := s.net } = s) ∧
    (s.memberOf g = some i → s.gpending i = true → ∃ t, exec (.gbar rd rs1 rs2) s = .next t ∧
      t.me = { s.me with st := .parked, park := some (.group g), wakeAt := none, arrived := some s.me.pc } ∧
      (∀ k, k ≠ s.cur → t.slot k = s.slot k) ∧ { t with slots := s.slots } = s) ∧
    (s.ev.val = 0 → s.episodeComplete e = true → x.arrivals ≠ [] → ∃ t rs, exec .guylineEpisodeCompletion s = .next t ∧
      Combined (x.arrivals.map Prod.snd) rs ∧
      t.net = s.net ++ x.members.map (fun vk => Msg.mk .memory (.vc vk) .control (.guyline e rs) none false) ∧
      (t.group e).episodes = x.episodes + 1 ∧ (t.group e).arrivals = x.early ∧ (t.group e).early = [] ∧
      ((t.group e).isOpen = true ↔ x.early ≠ []) ∧ (∀ j, j ≠ e → t.group j = s.group j) ∧
      { t with groups := s.groups, net := s.net } = s) ∧
    (∀ m vk k v, s.ev.val = 1 → s.net[s.ev.ix]? = some m → m.src = .vc vk → m.body = .arrive k v →
      ∃ t, exec .guylineEpisodeCompletion s = .next t ∧ t.net = s.net.eraseIdx s.ev.ix ∧ (∀ j, j ≠ k → t.group j = s.group j) ∧
        { t with groups := s.groups, net := s.net } = s ∧
        ((s.group k).isOpen = false → t.group k = { s.group k with isOpen := true, members := s.membersOf k, arrivals := [(vk, v)] }) ∧
        ((s.group k).isOpen = true → vk ∈ (s.group k).members →
          t.group k = { s.group k with arrivals := (s.group k).arrivals ++ [(vk, v)] }) ∧
        ((s.group k).isOpen = true → vk ∉ (s.group k).members → t.group k = { s.group k with early := (s.group k).early ++ [(vk, v)] })) ∧
    ∀ m vk k rs j, s.ev.val = 1 → s.evMsg = some m → m.src = .memory → m.dst = .vc vk → m.body = .guyline k rs → (s.vc vk).live = true →
      (s.vc vk).place.isSome = true → (s.vc vk).groups.findIdx? (· == k) = some j → ∃ t, exec .guylineEpisodeCompletion s = .next t ∧
        t.net = s.net.eraseIdx s.ev.ix ∧ FMap.get? (t.vc vk).gres j = some rs ∧ FMap.get? (t.vc vk).gpend j = some false ∧
        { t.vc vk with gres := (s.vc vk).gres, gpend := (s.vc vk).gpend } = s.vc vk ∧ (∀ q, q ≠ vk → t.vc q = s.vc q) ∧
        (∀ q, q / 16 = vk → (s.slot q).st = .parked → (s.slot q).park = some (.group k) → (t.slot q).wakeAt.isSome = true) ∧
        { t with slots := s.slots, vcs := s.vcs, net := s.net } = s

/-- R122: WPUSH of a free work ring copies 16 bytes to its tail and moves it, WPOP of a filled one copies them from
its head. R123: the scope check of both. The wait of WPUSH: log entry 18. -/
def Obligations.WorkRings : Prop :=
  ∀ (s : State) (h : Handle) (rs1 : XReg) (ix g : Nat),
    let r := s.ring s.vk ix
    let a := s.x rs1
    let may := r.scope = 1 → (s.memberOf r.sgrp.toNat).isSome = true
    (s.handle? h .producer (kindIs [4]) = some ix → may → a.toNat % 8 = 0 → At s a 16 false g → r.fill < r.count →
      s.fenced (workScope r) = [] → ∃ t, exec (.wpush h rs1) s = .next t ∧
        Memory.words t.mem (s.ringAddr s.vk ix r.tail) 2 = Memory.words s.mem g 2 ∧
        (∀ j, j < s.ringAddr s.vk ix r.tail ∨ s.ringAddr s.vk ix r.tail + 16 ≤ j → Memory.read t.mem j = Memory.read s.mem j) ∧
        RingMoved s t ix { r with tail := (r.tail + 1) % r.count, fill := r.fill + 1 } 0 0) ∧
    (s.handle? h .producer (kindIs [4]) = some ix → may → a.toNat % 8 = 0 → At s a 16 false g → r.fill = r.count →
      ∃ t, exec (.wpush h rs1) s = .next t ∧ Trapped s t 25 (BitVec.ofNat 64 (64 + h.toNat)) s.me.pc) ∧
    (s.handle? h .producer (kindIs [4]) = some ix → may → a.toNat % 8 = 0 → At s a 16 false g → r.fill < r.count →
      s.fenced (workScope r) ≠ [] → exec (.wpush h rs1) s = .next s) ∧
    (s.handle? h .consumer (kindIs [4]) = some ix → may → a.toNat % 8 = 0 → At s a 16 true g → 0 < r.fill →
      ∃ t, exec (.wpop h rs1) s = .next t ∧ Memory.words t.mem g 2 = Memory.words s.mem (s.ringAddr s.vk ix r.head) 2 ∧
        (∀ j, j < g ∨ g + 16 ≤ j → Memory.read t.mem j = Memory.read s.mem j) ∧
        RingMoved s t ix { r with head := (r.head + 1) % r.count, fill := r.fill - 1 } 0 0) ∧
    (s.handle? h .consumer (kindIs [4]) = some ix → may → a.toNat % 8 = 0 → r.fill = 0 →
      ∃ t, exec (.wpop h rs1) s = .next t ∧ Parked s t (.ringFill ix)) ∧
    (r.scope = 1 → s.memberOf r.sgrp.toNat = none →
      let tv := BitVec.ofNat 64 (192 + r.sgrp.toNat * 256 + 131072)
      (s.handle? h .producer (kindIs [4]) = some ix → ∃ t, exec (.wpush h rs1) s = .next t ∧ Trapped s t 25 tv s.me.pc) ∧
      (s.handle? h .consumer (kindIs [4]) = some ix → ∃ t, exec (.wpop h rs1) s = .next t ∧ Trapped s t 25 tv s.me.pc))

/-! Fences, segments, tables, holds. -/

/-- R93, R94, R127, R203: FENCE and FENCES with nothing outstanding in scope, and FENCES with something; FENCE.I drops the code lines, the
instruction-cache lines and the I-TLB entries of its trellis, and nothing of another trellis or die. ALIGN n completes when each of its
peers has been met at the same pc, at once for n = 0 and otherwise after n rotations, or when an interrupt or fault is pending; else it
waits one rotation more; its presentation meets the peers that wait at the same pc. That every virtual core of a folded core counts as a
peer is the model's choice (log entry 72). -/
def Obligations.Fences : Prop :=
  ∀ (s : State) (fm pred succ : BitVec 4) (rs1 rd : XReg) (imm n : BitVec 12) (sc : Scope),
    let d := s.coreOf s.vk / 256
    let tr := trellisOf (s.coreOf s.vk)
    let near := fun (k : Nat) => s.coreOf (k / 16) / 256 = d ∧ trellisOf (s.coreOf (k / 16)) = tr
    let fence := fun (i : Instr) (sc : Scope) =>
      (s.me.hold = none → s.fenced sc = [] → ∃ t, exec i s = .next t ∧ Did s t 0 0 (s.me.pc + 4)) ∧
      (s.me.hold = none → s.fenced sc ≠ [] → ∃ t, exec i s = .next t ∧ t.me.hold = some (.fences (s.fenced sc)) ∧ t.me.pc = s.me.pc ∧
        t.me.x = s.me.x ∧ (∀ k, k ≠ s.cur → t.slot k = s.slot k) ∧ { t with slots := s.slots } = s)
    fence (.fences sc) sc ∧
    (pred ≠ 0 → succ ≠ 0 → fence (.fence fm pred succ rs1 rd) .core) ∧
    (pred = 0 ∨ succ = 0 → ∃ t, exec (.fence fm pred succ rs1 rd) s = .next t ∧ Did s t 0 0 (s.me.pc + 4)) ∧
    (∃ t, exec (.fenceI imm rs1 rd) s = .next t ∧ t.me.pc = s.me.pc + 4 ∧ t.me.x = s.me.x ∧ t.me.f = s.me.f ∧
      t.me.line = none ∧ t.me.ahead = none ∧ t.me.hold = some (.busy 1) ∧ t.me.arrived = none ∧
      { t.me with pc := s.me.pc, minstret := s.me.minstret, hold := s.me.hold, arrived := s.me.arrived, line := s.me.line, ahead := s.me.ahead } = s.me ∧
      (∀ k, k ≠ s.cur → (near k → t.slot k = { s.slot k with line := none, ahead := none }) ∧ (¬ near k → t.slot k = s.slot k)) ∧
      { t with slots := s.slots, dies := s.dies } = s ∧ (∀ e, e ≠ d → t.die e = s.die e) ∧
      (∀ l, l ∈ (t.die d).icache ↔ l ∈ (s.die d).icache ∧ l.trellis ≠ tr) ∧ (∀ e, e ∈ (t.die d).tlb ↔ e ∈ (s.die d).tlb ∧ e.at_ ≠ .itlb tr) ∧
      { t.die d with icache := (s.die d).icache, tlb := (s.die d).tlb } = s.die d) ∧
    ∀ waited seen, s.me.hold = none ∧ waited = 0 ∧ seen = [] ∨ s.me.hold = some (.align waited seen) →
      let peer := fun (p : Nat) => (∃ v, (p, v) ∈ s.vcs ∧ v.live = true ∧ v.gid = s.myVc.gid ∧ v.place.isSome = true) ∧
        s.coreOf p ≠ s.coreOf s.vk ∧ trellisIx (s.coreOf p) = trellisIx (s.coreOf s.vk) ∧ (s.slot (slotKey p s.ix)).st ≠ .empty
      let waits := fun (k : Nat) (w : Nat) (l : List Nat) => (s.slot k).hold = some (.align w l) ∧ (s.slot k).pc = s.me.pc
      let met := fun (p : Nat) => p ∈ seen ∨ ∃ w l, waits (slotKey p s.ix) w l
      let others := fun (t : State) => (∀ k, k ≠ s.cur →
        (∀ w l, k % 16 = s.ix → peer (k / 16) → waits k w l → t.slot k = { s.slot k with hold := some (.align w (s.vk :: l)) }) ∧
        ((¬ ∃ w l, k % 16 = s.ix ∧ peer (k / 16) ∧ waits k w l) → t.slot k = s.slot k)) ∧ { t with slots := s.slots } = s
      ((∀ p, peer p → met p) ∨ n.toNat ≤ waited ∨ s.me.pendingAny = true → ∃ t, exec (.align n) s = .next t ∧ t.me.pc = s.me.pc + 4 ∧
        t.me.x = s.me.x ∧ t.me.f = s.me.f ∧ t.me.hold = none ∧ t.me.arrived = none ∧
        { t.me with pc := s.me.pc, minstret := s.me.minstret, hold := s.me.hold, arrived := s.me.arrived } = s.me ∧ others t) ∧
      (∀ p, peer p → ¬ met p → waited < n.toNat → s.me.pendingAny = false → ∃ t, exec (.align n) s = .next t ∧
        t.me.hold = some (.align (waited + 1) seen) ∧ { t.me with hold := s.me.hold } = s.me ∧ others t)

/-- R215, R216, R224, R239: SEGSET and SEGGET, FITW and FITR and the CSR writes of one half, LTSET and LTGET; the base
of an LM entry moves by the segment base in U mode. A rejected image takes the ring-protection trap of class 2 with the lowest reason of
R216 and changes nothing; the alignment traps and the check of R31 of both. -/
def Obligations.SegmentsAndTables : Prop :=
  ∀ (s : State) (rd rs1 rs2 : XReg) (g : Nat),
    let o := s.x rs1
    let l := s.x rs2
    let i := o.toNat
    let moved := fun (w : Word) (d : BitVec 52) => (w.extractLsb' 12 52 + d) ++ w.extractLsb' 0 12
    let inLm := fun (w : Word) => s.me.mode = .u ∧ w.extractLsb' 0 3 = 0
    let n := fun (k lo len : Nat) => (Memory.word s.mem (g + 8 * k)).toNat / 2 ^ lo % 2 ^ len
    let space := n 0 0 3
    let rspace := n 0 60 4
    let far := space = 1 ∨ space = 6
    let vcid := n 3 48 16
    let why : Nat → Prop := fun k =>
      (k = 1 ∧ (space = 7 ∨ s.me.mode = .u ∧ 3 ≤ space ∨ far ∧ rspace ≠ 0 ∧ rspace ≠ 2)) ∨
      (k = 7 ∧ (n 0 4 2 ≠ 0 ∧ space ≠ 0 ∧ space ≠ 1 ∨ n 0 3 1 = 1 ∧ space ≠ 2 ∧ ¬ (space = 1 ∧ rspace = 2) ∨
        vcid ≠ 0 ∧ space ≠ 1 ∧ ¬ (space = 6 ∧ vcid < 8))) ∨
      (k = 9 ∧ ∃ q ∈ s.myVc.accepted 2, q.op.toNat % 64 = i ∨ q.op.toNat / 256 % 64 = i) ∨
      (k = 10 ∧ (n 0 6 6 ≠ 0 ∨ n 2 63 1 ≠ 0 ∨ n 3 24 24 ≠ 0 ∨ far ∧ n 0 36 4 ≠ 0))
    (∀ k, i < 64 → l.toNat % 8 = 0 → At s l 32 false g → why k → (∀ j < k, ¬ why j) →
      ∃ t, exec (.ltset rs1 rs2) s = .next t ∧ Trapped s t 25 (BitVec.ofNat 64 (128 + 256 * i + 65536 * k)) s.me.pc) ∧
    (i < 64 → l.toNat % 8 ≠ 0 → (∃ t, exec (.ltset rs1 rs2) s = .next t ∧ Trapped s t 4 l s.me.pc) ∧
      ∃ t, exec (.ltget rs1 rs2) s = .next t ∧ Trapped s t 6 l s.me.pc) ∧
    (i < 64 → l.toNat % 8 = 0 → ∀ c tv,
      (lmCheck s.me l 32 false = .error (c, tv) → ∃ t, exec (.ltset rs1 rs2) s = .next t ∧ Trapped s t (BitVec.ofNat 64 c) tv s.me.pc) ∧
      (lmCheck s.me l 32 true = .error (c, tv) → ∃ t, exec (.ltget rs1 rs2) s = .next t ∧ Trapped s t (BitVec.ofNat 64 c) tv s.me.pc)) ∧
    (o.toNat % 4096 = 0 → l.toNat % 4096 = 0 → o.toNat + l.toNat ≤ s.launchLenOf s.vk → ∃ t, exec (.segset rs1 rs2) s = .next t ∧
      t.me.segbase = BitVec.ofNat 64 s.myVc.base + o ∧ t.me.seglim = l ∧ t.me.pc = s.me.pc + 4 ∧ t.me.x = s.me.x ∧ t.me.f = s.me.f ∧
      (∀ k, k ≠ s.cur → t.slot k = s.slot k) ∧ { t with slots := s.slots } = s) ∧
    (o.toNat % 4096 ≠ 0 ∨ l.toNat % 4096 ≠ 0 ∨ s.launchLenOf s.vk < o.toNat + l.toNat →
      ∃ t, exec (.segset rs1 rs2) s = .next t ∧ Trapped s t 30 (o + l) s.me.pc) ∧
    (∃ t, exec (.segget rd) s = .next t ∧
      Did s t rd (s.me.seglim.setWidth 32 ++ (s.me.segbase - BitVec.ofNat 64 s.myVc.base).setWidth 32) (s.me.pc + 4)) ∧
    (∃ t, exec (.fitw rs1 rs2) s = .next t ∧ VcDone s t { s.myVc with fitness := o.setWidth 32, evalcnt := l.setWidth 32 } 0 0) ∧
    (∃ t, exec (.csrrw 0 rs1 0x800) s = .next t ∧ VcDone s t { s.myVc with fitness := o.setWidth 32 } 0 0) ∧
    (∃ t, exec (.csrrw 0 rs1 0x801) s = .next t ∧ VcDone s t { s.myVc with evalcnt := o.setWidth 32 } 0 0) ∧
    (∃ t, exec (.fitr rd) s = .next t ∧ Did s t rd (s.myVc.evalcnt ++ s.myVc.fitness) (s.me.pc + 4)) ∧
    (i < 64 → l.toNat % 8 = 0 → At s l 32 false g →
      (∀ k, ¬ why k) →
      let w := Memory.word s.mem g
      let e := [Memory.word s.mem (g + 8), Memory.word s.mem (g + 16), Memory.word s.mem (g + 24)]
      ∃ t, exec (.ltset rs1 rs2) s = .next t ∧
        (inLm w → t.myVc.layoutWords i = moved w (s.me.segbase.setWidth 52) :: e) ∧ (¬ inLm w → t.myVc.layoutWords i = w :: e) ∧
        (∀ j, j ≠ i → t.myVc.layoutWords j = s.myVc.layoutWords j) ∧ VcDone s t { s.myVc with lt := t.myVc.lt } 0 0) ∧
    (64 ≤ i → (∃ t, exec (.ltset rs1 rs2) s = .next t ∧ Trapped s t 25 (BitVec.ofNat 64 (128 + i % 256 * 256)) s.me.pc) ∧
      ∃ t, exec (.ltget rs1 rs2) s = .next t ∧ Trapped s t 25 (BitVec.ofNat 64 (128 + i % 256 * 256)) s.me.pc) ∧
    (∀ a b c d, i < 64 → l.toNat % 8 = 0 → At s l 32 true g → s.myVc.layoutWords i = [a, b, c, d] →
      ∃ t, exec (.ltget rs1 rs2) s = .next t ∧ Kept s t 0 0 ∧ CodeMarked s t ∧
        { t with slots := s.slots, mem := s.mem, cores := s.cores } = s ∧ (inLm a → Memory.words t.mem g 4 = [moved a (- s.me.segbase.setWidth 52), b, c, d]) ∧
        (¬ inLm a → Memory.words t.mem g 4 = [a, b, c, d]) ∧
        (∀ j, j < g ∨ g + 32 ≤ j → Memory.read t.mem j = Memory.read s.mem j))

/-- R72, R73, R232, R237, R238, R328: the reserved-code trap holds the bundle and reports it; QSCE stops only for a
hold at quiesce points; MIGR answers, traps or moves. The operands in ev are the model's (log entry 2). Log entries 32
and 67. -/
def Obligations.Holding : Prop :=
  ∀ (s : State) (rd rs1 : XReg),
    let w : InsnWord := s.ev.val.setWidth 32
    let t4 := (s.x rs1).toNat
    let here := isF (s.dieOf s.vk)
    (s.me.mode = .u → s.me.st = .issuing → ∃ t, exec .reservedCode s = .next t ∧ t.me.st = .trapped ∧ t.me.trap = some .reservedCode ∧
      t.me.offender = true ∧ t.me.pc = s.me.pc ∧
      (∀ k, k ≠ s.cur → k / 16 = s.vk → (s.slot k).bundle = s.me.bundle → (s.slot k).st = .issuing ∨ (s.slot k).st = .parked →
        (t.slot k).st = .trapped ∧ (t.slot k).trap = some .reservedCode ∧ (t.slot k).pc = (s.slot k).pc) ∧
      (∀ sk ss ix, s.mailbox s.vk = some (sk, ss, ix) → t.net = s.net ++ [Msg.mk (.vc s.vk) (.vc sk) .request
        (.mailbox ss ix [BitVec.ofNat 64 (1 + s.ix * 256 + s.myVc.vcid * 65536 + s.node * 2 ^ 32), s.me.pc, w.setWidth 64, 0, 0, 0, 0, 0]) none false])) ∧
    (∀ h, s.me.mode = .u → s.myVc.holds.find? (fun h => h.qsce) = some h → ∃ t, exec .qsce s = .next t ∧ t.me.st = .trapped ∧
      t.me.trap = some h.kind ∧ t.me.pc = s.me.pc + 4 ∧ t.me.x = s.me.x ∧ t.me.f = s.me.f) ∧
    (s.me.mode = .m ∨ s.myVc.holds.find? (fun h => h.qsce) = none → ∃ t, exec .qsce s = .next t ∧ Did s t 0 0 (s.me.pc + 4)) ∧
    (s.me.mode = .m ∨ ¬ (t4 < 4 ∨ t4 = 8) → ∃ t w, exec (.migr rd rs1) s = .next t ∧ encode (.migr rd rs1) = some w ∧
      Trapped s t 2 (w.setWidth 64) s.me.pc) ∧
    (s.me.mode = .u → (t4 = 8 ∧ here = true) ∨ (t4 < 4 ∧ s.dieOf s.vk = t4) → ∃ t, exec (.migr rd rs1) s = .next t ∧
      Did s t rd 1 (s.me.pc + 4)) ∧
    (s.me.mode = .u → (t4 = 8 ∧ here = false) ∨ (t4 < 4 ∧ s.dieOf s.vk ≠ t4) → ∃ t m, exec (.migr rd rs1) s = .next t ∧
      t.me.st = .trapped ∧ t.me.trap = some .migrate ∧ t.me.pc = s.me.pc ∧ t.me.x = s.me.x ∧ t.myVc.move = some m ∧ m.status = 1 ∧
      m.rd = rd.toNat ∧ m.src = s.coreOf s.vk ∧ m.wantDie = if t4 = 8 then none else some t4)

/-- R125, R126: REPF. A first index outside the frame is illegal; a frame with no pass to run is skipped, any other is
captured; at its end the pc passes the frame, or the fault that stopped it traps. The sequencer presents instruction
by instruction and counts passes; it stays while a queue is full or an operand waits, stops at a fault, and presents nothing once an
interrupt or fault is pending, which the slot takes at the REPF when what is accepted has completed. At each acceptance and completion
x[rs1] names the first instruction not yet completed (R125). The operands in ev are the model's (log entry 2). The capture: log entry 17. -/
def Obligations.RepeatFrame : Prop :=
  ∀ (s : State) (rs1 : XReg) (len : BitVec 4) (hs ws : BitVec 3) (words : List InsnWord),
    let p := s.x rs1
    let n := len.toNat + 1
    let cnt := p.toNat % 2 ^ 32
    let ix := p.toNat / 2 ^ 32 % 16
    let ph := p.toNat / 2 ^ 36 % 8
    let after := s.me.pc + BitVec.ofNat 64 (4 + 4 * n)
    let run := exec (.repf rs1 len hs ws) s
    let good := words.length = n ∧ ∀ j < n, s.fetchAt s.cur (s.me.pc + BitVec.ofNat 64 (4 + 4 * j)) = .word (words[j]!) ∧
      s.frameCheck (words[j]!) = none
    let sl := s.slot s.ev.key
    let shows := fun (t : State) (vk slot : Nat) =>
      let earlier := fun (y z : Nat × Nat × Nat) => z.1 < y.1 ∨ y.1 = z.1 ∧ y.2.1 < z.2.1
      let u := t.slot (slotKey vk slot)
      ∀ c i h stop y, u.hold = some (.frame words c i h stop) →
        let open_ := (c, i, h) :: (((t.vc vk).accepted 0 ++ (t.vc vk).accepted 1).filter (fun q => q.slot = slot)).filterMap QEntry.pos
        y ∈ open_ → (∀ z ∈ open_, z = y ∨ earlier y z) →
        let r : XReg := u.insn.extractLsb' 15 5
        u.readX r = if r = 0 then 0 else BitVec.ofNat 64 (y.1 + y.2.1 * 2 ^ 32 + y.2.2 % 8 * 2 ^ 36)
    (s.me.hold = none → n ≤ ix → ∃ t w, run = .next t ∧ encode (.repf rs1 len hs ws) = some w ∧ Trapped s t 2 (w.setWidth 64) s.me.pc) ∧
    (s.me.hold = none → ix < n → good → cnt = 0 → ∃ t, run = .next t ∧ Did s t 0 0 after) ∧
    (s.me.hold = none → ix < n → good → cnt ≠ 0 → ∃ t, run = .next t ∧ t.me.hold = some (.frame words cnt ix ph none) ∧
      t.me.pc = s.me.pc ∧ t.me.x = s.me.x ∧ (∀ k, k ≠ s.cur → t.slot k = s.slot k) ∧ { t with slots := s.slots } = s) ∧
    (∀ i h, s.me.hold = some (.frame words 0 i h none) → s.frameBusy s.cur = false → ∃ t, run = .next t ∧ Did s t 0 0 after) ∧
    (∀ c i h e v, s.me.hold = some (.frame words c i h (some (e, v))) → s.frameBusy s.cur = false →
      ∃ t, run = .next t ∧ Trapped s t (BitVec.ofNat 64 e) v s.me.pc) ∧
    (∀ c i h f u, s.canPresent s.ev.key = true → decode sl.insn = .ok (.repf rs1 len hs ws) → sl.hold = some (.frame words c i h none) →
      decode (words.getD i 0) = .ok f →
      ({ s with cur := s.ev.key }).acceptW (stagger f (BitVec.ofNat 3 (h * hs.toNat)) (BitVec.ofNat 3 (h * ws.toNat))) = .ok u →
      ∃ t, exec .repfFramePresent s = .next t ∧ t.cur = s.cur ∧ (t.slot s.ev.key).pc = sl.pc ∧
        (t.slot s.ev.key).hold = some (if i + 1 < n then .frame words c (i + 1) h none else .frame words (c - 1) 0 ((h + 1) % 8) none) ∧
        shows t (s.ev.key / 16) (s.ev.key % 16) ∧
        ∀ d z, wGroup f = some d → (u.vc (s.ev.key / 16)).queueOf d = (s.vc (s.ev.key / 16)).queueOf d ++ [z] →
          (t.vc (s.ev.key / 16)).queueOf d = (s.vc (s.ev.key / 16)).queueOf d ++ [{ z with pos := some (c, i, h) }]) ∧
    (∀ c i h f, s.canPresent s.ev.key = true → decode sl.insn = .ok (.repf rs1 len hs ws) → sl.hold = some (.frame words c i h none) →
      decode (words.getD i 0) = .ok f →
      let a := ({ s with cur := s.ev.key }).acceptW (stagger f (BitVec.ofNat 3 (h * hs.toNat)) (BitVec.ofNat 3 (h * ws.toNat)))
      (a = .full → exec .repfFramePresent s = .next s) ∧ (∀ k room, a = .wait k room → exec .repfFramePresent s = .next s) ∧
      (∀ e v, a = .fault e v → ∃ t, exec .repfFramePresent s = .next t ∧ t.slot s.ev.key = { sl with hold := some (.frame words c i h (some (e, v))) } ∧
        (∀ k, k ≠ s.ev.key → t.slot k = s.slot k) ∧ { t with slots := s.slots } = s)) ∧
    (sl.irqReady = true ∨ sl.asyncReady = true → exec .repfFramePresent s = .next s) ∧
    (∀ c i h stop, s.me.hold = some (.frame words c i h stop) → s.frameBusy s.cur = true → run = .next s) ∧
    (∀ c i h stop rest b, s.boot ≠ .rejected → s.agenda = [.turn] → s.turns = s.ev.key :: rest →
      let u := { s with agenda := [], cur := s.ev.key, turns := rest }
      u.me.st = .issuing → u.atTurn s.ev.key = true → u.me.hold = some (.frame words c i h stop) → u.me.reply = none →
      u.frameBusy s.ev.key = false → u.turnHold = none → u.me.asyncReady = false → u.me.takes = true → u.me.irq = some b → b = 1 ∨ b = 3 →
      ∃ t, step s = .next (t.afterTurn s.ev.key u.me.pc) ∧ Trapped u t (BitVec.ofNat 64 (2 ^ 63 + 16 + b)) 0 u.me.pc) ∧
    (∀ r, s.matrixCanEnd s.ev.key = true → FMap.get? (s.vc s.ev.key).run 0 = some r →
      ∃ t, exec .matrixEngineComplete s = .next t ∧ shows t s.ev.key r.entry.slot) ∧
    (∀ r f x, s.vectorCanEnd s.ev.key = true → FMap.get? (s.vc s.ev.key).run 1 = some r → decode r.entry.word = .ok f →
      vecArgs f = some x → ∃ t, exec .vectorEngineComplete s = .next t ∧ shows t s.ev.key r.entry.slot)

/-! Engines. -/

/-- An instruction accepted by engine e: its entry is last in the queue with its slot, rounding mode and segment, the instruction completes,
and but for that queue the virtual core is v. -/
structure Sys2Proof.Claim.Queued (s t : State) (e : Nat) (i : Instr) (v : VCore) (p : QEntry → Prop) : Prop where
  queue : ∃ q, t.myVc.queueOf e = s.myVc.queueOf e ++ [q] ∧ q.word = (encode i).getD 0 ∧ q.slot = s.ix ∧ q.frm = s.me.frm ∧
    q.base = s.me.segbase.toNat ∧ q.lim = s.me.seglim.toNat ∧ (q.mMode = true ↔ s.me.mode = .m) ∧ p q
  queues : ∀ d, d ≠ e → t.myVc.queueOf d = s.myVc.queueOf d
  vc : { t.myVc with queue := v.queue } = v
  x : t.me.x = s.me.x
  pc : t.me.pc = s.me.pc + 4
  hold : t.me.hold = none
  arrived : t.me.arrived = none
  slot : { t.me with pc := s.me.pc, minstret := s.me.minstret, hold := s.me.hold, arrived := s.me.arrived } = s.me
  others : ∀ k, k ≠ s.cur → t.slot k = s.slot k
  vcs : ∀ k, k ≠ s.vk → t.vc k = s.vc k
  rest : { t with slots := s.slots, vcs := s.vcs, nextId := s.nextId } = s

/-- The slot is bound to engine e, whose queue has a free entry (R107, R149, R240). -/
def Sys2Proof.Claim.Free (s : State) (e : Nat) : Prop :=
  FMap.get? s.myVc.binds e = some s.ix ∧ s.myVc.frozen = false ∧ (s.myVc.accepted e).length < 8

/-- The slot is bound to engine e, and its queue has no free entry or the engines are frozen. -/
def Sys2Proof.Claim.Busy (s : State) (e : Nat) : Prop :=
  FMap.get? s.myVc.binds e = some s.ix ∧ (s.myVc.frozen = true ∨ 8 ≤ (s.myVc.accepted e).length)

/-- The slot is held at its instruction until its engine queue takes it (R45, R149), and nothing else differs. -/
structure Sys2Proof.Claim.AtQueue (s t : State) : Prop where
  me : t.me = { s.me with hold := some .engine }
  others : ∀ k, k ≠ s.cur → t.slot k = s.slot k
  rest : { t with slots := s.slots } = s

/-- The slot has parked on a, whether it was held at its queue before or not, and nothing else differs. -/
structure Sys2Proof.Claim.EngineParked (s t : State) (a : Await) : Prop where
  me : t.me = { s.me with st := .parked, park := some a, wakeAt := none, hold := none }
  others : ∀ k, k ≠ s.cur → t.slot k = s.slot k
  rest : { t with slots := s.slots } = s

/-- R149, R150, R154, R158, R160, R163: acceptance of the matrix instructions other than MMA, with their traps; a slot whose queue is full
stays at its instruction. -/
def Obligations.MatrixAcceptance : Prop :=
  ∀ (s : State) (a : BitVec 1) (n : Bool) (h : Handle) (w : WPtr) (rd rs1 : XReg) (pa ix : Nat),
    let mine := s.myVc
    let c := mine.pcfg a
    let o := mine.pcfg (~~~ a)
    let v := s.x rs1
    let k := cfgOfWord v
    let phys := { k with cw := if s.me.mode = .u then (s.me.segbase.toNat + k.cw) % 0x100000 else k.cw }
    let r := s.ring s.vk ix
    let q := fun (i : Instr) (v : VCore) (p : QEntry → Prop) => ∃ t, exec i s = .next t ∧ Queued s t 0 i v p
    let trap := fun (i : Instr) (cause : Nat) (tv : Word) => ∃ t, exec i s = .next t ∧ Trapped s t (BitVec.ofNat 64 cause) tv s.me.pc
    let illegal := fun (i : Instr) => trap i 2 (((encode i).getD 0).setWidth 64)
    let fields := v &&& 0xFFF0000000F88080 = 0 ∧ k.m ≤ 64 ∧ k.n ≤ 64
    let begun := FMap.get? mine.run 0 ≠ none ∨ ∃ q rest, mine.queueOf 0 = q :: rest ∧ q.kdone ≠ 0
    let reads := s.handle? h .consumer (feeds 0) = some ix
    let writes := s.handle? h .producer (kindIs [0]) = some ix
    let control := v.toNat < 128 ∧ (bit v 3 = true → (outTgt v).isNarrow = true) ∧ (bit v 4 = true → (outTgt v).isNarrow = true ∧ c.i32 = false) ∧
      (tgtIsD (outTgt v) = true → c.i32 = false ∧ o.i32 = false ∧ o.m = c.m ∧ o.n = c.n) ∧ s.me.frm.toNat ≤ 4
    let load : Instr := .mload n a h
    let out : Instr := .mout n h a rs1
    (Free s 0 →
      q (.mzero a) mine (fun _ => True) ∧ q .wswapq { mine with pbank := !mine.pbank } (fun _ => True) ∧
      q (.wpset w rs1) { mine with pwp := mine.pwp.set w.toNat (v.setWidth 36) w.isLt } (fun q => q.op = v) ∧
      (∃ t, exec (.wpget rd w) s = .next t ∧ Did s t rd ((mine.pwp[w.toNat]'(w.isLt)).setWidth 64) (s.me.pc + 4)) ∧
      (∃ t, exec .wswap s = .next t ∧
        (¬ begun → VcDone s t { mine with bank := !mine.bank, pbank := !mine.pbank } 0 0) ∧
        (begun → VcDone s t { mine with swaps := mine.swaps + 1, pbank := !mine.pbank } 0 0)) ∧
      (fields → (k.cwen = true → k.cw % 8 = 0 ∧ lmCheck s.me (BitVec.ofNat 64 k.cw) 8 true = .ok pa) →
        q (.mcfg a rs1) (if a = 0 then { mine with pcfg0 := phys } else { mine with pcfg1 := phys }) (fun q => cfgOfWord q.op = phys)) ∧
      (reads → (c.m = 0 ∨ 4 * c.n ≤ r.size ∧ c.m ≤ r.count) → c.m ≤ s.availFill s.vk 0 ix →
        q load mine (fun e => e.ra = some ix ∧ e.na = c.m)) ∧
      (reads → (c.m = 0 ∨ 4 * c.n ≤ r.size ∧ c.m ≤ r.count) → s.availFill s.vk 0 ix < c.m →
        ∃ t, exec load s = .next t ∧ EngineParked s t (.engineRing 0 ix false)) ∧
      (writes → control → (c.m = 0 ∨ outBytes v c.n ≤ r.size ∧ c.m ≤ r.count) → c.m ≤ s.availRoom s.vk 0 ix →
        q out mine (fun e => e.rd = some ix ∧ e.nd = c.m ∧ e.op = v)) ∧
      (writes → control → (c.m = 0 ∨ outBytes v c.n ≤ r.size ∧ c.m ≤ r.count) → s.availRoom s.vk 0 ix < c.m →
        ∃ t, exec out s = .next t ∧ EngineParked s t (.engineRing 0 ix true))) ∧
    (FMap.get? mine.binds 0 = some s.ix →
      (¬ fields → illegal (.mcfg a rs1)) ∧ (fields → k.cwen = true → k.cw % 8 ≠ 0 → trap (.mcfg a rs1) 6 (BitVec.ofNat 64 k.cw)) ∧
      (∀ e tv, fields → k.cwen = true → k.cw % 8 = 0 → lmCheck s.me (BitVec.ofNat 64 k.cw) 8 true = .error (e, tv) → trap (.mcfg a rs1) e tv) ∧
      (s.handle? h .consumer (feeds 0) = none → trap load 25 (BitVec.ofNat 64 h.toNat)) ∧
      (reads → 0 < c.m → r.size < 4 * c.n → trap load 25 (BitVec.ofNat 64 h.toNat)) ∧
      (reads → 0 < c.m → 4 * c.n ≤ r.size → r.count < c.m → trap load 25 (BitVec.ofNat 64 (64 + h.toNat))) ∧
      (s.handle? h .producer (kindIs [0]) = none → trap out 25 (BitVec.ofNat 64 h.toNat)) ∧ (writes → ¬ control → illegal out) ∧
      (writes → control → 0 < c.m → r.size < outBytes v c.n → trap out 25 (BitVec.ofNat 64 h.toNat)) ∧
      (writes → control → 0 < c.m → outBytes v c.n ≤ r.size → r.count < c.m → trap out 25 (BitVec.ofNat 64 (64 + h.toNat)))) ∧
    let waits := fun (i : Instr) => ∃ t, exec i s = .next t ∧ AtQueue s t
    (Busy s 0 → waits (.mzero a) ∧ waits .wswapq ∧ waits (.wpset w rs1) ∧ (mine.frozen = true → waits .wswap))

/-- R165: acceptance of MMA and MMA.N: the pair fits the configuration, records and slots fit, every tile and bitmap
lies inside the share; with .A the projected pointers move on; its traps. On an L-die the D pair takes the migrate trap (R244);
without the binding the engine trap (R107). -/
def Obligations.MmaAcceptance : Prop :=
  ∀ (s : State) (f : MmaFmt) (z sp a full : Bool) (acc : BitVec 1) (h : Handle) (w : WPtr) (fs : FReg) (ix : Nat),
    let i : Instr := if full then .mmaN f z sp a acc h w fs else .mma f z sp a acc h w fs
    let c := s.myVc.pcfg acc
    let o := s.myVc.pcfg (~~~ acc)
    let n := if c.m = 0 ∨ c.n = 0 then 0 else c.m * c.kb
    let first := if n = 0 then 0 else if full then n else c.m
    let off := ((s.myVc.pwp[w.toNat]'(w.isLt)).setWidth 20).toNat
    let w1 : WPtr := w + 1
    let boff := ((s.myVc.pwp[w1.toNat]'(w1.isLt)).setWidth 20).toNat
    let r := s.ring s.vk ix
    let next := fun (p : BitVec 36) => p.extractLsb' 20 16 ++ (p.setWidth 20 + (p.extractLsb' 20 16).setWidth 20)
    let trap := fun (cause : Nat) (tv : Word) => ∃ t, exec i s = .next t ∧ Trapped s t (BitVec.ofNat 64 cause) tv s.me.pc
    let on := fmtIsD f = true → isF (s.dieOf s.vk) = true
    let pair := c.i32 = fmtIsI8 f ∧ (fmtIsD f = true → o.i32 = false ∧ o.m = c.m ∧ o.n = c.n)
    let reads := FMap.get? s.myVc.binds 0 = some s.ix ∧ s.handle? h .consumer (feeds 0) = some ix
    let slots := n ≠ 0 → 136 ≤ r.size ∧ first ≤ r.count
    let within := fun (o step : Nat) => ∀ b < c.kb, (o + step * b) % 0x100000 < s.share s.vk
    let least := fun (o step : Nat) (x : Nat) => (∃ b < c.kb, x = (o + step * b) % 0x100000) ∧ s.share s.vk ≤ x ∧
      ∀ b < c.kb, s.share s.vk ≤ (o + step * b) % 0x100000 → x ≤ (o + step * b) % 0x100000
    let tiles := n ≠ 0 → off % 8192 = 0 ∧ within off 8192
    let maps := n ≠ 0 → sp = true → boff % 16 = 0 ∧ within boff 16
    (on → Free s 0 → reads → pair → slots → tiles → maps → first ≤ s.availFill s.vk 0 ix →
      ∃ t, exec i s = .next t ∧
        Queued s t 0 i { s.myVc with pwp := t.myVc.pwp } (fun e => e.ra = some ix ∧ e.na = n ∧ e.kdone = 0 ∧ e.op = s.f fs) ∧
        (a = false → t.myVc.pwp = s.myVc.pwp) ∧
        (∀ j : WPtr, j ≠ w → j ≠ w1 → t.myVc.pwp[j.toNat]'(j.isLt) = s.myVc.pwp[j.toNat]'(j.isLt)) ∧
        (a = true → t.myVc.pwp[w.toNat]'(w.isLt) = next (s.myVc.pwp[w.toNat]'(w.isLt)) ∧
          t.myVc.pwp[w1.toNat]'(w1.isLt) = (if sp then next (s.myVc.pwp[w1.toNat]'(w1.isLt)) else s.myVc.pwp[w1.toNat]'(w1.isLt)))) ∧
    (on → Free s 0 → reads → pair → slots → tiles → maps → s.availFill s.vk 0 ix < first →
      ∃ t, exec i s = .next t ∧ EngineParked s t (.engineRing 0 ix false)) ∧
    (on → reads → ¬ pair → trap 2 (((encode i).getD 0).setWidth 64)) ∧
    (on → reads → pair → n ≠ 0 → (r.size < 136 → trap 25 (BitVec.ofNat 64 h.toNat)) ∧
      (136 ≤ r.size → r.count < first → trap 25 (BitVec.ofNat 64 (64 + h.toNat))) ∧
      (slots → off % 8192 ≠ 0 → trap 4 (BitVec.ofNat 64 off)) ∧
      (∀ x, slots → off % 8192 = 0 → least off 8192 x → trap 30 (BitVec.ofNat 64 x)) ∧
      (slots → tiles → sp = true → boff % 16 ≠ 0 → trap 4 (BitVec.ofNat 64 boff)) ∧
      (∀ x, slots → tiles → sp = true → boff % 16 = 0 → least boff 16 x → trap 30 (BitVec.ofNat 64 x))) ∧
    (fmtIsD f = true → isF (s.dieOf s.vk) = false → s.me.mode = .u → ∃ t m, exec i s = .next t ∧ t.me.st = .trapped ∧
      t.me.trap = some .migrate ∧ t.me.mcause = 24 ∧ t.me.mepc = s.me.pc ∧ t.me.mtval = ((encode i).getD 0).setWidth 64 ∧
      t.me.mode = .u ∧ t.me.pc = s.me.pc ∧ t.myVc.move = some m ∧ m.status = 0) ∧
    (fmtIsD f = false → FMap.get? s.myVc.binds 0 ≠ some s.ix → trap 29 0) ∧
    (fmtIsD f = false → FMap.get? s.myVc.binds 0 = some s.ix → s.handle? h .consumer (feeds 0) = none → trap 25 (BitVec.ofNat 64 h.toNat))

/-- What R24, R171, R173, R174 and R184 ask of a vector instruction: bound, room in the queue, the rings its handles name, slot sizes that
fit, as many slots as it claims, and those slots available; then it is accepted with its claims, and one that draws, whose elements have eb
bytes, takes its draws from the counter and moves it on. What is wrong with it traps, a handle that names no ring of its role before one
whose ring is of another kind, and what is not there parks its slot. -/
def Sys2Proof.Claim.VecTaken (s : State) (i : Instr) (hd ha hb : Option Handle) (nd : Nat) (draws : Option Nat) (ok : Prop)
    (fits : (zd za zb : Nat) → Prop) : Prop :=
  ∀ rd ra rb : Option Nat,
    hd.bind (fun h => s.handle? h .producer (kindIs [0])) = rd → ha.bind (fun h => s.handle? h .consumer (feeds 1)) = ra →
    hb.bind (fun h => s.handle? h .consumer (feeds 1)) = rb → (fOnly i = true → isF (s.dieOf s.vk) = true) →
    let size := fun (r : Option Nat) => (r.map (fun ix => (s.ring s.vk ix).size)).getD 0
    let one := fun (r : Option Nat) (ix k : Nat) => if r = some ix then k else 0
    let at_ := if hd.isSome then 16 else 0
    let trap := fun (cause : Nat) (tv : Word) => ∃ t, exec i s = .next t ∧ Trapped s t (BitVec.ofNat 64 cause) tv s.me.pc
    let bound := hd.isSome = rd.isSome ∧ ha.isSome = ra.isSome ∧ hb.isSome = rb.isSome
    let names := fun (h : Handle) (role : Role) => (s.handle? h role (fun _ => true)).isSome = true
    let namesD := ∀ h, hd = some h → names h .producer
    let namesA := ∀ h, ha = some h → names h .consumer
    let namesB := ∀ h, hb = some h → names h .consumer
    let claimed := ∀ ix, one rd ix nd + one ra ix 1 + one rb ix 1 ≤ (s.ring s.vk ix).count
    let filled := ∀ ix, one ra ix 1 + one rb ix 1 ≤ s.availFill s.vk 1 ix
    let room := ∀ ix, one rd ix nd ≤ s.availRoom s.vk 1 ix
    (Free s 1 → bound → ok → fits (size rd) (size ra) (size rb) → claimed → filled → room →
      ∃ t, exec i s = .next t ∧ Queued s t 1 i
        (match draws with
          | some eb => { s.myVc with srpos := s.myVc.srpos + BitVec.ofNat 64 ((size ra / eb + 3) / 4) }
          | none => s.myVc)
        (fun q => q.rd = rd ∧ q.ra = ra ∧ q.rb = rb ∧ q.nd = (if hd.isSome then nd else 0) ∧ q.na = (if ha.isSome then 1 else 0) ∧
          q.nb = (if hb.isSome then 1 else 0) ∧ q.op = if draws.isSome then s.myVc.srpos else 0)) ∧
    (Free s 1 → bound → ok → fits (size rd) (size ra) (size rb) → claimed → filled → ¬ room →
      ∃ t ix, exec i s = .next t ∧ rd = some ix ∧ EngineParked s t (.engineRing 1 ix true)) ∧
    (Free s 1 → bound → ok → fits (size rd) (size ra) (size rb) → claimed → ¬ filled →
      ∃ t ix, exec i s = .next t ∧ (ra = some ix ∨ rb = some ix) ∧ EngineParked s t (.engineRing 1 ix false)) ∧
    (Busy s 1 → bound → ok → fits (size rd) (size ra) (size rb) → claimed → ∃ t, exec i s = .next t ∧ AtQueue s t) ∧
    (FMap.get? s.myVc.binds 1 ≠ some s.ix → trap 29 1) ∧
    (FMap.get? s.myVc.binds 1 = some s.ix →
      (∀ h, hd = some h → ¬ names h .producer → trap 25 (BitVec.ofNat 64 h.toNat)) ∧
      (∀ h, namesD → ha = some h → ¬ names h .consumer → trap 25 (BitVec.ofNat 64 (h.toNat + at_))) ∧
      (∀ h, namesD → namesA → hb = some h → ¬ names h .consumer → trap 25 (BitVec.ofNat 64 (h.toNat + 16 + at_))) ∧
      (namesD → namesA → namesB →
        (∀ h, hd = some h → rd = none → trap 25 (BitVec.ofNat 64 h.toNat)) ∧
        (∀ h, hd.isSome = rd.isSome → ha = some h → ra = none → trap 25 (BitVec.ofNat 64 (h.toNat + at_))) ∧
        (∀ h, hd.isSome = rd.isSome → ha.isSome = ra.isSome → hb = some h → rb = none → trap 25 (BitVec.ofNat 64 (h.toNat + 16 + at_)))) ∧
      (bound → ¬ ok → trap 2 (((encode i).getD 0).setWidth 64)) ∧
      (bound → ok → ¬ fits (size rd) (size ra) (size rb) → ∃ h p : Nat, trap 25 (BitVec.ofNat 64 (h + 16 * p)) ∧ h < 8 ∧ p < 3) ∧
      (bound → ok → fits (size rd) (size ra) (size rb) → ¬ claimed → ∃ h p : Nat, trap 25 (BitVec.ofNat 64 (64 + h + 16 * p)) ∧ h < 8 ∧ p < 3))

/-- R171 to R174, R184, Tables 07.2 and 07.3: acceptance of every vector instruction. -/
def Obligations.VectorAcceptance : Prop :=
  ∀ (s : State) (n sr sat : Bool) (t : VType) (g : CvtTgt) (c : VCmpOp) (d a b : Handle),
    let w := vtBytes t
    let up := fun (k : Nat) => (k + 7) / 8 * 8
    let bin := fun (i : Instr) => VecTaken s i (some d) (some a) (some b) 1 none True (fun zd za zb => za / w * w ≤ zb ∧ up (za / w * w) ≤ zd)
    let bin32 := fun (i : Instr) => VecTaken s i (some d) (some a) (some b) 1 none True (fun zd za zb => za / 4 * 4 ≤ zb ∧ up (za / 4 * 4) ≤ zd)
    let un := fun (i : Instr) => VecTaken s i (some d) (some a) none 1 none True (fun zd za _ => up (za / w * w) ≤ zd)
    let un32 := fun (i : Instr) => VecTaken s i (some d) (some a) none 1 none True (fun zd za _ => up (za / 4 * 4) ≤ zd)
    let rm := s.me.frm.toNat ≤ 4 ∧ (sr = true → s.me.frm = 0)
    let draws := if sr then some w else none
    (bin (.vadd n t d a b) ∧ bin (.vsub n t d a b) ∧ bin (.vmul n t d a b) ∧ bin (.vfma n t d a b) ∧ bin (.vmin n t d a b) ∧
     bin (.vmax n t d a b) ∧ bin (.vcmp c n t d a b) ∧ bin (.vsel n t d a b)) ∧
    (bin32 (.vand n d a b) ∧ bin32 (.vor n d a b) ∧ bin32 (.vxor n d a b) ∧ bin32 (.vshl n d a b) ∧ bin32 (.vshr n d a b)) ∧
    (un (.vabs n t d a) ∧ un (.vneg n t d a) ∧ un (.vrcp n t d a) ∧ un (.vrsq n t d a) ∧ un (.vexp2 n t d a) ∧ un (.vlog2 n t d a) ∧
     un (.vtanh n t d a) ∧ un (.vsig n t d a) ∧ un32 (.vexp2X n d a) ∧ un32 (.vlog2X n d a)) ∧
    VecTaken s (.vmac n t a b) none (some a) (some b) 1 none True (fun _ za zb => za / w * w ≤ zb) ∧
    VecTaken s (.vcvt n sr sat g t d a) (some d) (some a) none 1 draws rm (fun zd za _ => up (za / w * tgtBytes g) ≤ zd) ∧
    VecTaken s (.vqnt n sr sat g t d a) (some d) (some a) none 1 draws rm (fun zd za _ => za / w ≤ 128 ∧ 136 ≤ zd) ∧
    VecTaken s (.vsplit3 n d a) (some d) (some a) none 3 none True (fun zd za _ => up (2 * (za / 4)) ≤ zd) ∧
    VecTaken s (.vreds n t d a) (some d) (some a) none 1 none True (fun zd _ _ => 8 ≤ zd) ∧
    VecTaken s (.vredm n t d a) (some d) (some a) none 1 none True (fun zd _ _ => 8 ≤ zd) ∧
    VecTaken s (.vgath n t d a b) (some d) (some a) (some b) 1 none True (fun zd _ zb => up (zb / 4 * w) ≤ zd) ∧
    VecTaken s (.vscat n t d a b) (some d) (some a) (some b) 1 none True (fun _ za zb => 4 * (za / w) ≤ zb) ∧
    VecTaken s (.vperm n t d a b) (some d) (some a) (some b) 1 none True (fun zd za zb => 4 * (za / w) ≤ zb ∧ up (za / w * w) ≤ zd) ∧
    VecTaken s (.vaccget n d) (some d) none none 1 none True (fun zd _ _ => 256 ≤ zd) ∧
    VecTaken s (.vaccset n a) none (some a) none 1 none True (fun _ za _ => 256 ≤ za) ∧
    VecTaken s .vaccz none none none 1 none True (fun _ _ _ => True)

/-- Slots of a ring from number first on hold these bytes, every whole word of them with its full bit, and no other memory differs. -/
structure Sys2Proof.Claim.SlotsPut (s t : State) (k ix first : Nat) (out : List (List Byte)) : Prop where
  bytes : ∀ j i, i < (out.getD j []).length → Memory.read t.mem (s.ringAddr k ix (first + j) + i) = (out.getD j []).getD i 0
  rest : ∀ a, (∀ j, j < out.length → a < s.ringAddr k ix (first + j) ∨ s.ringAddr k ix (first + j) + (out.getD j []).length ≤ a) →
    Memory.read t.mem a = Memory.read s.mem a
  full : ∀ j i, i < (out.getD j []).length / 8 → t.isFull (s.ringAddr k ix (first + j) + 8 * i) = true
  others : ∀ a, (∀ j i, i < (out.getD j []).length / 8 → a ≠ s.ringAddr k ix (first + j) + 8 * i) → t.isFull a = s.isFull a

/-- The elements of both accumulators. -/
abbrev Sys2Proof.Claim.Pair := Nat × Nat

/-- R143, R166, R167: what a K-block adds to element (i, j), which is old, from the terms of its row and column: the scales are op's, the
row's own if its record has one; and the flags. -/
def Sys2Proof.Claim.added (x : MmaArgs) (op : Word) (scale : Nat) (old : Pair) (terms : List (Option (Nat × Nat))) : Pair × BitVec 5 :=
  let mine := if x.acc = 0 then old.1 else old.2
  let keep := fun (b : Nat) => if x.acc = 0 then (b % 2 ^ 32, old.2) else (old.1, b % 2 ^ 32)
  match x.fmt with
  | .i8 => let r := accumI32 mine (i8Sum terms); (keep r.1, r.2)
  | .d =>
    let p := treeBlock fmt64 fmt64 4 terms
    let r := fmt64.add .rne (old.1 + old.2 * 2 ^ 32) p.1
    ((r.1 % 2 ^ 32, r.1 / 2 ^ 32), p.2 ||| r.2)
  | f =>
    let p := match f with
      | .bf => treeBlock fmt32 fmtBF 6 terms
      | .hf => treeBlock fmt32 fmtHF 6 terms
      | _ => fp8Sum (mmaA f) (mmaB f) terms
    let own := scale / 2 ^ 32 % 2 = 1
    let r := promote mine p.1 (if own then scale % 2 ^ 32 else op.toNat / 2 ^ 32) (op.toNat % 2 ^ 32)
    (keep r.1, p.2 ||| r.2)

/-- R166: t is s after K-block q.kdone of the MMA q of virtual core k, whose accumulators held old before it: row i is record i of the
head slots (record kdone × M + i with .N), column j stands in the tile of the K-block in the bank, and with .S the bitmap leaves terms
out; the other elements stay. -/
structure Sys2Proof.Claim.Blocked (s t : State) (k : Nat) (x : MmaArgs) (q : QEntry) (bank : Bool) (old : Nat → Nat → Pair) (fl : BitVec 5) : Prop where
  element : ∀ i j, i < ((s.vc k).cfg x.acc).m → j < ((s.vc k).cfg x.acc).n →
    let record := s.ringAddr k (q.ra.getD 0) ((s.ring k (q.ra.getD 0)).head + (if x.n then q.kdone * ((s.vc k).cfg x.acc).m else 0) + i)
    let eb := mmaBytes x.fmt
    let term := fun (n : Nat) =>
      let bit_ := 8 * (n / 8) + j / 8
      if x.s = true ∧ (Memory.read s.mem (s.wsAt k bank (q.bo + 16 * q.kdone + bit_ / 8))).getLsbD (bit_ % 8) = false then none
      else some (number s (record + eb * n) eb, number s (s.wsAt k bank (q.o + 8192 * q.kdone + 128 * j + eb * n)) eb)
    let e := added x q.op (number s (record + 128) 8) (old i j) ((List.range (128 / eb)).map term)
    (accGet (t.vc k).acc0 i j, accGet (t.vc k).acc1 i j) = e.1 ∧ e.2 &&& fl = e.2
  others : ∀ i j, j < 64 → ((s.vc k).cfg x.acc).m ≤ i ∨ ((s.vc k).cfg x.acc).n ≤ j →
    (accGet (t.vc k).acc0 i j, accGet (t.vc k).acc1 i j) = (accGet (s.vc k).acc0 i j, accGet (s.vc k).acc1 i j)
  head : t.ring k (q.ra.getD 0) = (if x.n then s.ring k (q.ra.getD 0) else
    { s.ring k (q.ra.getD 0) with
      head := ((s.ring k (q.ra.getD 0)).head + ((s.vc k).cfg x.acc).m) % (s.ring k (q.ra.getD 0)).count,
      fill := (s.ring k (q.ra.getD 0)).fill - ((s.vc k).cfg x.acc).m })
  rings : ∀ j, j ≠ q.ra.getD 0 → t.ring k j = s.ring k j
  mem : t.mem = s.mem

/-- R153, R155 to R158, R161 to R163, R166, R167, R175, R51: what the engines do with the head of their queue and with what is in progress:
MCFG, MZERO, WPSET, WSWAPQ, MLOAD, MOUT; an MMA starts, a stopped one goes on, each K-block; an MMA completes with its serial number, its
completion word and its event record; a vector instruction writes its slots and moves its rings; a folded core's engine changes owner.
The operands in ev and the grain of the engines are the model's (log entries 2 and 61). -/
def Obligations.EngineSteps : Prop :=
  ∀ (s : State) (q : QEntry) (rest : List QEntry) (r : Running) (a : BitVec 1) (rs1 : XReg) (w : WPtr) (n : Bool) (h : Handle),
    let k := s.ev.key
    let v := s.vc k
    let starts := s.matrixCanStart k = true ∧ FMap.get? v.run 0 = none ∧ v.queueOf 0 = q :: rest
    let began := fun (t : State) => (t.vc k).queueOf 0 = rest ∧ (∃ u, FMap.get? (t.vc k).run 0 = some u ∧ u.finished = true) ∧
      t.slots = s.slots ∧ t.mem = s.mem
    let c := v.cfg a
    let ia := q.ra.getD 0
    let id_ := q.rd.getD 0
    let both := fun (u : VCore) (i j : Nat) => (accGet u.acc0 i j, accGet u.acc1 i j)
    let small := fun (c : AccCfg) => c.m ≤ 64 ∧ c.n ≤ 64
    let moved := fun (r : Ring) (out_ in_ : Nat) => { r with
      head := (r.head + out_) % r.count, tail := (r.tail + in_) % r.count, fill := r.fill - out_ + in_ }
    (starts → decode q.word = .ok (.mcfg a rs1) → ∃ t, exec .matrixEngineStart s = .next t ∧ began t ∧
      (t.vc k).cfg a = cfgOfWord q.op ∧ (t.vc k).serial a = 0 ∧ (t.vc k).cfg (~~~ a) = v.cfg (~~~ a) ∧
      (t.vc k).acc (~~~ a) = v.acc (~~~ a) ∧ ∀ i j, j < 64 → accGet ((t.vc k).acc a) i j =
        let d := cfgOfWord q.op
        if d.i32 = c.i32 ∧ i < min c.m d.m ∧ j < min c.n d.n then accGet (v.acc a) i j else 0) ∧
    (starts → decode q.word = .ok (.mzero a) → ∃ t, exec .matrixEngineStart s = .next t ∧ began t ∧
      (t.vc k).mflags = v.mflags ∧ (t.vc k).acc (~~~ a) = v.acc (~~~ a) ∧
      ∀ i j, j < 64 → accGet ((t.vc k).acc a) i j = if i < c.m ∧ j < c.n then 0 else accGet (v.acc a) i j) ∧
    encode (.mzero a) = some (0b0000001#7 ++ 0b00000#5 ++ 0b00000#5 ++ 0b000#3 ++ 0b0000#4 ++ a ++ 0b0101011#7) ∧
    (starts → decode q.word = .ok (.wpset w rs1) → ∃ t, exec .matrixEngineStart s = .next t ∧ began t ∧
      (t.vc k).wp[w.toNat]'(w.isLt) = q.op.setWidth 36) ∧
    (starts → decode q.word = .ok .wswapq → ∃ t, exec .matrixEngineStart s = .next t ∧ began t ∧ (t.vc k).bank = !v.bank) ∧
    (starts → decode q.word = .ok (.mload n a h) → small c → ∃ t, exec .matrixEngineStart s = .next t ∧ (t.vc k).queueOf 0 = rest ∧
      t.mem = s.mem ∧ (t.vc k).acc (~~~ a) = v.acc (~~~ a) ∧
      (∀ i j, j < 64 → accGet ((t.vc k).acc a) i j =
        if i < c.m ∧ j < c.n then number s (s.ringAddr k ia ((s.ring k ia).head + i) + 4 * j) 4 else accGet (v.acc a) i j) ∧
      t.ring k ia = (if n = true ∨ c.m = 0 then s.ring k ia else
        { s.ring k ia with head := ((s.ring k ia).head + c.m) % (s.ring k ia).count, fill := (s.ring k ia).fill - c.m })) ∧
    (starts → decode q.word = .ok (.mout n h a rs1) →
      let tgt := outTgt q.op
      let rows := (List.range c.m).map (fun i => outRow c.i32 q.op ((modeOf q.frm).getD .rne) (rowValues v a tgt i c.n))
      let R := s.ring k id_
      c.m ≤ R.count → (∀ p ∈ rows, p.1.length ≤ R.size) → ∃ t u, exec .matrixEngineStart s = .next t ∧ (t.vc k).queueOf 0 = rest ∧
        FMap.get? (t.vc k).run 0 = some u ∧ u.finished = true ∧ u.count = c.m ∧ (∀ p ∈ rows, p.2 &&& u.flags = p.2) ∧
        SlotsPut s t k id_ R.tail (rows.map Prod.fst) ∧
        t.ring k id_ = (if n = true ∨ c.m = 0 then R else { R with tail := (R.tail + c.m) % R.count, fill := R.fill + c.m }) ∧
        ∀ i j, j < 64 → both (t.vc k) i j =
          if bit q.op 5 = true ∧ i < c.m ∧ j < c.n then
            (if tgtIsD tgt = true ∨ a = 0 then 0 else accGet v.acc0 i j, if tgtIsD tgt = true ∨ a = 1 then 0 else accGet v.acc1 i j)
          else both v i j) ∧
    (∀ x, starts → mmaArgs q = some x → q.kdone = 0 →
      let c := v.cfg x.acc
      let w1 : WPtr := x.w + 1
      let next := fun (p : BitVec 36) => p.extractLsb' 20 16 ++ (p.setWidth 20 + (p.extractLsb' 20 16).setWidth 20)
      let o := ((v.wp[x.w.toNat]'(x.w.isLt)).setWidth 20).toNat
      let bo := ((v.wp[w1.toNat]'(w1.isLt)).setWidth 20).toNat
      let old := fun (i j : Nat) =>
        (if x.z = true ∧ (x.fmt = .d ∨ x.acc = 0) then 0 else accGet v.acc0 i j, if x.z = true ∧ (x.fmt = .d ∨ x.acc = 1) then 0 else accGet v.acc1 i j)
      small c → ∃ t u, exec .matrixEngineStart s = .next t ∧ (t.vc k).queueOf 0 = rest ∧ FMap.get? (t.vc k).run 0 = some u ∧
        u.bank = v.bank ∧ u.entry.o = o ∧ u.entry.bo = bo ∧ (x.a = false → (t.vc k).wp = v.wp) ∧
        (x.a = true → (t.vc k).wp[x.w.toNat]'(x.w.isLt) = next (v.wp[x.w.toNat]'(x.w.isLt)) ∧
          (t.vc k).wp[w1.toNat]'(w1.isLt) = if x.s then next (v.wp[w1.toNat]'(w1.isLt)) else v.wp[w1.toNat]'(w1.isLt)) ∧
        (c.nrec = 0 → u.finished = true ∧ u.entry.kdone = 0 ∧ u.count = 0 ∧ t.mem = s.mem ∧
          ∀ i j, j < 64 → both (t.vc k) i j = if i < c.m ∧ j < c.n then old i j else both v i j) ∧
        (c.nrec ≠ 0 → u.entry.kdone = 1 ∧ u.count = c.m ∧ (u.finished = true ↔ c.kb = 1) ∧
          Blocked s t k x { q with o := o, bo := bo } v.bank old u.flags)) ∧
    (∀ x, starts → mmaArgs q = some x → q.kdone ≠ 0 → small (v.cfg x.acc) →
      ∃ t u, exec .matrixEngineStart s = .next t ∧ (t.vc k).queueOf 0 = rest ∧ FMap.get? (t.vc k).run 0 = some u ∧ u.bank = v.bank ∧
        u.entry.kdone = q.kdone + 1 ∧ u.count = (q.kdone + 1) * (v.cfg x.acc).m ∧ q.raised &&& u.flags = q.raised ∧ (u.finished = true ↔ u.entry.kdone = (v.cfg x.acc).kb) ∧
        (t.vc k).wp = v.wp ∧ Blocked s t k x q v.bank (both v) u.flags) ∧
    (∀ x, s.matrixCanStart k = true → FMap.get? v.run 0 = some r → mmaArgs r.entry = some x → small (v.cfg x.acc) →
      ∃ t u, exec .matrixEngineStart s = .next t ∧ (t.vc k).queue = v.queue ∧ FMap.get? (t.vc k).run 0 = some u ∧ u.bank = r.bank ∧
        u.entry.kdone = r.entry.kdone + 1 ∧ u.count = r.count + (v.cfg x.acc).m ∧ (u.finished = true ↔ u.entry.kdone = (v.cfg x.acc).kb) ∧
        r.flags &&& u.flags = r.flags ∧ Blocked s t k x r.entry r.bank (both v) u.flags) ∧
    (∀ x, s.matrixCanEnd k = true → FMap.get? v.run 0 = some r → mmaArgs r.entry = some x → ∃ t, exec .matrixEngineComplete s = .next t ∧
      FMap.get? (t.vc k).run 0 = none ∧ (t.vc k).serial x.acc = v.serial x.acc + 1 ∧ (t.vc k).mflags = v.mflags ||| r.flags ∧
      (t.vc k).swaps = 0 ∧ (t.vc k).bank = (if v.swaps % 2 = 1 then !v.bank else v.bank) ∧
      let c := v.cfg x.acc
      let e := v.evring.toNat % 64
      let cw := lmAddr (s.coreOf k) c.cw
      let at_ := s.ringAddr k e (s.ring k e).tail
      (c.ev = false → c.cwen = true → Memory.word t.mem cw = v.serial x.acc + 1 ∧ t.isFull cw = true) ∧
      (c.ev = true → c.cwen = false → s.eventRoom k 16 = some true →
        (t.ring k e).fill = (s.ring k e).fill + 1 ∧ Memory.word t.mem at_ =
          BitVec.ofNat 32 r.count ++ (v.serial x.acc + 1).setWidth 16 ++ 0x0001#16 ∧
        Memory.word t.mem (at_ + 8) = BitVec.ofNat 64 (r.flags.toNat + 256 * x.acc.toNat))) ∧
    (s.vectorCanStart k = true → v.queueOf 1 = q :: rest → ∃ t, exec .vectorEngineStart s = .next t ∧ (t.vc k).queueOf 1 = rest ∧
      FMap.get? (t.vc k).run 1 = some { entry := q } ∧ t.slots = s.slots ∧ t.mem = s.mem) ∧
    (∀ i x, s.vectorCanEnd k = true → FMap.get? v.run 1 = some r → decode r.entry.word = .ok i → vecArgs i = some x →
      let e := r.entry
      let size := fun (ring : Option Nat) => (ring.map (fun ix => (s.ring k ix).size)).getD 0
      let slot := fun (ring : Option Nat) (j : Nat) =>
        (ring.map (fun ix => Memory.bytes s.mem (s.ringAddr k ix ((s.ring k ix).head + j)) (s.ring k ix).size)).getD []
      let y := vecResult i x (slot e.ra 0) (slot e.rb (if e.ra = e.rb then 1 else 0)) (size e.rd) e.frm
        (fun j => (counterG v.srkey (e.op + BitVec.ofNat 64 (j / 4))).toNat / 2 ^ (16 * (j % 4)) % 2 ^ 16) v.vacc
      let out_ := fun (ix : Nat) => (if e.ra = some ix then e.na else 0) + if e.rb = some ix then e.nb else 0
      let in_ := fun (ix : Nat) => if e.rd = some ix then e.nd else 0
      ∃ t, exec .vectorEngineComplete s = .next t ∧ FMap.get? (t.vc k).run 1 = none ∧ (t.vc k).vacc = y.vacc ∧
        (t.vc k).mflags = v.mflags ||| y.flags ∧ (t.vc k).queue = v.queue ∧ (e.rd = none → t.mem = s.mem) ∧
        (∀ ix, e.rd = some ix → y.out.length ≤ (s.ring k ix).count → (∀ b ∈ y.out, b.length ≤ (s.ring k ix).size) →
          SlotsPut s t k ix (s.ring k ix).tail y.out) ∧
        ∀ ix, (x.n = true ∨ e.ra ≠ some ix ∧ e.rb ≠ some ix ∧ e.rd ≠ some ix → t.ring k ix = s.ring k ix) ∧
          (x.n = false → (s.ring k ix).head < (s.ring k ix).count → (s.ring k ix).tail < (s.ring k ix).count →
            t.ring k ix = moved (s.ring k ix) (out_ ix) (in_ ix))) ∧
    (∀ j, s.canSwitch k s.ev.ix = some j → ∃ t, exec .engineContextSwitch s = .next t ∧
      FMap.get? (t.core k).owner s.ev.ix = some j ∧ (∀ e, e ≠ s.ev.ix → FMap.get? (t.core k).owner e = FMap.get? (s.core k).owner e) ∧
      t.slots = s.slots)

/-- The pairwise sum of 2 ^ d exact values with one rounding at each node; nv: an invalid sum. -/
def Sys2Proof.Claim.tree (t : Fmt) : Nat → List Machine.Num → Machine.Num × BitVec 5
  | 0, l => (l.headD (.fin false 0 0), 0)
  | d + 1, l =>
    let a := tree t d (l.take (2 ^ d))
    let b := tree t d (l.drop (2 ^ d))
    let r := numAdd false a.1 b.1
    let q := t.roundNum .rne r.1
    (t.value q.1, a.2 ||| b.2 ||| q.2 ||| if r.2 then fNV else 0)

/-- The tree of R187 over 2 ^ d values. -/
def Sys2Proof.Claim.opTree (op : Nat → Nat → Nat × BitVec 5) : Nat → List Nat → Nat × BitVec 5
  | 0, l => (l.headD 0, 0)
  | d + 1, l =>
    let a := opTree op d (l.take (2 ^ d))
    let b := opTree op d (l.drop (2 ^ d))
    let q := op a.1 b.1
    (q.1, a.2 ||| b.2 ||| q.2)

/-- Element k of eb bytes of a slot. -/
def Sys2Proof.Claim.elementOf (bs : List Byte) (eb k : Nat) : Nat := ((List.range eb).map (fun i => (bs.getD (eb * k + i) 0).toNat * 256 ^ i)).sum

/-- A result is one slot of len bytes whose elements of eb bytes are f 0 to f (count - 1), then zeros; its flags are those of all of them;
vacc stays. -/
def Sys2Proof.Claim.SlotIs (y : VResult) (vacc : Vector (BitVec 32) 64) (eb len count : Nat) (f : Nat → Nat × BitVec 5) : Prop :=
  ∃ bs, y.out = [bs] ∧ y.vacc = vacc ∧ bs.length = len ∧ (∀ k < count, elementOf bs eb k = (f k).1 % 256 ^ eb ∧ (f k).2 &&& y.flags = (f k).2) ∧
    (∀ j, eb * count ≤ j → bs.getD j 0 = 0) ∧ ∀ z, (∀ k < count, (f k).2.getLsbD z = false) → y.flags.getLsbD z = false

/-- R166, R178, R180: the INT32 rules on patterns. -/
def Sys2Proof.Claim.IntRules : Prop :=
  ∀ (acc a b : BitVec 32) (p : Int) (c : VCmpOp),
    let m := max (-2147483648) (min 2147483647 (acc.toInt + p))
    let holds := match c with
      | .eq => a = b
      | .lt => a.toInt < b.toInt
      | .le => a.toInt ≤ b.toInt
      | .un => False
    accumI32 acc.toNat p = ((BitVec.ofInt 32 m).toNat, if m = acc.toInt + p then 0 else fSAT) ∧
    vecAdd .i32 a.toNat b.toNat = ((a + b).toNat, 0) ∧ vecSub .i32 a.toNat b.toNat = ((a - b).toNat, 0) ∧
    vecMul .i32 a.toNat b.toNat = ((a * b).toNat, 0) ∧
    vecMin .i32 a.toNat b.toNat = (if a.toInt ≤ b.toInt then a.toNat else b.toNat, 0) ∧
    vecMax .i32 a.toNat b.toNat = (if a.toInt ≤ b.toInt then b.toNat else a.toNat, 0) ∧
    vecNeg .i32 a.toNat = ((-a).toNat, 0) ∧ vecAbs .i32 a.toNat = (if a.toInt < 0 then (-a).toNat else a.toNat, 0) ∧
    (holds → vecCmp c .i32 a.toNat b.toNat = (2 ^ 32 - 1, 0)) ∧ (¬ holds → vecCmp c .i32 a.toNat b.toNat = (0, 0))

/-- R142, R143, R167: the sums of a K-block and the promotion. -/
def Sys2Proof.Claim.SumRules : Prop :=
  ∀ (f : MmaFmt) (l : List (Option (Nat × Nat))) (acc p sA sB : Nat),
    let a := mmaA f
    let b := mmaB f
    let sg := fun (neg : Bool) (z : Nat) => if neg then - (z : Int) else (z : Int)
    let prod : Option (Nat × Nat) → Int := fun t => match t with
      | none => 0
      | some (x, y) => match a.value x, b.value y with
        | .fin xn xm xe, .fin yn ym ye => sg (xn != yn) (xm * ym * 2 ^ (xe + ye + 40).toNat)
        | _, _ => 0
    let finite := ∀ x y, some (x, y) ∈ l → ∃ xn xm xe yn ym ye, a.value x = .fin xn xm xe ∧ b.value y = .fin yn ym ye ∧ -40 ≤ xe + ye
    let total := (l.map prod).sum
    let zero := fun (z : Machine.Num) => ∃ n e, z = .fin n 0 e
    let inf := fun (z : Machine.Num) => z = .inf true ∨ z = .inf false
    let minus := fun (z : Option (Nat × Nat)) => ∃ x y xn xm xe yn ym ye, z = some (x, y) ∧ a.value x = .fin xn xm xe ∧
      b.value y = .fin yn ym ye ∧ xm * ym = 0 ∧ xn ≠ yn
    let mixed := ∃ x y, some (x, y) ∈ l ∧ (inf (a.value x) ∧ zero (b.value y) ∨ zero (a.value x) ∧ inf (b.value y))
    let infinite := fun (neg : Bool) => ∃ x y, some (x, y) ∈ l ∧ (inf (a.value x) ∧ ¬ zero (b.value y) ∨ ¬ zero (a.value x) ∧ inf (b.value y)) ∧
      ((a.value x).isNeg != (b.value y).isNeg) = neg
    let leaf : Option (Nat × Nat) → Machine.Num × Bool := fun z => match z with
      | some (x, y) => numMul (a.value x) (a.value y)
      | none => (.fin false 0 0, false)
    let s := fmt32.mul .rne sA sB
    let m := fmt32.mul .rne p s.1
    let r := fmt32.add .rne acc m.1
    i8Sum l = (l.map (fun t => match t with
      | some (x, y) => (BitVec.ofNat 8 x).toInt * (BitVec.ofNat 8 y).toInt
      | none => 0)).sum ∧
    (finite → total ≠ 0 → Rounded fmt32 0x7F7FFFFF 0x7F800000 .rne false (decide (total < 0)) (versus total.natAbs 1 (-40)) (fp8Sum a b l)) ∧
    (finite → total = 0 → ((∀ z ∈ l, minus z) → fp8Sum a b l = (0x80000000, 0)) ∧ (¬ (∀ z ∈ l, minus z) → fp8Sum a b l = (0, 0))) ∧
    ((∀ x y, some (x, y) ∈ l → ((a.value x).isNan || (b.value y).isNan) = false) →
      (mixed → fp8Sum a b l = (0x7FC00000, fNV)) ∧ (¬ mixed → infinite false → infinite true → fp8Sum a b l = (0x7FC00000, fNV)) ∧
      (¬ mixed → infinite false → ¬ infinite true → fp8Sum a b l = (0x7F800000, 0)) ∧
      (¬ mixed → infinite true → ¬ infinite false → fp8Sum a b l = (0xFF800000, 0))) ∧
    (∀ x y, some (x, y) ∈ l → ((a.value x).isNan || (b.value y).isNan) = true → fp8Sum a b l = (0x7FC00000, 0)) ∧
    (∀ t d, l.length = 2 ^ d →
      let u := tree t d (l.map (fun z => (leaf z).1))
      treeBlock t a d l = ((t.roundNum .rne u.1).1, if l.any (fun z => (leaf z).2) then fNV ||| u.2 else u.2)) ∧
    promote acc p sA sB = (r.1, s.2 ||| m.2 ||| r.2)

/-- R161: the elements of a row that MOUT writes. -/
def Sys2Proof.Claim.RowRules : Prop :=
  ∀ (i32 : Bool) (w : Word) (mode : RMode) (row : List (Machine.Num × Nat)) (j : Nat), j < row.length →
    let g := outTgt w
    let eb := tgtBytes g
    let x := row.getD j (.fin false 0 0, 0)
    let sat := bit w 3
    let same : Nat × BitVec 5 := match g with
      | .d => (x.2, 0)
      | .f32 => if i32 then convertInt g mode sat (intVal 32 x.2) else (x.2, 0)
      | _ => if i32 then convertInt g mode sat (intVal 32 x.2) else convert g mode sat x.1
    let sc := quantScale g (row.map Prod.fst)
    let d := scaled x.1 sc
    let q := convert g mode true d.1 d.2
    let y := outRow i32 w mode row
    (bit w 4 = false → y.1.length = (row.length * eb + 7) / 8 * 8 ∧ elementOf y.1 eb j = same.1 % 256 ^ eb ∧ same.2 &&& y.2 = same.2) ∧
    (bit w 4 = true → row.length ≤ 128 → y.1.length = 136 ∧ elementOf y.1 1 j = q.1 % 256 ∧ (∀ i, row.length ≤ i → i < 128 → y.1.getD i 0 = 0) ∧
      elementOf y.1 8 16 = 2 ^ 32 + sc % 2 ^ 32 ∧ q.2 &&& y.2 = q.2)

/-- R176 to R182: what the vector instructions write that act element by element. -/
def Sys2Proof.Claim.EachRules : Prop :=
  ∀ (n : Bool) (t : VType) (cc : VCmpOp) (d a b : Handle) (ha hb : List Byte) (sd : Nat) (frm : BitVec 3) (draw : Nat → Nat)
      (vacc : Vector (BitVec 32) 64),
    let vac := fun (k : Nat) => (vacc[k % 64]'(Nat.mod_lt k (by decide))).toNat
    let each := fun (i : Instr) (t : VType) (f : Nat → Nat → Nat → Nat × BitVec 5) =>
      let eb := vtBytes t
      let count := ha.length / eb
      eb * count ≤ hb.length → SlotIs (vecResult i ⟨n, t, some d, some a, some b⟩ ha hb sd frm draw vacc) vacc eb ((eb * count + 7) / 8 * 8) count
        (fun k => f k (elementOf ha eb k) (elementOf hb eb k))
    let one := fun (i : Instr) (t : VType) (f : Nat → Nat × BitVec 5) =>
      let eb := vtBytes t
      let count := ha.length / eb
      SlotIs (vecResult i ⟨n, t, some d, some a, none⟩ ha hb sd frm draw vacc) vacc eb ((eb * count + 7) / 8 * 8) count (fun k => f (elementOf ha eb k))
    let F := vtFmt t
    each (.vadd n t d a b) t (fun _ x y => vecAdd t x y) ∧ each (.vsub n t d a b) t (fun _ x y => vecSub t x y) ∧
    each (.vmul n t d a b) t (fun _ x y => vecMul t x y) ∧ each (.vmin n t d a b) t (fun _ x y => vecMin t x y) ∧
    each (.vmax n t d a b) t (fun _ x y => vecMax t x y) ∧ (t ≠ .i32 → ∀ x y, vecAdd t x y = F.add .rne x y ∧ vecSub t x y = F.sub .rne x y ∧
      vecMul t x y = F.mul .rne x y ∧ vecMin t x y = F.minmax false x y ∧ vecMax t x y = F.minmax true x y) ∧
    each (.vfma n t d a b) t (fun k x y => vecFma F F x y (vac k)) ∧ each (.vcmp cc n t d a b) t (fun _ x y => vecCmp cc t x y) ∧
    each (.vsel n t d a b) t (fun _ x y => (if y = 0 then 0 else x, 0)) ∧
    each (.vand n d a b) .i32 (fun _ x y => (x &&& y, 0)) ∧ each (.vor n d a b) .i32 (fun _ x y => (x ||| y, 0)) ∧
    each (.vxor n d a b) .i32 (fun _ x y => (x ^^^ y, 0)) ∧ each (.vshl n d a b) .i32 (fun _ x y => (x * 2 ^ (y % 32), 0)) ∧
    each (.vshr n d a b) .i32 (fun _ x y => (((BitVec.ofNat 32 x).sshiftRight (y % 32)).toNat, 0)) ∧
    one (.vabs n t d a) t (vecAbs t) ∧ one (.vneg n t d a) t (vecNeg t) ∧ one (.vrcp n t d a) t (approxRcp F) ∧ one (.vrsq n t d a) t (approxRsq F) ∧
    one (.vexp2 n t d a) t (fun x => if t = .f32 then approxExp2Lean x else approxExp2 F x) ∧
    one (.vlog2 n t d a) t (fun x => if t = .f32 then approxLog2Lean x else approxLog2 F x) ∧
    one (.vtanh n t d a) t (approxTanh F) ∧ one (.vsig n t d a) t (approxSig F) ∧
    one (.vexp2X n d a) .f32 (approxExp2 fmt32) ∧ one (.vlog2X n d a) .f32 (approxLog2 fmt32) ∧
    (t ≠ .i32 → ∀ x neg m e, F.value x = .fin neg m e → m ≠ 0 → ∀ big above, (F, big, above) ∈ formats →
      Rounded F big above .rne false neg (versus 1 m (-e)) (approxRcp F x) ∧
      (neg = false → Rounded F big above .rne false false (fun k f => compare (2 ^ (-e - min (-e) (2 * f)).toNat)
        (k * k * m * 2 ^ (2 * f - min (-e) (2 * f)).toNat)) (approxRsq F x)))

/-- R179, R183 to R188: what the others write, and what becomes of vacc. -/
def Sys2Proof.Claim.OtherRules : Prop :=
  ∀ (n sr sat : Bool) (t : VType) (g : CvtTgt) (d a b : Handle) (ha hb : List Byte) (sd : Nat) (frm : BitVec 3) (draw : Nat → Nat)
      (vacc : Vector (BitVec 32) 64),
    let res := fun (i : Instr) (t : VType) => vecResult i ⟨n, t, some d, some a, some b⟩ ha hb sd frm draw vacc
    let vac := fun (k : Nat) => (vacc[k % 64]'(Nat.mod_lt k (by decide))).toNat
    let mode := (modeOf frm).getD .rne
    let F := vtFmt t
    let eb := vtBytes t
    let pick := fun (k : Nat) => elementOf ha eb k
    let at_ := fun (k : Nat) => elementOf hb 4 k
    let nA := ha.length / eb
    let nB := hb.length / 4
    let slot := fun (y : VResult) (eb len count : Nat) (f : Nat → Nat × BitVec 5) => SlotIs y vacc eb len count f
    slot (res (.vcvt n sr sat g t d a) t) (tgtBytes g) ((nA * tgtBytes g + 7) / 8 * 8) nA (fun k => vecCvt g sr sat t mode (pick k) (draw k)) ∧
    (nA ≤ 128 → let sc := quantScale g ((List.range nA).map (fun k => F.value (pick k)))
      ∃ bs, (res (.vqnt n sr sat g t d a) t).out = [bs] ∧ bs.length = 136 ∧ elementOf bs 8 16 = 2 ^ 32 + sc % 2 ^ 32 ∧
        (∀ k < nA, (bs.getD k 0).toNat = (vecQnt g sr t mode sc (pick k) (draw k)).1 % 256) ∧ ∀ k, nA ≤ k → k < 128 → bs.getD k 0 = 0) ∧
    (∃ hi mid lo, (res (.vsplit3 n d a) .f32).out = [hi, mid, lo] ∧ ∀ k < ha.length / 4, let y := (split3 (elementOf ha 4 k)).1
      elementOf hi 2 k = y.1 % 65536 ∧ elementOf mid 2 k = y.2.1 % 65536 ∧ elementOf lo 2 k = y.2.2 % 65536) ∧
    slot (res (.vreds n t d a) t) eb 8 1 (fun _ => vecSum t ((List.range nA).map pick)) ∧
    slot (res (.vredm n t d a) t) eb 8 1 (fun _ => reduce t (vecMax t) ((List.range nA).map pick)) ∧
    (∀ op l k, l.length = 2 ^ k → 0 < k → k ≤ 6 → reduce t op l = opTree op k l) ∧
    slot (res (.vgath n t d a b) t) eb ((nB * eb + 7) / 8 * 8) nB (fun k => if at_ k < nA then (pick (at_ k), 0) else (0, fNV)) ∧
    (0 < nA → nA ≤ nB → slot (res (.vperm n t d a b) t) eb ((nA * eb + 7) / 8 * 8) nA (fun k => (pick (at_ k % nA), 0))) ∧
    (nA ≤ nB → sd % 8 = 0 → ∃ bs, (res (.vscat n t d a b) t).out = [bs] ∧ bs.length = sd ∧
      ((res (.vscat n t d a b) t).flags = if ∃ k < nA, sd / eb ≤ at_ k then fNV else 0) ∧
      ∀ j < sd / eb, ((∀ k < nA, at_ k ≠ j) → elementOf bs eb j = 0) ∧
        ∀ k < nA, at_ k = j → (∀ l, k < l → l < nA → at_ l ≠ j) → elementOf bs eb j = pick k) ∧
    slot (res (.vaccget n d) .f32) 4 256 64 (fun k => (vac k, 0)) ∧
    ((res (.vaccset n a) .f32).out = [] ∧ (256 ≤ ha.length → ∀ l < 64, ((res (.vaccset n a) .f32).vacc.toList.getD l 0).toNat = elementOf ha 4 l)) ∧
    ((res .vaccz .f32).out = [] ∧ (res .vaccz .f32).vacc = Vector.replicate 64 0) ∧
    ((res (.vmac n t a b) t).out = [] ∧ (eb * nA ≤ hb.length → ∀ l < 64, ((res (.vmac n t a b) t).vacc.toList.getD l 0).toNat =
      ((List.range nA).filter (fun k => k % 64 = l)).foldl (fun y k => (vecFma F fmt32 (pick k) (elementOf hb eb k) y).1 % 2 ^ 32) (vac l)))

/-- R142, R143, R161, R166, R167, R176 to R188: exact rules of the engines on element patterns: the sums of a K-block (an FP8 sum exact and
rounded once, with its zeros, infinities and NaNs, the tree of the wider formats, the exact INT8 sum, the clamped accumulation, the promotion with its scales), the elements of
a MOUT row, and for each vector instruction what it writes. The values of Table 07.4 that are irrational are the model's functions. -/
def Obligations.ElementRules : Prop := IntRules ∧ SumRules ∧ RowRules ∧ EachRules ∧ OtherRules

/-! Copies. -/

/-- Message ev.ix is m, and it meets virtual core vk live, present and taking requests of its source. -/
structure Sys2Proof.Claim.Arrives (s : State) (m : Msg) (vk : Nat) : Prop where
  msg : s.evMsg = some m
  dst : m.dst = .vc vk
  live : (s.vc vk).live = true
  here : (s.vc vk).place.isSome = true
  quiet : s.quietFor vk m.src = false
  calm : (s.vc vk).refusal? m.src m.net = none
  free : (s.vc vk).holdsFor m.src = false

/-- So it does, and its home can perform it in this cycle: the slots of the core have had their turns, and no remote access has used
the bank (R33, R256; the form is the model's, log entry 99). -/
def Sys2Proof.Claim.Performed (s : State) (m : Msg) (vk : Nat) : Prop := Arrives s m vk ∧ s.homeFree m = true

/-- Message ev.ix leaves the networks, and m is answered with b. -/
def Sys2Proof.Claim.Answered (s t : State) (m : Msg) (b : Body) : Prop :=
  t.net = s.net.eraseIdx s.ev.ix ++ [Msg.mk m.dst m.src b.net b none false]

/-- R217, R219, R220, R254, Table 08.8: one element of a copy, read from local LM, the weight store, HBM or the second tier or the host
aperture by address translation, another virtual core or signal memory, and written to any of them: at an address of its own at once, at
another home by a message; where it does not lie inside, the fault of R220. -/
def Sys2Proof.Claim.CopyElements : Prop :=
  ∀ (s : State) (k : Nat) (r : Running) (mc : Bool) (later : List Nat) (act : Bool),
    let src := layoutOfWords r.src
    let d := layoutOfWords r.dst
    let eb := recEb r.record
    let e := r.entry
    let at_ := fun (l : Layout) (o : List Nat) => l.offset eb ((o.zip (coords (recExt r.record) r.pos)).map (fun p => p.1 + p.2))
    let so := at_ src (recSo r.record)
    let do_ := at_ d (recDo r.record)
    let bytes := fun (a : Nat) => (List.range eb).map (fun j => a + j)
    let inside := fun (a : Nat) => (e.mMode = true ∧ a + eb ≤ 0x100000) ∨ (e.mMode = false ∧ e.base ≤ a ∧ a + eb ≤ e.base + e.lim)
    let active := r.banks.find? (fun p => p.1 == k) = some (k, act)
    let found := fun (z : State) (l : Layout) (o : Nat) (write : Bool) =>
      z.translateBytes (z.dieOf k) (z.gang (z.vc k).gid).func (l.base + o) (if write = true then .write else .read) eb (.micro (z.coreOf k))
    let here := fun (z u : State) (l : Layout) (o : Nat) (write : Bool) (as : List Nat) =>
      (l.space = 0 ∧ inside (l.base + o) ∧ u = z ∧ as = bytes (lmAddr (z.coreOf k) (l.base + o))) ∨
      (l.space = 2 ∧ active ∧ (l.base + o) % 2 ^ 20 + eb ≤ z.share k ∧ u = z ∧
        as = bytes (z.wsAt k (if l.bank = true then act else !act) ((l.base + o) % 2 ^ 20))) ∨
      (3 ≤ l.space ∧ l.space ≤ 5 ∧ found z l o write = some (u, as))
    let outside := fun (z : State) (l : Layout) (o : Nat) (write : Bool) (status detail : Nat) =>
      (l.space = 0 ∧ ¬ inside (l.base + o) ∧ status = 3 ∧ detail = (l.base + o + 2 ^ 64 - e.base) % 2 ^ 64) ∨
      (l.space = 2 ∧ z.share k < (l.base + o) % 2 ^ 20 + eb ∧ status = 3 ∧ detail = (l.base + o) % 2 ^ 20) ∨
      (3 ≤ l.space ∧ l.space ≤ 5 ∧ found z l o write = none ∧ status = (if write = true then 5 else 4) ∧ detail = 0) ∨
      (l.space = 6 ∧ 0x8000 < l.base % 2 ^ 24 + o + eb ∧ status = 6 ∧ detail = 0)
    let ptr := fun (l : Layout) (o vcid space : Nat) => BitVec.ofNat 64 ((l.base % 2 ^ 24 + o) % 2 ^ 24 + vcid * 2 ^ 24 +
      l.base / 2 ^ 28 % 2 ^ 20 * 2 ^ 40 + space * 2 ^ 60)
    let node := fun (l : Layout) => l.base / 2 ^ 28 % 2 ^ 20
    let rspace := fun (l : Layout) => l.base / 2 ^ 48 % 16
    let away := fun (z : State) (l : Layout) (o : Nat) (x : Dest) (p : Word) =>
      let own := z.ownNode (node l) = true
      let gid := (z.vc k).gid
      (l.space = 1 ∧ own ∧ x = .vc (vkey gid l.vcid) ∧ p = ptr l o l.vcid (rspace l)) ∨
      (l.space = 1 ∧ ¬ own ∧ x = .farVc (node l) (z.gang gid).job l.vcid ∧ p = ptr l o l.vcid (rspace l)) ∨
      (l.space = 6 ∧ l.base % 2 ^ 24 + o + eb ≤ 0x8000 ∧ (own → x = .sig (l.vcid % 8)) ∧ (¬ own → x = .farSig (node l) (l.vcid % 8)) ∧
        p = ptr l o (l.vcid % 8) 1)
    let step_ := s.copyElement k r mc later
    let ready := r.asked = [] ∧ r.refused = false ∧ r.sent = false
    let value := fun (z : State) (bs : List Byte) =>
      ready ∧ (r.got = some bs ∧ z = s ∨ r.got = none ∧ ∃ as, here s z src so false as ∧ bs = readAt z.mem as)
    let tag : Tag := ⟨s.nextId + 1, e.slot, 0⟩
    (r.asked ≠ [] → step_ = .wait) ∧
    (r.asked = [] → r.refused = true → step_ = .fault s 6 0) ∧ (r.asked = [] → r.refused = false → r.sent = true → step_ = .done s) ∧
    (∀ x p, ready → r.got = none → away s src so x p → ∃ t bank, step_ = .ask t [s.nextId + 1] none false ∧
      t.net = s.net ++ [Msg.mk (.vc k) x .request (.copyRead tag p eb bank) none false] ∧ { t with net := s.net, nextId := s.nextId } = s) ∧
    (∀ st det, ready → r.got = none → outside s src so false st det → ∃ t, step_ = .fault t st det ∧ t.mem = s.mem) ∧
    (∀ z bs u as, value z bs → here z u d do_ true as → ∃ t, step_ = .done t ∧ t.mem = writeAt u.mem as bs ∧
      (bit e.op 17 = false → t.full = u.full) ∧ (bit e.op 17 = true → d.space = 0 → bs.length = eb → later = [] → ∀ a ∈ as, t.isFull (a / 8 * 8) = true) ∧
      { t with mem := u.mem, full := u.full, slots := u.slots, cores := u.cores } = u) ∧
    (∀ z bs st det, value z bs → outside z d do_ true st det → ∃ t, step_ = .fault t st det ∧ t.mem = z.mem) ∧
    (∀ z bs x p, value z bs → away z d do_ x p → mc = false ∨ (∀ j, x ≠ .vc j) → z.nextId = s.nextId → ∃ t bank full, step_ = .ask t [z.nextId + 1] (some bs) true ∧
      t.net = z.net ++ [Msg.mk (.vc k) x .request (.copyWrite tag p bs bank full) none false] ∧ { t with net := z.net, nextId := z.nextId } = z) ∧
    (∀ z bs, value z bs → d.space = 1 → z.ownNode (node d) = true → mc = true → ∃ t ids ms, step_ = .ask t ids (some bs) true ∧ t.net = z.net ++ ms ∧
      ms.map Msg.dst = ((z.vcs.filter (fun p => p.2.live && p.2.groups.contains (bits e.op 31 24))).map Prod.fst).map Dest.vc ∧
      (∀ m ∈ ms, ∃ id j bank full, id ∈ ids ∧ m.dst = .vc j ∧
        m.body = .copyWrite ⟨id, e.slot, 0⟩ (ptr d do_ (j % 65536) (rspace d)) bs bank full) ∧ { t with net := z.net, nextId := z.nextId } = z)

/-- R195, R220: an element of a copy at its home, in LM, in a bank of the weight store, in signal memory; outside what the virtual core
has it is answered with WIN. Which of the bank codes is which: 0 the active bank, 1 the standby bank, 2 and 3 the bank by number. -/
def Sys2Proof.Claim.CopyHomes : Prop :=
  ∀ (s : State) (m : Msg) (vk : Nat) (tg : Tag) (p : Word) (bs : List Byte) (n code : Nat) (full : Bool × Bool),
    let off := p.toNat % 2 ^ 24
    let v := s.vc vk
    let ws := p.toNat / 2 ^ 60 = 2
    let lm := p.toNat / 2 ^ 60 ≠ 2
    let bank := if code = 0 then v.bank else if code = 1 then !v.bank else code == 3
    let a := fun (lm : Bool) => if lm = true then lmAddr (s.coreOf vk) (v.base + off) else s.wsAt vk bank off
    let inside := fun (here : Bool) (n : Nat) => (here = true ∧ lm ∧ off + n ≤ s.launchLenOf vk) ∨ (here = false ∧ ws ∧ off + n ≤ s.share vk)
    let outside := fun (n : Nat) => (lm ∧ s.launchLenOf vk < off + n) ∨ (ws ∧ s.share vk < off + n)
    let put := fun (t : State) (a : Nat) => ∀ j, Memory.read t.mem j = if a ≤ j ∧ j < a + bs.length then bs.getD (j - a) 0 else Memory.read s.mem j
    let word := fun (a : Nat) => BitVec.ofNat 64 (number s a n)
    (∀ here, Performed s m vk → m.body = .copyWrite tg p bs code full → inside here bs.length →
      ∃ t, exec .remoteStoreAtHome s = .next t ∧ put t (a here) ∧ Answered s t m (.ack tg.id tg.slot 0 false) ∧
        (full = (false, false) → t.full = s.full) ∧ (full.1 = true → t.isFull (a here / 8 * 8) = true ∨ bs = [])) ∧
    (Performed s m vk → m.body = .copyWrite tg p bs code full → outside bs.length →
      ∃ t, exec .remoteStoreAtHome s = .next t ∧ t.mem = s.mem ∧ t.full = s.full ∧ Answered s t m (.ack tg.id tg.slot 1 false)) ∧
    (∀ here, Performed s m vk → m.body = .copyRead tg p n code → inside here n →
      ∃ t, exec .remoteLoadAtHome s = .next t ∧ t.mem = s.mem ∧ t.full = s.full ∧ Answered s t m (.loadReply tg.id tg.slot 0 (word (a here)))) ∧
    (Performed s m vk → m.body = .copyRead tg p n code → outside n →
      ∃ t, exec .remoteLoadAtHome s = .next t ∧ t.mem = s.mem ∧ Answered s t m (.loadReply tg.id tg.slot 1 0)) ∧
    (∀ d, s.evMsg = some m → m.dst = .sig d → (s.die d).failed = false →
      (m.body = .copyWrite tg p bs code full → off + bs.length ≤ 0x8000 →
        ∃ t, exec .remoteStoreAtHome s = .next t ∧ put t (sigAddr d off) ∧ Answered s t m (.ack tg.id tg.slot 0 false)) ∧
      (m.body = .copyRead tg p n code → off + n ≤ 0x8000 →
        ∃ t, exec .remoteLoadAtHome s = .next t ∧ t.mem = s.mem ∧ Answered s t m (.loadReply tg.id tg.slot 0 (word (sigAddr d off)))))

/-- R214, R217 to R221, R254: acceptance of COPY, COPYMC and WENQ, with their traps; the copy engine takes a well-formed copy, stops at a
malformed record, moves an element inside the segment, sends one for another virtual core as a message, completes and reports, also to the
mailbox (R26); each element from and to every space of Table 08.8, and at its home. The operands in ev are the model's (log entry 2). The
grain and order of elements, and a second fault of a slot: log entries 22 and 81. -/
def Obligations.Copies : Prop :=
  CopyElements ∧ CopyHomes ∧
  ∀ (s : State) (n mc : Bool) (rd rs1 : XReg) (h : Handle) (bt : BitVec 2) (ix : Nat) (q : QEntry) (r : Running),
    let w := s.x rs1
    let grp := bits w 31 24
    let dst := layoutOfWords (s.myVc.layoutWords (bits w 13 8))
    let k := s.ev.key
    let v := s.vc k
    let i : Instr := if mc then .copymc n rd rs1 h else .copy n rd rs1 h
    let trap := fun (i : Instr) (cause : Nat) (tv : Word) => ∃ t, exec i s = .next t ∧ Trapped s t (BitVec.ofNat 64 cause) tv s.me.pc
    let illegal := fun (i : Instr) => trap i 2 (((encode i).getD 0).setWidth 64)
    let rec_ := wordsOfBytes (s.slotBytes k (q.ra.getD 0) 0 104)
    (Free s 2 → s.handle? h .consumer (feeds 2) = some ix → 104 ≤ (s.ring s.vk ix).size → w &&& 0xFFFF000000FCC0C0 = 0 →
      (mc = false → grp = 0) → (mc = true → s.inGroup s.vk grp = true ∧ dst.space = 1 ∧ s.ownNode dst.node = true) →
      ∃ t a, exec i s = .next t ∧ a.slot = s.ix ∧ a.copy = true ∧
        Queued s t 2 i { s.myVc with unacked := s.myVc.unacked ++ [a] } (fun e => e.ra = some ix ∧ e.na = 1 ∧ e.op = w ∧ e.id = a.id)) ∧
    (FMap.get? s.myVc.binds 2 = some s.ix → s.handle? h .consumer (feeds 2) = none → trap i 25 (BitVec.ofNat 64 h.toNat)) ∧
    (FMap.get? s.myVc.binds 2 = some s.ix → s.handle? h .consumer (feeds 2) = some ix →
      ((s.ring s.vk ix).size < 104 → trap i 25 (BitVec.ofNat 64 h.toNat)) ∧
      (104 ≤ (s.ring s.vk ix).size → w &&& 0xFFFF000000FCC0C0 ≠ 0 ∨ mc = false ∧ grp ≠ 0 → illegal i) ∧
      (104 ≤ (s.ring s.vk ix).size → w &&& 0xFFFF000000FCC0C0 = 0 → mc = true →
        (s.inGroup s.vk grp = false → trap i 25 (BitVec.ofNat 64 (192 + 256 * grp))) ∧
        (s.inGroup s.vk grp = true → ¬ (dst.space = 1 ∧ s.ownNode dst.node = true) → illegal i))) ∧
    (FMap.get? s.myVc.binds 2 ≠ some s.ix → trap i 29 2) ∧ (FMap.get? s.myVc.binds 3 ≠ some s.ix → trap (.wenq n h rs1 bt) 29 3) ∧
    (FMap.get? s.myVc.binds 3 = some s.ix → s.handle? h .consumer (feeds 3) = none → trap (.wenq n h rs1 bt) 25 (BitVec.ofNat 64 h.toNat)) ∧
    (FMap.get? s.myVc.binds 3 = some s.ix → s.handle? h .consumer (feeds 3) = some ix →
      tgtRzOk w = false ∨ s.me.mode = .u ∧ tgtHbm w = true → illegal (.wenq n h rs1 bt)) ∧
    (Free s 3 → s.handle? h .consumer (feeds 3) = some ix → tgtRzOk w = true → (s.me.mode = .u → tgtHbm w = false) →
      ∃ t a, exec (.wenq n h rs1 bt) s = .next t ∧ a.slot = s.ix ∧ a.dests = [s.wenqDest s.vk w] ∧ a.bt = bt.toNat ∧
        Queued s t 3 (.wenq n h rs1 bt) { s.myVc with unacked := s.myVc.unacked ++ [a] } (fun e => e.ra = some ix ∧ e.op = w ∧ e.id = a.id)) ∧
    (∀ rest, s.copyCanStart k = true → FMap.get? v.run 2 = none → v.queueOf 2 = q :: rest → copyFields q = some (mc, n, rd) →
      (recMalformed rec_ = false → boxInside (layoutOfWords (v.layoutWords (bits q.op 5 0))) (recSo rec_) (recExt rec_) = true →
        boxInside (layoutOfWords (v.layoutWords (bits q.op 13 8))) (recDo rec_) (recExt rec_) = true →
        ∃ t u, exec .copyEngineStart s = .next t ∧ (t.vc k).queueOf 2 = rest ∧ FMap.get? (t.vc k).run 2 = some u ∧ u.entry = q ∧
          u.fault = none ∧ u.record = rec_ ∧ t.slots = s.slots ∧ t.mem = s.mem) ∧
      (recMalformed rec_ = true → ∃ t u, exec .copyEngineStart s = .next t ∧ FMap.get? (t.vc k).run 2 = some u ∧ u.entry = q ∧
        u.fault = some (1, 0) ∧ (∀ e ∈ (t.vc k).queueOf 2, e.cancelled = true) ∧ t.mem = s.mem)) ∧
    (let src := layoutOfWords r.src
     let d := layoutOfWords r.dst
     let eb := recEb r.record
     let at_ := fun (l : Layout) (o : List Nat) =>
       l.base + l.offset eb ((o.zip (coords (recExt r.record) r.pos)).map (fun p => p.1 + p.2))
     let a := at_ src (recSo r.record)
     let b := at_ d (recDo r.record)
     let inside := fun (x : Nat) => r.entry.mMode = false ∧ r.entry.base ≤ x ∧ x + eb ≤ r.entry.base + r.entry.lim
     let first := r.asked = [] ∧ r.refused = false ∧ r.sent = false ∧ r.got = none
     let bytes := (List.range eb).map (fun j => Memory.read s.mem (lmAddr (s.coreOf k) (a + j)))
     (first → src.space = 0 → d.space = 1 → s.ownNode d.node = true → d.rspace = 0 → inside a → ∀ later, ∃ t id f ptr,
       let there := (d.base % 2 ^ 24 + d.offset eb (((recDo r.record).zip (coords (recExt r.record) r.pos)).map (fun p => p.1 + p.2))) % 2 ^ 24
       s.copyElement k r false later = .ask t [id] (some bytes) true ∧ ptrOff ptr = there ∧ t.nextId = id ∧ id = s.nextId + 1 ∧
       t.net = s.net ++ [Msg.mk (.vc k) (.vc (vkey (s.vc k).gid d.vcid)) .request (.copyWrite ⟨id, r.entry.slot, 0⟩ ptr bytes 0 f) none false] ∧
       { t with net := s.net, nextId := s.nextId } = s) ∧
     (first → src.space = 0 → d.space = 0 → inside a → inside b → ∀ later, ∃ t, s.copyElement k r false later = .done t ∧
       (∀ j < eb, Memory.read t.mem (lmAddr (s.coreOf k) (b + j)) = Memory.read s.mem (lmAddr (s.coreOf k) (a + j))) ∧
       (∀ x, x < lmAddr (s.coreOf k) b ∨ lmAddr (s.coreOf k) b + eb ≤ x → Memory.read t.mem x = Memory.read s.mem x))) ∧
    (∀ count pos, s.copyCanEnd k = true → v.copyDone = some (q, 0, count, pos) → copyFields q = some (mc, n, rd) →
      ∃ t, exec .copyComplete s = .next t ∧ FMap.get? (t.vc k).run 2 = none ∧ (∀ a ∈ (t.vc k).unacked, a.id ≠ q.id)) ∧
    (∀ st det, s.copyFaulted k = true → FMap.get? v.run 2 = some r → r.fault = some (st, det) → copyFields r.entry = some (mc, n, rd) →
      ∃ t, exec .copyFault s = .next t ∧ FMap.get? (t.vc k).run 2 = none ∧
        (∀ sk ss m, s.eventRoom k 16 = none → s.mailbox k = some (sk, ss, m) → ∃ more, t.net = s.net ++
          Msg.mk (.vc k) (.vc sk) .request (.mailbox ss m [BitVec.ofNat 64 (4 + r.entry.slot * 256 + v.vcid * 65536 + s.node * 2 ^ 32), r.entry.pc,
            BitVec.ofNat 64 ((if mc then 0x11 else 0x10) + 2 * 256 + st * 4096 + bits r.entry.op 47 32 * 65536 + r.count % 2 ^ 32 * 2 ^ 32),
            BitVec.ofNat 64 r.pos, 0, 0, 0, 0]) none false :: more) ∧
        ∀ j, st = 3 → FMap.get? v.binds 2 = some j → (t.slot (slotKey k j)).p30 = some det)

/-! Remote access. -/

/-- A pointer that passes R194: aligned, and of space 0, or of space 1 with its reserved bits zero and inside the signal memory. -/
def Sys2Proof.Claim.Good (p : Word) : Prop :=
  p.toNat % 8 = 0 ∧ (p.toNat / 2 ^ 60 = 0 ∨ p.toNat / 2 ^ 60 = 1 ∧ p.toNat / 2 ^ 27 % 2 ^ 13 = 0 ∧ p.toNat % 2 ^ 24 < 0x8000)

/-- Nothing is kept at the source, and request egress of the core has room (R196). -/
def Sys2Proof.Claim.Clear (s : State) : Prop := s.myVc.kept = [] ∧ (s.core (s.coreOf s.vk)).egress.length < 32

/-- The request b of the current virtual core to d is last in request egress. -/
def Sys2Proof.Claim.Left (s t : State) (d : Dest) (b : Body) : Prop :=
  (t.core (s.coreOf s.vk)).egress = (s.core (s.coreOf s.vk)).egress ++ [Msg.mk (.vc s.vk) d .request b none false] ∧ t.net = s.net

/-- An access of the current slot has been issued and the slot has completed with w in x[rd]: of the virtual core no more than its
accesses, batches, kept requests and tokens differ, of the cores no more than its own. -/
structure Sys2Proof.Claim.Issued (s t : State) (rd : XReg) (w : Word) : Prop where
  x : ∀ r, t.x r = if r = rd ∧ rd ≠ 0 then w else s.x r
  pc : t.me.pc = s.me.pc + 4
  hold : t.me.hold = none
  arrived : t.me.arrived = none
  slot : { t.me with x := s.me.x, pc := s.me.pc, minstret := s.me.minstret, hold := s.me.hold, arrived := s.me.arrived } = s.me
  others : ∀ k, k ≠ s.cur → t.slot k = s.slot k
  vc : { t.myVc with unacked := s.myVc.unacked, batches := s.myVc.batches, kept := s.myVc.kept, tokens := s.myVc.tokens } = s.myVc
  vcs : ∀ k, k ≠ s.vk → t.vc k = s.vc k
  cores : ∀ g, g ≠ s.coreOf s.vk → t.core g = s.core g
  rest : { t with slots := s.slots, vcs := s.vcs, cores := s.cores, nextId := s.nextId } = s

/-- The current slot stays at its instruction with a message out: only st, hold and what belongs to them differ of it; of the rest no
more than the virtual core and its core. -/
structure Sys2Proof.Claim.Waiting (s t : State) : Prop where
  slot : { t.me with st := s.me.st, hold := s.me.hold, wakeAt := s.me.wakeAt, rewound := s.me.rewound } = s.me
  others : ∀ k, k ≠ s.cur → t.slot k = s.slot k
  vcs : ∀ k, k ≠ s.vk → t.vc k = s.vc k
  cores : ∀ g, g ≠ s.coreOf s.vk → t.core g = s.core g
  rest : { t with slots := s.slots, vcs := s.vcs, cores := s.cores, nextId := s.nextId } = s

/-- The instruction waits for room: its slot is held at it, to be presented again (R196), and nothing else differs. -/
structure Sys2Proof.Claim.HeldBack (s t : State) : Prop where
  me : t.me = { s.me with hold := some (.waiting true) }
  others : ∀ k, k ≠ s.cur → t.slot k = s.slot k
  rest : { t with slots := s.slots } = s

/-- R194 to R197: RLD and RLDF leave for the home and drop the slot; the pointer check and the egress rule; the load
at its home, the wait of an RLDF for a full word, its retry, and the reply. The operands in ev are the model's (log
entry 2). -/
def Obligations.RemoteLoads : Prop :=
  ∀ (s : State) (rd rs1 : XReg) (isF : Bool) (m : Msg) (vk id slot : Nat) (p : Word),
    let i : Instr := if isF then .rldf rd rs1 else .rld rd rs1
    let q := s.x rs1
    let a := lmAddr (s.coreOf vk) ((s.vc vk).base + p.toNat % 2 ^ 24)
    let k := s.ev.key
    let key := slotKey vk slot
    let sl := s.slot key
    (s.me.reply = none → Good q → Clear s → ∃ t, exec i s = .next t ∧ t.me.st = .dropped ∧
      t.me.hold = some (.load (s.nextId + 1) rd isF q) ∧ Waiting s t ∧ t.vcs = s.vcs ∧
      Left s t (s.target s.vk q) (.load (s.nextId + 1) s.ix q isF)) ∧
    (s.me.reply = none → q.toNat % 8 ≠ 0 → ∃ t, exec i s = .next t ∧ Trapped s t 4 q s.me.pc) ∧
    (s.me.reply = none → q.toNat % 8 = 0 → ¬ Good q → ∃ t, exec i s = .next t ∧ Trapped s t 5 q s.me.pc) ∧
    (∀ e, s.me.reply = some e → ∃ t, exec i s = .next t ∧ Trapped s t 5 e s.me.pc) ∧
    (s.me.reply = none → Good q → s.myVc.kept = [] → 32 ≤ (s.core (s.coreOf s.vk)).egress.length →
      ((s.core (s.coreOf s.vk)).sqfen = true ∧ s.me.mode = .u → ∃ t, exec i s = .next t ∧
        Trapped s t 26 (((encode i).getD 0).setWidth 64) s.me.pc) ∧
      (¬ ((s.core (s.coreOf s.vk)).sqfen = true ∧ s.me.mode = .u) → ∃ t, exec i s = .next t ∧ Claim.HeldBack s t)) ∧
    (Performed s m vk → m.body = .load id slot p isF → p.toNat % 2 ^ 24 + 8 ≤ s.launchLenOf vk → (isF = true → s.isFull a = true) →
      ∃ t, exec .remoteLoadAtHome s = .next t ∧ Answered s t m (.loadReply id slot 0 (Memory.word s.mem a)) ∧ t.mem = s.mem ∧
        t.full = s.full ∧ t.slots = s.slots) ∧
    (Performed s m vk → m.body = .load id slot p true → p.toNat % 2 ^ 24 + 8 ≤ s.launchLenOf vk → s.isFull a = false →
      (s.vc vk).farWait = [] → s.farWaiting (s.coreOf vk) < 16 → ∃ t, exec .remoteLoadAtHome s = .next t ∧
        (t.vc vk).farWait = [⟨m.src, slot, id, p, a⟩] ∧ t.net = s.net.eraseIdx s.ev.ix ∧ t.mem = s.mem) ∧
    (Performed s m vk → m.body = .load id slot p true → p.toNat % 2 ^ 24 + 8 ≤ s.launchLenOf vk → s.isFull a = false →
      (s.vc vk).farWait = [] → 16 ≤ s.farWaiting (s.coreOf vk) → ∃ t, exec .remoteLoadAtHome s = .next t ∧ t.vcs = s.vcs ∧ t.mem = s.mem ∧
        t.net = s.net.eraseIdx s.ev.ix ++ [Msg.mk m.dst m.src .reply (.retry m.body false) none m.resent]) ∧
    (Performed s m vk → m.body = .load id slot p isF → s.launchLenOf vk < p.toNat % 2 ^ 24 + 8 →
      ∃ t, exec .remoteLoadAtHome s = .next t ∧ Answered s t m (.loadReply id slot 1 0) ∧ t.mem = s.mem) ∧
    (∀ w, s.ev.val = 0 → (s.vc k).live = true → (s.vc k).place.isSome = true → (s.vc k).copying = false →
      (s.vc k).farWait = [w] → s.isFull w.addr = true → s.banksFree k (lmBanks w.addr 8) = true → ∃ t, exec .farWaitRelease s = .next t ∧ (t.vc k).farWait = [] ∧
        t.net = s.net ++ [Msg.mk (.vc k) w.src .reply (.loadReply w.id w.slot 0 (Memory.word s.mem w.addr)) none false] ∧ t.mem = s.mem) ∧
    (∀ b, s.ev.val = 0 → s.evMsg = some m → m.dst = .vc vk → b = Body.load id slot p true → m.body = .retry b false → (s.vc vk).live = true → (s.vc vk).kept = [] →
      ∃ t x, exec .rldfRetryReissue s = .next t ∧ (t.vc vk).kept = [x] ∧ x.msg.body = b ∧ x.msg.dst = m.src ∧
        x.why = .again (s.cycOf vk + 64) ∧ t.net = s.net.eraseIdx s.ev.ix) ∧
    (s.evMsg = some m → m.dst = .vc vk → (s.vc vk).live = true → (s.vc vk).place.isSome = true → (s.vc vk).holds = [] →
      sl.expects id = some (rd, p) → sl.st = .dropped → sl.trap = none →
      (∀ v, m.body = .loadReply id slot 0 v → ∃ t, exec .remoteLoadReply s = .next t ∧
        (∀ r, (t.slot key).readX r = if r = rd ∧ rd ≠ 0 then v else sl.readX r) ∧ (t.slot key).pc = sl.pc + 4 ∧ (t.slot key).hold = none ∧
        (t.slot key).wakeAt = some (s.cycOf vk + 4) ∧ (∀ j, j ≠ key → t.slot j = s.slot j) ∧ t.mem = s.mem) ∧
      (∀ e v, e ≠ 0 → m.body = .loadReply id slot e v → ∃ t, exec .remoteLoadReply s = .next t ∧ (t.slot key).reply = some p ∧
        (t.slot key).pc = sl.pc ∧ (t.slot key).x = sl.x ∧ (t.slot key).wakeAt = some (s.cycOf vk + 4) ∧ t.mem = s.mem))

/-- R194, R196, R198, R199, R203: RST, RSTF and RSTREL leave for their home and are counted; the pointer traps and the egress rule of each;
RSTREL is kept while an access in its scope is not acknowledged, and leaves when none is. The operands in ev are the model's (log entry 2). -/
def Obligations.RemoteStoreIssue : Prop :=
  ∀ (s : State) (rs1 rs2 : XReg) (bt : BitVec 2) (sc : Scope),
    let p := s.x rs1
    let d := s.target s.vk p
    let b := s.myVc.batches[bt.toNat]'(bt.isLt)
    let tag : Tag := ⟨s.nextId + 1, s.ix, bt.toNat⟩
    let ptrTraps := fun (i : Instr) =>
      (p.toNat % 8 ≠ 0 → ∃ t, exec i s = .next t ∧ Trapped s t 6 p s.me.pc) ∧
      (p.toNat % 8 = 0 → ¬ Good p → ∃ t, exec i s = .next t ∧ Trapped s t 7 p s.me.pc)
    let full := Good p ∧ s.myVc.kept = [] ∧ 32 ≤ (s.core (s.coreOf s.vk)).egress.length
    let fenced := (s.core (s.coreOf s.vk)).sqfen = true ∧ s.me.mode = .u
    let fullAt := fun (i : Instr) => (full → fenced → ∃ t, exec i s = .next t ∧ Trapped s t 26 (((encode i).getD 0).setWidth 64) s.me.pc) ∧
      (full → ¬ fenced → ∃ t, exec i s = .next t ∧ Claim.HeldBack s t)
    let done := fun (t : State) => Issued s t 0 0 ∧ t.myVc.tokens = s.myVc.tokens ∧
      (∃ a, t.myVc.unacked = s.myVc.unacked ++ [a] ∧ a.id = s.nextId + 1 ∧ a.slot = s.ix ∧ a.dests = [d]) ∧
      (d.isFar = false → b.dests.length < 64 → d ∈ (t.myVc.batches[bt.toNat]'(bt.isLt)).dests)
    let goes := fun (i : Instr) (k : StoreKind) => Good p → Clear s → s.myVc.countedFull = false →
      ∃ t, exec i s = .next t ∧ done t ∧ t.myVc.kept = [] ∧ Left s t d (.store tag p (s.x rs2) k none)
    goes (.rst rs2 rs1 bt) .plain ∧ goes (.rstf rs2 rs1 bt) .setFull ∧
    (s.fenced sc = [] → goes (.rstrel sc rs2 rs1 bt) (.release sc s.me.pc)) ∧
    (s.fenced sc ≠ [] → Good p → s.myVc.kept = [] → s.myVc.countedFull = false → ∃ t k, exec (.rstrel sc rs2 rs1 bt) s = .next t ∧ done t ∧
      t.myVc.kept = [k] ∧ k.msg = Msg.mk (.vc s.vk) d .request (.store tag p (s.x rs2) (.release sc s.me.pc) none) none false ∧
      k.why = .release (s.fenced sc) ∧ t.cores = s.cores) ∧
    ptrTraps (.rst rs2 rs1 bt) ∧ ptrTraps (.rstf rs2 rs1 bt) ∧ ptrTraps (.rstrel sc rs2 rs1 bt) ∧
    fullAt (.rst rs2 rs1 bt) ∧ fullAt (.rstf rs2 rs1 bt) ∧ (s.fenced sc = [] → fullAt (.rstrel sc rs2 rs1 bt)) ∧
    (let vk := s.ev.key
     ∀ k dd tg v sk ids, (s.vc vk).kept = [k] → k.why = .release ids → k.ret = false →
      k.msg = Msg.mk (.vc vk) dd .request (.store tg p v sk none) none false → (∀ a ∈ (s.vc vk).unacked, a.id ∉ ids) →
      (s.core (s.coreOf vk)).egress.length < 32 → (s.gang (s.vc vk).gid).quiesced = false → ∃ t, exec .rstrelSend s = .next t ∧ (t.vc vk).kept = [] ∧
        (t.core (s.coreOf vk)).egress = (s.core (s.coreOf vk)).egress ++ [k.msg] ∧ t.slots = s.slots ∧ t.mem = s.mem)

/-- R195, R198, R204, R259: a store at its home writes its word, RSTF with the full bit, and is acknowledged; outside
the window it is recorded and acknowledged with WIN, and with NVC where there is no such virtual core. A release that
leaves its scope goes on as a missed one and is reported; an acknowledgement ends the access. The operands in ev are
the model's (log entry 2). The report's place: log entry 68. -/
def Obligations.RemoteStoreHome : Prop :=
  ∀ (s : State) (m : Msg) (vk : Nat) (tg : Tag) (p v : Word) (sk : StoreKind),
    let off := p.toNat % 2 ^ 24
    let a := lmAddr (s.coreOf vk) ((s.vc vk).base + off)
    let miss := sk == .missed
    let win : BitVec 16 := 1
    (Performed s m vk → m.body = .store tg p v sk none → off + 8 ≤ s.launchLenOf vk → ∃ t, exec .remoteStoreAtHome s = .next t ∧
      Stored s t a 8 v.toNat ∧ Answered s t m (.ack tg.id tg.slot 0 miss) ∧ (sk = .setFull → t.isFull a = true) ∧
      (sk ≠ .setFull → t.full = s.full) ∧ t.vcs = s.vcs) ∧
    (Performed s m vk → m.body = .store tg p v sk none → s.launchLenOf vk < off + 8 → (s.vc vk).errs = [] →
      ∃ t, exec .remoteStoreAtHome s = .next t ∧ t.mem = s.mem ∧ t.full = s.full ∧ Answered s t m (.ack tg.id tg.slot win miss) ∧
        (t.vc vk).errs = [⟨m.src, tg.bt, win, false⟩]) ∧
    (s.evMsg = some m → s.homeFree m = true → m.dst = .vc vk → (s.vc vk).live = false → m.body = .store tg p v sk none →
      ∃ t, exec .remoteStoreAtHome s = .next t ∧ Answered s t m (.ack tg.id tg.slot 2 miss) ∧ t.mem = s.mem ∧ t.vcs = s.vcs) ∧
    (∀ d, s.evMsg = some m → m.dst = .sig d → (s.die d).failed = false → m.body = .store tg p v sk none →
      ∃ t, exec .remoteStoreAtHome s = .next t ∧ Stored s t (sigAddr d off) 8 v.toNat ∧ Answered s t m (.ack tg.id tg.slot 0 miss)) ∧
    (∀ k sc pc h, s.net[s.ev.ix]? = some m → m.src = .vc k → m.body = .store tg p v (.release sc pc) h → s.mustMiss m = true →
      ∃ t rec_, exec .scopeMissAtBoundary s = .next t ∧ rec_[1]? = some p ∧ rec_[2]? = some v ∧
        t.net = s.net.set s.ev.ix { m with body := .store tg p v .missed h } ++
          [Msg.mk .memory (.vc k) .control (.scopeMiss tg.slot rec_) none false] ∧ { t with net := s.net } = s) ∧
    (∀ slot ws, s.ev.val = 0 → s.evMsg = some m → m.dst = .vc vk → m.body = .scopeMiss slot ws → ws.length = 4 → (s.vc vk).live = true →
      (s.vc vk).place.isSome = true → (s.core (s.coreOf vk)).latchQ = [] → (s.vc vk).smring.getLsbD 7 = false →
      Memory.word s.mem (lmAddr (s.coreOf vk) 0xF2FE0) = 0 → ∃ t, exec .scopeMissReport s = .next t ∧
        Memory.words t.mem (lmAddr (s.coreOf vk) 0xF2FE0) 4 = ws ∧ (t.slot (slotKey vk slot)).mip.getLsbD 1 = true ∧
        (t.vc vk).owed = (s.vc vk).owed - 1) ∧
    (∀ id slot e ms, s.evMsg = some m → m.dst = .vc vk → m.body = .ack id slot e ms → FMap.get? (s.vc vk).run 3 = none →
      ∃ t, exec .landingAcknowledgement s = .next t ∧ (∀ x ∈ (t.vc vk).unacked, x.id ≠ id) ∧ t.mem = s.mem)

/-- R207 to R210, R212, R213, R196: TST takes an entry and names it; TWAIT and TFREE of a token that is not pending, stale,
foreign or pending; DST and DTST of a token that is stale, has landed, is pending or has expired: a plain store, one held on the token at a
virtual core that becomes one of its at most 8 dependants, one kept at the source for a signal word or a ninth dependant, a discarded one.
A DTST names an entry of its own, which expires at once with a discarded store. Without a free entry the instruction waits, and with 32
stores kept it meets R196's rule for a full egress. How a kept store is held is the model's (log entry 55). -/
def Obligations.TokenInstructions : Prop :=
  ∀ (s : State) (rd rs1 rs2 rs3 : XReg) (e : Nat) (x : Token),
    let p := s.x rs1
    let d := s.target s.vk p
    let n := (s.x rs1).toNat % 65536
    let n3 := (s.x rs3).toNat % 65536
    let old := FMap.getD s.myVc.tokens e {}
    let gen := if old.valid then (old.gen + 1) % 64 else old.gen
    let entry := fun (t : State) => FMap.getD t.myVc.tokens e {}
    let named := fun (t : State) => (entry t).valid = true ∧ (entry t).gen = gen ∧ (entry t).slot = s.ix ∧ (entry t).st = .pending ∧
      (entry t).dest = d
    let sends := Good p ∧ Clear s ∧ s.myVc.countedFull = false
    let tag : Tag := ⟨s.nextId + 1, s.ix, 0⟩
    let ptrTraps := fun (i : Instr) =>
      (p.toNat % 8 ≠ 0 → ∃ t, exec i s = .next t ∧ Trapped s t 6 p s.me.pc) ∧
      (p.toNat % 8 = 0 → ¬ Good p → ∃ t, exec i s = .next t ∧ Trapped s t 7 p s.me.pc)
    let plain := Body.store tag p (s.x rs2) .plain none
    let val := BitVec.ofNat 64 (gen + 64 * e + 4096 * s.ix)
    let keeps := d.isSig = true ∨ d ∉ x.deps ∧ 8 ≤ x.deps.length
    let inKept := (s.myVc.kept.filter (fun k => match k.why with
      | .token _ => true
      | _ => false)).length
    let kept := fun (t : State) (f : Nat) => t.cores = s.cores ∧ t.net = s.net ∧ ∃ k, t.myVc.kept = s.myVc.kept ++ [k] ∧
      k.msg = Msg.mk (.vc s.vk) d .request plain none false ∧ k.why = .token f
    let fenced := (s.core (s.coreOf s.vk)).sqfen = true ∧ s.me.mode = .u
    let others := fun (t : State) => ∀ j, j ≠ e → FMap.getD t.myVc.tokens j {} = FMap.getD s.myVc.tokens j {}
    (sends → s.myVc.tokenEntry = some e → ∃ t, exec (.tst rd rs2 rs1) s = .next t ∧ Issued s t rd val ∧ others t ∧ named t ∧
      Left s t d plain) ∧
    (s.myVc.recognise n = .foreign → (∃ t, exec (.twait rs1) s = .next t ∧ Trapped s t 31 (BitVec.ofNat 64 n) s.me.pc) ∧
      ∃ t, exec (.tfree rs1) s = .next t ∧ Trapped s t 31 (BitVec.ofNat 64 n) s.me.pc) ∧
    encode (.twait rs1) = some (0x2000005B + BitVec.ofNat 32 (rs1.toNat * 2 ^ 15)) ∧
    encode (.tfree rs1) = some (0x2200005B + BitVec.ofNat 32 (rs1.toNat * 2 ^ 15)) ∧
    (s.myVc.recognise n = .stale → (∃ t, exec (.twait rs1) s = .next t ∧ Did s t 0 0 (s.me.pc + 4)) ∧
      ∃ t, exec (.tfree rs1) s = .next t ∧ Did s t 0 0 (s.me.pc + 4)) ∧
    (s.myVc.recognise n = .live e x → x.st ≠ .pending → (∃ t, exec (.twait rs1) s = .next t ∧ Did s t 0 0 (s.me.pc + 4)) ∧
      ∃ t, exec (.tfree rs1) s = .next t ∧ VcDone s t { s.myVc with tokens := t.myVc.tokens } 0 0 ∧ others t ∧ (entry t).valid = false ∧
        (entry t).gen = (x.gen + 1) % 64) ∧
    (s.myVc.recognise n = .live e x → x.st = .pending → (∃ t, exec (.twait rs1) s = .next t ∧ Parked s t (.token e)) ∧
      ∃ t, exec (.tfree rs1) s = .next t ∧ VcDone s t { s.myVc with tokens := t.myVc.tokens } 0 0 ∧ others t ∧
        entry t = { x with fol := true }) ∧
    (s.myVc.recognise n3 = .foreign → Good p → ∃ t, exec (.dst rs2 rs1 rs3) s = .next t ∧ Trapped s t 31 (BitVec.ofNat 64 n3) s.me.pc) ∧
    (sends → (s.myVc.recognise n3 = .live e x ∧ x.st = .landed) ∨ s.myVc.recognise n3 = .stale → ∃ t, exec (.dst rs2 rs1 rs3) s = .next t ∧
      Issued s t 0 0 ∧ t.myVc.tokens = s.myVc.tokens ∧ Left s t d plain) ∧
    (sends → s.myVc.recognise n3 = .live e x → x.st = .pending → d.isSig = false → d ∈ x.deps ∨ x.deps.length < 8 →
      ∃ t, exec (.dst rs2 rs1 rs3) s = .next t ∧ Issued s t 0 0 ∧ entry t = { x with deps := (entry t).deps } ∧ others t ∧
        (entry t).deps = (if d ∈ x.deps then x.deps else x.deps ++ [d]) ∧ Left s t d (.store tag p (s.x rs2) .plain (some n3))) ∧
    (∀ i, i = .dst rs2 rs1 rs3 ∨ i = .dtst rd rs2 rs1 rs3 → Good p → s.myVc.recognise n3 = .live e x → x.st = .pending → keeps → 32 ≤ inKept →
      (fenced → ∃ t, exec i s = .next t ∧ Trapped s t 26 (((encode i).getD 0).setWidth 64) s.me.pc) ∧
      (¬ fenced → ∃ t, exec i s = .next t ∧ Claim.HeldBack s t)) ∧
    (Good p → s.myVc.recognise n3 = .live e x → x.st = .pending → keeps → inKept < 32 → s.myVc.countedFull = false →
      ∃ t, exec (.dst rs2 rs1 rs3) s = .next t ∧ Issued s t 0 0 ∧ t.myVc.tokens = s.myVc.tokens ∧ kept t e) ∧
    (Good p → s.myVc.recognise n3 = .live e x → x.st = .expired → ∃ t, exec (.dst rs2 rs1 rs3) s = .next t ∧ t.me.x = s.me.x ∧
      t.me.pc = s.me.pc + 4 ∧ t.me.f = s.me.f ∧ (∀ k, k ≠ s.cur → t.slot k = s.slot k) ∧ t.myVc.tokens = s.myVc.tokens ∧
      { t with slots := s.slots, vcs := s.vcs, nextId := s.nextId } = s ∧ (t.myVc.batches[0]).bits.getLsbD 3 = true) ∧
    (sends → s.myVc.tokenEntry = none → (∃ t, exec (.tst rd rs2 rs1) s = .next t ∧ Claim.HeldBack s t) ∧
      (s.myVc.recognise n3 ≠ .foreign → (∀ f, s.myVc.recognise n3 = .live f x → x.st = .pending → ¬ keeps) →
        (∀ f y, s.myVc.recognise n3 = .live f y → y = x) → ∃ t, exec (.dtst rd rs2 rs1 rs3) s = .next t ∧ Claim.HeldBack s t)) ∧
    (∀ f, sends → s.myVc.recognise n3 = .live f x → s.myVc.tokenEntry = some e → x.st = .landed → ∃ t, exec (.dtst rd rs2 rs1 rs3) s = .next t ∧
      Issued s t rd val ∧ others t ∧ named t ∧ Left s t d plain) ∧
    (∀ f, s.myVc.recognise n3 = .live f x → s.myVc.tokenEntry = some e → x.st = .pending → f ≠ e →
      let rest := fun (t : State) => ∀ j, j ≠ e → j ≠ f → FMap.getD t.myVc.tokens j {} = FMap.getD s.myVc.tokens j {}
      (sends → d.isSig = false → d ∈ x.deps ∨ x.deps.length < 8 → ∃ t, exec (.dtst rd rs2 rs1 rs3) s = .next t ∧ Issued s t rd val ∧ rest t ∧
        named t ∧ FMap.getD t.myVc.tokens f {} = { x with deps := if d ∈ x.deps then x.deps else x.deps ++ [d] } ∧
        Left s t d (.store tag p (s.x rs2) .plain (some n3))) ∧
      (Good p → keeps → inKept < 32 → s.myVc.countedFull = false → ∃ t, exec (.dtst rd rs2 rs1 rs3) s = .next t ∧ Issued s t rd val ∧
        others t ∧ named t ∧ kept t f)) ∧
    (∀ f, Good p → s.myVc.recognise n3 = .live f x → s.myVc.tokenEntry = some e → x.st = .expired → s.me.st = .issuing → s.me.hold = none →
      ∃ t, exec (.dtst rd rs2 rs1 rs3) s = .next t ∧ (∀ r, t.x r = if r = rd ∧ rd ≠ 0 then val else s.x r) ∧ t.me.pc = s.me.pc + 4 ∧
        (entry t).valid = true ∧ (entry t).gen = gen ∧ (entry t).slot = s.ix ∧ (entry t).st = .expired ∧
        (t.myVc.batches[0]).bits.getLsbD 3 = true ∧ gen + 64 * e + 4096 * s.ix ∈ t.me.p27 ∧ t.mem = s.mem) ∧
    (sends → s.myVc.recognise n3 = .stale → s.myVc.tokenEntry = some e → ∃ t, exec (.dtst rd rs2 rs1 rs3) s = .next t ∧
      Issued s t rd val ∧ others t ∧ named t ∧ Left s t d plain) ∧
    (s.myVc.recognise n3 = .foreign → Good p → ∃ t, exec (.dtst rd rs2 rs1 rs3) s = .next t ∧ Trapped s t 31 (BitVec.ofNat 64 n3) s.me.pc) ∧
    ptrTraps (.tst rd rs2 rs1) ∧ ptrTraps (.dst rs2 rs1 rs3) ∧ ptrTraps (.dtst rd rs2 rs1 rs3)

/-- R208, R211, R213: a held store waits at its destination or is refused; the release notice lets it land, the expiry
notice discards it with HEX; a refused store waits for its token; an overdue token expires, with a fault for its slot.
The operands in ev are the model's (log entry 2). Kept requests: log entry 55. -/
def Obligations.HeldStores : Prop :=
  ∀ (s : State) (m : Msg) (vk tok e : Nat) (tg : Tag) (p v : Word) (h : Held),
    let off := p.toNat % 2 ^ 24
    let a := lmAddr (s.coreOf vk) ((s.vc vk).base + off)
    let x := FMap.getD (s.vc s.ev.key).tokens s.ev.ix {}
    let waits := s.evMsg = some m ∧ m.dst = .vc vk ∧ (s.vc vk).live = true ∧ (s.vc vk).place.isSome = true ∧ (s.vc vk).holdQ = [h] ∧
      h.heldOn = some tok ∧ h.enq = false ∧ h.direct = false ∧ s.homeFree h.msg = true ∧ h.msg = Msg.mk m.src (.vc vk) .request (.store tg p v .plain (some tok)) none false ∧
      s.heldOnWay m.src (.vc vk) tok = false
    (Arrives s m vk → m.body = .store tg p v .plain (some tok) → (s.vc vk).holdQ.length < 32 → ∃ t, exec .heldStoreArrival s = .next t ∧
      (t.vc vk).holdQ = (s.vc vk).holdQ ++ [⟨m, some tok, false, false⟩] ∧ t.mem = s.mem ∧ t.net = s.net.eraseIdx s.ev.ix) ∧
    (Arrives s m vk → m.body = .store tg p v .plain (some tok) → 32 ≤ (s.vc vk).holdQ.length → ∃ t, exec .heldStoreArrival s = .next t ∧
      (t.vc vk).holdQ = (s.vc vk).holdQ ∧ t.mem = s.mem ∧
      t.net = s.net.eraseIdx s.ev.ix ++ [Msg.mk m.dst m.src .reply (.refusal m.body) none m.resent] ∧
      ((t.vc vk).refusal? m.src m.net).isSome = true) ∧
    (waits → m.body = .release tok → off + 8 ≤ s.launchLenOf vk → ∃ t, exec .releaseNotice s = .next t ∧ Stored s t a 8 v.toNat ∧
      (t.vc vk).holdQ = [] ∧ t.net = s.net.eraseIdx s.ev.ix ++ [Msg.mk (.vc vk) m.src .control (.ack tg.id tg.slot 0 false) none false]) ∧
    (waits → m.body = .expiry tok → (s.vc vk).errs = [] → ∃ t, exec .expiryNotice s = .next t ∧ t.mem = s.mem ∧ (t.vc vk).holdQ = [] ∧
      (t.vc vk).errs = [⟨m.src, tg.bt, 4, false⟩] ∧
      t.net = s.net.eraseIdx s.ev.ix ++ [Msg.mk (.vc vk) m.src .control (.ack tg.id tg.slot 4 false) none false]) ∧
    (∀ y, s.evMsg = some m → m.dst = .vc vk → m.body = .refusal (.store tg p v .plain (some tok)) → (s.vc vk).live = true →
      (s.vc vk).recognise tok = .live e y → y.st = .pending → (s.vc vk).kept = [] → ∃ t k, exec .holdRefusal s = .next t ∧
        (t.vc vk).kept = [k] ∧ k.why = .token e ∧ k.msg.body = .store tg p v .plain (some tok) ∧ k.msg.dst = m.src ∧ t.mem = s.mem) ∧
    (s.tokenDue s.ev.key s.ev.ix = true → ∃ t, exec .tokenExpiry s = .next t ∧ t.mem = s.mem ∧
      (FMap.getD (t.vc s.ev.key).tokens s.ev.ix {}).st = .expired ∧
      ((s.slot (slotKey s.ev.key x.slot)).st = .issuing →
        (x.gen + 64 * s.ev.ix + 4096 * x.slot) ∈ (t.slot (slotKey s.ev.key x.slot)).p27))

/-- R199 to R201: BCLOSE of an empty batch completes at once, of a batch with a destination asks it; the destination
answers with what it recorded for the batch and forgets it; the last summary completes the BCLOSE or takes the
batch-error trap. The operands in ev are the model's (log entry 2). The count of peers: log entry 59. -/
def Obligations.Batches : Prop :=
  ∀ (s : State) (rd : XReg) (bt : BitVec 2) (m : Msg) (vk id : Nat) (d : Dest),
    let b := s.myVc.batches[bt.toNat]'(bt.isLt)
    let sum := fun (bits : BitVec 16) (n : Nat) (bc og : Bool) =>
      BitVec.ofNat 64 (bits.toNat + min n 65535 * 65536 + (if bc then 2 ^ 32 else 0) + if og then 2 ^ 33 else 0)
    let fresh := fun (t : State) => t.myVc.batches[bt.toNat]'(bt.isLt) = { epoch := b.epoch + 1 }
    (s.me.hold = none → s.myVc.closes = [] → b.dests = [] → b.bcast = false → b.bits = 0 →
      (∀ a ∈ s.myVc.unacked, a.counted = true → a.bt = bt.toNat → a.epoch ≠ b.epoch) →
      ∃ t, exec (.bclose rd bt) s = .next t ∧ fresh t ∧ t.me.pc = s.me.pc + 4 ∧ t.me.f = s.me.f ∧
        { t with slots := s.slots, vcs := s.vcs, gangs := s.gangs, nextId := s.nextId } = s ∧
        (t.gang s.myVc.gid).closed.og = ((s.gang s.myVc.gid).closed.og || b.og) ∧
        ∀ r, t.x r = if r = rd ∧ rd ≠ 0 then sum 0 0 false b.og else s.x r) ∧
    (s.me.hold = none → s.myVc.closes = [] → b.dests = [d] → b.bcast = false → Clear s →
      ∃ t, exec (.bclose rd bt) s = .next t ∧ fresh t ∧ t.me.hold = some (.close (s.nextId + 1) rd) ∧ t.me.pc = s.me.pc ∧ t.me.x = s.me.x ∧
        t.me.f = s.me.f ∧ { t with slots := s.slots, vcs := s.vcs, cores := s.cores, nextId := s.nextId } = s ∧
        Left s t d (.close (s.nextId + 1) bt.toNat)) ∧
    (s.me.hold = none → b.dests ≠ [] → 32 ≤ (s.core (s.coreOf s.vk)).egress.length →
      let fenced := (s.core (s.coreOf s.vk)).sqfen = true ∧ s.me.mode = .u
      (fenced → ∃ t, exec (.bclose rd bt) s = .next t ∧ Trapped s t 26 (((encode (.bclose rd bt)).getD 0).setWidth 64) s.me.pc) ∧
      (¬ fenced → ∃ t, exec (.bclose rd bt) s = .next t ∧ Claim.HeldBack s t)) ∧
    (Arrives s m vk → m.body = .close id bt.toNat → (∀ r ∈ (s.vc vk).errs, r.shared = false) → ∃ t e,
      exec .batchCloseAtDestination s = .next t ∧ Answered s t m (.summary id e) ∧ t.mem = s.mem ∧
      (∀ j, e.getLsbD j = true ↔ ∃ r ∈ (s.vc vk).errs, r.src = m.src ∧ r.bt = bt.toNat ∧ r.bits.getLsbD j = true) ∧
      (t.vc vk).errs = (s.vc vk).errs.filter (fun r => !(r.src == m.src && r.bt == bt.toNat))) ∧
    (∀ c e, s.evMsg = some m → m.dst = .vc vk → m.body = .summary id e → (s.vc vk).closes = [c] → c.id = id → c.todo = [] → c.wait = 1 →
      (s.slot (slotKey vk c.slot)).hold = some (.close id rd) →
      (∀ a ∈ (s.vc vk).unacked, a.counted = true → a.bt = c.bt → a.epoch ≠ c.epoch) →
      let key := slotKey vk c.slot
      let n := c.npeer + if e = 0 then 0 else 1
      (c.bits ||| e = 0 → ∃ t, exec .batchSummary s = .next t ∧ (t.slot key).pc = (s.slot key).pc + 4 ∧ (t.vc vk).closes = [] ∧ t.mem = s.mem ∧
        ∀ r, (t.slot key).readX r = if r = rd ∧ rd ≠ 0 then sum 0 n c.bc c.og else (s.slot key).readX r) ∧
      (c.bits ||| e ≠ 0 → ∃ t, exec .batchSummary s = .next t ∧ (t.slot key).mcause = 48 ∧ (t.slot key).mepc = (s.slot key).pc ∧
        (t.slot key).mtval = sum (c.bits ||| e) n c.bc c.og ∧ (t.slot key).pc = (s.slot key).mtvec ∧ (t.vc vk).closes = [] ∧ t.mem = s.mem))

/-- R194, R205, R206: a remote atomic takes the next sequence id of its core for the home and holds its slot; the home checks the window,
performs it once, and answers a repetition from its cache; the reply completes it or traps. The operands in ev, the marking of repetitions
and the source of another package are the model's (log entries 2, 26 and 79). -/
def Obligations.RemoteAtomics : Prop :=
  ∀ (s : State) (rd rs2 rs1 rs3 : XReg) (m : Msg) (vk id slot seq core : Nat) (p v cmp : Word),
    let q := s.x rs1
    let d := s.target s.vk q
    let g := s.coreOf s.vk
    let n := FMap.getD (s.core g).seqs (destKey d) 0
    let off := p.toNat % 2 ^ 24
    let a := lmAddr (s.coreOf vk) ((s.vc vk).base + off)
    let old := Memory.word s.mem a
    let key := slotKey vk slot
    let sl := s.slot key
    let goes := fun (i : Instr) (op : AtomicOp) (c : Word) => (∀ j r p, s.me.hold ≠ some (.atomic j r p)) → Good q → Clear s → ∃ t, exec i s = .next t ∧
      t.me.hold = some (.atomic (s.nextId + 1) rd q) ∧ t.me.st = s.me.st ∧ Waiting s t ∧ t.vcs = s.vcs ∧
      FMap.getD (t.core g).seqs (destKey d) 0 = (n + 1) % 65536 ∧ Left s t d (.atomic (s.nextId + 1) s.ix n g q op (s.x rs2) c false)
    let word := fun (op : AtomicOp) => match op with
      | .add => old + v
      | .fadd => (fmt32.add .rne (old.toNat % 2 ^ 32) (v.toNat % 2 ^ 32)).1 +
          (fmt32.add .rne (old.toNat / 2 ^ 32) (v.toNat / 2 ^ 32)).1 * 2 ^ 32 |> BitVec.ofNat 64
      | .min => if old.toInt < v.toInt then old else v
      | .max => if old.toInt < v.toInt then v else old
      | .swap => v
      | .cas => if old = cmp then v else old
    let seen := (FMap.getD (s.vc vk).cache (sourceCore m.src core) {}).results.find? (fun r => r.1 == seq)
    goes (.ramoAdd rd rs2 rs1) .add 0 ∧ goes (.ramoFadd rd rs2 rs1) .fadd 0 ∧ goes (.ramoMin rd rs2 rs1) .min 0 ∧
    goes (.ramoMax rd rs2 rs1) .max 0 ∧ goes (.ramoSwap rd rs2 rs1) .swap 0 ∧ goes (.ramoCas rd rs2 rs1 rs3) .cas (s.x rs3) ∧
    (∀ op, Performed s m vk → m.body = .atomic id slot seq core p op v cmp false → off + 8 ≤ s.launchLenOf vk →
      ∃ t fl, exec .remoteAtomicAtHome s = .next t ∧ Stored s t a 8 (word op).toNat ∧ t.full = s.full ∧
        Answered s t m (.atomicReply id slot 0 old fl) ∧ (op ≠ .fadd → fl = 0) ∧
        (op = .fadd → fl = (fmt32.add .rne (old.toNat % 2 ^ 32) (v.toNat % 2 ^ 32)).2 ||| (fmt32.add .rne (old.toNat / 2 ^ 32) (v.toNat / 2 ^ 32)).2) ∧
        ((FMap.getD (t.vc vk).cache (sourceCore m.src core) {}).results.find? (fun r => r.1 == seq)) = some (seq, old, fl)) ∧
    (∀ op w fl, Performed s m vk → m.body = .atomic id slot seq core p op v cmp true → off + 8 ≤ s.launchLenOf vk → seen = some (seq, w, fl) →
      ∃ t, exec .remoteAtomicAtHome s = .next t ∧ t.mem = s.mem ∧ t.vcs = s.vcs ∧ Answered s t m (.atomicReply id slot 0 w fl)) ∧
    (∀ op, Performed s m vk → m.body = .atomic id slot seq core p op v cmp true → off + 8 ≤ s.launchLenOf vk → seen = none →
      ∃ t, exec .remoteAtomicAtHome s = .next t ∧ t.mem = s.mem ∧ Answered s t m (.atomicReply id slot 2 0 0)) ∧
    (∀ op dup, Performed s m vk → m.body = .atomic id slot seq core p op v cmp dup → s.launchLenOf vk < off + 8 →
      ∃ t, exec .remoteAtomicAtHome s = .next t ∧ t.mem = s.mem ∧ Answered s t m (.atomicReply id slot 1 0 0)) ∧
    (∀ i ∈ ([.ramoAdd rd rs2 rs1, .ramoFadd rd rs2 rs1, .ramoMin rd rs2 rs1, .ramoMax rd rs2 rs1, .ramoSwap rd rs2 rs1,
        .ramoCas rd rs2 rs1 rs3] : List Instr), (∀ j r p, s.me.hold ≠ some (.atomic j r p)) →
      (q.toNat % 8 ≠ 0 → ∃ t, exec i s = .next t ∧ Trapped s t 6 q s.me.pc) ∧
      (q.toNat % 8 = 0 → ¬ Good q → ∃ t, exec i s = .next t ∧ Trapped s t 7 q s.me.pc)) ∧
    (∀ st w fl, s.evMsg = some m → m.dst = .vc vk → m.body = .atomicReply id slot st w fl → sl.hold = some (.atomic id rd p) →
      (s.vc vk).holds = [] →
      (st = 0 → ∃ t, exec .remoteAtomicReply s = .next t ∧ (t.slot key).pc = sl.pc + 4 ∧ (t.slot key).fflags = sl.fflags ||| fl ∧
        (∀ r, (t.slot key).readX r = if r = rd ∧ rd ≠ 0 then w else sl.readX r) ∧ t.mem = s.mem) ∧
      (st = 1 ∨ st = 2 → ∃ t, exec .remoteAtomicReply s = .next t ∧ (t.slot key).mcause = (if st = 1 then 7 else 28) ∧
        (t.slot key).mtval = p ∧ (t.slot key).mepc = sl.pc ∧ (t.slot key).pc = sl.mtvec ∧ (t.slot key).x = sl.x ∧ t.mem = s.mem))

/-- R214: the WENQ engine sends the head slot of its ring to the target; a payload that finds a valid ring with room
and slots large enough is written at its tail and acknowledged; one for a ring that cannot take it is acknowledged
with WQU. The operands in ev are the model's (log entry 2). Refusal and HBM queues: log entry 23. -/
def Obligations.WriteWithEnqueue : Prop :=
  ∀ (s : State) (m : Msg) (vk ix : Nat) (tg : Tag) (bs : List Byte) (q : QEntry) (rest : List QEntry),
    let r := s.ring vk ix
    let arrives := s.ev.val = 1 ∧ Performed s m vk ∧ m.body = .enqueue tg ix bs
    let usable := r.valid = true ∧ r.kind = 0 ∧ bs.length ≤ r.size
    let k := s.ev.key
    (∀ d a, s.ev.val = 0 → s.wenqCanStep k = true → (s.vc k).queueOf 3 = q :: rest → tgtHbm q.op = false →
      (s.vc k).unacked.find? (fun a => a.id == q.id) = some a → a.dests = [d] → ∃ t,
      exec .wenqDelivery s = .next t ∧ (t.vc k).queueOf 3 = rest ∧ t.mem = s.mem ∧ t.slots = s.slots ∧
      t.net = s.net ++ [Msg.mk (.vc k) d .request (.enqueue ⟨q.id, q.slot, q.nb⟩ (q.op.toNat % 64)
        (s.slotBytes k (q.ra.getD 0) 0 (s.ring k (q.ra.getD 0)).size)) none false]) ∧
    (arrives → usable → r.fill < r.count → ∃ t, exec .wenqDelivery s = .next t ∧
      Memory.bytes t.mem (s.ringAddr vk ix r.tail) bs.length = bs ∧
      (∀ j, j < s.ringAddr vk ix r.tail ∨ s.ringAddr vk ix r.tail + bs.length ≤ j → Memory.read t.mem j = Memory.read s.mem j) ∧
      t.ring vk ix = { r with tail := (r.tail + 1) % r.count, fill := r.fill + 1 } ∧ Answered s t m (.ack tg.id tg.slot 0 false)) ∧
    (arrives → ¬ usable → ∃ t, exec .wenqDelivery s = .next t ∧ t.mem = s.mem ∧ t.vcs = s.vcs ∧
      Answered s t m (.ack tg.id tg.slot 32 false)) ∧
    (arrives → usable → r.count ≤ r.fill → (s.vc vk).holdQ.length < 32 → (∀ j, m.src = .vc j → (s.vc j).frozen = false) →
      ∃ t, exec .wenqDelivery s = .next t ∧
      (t.vc vk).holdQ = (s.vc vk).holdQ ++ [⟨m, none, true, false⟩] ∧ t.mem = s.mem)

/-! Populations. -/

/-- R225, R226: VNTRANK, VNTSEL, VNTRACK, VNTLOG and VNTMIG submit an operation with the next ticket of their group,
and mark their result word empty; a full queue answers bit 63; a control word with bits that must be zero is illegal,
a group the virtual core is not in takes the ring-protection trap. The operands in ev are the model's (log entry 2).
-/
def Obligations.VintnerSubmission : Prop :=
  ∀ (s : State) (rd rs1 rs2 : XReg) (a b : Nat),
    let c := s.x rs1
    let g := c.toNat % 256
    let p := s.x rs2
    let res : Word := BitVec.ofNat 64 (c.toNat / 2 ^ 40 % 2 ^ 20)
    let n := (s.membersOf g).length
    let ctl := c &&& 0xF00000FE0000FF00 = 0
    let tk := (s.vgroup g).ticket
    let op := fun (i : Instr) (k words : Nat) (block : List Word) =>
      (words = 0 ∨ p.toNat % 8 = 0 ∧ At s p (8 * words) false b ∧ block = Memory.words s.mem b words) →
      ctl → g ∈ s.myVc.groups → vblockOk k block = true → res.toNat % 8 = 0 → At s res (vresBytes k block n) true a →
      (s.vops.length < 64 → ∃ t o, exec i s = .next t ∧ t.vops = s.vops ++ [o] ∧ o.kind = k ∧ o.grp = g ∧ o.ticket = tk ∧
        o.tag = c.toNat / 2 ^ 16 % 2 ^ 16 ∧ o.ev = c.getLsbD 32 ∧ o.params = block ∧ o.members = s.membersOf g ∧ o.stage = .queued ∧
        (t.vgroup g).ticket = (tk + 1) % 65536 ∧ t.isFull a = false ∧ t.mem = s.mem ∧ t.me.pc = s.me.pc + 4 ∧
        ∀ r, t.x r = if r = rd ∧ rd ≠ 0 then BitVec.ofNat 64 tk else s.x r) ∧
      (64 ≤ s.vops.length → ∃ t, exec i s = .next t ∧ Did s t rd (BitVec.ofNat 64 (2 ^ 63)) (s.me.pc + 4))
    let refused := fun (i : Instr) =>
      (¬ ctl → ∃ t, exec i s = .next t ∧ Trapped s t 2 (((encode i).getD 0).setWidth 64) s.me.pc) ∧
      (ctl → g ∉ s.myVc.groups → ∃ t, exec i s = .next t ∧ Trapped s t 25 (BitVec.ofNat 64 (192 + g * 256)) s.me.pc)
    op (.vntrank rd rs1) 0 0 [] ∧ (∀ l, op (.vntsel rd rs1 rs2) 1 2 l) ∧ (∀ l, op (.vntrack rd rs1 rs2) 2 6 l) ∧
    (∀ l, op (.vntlog rd rs1 rs2) 3 1 l) ∧ (∀ l, op (.vntmig rd rs1 rs2) 4 7 l) ∧
    refused (.vntrank rd rs1) ∧ refused (.vntsel rd rs1 rs2) ∧ refused (.vntrack rd rs1 rs2) ∧ refused (.vntlog rd rs1 rs2) ∧
    refused (.vntmig rd rs1 rs2)

/-- The place of a fitness in the order of R228, greater before smaller: signed magnitude, -0 with +0, every NaN below -infinity. -/
def Sys2Proof.Claim.fitKey (b : Nat) : Int :=
  if 0x7F800000 < b % 2 ^ 31 then -0x7F800001 else if b < 2 ^ 31 then b else -((b % 2 ^ 31 : Nat) : Int)

/-- The operation o is performed: it is done with status st. -/
def Sys2Proof.Claim.Ends (o : VOp) (t : State) (st : Nat) : Prop :=
  ∃ u, t.vop? o.id = some u ∧ u.stage = .done ∧ u.status = st ∧ u.grp = o.grp

/-- So it is, with this count and these result words. -/
def Sys2Proof.Claim.EndsWith (o : VOp) (t : State) (st n : Nat) (l : List Word) : Prop :=
  ∃ u, t.vop? o.id = some u ∧ u.stage = .done ∧ u.status = st ∧ u.grp = o.grp ∧ u.count = n ∧ u.results = l

/-- ev.key names the operation o, the first of its group, whose members lie in one gang. -/
def Sys2Proof.Claim.Next (s : State) (o : VOp) : Prop :=
  s.vop? s.ev.key = some o ∧ o.id = s.ev.key ∧ s.vfirst o = true ∧ s.oneGang o = true ∧ o.peer = none ∧ s.ev.val = 0

/-- R228, R230, R303 to R307: ranking and selection. -/
def Sys2Proof.Claim.RankAndSelect : Prop :=
  ∀ (s : State) (o : VOp) (rk : List (Nat × Nat × Nat)), Next s o → o.stage = .queued →
    let w := (o.params.getD 0 0).toNat
    let q := w / 2 ^ 16 % 2 ^ 16
    let size := w / 256 % 32
    let n := rk.length
    let fitted := fun (k : Nat) => ((s.vc k).vcid, (s.vc k).fitness.toNat, (s.vc k).evalcnt.toNat)
    let entrant := fun (i k : Nat) =>
      (counterG (counterG (o.params.getD 1 0) (BitVec.allOnes 64)) (BitVec.ofNat 64 (4 * i + k / 4))).toNat / 2 ^ (16 * (k % 4)) % 2 ^ 16 * n / 65536
    let shown := fun (ps : List VPair) =>
      ps.map (fun x => BitVec.ofNat 64 (x.child + x.parent * 2 ^ 16 + x.prank * 2 ^ 32 + x.crank * 2 ^ 48))
    (o.kind = 0 → o.members ≠ [] → ∃ t r, exec .vintnerRankPerform s = .next t ∧
      EndsWith o t 0 r.length (r.map (fun x => BitVec.ofNat 64 (x.2.1 + x.1 * 2 ^ 32))) ∧
      (t.vgroup o.grp).ranking = some r ∧ r.Perm (o.members.map fitted) ∧ (t.vgroup o.grp).selection = none ∧ t.mem = s.mem ∧
      ((o.members.map (fun k => (s.vc k).vcid)).Pairwise (· < ·) →
        r.Pairwise (fun a b => fitKey b.2.1 < fitKey a.2.1 ∨ fitKey b.2.1 = fitKey a.2.1 ∧ a.1 < b.1))) ∧
    (o.kind = 1 → (s.vgroup o.grp).ranking = none → ∃ t, exec .vintnerSelectPerform s = .next t ∧ Ends o t 1) ∧
    (o.kind = 1 → (s.vgroup o.grp).ranking = some rk → q = 0 ∨ (w % 2 = 0 ∧ n / 2 < q) ∨ (w % 2 = 1 ∧ (n < q ∨ size < 2 ∨ 16 < size)) →
      ∃ t, exec .vintnerSelectPerform s = .next t ∧ EndsWith o t 2 0 [] ∧ (t.vgroup o.grp).selection = (s.vgroup o.grp).selection) ∧
    (o.kind = 1 → (s.vgroup o.grp).ranking = some rk → w % 2 = 0 → 0 < q → q ≤ n / 2 →
      ∃ t ps, exec .vintnerSelectPerform s = .next t ∧ EndsWith o t 0 q (shown ps) ∧ (t.vgroup o.grp).selection = some ps ∧ ps.length = q ∧
        ∀ i < q, ps[i]? = some ⟨(rk[n - q + i]!).1, (rk[i]!).1, i, n - q + i⟩) ∧
    (o.kind = 1 → (s.vgroup o.grp).ranking = some rk → w % 2 = 1 → 0 < q → q ≤ n → 2 ≤ size → size ≤ 16 →
      ∃ t ps, exec .vintnerSelectPerform s = .next t ∧ EndsWith o t 0 q (shown ps) ∧ (t.vgroup o.grp).selection = some ps ∧
        ps.length = q ∧ ∀ i < q, ∃ x, ps[i]? = some x ∧ x.child = (rk[n - q + i]!).1 ∧ x.crank = n - q + i ∧
          x.parent = (rk[x.prank]!).1 ∧ (∃ k < size, x.prank = entrant i k) ∧ ∀ k < size, x.prank ≤ entrant i k)

/-- R232: members are held, or skipped when the timeout has gone by. -/
def Sys2Proof.Claim.HoldMembers : Prop :=
  ∀ (s : State) (o : VOp), let m := s.ev.ix
    let tmo := (rackPar o.params).tmo
    s.vop? s.ev.key = some o → o.id = s.ev.key → o.stage = .holding → o.holds.contains (m, .waiting) = true →
      ((s.vc m).place.isSome = true → s.heldFor m .vintner = true → (s.vc m).ending = false → (∀ x, (s.vc m).move = some x → x.step ≤ 1) →
        (s.gang (s.vc m).gid).quiesced = false →
        ∃ t u, exec .vintnerMemberHeld s = .next t ∧ t.vop? o.id = some u ∧ (m, .held) ∈ u.holds ∧ (m, .waiting) ∉ u.holds ∧
          (∀ h ∈ (t.vc m).holds, h.kind = .vintner → h.qsce = false) ∧ t.mem = s.mem) ∧
      (tmo ≠ 0 → o.started + tmo * usUnits ≤ s.now → ∃ t u,
        exec .vintnerHoldTimeout s = .next t ∧ t.vop? o.id = some u ∧ (m, .skipped) ∈ u.holds ∧
        (∀ h ∈ (t.vc m).holds, h.kind ≠ .vintner) ∧ t.mem = s.mem)

/-- R231, R233, R309: a racking holds its members, releases its parents and sends their grafts, as racking writes of at most 1,024 bytes
(log entry 89); a child's racking engine writes what arrives, its selected elements perturbed; when every child is written its
fitness pair is cleared, its notification word written, it is released, and the operation ends. -/
def Sys2Proof.Claim.RackSteps : Prop :=
  ∀ (s : State) (o : VOp) (ps : List VPair), let p := rackPar o.params
    let child := fun (x : VPair) => s.memberVk o x.child
    let parent := fun (x : VPair) => s.memberVk o x.parent
    let both := ps.filter (fun x => o.isHeld (child x) && o.isHeld (parent x))
    let bank := fun (k : Nat) => if p.active then (s.vc k).bank else !(s.vc k).bank
    let at_ := fun (k off : Nat) => if off < p.wslen then s.wsAt k (bank k) (p.wsoff + off)
      else lmAddr (s.coreOf k) ((s.vc k).base + p.lmoff + (off - p.wslen))
    let known := fun (i : Nat) => o.members.any (fun k => (s.vc k).vcid == i) = true
    let free := fun (t : State) (k : Nat) => ∀ h ∈ (t.vc k).holds, h.kind ≠ .vintner
    let racked := fun (x : VPair) => o.left.find? (fun y => y.1 == child x)
    (Next s o → o.kind = 2 → o.stage = .queued → (s.vgroup o.grp).selection = none →
      ∃ t, exec .vintnerRackPerform s = .next t ∧ EndsWith o t 1 0 []) ∧
    (Next s o → o.kind = 2 → o.stage = .queued → (s.vgroup o.grp).selection = some ps → s.vops = [o] → o.res + 8 + 8 * ps.length ≤ o.lim →
      (∀ x ∈ ps, known x.child ∧ known x.parent ∧ p.ok (s.share (child x)) (s.launchLenOf (child x)) = true) →
      ∃ t u, exec .vintnerRackPerform s = .next t ∧ t.vop? o.id = some u ∧ u.stage = .holding ∧ u.started = s.now ∧ t.mem = s.mem ∧
        ∀ k, (k, Member.waiting) ∈ u.holds ↔ ∃ x ∈ ps, k = child x ∨ k = parent x) ∧
    (Next s o → o.kind = 2 → o.stage = .queued → (s.vgroup o.grp).selection = some ps →
      (∃ x ∈ ps, p.ok (s.share (child x)) (s.launchLenOf (child x)) = false) →
      ∃ t, exec .vintnerRackPerform s = .next t ∧ EndsWith o t 2 0 [] ∧ t.mem = s.mem ∧ t.vcs = s.vcs) ∧
    (Next s o → o.kind = 2 → o.stage = .holding → o.allSettled = true → (s.vgroup o.grp).selection = some ps → p.wsoff + p.wslen ≤ 2 ^ 20 →
      ∃ t u, exec .vintnerRackPerform s = .next t ∧ t.mem = s.mem ∧ t.vop? o.id = some u ∧ u.stage = .racking ∧
        u.left = both.map (fun x => (child x, p.wslen + p.lmlen, 0)) ∧
        (∀ x ∈ ps, o.isHeld (parent x) = true → parent x ∉ both.map child → free t (parent x)) ∧
        ∀ x ∈ both,
          ∀ len from_ off, (from_ = 0 ∧ len = p.wslen ∨ from_ = p.wslen ∧ len = p.lmlen) → off % 1024 = 0 → off < len →
            Msg.mk (.vc (parent x)) (.vc (child x)) .request
              (.rackWrite o.id (from_ + off) (Memory.bytes s.mem (at_ (parent x) (from_ + off)) (min 1024 (len - off)))) none false ∈ t.net) ∧
    (∀ m vk op off bs, Arrives s m vk → s.ev.val = 1 → m.body = .rackWrite op off bs → m.src.isFar = false → s.vop? op = some o → o.id = op →
      o.left.any (fun y => y.1 == vk) = true → (p.wslen ≤ off → s.banksFree vk (lmBanks (at_ vk off) bs.length) = true) →
      let el := rkFmt (if off < p.wslen then p.wsfmt else p.lmfmt)
      let w := elemBytes el
      let kr := counterG p.seed (BitVec.ofNat 64 (p.gen * 2 ^ 32 + (s.vc vk).vcid))
      let e := fun (k : Nat) => k + (if off < p.wslen then off / w else p.wslen / elemBytes (rkFmt p.wsfmt) + (off - p.wslen) / w)
      let hit := fun (k : Nat) => p.pthr = 65536 ∨ (counterG kr (BitVec.ofNat 64 (2 * e k + 1))).toNat % 65536 < p.pthr
      ∃ t u, exec .vintnerRackPerform s = .next t ∧ t.net = s.net.eraseIdx s.ev.ix ∧ t.vop? op = some u ∧
        u.left = o.left.map (fun y => if y.1 = vk then
          (vk, y.2.1 - bs.length, y.2.2 + ((List.range (bs.length / w)).filter (fun k => decide (hit k))).length) else y) ∧
        (∀ k < bs.length / w, let x := elementOf bs w k
          let d := rackDelta p.sigma (counterG kr (BitVec.ofNat 64 (2 * e k)))
          number t (at_ vk off + w * k) w = (if hit k then reencode el x d else x) % 256 ^ w) ∧
        ∀ j, j < at_ vk off ∨ at_ vk off + bs.length ≤ j → Memory.read t.mem j = Memory.read s.mem j) ∧
    (Next s o → o.kind = 2 → o.stage = .racking → s.rackedAll o = true → (s.vgroup o.grp).selection = some ps →
      let fit := fun (i : Nat) => (((s.vgroup o.grp).ranking.getD []).getD i (0, 0, 0)).2.1
      let done := ps.filter (fun x => (racked x).isSome)
      ∃ t, exec .vintnerRackPerform s = .next t ∧
        EndsWith o t (if o.anySkipped = true then 3 else 0) done.length (ps.map (fun x => match racked x with
          | some y => BitVec.ofNat 64 (x.child + y.2.2 * 2 ^ 32)
          | none => BitVec.ofNat 64 (x.child + 2 ^ 16))) ∧
        (t.vgroup o.grp).racking = some (VRecord.mk p.gen p.seed p.sigma
          (done.map (fun x => Racked.mk x.child x.parent (fit x.crank) (fit x.prank))) 0 false) ∧
        (∀ x ∈ done, (s.vc (child x)).live = true → (t.vc (child x)).fitness = 0 ∧ (t.vc (child x)).evalcnt = 0) ∧
        (∀ h ∈ o.holds, h.2 = .held → free t h.1) ∧ (p.nen = false → t.mem = s.mem) ∧
        ∀ x, ps = [x] → done = [x] → (s.vc (child x)).live = true → p.nen = true →
          let a := lmAddr (s.coreOf (child x)) ((s.vc (child x)).base + p.noff)
          Memory.word t.mem a = BitVec.ofNat 64 (p.gen * 2 ^ 32 + x.parent) ∧ (a % 8 = 0 → t.isFull a = true))

/-- R309, R310: the distance of an element, RN32(sigma × RN32(d × c)), and the element with it added: the exact sum rounded to nearest
even in the format of the element and saturated at its largest number, or what was there, when it or the distance is no number to add. -/
def Sys2Proof.Claim.Perturbing : Prop :=
  (∀ (sigma : Nat) (w : Word),
    let lane := fun (k : Nat) => ((w.toNat / 2 ^ (16 * k) % 65536 : Nat) : Int)
    let d := lane 0 + lane 1 + lane 2 + lane 3 - 131070
    rackDelta sigma w = (fmt32.mul .rne sigma (fmt32.mul .rne (intToFp fmt32 .rne d).1 0x37DDB3D7).1).1) ∧
  ∀ (b delta : Nat),
    let sgn := fun (neg : Bool) (n : Nat) => if neg then - (n : Int) else (n : Int)
    (∀ t big above, (t, big, above) ∈ formats → t ≠ fmt64 →
      ((t.value b).isNan = true ∨ (∃ n, t.value b = .inf n) → reencode (.float t) b delta = b) ∧
      (∀ xn xm xe, t.value b = .fin xn xm xe →
        (∀ n e, fmt32.value delta = .fin n 0 e → reencode (.float t) b delta = b) ∧
        (∀ n, fmt32.value delta = .inf n → reencode (.float t) b delta = t.sign n big) ∧
        ∀ dn dm de, fmt32.value delta = .fin dn dm de → dm ≠ 0 →
          let e := min xe de
          let n := sgn xn (xm * 2 ^ (xe - e).toNat) + sgn dn (dm * 2 ^ (de - e).toNat)
          (n = 0 → reencode (.float t) b delta = 0) ∧
          (n ≠ 0 → ∃ fl, Rounded t big above .rne true (decide (n < 0)) (versus n.natAbs 1 e) (reencode (.float t) b delta, fl)))) ∧
    ∀ (dn : Bool) (dm : Nat) (de : Int) (lo : Nat), fmt32.value delta = .fin dn dm de → dm ≠ 0 → b < 256 →
      let e := min 0 de
      let x : Int := if b < 128 then b else b - 256
      let n := x * 2 ^ (-e).toNat + sgn dn (dm * 2 ^ (de - e).toNat)
      versus n.natAbs 1 e lo 0 ≠ .lt → versus n.natAbs 1 e (lo + 1) 0 = .lt →
      let z := sgn (decide (n < 0)) (if versus n.natAbs 1 e (2 * lo + 1) (-1) = .gt ∨ versus n.natAbs 1 e (2 * lo + 1) (-1) = .eq ∧ lo % 2 = 1 then lo + 1 else lo)
      reencode (.int 8) b delta = ((if z < -128 then -128 else if 127 < z then 127 else z) % 256).toNat

/-- R236, R315: a migration within the package, and to another one when its Vintner has answered (codes: log entry 89). -/
def Sys2Proof.Claim.MigrateSteps : Prop :=
  ∀ (s : State) (o : VOp), let p := rackPar o.params
    let src := s.memberVk o (migSrc o.params)
    let dst := vkey (s.vc src).gid (migDst o.params)
    let own := s.ownNode (migNode o.params)
    let rec_ := fun (cfit : Nat) => some (VRecord.mk p.gen p.seed p.sigma
      [Racked.mk (migDst o.params) (migSrc o.params) cfit (s.vc src).fitness.toNat] (migNode o.params) false)
    Next s o → o.kind = 4 →
      (o.stage = .holding → o.allSettled = true → own = true → o.anySkipped = true → ∃ t, exec .vintnerMigratePerform s = .next t ∧ EndsWith o t 3 0 []) ∧
      (o.stage = .holding → o.allSettled = true → own = true → o.anySkipped = false →
        ∃ t u, exec .vintnerMigratePerform s = .next t ∧ t.vop? o.id = some u ∧ u.stage = .racking ∧ t.mem = s.mem ∧
          u.left = [(dst, p.wslen + p.lmlen, 0)] ∧ u.record = rec_ (s.vc dst).fitness.toNat) ∧
      (o.stage = .racking → s.rackedAll o = true → ∃ t, exec .vintnerMigratePerform s = .next t ∧ EndsWith o t 0 1 [] ∧
        (t.vc dst).fitness = 0 ∧ (t.vc dst).evalcnt = 0 ∧ (t.vgroup o.grp).migration = o.record) ∧
      (o.stage = .holding → o.allSettled = true → own = false → o.answer = some 9 → o.anySkipped = false →
        ∃ t u, exec .vintnerMigratePerform s = .next t ∧ t.vop? o.id = some u ∧ u.stage = .away ∧ u.record = rec_ o.cfit ∧ t.mem = s.mem) ∧
      (o.stage = .holding → o.allSettled = true → own = false → o.answer = none → exec .vintnerMigratePerform s = .next s) ∧
      (o.stage = .away → o.answer = some 12 → ∃ t, exec .vintnerMigratePerform s = .next t ∧ EndsWith o t 0 1 [] ∧
        (t.vgroup o.grp).migration = o.record) ∧
      (o.stage = .away → o.answer = some 8 → ∃ t, exec .vintnerMigratePerform s = .next t ∧ EndsWith o t 5 0 [])

/-- R227, R313, R314: the vintage log takes a racking's records; a completed operation leaves the queue with its results written. -/
def Sys2Proof.Claim.LogAndComplete : Prop :=
  ∀ (s : State) (o : VOp), let w := (o.params.getD 0 0).toNat
    (Next s o → o.kind = 3 → o.stage = .queued → (if w % 2 = 1 then (s.vgroup o.grp).migration else (s.vgroup o.grp).racking) = none →
      ∃ t, exec .vintnerLogPerform s = .next t ∧ EndsWith o t 6 0 [] ∧ t.mem = s.mem) ∧
    (∀ r tail head cap s1 s2 s3 as ta, Next s o → o.kind = 3 → o.stage = .queued → w % 2 = 0 → (s.vgroup o.grp).racking = some r →
      r.logged = false → r.pairs ≠ [] → (s.vgroup o.grp).logBase ≠ 0 → 4 ≤ cap → cap ≤ 24 → tail < 2 ^ 64 → head < 2 ^ 64 →
      let l := (s.vgroup o.grp).logBase
      let fn := (s.group o.grp).owner
      s.readVaWords 4 fn l 4 = some (s1, [BitVec.ofNat 64 cap, BitVec.ofNat 64 tail, BitVec.ofNat 64 head, 0]) →
      head ≤ tail → tail - head + r.pairs.length ≤ 2 ^ cap →
      s1.logAddrs fn l (2 ^ cap) tail r.pairs.length = some (s2, as) → s2.translateBytes 4 fn (l + 8) .write 8 = some (s3, ta) →
      ∃ t, exec .vintnerLogPerform s = .next t ∧ EndsWith o t 0 r.pairs.length [BitVec.ofNat 64 tail] ∧
        t.mem = writeAt (writeAt s3.mem as (bytesOfWords (r.pairs.flatMap (recordWords r (w / 256 % 256) false)))) ta
          (bytesOf (tail + r.pairs.length) 8)) ∧
    (∀ vk, s.vop? s.ev.key = some o → o.packet = none → o.vk = some vk → (s.vc vk).live = true → (s.vc vk).place.isSome = true →
      o.stage = .done → o.ev = false → o.status < 2 ^ 8 → o.kind < 5 → o.tag < 2 ^ 16 → o.ticket < 2 ^ 16 → ∃ t, exec .vintnerCompletion s = .next t ∧ (∀ u ∈ t.vops, u.id ≠ o.id) ∧
        Memory.word t.mem (s.vresult o vk) = BitVec.ofNat 64
          (o.status + (0x40 + o.kind) * 2 ^ 8 + o.tag * 2 ^ 16 + o.count % 2 ^ 16 * 2 ^ 32 + o.ticket * 2 ^ 48) ∧
        Memory.words t.mem (s.vresult o vk + 8) o.results.length = o.results ∧ t.isFull (s.vresult o vk) = true)

/-- R227 to R236, R303 to R310, R314: what the Vintner performs for the operation ev.key, the first of its group: the order of a
ranking, the pairs of a selection, the effect of a racking and of a migration, the result words. The operands in ev are the
model's (log entry 2). Corners, and what two Vintners tell each other: log entries 35, 80, 89. -/
def Obligations.VintnerOperations : Prop :=
  RankAndSelect ∧ HoldMembers ∧ RackSteps ∧ Perturbing ∧ MigrateSteps ∧ LogAndComplete

/-! Contexts, mailboxes, ports, code lines. -/

/-- R240 to R243, R247, R350: CTXSAV and CTXRST wait for the frozen engines and 64 rotations, then write the engine
block or load it; in U mode they are illegal. SUPPOST sends to the supervisor's mailbox, where the message is written and
SUP set; where the ring is no longer usable, a reserved code stops the queue of the offender (R73). The operands in ev are the model's
(log entry 2). Context area, what CTXRST keeps, mailbox order: log entries 21, 34, 36, 85. -/
def Obligations.ContextAndMailbox : Prop :=
  ∀ (s : State) (rs1 rs2 : XReg) (g sk ss ix vk : Nat) (m : Msg) (ws : List Word),
    let a := s.x rs1
    let k := s.x rs2
    let ga := lmAddr (s.coreOf s.vk) a.toNat
    let starts := fun (i : Instr) => ∃ t, exec i s = .next t ∧ t.me.hold = some (.context none) ∧ t.me.pc = s.me.pc ∧
      t.myVc.frozen = true ∧ t.myVc.ctxFrozen = true ∧ t.mem = s.mem
    let user := fun (i : Instr) => s.me.mode = .u → ∃ t, exec i s = .next t ∧ Trapped s t 2 (((encode i).getD 0).setWidth 64) s.me.pc
    let rest := fun (i : Instr) => s.me.mode = .m →
      (s.me.hold = some (.context none) → s.engineIdle s.vk = true → ∃ t, exec i s = .next t ∧ t.me.hold = some (.context (some 63)) ∧
        t.me.pc = s.me.pc ∧ t.mem = s.mem) ∧
      (s.me.hold = some (.context none) → s.engineIdle s.vk = false → exec i s = .next s) ∧
      (∀ n, s.me.hold = some (.context (some (n + 1))) → ∃ t, exec i s = .next t ∧ t.me.hold = some (.context (some n)) ∧
        t.me.pc = s.me.pc ∧ t.mem = s.mem)
    let key := slotKey vk ss
    let r := s.ring vk ix
    user (.ctxsav rs1) ∧ user (.ctxrst rs1) ∧ rest (.ctxsav rs1) ∧ rest (.ctxrst rs1) ∧
    (s.me.mode = .m → s.me.hold = none → a.toNat % 64 = 0 → a.toNat + 38912 ≤ 0x100000 →
      starts (.ctxsav rs1) ∧ (bits (Memory.word s.mem ga) 23 0 = 0x14358 → starts (.ctxrst rs1))) ∧
    (s.me.mode = .m → s.me.hold = some (.context (some 0)) → (∀ i < 64, (s.myVc.layoutWords i).length = 4) →
      ∃ t, exec (.ctxsav rs1) s = .next t ∧ t.me.pc = s.me.pc + 4 ∧ t.me.x = s.me.x ∧ t.me.mip.getLsbD 0 = false ∧
        Memory.words t.mem ga 4864 = (s.freeze s.vk).engineBlock s.vk ∧
        ∀ j, j < ga ∨ ga + 38912 ≤ j → Memory.read t.mem j = Memory.read s.mem j) ∧
    (s.me.mode = .m → s.me.hold = some (.context (some 0)) → ∃ t, exec (.ctxrst rs1) s = .next t ∧ t.me.pc = s.me.pc + 4 ∧
      t.me.x = s.me.x ∧ (s.myVc.parkedCtx = [] → t.mem = s.mem) ∧ t.myVc.ctxFrozen = false ∧
      t.myVc.bank = (Memory.word s.mem (ga + 0xA8)).getLsbD 0 ∧ t.myVc.fitness = (Memory.word s.mem (ga + 0x208)).setWidth 32 ∧
      t.myVc.supmbox = Memory.word s.mem (ga + 0x218) &&& 0x8000000003FFFFFF ∧ t.myVc.srpos = Memory.word s.mem (ga + 0x228) ∧
      t.myVc.acc0 = accOfWords (Memory.words s.mem (ga + 0x1800) 2048) ∧ t.myVc.acc1 = accOfWords (Memory.words s.mem (ga + 0x5800) 2048) ∧
      t.myVc.srkey = Memory.word s.mem (ga + 0x220) ∧ t.myVc.mflags = (Memory.word s.mem (ga + 0xA0)).setWidth 5) ∧
    (k.toNat < 0x80 ∨ 0xFF < k.toNat → ∃ t, exec (.suppost rs1 rs2) s = .next t ∧
      Trapped s t 2 (((encode (.suppost rs1 rs2)).getD 0).setWidth 64) s.me.pc) ∧
    (0x80 ≤ k.toNat → k.toNat ≤ 0xFF → a.toNat % 8 = 0 → At s a 32 false g →
      (s.mailbox s.vk = none → ∃ t, exec (.suppost rs1 rs2) s = .next t ∧ Did s t 0 0 (s.me.pc + 4)) ∧
      (s.mailbox s.vk = some (sk, ss, ix) → Clear s → ∃ t, exec (.suppost rs1 rs2) s = .next t ∧ t.me.pc = s.me.pc + 4 ∧ t.mem = s.mem ∧
        Left s t (.vc sk) (.mailbox ss ix ([BitVec.ofNat 64 (k.toNat + s.ix * 256 + s.myVc.vcid * 65536 + s.node * 2 ^ 32), 0, 0, 0] ++
          Memory.words s.mem g 4)))) ∧
    (Performed s m vk → m.body = .mailbox ss ix ws → ws.length = 8 → r.valid = true → r.kind = 0 ∨ r.kind = 3 → 64 ≤ r.size → ss < slotCount (s.vc vk) → r.fill < r.count →
      ∃ t, exec .mailboxMessageWrite s = .next t ∧ Memory.words t.mem (s.ringAddr vk ix r.tail) 8 = ws ∧
        t.ring vk ix = { r with tail := (r.tail + 1) % r.count, fill := r.fill + 1 } ∧ (t.slot key).mip.getLsbD 3 = true ∧
        (t.slot key).supRing = ix ∧ t.net = s.net.eraseIdx s.ev.ix) ∧
    (Arrives s m vk → m.body = .mailbox ss ix ws → r.valid = true → r.kind = 0 ∨ r.kind = 3 → 64 ≤ r.size → ss < slotCount (s.vc vk) → r.count ≤ r.fill →
      exec .mailboxMessageWrite s = .next s) ∧
    (Performed s m vk → m.body = .mailbox ss ix ws → r.valid = false → ∃ t, exec .mailboxMessageWrite s = .next t ∧ t.net = s.net.eraseIdx s.ev.ix ∧
      t.slots = s.slots ∧ ((ws.headD 0).toNat % 256 ≠ 1 → t.mem = s.mem ∧ t.queues = s.queues) ∧
      ∀ j, m.src = .vc j → (ws.headD 0).toNat % 256 = 1 →
        let off := s.slot (slotKey j ((ws.headD 0).toNat / 256 % 16))
        off.qowner.getLsbD 16 = true → (t.queue off.queueKey).stopped = true)

/-- R196, R357, R415, R416: the network takes the oldest request of a core; a port-out ring's head becomes a message;
at its destination it goes to the port-in ring of its port and network, or a reply or control message to the spill
area; a request that an absent virtual core turned back is kept for 64 cycles, then sent again. The operands in ev are
the model's (log entry 2). Credits, kept requests, port rings, the spill area: log entries 9, 33, 55, 88. -/
def Obligations.RequestNetwork : Prop :=
  ∀ (s : State) (m : Msg) (rest : List Msg) (vk ix port : Nat) (net : VNet) (w : Word),
    let k := s.ev.key
    let r := s.ring vk ix
    let q := s.ring k ix
    let h := Memory.word s.mem (s.ringAddr k ix q.head)
    let out : Word := h.extractLsb' 24 40 ++ q.port ++ BitVec.ofNat 16 (s.vc k).vcid
    let sent := Msg.mk (.vc k) (.vc (vkey (s.vc k).gid (h.toNat % 65536))) (vnetOf q.vnet)
      (.port (vnetOf q.vnet) (h.toNat / 65536 % 256) out) none false
    let put := fun (t : State) => Memory.word t.mem (s.ringAddr vk ix r.tail) = w ∧
      t.ring vk ix = { r with tail := (r.tail + 1) % r.count, fill := r.fill + 1 }
    ((s.core k).egress = m :: rest → s.farRoom m = true → s.hasCredit k = true → (∀ j ∈ s.hosted k, (s.vc j).kept = []) → ∃ t, exec .requestEgressAccept s = .next t ∧
      (t.core k).egress = rest ∧ t.net = s.net ++ [m] ∧ t.slots = s.slots ∧ t.mem = s.mem) ∧
    (s.portToTake k = some ix → (s.vc k).kept = [] → ∃ t, exec .portOutTake s = .next t ∧
      t.ring k ix = { q with head := (q.head + 1) % q.count, fill := q.fill - 1 } ∧ t.mem = s.mem ∧
      (q.vnet = 0 → (t.core (s.coreOf k)).egress = (s.core (s.coreOf k)).egress ++ [sent] ∧ t.net = s.net) ∧
      (q.vnet ≠ 0 → t.net = s.net ++ [sent] ∧ (t.core (s.coreOf k)).egress = (s.core (s.coreOf k)).egress) ∧
      (t.core (s.coreOf k)).tookCyc = s.cycOf k + 1) ∧
    (Performed s m vk → m.body = .port net port w → s.portIn vk net port = some ix → r.fill < r.count →
      (s.core (s.coreOf vk)).spilled m = false → ∃ t, exec .portMessageDelivery s = .next t ∧ put t ∧ t.net = s.net.eraseIdx s.ev.ix) ∧
    (Performed s m vk → m.body = .port net port w → s.portIn vk net port = some ix → r.count ≤ r.fill → net ≠ .request →
      (s.core (s.coreOf vk)).spill.length < 64 → ∃ t, exec .portMessageDelivery s = .next t ∧ t.vcs = s.vcs ∧
        (t.core (s.coreOf vk)).spill = (s.core (s.coreOf vk)).spill ++ [m] ∧ t.net = s.net.eraseIdx s.ev.ix ∧
        ∀ j, j < lmAddr (s.coreOf vk) 0xF3000 ∨ lmAddr (s.coreOf vk) 0xF4000 ≤ j → Memory.read t.mem j = Memory.read s.mem j) ∧
    (Arrives s m vk → m.body = .port .request port w → s.portIn vk .request port = some ix → r.count ≤ r.fill →
      exec .portMessageDelivery s = .next s) ∧
    (s.spillReady k = some m → s.homeFree m = true → m.dst = .vc vk → m.body = .port net port w → s.portIn vk net port = some ix →
      ∃ t, exec .portMessageSpillRelease s = .next t ∧ put t ∧ (t.core k).spill = (s.core k).spill.erase m) ∧
    (∀ b, s.ev.val = 0 → s.evMsg = some m → m.dst = .vc vk → m.body = .retry b true → (s.vc vk).live = true → (s.vc vk).kept = [] →
      b.heldOn = none → (s.vc vk).frozen = false →
      ∃ t x, exec .absentRetryReissue s = .next t ∧ (t.vc vk).kept = [x] ∧ x.msg.body = b ∧ x.msg.dst = m.src ∧
        x.why = .absent (s.cycOf vk + 64) ∧ x.wide = true ∧ t.net = s.net.eraseIdx s.ev.ix ∧ t.mem = s.mem) ∧
    (∀ x due, s.ev.val = 1 → (s.vc k).kept = [x] → x.why = .absent due → due ≤ s.cycOf k → (s.vc k).live = true →
      (s.vc k).place.isSome = true → (s.vc k).copying = false → (s.gang (s.vc k).gid).quiesced = false → x.msg.body.heldOn = none → x.msg.net = .request → x.msg.body.unordered = false →
      s.inFlight k x.msg.dst .request = false → (s.core (s.coreOf k)).egress.length < 32 → ∃ t, exec .absentRetryReissue s = .next t ∧
        (t.vc k).kept = [] ∧ t.mem = s.mem ∧ (t.core (s.coreOf k)).egress = (s.core (s.coreOf k)).egress ++
          [{ x.msg with resent := x.ret }])

/-- R298: the neighbours to whom a ring may ship an entry, in the order +x, +y, -x, -y of the virtual core's place in its gang: inside
the gang, at home, with the same ring a levelled work ring of the same scope and group. -/
def Sys2Proof.Claim.levelTo (s : State) (vk ix : Nat) : List Nat :=
  let v := s.vc vk
  let g := s.gang v.gid
  let x := v.vcid % g.gw
  let y := v.vcid / g.gw
  let r := s.ring vk ix
  let far := (if x + 1 < g.gw ∧ y < g.gh then [vkey v.gid (y * g.gw + (x + 1))] else []) ++
    (if x < g.gw ∧ y + 1 < g.gh then [vkey v.gid ((y + 1) * g.gw + x)] else []) ++
    (if 0 < x ∧ x < g.gw + 1 ∧ y < g.gh then [vkey v.gid (y * g.gw + (x - 1))] else []) ++
    (if 0 < y ∧ x < g.gw ∧ y < g.gh + 1 then [vkey v.gid ((y - 1) * g.gw + x)] else [])
  far.filter (fun k => (s.vc k).atHome && (s.ring k ix).levelled && (s.ring k ix).scope == r.scope && (s.ring k ix).sgrp == r.sgrp)

/-- R297, R298, R300, R337, R338: a line in the trellis cache reaches its waiting slots; a line is filled from HBM
through its leaf, or the slots parked on it get a fetch fault; a walk leaves its leaf in the TLB; of a levelled ring the oldest entries
travel to the least filled neighbour, and arrive; the stall monitor reports. The operands in ev are the model's (log entry 2). Lines,
TLBs, levelling and the report: log entries 25, 31, 38, 39, 51, 62, 70, 94, 97. -/
def Obligations.FetchLevelStall : Prop :=
  ∀ (s : State) (r : LineReq) (c : CacheLine) (m : Msg) (vk ix : Nat) (w0 w1 : Word),
    let d := s.ev.key
    let q := s.ring vk ix
    let parked := fun (k : Nat) => k ∈ r.waiters ∧ (s.slot k).st = .parked ∧ (s.slot k).park = some (.fetch r.line)
    let failed := fun (u : State) (cause : Nat) => ∃ t, exec .icacheFill s = .next t ∧ t.mem = u.mem ∧
      ∀ k, parked k → (t.slot k).fetchFault = some (r.line, cause) ∧ (t.slot k).wakeAt ≠ none ∧ (t.slot k).pc = (s.slot k).pc
    (s.serveable d s.ev.ix = some (r, c) → ∃ t, exec .trellisLineServe s = .next t ∧ t.mem = s.mem ∧
      (t.die d).reqs = (s.die d).reqs.erase r ∧ ∀ k, parked k → (s.slot k).pc.toNat / 64 = r.line → (s.slot k).line = none →
        (t.slot k).ahead = some ⟨r.line, c.words⟩ ∧ (t.slot k).wakeAt ≠ none ∧ (t.slot k).pc = (s.slot k).pc) ∧
    (s.fillable d s.ev.ix = some r → s.leafOf d r.fn (64 * r.line) .fetch (.itlb r.trellis) = none → failed s 12) ∧
    (∀ u e lg, s.fillable d s.ev.ix = some r → s.leafOf d r.fn (64 * r.line) .fetch (.itlb r.trellis) = some (u, e, lg) → pteSpace e ≠ 0 → failed u 1) ∧
    (∀ u e lg, s.fillable d s.ev.ix = some r → s.leafOf d r.fn (64 * r.line) .fetch (.itlb r.trellis) = some (u, e, lg) → pteSpace e = 0 →
      ∃ t, exec .icacheFill s = .next t ∧ t.mem = u.mem ∧ t.slots = s.slots ∧ CacheLine.mk r.trellis r.fn r.gid r.line
        (patchedLine (s.gang r.gid) r.line (Memory.bytes u.mem (hbmAddr (leafPa e lg (64 * r.line))) 64)) ∈ (t.die d).icache) ∧
    (∀ u e lg, (s.ev.data.headD 0 = 0) → s.leafOf d s.ev.ix s.ev.val.toNat .read .shared = some (u, e, lg) →
      ∃ t, exec .pageWalk s = .next t ∧ (∃ l ∈ (t.die d).tlb, l.covers s.ev.ix s.ev.val.toNat .shared = true ∧ l.leaf = e) ∧
        t.slots = s.slots ∧ t.vcs = s.vcs) ∧
    (s.levelDue d = true → ∃ t l, exec .levellingTick s = .next t ∧ (t.die d).lvlDone = (s.die d).cyc + 1 ∧ t.mem = s.mem ∧
      t.net = s.net ++ l ∧ ∀ x ∈ l, ∃ i a b, x.body = .level i a b) ∧
    (∀ l k r, s.levelDue d = true → (s.vcs.map Prod.fst).Nodup → (∀ j, ((s.vc j).rings.map Prod.fst).Nodup) →
      (∀ j i, (j, i) ≠ (vk, ix) → (s.ring j i).levelled = true → ∀ p ∈ s.levelPeers j i, (s.ring j i).fill < (s.ring p i).fill + 2) →
      (s.vc vk).live = true → (s.vc vk).place.isSome = true → (s.vc vk).copying = false → s.dieOf vk = d → q.levelled = true →
      Sys2Proof.Claim.levelTo s vk ix = l ++ k :: r → (∀ p ∈ l, (s.ring k ix).fill < (s.ring p ix).fill) →
      (∀ p ∈ r, (s.ring k ix).fill ≤ (s.ring p ix).fill) → (s.ring k ix).fill + 2 ≤ q.fill →
      let n := min (min 4 ((q.fill - (s.ring k ix).fill) / 2)) ((s.ring k ix).count - (s.ring k ix).fill - s.levelOnWay k ix)
      let at_ := fun (i : Nat) => s.ringAddr vk ix (if i = 0 then q.head else (q.head + i) % q.count)
      ∃ t, exec .levellingTick s = .next t ∧ (t.ring vk ix).fill = q.fill - n ∧ (0 < n → (t.ring vk ix).head = (q.head + n) % q.count) ∧
        t.net = s.net ++ (List.range n).map (fun i => Msg.mk (.vc vk) (.vc k) .request
          (.level ix (Memory.word s.mem (at_ i)) (Memory.word s.mem (at_ i + 8))) none false)) ∧
    (Performed s m vk → m.body = .level ix w0 w1 → q.fill < q.count → ∃ t, exec .levellingEntryArrival s = .next t ∧
      Memory.words t.mem (s.ringAddr vk ix q.tail) 2 = [w0, w1] ∧ t.net = s.net.eraseIdx s.ev.ix ∧
      t.ring vk ix = { q with tail := (q.tail + 1) % q.count, fill := q.fill + 1 }) ∧
    (∀ k, s.stallDue d = true → (s.slotsOf d).find? (fun k => (s.slot k).busySlot) = some k → ∃ t, exec .stallReport s = .next t ∧
      (t.slot k).mip.getLsbD 2 = true ∧ (t.vc d).stallSent = true ∧ t.mem = s.mem ∧ (s.mailbox d = none → t.net = s.net))

/-! Gangs, moves, saves. -/

/-- A packet completes: its completion is last among those to be posted. -/
def Sys2Proof.Claim.Posts (s t : State) (k : Nat) (p : Packet) (status value : Nat) (detail : Word) : Prop :=
  ∃ c, (t.queue k).posting = (s.queue k).posting ++ [c] ∧ c = p.completion status value detail

/-- R105, R269, R282, R286 to R296: a LAUNCH that passes its checks is fetched with its die fixed, one that fails stops its queue;
it becomes a request, and the arbiter gives the only request its rectangle; the image is loaded, slots start at the release, and a gang
that has ended leaves with its completion, while its EMPTY slots keep their registers. The operands in ev are the model's (log entry 2).
Which gang id, an unreadable image, release order, what of an ended gang stays: log entries 9, 40, 54, 60, 90. -/
def Obligations.Placement : Prop :=
  ∀ (s : State) (p : Packet) (k x y own : Nat) (r : Request),
    let d := s.ev.key
    let gid := s.newGid
    let q := s.queue k
    let g := s.gang d
    let h := p.hd
    let kd := queueKey g.func g.queue
    (∀ u hw v ps y, s.ev.key = k → s.svc ≠ 0 → q.canFetch = true → q.memva = false → s.hostFail = false →
      let f := k / 32
      let ix := q.head % q.count
      let z : Packet := { index := ix, words := wordsOfBytes (Memory.bytes s.mem (hostAddr (q.base * 128 + 64 * ix)) 64) }
      let hz := headerOf hw
      let zz : Packet := { z with header := hw, patches := ps }
      s.malformed z = false → q.opmask.getLsbD z.type = true → z.type = 1 → q.outside [(0, z.image, 64)] = none →
      s.readVaWords f f z.image 8 = some (u, hw) → q.outside ((hz.extents z.image).map (fun e => (0, e.1, e.2))) = none →
      u.readVaWords f f (z.image + hz.poff) hz.pcnt = some (v, ps) →
      v.readExtents f [(z.image + 64, hz.tsize), (z.image + hz.doff, hz.dsize)] = (y, none) →
      (y.launchCheck f zz = 0 → ∃ t, exec .packetFetch s = .next t ∧ (t.queue k).front = some { zz with die := y.launchDie zz } ∧
        (zz.any = false → y.launchDie zz = (zz.word 2).toNat % 8) ∧ (t.queue k).stopped = q.stopped ∧ (t.queue k).head = q.head) ∧
      (y.launchCheck f zz ≠ 0 → ∃ t, exec .packetFetch s = .next t ∧ (t.queue k).front = none ∧ (t.queue k).stopped = true ∧
        (t.queue k).head = q.head ∧ t.gangs = s.gangs)) ∧
    (s.ev.key = k → s.ripe k [1] = some p → p.step = 0 → ∃ t z, exec .launchPacket s = .next t ∧ (t.queue k).front = some z ∧ z.step = 1 ∧
      z.words = p.words ∧ z.header = p.header ∧ z.die = p.die ∧ (t.queue k).stopped = q.stopped ∧ t.mem = s.mem) ∧
    (s.arbiterDue d = true → s.oldestRequests d = [r] → r.former = none → r.queue = k → q.front = some p → (s.die d).fixed = [] →
      s.launchRect k p = some (x, y) → s.freeGroup = some own → ∃ t z, exec .arbiterBoundary s = .next t ∧ t.gang? gid = some z ∧
        z.die = p.die ∧ z.ox = x ∧ z.oy = y ∧ z.own = own ∧ z.func = k / 32 ∧ z.job = p.job ∧ (t.group own).valid = true ∧
        (t.group own).gid = gid ∧ (t.queue k).front = none ∧ (t.queue k).head = (q.head + 1) % q.count ∧ t.mem = s.mem ∧
        ∀ c ∈ rectCores p.die x y (rectW h.gw h.fold) (rectH h.gh h.fold), (t.core c).reserved = true) ∧
    (∀ u v text data n, (s.queue kd).launching d = some p → p.step = 2 → (s.gang? d).isSome = true →
      s.imageBytes g 64 (min h.tsize 0x20000) = some (u, text) → u.imageBytes g h.doff h.dsize = some (v, data) → n < g.gw * g.gh →
      let place := corePlace g.die g.ox g.oy g.gw g.fold n
      let vk := vkey d n
      let base := if g.fold = 0 then 0 else place.2 * (g.lmlimit + 0xA000)
      ∃ t, exec .launchPlacement s = .next t ∧ (t.vc vk).live = true ∧ (t.vc vk).place = some place.1 ∧ (t.vc vk).vcid = n ∧
        (t.vc vk).gid = d ∧ (t.vc vk).base = base ∧ (t.vc vk).groups = g.own :: g.symbols ∧
        (t.core place.1).stallthr = 0x00100000 ∧ (t.core place.1).tokexp = 0x00040000 ∧ (t.core place.1).sqfen = false ∧ (t.core place.1).cmapIdx = 0 ∧
        ∀ j < 16 / 2 ^ g.fold, (t.slot (slotKey vk j)).st = .empty ∧
          (t.slot (slotKey vk j)).pc = BitVec.ofNat 64 (g.image + 64 + h.entry) ∧
          (t.slot (slotKey vk j)).segbase = BitVec.ofNat 64 base ∧ (t.slot (slotKey vk j)).seglim = BitVec.ofNat 64 g.lmlimit ∧
          (g.lmask.testBit j = true → (t.slot (slotKey vk j)).readX 10 = BitVec.ofNat 64 j ∧
            (t.slot (slotKey vk j)).readX 11 = BitVec.ofNat 64 g.lmask ∧ (t.slot (slotKey vk j)).readX 12 = g.arg)) ∧
    (s.releasable s.ev.ix d = true → (∀ vk ∈ s.hosted d, (s.vc vk).holds = []) → ∃ t, exec .gangReleaseAtCore s = .next t ∧ t.mem = s.mem ∧
      ∀ j, FMap.get? s.slots j ≠ none → (j / 16) ∈ s.hosted d → (s.vc (j / 16)).gid = s.ev.ix →
        (s.gang s.ev.ix).lmask.testBit (j % 16) = true → (t.slot j).st = .issuing ∧ (t.slot j).pc = (s.slot j).pc) ∧
    (s.gangDone d = true → g.silent = false → ∃ t, exec .gangEnd s = .next t ∧ t.gang? d = none ∧ t.mem = s.mem ∧
      t.slots = s.slots ∧ (∀ vk, vk / 65536 = d → (t.vc vk).live = false ∧ (t.vc vk).place = none ∧ (t.vc vk).acc0 = (s.vc vk).acc0 ∧
        (t.vc vk).mflags = (s.vc vk).mflags ∧ (t.vc vk).rings = (s.vc vk).rings ∧ (t.vc vk).tokens = (s.vc vk).tokens) ∧
      Posts s t kd (s.launchPacket d) (if g.terminated = true ∨ g.partly = true then 2 else if (s.endSummary d).bits ≠ 0 then 1 else 0) d
        (s.endSummary d).sum)

/-- R325, R328 to R335: the migration queue gives a free core to the first entry it can serve; a held virtual core's
egress empties; its local memory and registers move, addresses rebased; markers free the redirect; its slots go on,
and a MIGR completes with 0. The operands in ev are the model's (log entry 2). The slot's line: log entry 42. -/
def Obligations.Migration : Prop :=
  ∀ (s : State) (vk g : Nat) (m : Move) (msg : Msg) (net : VNet) (r : Redirect) (h : HoldReq),
    let k := s.ev.key
    let v := s.vc k
    let kept := (s.core (s.coreOf k)).egress.filter (fun x => !(x.src == .vc k))
    let sent := (s.core (s.coreOf k)).egress.filter (fun x => x.src == .vc k)
    (s.dispatchDue k = true → s.dispatchPair k = some (g, vk) → (s.vc vk).move = some m →
      ∃ t u, exec .migrationQueueDispatch s = .next t ∧
      (t.vc vk).move = some u ∧ u.step = 1 ∧ u.dst = g ∧ u.rd = m.rd ∧ vk ∉ t.migQ ∧ (t.core g).reserved = true ∧ (t.core g).mig = true ∧
      (t.core (s.coreOf vk)).mig = true ∧ t.mem = s.mem) ∧
    (s.moveHeld k = true → v.move = some m → ∃ t u, exec .migrationHoldComplete s = .next t ∧ (t.vc k).move = some u ∧ u.step = 2 ∧
      u.dst = m.dst ∧ (t.core (s.coreOf k)).egress = kept ∧ t.net = s.net ++ sent ∧ (∀ j, j / 16 = k → (t.slot j).resv = none) ∧
      t.mem = s.mem) ∧
    (s.Inv → v.live = true → (s.core m.src).spill.length ≤ 64 → s.copyDone k = some m → m.src = s.coreOf k → m.src < 2048 → m.dst < 2048 → v.base + (s.gang v.gid).lmlimit ≤ 0xF0000 →
      ∃ t u, exec .migrationStateCopyDone s = .next t ∧ (t.vc k).move = some u ∧ u.step = 3 ∧ (t.vc k).place = some m.dst ∧
        (t.vc k).base = 0 ∧ (t.vc k).sems = v.sems ∧ (t.vc k).fitness = v.fitness ∧
        (m.status ≠ 2 → FMap.get? t.migs k = some m.dst) ∧
        (∀ j < (s.gang v.gid).lmlimit, Memory.read t.mem (lmAddr m.dst j) = Memory.read s.mem (lmAddr m.src (v.base + j))) ∧
        ∀ j, j / 16 = k → FMap.get? s.slots j ≠ none → (t.slot j).pc = (s.slot j).pc ∧ (t.slot j).x = (s.slot j).x ∧
          (t.slot j).st = (s.slot j).st ∧ (t.slot j).segbase = (s.slot j).segbase - BitVec.ofNat 64 v.base) ∧
    (s.net[s.ev.ix]? = some msg → msg.dst = .vc vk → msg.body = .marker net r.num → s.markerFree s.ev.ix r.num msg = true → r.vk = vk →
      s.ev.val = 0 → (∀ y ∈ (s.vc vk).holdQ, y.direct = false) →
      ∀ d ix, FMap.get? (s.die d).redirs ix = some r → ∃ t, exec .redirectMarker s = .next t ∧ t.net = s.net.eraseIdx s.ev.ix ∧
        FMap.get? (t.die d).redirs ix = some { r with left := r.left.erase (msg.src, net) } ∧ t.mem = s.mem) ∧
    (FMap.get? (s.die k).redirs s.ev.ix = some r → r.left = [] → ∃ t, exec .migrationRedirectFreed s = .next t ∧
      FMap.get? (t.die k).redirs s.ev.ix = none ∧ (∀ j, j ≠ s.ev.ix → FMap.get? (t.die k).redirs j = FMap.get? (s.die k).redirs j) ∧
      t.mem = s.mem) ∧
    (s.ev.val = 0 → s.canResumeMove k = some m → v.holds = [h] → h.kind = .migrate → ∃ t, exec .migrationResume s = .next t ∧
      (t.vc k).move = none ∧ (t.vc k).holds = [] ∧ (t.core m.dst).reserved = false ∧
      ∀ j, j / 16 = k → (s.slot j).st = .trapped → (s.slot j).trap = some .migrate → (s.slot j).hold = none →
        (t.slot j).st = .issuing ∧ (m.status ≠ 1 ∨ h.slot ≠ j % 16 → (t.slot j).pc = (s.slot j).pc) ∧
        (m.status = 1 → h.slot = j % 16 → (t.slot j).pc = (s.slot j).pc + 4 ∧ (t.slot j).readX (BitVec.ofNat 5 m.rd) = 0))

/-- R353 to R358: at the end of a save the virtual core is absent, its slots EMPTY, with a save extent; the copy-out
puts its local memory there; a resumption gives it its core back. The operands in ev are the model's (log entry 2).
Extents and the resumption's core: log entries 10, 53, 56. -/
def Obligations.Saves : Prop :=
  ∀ (s : State) (x c : Nat),
    let k := s.ev.key
    let v := s.vc k
    let g := s.coreOf k
    let n := (s.gang v.gid).lmlimit
    (s.canSaveEnd k = true → s.freeExtent (g / 256) = some x → ∃ t, exec .preemptionSaveEnd s = .next t ∧ (t.vc k).place = none ∧
      (t.vc k).former = g ∧ (t.vc k).extent = some x ∧ (t.vc k).copied = false ∧ (t.vc k).lead = none ∧ k ∈ (t.core g).saving ∧
      (∀ j, j / 16 = k → (t.slot j).st = .empty) ∧ ∀ j, j / 16 ≠ k → { t.slot j with resv := (s.slot j).resv } = s.slot j) ∧
    (s.Inv → v.extent = some x → v.place = none → v.copied = false → (s.core v.former).saving.contains k = true → v.former < 2048 →
      v.base + n ≤ 0xF0000 → ∃ t, exec .saveCopyOutDone s = .next t ∧ (t.vc k).copied = true ∧ t.slots = s.slots ∧
        (t.core v.former).saving = (s.core v.former).saving.erase k ∧
        ∀ j < n, Memory.read t.mem (hbmAddr (x + 0x14000 + j)) = Memory.read s.mem (lmAddr v.former (v.base + j))) ∧
    (s.canResume k = some (c, x) → v.absentLog = [] → ∃ t, exec .resumptionLoadDone s = .next t ∧ (t.vc k).place = some c ∧
      (t.vc k).extent = none ∧ (t.vc k).resume = none ∧ (t.vc k).base = v.base ∧
      ∀ j < slotCount v, (t.slot (slotKey k j)).pc = Memory.word s.mem (hbmAddr (x + 640 * j)))

/-- R361 to R365, R279: QUIESCE and FREEZE of a gang issue and take holds; the cut marks the gangs and completes the
packet when no image is asked for, FREEZE stopping the clocks; what still runs at the timeout is held at once; the image,
or its header alone when the buffer is too small, stands at the buffer (R366, Table 14.8: magic, ver, extent, status,
length, G, V, node, sections on 64-byte boundaries); RESUME completes and ends the quiesce. The operands in ev are the
model's (log entry 2). The model's choices: that RESUME with term 1 leaves the slots EMPTY at once (log entry 15); that a
buffer that does not translate keeps what it held and the packet completes (log entry 27); times and the clocks (log
entries 45, 52, 57). -/
def Obligations.Quiescing : Prop :=
  ∀ (s : State) (p : Packet) (g : Gang),
    let k := s.ev.key
    let q := s.queue k
    let gid := p.gidOf
    let mine := fun (vk : Nat) => (s.vc vk).live = true ∧ (s.vc vk).gid = gid
    let after := fun (t : State) => (t.queue k).front = none ∧ (t.queue k).head = (q.head + 1) % q.count
    let fits := fun (p : Packet) => s.canCut p = true ∧ ∀ vk ∈ s.setVcs p, s.hasExtras vk = false ∧ ((s.cutSet p).spillFlits vk).length ≤ 64
    let sent := fun (i : Instr) (ty : Nat) => s.ev.val = 0 → s.ripe k [ty] = some p → p.extent = false →
      (s.gang? gid = none → ∃ t, exec i s = .next t ∧ after t ∧ Posts s t k p 0 0 0 ∧ t.mem = s.mem ∧ t.slots = s.slots) ∧
      (s.gang? gid = some g → q.issued = [] → (∀ vk ∈ s.vcsOf gid, s.canQuiesce vk = true) → (s.vcsOf gid).Nodup →
        ∃ t z, exec i s = .next t ∧ after t ∧ (t.queue k).issued = [z] ∧ z.index = p.index ∧ z.step = 1 ∧
          ∀ vk ∈ s.vcsOf gid, (t.vc vk).quiescing = true)
    sent .quiescePacket 7 ∧ sent .freezePacket 9 ∧
    (s.quiesceAt k s.ev.ix 1 = some p → fits p → p.buf = 0 → ∃ t, exec .quiesceCut s = .next t ∧ Posts s t k p 0 0 0 ∧
      (∀ j ∈ s.setOf p, (t.gang j).quiesced = true ∨ s.gang? j = none) ∧ t.mem = s.mem ∧ t.slots = s.slots ∧
      (p.freezes = true → p.extent = false → s.gang? gid = some g → ∀ vk c, mine vk → (s.vc vk).place = some c → (t.core c).frozen = true)) ∧
    (s.quiesceAt k s.ev.ix 1 = some p → fits p → p.buf ≠ 0 → ∃ t, exec .quiesceCut s = .next t ∧
      (t.queue k).posting = q.posting ∧ ∃ z ∈ (t.queue k).issued, z.index = p.index ∧ z.step = 2) ∧
    (∀ n vk, s.quiesceAt k s.ev.ix 1 = some p → p.timeout = some n → n ≤ s.now → p.moved = 0 → s.setVcs p = [vk] →
      (s.vc vk).place.isSome = true → s.heldFor vk .quiesce = false → (s.vc vk).holds = [⟨.quiesce, true, 0⟩] →
      ∃ t, exec .quiescePointTimeout s = .next t ∧ (t.vc vk).holds = [⟨.quiesce, false, 0⟩] ∧ (t.allHeld vk = true → (t.vc vk).frozen = true) ∧
        ∀ z ∈ (t.queue k).issued, z.index = p.index → z.moved = 2) ∧
    (s.quiesceAt k s.ev.ix 2 = some p →
      let im := s.image p
      let out := if (p.word 3).toNat < im.1.length then im.2 else im.1
      let header := fun (bs : List Byte) (status : Nat) =>
        elementOf bs 8 0 = (0x4C4C4543 + 2 ^ 32 + bn p.extent * 2 ^ 48 + status * 2 ^ 56) % 2 ^ 64 ∧ elementOf bs 8 1 = im.1.length % 2 ^ 64 ∧
        elementOf bs 8 2 = ((s.setOf p).length + (s.setVcs p).length * 2 ^ 16 + s.node * 2 ^ 32) % 2 ^ 64 ∧
        ∀ i < 5, elementOf bs 8 (3 + i) % 64 = 0
      header im.1 p.moved ∧ header im.2 1 ∧ im.2.length = 64 ∧
      ∃ t, exec .cellarImageWritten s = .next t ∧ Posts s t k p 0 0 0 ∧ t.slots = s.slots ∧
        (∀ u as, s.translateBytes (k / 32) (k / 32) p.buf .write out.length = some (u, as) → t.mem = writeAt u.mem as out) ∧
        (s.translateBytes (k / 32) (k / 32) p.buf .write out.length = none → t.mem = s.mem)) ∧
    (s.ripe k [8] = some p → gid ≠ 0xFFFF →
      (s.gang? gid = none → ∃ t, exec .resumePacket s = .next t ∧ after t ∧ Posts s t k p 0 0 0 ∧ t.slots = s.slots) ∧
      (s.gang? gid = some g → g.quiesced = true → bit (p.word 0) 33 = false → ∃ t, exec .resumePacket s = .next t ∧ after t ∧
        Posts s t k p 0 0 0 ∧ (t.gang gid).quiesced = false ∧ ∀ vk, mine vk → (t.vc vk).quiescing = false) ∧
      (s.gang? gid = some g → g.quiesced = true → bit (p.word 0) 33 = true → ∃ t, exec .resumePacket s = .next t ∧
        Posts s t k p 0 0 0 ∧ (t.gang gid).terminated = true ∧ ∀ vk, mine vk → ∀ j, j / 16 = vk → (t.slot j).st = .empty))

/-! The host, the command processors, the firmware, the package, the fabric. -/

/-- R271 to R273, R292, R373, R375: host writes of the registers of a function: tails and heads, enabling and
disabling a queue, groups, descriptor words while the queue is disabled, the request ring, MSI-X masks. The operands
in ev are the model's (log entry 2). -/
def Obligations.HostRegisters : Prop :=
  ∀ s : State, s.hostLink = true →
    let k := s.ev.key
    let f := k % 8
    let v := s.ev.val
    let q := s.queue k
    let x := s.func f
    let gi := v.toNat % 256
    (q.en = true → ∃ t, exec .doorbell s = .next t ∧ (t.queue k).tail = v.toNat % 65536 % q.count ∧ (t.queue k).head = q.head ∧
      (∀ j, j ≠ k → t.queue j = s.queue j) ∧ t.mem = s.mem) ∧
    (q.en = false → bit v 0 = true → 4 ≤ bits v 6 2 → bits v 6 2 ≤ 16 → 4 ≤ q.lgcr → q.lgcr ≤ 16 → ∃ t, exec .queueEnable s = .next t ∧
      (t.queue k).en = true ∧ (t.queue k).stopped = false ∧ (t.queue k).lgsz = bits v 6 2 ∧ (t.queue k).base = bits v 63 7 ∧
      (t.queue k).memva = bit v 1 ∧ (t.queue k).head = (if q.skip then (q.head + 1) % 2 ^ bits v 6 2 else q.head) ∧
      (t.queue k).tail = q.tail ∧ (∀ j, j ≠ k → t.queue j = s.queue j)) ∧
    (q.en = true → bit v 0 = false → ∃ t, exec .queueDisable s = .next t ∧ (t.queue k).en = false ∧ (t.queue k).front = none ∧
      (t.queue k).head = q.head ∧ (t.queue k).issued = q.issued ∧ t.gangs = s.gangs ∧ t.mem = s.mem) ∧
    (∃ t, exec .completionHeadWrite s = .next t ∧ (t.queue k).chead = v.setWidth 16 ∧ (t.queue k).ctail = q.ctail ∧ t.mem = s.mem) ∧
    (∀ g, s.freeGroup = some g → ∃ t, exec .galloc s = .next t ∧ t.hostRead = BitVec.ofNat 64 (2 ^ 63 + g) ∧ (t.group g).valid = true ∧
      (t.group g).owner = f ∧ (t.group g).own = false ∧ ∀ j, j ≠ g → t.group j = s.group j) ∧
    (s.freeGroup = none → ∃ t, exec .galloc s = .next t ∧ t.hostRead = 0 ∧ t.groups = s.groups) ∧
    ((s.group gi).valid = true → (s.group gi).own = false → (s.group gi).owner = f → s.membersOf gi = [] →
      ∃ t, exec .gfree s = .next t ∧ (t.group gi).valid = false ∧ ∀ j, j ≠ gi → t.group j = s.group j) ∧
    ((s.group gi).own = true ∨ (s.group gi).owner ≠ f ∨ s.membersOf gi ≠ [] → exec .gfree s = .next s) ∧
    (∀ n i, s.ev.data.headD 0 = 0 → n < 32 → i < 16 → s.ev.ix = 0x1000 + 0x80 * n + 8 * i →
      let z := s.queue (queueKey f n)
      (z.en = true → exec .registerWrite s = .next s) ∧
      (z.en = false → i = 1 → ∃ t, exec .registerWrite s = .next t ∧ (t.queue (queueKey f n)).prio = bits v 6 0 ∧
        (t.queue (queueKey f n)).pre = bit v 7 ∧ (t.queue (queueKey f n)).weight = max 1 (bits v 15 8) ∧
        (t.queue (queueKey f n)).opmask = (v >>> 16).setWidth 16 ∧ ∀ d, FMap.get? (t.die d).deficit (queueKey f n) = none) ∧
      (z.en = false → i = 3 → ∃ t, exec .registerWrite s = .next t ∧ (t.queue (queueKey f n)).lgcr = bits v 4 0 ∧
        (t.queue (queueKey f n)).cbase = bits v 63 6) ∧
      (z.en = false → i = 4 → ∃ t, exec .registerWrite s = .next t ∧ (t.queue (queueKey f n)).ebase = bits v 63 6)) ∧
    (s.ev.data.headD 0 = 0 → s.ev.ix = 0x3010 → 1024 ≤ bits v 16 0 → bits v 16 0 ≤ 65536 → ∃ t, exec .registerWrite s = .next t ∧
      (t.die f).lvlint = bits v 16 0) ∧
    (s.ev.data.headD 0 = 1 → s.ev.ix = 0 → x.ringEn = false → bit v 0 = true → 4 ≤ bits v 4 1 → bits v 4 1 ≤ 12 →
      ∃ t, exec .registerWrite s = .next t ∧ (t.func f).ringEn = true ∧ (t.func f).ringLg = bits v 4 1 ∧
        (t.func f).ringBase = bits v 63 6) ∧
    (s.ev.data.headD 0 = 2 → s.ev.ix < 33 → bit v 0 = true → ∃ t, exec .registerWrite s = .next t ∧
      (t.func f).masked.getLsbD s.ev.ix = true ∧ (t.func f).fired = x.fired) ∧
    (s.ev.data.headD 0 = 2 → s.ev.ix < 33 → bit v 0 = false → x.pending.getLsbD s.ev.ix = true → ∃ t, exec .registerWrite s = .next t ∧
      (t.func f).masked.getLsbD s.ev.ix = false ∧ (t.func f).pending.getLsbD s.ev.ix = false ∧
      (t.func f).fired = x.fired ++ [s.ev.ix]) ∧
    (x.ringEn = true → ∃ t, exec .requestRingDoorbell s = .next t ∧ (t.func f).frtail = v.toNat % 65536 % 2 ^ x.ringLg ∧
      (t.func f).frhead = x.frhead ∧ t.mem = s.mem)

/-- R274 to R283, R436: a packet is fetched and checked, stops its queue when it is malformed, issues in order, has
its effect, and its completion is written to the ring. The operands in ev are the model's (log entry 2). The entries of a
WAIT are read one after the other (R268). Free words and corners: log entries 9, 35, 46, 91. -/
def Obligations.Packets : Prop :=
  ∀ (s : State) (p : Packet) (c : Completion) (rest : List Completion),
    let k := s.ev.key
    let f := k / 32
    let q := s.queue k
    let ix := q.head % q.count
    let z : Packet := { index := ix, words := wordsOfBytes (Memory.bytes s.mem (hostAddr (q.base * 128 + 64 * ix)) 64) }
    let after := fun (t : State) => (t.queue k).front = none ∧ (t.queue k).head = (q.head + 1) % q.count
    let e := p.entry p.moved
    let die := s.die (e / 2 ^ 12 % 8)
    let holds : Prop := die.failed = false ∧
      let w := (Memory.word s.mem (sigAddr (e / 2 ^ 12 % 8) (8 * (e % 2 ^ 12)))).toNat
      (e / 2 ^ 15 % 4 = 0 ∧ e / 2 ^ 17 ≤ w) ∨ (e / 2 ^ 15 % 4 = 1 ∧ w < e / 2 ^ 17) ∨ (e / 2 ^ 15 % 4 = 2 ∧ w = e / 2 ^ 17) ∨
        (e / 2 ^ 15 % 4 = 3 ∧ w ≠ e / 2 ^ 17)
    let last := p.moved + 1 = p.n
    let wait := fun (i : Instr) (ty : Nat) (turn : Prop) => s.ripe k [ty] = some p → s.ripe k [4, 5] = some p → p.type = ty → turn →
      p.readAt ≠ s.now + 1 →
      let ends := fun (value : Nat) => ∃ t, exec i s = .next t ∧ after t ∧ Posts s t k p 0 value 0 ∧ t.mem = s.mem
      let goes := fun (moved step : Nat) => ∃ t, exec i s = .next t ∧
        (t.queue k).front = some { p with moved := moved, step := step, readAt := s.now + 1 } ∧ (t.queue k).head = q.head ∧
        (t.queue k).posting = q.posting ∧ t.mem = s.mem
      (die.tested = false → exec i s = .next s) ∧
      (die.tested = true → holds → (ty = 4 → last → ends 0) ∧ (ty = 4 → ¬ last → goes (p.moved + 1) p.step) ∧ (ty = 5 → ends p.moved)) ∧
      (die.tested = true → ¬ holds → ty = 4 ∨ last → (p.moved = 0 → p.step = 1 → exec i s = .next s) ∧
        (p.moved ≠ 0 ∨ p.step ≠ 1 → goes 0 1)) ∧
      (die.tested = true → ¬ holds → ty = 5 → ¬ last → goes (p.moved + 1) p.step)
    (s.svc ≠ 0 → q.canFetch = true → q.memva = false → s.hostFail = false →
      (s.malformed z = false → q.opmask.getLsbD z.type = true → z.type ∈ ([0, 3, 4, 5] : List Nat) → ∃ t, exec .packetFetch s = .next t ∧
        (t.queue k).front = some z ∧ (t.queue k).head = q.head ∧ t.mem = s.mem) ∧
      (s.malformed z = true ∨ q.opmask.getLsbD z.type = false → ∃ t, exec .packetFetch s = .next t ∧ (t.queue k).front = none ∧
        (t.queue k).stopped = true ∧ (t.queue k).head = q.head ∧ (s.hostWriteFail = false → Memory.word t.mem (hostAddr (q.ebase * 64)) =
          BitVec.ofNat 64 ((if s.malformed z = true then 3 else 1) + 256 * z.type + 65536 * ix)))) ∧
    (s.ripe k [0] = some p → ∃ t, exec .nopPacket s = .next t ∧ after t ∧ Posts s t k p 0 0 0 ∧ t.mem = s.mem ∧ t.slots = s.slots) ∧
    (s.ev.val = 0 → s.ripe k [2] = some p → ∃ t, exec .copyPacket s = .next t ∧ after t ∧
      (t.queue k).issued = q.issued ++ [{ p with issued := true }] ∧ t.mem = s.mem) ∧
    (s.ev.val = 1 → s.ev.ix = 1 → q.issued.find? (fun y => y.type == 2) = some p → p.srcSpace = 5 → p.dstSpace = 5 → s.hostFail = false →
      s.hostWriteFail = false →
      let src := hostAddr ((p.word 1).toNat + p.moved)
      let dst := hostAddr ((p.word 2).toNat + p.moved)
      ∃ t, exec .copyPacket s = .next t ∧
        (∀ j, Memory.read t.mem j = if dst ≤ j ∧ j < dst + 8 then Memory.read s.mem (src + (j - dst)) else Memory.read s.mem j) ∧
        (p.len ≤ p.moved + 8 → Posts s t k p 0 ((p.moved + 8) % 2 ^ 32) 0) ∧
        (p.moved + 8 < p.len → (t.queue k).posting = q.posting ∧ { p with moved := p.moved + 8 } ∈ (t.queue k).issued)) ∧
    (let w := p.word 1
     let a := sigAddr (bits w 26 24) (ptrOff w)
     s.ev.val = 0 → s.ripe k [3] = some p → s.ownNode (ptrNode w) = true → (s.die (bits w 26 24)).tested = true → (s.die (bits w 26 24)).failed = false →
      ∃ t, exec .signalPacket s = .next t ∧ after t ∧ Posts s t k p 0 0 0 ∧
        Memory.word t.mem a = (if p.op = 1 then Memory.word s.mem a + p.word 2 else p.word 2) ∧ (p.op = 2 → t.isFull a = true) ∧
        ∀ j, ¬(a ≤ j ∧ j < a + 8) → Memory.read t.mem j = Memory.read s.mem j) ∧
    (let w := p.word 1
     s.ev.val = 0 → s.ripe k [3] = some p → s.ownNode (ptrNode w) = true → (s.die (bits w 26 24)).tested = true →
      (s.die (bits w 26 24)).failed = true → ∃ t, exec .signalPacket s = .next t ∧ after t ∧ Posts s t k p 0 0 0 ∧ t.mem = s.mem) ∧
    wait .waitAll 4 (p.step = 0 ∧ p.moved = 0) ∧ wait .waitAny 5 (p.step = 0 ∧ p.moved = 0) ∧
    wait .waitEvaluation 4 (p.step = 1 ∨ p.moved ≠ 0) ∧ wait .waitEvaluation 5 (p.step = 1 ∨ p.moved ≠ 0) ∧
    (s.ripe k [6] = some p → s.vqueueFull = true → exec .vintnerPacket s = .next s) ∧
    (∀ u b, s.ripe k [6] = some p → s.vqueueFull = false → p.vkind = 0 ∧ u = s ∧ b = [] ∨
        p.vkind ≠ 0 ∧ s.readVaWords f f (p.word 2).toNat (vblockWords p.vkind) = some (u, b) → vblockOk p.vkind b = true →
      ∃ t o, exec .vintnerPacket s = .next t ∧ after t ∧ t.vops = u.vops ++ [o] ∧ o.kind = p.vkind ∧ o.grp = bits (p.word 1) 7 0 ∧
        o.params = b ∧ o.members = u.membersOf o.grp ∧ o.packet = some (k, p.index, (p.word 3).toNat) ∧ o.stage = .queued ∧
        t.mem = u.mem) ∧
    (s.ripe k [6] = some p → s.vqueueFull = false → p.vkind ≠ 0 → s.readVaWords f f (p.word 2).toNat (vblockWords p.vkind) = none →
      ∃ t o, exec .vintnerPacket s = .next t ∧ after t ∧ t.vops = s.vops ++ [o] ∧ o.stage = .done ∧ o.status = 7 ∧ t.mem = s.mem) ∧
    (q.posting = c :: rest → c.cs = none → q.recFault = false →
      (c.cr = false → ∃ t, exec .packetCompletion s = .next t ∧ (t.queue k).posting = rest ∧ (t.queue k).ctail = q.ctail ∧
        t.mem = s.mem) ∧
      (c.cr = true → q.recordRoom = false → exec .packetCompletion s = .next s) ∧
      (c.cr = true → q.recordRoom = true → q.memva = false → s.hostWriteFail = false → ∃ t, exec .packetCompletion s = .next t ∧
        (t.queue k).posting = rest ∧ (t.queue k).ctail = q.ctail + 1 ∧
        Memory.word t.mem (hostAddr q.recordAt) = c.word0 ∧ Memory.word t.mem (hostAddr q.recordAt + 8) = c.word1 ∧
        (∀ j, ¬(hostAddr q.recordAt ≤ j ∧ j < hostAddr q.recordAt + 16) → Memory.read t.mem j = Memory.read s.mem j) ∧
        ((s.func f).masked.getLsbD (k % 32) = false → (t.func f).fired = (s.func f).fired ++ [k % 32])))

/-- R378, R379: MAP of pages at one address, for function f with the request w that fwRequest gives, not malformed: the refusals
1, 3 and 4 of Table 15.3, and one page of 64 KiB whose tables are there: its leaf, its page taken from the pools and zeroed. ans is
the answered word of a status. -/
def Sys2Proof.Claim.MapDone (s : State) (f : Nat) (w : List Word) (slot : Nat) (ans : Nat → Word) : Prop :=
  let va := (w.getD 1 0).toNat
  let n := (w.getD 2 0).toNat
  let pa3 := (w.getD 3 0).toNat
  let o := w.getD 4 0
  let space := bits o 2 0
  let ft := bit o 6
  let lg := if bits o 8 7 = 0 then 16 else if bits o 8 7 = 1 then 21 else 29
  let fails := fun (st : Nat) => ∃ t, exec .mapRequest s = .next t ∧ Memory.word t.mem slot = ans st ∧ t.dies = s.dies ∧
    (∀ j, ¬(slot ≤ j ∧ j < slot + 64) → Memory.read t.mem j = Memory.read s.mem j)
  let legal := bits o 8 7 < 3 ∧ space ≤ 3 ∧ va % 2 ^ lg = 0 ∧ n % 2 ^ lg = 0 ∧ pa3 % 2 ^ lg = 0 ∧ (ft = true → space = 0) ∧
    (space = 0 → pa3 = 0) ∧ va + n ≤ 2 ^ 52 ∧ pa3 + n ≤ 2 ^ 52
  let unmapped := ∀ i < n / 65536, s.walk f (va + 65536 * i) = none
  let entry := fun (table lo width : Nat) => hbmAddr (table + 8 * (va / 2 ^ lo % 2 ^ width))
  let tableAt := fun (a : Nat) => pteOk (Memory.word s.mem a) = true ∧ pteLeaf (Memory.word s.mem a) = false
  (va % 2 ^ lg ≠ 0 ∨ n % 2 ^ lg ≠ 0 ∨ pa3 % 2 ^ lg ≠ 0 ∨ ft = true ∧ space ≠ 0 ∨ space = 0 ∧ pa3 ≠ 0 → fails 1) ∧
  (legal → ¬ unmapped → fails 3) ∧
  (legal → unmapped → 0 < n → space = 0 → ft = false → (∀ e ∈ (s.die f).pool, e.2.1 = lg → e.2.2.2 = 0) → fails 4) ∧
  (∀ root, legal → unmapped → 0 < n → space ≠ 0 ∨ ft = true → (s.func f).root = some root → pteOk (Memory.word s.mem (entry root 42 10)) = false →
    16384 ≤ (s.func f).tables → fails 4) ∧
  (∀ root,
    let a3 := entry root 42 10
    let a2 := entry (ptePa (Memory.word s.mem a3)) 29 13
    let a1 := entry (ptePa (Memory.word s.mem a2)) 21 8
    let a0 := entry (ptePa (Memory.word s.mem a1)) 16 5
    let leaf := fun (at_ : Nat) => BitVec.ofNat 64 (3 + bits o 5 3 * 4 + bn ft * 32 + space * 64 + at_)
    legal → n = 65536 → bits o 8 7 = 0 → (s.func f).root = some root → tableAt a3 → tableAt a2 → tableAt a1 →
    pteOk (Memory.word s.mem a0) = false → a0 + 8 ≤ hostAddr 0 →
    (space ≠ 0 ∨ ft = true → ∃ t, exec .mapRequest s = .next t ∧ Memory.word t.mem slot = ans 0 ∧ t.dies = s.dies ∧
      Memory.word t.mem a0 = leaf (if ft = true then 0 else pa3) ∧
      ∀ j, ¬(slot ≤ j ∧ j < slot + 64) → ¬(a0 ≤ j ∧ j < a0 + 8) → Memory.read t.mem j = Memory.read s.mem j) ∧
    (∀ pa rest, space = 0 → ft = false → takePage (s.die f).pool 16 = some (pa, rest) → hbmAddr pa + 65536 ≤ hostAddr 0 →
      (∀ a ∈ [a0, a1, a2, a3], a + 8 ≤ hbmAddr pa ∨ hbmAddr pa + 65536 ≤ a) →
      ∃ t, exec .mapRequest s = .next t ∧ Memory.word t.mem slot = ans 0 ∧ (t.die f).pool = rest ∧ Memory.word t.mem a0 = leaf pa ∧
        (∀ j < 65536, Memory.read t.mem (hbmAddr pa + j) = 0) ∧
        ∀ j, ¬(slot ≤ j ∧ j < slot + 64) → ¬(a0 ≤ j ∧ j < a0 + 8) → ¬(hbmAddr pa ≤ j ∧ j < hbmAddr pa + 65536) →
          Memory.read t.mem j = Memory.read s.mem j))

/-- R385: the 256 bytes of an attestation report over a nonce. The identity key and the nonce of a signature are free (log entry 11). -/
def Sys2Proof.Claim.ReportIs (s : State) (nonce b : List Byte) : Prop :=
  let at_ := fun (off n : Nat) => (b.drop off).take n
  b.length = 256 ∧ at_ 0 32 = nonce ∧ at_ 32 32 = sha256 s.mlog.flatten ∧ at_ 64 4 = bytesOf s.mlog.length 4 ∧
  at_ 68 60 = List.replicate 60 0 ∧ at_ 128 64 = s.signHash (sha256 (at_ 0 128)) ∧ at_ 192 32 = sha256 devicePublic ∧
  at_ 224 32 = List.replicate 32 0

/-- R369: the refusals of RESTORE of an image im that the firmware has read in state u, with the public key that the request supplies:
magic, ver and status; the hash; the signature under a key whose hash the image names; an extent; a job id or a group in use; a
device image beside live gangs. -/
def Sys2Proof.Claim.Refused (u : State) (im : List Byte) (key : Option (List Byte)) : Prop :=
  let w0 := imWord im 0
  let at_ := fun (off n : Nat) => (im.drop (sectionOff im 4 + off)).take n
  let hash := sha256 (im.take (sectionOff im 4))
  bits w0 31 0 ≠ 0x4C4C4543 ∨ bits w0 47 32 ≠ 1 ∨ bits w0 63 56 ≠ 0 ∧ bits w0 63 56 ≠ 2 ∨ at_ 0 32 ≠ hash ∨
  (∃ x, key = some x ∧ sha256 x = at_ 96 32 ∧ ecdsaVerify x hash (at_ 32 64) = false) ∨
  (∃ i < (imWord im (sectionOff im 3)).toNat,
    let e := imWords im (sectionOff im 3 + 136 + 64 * i) 8
    let e0 := e.getD 0 0
    let fn := bits e0 5 3
    let gs := granules (e.getD 1 0).toNat (e.getD 2 0).toNat
    (∃ va ∈ gs, u.walk fn va = none) ∨ (∃ va ∈ gs, ∃ a l g, u.walk fn va = some (a, l, g) ∧ bits l 4 2 &&& bits e0 9 7 ≠ bits e0 9 7) ∨
    bit e0 6 = true ∧ sha256 (gs.flatMap (u.granuleBytes fn)) ≠ bytesOfWords ((e.drop 4).take 4)) ∨
  (∃ i < imGangs im, ∃ q ∈ u.gangs, q.2.job = bits ((imGang im i).getD 0 0) 31 16 ∧ q.2.job ≠ 0) ∨
  (∃ g < 256, bit ((imWords im (sectionOff im 0 + 16 * g) 2).headD 0) 0 = true ∧ (u.group g).valid = true) ∨
  (bit w0 48 = true ∧ u.gangs ≠ [])

/-- R376 to R380, R374, R385, R369: a request at frhead is answered in its slot, frhead moves on; what each request sets: a page
mapped, the report of ATTEST, what RESTORE refuses; one with a reserved bit changes nothing; a function-level reset. The operands in
ev are the model's (log entry 2). Corners of the requests, keys and table pages: log entries 10, 11, 29, 48. -/
def Obligations.FirmwareRequests : Prop :=
  ∀ (s : State) (w : List Word),
    let f := s.ev.key % 8
    let x := s.func f
    let w0 := w.getD 0 0
    let answered := fun (u t : State) (st : Nat) =>
      Memory.word t.mem (u.requestAt f) = ((w0 &&& 0x7FFFFFFFFFFF00FF) ||| BitVec.ofNat 64 (2 ^ 63 + st * 256)) ∧
      (t.func f).frhead = ((u.func f).frhead + 1) % (u.func f).count ∧ t.dies = u.dies ∧ t.vcs = u.vcs ∧ t.slots = u.slots ∧
      t.gangs = u.gangs ∧ t.plim = u.plim
    let all : Word := BitVec.allOnes 64
    let bad := fun (l : List Word) => ∃ i < 8, (w.getD i 0) &&& ~~~ ((((0xFFFF00FF : Word) :: l) ++ [0, 0, 0, 0, 0, 0, 0]).getD i 0) ≠ 0
    let each := fun (i : Instr) (code : Nat) (l : List Word) (act : Nat → List Word → State → Nat × List Word × State) =>
      s.fwRequest f = some w → bits w0 7 0 = code →
        (bad l → ∃ t, exec i s = .next t ∧ answered s t 1) ∧
        (¬ bad l → ∀ st resp u, act f w s = (st, resp, u) → ∃ t, exec i s = .next t ∧
          answered (if st = 0 then u else s) t st)
    let called := fun (code : Nat) (l : List Word) => s.fwRequest f = some w ∧ bits w0 7 0 = code ∧ ¬ bad l
    let w1 := w.getD 1 0
    let w2 := w.getD 2 0
    let vk := vkey (bits w1 15 0) (bits w1 31 16)
    let dst := gcidOf (bits w2 2 0) (bits w2 7 4) (bits w2 11 8)
    each .mapRequest 1 [all, all, all, 0x1FF] State.fwMap ∧ each .unmapRequest 2 [all, all] State.fwUnmap ∧
    each .logbaseRequest 3 [0xFF, all] State.fwLogbase ∧ each .peergrantRequest 4 [0xFF] State.fwPeergrant ∧
    each .returnRequest 5 [0xFFFFFFFF, 0xFF7] State.fwReturn ∧ each .restoreRequest 6 [all, all, all] State.fwRestore ∧
    each .attestRequest 7 [all, all] State.fwAttest ∧ each .powercapRequest 8 [0xFFFF] State.fwPowercap ∧
    (called 1 [all, all, all, 0x1FF] → MapDone s f w (s.requestAt f)
      (fun st => (w0 &&& 0x7FFFFFFFFFFF00FF) ||| BitVec.ofNat 64 (2 ^ 63 + st * 256))) ∧
    (called 7 [all, all] → (f ≠ 4 → ∃ t, exec .attestRequest s = .next t ∧ answered s t 2) ∧
      ∀ u nonce v as, f = 4 → s.readVa 4 4 w1.toNat 32 = some (u, nonce) → u.translateBytes 4 4 w2.toNat .write 256 = some (v, as) →
        ∃ t report, exec .attestRequest s = .next t ∧ ReportIs u nonce report ∧
          answered { v with mem := writeAt v.mem as report } t 0 ∧
          ∀ j, ¬(v.requestAt f ≤ j ∧ j < v.requestAt f + 64) → Memory.read t.mem j = Memory.read (writeAt v.mem as report) j) ∧
    (called 6 [all, all, all] → (s.readVa 4 f w1.toNat w2.toNat = none → ∃ t, exec .restoreRequest s = .next t ∧ answered s t 5) ∧
      ∀ u im, s.readVa 4 f w1.toNat w2.toNat = some (u, im) →
        let key := if w.getD 3 0 = 0 then some (u, none) else (u.readVa 4 f (w.getD 3 0).toNat 64).map (fun r => (r.1, some r.2))
        ∀ v x, key = some (v, x) → (Refused v im x → ∃ t, exec .restoreRequest s = .next t ∧ answered s t 5) ∧
          (v.imageOk im x = true → 0 < imGangs im → v.findPlace (gangOf (imGang im 0)) = none →
            ∃ t, exec .restoreRequest s = .next t ∧ answered s t 6)) ∧
    (s.fwRequest f = some w → bits w0 7 0 = 0 ∨ 8 < bits w0 7 0 → ∃ t, exec .mapRequest s = .next t ∧ answered s t 1) ∧
    (∀ a e, called 2 [all, all] → w1.toNat % 65536 = 0 → w2.toNat = 65536 → s.walk f w1.toNat = some (a, e, 16) → a + 8 ≤ hostAddr 0 →
      ∃ t, exec .unmapRequest s = .next t ∧ Memory.word t.mem a = 0 ∧
        ∀ d z, z ∈ (t.die d).tlb → z.fn = f → z.va * 2 ^ z.lg < w1.toNat + 65536 → (z.va + 1) * 2 ^ z.lg ≤ w1.toNat) ∧
    (called 3 [0xFF, all] → w2.toNat % 64 = 0 → (s.group (bits w1 7 0)).valid = true → (s.group (bits w1 7 0)).owner = f →
      (∀ o ∈ s.vops, o.kind = 3 → o.grp ≠ bits w1 7 0) → ∃ t, exec .logbaseRequest s = .next t ∧ answered s t 0 ∧
        (t.vgroup (bits w1 7 0)).logBase = w2.toNat) ∧
    (called 4 [0xFF] → ∃ t, exec .peergrantRequest s = .next t ∧ answered s t 0 ∧ (t.func f).peers = w1.setWidth 8) ∧
    (called 5 [0xFFFFFFFF, 0xFF7] → 4 ≤ bits w2 2 0 → (s.gang? (bits w1 15 0)).isSome = true →
      (s.gang (bits w1 15 0)).func = f → (s.vc vk).live = true → (s.vc vk).holds = [] → (s.vc vk).move = none →
      (s.vc vk).place.isSome = true → (s.vc vk).lead = none → s.entriesFor vk = true → bits w2 7 4 < 12 → bits w2 11 8 < 12 →
      s.coreFree dst = true → s.fixedAway dst none = false → ∃ t m, exec .returnRequest s = .next t ∧ (t.vc vk).move = some m ∧
        m.status = 2 ∧ m.step = 1 ∧ m.src = s.coreOf vk ∧ m.dst = dst ∧ (t.core dst).reserved = true ∧ (t.core dst).mig = true) ∧
    (called 8 [0xFFFF] → 1500 ≤ bits w1 15 0 → bits w1 15 0 ≤ 6000 → f = 4 → ∃ t, exec .powercapRequest s = .next t ∧
      answered { s with plim := bits w1 15 0 } t 0) ∧
    (called 8 [0xFFFF] → 1500 ≤ bits w1 15 0 → bits w1 15 0 ≤ 6000 → f ≠ 4 → ∃ t, exec .powercapRequest s = .next t ∧
      answered s t 2) ∧
    (s.hostLink = true → ∃ t, exec .functionLevelReset s = .next t ∧
      (∀ n, n < 32 → (t.queue (queueKey f n)).en = false ∧ (t.queue (queueKey f n)).front = none) ∧ (t.func f).ringEn = false ∧
      (t.func f).peers = x.peers ∧ (∀ g z, t.gang? g = some z → z.func = f → z.terminated = true ∧ z.silent = true) ∧
      ∀ g, (t.group g).valid = true → (t.group g).own = false → (t.group g).owner ≠ f)

/-- R320, R381 to R384, R386: the boot, the self-tests, the service clock, the power control, the junction limits,
failures. The operands in ev are the model's (log entry 2). What boot and sensors find, clocks, failures, a map of
too few cores: log entries 11, 14, 37, 49, 98. -/
def Obligations.BootAndPower : Prop :=
  ∀ s : State,
    let k := s.ev.key
    let d := k % 8
    let v := s.ev.val
    let data := fun (i : Nat) => s.ev.data.getD i 0
    let temp : BitVec 16 := v.setWidth 16
    let least := fun (j : Nat) => if isF j then 184 else 140
    let tj := fun (j : Nat) => ((data (j + 1)).setWidth 16 : BitVec 16)
    let sound := bit v 0 = true ∧ Config.rollbackCounter.toNat ≤ (data 0).toNat ∧ sha256 (bootKey s.ev.data) = s.keyHash ∧
      ecdsaVerify (bootKey s.ev.data) (bootHash s.ev.data) (bootSignature s.ev.data) = true
    (s.boot = .off → sound → ∃ t, exec .perstRelease s = .next t ∧ t.boot = .running ∧ t.hostLink = true ∧ t.dims = fabricDims (data 2) ∧
      (∀ i < 4, 1 ≤ t.dims.getD i 1 ∧ t.dims.getD i 1 ≤ (if i < 2 then 4 else 32)) ∧ t.node < 16384 ∧ t.tierCap ≤ 4096 * 10 ^ 9 ∧
      (∀ i ∈ t.tierPorts, i < 8 ∧ (data 3).getLsbD i = true) ∧ (∀ f, f < 8 → (t.func f).root = some (tablePage f 0)) ∧
      t.mlog.head? = some (bootHash s.ev.data) ∧ t.mem = s.mem ∧ t.dies = s.dies ∧ t.slots = s.slots) ∧
    (s.boot = .off → ¬ sound → exec .perstRelease s = .next { s with boot := .rejected }) ∧
    (s.boot = .running → (s.die d).tested = false → (isF d = true → s.svc ≠ 0) →
      (bit v 0 = false ∨ (enabledCores d s.ev.data).length < least d → ∃ t, exec .dieSelfTestEnd s = .next t ∧ (t.die d).failed = true ∧
        (t.die d).tested = true ∧ (t.die d).up = (s.die d).up ∧ t.svc = s.svc ∧ t.mem = s.mem) ∧
      (bit v 0 = true → least d ≤ (enabledCores d s.ev.data).length → ∃ t, exec .dieSelfTestEnd s = .next t ∧ (t.die d).up = true ∧
        (t.die d).cyc = 0 ∧ (t.die d).clock = (if isF d then 20 else 12) ∧ (t.die d).bringup = !isF d ∧
        (∀ g ∈ enabledCores d s.ev.data, (t.core g).en = true ∧ (t.core g).handler = true) ∧
        t.svc = (if d = 4 then max 1 s.svc else s.svc) ∧ ∀ j, j ≠ d → t.die j = s.die j)) ∧
    (s.svc = 1 → (∀ j, j < 8 → (s.die j).up = true) → (∀ x ∈ s.dies, x.2.service = false) → ∃ t, exec .serviceClockChange s = .next t ∧
      t.svc = 1 ∧ (∀ j, isF j = true → t.die j = s.die j) ∧
      ∀ j, isF j = false → (s.die j).up = true → (t.die j).service = true ∧ (t.die j).bringup = (s.die j).bringup ∧
        (t.die j).clock = (s.die j).clock ∧ (t.die j).changeAt = rotationsMeet s.now ∧ ((s.die j).hot = false → (t.die j).newClock = some 16)) ∧
    (∀ x : Die, x.service = true → (x.cyc + 1) % 16 = 0 → x.changeAt ≤ x.nextAt → x.cycle.bringup = false ∧ x.cycle.clock = x.newClock.getD x.clock) ∧
    (∀ x : Die, (x.cyc + 1) % 16 ≠ 0 ∨ x.nextAt < x.changeAt → x.cycle.bringup = x.bringup ∧ x.cycle.clock = x.clock) ∧
    (s.svc = 1 → (∃ x ∈ s.dies, x.2.service = true) → ((∀ x ∈ s.dies, x.2.bringup = false) → s.inService.svc = 2) ∧
      ((∃ x ∈ s.dies, x.2.bringup = true) → s.inService.svc = 1)) ∧
    ((∃ j, j < 8 ∧ (s.die j).up = false) → exec .serviceClockChange s = .next s) ∧
    (s.boot = .running → s.powerAt + 1000 * usUnits ≤ s.now → ∃ t, exec .powerControlTick s = .next t ∧ t.pwr = bits v 15 0 ∧
      t.powerAt = s.now ∧ (∀ j, (s.die j).up = true →
        let c := (s.die j).newClock.getD (s.die j).clock
        (t.die j).temp = tj j ∧ (t.die j).hot = decide (1760 < (tj j).toInt) ∧
        (1760 < (tj j).toInt → (t.die j).newClock = some (if isF j then 10 else 8)) ∧
        ((tj j).toInt ≤ 1760 → s.plim < bits v 15 0 → (t.die j).newClock = some (max (if isF j then 10 else 8) (c - 1))) ∧
        ((tj j).toInt ≤ 1760 → bits v 15 0 < s.plim → c < s.topClock j → (t.die j).newClock = some (c + 1)) ∧
        (1920 < (tj j).toInt → t.hostLink = false ∧ ∀ g z, t.gang? g = some z → z.terminated = true)) ∧
      ((s.dies.map Prod.fst).Nodup → (∀ j, (s.die j).up = true → (tj j).toInt ≤ 1920) → t.hostLink = s.hostLink ∧ t.gangs = s.gangs)) ∧
    ((s.die k).up = true → 1760 < temp.toInt → ∃ t, exec .junctionOver110c s = .next t ∧ (t.die k).hot = true ∧ (t.die k).temp = temp ∧
      (t.die k).newClock = some (if isF k then 10 else 8) ∧ t.mem = s.mem ∧ t.gangs = s.gangs) ∧
    ((s.die k).up = true → 1920 < temp.toInt → ∃ t, exec .junctionOver120c s = .next t ∧ t.hostLink = false ∧ (t.die k).hot = true ∧
      ∀ g z, t.gang? g = some z → z.terminated = true) ∧
    (s.ev.ix = 0 → exec .hostReadFailure s = .next { s with hostFail := true }) ∧
    (s.ev.ix = 1 → exec .hostReadFailure s = .next { s with hostWriteFail := true }) ∧
    exec .cxlReadFailure s = .next { s with cxlFail := some (s.ev.ix % 8) } ∧
    (∀ p, (partners d).getD s.ev.ix 15 = p → p ≠ 15 → p ≠ d → ∃ t, exec .ucieModuleFail s = .next t ∧
      (t.die d).ucie = dropModule (s.die d).ucie s.ev.ix ∧ (t.die p).ucie = dropModule (s.die p).ucie (facing d s.ev.ix) ∧
      (∀ j, j ≠ d → j ≠ p → t.die j = s.die j) ∧ t.mem = s.mem)

/-- R341 to R346: a flit in sequence is taken, one with a bad CRC asks for a replay; links go down, come up or fail;
the endpoints number, deliver, acknowledge and retransmit messages; an unreachable node and its return. The operands
in ev are the model's (log entry 2). Readings of the layers, credits, notices:
log entries 26, 28, 50, 87. -/
def Obligations.SarobFabric : Prop :=
  ∀ (s : State) (m : Msg) (d : Nat) (b : Body) (fs : List Flit) (e : Sent),
    let p := s.ev.key
    let n := s.ev.ix
    let x := s.port p
    let f := s.ev.data
    let h := fs.headD []
    let left := fun (lack : Nat) => x.buffer.filter (fun g => !decide ((lack + 65536 - flitLseq g) % 65536 < 512))
    let pair := pairKey d (vnetCode m.net)
    let from_ := pairKey (flitSnode h) 0
    let acks := pairKey (flitSnode h) (bits (h.getD 2 0) 17 16)
    let covered := fun (y : Sent) => decide ((bits (h.getD 2 0) 15 0 + 65536 - y.eseq) % 65536 < 32768)
    (p < 8 → ∃ t, exec .sarobLaneFail s = .next t ∧ (t.port p).lanes = 4 ∧ ∀ j, j ≠ p → t.port j = s.port j) ∧
    (x.link = .up → crcOk f = true → flitVn f ≠ 3 → flitLseq f = x.expect → opAssigned (flitVn f) (flitOp f) = true →
      flitDnode f = s.node → ∃ t, exec .sarobFlitReceive s = .next t ∧ t.arrived = joinFlit s.arrived f ∧
        (t.port p).expect = (x.expect + 1) % 65536 ∧ (t.port p).nakSent = false ∧ t.net = s.net) ∧
    (x.link = .up → crcOk f = true → flitLseq f = x.expect → opAssigned (flitVn f) (flitOp f) = false → ∃ t,
      exec .sarobFlitReceive s = .next t ∧ t.arrived = s.arrived ∧ (t.port p).errors = x.errors + 1 ∧ t.net = s.net) ∧
    (x.link = .up → crcOk f = true → flitVn f = 3 → flitOp f = 0x32 → opAssigned 3 0x32 = true → flitLseq f = x.expect → x.waiting = [] →
      ∃ t, exec .sarobFlitReceive s = .next t ∧ FMap.getD (t.port p).spent (f.getD 2 0).toNat 0 =
        FMap.getD x.spent (f.getD 2 0).toNat 0 - (f.getD 3 0).toNat ∧ t.arrived = s.arrived) ∧
    (x.link = .up → crcOk f = false → ∃ t, exec .sarobFlitReceive s = .next t ∧ (t.port p).nakSent = true ∧
      (t.port p).expect = x.expect ∧ t.arrived = s.arrived) ∧
    (x.link ≠ .up → exec .sarobFlitReceive s = .next s) ∧
    (let kept := left (s.ev.val.toNat % 65536)
     x.link = .up → x.waiting = [] → kept ≠ [] → ∃ t, exec .sarobNakReplay s = .next t ∧ (t.port p).buffer = kept ∧
      (t.port p).replays = (if kept.length < x.buffer.length then 1 else x.replays + 1) ∧ (t.port p).next = x.next) ∧
    (x.link = .up → 16 ≤ x.replays → ∃ t, exec .sarobLinkDown s = .next t ∧ (t.port p).link = .retraining ∧
      (t.port p).downAt = s.now ∧ (t.port p).buffer = x.buffer) ∧
    (x.link = .retraining → s.now < x.downAt + 1000 * usUnits → ∃ t, exec .sarobLinkUp s = .next t ∧ (t.port p).link = .up ∧
      (t.port p).replays = 0 ∧ (t.port p).buffer = x.buffer) ∧
    (s.ev.val = 0 → x.link = .retraining → x.downAt + 1000 * usUnits ≤ s.now → (s.node, p) ∉ s.deadLinks →
      ∃ t, exec .sarobLinkFailed s = .next t ∧ (t.port p).link = .failed ∧ (s.node, p) ∈ t.deadLinks ∧ t.mem = s.mem) ∧
    (s.ev.val = 1 → s.leaves? n = some (m, d) → d ∉ s.unreachable → s.noticeWaits m d = false → m.net ≠ .reply →
      s.unackedFlits pair + (s.flitsOf m 0 false).length ≤ 1024 → ∃ t, exec .endpointDelivery s = .next t ∧ t.net = s.net.eraseIdx n ∧
        (t.out pair).next = ((s.out pair).next + 1) % 65536 ∧
        (t.out pair).sent = (s.out pair).sent ++ [{ eseq := (s.out pair).next, msg := m, due := s.now + 100 * usUnits }]) ∧
    (s.ev.val = 0 → s.arrived[n]? = some fs → (fs.getLast?).any (fun g => flitNfl g != 0) = false → flitVn h = 0 → flitOp h ≠ 0x25 →
      flitOp h ≠ 0x20 → flitOp h ≠ 5 → bodyOfFlits fs = some b → flitEseq h = (FMap.getD s.farIn from_ {}).expect →
      (FMap.getD s.farIn from_ {}).early = [] → ∃ t, exec .endpointDelivery s = .next t ∧ t.arrived = s.arrived.eraseIdx n ∧
        t.net = s.net ++ [{ src := farSource h, dst := s.localDest h, net := .request, body := b }] ∧
        (FMap.getD t.farIn from_ {}).expect = (flitEseq h + 1) % 65536) ∧
    (s.arrived[n]? = some fs → flitOp h = 0x25 → ∃ t, exec .endToEndAcknowledgement s = .next t ∧ t.arrived = s.arrived.eraseIdx n ∧
      (t.out acks).sent = (s.out acks).sent.filter (fun y => !covered y) ∧
      (t.out acks).asked = (s.out acks).asked ++ (s.out acks).sent.filter (fun y => covered y && y.msg.body.expects) ∧
      t.net = s.net) ∧
    ((s.out p).sent = [e] → e.eseq = n → e.msg.body.replies = true → e.due ≤ s.now → e.tries < 8 →
      ∃ t, exec .retransmissionTimeout s = .next t ∧ (t.out p).sent = [{ e with tries := e.tries + 1, due := s.now + 100 * usUnits }] ∧
        t.net = s.net) ∧
    (p ∉ s.unreachable → p ≠ s.node → s.hasRoute p = false → ∃ t, exec .nodeUnreachable s = .next t ∧ p ∈ t.unreachable ∧
      (t.out (pairKey p 0)).sent = [] ∧ (t.out (pairKey p 2)).sent = [] ∧ (t.out (pairKey p 0)).asked = [] ∧ t.mem = s.mem) ∧
    (s.ev.val = 0 → s.hasRoute p = true → ∃ t, exec .routeRestored s = .next t ∧ p ∉ t.unreachable ∧
      ∀ j, j ≠ p → (j ∈ t.unreachable ↔ j ∈ s.unreachable))
end

