-- ==== Sys2Proof/Laws/Home.lean ====
section
/-! SUPPORT. What taking a remote access at its home can do: when it is taken, and that it touches the bank alone. -/

namespace Sys2Proof.Machine

variable (s : State) (m : Msg)

/-- An access is taken when its message is there and its home is free for it. -/
theorem State.evAccess_eq_some : s.evAccess = some m ↔ s.evMsg = some m ∧ s.homeFree m = true := by
  simp [State.evAccess, Option.filter_eq_some_iff]

theorem State.evAccess_eq_none_of_busy (h : s.evMsg = some m) (hb : s.homeFree m = false) : s.evAccess = none := by
  simp [State.evAccess, h, Option.filter, hb]

/-- What names no word of local memory needs no bank. -/
theorem State.homeFree_of_noTarget (h : s.lmTarget m = none) : s.homeFree m = true := by simp [State.homeFree, h]

theorem State.lmTarget_sig (d : Nat) (h : m.dst = .sig d) : s.lmTarget m = none := by simp [State.lmTarget, h]

/-- Using a bank changes its core's record of the banks alone. -/
theorem State.useBank_rest : { s.useBank m with cores := s.cores } = s := by
  unfold State.useBank; split <;> rfl

theorem State.useBank_mem : (s.useBank m).mem = s.mem := by unfold State.useBank; split <;> rfl

theorem State.useBank_of_noTarget (h : s.lmTarget m = none) : s.useBank m = s := by simp [State.useBank, h]

end Sys2Proof.Machine
end

