-- ==== Sys2Proof/Laws/Maps.lean ====
section
/-! SUPPORT. Laws of sparse tables and of memory: read after write, and the canonical form every memory operation keeps. -/

namespace Sys2Proof.Machine

/-! Sparse tables. -/

theorem FMap.get?_nil {α : Type} (k : Nat) : FMap.get? ([] : FMap α) k = none := rfl

theorem FMap.get?_cons {α : Type} (p : Nat × α) (m : FMap α) (k : Nat) :
    FMap.get? (p :: m) k = if p.1 = k then some p.2 else FMap.get? m k := by
  unfold FMap.get?
  by_cases h : p.1 = k <;> simp [h]

theorem FMap.get?_del_self {α : Type} (m : FMap α) (k : Nat) : FMap.get? (FMap.del m k) k = none := by
  simp [FMap.get?, FMap.del]

theorem FMap.get?_del_ne {α : Type} (m : FMap α) {k j : Nat} (h : j ≠ k) : FMap.get? (FMap.del m k) j = FMap.get? m j := by
  induction m with
  | nil => rfl
  | cons p t ih =>
    have hc : FMap.del (p :: t) k = if p.1 = k then FMap.del t k else p :: FMap.del t k := by
      by_cases hp : p.1 = k <;> simp [FMap.del, hp]
    rw [hc, FMap.get?_cons]
    by_cases hp : p.1 = k
    · simp [hp, ih]; intro e; exact absurd e.symm h
    · simp [hp, FMap.get?_cons, ih]

theorem get?_insertSorted {α : Type} (k : Nat) (v : α) (m : FMap α) (j : Nat) (hk : FMap.get? m k = none) :
    FMap.get? (insertSorted k v m) j = if k = j then some v else FMap.get? m j := by
  induction m with
  | nil => simp [insertSorted, FMap.get?_cons]
  | cons p t ih =>
    rw [FMap.get?_cons] at hk
    have hpk : p.1 ≠ k := by intro e; simp [e] at hk
    simp only [hpk, if_false] at hk
    unfold insertSorted
    split
    · simp only [FMap.get?_cons, ih hk]
      by_cases h1 : p.1 = j
      · have : k ≠ j := fun e => hpk (h1.trans e.symm)
        simp [h1, this]
      · simp [h1]
    · simp [FMap.get?_cons]

/-- A key that has been set reads as set, every other key as before. -/
theorem FMap.get?_set {α : Type} (m : FMap α) (k : Nat) (v : α) (j : Nat) :
    FMap.get? (FMap.set m k v) j = if k = j then some v else FMap.get? m j := by
  unfold FMap.set
  rw [get?_insertSorted _ _ _ _ (FMap.get?_del_self m k)]
  by_cases h : k = j
  · simp [h]
  · simp [h, FMap.get?_del_ne m (fun e => h e.symm)]

@[simp] theorem FMap.getD_set_self {α : Type} (m : FMap α) (k : Nat) (v d : α) : FMap.getD (FMap.set m k v) k d = v := by
  simp [FMap.getD, FMap.get?_set]

theorem FMap.getD_set_ne {α : Type} (m : FMap α) {k j : Nat} (v d : α) (h : j ≠ k) :
    FMap.getD (FMap.set m k v) j d = FMap.getD m j d := by
  rw [FMap.getD, FMap.get?_set, if_neg (fun e => h e.symm), FMap.getD]

theorem FMap.getD_set {α : Type} (m : FMap α) (k j : Nat) (v d : α) :
    FMap.getD (FMap.set m k v) j d = if j = k then v else FMap.getD m j d := by
  by_cases h : j = k
  · subst h; simp
  · simp [h, FMap.getD_set_ne m v d h]

theorem insertSorted_del {α : Type} (m : FMap α) (k : Nat) (v : α) (h : FMap.get? m k = none) :
    FMap.del (insertSorted k v m) k = m := by
  induction m with
  | nil => simp [insertSorted, FMap.del]
  | cons p t ih =>
    rw [FMap.get?_cons] at h
    have hp : p.1 ≠ k := by intro e; simp [e] at h
    simp only [hp, if_false] at h
    have ht : FMap.del t k = t := by
      refine List.filter_eq_self.mpr (fun q hq => ?_)
      by_contra hc
      have : q.1 = k := by simpa using hc
      simp [FMap.get?, List.find?_eq_none] at h
      exact h q.1 q.2 hq this
    unfold insertSorted
    split
    · have := ih h
      simp only [FMap.del, List.filter_cons] at this ⊢
      simp [hp, this]
    · simp only [FMap.del, List.filter_cons] at ht ⊢
      simp [hp, ht]

/-- A key set twice is set once. -/
theorem FMap.set_set {α : Type} (m : FMap α) (k : Nat) (v w : α) : FMap.set (FMap.set m k v) k w = FMap.set m k w := by
  unfold FMap.set
  rw [insertSorted_del _ _ _ (FMap.get?_del_self m k)]

/-! The sorted form. -/

theorem risingKeys_iff (l : List Nat) : risingKeys l = true ↔ l.Pairwise (· < ·) := by
  induction l with
  | nil => simp [risingKeys]
  | cons a t ih =>
    cases t with
    | nil => simp [risingKeys]
    | cons b u =>
      simp only [risingKeys, Bool.and_eq_true, decide_eq_true_eq, ih, List.pairwise_cons]
      constructor
      · rintro ⟨hab, hb, hu⟩
        refine ⟨fun x hx => ?_, hb, hu⟩
        rcases List.mem_cons.mp hx with rfl | hx
        · exact hab
        · exact lt_trans hab (hb x hx)
      · rintro ⟨ha, hb, hu⟩
        exact ⟨ha b (by simp), hb, hu⟩

/-- Keys strictly rising, as a relation on the pairs. -/
def Sorted {α : Type} (m : List (Nat × α)) : Prop := m.Pairwise (fun p q => p.1 < q.1)

theorem sorted_iff {α : Type} (m : FMap α) : FMap.wf m = true ↔ Sorted m := by
  unfold FMap.wf Sorted
  rw [risingKeys_iff, List.pairwise_map]

theorem sorted_filter {α : Type} {m : List (Nat × α)} (p : Nat × α → Bool) (h : Sorted m) : Sorted (m.filter p) :=
  List.Pairwise.filter p h

theorem mem_insertSorted {α : Type} (k : Nat) (v : α) (m : List (Nat × α)) (q : Nat × α) :
    q ∈ insertSorted k v m ↔ q = (k, v) ∨ q ∈ m := by
  induction m with
  | nil => simp [insertSorted]
  | cons p t ih =>
    unfold insertSorted
    split
    · simp only [List.mem_cons, ih]; tauto
    · simp [List.mem_cons]

theorem sorted_insertSorted {α : Type} (k : Nat) (v : α) (m : List (Nat × α)) (h : Sorted m) (hk : ∀ q ∈ m, q.1 ≠ k) :
    Sorted (insertSorted k v m) := by
  induction m with
  | nil => simp [insertSorted, Sorted]
  | cons p t ih =>
    unfold Sorted at h
    rw [List.pairwise_cons] at h
    unfold insertSorted
    split
    · next hlt =>
      refine List.pairwise_cons.mpr ⟨fun q hq => ?_, ih h.2 (fun q hq => hk q (by simp [hq]))⟩
      rcases (mem_insertSorted k v t q).mp hq with rfl | hq
      · exact hlt
      · exact h.1 q hq
    · next hge =>
      have hp : p.1 ≠ k := hk p (by simp)
      have hkp : k < p.1 := by omega
      refine List.pairwise_cons.mpr ⟨fun q hq => ?_, List.pairwise_cons.mpr h⟩
      rcases List.mem_cons.mp hq with rfl | hq
      · exact hkp
      · exact lt_trans hkp (h.1 q hq)

theorem mem_del {α : Type} (m : FMap α) (k : Nat) (q : Nat × α) : q ∈ FMap.del m k ↔ q ∈ m ∧ q.1 ≠ k := by
  simp [FMap.del]

theorem sorted_del {α : Type} {m : FMap α} (k : Nat) (h : Sorted m) : Sorted (FMap.del m k) := sorted_filter _ h

theorem sorted_set {α : Type} {m : FMap α} (k : Nat) (v : α) (h : Sorted m) : Sorted (FMap.set m k v) :=
  sorted_insertSorted k v _ (sorted_del k h) (fun q hq => ((mem_del m k q).mp hq).2)

/-! Memory. -/

/-- Reading a byte after a byte has been written. -/
theorem Memory.read_write (m : Memory) (a j : Nat) (b : Byte) :
    Memory.read (Memory.write m a b) j = if j = a then b else Memory.read m j := by
  unfold Memory.read Memory.write
  by_cases hb : b = 0
  · subst hb
    by_cases h : j = a
    · subst h; simp [FMap.getD, FMap.get?_del_self]
    · simp [FMap.getD, FMap.get?_del_ne m h, h]
  · rw [if_neg (by simpa using hb), FMap.getD_set]

/-- Reading a byte after the low n bytes of v have been written from a. -/
theorem Memory.read_writeN (m : Memory) (a v n j : Nat) :
    Memory.read (Memory.writeN m a v n) j =
      if a ≤ j ∧ j < a + n then BitVec.ofNat 8 (v / 256 ^ (j - a)) else Memory.read m j := by
  induction n generalizing m a v with
  | zero => rw [Memory.writeN, if_neg (by omega)]
  | succ n ih =>
    rw [Memory.writeN, ih, Memory.read_write]
    by_cases h : j = a
    · subst h; simp
    · by_cases h1 : a + 1 ≤ j ∧ j < a + 1 + n
      · have h2 : a ≤ j ∧ j < a + (n + 1) := by omega
        have h3 : j - a = (j - (a + 1)) + 1 := by omega
        simp only [h1, h2, if_true, and_self]
        rw [h3, pow_succ, Nat.mul_comm, Nat.div_div_eq_div_mul]
      · have h2 : ¬ (a ≤ j ∧ j < a + (n + 1)) := by omega
        rw [if_neg h1, if_neg h2, if_neg h]

/-- Memory outside the written bytes reads as before. -/
theorem Memory.read_writeN_other (m : Memory) (a v n j : Nat) (h : j < a ∨ a + n ≤ j) :
    Memory.read (Memory.writeN m a v n) j = Memory.read m j := by
  rw [Memory.read_writeN]; split <;> first | rfl | omega

/-- A number read in full after it has been written. -/
theorem Memory.readN_writeN (m : Memory) (a v n : Nat) : Memory.readN (Memory.writeN m a v n) a n = v % 256 ^ n := by
  have key : ∀ k i, i + k = n → Memory.readN (Memory.writeN m a v n) (a + i) k = v / 256 ^ i % 256 ^ k := by
    intro k
    induction k with
    | zero => intro i _; simp [Memory.readN, Nat.mod_one]
    | succ k ih =>
      intro i hi
      have h1 : a ≤ a + i ∧ a + i < a + n := by omega
      rw [Memory.readN, Memory.read_writeN, if_pos h1, Nat.add_assoc, ih (i + 1) (by omega), Nat.add_sub_cancel_left,
        BitVec.toNat_ofNat, pow_succ (256) k, Nat.mul_comm (256 ^ k) 256, Nat.mod_mul, pow_succ, Nat.div_div_eq_div_mul]
      ring_nf
  simpa using key n 0 (by omega)

/-- The canonical form: sorted, and no zero byte listed. -/
theorem Memory.wf_iff (m : Memory) : Memory.wf m = true ↔ Sorted m ∧ ∀ c ∈ m, c.2 ≠ 0 := by
  have h : risingKeys (m.map Prod.fst) = true ↔ Sorted m := sorted_iff m
  unfold Memory.wf
  rw [Bool.and_eq_true, h]
  simp

theorem Memory.wf_nil : Memory.wf [] = true := rfl

theorem Memory.wf_write {m : Memory} (a : Nat) (b : Byte) (h : Memory.wf m = true) : Memory.wf (Memory.write m a b) = true := by
  rw [Memory.wf_iff] at h ⊢
  unfold Memory.write
  by_cases hb : b = 0
  · simp only [hb, beq_self_eq_true, if_true]
    exact ⟨sorted_del a h.1, fun c hc => h.2 c ((mem_del m a c).mp hc).1⟩
  · simp only [beq_iff_eq, hb, if_false]
    refine ⟨sorted_set a b h.1, fun c hc => ?_⟩
    rcases (mem_insertSorted a b _ c).mp hc with rfl | hc
    · exact hb
    · exact h.2 c ((mem_del m a c).mp hc).1

theorem Memory.wf_writeN {m : Memory} (a v n : Nat) (h : Memory.wf m = true) : Memory.wf (Memory.writeN m a v n) = true := by
  induction n generalizing m a v with
  | zero => exact h
  | succ n ih => exact ih _ _ (Memory.wf_write a _ h)

theorem Memory.wf_setWord {m : Memory} (a : Nat) (v : Word) (h : Memory.wf m = true) : Memory.wf (Memory.setWord m a v) = true :=
  Memory.wf_writeN a _ 8 h

theorem Memory.wf_setWords {m : Memory} (a : Nat) (l : List Word) (h : Memory.wf m = true) :
    Memory.wf (Memory.setWords m a l) = true := by
  induction l generalizing m a with
  | nil => exact h
  | cons w t ih => exact ih _ (Memory.wf_setWord a w h)

theorem Memory.wf_setBytes {m : Memory} (a : Nat) (l : List Byte) (h : Memory.wf m = true) :
    Memory.wf (Memory.setBytes m a l) = true := by
  induction l generalizing m a with
  | nil => exact h
  | cons b t ih => exact ih _ (Memory.wf_write a b h)

theorem Memory.wf_clear {m : Memory} (a n : Nat) (h : Memory.wf m = true) : Memory.wf (Memory.clear m a n) = true := by
  rw [Memory.wf_iff] at h ⊢
  exact ⟨sorted_filter _ h.1, fun c hc => h.2 c (List.mem_of_mem_filter hc)⟩

theorem Memory.read_clear (m : Memory) (a n j : Nat) :
    Memory.read (Memory.clear m a n) j = if a ≤ j ∧ j < a + n then 0 else Memory.read m j := by
  unfold Memory.read FMap.getD Memory.clear
  induction m with
  | nil => simp [FMap.get?_nil]
  | cons p t ih =>
    by_cases hp : a ≤ p.1 ∧ p.1 < a + n
    · rw [List.filter_cons_of_neg (by simpa using hp), ih, FMap.get?_cons]
      by_cases hj : p.1 = j
      · simp [← hj, hp]
      · simp [hj]
    · rw [List.filter_cons_of_pos (by simp; omega), FMap.get?_cons, FMap.get?_cons]
      by_cases hj : p.1 = j
      · simp [← hj, hp]
      · rw [if_neg hj, if_neg hj, ih]

theorem mem_mergeSorted {α : Type} (l m : List (Nat × α)) (q : Nat × α) : q ∈ mergeSorted l m ↔ q ∈ l ∨ q ∈ m := by
  induction l with
  | nil => simp [mergeSorted]
  | cons p t ih => rw [mergeSorted, mem_insertSorted, ih]; simp [or_assoc]

theorem sorted_mergeSorted {α : Type} (l m : List (Nat × α)) (hl : Sorted l) (hm : Sorted m)
    (hd : ∀ p ∈ l, ∀ q ∈ m, q.1 ≠ p.1) : Sorted (mergeSorted l m) := by
  induction l with
  | nil => exact hm
  | cons p t ih =>
    unfold Sorted at hl
    rw [List.pairwise_cons] at hl
    rw [mergeSorted]
    refine sorted_insertSorted _ _ _ (ih hl.2 (fun x hx => hd x (by simp [hx]))) (fun q hq => ?_)
    rcases (mem_mergeSorted t m q).mp hq with hq | hq
    · exact (ne_of_lt (hl.1 q hq)).symm
    · exact hd p (by simp) q hq

theorem Memory.wf_copy {m : Memory} (src dst n : Nat) (h : Memory.wf m = true) : Memory.wf (Memory.copy m src dst n) = true := by
  have hc := Memory.wf_clear dst n h
  rw [Memory.wf_iff] at h hc ⊢
  unfold Memory.copy
  refine ⟨sorted_mergeSorted _ _ ?_ hc.1 ?_, fun c hc' => ?_⟩
  · refine List.pairwise_map.mpr ((sorted_filter _ h.1).imp_of_mem ?_)
    intro p q hp hq hlt
    simp at hp hq
    show p.1 - src + dst < q.1 - src + dst
    omega
  · intro p hp q hq
    obtain ⟨r, hr, rfl⟩ := List.mem_map.mp hp
    simp at hr
    have := (List.mem_filter.mp hq).2
    simp at this
    show q.1 ≠ r.1 - src + dst
    omega
  · rcases (mem_mergeSorted _ _ c).mp hc' with hc' | hc'
    · obtain ⟨r, hr, rfl⟩ := List.mem_map.mp hc'
      exact h.2 r (List.mem_of_mem_filter hr)
    · exact hc.2 c hc'

end Sys2Proof.Machine
end

