-- ==== Sys2Proof/Laws/State.lean ====
section
/-! SUPPORT. The fields of the state after each update: one lemma per field and update. Then what each keyed part reads as after it has
been changed. -/

namespace Sys2Proof.Machine

variable (s : State)


@[simp] theorem State.setSlot_mem (k : Nat) (x : Slot) : (s.setSlot k x).mem = s.mem := rfl
@[simp] theorem State.setSlot_full (k : Nat) (x : Slot) : (s.setSlot k x).full = s.full := rfl
@[simp] theorem State.setSlot_vcs (k : Nat) (x : Slot) : (s.setSlot k x).vcs = s.vcs := rfl
@[simp] theorem State.setSlot_cores (k : Nat) (x : Slot) : (s.setSlot k x).cores = s.cores := rfl
@[simp] theorem State.setSlot_dies (k : Nat) (x : Slot) : (s.setSlot k x).dies = s.dies := rfl
@[simp] theorem State.setSlot_gangs (k : Nat) (x : Slot) : (s.setSlot k x).gangs = s.gangs := rfl
@[simp] theorem State.setSlot_groups (k : Nat) (x : Slot) : (s.setSlot k x).groups = s.groups := rfl
@[simp] theorem State.setSlot_funcs (k : Nat) (x : Slot) : (s.setSlot k x).funcs = s.funcs := rfl
@[simp] theorem State.setSlot_queues (k : Nat) (x : Slot) : (s.setSlot k x).queues = s.queues := rfl
@[simp] theorem State.setSlot_net (k : Nat) (x : Slot) : (s.setSlot k x).net = s.net := rfl
@[simp] theorem State.setSlot_migs (k : Nat) (x : Slot) : (s.setSlot k x).migs = s.migs := rfl
@[simp] theorem State.setSlot_migQ (k : Nat) (x : Slot) : (s.setSlot k x).migQ = s.migQ := rfl
@[simp] theorem State.setSlot_vops (k : Nat) (x : Slot) : (s.setSlot k x).vops = s.vops := rfl
@[simp] theorem State.setSlot_vgroups (k : Nat) (x : Slot) : (s.setSlot k x).vgroups = s.vgroups := rfl
@[simp] theorem State.setSlot_now (k : Nat) (x : Slot) : (s.setSlot k x).now = s.now := rfl
@[simp] theorem State.setSlot_nextId (k : Nat) (x : Slot) : (s.setSlot k x).nextId = s.nextId := rfl
@[simp] theorem State.setSlot_cur (k : Nat) (x : Slot) : (s.setSlot k x).cur = s.cur := rfl
@[simp] theorem State.setSlot_ev (k : Nat) (x : Slot) : (s.setSlot k x).ev = s.ev := rfl
@[simp] theorem State.setSlot_turns (k : Nat) (x : Slot) : (s.setSlot k x).turns = s.turns := rfl
@[simp] theorem State.setSlot_agenda (k : Nat) (x : Slot) : (s.setSlot k x).agenda = s.agenda := rfl
@[simp] theorem State.setSlot_free (k : Nat) (x : Slot) : (s.setSlot k x).free = s.free := rfl
@[simp] theorem State.setSlot_node (k : Nat) (x : Slot) : (s.setSlot k x).node = s.node := rfl
@[simp] theorem State.setSlot_boot (k : Nat) (x : Slot) : (s.setSlot k x).boot = s.boot := rfl
@[simp] theorem State.setSlot_svc (k : Nat) (x : Slot) : (s.setSlot k x).svc = s.svc := rfl
@[simp] theorem State.setSlot_hostLink (k : Nat) (x : Slot) : (s.setSlot k x).hostLink = s.hostLink := rfl
@[simp] theorem State.setSlot_pwr (k : Nat) (x : Slot) : (s.setSlot k x).pwr = s.pwr := rfl
@[simp] theorem State.setSlot_plim (k : Nat) (x : Slot) : (s.setSlot k x).plim = s.plim := rfl
@[simp] theorem State.setSlot_thbm (k : Nat) (x : Slot) : (s.setSlot k x).thbm = s.thbm := rfl
@[simp] theorem State.setSlot_powerAt (k : Nat) (x : Slot) : (s.setSlot k x).powerAt = s.powerAt := rfl
@[simp] theorem State.setSlot_mlog (k : Nat) (x : Slot) : (s.setSlot k x).mlog = s.mlog := rfl
@[simp] theorem State.setSlot_hostRead (k : Nat) (x : Slot) : (s.setSlot k x).hostRead = s.hostRead := rfl
@[simp] theorem State.setSlot_tierPorts (k : Nat) (x : Slot) : (s.setSlot k x).tierPorts = s.tierPorts := rfl
@[simp] theorem State.setSlot_tierCap (k : Nat) (x : Slot) : (s.setSlot k x).tierCap = s.tierCap := rfl
@[simp] theorem State.setSlot_keyHash (k : Nat) (x : Slot) : (s.setSlot k x).keyHash = s.keyHash := rfl
@[simp] theorem State.setSlot_dims (k : Nat) (x : Slot) : (s.setSlot k x).dims = s.dims := rfl
@[simp] theorem State.setSlot_ports (k : Nat) (x : Slot) : (s.setSlot k x).ports = s.ports := rfl
@[simp] theorem State.setSlot_arrived (k : Nat) (x : Slot) : (s.setSlot k x).arrived = s.arrived := rfl
@[simp] theorem State.setSlot_farOut (k : Nat) (x : Slot) : (s.setSlot k x).farOut = s.farOut := rfl
@[simp] theorem State.setSlot_farIn (k : Nat) (x : Slot) : (s.setSlot k x).farIn = s.farIn := rfl
@[simp] theorem State.setSlot_deadLinks (k : Nat) (x : Slot) : (s.setSlot k x).deadLinks = s.deadLinks := rfl
@[simp] theorem State.setSlot_unreachable (k : Nat) (x : Slot) : (s.setSlot k x).unreachable = s.unreachable := rfl
@[simp] theorem State.setSlot_hostFail (k : Nat) (x : Slot) : (s.setSlot k x).hostFail = s.hostFail := rfl
@[simp] theorem State.setSlot_cxlFail (k : Nat) (x : Slot) : (s.setSlot k x).cxlFail = s.cxlFail := rfl
@[simp] theorem State.setSlot_hostWriteFail (k : Nat) (x : Slot) : (s.setSlot k x).hostWriteFail = s.hostWriteFail := rfl

@[simp] theorem State.updSlot_mem (k : Nat) (f : Slot → Slot) : (s.updSlot k f).mem = s.mem := rfl
@[simp] theorem State.updSlot_full (k : Nat) (f : Slot → Slot) : (s.updSlot k f).full = s.full := rfl
@[simp] theorem State.updSlot_vcs (k : Nat) (f : Slot → Slot) : (s.updSlot k f).vcs = s.vcs := rfl
@[simp] theorem State.updSlot_cores (k : Nat) (f : Slot → Slot) : (s.updSlot k f).cores = s.cores := rfl
@[simp] theorem State.updSlot_dies (k : Nat) (f : Slot → Slot) : (s.updSlot k f).dies = s.dies := rfl
@[simp] theorem State.updSlot_gangs (k : Nat) (f : Slot → Slot) : (s.updSlot k f).gangs = s.gangs := rfl
@[simp] theorem State.updSlot_groups (k : Nat) (f : Slot → Slot) : (s.updSlot k f).groups = s.groups := rfl
@[simp] theorem State.updSlot_funcs (k : Nat) (f : Slot → Slot) : (s.updSlot k f).funcs = s.funcs := rfl
@[simp] theorem State.updSlot_queues (k : Nat) (f : Slot → Slot) : (s.updSlot k f).queues = s.queues := rfl
@[simp] theorem State.updSlot_net (k : Nat) (f : Slot → Slot) : (s.updSlot k f).net = s.net := rfl
@[simp] theorem State.updSlot_migs (k : Nat) (f : Slot → Slot) : (s.updSlot k f).migs = s.migs := rfl
@[simp] theorem State.updSlot_migQ (k : Nat) (f : Slot → Slot) : (s.updSlot k f).migQ = s.migQ := rfl
@[simp] theorem State.updSlot_vops (k : Nat) (f : Slot → Slot) : (s.updSlot k f).vops = s.vops := rfl
@[simp] theorem State.updSlot_vgroups (k : Nat) (f : Slot → Slot) : (s.updSlot k f).vgroups = s.vgroups := rfl
@[simp] theorem State.updSlot_now (k : Nat) (f : Slot → Slot) : (s.updSlot k f).now = s.now := rfl
@[simp] theorem State.updSlot_nextId (k : Nat) (f : Slot → Slot) : (s.updSlot k f).nextId = s.nextId := rfl
@[simp] theorem State.updSlot_cur (k : Nat) (f : Slot → Slot) : (s.updSlot k f).cur = s.cur := rfl
@[simp] theorem State.updSlot_ev (k : Nat) (f : Slot → Slot) : (s.updSlot k f).ev = s.ev := rfl
@[simp] theorem State.updSlot_turns (k : Nat) (f : Slot → Slot) : (s.updSlot k f).turns = s.turns := rfl
@[simp] theorem State.updSlot_agenda (k : Nat) (f : Slot → Slot) : (s.updSlot k f).agenda = s.agenda := rfl
@[simp] theorem State.updSlot_free (k : Nat) (f : Slot → Slot) : (s.updSlot k f).free = s.free := rfl
@[simp] theorem State.updSlot_node (k : Nat) (f : Slot → Slot) : (s.updSlot k f).node = s.node := rfl
@[simp] theorem State.updSlot_boot (k : Nat) (f : Slot → Slot) : (s.updSlot k f).boot = s.boot := rfl
@[simp] theorem State.updSlot_svc (k : Nat) (f : Slot → Slot) : (s.updSlot k f).svc = s.svc := rfl
@[simp] theorem State.updSlot_hostLink (k : Nat) (f : Slot → Slot) : (s.updSlot k f).hostLink = s.hostLink := rfl
@[simp] theorem State.updSlot_pwr (k : Nat) (f : Slot → Slot) : (s.updSlot k f).pwr = s.pwr := rfl
@[simp] theorem State.updSlot_plim (k : Nat) (f : Slot → Slot) : (s.updSlot k f).plim = s.plim := rfl
@[simp] theorem State.updSlot_thbm (k : Nat) (f : Slot → Slot) : (s.updSlot k f).thbm = s.thbm := rfl
@[simp] theorem State.updSlot_powerAt (k : Nat) (f : Slot → Slot) : (s.updSlot k f).powerAt = s.powerAt := rfl
@[simp] theorem State.updSlot_mlog (k : Nat) (f : Slot → Slot) : (s.updSlot k f).mlog = s.mlog := rfl
@[simp] theorem State.updSlot_hostRead (k : Nat) (f : Slot → Slot) : (s.updSlot k f).hostRead = s.hostRead := rfl
@[simp] theorem State.updSlot_tierPorts (k : Nat) (f : Slot → Slot) : (s.updSlot k f).tierPorts = s.tierPorts := rfl
@[simp] theorem State.updSlot_tierCap (k : Nat) (f : Slot → Slot) : (s.updSlot k f).tierCap = s.tierCap := rfl
@[simp] theorem State.updSlot_keyHash (k : Nat) (f : Slot → Slot) : (s.updSlot k f).keyHash = s.keyHash := rfl
@[simp] theorem State.updSlot_dims (k : Nat) (f : Slot → Slot) : (s.updSlot k f).dims = s.dims := rfl
@[simp] theorem State.updSlot_ports (k : Nat) (f : Slot → Slot) : (s.updSlot k f).ports = s.ports := rfl
@[simp] theorem State.updSlot_arrived (k : Nat) (f : Slot → Slot) : (s.updSlot k f).arrived = s.arrived := rfl
@[simp] theorem State.updSlot_farOut (k : Nat) (f : Slot → Slot) : (s.updSlot k f).farOut = s.farOut := rfl
@[simp] theorem State.updSlot_farIn (k : Nat) (f : Slot → Slot) : (s.updSlot k f).farIn = s.farIn := rfl
@[simp] theorem State.updSlot_deadLinks (k : Nat) (f : Slot → Slot) : (s.updSlot k f).deadLinks = s.deadLinks := rfl
@[simp] theorem State.updSlot_unreachable (k : Nat) (f : Slot → Slot) : (s.updSlot k f).unreachable = s.unreachable := rfl
@[simp] theorem State.updSlot_hostFail (k : Nat) (f : Slot → Slot) : (s.updSlot k f).hostFail = s.hostFail := rfl
@[simp] theorem State.updSlot_cxlFail (k : Nat) (f : Slot → Slot) : (s.updSlot k f).cxlFail = s.cxlFail := rfl
@[simp] theorem State.updSlot_hostWriteFail (k : Nat) (f : Slot → Slot) : (s.updSlot k f).hostWriteFail = s.hostWriteFail := rfl

@[simp] theorem State.mapSlots_mem (f : Nat → Slot → Slot) : (s.mapSlots f).mem = s.mem := rfl
@[simp] theorem State.mapSlots_full (f : Nat → Slot → Slot) : (s.mapSlots f).full = s.full := rfl
@[simp] theorem State.mapSlots_vcs (f : Nat → Slot → Slot) : (s.mapSlots f).vcs = s.vcs := rfl
@[simp] theorem State.mapSlots_cores (f : Nat → Slot → Slot) : (s.mapSlots f).cores = s.cores := rfl
@[simp] theorem State.mapSlots_dies (f : Nat → Slot → Slot) : (s.mapSlots f).dies = s.dies := rfl
@[simp] theorem State.mapSlots_gangs (f : Nat → Slot → Slot) : (s.mapSlots f).gangs = s.gangs := rfl
@[simp] theorem State.mapSlots_groups (f : Nat → Slot → Slot) : (s.mapSlots f).groups = s.groups := rfl
@[simp] theorem State.mapSlots_funcs (f : Nat → Slot → Slot) : (s.mapSlots f).funcs = s.funcs := rfl
@[simp] theorem State.mapSlots_queues (f : Nat → Slot → Slot) : (s.mapSlots f).queues = s.queues := rfl
@[simp] theorem State.mapSlots_net (f : Nat → Slot → Slot) : (s.mapSlots f).net = s.net := rfl
@[simp] theorem State.mapSlots_migs (f : Nat → Slot → Slot) : (s.mapSlots f).migs = s.migs := rfl
@[simp] theorem State.mapSlots_migQ (f : Nat → Slot → Slot) : (s.mapSlots f).migQ = s.migQ := rfl
@[simp] theorem State.mapSlots_vops (f : Nat → Slot → Slot) : (s.mapSlots f).vops = s.vops := rfl
@[simp] theorem State.mapSlots_vgroups (f : Nat → Slot → Slot) : (s.mapSlots f).vgroups = s.vgroups := rfl
@[simp] theorem State.mapSlots_now (f : Nat → Slot → Slot) : (s.mapSlots f).now = s.now := rfl
@[simp] theorem State.mapSlots_nextId (f : Nat → Slot → Slot) : (s.mapSlots f).nextId = s.nextId := rfl
@[simp] theorem State.mapSlots_cur (f : Nat → Slot → Slot) : (s.mapSlots f).cur = s.cur := rfl
@[simp] theorem State.mapSlots_ev (f : Nat → Slot → Slot) : (s.mapSlots f).ev = s.ev := rfl
@[simp] theorem State.mapSlots_turns (f : Nat → Slot → Slot) : (s.mapSlots f).turns = s.turns := rfl
@[simp] theorem State.mapSlots_agenda (f : Nat → Slot → Slot) : (s.mapSlots f).agenda = s.agenda := rfl
@[simp] theorem State.mapSlots_free (f : Nat → Slot → Slot) : (s.mapSlots f).free = s.free := rfl
@[simp] theorem State.mapSlots_node (f : Nat → Slot → Slot) : (s.mapSlots f).node = s.node := rfl
@[simp] theorem State.mapSlots_boot (f : Nat → Slot → Slot) : (s.mapSlots f).boot = s.boot := rfl
@[simp] theorem State.mapSlots_svc (f : Nat → Slot → Slot) : (s.mapSlots f).svc = s.svc := rfl
@[simp] theorem State.mapSlots_hostLink (f : Nat → Slot → Slot) : (s.mapSlots f).hostLink = s.hostLink := rfl
@[simp] theorem State.mapSlots_pwr (f : Nat → Slot → Slot) : (s.mapSlots f).pwr = s.pwr := rfl
@[simp] theorem State.mapSlots_plim (f : Nat → Slot → Slot) : (s.mapSlots f).plim = s.plim := rfl
@[simp] theorem State.mapSlots_thbm (f : Nat → Slot → Slot) : (s.mapSlots f).thbm = s.thbm := rfl
@[simp] theorem State.mapSlots_powerAt (f : Nat → Slot → Slot) : (s.mapSlots f).powerAt = s.powerAt := rfl
@[simp] theorem State.mapSlots_mlog (f : Nat → Slot → Slot) : (s.mapSlots f).mlog = s.mlog := rfl
@[simp] theorem State.mapSlots_hostRead (f : Nat → Slot → Slot) : (s.mapSlots f).hostRead = s.hostRead := rfl
@[simp] theorem State.mapSlots_tierPorts (f : Nat → Slot → Slot) : (s.mapSlots f).tierPorts = s.tierPorts := rfl
@[simp] theorem State.mapSlots_tierCap (f : Nat → Slot → Slot) : (s.mapSlots f).tierCap = s.tierCap := rfl
@[simp] theorem State.mapSlots_keyHash (f : Nat → Slot → Slot) : (s.mapSlots f).keyHash = s.keyHash := rfl
@[simp] theorem State.mapSlots_dims (f : Nat → Slot → Slot) : (s.mapSlots f).dims = s.dims := rfl
@[simp] theorem State.mapSlots_ports (f : Nat → Slot → Slot) : (s.mapSlots f).ports = s.ports := rfl
@[simp] theorem State.mapSlots_arrived (f : Nat → Slot → Slot) : (s.mapSlots f).arrived = s.arrived := rfl
@[simp] theorem State.mapSlots_farOut (f : Nat → Slot → Slot) : (s.mapSlots f).farOut = s.farOut := rfl
@[simp] theorem State.mapSlots_farIn (f : Nat → Slot → Slot) : (s.mapSlots f).farIn = s.farIn := rfl
@[simp] theorem State.mapSlots_deadLinks (f : Nat → Slot → Slot) : (s.mapSlots f).deadLinks = s.deadLinks := rfl
@[simp] theorem State.mapSlots_unreachable (f : Nat → Slot → Slot) : (s.mapSlots f).unreachable = s.unreachable := rfl
@[simp] theorem State.mapSlots_hostFail (f : Nat → Slot → Slot) : (s.mapSlots f).hostFail = s.hostFail := rfl
@[simp] theorem State.mapSlots_cxlFail (f : Nat → Slot → Slot) : (s.mapSlots f).cxlFail = s.cxlFail := rfl
@[simp] theorem State.mapSlots_hostWriteFail (f : Nat → Slot → Slot) : (s.mapSlots f).hostWriteFail = s.hostWriteFail := rfl

@[simp] theorem State.updMe_mem (f : Slot → Slot) : (s.updMe f).mem = s.mem := rfl
@[simp] theorem State.updMe_full (f : Slot → Slot) : (s.updMe f).full = s.full := rfl
@[simp] theorem State.updMe_vcs (f : Slot → Slot) : (s.updMe f).vcs = s.vcs := rfl
@[simp] theorem State.updMe_cores (f : Slot → Slot) : (s.updMe f).cores = s.cores := rfl
@[simp] theorem State.updMe_dies (f : Slot → Slot) : (s.updMe f).dies = s.dies := rfl
@[simp] theorem State.updMe_gangs (f : Slot → Slot) : (s.updMe f).gangs = s.gangs := rfl
@[simp] theorem State.updMe_groups (f : Slot → Slot) : (s.updMe f).groups = s.groups := rfl
@[simp] theorem State.updMe_funcs (f : Slot → Slot) : (s.updMe f).funcs = s.funcs := rfl
@[simp] theorem State.updMe_queues (f : Slot → Slot) : (s.updMe f).queues = s.queues := rfl
@[simp] theorem State.updMe_net (f : Slot → Slot) : (s.updMe f).net = s.net := rfl
@[simp] theorem State.updMe_migs (f : Slot → Slot) : (s.updMe f).migs = s.migs := rfl
@[simp] theorem State.updMe_migQ (f : Slot → Slot) : (s.updMe f).migQ = s.migQ := rfl
@[simp] theorem State.updMe_vops (f : Slot → Slot) : (s.updMe f).vops = s.vops := rfl
@[simp] theorem State.updMe_vgroups (f : Slot → Slot) : (s.updMe f).vgroups = s.vgroups := rfl
@[simp] theorem State.updMe_now (f : Slot → Slot) : (s.updMe f).now = s.now := rfl
@[simp] theorem State.updMe_nextId (f : Slot → Slot) : (s.updMe f).nextId = s.nextId := rfl
@[simp] theorem State.updMe_cur (f : Slot → Slot) : (s.updMe f).cur = s.cur := rfl
@[simp] theorem State.updMe_ev (f : Slot → Slot) : (s.updMe f).ev = s.ev := rfl
@[simp] theorem State.updMe_turns (f : Slot → Slot) : (s.updMe f).turns = s.turns := rfl
@[simp] theorem State.updMe_agenda (f : Slot → Slot) : (s.updMe f).agenda = s.agenda := rfl
@[simp] theorem State.updMe_free (f : Slot → Slot) : (s.updMe f).free = s.free := rfl
@[simp] theorem State.updMe_node (f : Slot → Slot) : (s.updMe f).node = s.node := rfl
@[simp] theorem State.updMe_boot (f : Slot → Slot) : (s.updMe f).boot = s.boot := rfl
@[simp] theorem State.updMe_svc (f : Slot → Slot) : (s.updMe f).svc = s.svc := rfl
@[simp] theorem State.updMe_hostLink (f : Slot → Slot) : (s.updMe f).hostLink = s.hostLink := rfl
@[simp] theorem State.updMe_pwr (f : Slot → Slot) : (s.updMe f).pwr = s.pwr := rfl
@[simp] theorem State.updMe_plim (f : Slot → Slot) : (s.updMe f).plim = s.plim := rfl
@[simp] theorem State.updMe_thbm (f : Slot → Slot) : (s.updMe f).thbm = s.thbm := rfl
@[simp] theorem State.updMe_powerAt (f : Slot → Slot) : (s.updMe f).powerAt = s.powerAt := rfl
@[simp] theorem State.updMe_mlog (f : Slot → Slot) : (s.updMe f).mlog = s.mlog := rfl
@[simp] theorem State.updMe_hostRead (f : Slot → Slot) : (s.updMe f).hostRead = s.hostRead := rfl
@[simp] theorem State.updMe_tierPorts (f : Slot → Slot) : (s.updMe f).tierPorts = s.tierPorts := rfl
@[simp] theorem State.updMe_tierCap (f : Slot → Slot) : (s.updMe f).tierCap = s.tierCap := rfl
@[simp] theorem State.updMe_keyHash (f : Slot → Slot) : (s.updMe f).keyHash = s.keyHash := rfl
@[simp] theorem State.updMe_dims (f : Slot → Slot) : (s.updMe f).dims = s.dims := rfl
@[simp] theorem State.updMe_ports (f : Slot → Slot) : (s.updMe f).ports = s.ports := rfl
@[simp] theorem State.updMe_arrived (f : Slot → Slot) : (s.updMe f).arrived = s.arrived := rfl
@[simp] theorem State.updMe_farOut (f : Slot → Slot) : (s.updMe f).farOut = s.farOut := rfl
@[simp] theorem State.updMe_farIn (f : Slot → Slot) : (s.updMe f).farIn = s.farIn := rfl
@[simp] theorem State.updMe_deadLinks (f : Slot → Slot) : (s.updMe f).deadLinks = s.deadLinks := rfl
@[simp] theorem State.updMe_unreachable (f : Slot → Slot) : (s.updMe f).unreachable = s.unreachable := rfl
@[simp] theorem State.updMe_hostFail (f : Slot → Slot) : (s.updMe f).hostFail = s.hostFail := rfl
@[simp] theorem State.updMe_cxlFail (f : Slot → Slot) : (s.updMe f).cxlFail = s.cxlFail := rfl
@[simp] theorem State.updMe_hostWriteFail (f : Slot → Slot) : (s.updMe f).hostWriteFail = s.hostWriteFail := rfl

@[simp] theorem State.setVc_mem (k : Nat) (x : VCore) : (s.setVc k x).mem = s.mem := rfl
@[simp] theorem State.setVc_full (k : Nat) (x : VCore) : (s.setVc k x).full = s.full := rfl
@[simp] theorem State.setVc_slots (k : Nat) (x : VCore) : (s.setVc k x).slots = s.slots := rfl
@[simp] theorem State.setVc_cores (k : Nat) (x : VCore) : (s.setVc k x).cores = s.cores := rfl
@[simp] theorem State.setVc_dies (k : Nat) (x : VCore) : (s.setVc k x).dies = s.dies := rfl
@[simp] theorem State.setVc_gangs (k : Nat) (x : VCore) : (s.setVc k x).gangs = s.gangs := rfl
@[simp] theorem State.setVc_groups (k : Nat) (x : VCore) : (s.setVc k x).groups = s.groups := rfl
@[simp] theorem State.setVc_funcs (k : Nat) (x : VCore) : (s.setVc k x).funcs = s.funcs := rfl
@[simp] theorem State.setVc_queues (k : Nat) (x : VCore) : (s.setVc k x).queues = s.queues := rfl
@[simp] theorem State.setVc_net (k : Nat) (x : VCore) : (s.setVc k x).net = s.net := rfl
@[simp] theorem State.setVc_migs (k : Nat) (x : VCore) : (s.setVc k x).migs = s.migs := rfl
@[simp] theorem State.setVc_migQ (k : Nat) (x : VCore) : (s.setVc k x).migQ = s.migQ := rfl
@[simp] theorem State.setVc_vops (k : Nat) (x : VCore) : (s.setVc k x).vops = s.vops := rfl
@[simp] theorem State.setVc_vgroups (k : Nat) (x : VCore) : (s.setVc k x).vgroups = s.vgroups := rfl
@[simp] theorem State.setVc_now (k : Nat) (x : VCore) : (s.setVc k x).now = s.now := rfl
@[simp] theorem State.setVc_nextId (k : Nat) (x : VCore) : (s.setVc k x).nextId = s.nextId := rfl
@[simp] theorem State.setVc_cur (k : Nat) (x : VCore) : (s.setVc k x).cur = s.cur := rfl
@[simp] theorem State.setVc_ev (k : Nat) (x : VCore) : (s.setVc k x).ev = s.ev := rfl
@[simp] theorem State.setVc_turns (k : Nat) (x : VCore) : (s.setVc k x).turns = s.turns := rfl
@[simp] theorem State.setVc_agenda (k : Nat) (x : VCore) : (s.setVc k x).agenda = s.agenda := rfl
@[simp] theorem State.setVc_free (k : Nat) (x : VCore) : (s.setVc k x).free = s.free := rfl
@[simp] theorem State.setVc_node (k : Nat) (x : VCore) : (s.setVc k x).node = s.node := rfl
@[simp] theorem State.setVc_boot (k : Nat) (x : VCore) : (s.setVc k x).boot = s.boot := rfl
@[simp] theorem State.setVc_svc (k : Nat) (x : VCore) : (s.setVc k x).svc = s.svc := rfl
@[simp] theorem State.setVc_hostLink (k : Nat) (x : VCore) : (s.setVc k x).hostLink = s.hostLink := rfl
@[simp] theorem State.setVc_pwr (k : Nat) (x : VCore) : (s.setVc k x).pwr = s.pwr := rfl
@[simp] theorem State.setVc_plim (k : Nat) (x : VCore) : (s.setVc k x).plim = s.plim := rfl
@[simp] theorem State.setVc_thbm (k : Nat) (x : VCore) : (s.setVc k x).thbm = s.thbm := rfl
@[simp] theorem State.setVc_powerAt (k : Nat) (x : VCore) : (s.setVc k x).powerAt = s.powerAt := rfl
@[simp] theorem State.setVc_mlog (k : Nat) (x : VCore) : (s.setVc k x).mlog = s.mlog := rfl
@[simp] theorem State.setVc_hostRead (k : Nat) (x : VCore) : (s.setVc k x).hostRead = s.hostRead := rfl
@[simp] theorem State.setVc_tierPorts (k : Nat) (x : VCore) : (s.setVc k x).tierPorts = s.tierPorts := rfl
@[simp] theorem State.setVc_tierCap (k : Nat) (x : VCore) : (s.setVc k x).tierCap = s.tierCap := rfl
@[simp] theorem State.setVc_keyHash (k : Nat) (x : VCore) : (s.setVc k x).keyHash = s.keyHash := rfl
@[simp] theorem State.setVc_dims (k : Nat) (x : VCore) : (s.setVc k x).dims = s.dims := rfl
@[simp] theorem State.setVc_ports (k : Nat) (x : VCore) : (s.setVc k x).ports = s.ports := rfl
@[simp] theorem State.setVc_arrived (k : Nat) (x : VCore) : (s.setVc k x).arrived = s.arrived := rfl
@[simp] theorem State.setVc_farOut (k : Nat) (x : VCore) : (s.setVc k x).farOut = s.farOut := rfl
@[simp] theorem State.setVc_farIn (k : Nat) (x : VCore) : (s.setVc k x).farIn = s.farIn := rfl
@[simp] theorem State.setVc_deadLinks (k : Nat) (x : VCore) : (s.setVc k x).deadLinks = s.deadLinks := rfl
@[simp] theorem State.setVc_unreachable (k : Nat) (x : VCore) : (s.setVc k x).unreachable = s.unreachable := rfl
@[simp] theorem State.setVc_hostFail (k : Nat) (x : VCore) : (s.setVc k x).hostFail = s.hostFail := rfl
@[simp] theorem State.setVc_cxlFail (k : Nat) (x : VCore) : (s.setVc k x).cxlFail = s.cxlFail := rfl
@[simp] theorem State.setVc_hostWriteFail (k : Nat) (x : VCore) : (s.setVc k x).hostWriteFail = s.hostWriteFail := rfl

@[simp] theorem State.updVc_mem (k : Nat) (f : VCore → VCore) : (s.updVc k f).mem = s.mem := rfl
@[simp] theorem State.updVc_full (k : Nat) (f : VCore → VCore) : (s.updVc k f).full = s.full := rfl
@[simp] theorem State.updVc_slots (k : Nat) (f : VCore → VCore) : (s.updVc k f).slots = s.slots := rfl
@[simp] theorem State.updVc_cores (k : Nat) (f : VCore → VCore) : (s.updVc k f).cores = s.cores := rfl
@[simp] theorem State.updVc_dies (k : Nat) (f : VCore → VCore) : (s.updVc k f).dies = s.dies := rfl
@[simp] theorem State.updVc_gangs (k : Nat) (f : VCore → VCore) : (s.updVc k f).gangs = s.gangs := rfl
@[simp] theorem State.updVc_groups (k : Nat) (f : VCore → VCore) : (s.updVc k f).groups = s.groups := rfl
@[simp] theorem State.updVc_funcs (k : Nat) (f : VCore → VCore) : (s.updVc k f).funcs = s.funcs := rfl
@[simp] theorem State.updVc_queues (k : Nat) (f : VCore → VCore) : (s.updVc k f).queues = s.queues := rfl
@[simp] theorem State.updVc_net (k : Nat) (f : VCore → VCore) : (s.updVc k f).net = s.net := rfl
@[simp] theorem State.updVc_migs (k : Nat) (f : VCore → VCore) : (s.updVc k f).migs = s.migs := rfl
@[simp] theorem State.updVc_migQ (k : Nat) (f : VCore → VCore) : (s.updVc k f).migQ = s.migQ := rfl
@[simp] theorem State.updVc_vops (k : Nat) (f : VCore → VCore) : (s.updVc k f).vops = s.vops := rfl
@[simp] theorem State.updVc_vgroups (k : Nat) (f : VCore → VCore) : (s.updVc k f).vgroups = s.vgroups := rfl
@[simp] theorem State.updVc_now (k : Nat) (f : VCore → VCore) : (s.updVc k f).now = s.now := rfl
@[simp] theorem State.updVc_nextId (k : Nat) (f : VCore → VCore) : (s.updVc k f).nextId = s.nextId := rfl
@[simp] theorem State.updVc_cur (k : Nat) (f : VCore → VCore) : (s.updVc k f).cur = s.cur := rfl
@[simp] theorem State.updVc_ev (k : Nat) (f : VCore → VCore) : (s.updVc k f).ev = s.ev := rfl
@[simp] theorem State.updVc_turns (k : Nat) (f : VCore → VCore) : (s.updVc k f).turns = s.turns := rfl
@[simp] theorem State.updVc_agenda (k : Nat) (f : VCore → VCore) : (s.updVc k f).agenda = s.agenda := rfl
@[simp] theorem State.updVc_free (k : Nat) (f : VCore → VCore) : (s.updVc k f).free = s.free := rfl
@[simp] theorem State.updVc_node (k : Nat) (f : VCore → VCore) : (s.updVc k f).node = s.node := rfl
@[simp] theorem State.updVc_boot (k : Nat) (f : VCore → VCore) : (s.updVc k f).boot = s.boot := rfl
@[simp] theorem State.updVc_svc (k : Nat) (f : VCore → VCore) : (s.updVc k f).svc = s.svc := rfl
@[simp] theorem State.updVc_hostLink (k : Nat) (f : VCore → VCore) : (s.updVc k f).hostLink = s.hostLink := rfl
@[simp] theorem State.updVc_pwr (k : Nat) (f : VCore → VCore) : (s.updVc k f).pwr = s.pwr := rfl
@[simp] theorem State.updVc_plim (k : Nat) (f : VCore → VCore) : (s.updVc k f).plim = s.plim := rfl
@[simp] theorem State.updVc_thbm (k : Nat) (f : VCore → VCore) : (s.updVc k f).thbm = s.thbm := rfl
@[simp] theorem State.updVc_powerAt (k : Nat) (f : VCore → VCore) : (s.updVc k f).powerAt = s.powerAt := rfl
@[simp] theorem State.updVc_mlog (k : Nat) (f : VCore → VCore) : (s.updVc k f).mlog = s.mlog := rfl
@[simp] theorem State.updVc_hostRead (k : Nat) (f : VCore → VCore) : (s.updVc k f).hostRead = s.hostRead := rfl
@[simp] theorem State.updVc_tierPorts (k : Nat) (f : VCore → VCore) : (s.updVc k f).tierPorts = s.tierPorts := rfl
@[simp] theorem State.updVc_tierCap (k : Nat) (f : VCore → VCore) : (s.updVc k f).tierCap = s.tierCap := rfl
@[simp] theorem State.updVc_keyHash (k : Nat) (f : VCore → VCore) : (s.updVc k f).keyHash = s.keyHash := rfl
@[simp] theorem State.updVc_dims (k : Nat) (f : VCore → VCore) : (s.updVc k f).dims = s.dims := rfl
@[simp] theorem State.updVc_ports (k : Nat) (f : VCore → VCore) : (s.updVc k f).ports = s.ports := rfl
@[simp] theorem State.updVc_arrived (k : Nat) (f : VCore → VCore) : (s.updVc k f).arrived = s.arrived := rfl
@[simp] theorem State.updVc_farOut (k : Nat) (f : VCore → VCore) : (s.updVc k f).farOut = s.farOut := rfl
@[simp] theorem State.updVc_farIn (k : Nat) (f : VCore → VCore) : (s.updVc k f).farIn = s.farIn := rfl
@[simp] theorem State.updVc_deadLinks (k : Nat) (f : VCore → VCore) : (s.updVc k f).deadLinks = s.deadLinks := rfl
@[simp] theorem State.updVc_unreachable (k : Nat) (f : VCore → VCore) : (s.updVc k f).unreachable = s.unreachable := rfl
@[simp] theorem State.updVc_hostFail (k : Nat) (f : VCore → VCore) : (s.updVc k f).hostFail = s.hostFail := rfl
@[simp] theorem State.updVc_cxlFail (k : Nat) (f : VCore → VCore) : (s.updVc k f).cxlFail = s.cxlFail := rfl
@[simp] theorem State.updVc_hostWriteFail (k : Nat) (f : VCore → VCore) : (s.updVc k f).hostWriteFail = s.hostWriteFail := rfl

@[simp] theorem State.updMyVc_mem (f : VCore → VCore) : (s.updMyVc f).mem = s.mem := rfl
@[simp] theorem State.updMyVc_full (f : VCore → VCore) : (s.updMyVc f).full = s.full := rfl
@[simp] theorem State.updMyVc_slots (f : VCore → VCore) : (s.updMyVc f).slots = s.slots := rfl
@[simp] theorem State.updMyVc_cores (f : VCore → VCore) : (s.updMyVc f).cores = s.cores := rfl
@[simp] theorem State.updMyVc_dies (f : VCore → VCore) : (s.updMyVc f).dies = s.dies := rfl
@[simp] theorem State.updMyVc_gangs (f : VCore → VCore) : (s.updMyVc f).gangs = s.gangs := rfl
@[simp] theorem State.updMyVc_groups (f : VCore → VCore) : (s.updMyVc f).groups = s.groups := rfl
@[simp] theorem State.updMyVc_funcs (f : VCore → VCore) : (s.updMyVc f).funcs = s.funcs := rfl
@[simp] theorem State.updMyVc_queues (f : VCore → VCore) : (s.updMyVc f).queues = s.queues := rfl
@[simp] theorem State.updMyVc_net (f : VCore → VCore) : (s.updMyVc f).net = s.net := rfl
@[simp] theorem State.updMyVc_migs (f : VCore → VCore) : (s.updMyVc f).migs = s.migs := rfl
@[simp] theorem State.updMyVc_migQ (f : VCore → VCore) : (s.updMyVc f).migQ = s.migQ := rfl
@[simp] theorem State.updMyVc_vops (f : VCore → VCore) : (s.updMyVc f).vops = s.vops := rfl
@[simp] theorem State.updMyVc_vgroups (f : VCore → VCore) : (s.updMyVc f).vgroups = s.vgroups := rfl
@[simp] theorem State.updMyVc_now (f : VCore → VCore) : (s.updMyVc f).now = s.now := rfl
@[simp] theorem State.updMyVc_nextId (f : VCore → VCore) : (s.updMyVc f).nextId = s.nextId := rfl
@[simp] theorem State.updMyVc_cur (f : VCore → VCore) : (s.updMyVc f).cur = s.cur := rfl
@[simp] theorem State.updMyVc_ev (f : VCore → VCore) : (s.updMyVc f).ev = s.ev := rfl
@[simp] theorem State.updMyVc_turns (f : VCore → VCore) : (s.updMyVc f).turns = s.turns := rfl
@[simp] theorem State.updMyVc_agenda (f : VCore → VCore) : (s.updMyVc f).agenda = s.agenda := rfl
@[simp] theorem State.updMyVc_free (f : VCore → VCore) : (s.updMyVc f).free = s.free := rfl
@[simp] theorem State.updMyVc_node (f : VCore → VCore) : (s.updMyVc f).node = s.node := rfl
@[simp] theorem State.updMyVc_boot (f : VCore → VCore) : (s.updMyVc f).boot = s.boot := rfl
@[simp] theorem State.updMyVc_svc (f : VCore → VCore) : (s.updMyVc f).svc = s.svc := rfl
@[simp] theorem State.updMyVc_hostLink (f : VCore → VCore) : (s.updMyVc f).hostLink = s.hostLink := rfl
@[simp] theorem State.updMyVc_pwr (f : VCore → VCore) : (s.updMyVc f).pwr = s.pwr := rfl
@[simp] theorem State.updMyVc_plim (f : VCore → VCore) : (s.updMyVc f).plim = s.plim := rfl
@[simp] theorem State.updMyVc_thbm (f : VCore → VCore) : (s.updMyVc f).thbm = s.thbm := rfl
@[simp] theorem State.updMyVc_powerAt (f : VCore → VCore) : (s.updMyVc f).powerAt = s.powerAt := rfl
@[simp] theorem State.updMyVc_mlog (f : VCore → VCore) : (s.updMyVc f).mlog = s.mlog := rfl
@[simp] theorem State.updMyVc_hostRead (f : VCore → VCore) : (s.updMyVc f).hostRead = s.hostRead := rfl
@[simp] theorem State.updMyVc_tierPorts (f : VCore → VCore) : (s.updMyVc f).tierPorts = s.tierPorts := rfl
@[simp] theorem State.updMyVc_tierCap (f : VCore → VCore) : (s.updMyVc f).tierCap = s.tierCap := rfl
@[simp] theorem State.updMyVc_keyHash (f : VCore → VCore) : (s.updMyVc f).keyHash = s.keyHash := rfl
@[simp] theorem State.updMyVc_dims (f : VCore → VCore) : (s.updMyVc f).dims = s.dims := rfl
@[simp] theorem State.updMyVc_ports (f : VCore → VCore) : (s.updMyVc f).ports = s.ports := rfl
@[simp] theorem State.updMyVc_arrived (f : VCore → VCore) : (s.updMyVc f).arrived = s.arrived := rfl
@[simp] theorem State.updMyVc_farOut (f : VCore → VCore) : (s.updMyVc f).farOut = s.farOut := rfl
@[simp] theorem State.updMyVc_farIn (f : VCore → VCore) : (s.updMyVc f).farIn = s.farIn := rfl
@[simp] theorem State.updMyVc_deadLinks (f : VCore → VCore) : (s.updMyVc f).deadLinks = s.deadLinks := rfl
@[simp] theorem State.updMyVc_unreachable (f : VCore → VCore) : (s.updMyVc f).unreachable = s.unreachable := rfl
@[simp] theorem State.updMyVc_hostFail (f : VCore → VCore) : (s.updMyVc f).hostFail = s.hostFail := rfl
@[simp] theorem State.updMyVc_cxlFail (f : VCore → VCore) : (s.updMyVc f).cxlFail = s.cxlFail := rfl
@[simp] theorem State.updMyVc_hostWriteFail (f : VCore → VCore) : (s.updMyVc f).hostWriteFail = s.hostWriteFail := rfl

@[simp] theorem State.updCore_mem (g : Nat) (f : PCore → PCore) : (s.updCore g f).mem = s.mem := rfl
@[simp] theorem State.updCore_full (g : Nat) (f : PCore → PCore) : (s.updCore g f).full = s.full := rfl
@[simp] theorem State.updCore_slots (g : Nat) (f : PCore → PCore) : (s.updCore g f).slots = s.slots := rfl
@[simp] theorem State.updCore_vcs (g : Nat) (f : PCore → PCore) : (s.updCore g f).vcs = s.vcs := rfl
@[simp] theorem State.updCore_dies (g : Nat) (f : PCore → PCore) : (s.updCore g f).dies = s.dies := rfl
@[simp] theorem State.updCore_gangs (g : Nat) (f : PCore → PCore) : (s.updCore g f).gangs = s.gangs := rfl
@[simp] theorem State.updCore_groups (g : Nat) (f : PCore → PCore) : (s.updCore g f).groups = s.groups := rfl
@[simp] theorem State.updCore_funcs (g : Nat) (f : PCore → PCore) : (s.updCore g f).funcs = s.funcs := rfl
@[simp] theorem State.updCore_queues (g : Nat) (f : PCore → PCore) : (s.updCore g f).queues = s.queues := rfl
@[simp] theorem State.updCore_net (g : Nat) (f : PCore → PCore) : (s.updCore g f).net = s.net := rfl
@[simp] theorem State.updCore_migs (g : Nat) (f : PCore → PCore) : (s.updCore g f).migs = s.migs := rfl
@[simp] theorem State.updCore_migQ (g : Nat) (f : PCore → PCore) : (s.updCore g f).migQ = s.migQ := rfl
@[simp] theorem State.updCore_vops (g : Nat) (f : PCore → PCore) : (s.updCore g f).vops = s.vops := rfl
@[simp] theorem State.updCore_vgroups (g : Nat) (f : PCore → PCore) : (s.updCore g f).vgroups = s.vgroups := rfl
@[simp] theorem State.updCore_now (g : Nat) (f : PCore → PCore) : (s.updCore g f).now = s.now := rfl
@[simp] theorem State.updCore_nextId (g : Nat) (f : PCore → PCore) : (s.updCore g f).nextId = s.nextId := rfl
@[simp] theorem State.updCore_cur (g : Nat) (f : PCore → PCore) : (s.updCore g f).cur = s.cur := rfl
@[simp] theorem State.updCore_ev (g : Nat) (f : PCore → PCore) : (s.updCore g f).ev = s.ev := rfl
@[simp] theorem State.updCore_turns (g : Nat) (f : PCore → PCore) : (s.updCore g f).turns = s.turns := rfl
@[simp] theorem State.updCore_agenda (g : Nat) (f : PCore → PCore) : (s.updCore g f).agenda = s.agenda := rfl
@[simp] theorem State.updCore_free (g : Nat) (f : PCore → PCore) : (s.updCore g f).free = s.free := rfl
@[simp] theorem State.updCore_node (g : Nat) (f : PCore → PCore) : (s.updCore g f).node = s.node := rfl
@[simp] theorem State.updCore_boot (g : Nat) (f : PCore → PCore) : (s.updCore g f).boot = s.boot := rfl
@[simp] theorem State.updCore_svc (g : Nat) (f : PCore → PCore) : (s.updCore g f).svc = s.svc := rfl
@[simp] theorem State.updCore_hostLink (g : Nat) (f : PCore → PCore) : (s.updCore g f).hostLink = s.hostLink := rfl
@[simp] theorem State.updCore_pwr (g : Nat) (f : PCore → PCore) : (s.updCore g f).pwr = s.pwr := rfl
@[simp] theorem State.updCore_plim (g : Nat) (f : PCore → PCore) : (s.updCore g f).plim = s.plim := rfl
@[simp] theorem State.updCore_thbm (g : Nat) (f : PCore → PCore) : (s.updCore g f).thbm = s.thbm := rfl
@[simp] theorem State.updCore_powerAt (g : Nat) (f : PCore → PCore) : (s.updCore g f).powerAt = s.powerAt := rfl
@[simp] theorem State.updCore_mlog (g : Nat) (f : PCore → PCore) : (s.updCore g f).mlog = s.mlog := rfl
@[simp] theorem State.updCore_hostRead (g : Nat) (f : PCore → PCore) : (s.updCore g f).hostRead = s.hostRead := rfl
@[simp] theorem State.updCore_tierPorts (g : Nat) (f : PCore → PCore) : (s.updCore g f).tierPorts = s.tierPorts := rfl
@[simp] theorem State.updCore_tierCap (g : Nat) (f : PCore → PCore) : (s.updCore g f).tierCap = s.tierCap := rfl
@[simp] theorem State.updCore_keyHash (g : Nat) (f : PCore → PCore) : (s.updCore g f).keyHash = s.keyHash := rfl
@[simp] theorem State.updCore_dims (g : Nat) (f : PCore → PCore) : (s.updCore g f).dims = s.dims := rfl
@[simp] theorem State.updCore_ports (g : Nat) (f : PCore → PCore) : (s.updCore g f).ports = s.ports := rfl
@[simp] theorem State.updCore_arrived (g : Nat) (f : PCore → PCore) : (s.updCore g f).arrived = s.arrived := rfl
@[simp] theorem State.updCore_farOut (g : Nat) (f : PCore → PCore) : (s.updCore g f).farOut = s.farOut := rfl
@[simp] theorem State.updCore_farIn (g : Nat) (f : PCore → PCore) : (s.updCore g f).farIn = s.farIn := rfl
@[simp] theorem State.updCore_deadLinks (g : Nat) (f : PCore → PCore) : (s.updCore g f).deadLinks = s.deadLinks := rfl
@[simp] theorem State.updCore_unreachable (g : Nat) (f : PCore → PCore) : (s.updCore g f).unreachable = s.unreachable := rfl
@[simp] theorem State.updCore_hostFail (g : Nat) (f : PCore → PCore) : (s.updCore g f).hostFail = s.hostFail := rfl
@[simp] theorem State.updCore_cxlFail (g : Nat) (f : PCore → PCore) : (s.updCore g f).cxlFail = s.cxlFail := rfl
@[simp] theorem State.updCore_hostWriteFail (g : Nat) (f : PCore → PCore) : (s.updCore g f).hostWriteFail = s.hostWriteFail := rfl

@[simp] theorem State.updDie_mem (d : Nat) (f : Die → Die) : (s.updDie d f).mem = s.mem := rfl
@[simp] theorem State.updDie_full (d : Nat) (f : Die → Die) : (s.updDie d f).full = s.full := rfl
@[simp] theorem State.updDie_slots (d : Nat) (f : Die → Die) : (s.updDie d f).slots = s.slots := rfl
@[simp] theorem State.updDie_vcs (d : Nat) (f : Die → Die) : (s.updDie d f).vcs = s.vcs := rfl
@[simp] theorem State.updDie_cores (d : Nat) (f : Die → Die) : (s.updDie d f).cores = s.cores := rfl
@[simp] theorem State.updDie_gangs (d : Nat) (f : Die → Die) : (s.updDie d f).gangs = s.gangs := rfl
@[simp] theorem State.updDie_groups (d : Nat) (f : Die → Die) : (s.updDie d f).groups = s.groups := rfl
@[simp] theorem State.updDie_funcs (d : Nat) (f : Die → Die) : (s.updDie d f).funcs = s.funcs := rfl
@[simp] theorem State.updDie_queues (d : Nat) (f : Die → Die) : (s.updDie d f).queues = s.queues := rfl
@[simp] theorem State.updDie_net (d : Nat) (f : Die → Die) : (s.updDie d f).net = s.net := rfl
@[simp] theorem State.updDie_migs (d : Nat) (f : Die → Die) : (s.updDie d f).migs = s.migs := rfl
@[simp] theorem State.updDie_migQ (d : Nat) (f : Die → Die) : (s.updDie d f).migQ = s.migQ := rfl
@[simp] theorem State.updDie_vops (d : Nat) (f : Die → Die) : (s.updDie d f).vops = s.vops := rfl
@[simp] theorem State.updDie_vgroups (d : Nat) (f : Die → Die) : (s.updDie d f).vgroups = s.vgroups := rfl
@[simp] theorem State.updDie_now (d : Nat) (f : Die → Die) : (s.updDie d f).now = s.now := rfl
@[simp] theorem State.updDie_nextId (d : Nat) (f : Die → Die) : (s.updDie d f).nextId = s.nextId := rfl
@[simp] theorem State.updDie_cur (d : Nat) (f : Die → Die) : (s.updDie d f).cur = s.cur := rfl
@[simp] theorem State.updDie_ev (d : Nat) (f : Die → Die) : (s.updDie d f).ev = s.ev := rfl
@[simp] theorem State.updDie_turns (d : Nat) (f : Die → Die) : (s.updDie d f).turns = s.turns := rfl
@[simp] theorem State.updDie_agenda (d : Nat) (f : Die → Die) : (s.updDie d f).agenda = s.agenda := rfl
@[simp] theorem State.updDie_free (d : Nat) (f : Die → Die) : (s.updDie d f).free = s.free := rfl
@[simp] theorem State.updDie_node (d : Nat) (f : Die → Die) : (s.updDie d f).node = s.node := rfl
@[simp] theorem State.updDie_boot (d : Nat) (f : Die → Die) : (s.updDie d f).boot = s.boot := rfl
@[simp] theorem State.updDie_svc (d : Nat) (f : Die → Die) : (s.updDie d f).svc = s.svc := rfl
@[simp] theorem State.updDie_hostLink (d : Nat) (f : Die → Die) : (s.updDie d f).hostLink = s.hostLink := rfl
@[simp] theorem State.updDie_pwr (d : Nat) (f : Die → Die) : (s.updDie d f).pwr = s.pwr := rfl
@[simp] theorem State.updDie_plim (d : Nat) (f : Die → Die) : (s.updDie d f).plim = s.plim := rfl
@[simp] theorem State.updDie_thbm (d : Nat) (f : Die → Die) : (s.updDie d f).thbm = s.thbm := rfl
@[simp] theorem State.updDie_powerAt (d : Nat) (f : Die → Die) : (s.updDie d f).powerAt = s.powerAt := rfl
@[simp] theorem State.updDie_mlog (d : Nat) (f : Die → Die) : (s.updDie d f).mlog = s.mlog := rfl
@[simp] theorem State.updDie_hostRead (d : Nat) (f : Die → Die) : (s.updDie d f).hostRead = s.hostRead := rfl
@[simp] theorem State.updDie_tierPorts (d : Nat) (f : Die → Die) : (s.updDie d f).tierPorts = s.tierPorts := rfl
@[simp] theorem State.updDie_tierCap (d : Nat) (f : Die → Die) : (s.updDie d f).tierCap = s.tierCap := rfl
@[simp] theorem State.updDie_keyHash (d : Nat) (f : Die → Die) : (s.updDie d f).keyHash = s.keyHash := rfl
@[simp] theorem State.updDie_dims (d : Nat) (f : Die → Die) : (s.updDie d f).dims = s.dims := rfl
@[simp] theorem State.updDie_ports (d : Nat) (f : Die → Die) : (s.updDie d f).ports = s.ports := rfl
@[simp] theorem State.updDie_arrived (d : Nat) (f : Die → Die) : (s.updDie d f).arrived = s.arrived := rfl
@[simp] theorem State.updDie_farOut (d : Nat) (f : Die → Die) : (s.updDie d f).farOut = s.farOut := rfl
@[simp] theorem State.updDie_farIn (d : Nat) (f : Die → Die) : (s.updDie d f).farIn = s.farIn := rfl
@[simp] theorem State.updDie_deadLinks (d : Nat) (f : Die → Die) : (s.updDie d f).deadLinks = s.deadLinks := rfl
@[simp] theorem State.updDie_unreachable (d : Nat) (f : Die → Die) : (s.updDie d f).unreachable = s.unreachable := rfl
@[simp] theorem State.updDie_hostFail (d : Nat) (f : Die → Die) : (s.updDie d f).hostFail = s.hostFail := rfl
@[simp] theorem State.updDie_cxlFail (d : Nat) (f : Die → Die) : (s.updDie d f).cxlFail = s.cxlFail := rfl
@[simp] theorem State.updDie_hostWriteFail (d : Nat) (f : Die → Die) : (s.updDie d f).hostWriteFail = s.hostWriteFail := rfl

@[simp] theorem State.updGang_mem (g : Nat) (f : Gang → Gang) : (s.updGang g f).mem = s.mem := rfl
@[simp] theorem State.updGang_full (g : Nat) (f : Gang → Gang) : (s.updGang g f).full = s.full := rfl
@[simp] theorem State.updGang_slots (g : Nat) (f : Gang → Gang) : (s.updGang g f).slots = s.slots := rfl
@[simp] theorem State.updGang_vcs (g : Nat) (f : Gang → Gang) : (s.updGang g f).vcs = s.vcs := rfl
@[simp] theorem State.updGang_cores (g : Nat) (f : Gang → Gang) : (s.updGang g f).cores = s.cores := rfl
@[simp] theorem State.updGang_dies (g : Nat) (f : Gang → Gang) : (s.updGang g f).dies = s.dies := rfl
@[simp] theorem State.updGang_groups (g : Nat) (f : Gang → Gang) : (s.updGang g f).groups = s.groups := rfl
@[simp] theorem State.updGang_funcs (g : Nat) (f : Gang → Gang) : (s.updGang g f).funcs = s.funcs := rfl
@[simp] theorem State.updGang_queues (g : Nat) (f : Gang → Gang) : (s.updGang g f).queues = s.queues := rfl
@[simp] theorem State.updGang_net (g : Nat) (f : Gang → Gang) : (s.updGang g f).net = s.net := rfl
@[simp] theorem State.updGang_migs (g : Nat) (f : Gang → Gang) : (s.updGang g f).migs = s.migs := rfl
@[simp] theorem State.updGang_migQ (g : Nat) (f : Gang → Gang) : (s.updGang g f).migQ = s.migQ := rfl
@[simp] theorem State.updGang_vops (g : Nat) (f : Gang → Gang) : (s.updGang g f).vops = s.vops := rfl
@[simp] theorem State.updGang_vgroups (g : Nat) (f : Gang → Gang) : (s.updGang g f).vgroups = s.vgroups := rfl
@[simp] theorem State.updGang_now (g : Nat) (f : Gang → Gang) : (s.updGang g f).now = s.now := rfl
@[simp] theorem State.updGang_nextId (g : Nat) (f : Gang → Gang) : (s.updGang g f).nextId = s.nextId := rfl
@[simp] theorem State.updGang_cur (g : Nat) (f : Gang → Gang) : (s.updGang g f).cur = s.cur := rfl
@[simp] theorem State.updGang_ev (g : Nat) (f : Gang → Gang) : (s.updGang g f).ev = s.ev := rfl
@[simp] theorem State.updGang_turns (g : Nat) (f : Gang → Gang) : (s.updGang g f).turns = s.turns := rfl
@[simp] theorem State.updGang_agenda (g : Nat) (f : Gang → Gang) : (s.updGang g f).agenda = s.agenda := rfl
@[simp] theorem State.updGang_free (g : Nat) (f : Gang → Gang) : (s.updGang g f).free = s.free := rfl
@[simp] theorem State.updGang_node (g : Nat) (f : Gang → Gang) : (s.updGang g f).node = s.node := rfl
@[simp] theorem State.updGang_boot (g : Nat) (f : Gang → Gang) : (s.updGang g f).boot = s.boot := rfl
@[simp] theorem State.updGang_svc (g : Nat) (f : Gang → Gang) : (s.updGang g f).svc = s.svc := rfl
@[simp] theorem State.updGang_hostLink (g : Nat) (f : Gang → Gang) : (s.updGang g f).hostLink = s.hostLink := rfl
@[simp] theorem State.updGang_pwr (g : Nat) (f : Gang → Gang) : (s.updGang g f).pwr = s.pwr := rfl
@[simp] theorem State.updGang_plim (g : Nat) (f : Gang → Gang) : (s.updGang g f).plim = s.plim := rfl
@[simp] theorem State.updGang_thbm (g : Nat) (f : Gang → Gang) : (s.updGang g f).thbm = s.thbm := rfl
@[simp] theorem State.updGang_powerAt (g : Nat) (f : Gang → Gang) : (s.updGang g f).powerAt = s.powerAt := rfl
@[simp] theorem State.updGang_mlog (g : Nat) (f : Gang → Gang) : (s.updGang g f).mlog = s.mlog := rfl
@[simp] theorem State.updGang_hostRead (g : Nat) (f : Gang → Gang) : (s.updGang g f).hostRead = s.hostRead := rfl
@[simp] theorem State.updGang_tierPorts (g : Nat) (f : Gang → Gang) : (s.updGang g f).tierPorts = s.tierPorts := rfl
@[simp] theorem State.updGang_tierCap (g : Nat) (f : Gang → Gang) : (s.updGang g f).tierCap = s.tierCap := rfl
@[simp] theorem State.updGang_keyHash (g : Nat) (f : Gang → Gang) : (s.updGang g f).keyHash = s.keyHash := rfl
@[simp] theorem State.updGang_dims (g : Nat) (f : Gang → Gang) : (s.updGang g f).dims = s.dims := rfl
@[simp] theorem State.updGang_ports (g : Nat) (f : Gang → Gang) : (s.updGang g f).ports = s.ports := rfl
@[simp] theorem State.updGang_arrived (g : Nat) (f : Gang → Gang) : (s.updGang g f).arrived = s.arrived := rfl
@[simp] theorem State.updGang_farOut (g : Nat) (f : Gang → Gang) : (s.updGang g f).farOut = s.farOut := rfl
@[simp] theorem State.updGang_farIn (g : Nat) (f : Gang → Gang) : (s.updGang g f).farIn = s.farIn := rfl
@[simp] theorem State.updGang_deadLinks (g : Nat) (f : Gang → Gang) : (s.updGang g f).deadLinks = s.deadLinks := rfl
@[simp] theorem State.updGang_unreachable (g : Nat) (f : Gang → Gang) : (s.updGang g f).unreachable = s.unreachable := rfl
@[simp] theorem State.updGang_hostFail (g : Nat) (f : Gang → Gang) : (s.updGang g f).hostFail = s.hostFail := rfl
@[simp] theorem State.updGang_cxlFail (g : Nat) (f : Gang → Gang) : (s.updGang g f).cxlFail = s.cxlFail := rfl
@[simp] theorem State.updGang_hostWriteFail (g : Nat) (f : Gang → Gang) : (s.updGang g f).hostWriteFail = s.hostWriteFail := rfl

@[simp] theorem State.updGroup_mem (g : Nat) (f : Group → Group) : (s.updGroup g f).mem = s.mem := rfl
@[simp] theorem State.updGroup_full (g : Nat) (f : Group → Group) : (s.updGroup g f).full = s.full := rfl
@[simp] theorem State.updGroup_slots (g : Nat) (f : Group → Group) : (s.updGroup g f).slots = s.slots := rfl
@[simp] theorem State.updGroup_vcs (g : Nat) (f : Group → Group) : (s.updGroup g f).vcs = s.vcs := rfl
@[simp] theorem State.updGroup_cores (g : Nat) (f : Group → Group) : (s.updGroup g f).cores = s.cores := rfl
@[simp] theorem State.updGroup_dies (g : Nat) (f : Group → Group) : (s.updGroup g f).dies = s.dies := rfl
@[simp] theorem State.updGroup_gangs (g : Nat) (f : Group → Group) : (s.updGroup g f).gangs = s.gangs := rfl
@[simp] theorem State.updGroup_funcs (g : Nat) (f : Group → Group) : (s.updGroup g f).funcs = s.funcs := rfl
@[simp] theorem State.updGroup_queues (g : Nat) (f : Group → Group) : (s.updGroup g f).queues = s.queues := rfl
@[simp] theorem State.updGroup_net (g : Nat) (f : Group → Group) : (s.updGroup g f).net = s.net := rfl
@[simp] theorem State.updGroup_migs (g : Nat) (f : Group → Group) : (s.updGroup g f).migs = s.migs := rfl
@[simp] theorem State.updGroup_migQ (g : Nat) (f : Group → Group) : (s.updGroup g f).migQ = s.migQ := rfl
@[simp] theorem State.updGroup_vops (g : Nat) (f : Group → Group) : (s.updGroup g f).vops = s.vops := rfl
@[simp] theorem State.updGroup_vgroups (g : Nat) (f : Group → Group) : (s.updGroup g f).vgroups = s.vgroups := rfl
@[simp] theorem State.updGroup_now (g : Nat) (f : Group → Group) : (s.updGroup g f).now = s.now := rfl
@[simp] theorem State.updGroup_nextId (g : Nat) (f : Group → Group) : (s.updGroup g f).nextId = s.nextId := rfl
@[simp] theorem State.updGroup_cur (g : Nat) (f : Group → Group) : (s.updGroup g f).cur = s.cur := rfl
@[simp] theorem State.updGroup_ev (g : Nat) (f : Group → Group) : (s.updGroup g f).ev = s.ev := rfl
@[simp] theorem State.updGroup_turns (g : Nat) (f : Group → Group) : (s.updGroup g f).turns = s.turns := rfl
@[simp] theorem State.updGroup_agenda (g : Nat) (f : Group → Group) : (s.updGroup g f).agenda = s.agenda := rfl
@[simp] theorem State.updGroup_free (g : Nat) (f : Group → Group) : (s.updGroup g f).free = s.free := rfl
@[simp] theorem State.updGroup_node (g : Nat) (f : Group → Group) : (s.updGroup g f).node = s.node := rfl
@[simp] theorem State.updGroup_boot (g : Nat) (f : Group → Group) : (s.updGroup g f).boot = s.boot := rfl
@[simp] theorem State.updGroup_svc (g : Nat) (f : Group → Group) : (s.updGroup g f).svc = s.svc := rfl
@[simp] theorem State.updGroup_hostLink (g : Nat) (f : Group → Group) : (s.updGroup g f).hostLink = s.hostLink := rfl
@[simp] theorem State.updGroup_pwr (g : Nat) (f : Group → Group) : (s.updGroup g f).pwr = s.pwr := rfl
@[simp] theorem State.updGroup_plim (g : Nat) (f : Group → Group) : (s.updGroup g f).plim = s.plim := rfl
@[simp] theorem State.updGroup_thbm (g : Nat) (f : Group → Group) : (s.updGroup g f).thbm = s.thbm := rfl
@[simp] theorem State.updGroup_powerAt (g : Nat) (f : Group → Group) : (s.updGroup g f).powerAt = s.powerAt := rfl
@[simp] theorem State.updGroup_mlog (g : Nat) (f : Group → Group) : (s.updGroup g f).mlog = s.mlog := rfl
@[simp] theorem State.updGroup_hostRead (g : Nat) (f : Group → Group) : (s.updGroup g f).hostRead = s.hostRead := rfl
@[simp] theorem State.updGroup_tierPorts (g : Nat) (f : Group → Group) : (s.updGroup g f).tierPorts = s.tierPorts := rfl
@[simp] theorem State.updGroup_tierCap (g : Nat) (f : Group → Group) : (s.updGroup g f).tierCap = s.tierCap := rfl
@[simp] theorem State.updGroup_keyHash (g : Nat) (f : Group → Group) : (s.updGroup g f).keyHash = s.keyHash := rfl
@[simp] theorem State.updGroup_dims (g : Nat) (f : Group → Group) : (s.updGroup g f).dims = s.dims := rfl
@[simp] theorem State.updGroup_ports (g : Nat) (f : Group → Group) : (s.updGroup g f).ports = s.ports := rfl
@[simp] theorem State.updGroup_arrived (g : Nat) (f : Group → Group) : (s.updGroup g f).arrived = s.arrived := rfl
@[simp] theorem State.updGroup_farOut (g : Nat) (f : Group → Group) : (s.updGroup g f).farOut = s.farOut := rfl
@[simp] theorem State.updGroup_farIn (g : Nat) (f : Group → Group) : (s.updGroup g f).farIn = s.farIn := rfl
@[simp] theorem State.updGroup_deadLinks (g : Nat) (f : Group → Group) : (s.updGroup g f).deadLinks = s.deadLinks := rfl
@[simp] theorem State.updGroup_unreachable (g : Nat) (f : Group → Group) : (s.updGroup g f).unreachable = s.unreachable := rfl
@[simp] theorem State.updGroup_hostFail (g : Nat) (f : Group → Group) : (s.updGroup g f).hostFail = s.hostFail := rfl
@[simp] theorem State.updGroup_cxlFail (g : Nat) (f : Group → Group) : (s.updGroup g f).cxlFail = s.cxlFail := rfl
@[simp] theorem State.updGroup_hostWriteFail (g : Nat) (f : Group → Group) : (s.updGroup g f).hostWriteFail = s.hostWriteFail := rfl

@[simp] theorem State.updFunc_mem (k : Nat) (f : Func → Func) : (s.updFunc k f).mem = s.mem := rfl
@[simp] theorem State.updFunc_full (k : Nat) (f : Func → Func) : (s.updFunc k f).full = s.full := rfl
@[simp] theorem State.updFunc_slots (k : Nat) (f : Func → Func) : (s.updFunc k f).slots = s.slots := rfl
@[simp] theorem State.updFunc_vcs (k : Nat) (f : Func → Func) : (s.updFunc k f).vcs = s.vcs := rfl
@[simp] theorem State.updFunc_cores (k : Nat) (f : Func → Func) : (s.updFunc k f).cores = s.cores := rfl
@[simp] theorem State.updFunc_dies (k : Nat) (f : Func → Func) : (s.updFunc k f).dies = s.dies := rfl
@[simp] theorem State.updFunc_gangs (k : Nat) (f : Func → Func) : (s.updFunc k f).gangs = s.gangs := rfl
@[simp] theorem State.updFunc_groups (k : Nat) (f : Func → Func) : (s.updFunc k f).groups = s.groups := rfl
@[simp] theorem State.updFunc_queues (k : Nat) (f : Func → Func) : (s.updFunc k f).queues = s.queues := rfl
@[simp] theorem State.updFunc_net (k : Nat) (f : Func → Func) : (s.updFunc k f).net = s.net := rfl
@[simp] theorem State.updFunc_migs (k : Nat) (f : Func → Func) : (s.updFunc k f).migs = s.migs := rfl
@[simp] theorem State.updFunc_migQ (k : Nat) (f : Func → Func) : (s.updFunc k f).migQ = s.migQ := rfl
@[simp] theorem State.updFunc_vops (k : Nat) (f : Func → Func) : (s.updFunc k f).vops = s.vops := rfl
@[simp] theorem State.updFunc_vgroups (k : Nat) (f : Func → Func) : (s.updFunc k f).vgroups = s.vgroups := rfl
@[simp] theorem State.updFunc_now (k : Nat) (f : Func → Func) : (s.updFunc k f).now = s.now := rfl
@[simp] theorem State.updFunc_nextId (k : Nat) (f : Func → Func) : (s.updFunc k f).nextId = s.nextId := rfl
@[simp] theorem State.updFunc_cur (k : Nat) (f : Func → Func) : (s.updFunc k f).cur = s.cur := rfl
@[simp] theorem State.updFunc_ev (k : Nat) (f : Func → Func) : (s.updFunc k f).ev = s.ev := rfl
@[simp] theorem State.updFunc_turns (k : Nat) (f : Func → Func) : (s.updFunc k f).turns = s.turns := rfl
@[simp] theorem State.updFunc_agenda (k : Nat) (f : Func → Func) : (s.updFunc k f).agenda = s.agenda := rfl
@[simp] theorem State.updFunc_free (k : Nat) (f : Func → Func) : (s.updFunc k f).free = s.free := rfl
@[simp] theorem State.updFunc_node (k : Nat) (f : Func → Func) : (s.updFunc k f).node = s.node := rfl
@[simp] theorem State.updFunc_boot (k : Nat) (f : Func → Func) : (s.updFunc k f).boot = s.boot := rfl
@[simp] theorem State.updFunc_svc (k : Nat) (f : Func → Func) : (s.updFunc k f).svc = s.svc := rfl
@[simp] theorem State.updFunc_hostLink (k : Nat) (f : Func → Func) : (s.updFunc k f).hostLink = s.hostLink := rfl
@[simp] theorem State.updFunc_pwr (k : Nat) (f : Func → Func) : (s.updFunc k f).pwr = s.pwr := rfl
@[simp] theorem State.updFunc_plim (k : Nat) (f : Func → Func) : (s.updFunc k f).plim = s.plim := rfl
@[simp] theorem State.updFunc_thbm (k : Nat) (f : Func → Func) : (s.updFunc k f).thbm = s.thbm := rfl
@[simp] theorem State.updFunc_powerAt (k : Nat) (f : Func → Func) : (s.updFunc k f).powerAt = s.powerAt := rfl
@[simp] theorem State.updFunc_mlog (k : Nat) (f : Func → Func) : (s.updFunc k f).mlog = s.mlog := rfl
@[simp] theorem State.updFunc_hostRead (k : Nat) (f : Func → Func) : (s.updFunc k f).hostRead = s.hostRead := rfl
@[simp] theorem State.updFunc_tierPorts (k : Nat) (f : Func → Func) : (s.updFunc k f).tierPorts = s.tierPorts := rfl
@[simp] theorem State.updFunc_tierCap (k : Nat) (f : Func → Func) : (s.updFunc k f).tierCap = s.tierCap := rfl
@[simp] theorem State.updFunc_keyHash (k : Nat) (f : Func → Func) : (s.updFunc k f).keyHash = s.keyHash := rfl
@[simp] theorem State.updFunc_dims (k : Nat) (f : Func → Func) : (s.updFunc k f).dims = s.dims := rfl
@[simp] theorem State.updFunc_ports (k : Nat) (f : Func → Func) : (s.updFunc k f).ports = s.ports := rfl
@[simp] theorem State.updFunc_arrived (k : Nat) (f : Func → Func) : (s.updFunc k f).arrived = s.arrived := rfl
@[simp] theorem State.updFunc_farOut (k : Nat) (f : Func → Func) : (s.updFunc k f).farOut = s.farOut := rfl
@[simp] theorem State.updFunc_farIn (k : Nat) (f : Func → Func) : (s.updFunc k f).farIn = s.farIn := rfl
@[simp] theorem State.updFunc_deadLinks (k : Nat) (f : Func → Func) : (s.updFunc k f).deadLinks = s.deadLinks := rfl
@[simp] theorem State.updFunc_unreachable (k : Nat) (f : Func → Func) : (s.updFunc k f).unreachable = s.unreachable := rfl
@[simp] theorem State.updFunc_hostFail (k : Nat) (f : Func → Func) : (s.updFunc k f).hostFail = s.hostFail := rfl
@[simp] theorem State.updFunc_cxlFail (k : Nat) (f : Func → Func) : (s.updFunc k f).cxlFail = s.cxlFail := rfl
@[simp] theorem State.updFunc_hostWriteFail (k : Nat) (f : Func → Func) : (s.updFunc k f).hostWriteFail = s.hostWriteFail := rfl

@[simp] theorem State.updQueue_mem (k : Nat) (f : Queue → Queue) : (s.updQueue k f).mem = s.mem := rfl
@[simp] theorem State.updQueue_full (k : Nat) (f : Queue → Queue) : (s.updQueue k f).full = s.full := rfl
@[simp] theorem State.updQueue_slots (k : Nat) (f : Queue → Queue) : (s.updQueue k f).slots = s.slots := rfl
@[simp] theorem State.updQueue_vcs (k : Nat) (f : Queue → Queue) : (s.updQueue k f).vcs = s.vcs := rfl
@[simp] theorem State.updQueue_cores (k : Nat) (f : Queue → Queue) : (s.updQueue k f).cores = s.cores := rfl
@[simp] theorem State.updQueue_dies (k : Nat) (f : Queue → Queue) : (s.updQueue k f).dies = s.dies := rfl
@[simp] theorem State.updQueue_gangs (k : Nat) (f : Queue → Queue) : (s.updQueue k f).gangs = s.gangs := rfl
@[simp] theorem State.updQueue_groups (k : Nat) (f : Queue → Queue) : (s.updQueue k f).groups = s.groups := rfl
@[simp] theorem State.updQueue_funcs (k : Nat) (f : Queue → Queue) : (s.updQueue k f).funcs = s.funcs := rfl
@[simp] theorem State.updQueue_net (k : Nat) (f : Queue → Queue) : (s.updQueue k f).net = s.net := rfl
@[simp] theorem State.updQueue_migs (k : Nat) (f : Queue → Queue) : (s.updQueue k f).migs = s.migs := rfl
@[simp] theorem State.updQueue_migQ (k : Nat) (f : Queue → Queue) : (s.updQueue k f).migQ = s.migQ := rfl
@[simp] theorem State.updQueue_vops (k : Nat) (f : Queue → Queue) : (s.updQueue k f).vops = s.vops := rfl
@[simp] theorem State.updQueue_vgroups (k : Nat) (f : Queue → Queue) : (s.updQueue k f).vgroups = s.vgroups := rfl
@[simp] theorem State.updQueue_now (k : Nat) (f : Queue → Queue) : (s.updQueue k f).now = s.now := rfl
@[simp] theorem State.updQueue_nextId (k : Nat) (f : Queue → Queue) : (s.updQueue k f).nextId = s.nextId := rfl
@[simp] theorem State.updQueue_cur (k : Nat) (f : Queue → Queue) : (s.updQueue k f).cur = s.cur := rfl
@[simp] theorem State.updQueue_ev (k : Nat) (f : Queue → Queue) : (s.updQueue k f).ev = s.ev := rfl
@[simp] theorem State.updQueue_turns (k : Nat) (f : Queue → Queue) : (s.updQueue k f).turns = s.turns := rfl
@[simp] theorem State.updQueue_agenda (k : Nat) (f : Queue → Queue) : (s.updQueue k f).agenda = s.agenda := rfl
@[simp] theorem State.updQueue_free (k : Nat) (f : Queue → Queue) : (s.updQueue k f).free = s.free := rfl
@[simp] theorem State.updQueue_node (k : Nat) (f : Queue → Queue) : (s.updQueue k f).node = s.node := rfl
@[simp] theorem State.updQueue_boot (k : Nat) (f : Queue → Queue) : (s.updQueue k f).boot = s.boot := rfl
@[simp] theorem State.updQueue_svc (k : Nat) (f : Queue → Queue) : (s.updQueue k f).svc = s.svc := rfl
@[simp] theorem State.updQueue_hostLink (k : Nat) (f : Queue → Queue) : (s.updQueue k f).hostLink = s.hostLink := rfl
@[simp] theorem State.updQueue_pwr (k : Nat) (f : Queue → Queue) : (s.updQueue k f).pwr = s.pwr := rfl
@[simp] theorem State.updQueue_plim (k : Nat) (f : Queue → Queue) : (s.updQueue k f).plim = s.plim := rfl
@[simp] theorem State.updQueue_thbm (k : Nat) (f : Queue → Queue) : (s.updQueue k f).thbm = s.thbm := rfl
@[simp] theorem State.updQueue_powerAt (k : Nat) (f : Queue → Queue) : (s.updQueue k f).powerAt = s.powerAt := rfl
@[simp] theorem State.updQueue_mlog (k : Nat) (f : Queue → Queue) : (s.updQueue k f).mlog = s.mlog := rfl
@[simp] theorem State.updQueue_hostRead (k : Nat) (f : Queue → Queue) : (s.updQueue k f).hostRead = s.hostRead := rfl
@[simp] theorem State.updQueue_tierPorts (k : Nat) (f : Queue → Queue) : (s.updQueue k f).tierPorts = s.tierPorts := rfl
@[simp] theorem State.updQueue_tierCap (k : Nat) (f : Queue → Queue) : (s.updQueue k f).tierCap = s.tierCap := rfl
@[simp] theorem State.updQueue_keyHash (k : Nat) (f : Queue → Queue) : (s.updQueue k f).keyHash = s.keyHash := rfl
@[simp] theorem State.updQueue_dims (k : Nat) (f : Queue → Queue) : (s.updQueue k f).dims = s.dims := rfl
@[simp] theorem State.updQueue_ports (k : Nat) (f : Queue → Queue) : (s.updQueue k f).ports = s.ports := rfl
@[simp] theorem State.updQueue_arrived (k : Nat) (f : Queue → Queue) : (s.updQueue k f).arrived = s.arrived := rfl
@[simp] theorem State.updQueue_farOut (k : Nat) (f : Queue → Queue) : (s.updQueue k f).farOut = s.farOut := rfl
@[simp] theorem State.updQueue_farIn (k : Nat) (f : Queue → Queue) : (s.updQueue k f).farIn = s.farIn := rfl
@[simp] theorem State.updQueue_deadLinks (k : Nat) (f : Queue → Queue) : (s.updQueue k f).deadLinks = s.deadLinks := rfl
@[simp] theorem State.updQueue_unreachable (k : Nat) (f : Queue → Queue) : (s.updQueue k f).unreachable = s.unreachable := rfl
@[simp] theorem State.updQueue_hostFail (k : Nat) (f : Queue → Queue) : (s.updQueue k f).hostFail = s.hostFail := rfl
@[simp] theorem State.updQueue_cxlFail (k : Nat) (f : Queue → Queue) : (s.updQueue k f).cxlFail = s.cxlFail := rfl
@[simp] theorem State.updQueue_hostWriteFail (k : Nat) (f : Queue → Queue) : (s.updQueue k f).hostWriteFail = s.hostWriteFail := rfl

/-! The keyed parts. -/

theorem State.slot_setSlot (k j : Nat) (x : Slot) : (s.setSlot k x).slot j = if j = k then x else s.slot j := FMap.getD_set ..
theorem State.slot_updSlot (k j : Nat) (f : Slot → Slot) : (s.updSlot k f).slot j = if j = k then f (s.slot k) else s.slot j :=
  FMap.getD_set ..
@[simp] theorem State.slot_updSlot_self (k : Nat) (f : Slot → Slot) : (s.updSlot k f).slot k = f (s.slot k) := FMap.getD_set_self ..
theorem State.slot_updSlot_ne {k j : Nat} (f : Slot → Slot) (h : j ≠ k) : (s.updSlot k f).slot j = s.slot j := FMap.getD_set_ne _ _ _ h
@[simp] theorem State.me_updMe (f : Slot → Slot) : (s.updMe f).me = f s.me := FMap.getD_set_self ..
theorem State.slot_updMe_ne {j : Nat} (f : Slot → Slot) (h : j ≠ s.cur) : (s.updMe f).slot j = s.slot j := FMap.getD_set_ne _ _ _ h
theorem State.vc_updVc (k j : Nat) (f : VCore → VCore) : (s.updVc k f).vc j = if j = k then f (s.vc k) else s.vc j := FMap.getD_set ..
@[simp] theorem State.vc_updVc_self (k : Nat) (f : VCore → VCore) : (s.updVc k f).vc k = f (s.vc k) := FMap.getD_set_self ..
@[simp] theorem State.myVc_updMyVc (f : VCore → VCore) : (s.updMyVc f).myVc = f s.myVc := FMap.getD_set_self ..
theorem State.core_updCore (k j : Nat) (f : PCore → PCore) : (s.updCore k f).core j = if j = k then f (s.core k) else s.core j :=
  FMap.getD_set ..
theorem State.die_updDie (k j : Nat) (f : Die → Die) : (s.updDie k f).die j = if j = k then f (s.die k) else s.die j := FMap.getD_set ..
theorem State.group_updGroup (k j : Nat) (f : Group → Group) :
    (s.updGroup k f).group j = if j = k then f (s.group k) else s.group j := FMap.getD_set ..
theorem State.func_updFunc (k j : Nat) (f : Func → Func) : (s.updFunc k f).func j = if j = k then f (s.func k) else s.func j :=
  FMap.getD_set ..
theorem State.queue_updQueue (k j : Nat) (f : Queue → Queue) :
    (s.updQueue k f).queue j = if j = k then f (s.queue k) else s.queue j := FMap.getD_set ..

/-! Other parts seen through a change of the current slot. -/

@[simp] theorem State.updMe_vk (f : Slot → Slot) : (s.updMe f).vk = s.vk := rfl
@[simp] theorem State.updMe_ix (f : Slot → Slot) : (s.updMe f).ix = s.ix := rfl
@[simp] theorem State.updMe_vc (f : Slot → Slot) (k : Nat) : (s.updMe f).vc k = s.vc k := rfl
@[simp] theorem State.updMe_myVc (f : Slot → Slot) : (s.updMe f).myVc = s.myVc := rfl
@[simp] theorem State.updMe_core (f : Slot → Slot) (g : Nat) : (s.updMe f).core g = s.core g := rfl
@[simp] theorem State.updMe_die (f : Slot → Slot) (d : Nat) : (s.updMe f).die d = s.die d := rfl
@[simp] theorem State.updMe_coreOf (f : Slot → Slot) (k : Nat) : (s.updMe f).coreOf k = s.coreOf k := rfl
@[simp] theorem State.updMe_cycOf (f : Slot → Slot) (k : Nat) : (s.updMe f).cycOf k = s.cycOf k := rfl

/-- Two changes of the current slot in a row are one. -/
theorem State.updMe_updMe (f g : Slot → Slot) : (s.updMe f).updMe g = s.updMe (fun x => g (f x)) := by
  unfold State.updMe State.updSlot State.setSlot State.slot
  simp [FMap.set_set]

/-! Registers. -/

@[simp] theorem Slot.readX_zero (sl : Slot) : sl.readX 0 = 0 := rfl
theorem Slot.writeX_zero (sl : Slot) (v : Word) : sl.writeX 0 v = sl := rfl
theorem Slot.readX_writeX (sl : Slot) (r q : BitVec 5) (v : Word) :
    (sl.writeX r v).readX q = if q = r ∧ r ≠ 0 then v else sl.readX q := by
  by_cases hr : r = 0
  · have h : sl.writeX r v = sl := if_pos hr
    rw [h, if_neg (fun c => c.2 hr)]
  · have h : sl.writeX r v = { sl with x := sl.x.set r.toNat v r.isLt } := if_neg hr
    rw [h]
    by_cases hq : q = r
    · subst hq
      rw [if_pos ⟨rfl, hr⟩]
      exact (if_neg hr).trans (Vector.getElem_set_self ..)
    · have hn : r.toNat ≠ q.toNat := fun h => hq (BitVec.eq_of_toNat_eq h.symm)
      rw [if_neg (fun c => hq c.1)]
      unfold Slot.readX
      split
      · rfl
      · exact Vector.getElem_set_ne r.isLt q.isLt hn
theorem Slot.readF_writeF (sl : Slot) (r q : BitVec 5) (v : Word) :
    (sl.writeF r v).readF q = if q = r then v else sl.readF q := by
  unfold Slot.readF Slot.writeF
  by_cases hq : q = r
  · subst hq; simp
  · have : r.toNat ≠ q.toNat := fun h => hq (BitVec.eq_of_toNat_eq h.symm)
    simp [hq, this]

end Sys2Proof.Machine
end

