-- ==== Sys2Proof/Laws/Ops.lean ====
section
/-! SUPPORT. What the shared operations can do, each said once: completion, traps, parking, waking, reservations, local stores, rings. -/

namespace Sys2Proof.Machine

variable (s : State)

/-! Completion. -/

/-- The slot after a completion with a result. -/
theorem State.me_result (rd : BitVec 5) (v : Word) : (s.result rd v).me = (s.me.writeX rd v).retireAt ((s.me.writeX rd v).pc + 4) := by
  simp [State.result, State.setX, State.retire]
theorem State.me_retire : s.retire.me = s.me.retireAt (s.me.pc + 4) := by simp [State.retire]
theorem State.me_retireTo (p : Word) : (s.retireTo p).me = s.me.retireAt p := by simp [State.retireTo]
theorem State.slot_result_ne (rd : BitVec 5) (v : Word) {j : Nat} (h : j ≠ s.cur) : (s.result rd v).slot j = s.slot j := by
  unfold State.result State.setX State.retire
  rw [State.slot_updMe_ne _ _ (by simpa using h), State.slot_updMe_ne _ _ h]
theorem State.slot_retire_ne {j : Nat} (h : j ≠ s.cur) : s.retire.slot j = s.slot j := State.slot_updMe_ne _ _ h
theorem State.slot_retireTo_ne (p : Word) {j : Nat} (h : j ≠ s.cur) : (s.retireTo p).slot j = s.slot j := State.slot_updMe_ne _ _ h
theorem State.result_rest (rd : BitVec 5) (v : Word) : { s.result rd v with slots := s.slots } = s := rfl
theorem State.retire_rest : { s.retire with slots := s.slots } = s := rfl
/-- A write of x0 changes nothing, so a completion with a result in x0 is a plain one. -/
theorem State.result_x0 (v : Word) : s.result 0 v = s.retire := by
  have : s.setX 0 v = s.updMe id := rfl
  rw [State.result, this, State.retire, State.retire, State.updMe_updMe]; rfl
@[simp] theorem Slot.writeX_pc (sl : Slot) (r : BitVec 5) (v : Word) : (sl.writeX r v).pc = sl.pc := by
  unfold Slot.writeX; split <;> rfl
@[simp] theorem Slot.writeX_minstret (sl : Slot) (r : BitVec 5) (v : Word) : (sl.writeX r v).minstret = sl.minstret := by
  unfold Slot.writeX; split <;> rfl
theorem Slot.writeX_rest (sl : Slot) (r : BitVec 5) (v : Word) : { sl.writeX r v with x := sl.x } = sl := by
  unfold Slot.writeX; split <;> rfl

/-! Traps and parking. -/

/-- A trap is the entry of R245 in the current slot, and nothing else. -/
theorem State.me_trap (c : Nat) (tv : Word) : (s.trap c tv).me = s.me.enter s.me.pc (BitVec.ofNat 64 c) tv := by simp [State.trap]
theorem State.slot_trap_ne (c : Nat) (tv : Word) {j : Nat} (h : j ≠ s.cur) : (s.trap c tv).slot j = s.slot j := State.slot_updMe_ne _ _ h
theorem State.trap_rest (c : Nat) (tv : Word) : { s.trap c tv with slots := s.slots } = s := rfl
theorem State.me_parkOn (a : Await) : (s.parkOn a).me = { s.me with st := .parked, park := some a, wakeAt := none } := by
  simp [State.parkOn]
theorem State.slot_parkOn_ne (a : Await) {j : Nat} (h : j ≠ s.cur) : (s.parkOn a).slot j = s.slot j := State.slot_updMe_ne _ _ h
theorem State.parkOn_rest (a : Await) : { s.parkOn a with slots := s.slots } = s := rfl

/-! Changes of every slot. -/

theorem FMap.getD_map {α : Type} (m : FMap α) (f : Nat → α → α) (j : Nat) (d : α) (h : f j d = d) :
    FMap.getD (m.map (fun p => (p.1, f p.1 p.2))) j d = f j (FMap.getD m j d) := by
  induction m with
  | nil => exact h.symm
  | cons p t ih =>
    unfold FMap.getD at ih ⊢
    simp only [List.map_cons, FMap.get?_cons]
    by_cases e : p.1 = j
    · subst e; simp
    · simpa [e] using ih

/-- A change of every listed slot that leaves the slot in its reset state as it is. -/
theorem State.slot_mapSlots (f : Nat → Slot → Slot) (j : Nat) (h : f j {} = {}) : (s.mapSlots f).slot j = f j (s.slot j) :=
  FMap.getD_map s.slots f j {} h

theorem Slot.wake_default (p : Await → Bool) (c : Nat) : ({} : Slot).wake p c = {} := rfl
/-- Waking changes wakeAt alone. -/
theorem Slot.wake_rest (sl : Slot) (p : Await → Bool) (c : Nat) : { sl.wake p c with wakeAt := sl.wakeAt } = sl := by
  unfold Slot.wake; split <;> repeat (first | rfl | split)
theorem State.slot_wakeVc (vk : Nat) (p : Await → Bool) (j : Nat) :
    (s.wakeVc vk p).slot j = if j / 16 = vk then (s.slot j).wake p (s.cycOf vk) else s.slot j := by
  rw [State.wakeVc, State.slot_mapSlots]
  · by_cases h : j / 16 = vk <;> simp [h]
  · split <;> rfl
theorem State.slot_wakeAll (p : Await → Bool) (j : Nat) : (s.wakeAll p).slot j = (s.slot j).wake p (s.cycOf (j / 16)) :=
  State.slot_mapSlots _ _ _ rfl
theorem State.wakeVc_rest (vk : Nat) (p : Await → Bool) : { s.wakeVc vk p with slots := s.slots } = s := rfl
theorem State.wakeAll_rest (p : Await → Bool) : { s.wakeAll p with slots := s.slots } = s := rfl

/-- Clearing reservations changes resv alone. -/
theorem State.slot_dropResv (a n : Nat) (own : Option Nat) (j : Nat) :
    { (s.dropResv a n own).slot j with resv := (s.slot j).resv } = s.slot j := by
  rw [State.dropResv, State.slot_mapSlots _ _ _ rfl]
  split <;> (try split) <;> rfl
theorem State.dropResv_rest (a n : Nat) (own : Option Nat) : { s.dropResv a n own with slots := s.slots } = s := rfl
/-- The slot's own reservation stays. -/
theorem State.me_dropResv (a n : Nat) : (s.dropResv a n (some s.cur)).me = s.me := by
  show (s.dropResv a n (some s.cur)).slot s.cur = s.slot s.cur
  rw [State.dropResv, State.slot_mapSlots _ _ _ rfl]
  split <;> simp_all
/-- A write of the scope-miss latch changes no slot, or mip of the slots on its core. -/
theorem State.latchWritten_cases (a n : Nat) : s.latchWritten a n = s ∨ s.latchWritten a n =
    s.mapSlots (fun k sl => if (s.vc (k / 16)).place == some (a / 0x100000) then { sl with mip := sl.mip &&& 0b1101#4 } else sl) := by
  unfold State.latchWritten; extract_lets; split
  · exact .inr rfl
  · exact .inl rfl
theorem State.slot_latchWritten (a n j : Nat) : { (s.latchWritten a n).slot j with mip := (s.slot j).mip } = s.slot j := by
  rcases s.latchWritten_cases a n with h | h <;> rw [h]
  rw [State.slot_mapSlots _ _ _ (by split <;> rfl)]; split <;> rfl
theorem State.latchWritten_rest (a n : Nat) : { s.latchWritten a n with slots := s.slots } = s := by
  rcases s.latchWritten_cases a n with h | h <;> rw [h]; rfl
/-- A write of the resident code changes codeChanged of its core alone. -/
theorem State.codeWritten_cases (a n : Nat) : s.codeWritten a n = s ∨ s.codeWritten a n =
    { s with cores := FMap.upd s.cores (a / 0x100000) (fun x => { x with codeChanged := true }) } := by
  unfold State.codeWritten; extract_lets; split
  · exact .inr rfl
  · exact .inl rfl
theorem State.codeWritten_slots (a n : Nat) : (s.codeWritten a n).slots = s.slots := by
  rcases s.codeWritten_cases a n with h | h <;> rw [h]
theorem State.codeWritten_mem (a n : Nat) : (s.codeWritten a n).mem = s.mem := by
  rcases s.codeWritten_cases a n with h | h <;> rw [h]
theorem State.codeWritten_rest (a n : Nat) : { s.codeWritten a n with cores := s.cores } = s := by
  rcases s.codeWritten_cases a n with h | h <;> rw [h]
/-- A change of the slots alone, and then one of the cores alone. -/
theorem State.rest_trans {s t u : State} (h : { u with cores := t.cores } = t) (k : { t with slots := s.slots } = s) :
    { u with slots := s.slots, cores := s.cores } = s := by
  have h' : u = { t with cores := u.cores } := by rw [← h]
  have k' : t = { s with slots := t.slots } := by rw [← k]
  rw [h', k']
theorem State.slots_trans {s t u : State} (h : { u with slots := t.slots } = t) (k : { t with slots := s.slots } = s) :
    { u with slots := s.slots } = s := by
  have h' : u = { t with slots := u.slots } := by rw [← h]
  have k' : t = { s with slots := t.slots } := by rw [← k]
  rw [h', k']
/-- What a write does beside its bytes: of the slots resv and mip, of the cores codeChanged. -/
theorem State.wrote_rest (a n : Nat) : { s.wrote a n with slots := s.slots, cores := s.cores } = s := by
  unfold State.wrote
  exact State.rest_trans (State.codeWritten_rest _ a n) (State.slots_trans (State.latchWritten_rest _ a n) (State.dropResv_rest s a n _))
theorem State.wrote_mem_of {s t : State} (h : { t with slots := s.slots, cores := s.cores } = s) : t.mem = s.mem := by rw [← h]
theorem State.wrote_mem (a n : Nat) : (s.wrote a n).mem = s.mem := State.wrote_mem_of (s.wrote_rest a n)
/-- A ring that is not empty changes nothing here; an empty mailbox ring changes mip alone. -/
theorem State.clearSup_cases (vk ix : Nat) : s.clearSup vk ix = s ∨ s.clearSup vk ix =
    s.mapSlots (fun k sl => if k / 16 == vk && sl.supRing == ix then { sl with mip := sl.mip &&& 0b0111#4 } else sl) := by
  unfold State.clearSup; split
  · exact .inr rfl
  · exact .inl rfl
theorem State.slot_clearSup (vk ix j : Nat) : { (s.clearSup vk ix).slot j with mip := (s.slot j).mip } = s.slot j := by
  rcases s.clearSup_cases vk ix with h | h <;> rw [h]
  rw [State.slot_mapSlots _ _ _ (by split <;> rfl)]; split <;> rfl
theorem State.clearSup_rest (vk ix : Nat) : { s.clearSup vk ix with slots := s.slots } = s := by
  rcases s.clearSup_cases vk ix with h | h <;> rw [h]; rfl

/-- Two changes of one slot, of mip alone and of resv alone. -/
theorem Slot.only_trans {a b c : Slot} (h1 : { a with mip := b.mip } = b) (h2 : { b with resv := c.resv } = c) :
    { a with resv := c.resv, mip := c.mip } = c := by
  cases a; cases b; cases c
  simp only [Slot.mk.injEq] at h1 h2 ⊢
  simp_all

/-! Local memory. -/

/-- An access either takes the trap its check names or goes on at its address. -/
theorem State.lm_cases (ea : Word) (n : Nat) (store : Bool) (k : Nat → State) :
    (∃ c t, lmCheck s.me ea n store = .error (c, t) ∧ s.lm ea n store k = s.trap c t) ∨
    (∃ pa, lmCheck s.me ea n store = .ok pa ∧ s.lm ea n store k = k (lmAddr (s.coreOf s.vk) pa)) := by
  unfold State.lm
  cases h : lmCheck s.me ea n store with
  | error e => exact .inl ⟨e.1, e.2, rfl, rfl⟩
  | ok pa => exact .inr ⟨pa, rfl, rfl⟩
/-- A slot's store: the bytes, and of the slots no more than resv and mip. -/
theorem State.storeLm_mem (a v n : Nat) : (s.storeLm a v n).mem = Memory.writeN s.mem a v n := by
  unfold State.storeLm; rw [State.wrote_mem]
theorem State.mem_trans {s u : State} {m : Memory} (h : { u with slots := s.slots, cores := s.cores } = { s with mem := m }) :
    { u with slots := s.slots, cores := s.cores, mem := s.mem } = s := by
  have h' : { { u with slots := s.slots, cores := s.cores } with mem := s.mem } = s := by rw [h]
  exact h'
theorem State.storeLm_rest (a v n : Nat) : { s.storeLm a v n with slots := s.slots, cores := s.cores, mem := s.mem } = s := by
  unfold State.storeLm
  exact State.mem_trans (State.wrote_rest { s with mem := Memory.writeN s.mem a v n } a n)
theorem State.slot_storeLm (a v n j : Nat) :
    { (s.storeLm a v n).slot j with resv := (s.slot j).resv, mip := (s.slot j).mip } = s.slot j := by
  have h : (s.storeLm a v n).slot j =
      ((({ s with mem := Memory.writeN s.mem a v n }).dropResv a n (some s.cur)).latchWritten a n).slot j := by
    unfold State.storeLm State.wrote State.slot; rw [State.codeWritten_slots]
  rw [h]
  exact Slot.only_trans (State.slot_latchWritten _ a n j) (State.slot_dropResv { s with mem := Memory.writeN s.mem a v n } a n (some s.cur) j)

/-! Rings. -/

/-- A handle that passes its check goes on with its ring; any other takes the ring-protection trap. -/
theorem State.withHandle_cases (h : BitVec 3) (pos : Nat) (role : Role) (kinds : Ring → Bool) (k : Nat → State) :
    (∃ ix, s.handle? h role kinds = some ix ∧ s.withHandle h pos role kinds k = k ix) ∨
    (s.handle? h role kinds = none ∧ s.withHandle h pos role kinds k = s.trap 25 (rp0 h.toNat pos)) := by
  unfold State.withHandle
  cases hh : s.handle? h role kinds with
  | none => exact .inr ⟨rfl, rfl⟩
  | some ix => exact .inl ⟨ix, rfl, rfl⟩
theorem State.ring_setRing (vk ix j : Nat) (r : Ring) : (s.setRing vk ix r).ring vk j = if j = ix then r else s.ring vk j := by
  unfold State.setRing State.ring
  rw [State.vc_updVc_self]
  exact FMap.getD_set ..
/-- An advance of the tail: the ring, and of the slots wakeAt alone. -/
theorem State.ring_advTail (vk ix k j : Nat) : (s.advTail vk ix k).ring vk j =
    if j = ix then { s.ring vk ix with tail := ((s.ring vk ix).tail + k) % (s.ring vk ix).count, fill := (s.ring vk ix).fill + k }
    else s.ring vk j := State.ring_setRing ..
theorem State.advTail_rest (vk ix k : Nat) : { s.advTail vk ix k with slots := s.slots, vcs := s.vcs } = s := rfl
/-- The ring after an advance of the head. -/
def Ring.popped (r : Ring) (k : Nat) : Ring := { r with head := (r.head + k) % r.count, fill := r.fill - k }
/-- An advance of the head changes the ring as an update of the table does, and of the slots no more than wakeAt and mip. -/
theorem State.advHead_eq (vk ix k : Nat) : (s.advHead vk ix k) =
    ((s.setRing vk ix ((s.ring vk ix).popped k)).wakeVc vk
      (Await.onRoom ix)).clearSup vk ix := rfl
theorem State.advHead_vcs (vk ix k : Nat) : (s.advHead vk ix k).vcs = (s.setRing vk ix ((s.ring vk ix).popped k)).vcs := by
  rw [State.advHead_eq]
  exact (congrArg State.vcs (State.clearSup_rest _ vk ix) :)
theorem State.ring_advHead (vk ix k j : Nat) : (s.advHead vk ix k).ring vk j =
    if j = ix then (s.ring vk ix).popped k else s.ring vk j := by
  rw [← State.ring_setRing]
  unfold State.ring State.vc
  rw [State.advHead_vcs]; rfl
theorem State.advHead_rest (vk ix k : Nat) : { s.advHead vk ix k with slots := s.slots, vcs := s.vcs } = s := by
  rw [State.advHead_eq]
  rcases State.clearSup_cases (State.wakeVc (s.setRing vk ix ((s.ring vk ix).popped k)) vk
    (Await.onRoom ix)) vk ix with h | h <;> rw [h] <;> rfl

end Sys2Proof.Machine
end

