-- ==== Sys2Proof/Tests/Slice0.lean ====
section
/-! SUPPORT. Tests: terms that WellFormed refuses, words of the spec's encodings, single steps, and for every statement states and operands
that meet its hypotheses. -/

namespace Sys2Proof.Tests

open Sys2Proof Sys2Proof.Machine

/-! A small state: gang 1 with virtual core 0 on core 0 of die 0, whose slot 0 has its turn. -/

def slot0 : Nat := slotKey (vkey 1 0) 0
def vk0 : Nat := vkey 1 0
def sl0 : Slot := { st := .issuing, pc := 0x1000, segbase := 0x1000, seglim := 0x8000 }
def vc0 : VCore := { gid := 1, live := true, place := some 0, base := 0x1000 }
def base : State := {
  slots := [(slot0, sl0)], vcs := [(vk0, vc0)], cores := [(0, { en := true, handler := true })],
  dies := [(0, { up := true, tested := true, cyc := 16 })], gangs := [(1, { lmlimit := 0x8000, wslimit := 0x8000 })],
  cur := slot0, boot := .running, svc := 2, hostLink := true }

def me (f : Slot → Slot) : State := base.updMe f
def my (f : VCore → VCore) : State := base.updMyVc f
/-- x5 and x6 of the slot hold a and b. -/
def x56 (a b : Word) : State := (base.setX 5 a).setX 6 b
def mMode : State := me (fun sl => { sl with mode := .m })

/-! WellFormed refuses a term for each of its checks. -/

theorem test_wf_repf : (Instr.repf 0 0 0 0).wellFormed = false := by decide
theorem test_wf_mma_scales : (Instr.mma .i8 false false false 0 0 0 1).wellFormed = false := by decide
theorem test_wf_mmaN_scales : (Instr.mmaN .d false false false 0 0 0 1).wellFormed = false := by decide
theorem test_wf_vfma_type : (Instr.vfma false .i32 0 0 0).wellFormed = false := by decide
theorem test_wf_vmac_type : (Instr.vmac false .d 0 0).wellFormed = false := by decide
theorem test_wf_vcmp_un : (Instr.vcmp .un false .i32 0 0 0).wellFormed = false := by decide
theorem test_wf_ufunctions : (Instr.vrcp false .i32 0 0).wellFormed = false ∧ (Instr.vrsq false .d 0 0).wellFormed = false ∧
    (Instr.vexp2 false .i32 0 0).wellFormed = false ∧ (Instr.vlog2 false .d 0 0).wellFormed = false ∧
    (Instr.vtanh false .i32 0 0).wellFormed = false ∧ (Instr.vsig false .d 0 0).wellFormed = false := by decide
theorem test_wf_vcvt_same : (Instr.vcvt false false false .bf .bf 0 0).wellFormed = false := by decide
theorem test_wf_vcvt_sat : (Instr.vcvt false false true .f32 .bf 0 0).wellFormed = false := by decide
theorem test_wf_vcvt_sr : (Instr.vcvt false true false .i8 .f32 0 0).wellFormed = false := by decide
theorem test_wf_vqnt_target : (Instr.vqnt false false false .f32 .bf 0 0).wellFormed = false := by decide
theorem test_wf_copy_regs : (Instr.copy false 21 5 0).wellFormed = false ∧ (Instr.copy false 0 5 0).wellFormed = false ∧
    (Instr.copymc false 20 20 0).wellFormed = false := by decide

/-! Words written out from the encodings of F02 to F09. -/

theorem test_word_hpop : decode 0x0E40248B = .ok (.hpop 9 4) := by decide
theorem test_word_mout : decode 0x869081AB = .ok (.mout true 3 1 9) := by decide
theorem test_word_repf : decode 0x0936500B = .ok (.repf 12 3 1 1) := by decide
theorem test_word_rst : decode 0x045300DB = .ok (.rst 5 6 1) := by decide
theorem test_word_wenq : decode 0x0023C0DB = .ok (.wenq false 2 7 1) := by decide
theorem test_word_copy : decode 0x043ACA5B = .ok (.copy false 20 21 3) := by decide
theorem test_word_fitw : decode 0x00B5007B = .ok (.fitw 10 11) := by decide
theorem test_word_vntrack : decode 0x0C7302FB = .ok (.vntrack 5 6 7) := by decide
theorem test_word_vadd : decode 0x0020C1AB = .ok (.vadd false .f32 3 1 2) ∧ decode 0x0020F1AB = .ok (.vadd false .d 3 1 2) := by decide
theorem test_word_vaccz : decode 0x7400402B = .ok .vaccz := by decide
theorem test_word_rld : decode 0x000302DB = .ok (.rld 5 6) := by decide
theorem test_word_tst : decode 0x00B6355B = .ok (.tst 10 11 12) ∧ decode 0x52D7305B = .ok (.dst 13 14 10) := by decide
theorem test_word_bclose : decode 0x022044DB = .ok (.bclose 9 2) := by decide
theorem test_word_addi : decode 0xFFF28313 = .ok (.addi 6 5 0xFFF) := by decide
theorem test_word_fadd : decode 0x003100D3 = .ok (.fadd .s 1 2 3 .rne) := by decide
theorem test_word_halt : decode 0x0400000B = .ok .halt := by decide
theorem test_word_mret : decode 0x30200073 = .ok .mret := by decide
theorem test_word_mma : decode 0x00009E2B = .ok (.mma .d false false false 0 1 0 0) := by decide
theorem test_word_ramocas : decode 0x4263A2DB = .ok (.ramoCas 5 6 7 8) := by decide
theorem test_word_dtst : decode 0x54D737DB = .ok (.dtst 15 13 14 10) := by decide

/-! Single steps. Expected values are calculated from the tables of the spec. -/

theorem test_addi_wraps : (match exec (.addi 6 5 0xFFF) (x56 0 0) with
    | .next t => t.x 6
    | _ => 0) = 0xFFFFFFFFFFFFFFFF := by decide
theorem test_divw_overflow : (match exec (.divw 7 5 6) (x56 0x80000000 0xFFFFFFFF) with
    | .next t => t.x 7
    | _ => 0) = 0xFFFFFFFF80000000 := by decide
theorem test_sb_lb : (match exec (.sb 6 5 0) (x56 0x10 0x1FF) with
    | .next t => (match exec (.lb 7 5 0) t with
      | .next u => u.x 7
      | _ => 0)
    | _ => 0) = 0xFFFFFFFFFFFFFFFF := by decide
theorem test_segment_limit : (match exec (.ld 7 5 0) (x56 0x7FF9 0) with
    | .next t => (t.me.mcause, t.me.mtval, t.me.pc, t.me.mode == .m)
    | _ => (0, 0, 0, false)) = (30, 0x7FF9, 0x000F0000, true) := by decide
theorem test_ecall : (match exec .ecall base with
    | .next t => (t.me.mcause, t.me.mepc, t.me.pc)
    | _ => (0, 0, 0)) = (8, 0x1000, 0x000F0000) := by decide
theorem test_fadd_inexact : (match exec (.fadd .s 3 1 2 .rne) ((base.setF 1 0xFFFFFFFF3F800000).setF 2 0xFFFFFFFF33000000) with
    | .next t => (t.f 3, t.me.fflags)
    | _ => (0, 0)) = (0xFFFFFFFF3F800000, 1) := by decide
theorem test_fdiv_zero : (match exec (.fdiv .s 3 1 2 .rne) ((base.setF 1 0xFFFFFFFF3F800000).setF 2 0xFFFFFFFF00000000) with
    | .next t => (t.f 3, t.me.fflags)
    | _ => (0, 0)) = (0xFFFFFFFF7F800000, 8) := by decide
theorem test_amoadd_w : (match exec (.amoadd false false .w 7 6 5) (x56 0x20 3) with
    | .next t => (t.x 7, Memory.word t.mem (lmAddr 0 0x1020))
    | _ => (1, 0)) = (0, 3) := by decide
theorem test_accum_clamps : accumI32 0x7FFFFFFF 1 = (0x7FFFFFFF, fSAT) := by decide
theorem test_withFetchWord : (match step (State.reset.withFetchWord 32 0x00500293) with
    | .next t => t.x 5
    | _ => 0) = 5 := by decide

/-! Hypotheses met: a state and operands for every clause of every statement that has hypotheses. -/

def nopLine : Line := ⟨0x40, [0x00000013, 0x00000013, 0x00000013, 0x00000013]⟩
def turnState : State := { me (fun sl => { sl with line := some nopLine }) with agenda := [.turn], turns := [slot0] }

theorem meets_StepKeepsForm : State.reset.Inv ∧ base.Inv ∧ ∃ t, step State.reset = .next t := ⟨by unfold State.Inv; decide, by unfold State.Inv; decide, _, rfl⟩
def turnNow : State := { turnState with agenda := [], cur := slot0, turns := [] }
theorem meets_StepRunsDecoded : (turnState.boot ≠ .rejected ∧ turnState.agenda = [.turn] ∧ turnState.turns = [slot0] ∧
    turnNow.me.st = .issuing ∧ turnNow.atTurn slot0 = true ∧ turnNow.me.hold = none ∧ turnNow.me.reply = none) ∧
    turnNow.turnHold = none ∧ (turnNow.me.asyncReady = false ∧ turnNow.me.irqReady = false ∧ turnNow.inHandler = false) ∧
    turnNow.fetchAt slot0 turnNow.me.pc = .word 0x13 ∧ decode 0x13 = .ok (.addi 0 0 0) := ⟨by decide, rfl, by decide, rfl, by decide⟩
theorem meets_DecodeEncode : (Instr.mma .bf false true true 1 3 5 9).wellFormed = true ∧ (encode (.mma .bf false true true 1 3 5 9)).isSome = true ∧
    Instr.mret.wellFormed = true ∧ (encode .mret).isSome = true := by decide
theorem meets_JumpsAndBranches : let p := fun (s : State) (o : BitVec 12) => s.me.pc + BitVec.ofInt 64 (2 * o.toInt)
    (p base 2).getLsbD 1 = false ∧ (p base 1).getLsbD 1 = true ∧ base.x 5 = base.x 6 ∧ (x56 1 2).x 5 ≠ (x56 1 2).x 6 ∧
    ((x56 1 2).x 5).toInt < ((x56 1 2).x 6).toInt ∧ ((x56 1 2).x 5).toNat < ((x56 1 2).x 6).toNat := by decide
theorem meets_SegmentCheck : let m : Slot := { sl0 with mode := .m }
    sl0.mode = .u ∧ (0x7FF8 : Word).toNat + 8 ≤ sl0.seglim.toNat ∧ sl0.seglim.toNat < (0x7FF9 : Word).toNat + 8 ∧ m.mode = .m ∧
    (0xFFFF8 : Word).toNat + 8 ≤ 0x100000 ∧ 0x100000 < (0xFFFF9 : Word).toNat + 8 := by decide
theorem meets_Loads : Claim.At (x56 0x7FF8 0) ((x56 0x7FF8 0).x 5 + BitVec.ofInt 64 (0 : BitVec 12).toInt) 8 false 0x8FF8 := ⟨0x8FF8, by decide, by decide⟩
theorem meets_Stores : Claim.At (x56 0x7FF8 0) ((x56 0x7FF8 0).x 5 + BitVec.ofInt 64 (0 : BitVec 12).toInt) 8 true 0x8FF8 := ⟨0x8FF8, by decide, by decide⟩
theorem meets_OutsideTraps : lmCheck (x56 0x8000 0).me 0x8000 1 false = .error (30, 0x8000) ∧
    lmCheck mMode.me 0x100000 1 true = .error (7, 0x100000) := by decide
theorem meets_LocalAtomics : let s := x56 0x7FF8 3
    ((s.x 5).toNat % 8 = 0 ∧ Claim.At s (s.x 5) 8 false 0x8FF8) ∧ Claim.At s (s.x 5) 8 true 0x8FF8 ∧
    (s.updMe (fun sl => { sl with resv := some (0x8FF8 / 8 * 8) })).me.resv = some (0x8FF8 / 8 * 8) ∧ s.me.resv ≠ some (0x8FF8 / 8 * 8) :=
  ⟨⟨by decide, 0x8FF8, by decide, by decide⟩, ⟨0x8FF8, by decide, by decide⟩, by decide, by decide⟩
theorem meets_Exceptions : let a := me (fun sl => { sl with p27 := [0x1040] })
    let b := me (fun sl => { sl with mip := 2, mie := 2 })
    (mMode.me.mode = .m ∧ mMode.myVc.lead ≠ some mMode.ix) ∧ base.me.mode = .u ∧
    (a.me.st = .issuing ∧ a.me.takes = true ∧ a.me.p27 = 0x1040 :: []) ∧
    (b.me.st = .issuing ∧ b.me.takes = true ∧ b.me.asyncReady = false ∧ b.me.irq = some 1) := by decide
theorem meets_CsrAccess : mMode.me.mode = .m ∧ ((0x340, 0xFFFFFFFFFFFFFFFF) : BitVec 12 × Word) ∈ Claim.csrKeeps ∧ (5 : XReg) ≠ 0 ∧
    base.me.mode = .u ∧ csrClass 0x123 = .absent := by decide

/-- f1 and f2 of the slot hold a and b. -/
def f12 (a b : Word) : State := (base.setF 1 a).setF 2 b

theorem meets_FpMovesAndCompares : let s := f12 0xFFFFFFFF3F800000 0xFFFFFFFF80000000
    let n := fun (s : State) => (fmt32.value (s.fp .s 1)).isNan || (fmt32.value (s.fp .s 2)).isNan
    ((s.f 1).extractLsb' 32 32 = 0xFFFFFFFF#32 ∧ (s.f 2).extractLsb' 32 32 = 0xFFFFFFFF#32) ∧ n s = false ∧ n base = true ∧
    (numCmp (fmt32.value (s.fp .s 2)) (fmt32.value (s.fp .s 1)) < 0 ∧ ¬ numCmp (fmt32.value (s.fp .s 1)) (fmt32.value (s.fp .s 2)) ≤ 0) ∧
    numCmp (fmt32.value (s.fp .s 1)) (fmt32.value (s.fp .s 1)) = 0 := by decide
theorem meets_FpArithmetic : modeOfRm .rmm base.me.frm = some .rmm ∧ modeOfRm .dyn base.me.frm = some .rne := by decide
theorem meets_FpModeTraps : 5 ≤ (me (fun sl => { sl with frm := 5 })).me.frm.toNat := by decide
theorem meets_Threads : let s := x56 0x2000 0x8000
    let p := me (fun sl => { sl with p30 := some 8 })
    let two : State := s.setSlot (slotKey vk0 15) sl0
    let m := (s.x 6).toNat % 65536
    (s.x 5 &&& 3 = 0 ∧ m = 2 ^ 15 ∧ m ≠ 0 ∧ m.testBit s.ix = false ∧ m < 2 ^ slotCount s.myVc ∧ s.forkable 15 = true) ∧
    (base.x 5 &&& 3 = 0 ∧ (base.x 6).toNat % 65536 = 0) ∧ (x56 2 0).x 5 &&& 3 ≠ 0 ∧ base.joined ((base.x 5).toNat % 65536) = true ∧
    two.joined 0x8000 = false ∧ p.me.pendingAny = true ∧ base.me.pendingAny = false ∧ base.me.mode = .u := by decide

/-- Its slot 1, at a boundary that may change it. -/
def at1 (sl : Slot) (v : VCore) : State := { base with slots := [(slot0, sl0), (slot0 + 1, sl)], vcs := [(vk0, v)], ev := { key := slot0 + 1 } }

theorem meets_BoundaryChanges : let f : ForkReq := ⟨1, sl0, 15⟩
    let s := at1 {} { vc0 with forks := [f] }
    let h := at1 { st := .halted, haltAt := 15 } vc0
    let p := at1 { st := .parked, park := some .interrupt, wakeAt := some 16 } vc0
    let t := at1 { st := .trapped, trap := some .reservedCode, wakeAt := some 16, offender := true } vc0
    let e := at1 { st := .trapped, trap := some .reservedCode, wakeAt := some 16, ends := true } vc0
    let k := slot0 + 1
    (s.canForkStart k = true ∧ (s.vc (k / 16)).forks.find? (fun f => f.slot == k % 16) = some f ∧ (s.vc (k / 16)).holds = []) ∧
    h.canEmpty k = true ∧ p.canUnpark k = true ∧ (t.canRelease k = true ∧ (t.slot k).ends = false ∧ (t.vc (k / 16)).holds = []) ∧
    (e.canRelease k = true ∧ (e.slot k).ends = true) := by decide
theorem meets_BindingsAndSemaphores : let mine := my (fun v => { v with binds := [(3, 0)] })
    let other := my (fun v => { v with binds := [(3, 15)] })
    let s := (x56 65535 1).updMyVc (fun v => { v with sems := v.sems.set 31 65535 })
    FMap.get? base.myVc.binds 3 = none ∧ FMap.get? mine.myVc.binds 3 = some mine.ix ∧
    (15 ≠ other.ix ∧ FMap.get? other.myVc.binds 3 = some 15) ∧ FMap.get? other.myVc.binds 3 ≠ some other.ix ∧
    (s.x 5).toNat % 65536 ≤ (s.myVc.sems[31]).toNat ∧ (s.myVc.sems[0]).toNat < (s.x 6).toNat % 65536 := by decide

/-- Ring 63 of kind k, two slots of n eight-byte words, reached through handle 0 in role r. -/
def ringAt (k : BitVec 3) (n : BitVec 10) (role : BitVec 8) (fill : Nat) (s : State) : State :=
  (s.updMe (fun sl => { sl with h := sl.h.set 0 (role + 63) })).updMyVc (fun v =>
    { v with rings := [(63, { kind := k, valid := true, lgcnt := 1, size8 := n, base := 0x2000, tail := fill % 2, fill := fill })] })
/-- A valid image of a ring in memory at 0x1000 of the core. -/
def withImage (s : State) : State := { s with mem := Memory.setWord s.mem (lmAddr 0 0x1000) 0x118 }

theorem meets_RingDescriptors : let s := withImage (x56 63 0)
    let w := Memory.words s.mem 0x1000 4
    let z := x56 63 0
    let y := Memory.words z.mem 0x1000 4
    ((s.x 5).toNat < 64 ∧ (s.x 6).toNat % 8 = 0 ∧ lmCheck s.me (s.x 6) 32 false = .ok 0x1000 ∧ lmCheck s.me (s.x 6) 32 true = .ok 0x1000) ∧
    (s.levelInTransit s.vk 63 = false ∧ (ringOfWords w[0]! w[1]! w[2]!).valid = true ∧ s.ringReject 63 w[0]! w[1]! w[2]! w[3]! = 0) ∧
    ((z.x 5).toNat < 64 ∧ z.levelInTransit z.vk 63 = false ∧ (ringOfWords y[0]! y[1]! y[2]!).valid = false ∧ z.myVc.ringBusy 63 = false) ∧
    64 ≤ ((x56 64 0).x 5).toNat := by decide
theorem meets_RingTransfers : let c := ringAt 0 1 0x40 2 (x56 2 1)
    let p := ringAt 0 1 0x80 0 (x56 2 1)
    let ce := ringAt 0 1 0x40 0 (x56 2 1)
    let pf := ringAt 0 1 0x80 2 (x56 2 1)
    let n := fun (s : State) => (s.x 5).toNat
    let r := fun (s : State) => s.ring s.vk 63
    (c.handle? 0 .consumer (kindIs [0, 1, 3, 4]) = some 63 ∧ n c ≤ (r c).count ∧ n c ≤ (r c).fill) ∧
    (ce.handle? 0 .consumer (kindIs [0, 1, 3, 4]) = some 63 ∧ n ce ≤ (r ce).count ∧ (r ce).fill < n ce) ∧
    (p.handle? 0 .producer (kindIs [0, 2, 4, 5]) = some 63 ∧ n p ≤ (r p).count ∧ n p ≤ (r p).room) ∧
    (pf.handle? 0 .producer (kindIs [0, 2, 4, 5]) = some 63 ∧ n pf ≤ (r pf).count ∧ (r pf).room < n pf) ∧
    (c.handle? 0 .consumer (kindIs [0, 1, 3]) = some 63 ∧ 0 < n c ∧ 1 ≤ (r c).fill) ∧
    (p.handle? 0 .producer (kindIs [0, 2, 5]) = some 63 ∧ 0 < n p ∧ (r p).fill < (r p).count) ∧
    (ce.handle? 0 .consumer (kindIs [0, 1, 3]) = some 63 ∧ (r ce).fill = 0) ∧
    (let c3 := ringAt 0 1 0x40 2 (x56 3 0)
     let p3 := ringAt 0 1 0x80 0 (x56 3 0)
     c3.handle? 0 .consumer (kindIs [0, 1, 3]) = some 63 ∧ (r c3).count < n c3 ∧ (r c3).fill < n c3 ∧
     p3.handle? 0 .producer (kindIs [0, 2, 5]) = some 63 ∧ (r p3).count < n p3 ∧ (r p3).room < n p3) ∧
    (let z := fun (role : BitVec 8) => ringAt 0 1 role 1 base
     (z 0x40).handle? 0 .consumer (kindIs [0, 1, 3]) = some 63 ∧ (z 0x80).handle? 0 .producer (kindIs [0, 2, 5]) = some 63 ∧ n (z 0x80) = 0) ∧
    base.handle? 0 .producer (kindIs [0, 2, 4, 5]) = none ∧ base.handle? 0 .consumer (kindIs [0, 1, 3]) = none := by decide
theorem meets_FullEmpty : let s := x56 0x10 1024
    let f : State := { s with full := [0x1010] }
    let b := x56 0x11 0
    ((s.x 5).toNat % 8 = 0 ∧ lmCheck s.me (s.x 5) 8 false = .ok 0x1010 ∧ lmCheck s.me (s.x 5) 8 true = .ok 0x1010) ∧ s.isFull 0x1010 = false ∧
    (lmCheck f.me (f.x 5) 8 false = .ok 0x1010 ∧ f.isFull 0x1010 = true) ∧
    (∀ n : Nat, n ∈ [1024, 1025] → (x56 0x10 (BitVec.ofNat 64 n)).me.hold = none ∧
      lmCheck (x56 0x10 (BitVec.ofNat 64 n)).me 0x10 (8 * ((x56 0x10 (BitVec.ofNat 64 n)).x 6).toNat) true = .ok 0x1010) ∧
    ((b.x 6).toNat = 0 ∧ (s.updMe (fun sl => { sl with hold := some (.span 0x1010 1025) })).me.hold = some (.span 0x1010 1025)) ∧
    (0 < (s.x 6).toNat ∧ s.me.hold = none ∧ lmCheck s.me (s.x 5) (8 * (s.x 6).toNat) true = .ok 0x1010) ∧
    lmCheck b.me (BitVec.ofNat 64 ((b.x 5).toNat / 8 * 8)) 8 false = .ok 0x1010 ∧ (b.x 5).toNat % 8 ≠ 0 := by decide

/-- A member of group 255. -/
def member (v : VCore) (s : State) : State := { s with vcs := [(vk0, { v with groups := [1, 255] })] }

theorem meets_Guyline : let s := member vc0 (x56 0x7FF 0)
    let p := member { vc0 with gpend := [(1, true)] } (x56 0x7FF 0)
    let a := s.updMe (fun sl => { sl with arrived := some sl.pc })
    let e : State := { s with groups := [(255, { valid := true, isOpen := true, members := [vk0], arrivals := [(vk0, 1)] })], ev := { key := 255 } }
    (s.memberOf ((s.x 5).toNat % 256) = some 1 ∧ s.gpending 1 = false) ∧ (p.memberOf ((p.x 5).toNat % 256) = some 1 ∧ p.gpending 1 = true) ∧
    (a.memberOf 255 = some 1 ∧ a.gpending 1 = false ∧ a.me.arrived = some a.me.pc) ∧ s.me.arrived = none ∧ e.episodeComplete e.ev.key = true := by
  decide
theorem meets_WorkRings : let out := fun (role : Nat) => (ringAt 4 2 (BitVec.ofNat 8 role) 1 base).updMyVc (fun v =>
      { v with rings := v.rings.map (fun (q : Nat × Ring) => (q.1, { q.2 with scope := 1, sgrp := 255 })) })
    let p := ringAt 4 2 0x80 1 (x56 0x7FF0 0)
    let pf := ringAt 4 2 0x80 2 (x56 0x7FF0 0)
    let c := ringAt 4 2 0x40 1 (x56 0x7FF0 0)
    let ce := ringAt 4 2 0x40 0 (x56 0x7FF0 0)
    let r := fun (s : State) => s.ring s.vk 63
    (p.handle? 0 .producer (kindIs [4]) = some 63 ∧ p.workOk (r p) = true ∧ (p.x 5).toNat % 8 = 0 ∧ lmCheck p.me (p.x 5) 16 false = .ok 0x8FF0 ∧
      (r p).fill < (r p).count ∧ p.fenced (workScope (r p)) = []) ∧
    (pf.handle? 0 .producer (kindIs [4]) = some 63 ∧ pf.workOk (r pf) = true ∧ (r pf).fill = (r pf).count) ∧
    (c.handle? 0 .consumer (kindIs [4]) = some 63 ∧ c.workOk (r c) = true ∧ lmCheck c.me (c.x 5) 16 true = .ok 0x8FF0 ∧ 0 < (r c).fill) ∧
    (ce.handle? 0 .consumer (kindIs [4]) = some 63 ∧ ce.workOk (r ce) = true ∧ (r ce).fill = 0) ∧
    (∀ role ∈ [0x80, 0x40], (out role).handle? 0 .producer (kindIs [4]) = (if role = 0x80 then some 63 else none) ∧
      (out role).handle? 0 .consumer (kindIs [4]) = (if role = 0x40 then some 63 else none) ∧
      (r (out role)).scope = 1 ∧ (out role).memberOf (r (out role)).sgrp.toNat = none) := by decide

/-- An access of slot 0 that is not acknowledged. -/
def busyState : State := my (fun v => { v with unacked := [{ id := 7, slot := 0, dests := [.vc vk0] }] })
/-- Virtual core 1 of the gang on core 1 of the same trellis, whose slot 0 runs too. -/
def pair : State := { base with
  vcs := [(vk0, vc0), (vk0 + 1, { vc0 with vcid := 1, place := some 1 })], slots := [(slot0, sl0), (slot0 + 16, sl0)] }

theorem meets_Fences : (base.me.hold = none ∧ base.fenced .core = []) ∧ (busyState.me.hold = none ∧ busyState.fenced .core ≠ []) ∧
    (1 : BitVec 4) ≠ 0 ∧ base.alignPeers = [] ∧
    (vk0 + 1 ∈ pair.alignPeers ∧ pair.me.hold = none ∧ 0 < (4095 : BitVec 12).toNat ∧ pair.me.pendingAny = false ∧
      (pair.slot (slotKey (vk0 + 1) pair.ix)).atAlign pair.me.pc = false) := by decide
theorem meets_SegmentsAndTables : let s := x56 0x7000 0x1000
    let b := x56 0x7000 0x2000
    let t := x56 63 0
    let l := t.updMyVc (fun v => { v with lt := [(63, [0, 1, 2, 3])] })
    let z := x56 64 0
    ((s.x 5).toNat % 4096 = 0 ∧ (s.x 6).toNat % 4096 = 0 ∧ (s.x 5).toNat + (s.x 6).toNat ≤ s.launchLenOf s.vk) ∧
    b.launchLenOf b.vk < (b.x 5).toNat + (b.x 6).toNat ∧
    ((t.x 5).toNat < 64 ∧ (t.x 6).toNat % 8 = 0 ∧ lmCheck t.me (t.x 6) 32 false = .ok 0x1000 ∧
      layoutReject (Memory.words t.mem 0x1000 4) (t.me.mode == .u) (t.myVc.layoutBusy 63) = 0) ∧
    64 ≤ (z.x 5).toNat ∧ (lmCheck l.me (l.x 6) 32 true = .ok 0x1000 ∧ l.myVc.layoutWords 63 = [0, 1, 2, 3]) := by decide
theorem meets_Holding : let q := my (fun v => { v with holds := [⟨.quiesce, true, 0⟩] })
    let s := x56 8 3
    (base.me.mode = .u ∧ base.me.st = .issuing) ∧ (q.me.mode = .u ∧ q.myVc.holds.find? (fun h => h.qsce) = some ⟨.quiesce, true, 0⟩) ∧
    base.myVc.holds.find? (fun h => h.qsce) = none ∧ ¬ (((x56 4 0).x 5).toNat < 4 ∨ ((x56 4 0).x 5).toNat = 8) ∧
    ((s.x 5).toNat = 8 ∧ isF (s.dieOf s.vk) = true) ∧ ((s.x 6).toNat < 4 ∧ s.dieOf s.vk ≠ (s.x 6).toNat) := by decide

/-- The slot is bound to engine e and holds the word of an MZERO after the REPF of one word at its pc. -/
def bound (e : Nat) (s : State) : State := s.updMyVc (fun v => { v with binds := [(e, 0)] })
def mzeroWord : InsnWord := (encode (.mzero 0)).getD 0
def frameState (cnt : Word) : State := (bound 0 (x56 cnt 0)).updMe (fun sl => { sl with line := some ⟨0x40, [0, mzeroWord]⟩ })
def framed (c : Nat) (stop : Option (Nat × Word)) : State := (frameState 1).updMe (fun sl =>
  { sl with hold := some (.frame [mzeroWord] c 0 0 stop), insn := (encode (.repf 5 0 0 0)).getD 0 })
def presented : State := { framed 1 none with ev := { key := slot0 } }

theorem meets_RepeatFrame : (base.me.hold = none ∧ 0 + 1 ≤ ((x56 0x100000000 0).x 5).toNat / 2 ^ 32 % 16) ∧
    ((frameState 0).me.hold = none ∧ ((frameState 0).x 5).toNat / 2 ^ 32 % 16 < 1 ∧ ((frameState 0).x 5).toNat % 2 ^ 32 = 0 ∧
      ((frameState 1).x 5).toNat % 2 ^ 32 ≠ 0) ∧
    ((frameState 1).fetchAt slot0 ((frameState 1).me.pc + 4) = .word mzeroWord ∧ (frameState 1).frameCheck mzeroWord = none) ∧
    ((framed 0 none).me.hold = some (.frame [mzeroWord] 0 0 0 none) ∧ (framed 0 none).frameBusy slot0 = false) ∧
    (framed 1 (some (29, 0))).me.hold = some (.frame [mzeroWord] 1 0 0 (some (29, 0))) ∧
    (presented.canPresent slot0 = true ∧ decode (presented.slot slot0).insn = .ok (.repf 5 0 0 0) ∧ decode mzeroWord = .ok (.mzero 0)) ∧
    ∃ u, ({ presented with cur := slot0 }).acceptW (stagger (.mzero 0) 0 0) = .ok u :=
  ⟨by decide, by decide, ⟨rfl, rfl⟩, by decide, by decide, by decide, _, rfl⟩

/-- Configured for one row of one column; ring 63 has one record. -/
def small (s : State) : State := s.updMyVc (fun v => { v with pcfg0 := { v.pcfg0 with m := 1, n := 1 }, cfg0 := { v.cfg0 with m := 1, n := 1 } })
theorem free_bound (e : Nat) (h : e < 4) : Claim.Free (bound e base) e := by
  match e, h with
  | 0, _ => exact ⟨by decide, by decide, by decide⟩
  | 1, _ => exact ⟨by decide, by decide, by decide⟩
  | 2, _ => exact ⟨by decide, by decide, by decide⟩
  | 3, _ => exact ⟨by decide, by decide, by decide⟩
theorem meets_MatrixAcceptance : let c := small (bound 0 (ringAt 0 17 0x40 1 (x56 0x0000100001010101 0)))
    let e := small (bound 0 (ringAt 0 17 0x40 0 (x56 0 0)))
    let p := small (bound 0 (ringAt 0 17 0x80 0 (x56 0x15 0)))
    let k := cfgOfWord (c.x 5)
    let bad := cfgOfWord 0x41
    (c.x 5 &&& 0xFFF0000000F88080 = 0 ∧ k.m ≤ 64 ∧ k.n ≤ 64 ∧ k.cwen = false) ∧ 64 < bad.m ∧
    (c.handle? 0 .consumer (feeds 0) = some 63 ∧ 4 * (c.myVc.pcfg 0).n ≤ (c.ring c.vk 63).size ∧
      (c.myVc.pcfg 0).m ≤ (c.ring c.vk 63).count ∧ (c.myVc.pcfg 0).m ≤ c.availFill c.vk 0 63) ∧
    (e.handle? 0 .consumer (feeds 0) = some 63 ∧ e.availFill e.vk 0 63 < (e.myVc.pcfg 0).m) ∧
    ((p.x 5).toNat < 128 ∧ bit (p.x 5) 3 = false ∧ (outTgt (p.x 5)).isNarrow = true ∧ (p.myVc.pcfg 0).i32 = false ∧
      tgtIsD (outTgt (p.x 5)) = false ∧ p.me.frm.toNat ≤ 4 ∧ p.handle? 0 .producer (kindIs [0]) = some 63 ∧
      outBytes (p.x 5) (p.myVc.pcfg 0).n ≤ (p.ring p.vk 63).size ∧ (p.myVc.pcfg 0).m ≤ p.availRoom p.vk 0 63) ∧
    base.handle? 0 .consumer (feeds 0) = none := by decide
theorem meets_MmaAcceptance : let s := small (bound 0 (ringAt 0 17 0x40 1 base))
    let c := s.myVc.pcfg 0
    let l : State := { base with vcs := [(vk0, { vc0 with place := some 0x400 })] }
    let off := ((s.myVc.pwp[(0 : WPtr).toNat]'(by decide)).setWidth 20).toNat
    (c.i32 = fmtIsI8 .bf ∧ fmtIsD .bf = false ∧ s.handle? 0 .consumer (feeds 0) = some 63 ∧ c.m * c.kb ≠ 0 ∧ 136 ≤ (s.ring s.vk 63).size ∧
      c.m ≤ (s.ring s.vk 63).count ∧ off % 8192 = 0 ∧ (∀ b < c.kb, (off + 8192 * b) % 0x100000 < s.share s.vk) ∧
      (∀ b < c.kb, (off + 16 * b) % 0x100000 < s.share s.vk) ∧ c.m ≤ s.availFill s.vk 0 63) ∧
    (fmtIsD .d = true ∧ isF (s.dieOf s.vk) = true ∧ isF (l.dieOf l.vk) = false ∧ l.me.mode = .u) ∧
    FMap.get? base.myVc.binds 0 ≠ some base.ix ∧ (FMap.get? s.myVc.binds 0 = some s.ix ∧ (bound 0 base).handle? 0 .consumer (feeds 0) = none) := by
  decide
/-- Handles 0 (producer) and 1, 2 (consumers) on rings 0, 1 and 2 with one slot of 8 bytes filled in the last two. -/
def vecState : State :=
  let r : Ring := { valid := true, lgcnt := 2, size8 := 32 }
  let s := (bound 1 base).updMyVc (fun v => { v with rings := [(0, r), (1, { r with fill := 1, tail := 1 }), (2, { r with fill := 1, tail := 1 })] })
  s.updMe (fun sl => { sl with h := ((sl.h.set 0 0x80).set 1 0x41).set 2 0x42 })
theorem meets_EngineModeTraps : let s := vecState.updMe (fun sl => { sl with frm := 7 })
    5 ≤ s.me.frm.toNat ∧ FMap.get? s.myVc.binds 1 = some s.ix ∧ (s.handle? 0 .producer (kindIs [0])).isSome = true ∧
    (s.handle? 1 .consumer (feeds 1)).isSome = true ∧ isF (s.dieOf s.vk) = true ∧ FMap.get? (bound 0 base).myVc.binds 0 = some (bound 0 base).ix := by decide
theorem meets_VectorAcceptance : let z := fun (ix : Nat) => (vecState.ring vecState.vk ix).size
    vecState.handle? 0 .producer (kindIs [0]) = some 0 ∧ vecState.handle? 1 .consumer (feeds 1) = some 1 ∧
    vecState.handle? 2 .consumer (feeds 1) = some 2 ∧ (fOnly (.vadd false .d 0 1 2) = true ∧ isF (vecState.dieOf vecState.vk) = true) ∧
    z 1 / 8 * 8 ≤ z 2 ∧ (z 1 / 8 * 8 + 7) / 8 * 8 ≤ z 0 ∧ vecState.me.frm.toNat ≤ 4 ∧ z 1 / 2 ≤ 128 ∧ 136 ≤ z 0 ∧ 256 ≤ z 0 ∧
    1 ≤ vecState.availFill vecState.vk 1 1 ∧ 1 ≤ vecState.availFill vecState.vk 1 2 ∧ 3 ≤ vecState.availRoom vecState.vk 1 0 ∧
    3 ≤ (vecState.ring vecState.vk 0).count ∧ (vecState.myVc.accepted 1).length < 8 := by decide

/-- The engine e of the virtual core ev.key has q at the head of its queue, or r in progress. -/
def engine (e : Nat) (q : QEntry) (s : State) : State := { s.updMyVc (fun v => { v with queue := [(e, [q])] }) with ev := { key := vk0 } }
def runs (e : Nat) (r : Running) (s : State) : State := { s.updMyVc (fun v => { v with run := [(e, r)] }) with ev := { key := vk0 } }
def entryOf (i : Instr) : QEntry := { word := (encode i).getD 0, slot := 0 }

theorem meets_EngineSteps : let st := fun (i : Instr) => (engine 0 (entryOf i) base).matrixCanStart vk0 = true ∧ decode (entryOf i).word = .ok i
    let m : Instr := .mma .bf true false false 1 0 0 0
    let r : Running := { entry := entryOf m, finished := true }
    let v : Running := { entry := entryOf .vaccz }
    st (.mcfg 1 5) ∧ st (.mzero 0) ∧ st (.wpset 7 5) ∧ st .wswapq ∧
    ((runs 0 r base).matrixCanEnd vk0 = true ∧ FMap.get? ((runs 0 r base).vc vk0).run 0 = some r ∧ (mmaArgs r.entry).isSome = true) ∧
    ((engine 1 (entryOf .vaccz) base).vectorCanStart vk0 = true ∧ ((engine 1 (entryOf .vaccz) base).vc vk0).queueOf 1 = entryOf .vaccz :: []) ∧
    ((runs 1 v base).vectorCanEnd vk0 = true ∧ decode v.entry.word = .ok .vaccz ∧ (vecArgs .vaccz).isSome = true) ∧
    (engine 0 (entryOf (.mzero 0)) { pair with vcs := [(vk0, vc0), (vk0 + 1, { vc0 with vcid := 1, fidx := 1 })] }).canSwitch 0 0 = some vk0 := by decide
/-- A copy of one element of 8 bytes within the LM, from ring 63. -/
def copyEntry : QEntry := { entryOf (.copy true 20 21 0) with ra := some 63, base := 0x1000, lim := 0x7000 }
def copyMem (w0 : Word) (s : State) : State := { s with mem := Memory.setWords s.mem (lmAddr 0 0x2000) [w0, 0x0000000100000001] }
def copyState : State := engine 2 copyEntry (copyMem 1 (ringAt 0 13 0x40 1 base))
def badCopy : State := engine 2 copyEntry (copyMem 8 (ringAt 0 13 0x40 1 base))
set_option maxRecDepth 8000 in
theorem meets_Copies : let s := bound 2 (ringAt 0 13 0x40 1 (x56 0 0))
    let w := bound 3 (ringAt 0 13 0x40 1 (x56 0 0))
    let rec_ := wordsOfBytes (copyState.slotBytes vk0 63 0 104)
    let r : Running := { entry := copyEntry, record := [1, 0x0000000100000001], src := [0x2000000, 0, 0, 0], dst := [0x3000000, 0, 0, 0] }
    let d := runs 2 { r with finished := true } base
    let f := runs 2 { r with fault := some (3, 0x40) } (bound 2 base)
    (s.handle? 0 .consumer (feeds 2) = some 63 ∧ 104 ≤ (s.ring s.vk 63).size ∧ s.x 5 &&& 0xFFFF000000FCC0C0 = 0 ∧ bits (s.x 5) 31 24 = 0) ∧
    (w.handle? 0 .consumer (feeds 3) = some 63 ∧ tgtRzOk (w.x 5) = true ∧ tgtHbm (w.x 5) = false) ∧
    (copyState.copyCanStart vk0 = true ∧ (copyState.vc vk0).queueOf 2 = copyEntry :: [] ∧ copyFields copyEntry = some (false, true, 20) ∧
      recMalformed rec_ = false ∧ boxInside (layoutOfWords ((copyState.vc vk0).layoutWords 0)) (recSo rec_) (recExt rec_) = true) ∧
    (badCopy.copyCanStart vk0 = true ∧ recMalformed (wordsOfBytes (badCopy.slotBytes vk0 63 0 104)) = true) ∧
    ((layoutOfWords r.src).space = 0 ∧ (layoutOfWords r.dst).space = 0 ∧ r.entry.base ≤ (layoutOfWords r.src).base ∧
      (layoutOfWords r.dst).base + recEb r.record ≤ r.entry.base + r.entry.lim) ∧
    (d.copyCanEnd vk0 = true ∧ (d.vc vk0).copyDone = some (copyEntry, 0, 0, 0)) ∧
    (f.copyFaulted vk0 = true ∧ FMap.get? (f.vc vk0).run 2 = some { r with fault := some (3, 0x40) }) := by decide

theorem meets_ElementRules : ((5 : BitVec 32) = 5 ∧ (3 : BitVec 32).toInt < (5 : BitVec 32).toInt ∧ (5 : BitVec 32).toInt ≤ (5 : BitVec 32).toInt) ∧
    ¬ (5 : BitVec 32) = 6 ∧ ¬ (5 : BitVec 32).toInt < (5 : BitVec 32).toInt ∧ ¬ (6 : BitVec 32).toInt ≤ (5 : BitVec 32).toInt ∧ ¬ False := by
  decide

/-! Remote access. -/

/-- pair with p in x5, v in x6 and a token value in x7. -/
def ptr (p : Word) (v : Word := 0) (tok : Word := 0) : State := ((pair.setX 5 p).setX 6 v).setX 7 tok
/-- The last word of the segment of virtual core 1, and the first one past it. -/
def lastWord : Word := 0x1007FF8
def pastEnd : Word := 0x1008000
/-- A message of virtual core 1 to virtual core 0, the only one in the networks. -/
def toMe (b : Body) : Msg := Msg.mk (.vc (vk0 + 1)) (.vc vk0) b.net b none false
def posted (m : Msg) (s : State) : State := { s with net := [m] }
def inbox (b : Body) : State := posted (toMe b) pair
def crowded (s : State) : State := s.updCore 0 (fun c => { c with egress := List.replicate 32 (toMe (.close 1 0)) })
def vc0Is (f : VCore → VCore) (s : State) : State := s.updVc vk0 f
def slotIs (f : Slot → Slot) (s : State) : State := s.updSlot slot0 f

theorem arrives_of {s : State} {m : Msg} {vk : Nat} (h : s.evMsg = some m ∧ m.dst = .vc vk ∧ (s.vc vk).live = true ∧
    (s.vc vk).place.isSome = true ∧ s.quietFor vk m.src = false ∧ (s.vc vk).refusal? m.src m.net = none ∧
    (s.vc vk).holdsFor m.src = false) : Claim.Arrives s m vk :=
  ⟨h.1, h.2.1, h.2.2.1, h.2.2.2.1, h.2.2.2.2.1, h.2.2.2.2.2.1, h.2.2.2.2.2.2⟩
theorem good_sendable : Claim.Good lastWord ∧ Claim.Good pastEnd ∧ Claim.Good 0x1000000000007FF8 ∧ ¬ Claim.Good 0x1000000000008000 ∧
    ¬ Claim.Good 0x2000000000000000 ∧ Claim.Clear pair ∧ Claim.Clear base := by
  unfold Claim.Good Claim.Clear; decide

theorem meets_RemoteLoads : let s := ptr lastWord
    let c := crowded s
    let f := c.updCore 0 (fun k => { k with sqfen := true })
    let ld := fun (o : Word) (isF : Bool) => Body.load 7 3 o isF
    let w : FarWait := ⟨.vc (vk0 + 1), 3, 7, 0x7FF8, 0x8FF8⟩
    let p : State := { vc0Is (fun v => { v with farWait := [w] }) pair with full := [0x8FF8], ev := { key := vk0 } }
    let again := inbox (.retry (ld 0x7FF8 true) false)
    let mine := fun (e : Nat) => slotIs (fun sl => { sl with st := .dropped, hold := some (.load 7 9 false lastWord) }) (inbox (.loadReply 7 0 (BitVec.ofNat 16 e) 5))
    (s.me.reply = none ∧ Claim.Good (s.x 5) ∧ Claim.Clear s) ∧ ((ptr 0x1007FF9).x 5).toNat % 8 ≠ 0 ∧
    (((ptr 0x1000000000008000).x 5).toNat % 8 = 0 ∧ ¬ Claim.Good ((ptr 0x1000000000008000).x 5)) ∧
    (s.updMe (fun sl => { sl with reply := some lastWord })).me.reply = some lastWord ∧
    (c.me.reply = none ∧ Claim.Good (c.x 5) ∧ c.myVc.kept = [] ∧ 32 ≤ (c.core (c.coreOf c.vk)).egress.length ∧
      (f.core (f.coreOf f.vk)).sqfen = true ∧ f.me.mode = .u ∧ (c.core (c.coreOf c.vk)).sqfen = false) ∧
    (Claim.Arrives (inbox (ld 0x7FF8 false)) (toMe (ld 0x7FF8 false)) vk0 ∧ (0x7FF8 : Word).toNat % 2 ^ 24 + 8 ≤ (inbox (ld 0x7FF8 false)).launchLenOf vk0) ∧
    (Claim.Arrives (inbox (ld 0x7FF8 true)) (toMe (ld 0x7FF8 true)) vk0 ∧ (inbox (ld 0x7FF8 true)).isFull 0x8FF8 = false ∧
      ((inbox (ld 0x7FF8 true)).vc vk0).farWait = [] ∧ (inbox (ld 0x7FF8 true)).farWaiting 0 < 16) ∧
    (Claim.Arrives (inbox (ld 0x8000 false)) (toMe (ld 0x8000 false)) vk0 ∧ (inbox (ld 0x8000 false)).launchLenOf vk0 < 0x8008) ∧
    ((p.vc p.ev.key).live = true ∧ (p.vc p.ev.key).place.isSome = true ∧ (p.vc p.ev.key).copying = false ∧ (p.vc p.ev.key).farWait = [w] ∧
      p.isFull w.addr = true) ∧
    (again.ev.val = 0 ∧ again.evMsg = some (toMe (.retry (ld 0x7FF8 true) false)) ∧ (again.vc vk0).live = true ∧ (again.vc vk0).kept = []) ∧
    ∀ e ∈ [0, 1], (mine e).evMsg = some (toMe (.loadReply 7 0 (BitVec.ofNat 16 e) 5)) ∧ ((mine e).vc vk0).live = true ∧ ((mine e).vc vk0).place.isSome = true ∧
      ((mine e).vc vk0).holds = [] ∧ ((mine e).slot slot0).expects 7 = some (9, lastWord) ∧ ((mine e).slot slot0).st = .dropped ∧
      ((mine e).slot slot0).trap = none :=
  ⟨⟨by decide, good_sendable.1, by unfold Claim.Clear; decide⟩, by decide, ⟨by decide, good_sendable.2.2.2.1⟩, by decide,
    ⟨by decide, good_sendable.1, by decide, by decide, by decide, by decide, by decide⟩, ⟨arrives_of (by decide), by decide⟩,
    ⟨arrives_of (by decide), by decide⟩, ⟨arrives_of (by decide), by decide⟩, by decide, by decide, by decide⟩

theorem meets_RemoteStoreIssue : let s := ptr lastWord
    let u := vc0Is (fun v => { v with unacked := [{ id := 7, slot := 0, dests := [.vc (vk0 + 1)] }] }) s
    let tg : Tag := ⟨8, 0, 3⟩
    let k : Kept := { msg := Msg.mk (.vc vk0) (.vc (vk0 + 1)) .request (.store tg lastWord 0 (.release .pkg 0x1000) none) none false, why := .release [7] }
    let q : State := { vc0Is (fun v => { v with kept := [k] }) s with ev := { key := vk0 } }
    (Claim.Good (s.x 5) ∧ Claim.Clear s ∧ s.myVc.countedFull = false ∧ s.fenced .pkg = [] ∧ (s.target s.vk (s.x 5)).isFar = false ∧
      (s.myVc.batches[3]).dests.length < 64) ∧
    (u.fenced .pkg ≠ [] ∧ Claim.Good (u.x 5) ∧ u.myVc.kept = [] ∧ u.myVc.countedFull = false) ∧ ((ptr 0x1007FF9).x 5).toNat % 8 ≠ 0 ∧
    (((ptr 0x1000000000008000).x 5).toNat % 8 = 0 ∧ ¬ Claim.Good ((ptr 0x1000000000008000).x 5)) ∧
    ((q.vc q.ev.key).kept = [k] ∧ (∀ a ∈ (q.vc q.ev.key).unacked, a.id ∉ [7]) ∧ (q.core (q.coreOf q.ev.key)).egress.length < 32) :=
  ⟨⟨good_sendable.1, by unfold Claim.Clear; decide, by decide, by decide, by decide, by decide⟩,
    ⟨by decide, good_sendable.1, by decide, by decide⟩, by decide, ⟨by decide, good_sendable.2.2.2.1⟩, by decide⟩

theorem meets_RemoteStoreHome : let tg : Tag := ⟨8, 2, 3⟩
    let st := fun (p : Word) (k : StoreKind) => Body.store tg p 5 k none
    let gone := vc0Is (fun v => { v with live := false }) (inbox (st 0 .plain))
    let sg := Msg.mk (.vc vk0) (.sig 0) .request (st 0x7FF8 .missed) none false
    let away := Msg.mk (.vc vk0) (.sig 1) .request (st 0x1000000001000000 (.release .die 0x1000)) none false
    let sm := Msg.mk .memory (.vc vk0) .control (.scopeMiss 2 [1, 2, 3, 4]) none false
    let ak := inbox (.ack 8 2 0 false)
    (Claim.Arrives (inbox (st 0x7FF8 .setFull)) (toMe (st 0x7FF8 .setFull)) vk0 ∧ 0x7FF8 + 8 ≤ (inbox (st 0x7FF8 .setFull)).launchLenOf vk0) ∧
    (Claim.Arrives (inbox (st 0x8000 .plain)) (toMe (st 0x8000 .plain)) vk0 ∧ (inbox (st 0x8000 .plain)).launchLenOf vk0 < 0x8000 + 8 ∧
      ((inbox (st 0x8000 .plain)).vc vk0).errs = []) ∧
    (gone.evMsg = some (toMe (st 0 .plain)) ∧ (gone.vc vk0).live = false) ∧
    ((posted sg pair).evMsg = some sg ∧ ((posted sg pair).die 0).failed = false) ∧
    ((posted away pair).net[0]? = some away ∧ (posted away pair).mustMiss away = true) ∧
    ((posted sm pair).evMsg = some sm ∧ ((posted sm pair).vc vk0).live = true ∧ ((posted sm pair).vc vk0).place.isSome = true ∧
      ((posted sm pair).core ((posted sm pair).coreOf vk0)).latchQ = [] ∧ ((posted sm pair).vc vk0).smring.getLsbD 7 = false ∧
      Memory.word (posted sm pair).mem (lmAddr ((posted sm pair).coreOf vk0) 0xF2FE0) = 0) ∧
    (ak.evMsg = some (toMe (.ack 8 2 0 false)) ∧ FMap.get? (ak.vc vk0).run 3 = none) :=
  ⟨⟨arrives_of (by decide), by decide⟩, ⟨arrives_of (by decide), by decide⟩, by decide, by decide, by decide, by decide, by decide⟩

/-- Token entry 63 of the virtual core, taken by the slot in generation 1. -/
def tokens (t : TokState) (s : State) : State := s.updMyVc (fun v => { v with tokens := [(63, { valid := true, gen := 1, slot := 0, st := t })] })
theorem meets_TokenInstructions : let s := ptr lastWord 0 0xFC1
    let x : TokState → Token := fun t => { valid := true, gen := 1, slot := 0, st := t }
    (Claim.Good (s.x 5) ∧ Claim.Clear s ∧ s.myVc.countedFull = false ∧ s.myVc.tokenEntry = some 0) ∧
    base.myVc.recognise 0x5 = .foreign ∧ (tokens .landed s).myVc.recognise 0xFC0 = .stale ∧
    (∀ t ∈ [TokState.pending, .landed, .expired], (tokens t s).myVc.recognise 0xFC1 = .live 63 (x t) ∧ ((tokens t s).x 7).toNat % 65536 = 0xFC1 ∧
      Claim.Good ((tokens t s).x 5) ∧ Claim.Clear (tokens t s) ∧ (tokens t s).myVc.countedFull = false) ∧
    ((s.target s.vk (s.x 5)).isSig = false ∧ (x .pending).deps = []) ∧ (tokens .landed s).myVc.tokenEntry = some 0 := by
  unfold Claim.Good Claim.Clear; decide

/-- A store to the last word, held on token 0xFC1. -/
def heldBody : Body := .store ⟨8, 2, 3⟩ 0x7FF8 5 .plain (some 0xFC1)
def holding (n : Nat) (s : State) : State := vc0Is (fun v => { v with holdQ := List.replicate n ⟨toMe heldBody, some 0xFC1, false, false⟩ }) s
theorem meets_HeldStores : let s := inbox heldBody
    let f := vc0Is (fun v => { v with holdQ := List.replicate 32 ⟨Msg.mk (.sig 1) (.vc vk0) .request heldBody none false, some 0xFC1, false, false⟩ }) s
    let w := fun (b : Body) => holding 1 (inbox b)
    let r := tokens .pending (inbox (.refusal heldBody))
    let d : State := { tokens .pending pair with dies := [(0, { up := true, cyc := 0x40000 })], ev := { key := vk0, ix := 63 } }
    (Claim.Arrives s (toMe heldBody) vk0 ∧ (s.vc vk0).holdQ.length < 32) ∧ (Claim.Arrives f (toMe heldBody) vk0 ∧ 32 ≤ (f.vc vk0).holdQ.length) ∧
    (∀ b ∈ [Body.release 0xFC1, .expiry 0xFC1], (w b).evMsg = some (toMe b) ∧ ((w b).vc vk0).live = true ∧ ((w b).vc vk0).place.isSome = true ∧
      ((w b).vc vk0).holdQ = [⟨toMe heldBody, some 0xFC1, false, false⟩] ∧ (w b).heldOnWay (.vc (vk0 + 1)) (.vc vk0) 0xFC1 = false ∧
      0x7FF8 + 8 ≤ (w b).launchLenOf vk0 ∧ ((w b).vc vk0).errs = []) ∧
    (r.evMsg = some (toMe (.refusal heldBody)) ∧ (r.vc vk0).live = true ∧ (r.vc vk0).recognise 0xFC1 = .live 63 { valid := true, gen := 1, slot := 0, st := .pending } ∧
      (r.vc vk0).kept = []) ∧
    (d.tokenDue d.ev.key d.ev.ix = true ∧ (d.slot (slotKey d.ev.key 0)).st = .issuing) :=
  ⟨⟨arrives_of (by decide), by decide⟩, ⟨arrives_of (by decide), by decide⟩, by decide, by decide, by decide⟩

theorem meets_Batches : let b := my (fun v => { v with batches := v.batches.set 3 { dests := [.vc (vk0 + 1)] } })
    let s := inbox (.close 7 3)
    let e := vc0Is (fun v => { v with errs := [⟨.vc (vk0 + 1), 3, 1, false⟩] }) s
    let c : Close := { id := 7, bt := 3, epoch := 0, slot := 0, wait := 1 }
    let r := fun (e : Nat) => slotIs (fun sl => { sl with hold := some (.close 7 5) }) (vc0Is (fun v => { v with closes := [c] }) (inbox (.summary 7 (BitVec.ofNat 16 e))))
    (base.me.hold = none ∧ base.myVc.closes = [] ∧ (base.myVc.batches[3]).dests = [] ∧ (base.myVc.batches[3]).bcast = false ∧
      (base.myVc.batches[3]).bits = 0 ∧ base.myVc.unacked = []) ∧
    (b.me.hold = none ∧ b.myVc.closes = [] ∧ (b.myVc.batches[3]).dests = [.vc (vk0 + 1)] ∧ (b.myVc.batches[3]).bcast = false ∧ Claim.Clear b) ∧
    Claim.Arrives s (toMe (.close 7 3)) vk0 ∧ (Claim.Arrives e (toMe (.close 7 3)) vk0 ∧ ∀ r ∈ (e.vc vk0).errs, r.shared = false) ∧
    (∀ e ∈ [0, 1], (r e).evMsg = some (toMe (.summary 7 (BitVec.ofNat 16 e))) ∧ ((r e).vc vk0).closes = [c] ∧
      ((r e).slot slot0).hold = some (.close 7 5) ∧ ((r e).vc vk0).unacked = []) ∧ c.todo = [] ∧ c.bits ||| 0 = 0 ∧ c.bits ||| 1 ≠ 0 :=
  ⟨by decide, ⟨by decide, by decide, by decide, by decide, by unfold Claim.Clear; decide⟩, arrives_of (by decide),
    ⟨arrives_of (by decide), by decide⟩, by decide, by decide, by decide, by decide⟩

theorem meets_RemoteAtomics : let s := ptr lastWord
    let b := fun (dup : Bool) => Body.atomic 7 3 65535 1 0x7FF8 .add 1 0 dup
    let c := vc0Is (fun v => { v with cache := [(sourceCore (.vc (vk0 + 1)) 1, { results := [(65535, 9, 0)] })] }) (inbox (b true))
    let r := fun (st : Nat) => slotIs (fun sl => { sl with hold := some (.atomic 7 5 lastWord) }) (inbox (.atomicReply 7 0 st 5 0))
    let seen := fun (s : State) => (FMap.getD (s.vc vk0).cache (sourceCore (.vc (vk0 + 1)) 1) {}).results.find? (fun r => r.1 == 65535)
    (s.me.hold = none ∧ Claim.Good (s.x 5) ∧ Claim.Clear s) ∧
    (∀ dup, Claim.Arrives (inbox (b dup)) (toMe (b dup)) vk0 ∧ seen (inbox (b dup)) = none ∧ 0x7FF8 + 8 ≤ (inbox (b dup)).launchLenOf vk0) ∧
    (Claim.Arrives c (toMe (b true)) vk0 ∧ seen c = some (65535, 9, 0)) ∧
    ∀ st ∈ [0, 1, 2], (r st).evMsg = some (toMe (.atomicReply 7 0 st 5 0)) ∧ ((r st).slot slot0).hold = some (.atomic 7 5 lastWord) ∧
      ((r st).vc vk0).holds = [] :=
  ⟨⟨by decide, good_sendable.1, by unfold Claim.Clear; decide⟩,
    fun dup => match dup with
      | true => ⟨arrives_of (by decide), by decide⟩
      | false => ⟨arrives_of (by decide), by decide⟩,
    ⟨arrives_of (by decide), by decide⟩, by decide⟩

theorem meets_WriteWithEnqueue : let e : QEntry := { entryOf (.wenq false 0 6 0) with ra := some 63, op := 62, id := 7 }
    let a : Access := { id := 7, slot := 0, dests := [.vc (vk0 + 1)], bt := 0 }
    let s := engine 3 e (ringAt 0 1 0x40 1 (my (fun v => { v with unacked := [a] })))
    let ring : Nat → Nat → Ring := fun fill size => { valid := true, lgcnt := 1, size8 := BitVec.ofNat 10 size, base := 0x2000, tail := fill % 2, fill := fill }
    let b := Body.enqueue ⟨7, 0, 0⟩ 62 (List.replicate 8 1)
    let r := fun (fill size : Nat) => { vc0Is (fun v => { v with rings := [(62, ring fill size)] }) (inbox b) with ev := { val := 1 } }
    (s.wenqCanStep vk0 = true ∧ (s.vc vk0).queueOf 3 = e :: [] ∧ tgtHbm e.op = false ∧ s.ev.val = 0 ∧
      (s.vc vk0).unacked.find? (fun x => x.id == e.id) = some a) ∧
    (∀ x ∈ [(1, 1), (1, 0), (2, 1)], (r x.1 x.2).evMsg = some (toMe b) ∧ ((r x.1 x.2).vc vk0).live = true ∧
      ((r x.1 x.2).vc vk0).place.isSome = true ∧ (r x.1 x.2).quietFor vk0 (.vc (vk0 + 1)) = false) ∧
    (((r 1 1).ring vk0 62).valid = true ∧ ((r 1 1).ring vk0 62).kind = 0 ∧ 8 ≤ ((r 1 1).ring vk0 62).size ∧
      ((r 1 1).ring vk0 62).fill < ((r 1 1).ring vk0 62).count) ∧
    ((r 1 0).ring vk0 62).size < 8 ∧
    (((r 2 1).ring vk0 62).count ≤ ((r 2 1).ring vk0 62).fill ∧ ((r 2 1).vc vk0).holdQ.length < 32 ∧ ((r 2 1).vc (vk0 + 1)).frozen = false) := by
  decide

/-! Populations, contexts, mailboxes, ports, code lines. -/

/-- The control word: group 255 and a result buffer at 0x7FF0. -/
def vctl : Word := 0x007FF000000000FF
/-- Operation 5 of kind k on group 255, asked for by virtual core 0 with these parameters. -/
def vop (k : Nat) (ps : List Word) (st : VStage) (h : List (Nat × Machine.Member) := []) : VOp :=
  { id := 5, kind := k, grp := 255, ticket := 0, tag := 0, ev := false, vk := some vk0, res := 0x7FF0, lim := 0x8000, mMode := false,
    params := ps, members := [vk0, vk0 + 1], stage := st, holds := h }
theorem meets_VintnerSubmission : let s := member vc0 (x56 vctl 0)
    let f := { s with vops := List.replicate 64 (vop 0 [] .queued) }
    let c := s.x 5
    let n := (s.membersOf 255).length
    (∀ k ∈ [0, 1, 2, 3, 4], vblockOk k (Memory.words s.mem 0x1000 (vblockWords k)) = true ∧
      ∃ o, lmCheck s.me 0x7FF0 (vresBytes k (Memory.words s.mem 0x1000 (vblockWords k)) n) true = .ok o ∧ lmAddr (s.coreOf s.vk) o = 0x8FF0) ∧
    ((s.x 6).toNat % 8 = 0 ∧ Claim.At s (s.x 6) 56 false 0x1000) ∧ c &&& 0xF00000FE0000FF00 = 0 ∧ c.toNat % 256 ∈ s.myVc.groups ∧
    BitVec.ofNat 64 (c.toNat / 2 ^ 40 % 2 ^ 20) = 0x7FF0#64 ∧ s.vops.length < 64 ∧ 64 ≤ f.vops.length ∧
    ¬ ((x56 0x100 0).x 5 &&& 0xF00000FE0000FF00 = 0) ∧ 255 ∉ (x56 vctl 0).myVc.groups := by
  refine ⟨?_, ⟨by decide, 0x1000, by decide, by decide⟩, by decide⟩
  intro k hk
  fin_cases hk <;> exact ⟨by decide, 0x8FF0, by decide, by decide⟩

def vstate (o : VOp) (s : State := pair) : State := { s with vops := [o], ev := { key := 5, ix := vk0 } }
def grouped (g : VGroup) (s : State) : State := s.updVgroup 255 (fun _ => g)
def ranked : State := grouped { ranking := some [(0, 1, 0), (1, 0, 0)], selection := some [] } pair
/-- One page of function 0 at 0x10000, cached by die 4; the log header there gives capacity 2 ^ 4. -/
def logState : State := { pair with
  dies := [(4, { tlb := [{ fn := 0, va := 1, lg := 16, leaf := 0x1000F }] })], mem := Memory.setWord [] (hbmAddr 0x10000) 4,
  vgroups := [(255, { logBase := 0x10000, racking := some { gen := 0, seed := 0, sigma := 0, pairs := [⟨0, 1, 0, 0⟩] } })] }

theorem first_of (k : Nat) (ps : List Word) (st : VStage) (h : List (Nat × Machine.Member)) :
    let s := vstate (vop k ps st h)
    s.vop? s.ev.key = some (vop k ps st h) ∧ (vop k ps st h).id = s.ev.key ∧ s.vfirst (vop k ps st h) = true ∧
    s.oneGang (vop k ps st h) = true := ⟨rfl, rfl, rfl, rfl⟩
theorem meets_VintnerOperations : let w := fun (ps : List Word) => (ps.getD 0 0).toNat
    let qOf := fun (ps : List Word) => w ps / 2 ^ 16 % 2 ^ 16
    let held := vstate (vop 2 [] .holding [(vk0, .waiting)]) (vc0Is (fun v => { v with frozen := true, holds := [⟨.vintner, true, 0⟩] })
      (slotIs (fun sl => { sl with st := .trapped, trap := some .vintner }) pair))
    let late := { vstate (vop 2 [0, 0, 0, 0, 0, 0x100000000] .holding [(vk0, .waiting)]) with now := usUnits }
    let l := vstate (vop 3 [0] .queued) logState
    let r : VRecord := { gen := 0, seed := 0, sigma := 0, pairs := [⟨0, 1, 0, 0⟩] }
    let d := vstate (vop 0 [] .done)
    (∀ k ps st h, let s := vstate (vop k ps st h)
      s.vop? s.ev.key = some (vop k ps st h) ∧ (vop k ps st h).id = s.ev.key ∧ s.vfirst (vop k ps st h) = true ∧
      s.oneGang (vop k ps st h) = true) ∧
    (vop 0 [] .queued).members ≠ [] ∧ (pair.vgroup 255).ranking = none ∧ (ranked.vgroup 255).ranking = some [(0, 1, 0), (1, 0, 0)] ∧
    (w [0x10000] % 2 = 0 ∧ 0 < qOf [0x10000] ∧ qOf [0x10000] ≤ 2 / 2) ∧
    (w [0x20201] % 2 = 1 ∧ 0 < qOf [0x20201] ∧ qOf [0x20201] ≤ 2 ∧ 2 ≤ w [0x20201] / 256 % 32 ∧ w [0x20201] / 256 % 32 ≤ 16) ∧
    (pair.vgroup 255).selection = none ∧ (vop 2 [] .holding [(vk0, .held)]).allSettled = true ∧
    (vop 2 [] .holding [(vk0, .held), (vk0 + 1, .skipped)]).anySkipped = true ∧
    ((vop 2 [] .holding [(vk0, .waiting)]).holds.contains (vk0, .waiting) = true ∧ (held.vc vk0).place.isSome = true ∧
      held.heldFor vk0 .vintner = true ∧ (held.vc vk0).holds.any (fun h => h.kind == .quiesce) = false) ∧
    ((rackPar [0, 0, 0, 0, 0, 0x100000000]).tmo ≠ 0 ∧ 0 + (rackPar [0, 0, 0, 0, 0, 0x100000000]).tmo * usUnits ≤ late.now) ∧
    (pair.vgroup 255).racking = none ∧
    ((l.vgroup 255).racking = some r ∧ r.logged = false ∧ r.pairs ≠ [] ∧ (l.vgroup 255).logBase ≠ 0 ∧
      l.readVaWords 4 (l.group 255).owner (l.vgroup 255).logBase 4 = some (l, [BitVec.ofNat 64 4, BitVec.ofNat 64 0, BitVec.ofNat 64 0, 0]) ∧
      0 + r.pairs.length ≤ 2 ^ 4 ∧ (l.logAddrs 0 0x10000 (2 ^ 4) 0 1).isSome = true ∧ (l.translateBytes 4 0 (0x10000 + 8) .write 8).isSome = true) ∧
    (d.ev.data = [] ∧ (vop 4 [] .holding [(vk0, .held)]).anySkipped = false ∧ d.ownNode (migNode []) = true) ∧
    ((d.vc vk0).live = true ∧ (d.vc vk0).place.isSome = true ∧ (vop 0 [] .done).vk = some vk0) :=
  ⟨first_of, by decide, by decide, by decide, by decide, by decide, by decide, by decide, by decide, by decide, by decide, by decide,
    ⟨by decide, by decide, by decide, by decide, rfl, by decide, by decide, by decide⟩, by decide, by decide⟩

/-- In M mode with address a in x5, held at this point of the context instruction. -/
def ctx (h : Option (Option Nat)) (s : State := x56 0x2000 0x80) : State := s.updMe (fun sl => { sl with mode := .m, hold := h.map Hold.context })
theorem meets_ContextAndMailbox : let w : State := { ctx none with mem := Memory.setWord [] (lmAddr 0 0x2000) 0x14358 }
    let f := (ctx (some none)).updMyVc (fun v => { v with frozen := true })
    let lo := x56 0 0x7F
    let hi := x56 0 0x100
    let box := (ringAt 0 8 0 0 (x56 0 0x80)).updMyVc (fun v => { v with supmbox := 0x8000000003F00000 })
    let ws : List Word := List.replicate 8 1
    let mb := fun (n : Nat) => ringAt 0 8 0 n (inbox (.mailbox 15 63 ws))
    base.me.mode = .u ∧
    (∀ h ∈ [none, some none, some (some 0), some (some 63)], (ctx h).me.mode = .m ∧ (ctx h).me.hold = h.map Hold.context) ∧
    (f.engineIdle f.vk = true ∧ (ctx (some none)).engineIdle vk0 = false) ∧
    (((ctx none).x 5).toNat % 64 = 0 ∧ ((ctx none).x 5).toNat + 38912 ≤ 0x100000 ∧ (0xF6800 : Word).toNat + 38912 ≤ 0x100000 ∧
      bits (Memory.word w.mem (lmAddr (w.coreOf w.vk) (w.x 5).toNat)) 23 0 = 0x14358) ∧
    (∀ i < 64, ((ctx none).myVc.layoutWords i).length = 4) ∧ ((lo.x 6).toNat < 0x80 ∧ 0xFF < (hi.x 6).toNat) ∧
    (0x80 ≤ ((x56 0 0x80).x 6).toNat ∧ ((x56 0 0x80).x 6).toNat ≤ 0xFF ∧ Claim.At (x56 0 0x80) ((x56 0 0x80).x 5) 32 false 0x1000) ∧
    (base.mailbox base.vk = none ∧ box.mailbox box.vk = some (vk0, 0, 63) ∧ Claim.Clear box) ∧
    (Claim.Arrives (mb 1) (toMe (.mailbox 15 63 ws)) vk0 ∧ ws.length = 8 ∧ ((mb 1).ring vk0 63).valid = true ∧ ((mb 1).ring vk0 63).kind = 0 ∧
      64 ≤ ((mb 1).ring vk0 63).size ∧ ((mb 1).ring vk0 63).fill < ((mb 1).ring vk0 63).count) ∧
    (Claim.Arrives (mb 2) (toMe (.mailbox 15 63 ws)) vk0 ∧ ((mb 2).ring vk0 63).count ≤ ((mb 2).ring vk0 63).fill) :=
  ⟨by decide, by decide, by decide, by decide, by decide, by decide, ⟨by decide, by decide, 0x1000, by decide, by decide⟩,
    ⟨by decide, by decide, by unfold Claim.Clear; decide⟩, ⟨arrives_of (by decide), by decide⟩, ⟨arrives_of (by decide), by decide⟩⟩

/-- Ring 63 of virtual core 0: a port ring of port 9 on a network. -/
def portRing (kind : BitVec 3) (net : BitVec 2) (fill : Nat) (s : State) : State :=
  vc0Is (fun v => { v with rings := [(63, { kind := kind, valid := true, lgcnt := 1, size8 := 1, base := 0x2000, tail := fill % 2, fill := fill, port := 9, vnet := net })] }) s
theorem meets_RequestNetwork : let k0 := fun (s : State) => { s with ev := { key := vk0 } }
    let e := { pair.updCore 0 (fun c => { c with egress := [toMe (.close 1 0)] }) with ev := { key := 0 } }
    let o := fun (n : BitVec 2) => k0 (portRing 2 n 1 pair)
    let p := fun (n : VNet) (c : BitVec 2) (fill : Nat) => portRing 1 c fill (inbox (.port n 9 5))
    let m := toMe (.port .reply 9 5)
    let sp := (portRing 1 1 1 pair).updCore 0 (fun c => { c with spill := [m] })
    let back := inbox (.retry (.close 1 0) true)
    let x : Kept := { msg := Msg.mk (.vc vk0) (.vc (vk0 + 1)) .request (.close 1 0) none false, why := .absent 16, ret := true, wide := true }
    let w : State := { vc0Is (fun v => { v with kept := [x] }) pair with ev := { key := vk0, val := 1 } }
    ((e.core 0).egress = toMe (.close 1 0) :: [] ∧ ∀ j ∈ e.hosted 0, (e.vc j).kept = []) ∧
    (∀ n ∈ [0, 1, 2], (o (BitVec.ofNat 2 n)).portToTake vk0 = some 63 ∧ ((o (BitVec.ofNat 2 n)).vc vk0).kept = []) ∧
    (Claim.Arrives (p .reply 1 1) m vk0 ∧ (p .reply 1 1).portIn vk0 .reply 9 = some 63 ∧ ((p .reply 1 1).ring vk0 63).fill < ((p .reply 1 1).ring vk0 63).count ∧
      ((p .reply 1 1).core 0).spilled m = false) ∧
    (Claim.Arrives (p .reply 1 2) m vk0 ∧ (p .reply 1 2).portIn vk0 .reply 9 = some 63 ∧ ((p .reply 1 2).ring vk0 63).count ≤ ((p .reply 1 2).ring vk0 63).fill ∧
      ((p .reply 1 2).core 0).spill.length < 64) ∧
    (Claim.Arrives (p .request 0 2) (toMe (.port .request 9 5)) vk0 ∧ (p .request 0 2).portIn vk0 .request 9 = some 63 ∧
      ((p .request 0 2).ring vk0 63).count ≤ ((p .request 0 2).ring vk0 63).fill) ∧
    (sp.spillReady 0 = some m ∧ sp.portIn vk0 .reply 9 = some 63) ∧
    (back.evMsg = some (toMe (.retry (.close 1 0) true)) ∧ (back.vc vk0).live = true ∧ (back.vc vk0).kept = []) ∧
    ((w.vc vk0).kept = [x] ∧ 16 ≤ w.cycOf vk0 ∧ (w.vc vk0).live = true ∧ (w.vc vk0).place.isSome = true ∧ (w.vc vk0).copying = false ∧
      x.msg.body.unordered = false ∧ w.inFlight vk0 x.msg.dst .request = false ∧ (w.core (w.coreOf vk0)).egress.length < 32) :=
  ⟨by decide, by decide, ⟨arrives_of (by decide), by decide⟩, ⟨arrives_of (by decide), by decide⟩, ⟨arrives_of (by decide), by decide⟩,
    by decide, by decide, by decide⟩

/-- Line 0x1000 / 64 asked for by the slot, which is parked on it. -/
def lineReq : LineReq := ⟨0, 0, 1, 0x40, [slot0]⟩
def waitLine (d : Die) : State := { me (fun sl => { sl with st := .parked, park := some (.fetch 0x40) }) with dies := [(0, { d with up := true, reqs := [lineReq] })] }
theorem meets_FetchLevelStall : let c : CacheLine := ⟨0, 0, 1, 0x40, List.replicate 16 0x13⟩
    let s := waitLine { icache := [c] }
    let n := waitLine {}
    let t : TlbEntry := { fn := 0, va := 0, lg := 16, leaf := 0x1F, at_ := .itlb 0 }
    let l := waitLine { tlb := [t] }
    let g : State := { base with dies := [(0, { tlb := [{ fn := 0, va := 1, lg := 16, leaf := 0x1000F }] })], ev := { val := 0x10000 } }
    let lv : State := { base with dies := [(0, { up := true, cyc := 8192 })] }
    let en := ringAt 4 2 0 1 (inbox (.level 63 1 2))
    let z : State := { (me (fun sl => { sl with st := .parked, park := some .interrupt })).updMyVc (fun v => { v with stallAt := some 0 }) with
      dies := [(0, { up := true, cyc := 0x100000 })] }
    (s.serveable 0 0 = some (lineReq, c) ∧ slot0 ∈ lineReq.waiters ∧ (s.slot slot0).st = .parked ∧ (s.slot slot0).park = some (.fetch lineReq.line) ∧
      (s.slot slot0).pc.toNat / 64 = lineReq.line ∧ (s.slot slot0).line = none) ∧
    (n.fillable 0 0 = some lineReq ∧ n.leafOf 0 0 (64 * 0x40) .fetch (.itlb 0) = none) ∧
    (l.fillable 0 0 = some lineReq ∧ l.leafOf 0 0 (64 * 0x40) .fetch (.itlb 0) = some (l, 0x1F, 16) ∧ pteSpace 0x1F = 0) ∧
    (g.ev.data.headD 0 = 0 ∧ g.leafOf 0 0 0x10000 .read .shared = some (g, 0x1000F, 16)) ∧ lv.levelDue 0 = true ∧
    (Claim.Arrives en (toMe (.level 63 1 2)) vk0 ∧ (en.ring vk0 63).fill < (en.ring vk0 63).count) ∧
    (z.stallDue vk0 = true ∧ (z.slotsOf vk0).find? (fun k => (z.slot k).busySlot) = some slot0 ∧ z.mailbox vk0 = none) :=
  ⟨by decide, ⟨by decide, rfl⟩, ⟨by decide, rfl, by decide⟩, ⟨by decide, rfl⟩, by decide, ⟨arrives_of (by decide), by decide⟩, by decide⟩

/-! Gangs, moves, saves. -/

/-- Die 0 with cores 0 and 1 enabled; virtual core 0 of gang 1 on core 0; one page of function 0 at 0x10000 cached. -/
def room : State := { base with
  cores := [(0, { en := true, handler := true }), (1, { en := true, handler := true })],
  dies := [(0, { up := true, tested := true, cyc := 16, tlb := [{ fn := 0, va := 1, lg := 16, leaf := 0x1001F }] })] }
/-- The header of an image of one virtual core of one slot: 4 KiB of LM, 8 bytes of text and of data. -/
def header : List Word := [0x15A38, 0x0000100000040101, 0, 0x0000000800000000, 0x0000000800000080, 0, 0, 0]
def launch (h : List Word) (step : Nat) : Packet := { index := 0, words := [1, 0x10000, 0, 0, 1, 0, 0, 0], header := h, step := step }
/-- The packet is at the head of queue 0. -/
def fronted (p : Packet) (s : State) : State := { s with queues := [(0, { en := true, lgsz := 4, front := some p })], ev := { key := 0 } }
def issued (p : Packet) (s : State) : State := { s with queues := [(0, { en := true, lgsz := 4, issued := [p] })] }
def gangIs (f : Gang → Gang) (s : State) : State := s.updGang 1 f

set_option maxRecDepth 8000 in
theorem meets_Placement : let good := fronted (launch header 0) room
    let bad := fronted (launch [] 0) room
    let a := { fronted (launch header 1) room with vcs := [], slots := [], gangs := [] }
    let l := { issued { launch header 2 with gid := 1 } (gangIs (fun g => { g with image := 0x10000, lmask := 1 }) room) with ev := { key := 1 } }
    let r := { gangIs (fun g => { g with toRelease := [0], ready := some 15, lmask := 1 }) room with ev := { key := 0, ix := 1 } }
    let d := { gangIs (fun g => { g with ready := some 0 }) room with slots := [(slot0, {})], ev := { key := 1 } }
    (good.ripe 0 [1] = some (launch header 0) ∧ good.launchCheck 0 (launch header 0) = 0) ∧
    (bad.ripe 0 [1] = some (launch [] 0) ∧ bad.launchCheck 0 (launch [] 0) ≠ 0) ∧
    (a.arbiterDue 0 = true ∧ a.oldestRequests 0 = [⟨0, 0, 1, none⟩] ∧ (a.queue 0).front = some (launch header 1) ∧ (a.die 0).fixed = [] ∧
      a.launchRect 0 (launch header 1) = some (0, 0) ∧ a.freeGroup = some 0) ∧
    ((l.queue 0).launching 1 = some { launch header 2 with gid := 1 } ∧ (l.gang? 1).isSome = true ∧
      (∃ u t v d, l.imageBytes (l.gang 1) 64 8 = some (u, t) ∧ u.imageBytes (l.gang 1) 0x80 8 = some (v, d)) ∧ 0 < (l.gang 1).gw * (l.gang 1).gh) ∧
    (r.releasable 1 0 = true ∧ ∀ vk ∈ r.hosted 0, (r.vc vk).holds = []) ∧ (d.gangDone 1 = true ∧ (d.gang 1).silent = false) :=
  ⟨by decide, by decide, ⟨by decide, rfl, by decide, by decide, by decide, by decide⟩, ⟨by decide, by decide, ⟨_, _, _, _, rfl, rfl⟩, by decide⟩,
    by decide, by decide⟩

/-- Virtual core 0 moves from core 0 to core 1; its slot is held for it. -/
def moving (step : Nat) (st : Nat) (s : State) : State := { vc0Is (fun v => { v with
    move := some { step := step, src := 0, dst := 1, status := st, rd := 5 }, holds := [⟨.migrate, true, 0⟩], frozen := true })
  (slotIs (fun sl => { sl with st := .trapped, trap := some .migrate }) s) with ev := { key := vk0 } }
theorem meets_Migration : let q : State := { moving 0 1 room with migQ := [vk0], ev := { key := 0 } }
    let k : Msg := Msg.mk (.core 1) (.vc vk0) .reply (.marker .reply 0) none false
    let rd : Redirect := ⟨0, vk0, 0, 1, [(.core 1, .reply)]⟩
    let m : State := { posted k room with dies := [(0, { redirs := [(63, rd)] })] }
    let f : State := { room with dies := [(0, { redirs := [(63, { rd with left := [] })] })], ev := { key := 0, ix := 63 } }
    (q.dispatchDue 0 = true ∧ q.dispatchPair 0 = some (1, vk0) ∧ (q.vc vk0).move = some { step := 0, src := 0, dst := 1, status := 1, rd := 5 }) ∧
    (moving 1 1 room).moveHeld vk0 = true ∧
    ((moving 2 1 room).Inv ∧ (moving 2 1 room).copyDone vk0 = some { step := 2, src := 0, dst := 1, status := 1, rd := 5 } ∧ (moving 2 1 room).coreOf vk0 = 0 ∧
      ((moving 2 1 room).vc vk0).base + ((moving 2 1 room).gang 1).lmlimit ≤ 0xF0000) ∧
    (m.net[0]? = some k ∧ m.markerFree 0 0 k = true ∧ (∀ y ∈ (m.vc vk0).holdQ, y.direct = false) ∧ FMap.get? (m.die 0).redirs 63 = some rd) ∧
    (FMap.get? (f.die 0).redirs 63 = some { rd with left := [] }) ∧
    (∀ st ∈ [0, 1, 2], (moving 3 st room).canResumeMove vk0 = some { step := 3, src := 0, dst := 1, status := st, rd := 5 } ∧
      ((moving 3 st room).vc vk0).holds = [⟨.migrate, true, 0⟩] ∧ ((moving 3 st room).slot slot0).st = .trapped ∧
      ((moving 3 st room).slot slot0).trap = some .migrate ∧ ((moving 3 st room).slot slot0).hold = none) := by
  unfold State.Inv; decide

theorem meets_Saves : let e := vc0Is (fun v => { v with lead := some 0, ending := true }) (slotIs (fun sl => { sl with st := .halted }) room)
    let c := (vc0Is (fun v => { v with place := none, extent := some 0x1540000000 }) room).updCore 0 (fun p => { p with saving := [vk0] })
    let r := vc0Is (fun v => { v with place := none, extent := some 0x1540000000, copied := true, resume := some 1 }) room
    (e.canSaveEnd vk0 = true ∧ (e.freeExtent 0).isSome = true) ∧
    (c.Inv ∧ (c.vc vk0).extent = some 0x1540000000 ∧ (c.vc vk0).place = none ∧ (c.vc vk0).copied = false ∧
      (c.core (c.vc vk0).former).saving.contains vk0 = true ∧ (c.vc vk0).base + (c.gang 1).lmlimit ≤ 0xF0000) ∧
    (r.canResume vk0 = some (1, 0x1540000000) ∧ (r.vc vk0).absentLog = []) := by
  unfold State.Inv; decide

/-- A packet of this type for gang 1. -/
def gangPacket (ty : Word) (step : Nat) (buf : Word) (gid : Word := 1) : Packet := { index := 0, words := [ty, gid, buf], step := step }
/-- The gang is held for a quiesce. -/
def quieted (s : State) : State := gangIs (fun g => { g with ready := some 0 }) (vc0Is (fun v => { v with holds := [⟨.quiesce, true, 0⟩], frozen := true })
  (slotIs (fun sl => { sl with st := .trapped, trap := some .quiesce }) s))
theorem meets_Quiescing : let f := fun (ty gid : Word) => fronted (gangPacket ty 0 0 gid) room
    let c := fun (buf : Word) => issued (gangPacket 9 1 buf) (quieted room)
    let p : Packet := { gangPacket 7 1 0 with timeout := some 0 }
    let t := issued p (vc0Is (fun v => { v with holds := [⟨.quiesce, true, 0⟩] }) room)
    let z := issued (gangPacket 7 2 8) (quieted room)
    let r := fun (term : Word) => gangIs (fun g => { g with quiesced := true }) (fronted (gangPacket (8 + term * 2 ^ 33) 0 0) (quieted room))
    (∀ ty ∈ [(7 : Nat), 9], (f (BitVec.ofNat 64 ty) 2).ripe 0 [ty] = some (gangPacket (BitVec.ofNat 64 ty) 0 0 2) ∧ (f (BitVec.ofNat 64 ty) 2).gang? 2 = none ∧
      (f (BitVec.ofNat 64 ty) 1).ripe 0 [ty] = some (gangPacket (BitVec.ofNat 64 ty) 0 0) ∧ ((f (BitVec.ofNat 64 ty) 1).gang? 1).isSome = true ∧
      ((f (BitVec.ofNat 64 ty) 1).queue 0).issued = [] ∧ (∀ vk ∈ (f (BitVec.ofNat 64 ty) 1).vcsOf 1, (f (BitVec.ofNat 64 ty) 1).canQuiesce vk = true) ∧
      ((f (BitVec.ofNat 64 ty) 1).vcsOf 1).Nodup) ∧
    (∀ b ∈ [(0 : Nat), 0x100], (c (BitVec.ofNat 64 b)).quiesceAt 0 0 1 = some (gangPacket 9 1 (BitVec.ofNat 64 b)) ∧
      (c (BitVec.ofNat 64 b)).canCut (gangPacket 9 1 (BitVec.ofNat 64 b)) = true ∧ (gangPacket 9 1 (BitVec.ofNat 64 b)).buf = b ∧
      (gangPacket 9 1 (BitVec.ofNat 64 b)).freezes = true ∧ ((c (BitVec.ofNat 64 b)).gang? 1).isSome = true) ∧
    (t.quiesceAt 0 0 1 = some p ∧ p.timeout = some 0 ∧ p.moved = 0 ∧ t.setVcs p = [vk0] ∧ (t.vc vk0).place.isSome = true ∧
      t.heldFor vk0 .quiesce = false ∧ (t.vc vk0).holds = [⟨.quiesce, true, 0⟩]) ∧
    z.quiesceAt 0 0 2 = some (gangPacket 7 2 8) ∧
    ((f 8 2).ripe 0 [8] = some (gangPacket 8 0 0 2) ∧ (f 8 2).gang? 2 = none) ∧
    (∀ b ∈ [(0 : Nat), 1], (r (BitVec.ofNat 64 b)).ripe 0 [8] = some (gangPacket (8 + BitVec.ofNat 64 b * 2 ^ 33) 0 0) ∧
      ((r (BitVec.ofNat 64 b)).gang? 1).any (fun g => g.quiesced) = true ∧
      bit ((gangPacket (8 + BitVec.ofNat 64 b * 2 ^ 33) 0 0).word 0) 33 = decide (b = 1)) := by
  decide

/-! The host, the command processors, the firmware, the package, the fabric. -/

/-- Queue 0 of function 0 is q. -/
def queued (q : Queue) (s : State) : State := { s with queues := [(0, q)], ev := { key := 0, val := 0x11 } }
def full256 : State := { base with groups := (List.range 256).map (fun g => (g, { valid := true })) }
set_option maxRecDepth 8000 in
theorem meets_HostRegisters : let w : Word := 0x11
    let on := queued { en := true, lgsz := 4, lgcr := 4 } room
    let off := queued { lgsz := 4, lgcr := 4 } room
    let g := fun (x : Group) => { base with groups := [(255, x)] }
    let ring : State := { base with funcs := [(0, { ringEn := true, ringLg := 4, pending := 1 })] }
    base.hostLink = true ∧ (on.queue 0).en = true ∧
    ((off.queue 0).en = false ∧ bit w 0 = true ∧ 4 ≤ bits w 6 2 ∧ bits w 6 2 ≤ 16 ∧ 4 ≤ (off.queue 0).lgcr ∧ (off.queue 0).lgcr ≤ 16) ∧
    bit (0x10 : Word) 0 = false ∧ base.freeGroup = some 0 ∧ full256.freeGroup = none ∧
    (((g { valid := true }).group 255).valid = true ∧ ((g { valid := true }).group 255).own = false ∧ ((g { valid := true }).group 255).owner = 0 ∧
      (g { valid := true }).membersOf 255 = []) ∧ (((g { own := true }).group 255).own = true) ∧
    ((off.queue (queueKey 0 31)).en = false ∧ 0x1000 + 0x80 * 31 + 8 * 4 = 0x1FA0) ∧ (1024 ≤ bits (0x10000 : Word) 16 0 ∧ bits (0x10000 : Word) 16 0 ≤ 65536) ∧
    ((base.func 0).ringEn = false ∧ 4 ≤ bits (0x19 : Word) 4 1 ∧ bits (0x19 : Word) 4 1 ≤ 12 ∧ bit (0x19 : Word) 0 = true) ∧
    (32 < 33 ∧ (ring.func 0).pending.getLsbD 0 = true) ∧ (ring.func 0).ringEn = true := by decide

def packetOf (ws : List Word) (step : Nat := 0) (moved : Nat := 0) : Packet := { index := 0, words := ws, step := step, moved := moved }
/-- A WAIT of type ty on entry 0: signal word 0 of die 0 against 0, compared as cmp says. -/
def waitPacket (ty : Word) (cmp step : Nat) : Packet := packetOf [ty + 0x1000 + BitVec.ofNat 64 (cmp * 2 ^ 47)] step
theorem meets_Packets : let fetch := fun (m : Memory) => { queued { en := true, lgsz := 4, tail := 1, opmask := 1 } room with mem := m }
    let z := fun (s : State) => packetOf (wordsOfBytes (Memory.bytes s.mem (hostAddr 0) 64))
    let bad := Memory.setWord [] (hostAddr 0) 10
    let at_ := fun (p : Packet) => fronted p room
    let copy := packetOf [0x2D00000002, 0x100, 0x200, 16]
    let sig := packetOf [3, 0x1000000000007FF8, 5]
    let v0 := packetOf [0x400000006, 0xFF, 0, 0x10000]
    let v1 := packetOf [0x500000006, 0xFF, 0x10000, 0x10100]
    let c : Completion := { word0 := 1, word1 := 2, cr := true, cs := none }
    let post := fun (cr : Bool) (n : BitVec 16) => queued { en := true, lgcr := 4, ctail := n, posting := [{ c with cr := cr }] } room
    ((fetch []).svc ≠ 0 ∧ ((fetch []).queue 0).canFetch = true ∧ (fetch []).hostFail = false ∧ (fetch []).malformed (z (fetch [])) = false ∧
      ((fetch []).queue 0).opmask.getLsbD (z (fetch [])).type = true ∧ (z (fetch [])).type = 0) ∧
    ((fetch bad).malformed (z (fetch bad)) = true ∧ (fetch bad).hostWriteFail = false) ∧ (at_ (packetOf [0])).ripe 0 [0] = some (packetOf [0]) ∧
    (at_ copy).ripe 0 [2] = some copy ∧
    ((issued copy room).queue 0).issued.find? (fun y => y.type == 2) = some copy ∧ (copy.srcSpace = 5 ∧ copy.dstSpace = 5 ∧ copy.moved + 8 < copy.len ∧
      (packetOf copy.words 0 8).len ≤ (packetOf copy.words 0 8).moved + 8) ∧
    ((at_ sig).ripe 0 [3] = some sig ∧ (at_ sig).ownNode (ptrNode (sig.word 1)) = true ∧ ((at_ sig).die (bits (sig.word 1) 26 24)).tested = true) ∧
    (∀ st ∈ [0, 1], (at_ (waitPacket 4 0 st)).ripe 0 [4] = some (waitPacket 4 0 st) ∧ (waitPacket 4 0 st).step = st ∧ (waitPacket 4 0 st).n = 1 ∧
      (at_ (waitPacket 4 0 st)).entryHolds ((waitPacket 4 0 st).entry 0) = true ∧
      (at_ (waitPacket 5 0 st)).ripe 0 [5] = some (waitPacket 5 0 st) ∧ (at_ (waitPacket 5 0 st)).entryHolds ((waitPacket 5 0 st).entry 0) = true ∧
      (at_ (waitPacket 4 1 st)).ripe 0 [4] = some (waitPacket 4 1 st) ∧ (at_ (waitPacket 4 1 st)).waitRead (waitPacket 4 1 st) = .fails ∧
      (at_ (waitPacket 5 1 st)).ripe 0 [5] = some (waitPacket 5 1 st) ∧ (at_ (waitPacket 5 1 st)).waitRead (waitPacket 5 1 st) = .fails) ∧
    ({ at_ v0 with vops := List.replicate 64 (vop 0 [] .queued) }.vqueueFull = true ∧ (at_ v0).vqueueFull = false ∧ (at_ v0).ripe 0 [6] = some v0 ∧
      v0.vkind = 0 ∧ vblockOk 0 [] = true ∧ (at_ v1).ripe 0 [6] = some v1 ∧ v1.vkind ≠ 0 ∧ vblockOk v1.vkind [0, 0] = true) ∧
    (at_ v1).readVaWords 0 0 (v1.word 2).toNat (vblockWords v1.vkind) = some (at_ v1, [0, 0]) ∧
    (∀ cr, ((post cr 0).queue 0).posting = [{ c with cr := cr }] ∧ ((post cr 0).queue 0).recFault = false) ∧ ((post true 0).queue 0).recordRoom = true ∧
    ((post true 16).queue 0).recordRoom = false :=
  ⟨by decide, by decide, by decide, by decide, by decide, by decide, by decide, by decide, by decide, rfl, by decide, by decide, by decide⟩

/-- The request words stand at frhead of function f. -/
def asked (f : Nat) (ws : List Word) (s : State) : State := { s with
  mem := Memory.setWords s.mem (hostAddr 0) ws, funcs := [(f, { ringEn := true, ringLg := 4, frtail := 1, root := some 0 })], ev := { key := f } }
/-- The page of VA 0x10000 mapped by tables at 0, 0x10000, 0x20000 and 0x30000. -/
def tablesMem : Memory := Memory.setWord (Memory.setWord (Memory.setWord (Memory.setWord [] (hbmAddr 0) 0x10001) (hbmAddr 0x10000) 0x20001)
  (hbmAddr 0x20000) 0x30001) (hbmAddr 0x30008) 0x4001F
set_option maxRecDepth 20000 in
theorem meets_FirmwareRequests : let w := fun (c : Nat) (w1 w2 : Word) => [BitVec.ofNat 64 c, w1, w2, 0, 0, 0, 0, 0]
    let r := fun (f c : Nat) (w1 w2 : Word) => asked f (w c w1 w2) room
    let t := asked 0 (w 2 0x10000 0x10000) { room with mem := tablesMem }
    let l := { r 0 3 255 64 with groups := [(255, { valid := true })] }
    let b := asked 0 (w 5 1 4) { room with
      dies := [(0, { up := true }), (4, { up := true })], cores := [(0, { en := true }), (1024, { en := true, handler := true })] }
    (∀ c ∈ [1, 2, 3, 4, 5, 6, 7, 8], (r 0 c 0 0).fwRequest 0 = some (w c 0 0) ∧ bits ((w c 0 0).getD 0 0) 7 0 = c ∧
      bits ((w c 0 0).getD 0 0) 15 8 = 0 ∧ bit ((w c 0 0).getD 0 0) 63 = false ∧ bits ((w (c + 256) 0 0).getD 0 0) 15 8 ≠ 0) ∧
    (t.fwRequest 0 = some (w 2 0x10000 0x10000) ∧ t.walk 0 0x10000 = some (hbmAddr 0x30008, 0x4001F, 16) ∧ hbmAddr 0x30008 + 8 ≤ hostAddr 0) ∧
    (l.fwRequest 0 = some (w 3 255 64) ∧ bits (255 : Word) 63 8 = 0 ∧ (64 : Word).toNat % 64 = 0 ∧ (l.group 255).valid = true ∧
      (l.group 255).owner = 0 ∧ l.vops = []) ∧
    (b.fwRequest 0 = some (w 5 1 4) ∧ bits (1 : Word) 63 32 = 0 ∧ bit (4 : Word) 3 = false ∧ bits (4 : Word) 63 12 = 0 ∧ 4 ≤ bits (4 : Word) 2 0 ∧
      (b.gang? 1).isSome = true ∧ (b.gang 1).func = 0 ∧ (b.vc vk0).live = true ∧ (b.vc vk0).holds = [] ∧ (b.vc vk0).move = none ∧
      (b.vc vk0).place.isSome = true ∧ (b.vc vk0).lead = none ∧ b.entriesFor vk0 = true ∧ b.coreFree 1024 = true ∧ b.fixedAway 1024 none = false) ∧
    (∀ f ∈ [3, 4], (r f 8 6000 0).fwRequest f = some (w 8 6000 0)) ∧ (bits (6000 : Word) 63 16 = 0 ∧ 1500 ≤ bits (6000 : Word) 15 0 ∧
      bits (1500 : Word) 15 0 ≤ 6000) := by decide

theorem meets_BootAndPower : let ups := fun (svc : Nat) => { base with svc := svc, dies := [(0, { up := true }), (1, { up := true }), (2, { up := true }), (3, { up := true }), (4, { up := true, hot := true })] }
    let least : Word := Config.rollbackCounter.setWidth 64
    State.reset.boot = .off ∧ (bit (3 : Word) 0 = true ∧ bit (3 : Word) 1 = true ∧ Config.rollbackCounter.toNat ≤ least.toNat) ∧
    bit (2 : Word) 0 = false ∧
    (base.boot = .running ∧ (base.die 7).tested = false ∧ (base.die 1).tested = false ∧ isF 1 = true ∧ base.svc ≠ 0 ∧ isF 7 = false) ∧
    ((ups 1).svc = 1 ∧ ∀ j < 4, ((ups 1).die j).up = true) ∧
    ({ base with now := 1000 * usUnits }.powerAt + 1000 * usUnits ≤ 1000 * usUnits ∧ (base.die 0).hot = false ∧ base.plim < 6001 ∧ 5999 < base.plim ∧
      ((base.die 0).newClock.getD (base.die 0).clock) < base.topClock 0 ∧ ((ups 2).die 4).hot = true) ∧
    (1760 < (1761 : BitVec 16).toInt ∧ 1920 < (1921 : BitVec 16).toInt ∧ (base.die 0).up = true) ∧
    ((partners 4).getD 1 15 = 0 ∧ (0 : Nat) ≠ 15 ∧ (0 : Nat) ≠ 4) :=
  ⟨by decide, ⟨by decide, by decide, by rw [BitVec.toNat_setWidth]; omega⟩, by decide, by decide, by decide, by decide, by decide, by decide⟩

/-- A flit from node 1 to node 0: a load of slot 2 for virtual core 0 of the gang with no job. -/
def flit (op vn : Nat) : Flit := sealFlit [BitVec.ofNat 64 (vn + op * 4 + 2 ^ 28), 0x200000000, 0x7FF8, 0, 0, 0, 0, 0]
/-- Port 0 of a package of two nodes along X is x. -/
def ported (x : Port) : State := { pair with ports := [(0, x)], dims := [2, 1, 1, 1], ev := { key := 0, data := flit 0 0 } }
def farMsg : Msg := Msg.mk (.vc vk0) (.farVc 1 0 5) .request (.load 7 3 0x1 false) none false
set_option maxRecDepth 20000 in
theorem meets_SarobFabric : let f := flit 0 0
    let g := f.set 1 0
    let up := ported {}
    let late := { ported { link := .retraining, replays := 16 } with now := 1000 * usUnits }
    let kept := [f]
    let out := { posted farMsg (ported {}) with ev := { val := 1 } }
    let e : Sent := { eseq := 65535, msg := farMsg, tries := 7, due := 0 }
    let sent := { ported {} with farOut := [(pairKey 1 0, { sent := [e] })], ev := { key := pairKey 1 0, ix := 65535 } }
    let inn : State := { up with arrived := [[f]] }
    (7 < 8 ∧ (up.port 0).link = .up ∧ crcOk f = true ∧ flitVn f ≠ 3 ∧ flitLseq f = (up.port 0).expect ∧ opAssigned (flitVn f) (flitOp f) = true ∧
      flitDnode f = up.node) ∧ crcOk g = false ∧ (late.port 0).link ≠ .up ∧
    ((ported { buffer := kept }).port 0).buffer.filter (fun x => !decide ((65535 + 65536 - flitLseq x) % 65536 < 512)) = kept ∧
    ((ported {}).port 0).waiting = [] ∧
    (((ported { replays := 16 }).port 0).link = .up ∧ 16 ≤ ((ported { replays := 16 }).port 0).replays) ∧
    ((ported { link := .retraining }).port 0).link = .retraining ∧ (ported {}).now < 0 + 1000 * usUnits ∧
    ((late.port 0).link = .retraining ∧ (late.port 0).downAt + 1000 * usUnits ≤ late.now ∧ (late.node, 0) ∉ late.deadLinks) ∧
    (out.leaves? 0 = some (farMsg, 1) ∧ 1 ∉ out.unreachable ∧ farMsg.net ≠ .reply ∧ out.unackedFlits (pairKey 1 0) = 0) ∧
    (inn.arrived[0]? = some [f] ∧ (([f] : List Flit).getLast?).any (fun g => flitNfl g != 0) = false ∧ flitVn f = 0 ∧ flitOp f = 0 ∧
      flitEseq f = (FMap.getD inn.farIn (pairKey (flitSnode f) 0) {}).expect ∧ (FMap.getD inn.farIn (pairKey (flitSnode f) 0) {}).early = []) ∧
    flitOp (flit 0x25 2) = 0x25 ∧
    ((sent.out (pairKey 1 0)).sent = [e] ∧ e.msg.body.replies = true ∧ e.due ≤ sent.now ∧ e.tries < 8) ∧
    (1 ∉ pair.unreachable ∧ 1 ≠ pair.node ∧ pair.hasRoute 1 = false) ∧ up.hasRoute 1 = true := by decide
theorem flit_has_body : ∃ b, bodyOfFlits [flit 0 0] = some b := by
  unfold bodyOfFlits
  dsimp only
  split
  · exact ⟨_, rfl⟩
  · exact ⟨_, rfl⟩

/-! Further clauses of the statements above, at boundary values. -/

theorem meets_LocalAtomics_traps : let u := x56 0x7FF9 3
    let z := x56 0x8000 3
    (u.x 5).toNat % 8 ≠ 0 ∧ (u.x 5).toNat % 4 ≠ 0 ∧ (z.x 5).toNat % 8 = 0 ∧ (z.x 5).toNat % 4 = 0 ∧
    lmCheck z.me (z.x 5) 8 false = .error (30, 0x8000) ∧ lmCheck z.me (z.x 5) 4 true = .error (30, 0x8000) := by decide
theorem meets_CsrAccess_flags : let s := my (fun v => { v with flagCyc := 17, flagNew := 1 })
    s.myVc.flagCyc = s.cycOf s.vk + 1 ∧ base.myVc.flagCyc ≠ base.cycOf base.vk + 1 := by decide
/-- 1/3 lies between two normal numbers, 2^-149 × 1/2 below the least subnormal, 2^128 beyond the largest number. -/
theorem meets_Rounded : let at_ := fun (n d : Nat) (e : Int) (k : Nat) => Claim.versus n d e (Claim.magnitude fmt32 k).1 (Claim.magnitude fmt32 k).2
    (fmt32, 0x7F7FFFFF, 0x7F800000) ∈ Claim.formats ∧ (at_ 1 3 0 0x3EAAAAAA ≠ .lt ∧ at_ 1 3 0 0x3EAAAAAB = .lt ∧ 0x3EAAAAAB ≤ 0x7F7FFFFF) ∧
    (at_ 1 1 (-150) 0 ≠ .lt ∧ at_ 1 1 (-150) 1 = .lt) ∧ (at_ 1 1 128 0x7F800000 ≠ .lt ∧ at_ 1 1 128 0x7F800001 = .lt ∧ 0x7F7FFFFF < 0x7F800000) ∧
    fmt32.value 0x3F800000 = .fin false 0x800000 (-23) ∧ fmt32.value 0xBF800000 = .fin true 0x800000 (-23) ∧
    fmt32.value 0 = .fin false 0 (-149) ∧ fmt32.value 0x7F800000 = .inf false ∧ fmt32.value 0xFF800000 = .inf true ∧
    fmt32.value 0x7F800001 = .nan true ∧ fmt32.value 0x7FC00000 = .nan false ∧
    (Claim.versus 0x800000 1 (-24) 0 0 ≠ .lt ∧ Claim.versus 0x800000 1 (-24) 1 0 = .lt) := by decide
theorem meets_SemaphoreWake : let s := at1 { st := .parked, park := some (.sem 31) } vc0
    ((slot0 + 1) / 16 = s.vk ∧ (s.slot (slot0 + 1)).st = .parked ∧ (s.slot (slot0 + 1)).park = some (.sem 31)) := by decide
theorem meets_RingTransfers_fenced : let p := (ringAt 2 1 0x80 2 base).updCore 0 (fun c => { c with sqfen := true })
    p.handle? 0 .producer (kindIs [0, 2, 5]) = some 63 ∧ (p.ring p.vk 63).count ≤ (p.ring p.vk 63).fill ∧ (p.ring p.vk 63).kind = 2 ∧
    (p.ring p.vk 63).vnet = 0 ∧ (p.core (p.coreOf p.vk)).sqfen = true ∧ p.me.mode = .u := by decide
theorem meets_Guyline_messages : let g : Group := { valid := true, isOpen := true, members := [vk0], arrivals := [(vk0, 1)], early := [(vk0 + 1, 2)] }
    let m : Msg := Msg.mk (.vc vk0) .memory .control (.arrive 255 5) none false
    let a := fun (x : Group) => { base with groups := [(255, x)], net := [m], ev := { key := 255, val := 1 } }
    let c : Msg := Msg.mk .memory (.vc vk0) .control (.guyline 255 (List.replicate 8 1)) none false
    let d : State := { member { vc0 with gpend := [(1, true)] } (me (fun sl => { sl with st := .parked, park := some (.group 255) })) with
      net := [c], ev := { val := 1 } }
    let e : State := { base with groups := [(255, g)], ev := { key := 255 } }
    (e.ev.val = 0 ∧ e.episodeComplete 255 = true ∧ (e.group 255).arrivals ≠ []) ∧
    ((a {}).ev.val = 1 ∧ (a {}).net[0]? = some m ∧ ((a {}).group 255).isOpen = false ∧ ((a g).group 255).isOpen = true ∧
      vk0 ∈ ((a g).group 255).members ∧ vk0 ∉ ((a { g with members := [] }).group 255).members) ∧
    (d.ev.val = 1 ∧ d.evMsg = some c ∧ (d.vc vk0).live = true ∧ (d.vc vk0).place.isSome = true ∧
      (d.vc vk0).groups.findIdx? (· == 255) = some 1 ∧ (d.slot slot0).st = .parked ∧ (d.slot slot0).park = some (.group 255)) := by decide
theorem meets_WorkRings_fenced : let p := (ringAt 4 2 0x80 1 (x56 0x7FF0 0)).updMyVc (fun v => { v with unacked := [{ id := 7, slot := 0, dests := [.vc vk0] }] })
    p.fenced (workScope (p.ring p.vk 63)) ≠ [] ∧ (p.ring p.vk 63).fill < (p.ring p.vk 63).count ∧
    p.handle? 0 .producer (kindIs [4]) = some 63 := by decide
theorem meets_FenceI : let c : CacheLine := ⟨0, 0, 1, 0x40, []⟩
    let e : TlbEntry := { fn := 0, va := 0, lg := 16, leaf := 0, at_ := .itlb 0 }
    let s : State := { pair with dies := [(0, { icache := [c, { c with trellis := 1 }], tlb := [e, { e with at_ := .shared }] }), (7, { icache := [c] })] }
    s.coreOf s.vk / 256 = 0 ∧ trellisOf (s.coreOf s.vk) = 0 ∧ s.coreOf ((slot0 + 16) / 16) / 256 = 0 := by decide

/-- The slot is bound to engine 0, which is frozen, or whose queue is full. -/
def frozenEngine : State := (bound 0 base).updMyVc (fun v => { v with frozen := true })
def fullEngine : State := (bound 0 base).updMyVc (fun v => { v with queue := [(0, List.replicate 8 (entryOf .wswapq))] })
theorem meets_MatrixAcceptance_traps : let c := fun (v : Word) => small (bound 0 (x56 v 0))
    let l := fun (n : BitVec 10) (m : Nat) => (ringAt 0 n 0x40 0 (bound 0 (x56 0 0))).updMyVc (fun v => { v with
      pcfg0 := { v.pcfg0 with m := m, n := 64 } })
    let o := fun (x : Word) (n : BitVec 10) (m : Nat) => (ringAt 0 n 0x80 2 (bound 0 (x56 x 0))).updMyVc (fun v => { v with
      pcfg0 := { v.pcfg0 with m := m, n := 64 } })
    let r := fun (s : State) => s.ring s.vk 63
    let p := fun (s : State) => s.myVc.pcfg 0
    (Claim.Busy frozenEngine 0 ∧ Claim.Busy fullEngine 0) ∧
    (FMap.get? (runs 0 { entry := entryOf (.mzero 0) } base).myVc.run 0 ≠ none ∧ FMap.get? base.myVc.run 0 = none ∧ base.myVc.queueOf 0 = []) ∧
    ((c 0x80).x 5 &&& 0xFFF0000000F88080 ≠ 0 ∧ FMap.get? (c 0x80).myVc.binds 0 = some (c 0x80).ix) ∧
    ((cfgOfWord 0x0000000100040000).cwen = true ∧ (cfgOfWord 0x0000000100040000).cw % 8 ≠ 0 ∧
      (cfgOfWord 0x0000800000040000).cwen = true ∧ (cfgOfWord 0x0000800000040000).cw = 0x8000 ∧ lmCheck sl0 0x8000 8 true = .error (30, 0x8000)) ∧
    ((l 31 2).handle? 0 .consumer (feeds 0) = some 63 ∧ (r (l 31 2)).size < 4 * (p (l 31 2)).n) ∧
    (4 * (p (l 32 3)).n ≤ (r (l 32 3)).size ∧ (r (l 32 3)).count < (p (l 32 3)).m) ∧
    (4 * (p (l 32 2)).n ≤ (r (l 32 2)).size ∧ (p (l 32 2)).m ≤ (r (l 32 2)).count ∧ (l 32 2).availFill (l 32 2).vk 0 63 < (p (l 32 2)).m) ∧
    ((o 128 64 1).handle? 0 .producer (kindIs [0]) = some 63 ∧ ¬ ((o 128 64 1).x 5).toNat < 128) ∧
    ((r (o 4 1 1)).size < outBytes ((o 4 1 1).x 5) 64 ∧ ((o 4 1 1).x 5).toNat < 128) ∧
    (outBytes ((o 4 64 3).x 5) 64 ≤ (r (o 4 64 3)).size ∧ (r (o 4 64 3)).count < (p (o 4 64 3)).m) ∧
    (outBytes ((o 4 64 2).x 5) 64 ≤ (r (o 4 64 2)).size ∧ (o 4 64 2).availRoom (o 4 64 2).vk 0 63 < (p (o 4 64 2)).m) := by
  unfold Claim.Busy; decide

/-- Configured for m rows of one column and kb K-blocks; pointer 0 is p, pointer 1 is b; ring 63 has slots of 8n bytes, fill of them filled. -/
def mmaState (m kb : Nat) (p b : BitVec 36) (n : BitVec 10) (fill : Nat) : State :=
  (bound 0 (ringAt 0 n 0x40 fill base)).updMyVc (fun v => { v with
    pcfg0 := { v.pcfg0 with m := m, n := 1, kb := kb }, pwp := (v.pwp.set 0 p).set 1 b })
theorem meets_MmaAcceptance_traps : let ok := mmaState 1 1 0 0 17 1
    let r := fun (s : State) => s.ring s.vk 63
    let least := fun (s : State) (o step x : Nat) => (∃ b < 2, x = (o + step * b) % 0x100000) ∧ s.share s.vk ≤ x ∧
      ∀ b < 2, s.share s.vk ≤ (o + step * b) % 0x100000 → x ≤ (o + step * b) % 0x100000
    let w := mmaState 1 2 0x6000 0x7FF0 17 1
    (ok.share ok.vk = 0x8000 ∧ (ok.myVc.pcfg 0).i32 ≠ fmtIsI8 .i8 ∧ (mmaState 1 1 0 0 17 0).availFill ok.vk 0 63 < 1) ∧
    (r (mmaState 1 1 0 0 16 1)).size < 136 ∧ (136 ≤ (r (mmaState 3 1 0 0 17 2)).size ∧ (r (mmaState 3 1 0 0 17 2)).count < 3) ∧
    (0x1000 % 8192 ≠ 0 ∧ 8 % 16 ≠ 0) ∧ least w 0x6000 8192 0x8000 ∧ least w 0x7FF0 16 0x8000 ∧
    FMap.get? (base.myVc).binds 0 ≠ some base.ix := by decide
theorem meets_VectorAcceptance_traps : let z := fun (ix : Nat) => (vecState.ring vecState.vk ix).size
    let e := vecState.updMyVc (fun v => { v with rings := v.rings.map (fun (q : Nat × Ring) => (q.1, { q.2 with fill := 0 })) })
    let f := vecState.updMyVc (fun v => { v with rings := v.rings.map (fun (q : Nat × Ring) => (q.1, { q.2 with fill := 4 })) })
    let b := vecState.updMyVc (fun v => { v with frozen := true })
    (base.handle? 0 .producer (kindIs [0]) = none ∧ base.handle? 1 .consumer (feeds 1) = none ∧ FMap.get? base.myVc.binds 1 ≠ some base.ix) ∧
    e.availFill e.vk 1 1 < 1 ∧ f.availRoom f.vk 1 0 < 1 ∧ Claim.Busy b 1 ∧ ¬ (136 ≤ z 0 ∧ z 1 / 4 ≤ 0) ∧
    ¬ ((vecState.updMe (fun sl => { sl with frm := 1 })).me.frm = 0) ∧ (vecState.ring vecState.vk 0).count < 5 := by
  unfold Claim.Busy; decide

/-- Ring 62 of two slots of 8n bytes, fill of them filled; the word of an instruction that names it as rd or ra. -/
def withOut (n : BitVec 10) (fill : Nat) (s : State) : State := vc0Is (fun v => { v with
  rings := (62, { valid := true, lgcnt := 1, size8 := n, base := 0x4000, tail := fill % 2, fill := fill }) :: v.rings }) s
theorem meets_EngineSteps_matrix : let c := fun (kb : Nat) (s : State) => s.updMyVc (fun v => { v with cfg0 := { v.cfg0 with m := 1, n := 1, kb := kb } })
    let i : Instr := .mma .bf true true true 0 7 6 0
    let q : QEntry := { entryOf i with ra := some 63, na := 1 }
    let st := fun (q : QEntry) (kb : Nat) => engine 0 q (withOut 17 0 (ringAt 0 17 0x40 1 (c kb base)))
    let ld : QEntry := { entryOf (.mload false 0 7) with ra := some 63, na := 1 }
    let out : QEntry := { entryOf (.mout false 7 0 5) with rd := some 62, nd := 1, op := 0x24 }
    let ok := fun (s : State) (q : QEntry) => s.matrixCanStart vk0 = true ∧ FMap.get? (s.vc vk0).run 0 = none ∧ (s.vc vk0).queueOf 0 = q :: []
    let rows := (List.range 1).map (fun i => outRow false 0x24 .rne (rowValues ((st out 1).vc vk0) 0 (outTgt 0x24) i 1))
    let run : Running := { entry := { q with kdone := 1 }, count := 1 }
    let r := runs 0 run (ringAt 0 17 0x40 1 (c 2 base))
    let e := fun (ev cw : Bool) => runs 0 { run with finished := true } ((ringAt 3 2 0x40 0 base).updMyVc (fun v => { v with
      evring := 0xBF, swaps := 1, cfg0 := { v.cfg0 with ev := ev, cwen := cw, cw := 0x3000 } }))
    (ok (st ld 1) ld ∧ decode ld.word = .ok (.mload false 0 7) ∧ ((st ld 1).vc vk0).cfg0.m ≤ 64) ∧
    (ok (st out 1) out ∧ decode out.word = .ok (.mout false 7 0 5) ∧ 1 ≤ ((st out 1).ring vk0 62).count ∧
      ∀ p ∈ rows, p.1.length ≤ ((st out 1).ring vk0 62).size) ∧
    (ok (st q 1) q ∧ (mmaArgs q).isSome = true ∧ ((st q 1).vc vk0).cfg0.nrec ≠ 0 ∧ ((st q 0).vc vk0).cfg0.nrec = 0 ∧ ok (st q 0) q) ∧
    (ok (st { q with kdone := 1 } 2) { q with kdone := 1 } ∧ (mmaArgs { q with kdone := 1 }).isSome = true) ∧
    (r.matrixCanStart vk0 = true ∧ FMap.get? (r.vc vk0).run 0 = some run ∧ (mmaArgs run.entry).isSome = true) ∧
    ((e true false).matrixCanEnd vk0 = true ∧ (e true false).eventRoom vk0 16 = some true ∧ (e false true).matrixCanEnd vk0 = true) := by
  decide
theorem meets_EngineSteps_vector : let i : Instr := .vadd false .f32 7 6 5
    let q : QEntry := { entryOf i with rd := some 62, ra := some 63, rb := some 63, nd := 1, na := 1, nb := 1 }
    let s := runs 1 { entry := q } (withOut 17 0 (ringAt 0 1 0x40 2 base))
    (s.vectorCanEnd vk0 = true ∧ decode q.word = .ok i ∧ (vecArgs i).isSome = true) ∧
    ((s.ring vk0 63).head < (s.ring vk0 63).count ∧ (s.ring vk0 63).tail < (s.ring vk0 63).count ∧
      (s.ring vk0 62).head < (s.ring vk0 62).count ∧ (s.ring vk0 62).tail < (s.ring vk0 62).count) ∧
    (let y := vecResult i ⟨false, .f32, some 7, some 6, some 5⟩ (List.replicate 8 0) (List.replicate 8 0) 136 0 (fun _ => 0) vc0.vacc
     y.out.length ≤ 2 ∧ ∀ b ∈ y.out, b.length ≤ 136) := by decide

set_option maxRecDepth 40000 in
theorem meets_Copies_more : let g := fun (w : Word) (n : BitVec 10) => (bound 2 (ringAt 0 n 0x40 1 (x56 w 0))).updMyVc (fun v => { v with
      groups := [1, 255], lt := [(63, [1, 0, 0, 0])] })
    let mcw : Word := 0xFF003F00
    let r : Running := { entry := copyEntry, record := [1, 0x0000000100000001], src := [0x2000000, 0, 0, 0], dst := [0x1001, 0, 0, 0] }
    let f := runs 2 { r with fault := some (3, 0x40) } ((ringAt 0 8 0 0 (bound 2 base)).updMyVc (fun v => { v with supmbox := 0x8000000003F00000 }))
    ((g mcw 13).inGroup vk0 255 = true ∧ (layoutOfWords ((g mcw 13).myVc.layoutWords 63)).space = 1 ∧
      (g mcw 13).ownNode (layoutOfWords ((g mcw 13).myVc.layoutWords 63)).node = true ∧ bits mcw 31 24 = 255 ∧ bits mcw 13 8 = 63 ∧
      mcw &&& 0xFFFF000000FCC0C0 = 0) ∧
    ((g 0 12).ring vk0 63).size < 104 ∧ (0x40 : Word) &&& 0xFFFF000000FCC0C0 ≠ 0 ∧ (g mcw 13).inGroup vk0 254 = false ∧
    (layoutOfWords ((g 0 13).myVc.layoutWords 0)).space ≠ 1 ∧ base.handle? 0 .consumer (feeds 2) = none ∧ base.handle? 0 .consumer (feeds 3) = none ∧
    (tgtRzOk 0 = true ∧ ∃ w : Word, tgtRzOk w = false) ∧
    ((layoutOfWords r.src).space = 0 ∧ (layoutOfWords r.dst).space = 1 ∧ (layoutOfWords r.dst).rspace = 0 ∧ pair.ownNode (layoutOfWords r.dst).node = true ∧
      r.asked = [] ∧ r.refused = false ∧ r.sent = false ∧ r.got = none ∧ r.entry.mMode = false ∧ r.entry.base ≤ 0x2000 ∧
      (layoutOfWords r.src).base = 0x2000 ∧ 0x2000 + recEb r.record ≤ r.entry.base + r.entry.lim) ∧
    (f.copyFaulted vk0 = true ∧ f.eventRoom vk0 16 = none ∧ f.mailbox vk0 = some (vk0, 0, 63) ∧ FMap.get? (f.vc vk0).binds 2 = some 0) := by
  refine ⟨by decide, by decide, by decide, by decide, by decide, by decide, by decide, ⟨by decide, 0xFFFFFFFFFFFFFFFF, by decide⟩, by decide, by decide⟩
set_option maxRecDepth 8000 in
theorem meets_SumRules : let one : Nat := 0x38
    (∃ xn xm xe yn ym ye, fmtE4.value one = .fin xn xm xe ∧ fmtE4.value one = .fin yn ym ye ∧ -40 ≤ xe + ye) ∧ (fmtE4.value 0x7F).isNan = true ∧
    (List.replicate 8 (some (one, one))).length = 2 ^ 3 := ⟨⟨false, 8, -3, false, 8, -3, by decide, by decide, by decide⟩, by decide, by decide⟩
set_option maxRecDepth 8000 in
theorem meets_RowRules : let row : List (Machine.Num × Nat) := List.replicate 128 (fmt32.value 0x3F800000, 0x3F800000)
    127 < row.length ∧ row.length ≤ 128 ∧ bit (0x04 : Word) 4 = false ∧ bit (0x10 : Word) 4 = true := by decide
set_option maxRecDepth 8000 in
theorem meets_VectorRules : let ha : List Byte := List.replicate 32 1
    let hb : List Byte := [1, 0, 0, 0, 9, 0, 0, 0]
    (4 * (ha.length / 4) ≤ ha.length ∧ ha.length / 4 ≤ 128 ∧ 0 < ha.length / 4 ∧ 256 ≤ (List.replicate 256 (0 : Byte)).length) ∧
    fmt32.value 0x3F800000 = .fin false 0x800000 (-23) ∧
    (Claim.elementOf hb 4 0 = 1 ∧ Claim.elementOf hb 4 1 = 9 ∧ hb.length / 4 ≤ hb.length / 4 ∧ 8 / 4 ≤ 9 ∧ 8 % 8 = 0) := by decide

theorem meets_Performed : let b := [Body.load 7 3 0x7FF8 false, .load 7 3 0x7FF8 true, .load 7 3 0x8000 false, .store ⟨8, 2, 3⟩ 0x7FF8 5 .setFull none,
      .store ⟨8, 2, 3⟩ 0x8000 5 .plain none, .atomic 7 3 65535 1 0x7FF8 .add 1 0 true, .atomic 7 3 65535 1 0x8000 .cas 1 0 false]
    (∀ x ∈ b, (inbox x).homeFree (toMe x) = true) ∧ 0x7FF8 + 8 ≤ pair.launchLenOf vk0 ∧ pair.launchLenOf vk0 < 0x8000 + 8 := by decide
theorem meets_RemoteLoads_more : let w : FarWait := ⟨.vc (vk0 + 1), 3, 7, 0, 0⟩
    let s : State := { inbox (.load 7 3 0x7FF8 true) with vcs := [(vk0, vc0), (vk0 + 1, { vc0 with vcid := 1, place := some 0, farWait := List.replicate 16 w })] }
    let e := crowded (ptr lastWord)
    (Claim.Arrives s (toMe (.load 7 3 0x7FF8 true)) vk0 ∧ s.homeFree (toMe (.load 7 3 0x7FF8 true)) = true ∧ s.isFull 0x8FF8 = false ∧
      (s.vc vk0).farWait = [] ∧ 16 ≤ s.farWaiting (s.coreOf vk0)) ∧
    (e.myVc.kept = [] ∧ 32 ≤ (e.core (e.coreOf e.vk)).egress.length ∧ (e.core (e.coreOf e.vk)).sqfen = false ∧
      ((e.updCore 0 (fun c => { c with sqfen := true })).core 0).sqfen = true ∧ e.me.mode = .u ∧ e.fenced .pkg = [] ∧
      (e.gang 1).quiesced = false) :=
  ⟨⟨arrives_of (by decide), by decide⟩, by decide⟩
theorem meets_HeldStores_more : let w := fun (b : Body) => holding 1 (inbox b)
    (∀ b ∈ [Body.release 0xFC1, .expiry 0xFC1], (w b).homeFree (toMe heldBody) = true ∧
      ((w b).vc vk0).holdQ = [⟨Msg.mk (.vc (vk0 + 1)) (.vc vk0) .request heldBody none false, some 0xFC1, false, false⟩]) := by decide
theorem meets_Batches_more : let b := crowded (my (fun v => { v with batches := v.batches.set 3 { dests := [.vc (vk0 + 1)] } }))
    (b.me.hold = none ∧ (b.myVc.batches[3]).dests ≠ [] ∧ 32 ≤ (b.core (b.coreOf b.vk)).egress.length ∧ (b.core 0).sqfen = false ∧
      ((b.updCore 0 (fun c => { c with sqfen := true })).core 0).sqfen = true ∧ b.me.mode = .u) := by decide
theorem meets_RemoteAtomics_more : (∀ j r p, (ptr lastWord).me.hold ≠ some (.atomic j r p)) ∧ ((ptr 0x1007FF9).x 5).toNat % 8 ≠ 0 ∧
    (((ptr 0x1000000000008000).x 5).toNat % 8 = 0 ∧ ¬ Claim.Good ((ptr 0x1000000000008000).x 5)) := by
  have n : (ptr lastWord).me.hold = none := by decide
  refine ⟨fun j r p h => ?_, by decide, by decide, good_sendable.2.2.2.1⟩
  rw [n] at h
  cases h
theorem meets_WriteWithEnqueue_more : let b := Body.enqueue ⟨7, 0, 0⟩ 62 (List.replicate 8 1)
    (toMe b).src = .vc (vk0 + 1) ∧ ∀ j, (toMe b).src = .vc j → ((inbox b).vc j).frozen = false :=
  ⟨rfl, fun j h => by cases h; decide⟩

/-- Graft of 8 bytes of the share, every element perturbed, a notification word at 0x7FF8; from virtual core 0 to 1. -/
def graft : List Word := [0, 0, 0x0001000000000000, 0x8000000, 0, 0x107FF8, 0x10000]
def selected (o : VOp) : State := vstate o (grouped { ranking := some [(0, 1, 0), (1, 0, 0)], selection := some [⟨1, 0, 0, 1⟩] } pair)
theorem meets_Vintner_next : ∀ k ps st h, let s := vstate (vop k ps st h)
    Claim.Next s (vop k ps st h) := fun k ps st h => ⟨(first_of k ps st h).1, (first_of k ps st h).2.1, (first_of k ps st h).2.2.1,
      (first_of k ps st h).2.2.2, rfl, rfl⟩
theorem meets_RackSteps : let q := vop 2 graft .queued
    let h := vop 2 graft .holding [(vk0, .held), (vk0 + 1, .held)]
    let r := { vop 2 graft .racking [(vk0 + 1, .held)] with left := [(vk0 + 1, 8, 0)] }
    let d := { r with left := [(vk0 + 1, 0, 8)] }
    let p := rackPar graft
    let b := Body.rackWrite 5 0 (List.replicate 8 1)
    let m := Msg.mk (.vc vk0) (.vc (vk0 + 1)) b.net b none false
    let a := { posted m (selected r) with ev := { key := 5, val := 1 } }
    (Claim.Next (selected q) q ∧ Claim.Next (selected h) h ∧ Claim.Next (selected d) d) ∧
    (((selected q).vgroup 255).selection = some [⟨1, 0, 0, 1⟩] ∧ (selected q).vops = [q] ∧ q.res + 8 + 8 ≤ q.lim) ∧
    (q.members.any (fun k => ((selected q).vc k).vcid == 1) = true ∧ q.members.any (fun k => ((selected q).vc k).vcid == 0) = true ∧
      p.ok ((selected q).share (vk0 + 1)) ((selected q).launchLenOf (vk0 + 1)) = true ∧
      (rackPar [0, 0, 0, 0xC00000]).ok ((selected q).share (vk0 + 1)) ((selected q).launchLenOf (vk0 + 1)) = false) ∧
    (h.allSettled = true ∧ p.wsoff + p.wslen ≤ 2 ^ 20 ∧ p.wslen = 8 ∧ h.isHeld vk0 = true ∧ h.isHeld (vk0 + 1) = true) ∧
    (Claim.Arrives a m (vk0 + 1) ∧ a.ev.val = 1 ∧ a.vop? 5 = some r ∧ r.left.any (fun y => y.1 == vk0 + 1) = true) ∧
    ((selected d).rackedAll d = true ∧ ((selected d).vc (vk0 + 1)).live = true ∧ p.nen = true ∧
      lmAddr ((selected d).coreOf (vk0 + 1)) (((selected d).vc (vk0 + 1)).base + p.noff) % 8 = 0) :=
  ⟨⟨⟨rfl, rfl, rfl, rfl, rfl, rfl⟩, ⟨rfl, rfl, rfl, rfl, rfl, rfl⟩, ⟨rfl, rfl, rfl, rfl, rfl, rfl⟩⟩, by decide, by decide, by decide,
    ⟨⟨by decide, by decide, by decide, by decide, by decide, by decide, by decide⟩, by decide⟩, by decide⟩
theorem meets_Perturbing : (fmtE4, 0x7E, 0x7F) ∈ Claim.formats ∧ fmtE4 ≠ fmt64 ∧ (fmtE4.value 0x7F).isNan = true ∧ fmtE5.value 0x7C = .inf false ∧
    fmtE4.value 0x38 = .fin false 8 (-3) ∧ fmt32.value 0 = .fin false 0 (-149) ∧ fmt32.value 0x7F800000 = .inf false ∧
    fmt32.value 0x3F800000 = .fin false 0x800000 (-23) ∧
    (Claim.versus ((127 * 2 ^ 23 + 0x800000 : Int)).natAbs 1 (-23) 128 0 ≠ .lt ∧ Claim.versus ((127 * 2 ^ 23 + 0x800000 : Int)).natAbs 1 (-23) 129 0 = .lt) := by
  decide
theorem meets_MigrateSteps : let far : List Word := graft.take 6 ++ [0x100010000]
    let both : List (Nat × Machine.Member) := [(vk0, .held), (vk0 + 1, .held)]
    let h := vop 4 graft .holding both
    let f := fun (c : Option Nat) => { vop 4 far .holding [(vk0, .held)] with answer := c }
    let w := fun (c : Nat) => { vop 4 far .away [(vk0, .held)] with answer := some c }
    let r := { vop 4 graft .racking both with left := [(vk0 + 1, 0, 8)] }
    (h.allSettled = true ∧ h.anySkipped = false ∧ (selected h).ownNode (migNode h.params) = true ∧ Claim.Next (selected h) h ∧
      (vop 4 graft .holding [(vk0, .held), (vk0 + 1, .skipped)]).anySkipped = true) ∧
    (r.stage = .racking ∧ (selected r).rackedAll r = true ∧ Claim.Next (selected r) r) ∧
    (∀ c ∈ [none, some 9], (selected (f c)).ownNode (migNode (f c).params) = false ∧ (f c).allSettled = true ∧ (f c).anySkipped = false) ∧
    Claim.Next (selected (f (some 9))) (f (some 9)) ∧ ((w 12).stage = .away ∧ (w 12).answer = some 12 ∧ (w 8).answer = some 8) :=
  ⟨⟨by decide, by decide, by decide, ⟨rfl, rfl, rfl, rfl, rfl, rfl⟩, by decide⟩, ⟨by decide, by decide, ⟨rfl, rfl, rfl, rfl, rfl, rfl⟩⟩,
    by decide, ⟨rfl, rfl, rfl, rfl, rfl, rfl⟩, by decide⟩
theorem meets_ContextAndMailbox_more : let b := Body.mailbox 15 63 (1 :: List.replicate 7 0)
    let s : State := inbox b
    (Claim.Arrives s (toMe b) vk0 ∧ (s.ring vk0 63).valid = false ∧ 15 < slotCount (s.vc vk0) ∧
      ((1 : Word) :: List.replicate 7 0).headD 0 = 1) ∧
    (let o := s.updSlot (slotKey (vk0 + 1) 0) (fun sl => { sl with qowner := 0x10000 })
     (o.slot (slotKey (vk0 + 1) 0)).qowner.getLsbD 16 = true ∧ (toMe b).src = .vc (vk0 + 1)) :=
  ⟨⟨arrives_of (by decide), by decide⟩, by decide⟩
theorem meets_RequestNetwork_more : let back := inbox (.retry (.close 1 0) true)
    let e := { pair.updCore 0 (fun c => { c with egress := [toMe (.close 1 0)] }) with ev := { key := 0 } }
    back.ev.val = 0 ∧ (Body.close 1 0).heldOn = none ∧ (back.vc vk0).frozen = false ∧ e.farRoom (toMe (.close 1 0)) = true ∧ e.hasCredit 0 = true ∧
    (pair.gang (pair.vc vk0).gid).quiesced = false := by decide

/-- A LAUNCH in host memory whose image lies at VA 0x10000; its header is h. -/
def fetchLaunch (h : List Word) : State := { queued { en := true, lgsz := 4, tail := 1, opmask := 2, windows := [0x10001, 0x20000] } room with
  mem := Memory.setWords (Memory.setWords [] (hbmAddr 0x10000) h) (hostAddr 0) [1, 0x10000, 0, 0, 1, 0, 0, 0] }
set_option maxRecDepth 8000 in
theorem meets_LaunchFetch : let z : Packet := { index := 0, words := [1, 0x10000, 0, 0, 1, 0, 0, 0] }
    let zz := fun (h : List Word) => { z with header := h }
    ∀ h ∈ [header, List.replicate 8 0], let s := fetchLaunch h
      let q := s.queue 0
      (s.svc ≠ 0 ∧ q.canFetch = true ∧ q.memva = false ∧ s.hostFail = false ∧
        wordsOfBytes (Memory.bytes s.mem (hostAddr (q.base * 128)) 64) = z.words ∧ s.malformed z = false ∧ q.opmask.getLsbD z.type = true ∧
        z.type = 1 ∧ q.outside [(0, z.image, 64)] = none ∧ z.image = 0x10000) ∧
      (s.readVaWords 0 0 0x10000 8 = some (s, h) ∧ q.outside (((headerOf h).extents 0x10000).map (fun e => (0, e.1, e.2))) = none ∧
        (s.readVaWords 0 0 (0x10000 + (headerOf h).poff) (headerOf h).pcnt).map Prod.snd = some [] ∧
        (s.readExtents 0 [(0x10000 + 64, (headerOf h).tsize), (0x10000 + (headerOf h).doff, (headerOf h).dsize)]).2 = none) ∧
      (s.launchCheck 0 (zz h) = 0 ↔ h = header) := by
  intro z zz h hh
  simp only [List.mem_cons, List.not_mem_nil, or_false] at hh
  rcases hh with rfl | rfl <;> exact ⟨by decide, by decide, by decide⟩
theorem meets_Quiescing_more : let c := issued (gangPacket 9 1 0x100) (quieted room)
    (∀ vk ∈ c.setVcs (gangPacket 9 1 0x100), c.hasExtras vk = false) ∧ (gangPacket 9 1 0x100).gidOf ≠ 0xFFFF ∧ c.ev.val = 0 ∧
    ((room.vc vk0).live = true ∧ (room.vc vk0).gid = 1 ∧ (room.vc vk0).place = some 0) := by decide

/-- The operands of a boot whose image is empty, signed by a key of ours: of the twelve first words the least security version, then
the sizes 2, 1, 1, 1, two CXL ports, and their capacity. -/
def bootData : List Word := [Config.rollbackCounter.setWidth 64, 0, 0x01010102, 0x81, 0x1000, 0, 0, 0, 0, 0, 0, 0x2000,
  0x30b826a1e83a672c, 0x636b44c472eb8e76, 0x1169c27b67e1a084, 0xdb022f8936845cc4,
  0xdf059827378b9568, 0xc74204eac81f0eaf, 0x0b937f2a67d066ac, 0x4c6ca66d0fdc6c23,
  0x84030f8b25b300fd, 0x8b2967bfe6439ac7, 0x33a9519833253db6, 0xf690416adda95eb2,
  0x84030f8b25b300fd, 0x8b2967bfe6439ac7, 0x33a9519833253db6, 0xf690416adda95eb2]
set_option maxRecDepth 100000 in
theorem boot_hash : beNat (sha256 []) = 0xe3b0c44298fc1c149afbf4c8996fb92427ae41e4649b934ca495991b7852b855 := by decide
set_option maxRecDepth 100000 in
theorem boot_verifies : ecdsaVerify (bootKey bootData) (bootHash bootData) (bootSignature bootData) = true := by decide
def bootWith (key : List Byte) : State := { State.reset with keyHash := key, ev := { val := 1, data := bootData } }
theorem boot_key (key : List Byte) : (bootWith key).keyHash = key := rfl
theorem boot_data (key : List Byte) : (bootWith key).ev.data = bootData ∧ (bootWith key).boot = .off ∧ bit (bootWith key).ev.val 0 = true :=
  ⟨rfl, rfl, (by decide : bit (1 : Word) 0 = true)⟩
theorem boot_version : Config.rollbackCounter.toNat ≤ (bootData.getD 0 0).toNat := by
  show _ ≤ BitVec.toNat (Config.rollbackCounter.setWidth 64)
  rw [BitVec.toNat_setWidth]
  omega
theorem meets_Boot : ∃ s : State, s.boot = .off ∧ bit s.ev.val 0 = true ∧ Config.rollbackCounter.toNat ≤ (s.ev.data.getD 0 0).toNat ∧
    sha256 (bootKey s.ev.data) = s.keyHash ∧ ecdsaVerify (bootKey s.ev.data) (bootHash s.ev.data) (bootSignature s.ev.data) = true := by
  refine ⟨bootWith (sha256 (bootKey bootData)), ?_⟩
  rw [boot_key, (boot_data _).1]
  exact ⟨(boot_data _).2.1, (boot_data _).2.2, boot_version, rfl, boot_verifies⟩

theorem meets_Packets_more : let at_ := fun (p : Packet) => fronted p room
    let two : Packet := packetOf [0x2005, 1 + 2 ^ 48] 0
    let v1 := packetOf [0x500000006, 0xFF, 0x30000, 0x10100]
    let off := { fronted (waitPacket 4 0 0) room with dies := [(0, { up := true })] }
    ((waitPacket 4 0 0).readAt ≠ room.now + 1 ∧ ((at_ (waitPacket 4 0 0)).die 0).tested = true ∧ (off.die 0).tested = false ∧
      (waitPacket 4 0 0).moved + 1 = (waitPacket 4 0 0).n) ∧
    (∀ m ∈ [0, 1], (at_ { two with moved := m }).ripe 0 [5] = some { two with moved := m } ∧ two.n = 2) ∧
    ((at_ v1).vqueueFull = false ∧ v1.vkind ≠ 0 ∧ (at_ v1).readVaWords 0 0 (v1.word 2).toNat (vblockWords v1.vkind) = none) := by decide
set_option maxRecDepth 20000 in
theorem meets_FirmwareRequests_more : let w := fun (c : Nat) (w1 w2 w7 : Word) => [BitVec.ofNat 64 c, w1, w2, 0, 0, 0, 0, w7]
    let bad := fun (w l : List Word) => ∃ i < 8, (w.getD i 0) &&& ~~~ ((((0xFFFF00FF : Word) :: l) ++ [0, 0, 0, 0, 0, 0, 0]).getD i 0) ≠ 0
    let lists : List (Nat × List Word) := [(1, [BitVec.allOnes 64, BitVec.allOnes 64, BitVec.allOnes 64, 0x1FF]), (2, [BitVec.allOnes 64, BitVec.allOnes 64]),
      (3, [0xFF, BitVec.allOnes 64]), (4, [0xFF]), (5, [0xFFFFFFFF, 0xFF7]), (6, [BitVec.allOnes 64, BitVec.allOnes 64, BitVec.allOnes 64]),
      (7, [BitVec.allOnes 64, BitVec.allOnes 64]), (8, [0xFFFF])]
    (∀ p ∈ lists, bad (w p.1 0 0 1) p.2 ∧ bad (w (p.1 + 2 ^ 32) 0 0 0) p.2 ∧ ¬ bad (w p.1 0 0 0) p.2) ∧
    (¬ bad (w 2 0x10000 0x10000 0) [BitVec.allOnes 64, BitVec.allOnes 64] ∧ ¬ bad (w 3 255 64 0) [0xFF, BitVec.allOnes 64] ∧
      ¬ bad (w 5 1 4 0) [0xFFFFFFFF, 0xFF7] ∧ ¬ bad (w 8 6000 0 0) [0xFFFF]) := by decide
set_option maxRecDepth 8000 in
theorem meets_BootAndPower_more : let full : List Word := List.replicate 4 (BitVec.allOnes 64)
    let ups := { base with svc := 1, dies := (List.range 8).map (fun d => (d, ({ up := true } : Die))) }
    let tick := { base with now := 1000 * usUnits, ev := { val := 6001, data := [0, 1761, 1760, 1920, 1921] } }
    ((enabledCores 0 full).length = 192 ∧ (enabledCores 7 full).length = 144 ∧ (enabledCores 7 (full.take 1)).length < 140 ∧
      (enabledCores 0 (full.take 1)).length < 184) ∧
    (ups.svc = 1 ∧ (∀ j < 8, (ups.die j).up = true) ∧ (base.die 7).up = false) ∧
    (tick.boot = .running ∧ tick.powerAt + 1000 * usUnits ≤ tick.now ∧ (tick.dies.map Prod.fst).Nodup ∧ (tick.die 0).up = true ∧
      1760 < ((tick.ev.data.getD 1 0).setWidth 16 : BitVec 16).toInt ∧ ((tick.ev.data.getD 1 0).setWidth 16 : BitVec 16).toInt ≤ 1920 ∧
      tick.plim < bits tick.ev.val 15 0) := by decide
set_option maxRecDepth 20000 in
theorem meets_SarobFabric_more : let up := ported {}
    let e := flit 0x3F 3
    let c := sealFlit [BitVec.ofNat 64 (3 + 0x32 * 4), 0, 0, 1, 0, 0, 0, 0]
    let out := { posted farMsg up with ev := { val := 1 } }
    ((up.port 0).link = .up ∧ crcOk e = true ∧ flitLseq e = (up.port 0).expect ∧ opAssigned (flitVn e) (flitOp e) = false) ∧
    (crcOk c = true ∧ flitVn c = 3 ∧ flitOp c = 0x32 ∧ opAssigned 3 0x32 = true ∧ flitLseq c = (up.port 0).expect ∧ (up.port 0).waiting = []) ∧
    (out.noticeWaits farMsg 1 = false ∧ out.unackedFlits (pairKey 1 0) + (out.flitsOf farMsg 0 false).length ≤ 1024) ∧
    flitOp (flit 0 0) ≠ 0x20 := by decide

/-! Witnesses for further clauses, at boundary values. -/

/-- The state with a second slot of the virtual core. -/
def beside (sl : Slot) (s : State := base) : State := s.setSlot (slot0 + 1) sl
theorem meets_Stores_reservations : let s := beside { sl0 with resv := some 0x8FF8 } (x56 0x7FF8 0)
    slot0 + 1 ≠ s.cur ∧ (s.slot (slot0 + 1)).resv = some 0x8FF8 ∧ (0x8FFC < 0x8FF8 + 8 ∧ 0x8FF8 < 0x8FFC + 4) ∧
    ¬ (0x8FF4 < 0x8FF8 + 8 ∧ 0x8FF8 < 0x8FF4 + 4) := by decide
theorem meets_Exceptions_more : let irq := fun (b : BitVec 4) => me (fun sl => { sl with mip := b, mie := b })
    let lone := me (fun sl => { sl with p30 := some 8 })
    let pre := beside { sl0 with st := .parked, park := some (.sem 0) } (irq 1)
    let mret := beside { sl0 with st := .trapped, trap := some .preempt } ((me (fun sl => { sl with mode := .m, mepc := 0x1004 })).updMyVc (fun v =>
      { v with lead := some 0, holds := [⟨.preempt, false, 0⟩], frozen := true, ctxFrozen := true }))
    (lone.me.st = .issuing ∧ lone.me.takes = true ∧ lone.me.p27 = [] ∧ lone.me.p30 = some 8) ∧
    (∀ b ∈ [1, 2, 3], let s := irq (BitVec.ofNat 4 (2 ^ b))
      s.me.st = .issuing ∧ s.me.takes = true ∧ s.me.asyncReady = false ∧ s.me.irq = some b) ∧
    (pre.me.takes = true ∧ pre.me.asyncReady = false ∧ pre.me.irq = some 0 ∧ pre.myVc.holds = [] ∧ (slot0 + 1) / 16 = pre.vk ∧
      (pre.slot (slot0 + 1)).st = .parked) ∧
    (mret.me.mode = .m ∧ mret.me.st = .issuing ∧ mret.myVc.lead = some mret.ix ∧ mret.myVc.holds = [⟨.preempt, false, mret.ix⟩] ∧
      mret.myVc.ctxFrozen = true ∧ (mret.slot (slot0 + 1)).st = .trapped ∧ (mret.slot (slot0 + 1)).trap = some .preempt) := by decide
theorem meets_CsrAccess_more : let v := my (fun v => { v with groups := [255, 0], binds := [(0, 15), (3, 0)] })
    let c := me (fun sl => { sl with mcounteren := 4 })
    let l : State := { mMode with
      vcs := [(vk0, { vc0 with place := some 0x500 })],
      dies := [(5, { up := true, bringup := false, redirs := [(63, ⟨0, vk0, 0x501, 0x502, []⟩)] })],
      cores := [(0x500, { en := true }), (0x501, { en := true }), (0x5FF, {})] }
    ((∀ k ∈ v.myVc.groups, k < 256) ∧ (v.myVc.binds.map Prod.fst).Nodup ∧ ∀ p ∈ v.myVc.binds, p.1 < 4 ∧ p.2 < 16) ∧
    (c.me.mode = .u ∧ c.me.mcounteren.getLsbD 2 = true ∧ c.me.mcounteren.getLsbD 1 = false) ∧
    (∃ p ∈ Claim.csrKeeps, p.1.extractLsb' 8 2 = 0) ∧
    (l.me.mode = .m ∧ l.coreOf l.vk / 256 = 5 ∧ (l.die 5).up = true ∧ (l.die 5).bringup = false ∧
      FMap.get? (l.die (l.coreOf l.vk / 256)).redirs (0x23F - 0x200) = some ⟨0, vk0, 0x501, 0x502, []⟩) ∧
    ((l.core (5 * 256 + 0xFF)).en = false ∧ (l.core (5 * 256 + 0xFF)).mig = false) ∧
    ((l.core 0x501).en = true ∧ (l.core 0x501).reserved = false ∧ l.hosted 0x501 = [] ∧ (l.core 0x501).saving = [] ∧ (l.core 0x501).mig = false) ∧
    ((l.core 0x500).en = true ∧ (l.core 0x500).reserved = false ∧ l.hosted 0x500 = [vk0] ∧ (l.core 0x500).mig = false) := by decide
theorem meets_Threads_more : let wide := x56 0 0x10000
    let beyond := (x56 0 0x8000).updMyVc (fun v => { v with fold := 1 })
    let taken := x56 0 1
    let lead := (me (fun sl => { sl with mode := .m })).updMyVc (fun v => { v with lead := some 0, saveOk := true })
    let join := beside { sl0 with st := .parked, park := some (.join 1) } lead
    let free := fun (s : State) (j : Nat) => ((s.slot (slotKey s.vk j)).st = .empty ∨ (s.slot (slotKey s.vk j)).st = .halted) ∧ ∀ f ∈ s.myVc.forks, f.slot ≠ j
    (wide.x 5 &&& 3 = 0 ∧ (wide.x 6).toNat % 65536 = 0) ∧ 2 ^ slotCount beyond.myVc ≤ 0x8000 ∧
    ((1 : Nat).testBit 0 = true ∧ ¬ free taken 0) ∧ (free base 15 ∧ (0x8000 : Nat).testBit 15 = true) ∧
    ((∀ p ∈ base.slots, p.1 / 16 = base.vk → p.2.st ≠ .empty → p.2.st ≠ .halted → p.2.bundle ≠ 15) ∧ ∀ f ∈ base.myVc.forks, f.image.bundle ≠ 15) ∧
    (lead.me.mode = .m ∧ lead.myVc.lead = some lead.ix ∧ lead.myVc.saveOk = true ∧ base.me.mode = .u) ∧
    ((join.slot (slot0 + 1)).st = .parked ∧ (join.slot (slot0 + 1)).park = some (.join 1) ∧ (1 : Nat).testBit join.ix = true) := by decide
theorem meets_BoundaryChanges_loads : let t := at1 { st := .trapped, trap := some .reservedCode, wakeAt := some 16, hold := some (.load 7 9 true lastWord) } vc0
    t.canRelease (slot0 + 1) = true ∧ (t.slot (slot0 + 1)).offender = false ∧ (t.slot (slot0 + 1)).hold = some (.load 7 9 true lastWord) := by decide

/-- The image of ring 63 at 0x1000 of the core, with x5 = 63 and x6 = 0. -/
def imaged (ws : List Word) (s : State := x56 63 0) : State := { s with mem := Memory.setWords s.mem (lmAddr 0 0x1000) ws }
/-- For each reason of R111 an image that gives it and none below it. -/
theorem meets_RingDescriptors_why : let n := fun (s : State) (k lo len : Nat) => ((Memory.words s.mem 0x1000 4)[k]!).toNat / 2 ^ lo % 2 ^ len
    let why : State → Nat → Bool := fun s k =>
      (k == 1 && 5 < n s 0 0 3) || (k == 2 && 12 < n s 0 4 4) || (k == 3 && (n s 0 8 10 == 0 || 512 < n s 0 8 10)) || (k == 4 && n s 0 20 20 % 8 != 0) ||
      (k == 5 && s.me.seglim.toNat < n s 0 20 20 + 2 ^ n s 0 4 4 * (8 * n s 0 8 10)) ||
      (k == 6 && 2 ^ n s 0 4 4 ≤ n s 1 0 12) || (k == 7 && n s 2 0 2 == 3) ||
      (k == 8 && n s 0 0 3 == 1 && s.myVc.rings.any (fun p => p.1 != 63 && p.2.valid && p.2.kind == 1 && p.2.port == 0)) ||
      (k == 9 && s.myVc.ringBusy 63) || (k == 10 && n s 0 18 2 != 0)
    let other := (x56 63 0).updMyVc (fun v => { v with rings := [(0, { kind := 1, valid := true, port := 0 })] })
    let busy := (ringAt 0 1 0x40 1 (x56 63 0)).updMyVc (fun v => { v with queue := [(0, [{ entryOf (.mload false 0 0) with ra := some 63, na := 1 }])] })
    let st : List (Nat × State) := [(1, imaged [0x11E]), (2, imaged [0x1D8]), (3, imaged [0x18]), (4, imaged [0x400118]), (5, imaged [0x7FF800118]),
      (6, imaged [0x118, 2]), (7, imaged [0x118, 0, 3]), (8, imaged [0x119] other), (9, imaged [0x118] busy), (10, imaged [0x40118])]
    (∀ p ∈ st, (p.2.x 5).toNat = 63 ∧ lmCheck p.2.me (p.2.x 6) 32 false = .ok 0x1000 ∧ p.2.levelInTransit p.2.vk 63 = false ∧
      (ringOfWords (Memory.words p.2.mem 0x1000 4)[0]! 0 0).valid = true ∧ why p.2 p.1 = true ∧ ∀ j < p.1, why p.2 j = false) := by decide
theorem meets_RingDescriptors_more : let busy := (ringAt 0 1 0x40 1 (x56 63 0)).updMyVc (fun v => { v with queue := [(0, [{ entryOf (.mload false 0 0) with ra := some 63, na := 1 }])] })
    let level := { withImage (x56 63 0) with net := [Msg.mk (.vc (vk0 + 1)) (.vc vk0) .request (.level 63 1 2) none false] }
    let park := beside { sl0 with st := .parked, park := some (.ringRoom 63) } (withImage (x56 63 0))
    (busy.myVc.ringBusy 63 = true ∧ (ringOfWords (Memory.words busy.mem 0x1000 4)[0]! 0 0).valid = false) ∧ (x56 63 0x7FFC).x 6 = 0x7FFC ∧
    (((x56 63 0x7FFC).x 6).toNat % 8 ≠ 0) ∧ (lmCheck base.me 0x7FE8 32 false = .error (30, 0x7FE8) ∧ lmCheck base.me 0x7FE8 32 true = .error (30, 0x7FE8)) ∧
    level.levelInTransit level.vk 63 = true ∧ ((park.slot (slot0 + 1)).st = .parked ∧ (park.slot (slot0 + 1)).park = some (.ringRoom 63)) := by decide
theorem meets_Fences_align : let w := fun (n : Nat) (l : List Nat) => Hold.align n l
    let p : State := { pair with slots := [(slot0, sl0), (slot0 + 16, { sl0 with hold := some (w 4094 []) })] }
    let a := me (fun sl => { sl with hold := some (w 4095 [vk0 + 1]) })
    (base.me.hold = none ∧ (0 : BitVec 12).toNat ≤ 0) ∧ (a.me.hold = some (w 4095 [vk0 + 1]) ∧ (4095 : BitVec 12).toNat ≤ 4095) ∧
    ((vk0 + 1, { vc0 with vcid := 1, place := some 1 }) ∈ p.vcs ∧ p.coreOf (vk0 + 1) ≠ p.coreOf p.vk ∧
      trellisIx (p.coreOf (vk0 + 1)) = trellisIx (p.coreOf p.vk) ∧ (p.slot (slotKey (vk0 + 1) p.ix)).st ≠ .empty ∧
      (p.slot (slotKey (vk0 + 1) p.ix)).hold = some (w 4094 []) ∧ (p.slot (slotKey (vk0 + 1) p.ix)).pc = p.me.pc) ∧
    ((pair.slot (slotKey (vk0 + 1) pair.ix)).hold = none ∧ pair.me.pendingAny = false) ∧
    (me (fun sl => { sl with p30 := some 8 })).me.pendingAny = true := by decide
theorem meets_SegmentsAndTables_why : let n := fun (s : State) (k lo len : Nat) => (Memory.word s.mem (lmAddr 0 0x1000 + 8 * k)).toNat / 2 ^ lo % 2 ^ len
    let why : State → Nat → Bool := fun s k =>
      let space := n s 0 0 3
      let far := space == 1 || space == 6
      (k == 1 && (space == 7 || (s.me.mode == .u && 3 ≤ space) || (far && n s 0 60 4 != 0 && n s 0 60 4 != 2))) ||
      (k == 7 && n s 0 4 2 != 0 && space != 0 && space != 1) ||
      (k == 9 && (s.myVc.accepted 2).any (fun q => q.op.toNat % 64 == 63)) || (k == 10 && n s 0 6 6 != 0)
    let busy := (x56 63 0).updMyVc (fun v => { v with queue := [(2, [{ copyEntry with op := 63 }])] })
    let st : List (Nat × State) := [(1, imaged [3]), (7, imaged [0x12]), (9, imaged [0] busy), (10, imaged [0x40])]
    (∀ p ∈ st, (p.2.x 5).toNat = 63 ∧ lmCheck p.2.me (p.2.x 6) 32 false = .ok 0x1000 ∧ why p.2 p.1 = true ∧ ∀ j < p.1, why p.2 j = false) ∧
    (x56 63 0x7FFC).x 6 = 0x7FFC ∧ lmCheck base.me 0x7FE8 32 true = .error (30, 0x7FE8) := by decide

/-- The frame of one MZERO, whose first pass of two has been accepted by the engine and not yet completed. -/
def openFrame (pos : Option (Nat × Nat × Nat)) : State := (framed 1 none).updMyVc (fun v =>
  { v with queue := [(0, [{ entryOf (.mzero 0) with pos := pos }])] })
theorem meets_RepeatFrame_more : let s := openFrame (some (2, 0, 7))
    let full : State := { (framed 1 none).updMyVc (fun v => { v with queue := [(0, List.replicate 8 (entryOf (.mzero 0)))] }) with ev := { key := slot0 } }
    let irq : State := { presented.updSlot slot0 (fun sl => { sl with mip := 2, mie := 2 }) with ev := { key := slot0 } }
    let flt : State := presented.updSlot slot0 (fun sl => { sl with p30 := some 8 })
    let z := (encode (.mload false 0 0)).getD 0
    let ld : State := { (ringAt 0 17 0x40 0 ((framed 1 none).updMyVc (fun v => { v with pcfg0 := { v.pcfg0 with m := 1, n := 1 } }))).updMe (fun sl =>
      { sl with hold := some (.frame [z] 1 0 0 none) }) with ev := { key := slot0 } }
    let gone := ld.updMe (fun sl => { sl with h := sl.h.set 0 0 })
    let at_ := fun (s : State) => ({ s with cur := s.ev.key } : State)
    let turn : State := { (framed 0 none).updMe (fun sl => { sl with mip := 2, mie := 2 }) with agenda := [], cur := slot0, turns := [] }
    (s.me.hold = some (.frame [mzeroWord] 1 0 0 none) ∧
      ((s.myVc.accepted 0 ++ s.myVc.accepted 1).filter (fun q => q.slot = 0)).filterMap QEntry.pos = [(2, 0, 7)] ∧ 1 < 2) ∧
    (full.canPresent slot0 = true ∧ decode (full.slot slot0).insn = .ok (.repf 5 0 0 0) ∧ (full.slot slot0).hold = some (.frame [mzeroWord] 1 0 0 none)) ∧
    ((irq.slot slot0).irqReady = true ∧ (flt.slot slot0).asyncReady = true) ∧ s.frameBusy slot0 = true ∧
    (ld.canPresent slot0 = true ∧ gone.canPresent slot0 = true ∧ decode z = .ok (.mload false 0 0)) ∧
    (turn.me.st = .issuing ∧ turn.atTurn slot0 = true ∧ turn.me.hold = some (.frame [mzeroWord] 0 0 0 none) ∧ turn.me.reply = none ∧
      turn.frameBusy slot0 = false ∧ turn.turnHold = none ∧ turn.me.asyncReady = false ∧ turn.me.takes = true ∧ turn.me.irq = some 1) ∧
    ((∃ r, (at_ ld).acceptW (stagger (.mload false 0 0) 0 0) = .wait r false) ∧ ∃ e v, (at_ gone).acceptW (stagger (.mload false 0 0) 0 0) = .fault e v) ∧
    (at_ full).acceptW (stagger (.mzero 0) 0 0) = .full :=
  ⟨by decide, by decide, by decide, by decide, by decide, by decide, ⟨⟨_, rfl⟩, _, _, rfl⟩, rfl⟩

/-- One element of 8 bytes from the space of w to the space of v, both at this base. -/
def elem (w v : Word) (op : Word := 0) : Running :=
  { entry := { copyEntry with op := op }, record := [0x301, 0x0000000100000001], src := [w, 0, 0, 0], dst := [v, 0, 0, 0], banks := [(vk0, true)] }
set_option maxRecDepth 8000 in
theorem meets_CopyElements : let l := fun (w : Word) => layoutOfWords [w, 0, 0, 0]
    let r := elem 0x2000000 0x2000000
    let page : State := { pair with dies := [(0, { tlb := [{ fn := 0, va := 1, lg := 16, leaf := 0x1000F, at_ := .micro 0 }] })] }
    (recEb r.record = 8 ∧ (l 0x2000000).space = 0 ∧ (l 0x2000000).base = 0x2000 ∧ r.entry.mMode = false ∧ r.entry.base ≤ 0x2000 ∧
      0x2000 + 8 ≤ r.entry.base + r.entry.lim ∧ r.entry.base + r.entry.lim < 0x7FF9 + 8) ∧
    (∀ w ∈ [(0x2000001 : Nat), 0x2000002, 0x10000003, 0x10000004, 0x10000005, 0x2000006], (l (BitVec.ofNat 64 w)).space = w % 16) ∧
    (r.banks.find? (fun p => p.1 == vk0) = some (vk0, true) ∧ 0x2000 % 2 ^ 20 + 8 ≤ pair.share vk0 ∧ pair.share vk0 < 0x7FF9 % 2 ^ 20 + 8) ∧
    ((page.translateBytes 0 0 0x10000 .read 8 (.micro 0)).isSome = true ∧ (pair.translateBytes 0 0 0x10000 .write 8 (.micro 0)) = none) ∧
    (pair.ownNode 0 = true ∧ pair.ownNode 1 = false ∧ 0x7FF8 + 8 ≤ 0x8000 ∧ 0x8000 < 0x7FF9 + 8) ∧
    ({ r with asked := [7] }.asked ≠ [] ∧ r.asked = [] ∧ r.refused = false ∧ r.sent = false ∧ r.got = none) ∧
    (bit (elem 0 0 0x20000).entry.op 17 = true ∧ bit (elem 0 0).entry.op 17 = false) := by decide
theorem meets_CopyHomes : let tg : Tag := ⟨7, 3, 0⟩
    let p := fun (sp o : Nat) => BitVec.ofNat 64 (sp * 2 ^ 60 + o)
    let bs : List Byte := List.replicate 8 1
    let w := fun (sp o : Nat) => Body.copyWrite tg (p sp o) bs 2 (true, false)
    let r := fun (sp o : Nat) => Body.copyRead tg (p sp o) 8 3
    let sg := fun (b : Body) => posted (Msg.mk (.vc vk0) (.sig 0) .request b none false) pair
    (∀ b ∈ [w 0 0x7FF8, w 0 0x7FF9, w 2 0x7FF8, w 2 0x7FF9, r 0 0x7FF8, r 0 0x7FF9, r 2 0x7FF8, r 2 0x7FF9],
      (inbox b).evMsg = some (toMe b) ∧ ((inbox b).vc vk0).live = true ∧ ((inbox b).vc vk0).place.isSome = true ∧
      (inbox b).quietFor vk0 (.vc (vk0 + 1)) = false ∧ ((inbox b).vc vk0).refusal? (.vc (vk0 + 1)) .request = none ∧
      ((inbox b).vc vk0).holdsFor (.vc (vk0 + 1)) = false ∧ (inbox b).homeFree (toMe b) = true) ∧
    ((p 0 0x7FF8).toNat / 2 ^ 60 ≠ 2 ∧ (p 2 0x7FF8).toNat / 2 ^ 60 = 2 ∧ (p 2 0x7FF8).toNat % 2 ^ 24 = 0x7FF8) ∧
    (0x7FF8 + 8 ≤ pair.launchLenOf vk0 ∧ pair.launchLenOf vk0 < 0x7FF9 + 8 ∧ 0x7FF8 + 8 ≤ pair.share vk0 ∧ pair.share vk0 < 0x7FF9 + 8) ∧
    (∀ b ∈ [w 1 0x7FF8, r 1 0x7FF8], (sg b).evMsg = some (Msg.mk (.vc vk0) (.sig 0) .request b none false) ∧ ((sg b).die 0).failed = false) := by
  decide

/-- Token entry 63 with dependants, in this state; 32 stores kept for it when full. -/
def tokened (t : TokState) (deps : List Dest) (n : Nat) (s : State) : State := s.updMyVc (fun v => { v with
  tokens := [(63, { valid := true, gen := 1, slot := 0, st := t, deps := deps })],
  kept := List.replicate n { msg := Msg.mk (.vc vk0) (.sig 0) .request heldBody none false, why := .token 63 } })
theorem meets_TokenInstructions_more : let x : TokState → List Dest → Token := fun t d => { valid := true, gen := 1, slot := 0, st := t, deps := d }
    let eight := (List.range 8).map (fun i => Dest.vc (vk0 + 2 + i))
    let s := fun (t : TokState) (d : List Dest) (n : Nat) => tokened t d n (ptr lastWord 0 0xFC1)
    let dst : Dest := .vc (vk0 + 1)
    let sig := tokened .pending [] 31 (ptr 0x1000000000007FF8 0 0xFC1)
    let none_ := (ptr lastWord 0 0xFC1).updMyVc (fun v => { v with tokens := (List.range 64).map (fun e =>
      (e, { valid := true, gen := 1, slot := 0, st := .pending })) })
    let stale := (ptr lastWord 0 0xFC0).updMyVc (fun v => { v with tokens := [(63, x .landed [])] })
    ((s .pending [] 0).target vk0 lastWord = dst ∧ dst.isSig = false) ∧
    (∀ d ∈ [[], [dst], eight.take 7], (s .pending d 0).myVc.recognise 0xFC1 = .live 63 (x .pending d) ∧ (dst ∈ d ∨ d.length < 8) ∧
      (s .pending d 0).myVc.tokenEntry = some 0 ∧ (63 : Nat) ≠ 0) ∧
    (∀ n ∈ [31, 32], (s .pending eight n).myVc.recognise 0xFC1 = .live 63 (x .pending eight) ∧ dst ∉ eight ∧ 8 ≤ eight.length ∧
      ((s .pending eight n).myVc.kept.filter (fun k => match k.why with
        | .token _ => true
        | _ => false)).length = n ∧ (s .pending eight n).myVc.countedFull = false ∧ (s .pending eight n).myVc.tokenEntry = some 0) ∧
    ((sig.target vk0 0x1000000000007FF8).isSig = true ∧ Claim.Good (sig.x 5)) ∧
    (((s .pending eight 32).updCore 0 (fun c => { c with sqfen := true })).core 0).sqfen = true ∧
    (none_.myVc.tokenEntry = none ∧ none_.myVc.recognise 0xFC1 = .live 63 (x .pending []) ∧ none_.myVc.kept = []) ∧
    ((s .landed [] 0).myVc.recognise 0xFC1 = .live 63 (x .landed []) ∧ (s .expired [] 0).myVc.recognise 0xFC1 = .live 63 (x .expired []) ∧
      (s .expired [] 0).me.st = .issuing ∧ (s .expired [] 0).me.hold = none ∧ (s .expired [] 0).myVc.tokenEntry = some 0) ∧
    (stale.myVc.recognise 0xFC0 = .stale ∧ stale.myVc.tokenEntry = some 0) := by
  unfold Claim.Good; decide

theorem meets_Performed_more : let mb := Body.mailbox 15 63 (List.replicate 8 1)
    let en := Body.enqueue ⟨7, 0, 0⟩ 62 (List.replicate 8 1)
    let w : FarWait := ⟨.vc (vk0 + 1), 3, 7, 0x7FF8, 0x8FF8⟩
    let s : State := { vc0Is (fun v => { v with farWait := [w] }) pair with full := [0x8FF8], ev := { key := vk0 } }
    let sp := (portRing 1 1 1 pair).updCore 0 (fun c => { c with spill := [toMe (.port .reply 9 5)] })
    (∀ b ∈ [mb, en, .port .reply 9 5, .port .request 9 5, .port .control 9 5, .level 63 1 2], (inbox b).homeFree (toMe b) = true) ∧
    s.banksFree vk0 (lmBanks w.addr 8) = true ∧ (sp.spillReady 0 = some (toMe (.port .reply 9 5)) ∧ sp.homeFree (toMe (.port .reply 9 5)) = true) := by
  decide
theorem meets_VintnerOperations_more : let held := vstate (vop 2 [] .holding [(vk0, .waiting)]) (vc0Is (fun v => { v with frozen := true, holds := [⟨.vintner, true, 0⟩] })
      (slotIs (fun sl => { sl with st := .trapped, trap := some .vintner }) pair))
    let away := held.updVc vk0 (fun v => { v with move := some { step := 1, src := 0, dst := 1, status := 1 } })
    let r := { vop 2 graft .racking [(vk0 + 1, .held)] with left := [(vk0 + 1, 8, 0)] }
    (∀ s ∈ [held, away], (s.vc vk0).place.isSome = true ∧ s.heldFor vk0 .vintner = true ∧ (s.vc vk0).ending = false ∧
      (s.vc vk0).move.all (fun x => x.step ≤ 1) = true ∧ (s.gang (s.vc vk0).gid).quiesced = false) ∧
    (selected r).banksFree (vk0 + 1) (lmBanks (lmAddr 1 (0x1000 + 0)) 8) = true := by decide
theorem meets_Migration_more : (((moving 2 1 room).vc vk0).live = true ∧ ((moving 2 1 room).core 0).spill.length ≤ 64) ∧
    FMap.get? (moving 2 1 room).slots slot0 ≠ none := by decide
theorem meets_Packets_failed : let sig := packetOf [3, 0x1000000000007FF8, 5]
    let s := { fronted sig room with dies := [(0, { up := true, tested := true, failed := true })] }
    s.ripe 0 [3] = some sig ∧ s.ownNode (ptrNode (sig.word 1)) = true ∧ (s.die (bits (sig.word 1) 26 24)).tested = true ∧
    (s.die (bits (sig.word 1) 26 24)).failed = true := by decide

theorem image_long (s : State) (p : Packet) : 0 < (s.image p).1.length := by
  simp [State.image, State.imageHeader, bytesOfWords, bytesOf]
set_option maxRecDepth 8000 in
/-- The header alone fits the page at 0x10000; nothing is mapped at 8; an image of more bytes than the buffer. -/
theorem meets_Quiescing_image : let z := fun (buf : Word) => issued (gangPacket 7 2 buf) (quieted room)
    let c := issued (gangPacket 9 1 0x100) (quieted room)
    (∀ b ∈ [(8 : Nat), 0x10000], (z (BitVec.ofNat 64 b)).quiesceAt 0 0 2 = some (gangPacket 7 2 (BitVec.ofNat 64 b)) ∧
      (gangPacket 7 2 (BitVec.ofNat 64 b)).word 3 = 0) ∧
    ((z 0x10000).translateBytes 0 0 0x10000 .write 64).isSome = true ∧ (∀ n, (z 8).translateBytes 0 0 8 .write (n + 1) = none) ∧
    (∀ vk ∈ c.setVcs (gangPacket 9 1 0x100), c.hasExtras vk = false ∧ ((c.cutSet (gangPacket 9 1 0x100)).spillFlits vk).length ≤ 64) :=
  ⟨by decide, by decide, fun n => rfl, by decide⟩

/-- MAP of n bytes at va for function 0, over the tables of tablesMem, with options o and a pool of die 0. -/
def mapAsk (va n w3 o : Word) (pool : List (Nat × Nat × Nat × Nat) := []) (m : Memory := tablesMem) : State :=
  asked 0 [1, va, n, w3, o, 0, 0, 0] { room with mem := m, dies := [(0, { up := true, pool := pool })] }
set_option maxRecDepth 20000 in
theorem meets_MapDone : let s := mapAsk 0x20000 0x10000 0 0x18
    let f := mapAsk 0x20000 0x10000 0 0x58
    let h := mapAsk 0x20000 0x10000 0x30000 0x1A
    let p := mapAsk 0x20000 0x10000 0 0x18 [(0, 16, 0x50000, 1)]
    let m := mapAsk 0x10000 0x10000 0 0x18
    let t := (mapAsk 0x20000 0x10000 0 0x58 [] []).updFunc 0 (fun x => { x with tables := 16384 })
    let e := fun (a : Nat) => Memory.word s.mem (hbmAddr a)
    (∀ z ∈ [s, f, h, p, m, t], ∃ w, z.fwRequest 0 = some w ∧ bits (w.getD 0 0) 7 0 = 1 ∧ (w.getD 4 0) &&& ~~~ 0x1FF = 0) ∧
    (0x20001 % 2 ^ 16 ≠ 0 ∧ bits (0x58 : Word) 2 0 = 0 ∧ bit (0x58 : Word) 6 = true ∧ bit (0x18 : Word) 6 = false ∧ bits (0x1A : Word) 2 0 = 2) ∧
    (s.walk 0 0x20000 = none ∧ f.walk 0 0x20000 = none ∧ h.walk 0 0x20000 = none ∧ p.walk 0 0x20000 = none ∧ t.walk 0 0x20000 = none ∧
      (m.walk 0 0x10000).isSome = true) ∧ (∀ x ∈ (s.die 0).pool, x.2.1 = 16 → x.2.2.2 = 0) ∧
    ((t.func 0).root = some 0 ∧ pteOk (Memory.word t.mem (hbmAddr 0)) = false ∧ 16384 ≤ (t.func 0).tables) ∧
    (∀ a ∈ [0, 0x10000, 0x20000], pteOk (e a) = true ∧ pteLeaf (e a) = false) ∧ (ptePa (e 0) = 0x10000 ∧ ptePa (e 0x10000) = 0x20000 ∧ ptePa (e 0x20000) = 0x30000) ∧
    pteOk (e (0x30000 + 8 * 2)) = false ∧ takePage (p.die 0).pool 16 = some (0x50000, [(0, 16, 0x60000, 0)]) ∧
    (∀ a ∈ [0, 0x10000, 0x20000, 0x30010], hbmAddr a + 8 ≤ hbmAddr 0x50000 ∧ hbmAddr 0x50000 + 65536 ≤ hostAddr 0) := by
  refine ⟨?_, by decide, by decide, by decide, by decide, by decide, by decide, by decide, by decide, by decide⟩
  intro z hz
  simp only [List.mem_cons, List.not_mem_nil, or_false] at hz
  rcases hz with rfl | rfl | rfl | rfl | rfl | rfl <;> exact ⟨_, rfl, by decide, by decide⟩

/-- A request of function 4 where the page at 0x10000 is mapped for it. -/
def attestAsk (c : Nat) : State := asked 4 [BitVec.ofNat 64 c, 0x10000, 0x10100, 0, 0, 0, 0, 0] { room with
  dies := [(4, { up := true, tlb := [{ fn := 4, va := 1, lg := 16, leaf := 0x1001F }] })] }
set_option maxRecDepth 20000 in
theorem meets_Attest : let s := attestAsk 7
    s.fwRequest 4 = some [7, 0x10000, 0x10100, 0, 0, 0, 0, 0] ∧
    ∃ nonce as, s.readVa 4 4 0x10000 32 = some (s, nonce) ∧ s.translateBytes 4 4 0x10100 .write 256 = some (s, as) :=
  ⟨by decide, _, _, rfl, rfl⟩

/-- Eight words of an image header, a gang record, and a hash. -/
def imageBody (w0 : Word) (gang : List Word) : List Byte := bytesOfWords ([w0, 0, 1, 0x1000, 0x1000, 0x1000, 0x1000, 128] ++ gang)
def imageOf (w0 : Word) (gang : List Word) (hash : List Byte) : List Byte := imageBody w0 gang ++ hash ++ List.replicate 96 0
/-- Job 7; seventeen slots, which no fold allows. -/
def jobRecord : List Word := [0x70000, 0, 0, 0, 0, 0, 0, 0]
def wideRecord : List Word := [BitVec.ofNat 64 (17 * 2 ^ 38), 0, 0, 0, 0, 0, 0, 0]
def good0 : Word := 0x14C4C4543
set_option maxRecDepth 100000 in
theorem meets_Restore_place : let im := imageOf good0 wideRecord (sha256 (imageBody good0 wideRecord))
    room.imageOk im none = true ∧ 0 < imGangs im ∧ room.findPlace (gangOf (imGang im 0)) = none := ⟨by decide, by decide, by decide⟩
set_option maxRecDepth 100000 in
theorem meets_Restore : let s := attestAsk 6
    let im := fun (w0 : Word) (off : Nat) (ws : List Word) => bytesOfWords ([w0, 0, 1] ++ List.replicate 5 (BitVec.ofNat 64 off) ++ ws)
    let busy : State := { room with gangs := [(1, { job := 7 })], groups := [(0, { valid := true })] }
    let ext := im good0 64 (1 :: List.replicate 16 0 ++ [0x180, 0x10000, 0x10000])
    (∃ b, s.readVa 4 4 0x10000 64 = some (s, b)) ∧ s.readVa 4 4 0x30000 (0x10100 : Word).toNat = none ∧
    (bits (imWord (im 0 0 []) 0) 31 0 ≠ 0x4C4C4543 ∧ bits (imWord (im 0x4C4C4543 0 []) 0) 47 32 ≠ 1 ∧
      bits (imWord (im (good0 + 2 ^ 56) 0 []) 0) 63 56 ≠ 0 ∧ bits (imWord (im (good0 + 2 ^ 56) 0 []) 0) 63 56 ≠ 2) ∧
    (0 < (imWord ext (sectionOff ext 3)).toNat ∧ (granules 0x10000 0x10000 = [0x10000]) ∧ room.walk 0 0x10000 = none) ∧
    (bits ((imGang (imageOf good0 jobRecord []) 0).getD 0 0) 31 16 = 7 ∧ 0 < imGangs (imageOf good0 jobRecord []) ∧
      busy.gangs.any (fun q => q.2.job == 7) = true) ∧
    (bit ((imWords (im good0 64 [1]) (sectionOff (im good0 64 [1]) 0) 2).headD 0) 0 = true ∧ (busy.group 0).valid = true) ∧
    (bit (imWord (im (good0 + 2 ^ 48) 0 []) 0) 48 = true ∧ room.gangs ≠ []) :=
  ⟨⟨_, rfl⟩, by decide, by decide, by decide, by decide, by decide, by decide⟩
end Sys2Proof.Tests
end

section
/-! PROOFS. Completion, traps and local memory as the statements say them. -/

namespace Sys2Proof.Machine

open Sys2Proof.Claim

/-! Registers seen through a completion. -/

@[simp] theorem Slot.readX_retireAt (sl : Slot) (p : Word) (r : BitVec 5) : (sl.retireAt p).readX r = sl.readX r := rfl
@[simp] theorem Slot.readF_retireAt (sl : Slot) (p : Word) (r : BitVec 5) : (sl.retireAt p).readF r = sl.readF r := rfl
@[simp] theorem Slot.readF_writeX (sl : Slot) (r q : BitVec 5) (v : Word) : (sl.writeX r v).readF q = sl.readF q := by
  unfold Slot.writeX; split <;> rfl

theorem State.x_result (s : State) (rd r : BitVec 5) (v : Word) :
    (s.result rd v).x r = if r = rd ∧ rd ≠ 0 then v else s.x r := by
  simp only [State.x, State.me_result, Slot.readX_retireAt, Slot.readX_writeX]

theorem State.f_result (s : State) (rd r : BitVec 5) (v : Word) : (s.result rd v).f r = s.f r := by
  simp only [State.f, State.me_result, Slot.readF_retireAt, Slot.readF_writeX]

/-- A completion changes of a slot x, pc, minstret, hold and arrived alone. -/
theorem Slot.retireAt_writeX_rest (sl : Slot) (rd : BitVec 5) (v p : Word) :
    { (sl.writeX rd v).retireAt p with x := sl.x, pc := sl.pc, minstret := sl.minstret, hold := sl.hold, arrived := sl.arrived } = sl := by
  unfold Slot.writeX; split <;> rfl

theorem State.did_result (s : State) (rd : BitVec 5) (v : Word) : Did s (s.result rd v) rd v (s.me.pc + 4) where
  x r := s.x_result rd r v
  pc := by rw [State.me_result, Slot.writeX_pc]; rfl
  count := by rw [State.me_result, Slot.retireAt, Slot.writeX_minstret]
  hold := by rw [State.me_result]; rfl
  arrived := by rw [State.me_result]; rfl
  slot := by rw [State.me_result]; exact Slot.retireAt_writeX_rest ..
  others _ h := State.slot_result_ne s rd v h
  rest := rfl

theorem State.did_retireTo (s : State) (p : Word) : Did s (s.retireTo p) 0 0 p where
  x r := by simp [State.x, State.me_retireTo]
  pc := by rw [State.me_retireTo]; rfl
  count := by rw [State.me_retireTo]; rfl
  hold := by rw [State.me_retireTo]; rfl
  arrived := by rw [State.me_retireTo]; rfl
  slot := by rw [State.me_retireTo]; rfl
  others _ h := State.slot_retireTo_ne s p h
  rest := rfl

theorem State.did_retire (s : State) : Did s s.retire 0 0 (s.me.pc + 4) := s.did_retireTo (s.me.pc + 4)

/-! Traps. -/

/-- Entering the handler changes of a slot what R245 names, and ends what was in progress. -/
theorem Slot.enter_rest (sl : Slot) (epc cause tval : Word) :
    { sl.enter epc cause tval with
      mepc := sl.mepc, mcause := sl.mcause, mtval := sl.mtval, mstMPIE := sl.mstMPIE, mstMIE := sl.mstMIE, mstMPP := sl.mstMPP,
      mode := sl.mode, pc := sl.pc, resv := sl.resv, hold := sl.hold, arrived := sl.arrived, outer := sl.outer, reply := sl.reply,
      fetchFault := sl.fetchFault } = sl := rfl

theorem State.trapped_trap (s : State) (c : Nat) (tv : Word) : Trapped s (s.trap c tv) (BitVec.ofNat 64 c) tv s.me.pc where
  mepc := by rw [State.me_trap]; rfl
  mcause := by rw [State.me_trap]; rfl
  mtval := by rw [State.me_trap]; rfl
  mpie := by rw [State.me_trap]; rfl
  mie := by rw [State.me_trap]; rfl
  mpp := by rw [State.me_trap]; rfl
  mode := by rw [State.me_trap]; rfl
  pc := by rw [State.me_trap]; rfl
  resv := by rw [State.me_trap]; rfl
  hold := by rw [State.me_trap]; rfl
  arrived := by rw [State.me_trap]; rfl
  outer := by rw [State.me_trap]; simp [Slot.enter]
  slot := by rw [State.me_trap]; exact Slot.enter_rest _ _ _ _
  others _ h := State.slot_trap_ne s c tv h
  rest := rfl

/-! The check of R31. -/

/-- An access at an address that the check gives goes on there. -/
theorem State.lm_of_at {s : State} {ea : Word} {n : Nat} {store : Bool} {a : Nat} (h : At s ea n store a) (k : Nat → State) :
    s.lm ea n store k = k a := by
  obtain ⟨pa, hpa, rfl⟩ := h
  simp [State.lm, hpa]

/-- An access that the check refuses takes the trap it names. -/
theorem State.lm_of_error {s : State} {ea : Word} {n : Nat} {store : Bool} {c : Nat} {tv : Word}
    (h : lmCheck s.me ea n store = .error (c, tv)) (k : Nat → State) : s.lm ea n store k = s.trap c tv := by
  simp [State.lm, h]

/-! The number that bytes of memory make. -/

theorem number_eq_readN (s : State) (a n : Nat) : number s a n = Memory.readN s.mem a n := by
  unfold number
  induction n generalizing a with
  | zero => rfl
  | succ n ih =>
    rw [List.range_succ_eq_map, Memory.readN, ← ih (a + 1), List.map_cons, List.map_map, List.sum_cons, ← List.sum_map_mul_left]
    have byte (i : Nat) : (Memory.read s.mem (a + (i + 1))).toNat * 256 ^ (i + 1) =
        256 * ((Memory.read s.mem (a + 1 + i)).toNat * 256 ^ i) := by
      rw [pow_succ, Nat.add_right_comm a 1 i, Nat.add_assoc]; ring
    simp [Function.comp_def, byte]

theorem Memory.readN_lt (m : Memory) (a n : Nat) : Memory.readN m a n < 256 ^ n := by
  induction n generalizing a with
  | zero => simp [Memory.readN]
  | succ n ih =>
    have hb := (Memory.read m a).isLt
    have hr := ih (a + 1)
    rw [Memory.readN, pow_succ]
    omega

/-! Local stores. -/

/-- The state u is s after a slot's write of the low n bytes of v at a; of the writing slot no more than resv and mip differs. -/
structure Written (s u : State) (a n v : Nat) : Prop where
  mem : Stored s u a n v
  me : { u.me with resv := s.me.resv, mip := s.me.mip } = s.me
  others : ∀ k, k ≠ s.cur → { u.slot k with resv := (s.slot k).resv, mip := (s.slot k).mip } = s.slot k
  drops : ∀ k w, k ≠ s.cur → (s.slot k).resv = some w → (u.slot k).resv = if a < w + 8 ∧ w < a + n then none else some w
  cores : CodeMarked s u
  rest : { u with slots := s.slots, mem := s.mem, cores := s.cores } = s

/-- What is stored depends on the low n bytes alone. -/
theorem stored_congr {s t : State} {a n v w : Nat} (h : Stored s t a n v) (e : v % 256 ^ n = w % 256 ^ n) : Stored s t a n w := by
  intro j
  rw [h j]
  refine if_ctx_congr Iff.rfl (fun hj => ?_) (fun _ => rfl)
  have byte (x : Nat) : x / 256 ^ (j - a) % 256 = x % 256 ^ n % 256 ^ (j - a + 1) / 256 ^ (j - a) := by
    rw [Nat.mod_mod_of_dvd _ (pow_dvd_pow 256 (by omega)), pow_succ, Nat.mod_mul_right_div_self]
  apply BitVec.eq_of_toNat_eq
  simp only [BitVec.toNat_ofNat]
  rw [byte v, e, ← byte w]

/-- The write of the resident code marks its core and leaves the others. -/
theorem State.codeMarked_codeWritten {s u : State} (hu : u.cores = s.cores) (a n : Nat) : CodeMarked s (u.codeWritten a n) := by
  intro g
  have hs : s.core g = u.core g := by rw [State.core, State.core, hu]
  rw [hs]
  rcases u.codeWritten_cases a n with h | h <;> rw [h]
  unfold State.core FMap.upd
  cases hg : FMap.get? u.cores (a / 0x100000) with
  | none => rfl
  | some v =>
    simp only [FMap.getD_set]
    split
    · next e => simp [e, FMap.getD, hg]
    · rfl

/-- A reservation on a word of the write ends, except the slot's own. -/
theorem State.resv_dropResv {s : State} {a n : Nat} {own : Option Nat} {k w : Nat} (hk : own ≠ some k) (hw : (s.slot k).resv = some w) :
    ((s.dropResv a n own).slot k).resv = if a < w + 8 ∧ w < a + n then none else some w := by
  rw [State.dropResv, State.slot_mapSlots _ _ _ rfl]
  simp only [hw]
  by_cases h : a < w + 8 ∧ w < a + n <;> simp [h, hk, hw]

theorem State.latchWritten_cores (s : State) (a n : Nat) : (s.latchWritten a n).cores = s.cores := by
  rcases s.latchWritten_cases a n with h | h <;> rw [h]; rfl

theorem Slot.resv_eq_of_mip {b c : Slot} (h : { b with mip := c.mip } = c) : b.resv = c.resv := by rw [← h]

/-- Of the slots' reservations a write changes those that dropResv names. -/
theorem State.resv_storeLm (s : State) (a v n k : Nat) :
    ((s.storeLm a v n).slot k).resv = ((s.dropResv a n (some s.cur)).slot k).resv := by
  unfold State.storeLm State.wrote
  rw [State.slot, State.codeWritten_slots]
  exact Slot.resv_eq_of_mip (State.slot_latchWritten _ a n k)

theorem State.cur_eq_of_rest {s u : State} (h : { u with slots := s.slots, mem := s.mem, cores := s.cores } = s) : u.cur = s.cur := by
  rw [← h]

theorem State.cur_storeLm (s : State) (a v n : Nat) : (s.storeLm a v n).cur = s.cur :=
  State.cur_eq_of_rest (s.storeLm_rest a v n)

theorem State.resv_me_storeLm (s : State) (a v n : Nat) : (s.storeLm a v n).me.resv = s.me.resv := by
  rw [State.me, State.cur_storeLm, State.resv_storeLm]
  exact congrArg Slot.resv (s.me_dropResv a n)

theorem State.written_storeLm (s : State) (a v n : Nat) : Written s (s.storeLm a v n) a n v where
  mem j := by rw [State.storeLm_mem, Memory.read_writeN]
  me := by rw [State.me, State.cur_storeLm]; exact s.slot_storeLm a v n s.cur
  others k _ := s.slot_storeLm a v n k
  drops k w hk hw := by
    rw [State.resv_storeLm]
    exact State.resv_dropResv (fun e => hk (Option.some.inj e).symm) hw
  cores := by
    unfold State.storeLm State.wrote
    exact State.codeMarked_codeWritten (by rw [State.latchWritten_cores]; rfl) a n
  rest := s.storeLm_rest a v n

/-- The reservation of the writing slot is left to the instruction. -/
theorem Written.setResv {s u : State} {a n v : Nat} (h : Written s u a n v) (r : Option Nat) :
    Written s (u.updMe (fun sl => { sl with resv := r })) a n v := by
  have hc : u.cur = s.cur := State.cur_eq_of_rest h.rest
  have ne (k : Nat) (hk : k ≠ s.cur) : (u.updMe (fun sl => { sl with resv := r })).slot k = u.slot k :=
    State.slot_updMe_ne _ _ (hc ▸ hk)
  exact {
    mem := h.mem
    me := by rw [State.me_updMe]; exact h.me
    others := fun k hk => by rw [ne k hk]; exact h.others k hk
    drops := fun k w hk hw => by rw [ne k hk]; exact h.drops k w hk hw
    cores := h.cores
    rest := h.rest }

/-- Of a slot that differs in resv and mip, a completion leaves the rest. -/
theorem Slot.retireAt_rest_of_resv_mip {b c : Slot} (h : { b with resv := c.resv, mip := c.mip } = c) (rd : BitVec 5) (v p : Word) :
    { (b.writeX rd v).retireAt p with
      x := c.x, pc := c.pc, minstret := c.minstret, hold := c.hold, arrived := c.arrived, resv := c.resv, mip := c.mip } = c := by
  have hb : b = { c with resv := b.resv, mip := b.mip } := by rw [← h]
  rw [hb]
  unfold Slot.writeX
  split <;> rfl

/-- A store that completes with a result. -/
theorem Written.done {s u : State} {a n v : Nat} (h : Written s u a n v) (rd : BitVec 5) (w : Word) :
    StoreDone s (u.result rd w) a n v rd w := by
  have hc : u.cur = s.cur := State.cur_eq_of_rest h.rest
  have ne (k : Nat) (hk : k ≠ s.cur) : (u.result rd w).slot k = u.slot k := State.slot_result_ne _ _ _ (hc ▸ hk)
  have hx (r : BitVec 5) : u.x r = s.x r := by unfold State.x; rw [← h.me]; rfl
  have hf (r : BitVec 5) : u.f r = s.f r := by unfold State.f; rw [← h.me]; rfl
  have hpc : u.me.pc = s.me.pc := by rw [← h.me]
  exact {
    mem := h.mem
    x := fun r => by rw [State.x_result, hx]
    f := fun r => by rw [State.f_result, hf]
    pc := by rw [(u.did_result rd w).pc, hpc]
    hold := (u.did_result rd w).hold
    arrived := (u.did_result rd w).arrived
    slot := by rw [State.me_result]; exact Slot.retireAt_rest_of_resv_mip h.me ..
    others := fun k hk => by rw [ne k hk]; exact h.others k hk
    drops := fun k x hk hx => by rw [ne k hk]; exact h.drops k x hk hx
    cores := h.cores
    rest := h.rest }

theorem State.resv_result (s : State) (rd : BitVec 5) (v : Word) : (s.result rd v).me.resv = s.me.resv := by
  rw [State.me_result]; unfold Slot.writeX; split <;> rfl

end Sys2Proof.Machine
end

section
/-! PROOFS. Tier 1 of the machine state: the step at a turn, the completion frame, the check of R31. -/

namespace Sys2Proof.Machine

open Sys2Proof.Claim

/-- Between instructions, with nothing pending and outside the resident handler, the turn of a slot is a fetch at its pc. -/
theorem State.slotTurn_eq_fetchTurn {s : State} (hhold : s.me.hold = none) (hreply : s.me.reply = none) (hth : s.turnHold = none)
    (hasync : s.me.asyncReady = false) (hirq : s.me.irqReady = false) (hhandler : s.inHandler = false) :
    s.slotTurn = s.fetchTurn := by
  simp [State.slotTurn, hhold, hreply, hth, hasync, hirq, hhandler]

/-- A fetched word that decodes is run after the slot has moved on in its code lines. -/
theorem State.fetchTurn_of_word {s : State} {w : InsnWord} {i : Instr} (hf : s.fetchAt s.cur s.me.pc = .word w) (hd : decode w = .ok i) :
    s.fetchTurn = exec i (s.startWord w) := by
  simp [State.fetchTurn, hf, State.presentWord, hd]

/-- Settles O4: the step unfolds to the turn of the first slot, and that turn to the fetch of its word. -/
theorem stepRunsDecoded : Obligations.StepRunsDecoded := by
  intro s key rest w i hboot hagenda hturns t hst hat hhold hreply hth hasync hirq hhandler hfetch hdecode
  have hstep : step s = State.turn { s with agenda := [] } key rest := by
    simp [step, hboot, State.advance, hagenda, State.barrel, hturns]
  have hturn : t.slotTurn = exec i (t.startWord w) :=
    (State.slotTurn_eq_fetchTurn hhold hreply hth hasync hirq hhandler).trans (State.fetchTurn_of_word hfetch hdecode)
  have hrun : (t.me.st == .issuing && t.atTurn key) = true := by rw [hst, hat]; rfl
  calc step s = State.turn { s with agenda := [] } key rest := hstep
    _ = andThen t.slotTurn (fun u => u.afterTurn key t.me.pc) := if_pos hrun
    _ = andThen (exec i (t.startWord w)) (fun u => u.afterTurn key t.me.pc) := by rw [hturn]

/-- Every meaning answers a next state. -/
theorem exec_next (i : Instr) (s : State) : ∃ t, exec i s = .next t := by
  cases i <;> exact ⟨_, rfl⟩

/-- Settles O7: a completion is a write of x[rd] and the retirement of the slot, and every arm of the dispatch answers a next state. -/
theorem completionFrame : Obligations.CompletionFrame :=
  ⟨State.did_result, State.did_retire, State.did_retireTo, exec_next⟩

/-- Settles O11: the mode names the check, and the bound its answer. -/
theorem segmentCheck : Obligations.SegmentCheck := by
  intro sl ea n store
  refine ⟨fun hm h => ?_, fun hm h => ?_, fun hm h => ?_, fun hm h => ?_⟩ <;> simp only [lmCheck, hm]
  · exact if_neg (Nat.not_lt.mpr h)
  · exact if_pos h
  · exact if_neg (Nat.not_lt.mpr h)
  · exact if_pos h

end Sys2Proof.Machine
end

section
/-! PROOFS. Loads, stores, LR, SC and the AMOs on local memory. -/

namespace Sys2Proof.Machine

open Sys2Proof.Claim

/-! Loads. -/

theorem State.load_of_at {s : State} {rs1 : XReg} {imm : BitVec 12} {n a : Nat}
    (h : At s (s.x rs1 + BitVec.ofInt 64 imm.toInt) n false a) (rd : XReg) (ext : Nat → Word) :
    s.load rd rs1 imm n ext = s.result rd (ext (number s a n)) := by
  rw [number_eq_readN]; exact State.lm_of_at h _

/-- FLW boxes its word. -/
theorem box_s_eq_append (v : Nat) : box .s v = 0xFFFFFFFF#32 ++ BitVec.ofNat 32 v := by
  apply BitVec.eq_of_toNat_eq
  rw [BitVec.toNat_append, ← Nat.shiftLeft_add_eq_or_of_lt (BitVec.isLt _)]
  simp only [box, BitVec.toNat_ofNat, Nat.shiftLeft_eq]
  omega

/-- A load at an address inside its segment completes with what ext makes of the bytes there. -/
theorem State.did_load {s : State} {rs1 : XReg} {imm : BitVec 12} {n a : Nat} (rd : XReg) (ext : Nat → Word)
    (h : At s (s.x rs1 + BitVec.ofInt 64 imm.toInt) n false a) :
    Did s (s.load rd rs1 imm n ext) rd (ext (number s a n)) (s.me.pc + 4) := by
  rw [State.load_of_at h]; exact s.did_result rd _

/-- Settles O12: each load is State.load at its width with its extension. -/
theorem loads : Obligations.Loads := by
  intro s rd rs1 fd imm a
  refine ⟨fun h => ⟨_, rfl, s.did_load rd _ h⟩, fun h => ⟨_, rfl, s.did_load rd _ h⟩, fun h => ⟨_, rfl, s.did_load rd _ h⟩,
    fun h => ⟨_, rfl, s.did_load rd _ h⟩, fun h => ⟨_, rfl, s.did_load rd _ h⟩, fun h => ⟨_, rfl, s.did_load rd _ h⟩,
    fun h => ⟨_, rfl, s.did_load rd _ h⟩, fun h => ?_, fun h => ?_⟩
  · rw [number_eq_readN]
    exact congrArg Host.Outcome.next (State.lm_of_at h _)
  · rw [← box_s_eq_append, number_eq_readN]
    exact congrArg Host.Outcome.next (State.lm_of_at h _)

/-! Stores. -/

/-- A store inside its segment completes, and keeps the reservation of its slot. -/
theorem State.storeDone_store {s : State} {rs1 : XReg} {imm : BitVec 12} {n a : Nat} (v : Word)
    (h : At s (s.x rs1 + BitVec.ofInt 64 imm.toInt) n true a) :
    StoreDone s (s.store rs1 imm n v) a n v.toNat 0 0 ∧ (s.store rs1 imm n v).me.resv = s.me.resv := by
  have e : s.store rs1 imm n v = (s.storeLm a v.toNat n).result 0 0 := by
    rw [State.result_x0]; exact State.lm_of_at h _
  rw [e, State.resv_result, State.resv_me_storeLm]
  exact ⟨(s.written_storeLm a v.toNat n).done 0 0, rfl⟩

/-- Settles O13: each store is State.store at its width. -/
theorem stores : Obligations.Stores := by
  intro s rs2 rs1 fs2 imm a
  exact ⟨fun h => ⟨_, rfl, s.storeDone_store _ h⟩, fun h => ⟨_, rfl, s.storeDone_store _ h⟩, fun h => ⟨_, rfl, s.storeDone_store _ h⟩,
    fun h => ⟨_, rfl, s.storeDone_store _ h⟩, fun h => ⟨_, rfl, s.storeDone_store _ h⟩, fun h => ⟨_, rfl, s.storeDone_store _ h⟩⟩

/-! Outside. -/

/-- An access that the check refuses is its trap and nothing else. -/
theorem State.trapped_lm {s : State} {ea : Word} {n : Nat} {store : Bool} {c : Nat} {tv : Word} (k : Nat → State)
    (h : lmCheck s.me ea n store = .error (c, tv)) : Trapped s (s.lm ea n store k) (BitVec.ofNat 64 c) tv s.me.pc := by
  rw [State.lm_of_error h]; exact s.trapped_trap c tv

/-- Settles O14: every load and store makes its access through State.lm. -/
theorem outsideTraps : Obligations.OutsideTraps := by
  intro s r rs1 f imm c tv
  refine ⟨?_, ?_, ?_, ?_, ?_, ?_, ?_, ?_, ?_, ?_, ?_, ?_, ?_, ?_, ?_⟩ <;> exact fun h => ⟨_, rfl, s.trapped_lm _ h⟩

/-! LR, SC and the AMOs. -/

theorem State.lr_of_at {s : State} {rs1 : XReg} {wd : Width} {a : Nat} (hal : (s.x rs1).toNat % widthBytes wd = 0)
    (hat : At s (s.x rs1) (widthBytes wd) false a) (aq rl : Bool) (rd : XReg) :
    exec (.lr aq rl wd rd rs1) s = .next ((s.updMe (fun sl => { sl with resv := some (a / 8 * 8) })).result rd
      (widthExt wd (number s a (widthBytes wd)))) := by
  rw [number_eq_readN]
  exact congrArg Host.Outcome.next ((if_neg (not_not.mpr hal)).trans (State.lm_of_at hat _))

theorem State.sc_of_at {s : State} {rs1 : XReg} {wd : Width} {a : Nat} (hal : (s.x rs1).toNat % widthBytes wd = 0)
    (hat : At s (s.x rs1) (widthBytes wd) true a) (aq rl : Bool) (rd rs2 : XReg) :
    exec (.sc aq rl wd rd rs2 rs1) s = .next (if s.me.resv = some (a / 8 * 8) then
      ((s.storeLm a (s.x rs2).toNat (widthBytes wd)).updMe (fun sl => { sl with resv := none })).result rd 0
      else (s.updMe (fun sl => { sl with resv := none })).result rd 1) := by
  refine (congrArg Host.Outcome.next ((if_neg (not_not.mpr hal)).trans (State.lm_of_at hat _))).trans ?_
  simp only [beq_iff_eq, wordOf]

/-- Changing the reservation alone, and completing with a result. -/
theorem State.kept_result_setResv (s : State) (r : Option Nat) (rd : XReg) (w : Word) :
    Claim.Kept s ((s.updMe (fun sl => { sl with resv := r })).result rd w) rd w where
  x q := by rw [State.x_result]; simp only [State.x, State.me_updMe]; rfl
  pc := by rw [State.me_result, State.me_updMe, Slot.writeX_pc]; rfl
  hold := by rw [State.me_result]; rfl
  arrived := by rw [State.me_result]; rfl
  slot := by rw [State.me_result, State.me_updMe]; unfold Slot.writeX; split <;> rfl
  others k hk := by rw [State.slot_result_ne (s.updMe (fun sl => { sl with resv := r })) rd w hk, State.slot_updMe_ne _ _ hk]

theorem State.resv_result_setResv (s : State) (r : Option Nat) (rd : XReg) (w : Word) :
    ((s.updMe (fun sl => { sl with resv := r })).result rd w).me.resv = r := by
  rw [State.resv_result, State.me_updMe]

theorem State.amo_of_at {s : State} {rs1 : XReg} {wd : Width} {a : Nat} (hal : (s.x rs1).toNat % widthBytes wd = 0)
    (hat : At s (s.x rs1) (widthBytes wd) true a) (rd rs2 : XReg) (op : (n : Nat) → BitVec n → BitVec n → BitVec n) :
    s.amo wd rd rs2 rs1 op = (s.storeLm a (op (8 * widthBytes wd) (BitVec.ofNat _ (number s a (widthBytes wd)))
      ((s.x rs2).setWidth _)).toNat (widthBytes wd)).result rd (widthExt wd (number s a (widthBytes wd))) := by
  rw [number_eq_readN]
  exact (if_neg (not_not.mpr hal)).trans (State.lm_of_at hat _)

theorem two_pow_eight_mul (n : Nat) : 2 ^ (8 * n) = 256 ^ n := by rw [pow_mul]; rfl

/-- A store is of the low n bytes of its number. -/
theorem storeDone_congr {s t : State} {a n v v' : Nat} {rd : XReg} {w : Word} (h : StoreDone s t a n v rd w)
    (e : v % 256 ^ n = v' % 256 ^ n) : StoreDone s t a n v' rd w := { h with mem := stored_congr h.mem e }

/-- An AMO whose operation on words agrees with one on their numbers gives the old value and stores that operation's result. -/
theorem State.storeDone_amo {s : State} {rs1 rs2 : XReg} {wd : Width} {a : Nat} (hal : (s.x rs1).toNat % widthBytes wd = 0)
    (hat : At s (s.x rs1) (widthBytes wd) true a) (rd : XReg) {op : (n : Nat) → BitVec n → BitVec n → BitVec n} {spec : Nat → Nat → Nat}
    (hop : ∀ o b : BitVec (8 * widthBytes wd), (op _ o b).toNat = spec o.toNat b.toNat % 2 ^ (8 * widthBytes wd)) :
    StoreDone s (s.amo wd rd rs2 rs1 op) a (widthBytes wd)
      (spec (number s a (widthBytes wd)) ((s.x rs2).toNat % 256 ^ widthBytes wd)) rd (widthExt wd (number s a (widthBytes wd))) ∧
    (s.amo wd rd rs2 rs1 op).me.resv = s.me.resv := by
  have hold : (BitVec.ofNat (8 * widthBytes wd) (number s a (widthBytes wd))).toNat = number s a (widthBytes wd) := by
    rw [BitVec.toNat_ofNat, two_pow_eight_mul, number_eq_readN, Nat.mod_eq_of_lt (Memory.readN_lt ..)]
  have hnew := hop (BitVec.ofNat _ (number s a (widthBytes wd))) ((s.x rs2).setWidth _)
  rw [hold, BitVec.toNat_setWidth, two_pow_eight_mul] at hnew
  rw [State.amo_of_at hal hat, State.resv_result, State.resv_me_storeLm]
  exact ⟨storeDone_congr ((s.written_storeLm a _ _).done rd _) (by rw [hnew, Nat.mod_mod]), rfl⟩

/-! The operations on words as operations on their numbers. -/

theorem toNat_eq_mod {n : Nat} (x : BitVec n) : x.toNat = x.toNat % 2 ^ n := (Nat.mod_eq_of_lt x.isLt).symm

theorem toNat_if_slt {n : Nat} (o b x y : BitVec n) : (if o.slt b then x else y).toNat =
    (if (BitVec.ofNat n o.toNat).toInt < (BitVec.ofNat n b.toNat).toInt then x.toNat else y.toNat) % 2 ^ n := by
  rw [BitVec.ofNat_toNat, BitVec.ofNat_toNat, BitVec.setWidth_eq, BitVec.setWidth_eq]
  by_cases h : o.toInt < b.toInt <;> simp only [BitVec.slt, h, decide_true, decide_false, if_true, if_false, Bool.false_eq_true] <;>
    exact toNat_eq_mod _

theorem toNat_if_ult {n : Nat} (o b x y : BitVec n) :
    (if o.ult b then x else y).toNat = (if o.toNat < b.toNat then x.toNat else y.toNat) % 2 ^ n := by
  by_cases h : o.toNat < b.toNat <;> simp only [BitVec.ult, h, decide_true, decide_false, if_true, if_false, Bool.false_eq_true] <;>
    exact toNat_eq_mod _

/-! Their traps. -/

theorem State.trapped_if_misaligned {s t : State} {p : Prop} [Decidable p] (h : p) (c : Nat) (tv : Word) :
    Trapped s (if p then s.trap c tv else t) (BitVec.ofNat 64 c) tv s.me.pc := by
  rw [if_pos h]; exact s.trapped_trap c tv

/-- An aligned access that the check refuses takes its trap. -/
theorem State.trapped_aligned_lm {s t : State} {ea : Word} {n m : Nat} {store : Bool} {c : Nat} {tv : Word} (k : Nat → State)
    (hal : m = 0) (h : lmCheck s.me ea n store = .error (c, tv)) :
    Trapped s (if m ≠ 0 then t else s.lm ea n store k) (BitVec.ofNat 64 c) tv s.me.pc := by
  rw [if_neg (not_not.mpr hal)]; exact s.trapped_lm k h

/-- The SC and the AMOs of a width and of registers. -/
def storingAtomics (aq rl : Bool) (wd : Width) (rd rs2 rs1 : XReg) : List Instr :=
  [.sc aq rl wd rd rs2 rs1, .amoswap aq rl wd rd rs2 rs1, .amoadd aq rl wd rd rs2 rs1, .amoxor aq rl wd rd rs2 rs1,
    .amoand aq rl wd rd rs2 rs1, .amoor aq rl wd rd rs2 rs1, .amomin aq rl wd rd rs2 rs1, .amomax aq rl wd rd rs2 rs1,
    .amominu aq rl wd rd rs2 rs1, .amomaxu aq rl wd rd rs2 rs1]

/-- Each of them checks the alignment, then makes its access. -/
theorem exec_storingAtomics {aq rl : Bool} {wd : Width} {rd rs2 rs1 : XReg} {i : Instr} (hi : i ∈ storingAtomics aq rl wd rd rs2 rs1)
    (s : State) : ∃ k, exec i s = .next (if (s.x rs1).toNat % widthBytes wd ≠ 0 then s.trap 6 (s.x rs1)
      else s.lm (s.x rs1) (widthBytes wd) true k) := by
  simp only [storingAtomics, List.mem_cons, List.not_mem_nil, or_false] at hi
  rcases hi with rfl | rfl | rfl | rfl | rfl | rfl | rfl | rfl | rfl | rfl <;> exact ⟨_, rfl⟩

/-- Settles O15: LR, SC and an AMO at an aligned address of the segment, operation by operation; then their traps. -/
theorem localAtomics : Obligations.LocalAtomics := by
  intro s aq rl rd rs2 rs1 a ea sext size sgn cut here amo
  have hsize : size = widthBytes := funext (fun wd => by cases wd <;> rfl)
  have hsext : sext = widthExt := funext (fun wd => by cases wd <;> rfl)
  clear_value size sext
  subst hsize hsext
  have hamo {i : Width → Instr} {op : (n : Nat) → BitVec n → BitVec n → BitVec n} {spec : Width → Nat → Nat → Nat}
      (hi : ∀ wd, exec (i wd) s = .next (s.amo wd rd rs2 rs1 op))
      (hop : ∀ wd, ∀ o b : BitVec (8 * widthBytes wd), (op _ o b).toNat = spec wd o.toNat b.toNat % 2 ^ (8 * widthBytes wd)) :
      amo i spec := fun wd h => ⟨_, hi wd, s.storeDone_amo h.1 h.2 rd (hop wd)⟩
  clear_value amo
  refine ⟨fun wd h => ?lr, fun wd h hr => ?scDone, fun wd h hr => ?scNot, hamo (fun _ => rfl) (fun _ _ b => toNat_eq_mod b),
    hamo (fun _ => rfl) (fun _ => BitVec.toNat_add), hamo (fun _ => rfl) (fun _ o b => ?xor), hamo (fun _ => rfl) (fun _ o b => ?and),
    hamo (fun _ => rfl) (fun _ o b => ?or), hamo (fun _ => rfl) (fun _ o b => toNat_if_slt o b o b),
    hamo (fun _ => rfl) (fun _ o b => toNat_if_slt o b b o), hamo (fun _ => rfl) (fun _ o b => ?minu),
    hamo (fun _ => rfl) (fun _ o b => ?maxu), fun wd => ⟨fun h => ?lrAlign, fun c tv h0 h => ?lrOut⟩,
    fun wd i hi => ⟨fun h => ?align, fun c tv h0 h => ?out⟩⟩
  case lr =>
    exact ⟨_, State.lr_of_at h.1 h.2 aq rl rd, s.resv_result_setResv .., s.kept_result_setResv .., rfl⟩
  case scDone =>
    have e := State.sc_of_at h.1 h.2 aq rl rd rs2
    rw [if_pos hr] at e
    exact ⟨_, e, ((s.written_storeLm a _ _).setResv none).done rd 0, State.resv_result_setResv ..⟩
  case scNot =>
    have e := State.sc_of_at h.1 h.2 aq rl rd rs2
    rw [if_neg hr] at e
    exact ⟨_, e, s.resv_result_setResv .., s.kept_result_setResv .., rfl⟩
  case xor => rw [← BitVec.toNat_xor]; exact toNat_eq_mod _
  case and => rw [← BitVec.toNat_and]; exact toNat_eq_mod _
  case or => rw [← BitVec.toNat_or]; exact toNat_eq_mod _
  case minu =>
    rw [toNat_if_ult, min_def_lt]
  case maxu =>
    rw [toNat_if_ult, max_def_lt]
  case lrAlign => exact ⟨_, rfl, State.trapped_if_misaligned h 4 ea⟩
  case lrOut => exact ⟨_, rfl, State.trapped_aligned_lm _ h0 h⟩
  case align =>
    obtain ⟨k, e⟩ := exec_storingAtomics hi s
    exact ⟨_, e, State.trapped_if_misaligned h 6 ea⟩
  case out =>
    obtain ⟨k, e⟩ := exec_storingAtomics hi s
    exact ⟨_, e, State.trapped_aligned_lm k h0 h⟩

end Sys2Proof.Machine
end

section
/-! PROOFS. The changes of a slot at a rotation boundary. -/

namespace Sys2Proof.Machine

/-! What they leave unchanged: code lines, the sweep of the holds, waking. -/

/-- A request for a line changes its die alone. -/
theorem State.wantLine_cases (s : State) (key : Nat) : s.wantLine key = s ∨ ∃ line, s.wantLine key = s.requestLine key line := by
  unfold State.wantLine
  extract_lets
  split
  · exact .inl rfl
  · exact .inr ⟨_, rfl⟩

theorem State.wantLine_slots (s : State) (key : Nat) : (s.wantLine key).slots = s.slots := by
  obtain h | ⟨line, h⟩ := s.wantLine_cases key <;> rw [h]; rfl

theorem State.wantLine_vcs (s : State) (key : Nat) : (s.wantLine key).vcs = s.vcs := by
  obtain h | ⟨line, h⟩ := s.wantLine_cases key <;> rw [h]; rfl

theorem State.wantLine_mem (s : State) (key : Nat) : (s.wantLine key).mem = s.mem := by
  obtain h | ⟨line, h⟩ := s.wantLine_cases key <;> rw [h]; rfl

/-- Without a hold there is nothing to take and nothing to freeze. -/
theorem State.sweep_of_no_holds {s : State} {vk : Nat} (h : (s.vc vk).holds = []) : s.sweep vk = s := by
  unfold State.sweep
  rw [List.foldl_fixed' (fun key => by simp [heldBy, h])]
  simp [State.freezeHeld, h]

/-- After a change of a slot whose virtual core has no hold, the sweep that follows the request for its line does nothing. -/
theorem State.sweep_wantLine_updSlot {s : State} {vk : Nat} (h : (s.vc vk).holds = []) (key : Nat) (f : Slot → Slot) :
    ((s.updSlot key f).wantLine key).sweep vk = (s.updSlot key f).wantLine key :=
  State.sweep_of_no_holds (by rw [State.vc, State.wantLine_vcs]; exact h)

theorem State.slot_wantLine (s : State) (key k : Nat) : (s.wantLine key).slot k = s.slot k := by
  rw [State.slot, State.wantLine_slots]; rfl

/-- A slot that does not wait stays as it is when others wake. -/
theorem Slot.wake_of_not_parked {sl : Slot} (h : sl.st ≠ .parked) (p : Await → Bool) (c : Nat) : sl.wake p c = sl := by
  unfold Slot.wake
  split
  · next hst _ => exact absurd hst h
  · rfl

/-! Leaving TRAPPED. -/

theorem Slot.st_goOn_of_load {sl : Slot} {id : Nat} {r : BitVec 5} {f : Bool} {p : Word} (h : sl.hold = some (.load id r f p)) :
    sl.goOn.st = .dropped := by simp [Slot.goOn, h]

theorem Slot.st_goOn_of_not_load {sl : Slot} (h : ∀ id r f p, sl.hold ≠ some (.load id r f p)) : sl.goOn.st = .issuing := by
  unfold Slot.goOn
  split
  · next e => exact absurd e (h _ _ _ _)
  · rfl

theorem Slot.passWord_of_not_offender {sl : Slot} (h : sl.offender = false) : sl.passWord = sl := by simp [Slot.passWord, h]

theorem Slot.hold_passWord_of_offender {sl : Slot} (h : sl.offender = true) : sl.passWord.hold = none := by simp [Slot.passWord, h]

/-- The word that held its bundle is passed. -/
theorem Slot.pc_goOn_passWord (sl : Slot) : sl.passWord.goOn.pc = if sl.offender = true then sl.pc + 4 else sl.pc := by
  show sl.passWord.pc = _
  unfold Slot.passWord; split <;> rfl

theorem Slot.st_goOn_passWord {sl : Slot} (h : sl.offender = true ∨ ∀ id r f p, sl.hold ≠ some (.load id r f p)) :
    sl.passWord.goOn.st = .issuing := by
  cases ho : sl.offender with
  | true => exact Slot.st_goOn_of_not_load (by simp [Slot.hold_passWord_of_offender ho])
  | false => rw [Slot.passWord_of_not_offender ho]; exact Slot.st_goOn_of_not_load (h.resolve_left (by simp [ho]))

/-! The events. -/

theorem exec_forkSlotStart {s : State} {f : ForkReq} (hc : s.canForkStart s.ev.key = true)
    (hf : (s.vc (s.ev.key / 16)).forks.find? (fun f => f.slot == s.ev.key % 16) = some f) (hh : (s.vc (s.ev.key / 16)).holds = []) :
    exec .forkSlotStart s = .next (((s.updVc (s.ev.key / 16) (fun v => { v with forks := v.forks.erase f })).updSlot s.ev.key
      (fun old => forkedSlot old f.image)).wantLine s.ev.key) := by
  have hv : ((s.updVc (s.ev.key / 16) (fun v => { v with forks := v.forks.erase f })).vc (s.ev.key / 16)).holds = [] := by
    rw [State.vc_updVc_self]; exact hh
  rw [← State.sweep_wantLine_updSlot hv]
  show execForkSlotStart s = _
  simp [execForkSlotStart, hc, hf]

theorem exec_haltedToEmpty {s : State} (h : s.canEmpty s.ev.key = true) :
    exec .haltedToEmpty s = .next (s.updSlot s.ev.key (fun sl => { sl with st := .empty })) := congrArg Host.Outcome.next (if_pos h)

theorem exec_slotUnpark {s : State} (h : s.canUnpark s.ev.key = true) :
    exec .slotUnpark s = .next (s.updSlot s.ev.key (fun sl => { sl with st := .issuing, park := none, wakeAt := none })) :=
  congrArg Host.Outcome.next (if_pos h)

theorem exec_trappedRelease {s : State} (h : s.canRelease s.ev.key = true) (he : (s.slot s.ev.key).ends = false)
    (hh : (s.vc (s.ev.key / 16)).holds = []) :
    exec .trappedRelease s = .next ((s.updSlot s.ev.key (fun sl => sl.passWord.goOn)).wantLine s.ev.key) := by
  rw [← State.sweep_wantLine_updSlot hh]
  show execTrappedRelease s = _
  simp [execTrappedRelease, h, he]

/-- The slot of a terminated bundle. -/
def Slot.ended (sl : Slot) : Slot :=
  { sl with st := .empty, trap := none, wakeAt := none, hold := none, offender := false, ends := false }

theorem exec_trappedRelease_of_ends {s : State} (h : s.canRelease s.ev.key = true) (he : (s.slot s.ev.key).ends = true) :
    exec .trappedRelease s = .next ((s.updSlot s.ev.key Slot.ended).wakeJoin (s.ev.key / 16) (s.ev.key % 16)) := by
  show execTrappedRelease s = _
  simp [execTrappedRelease, h, he]; rfl

/-- Settles O22: each event's next state is a change of its slot, seen through the request for its line or the waking of the others. -/
theorem boundaryChanges : Obligations.BoundaryChanges := by
  intro s k vk
  refine ⟨fun f hc hf hh => ⟨_, exec_forkSlotStart hc hf hh, ?_⟩, fun h => ⟨_, exec_haltedToEmpty h, ?_⟩,
    fun h => ⟨_, exec_slotUnpark h, ?_⟩, fun h he hh => ⟨_, exec_trappedRelease h he hh, ?_⟩,
    fun h he => ⟨_, exec_trappedRelease_of_ends h he, ?_⟩⟩
  · rw [State.slot_wantLine, State.slot_updSlot_self, State.wantLine_mem]
    exact ⟨rfl, rfl, rfl, rfl, rfl, rfl, rfl, rfl, rfl, rfl, rfl, rfl, rfl, rfl, rfl, rfl, rfl, rfl⟩
  · rw [State.slot_updSlot_self]
    exact ⟨rfl, fun j hj => State.slot_updSlot_ne _ _ hj, rfl⟩
  · rw [State.slot_updSlot_self]
    exact ⟨rfl, rfl, rfl, fun j hj => State.slot_updSlot_ne _ _ hj, rfl⟩
  · rw [State.slot_wantLine, State.slot_updSlot_self, State.wantLine_mem]
    exact ⟨Slot.st_goOn_passWord, fun id r f p ho hl => by rw [Slot.passWord_of_not_offender ho]; exact Slot.st_goOn_of_load hl,
      rfl, Slot.pc_goOn_passWord _, rfl⟩
  · rw [State.wakeJoin, State.slot_wakeVc, State.slot_updSlot_self, if_pos rfl, Slot.wake_of_not_parked (by simp [Slot.ended])]
    exact ⟨rfl, rfl⟩

end Sys2Proof.Machine
end

section
/-! PROOFS. The CSR instructions. -/

namespace Sys2Proof.Machine

open Sys2Proof.Claim

/-! What a CSR instruction does. -/

section
variable {s : State} {i : Instr} {rd : XReg} {a : BitVec 12} {reads : Bool}

theorem State.csrOp_of_read (h : s.csrOk a.toNat reads false = true) : s.csrOp i rd a reads none = s.result rd (s.csrRead a.toNat) :=
  if_pos h

theorem State.csrOp_of_write {f : Word → Word} (h : s.csrOk a.toNat reads true = true) :
    s.csrOp i rd a reads (some f) = (s.result rd (s.csrRead a.toNat)).csrWrite a.toNat (f (s.csrRead a.toNat)) := if_pos h

theorem State.csrOp_of_not_ok {new : Option (Word → Word)} (h : s.csrOk a.toNat reads new.isSome = false) :
    s.csrOp i rd a reads new = s.illegalI i := if_neg (by simp [h])

end

theorem State.trapped_illegalI (s : State) {i : Instr} {w : InsnWord} (h : encode i = some w) :
    Trapped s (s.illegalI i) 2 (w.setWidth 64) s.me.pc := by
  rw [State.illegalI, insnWord, h]; exact s.trapped_trap 2 _

/-! Which accesses are allowed. -/

/-- A U-mode CSR other than cycle, time and instret. -/
def userCsr (a : Nat) : Bool :=
  match csrClass a with
  | .csr false _ => !(0xC00 ≤ a && a ≤ 0xC02)
  | _ => false

theorem State.csrOk_read_of_user (s : State) {a : Nat} (h : userCsr a = true) : s.csrOk a true false = true := by
  unfold userCsr at h
  split at h
  · next ro hc => simp only [State.csrOk, hc, counterOk, h]; simp
  · exact absurd h (by simp)

theorem State.csrOk_of_mMode {s : State} (hm : s.me.mode = .m) {a : Nat} {m ro writes : Bool} (hc : csrClass a = .csr m ro)
    (hw : (ro && writes) = false) (reads : Bool) : s.csrOk a reads writes = true := by
  simp [State.csrOk, hc, hm, hw, counterOk]

/-- Table 01.2 and 03.5: the CSRs of plain storage are writable, those with bits 9 and 8 of the address clear from U mode. -/
theorem csrClass_of_mem_csrKeeps : ∀ p ∈ csrKeeps, ∃ m, csrClass p.1.toNat = .csr m false ∧ (m = true → p.1.extractLsb' 8 2 ≠ 0) ∧
    ¬ (0xC00 ≤ p.1.toNat ∧ p.1.toNat ≤ 0xC02) := by
  intro p hp
  simp only [csrKeeps, List.mem_cons, List.not_mem_nil, or_false] at hp
  rcases hp with rfl | rfl | rfl | rfl | rfl | rfl | rfl | rfl | rfl | rfl | rfl | rfl | rfl | rfl | rfl | rfl | rfl | rfl | rfl |
    rfl | rfl | rfl <;> exact ⟨_, rfl, by decide, by decide⟩

theorem State.csrOk_of_mem_csrKeeps {s : State} {p : BitVec 12 × Word} (hp : p ∈ csrKeeps)
    (hm : s.me.mode = .m ∨ p.1.extractLsb' 8 2 = 0) (reads writes : Bool) : s.csrOk p.1.toNat reads writes = true := by
  obtain ⟨m, hc, hu, hn⟩ := csrClass_of_mem_csrKeeps p hp
  have hmode : (!m || s.me.mode == .m) = true := by
    cases m with
    | false => rfl
    | true => simp [hm.resolve_right (hu rfl)]
  have hcount : counterOk s.me p.1.toNat = true := by
    simp [counterOk, show p.1.toNat < 0xC00 ∨ 0xC02 < p.1.toNat by omega]
  simp [State.csrOk, hc, hmode, hcount]

/-! The CSRs of plain storage as fields of the slot, of the virtual core and of the core. -/

/-- A CSR of plain storage: its address, the bits that exist, how it reads and what a write does. -/
structure CsrField (α : Type) where
  addr : BitVec 12
  mask : Word
  get : α → Word
  put : Word → α → α

def slotCsrs : List (CsrField Slot) :=
  [⟨0x001, 0x1F, fun sl => sl.fflags.setWidth 64, fun w sl => { sl with fflags := w.setWidth 5 }⟩,
   ⟨0x002, 0x7, fun sl => sl.frm.setWidth 64, fun w sl => { sl with frm := w.setWidth 3 }⟩,
   ⟨0x003, 0xFF, fun sl => (sl.frm ++ sl.fflags).setWidth 64, fun w sl => { sl with fflags := w.setWidth 5, frm := w.extractLsb' 5 3 }⟩,
   ⟨0x7C2, 0x1FFFF, fun sl => sl.qowner.setWidth 64, fun w sl => { sl with qowner := w.setWidth 17 }⟩,
   ⟨0x304, 0xF0000, fun sl => (sl.mie ++ (0 : BitVec 16)).setWidth 64, fun w sl => { sl with mie := w.extractLsb' 16 4 }⟩,
   ⟨0x305, 0xFFFFFFFFFFFFFFFC, Slot.mtvec, fun w sl => { sl with mtvec := w &&& ~~~ 3 }⟩,
   ⟨0x306, 7, fun sl => sl.mcounteren.setWidth 64, fun w sl => { sl with mcounteren := w.setWidth 3 }⟩,
   ⟨0x340, 0xFFFFFFFFFFFFFFFF, Slot.mscratch, fun w sl => { sl with mscratch := w }⟩,
   ⟨0x341, 0xFFFFFFFFFFFFFFFC, Slot.mepc, fun w sl => { sl with mepc := w &&& ~~~ 3 }⟩,
   ⟨0x342, 0x800000000000003F, Slot.mcause, fun w sl => { sl with mcause := w &&& 0x800000000000003F }⟩,
   ⟨0x343, 0xFFFFFFFFFFFFFFFF, Slot.mtval, fun w sl => { sl with mtval := w }⟩,
   ⟨0xB00, 0xFFFFFFFFFFFFFFFF, Slot.mcycle, fun w sl => { sl with mcycle := w }⟩,
   ⟨0xB02, 0xFFFFFFFFFFFFFFFF, Slot.minstret, fun w sl => { sl with minstret := w }⟩]

def vcCsrs : List (CsrField VCore) :=
  [⟨0x800, 0xFFFFFFFF, fun v => v.fitness.setWidth 64, fun w v => { v with fitness := w.setWidth 32 }⟩,
   ⟨0x801, 0xFFFFFFFF, fun v => v.evalcnt.setWidth 64, fun w v => { v with evalcnt := w.setWidth 32 }⟩,
   ⟨0x802, 0x1F, fun v => v.mflags.setWidth 64, fun w v => { v with mflags := w.setWidth 5 }⟩,
   ⟨0x803, 0xBF, fun v => v.smring.setWidth 64, fun w v => { v with smring := w.setWidth 8 &&& ringCsrMask }⟩,
   ⟨0x804, 0xBF, fun v => v.evring.setWidth 64, fun w v => { v with evring := w.setWidth 8 &&& ringCsrMask }⟩,
   ⟨0x7C5, 0x8000000003FFFFFF, VCore.supmbox, fun w v => { v with supmbox := w &&& supmboxMask }⟩]

def coreCsrs : List (CsrField PCore) :=
  [⟨0x7C3, 0xFFFFFFFF, fun c => c.stallthr.setWidth 64, fun w c => { c with stallthr := w.setWidth 32 }⟩,
   ⟨0x7C4, 0xFFFFFFFF, fun c => c.tokexp.setWidth 64, fun w c => { c with tokexp := w.setWidth 32 }⟩,
   ⟨0x7C6, 1, fun c => BitVec.ofNat 64 (bn c.sqfen), fun w c => { c with sqfen := w.getLsbD 0 }⟩]

/-- Every CSR of plain storage is a field of one of the three. -/
theorem mem_csrKeeps_cases : ∀ p ∈ csrKeeps, (∃ c ∈ slotCsrs, (c.addr, c.mask) = p) ∨ (∃ c ∈ vcCsrs, (c.addr, c.mask) = p) ∨
    ∃ c ∈ coreCsrs, (c.addr, c.mask) = p := by
  simp [csrKeeps, slotCsrs, vcCsrs, coreCsrs]

/-! Their reads and writes are the model's. -/

theorem State.csrRead_slotCsr (s : State) : ∀ c ∈ slotCsrs, s.csrRead c.addr.toNat = c.get s.me := by
  simp only [slotCsrs, List.forall_mem_cons]
  exact ⟨rfl, rfl, rfl, rfl, rfl, rfl, rfl, rfl, rfl, rfl, rfl, rfl, rfl, List.forall_mem_nil _⟩

theorem State.csrRead_vcCsr (s : State) : ∀ c ∈ vcCsrs, s.csrRead c.addr.toNat = c.get s.myVc := by
  simp only [vcCsrs, List.forall_mem_cons]
  exact ⟨rfl, rfl, rfl, rfl, rfl, rfl, List.forall_mem_nil _⟩

theorem State.csrRead_coreCsr (s : State) : ∀ c ∈ coreCsrs, s.csrRead c.addr.toNat = c.get (s.core (s.coreOf s.vk)) := by
  simp only [coreCsrs, List.forall_mem_cons]
  exact ⟨rfl, rfl, rfl, List.forall_mem_nil _⟩

theorem State.csrWrite_slotCsr (s : State) (w : Word) : ∀ c ∈ slotCsrs, s.csrWrite c.addr.toNat w = s.updMe (c.put w) := by
  simp only [slotCsrs, List.forall_mem_cons]
  exact ⟨rfl, rfl, rfl, rfl, rfl, rfl, rfl, rfl, rfl, rfl, rfl, rfl, rfl, List.forall_mem_nil _⟩

/-- No flag was raised in the cycle of the write: mflags is what is written (R148). -/
theorem VCore.writeFlags_of_ne {v : VCore} {cyc : Nat} (h : v.flagCyc ≠ cyc + 1) (w : BitVec 5) :
    v.writeFlags cyc w = { v with mflags := w } := by
  simp [VCore.writeFlags, h]

theorem State.csrWrite_mflags {s : State} (h : s.myVc.flagCyc ≠ s.cycOf s.vk + 1) (w : Word) :
    s.csrWrite 0x802 w = s.updMyVc (fun v => { v with mflags := w.setWidth 5 }) :=
  congrArg (s.setVc s.vk) (VCore.writeFlags_of_ne h (w.setWidth 5))

theorem State.csrWrite_vcCsr (s : State) (w : Word) : ∀ c ∈ vcCsrs, (c.addr = 0x802 → s.myVc.flagCyc ≠ s.cycOf s.vk + 1) →
    s.csrWrite c.addr.toNat w = s.updMyVc (c.put w) := by
  simp only [vcCsrs, List.forall_mem_cons]
  exact ⟨fun _ => rfl, fun _ => rfl, fun h => State.csrWrite_mflags (h trivial) w, fun _ => rfl, fun _ => rfl, fun _ => rfl,
    List.forall_mem_nil _⟩

theorem State.csrWrite_coreCsr (s : State) (w : Word) :
    ∀ c ∈ coreCsrs, s.csrWrite c.addr.toNat w = s.updCore (s.coreOf s.vk) (c.put w) := by
  simp only [coreCsrs, List.forall_mem_cons]
  exact ⟨rfl, rfl, rfl, List.forall_mem_nil _⟩

/-! A field reads as written, with the bits that exist. -/

theorem setWidth_setWidth_eq_and (w : Word) (k : Nat) : (w.setWidth k).setWidth 64 = w &&& BitVec.ofNat 64 (2 ^ k - 1) := by
  apply BitVec.eq_of_getLsbD_eq
  intro i hi
  rw [BitVec.getLsbD_and, BitVec.getLsbD_setWidth, BitVec.getLsbD_setWidth, BitVec.getLsbD_ofNat, Nat.testBit_two_pow_sub_one]
  simp [hi, Bool.and_comm]

theorem and_allOnes_word (w : Word) : w &&& 0xFFFFFFFFFFFFFFFF = w := BitVec.and_allOnes

theorem ringCsr_eq_and (w : Word) : (w.setWidth 8 &&& ringCsrMask).setWidth 64 = w &&& 0xBF := by
  rw [BitVec.setWidth_and, setWidth_setWidth_eq_and, BitVec.and_assoc]; rfl

theorem fcsr_eq_and (w : Word) : (w.extractLsb' 5 3 ++ w.setWidth 5).setWidth 64 = w &&& 0xFF := by
  have h : w.extractLsb' 5 3 ++ w.setWidth 5 = w.setWidth 8 := by
    apply BitVec.eq_of_getLsbD_eq
    intro i hi
    rw [BitVec.getLsbD_append]
    by_cases h5 : i < 5
    · simp [h5, hi]
    · simp [h5, hi, show i - 5 < 3 by omega, show 5 + (i - 5) = i by omega]
  rw [h, setWidth_setWidth_eq_and]; rfl

theorem mie_eq_and (w : Word) : (w.extractLsb' 16 4 ++ (0 : BitVec 16)).setWidth 64 = w &&& 0xF0000 := by
  have hmask : ∀ i < 64, (0xF0000 : Word).getLsbD i = (decide (16 ≤ i) && decide (i < 20)) := by decide
  apply BitVec.eq_of_getLsbD_eq
  intro i hi
  rw [BitVec.getLsbD_and, hmask i hi, BitVec.getLsbD_setWidth, BitVec.getLsbD_append]
  by_cases h16 : i < 16
  · simp [h16, show ¬ 16 ≤ i by omega]
  · by_cases h20 : i < 20
    · simp [h16, h20, hi, show 16 ≤ i by omega, show i - 16 < 4 by omega, show 16 + (i - 16) = i by omega]
    · simp [h16, h20, show ¬ i - 16 < 4 by omega]

theorem sqfen_eq_and (w : Word) : BitVec.ofNat 64 (bn (w.getLsbD 0)) = w &&& 1 := by
  apply BitVec.eq_of_getLsbD_eq
  intro i hi
  rw [BitVec.getLsbD_and, show (1 : Word).getLsbD i = decide (i = 0) by simp]
  by_cases h0 : i = 0
  · subst h0; cases h : w.getLsbD 0 <;> simp [bn]
  · cases h : w.getLsbD 0 <;> simp [bn, h0]

theorem slotCsr_get_put (w : Word) (sl : Slot) : ∀ c ∈ slotCsrs, c.get (c.put w sl) = w &&& c.mask := by
  simp only [slotCsrs, List.forall_mem_cons]
  exact ⟨setWidth_setWidth_eq_and w 5, setWidth_setWidth_eq_and w 3, fcsr_eq_and w, setWidth_setWidth_eq_and w 17, mie_eq_and w, rfl,
    setWidth_setWidth_eq_and w 3, (and_allOnes_word w).symm, rfl, trivial, (and_allOnes_word w).symm, (and_allOnes_word w).symm,
    (and_allOnes_word w).symm, List.forall_mem_nil _⟩

theorem vcCsr_get_put (w : Word) (v : VCore) : ∀ c ∈ vcCsrs, c.get (c.put w v) = w &&& c.mask := by
  simp only [vcCsrs, List.forall_mem_cons]
  exact ⟨setWidth_setWidth_eq_and w 32, setWidth_setWidth_eq_and w 32, setWidth_setWidth_eq_and w 5, ringCsr_eq_and w, ringCsr_eq_and w,
    rfl, List.forall_mem_nil _⟩

theorem coreCsr_get_put (w : Word) (c : PCore) : ∀ d ∈ coreCsrs, d.get (d.put w c) = w &&& d.mask := by
  simp only [coreCsrs, List.forall_mem_cons]
  exact ⟨setWidth_setWidth_eq_and w 32, setWidth_setWidth_eq_and w 32, sqfen_eq_and w, List.forall_mem_nil _⟩

/-! A write of one field leaves the others; of fflags, frm and fcsr each is part of the other. -/

theorem slotCsr_get_put_ne (w : Word) (sl : Slot) : ∀ c ∈ slotCsrs, ∀ d ∈ slotCsrs, d.addr ≠ c.addr →
    (c.addr.toNat ≤ 3 → 3 < d.addr.toNat) → d.get (c.put w sl) = d.get sl := by
  simp [slotCsrs]

theorem vcCsr_get_put_ne (w : Word) (v : VCore) : ∀ c ∈ vcCsrs, ∀ d ∈ vcCsrs, d.addr ≠ c.addr → d.get (c.put w v) = d.get v := by
  simp [vcCsrs]

theorem coreCsr_get_put_ne (w : Word) (x : PCore) : ∀ c ∈ coreCsrs, ∀ d ∈ coreCsrs, d.addr ≠ c.addr → d.get (c.put w x) = d.get x := by
  simp [coreCsrs]

/-- A write of a CSR of the slot changes nothing of it but those fields. -/
theorem slotCsr_put_rest (w : Word) (sl : Slot) : ∀ c ∈ slotCsrs,
    { c.put w sl with
      fflags := sl.fflags, frm := sl.frm, mie := sl.mie, mtvec := sl.mtvec, mcounteren := sl.mcounteren, mscratch := sl.mscratch,
      mepc := sl.mepc, mcause := sl.mcause, mtval := sl.mtval, mcycle := sl.mcycle, minstret := sl.minstret, qowner := sl.qowner } = sl := by
  simp [slotCsrs]

theorem vcCsr_place_put (w : Word) (v : VCore) : ∀ c ∈ vcCsrs, (c.put w v).place = v.place := by
  simp [vcCsrs]

/-- A completion with a result changes of the CSRs of the slot minstret alone. -/
theorem slotCsr_get_retireAt_writeX (sl : Slot) (rd : BitVec 5) (v p : Word) : ∀ c ∈ slotCsrs, c.addr ≠ 0xB02 →
    c.get ((sl.writeX rd v).retireAt p) = c.get sl := by
  unfold Slot.writeX
  split <;> simp [slotCsrs, Slot.retireAt]

/-! A write of a CSR of plain storage. -/

/-- The state t is u after w has been written to the CSR p. -/
structure CsrPut (u t : State) (p : BitVec 12 × Word) (w : Word) : Prop where
  read : t.csrRead p.1.toNat = w &&& p.2
  me : { t.me with
    fflags := u.me.fflags, frm := u.me.frm, mie := u.me.mie, mtvec := u.me.mtvec, mcounteren := u.me.mcounteren,
    mscratch := u.me.mscratch, mepc := u.me.mepc, mcause := u.me.mcause, mtval := u.me.mtval, mcycle := u.me.mcycle,
    minstret := u.me.minstret, qowner := u.me.qowner } = u.me
  others : ∀ k, k ≠ u.cur → t.slot k = u.slot k
  vcs : ∀ k, k ≠ u.vk → t.vc k = u.vc k
  rest : { t with slots := u.slots, vcs := u.vcs, cores := u.cores } = u
  frame : ∀ q ∈ csrKeeps, q.1 ≠ p.1 → (p.1.toNat ≤ 3 → 3 < q.1.toNat) → t.csrRead q.1.toNat = u.csrRead q.1.toNat

theorem csrPut_slotCsr (u : State) (w : Word) {c : CsrField Slot} (hc : c ∈ slotCsrs) :
    CsrPut u (u.csrWrite c.addr.toNat w) (c.addr, c.mask) w := by
  rw [u.csrWrite_slotCsr w c hc]
  refine ⟨?_, ?_, fun k hk => State.slot_updMe_ne _ _ hk, fun _ _ => rfl, rfl, fun q hq hne hfl => ?_⟩
  · rw [State.csrRead_slotCsr _ c hc, State.me_updMe, slotCsr_get_put w _ c hc]
  · rw [State.me_updMe]; exact slotCsr_put_rest w _ c hc
  · rcases mem_csrKeeps_cases q hq with ⟨d, hd, rfl⟩ | ⟨d, hd, rfl⟩ | ⟨d, hd, rfl⟩
    · rw [State.csrRead_slotCsr _ d hd, State.csrRead_slotCsr _ d hd, State.me_updMe, slotCsr_get_put_ne w _ c hc d hd hne hfl]
    · rw [State.csrRead_vcCsr _ d hd, State.csrRead_vcCsr _ d hd, State.updMe_myVc]
    · rw [State.csrRead_coreCsr _ d hd, State.csrRead_coreCsr _ d hd]; rfl

theorem csrPut_vcCsr {u : State} (w : Word) {c : CsrField VCore} (hc : c ∈ vcCsrs) (hf : c.addr = 0x802 → u.myVc.flagCyc ≠ u.cycOf u.vk + 1) :
    CsrPut u (u.csrWrite c.addr.toNat w) (c.addr, c.mask) w := by
  rw [u.csrWrite_vcCsr w c hc hf]
  have hplace : (u.updMyVc (c.put w)).coreOf u.vk = u.coreOf u.vk := by
    show ((u.updMyVc (c.put w)).myVc.place.getD 0) = _
    rw [State.myVc_updMyVc, vcCsr_place_put w _ c hc]; rfl
  refine ⟨?_, rfl, fun _ _ => rfl, fun k hk => ?_, rfl, fun q hq hne _ => ?_⟩
  · rw [State.csrRead_vcCsr _ c hc, State.myVc_updMyVc, vcCsr_get_put w _ c hc]
  · rw [State.updMyVc, State.vc_updVc, if_neg hk]
  · rcases mem_csrKeeps_cases q hq with ⟨d, hd, rfl⟩ | ⟨d, hd, rfl⟩ | ⟨d, hd, rfl⟩
    · rw [State.csrRead_slotCsr _ d hd, State.csrRead_slotCsr _ d hd]; rfl
    · rw [State.csrRead_vcCsr _ d hd, State.csrRead_vcCsr _ d hd, State.myVc_updMyVc, vcCsr_get_put_ne w _ c hc d hd hne]
    · rw [State.csrRead_coreCsr _ d hd, State.csrRead_coreCsr _ d hd]
      exact congrArg (fun g => d.get (u.core g)) hplace

theorem csrPut_coreCsr (u : State) (w : Word) {c : CsrField PCore} (hc : c ∈ coreCsrs) :
    CsrPut u (u.csrWrite c.addr.toNat w) (c.addr, c.mask) w := by
  rw [u.csrWrite_coreCsr w c hc]
  have hcore : (u.updCore (u.coreOf u.vk) (c.put w)).core (u.coreOf u.vk) = c.put w (u.core (u.coreOf u.vk)) := by
    rw [State.core_updCore, if_pos rfl]
  refine ⟨?_, rfl, fun _ _ => rfl, fun _ _ => rfl, rfl, fun q hq hne _ => ?_⟩
  · rw [State.csrRead_coreCsr _ c hc]
    exact (congrArg c.get hcore).trans (coreCsr_get_put w _ c hc)
  · rcases mem_csrKeeps_cases q hq with ⟨d, hd, rfl⟩ | ⟨d, hd, rfl⟩ | ⟨d, hd, rfl⟩
    · rw [State.csrRead_slotCsr _ d hd, State.csrRead_slotCsr _ d hd]; rfl
    · rw [State.csrRead_vcCsr _ d hd, State.csrRead_vcCsr _ d hd]; rfl
    · rw [State.csrRead_coreCsr _ d hd, State.csrRead_coreCsr _ d hd]
      exact (congrArg d.get hcore).trans (coreCsr_get_put_ne w _ c hc d hd hne)

theorem csrPut_csrWrite {u : State} (w : Word) {p : BitVec 12 × Word} (hp : p ∈ csrKeeps)
    (hf : p.1 = 0x802 → u.myVc.flagCyc ≠ u.cycOf u.vk + 1) : CsrPut u (u.csrWrite p.1.toNat w) p w := by
  rcases mem_csrKeeps_cases p hp with ⟨c, hc, rfl⟩ | ⟨c, hc, rfl⟩ | ⟨c, hc, rfl⟩
  · exact csrPut_slotCsr u w hc
  · exact csrPut_vcCsr w hc hf
  · exact csrPut_coreCsr u w hc

/-- The CSRs of plain storage other than minstret read the same after a completion with a result. -/
theorem State.csrRead_result (s : State) (rd : XReg) (v : Word) : ∀ q ∈ csrKeeps, q.1 ≠ 0xB02 →
    (s.result rd v).csrRead q.1.toNat = s.csrRead q.1.toNat := by
  intro q hq hne
  rcases mem_csrKeeps_cases q hq with ⟨d, hd, rfl⟩ | ⟨d, hd, rfl⟩ | ⟨d, hd, rfl⟩
  · rw [State.csrRead_slotCsr _ d hd, State.csrRead_slotCsr _ d hd, State.me_result, slotCsr_get_retireAt_writeX _ _ _ _ d hd hne]
  · rw [State.csrRead_vcCsr _ d hd, State.csrRead_vcCsr _ d hd]; rfl
  · rw [State.csrRead_coreCsr _ d hd, State.csrRead_coreCsr _ d hd]; rfl

end Sys2Proof.Machine
end

section
/-! PROOFS. The CSR instructions, statement by statement. -/

namespace Sys2Proof.Machine

open Sys2Proof.Claim

/-! A CSR instruction on a CSR of plain storage. -/

/-- The state t is s after a CSR instruction has put the old value of p in x[rd] and written w to it. -/
structure CsrDone (s t : State) (rd : XReg) (p : BitVec 12 × Word) (w : Word) : Prop where
  read : t.csrRead p.1.toNat = w &&& p.2
  pc : t.me.pc = s.me.pc + 4
  x : ∀ r, t.x r = if r = rd ∧ rd ≠ 0 then s.csrRead p.1.toNat else s.x r
  f : ∀ r, t.f r = s.f r
  mode : t.me.mode = s.me.mode
  st : t.me.st = s.me.st
  h : t.me.h = s.me.h
  segbase : t.me.segbase = s.me.segbase
  seglim : t.me.seglim = s.me.seglim
  others : ∀ k, k ≠ s.cur → t.slot k = s.slot k
  vcs : ∀ k, k ≠ s.vk → t.vc k = s.vc k
  rest : { t with slots := s.slots, vcs := s.vcs, cores := s.cores } = s
  frame : ∀ q ∈ csrKeeps, q.1 ≠ p.1 → (p.1.toNat ≤ 3 → 3 < q.1.toNat) → q.1 ≠ 0xB02 → t.csrRead q.1.toNat = s.csrRead q.1.toNat

/-- A completion with the old value, then the write of the new one. -/
theorem CsrDone.of_did_of_put {s u t : State} {rd : XReg} {p : BitVec 12 × Word} {w : Word}
    (hu : Did s u rd (s.csrRead p.1.toNat) (s.me.pc + 4)) (ht : CsrPut u t p w)
    (hread : ∀ q ∈ csrKeeps, q.1 ≠ 0xB02 → u.csrRead q.1.toNat = s.csrRead q.1.toNat) : CsrDone s t rd p w := by
  have hcur : u.cur = s.cur := by rw [← hu.rest]
  have hvcs : u.vcs = s.vcs := by rw [← hu.rest]
  have hvk : u.vk = s.vk := congrArg (· / 16) hcur
  have hx (r : XReg) : t.x r = u.x r := by unfold State.x; rw [← ht.me]; rfl
  exact {
    read := ht.read
    pc := (show t.me.pc = u.me.pc by rw [← ht.me]).trans hu.pc
    x := fun r => (hx r).trans (hu.x r)
    f := fun r => (show t.f r = u.f r by unfold State.f; rw [← ht.me]; rfl).trans (by unfold State.f; rw [← hu.slot]; rfl)
    mode := (show t.me.mode = u.me.mode by rw [← ht.me]).trans (by rw [← hu.slot])
    st := (show t.me.st = u.me.st by rw [← ht.me]).trans (by rw [← hu.slot])
    h := (show t.me.h = u.me.h by rw [← ht.me]).trans (by rw [← hu.slot])
    segbase := (show t.me.segbase = u.me.segbase by rw [← ht.me]).trans (by rw [← hu.slot])
    seglim := (show t.me.seglim = u.me.seglim by rw [← ht.me]).trans (by rw [← hu.slot])
    others := fun k hk => (ht.others k (hcur ▸ hk)).trans (hu.others k hk)
    vcs := fun k hk => (ht.vcs k (hvk ▸ hk)).trans (by rw [State.vc, hvcs]; rfl)
    rest := (show { t with slots := s.slots, vcs := s.vcs, cores := s.cores } =
        { u with slots := s.slots, vcs := s.vcs, cores := s.cores } by rw [← ht.rest]).trans (by rw [← hu.rest])
    frame := fun q hq hne hfl h2 => (ht.frame q hq hne hfl).trans (hread q hq h2) }

/-- A CSR instruction that writes w to a CSR of plain storage which its mode reaches. -/
theorem State.csrDone_csrOp {s : State} {p : BitVec 12 × Word} (hp : p ∈ csrKeeps) (hm : s.me.mode = .m ∨ p.1.extractLsb' 8 2 = 0)
    (hf : p.1 = 0x802 → s.myVc.flagCyc ≠ s.cycOf s.vk + 1) (i : Instr) (rd : XReg) (reads : Bool) (f : Word → Word) :
    CsrDone s (s.csrOp i rd p.1 reads (some f)) rd p (f (s.csrRead p.1.toNat)) := by
  rw [State.csrOp_of_write (State.csrOk_of_mem_csrKeeps hp hm reads true)]
  exact .of_did_of_put (s.did_result rd _) (csrPut_csrWrite _ hp hf) (s.csrRead_result rd _)

/-- The clauses on the CSRs of plain storage. -/
theorem csrKeeps_access (s : State) (rd rs1 : XReg) (u : BitVec 5) {p : BitVec 12 × Word} (hp : p ∈ csrKeeps)
    (hm : s.me.mode = .m ∨ p.1.extractLsb' 8 2 = 0) (hf : p.1 = 0x802 → s.myVc.flagCyc ≠ s.cycOf s.vk + 1) :
    let old := s.csrRead p.1.toNat
    let done := fun (i : Instr) (w : Word) => ∃ t, exec i s = .next t ∧ CsrDone s t rd p w
    done (.csrrw rd rs1 p.1) (s.x rs1) ∧ done (.csrrwi rd u p.1) (u.setWidth 64) ∧
    (rs1 ≠ 0 → done (.csrrs rd rs1 p.1) (old ||| s.x rs1) ∧ done (.csrrc rd rs1 p.1) (old &&& ~~~ s.x rs1)) ∧
    (u ≠ 0 → done (.csrrsi rd u p.1) (old ||| u.setWidth 64) ∧ done (.csrrci rd u p.1) (old &&& ~~~ (u.setWidth 64))) := by
  intro old done
  have hd (i : Instr) (reads : Bool) (f : Word → Word) (he : exec i s = .next (s.csrOp i rd p.1 reads (some f))) : done i (f old) :=
    ⟨_, he, State.csrDone_csrOp hp hm hf i rd reads f⟩
  have hset {r : BitVec 5} (h : r ≠ 0) (i : Instr) (f : Word → Word)
      (he : exec i s = .next (s.csrOp i rd p.1 true (if r == 0 then none else some f))) : done i (f old) :=
    hd i true f (he.trans (congrArg (fun new => Host.Outcome.next (s.csrOp i rd p.1 true new)) (if_neg (by simpa using h))))
  exact ⟨hd _ _ (fun _ => s.x rs1) rfl, hd _ _ (fun _ => u.setWidth 64) rfl,
    fun h => ⟨hset h _ (· ||| s.x rs1) rfl, hset h _ (· &&& ~~~ s.x rs1) rfl⟩,
    fun h => ⟨hset h _ (· ||| u.setWidth 64) rfl, hset h _ (· &&& ~~~ (u.setWidth 64)) rfl⟩⟩

/-- A set or clear of x0 or 0 is a read. -/
theorem State.did_csrrs_x0 {s : State} {a : BitVec 12} (rd : XReg) (h : s.csrOk a.toNat true false = true) :
    ∃ t, exec (.csrrs rd 0 a) s = .next t ∧ Did s t rd (s.csrRead a.toNat) (s.me.pc + 4) :=
  ⟨_, congrArg Host.Outcome.next (State.csrOp_of_read h), s.did_result rd _⟩

theorem State.did_csrrci_zero {s : State} {a : BitVec 12} (rd : XReg) (h : s.csrOk a.toNat true false = true) :
    ∃ t, exec (.csrrci rd 0 a) s = .next t ∧ Did s t rd (s.csrRead a.toNat) (s.me.pc + 4) :=
  ⟨_, congrArg Host.Outcome.next (State.csrOp_of_read h), s.did_result rd _⟩

/-! Flags raised in the cycle of a write of mflags (R148). -/

theorem VCore.writeFlags_of_eq {v : VCore} {cyc : Nat} (h : v.flagCyc = cyc + 1) (w : BitVec 5) :
    v.writeFlags cyc w = { v with mflags := w ||| v.flagNew } := by
  simp [VCore.writeFlags, h]

theorem State.vcDone_csrrw_mflags {s : State} (h : s.myVc.flagCyc = s.cycOf s.vk + 1) (rs1 : XReg) :
    ∃ t, exec (.csrrw 0 rs1 0x802) s = .next t ∧ VcDone s t { s.myVc with mflags := (s.x rs1).setWidth 5 ||| s.myVc.flagNew } 0 0 := by
  have hok : s.csrOk (0x802 : BitVec 12).toNat false true = true := by simp [State.csrOk, csrClass]
  refine ⟨_, congrArg Host.Outcome.next (State.csrOp_of_write hok), ?_⟩
  have hput : (s.result 0 (s.csrRead (0x802 : BitVec 12).toNat)).csrWrite (0x802 : BitVec 12).toNat (s.x rs1) =
      s.retire.updMyVc (fun v => { v with mflags := (s.x rs1).setWidth 5 ||| v.flagNew }) := by
    rw [State.result_x0]
    exact congrArg (s.retire.setVc s.vk) (VCore.writeFlags_of_eq h _)
  have hd := s.did_retire
  rw [hput]
  exact {
    vc := State.myVc_updMyVc ..
    vcs := fun k hk => by rw [State.updMyVc, State.vc_updVc, if_neg (show k ≠ s.retire.vk from hk)]; rfl
    x := hd.x
    pc := hd.pc
    hold := hd.hold
    arrived := hd.arrived
    slot := by rw [show (s.retire.updMyVc _).me = s.me.retireAt (s.me.pc + 4) from s.me_retire]; rfl
    others := fun k hk => by
      rw [show (s.retire.updMyVc _).slot k = s.slot k from State.slot_retire_ne s hk]
    rest := rfl }

/-! Accesses that are not allowed. -/

theorem trapped_csrrw_of_not_ok {s : State} {rd rs1 : XReg} {a : BitVec 12} (h : s.csrOk a.toNat (rd != 0) true = false) :
    ∃ t w, exec (.csrrw rd rs1 a) s = .next t ∧ encode (.csrrw rd rs1 a) = some w ∧ Trapped s t 2 (w.setWidth 64) s.me.pc :=
  ⟨_, _, congrArg Host.Outcome.next (State.csrOp_of_not_ok h), rfl, s.trapped_illegalI rfl⟩

/-- A set or clear writes unless its operand is x0 or 0. -/
theorem isSome_csrSet (r : BitVec 5) (f : Word → Word) : (if (r == 0) = true then none else some f).isSome = (r != 0) := by
  unfold bne; cases r == 0 <;> rfl

theorem trapped_csrrs_of_not_ok {s : State} {rd rs1 : XReg} {a : BitVec 12} (h : s.csrOk a.toNat true (rs1 != 0) = false) :
    ∃ t w, exec (.csrrs rd rs1 a) s = .next t ∧ encode (.csrrs rd rs1 a) = some w ∧ Trapped s t 2 (w.setWidth 64) s.me.pc :=
  ⟨_, _, congrArg Host.Outcome.next 
    (State.csrOp_of_not_ok ((congrArg (s.csrOk a.toNat true) (isSome_csrSet rs1 _)).trans h)), rfl, s.trapped_illegalI rfl⟩

theorem State.csrOk_of_uMode {s : State} {a : Nat} {ro : Bool} (hm : s.me.mode = .u) (hc : csrClass a = .csr true ro) (reads writes : Bool) :
    s.csrOk a reads writes = false := by
  simp [State.csrOk, hc, hm]

theorem State.csrOk_write_of_readOnly (s : State) {a : Nat} {m : Bool} (hc : csrClass a = .csr m true) (reads : Bool) :
    s.csrOk a reads true = false := by
  simp [State.csrOk, hc]

theorem State.csrOk_of_absent (s : State) {a : Nat} (hc : csrClass a = .absent) (reads writes : Bool) :
    s.csrOk a reads writes = false := by
  simp [State.csrOk, hc]

/-- The clauses on illegal accesses. -/
theorem csr_illegal (s : State) (rd rs1 : XReg) (a : BitVec 12) :
    (s.me.mode = .u → a ∈ ([0x300, 0x304, 0x305, 0x340, 0x341, 0x342, 0x343, 0x7C0, 0x7C1, 0x7C2, 0xB00, 0xF14] : List (BitVec 12)) →
      ∃ t w, exec (.csrrw rd rs1 a) s = .next t ∧ encode (.csrrw rd rs1 a) = some w ∧ Trapped s t 2 (w.setWidth 64) s.me.pc) ∧
    (a ∈ ([0xC00, 0xC01, 0xC02, 0xCC0, 0xCC1, 0xF12, 0xF13, 0xF14] : List (BitVec 12)) →
      ∃ t w, exec (.csrrw rd rs1 a) s = .next t ∧ encode (.csrrw rd rs1 a) = some w ∧ Trapped s t 2 (w.setWidth 64) s.me.pc) ∧
    (csrClass a.toNat = .absent →
      ∃ t w, exec (.csrrs rd rs1 a) s = .next t ∧ encode (.csrrs rd rs1 a) = some w ∧ Trapped s t 2 (w.setWidth 64) s.me.pc) := by
  have hM : ∀ a ∈ ([0x300, 0x304, 0x305, 0x340, 0x341, 0x342, 0x343, 0x7C0, 0x7C1, 0x7C2, 0xB00, 0xF14] : List (BitVec 12)),
      ∃ ro, csrClass a.toNat = .csr true ro := by
    simp only [List.forall_mem_cons]
    exact ⟨⟨_, rfl⟩, ⟨_, rfl⟩, ⟨_, rfl⟩, ⟨_, rfl⟩, ⟨_, rfl⟩, ⟨_, rfl⟩, ⟨_, rfl⟩, ⟨_, rfl⟩, ⟨_, rfl⟩, ⟨_, rfl⟩, ⟨_, rfl⟩, ⟨_, rfl⟩,
      List.forall_mem_nil _⟩
  have hR : ∀ a ∈ ([0xC00, 0xC01, 0xC02, 0xCC0, 0xCC1, 0xF12, 0xF13, 0xF14] : List (BitVec 12)),
      ∃ m, csrClass a.toNat = .csr m true := by
    simp only [List.forall_mem_cons]
    exact ⟨⟨_, rfl⟩, ⟨_, rfl⟩, ⟨_, rfl⟩, ⟨_, rfl⟩, ⟨_, rfl⟩, ⟨_, rfl⟩, ⟨_, rfl⟩, ⟨_, rfl⟩, List.forall_mem_nil _⟩
  refine ⟨fun hm ha => ?_, fun ha => ?_, fun hc => trapped_csrrs_of_not_ok (s.csrOk_of_absent hc true _)⟩
  · obtain ⟨ro, hc⟩ := hM a ha
    exact trapped_csrrw_of_not_ok (State.csrOk_of_uMode hm hc _ true)
  · obtain ⟨m, hc⟩ := hR a ha
    exact trapped_csrrw_of_not_ok (s.csrOk_write_of_readOnly hc _)

end Sys2Proof.Machine
end

section
/-! PROOFS. What the CSRs read. -/

namespace Sys2Proof.Machine

open Sys2Proof.Claim

/-! Reads by class of address. -/

/-- A read from either mode. -/
theorem State.reads_user (s : State) (rd : XReg) {a : BitVec 12} (h : userCsr a.toNat = true) {w : Word} (hw : s.csrRead a.toNat = w) :
    ∃ t, exec (.csrrs rd 0 a) s = .next t ∧ Did s t rd w (s.me.pc + 4) := by
  rw [← hw]; exact State.did_csrrs_x0 rd (s.csrOk_read_of_user h)

/-- A read in M mode. -/
theorem State.reads_mMode {s : State} (hm : s.me.mode = .m) (rd : XReg) {a : BitVec 12} {m ro : Bool} (h : csrClass a.toNat = .csr m ro)
    {w : Word} (hw : s.csrRead a.toNat = w) : ∃ t, exec (.csrrs rd 0 a) s = .next t ∧ Did s t rd w (s.me.pc + 4) := by
  rw [← hw]; exact State.did_csrrs_x0 rd (State.csrOk_of_mMode hm h (by simp) true)

/-! CSRs that read as zero. -/

/-- Addresses whose CSR holds something. -/
def heldCsrs : List Nat :=
  [0x001, 0x002, 0x003, 0xC00, 0xC01, 0xC02, 0xCC0, 0xCC1, 0xCC2, 0xCC3, 0xCC4, 0xCC5, 0xCC6, 0xCC7, 0x800, 0x801, 0x802, 0x803, 0x804,
   0x7C0, 0x7C1, 0x7C2, 0x7C3, 0x7C4, 0x7C5, 0x7C6, 0x7C7, 0xF12, 0xF13, 0xF14, 0x300, 0x301, 0x304, 0x344, 0x305, 0x306, 0x340, 0x341,
   0x342, 0x343, 0xB00, 0xB02]

theorem State.csrRead_of_not_held (s : State) {a : Nat} (h : a ∉ heldCsrs) : s.csrRead a = 0 := by
  unfold State.csrRead
  extract_lets
  split
  case h_43 => rfl
  all_goals exact absurd (by decide) h

theorem userCsr_of_unlisted {n : Nat} (h : (0xC03 ≤ n ∧ n ≤ 0xC1F) ∨ (0xCC8 ≤ n ∧ n ≤ 0xCCF) ∨ (0x805 ≤ n ∧ n ≤ 0x80F)) :
    userCsr n = true ∧ n ∉ heldCsrs := by
  rcases h with ⟨h1, h2⟩ | ⟨h1, h2⟩ | ⟨h1, h2⟩ <;> interval_cases n <;> exact ⟨rfl, by decide⟩

theorem csrClass_of_unlisted {n : Nat}
    (h : n = 0x320 ∨ (0x323 ≤ n ∧ n ≤ 0x33F) ∨ (0xB03 ≤ n ∧ n ≤ 0xB1F) ∨ (0x7C8 ≤ n ∧ n ≤ 0x7CF)) :
    csrClass n = .csr true false ∧ n ∉ heldCsrs := by
  rcases h with rfl | ⟨h1, h2⟩ | ⟨h1, h2⟩ | ⟨h1, h2⟩
  · exact ⟨rfl, by decide⟩
  all_goals interval_cases n <;> exact ⟨rfl, by decide⟩

theorem toNat_ofNat_csr {n : Nat} (h : n < 4096) : (BitVec.ofNat 12 n).toNat = n := by
  rw [BitVec.toNat_ofNat]; exact Nat.mod_eq_of_lt h

/-! Values put together from fields. -/

/-- A field above another: the number of both. -/
theorem setWidth_append_eq_ofNat {m n : Nat} (x : BitVec m) (y : BitVec n) :
    (x ++ y).setWidth 64 = BitVec.ofNat 64 (y.toNat + 2 ^ n * x.toNat) := by
  apply BitVec.eq_of_toNat_eq
  rw [BitVec.toNat_setWidth, BitVec.toNat_append, ← Nat.shiftLeft_add_eq_or_of_lt y.isLt, BitVec.toNat_ofNat, Nat.shiftLeft_eq,
    Nat.add_comm, Nat.mul_comm]

/-- Bits lo and up of a number as a word. -/
theorem extractLsb'_ofNat_word (N : Nat) {lo len : Nat} (h : lo + len ≤ 64) :
    (BitVec.ofNat 64 N).extractLsb' lo len = BitVec.ofNat len (N / 2 ^ lo) := by
  apply BitVec.eq_of_getLsbD_eq
  intro i hi
  rw [BitVec.getLsbD_extractLsb', BitVec.getLsbD_ofNat, BitVec.getLsbD_ofNat, Nat.testBit_div_two_pow, Nat.add_comm i lo]
  simp [hi, show lo + i < 64 by omega]

/-! The groups of a virtual core (Table 01.4). -/

theorem groupsWord_succ (i : Nat) (l : List Nat) : groupsWord (i + 1) l = 2 ^ 16 * groupsWord i l := by
  induction l generalizing i with
  | nil => rfl
  | cons g t ih => rw [groupsWord, groupsWord, ih]; ring

/-- Sixteen bits for each group: its index and the bit that says it is there. -/
theorem groupsWord_digit (l : List Nat) (h : ∀ g ∈ l, g < 256) (i : Nat) :
    groupsWord 0 l / 2 ^ (16 * i) % 2 ^ 16 = match l[i]? with
      | some g => 0x8000 + g
      | none => 0 := by
  induction l generalizing i with
  | nil => simp [groupsWord]
  | cons g t ih =>
    have hg : g < 256 := h g (by simp)
    rw [groupsWord, groupsWord_succ]
    cases i with
    | zero =>
      show ((g + 0x8000) * 1 + 2 ^ 16 * groupsWord 0 t) / 1 % 2 ^ 16 = 0x8000 + g
      omega
    | succ i =>
      have hlow : ((g + 0x8000) * 2 ^ (16 * 0) + 2 ^ 16 * groupsWord 0 t) / 2 ^ 16 = groupsWord 0 t := by omega
      rw [show 16 * (i + 1) = 16 + 16 * i by ring, pow_add, ← Nat.div_div_eq_div_mul, hlow, ih (fun g hg => h g (by simp [hg]))]
      simp

/-! The engine bindings of a virtual core (Table 01.5). -/

/-- The byte of engine e in engbinds. -/
def bindByte (m : FMap Nat) (e : Nat) : Nat :=
  match FMap.get? m e with
  | some j => 0x80 + j
  | none => 0

theorem bindByte_cons (p : Nat × Nat) (m : FMap Nat) (e : Nat) : bindByte (p :: m) e = if p.1 = e then 0x80 + p.2 else bindByte m e := by
  unfold bindByte
  rw [FMap.get?_cons]
  by_cases h : p.1 = e <;> simp [h]

theorem bindByte_lt {m : FMap Nat} (h : ∀ p ∈ m, p.2 < 16) (e : Nat) : bindByte m e < 256 := by
  induction m with
  | nil => simp [bindByte, FMap.get?_nil]
  | cons p m ih =>
    have hp := h p (by simp)
    have := ih (fun q hq => h q (by simp [hq]))
    rw [bindByte_cons]; split <;> omega

theorem bindByte_of_not_mem {m : FMap Nat} {e : Nat} (h : e ∉ m.map Prod.fst) : bindByte m e = 0 := by
  induction m with
  | nil => rfl
  | cons p m ih =>
    simp only [List.map_cons, List.mem_cons, not_or] at h
    rw [bindByte_cons, if_neg (Ne.symm h.1), ih h.2]

/-- The word is the four bytes of the engines. -/
theorem pack_binds {m : FMap Nat} (hd : (m.map Prod.fst).Nodup) (hb : ∀ p ∈ m, p.1 < 4) :
    pack (m.map (fun p => (8 * p.1, p.2 + 0x80))) =
      bindByte m 0 + 2 ^ 8 * bindByte m 1 + 2 ^ 16 * bindByte m 2 + 2 ^ 24 * bindByte m 3 := by
  induction m with
  | nil => rfl
  | cons p m ih =>
    rw [List.map_cons, List.nodup_cons] at hd
    have hnew := bindByte_of_not_mem hd.1
    have hp : p.1 < 4 := hb p (by simp)
    rw [List.map_cons, pack, ih hd.2 (fun q hq => hb q (by simp [hq]))]
    simp only [bindByte_cons]
    obtain ⟨e, j⟩ := p
    simp only at hnew hp ⊢
    interval_cases e <;> simp [hnew] <;> omega

/-! The values, table by table. -/

/-- The registers of the slot and of the virtual core that either mode reads (Table 01.2). -/
theorem reads_storage (s : State) (rd : XReg) :
    let reads := fun (a : BitVec 12) (w : Word) => ∃ t, exec (.csrrs rd 0 a) s = .next t ∧ Did s t rd w (s.me.pc + 4)
    reads 0x001 (s.me.fflags.setWidth 64) ∧ reads 0x002 (s.me.frm.setWidth 64) ∧
    reads 0x003 (BitVec.ofNat 64 (s.me.fflags.toNat + 32 * s.me.frm.toNat)) ∧ reads 0x800 (s.myVc.fitness.setWidth 64) ∧
    reads 0x801 (s.myVc.evalcnt.setWidth 64) ∧ reads 0x802 (s.myVc.mflags.setWidth 64) ∧ reads 0x803 (s.myVc.smring.setWidth 64) ∧
    reads 0x804 (s.myVc.evring.setWidth 64) :=
  ⟨s.reads_user rd rfl rfl, s.reads_user rd rfl rfl, s.reads_user rd rfl (setWidth_append_eq_ofNat s.me.frm s.me.fflags),
    s.reads_user rd rfl rfl, s.reads_user rd rfl rfl, s.reads_user rd rfl rfl, s.reads_user rd rfl rfl, s.reads_user rd rfl rfl⟩

theorem State.gshape_eq (s : State) (vk : Nat) : s.gshape vk =
    let v := s.vc vk
    let g := s.gang v.gid
    BitVec.ofNat 64 (v.vcid % g.gw + 2 ^ 8 * (v.vcid / g.gw) + 2 ^ 16 * g.gw + 2 ^ 24 * g.gh + 2 ^ 32 * v.fold + 2 ^ 34 * v.fidx +
      2 ^ 40 * g.own) := by
  refine congrArg (BitVec.ofNat 64) ?_
  simp only [pack]; ring

/-- The package as registers report it (Tables 01.2 to 01.4). -/
theorem reads_position (s : State) (rd : XReg) :
    let v := s.myVc
    let g := s.gang v.gid
    let d := s.coreOf s.vk / 256
    let num := fun (a : BitVec 12) (n : Nat) =>
      ∃ t, exec (.csrrs rd 0 a) s = .next t ∧ Did s t rd (BitVec.ofNat 64 n) (s.me.pc + 4)
    num 0xCC0 v.vcid ∧ num 0xCC1 (s.coreOf s.vk) ∧
    num 0xCC2 (v.vcid % g.gw + 2 ^ 8 * (v.vcid / g.gw) + 2 ^ 16 * g.gw + 2 ^ 24 * g.gh + 2 ^ 32 * v.fold + 2 ^ 34 * v.fidx + 2 ^ 40 * g.own) ∧
    num 0xCC3 (s.ix + 16 * (v.fidx * (16 / 2 ^ v.fold) + s.ix)) ∧
    num 0xCC4 ((if d < 4 then 0 else 1) + 2 * (d % 4) + 8 * d + 64 * (if (s.die d).bringup then 1 else 0)) ∧
    num 0xCC7 (if d < 4 then 7 else 0) := by
  intro v g d num
  have hF : (isF d = true) = (d < 4) := by simp [isF]
  refine ⟨s.reads_user rd rfl rfl, s.reads_user rd rfl rfl, s.reads_user rd rfl (s.gshape_eq s.vk), s.reads_user rd rfl rfl,
    s.reads_user rd rfl ?_, s.reads_user rd rfl ?_⟩
  · show BitVec.ofNat 64 (pack [(0, if isF d then 0 else 1), (1, d % 4), (3, d), (6, bn (s.die d).bringup)]) = _
    simp only [pack, bn, hF]
    refine congrArg (BitVec.ofNat 64) ?_
    ring
  · show (if isF d then (7 : Word) else 0) = _
    simp only [hF]
    split <;> rfl

theorem reads_groups (s : State) (rd : XReg) (h : ∀ k ∈ s.myVc.groups, k < 256) :
    ∃ w, (∃ t, exec (.csrrs rd 0 0xCC5) s = .next t ∧ Did s t rd w (s.me.pc + 4)) ∧
      ∀ i < 4, w.extractLsb' (16 * i) 16 = match s.myVc.groups[i]? with
        | some k => BitVec.ofNat 16 (0x8000 + k)
        | none => 0 := by
  refine ⟨_, s.reads_user rd rfl rfl, fun i hi => ?_⟩
  show (BitVec.ofNat 64 (groupsWord 0 s.myVc.groups)).extractLsb' (16 * i) 16 = _
  rw [extractLsb'_ofNat_word _ (by omega)]
  apply BitVec.eq_of_toNat_eq
  rw [BitVec.toNat_ofNat, groupsWord_digit _ h]
  cases hk : s.myVc.groups[i]? with
  | none => rfl
  | some k =>
    have := h k (List.mem_of_getElem? hk)
    simp only [BitVec.toNat_ofNat]; omega

theorem reads_binds (s : State) (rd : XReg) (hd : (s.myVc.binds.map Prod.fst).Nodup) (hb : ∀ p ∈ s.myVc.binds, p.1 < 4 ∧ p.2 < 16) :
    ∃ w, (∃ t, exec (.csrrs rd 0 0xCC6) s = .next t ∧ Did s t rd w (s.me.pc + 4)) ∧ w.toNat < 2 ^ 32 ∧
      ∀ e < 4, w.extractLsb' (8 * e) 8 = match FMap.get? s.myVc.binds e with
        | some j => BitVec.ofNat 8 (0x80 + j)
        | none => 0 := by
  have hbyte := bindByte_lt (m := s.myVc.binds) (fun p hp => (hb p hp).2)
  have h0 := hbyte 0
  have h1 := hbyte 1
  have h2 := hbyte 2
  have h3 := hbyte 3
  have hpack := pack_binds hd (fun p hp => (hb p hp).1)
  refine ⟨_, s.reads_user rd rfl rfl, ?_, fun e he => ?_⟩
  · show (BitVec.ofNat 64 (pack _)).toNat < _
    rw [hpack, BitVec.toNat_ofNat]; omega
  · show (BitVec.ofNat 64 (pack _)).extractLsb' (8 * e) 8 = _
    have hmatch : (match FMap.get? s.myVc.binds e with
        | some j => BitVec.ofNat 8 (0x80 + j)
        | none => 0) = BitVec.ofNat 8 (bindByte s.myVc.binds e) := by
      unfold bindByte; cases FMap.get? s.myVc.binds e <;> rfl
    rw [hmatch, extractLsb'_ofNat_word _ (by omega), hpack]
    apply BitVec.eq_of_toNat_eq
    simp only [BitVec.toNat_ofNat]
    interval_cases e <;> omega

theorem reads_unlisted (s : State) (rd : XReg) {n : Nat}
    (h : (0xC03 ≤ n ∧ n ≤ 0xC1F) ∨ (0xCC8 ≤ n ∧ n ≤ 0xCCF) ∨ (0x805 ≤ n ∧ n ≤ 0x80F)) :
    ∃ t, exec (.csrrs rd 0 (BitVec.ofNat 12 n)) s = .next t ∧ Did s t rd (BitVec.ofNat 64 0) (s.me.pc + 4) := by
  obtain ⟨hu, hz⟩ := userCsr_of_unlisted h
  have hn : (BitVec.ofNat 12 n).toNat = n := toNat_ofNat_csr (by omega)
  exact s.reads_user rd (by rw [hn]; exact hu) (by rw [hn]; exact s.csrRead_of_not_held hz)

/-- Whether cycle, time or instret may be read is the mode's and mcounteren's to say (R98). -/
theorem State.csrOk_counter (s : State) {n : Nat} (hn : n < 3) :
    s.csrOk (0xC00 + n) true false = (s.me.mode == .m || s.me.mcounteren.getLsbD n) := by
  interval_cases n <;> simp [State.csrOk, csrClass, counterOk]

theorem State.csrRead_counter (s : State) {n : Nat} (hn : n < 3) :
    s.csrRead (0xC00 + n) = [s.me.mcycle, s.time, s.me.minstret].getD n 0 := by
  interval_cases n <;> rfl

theorem reads_counter (s : State) (rd : XReg) {n : Nat} (hn : n < 3) (h : s.me.mode = .m ∨ s.me.mcounteren.getLsbD n = true) :
    ∃ t, exec (.csrrs rd 0 (BitVec.ofNat 12 (0xC00 + n))) s = .next t ∧
      Did s t rd ([s.me.mcycle, s.time, s.me.minstret].getD n 0) (s.me.pc + 4) := by
  have ha : (BitVec.ofNat 12 (0xC00 + n)).toNat = 0xC00 + n := toNat_ofNat_csr (by omega)
  have hok : s.csrOk (BitVec.ofNat 12 (0xC00 + n)).toNat true false = true := by
    rw [ha, s.csrOk_counter hn]; simpa using h
  have hd := State.did_csrrs_x0 rd hok
  rwa [ha, s.csrRead_counter hn] at hd

theorem trapped_counter (s : State) (rd : XReg) {n : Nat} (hn : n < 3) (hm : s.me.mode = .u) (h : s.me.mcounteren.getLsbD n = false) :
    ∃ t w, exec (.csrrs rd 0 (BitVec.ofNat 12 (0xC00 + n))) s = .next t ∧ encode (.csrrs rd 0 (BitVec.ofNat 12 (0xC00 + n))) = some w ∧
      Trapped s t 2 (w.setWidth 64) s.me.pc := by
  have hok : s.csrOk (BitVec.ofNat 12 (0xC00 + n)).toNat true false = false := by
    rw [toNat_ofNat_csr (by omega), s.csrOk_counter hn, h, hm]; rfl
  exact trapped_csrrs_of_not_ok hok

/-- The registers that M mode alone reads (Table 03.5). -/
theorem reads_machine (s : State) (rd : XReg) (hm : s.me.mode = .m) :
    let v := s.myVc
    let d := s.coreOf s.vk / 256
    let reads := fun (a : BitVec 12) (w : Word) => ∃ t, exec (.csrrs rd 0 a) s = .next t ∧ Did s t rd w (s.me.pc + 4)
    let num := fun (a : BitVec 12) (n : Nat) => reads a (BitVec.ofNat 64 n)
    num 0xF11 0 ∧ num 0xF12 0xA08 ∧ num 0xF13 (if d < 4 then 0x0F01 else 0x0E01) ∧
    num 0xF14 (s.coreOf s.vk * 16 + (v.fidx * (16 / 2 ^ v.fold) + s.ix)) ∧ num 0xF15 0 ∧ num 0x301 0x8000000000901129 ∧
    num 0x304 (s.me.mie.toNat * 65536) ∧ num 0x344 (s.me.mip.toNat * 65536) ∧ reads 0x7C0 s.me.segbase ∧ reads 0x7C1 s.me.seglim ∧
    ∀ n, n = 0x320 ∨ (0x323 ≤ n ∧ n ≤ 0x33F) ∨ (0xB03 ≤ n ∧ n ≤ 0xB1F) ∨ (0x7C8 ≤ n ∧ n ≤ 0x7CF) → num (BitVec.ofNat 12 n) 0 := by
  intro v d reads num
  have hF : (isF d = true) = (d < 4) := by simp [isF]
  have hshift (x : BitVec 4) : (x ++ (0 : BitVec 16)).setWidth 64 = BitVec.ofNat 64 (x.toNat * 65536) := by
    rw [setWidth_append_eq_ofNat]; refine congrArg (BitVec.ofNat 64) ?_; simp [Nat.mul_comm]
  have rM {a : BitVec 12} {m ro : Bool} {w : Word} (hc : csrClass a.toNat = .csr m ro) (hw : s.csrRead a.toNat = w) : reads a w :=
    State.reads_mMode hm rd hc hw
  refine ⟨rM rfl rfl, rM rfl rfl, rM rfl ?_, rM rfl rfl, rM rfl rfl, rM rfl rfl, rM rfl (hshift _), rM rfl (hshift _), rM rfl rfl, rM rfl rfl,
    fun n hn => ?_⟩
  · show (if isF d then (0x0F01 : Word) else 0x0E01) = _
    simp only [hF]
    split <;> rfl
  · obtain ⟨hc, hz⟩ := csrClass_of_unlisted hn
    have ha : (BitVec.ofNat 12 n).toNat = n := toNat_ofNat_csr (by omega)
    exact rM (by rw [ha]; exact hc) (by rw [ha]; exact s.csrRead_of_not_held hz)

theorem csrValues : CsrValues := by
  intro s rd
  exact ⟨reads_storage s rd, reads_position s rd, reads_groups s rd, reads_binds s rd, fun n h => reads_unlisted s rd h,
    fun n hn => ⟨reads_counter s rd hn, trapped_counter s rd hn⟩, reads_machine s rd⟩

end Sys2Proof.Machine
end

section
/-! PROOFS. What a write leaves of the CSRs with fields of several kinds. -/

namespace Sys2Proof.Machine

open Sys2Proof.Claim

/-- A CSRRW that M mode may make: the completion with the old value, then the write. -/
theorem exec_csrrw_mMode {s : State} (hm : s.me.mode = .m) (rd rs1 : XReg) {a : BitVec 12} {m : Bool} (hc : csrClass a.toNat = .csr m false) :
    exec (.csrrw rd rs1 a) s = .next ((s.result rd (s.csrRead a.toNat)).csrWrite a.toNat (s.x rs1)) :=
  congrArg Host.Outcome.next (State.csrOp_of_write (State.csrOk_of_mMode hm hc rfl _))

/-- A change of the current slot that gives it back as it was leaves a completion. -/
theorem did_updMe_of_fixed {s u : State} {rd : XReg} {v p : Word} (h : Did s u rd v p) {g : Slot → Slot} (hg : g u.me = u.me) :
    Did s (u.updMe g) rd v p := by
  have hme : (u.updMe g).me = u.me := (u.me_updMe g).trans hg
  have hslot (k : Nat) : (u.updMe g).slot k = u.slot k := by
    by_cases hk : k = u.cur
    · subst hk; exact hme
    · exact State.slot_updMe_ne u g hk
  exact {
    x := fun r => by rw [State.x, hme]; exact h.x r
    pc := by rw [hme]; exact h.pc
    count := by rw [hme]; exact h.count
    hold := by rw [hme]; exact h.hold
    arrived := by rw [hme]; exact h.arrived
    slot := by rw [hme]; exact h.slot
    others := fun k hk => by rw [hslot]; exact h.others k hk
    rest := h.rest }

/-- A completion and then a change of the current slot that g takes back. -/
theorem did_result_updMe_updMe (s : State) (rd : XReg) (v : Word) {f g : Slot → Slot} (hg : g (f (s.result rd v).me) = (s.result rd v).me) :
    Did s (((s.result rd v).updMe f).updMe g) rd v (s.me.pc + 4) := by
  rw [State.updMe_updMe]; exact did_updMe_of_fixed (s.did_result rd v) hg

/-! mstatus (Table 03.6). -/

/-- The value of mstatus. -/
theorem Slot.mstatus_eq (sl : Slot) : sl.mstatus =
    BitVec.ofNat 64 ((if sl.mstMIE = true then 8 else 0) + (if sl.mstMPIE = true then 128 else 0) +
      (if sl.mstMPP = .m then 3 * 2 ^ 11 else 0) + 3 * 2 ^ 13 + 2 * 2 ^ 32 + 2 ^ 63) := by
  unfold Slot.mstatus
  cases sl.mstMIE <;> cases sl.mstMPIE <;> cases sl.mstMPP <;> rfl

theorem extractLsb'_11_2_eq_3 (w : Word) : (w.extractLsb' 11 2 == 0b11) = (w.getLsbD 11 && w.getLsbD 12) := by
  have h : ∀ x : BitVec 2, (x == 0b11) = (x.getLsbD 0 && x.getLsbD 1) := by decide
  rw [h, BitVec.getLsbD_extractLsb', BitVec.getLsbD_extractLsb']
  simp

/-- A write of mstatus. -/
def Slot.putStatus (w : Word) (sl : Slot) : Slot :=
  { sl with mstMIE := w.getLsbD 3, mstMPIE := w.getLsbD 7, mstMPP := if w.extractLsb' 11 2 == 0b11 then .m else .u }

theorem Slot.mstMPP_putStatus (w : Word) (sl : Slot) :
    (sl.putStatus w).mstMPP = .m ↔ w.getLsbD 11 = true ∧ w.getLsbD 12 = true := by
  unfold Slot.putStatus
  rw [extractLsb'_11_2_eq_3]
  cases w.getLsbD 11 <;> cases w.getLsbD 12 <;> simp

theorem csrrw_mstatus {s : State} (hm : s.me.mode = .m) (rd rs1 : XReg) : ∃ t, exec (.csrrw rd rs1 0x300) s = .next t ∧
    Did s (t.updMe (fun sl => { sl with mstMIE := s.me.mstMIE, mstMPIE := s.me.mstMPIE, mstMPP := s.me.mstMPP })) rd s.me.mstatus
      (s.me.pc + 4) ∧
    t.me.mstMIE = (s.x rs1).getLsbD 3 ∧ t.me.mstMPIE = (s.x rs1).getLsbD 7 ∧
    (t.me.mstMPP = .m ↔ (s.x rs1).getLsbD 11 = true ∧ (s.x rs1).getLsbD 12 = true) := by
  have hme : ((s.result rd s.me.mstatus).updMe (Slot.putStatus (s.x rs1))).me = (s.result rd s.me.mstatus).me.putStatus (s.x rs1) :=
    State.me_updMe ..
  refine ⟨(s.result rd s.me.mstatus).updMe (Slot.putStatus (s.x rs1)), exec_csrrw_mMode hm rd rs1 rfl,
    did_result_updMe_updMe s rd _ ?_, by rw [hme]; rfl, by rw [hme]; rfl, by rw [hme]; exact Slot.mstMPP_putStatus ..⟩
  rw [State.me_result]
  unfold Slot.writeX
  split <;> rfl

/-! The segment (R30). -/

theorem Slot.segbase_setSegment (sl : Slot) (base : Word) :
    (sl.setSegment base sl.seglim).segbase = if base.toNat + sl.seglim.toNat ≤ 0xF0000 then base else sl.segbase := by
  unfold Slot.setSegment; split <;> rfl

theorem Slot.seglim_setSegment (sl : Slot) (lim : Word) :
    (sl.setSegment sl.segbase lim).seglim = if sl.segbase.toNat + lim.toNat ≤ 0xF0000 then lim else sl.seglim := by
  unfold Slot.setSegment; split <;> rfl

theorem Slot.setSegment_rest_segbase {sl : Slot} {b : Word} (h : b = sl.segbase) (base : Word) :
    { sl.setSegment base sl.seglim with segbase := b } = sl := by
  subst h; unfold Slot.setSegment; split <;> rfl

theorem Slot.setSegment_rest_seglim {sl : Slot} {l : Word} (h : l = sl.seglim) (lim : Word) :
    { sl.setSegment sl.segbase lim with seglim := l } = sl := by
  subst h; unfold Slot.setSegment; split <;> rfl

theorem State.segbase_result (s : State) (rd : XReg) (v : Word) : (s.result rd v).me.segbase = s.me.segbase := by
  rw [← (s.did_result rd v).slot]

theorem State.seglim_result (s : State) (rd : XReg) (v : Word) : (s.result rd v).me.seglim = s.me.seglim := by
  rw [← (s.did_result rd v).slot]

theorem csrrw_segbase {s : State} (hm : s.me.mode = .m) (rd rs1 : XReg) : ∃ t, exec (.csrrw rd rs1 0x7C0) s = .next t ∧
    Did s (t.updMe (fun sl => { sl with segbase := s.me.segbase })) rd s.me.segbase (s.me.pc + 4) ∧
    t.me.segbase = if (s.x rs1 &&& 0xFF000).toNat + s.me.seglim.toNat ≤ 0xF0000 then s.x rs1 &&& 0xFF000 else s.me.segbase := by
  refine ⟨(s.result rd s.me.segbase).updMe (fun sl => sl.setSegment (s.x rs1 &&& 0xFF000) sl.seglim), exec_csrrw_mMode hm rd rs1 rfl,
    did_result_updMe_updMe s rd _ ?_, ?_⟩
  · exact Slot.setSegment_rest_segbase (s.segbase_result rd _).symm _
  · rw [State.me_updMe, Slot.segbase_setSegment, State.segbase_result, State.seglim_result]

theorem csrrw_seglim {s : State} (hm : s.me.mode = .m) (rd rs1 : XReg) : ∃ t, exec (.csrrw rd rs1 0x7C1) s = .next t ∧
    Did s (t.updMe (fun sl => { sl with seglim := s.me.seglim })) rd s.me.seglim (s.me.pc + 4) ∧
    t.me.seglim = if s.me.segbase.toNat + (s.x rs1 &&& 0xFF000).toNat ≤ 0xF0000 then s.x rs1 &&& 0xFF000 else s.me.seglim := by
  refine ⟨(s.result rd s.me.seglim).updMe (fun sl => sl.setSegment sl.segbase (s.x rs1 &&& 0xFF000)), exec_csrrw_mMode hm rd rs1 rfl,
    did_result_updMe_updMe s rd _ ?_, ?_⟩
  · exact Slot.setSegment_rest_seglim (s.seglim_result rd _).symm _
  · rw [State.me_updMe, Slot.seglim_setSegment, State.segbase_result, State.seglim_result]

/-! cmapwin (R323, Tables 13.3 to 13.5). -/

/-- What cmapwin shows above its index, on die d. -/
def State.cmapData (s : State) (d ix : Nat) : Nat :=
  if ix < 0x100 then s.position (d * 256 + ix)
  else if ix == 0x100 then s.orientation d
  else if ix == 0x101 then pack [(0, s.migQ.length), (16, s.migs.length)]
  else if 0x200 ≤ ix && ix < 0x240 then redirectData (FMap.get? (s.die d).redirs (ix - 0x200))
  else 0

theorem State.cmapwin_eq (s : State) (g : Nat) : s.cmapwin g =
    BitVec.ofNat 64 ((s.core g).cmapIdx.toNat + s.cmapData (g / 256) (s.core g).cmapIdx.toNat * 65536) := rfl

/-- The index of a core changes no position. -/
theorem State.position_updCore_cmapIdx (s : State) (c g : Nat) (x : BitVec 12) :
    (s.updCore c (fun p => { p with cmapIdx := x })).position g = s.position g := by
  have hcore : (s.updCore c (fun p => { p with cmapIdx := x })).core g =
      { s.core g with cmapIdx := ((s.updCore c (fun p => { p with cmapIdx := x })).core g).cmapIdx } := by
    rw [State.core_updCore]
    split
    · next e => rw [e]
    · rfl
  have hhosted : (s.updCore c (fun p => { p with cmapIdx := x })).hosted g = s.hosted g := rfl
  have hvc (k : Nat) : (s.updCore c (fun p => { p with cmapIdx := x })).vc k = s.vc k := rfl
  unfold State.position State.coreSt
  rw [hcore, hhosted]
  simp only [hvc]

/-- What cmapwin shows does not depend on the index that another access left. -/
theorem State.cmapData_updCore_cmapIdx (s : State) (c d ix : Nat) (x : BitVec 12) :
    (s.updCore c (fun p => { p with cmapIdx := x })).cmapData d ix = s.cmapData d ix := by
  unfold State.cmapData
  rw [State.position_updCore_cmapIdx]
  rfl

theorem State.cmapData_of_other (s : State) (d : Nat) {ix : Nat} (h1 : 0x101 < ix) (h2 : ix < 0x200 ∨ 0x240 ≤ ix) :
    s.cmapData d ix = 0 := by
  have h : ¬ (0x200 ≤ ix ∧ ix < 0x240) := by omega
  simp [State.cmapData, h, show ¬ ix < 0x100 by omega, show ix ≠ 0x100 by omega, show ix ≠ 0x101 by omega]

theorem State.cmapData_queue (s : State) (d : Nat) : s.cmapData d 0x101 = s.migQ.length + 2 ^ 16 * s.migs.length := by
  simp [State.cmapData, pack, Nat.mul_comm]

/-- Die 5, up and past its bring-up (Tables 13.1 and 13.4). -/
theorem State.cmapData_orientation_5 {s : State} (hup : (s.die 5).up = true) (hb : (s.die 5).bringup = false) :
    s.cmapData 5 0x100 = 0x0460FF41676B := by
  simp [State.cmapData, State.orientation, hup, hb, pack, bn, isF, partners]

theorem State.cmapData_redirect {s : State} {d ix : Nat} {r : Redirect} (h1 : 0x200 ≤ ix) (h2 : ix < 0x240)
    (h : FMap.get? (s.die d).redirs (ix - 0x200) = some r) :
    s.cmapData d ix = 1 + 2 * r.old + 2 ^ 12 * r.new + (if r.left = [] then 0 else 2 ^ 23) := by
  simp only [State.cmapData, h, h1, h2, redirectData, show ¬ ix < 0x100 by omega, show ¬ (ix == 0x100) = true by simp; omega,
    show ¬ (ix == 0x101) = true by simp; omega, decide_true, Bool.and_self, if_true, if_false, pack, bn]
  cases r.left <;> simp <;> ring

theorem State.position_of_absent {s : State} {g : Nat} (he : (s.core g).en = false) (hm : (s.core g).mig = false) : s.position g = 0 := by
  simp [State.position, State.coreSt, he, hm, pack, bn]

theorem State.position_of_free {s : State} {g : Nat} (he : (s.core g).en = true) (hr : (s.core g).reserved = false)
    (hh : s.hosted g = []) (hs : (s.core g).saving = []) (hm : (s.core g).mig = false) : s.position g = 3 := by
  simp [State.position, State.coreSt, he, hr, hh, hs, hm, pack, bn]

theorem State.position_of_busy {s : State} {g k : Nat} (he : (s.core g).en = true) (hr : (s.core g).reserved = false)
    (hh : s.hosted g = [k]) (hm : (s.core g).mig = false) :
    s.position g = 5 + 2 ^ 3 * (s.vc k).gid + 2 ^ 19 * (s.vc k).fold + 2 ^ 21 * (s.vc k).vcid := by
  simp [State.position, State.coreSt, he, hr, hh, hm, pack, bn]; ring

theorem State.cmapData_position (s : State) (d : Nat) {ix : Nat} (h : ix < 0x100) : s.cmapData d ix = s.position (d * 256 + ix) :=
  if_pos h

/-- After a write of cmapwin the window shows what the index in the low bits of the word names. -/
theorem State.csrRead_cmapwin_write (s : State) (rd : XReg) (v w : Word) :
    ((s.result rd v).updCore (s.coreOf s.vk) (fun c => { c with cmapIdx := w.setWidth 12 })).csrRead 0x7C7 =
      BitVec.ofNat 64 (w.toNat % 4096 + s.cmapData (s.coreOf s.vk / 256) (w.toNat % 4096) * 65536) := by
  have hix : (((s.result rd v).updCore (s.coreOf s.vk) (fun c => { c with cmapIdx := w.setWidth 12 })).core (s.coreOf s.vk)).cmapIdx.toNat =
      w.toNat % 4096 := by
    rw [State.core_updCore, if_pos rfl]; exact BitVec.toNat_setWidth ..
  show State.cmapwin _ (s.coreOf s.vk) = _
  rw [State.cmapwin_eq, hix, State.cmapData_updCore_cmapIdx]
  rfl

/-- The index in the low twelve bits and the data from bit 16 on. -/
theorem setWidth_cmapwin (w : Word) (D : Nat) : (BitVec.ofNat 64 (w.toNat % 4096 + D * 65536)).setWidth 12 = w.setWidth 12 := by
  apply BitVec.eq_of_toNat_eq
  simp only [BitVec.toNat_setWidth, BitVec.toNat_ofNat]
  omega

theorem csrrw_cmapwin {s : State} (hm : s.me.mode = .m) (rd rs1 : XReg) :
    exec (.csrrw rd rs1 0x7C7) s = .next ((s.result rd (s.csrRead 0x7C7)).updCore (s.coreOf s.vk)
      (fun c => { c with cmapIdx := (s.x rs1).setWidth 12 })) :=
  exec_csrrw_mMode hm rd rs1 rfl

/-- What cmapwin shows, entry by entry. -/
theorem cmapwin_entries (s : State) {c ix : Nat} {r : Word} (h : r = BitVec.ofNat 64 (ix + s.cmapData (c / 256) ix * 65536)) :
    (0x101 < ix → ix < 0x200 ∨ 0x240 ≤ ix → r = BitVec.ofNat 64 ix) ∧
    (ix = 0x101 → r = BitVec.ofNat 64 (0x101 + 2 ^ 16 * s.migQ.length + 2 ^ 32 * s.migs.length)) ∧
    (ix = 0x100 → c / 256 = 5 → (s.die 5).up = true → (s.die 5).bringup = false → r = 0x0460FF41676B0100) ∧
    (∀ e, 0x200 ≤ ix → ix < 0x240 → FMap.get? (s.die (c / 256)).redirs (ix - 0x200) = some e →
      r = BitVec.ofNat 64 (ix + 2 ^ 16 + 2 ^ 17 * e.old + 2 ^ 28 * e.new + (if e.left = [] then 0 else 2 ^ 39))) ∧
    (ix < 0x100 → let g := c / 256 * 256 + ix
      ((s.core g).en = false → (s.core g).mig = false → r = BitVec.ofNat 64 ix) ∧
      ((s.core g).en = true → (s.core g).reserved = false → s.hosted g = [] → (s.core g).saving = [] → (s.core g).mig = false →
        r = BitVec.ofNat 64 (ix + 2 ^ 16 + 2 ^ 17)) ∧
      (∀ k, (s.core g).en = true → (s.core g).reserved = false → s.hosted g = [k] → (s.core g).mig = false →
        r = BitVec.ofNat 64 (ix + 2 ^ 16 + 2 ^ 18 + 2 ^ 19 * (s.vc k).gid + 2 ^ 35 * (s.vc k).fold + 2 ^ 37 * (s.vc k).vcid))) := by
  have hr {n : Nat} (e : ix + s.cmapData (c / 256) ix * 65536 = n) : r = BitVec.ofNat 64 n := h.trans (congrArg _ e)
  refine ⟨fun h1 h2 => hr ?_, fun h1 => hr ?_, fun h1 hc hup hb => ?_, fun e h1 h2 he => hr ?_, fun h1 => ⟨fun he hg => hr ?_,
    fun he hres hh hs hg => hr ?_, fun k he hres hh hg => hr ?_⟩⟩
  · rw [s.cmapData_of_other _ h1 h2]; omega
  · rw [h1, s.cmapData_queue]; omega
  · rw [h, h1, hc, State.cmapData_orientation_5 hup hb]; rfl
  · rw [State.cmapData_redirect h1 h2 he]; split <;> omega
  · rw [s.cmapData_position _ h1, State.position_of_absent he hg]; omega
  · rw [s.cmapData_position _ h1, State.position_of_free he hres hh hs hg]; omega
  · rw [s.cmapData_position _ h1, State.position_of_busy he hres hh hg]; omega

/-! CSRs that a write does not change. -/

/-- Addresses whose CSR a write changes. -/
def writtenCsrs : List Nat :=
  [0x001, 0x002, 0x003, 0x800, 0x801, 0x802, 0x803, 0x804, 0x7C0, 0x7C1, 0x7C2, 0x7C3, 0x7C4, 0x7C5, 0x7C6, 0x7C7, 0x300, 0x304, 0x305,
   0x306, 0x340, 0x341, 0x342, 0x343, 0xB00, 0xB02]

theorem State.csrWrite_of_not_written (s : State) {a : Nat} (h : a ∉ writtenCsrs) (w : Word) : s.csrWrite a w = s := by
  unfold State.csrWrite
  extract_lets
  split
  case h_27 => rfl
  all_goals exact absurd (by decide) h

theorem csrClass_of_fixed {n : Nat}
    (h : n = 0x301 ∨ n = 0x320 ∨ (0x323 ≤ n ∧ n ≤ 0x33F) ∨ n = 0x344 ∨ (0x7C8 ≤ n ∧ n ≤ 0x7CF) ∨ (0xB03 ≤ n ∧ n ≤ 0xB1F)) :
    csrClass n = .csr true false ∧ n ∉ writtenCsrs := by
  rcases h with rfl | rfl | ⟨h1, h2⟩ | rfl | ⟨h1, h2⟩ | ⟨h1, h2⟩
  · exact ⟨rfl, by decide⟩
  · exact ⟨rfl, by decide⟩
  · interval_cases n <;> exact ⟨rfl, by decide⟩
  · exact ⟨rfl, by decide⟩
  all_goals interval_cases n <;> exact ⟨rfl, by decide⟩

theorem csrrw_fixed {s : State} (hm : s.me.mode = .m) (rd rs1 : XReg) {n : Nat}
    (h : n = 0x301 ∨ n = 0x320 ∨ (0x323 ≤ n ∧ n ≤ 0x33F) ∨ n = 0x344 ∨ (0x7C8 ≤ n ∧ n ≤ 0x7CF) ∨ (0xB03 ≤ n ∧ n ≤ 0xB1F)) :
    ∃ t, exec (.csrrw rd rs1 (BitVec.ofNat 12 n)) s = .next t ∧ Did s t rd (s.csrRead n) (s.me.pc + 4) := by
  obtain ⟨hc, hn⟩ := csrClass_of_fixed h
  have ha : (BitVec.ofNat 12 n).toNat = n := toNat_ofNat_csr (by omega)
  have he := exec_csrrw_mMode hm rd rs1 (a := BitVec.ofNat 12 n) (by rw [ha]; exact hc)
  rw [ha, State.csrWrite_of_not_written _ hn] at he
  exact ⟨_, he, s.did_result rd _⟩

theorem csrFields : CsrFields := by
  intro s rd rs1 hm w c wr status seg ix
  refine ⟨?mstatus, csrrw_segbase hm rd rs1, csrrw_seglim hm rd rs1, ?cmapwin, fun n h => csrrw_fixed hm rd rs1 h⟩
  case mstatus =>
    have h := csrrw_mstatus hm rd rs1
    rwa [Slot.mstatus_eq] at h
  case cmapwin =>
    have hr := s.csrRead_cmapwin_write rd (s.csrRead 0x7C7) w
    refine ⟨_, csrrw_cmapwin hm rd rs1, s.did_result rd _, fun k hk => ?_, ?_, ?_, ?_, cmapwin_entries s hr⟩
    · rw [State.core_updCore, if_neg hk]; rfl
    · rw [State.core_updCore, if_pos rfl]
    · rw [State.core_updCore, if_pos rfl]; rfl
    · rw [hr]; exact setWidth_cmapwin w _

/-- Settles O17: what the CSRs read, what a write leaves of their fields, the CSRs of plain storage, the flags raised in the cycle of a
write, and the accesses that are not allowed. -/
theorem csrAccess : Obligations.CsrAccess := by
  refine ⟨csrValues, csrFields, fun s rd rs1 u p hp hm hf => ?_, fun s rs1 h => State.vcDone_csrrw_mflags h rs1, csr_illegal⟩
  intro a old done uw
  have hdone {i : Instr} {v : Word} (h : ∃ t, exec i s = .next t ∧ CsrDone s t rd p v) : done i v := by
    obtain ⟨t, he, h⟩ := h
    exact ⟨t, he, h.read, h.pc, h.x, h.f, h.mode, h.st, h.h, h.segbase, h.seglim, h.others, h.vcs, h.rest, h.frame⟩
  obtain ⟨hrw, hrwi, hset, hseti⟩ := csrKeeps_access s rd rs1 u hp hm hf
  have hok := State.csrOk_of_mem_csrKeeps hp hm true false
  exact ⟨hdone hrw, hdone hrwi, fun h => ⟨hdone (hset h).1, hdone (hset h).2⟩, fun h => ⟨hdone (hseti h).1, hdone (hseti h).2⟩,
    State.did_csrrs_x0 rd hok, State.did_csrrci_zero rd hok⟩

end Sys2Proof.Machine
end

section
/-! PROOFS. The decoder reads back what the encoder writes: the fields of a word, the forms of the fields, the rows of the tables. -/

namespace Sys2Proof

theorem splitWord_joinWord (f : Fields) : splitWord (joinWord f) = f := by
  simp (disch := decide) only [splitWord, joinWord, BitVec.extractLsb'_append_eq_of_le, BitVec.extractLsb'_append_eq_of_add_le,
    Nat.reduceSub, BitVec.extractLsb'_eq_self]

/-! Immediates of the ratified formats. -/

section
variable (rs2 rs1 rd : BitVec 5) (f3 : BitVec 3) (op : BitVec 7)

@[simp] theorem immI_fields (imm : BitVec 12) : Fields.immI ⟨imm.extractLsb' 5 7, imm.extractLsb' 0 5, rs1, f3, rd, op⟩ = imm := by
  simp only [Fields.immI, BitVec.extractLsb'_append_extractLsb'_eq_extractLsb', BitVec.extractLsb'_eq_self]

@[simp] theorem immS_fields (imm : BitVec 12) : Fields.immS ⟨imm.extractLsb' 5 7, rs2, rs1, f3, imm.extractLsb' 0 5, op⟩ = imm := by
  simp only [Fields.immS, BitVec.extractLsb'_append_extractLsb'_eq_extractLsb', BitVec.extractLsb'_eq_self]

@[simp] theorem immU_fields (imm : BitVec 20) :
    Fields.immU ⟨imm.extractLsb' 13 7, imm.extractLsb' 8 5, imm.extractLsb' 3 5, imm.extractLsb' 0 3, rd, op⟩ = imm := by
  simp (disch := decide) only [Fields.immU, BitVec.extractLsb'_append_extractLsb'_eq_extractLsb', BitVec.extractLsb'_eq_self]

@[simp] theorem offB_fields (off : BitVec 12) :
    Fields.offB ⟨off.extractLsb' 11 1 ++ off.extractLsb' 4 6, rs2, rs1, f3, off.extractLsb' 0 4 ++ off.extractLsb' 10 1, op⟩ = off := by
  simp only [Fields.offB, BitVec.extractLsb'_append_eq_left, BitVec.extractLsb'_append_eq_right,
    BitVec.extractLsb'_append_extractLsb'_eq_extractLsb', BitVec.extractLsb'_eq_self]

@[simp] theorem offJ_fields (off : BitVec 20) :
    Fields.offJ ⟨off.extractLsb' 19 1 ++ off.extractLsb' 4 6, off.extractLsb' 0 4 ++ off.extractLsb' 10 1, off.extractLsb' 14 5,
      off.extractLsb' 11 3, rd, op⟩ = off := by
  simp only [Fields.offJ, BitVec.extractLsb'_append_eq_left, BitVec.extractLsb'_append_eq_right,
    BitVec.extractLsb'_append_extractLsb'_eq_extractLsb', BitVec.extractLsb'_eq_self]
end

/-! Fields that share one of the six. The bits that the decoder cuts out are what the encoder put there (widths as F02 gives them). -/

/-- R4, F and D rows: rs3 or funct5 above fmt. -/
@[simp] theorem bits_funct5_fmt (a : BitVec 5) (b : BitVec 2) :
    (a ++ b : BitVec 7).extractLsb' 2 5 = a ∧ (a ++ b : BitVec 7).extractLsb' 0 2 = b :=
  ⟨BitVec.extractLsb'_append_eq_left, BitVec.extractLsb'_append_eq_right⟩

/-- A extension and MMA: five bits, a flag, one bit. -/
@[simp] theorem bits_funct5_flag (a : BitVec 5) (p : Bool) (b : BitVec 1) :
    (a ++ BitVec.ofBool p ++ b : BitVec 7).extractLsb' 2 5 = a ∧ (a ++ BitVec.ofBool p ++ b : BitVec 7)[1] = p ∧
      (a ++ BitVec.ofBool p ++ b : BitVec 7).extractLsb' 0 1 = b := by
  refine ⟨?_, ?_, BitVec.extractLsb'_append_eq_right⟩
  · simp [BitVec.extractLsb'_append_eq_of_le, -Nat.reduceAdd]
  · simp [BitVec.getElem_append, -Nat.reduceAdd]

/-- A flag as the lowest bit. -/
@[simp] theorem bit0_append_ofBool (a : BitVec 6) (p : Bool) : (a ++ BitVec.ofBool p : BitVec 7)[0] = p := by
  simp [BitVec.getElem_append, -Nat.reduceAdd]

/-- Vector and queue rows: the N flag above funct6. -/
@[simp] theorem bits_flag_funct6 (n : Bool) (a : BitVec 6) :
    (BitVec.ofBool n ++ a : BitVec 7).extractLsb' 0 6 = a ∧ (BitVec.ofBool n ++ a : BitVec 7)[6] = n := by
  refine ⟨BitVec.extractLsb'_append_eq_right, ?_⟩
  simp [BitVec.getElem_append, -Nat.reduceAdd]

/-- MMA: the format above Z and S. -/
@[simp] theorem bits_fmt_flags (a : BitVec 3) (z s : Bool) :
    (a ++ BitVec.ofBool z ++ BitVec.ofBool s : BitVec 5).extractLsb' 2 3 = a ∧
      (a ++ BitVec.ofBool z ++ BitVec.ofBool s : BitVec 5)[1] = z ∧ (a ++ BitVec.ofBool z ++ BitVec.ofBool s : BitVec 5)[0] = s := by
  refine ⟨?_, ?_, ?_⟩
  · simp [BitVec.extractLsb'_append_eq_of_le, -Nat.reduceAdd]
  · simp [BitVec.getElem_append, -Nat.reduceAdd]
  · simp [BitVec.getElem_append, -Nat.reduceAdd]

/-- Class C: SR and SAT above the target. -/
@[simp] theorem bits_flags_tgt (p q : Bool) (a : BitVec 3) :
    (BitVec.ofBool p ++ BitVec.ofBool q ++ a : BitVec 5)[4] = p ∧ (BitVec.ofBool p ++ BitVec.ofBool q ++ a : BitVec 5)[3] = q ∧
      (BitVec.ofBool p ++ BitVec.ofBool q ++ a : BitVec 5).extractLsb' 0 3 = a := by
  refine ⟨?_, ?_, BitVec.extractLsb'_append_eq_right⟩
  · simp [BitVec.getElem_append, -Nat.reduceAdd]
  · simp [BitVec.getElem_append, -Nat.reduceAdd]

/-- Remote rows and FENCE: four bits above three. -/
@[simp] theorem bits_funct4_scope (a : BitVec 4) (b : BitVec 3) :
    (a ++ b : BitVec 7).extractLsb' 3 4 = a ∧ (a ++ b : BitVec 7).extractLsb' 0 3 = b :=
  ⟨BitVec.extractLsb'_append_eq_left, BitVec.extractLsb'_append_eq_right⟩

/-- RV64I shifts: six bits above the high bit of the amount. -/
@[simp] theorem bits_funct6_shamt (a : BitVec 6) (b : BitVec 1) :
    (a ++ b : BitVec 7).extractLsb' 1 6 = a ∧ (a ++ b : BitVec 7).extractLsb' 0 1 = b :=
  ⟨BitVec.extractLsb'_append_eq_left, BitVec.extractLsb'_append_eq_right⟩

/-- An engine, role or batch tag under three zero bits. -/
@[simp] theorem bits_zero_tag (a : BitVec 3) (b : BitVec 2) :
    (a ++ b : BitVec 5).extractLsb' 2 3 = a ∧ (a ++ b : BitVec 5).extractLsb' 0 2 = b :=
  ⟨BitVec.extractLsb'_append_eq_left, BitVec.extractLsb'_append_eq_right⟩

/-- FENCE and REPF: one bit above four. -/
@[simp] theorem bits_one_four (a : BitVec 1) (b : BitVec 4) :
    (a ++ b : BitVec 5).extractLsb' 4 1 = a ∧ (a ++ b : BitVec 5).extractLsb' 0 4 = b :=
  ⟨BitVec.extractLsb'_append_eq_left, BitVec.extractLsb'_append_eq_right⟩

/-- REPF: zero bits, ws, the high bits of hs. -/
@[simp] theorem bits_repf (z : BitVec 2) (ws : BitVec 3) (b : BitVec 2) :
    (z ++ ws ++ b : BitVec 7).extractLsb' 5 2 = z ∧ (z ++ ws ++ b : BitVec 7).extractLsb' 2 3 = ws ∧
      (z ++ ws ++ b : BitVec 7).extractLsb' 0 2 = b := by
  refine ⟨?_, ?_, BitVec.extractLsb'_append_eq_right⟩ <;>
    simp (disch := decide) only [BitVec.extractLsb'_append_eq_of_le, BitVec.extractLsb'_append_eq_of_add_le, Nat.reduceSub,
      BitVec.extractLsb'_eq_self]

/-! A field cut in two: a shift amount, pred of FENCE, hs of REPF. -/

@[simp] theorem extractLsb'_halves6 (a : BitVec 6) : (a.extractLsb' 5 1 ++ a.extractLsb' 0 5 : BitVec 6) = a := by
  simp only [BitVec.extractLsb'_append_extractLsb'_eq_extractLsb', BitVec.extractLsb'_eq_self]
@[simp] theorem extractLsb'_halves4 (a : BitVec 4) : (a.extractLsb' 1 3 ++ a.extractLsb' 0 1 : BitVec 4) = a := by
  simp only [BitVec.extractLsb'_append_extractLsb'_eq_extractLsb', BitVec.extractLsb'_eq_self]
@[simp] theorem extractLsb'_halves3 (a : BitVec 3) : (a.extractLsb' 1 2 ++ a.extractLsb' 0 1 : BitVec 3) = a := by
  simp only [BitVec.extractLsb'_append_extractLsb'_eq_extractLsb', BitVec.extractLsb'_eq_self]

/-! Operand codes. -/

@[simp] theorem field3_append (h : BitVec 3) : field3 (0b00#2 ++ h) = some h := by
  simp only [field3, BitVec.extractLsb'_append_eq_left, BitVec.extractLsb'_append_eq_right]; rfl

@[simp] theorem accField_append (k : BitVec 1) : accField (0b0000#4 ++ k) = some k := by
  simp only [accField, BitVec.extractLsb'_append_eq_left, BitVec.extractLsb'_append_eq_right]; rfl

@[simp] theorem batchField_append (b : BitVec 2) : batchField (0b000#3 ++ b) = some b := by
  simp [batchField]

@[simp] theorem fmtOf_code (t : FpFmt) : fmtOf t.code = some t := by cases t <;> rfl
@[simp] theorem rmOf_code (m : Rm) : rmOf m.code = some m := by cases m <;> rfl
@[simp] theorem widthOf_code (wd : Width) : widthOf wd.code = some wd := by cases wd <;> rfl
@[simp] theorem intFmtOf_code (v : IntFmt) : intFmtOf v.code = some v := by cases v <;> rfl
@[simp] theorem vtypeOf_code (t : VType) : vtypeOf t.code = some t := by cases t <;> rfl
@[simp] theorem tgtOf_code (g : CvtTgt) : tgtOf g.code = g := by cases g <;> rfl
@[simp] theorem mmaFmtOf_code (g : MmaFmt) : mmaFmtOf g.code = g := by cases g <;> rfl
@[simp] theorem scopeOf_code (c : Scope) : scopeOf c.code = some c := by cases c <;> rfl

/-! The vector classes of Table 02.7. -/

section
variable (n : Bool) (op : BitVec 6) (t : VType) (d a b : Handle) (o : BitVec 7)

@[simp] theorem vecB_fields (mk : Bool → VType → Handle → Handle → Handle → Instr) :
    vecB ⟨BitVec.ofBool n ++ op, 0b00#2 ++ b, 0b00#2 ++ a, t.code, 0b00#2 ++ d, o⟩ mk = some (mk n t d a b) := by
  simp [vecB]

@[simp] theorem vecBI_fields (mk : Bool → Handle → Handle → Handle → Instr) :
    vecBI ⟨BitVec.ofBool n ++ op, 0b00#2 ++ b, 0b00#2 ++ a, 6#3, 0b00#2 ++ d, o⟩ mk = some (mk n d a b) := by
  simp [vecBI]

@[simp] theorem vecU_fields (mk : Bool → VType → Handle → Handle → Instr) :
    vecU ⟨BitVec.ofBool n ++ op, 0#5, 0b00#2 ++ a, t.code, 0b00#2 ++ d, o⟩ mk = some (mk n t d a) := by
  simp [vecU]

@[simp] theorem vecUF_fields (mk : Bool → Handle → Handle → Instr) :
    vecUF ⟨BitVec.ofBool n ++ op, 0#5, 0b00#2 ++ a, 4#3, 0b00#2 ++ d, o⟩ mk = some (mk n d a) := by
  simp [vecUF]

@[simp] theorem vecC_fields (sr sat : Bool) (g : CvtTgt) (mk : Bool → Bool → Bool → CvtTgt → VType → Handle → Handle → Instr) :
    vecC ⟨BitVec.ofBool n ++ op, BitVec.ofBool sr ++ BitVec.ofBool sat ++ g.code, 0b00#2 ++ a, t.code, 0b00#2 ++ d, o⟩ mk =
      some (mk n sr sat g t d a) := by
  simp [vecC]
end

/-- funct3 100 to 111 are the vector rows. -/
theorem decodeW_vtype {f : Fields} (t : VType) (h : f.f3 = t.code) : decodeW f = decodeVector f := by
  rw [decodeW, h]; cases t <;> rfl

/-! Words of a row. -/

/-- The opcodes of 32-bit words outside the four custom spaces (R53, R54). -/
def isStandardOp (op : BitVec 7) : Bool :=
  op.extractLsb' 0 2 == 0b11#2 && op.extractLsb' 2 3 != 0b111#3 && op != 0x0B#7 && op != 0x2B#7 && op != 0x5B#7 && op != 0x7B#7

theorem decodeFields_of_decodeStd {f7 : BitVec 7} {rs2 rs1 rd : BitVec 5} {f3 : BitVec 3} {op : BitVec 7} {i : Instr}
    (hop : isStandardOp op = true) (h : decodeStd ⟨f7, rs2, rs1, f3, rd, op⟩ = some i) :
    decodeFields ⟨f7, rs2, rs1, f3, rd, op⟩ = .ok i := by
  simp only [isStandardOp, Bool.and_eq_true, bne_iff_ne, beq_iff_eq] at hop
  obtain ⟨⟨⟨⟨⟨hlow, hlen⟩, ht⟩, hw⟩, ha⟩, hs⟩ := hop
  simp [decodeFields, hlow, hlen, h, standardFate]

section
variable {f : Fields} {i : Instr}

theorem customFate_of_wellFormed (hw : i.wellFormed = true) : customFate (some i) = .ok i := by
  rw [customFate, if_pos hw]

theorem decodeFields_of_decodeT (hop : f.op = 0x0B) (hw : i.wellFormed = true) (h : decodeT f = some i) : decodeFields f = .ok i := by
  rw [← customFate_of_wellFormed hw, ← h, decodeFields, hop]; rfl

theorem decodeFields_of_decodeW (hop : f.op = 0x2B) (hw : i.wellFormed = true) (h : decodeW f = some i) : decodeFields f = .ok i := by
  rw [← customFate_of_wellFormed hw, ← h, decodeFields, hop]; rfl

theorem decodeFields_of_decodeA (hop : f.op = 0x5B) (hw : i.wellFormed = true) (h : decodeA f = some i) : decodeFields f = .ok i := by
  rw [← customFate_of_wellFormed hw, ← h, decodeFields, hop]; rfl

theorem decodeFields_of_decodeS (hop : f.op = 0x7B) (hw : i.wellFormed = true) (h : decodeS f = some i) : decodeFields f = .ok i := by
  rw [← customFate_of_wellFormed hw, ← h, decodeFields, hop]; rfl
end

/-- The decoder reads the fields of every row back: each row goes to the function of its table, which finds the codes it was given. -/
theorem decodeFields_fieldsOf {i : Instr} {f : Fields} (hw : i.wellFormed = true) (hf : fieldsOf i = some f) : decodeFields f = .ok i := by
  cases i with
  | lui | auipc | jal | jalr => cases hf; exact decodeFields_of_decodeStd (by decide) (by simp [decodeStd])
  | beq | bne | blt | bge | bltu | bgeu => cases hf; exact decodeFields_of_decodeStd (by decide) (by simp [decodeStd, decodeBranch])
  | lb | lh | lw | ld | lbu | lhu | lwu => cases hf; exact decodeFields_of_decodeStd (by decide) (by simp [decodeStd, decodeLoad])
  | sb | sh | sw | sd => cases hf; exact decodeFields_of_decodeStd (by decide) (by simp [decodeStd, decodeStore])
  | addi | slti | sltiu | xori | ori | andi | slli | srli | srai =>
    cases hf; exact decodeFields_of_decodeStd (by decide) (by simp [decodeStd, decodeOpImm])
  | addiw => cases hf; exact decodeFields_of_decodeStd (by decide) (by simp [decodeStd, decodeOpImm32])
  | add | sll | slt | sltu | xor | srl | or | and | sub | sra | mul | mulh | mulhsu | mulhu | div | divu | rem | remu
  | slliw | srliw | sraiw | addw | sllw | srlw | subw | sraw | mulw | divw | divuw | remw | remuw
  | ecall | ebreak | mret | wfi => cases hf; exact decodeFields_of_decodeStd (by decide) rfl
  | fence | fenceI => cases hf; exact decodeFields_of_decodeStd (by decide) (by simp [decodeStd, decodeMiscMem])
  | csrrw | csrrs | csrrc | csrrwi | csrrsi | csrrci => cases hf; exact decodeFields_of_decodeStd (by decide) (by simp [decodeStd, decodeSystem])
  | lr | sc | amoswap | amoadd | amoxor | amoand | amoor | amomin | amomax | amominu | amomaxu =>
    cases hf; exact decodeFields_of_decodeStd (by decide) (by simp [decodeStd, decodeAmo])
  | flw | fld => cases hf; exact decodeFields_of_decodeStd (by decide) (by simp [decodeStd, decodeFpLoad])
  | fsw | fsd => cases hf; exact decodeFields_of_decodeStd (by decide) (by simp [decodeStd, decodeFpStore])
  | fmadd | fmsub | fnmsub | fnmadd => cases hf; exact decodeFields_of_decodeStd (by decide) (by simp [decodeStd, decodeFma])
  | fadd | fsub | fmul | fdiv | fsqrt | fsgnj | fsgnjn | fsgnjx | fmin | fmax | feq | flt | fle | fclass | fmvXFmt | fmvFmtX
  | fcvtIntFromFp | fcvtFpFromInt => cases hf; exact decodeFields_of_decodeStd (by decide) (by simp [decodeStd, decodeFp])
  | fcvtSD | fcvtDS => cases hf; exact decodeFields_of_decodeStd (by decide) (by simp [decodeStd, decodeFp, fmtOf, decodeFpConvert])
  | fork | join | halt | park | engbind | engfree => cases hf; exact decodeFields_of_decodeT rfl hw (by simp [decodeT, decodeThreads])
  | sempost | semwait | semtry => cases hf; exact decodeFields_of_decodeT rfl hw rfl
  | ringset | ringget | hbind | hadvh | hadvt | hwaitf | hwaite | hpop | hpush =>
    cases hf; exact decodeFields_of_decodeT rfl hw (by simp [decodeT, decodeRingOps])
  | ldf | ldfe | stf | stef | feset | feclr | feget => cases hf; exact decodeFields_of_decodeT rfl hw rfl
  | gbar | garrive | gwait | wpush | wpop => cases hf; exact decodeFields_of_decodeT rfl hw (by simp [decodeT, decodeGuyline])
  | repf => cases hf; exact decodeFields_of_decodeT rfl hw (by simp [decodeT, decodeRepf])
  | align => cases hf; exact decodeFields_of_decodeT rfl hw (by simp [decodeT])
  | mcfg | mzero | mload | mout | wpset | wpget | wswap | wswapq =>
    cases hf; exact decodeFields_of_decodeW rfl hw (by simp [decodeW, decodeMatrixControl])
  | mma | mmaN => cases hf; exact decodeFields_of_decodeW rfl hw (by simp [decodeW, decodeMma])
  | vadd _ t | vsub _ t | vmul _ t | vfma _ t | vmac _ t | vmin _ t | vmax _ t | vabs _ t | vneg _ t | vsel _ t | vrcp _ t | vrsq _ t
  | vexp2 _ t | vlog2 _ t | vtanh _ t | vsig _ t | vcvt _ _ _ _ t | vqnt _ _ _ _ t | vreds _ t | vredm _ t | vgath _ t | vscat _ t
  | vperm _ t => cases hf; exact decodeFields_of_decodeW rfl hw ((decodeW_vtype t rfl).trans (by simp [decodeVector]))
  | vcmp c _ t =>
    cases hf; exact decodeFields_of_decodeW rfl hw ((decodeW_vtype t rfl).trans (by cases c <;> simp [decodeVector, VCmpOp.code]))
  | vand | vor | vxor | vshl | vshr | vexp2X | vlog2X | vsplit3 | vaccget | vaccset | vaccz =>
    cases hf; exact decodeFields_of_decodeW rfl hw (by simp [decodeW, decodeVector])
  | rld | rldf | rst | rstf | rstrel | twait | tfree | fences => cases hf; exact decodeFields_of_decodeA rfl hw (by simp [decodeA, decodeRemote])
  | ramoAdd | ramoFadd | ramoMin | ramoMax => cases hf; exact decodeFields_of_decodeA rfl hw (by simp [decodeA, decodeRamo1])
  | ramoSwap | ramoCas => cases hf; exact decodeFields_of_decodeA rfl hw (by simp [decodeA, decodeRamo2])
  | tst | dst | dtst => cases hf; exact decodeFields_of_decodeA rfl hw (by simp [decodeA, decodeTokened])
  | wenq | bclose | copy | copymc | ltset | ltget => cases hf; exact decodeFields_of_decodeA rfl hw (by simp [decodeA, decodeQueues])
  | fitw | fitr | vntrank | vntsel | vntrack | vntlog | vntmig | migr | segset | segget | ctxsav | ctxrst | suppost | qsce =>
    cases hf; exact decodeFields_of_decodeS rfl hw rfl
  | _ => cases hf

/-- Settles O5: cutting a word into its fields undoes joining them, and the decoder reads each row's fields back. -/
theorem decodeEncode : Obligations.DecodeEncode := by
  intro i w hw he
  rw [encode, if_pos hw, Option.map_eq_some_iff] at he
  obtain ⟨f, hf, rfl⟩ := he
  rw [decode, splitWord_joinWord, decodeFields_fieldsOf hw hf]

end Sys2Proof
end

section
/-! PROOFS. Reserved codes, QSCE and MIGR: what a slot record, a translation and the sweep of the holds leave unchanged, then the clauses. -/

namespace Sys2Proof.Machine

/-! Slot records: memory, and of the slots resv alone. -/

/-- After slot records have been written, t differs from s in memory and in reservations alone. -/
structure Recorded (s t : State) : Prop where
  slot : ∀ k, { t.slot k with resv := (s.slot k).resv } = s.slot k
  rest : { t with slots := s.slots, mem := s.mem } = s

theorem Recorded.refl (s : State) : Recorded s s := ⟨fun _ => rfl, rfl⟩

theorem Recorded.trans {s t u : State} (h : Recorded s t) (k : Recorded t u) : Recorded s u where
  slot j := by
    have hu : u.slot j = { t.slot j with resv := (u.slot j).resv } := by rw [← k.slot j]
    rw [hu]; exact h.slot j
  rest := by
    have hu : u = { t with slots := u.slots, mem := u.mem } := by rw [← k.rest]
    rw [hu]; exact h.rest

theorem State.recorded_writeSlotRecord (s : State) (key : Nat) : Recorded s (s.writeSlotRecord key) where
  slot j := State.slot_dropResv { s with mem := _ } _ _ none j
  rest := rfl

theorem State.recorded_foldl_writeSlotRecord (s : State) (l : List Nat) : Recorded s (l.foldl (fun t k => t.writeSlotRecord k) s) := by
  induction l generalizing s with
  | nil => exact .refl s
  | cons k l ih => exact (s.recorded_writeSlotRecord k).trans (ih _)

/-! The error record of a queue: the slots and whose turn it is stay. -/

/-- The slots and whose turn it is are the same. -/
structure SameSlots (s t : State) : Prop where
  slots : t.slots = s.slots
  cur : t.cur = s.cur

theorem SameSlots.refl (s : State) : SameSlots s s := ⟨rfl, rfl⟩

theorem SameSlots.trans {s t u : State} (h : SameSlots s t) (k : SameSlots t u) : SameSlots s u :=
  ⟨k.slots.trans h.slots, k.cur.trans h.cur⟩

theorem SameSlots.slot {s t : State} (h : SameSlots s t) (k : Nat) : t.slot k = s.slot k := by rw [State.slot, h.slots]; rfl

theorem State.sameSlots_bindPage {s t : State} {die a lg : Nat} {e e2 : Word} (h : s.bindPage die a e lg = some (t, e2)) :
    SameSlots s t := by
  unfold State.bindPage at h
  split at h
  · cases h
  · cases h; exact ⟨rfl, rfl⟩

theorem State.sameSlots_leafOf {s t : State} {die fn va lg : Nat} {need : Need} {u : TlbAt} {e : Word}
    (h : s.leafOf die fn va need u = some (t, e, lg)) : SameSlots s t := by
  unfold State.leafOf at h
  split at h
  · split at h
    · cases h; exact .refl s
    · cases h
  split at h
  · split at h
    · cases h; exact ⟨rfl, rfl⟩
    · cases h
  split at h
  · cases h
  split at h
  · cases h
  dsimp only at h
  split at h
  · split at h
    · next hb => cases h; exact (State.sameSlots_bindPage hb).trans ⟨rfl, rfl⟩
    · cases h
  · cases h; exact ⟨rfl, rfl⟩

theorem State.sameSlots_translate {s t : State} {die fn va a : Nat} {need : Need} {u : TlbAt}
    (h : s.translate die fn va need u = some (t, a)) : SameSlots s t := by
  unfold State.translate at h
  split at h
  · cases h
  next v e lg hl =>
  have hv := State.sameSlots_leafOf hl
  dsimp only at h
  split at h
  · cases h; exact hv
  · split at h
    · cases h
    · cases h; exact hv
  · split at h
    · cases h
    · cases h; exact hv
  · split at h
    · cases h
    split at h
    · cases h
    next hl2 =>
    have hw := hv.trans (State.sameSlots_leafOf hl2)
    split at h
    · cases h; exact hw
    · split at h
      · cases h
      · cases h; exact hw
    · cases h
  · cases h

theorem State.sameSlots_translateBytes {s t : State} {die fn va n : Nat} {need : Need} {u : TlbAt} {l : List Nat}
    (h : s.translateBytes die fn va need n u = some (t, l)) : SameSlots s t := by
  induction n generalizing s va l with
  | zero => cases h; exact .refl _
  | succ n ih =>
    unfold State.translateBytes at h
    split at h
    · cases h
    next hv =>
    split at h
    · next hr => cases h; exact (State.sameSlots_translate hv).trans (ih hr)
    · cases h

theorem State.sameSlots_cpWrite {s t : State} {f a : Nat} {va : Bool} {bs : List Byte} (h : s.cpWrite f va a bs = some t) : SameSlots s t := by
  unfold State.cpWrite at h
  split at h
  · obtain ⟨r, hr, rfl⟩ := Option.map_eq_some_iff.mp h
    have hk := State.sameSlots_translateBytes hr
    exact ⟨hk.slots, hk.cur⟩
  · split at h
    · cases h
    · cases h; exact ⟨rfl, rfl⟩

theorem State.sameSlots_stopQueue (s : State) (k : Nat) (ws : List Word) : SameSlots s (s.stopQueue k ws) := by
  have hw : SameSlots s ((s.cpWrite (k / 32) (s.queue k).memva ((s.queue k).ebase * 64) (bytesOfWords ws)).getD s.readFailed) := by
    cases h : s.cpWrite (k / 32) (s.queue k).memva ((s.queue k).ebase * 64) (bytesOfWords ws) with
    | none => exact ⟨rfl, rfl⟩
    | some t => exact State.sameSlots_cpWrite h
  exact hw.trans ⟨rfl, rfl⟩

theorem State.sameSlots_queueReserved (s : State) (sl : Slot) (msg : List Word) : SameSlots s (s.queueReserved sl msg) := by
  unfold State.queueReserved
  split
  · exact s.sameSlots_stopQueue _ _
  · exact .refl s

/-! The reserved-code trap. -/

/-- What the trap makes of a slot: the one at the word holds its bundle, the others of the bundle are reserved. -/
def State.reservedSlot (s : State) (k : Nat) (sl : Slot) : Slot :=
  if k == s.cur then { sl.seize .reservedCode with offender := true, resv := none }
  else if k / 16 == s.vk && sl.bundle == s.me.bundle then sl.reserve else sl

/-- The state once the bundle is held, with the records of its slots when a pre-emption is pending. -/
def State.reservedHeld (s : State) : State :=
  let t := s.mapSlots s.reservedSlot
  if s.myVc.holds.any (fun h => h.kind == .preempt) then
    ((t.slotsOf s.vk).filter (fun k => (k / 16 == s.vk && (t.slot k).bundle == s.me.bundle) && (t.slot k).st == .trapped)).foldl
      (fun t k => t.writeSlotRecord k) t
  else t

/-- The words of the report. -/
def State.reservedReport (s : State) (w : InsnWord) : List Word := s.mailWords s.vk 1 s.ix s.me.pc (w.setWidth 64) 0 []

theorem State.recorded_reservedHeld (s : State) : Recorded (s.mapSlots s.reservedSlot) s.reservedHeld := by
  unfold State.reservedHeld
  dsimp only
  split
  · exact State.recorded_foldl_writeSlotRecord _ _
  · exact .refl _

/-- But for slots and memory the state is as before the trap. -/
theorem State.reservedHeld_rest (s : State) : { s.reservedHeld with slots := s.slots, mem := s.mem } = s := by
  have h : s.reservedHeld = { s.mapSlots s.reservedSlot with slots := s.reservedHeld.slots, mem := s.reservedHeld.mem } := by
    rw [← s.recorded_reservedHeld.rest]
  rw [h]; rfl

theorem State.reservedHeld_cur (s : State) : s.reservedHeld.cur = s.cur := (congrArg State.cur s.reservedHeld_rest :)

theorem State.reservedHeld_net (s : State) : s.reservedHeld.net = s.net := (congrArg State.net s.reservedHeld_rest :)

theorem State.reservedCode_eq (s : State) (w : InsnWord) : s.reservedCode w =
    match s.mailbox s.vk with
    | some _ => s.reservedHeld.mail s.vk 1 s.ix s.me.pc (w.setWidth 64) 0 []
    | none => s.reservedHeld.queueReserved s.me (s.reservedReport w) := rfl

/-- A message to the mailbox depends on the state but for slots and memory. -/
theorem State.mail_of_rest {s t : State} (h : { t with slots := s.slots, mem := s.mem } = s) {vk sk ss ix : Nat}
    (hm : s.mailbox vk = some (sk, ss, ix)) (kind slot : Nat) (pc value detail : Word) (payload : List Word) :
    t.mail vk kind slot pc value detail payload = 
      t.send (Msg.mk (.vc vk) (.vc sk) .request (.mailbox ss ix (s.mailWords vk kind slot pc value detail payload)) none false) := by
  have ht : t = { s with slots := t.slots, mem := t.mem } := by rw [← h]
  have hb : t.mailbox vk = some (sk, ss, ix) := by rw [ht]; exact hm
  have hw : t.mailWords vk kind slot pc value detail payload = s.mailWords vk kind slot pc value detail payload := by rw [ht]; rfl
  rw [State.mail, hb, hw]

theorem State.sameSlots_reservedCode (s : State) (w : InsnWord) : SameSlots s.reservedHeld (s.reservedCode w) := by
  rw [State.reservedCode_eq]
  cases hm : s.mailbox s.vk with
  | none => exact State.sameSlots_queueReserved _ _ _
  | some p =>
    dsimp only
    rw [State.mail_of_rest s.reservedHeld_rest hm]; exact ⟨rfl, rfl⟩

theorem State.net_reservedCode {s : State} {sk ss ix : Nat} (hm : s.mailbox s.vk = some (sk, ss, ix)) (w : InsnWord) :
    (s.reservedCode w).net = s.net ++ [Msg.mk (.vc s.vk) (.vc sk) .request (.mailbox ss ix (s.reservedReport w)) none false] := by
  rw [State.reservedCode_eq, hm]
  dsimp only
  rw [State.mail_of_rest s.reservedHeld_rest hm, State.send, State.reservedHeld_net]; rfl

/-- A change of every entry, at a key that has one. -/
theorem FMap.getD_map_of_ne {α : Type} (m : FMap α) (f : Nat → α → α) (j : Nat) (d : α) (h : FMap.getD m j d ≠ d) :
    FMap.getD (m.map (fun p => (p.1, f p.1 p.2))) j d = f j (FMap.getD m j d) := by
  induction m with
  | nil => exact absurd rfl h
  | cons p t ih =>
    unfold FMap.getD at ih h ⊢
    simp only [List.map_cons, FMap.get?_cons] at h ⊢
    by_cases e : p.1 = j
    · simp [e]
    · simp only [e, if_false] at h ⊢; exact ih h

/-- A change of every listed slot, at a slot that is not EMPTY. -/
theorem State.slot_mapSlots_of_st (s : State) (f : Nat → Slot → Slot) {k : Nat} (h : (s.slot k).st ≠ .empty) :
    (s.mapSlots f).slot k = f k (s.slot k) :=
  FMap.getD_map_of_ne s.slots f k {} (fun e => h (congrArg Slot.st e))

/-- A slot after the trap, but for its reservation. -/
theorem State.slot_reservedCode (s : State) (w : InsnWord) {k : Nat} (h : (s.slot k).st ≠ .empty) :
    ∃ r, (s.reservedCode w).slot k = { s.reservedSlot k (s.slot k) with resv := r } := by
  have hk := s.recorded_reservedHeld.slot k
  rw [State.slot_mapSlots_of_st _ _ h] at hk
  refine ⟨(s.reservedHeld.slot k).resv, ?_⟩
  rw [(s.sameSlots_reservedCode w).slot, ← hk]

theorem Slot.reserve_of_st {sl : Slot} (h : sl.st = .issuing ∨ sl.st = .parked) : sl.reserve = sl.seize .reservedCode := by
  rcases h with h | h <;> simp [Slot.reserve, h]

theorem exec_reservedCode {s : State} (hm : s.me.mode = .u) (hst : s.me.st = .issuing) :
    exec .reservedCode s = .next (s.reservedCode (s.ev.val.setWidth 32)) := by
  show execReservedCode s = _
  simp [execReservedCode, hm, hst]

/-- The slot at the reserved word. -/
theorem State.me_reservedCode {s : State} (hst : s.me.st = .issuing) (w : InsnWord) :
    ∃ r, (s.reservedCode w).me = { s.me.seize .reservedCode with offender := true, resv := r } := by
  have hcur : (s.reservedCode w).cur = s.cur := (s.sameSlots_reservedCode w).cur.trans s.reservedHeld_cur
  obtain ⟨r, hr⟩ := s.slot_reservedCode w (k := s.cur) (by rw [← State.me, hst]; decide)
  exact ⟨r, by rw [State.me, hcur, hr, State.reservedSlot, if_pos (beq_self_eq_true _)]; rfl⟩

/-- A sibling of the bundle that issues or is parked. -/
theorem State.sibling_reservedCode {s : State} (w : InsnWord) {k : Nat} (hk : k ≠ s.cur) (hvk : k / 16 = s.vk)
    (hb : (s.slot k).bundle = s.me.bundle) (hst : (s.slot k).st = .issuing ∨ (s.slot k).st = .parked) :
    ∃ r, (s.reservedCode w).slot k = { (s.slot k).seize .reservedCode with resv := r } := by
  have hne : (s.slot k).st ≠ .empty := by rcases hst with h | h <;> rw [h] <;> decide
  obtain ⟨r, hr⟩ := s.slot_reservedCode w hne
  have hmine : s.reservedSlot k (s.slot k) = (s.slot k).seize .reservedCode := by
    simp [State.reservedSlot, hk, hvk, hb, Slot.reserve_of_st hst]
  exact ⟨r, by rw [hr, hmine]⟩

/-! The sweep of the holds: a slot that is TRAPPED stays where it is, and no move changes. -/

/-- A slot in the same state of Table 01.11 at the same pc, with the same registers. -/
structure Slot.Stands (a b : Slot) : Prop where
  st : b.st = a.st
  trap : b.trap = a.trap
  pc : b.pc = a.pc
  x : b.x = a.x
  f : b.f = a.f

theorem Slot.Stands.refl (a : Slot) : a.Stands a := ⟨rfl, rfl, rfl, rfl, rfl⟩

theorem Slot.Stands.trans {a b c : Slot} (h : a.Stands b) (k : b.Stands c) : a.Stands c :=
  ⟨k.st.trans h.st, k.trap.trans h.trap, k.pc.trans h.pc, k.x.trans h.x, k.f.trans h.f⟩

/-- What taking slots for a hold leaves: whose turn it is, slots that are TRAPPED, and the moves of the virtual cores. -/
structure Swept (s t : State) : Prop where
  cur : t.cur = s.cur
  trapped : ∀ k, (s.slot k).st = .trapped → (s.slot k).Stands (t.slot k)
  move : ∀ k, (t.vc k).move = (s.vc k).move

theorem Swept.refl (s : State) : Swept s s := ⟨rfl, fun _ _ => .refl _, fun _ => rfl⟩

theorem Swept.trans {s t u : State} (h : Swept s t) (k : Swept t u) : Swept s u where
  cur := k.cur.trans h.cur
  trapped j hj := (h.trapped j hj).trans (k.trapped j ((h.trapped j hj).st.trans hj))
  move j := (k.move j).trans (h.move j)

theorem Recorded.swept {s t : State} (h : Recorded s t) : Swept s t where
  cur := (congrArg State.cur h.rest :)
  trapped k _ := by rw [← h.slot k]; exact ⟨rfl, rfl, rfl, rfl, rfl⟩
  move k := by
    have hv : t.vcs = s.vcs := (congrArg State.vcs h.rest :)
    rw [State.vc, hv]; rfl

/-- A change of one virtual core that keeps its move. -/
theorem Swept.of_set {s t : State} {vk : Nat} {v : VCore} (hslots : t.slots = s.slots) (hcur : t.cur = s.cur)
    (hvcs : t.vcs = FMap.set s.vcs vk v) (hmove : v.move = (s.vc vk).move) : Swept s t where
  cur := hcur
  trapped k _ := by rw [(SameSlots.mk hslots hcur).slot]; exact .refl _
  move k := by
    rw [State.vc, hvcs, FMap.getD_set]
    split
    · next e => rw [e]; exact hmove
    · rfl

theorem State.swept_dropSigWait (s : State) (vk slot : Nat) : Swept s (s.dropSigWait vk slot) := .of_set rfl rfl rfl rfl

/-- A hold takes of a TRAPPED slot no more than a load that waits. -/
theorem Slot.stands_heldNow {sl t : Slot} {h : HoldReq} (hst : sl.st = .trapped) (ht : sl.heldNow h = some t) : sl.Stands t := by
  simp only [Slot.heldNow, hst] at ht
  split at ht
  · split at ht
    · cases ht; exact ⟨hst.symm, rfl, rfl, rfl, rfl⟩
    · cases ht
  · cases ht

theorem heldNow_of_heldBy {holds : List HoldReq} {key : Nat} {sl t : Slot} {h : HoldReq} (hb : heldBy holds key sl = some (h, t)) :
    sl.heldNow h = some t := by
  obtain ⟨g, -, hg⟩ := List.exists_of_findSome?_eq_some hb
  split at hg
  · cases hg
  · obtain ⟨u, hu, he⟩ := Option.map_eq_some_iff.mp hg
    cases he; exact hu

theorem State.swept_seize {s : State} {key : Nat} {sl : Slot} {h : HoldReq} (ht : (s.slot key).heldNow h = some sl) :
    Swept s (s.seize key sl h) := by
  have hset : Swept s (s.setSlot key sl) := {
    cur := rfl
    trapped := fun k hk => by
      rw [State.slot_setSlot]
      split
      · next e => subst e; exact Slot.stands_heldNow hk ht
      · exact .refl _
    move := fun _ => rfl }
  unfold State.seize
  dsimp only
  split
  · exact hset.trans (State.recorded_writeSlotRecord _ key).swept
  · exact hset

/-- What the sweep does at one slot. -/
def State.sweepAt (s : State) (vk key : Nat) : State :=
  match heldBy (s.vc vk).holds key (s.slot key) with
  | some (h, sl) => (if h.saves then s.dropSigWait vk (key % 16) else s).seize key sl h
  | none => s

theorem State.sweep_eq (s : State) (vk : Nat) : s.sweep vk = ((s.slotsOf vk).foldl (fun t key => t.sweepAt vk key) s).freezeHeld vk := rfl

theorem State.swept_sweepAt (s : State) (vk key : Nat) : Swept s (s.sweepAt vk key) := by
  unfold State.sweepAt
  split
  · next h sl hb =>
    have ht := heldNow_of_heldBy hb
    split
    · exact (s.swept_dropSigWait vk _).trans (State.swept_seize ht)
    · exact State.swept_seize ht
  · exact .refl s

theorem State.swept_foldl_sweepAt (s : State) (vk : Nat) (l : List Nat) : Swept s (l.foldl (fun t key => t.sweepAt vk key) s) := by
  induction l generalizing s with
  | nil => exact .refl s
  | cons k l ih => exact (s.swept_sweepAt vk k).trans (ih _)

/-- What a change of every entry keeps of an entry. -/
theorem FMap.getD_map_comp {α β : Type} (m : FMap α) (f : α → α) (g : α → β) (j : Nat) (d : α) (h : ∀ a, g (f a) = g a) :
    g (FMap.getD (m.map (fun p => (p.1, f p.2))) j d) = g (FMap.getD m j d) := by
  induction m with
  | nil => rfl
  | cons p t ih =>
    unfold FMap.getD at ih ⊢
    simp only [List.map_cons, FMap.get?_cons]
    by_cases e : p.1 = j
    · simp [e, h]
    · simpa [e] using ih

/-- A change of every virtual core that keeps the moves. -/
theorem Swept.of_map (s : State) (f : VCore → VCore) (h : ∀ v, (f v).move = v.move) :
    Swept s { s with vcs := s.vcs.map (fun p => (p.1, f p.2)) } :=
  ⟨rfl, fun _ _ => .refl _, fun k => FMap.getD_map_comp s.vcs f VCore.move k {} h⟩

theorem State.swept_withdrawWenq (s : State) (vk : Nat) : Swept s (s.withdrawWenq vk) := by
  unfold State.withdrawWenq
  split
  · exact .refl s
  extract_lets mine kept
  split
  · exact (Swept.of_map s (fun v => { v with holdQ := v.holdQ.filter (fun h => !mine h) }) (fun _ => rfl)).trans (.of_set rfl rfl rfl rfl)
  · exact .refl s

theorem State.swept_freezeHeld (s : State) (vk : Nat) : Swept s (s.freezeHeld vk) := by
  unfold State.freezeHeld
  dsimp only
  split
  · refine Swept.trans ?_ (State.swept_withdrawWenq _ vk)
    exact .of_set rfl rfl rfl rfl
  · exact .refl s

theorem State.swept_sweep (s : State) (vk : Nat) : Swept s (s.sweep vk) := by
  rw [State.sweep_eq]
  exact (s.swept_foldl_sweepAt vk _).trans (State.swept_freezeHeld _ vk)

theorem Swept.me {s t : State} (h : Swept s t) (hst : s.me.st = .trapped) : s.me.Stands t.me := by
  rw [State.me, State.me, h.cur]; exact h.trapped s.cur hst

theorem Swept.myVc_move {s t : State} (h : Swept s t) : t.myVc.move = s.myVc.move := by
  rw [State.myVc, State.vk, h.cur]; exact h.move _

/-! QSCE. -/

theorem exec_qsce_of_hold {s : State} {h : HoldReq} (hm : s.me.mode = .u) (hh : s.myVc.holds.find? (fun h => h.qsce) = some h) :
    exec .qsce s = .next ((s.retire.updMe (fun sl => sl.seize h.kind)).sweep s.vk) := by
  show execQsce s = _
  simp [execQsce, hm, hh]

theorem exec_qsce_of_no_hold {s : State} (h : s.me.mode = .m ∨ s.myVc.holds.find? (fun h => h.qsce) = none) :
    exec .qsce s = .next s.retire := by
  show execQsce s = _
  unfold execQsce
  dsimp only
  split
  · next hm hh => rcases h with h | h <;> simp_all
  · rfl

/-- A slot that stops at a QSCE. -/
theorem State.stands_qsce (s : State) (k : TrapKind) :
    ((s.me.retireAt (s.me.pc + 4)).seize k).Stands ((s.retire.updMe (fun sl => sl.seize k)).sweep s.vk).me := by
  have hme : (s.retire.updMe (fun sl => sl.seize k)).me = (s.me.retireAt (s.me.pc + 4)).seize k := by
    rw [State.me_updMe, State.me_retire]
  rw [← hme]
  exact (State.swept_sweep _ s.vk).me (by rw [hme]; rfl)

/-! MIGR. -/

/-- The move that the current slot asks for. -/
def State.askedMove (s : State) (status : Nat) (rd : BitVec 5) (want : Option Nat) : Move :=
  { src := s.coreOf s.vk, status := status, rd := rd.toNat, wantDie := want, queuedAt := s.now, base := s.myVc.base }

theorem State.swept_askHold {s : State} {h : HoldReq} (hk : h.kind ≠ .preempt) (vk : Nat) : Swept s (s.askHold vk h) := by
  unfold State.askHold
  dsimp only
  rw [if_neg (by simpa using hk)]
  refine Swept.trans ?_ (State.swept_sweep _ vk)
  exact .of_set rfl rfl rfl rfl

/-- Of a move that gets its target no more than step and target change. -/
theorem State.move_startMove (s : State) (g : Nat) : (s.startMove s.vk g).myVc.move = s.myVc.move.map (fun m => { m with step := 1, dst := g }) := by
  show (FMap.getD (FMap.set s.vcs s.vk _) s.vk {}).move = _
  rw [FMap.getD_set_self]; rfl

/-- The held slot with its move asked for. -/
def State.moveAsked (s : State) (status : Nat) (rd : BitVec 5) (want : Option Nat) : State :=
  ((s.updMe (fun sl => sl.seize .migrate)).updMyVc (fun v => { v with move := some (s.askedMove status rd want) })).askHold s.vk
    { kind := .migrate, slot := s.ix }

theorem State.swept_moveAsked (s : State) (status : Nat) (rd : BitVec 5) (want : Option Nat) :
    Swept ((s.updMe (fun sl => sl.seize .migrate)).updMyVc (fun v => { v with move := some (s.askedMove status rd want) }))
      (s.moveAsked status rd want) :=
  State.swept_askHold (by simp) s.vk

/-- The slot that asks for a move is TRAPPED where it stands. -/
theorem State.stands_moveAsked (s : State) (status : Nat) (rd : BitVec 5) (want : Option Nat) :
    (s.me.seize .migrate).Stands (s.moveAsked status rd want).me := by
  have hme : ((s.updMe (fun sl => sl.seize .migrate)).updMyVc (fun v => { v with move := some (s.askedMove status rd want) })).me =
      s.me.seize .migrate := State.me_updMe s (fun sl => sl.seize .migrate)
  rw [← hme]
  exact (s.swept_moveAsked status rd want).me (by rw [hme]; rfl)

theorem State.move_moveAsked (s : State) (status : Nat) (rd : BitVec 5) (want : Option Nat) :
    (s.moveAsked status rd want).myVc.move = some (s.askedMove status rd want) := by
  rw [(s.swept_moveAsked status rd want).myVc_move, State.myVc_updMyVc]

/-- A move that is asked for waits in the queue or has its target. -/
theorem State.askMove_cases (s : State) (status : Nat) (rd : BitVec 5) (want : Option Nat) :
    s.askMove status rd want = (s.moveAsked status rd want).enqueueMove (s.moveAsked status rd want).vk ∨
    ∃ g, s.askMove status rd want = (s.moveAsked status rd want).startMove (s.moveAsked status rd want).vk g := by
  have h : s.askMove status rd want = match (s.moveAsked status rd want).moveTarget (s.moveAsked status rd want).vk want with
      | some g => (s.moveAsked status rd want).startMove (s.moveAsked status rd want).vk g
      | none => (s.moveAsked status rd want).enqueueMove (s.moveAsked status rd want).vk := rfl
  rw [h]
  split
  · exact .inr ⟨_, rfl⟩
  · exact .inl rfl

/-- What asking for a move does to the slot and to its virtual core. -/
theorem State.askMove_spec (s : State) (status : Nat) (rd : BitVec 5) (want : Option Nat) :
    (s.me.seize .migrate).Stands (s.askMove status rd want).me ∧ ∃ m, (s.askMove status rd want).myVc.move = some m ∧
      m.status = status ∧ m.rd = rd.toNat ∧ m.src = s.coreOf s.vk ∧ m.wantDie = want := by
  have hst := s.stands_moveAsked status rd want
  have hmv := s.move_moveAsked status rd want
  rcases s.askMove_cases status rd want with h | ⟨g, h⟩ <;> rw [h]
  · exact ⟨hst, _, hmv, rfl, rfl, rfl, rfl⟩
  · exact ⟨hst, _, by rw [State.move_startMove, hmv]; rfl, rfl, rfl, rfl, rfl⟩

section
variable {s : State} {rd rs1 : XReg}

theorem exec_migr_illegal (h : s.me.mode = .m ∨ ¬ ((s.x rs1).toNat < 4 ∨ (s.x rs1).toNat = 8)) :
    exec (.migr rd rs1) s = .next (s.illegalI (.migr rd rs1)) := by
  refine congrArg Host.Outcome.next (if_pos ?_)
  simp only [Bool.or_eq_true, beq_iff_eq, Bool.not_eq_true', Bool.or_eq_false_iff, decide_eq_false_iff_not, beq_eq_false_iff_ne]
  exact h.imp_right not_or.mp

/-- The code of MIGR names the die of the virtual core, or any F-die when it is on one. -/
theorem exec_migr_here (hm : s.me.mode = .u)
    (h : ((s.x rs1).toNat = 8 ∧ isF (s.dieOf s.vk) = true) ∨ ((s.x rs1).toNat < 4 ∧ s.dieOf s.vk = (s.x rs1).toNat)) :
    exec (.migr rd rs1) s = .next (s.result rd 1) := by
  show execMigr rd rs1 s = _
  rcases h with ⟨h8, hf⟩ | ⟨h4, hd⟩
  · simp [execMigr, hm, h8, hf]
  · simp [execMigr, hm, h4, hd]

/-- It names another. -/
theorem exec_migr_away (hm : s.me.mode = .u)
    (h : ((s.x rs1).toNat = 8 ∧ isF (s.dieOf s.vk) = false) ∨ ((s.x rs1).toNat < 4 ∧ s.dieOf s.vk ≠ (s.x rs1).toNat)) :
    exec (.migr rd rs1) s = .next (s.askMove 1 rd (if (s.x rs1).toNat = 8 then none else some (s.x rs1).toNat)) := by
  show execMigr rd rs1 s = _
  rcases h with ⟨h8, hf⟩ | ⟨h4, hd⟩
  · simp [execMigr, hm, h8, hf]
  · have h8 : (s.x rs1).toNat ≠ 8 := by omega
    simp [execMigr, hm, h4, h8, hd]
end

/-- Settles O31: the trap through what it makes of each slot and its report, QSCE and MIGR through what the sweep of the holds leaves. -/
theorem holding : Obligations.Holding := by
  intro s rd rs1 w t4 here
  refine ⟨fun hm hst => ⟨_, exec_reservedCode hm hst, ?_⟩, fun h hm hh => ⟨_, exec_qsce_of_hold hm hh, ?_⟩,
    fun h => ⟨_, exec_qsce_of_no_hold h, s.did_retire⟩, fun h => ⟨_, _, exec_migr_illegal h, rfl, s.trapped_illegalI rfl⟩,
    fun hm h => ⟨_, exec_migr_here hm h, s.did_result rd 1⟩, fun hm h => ?_⟩
  · obtain ⟨r, hme⟩ := State.me_reservedCode hst w
    rw [hme]
    refine ⟨rfl, rfl, rfl, rfl, fun k hk hvk hb hks => ?_, fun sk ss ix hmb => State.net_reservedCode hmb w⟩
    obtain ⟨q, hq⟩ := State.sibling_reservedCode w hk hvk hb hks
    rw [hq]; exact ⟨rfl, rfl, rfl⟩
  · have hs := s.stands_qsce h.kind
    exact ⟨hs.st, hs.trap, hs.pc, hs.x, hs.f⟩
  · obtain ⟨hs, m, hmove, hstatus, hrd, hsrc, hwant⟩ := s.askMove_spec 1 rd (if t4 = 8 then none else some t4)
    exact ⟨_, m, exec_migr_away hm h, hs.st, hs.trap, hs.pc, hs.x, hmove, hstatus, hrd, hsrc, hwant⟩

end Sys2Proof.Machine
end

section
/-! PROOFS. Reset. -/

namespace Sys2Proof.Machine

theorem State.reset_slot (k : Nat) : State.reset.slot k = {} := rfl
theorem State.reset_ring (vk ix : Nat) : State.reset.ring vk ix = {} := rfl
theorem State.reset_core (g : Nat) : State.reset.core g = {} := rfl
theorem State.reset_queue (k : Nat) : State.reset.queue k = {} := rfl
theorem State.reset_die (d : Nat) : State.reset.die d = {} := rfl

/-- Settles O1: reset lists no part, so that each reads as the part that its type gives by default. -/
theorem resetLeaves : Obligations.ResetLeaves := by
  refine ⟨fun k => ?_, fun vk ix => ?_, fun g => ?_, fun k => ?_, fun d => ?_, rfl, rfl⟩
  · rw [State.reset_slot]; decide
  · rw [State.reset_ring]
  · rw [State.reset_core]; decide
  · rw [State.reset_queue]; decide
  · rw [State.reset_die]

end Sys2Proof.Machine
end

section
/-! PROOFS. RV64I and M: the operations on words as operations on their numbers, jumps and branches. -/

namespace Sys2Proof.Machine

open Sys2Proof.Claim

/-! Words as numbers, at every width. -/

section
variable {n m : Nat} (a b : BitVec n)

theorem add_ofInt_eq_ofInt (i : Int) : a + BitVec.ofInt n i = BitVec.ofInt n (a.toInt + i) := by
  rw [BitVec.ofInt_add, BitVec.ofInt_toInt]

theorem add_eq_ofInt : a + b = BitVec.ofInt n (a.toInt + b.toInt) := by
  rw [← add_ofInt_eq_ofInt, BitVec.ofInt_toInt]

theorem sub_eq_ofInt : a - b = BitVec.ofInt n (a.toInt - b.toInt) := by
  rw [← BitVec.toInt_inj, BitVec.toInt_sub, BitVec.toInt_ofInt]

theorem mul_eq_ofInt : a * b = BitVec.ofInt n (a.toInt * b.toInt) := by
  rw [BitVec.ofInt_mul, BitVec.ofInt_toInt, BitVec.ofInt_toInt]

theorem shiftLeft_eq_ofNat (k : Nat) : a <<< k = BitVec.ofNat n (a.toNat * 2 ^ k) := by
  apply BitVec.eq_of_toNat_eq
  rw [BitVec.toNat_shiftLeft, BitVec.toNat_ofNat, Nat.shiftLeft_eq]

theorem ushiftRight_eq_ofNat (k : Nat) : a >>> k = BitVec.ofNat n (a.toNat / 2 ^ k) := by
  apply BitVec.eq_of_toNat_eq
  rw [BitVec.toNat_ushiftRight, Nat.shiftRight_eq_div_pow, BitVec.toNat_ofNat,
    Nat.mod_eq_of_lt (Nat.lt_of_le_of_lt (Nat.div_le_self ..) a.isLt)]

theorem sshiftRight_eq_ofInt (k : Nat) : a.sshiftRight k = BitVec.ofInt n (a.toInt / 2 ^ k) := by
  rw [BitVec.sshiftRight, Int.shiftRight_eq_div_pow, Nat.cast_pow]; rfl

/-- The low bits of an exact result are that result at the smaller width. -/
theorem setWidth_ofInt (h : m ≤ n) (i : Int) : (BitVec.ofInt n i).setWidth m = BitVec.ofInt m i := by
  apply BitVec.eq_of_toNat_eq
  rw [BitVec.toNat_setWidth, BitVec.toNat_ofInt, BitVec.toNat_ofInt]
  have hn : 0 ≤ i % ((2 ^ n : Nat) : Int) := Int.emod_nonneg _ (by positivity)
  have hd : ((2 ^ m : Nat) : Int) ∣ ((2 ^ n : Nat) : Int) := Int.natCast_dvd_natCast.mpr (pow_dvd_pow 2 h)
  calc (i % ((2 ^ n : Nat) : Int)).toNat % 2 ^ m = (i % ((2 ^ n : Nat) : Int) % ((2 ^ m : Nat) : Int)).toNat :=
        (Int.toNat_emod hn (Int.natCast_nonneg _)).symm
    _ = (i % ((2 ^ m : Nat) : Int)).toNat := by rw [Int.emod_emod_of_dvd i hd]

/-- Of the operand of a shift to the left the low bits alone count. -/
theorem setWidth_shiftLeft_eq_ofNat (k : Nat) : a.setWidth m <<< k = BitVec.ofNat m (a.toNat * 2 ^ k) := by
  apply BitVec.eq_of_toNat_eq
  rw [shiftLeft_eq_ofNat, BitVec.toNat_setWidth, BitVec.toNat_ofNat, BitVec.toNat_ofNat, Nat.mod_mul_mod]

/-! Division, with the corners of the ratified text. -/

theorem allOnes_eq_ofInt : BitVec.allOnes n = BitVec.ofInt n (-1) := by
  rw [BitVec.ofInt_neg, ← BitVec.neg_one_eq_allOnes]; rfl

theorem divS_eq : divS a b = if b = 0 then BitVec.ofInt n (-1) else BitVec.ofInt n (a.toInt.tdiv b.toInt) := by
  refine if_congr Iff.rfl allOnes_eq_ofInt ?_
  rw [← BitVec.toInt_inj, BitVec.toInt_sdiv, BitVec.toInt_ofInt]

theorem remS_eq : remS a b = if b = 0 then a else BitVec.ofInt n (a.toInt.tmod b.toInt) := by
  rw [remS, ← BitVec.toInt_srem, BitVec.ofInt_toInt]

theorem divU_eq : divU a b = if b = 0 then BitVec.ofInt n (-1) else BitVec.ofNat n (a.toNat / b.toNat) := by
  refine if_congr Iff.rfl allOnes_eq_ofInt ?_
  rw [← BitVec.toNat_udiv, BitVec.ofNat_toNat, BitVec.setWidth_eq]

theorem remU_eq : remU a b = if b = 0 then a else BitVec.ofNat n (a.toNat % b.toNat) := by
  rw [remU, ← BitVec.toNat_umod, BitVec.ofNat_toNat, BitVec.setWidth_eq]

end

/-! The model's own words. -/

theorem boolWord_decide (p : Prop) [Decidable p] : boolWord (decide p) = if p then 1 else 0 := by
  simp only [boolWord, decide_eq_true_eq]

theorem upper_eq_ofInt (i : BitVec 20) : upper i = BitVec.ofInt 64 (i.toInt * 4096) := by
  have h : (i ++ (0 : BitVec 12)).toInt = 2 ^ 12 * i.toInt := BitVec.toInt_append_zero
  rw [upper, BitVec.signExtend, h, mul_comm]; rfl

theorem sextW_eq_of_eq_ofInt {v : Word} {i : Int} (h : v = BitVec.ofInt 64 i) : sextW v = (BitVec.ofInt 32 i).signExtend 64 := by
  rw [h, sextW, setWidth_ofInt (by decide)]

/-- A completion whose result is said in another way. -/
theorem next_result_congr {s : State} {rd : XReg} {v w : Word} (h : v = w) : (.next (s.result rd v) : Out) = .next (s.result rd w) := by
  rw [h]

theorem next_resultIn_congr {s : State} {L : Nat} {rd : XReg} {v w : Word} (h : v = w) :
    (.next (s.resultIn L rd v) : Out) = .next (s.resultIn L rd w) := by
  rw [h]

theorem w32_congr {v w : BitVec 32} (h : v = w) : w32 v = w.signExtend 64 := congrArg w32 h

/-- Settles O8: each result is its operation on words, which is the exact one on their numbers. -/
theorem integerArithmetic : Obligations.IntegerArithmetic := by
  intro s rd rs1 rs2 imm up sh6 sh5 a b a32 r w
  have hslti : boolWord (a.slt (sext12 imm)) = if a.toInt < imm.toInt then 1 else 0 := by
    refine (boolWord_decide _).trans ?_
    rw [sext12, BitVec.toInt_signExtend_of_le (by decide)]
  refine ⟨⟨?_, ?_⟩, ⟨?_, ?_, ?_, rfl, rfl, rfl⟩, ?_, ?_, ?_⟩
  · exact next_result_congr (upper_eq_ofInt up)
  · exact next_result_congr (congrArg (s.me.pc + ·) (upper_eq_ofInt up))
  · exact next_result_congr (add_ofInt_eq_ofInt a _)
  · exact next_result_congr hslti
  · exact next_result_congr (boolWord_decide _)
  · exact ⟨next_result_congr (shiftLeft_eq_ofNat a _), next_result_congr (ushiftRight_eq_ofNat a _),
      next_result_congr (sshiftRight_eq_ofInt a _)⟩
  · exact ⟨next_result_congr (add_eq_ofInt a b), next_result_congr (sub_eq_ofInt a b), next_result_congr (boolWord_decide _),
      next_result_congr (boolWord_decide _), rfl, rfl, rfl, next_result_congr (shiftLeft_eq_ofNat a _),
      next_result_congr (ushiftRight_eq_ofNat a _), next_result_congr (sshiftRight_eq_ofInt a _)⟩
  · exact ⟨next_result_congr (sextW_eq_of_eq_ofInt (add_ofInt_eq_ofInt a _)), next_result_congr (sextW_eq_of_eq_ofInt (add_eq_ofInt a b)),
      next_result_congr (sextW_eq_of_eq_ofInt (sub_eq_ofInt a b)), next_result_congr (w32_congr (setWidth_shiftLeft_eq_ofNat a _)),
      next_result_congr (w32_congr (ushiftRight_eq_ofNat a32 _)), next_result_congr (w32_congr (sshiftRight_eq_ofInt a32 _)),
      next_result_congr (w32_congr (setWidth_shiftLeft_eq_ofNat a _)), next_result_congr (w32_congr (ushiftRight_eq_ofNat a32 _)),
      next_result_congr (w32_congr (sshiftRight_eq_ofInt a32 _))⟩

/-- Settles O9: products and quotients on words are those on their numbers. -/
theorem multiplyDivide : Obligations.MultiplyDivide := by
  intro s rd rs1 rs2 a b a32 b32 r d w
  exact ⟨⟨next_result_congr (mul_eq_ofInt a b), rfl, rfl, rfl, next_result_congr (sextW_eq_of_eq_ofInt (mul_eq_ofInt a b))⟩,
    ⟨next_resultIn_congr (divS_eq a b), next_resultIn_congr (remS_eq a b), next_resultIn_congr (divU_eq a b),
      next_resultIn_congr (remU_eq a b)⟩,
    next_resultIn_congr (w32_congr (divS_eq a32 b32)), next_resultIn_congr (w32_congr (remS_eq a32 b32)),
    next_resultIn_congr (w32_congr (divU_eq a32 b32)), next_resultIn_congr (w32_congr (remU_eq a32 b32))⟩

end Sys2Proof.Machine
end

section
/-! PROOFS. Jumps and branches. -/

namespace Sys2Proof.Machine

open Sys2Proof.Claim

/-- An offset counted in halfwords. -/
theorem signExtend_append_zero {n : Nat} (off : BitVec n):
    (off ++ (0 : BitVec 1)).signExtend 64 = BitVec.ofInt 64 (2 * off.toInt) := by
  rw [BitVec.signExtend]; exact congrArg _ BitVec.toInt_append_zero

theorem and_not_one_eq_ofNat (w : Word) : w &&& ~~~(1 : Word) = BitVec.ofNat 64 (w.toNat / 2 * 2) := by
  have h : w &&& ~~~(1 : Word) = (w >>> 1) <<< 1 := by
    ext i hi
    rw [BitVec.getElem_and, BitVec.getElem_not, BitVec.ofNat_eq_ofNat, BitVec.getElem_one]
    by_cases h0 : i = 0
    · simp [h0]
    · simp [h0, Nat.add_sub_cancel' (Nat.one_le_iff_ne_zero.mpr h0), BitVec.getLsbD_eq_getElem hi]
  rw [h, shiftLeft_eq_ofNat, BitVec.toNat_ushiftRight, Nat.shiftRight_eq_div_pow, pow_one]

/-- A jump that links is a completion at its target. -/
theorem State.did_setX_retireTo (s : State) (rd : BitVec 5) (v p : Word) : Did s ((s.setX rd v).retireTo p) rd v p := by
  have hme : ((s.setX rd v).retireTo p).me = (s.me.writeX rd v).retireAt p := by
    rw [State.me_retireTo, State.setX, State.me_updMe]
  exact {
    x := fun r => by rw [State.x, hme, Slot.readX_retireAt, Slot.readX_writeX]; rfl
    pc := by rw [hme]; rfl
    count := by rw [hme, Slot.retireAt, Slot.writeX_minstret]
    hold := by rw [hme]; rfl
    arrived := by rw [hme]; rfl
    slot := by rw [hme]; exact Slot.retireAt_writeX_rest ..
    others := fun k hk => (State.slot_retireTo_ne (s.setX rd v) p hk).trans (State.slot_updMe_ne _ _ hk)
    rest := rfl }

theorem State.jump_spec (s : State) (rd : BitVec 5) (p : Word) :
    (p.getLsbD 1 = false → Did s (s.jump rd p) rd (s.me.pc + 4) p) ∧ (p.getLsbD 1 = true → Trapped s (s.jump rd p) 0 p s.me.pc) := by
  constructor <;> intro h <;> rw [State.jump, h]
  · exact s.did_setX_retireTo rd _ p
  · exact s.trapped_trap 0 p

/-- What a conditional branch does, by its condition and the alignment of its target. -/
theorem State.branch_spec (s : State) {taken : Bool} {c : Prop} (hc : taken = true ↔ c) (off : BitVec 12) :
    let p := s.me.pc + BitVec.ofInt 64 (2 * off.toInt)
    (¬ c → Did s (s.branch taken off) 0 0 (s.me.pc + 4)) ∧ (c → p.getLsbD 1 = false → Did s (s.branch taken off) 0 0 p) ∧
      (c → p.getLsbD 1 = true → Trapped s (s.branch taken off) 0 p s.me.pc) := by
  simp only [State.branch, signExtend_append_zero off, ← hc]
  refine ⟨fun h => ?_, fun h h1 => ?_, fun h h1 => ?_⟩
  · rw [if_neg h]; exact s.did_retire
  · rw [if_pos h, h1]; exact s.did_retireTo _
  · rw [if_pos h, h1]; exact s.trapped_trap 0 _

/-- Settles O10: each is State.jump or State.branch with its target, and the condition of its branch said in numbers. -/
theorem jumpsAndBranches : Obligations.JumpsAndBranches := by
  intro s rd rs1 rs2 o20 o12 a b link j br
  have hj {i : Instr} {p : Word} (h : exec i s = .next (s.jump rd p)) : j i p := by
    obtain ⟨hd, ht⟩ := s.jump_spec rd p
    exact ⟨fun hp => ⟨_, h, hd hp⟩, fun hp => ⟨_, h, ht hp⟩⟩
  have hb {i : Instr} {taken : Bool} {c : Prop} (h : exec i s = .next (s.branch taken o12)) (hc : taken = true ↔ c) : br i c := by
    obtain ⟨hn, hd, ht⟩ := s.branch_spec hc o12
    exact ⟨fun h' => ⟨_, h, hn h'⟩, fun h' hp => ⟨_, h, hd h' hp⟩, fun h' hp => ⟨_, h, ht h' hp⟩⟩
  refine ⟨hj ?_, hj ?_, hb rfl beq_iff_eq, hb rfl bne_iff_ne, hb rfl ?_, hb rfl ?_, hb rfl ?_, hb rfl ?_⟩
  · rw [← signExtend_append_zero o20]; rfl
  · rw [← and_not_one_eq_ofNat]; rfl
  · exact BitVec.slt_iff_toInt_lt
  · rw [Bool.not_eq_true', ← Bool.not_eq_true, BitVec.slt_iff_toInt_lt, not_lt]
  · exact BitVec.ult_iff_lt
  · rw [Bool.not_eq_true', ← Bool.not_eq_true, BitVec.ult_iff_lt, BitVec.not_lt]; rfl

end Sys2Proof.Machine
end

section
/-! PROOFS. The F and D extensions: completion, moves, sign injection, classes, comparisons, minimum and maximum. -/

namespace Sys2Proof.Machine

open Sys2Proof.Claim

/-! Completion. -/

/-- The slot after a floating-point instruction of L rotations. -/
def Slot.fpDone (sl : Slot) (rd : BitVec 5) (v : Word) (fl : BitVec 5) (L : Nat) : Slot :=
  { (sl.writeF rd v).retireAt (sl.pc + 4) with
    fflags := sl.fflags ||| fl, hold := if L ≤ 1 then none else some (.busy (L - 1)) }

theorem Slot.fpDone_no_flag (sl : Slot) (rd : BitVec 5) (v : Word) : sl.fpDone rd v 0 1 = (sl.writeF rd v).retireAt (sl.pc + 4) := by
  have h : sl.fflags ||| 0 = sl.fflags := BitVec.or_zero
  rw [Slot.fpDone, h]; rfl

theorem State.fpDone_updMe (s : State) (rd : BitVec 5) (v : Word) (fl : BitVec 5) (L : Nat) :
    FpDone s (s.updMe (fun sl => sl.fpDone rd v fl L)) rd v fl L where
  f r := by rw [State.f, State.me_updMe]; exact Slot.readF_writeF s.me rd r v
  x r := by rw [State.x, State.me_updMe]; rfl
  flags := by rw [State.me_updMe]; rfl
  pc := by rw [State.me_updMe]; rfl
  hold := by rw [State.me_updMe]; rfl
  arrived := by rw [State.me_updMe]; rfl
  slot := by rw [State.me_updMe]; rfl
  others _ h := State.slot_updMe_ne _ _ h
  rest := rfl

theorem State.fpDone_fpResult (s : State) (t : FpFmt) (rd : BitVec 5) (r : Nat × BitVec 5) :
    FpDone s (s.fpResult t rd r) rd (box t r.1) r.2 1 := by
  have h : s.fpResult t rd r = s.updMe (fun sl => sl.fpDone rd (box t r.1) r.2 1) := by
    simp only [State.fpResult, State.setF, State.raise, State.retire, State.updMe_updMe]; rfl
  rw [h]; exact s.fpDone_updMe ..

theorem State.fpDone_fpResultIn (s : State) (t : FpFmt) (rd : BitVec 5) (r : Nat × BitVec 5) :
    FpDone s (s.fpResultIn t rd r) rd (box t r.1) r.2 (fpRotations t) := by
  have h : s.fpResultIn t rd r = s.updMe (fun sl => sl.fpDone rd (box t r.1) r.2 (fpRotations t)) := by
    simp only [State.fpResultIn, State.fpResult, State.setF, State.raise, State.retire, State.updMe_updMe]
    cases t <;> rfl
  rw [h]; exact s.fpDone_updMe ..

/-- A move into an f register raises no flag. -/
theorem State.fpDone_setF (s : State) (rd : BitVec 5) (v : Word) : FpDone s (s.setF rd v).retire rd v 0 1 := by
  have h : (s.setF rd v).retire = s.updMe (fun sl => sl.fpDone rd v 0 1) := by
    simp only [State.setF, State.retire, State.updMe_updMe, Slot.fpDone_no_flag]; rfl
  rw [h]; exact s.fpDone_updMe ..

theorem Slot.retireAt_writeX_fflags (sl : Slot) (fl : BitVec 5) (rd : BitVec 5) (v p : Word) :
    { ({ sl with fflags := sl.fflags ||| fl }.writeX rd v).retireAt p with
      x := sl.x, fflags := sl.fflags, pc := sl.pc, minstret := sl.minstret, hold := sl.hold, arrived := sl.arrived } = sl := by
  unfold Slot.writeX; split <;> rfl

@[simp] theorem Slot.writeX_fflags (sl : Slot) (r : BitVec 5) (v : Word) : (sl.writeX r v).fflags = sl.fflags := by
  unfold Slot.writeX; split <;> rfl

theorem State.flagDone_fpToX (s : State) (rd : BitVec 5) (r : Word × BitVec 5) :
    FlagDone s (s.fpToX rd r) rd r.1 r.2 := by
  have hme : (s.raise r.2).me = { s.me with fflags := s.me.fflags ||| r.2 } := State.me_updMe ..
  exact {
    x := fun q => by rw [State.fpToX, State.x_result, State.x, State.x, hme]; rfl
    f := fun q => by rw [State.fpToX, State.f_result, State.f, State.f, hme]; rfl
    flags := by rw [State.fpToX, State.me_result, hme]; exact Slot.writeX_fflags ..
    pc := by rw [State.fpToX, ((s.raise r.2).did_result rd r.1).pc, hme]
    hold := ((s.raise r.2).did_result rd r.1).hold
    arrived := ((s.raise r.2).did_result rd r.1).arrived
    slot := by rw [State.fpToX, State.me_result, hme]; exact Slot.retireAt_writeX_fflags ..
    others := fun k hk => (State.slot_result_ne (s.raise r.2) rd r.1 hk).trans (State.slot_updMe_ne _ _ hk)
    rest := rfl }

end Sys2Proof.Machine
end

section
/-! PROOFS. The exact values of the formats: the magnitudes of a format in order, comparison of exact values. -/

namespace Sys2Proof.Machine

open Sys2Proof.Claim

/-! Comparison. -/

theorem compare_congr {α β : Type} [LinearOrder α] [LinearOrder β] {a b : α} {c d : β} (hlt : a < b ↔ c < d) (heq : a = b ↔ c = d) :
    compare a b = compare c d := by
  rw [LinearOrder.compare_eq_compareOfLessAndEq, LinearOrder.compare_eq_compareOfLessAndEq, compareOfLessAndEq, compareOfLessAndEq]
  simp only [hlt, heq]

theorem compare_natCast (a b : Nat) : compare a b = compare (a : ℝ) (b : ℝ) := compare_congr Nat.cast_lt.symm Nat.cast_inj.symm

theorem compare_mul_right (a b : ℝ) {c : ℝ} (h : 0 < c) : compare (a * c) (b * c) = compare a b :=
  compare_congr (mul_lt_mul_iff_left₀ h) (mul_left_inj' h.ne')

theorem two_zpow_pos (e : Int) : (0 : ℝ) < 2 ^ e := zpow_pos two_pos e

/-- A number m × 2^e in units of 2^g. -/
theorem scaled_eq (m : Nat) {e g : Int} (h : g ≤ e) : ((m * 2 ^ (e - g).toNat : Nat) : ℝ) * 2 ^ g = m * 2 ^ e := by
  have he : ((e - g).toNat : Int) + g = e := by omega
  rw [Nat.cast_mul, Nat.cast_pow, Nat.cast_ofNat, mul_assoc, ← zpow_natCast, ← zpow_add₀ two_ne_zero, he]

theorem versus_eq_compare {num den : Nat} (hden : 0 < den) (e : Int) (m : Nat) (f : Int) :
    versus num den e m f = compare ((num : ℝ) / den * 2 ^ e) (m * 2 ^ f) := by
  have hd : (0 : ℝ) < den := Nat.cast_pos.mpr hden
  have hg : (0 : ℝ) < 2 ^ min e f := two_zpow_pos _
  have hnum : (num : ℝ) / den * 2 ^ e * den = num * 2 ^ e := by field_simp
  rw [versus, compare_natCast, ← compare_mul_right _ _ hg, scaled_eq _ (min_le_left ..), scaled_eq _ (min_le_right ..),
    ← compare_mul_right ((num : ℝ) / den * 2 ^ e) _ hd, hnum, Nat.cast_mul]
  congr 1
  ring

/-! The magnitudes of a format. -/

/-- The k-th magnitude as a number. -/
noncomputable def Fmt.mag (t : Fmt) (k : Nat) : ℝ := (magnitude t k).1 * 2 ^ (magnitude t k).2

/-- The exponent of the subnormal magnitudes. -/
def Fmt.least (t : Fmt) : Int := 1 - t.B - t.M

/-- The magnitude of a mantissa and of the number of a binade. -/
theorem magnitude_eq (t : Fmt) {Q n : Nat} (h : Q = 0 ∨ 2 ^ t.M ≤ n) (hn : n < 2 ^ (t.M + 1)) :
    magnitude t (Q * 2 ^ t.M + n) = (n, Q + t.least) := by
  have hp : 0 < 2 ^ t.M := Nat.two_pow_pos _
  rw [pow_succ] at hn
  unfold magnitude Fmt.least
  by_cases hs : n < 2 ^ t.M
  · obtain rfl : Q = 0 := h.resolve_right (by omega)
    rw [if_pos (by omega)]; simp
  · obtain ⟨j, rfl⟩ : ∃ j, n = 2 ^ t.M + j := ⟨n - 2 ^ t.M, by omega⟩
    have hk : Q * 2 ^ t.M + (2 ^ t.M + j) = j + (Q + 1) * 2 ^ t.M := by ring
    rw [hk, if_neg (by rw [Nat.succ_mul]; omega), Nat.add_mul_mod_self_right, Nat.mod_eq_of_lt (by omega),
      Nat.add_mul_div_right _ _ hp, Nat.div_eq_of_lt (by omega)]
    ext
    · rfl
    · push_cast; ring

/-- Every number is a mantissa and the number of a binade. -/
theorem exists_binade (t : Fmt) (k : Nat) : ∃ Q n, k = Q * 2 ^ t.M + n ∧ (Q = 0 ∨ 2 ^ t.M ≤ n) ∧ n < 2 ^ (t.M + 1) := by
  have hp : 0 < 2 ^ t.M := Nat.two_pow_pos _
  have hm := Nat.mod_lt k hp
  have hd := Nat.div_add_mod' k (2 ^ t.M)
  rw [pow_succ]
  cases h : k / 2 ^ t.M with
  | zero => exact ⟨0, k, by omega, .inl rfl, by rw [Nat.div_eq_zero_iff] at h; omega⟩
  | succ Q =>
    rw [h, Nat.succ_mul] at hd
    exact ⟨Q, 2 ^ t.M + k % 2 ^ t.M, by omega, .inr (by omega), by omega⟩

theorem Fmt.mag_eq (t : Fmt) {Q n : Nat} (h : Q = 0 ∨ 2 ^ t.M ≤ n) (hn : n < 2 ^ (t.M + 1)) :
    t.mag (Q * 2 ^ t.M + n) = n * 2 ^ (Q + t.least) := by
  rw [Fmt.mag, magnitude_eq t h hn]

/-- The next magnitude is one unit of the last place above. -/
theorem Fmt.mag_succ (t : Fmt) (k : Nat) : t.mag (k + 1) = ((magnitude t k).1 + 1) * 2 ^ (magnitude t k).2 := by
  obtain ⟨Q, n, rfl, h, hn⟩ := exists_binade t k
  rw [magnitude_eq t h hn, Nat.add_assoc]
  by_cases hc : n + 1 < 2 ^ (t.M + 1)
  · rw [t.mag_eq (h.imp_right (by omega)) hc]; push_cast; rfl
  · have hn1 : n + 1 = 2 ^ t.M + 2 ^ t.M := by rw [pow_succ] at hn hc; omega
    have hk : Q * 2 ^ t.M + (n + 1) = (Q + 1) * 2 ^ t.M + 2 ^ t.M := by rw [hn1]; ring
    have hr : ((n : ℝ) + 1) = 2 ^ t.M * 2 := by rw [← Nat.cast_succ, Nat.succ_eq_add_one, hn1]; push_cast; ring
    rw [hk, t.mag_eq (.inr le_rfl) (Nat.pow_lt_pow_succ one_lt_two), hr]
    push_cast
    rw [mul_assoc, ← zpow_one_add₀ two_ne_zero, ← add_assoc, add_comm (1 : Int)]

theorem Fmt.mag_strictMono (t : Fmt) : StrictMono t.mag := by
  refine strictMono_nat_of_lt_succ (fun k => ?_)
  rw [t.mag_succ, Fmt.mag]
  exact mul_lt_mul_of_pos_right (lt_add_one _) (two_zpow_pos _)

/-- A number lies between two neighbours in one place. -/
theorem Fmt.eq_of_mag_le_of_lt {t : Fmt} {a b : Nat} {v : ℝ} (ha : t.mag a ≤ v) (ha' : v < t.mag (a + 1)) (hb : t.mag b ≤ v)
    (hb' : v < t.mag (b + 1)) : a = b := by
  have h1 := t.mag_strictMono.lt_iff_lt.mp (ha.trans_lt hb')
  have h2 := t.mag_strictMono.lt_iff_lt.mp (hb.trans_lt ha')
  omega

end Sys2Proof.Machine
end

section
/-! PROOFS. Floating-point moves, sign injection, classes, comparisons, minimum and maximum. -/

namespace Sys2Proof.Machine

open Sys2Proof.Claim

/-! Sign injection and moves. -/

theorem extractLsb'_eq_ofNat {n : Nat} (a : BitVec n) (i k : Nat) : a.extractLsb' i k = BitVec.ofNat k (a.toNat / 2 ^ i) := by
  rw [BitVec.extractLsb', Nat.shiftRight_eq_div_pow]

theorem ofBool_eq_ofNat (n : Nat) : BitVec.ofBool (n % 2 == 1) = BitVec.ofNat 1 n := by
  apply BitVec.eq_of_toNat_eq
  rcases Nat.mod_two_eq_zero_or_one n with h | h <;> simp [h]

theorem toNat_ofBool_append {k : Nat} (neg : Bool) (v : BitVec k) : (BitVec.ofBool neg ++ v).toNat = if neg then v.toNat + 2 ^ k else v.toNat := by
  rw [BitVec.toNat_append, ← Nat.shiftLeft_add_eq_or_of_lt v.isLt, Nat.shiftLeft_eq]
  cases neg
  · simp
  · simp [Nat.add_comm]

/-- A double with a sign. -/
theorem box_d_withSign (a : Word) (neg : Bool) : box .d (withSign fmt64 a.toNat neg) = BitVec.ofBool neg ++ a.extractLsb' 0 63 := by
  apply BitVec.eq_of_toNat_eq
  rw [toNat_ofBool_append, extractLsb'_eq_ofNat]
  simp only [box, withSign, Fmt.sign, fmt64, BitVec.toNat_ofNat]
  split <;> omega

/-- A boxed single with a sign. -/
theorem box_s_withSign (a : Word) (neg : Bool) :
    box .s (withSign fmt32 (a.toNat % 2 ^ 32) neg) = 0xFFFFFFFF#32 ++ (BitVec.ofBool neg ++ a.extractLsb' 0 31) := by
  rw [box_s_eq_append]
  congr 1
  apply BitVec.eq_of_toNat_eq
  rw [toNat_ofBool_append, extractLsb'_eq_ofNat]
  simp only [withSign, Fmt.sign, fmt32, BitVec.toNat_ofNat]
  split <;> omega

theorem ofBool_signBit_d (a : Word) : BitVec.ofBool (signBit fmt64 a.toNat) = a.extractLsb' 63 1 := by
  rw [extractLsb'_eq_ofNat]; exact ofBool_eq_ofNat _

theorem ofBool_signBit_s (a : Word) : BitVec.ofBool (signBit fmt32 (a.toNat % 2 ^ 32)) = a.extractLsb' 31 1 := by
  rw [extractLsb'_eq_ofNat, signBit, ofBool_eq_ofNat]
  apply BitVec.eq_of_toNat_eq
  simp only [fmt32, BitVec.toNat_ofNat]
  omega

theorem unbox_s_of_boxed {v : Word} (h : Boxed v) : unbox .s v = v.toNat % 2 ^ 32 := by
  have hh := congrArg BitVec.toNat h
  rw [extractLsb'_eq_ofNat, BitVec.toNat_ofNat, BitVec.toNat_ofNat] at hh
  have hv := v.isLt
  rw [unbox, if_pos]
  rw [beq_iff_eq]
  omega

/-- Sign injection as an operation on the sign bits. -/
theorem State.fpDone_signInjection (s : State) (fd rs1 rs2 : FReg) {i : FpFmt → Instr} {g : Bool → Bool → Bool}
    {op : BitVec 1 → BitVec 1 → BitVec 1} (hop : ∀ p q, BitVec.ofBool (g p q) = op (BitVec.ofBool p) (BitVec.ofBool q))
    (hi : ∀ t, exec (i t) s = .next (s.fpResult t fd
      (withSign (fpFmt t) (s.fp t rs1) (g (signBit (fpFmt t) (s.fp t rs1)) (signBit (fpFmt t) (s.fp t rs2))), 0))) :
    let a := s.f rs1
    let b := s.f rs2
    let fp := fun (i : Instr) (v : Word) => ∃ u, exec i s = .next u ∧ FpDone s u fd v 0 1
    fp (i .d) (op (a.extractLsb' 63 1) (b.extractLsb' 63 1) ++ a.extractLsb' 0 63) ∧
    (Boxed a → Boxed b → fp (i .s) (0xFFFFFFFF#32 ++ (op (a.extractLsb' 31 1) (b.extractLsb' 31 1) ++ a.extractLsb' 0 31))) := by
  intro a b fp
  refine ⟨⟨_, hi .d, ?_⟩, fun ha hb => ⟨_, hi .s, ?_⟩⟩
  · rw [← ofBool_signBit_d, ← ofBool_signBit_d, ← hop, ← box_d_withSign]
    exact s.fpDone_fpResult ..
  · have ha' : s.fp .s rs1 = a.toNat % 2 ^ 32 := unbox_s_of_boxed ha
    have hb' : s.fp .s rs2 = b.toNat % 2 ^ 32 := unbox_s_of_boxed hb
    rw [← ofBool_signBit_s, ← ofBool_signBit_s, ← hop, ← box_s_withSign, ha', hb']
    exact s.fpDone_fpResult ..

/-! The fields of an encoding. -/

/-- The magnitude that an encoding numbers has its exponent and mantissa fields. -/
theorem Fmt.value_eq {t : Fmt} (hi : t.noInf = false) (b : Nat) :
    let neg := b / 2 ^ (t.E + t.M) % 2 == 1
    t.value b = if b / 2 ^ t.M % 2 ^ t.E = 2 ^ t.E - 1 then
        (if b % 2 ^ t.M = 0 then .inf neg else .nan (!t.isFp8 && b % 2 ^ t.M / 2 ^ (t.M - 1) == 0))
      else .fin neg (magnitude t (b % 2 ^ (t.E + t.M))).1 (magnitude t (b % 2 ^ (t.E + t.M))).2 := by
  intro neg
  have hmod : b % 2 ^ (t.E + t.M) % 2 ^ t.M = b % 2 ^ t.M := Nat.mod_mod_of_dvd _ (pow_dvd_pow 2 (by omega))
  have hdiv : b % 2 ^ (t.E + t.M) / 2 ^ t.M = b / 2 ^ t.M % 2 ^ t.E := by
    rw [Nat.add_comm, pow_add, Nat.mod_mul_right_div_self]
  have hp : 0 < 2 ^ t.M := Nat.two_pow_pos _
  unfold Fmt.value magnitude
  simp only [hi, beq_iff_eq, Bool.false_eq_true, if_false, hmod, hdiv]
  by_cases htop : b / 2 ^ t.M % 2 ^ t.E = 2 ^ t.E - 1
  · simp only [if_pos htop]; rfl
  · simp only [if_neg htop]
    by_cases h0 : b / 2 ^ t.M % 2 ^ t.E = 0
    · have hk : b % 2 ^ (t.E + t.M) < 2 ^ t.M := (Nat.div_eq_zero_iff_lt hp).mp (hdiv.trans h0)
      have hk' : b % 2 ^ (t.E + t.M) = b % 2 ^ t.M := by rw [← hmod, Nat.mod_eq_of_lt hk]
      rw [if_pos h0, if_pos hk, hk']
    · have hk : ¬ b % 2 ^ (t.E + t.M) < 2 ^ t.M := fun h => h0 (hdiv ▸ Nat.div_eq_of_lt h)
      rw [if_neg h0, if_neg hk]

theorem Fmt.isNeg_value {t : Fmt} (hi : t.noInf = false) {b : Nat} (h : (t.value b).isNan = false) :
    (t.value b).isNeg = (b / 2 ^ (t.E + t.M) % 2 == 1) := by
  rw [Fmt.value_eq hi] at h ⊢
  split at h
  · split at h
    · next h1 h2 => rw [if_pos h1, if_pos h2]; rfl
    · cases h
  · next h1 => rw [if_neg h1]; rfl

/-! Order. -/

theorem numCmp_fin_eq_zero {neg : Bool} {am bm : Nat} {ae be : Int} (h : numCmp (.fin neg am ae) (.fin neg bm be) = 0) :
    (am : ℝ) * 2 ^ ae = bm * 2 ^ be := by
  have hz : (if neg then -1 else 1 : Int) ≠ 0 := by cases neg <;> decide
  simp only [numCmp, beq_iff_eq] at h
  generalize (if neg then -1 else 1 : Int) = z at h hz
  split at h
  · cases h
  · split at h
    · next he =>
      rw [← scaled_eq am (min_le_left ae be), ← scaled_eq bm (min_le_right ae be), Nat.cast_inj.mp (mul_left_cancel₀ hz he)]
    · cases h

/-- Numbers of one sign that compare as equal are one encoding. -/
theorem Fmt.eq_of_numCmp_eq_zero {t : Fmt} (hi : t.noInf = false) {x y : Nat} (hx : (t.value x).isNan = false) (hy : (t.value y).isNan = false)
    (hs : x / 2 ^ (t.E + t.M) = y / 2 ^ (t.E + t.M)) (hc : numCmp (t.value x) (t.value y) = 0) : x = y := by
  suffices h : x % 2 ^ (t.E + t.M) = y % 2 ^ (t.E + t.M) by
    rw [← Nat.div_add_mod x (2 ^ (t.E + t.M)), ← Nat.div_add_mod y (2 ^ (t.E + t.M)), hs, h]
  rw [Fmt.value_eq hi] at hx hc
  rw [Fmt.value_eq hi] at hy hc
  have hmod (b : Nat) : b % 2 ^ (t.E + t.M) = b % 2 ^ t.M + 2 ^ t.M * (b / 2 ^ t.M % 2 ^ t.E) := by
    rw [Nat.add_comm t.E, pow_add, Nat.mod_mul]
  by_cases htx : x / 2 ^ t.M % 2 ^ t.E = 2 ^ t.E - 1 <;> by_cases hty : y / 2 ^ t.M % 2 ^ t.E = 2 ^ t.E - 1
  · have hmx : x % 2 ^ t.M = 0 := by by_contra hm; rw [if_pos htx, if_neg hm] at hx; cases hx
    have hmy : y % 2 ^ t.M = 0 := by by_contra hm; rw [if_pos hty, if_neg hm] at hy; cases hy
    rw [hmod, hmod, hmx, hmy, htx, hty]
  · have hmx : x % 2 ^ t.M = 0 := by by_contra hm; rw [if_pos htx, if_neg hm] at hx; cases hx
    rw [if_pos htx, if_pos hmx, if_neg hty] at hc
    simp only [numCmp] at hc
    split at hc <;> cases hc
  · have hmy : y % 2 ^ t.M = 0 := by by_contra hm; rw [if_pos hty, if_neg hm] at hy; cases hy
    rw [if_neg htx, if_pos hty, if_pos hmy] at hc
    simp only [numCmp] at hc
    split at hc <;> cases hc
  · rw [if_neg htx, if_neg hty, hs] at hc
    exact t.mag_strictMono.injective (numCmp_fin_eq_zero hc)

/-! Minimum and maximum. -/

/-- The choice by order, and between equal values by sign: the sign of one operand decides when equal signs mean one encoding. -/
theorem choose_eq {α : Type} {c : Int} {sx sy : Nat} (hsx : sx < 2) (hsy : sy < 2) {x y : α} (heq : c = 0 → sx = sy → x = y) (mx : Bool) :
    (if ((decide (c < 0) || (c == 0 && sx == 1 && !(sy == 1))) != mx) = true then x else y) =
      if (if mx = true then 0 < c ∨ c = 0 ∧ sy = 1 else c < 0 ∨ c = 0 ∧ sx = 1) then x else y := by
  rcases lt_trichotomy c 0 with hc | hc | hc
  · cases mx <;> simp [hc, hc.ne, hc.not_gt]
  · by_cases hs : sx = sy
    · rw [heq hc hs, ite_self, ite_self]
    · obtain ⟨rfl, rfl⟩ | ⟨rfl, rfl⟩ : sx = 0 ∧ sy = 1 ∨ sx = 1 ∧ sy = 0 := by omega
      · cases mx <;> simp [hc]
      · cases mx <;> simp [hc]
  · cases mx <;> simp [hc, hc.ne', hc.not_gt]

/-- What FMIN and FMAX give, by the encodings and the order of their values. -/
theorem Fmt.minmax_eq {t : Fmt} (hi : t.noInf = false) {x y : Nat} (hx : x < 2 ^ (t.E + t.M + 1)) (hy : y < 2 ^ (t.E + t.M + 1)) (mx : Bool) :
    let p := t.value x
    let q := t.value y
    let first := if mx then 0 < numCmp p q ∨ numCmp p q = 0 ∧ y / 2 ^ (t.E + t.M) = 1
      else numCmp p q < 0 ∨ numCmp p q = 0 ∧ x / 2 ^ (t.E + t.M) = 1
    t.minmax mx x y = (if p.isNan = true ∧ q.isNan = true then t.qnan else if p.isNan = true then y else if q.isNan = true then x
      else if first then x else y, if p.isSig = true ∨ q.isSig = true then 0b10000 else 0) := by
  intro p q first
  have hflag : flagIf (p.isSig || q.isSig) fNV = if p.isSig = true ∨ q.isSig = true then 0b10000 else 0 := by
    simp only [flagIf, Bool.or_eq_true]; rfl
  unfold Fmt.minmax
  simp only [← hflag, Bool.and_eq_true]
  by_cases hp : p.isNan = true
  · by_cases hq : q.isNan = true <;> simp [p, q, hp, hq]
  · by_cases hq : q.isNan = true
    · simp [p, q, hp, hq]
    · rw [Bool.not_eq_true] at hp hq
      have hsx : x / 2 ^ (t.E + t.M) < 2 := Nat.div_lt_of_lt_mul (by rwa [← pow_succ])
      have hsy : y / 2 ^ (t.E + t.M) < 2 := Nat.div_lt_of_lt_mul (by rwa [← pow_succ])
      have heq : numCmp p q = 0 → x / 2 ^ (t.E + t.M) = y / 2 ^ (t.E + t.M) → x = y := fun hc hs => Fmt.eq_of_numCmp_eq_zero hi hp hq hs hc
      have hchoose := choose_eq hsx hsy heq mx
      simp only [p, q] at hp hq hchoose
      simp only [p, q, first, hp, hq, Fmt.isNeg_value hi hp, Fmt.isNeg_value hi hq, Nat.mod_eq_of_lt hsx, Nat.mod_eq_of_lt hsy,
        Bool.false_eq_true, and_self, if_false, ← hchoose]

/-! Classes. -/

/-- The number of the class of an encoding, by its fields. -/
def Fmt.classOf (t : Fmt) (a : Nat) : Nat :=
  let ex := a / 2 ^ t.M % 2 ^ t.E
  let neg := a / 2 ^ (t.E + t.M) = 1
  if ex = 2 ^ t.E - 1 then (if a % 2 ^ t.M = 0 then (if neg then 0 else 7) else if a / 2 ^ (t.M - 1) % 2 = 0 then 8 else 9)
  else if ex = 0 then (if a % 2 ^ t.M = 0 then (if neg then 3 else 4) else if neg then 2 else 5) else if neg then 1 else 6

theorem fpClass_eq {t : Fmt} (hi : t.noInf = false) (h8 : t.isFp8 = false) (hM : 1 ≤ t.M) {a : Nat} (ha : a < 2 ^ (t.E + t.M + 1)) :
    fpClass t a = BitVec.ofNat 64 (2 ^ t.classOf a) := by
  have hs : a / 2 ^ (t.E + t.M) % 2 = a / 2 ^ (t.E + t.M) := Nat.mod_eq_of_lt (Nat.div_lt_of_lt_mul (by rwa [← pow_succ]))
  have hq : a % 2 ^ t.M / 2 ^ (t.M - 1) = a / 2 ^ (t.M - 1) % 2 := by
    have hpow : 2 ^ t.M = 2 ^ (t.M - 1) * 2 := by rw [← pow_succ, Nat.sub_add_cancel hM]
    rw [hpow, Nat.mod_mul_right_div_self]
  have hm : a % 2 ^ t.M < 2 ^ t.M := Nat.mod_lt _ (Nat.two_pow_pos _)
  have hp : 2 ^ t.M ≠ 0 := (Nat.two_pow_pos _).ne'
  unfold fpClass Fmt.value Fmt.classOf
  simp only [hi, h8, hs, hq, Bool.false_eq_true, if_false, beq_iff_eq, Bool.not_false, Bool.true_and]
  by_cases htop : a / 2 ^ t.M % 2 ^ t.E = 2 ^ t.E - 1
  · simp only [htop, if_true]
    by_cases h0 : a % 2 ^ t.M = 0
    · simp only [h0, if_true]
      by_cases hn : a / 2 ^ (t.E + t.M) = 1 <;> simp [hn]
    · simp only [h0, if_false]
      by_cases hn : a / 2 ^ (t.M - 1) % 2 = 0 <;> simp [hn]
  · simp only [htop, if_false]
    by_cases he : a / 2 ^ t.M % 2 ^ t.E = 0
    · simp only [he, if_true, hm]
      by_cases h0 : a % 2 ^ t.M = 0 <;> by_cases hn : a / 2 ^ (t.E + t.M) = 1 <;> simp [h0, hn]
    · have h1 : 2 ^ t.M + a % 2 ^ t.M ≠ 0 := by omega
      have h2 : ¬ 2 ^ t.M + a % 2 ^ t.M < 2 ^ t.M := by omega
      simp only [he, h1, h2, if_false]
      by_cases hn : a / 2 ^ (t.E + t.M) = 1 <;> simp [hn]

/-! Comparisons. -/

/-- A comparison of NaNs, of values in the relation, and of values out of it. -/
theorem fpCompare_eq (t : Fmt) (quiet : Bool) {r : Int → Prop} [DecidablePred r] (a b : Nat) :
    fpCompare t quiet (fun c => decide (r c)) a b =
      if ((t.value a).isNan || (t.value b).isNan) = true then
        (0, if quiet = false ∨ (t.value a).isSig = true ∨ (t.value b).isSig = true then 0b10000 else 0)
      else (if r (numCmp (t.value a) (t.value b)) then 1 else 0, 0) := by
  simp only [fpCompare, boolWord_decide, flagIf, Bool.or_eq_true, Bool.not_eq_true', or_assoc]
  rfl

theorem State.flagDone_compare (s : State) {t : FpFmt} {rd : XReg} {rs1 rs2 : FReg} {i : Instr} {quiet : Bool} {r : Int → Prop}
    [DecidablePred r]
    (h : exec i s = .next (s.fpToX rd (fpCompare (fpFmt t) quiet (fun c => decide (r c)) (s.fp t rs1) (s.fp t rs2)))) :
    let p := (fpFmt t).value (s.fp t rs1)
    let q := (fpFmt t).value (s.fp t rs2)
    ((p.isNan || q.isNan) = true → ∃ u, exec i s = .next u ∧
      FlagDone s u rd 0 (if quiet = false ∨ p.isSig = true ∨ q.isSig = true then 0b10000 else 0)) ∧
    ((p.isNan || q.isNan) = false → (r (numCmp p q) → ∃ u, exec i s = .next u ∧ FlagDone s u rd 1 0) ∧
      (¬ r (numCmp p q) → ∃ u, exec i s = .next u ∧ FlagDone s u rd 0 0)) := by
  intro p q
  rw [fpCompare_eq] at h
  refine ⟨fun hn => ?_, fun hn => ⟨fun hr => ?_, fun hr => ?_⟩⟩
  · rw [if_pos hn] at h
    exact ⟨_, h, s.flagDone_fpToX rd _⟩
  · rw [if_neg (Bool.not_eq_true _ ▸ hn), if_pos hr] at h
    exact ⟨_, h, s.flagDone_fpToX rd _⟩
  · rw [if_neg (Bool.not_eq_true _ ▸ hn), if_neg hr] at h
    exact ⟨_, h, s.flagDone_fpToX rd _⟩

/-- The formats of F and D have infinities and signalling NaNs. -/
theorem fpFmt_spec (t : FpFmt) : (fpFmt t).noInf = false ∧ (fpFmt t).isFp8 = false ∧ 1 ≤ (fpFmt t).M := by cases t <;> decide

theorem box_d_toNat (w : Word) : box .d w.toNat = w := by rw [box, BitVec.ofNat_toNat, BitVec.setWidth_eq]

theorem State.fp_lt (s : State) (t : FpFmt) (r : FReg) : s.fp t r < 2 ^ ((fpFmt t).E + (fpFmt t).M + 1) := by
  unfold State.fp unbox
  cases t with
  | s =>
    dsimp only
    split
    · exact Nat.mod_lt _ (by decide)
    · decide
  | d => exact (s.f r).isLt

/-- Settles O18: sign injection through the sign bits, classes and comparisons through the values, minimum and maximum through their order. -/
theorem fpMovesAndCompares : Obligations.FpMovesAndCompares := by
  intro s fd rs1 rs2 rd x1 t a b fp sg p q x y M E sign ex neg cls cmp
  refine ⟨?_, ?_, ?_, ⟨_, rfl, ?_⟩, ⟨_, rfl, s.did_result rd a⟩, ⟨_, rfl, ?_⟩,
    ⟨_, congrArg (fun v => (.next (s.setF fd v).retire : Out)) (box_d_toNat (s.x x1)), s.fpDone_setF fd _⟩, ⟨_, rfl, ?_⟩, ?_, ?_, ?_, ?_⟩
  · exact s.fpDone_signInjection fd rs1 rs2 (i := fun t => .fsgnj t fd rs1 rs2) (g := fun _ q => q) (op := fun _ y => y)
      (fun _ _ => rfl) (fun _ => rfl)
  · exact s.fpDone_signInjection fd rs1 rs2 (i := fun t => .fsgnjn t fd rs1 rs2) (g := fun _ q => !q) (op := fun _ y => ~~~ y)
      (fun _ q => by cases q <;> rfl) (fun _ => rfl)
  · exact s.fpDone_signInjection fd rs1 rs2 (i := fun t => .fsgnjx t fd rs1 rs2) (g := fun p q => p != q) (op := fun x y => x ^^^ y)
      (fun p q => by cases p <;> cases q <;> rfl) (fun _ => rfl)
  · rw [extractLsb'_eq_ofNat, pow_zero, Nat.div_one, BitVec.ofNat_toNat]
    exact s.did_result rd (sextW a)
  · rw [extractLsb'_eq_ofNat, pow_zero, Nat.div_one, ← box_s_eq_append]
    exact s.fpDone_setF fd _
  · have hcls : (fpFmt t).classOf x = cls := by cases t <;> rfl
    rw [← hcls, ← fpClass_eq (fpFmt_spec t).1 (fpFmt_spec t).2.1 (fpFmt_spec t).2.2 (s.fp_lt t rs1)]
    exact s.did_result rd _
  · exact s.flagDone_compare (i := .feq t rd rs1 rs2) (quiet := true) (r := fun c => c = 0) rfl
  · exact s.flagDone_compare (i := .flt t rd rs1 rs2) (quiet := false) (r := fun c => c < 0) rfl
  · exact s.flagDone_compare (i := .fle t rd rs1 rs2) (quiet := false) (r := fun c => c ≤ 0) rfl
  · have hq : (fpFmt t).qnan = if t = .s then 0x7FC00000 else 0x7FF8000000000000 := by cases t <;> rfl
    have hE : (fpFmt t).E + (fpFmt t).M = M + E := by cases t <;> rfl
    have hmin := Fmt.minmax_eq (fpFmt_spec t).1 (s.fp_lt t rs1) (s.fp_lt t rs2)
    rw [hq, hE] at hmin
    intro i r hi
    simp only [List.mem_cons, Prod.mk.injEq, List.not_mem_nil, or_false] at hi
    rcases hi with ⟨rfl, rfl⟩ | ⟨rfl, rfl⟩
    · exact ⟨_, congrArg (fun r => (.next (s.fpResult t fd r) : Out)) (hmin false), s.fpDone_fpResult t fd _⟩
    · exact ⟨_, congrArg (fun r => (.next (s.fpResult t fd r) : Out)) (hmin true), s.fpDone_fpResult t fd _⟩

end Sys2Proof.Machine
end

section
/-! PROOFS. The parts of a rounding: a quotient and its remainder, the binade, the neighbour a mode takes. -/

namespace Sys2Proof.Machine

open Sys2Proof.Claim

/-- A quantum is a whole number of units and a fraction of one. -/
theorem quantum_spec (num : Nat) {den : Nat} (hden : 0 < den) (e q : Int) :
    (quantum num den e q).2.1 < (quantum num den e q).2.2 ∧
    (num : ℝ) / den * 2 ^ e = ((quantum num den e q).1 + (quantum num den e q).2.1 / (quantum num den e q).2.2 : ℝ) * 2 ^ q := by
  set n := num * 2 ^ (e - q).toNat with hn
  set d := den * 2 ^ (q - e).toNat with hd
  have hd0 : 0 < d := Nat.mul_pos hden (Nat.two_pow_pos _)
  refine ⟨Nat.mod_lt n hd0, ?_⟩
  have hr : ((n / d : Nat) : ℝ) + (n % d : Nat) / d = n / d := by
    have := congrArg (Nat.cast (R := ℝ)) (Nat.div_add_mod n d)
    push_cast at this
    have hdr : (d : ℝ) ≠ 0 := Nat.cast_ne_zero.mpr hd0.ne'
    field_simp
    linarith
  show _ = (((n / d : Nat) : ℝ) + (n % d : Nat) / d) * 2 ^ q
  have he : ((e - q).toNat : Int) = e - q + (q - e).toNat := by omega
  rw [hr, hn, hd]
  push_cast
  rw [← zpow_natCast, ← zpow_natCast, he, zpow_add₀ two_ne_zero, zpow_sub₀ two_ne_zero]
  have h2 := two_zpow_pos q
  have h3 := two_zpow_pos ((q - e).toNat)
  have hdr : (den : ℝ) ≠ 0 := Nat.cast_ne_zero.mpr hden.ne'
  field_simp

theorem log2Q_spec {num den : Nat} (hnum : 0 < num) (hden : 0 < den) :
    (2 : ℝ) ^ log2Q num den ≤ num / den ∧ (num : ℝ) / den < 2 ^ (log2Q num den + 1) := by
  have hd : (0 : ℝ) < den := Nat.cast_pos.mpr hden
  have hn1 : (2 : ℝ) ^ (Nat.log2 num : Int) ≤ num := by exact_mod_cast Nat.log2_self_le hnum.ne'
  have hn2 : (num : ℝ) < 2 ^ ((Nat.log2 num : Int) + 1) := by exact_mod_cast Nat.lt_log2_self (n := num)
  have hd1 : (2 : ℝ) ^ (Nat.log2 den : Int) ≤ den := by exact_mod_cast Nat.log2_self_le hden.ne'
  have hd2 : (den : ℝ) < 2 ^ ((Nat.log2 den : Int) + 1) := by exact_mod_cast Nat.lt_log2_self (n := den)
  set g : Int := (Nat.log2 num : Int) - Nat.log2 den with hg
  have hlt : num * 2 ^ (-g).toNat < den * 2 ^ g.toNat ↔ (num : ℝ) < den * 2 ^ g := by
    have h1 : (-g).toNat = (0 - min 0 g).toNat := by omega
    have h2 : g.toNat = (g - min 0 g).toNat := by omega
    rw [h1, h2, ← Nat.cast_lt (α := ℝ), ← mul_lt_mul_iff_left₀ (two_zpow_pos (min 0 g)), scaled_eq _ (min_le_left ..),
      scaled_eq _ (min_le_right ..), zpow_zero, mul_one]
  have hlow : (2 : ℝ) ^ (g - 1) * den ≤ num := by
    calc (2 : ℝ) ^ (g - 1) * den ≤ 2 ^ (g - 1) * 2 ^ ((Nat.log2 den : Int) + 1) := by gcongr
      _ = 2 ^ (Nat.log2 num : Int) := by rw [← zpow_add₀ two_ne_zero]; congr 1; omega
      _ ≤ num := hn1
  have hhigh : (num : ℝ) < 2 ^ (g + 1) * den := by
    calc (num : ℝ) < 2 ^ ((Nat.log2 num : Int) + 1) := hn2
      _ = 2 ^ (g + 1) * 2 ^ (Nat.log2 den : Int) := by rw [← zpow_add₀ two_ne_zero]; congr 1; omega
      _ ≤ 2 ^ (g + 1) * den := by gcongr
  rw [le_div_iff₀ hd, div_lt_iff₀ hd]
  unfold log2Q
  simp only [← hg, hlt]
  split
  · next h => exact ⟨hlow, by rw [sub_add_cancel, mul_comm]; exact h⟩
  · next h => exact ⟨by rw [mul_comm]; exact not_lt.mp h, hhigh⟩

/-- n + r / d units are exactly n units when nothing is left. -/
theorem compare_units_eq {n r d : Nat} {q : Int} {v : ℝ} (hd : r < d) (hv : v = (n + r / d : ℝ) * 2 ^ q) :
    (compare v (n * 2 ^ q) == .eq) = (r == 0) := by
  have hd0 : (d : ℝ) ≠ 0 := Nat.cast_ne_zero.mpr (by omega)
  rw [hv, compare_mul_right _ _ (two_zpow_pos q), Bool.eq_iff_iff, beq_iff_eq, beq_iff_eq, compare_eq_iff_eq]
  simp [hd0]

/-- The neighbour that roundsUp takes for n + r / d units is the one of Table 05.3. -/
theorem roundsUp_eq_takesUpper (mode : RMode) (neg odd : Bool) {n r d : Nat} {q : Int} {v : ℝ} (hd : r < d)
    (hv : v = (n + r / d : ℝ) * 2 ^ q) :
    roundsUp mode neg odd r d =
      takesUpper mode neg (compare v (n * 2 ^ q) == .eq) (compare v ((2 * n + 1 : Nat) * 2 ^ (q - 1))) odd := by
  have hd0 : (0 : ℝ) < d := Nat.cast_pos.mpr (by omega)
  have hmid : compare v ((2 * n + 1 : Nat) * 2 ^ (q - 1)) = compare (2 * r) d := by
    have h2 : ((2 * n + 1 : Nat) : ℝ) * 2 ^ (q - 1) = (n + 1 / 2) * 2 ^ q := by
      rw [zpow_sub_one₀ two_ne_zero]; push_cast; ring
    have h3 : (r : ℝ) / d = 2 * r / (2 * d) := (mul_div_mul_left _ _ two_ne_zero).symm
    have h4 : (1 / 2 : ℝ) = d / (2 * d) := by field_simp
    rw [h2, hv, compare_mul_right _ _ (two_zpow_pos q), h3, h4]
    refine compare_congr ?_ ?_
    · rw [add_lt_add_iff_left, div_lt_div_iff_of_pos_right (by positivity)]; exact_mod_cast Iff.rfl
    · rw [add_right_inj, div_left_inj' (by positivity)]; exact_mod_cast Iff.rfl
  rw [compare_units_eq hd hv, hmid]
  cases mode with
  | rne =>
    rw [Bool.eq_iff_iff]
    simp [roundsUp, takesUpper, compare_gt_iff_gt]
  | rmm =>
    rw [Bool.eq_iff_iff]
    simp [roundsUp, takesUpper, compare_lt_iff_lt]
  | _ => rfl

end Sys2Proof.Machine
end

section
/-! PROOFS. The rounding function: the place of a value among the magnitudes of a format, tininess, the neighbour taken. -/

namespace Sys2Proof.Machine

open Sys2Proof.Claim

/-! The place of a value among the magnitudes. -/

/-- The unit of the last place of a value in the binade of 2^ev. -/
def Fmt.unit (t : Fmt) (ev : Int) : Int := max (ev - t.M) t.least

theorem lt_of_mul_zpow_lt {a b : ℝ} {q : Int} (h : a * 2 ^ q < b * 2 ^ q) : a < b := lt_of_mul_lt_mul_right h (two_zpow_pos q).le

/-- A value is not below its whole units, and below one more. -/
theorem units_le_lt {n r d : Nat} {q : Int} {v : ℝ} (hd : r < d) (hv : v = (n + r / d : ℝ) * 2 ^ q) :
    (n : ℝ) * 2 ^ q ≤ v ∧ v < (n + 1) * 2 ^ q := by
  have hd0 : (0 : ℝ) < d := Nat.cast_pos.mpr (by omega)
  have h1 : (r : ℝ) / d < 1 := (div_lt_one hd0).mpr (Nat.cast_lt.mpr hd)
  have h0 : (0 : ℝ) ≤ r / d := by positivity
  have h2 := two_zpow_pos q
  rw [hv]
  constructor
  · gcongr; linarith
  · gcongr

/-- The whole units of a value in its last place are its mantissa, and with the binade its lower neighbour. -/
theorem Fmt.place_eq (t : Fmt) {ev : Int} {v : ℝ} {n lo : Nat} (h1 : (2 : ℝ) ^ ev ≤ v) (h2 : v < 2 ^ (ev + 1))
    (hn : (n : ℝ) * 2 ^ t.unit ev ≤ v) (hn' : v < (n + 1) * 2 ^ t.unit ev) (hlo : t.mag lo ≤ v) (hlo' : v < t.mag (lo + 1)) :
    lo = (t.unit ev - t.least).toNat * 2 ^ t.M + n ∧ magnitude t lo = (n, t.unit ev) := by
  set Q := (t.unit ev - t.least).toNat with hQ
  have hq : (Q : Int) + t.least = t.unit ev := by unfold Fmt.unit at *; omega
  have hlt : n < 2 ^ (t.M + 1) := by
    have h : (n : ℝ) * 2 ^ t.unit ev < (2 ^ (t.M + 1) : Nat) * 2 ^ t.unit ev := by
      calc (n : ℝ) * 2 ^ t.unit ev ≤ v := hn
        _ < 2 ^ (ev + 1) := h2
        _ ≤ 2 ^ (((t.M + 1 : Nat) : Int) + t.unit ev) := zpow_le_zpow_right₀ one_le_two (by unfold Fmt.unit; omega)
        _ = (2 ^ (t.M + 1) : Nat) * 2 ^ t.unit ev := by rw [zpow_add₀ two_ne_zero, zpow_natCast]; push_cast; rfl
    exact Nat.cast_lt.mp (lt_of_mul_zpow_lt h)
  have hge : Q = 0 ∨ 2 ^ t.M ≤ n := by
    refine or_iff_not_imp_left.mpr (fun hQ0 => ?_)
    have hu : t.unit ev = ev - t.M := by unfold Fmt.unit at *; omega
    have h : ((2 ^ t.M : Nat) : ℝ) * 2 ^ t.unit ev < (n + 1 : Nat) * 2 ^ t.unit ev := by
      calc ((2 ^ t.M : Nat) : ℝ) * 2 ^ t.unit ev = 2 ^ ((t.M : Int) + t.unit ev) := by
            rw [zpow_add₀ two_ne_zero, zpow_natCast]; push_cast; rfl
        _ = 2 ^ ev := by rw [hu]; congr 1; omega
        _ ≤ v := h1
        _ < (n + 1 : Nat) * 2 ^ t.unit ev := by push_cast; exact hn'
    exact Nat.lt_succ_iff.mp (Nat.cast_lt.mp (lt_of_mul_zpow_lt h))
  have hm := magnitude_eq t hge hlt
  rw [hq] at hm
  have he : lo = Q * 2 ^ t.M + n := by
    refine Fmt.eq_of_mag_le_of_lt hlo hlo' ?_ ?_
    · rw [Fmt.mag, hm]; exact hn
    · rw [Fmt.mag_succ, hm]; exact hn'
  exact ⟨he, he ▸ hm⟩

/-! Rounding up. -/

/-- Is the upper neighbour of the value taken? -/
noncomputable def Fmt.up (t : Fmt) (mode : RMode) (neg : Bool) (v : ℝ) (lo : Nat) : Bool :=
  takesUpper mode neg (compare v (t.mag lo) == .eq)
    (compare v ((2 * (magnitude t lo).1 + 1 : Nat) * 2 ^ ((magnitude t lo).2 - 1))) (lo % 2 == 1)

/-- Below the least normal magnitude: does the value with one more place round up to it? -/
noncomputable def Fmt.reaches (t : Fmt) (mode : RMode) (neg : Bool) (v : ℝ) : Bool :=
  takesUpper mode neg (compare v ((2 ^ (t.M + 1) - 1 : Nat) * 2 ^ (t.least - 1)) != .gt)
    (compare v ((2 ^ (t.M + 2) - 1 : Nat) * 2 ^ (t.least - 2))) true

/-- The value is inexact and rounds, with one more place, to a number below the least normal magnitude. -/
def Fmt.tinyAt (t : Fmt) (lo : Nat) (reaches : Bool) : Prop := lo + 1 < 2 ^ t.M ∨ lo + 1 = 2 ^ t.M ∧ reaches = false

/-- The mantissa after rounding in units of 2^q. -/
def rounded (mode : RMode) (neg : Bool) (p : Nat × Nat × Nat) : Nat :=
  p.1 + (if roundsUp mode neg (p.1 % 2 == 1) p.2.1 p.2.2 then 1 else 0)

theorem rounded_le (mode : RMode) (neg : Bool) (p : Nat × Nat × Nat) : rounded mode neg p ≤ p.1 + 1 := by
  unfold rounded; split <;> omega

theorem takesUpper_of_exact_of_lt (mode : RMode) (neg odd : Bool) : takesUpper mode neg true .lt odd = false := by
  cases mode <;> simp [takesUpper]

/-- The least normal magnitude. -/
theorem Fmt.mag_two_pow (t : Fmt) : t.mag (2 ^ t.M) = 2 ^ (1 - (t.B : Int)) := by
  have h := t.mag_eq (Q := 0) (n := 2 ^ t.M) (.inl rfl) (Nat.pow_lt_pow_succ one_lt_two)
  rw [Nat.zero_mul, Nat.zero_add] at h
  rw [h]
  push_cast
  rw [zero_add, ← zpow_natCast, ← zpow_add₀ two_ne_zero]
  congr 1
  unfold Fmt.least; omega

/-- The greatest subnormal magnitude, with one place more. -/
theorem Fmt.mag_two_pow_sub_one (t : Fmt) : t.mag (2 ^ t.M - 1) = ((2 ^ (t.M + 1) : Nat) - 2 : ℝ) * 2 ^ (t.least - 1) := by
  have hp : 1 ≤ 2 ^ t.M := Nat.one_le_two_pow
  have h := t.mag_eq (Q := 0) (n := 2 ^ t.M - 1) (.inl rfl) (by rw [pow_succ]; omega)
  rw [Nat.zero_mul, Nat.zero_add] at h
  rw [h, Nat.cast_sub hp, zpow_sub_one₀ two_ne_zero]
  push_cast
  rw [zero_add]
  ring

/-- With one more place the value lies below the last number under the least normal magnitude. -/
theorem Fmt.reaches_of_lt (t : Fmt) (mode : RMode) (neg : Bool) {v : ℝ} {n : Nat} (hn : n + 1 < 2 ^ (t.M + 1))
    (hv : v < (n + 1) * 2 ^ (t.least - 1)) : t.reaches mode neg v = false := by
  have h1 : v < (2 ^ (t.M + 1) - 1 : Nat) * 2 ^ (t.least - 1) := by
    refine hv.trans_le (mul_le_mul_of_nonneg_right ?_ (two_zpow_pos _).le)
    rw [← Nat.cast_succ]
    exact Nat.cast_le.mpr (by omega)
  have h2 : v < (2 ^ (t.M + 2) - 1 : Nat) * 2 ^ (t.least - 2) := by
    refine h1.trans_le ?_
    have he : t.least - 1 = 1 + (t.least - 2) := by ring
    rw [he, zpow_add₀ two_ne_zero, zpow_one, ← mul_assoc]
    refine mul_le_mul_of_nonneg_right ?_ (two_zpow_pos _).le
    have h3 : (2 ^ (t.M + 1) - 1) * 2 ≤ 2 ^ (t.M + 2) - 1 := by rw [pow_succ 2 (t.M + 1)]; omega
    exact_mod_cast h3
  rw [Fmt.reaches, compare_lt_iff_lt.mpr h1, compare_lt_iff_lt.mpr h2]
  exact takesUpper_of_exact_of_lt mode neg true

/-- With one more place the value has the greatest mantissa. -/
theorem Fmt.reaches_eq_roundsUp (t : Fmt) (mode : RMode) (neg : Bool) {v : ℝ} {n r d : Nat} (hn : n + 1 = 2 ^ (t.M + 1)) (hd : r < d)
    (hv : v = (n + r / d : ℝ) * 2 ^ (t.least - 1)) : t.reaches mode neg v = roundsUp mode neg (n % 2 == 1) r d := by
  have hodd : (n % 2 == 1) = true := by rw [beq_iff_eq]; rw [pow_succ] at hn; omega
  have h1 : 2 ^ (t.M + 1) - 1 = n := by omega
  have h2 : 2 ^ (t.M + 2) - 1 = 2 * n + 1 := by rw [pow_succ 2 (t.M + 1)]; omega
  have h3 : (compare v (n * 2 ^ (t.least - 1)) != .gt) = (compare v (n * 2 ^ (t.least - 1)) == .eq) := by
    have h := compare_ge_iff_ge.mpr (units_le_lt hd hv).1
    cases hc : compare v (n * 2 ^ (t.least - 1)) <;> simp_all
  have h4 : t.least - 2 = t.least - 1 - 1 := by ring
  rw [roundsUp_eq_takesUpper mode neg _ hd hv, hodd, Fmt.reaches, h1, h2, h3, h4]

/-- With one more place a value below the least normal magnitude rounds up to it, or does not reach it. -/
theorem Fmt.rounded_eq_iff_reaches (t : Fmt) (mode : RMode) (neg : Bool) {v : ℝ} {p : Nat × Nat × Nat} (hd : p.2.1 < p.2.2)
    (hv : v = (p.1 + p.2.1 / p.2.2 : ℝ) * 2 ^ (t.least - 1)) (hlt : v < t.mag (2 ^ t.M)) :
    rounded mode neg p = 2 ^ (t.M + 1) ↔ t.reaches mode neg v = true := by
  obtain ⟨hu, hu'⟩ := units_le_lt hd hv
  have hp : p.1 < 2 ^ (t.M + 1) := by
    have he : t.mag (2 ^ t.M) = (2 ^ (t.M + 1) : Nat) * 2 ^ (t.least - 1) := by
      have hb : 1 - (t.B : Int) = ((t.M + 1 : Nat) : Int) + (t.least - 1) := by unfold Fmt.least; push_cast; ring
      rw [t.mag_two_pow, hb, zpow_add₀ two_ne_zero, zpow_natCast]; push_cast; rfl
    exact Nat.cast_lt.mp (lt_of_mul_zpow_lt (hu.trans_lt (he ▸ hlt)))
  by_cases hn : p.1 + 1 = 2 ^ (t.M + 1)
  · rw [t.reaches_eq_roundsUp mode neg hn hd hv, rounded, ← hn, Nat.add_right_inj]
    simp
  · rw [t.reaches_of_lt mode neg (by omega) hu']
    have := rounded_le mode neg p
    simp only [Bool.false_eq_true, iff_false]
    omega

section
variable {t : Fmt} {ev : Int} {v : ℝ} {lo : Nat}

theorem Fmt.two_pow_le_of_normal (h1 : (2 : ℝ) ^ ev ≤ v) (hlo' : v < t.mag (lo + 1)) (hev : 1 - t.B ≤ ev) : 2 ^ t.M ≤ lo := by
  have hb : t.mag (2 ^ t.M) ≤ v := by
    rw [t.mag_two_pow]
    exact (zpow_le_zpow_right₀ one_le_two hev).trans h1
  exact Nat.lt_succ_iff.mp (t.mag_strictMono.lt_iff_lt.mp (hb.trans_lt hlo'))

theorem Fmt.lt_two_pow_of_subnormal (h2 : v < 2 ^ (ev + 1)) (hlo : t.mag lo ≤ v) (hev : ev < 1 - t.B) : lo < 2 ^ t.M := by
  rw [← t.mag_strictMono.lt_iff_lt, t.mag_two_pow]
  exact hlo.trans_lt (h2.trans_le (zpow_le_zpow_right₀ one_le_two hev))

/-- Next to the least normal magnitude the binade is the one below it. -/
theorem Fmt.binade_of_greatest_subnormal (hM : 1 ≤ t.M) (h2 : v < 2 ^ (ev + 1)) (hlo : t.mag lo ≤ v) (hev : ev < 1 - t.B)
    (htop : lo + 1 = 2 ^ t.M) : ev = 1 - t.B - 1 := by
  by_contra hne
  have hb : t.mag (2 ^ t.M - 1) < 2 ^ (t.M + (t.least - 1)) := by
    rw [← htop, Nat.add_sub_cancel]
    exact hlo.trans_lt (h2.trans_le (zpow_le_zpow_right₀ one_le_two (by unfold Fmt.least; omega)))
  rw [t.mag_two_pow_sub_one, zpow_add₀ two_ne_zero, zpow_natCast] at hb
  have hb := lt_of_mul_zpow_lt hb
  have h4 : (2 : ℝ) ^ 1 ≤ 2 ^ t.M := pow_le_pow_right₀ one_le_two hM
  push_cast [pow_succ] at hb
  linarith

/-- Further below, one more place does not reach the least normal magnitude. -/
theorem Fmt.rounded_lt_of_subnormal (mode : RMode) (neg : Bool) {p : Nat × Nat × Nat} (hu : (p.1 : ℝ) * 2 ^ (t.least - 1) ≤ v)
    (hlo' : v < t.mag (lo + 1)) (hlt : lo + 1 < 2 ^ t.M) : rounded mode neg p < 2 ^ (t.M + 1) := by
  refine (rounded_le mode neg p).trans_lt (lt_of_not_ge fun hle => ?_)
  have hb : t.mag (2 ^ t.M - 1) ≤ v := by
    rw [t.mag_two_pow_sub_one]
    refine le_trans (mul_le_mul_of_nonneg_right ?_ (two_zpow_pos _).le) hu
    have : ((2 ^ (t.M + 1) : Nat) : ℝ) ≤ (p.1 + 1 : Nat) := Nat.cast_le.mpr hle
    push_cast at this ⊢
    linarith
  have := t.mag_strictMono.lt_iff_lt.mp (hb.trans_lt hlo')
  omega

/-- Tininess as the model detects it. -/
theorem Fmt.tiny_iff (hM : 1 ≤ t.M) (mode : RMode) (neg : Bool) {num den : Nat} {e : Int} (hden : 0 < den)
    (hv : (num : ℝ) / den * 2 ^ e = v) (h1 : (2 : ℝ) ^ ev ≤ v) (h2 : v < 2 ^ (ev + 1)) (hlo : t.mag lo ≤ v) (hlo' : v < t.mag (lo + 1)) :
    (ev < 1 - t.B ∧ ¬ (ev = 1 - t.B - 1 ∧ rounded mode neg (quantum num den e (ev - t.M)) = 2 ^ (t.M + 1))) ↔
      t.tinyAt lo (t.reaches mode neg v) := by
  obtain ⟨hd, hpv⟩ := quantum_spec num hden e (ev - t.M)
  have hq : ev = 1 - t.B - 1 → ev - t.M = t.least - 1 := by unfold Fmt.least; omega
  set p := quantum num den e (ev - t.M)
  rw [hv] at hpv
  by_cases hev : ev < 1 - t.B
  · have hsub := Fmt.lt_two_pow_of_subnormal h2 hlo hev
    by_cases hlt : lo + 1 < 2 ^ t.M
    · refine iff_of_true ⟨hev, fun ⟨he, hr⟩ => ?_⟩ (.inl hlt)
      exact (Fmt.rounded_lt_of_subnormal mode neg (hq he ▸ (units_le_lt hd hpv).1) hlo' hlt).ne hr
    · have htop : lo + 1 = 2 ^ t.M := by omega
      have he := Fmt.binade_of_greatest_subnormal hM h2 hlo hev htop
      have hr := t.rounded_eq_iff_reaches mode neg hd (hq he ▸ hpv) (htop ▸ hlo')
      rw [and_iff_right hev, hr]
      simp only [Fmt.tinyAt, he, htop, true_and, lt_irrefl, false_or, Bool.not_eq_true]
  · have hnorm := Fmt.two_pow_le_of_normal h1 hlo' (not_lt.mp hev)
    refine iff_of_false (fun h => hev h.1) ?_
    unfold Fmt.tinyAt
    omega

end

/-- In the last place of the value the model takes the neighbour of Table 05.3. -/
theorem Fmt.roundsUp_eq_up (t : Fmt) (hM : 1 ≤ t.M) (mode : RMode) (neg : Bool) {v : ℝ} {Q lo n r d : Nat} {q : Int} (hd : r < d)
    (hv : v = (n + r / d : ℝ) * 2 ^ q) (hlo : lo = Q * 2 ^ t.M + n) (hm : magnitude t lo = (n, q)) :
    roundsUp mode neg (n % 2 == 1) r d = t.up mode neg v lo := by
  have hpar : lo % 2 = n % 2 := by
    obtain ⟨j, hj⟩ : ∃ j, 2 ^ t.M = 2 * j := ⟨2 ^ (t.M - 1), by rw [← pow_succ', Nat.sub_add_cancel hM]⟩
    rw [hlo, hj, Nat.mul_left_comm]; omega
  rw [roundsUp_eq_takesUpper mode neg _ hd hv, Fmt.up, Fmt.mag, hm, hpar]

/-- A value lies in the binade that the model finds. -/
theorem binade_spec {num den : Nat} (hnum : 0 < num) (hden : 0 < den) (e : Int) :
    (2 : ℝ) ^ (log2Q num den + e) ≤ num / den * 2 ^ e ∧ (num : ℝ) / den * 2 ^ e < 2 ^ (log2Q num den + e + 1) := by
  obtain ⟨h1, h2⟩ := log2Q_spec hnum hden
  rw [zpow_add₀ two_ne_zero, add_right_comm, zpow_add₀ two_ne_zero]
  exact ⟨mul_le_mul_of_nonneg_right h1 (two_zpow_pos e).le, mul_lt_mul_of_pos_right h2 (two_zpow_pos e)⟩

/-- The rounding function in terms of its mantissa. -/
theorem Fmt.round_eq_rounded (t : Fmt) (mode : RMode) (sat neg : Bool) {num : Nat} (den : Nat) (e : Int) (hnum : 0 < num) :
    let ev := log2Q num den + e
    let p := quantum num den e (t.unit ev)
    let k := (t.unit ev + t.M + t.B).toNat * 2 ^ t.M + rounded mode neg p - 2 ^ t.M
    t.round mode sat neg num den e = if k > t.maxBits then (t.overflow mode neg sat, fOF ||| fNX) else
      (t.sign neg k, flagIf (p.2.1 != 0) fNX ||| flagIf ((p.2.1 != 0) && (decide (ev < 1 - t.B) &&
        !(ev == 1 - t.B - 1 && rounded mode neg (quantum num den e (ev - t.M)) == 2 ^ (t.M + 1)))) fUF) := by
  unfold Fmt.round
  rw [if_neg (by simpa using hnum.ne')]
  rfl

/-- What the model rounds a value to: the neighbour the mode takes, or the overflow result. -/
theorem Fmt.round_eq (t : Fmt) (hM : 1 ≤ t.M) (mode : RMode) (sat neg : Bool) {num den : Nat} {e : Int} {v : ℝ} {lo : Nat}
    (hnum : 0 < num) (hden : 0 < den) (hv : (num : ℝ) / den * 2 ^ e = v) (hlo : t.mag lo ≤ v) (hlo' : v < t.mag (lo + 1)) :
    let k := if t.up mode neg v lo then lo + 1 else lo
    let inexact := compare v (t.mag lo) != .eq
    (t.maxBits < k → t.round mode sat neg num den e = (t.overflow mode neg sat, fOF ||| fNX)) ∧
    (k ≤ t.maxBits → ∃ tiny : Bool, (tiny = true ↔ t.tinyAt lo (t.reaches mode neg v)) ∧
      t.round mode sat neg num den e = (t.sign neg k, flagIf inexact fNX ||| flagIf (inexact && tiny) fUF)) := by
  intro k inexact
  obtain ⟨hlow, hhigh⟩ := binade_spec hnum hden e
  have hround := t.round_eq_rounded mode sat neg den e hnum
  dsimp only at hround
  set ev := log2Q num den + e
  obtain ⟨hd, hpv⟩ := quantum_spec num hden e (t.unit ev)
  set p := quantum num den e (t.unit ev)
  rw [hv] at hpv hlow hhigh
  obtain ⟨hu, hu'⟩ := units_le_lt hd hpv
  obtain ⟨hplace, hm⟩ := t.place_eq hlow hhigh hu hu' hlo hlo'
  have hk : (t.unit ev + t.M + t.B).toNat * 2 ^ t.M + rounded mode neg p - 2 ^ t.M = k := by
    have h1 : (t.unit ev + t.M + t.B).toNat = (t.unit ev - t.least).toNat + 1 := by unfold Fmt.unit Fmt.least; omega
    rw [h1, Nat.succ_mul, rounded, t.roundsUp_eq_up hM mode neg hd hpv hplace hm]
    simp only [k]
    split <;> omega
  have hin : (p.2.1 != 0) = inexact := by
    show (!(p.2.1 == 0)) = !(compare v (t.mag lo) == .eq)
    rw [Fmt.mag, hm, compare_units_eq hd hpv]
  rw [hk, hin] at hround
  refine ⟨fun h => hround.trans (if_pos h), fun h => ⟨_, ?_, hround.trans (if_neg (not_lt.mpr h))⟩⟩
  rw [← Fmt.tiny_iff hM mode neg hden hv hlow hhigh hlo hlo']
  simp [imp_iff_not_or]

end Sys2Proof.Machine
end

section
/-! PROOFS. The rounding function is the right one of R133, R135 and R136 for the formats of Table 05.1. -/

namespace Sys2Proof.Machine

open Sys2Proof.Claim

theorem formats_spec {t : Fmt} {big above : Nat} (h : (t, big, above) ∈ formats) :
    1 ≤ t.M ∧ t.maxBits = big ∧ (if t.noInf then t.qnan else (2 ^ t.E - 1) * 2 ^ t.M) = above := by
  simp only [formats, List.mem_cons, Prod.mk.injEq, List.not_mem_nil, or_false] at h
  rcases h with ⟨rfl, rfl, rfl⟩ | ⟨rfl, rfl, rfl⟩ | ⟨rfl, rfl, rfl⟩ | ⟨rfl, rfl, rfl⟩ | ⟨rfl, rfl, rfl⟩ | ⟨rfl, rfl, rfl⟩ <;> decide

/-- The overflow results of Table 05.4. -/
theorem Fmt.overflow_eq {t : Fmt} {big above : Nat} (h : (t, big, above) ∈ formats) (mode : RMode) (neg sat : Bool) :
    t.overflow mode neg sat =
      if (match mode with
        | .rne => true
        | .rmm => true
        | .rtz => false
        | .rdn => neg
        | .rup => !neg) = false ∨ sat = true then t.sign neg big
      else if t.noInf then above else t.sign neg above := by
  obtain ⟨-, rfl, rfl⟩ := formats_spec h
  unfold Fmt.overflow Fmt.infBits
  cases t.noInf <;> cases mode <;> cases sat <;> cases neg <;> rfl

theorem flags_of_inexact (exact tiny : Bool) :
    ((flagIf (!exact) fNX ||| flagIf (!exact && tiny) fUF).getLsbD 0 = true ↔ exact = false) ∧
    ((flagIf (!exact) fNX ||| flagIf (!exact && tiny) fUF).getLsbD 1 = true ↔ exact = false ∧ tiny = true) ∧
    (flagIf (!exact) fNX ||| flagIf (!exact && tiny) fUF).toNat < 4 := by
  cases exact <;> cases tiny <;> decide

theorem exponent_of_subnormal {t : Fmt} {k : Nat} (h : k < 2 ^ t.M) : (magnitude t k).2 = t.least := by
  rw [magnitude, if_pos h]; rfl

theorem exponent_le_succ (t : Fmt) (k : Nat) : (magnitude t k).2 ≤ (magnitude t (k + 1)).2 := by
  have hd : k / 2 ^ t.M ≤ (k + 1) / 2 ^ t.M := Nat.div_le_div_right (Nat.le_succ k)
  have h1 : 2 ^ t.M ≤ k + 1 → 1 ≤ (k + 1) / 2 ^ t.M := fun h => Nat.div_pos h (Nat.two_pow_pos _)
  unfold magnitude
  split <;> split <;> dsimp only <;> omega

/-- The rounding of a value v is the right one for a value that compares as v does with all multiples of a quarter of the last place. -/
theorem rounded_of_compare {t : Fmt} {big above : Nat} (h : (t, big, above) ∈ formats) (mode : RMode) (sat neg : Bool) {num den : Nat}
    {e : Int} {v : ℝ} (hnum : 0 < num) (hden : 0 < den) (hv : (num : ℝ) / den * 2 ^ e = v) {against : Nat → Int → Ordering}
    (ha : ∀ lo, against (magnitude t (lo + 1)).1 (magnitude t (lo + 1)).2 = .lt → ∀ m f, (magnitude t lo).2 - 2 ≤ f →
      against m f = compare v (m * 2 ^ f)) :
    Rounded t big above mode sat neg against (t.round mode sat neg num den e) := by
  obtain ⟨hM, hmax, -⟩ := formats_spec h
  intro lo at_ least exact mid up k reaches infinite beyond hlo hlo'
  have ha := ha lo hlo'
  have hat : at_ lo = compare v (t.mag lo) := ha _ _ (by omega)
  have hat' : at_ (lo + 1) = compare v (t.mag (lo + 1)) := ha _ _ (by have := exponent_le_succ t lo; omega)
  have hmid : mid = compare v ((2 * (magnitude t lo).1 + 1 : Nat) * 2 ^ ((magnitude t lo).2 - 1)) := ha _ _ (by omega)
  have hexact : exact = (compare v (t.mag lo) == .eq) := by rw [← hat]
  have hup : up = t.up mode neg v lo := by
    simp only [up, hexact, hmid]; rfl
  have hk : k = if t.up mode neg v lo then lo + 1 else lo := by rw [← hup]
  have hreach : lo + 1 = 2 ^ t.M → reaches = t.reaches mode neg v := fun hl => by
    have hexp := exponent_of_subnormal (t := t) (k := lo) (by omega)
    simp only [reaches, least, ha _ (1 - (t.B : Int) - t.M - 1) (by rw [hexp, Fmt.least]; omega),
      ha _ (1 - (t.B : Int) - t.M - 2) (by rw [hexp, Fmt.least])]
    rfl
  obtain ⟨hover, hright⟩ := t.round_eq hM mode sat neg hnum hden hv (compare_ge_iff_ge.mp (hat ▸ hlo)) (compare_lt_iff_lt.mp (hat' ▸ hlo'))
  rw [← hk, hmax] at hover hright
  refine ⟨fun hle => ?_, fun hlt => (hover hlt).trans (congrArg (·, _) (Fmt.overflow_eq h mode neg sat))⟩
  obtain ⟨tiny, htiny, hr⟩ := hright hle
  have htiny : tiny = true ↔ lo + 1 < 2 ^ t.M ∨ lo + 1 = 2 ^ t.M ∧ reaches = false := by
    rw [htiny]
    exact or_congr Iff.rfl (and_congr_right (fun hl => by rw [hreach hl]))
  have hne : (compare v (t.mag lo) != .eq) = !exact := by rw [hexact]; rfl
  rw [hr, hne, ← htiny]
  exact ⟨rfl, flags_of_inexact exact tiny⟩

end Sys2Proof.Machine
end

section
/-! PROOFS. Arithmetic and conversions of finite values: exact sums, products and quotients, rounded. -/

namespace Sys2Proof.Machine

open Sys2Proof.Claim

/-! Rounding of exact values. -/

section
variable {t : Fmt} {big above : Nat} (h : (t, big, above) ∈ formats) (mode : RMode)
include h

theorem rounded_round (sat neg : Bool) {num den : Nat} (e : Int) (hnum : 0 < num) (hden : 0 < den) :
    Rounded t big above mode sat neg (versus num den e) (t.round mode sat neg num den e) :=
  rounded_of_compare h mode sat neg hnum hden rfl (fun _ _ m f _ => versus_eq_compare hden e m f)

theorem rounded_roundNum (neg : Bool) {n : Nat} (e : Int) (hn : n ≠ 0) :
    Rounded t big above mode false neg (versus n 1 e) (t.roundNum mode (.fin neg n e)) :=
  rounded_round h mode false neg e (Nat.pos_of_ne_zero hn) one_pos
end

/-! Conversion to an integer. -/

/-- The integer next to a value that the mode takes. -/
theorem roundInt_eq (mode : RMode) (neg : Bool) {n : Nat} {e : Int} {lo : Nat} (hlo : versus n 1 e lo 0 ≠ .lt) (hlo' : versus n 1 e (lo + 1) 0 = .lt) :
    let exact := versus n 1 e lo 0 == .eq
    let k := if takesUpper mode neg exact (versus n 1 e (2 * lo + 1) (-1)) (lo % 2 == 1) then lo + 1 else lo
    roundInt mode neg n e = (if neg then - (k : Int) else k, !exact) := by
  intro exact k
  obtain ⟨hd, hv⟩ := quantum_spec n one_pos e 0
  set p := quantum n 1 e 0 with hp
  obtain ⟨hu, hu'⟩ := units_le_lt hd hv
  rw [versus_eq_compare one_pos] at hlo hlo'
  have hlo := compare_ge_iff_ge.mp hlo
  have hlo' := compare_lt_iff_lt.mp hlo'
  rw [zpow_zero, mul_one] at hu hu' hlo hlo'
  have hpl : p.1 = lo := by
    have h1 : p.1 < lo + 1 := Nat.cast_lt.mp (hu.trans_lt hlo')
    have h2 : lo < p.1 + 1 := by exact_mod_cast hlo.trans_lt hu'
    omega
  have hexact : exact = (p.2.1 == 0) := by
    simp only [exact]
    rw [versus_eq_compare one_pos, ← hpl, compare_units_eq hd hv]
  have hup : roundsUp mode neg (p.1 % 2 == 1) p.2.1 p.2.2 =
      takesUpper mode neg exact (versus n 1 e (2 * lo + 1) (-1)) (lo % 2 == 1) := by
    rw [roundsUp_eq_takesUpper mode neg _ hd hv, compare_units_eq hd hv, versus_eq_compare one_pos, hexact, hpl]
    rfl
  have hk : p.1 + (if roundsUp mode neg (p.1 % 2 == 1) p.2.1 p.2.2 then 1 else 0) = k := by
    simp only [hup, k]
    rw [hpl]
    split <;> rfl
  unfold roundInt
  simp only [← hp, hk, hexact]
  rfl

theorem fpToInt_fin {t : Fmt} (v : IntFmt) (mode : RMode) {a n : Nat} {neg : Bool} {e : Int} (ha : t.value a = .fin neg n e) :
    fpToInt t v mode a = if (roundInt mode neg n e).1 < (intRange v).1 then (intToX v (intRange v).1, fNV)
      else if (intRange v).2 < (roundInt mode neg n e).1 then (intToX v (intRange v).2, fNV)
      else (intToX v (roundInt mode neg n e).1, flagIf (roundInt mode neg n e).2 fNX) := by
  unfold fpToInt; rw [ha]

/-! Sums. -/

/-- A sign applied to a number. -/
def signed (neg : Bool) (n : Nat) : Int := if neg then - (n : Int) else (n : Int)

/-- r is the rounding of the sum of two exact values; an exact zero is signed as Table 05.4 says. -/
def IsSum (t : Fmt) (big above : Nat) (mode : RMode) (an : Bool) (am : Nat) (ae : Int) (bn : Bool) (bm : Nat) (be : Int)
    (r : Nat × BitVec 5) : Prop :=
  let e := min ae be
  let n := signed an (am * 2 ^ (ae - e).toNat) + signed bn (bm * 2 ^ (be - e).toNat)
  (n ≠ 0 → Rounded t big above mode false (decide (n < 0)) (versus n.natAbs 1 e) r) ∧
  (n = 0 → r = (t.sign (if an = bn then an else mode == .rdn) 0, 0))

theorem signed_eq_mul (neg : Bool) (n : Nat) : (if neg then -1 else 1) * (n : Int) = signed neg n := by
  cases neg <;> simp [signed]

theorem isDown_eq (mode : RMode) : isDown mode = (mode == .rdn) := by cases mode <;> rfl

theorem addFin_eq (down an : Bool) (am : Nat) (ae : Int) (bn : Bool) (bm : Nat) (be : Int) :
    let e := min ae be
    let n := signed an (am * 2 ^ (ae - e).toNat) + signed bn (bm * 2 ^ (be - e).toNat)
    addFin down an am ae bn bm be = if n = 0 then .fin (if an = bn then an else down) 0 e else .fin (decide (n < 0)) n.natAbs e := by
  simp only [addFin, signed_eq_mul, beq_iff_eq]

theorem isSum_roundNum {t : Fmt} {big above : Nat} (h : (t, big, above) ∈ formats) (mode : RMode) (an : Bool) (am : Nat) (ae : Int)
    (bn : Bool) (bm : Nat) (be : Int) :
    IsSum t big above mode an am ae bn bm be (t.roundNum mode (addFin (isDown mode) an am ae bn bm be)) := by
  rw [addFin_eq]
  refine ⟨fun hn => ?_, fun hn => ?_⟩
  · rw [if_neg hn]
    exact rounded_roundNum h mode _ _ (Int.natAbs_ne_zero.mpr hn)
  · rw [if_pos hn, isDown_eq]; rfl

/-! Finite operands. -/

theorem or_flagIf_false (f fl : BitVec 5) : f ||| flagIf false fl = f := BitVec.or_zero

section
variable {t : Fmt} {a b c an bn cn} {am bm cm : Nat} {ae be ce : Int} (mode : RMode)
variable (ha : t.value a = .fin an am ae) (hb : t.value b = .fin bn bm be) (hc : t.value c = .fin cn cm ce)

include ha hb in
theorem Fmt.add_fin : t.add mode a b = t.roundNum mode (addFin (isDown mode) an am ae bn bm be) := by
  simp only [Fmt.add, ha, hb, numAdd, or_flagIf_false]

include ha hb in
theorem Fmt.sub_fin : t.sub mode a b = t.roundNum mode (addFin (isDown mode) an am ae (!bn) bm be) := by
  simp only [Fmt.sub, ha, hb, numNeg, numAdd, or_flagIf_false]

include ha hb in
theorem Fmt.mul_fin : t.mul mode a b = t.roundNum mode (.fin (an != bn) (am * bm) (ae + be)) := by
  simp only [Fmt.mul, ha, hb, numMul, or_flagIf_false]

include ha hb hc in
theorem Fmt.fma_fin (np nc : Bool) : t.fma mode np nc a b c =
    t.roundNum mode (addFin (isDown mode) ((an != bn) != np) (am * bm) (ae + be) (cn != nc) cm ce) := by
  cases np <;> cases nc <;> simp [Fmt.fma, ha, hb, hc, numMul, numNeg, numAdd, or_flagIf_false]

include ha hb in
theorem Fmt.div_fin : t.div mode a b = if bm = 0 then (if am = 0 then (t.qnan, fNV) else (t.infBits (an != bn), fDZ))
    else t.round mode false (an != bn) am bm (ae - be) := by
  simp only [Fmt.div, ha, hb, beq_iff_eq]
end

end Sys2Proof.Machine
end

section
/-! PROOFS. Square roots: the integer root with its sticky bit stands for the irrational one. -/

namespace Sys2Proof.Machine

open Sys2Proof.Claim

/-- The bisection keeps the root between r and r + 2^k. -/
theorem isqrtFrom_spec (n : Nat) : ∀ k r : Nat, r * r ≤ n → n < (r + 2 ^ k) * (r + 2 ^ k) →
    isqrtFrom n k r * isqrtFrom n k r ≤ n ∧ n < (isqrtFrom n k r + 1) * (isqrtFrom n k r + 1)
  | 0, _, h1, h2 => ⟨h1, h2⟩
  | k + 1, r, h1, h2 => by
    unfold isqrtFrom
    by_cases hc : (r + 2 ^ k) * (r + 2 ^ k) ≤ n
    · simp only [if_pos hc]
      refine isqrtFrom_spec n k _ hc ?_
      rwa [Nat.add_assoc, ← Nat.two_mul, ← pow_succ']
    · simp only [if_neg hc]
      exact isqrtFrom_spec n k r h1 (not_le.mp hc)

theorem isqrt_spec (n : Nat) : isqrt n * isqrt n ≤ n ∧ n < (isqrt n + 1) * (isqrt n + 1) := by
  refine isqrtFrom_spec n _ 0 (Nat.zero_le _) ?_
  rw [Nat.zero_add, ← pow_add]
  exact (Nat.lt_log2_self (n := n)).trans_le (Nat.pow_le_pow_right two_pos (by omega))

/-- The root with its sticky bit compares with every whole number as the square does with its square. -/
theorem compare_isqrt (n j : Nat) :
    compare (2 * isqrt n + (if isqrt n * isqrt n == n then 0 else 1)) (2 * j) = compare n (j * j) := by
  obtain ⟨h1, h2⟩ := isqrt_spec n
  set r := isqrt n
  have hle : r < j ↔ n < j * j :=
    ⟨fun h => h2.trans_le (Nat.mul_self_le_mul_self h), fun h => Nat.mul_self_lt_mul_self_iff.mp (h1.trans_lt h)⟩
  by_cases he : r * r = n
  · rw [if_pos (beq_iff_eq.mpr he)]
    refine compare_congr (by omega) ?_
    rw [← he, Nat.mul_self_inj]
    omega
  · rw [if_neg (by simpa using he)]
    refine compare_congr (by omega) (iff_of_false (by omega) (fun h => he ?_))
    have hj : j ≤ r := by by_contra hlt; omega
    have := Nat.mul_self_le_mul_self hj
    omega

/-- With j units of 2^h the root compares as the value under it does with its square. -/
theorem compare_sqrt {am n : Nat} {ae h : Int} {v : ℝ} (hn : (am : ℝ) * 2 ^ ae = n * 2 ^ (2 * h))
    (hv : ((2 * isqrt n + (if isqrt n * isqrt n == n then 0 else 1) : Nat) : ℝ) * 2 ^ (h - 1) = v) {m : Nat} {f : Int} (hf : h ≤ f) :
    versus am 1 ae (m * m) (2 * f) = compare v (m * 2 ^ f) := by
  obtain ⟨i, rfl⟩ : ∃ i : Nat, f = h + i := ⟨(f - h).toNat, by omega⟩
  have h1 : (m : ℝ) * 2 ^ (h + i) = ((2 * (m * 2 ^ i) : Nat) : ℝ) * 2 ^ (h - 1) := by
    rw [zpow_sub_one₀ two_ne_zero, zpow_add₀ two_ne_zero, zpow_natCast]; push_cast; ring
  have h2 : ((m * m : Nat) : ℝ) * 2 ^ (2 * (h + i)) = (((m * 2 ^ i) * (m * 2 ^ i) : Nat) : ℝ) * 2 ^ (2 * h) := by
    have he : 2 * (h + i) = 2 * h + (2 * i : Nat) := by push_cast; ring
    rw [he, zpow_add₀ two_ne_zero, zpow_natCast]; push_cast; ring
  rw [versus_eq_compare one_pos, Nat.cast_one, div_one, hn, h1, h2, ← hv, compare_mul_right _ _ (two_zpow_pos _),
    compare_mul_right _ _ (two_zpow_pos _), ← compare_natCast, ← compare_natCast, compare_isqrt]

theorem Fmt.sqrt_fin {t : Fmt} {a am : Nat} {ae : Int} (mode : RMode) (ha : t.value a = .fin false am ae) (hm : am ≠ 0) :
    let k : Nat := 2 * (t.M + 3) + (if (ae % 2 == 0) then 0 else 1)
    let n := am * 2 ^ k
    t.sqrt mode a = t.round mode false false (2 * isqrt n + (if isqrt n * isqrt n == n then 0 else 1)) 1 ((ae - k) / 2 - 1) := by
  unfold Fmt.sqrt
  simp only [ha, beq_iff_eq, hm, if_false]
  rfl

theorem mantissa_lt (t : Fmt) (k : Nat) : (magnitude t k).1 < 2 ^ (t.M + 1) := by
  obtain ⟨Q, n, rfl, h, hn⟩ := exists_binade t k
  rw [magnitude_eq t h hn]; exact hn

/-- A square below that of a magnitude has its root in units of a quarter of the last place. -/
theorem quarter_unit_of_square_lt {t : Fmt} {n lo : Nat} {g : Int} (hn : 2 ^ (2 * (t.M + 3)) ≤ n)
    (h : (n : ℝ) * 2 ^ (2 * g) < t.mag (lo + 1) * t.mag (lo + 1)) : g ≤ (magnitude t lo).2 - 2 := by
  set x := (magnitude t lo).2 with hx
  have hmag : t.mag (lo + 1) ≤ 2 ^ ((t.M + 1 : Nat) + x) := by
    rw [t.mag_succ, zpow_add₀ two_ne_zero, zpow_natCast]
    exact mul_le_mul_of_nonneg_right (by exact_mod_cast mantissa_lt t lo) (two_zpow_pos _).le
  have h0 : 0 ≤ t.mag (lo + 1) := mul_nonneg (Nat.cast_nonneg _) (two_zpow_pos _).le
  have hlt : (2 : ℝ) ^ ((2 * (t.M + 3) : Nat) + 2 * g) < 2 ^ (((t.M + 1 : Nat) + x) + ((t.M + 1 : Nat) + x)) := by
    calc (2 : ℝ) ^ ((2 * (t.M + 3) : Nat) + 2 * g) = ((2 ^ (2 * (t.M + 3)) : Nat) : ℝ) * 2 ^ (2 * g) := by
          rw [zpow_add₀ two_ne_zero, zpow_natCast]; push_cast; rfl
      _ ≤ n * 2 ^ (2 * g) := mul_le_mul_of_nonneg_right (Nat.cast_le.mpr hn) (two_zpow_pos _).le
      _ < t.mag (lo + 1) * t.mag (lo + 1) := h
      _ ≤ 2 ^ ((t.M + 1 : Nat) + x) * 2 ^ ((t.M + 1 : Nat) + x) := mul_self_le_mul_self h0 hmag
      _ = 2 ^ (((t.M + 1 : Nat) + x) + ((t.M + 1 : Nat) + x)) := (zpow_add₀ two_ne_zero ..).symm
  have := (zpow_lt_zpow_iff_right₀ one_lt_two).mp hlt
  omega

theorem rounded_sqrt {t : Fmt} {big above : Nat} (h : (t, big, above) ∈ formats) {a am : Nat} {ae : Int} (mode : RMode)
    (ha : t.value a = .fin false am ae) (hm : am ≠ 0) :
    Rounded t big above mode false false (fun k f => versus am 1 ae (k * k) (2 * f)) (t.sqrt mode a) := by
  rw [Fmt.sqrt_fin mode ha hm]
  set k : Nat := 2 * (t.M + 3) + (if (ae % 2 == 0) then 0 else 1) with hk
  set n := am * 2 ^ k with hn
  set g := (ae - k) / 2 with hg
  have hae : ae = k + 2 * g := by
    by_cases he : ae % 2 = 0
    · rw [if_pos (beq_iff_eq.mpr he)] at hk; omega
    · rw [if_neg (by simpa using he)] at hk; omega
  have hval : (am : ℝ) * 2 ^ ae = n * 2 ^ (2 * g) := by
    rw [hae, zpow_add₀ two_ne_zero, zpow_natCast, hn]; push_cast; ring
  have hn4 : 2 ^ (2 * (t.M + 3)) ≤ n := by
    rw [hn]
    exact (Nat.pow_le_pow_right two_pos (by omega)).trans (Nat.le_mul_of_pos_left _ (Nat.pos_of_ne_zero hm))
  have hpos : 0 < isqrt n := by
    obtain ⟨-, h2⟩ := isqrt_spec n
    by_contra h0
    have : 1 ≤ 2 ^ (2 * (t.M + 3)) := Nat.one_le_two_pow
    rw [Nat.eq_zero_of_not_pos h0] at h2
    omega
  refine rounded_of_compare h mode false false (by omega) one_pos rfl (fun lo hlo m f hf => ?_)
  rw [Nat.cast_one, div_one]
  refine compare_sqrt hval rfl ((quarter_unit_of_square_lt hn4 ?_).trans hf)
  rw [versus_eq_compare one_pos, Nat.cast_one, div_one, hval] at hlo
  refine (compare_lt_iff_lt.mp hlo).trans_eq ?_
  rw [Fmt.mag, two_mul, zpow_add₀ two_ne_zero]
  push_cast
  ring

end Sys2Proof.Machine
end

section
/-! PROOFS. Floating-point arithmetic: the values that are not finite, and the instructions. -/

namespace Sys2Proof.Machine

open Sys2Proof.Claim

/-! Values that are not finite. -/

/-- The canonical NaN, with the invalid-operation flag or without. -/
def IsInvalid (t : Fmt) (r : Nat × BitVec 5) (nv : Bool) : Prop := r = (t.qnan, if nv then fNV else 0)

@[simp] theorem Num.isNan_numNeg (x : Num) : (numNeg x).isNan = x.isNan := by cases x <;> rfl
@[simp] theorem Num.isSig_numNeg (x : Num) : (numNeg x).isSig = x.isSig := by cases x <;> rfl

theorem numAdd_of_nan (down : Bool) {x y : Num} (h : (x.isNan || y.isNan) = true) : numAdd down x y = (.nan false, x.isSig || y.isSig) := by
  cases x <;> cases y <;> simp_all [numAdd, Num.isNan, Num.isSig]

theorem numMul_of_nan {x y : Num} (h : (x.isNan || y.isNan) = true) : numMul x y = (.nan false, x.isSig || y.isSig) := by
  cases x <;> cases y <;> simp_all [numMul, Num.isNan, Num.isSig]

section
variable {t : Fmt} (mode : RMode) {a b : Nat}

theorem roundNum_nan_flag (nv : Bool) : IsInvalid t ((t.roundNum mode (.nan false)).1, (t.roundNum mode (.nan false)).2 ||| flagIf nv fNV) nv := by
  unfold IsInvalid Fmt.roundNum
  cases nv <;> simp [flagIf]

theorem roundNum_inf_flag (p : Bool) :
    ((t.roundNum mode (.inf p)).1, (t.roundNum mode (.inf p)).2 ||| flagIf false fNV) = (t.infBits p, 0) := by
  rw [or_flagIf_false]; rfl

theorem Fmt.add_of_nan (h : ((t.value a).isNan || (t.value b).isNan) = true) :
    IsInvalid t (t.add mode a b) ((t.value a).isSig || (t.value b).isSig) := by
  unfold Fmt.add
  simp only [numAdd_of_nan _ h]
  exact roundNum_nan_flag mode _

theorem Fmt.sub_of_nan (h : ((t.value a).isNan || (t.value b).isNan) = true) :
    IsInvalid t (t.sub mode a b) ((t.value a).isSig || (t.value b).isSig) := by
  have h' : ((t.value a).isNan || (numNeg (t.value b)).isNan) = true := by rw [Num.isNan_numNeg]; exact h
  unfold Fmt.sub
  simp only [numAdd_of_nan _ h', Num.isSig_numNeg]
  exact roundNum_nan_flag mode _

theorem Fmt.mul_of_nan (h : ((t.value a).isNan || (t.value b).isNan) = true) :
    IsInvalid t (t.mul mode a b) ((t.value a).isSig || (t.value b).isSig) := by
  unfold Fmt.mul
  simp only [numMul_of_nan h]
  exact roundNum_nan_flag mode _

theorem Fmt.div_of_nan (h : ((t.value a).isNan || (t.value b).isNan) = true) :
    IsInvalid t (t.div mode a b) ((t.value a).isSig || (t.value b).isSig) := by
  unfold Fmt.div IsInvalid
  cases ha : t.value a <;> cases hb : t.value b <;> simp_all [Num.isNan, Num.isSig, flagIf]

theorem Fmt.sqrt_of_nan (h : (t.value a).isNan = true) : IsInvalid t (t.sqrt mode a) (t.value a).isSig := by
  unfold Fmt.sqrt
  cases ha : t.value a <;> simp_all [Num.isNan]
  rfl

theorem Fmt.sqrt_zero {s : Bool} {e : Int} (ha : t.value a = .fin s 0 e) : t.sqrt mode a = (t.sign s 0, 0) := by
  simp [Fmt.sqrt, ha]

theorem Fmt.sqrt_neg {n : Nat} {e : Int} (ha : t.value a = .fin true n e) (hn : n ≠ 0) : IsInvalid t (t.sqrt mode a) true := by
  simp [Fmt.sqrt, ha, hn, IsInvalid]

theorem Fmt.sqrt_inf {s : Bool} (ha : t.value a = .inf s) : t.sqrt mode a = if s then (t.qnan, fNV) else (t.infBits false, 0) := by
  simp only [Fmt.sqrt, ha]

/-- An infinity and a finite value. -/
theorem Fmt.arith_inf_fin {p q : Bool} {n : Nat} {e : Int} (ha : t.value a = .inf p) (hb : t.value b = .fin q n e) :
    t.add mode a b = (t.infBits p, 0) ∧ t.add mode b a = (t.infBits p, 0) ∧
    t.sub mode a b = (t.infBits p, 0) ∧ t.sub mode b a = (t.infBits (!p), 0) ∧ (n ≠ 0 → t.mul mode a b = (t.infBits (p != q), 0)) ∧
    t.div mode a b = (t.infBits (p != q), 0) ∧ t.div mode b a = (t.sign (p != q) 0, 0) := by
  refine ⟨?_, ?_, ?_, ?_, fun hn => ?_, ?_, ?_⟩
  · simp [Fmt.add, ha, hb, numAdd, roundNum_inf_flag]
  · simp [Fmt.add, ha, hb, numAdd, roundNum_inf_flag]
  · simp [Fmt.sub, ha, hb, numAdd, numNeg, roundNum_inf_flag]
  · simp [Fmt.sub, ha, hb, numAdd, numNeg, roundNum_inf_flag]
  · simp [Fmt.mul, ha, hb, numMul, hn, roundNum_inf_flag]
  · simp [Fmt.div, ha, hb]
  · simp [Fmt.div, ha, hb, bne_comm]

theorem Fmt.arith_inf_inf {p q : Bool} (ha : t.value a = .inf p) (hb : t.value b = .inf q) :
    (p ≠ q → IsInvalid t (t.add mode a b) true) ∧ (p = q → IsInvalid t (t.sub mode a b) true) ∧
    (p = q → t.add mode a b = (t.infBits p, 0)) ∧ t.mul mode a b = (t.infBits (p != q), 0) ∧ IsInvalid t (t.div mode a b) true := by
  refine ⟨fun h => ?_, fun h => ?_, fun h => ?_, ?_, ?_⟩
  · simpa [Fmt.add, ha, hb, numAdd, h] using roundNum_nan_flag mode true
  · simpa [Fmt.sub, ha, hb, numAdd, numNeg, h] using roundNum_nan_flag mode true
  · simp [Fmt.add, ha, hb, numAdd, h, roundNum_inf_flag]
  · simp [Fmt.mul, ha, hb, numMul, roundNum_inf_flag]
  · simp [Fmt.div, ha, hb, IsInvalid]

theorem Fmt.mul_inf_zero {p q : Bool} {e : Int} (ha : t.value a = .inf p) (hb : t.value b = .fin q 0 e) :
    IsInvalid t (t.mul mode a b) true ∧ IsInvalid t (t.mul mode b a) true := by
  constructor
  · simpa [Fmt.mul, ha, hb, numMul] using roundNum_nan_flag mode true
  · simpa [Fmt.mul, ha, hb, numMul] using roundNum_nan_flag mode true

end

theorem flagIf_not (b : Bool) (f : BitVec 5) : flagIf (!b) f = if b then 0 else f := by cases b <;> rfl

/-! The instructions. -/

theorem State.rounded_of_mode {s : State} {rm : Rm} {m : RMode} (hm : modeOfRm rm s.me.frm = some m) (i : Instr) (k : RMode → State) :
    s.rounded i rm k = k m := by
  unfold State.rounded; rw [hm]

/-- An instruction with a rounding mode completes with its function's result at that mode. -/
theorem State.exists_fpDone {s : State} {rm : Rm} {m : RMode} (hm : modeOfRm rm s.me.frm = some m) (i : Instr) (t : FpFmt) (rd : FReg)
    (r : RMode → Nat × BitVec 5) (h : exec i s = .next (s.rounded i rm (fun m => s.fpResult t rd (r m)))) :
    ∃ w, exec i s = .next w ∧ FpDone s w rd (box t (r m).1) (r m).2 1 :=
  ⟨_, h.trans (congrArg _ (State.rounded_of_mode hm ..)), s.fpDone_fpResult t rd (r m)⟩

theorem State.exists_fpDone_slow {s : State} {rm : Rm} {m : RMode} (hm : modeOfRm rm s.me.frm = some m) (i : Instr) (t : FpFmt) (rd : FReg)
    (r : RMode → Nat × BitVec 5) (h : exec i s = .next (s.rounded i rm (fun m => s.fpResultIn t rd (r m)))) :
    ∃ w, exec i s = .next w ∧ FpDone s w rd (box t (r m).1) (r m).2 (fpRotations t) :=
  ⟨_, h.trans (congrArg _ (State.rounded_of_mode hm ..)), s.fpDone_fpResultIn t rd (r m)⟩

/-- Settles O19: each instruction rounds one exact value at its mode, and the rounding is the right one. -/
theorem fpArithmetic : Obligations.FpArithmetic := by
  refine ⟨fun s t v fd rs1 rs2 rs3 rd x1 rm m hm => ?_, fun t big above m h => ?_⟩
  · intro F a b c slow fp
    have hslow : slow = fpRotations t := by cases t <;> rfl
    refine ⟨?_, ?_, ?_, hslow ▸ ?_, hslow ▸ ?_, ?_, ?_, ?_, ?_, ?_, ?_, ?_, ?_⟩
    · exact State.exists_fpDone hm _ t fd (fun m => F.add m a b) rfl
    · exact State.exists_fpDone hm _ t fd (fun m => F.sub m a b) rfl
    · exact State.exists_fpDone hm _ t fd (fun m => F.mul m a b) rfl
    · exact State.exists_fpDone_slow hm _ t fd (fun m => F.div m a b) rfl
    · exact State.exists_fpDone_slow hm _ t fd (fun m => F.sqrt m a) rfl
    · exact State.exists_fpDone hm _ t fd (fun m => F.fma m false false a b c) rfl
    · exact State.exists_fpDone hm _ t fd (fun m => F.fma m false true a b c) rfl
    · exact State.exists_fpDone hm _ t fd (fun m => F.fma m true false a b c) rfl
    · exact State.exists_fpDone hm _ t fd (fun m => F.fma m true true a b c) rfl
    · exact State.exists_fpDone hm _ .s fd (fun m => fmt32.roundNum m (fmt64.value (s.fp .d rs1))) rfl
    · exact State.exists_fpDone hm _ .d fd (fun m => fmt64.roundNum m (fmt32.value (s.fp .s rs1))) rfl
    · exact State.exists_fpDone hm _ t fd (fun m => intToFp F m (xToInt v (s.x x1))) rfl
    · exact ⟨_, congrArg Host.Outcome.next (State.rounded_of_mode hm (.fcvtIntFromFp t v rd rs1 rm) _), s.flagDone_fpToX rd (fpToInt F v m a)⟩
  · intro right sgn sum invalid
    refine ⟨fun sat neg num den e => rounded_round h m sat neg e, fun v => ⟨?_, ?_, ?_, ?_⟩, fun n hn => ?_, ?_, ?_, ?_⟩
    · rintro neg n e rfl hn; exact rounded_roundNum h m neg e hn
    · rintro neg e rfl; rfl
    · rintro neg rfl; rfl
    · rintro sig rfl; rfl
    · exact rounded_round h m false _ 0 (Int.natAbs_pos.mpr hn) one_pos
    · intro v a neg n e lo ha hlo hlo'
      rw [fpToInt_fin v m ha, roundInt_eq m neg hlo hlo', flagIf_not]
    · intro a b c an am ae bn bm be cn cm ce ha hb hc
      refine ⟨?_, ?_, fun h0 => ?_, fun h0 => ?_, fun np nc => ?_, fun hb0 ha0 => ?_, fun hb0 ha0 => ?_, fun hb0 ha0 => ?_, fun hb0 ha0 => ?_,
        fun ha0 => Fmt.sqrt_zero m (ha0 ▸ ha), fun ha0 hs => Fmt.sqrt_neg m (hs ▸ ha) ha0, fun ha0 hs => rounded_sqrt h m (hs ▸ ha) ha0⟩
      · rw [Fmt.add_fin m ha hb]; exact isSum_roundNum h ..
      · rw [Fmt.sub_fin m ha hb]; exact isSum_roundNum h ..
      · rw [Fmt.mul_fin m ha hb]; exact rounded_roundNum h m _ _ h0
      · rw [Fmt.mul_fin m ha hb, h0]; rfl
      · rw [Fmt.fma_fin m ha hb hc]; exact isSum_roundNum h ..
      · rw [Fmt.div_fin m ha hb, if_neg hb0]
        exact rounded_round h m _ _ _ (Nat.pos_of_ne_zero ha0) (Nat.pos_of_ne_zero hb0)
      · rw [Fmt.div_fin m ha hb, if_neg hb0, ha0]; rfl
      · rw [Fmt.div_fin m ha hb, if_pos hb0, if_pos ha0]; rfl
      · rw [Fmt.div_fin m ha hb, if_pos hb0, if_neg ha0]
    · intro a b x y
      exact ⟨fun hn => ⟨Fmt.add_of_nan m hn, Fmt.sub_of_nan m hn, Fmt.mul_of_nan m hn, Fmt.div_of_nan m hn⟩,
        fun hn => Fmt.sqrt_of_nan m hn, fun hi => Fmt.sqrt_inf m hi, fun hi => Fmt.sqrt_inf m hi,
        fun p q n e hx hy => Fmt.arith_inf_fin m hx hy, fun p q hx hy => Fmt.arith_inf_inf m hx hy,
        fun p q e hx hy => Fmt.mul_inf_zero m hx hy⟩

end Sys2Proof.Machine
end

section
/-! PROOFS. Fences, FENCE.I and ALIGN. -/

namespace Sys2Proof.Machine

open Sys2Proof.Claim

/-! FENCE and FENCES. -/

section
variable {s : State} {sc : Scope} {i : Instr}

theorem State.did_fenceAt (hh : s.me.hold = none) (he : s.fenced sc = []) : Did s (s.fenceAt sc) 0 0 (s.me.pc + 4) := by
  have h : s.fenceAt sc = s.retire := by simp [State.fenceAt, hh, he]
  rw [h]; exact s.did_retire

/-- With something outstanding the slot is held on it, and nothing else differs. -/
theorem State.fenceAt_of_outstanding (hh : s.me.hold = none) (he : s.fenced sc ≠ []) :
    s.fenceAt sc = s.updMe (fun sl => { sl with hold := some (.fences (s.fenced sc)) }) := by
  simp [State.fenceAt, hh, he]

theorem State.fence_spec (h : exec i s = .next (s.fenceAt sc)) :
    (s.me.hold = none → s.fenced sc = [] → ∃ t, exec i s = .next t ∧ Did s t 0 0 (s.me.pc + 4)) ∧
    (s.me.hold = none → s.fenced sc ≠ [] → ∃ t, exec i s = .next t ∧ t.me.hold = some (.fences (s.fenced sc)) ∧ t.me.pc = s.me.pc ∧
      t.me.x = s.me.x ∧ (∀ k, k ≠ s.cur → t.slot k = s.slot k) ∧ { t with slots := s.slots } = s) := by
  refine ⟨fun hh he => ⟨_, h, State.did_fenceAt hh he⟩, fun hh he => ⟨_, h, ?_⟩⟩
  rw [State.fenceAt_of_outstanding hh he, State.me_updMe]
  exact ⟨rfl, rfl, rfl, fun k hk => State.slot_updMe_ne _ _ hk, rfl⟩
end

theorem exec_fence_core {fm pred succ : BitVec 4} (rs1 rd : XReg) (hp : pred ≠ 0) (hs : succ ≠ 0) (s : State) :
    exec (.fence fm pred succ rs1 rd) s = .next (s.fenceAt .core) := by
  have h : ¬ (pred == 0 || succ == 0) = true := by simpa only [Bool.or_eq_true, beq_iff_eq, not_or] using ⟨hp, hs⟩
  exact congrArg Host.Outcome.next (if_neg h)

theorem exec_fence_empty {fm pred succ : BitVec 4} (rs1 rd : XReg) (h : pred = 0 ∨ succ = 0) (s : State) :
    exec (.fence fm pred succ rs1 rd) s = .next s.retire := by
  have h' : (pred == 0 || succ == 0) = true := by simpa only [Bool.or_eq_true, beq_iff_eq] using h
  exact congrArg Host.Outcome.next (if_pos h')

/-! FENCE.I. -/

/-- A die without the code lines and translations of a trellis. -/
def Die.dropped (x : Die) (tr : Nat) : Die :=
  { x with icache := x.icache.filter (fun l => l.trellis != tr), tlb := x.tlb.filter (fun e => e.at_ != .itlb tr) }

/-- The state after FENCE.I of trellis tr of die d has dropped what it drops. -/
def State.fetchDropped (s : State) (d tr : Nat) : State :=
  (s.updDie d (fun x => x.dropped tr)).mapSlots
    (fun k sl => if s.coreOf (k / 16) / 256 == d && trellisOf (s.coreOf (k / 16)) == tr then { sl with line := none, ahead := none } else sl)

theorem exec_fenceI (imm : BitVec 12) (rs1 rd : XReg) (s : State) : exec (.fenceI imm rs1 rd) s =
    .next ((s.fetchDropped (s.coreOf s.vk / 256) (trellisOf (s.coreOf s.vk))).resultIn 2 0 0) := rfl

theorem State.slot_fetchDropped (s : State) (d tr k : Nat) : (s.fetchDropped d tr).slot k =
    if s.coreOf (k / 16) / 256 = d ∧ trellisOf (s.coreOf (k / 16)) = tr then { s.slot k with line := none, ahead := none } else s.slot k := by
  rw [State.fetchDropped, State.slot_mapSlots]
  · simp only [Bool.and_eq_true, beq_iff_eq]; rfl
  · split <;> rfl

theorem State.die_fetchDropped (s : State) (d tr e : Nat) :
    (s.fetchDropped d tr).die e = if e = d then (s.die d).dropped tr else s.die e :=
  State.die_updDie s d e (fun x => x.dropped tr)

theorem State.resultIn_x0 (s : State) (v : Word) :
    s.resultIn 2 0 v = s.updMe (fun sl => { sl.retireAt (sl.pc + 4) with hold := some (.busy 1) }) := by
  rw [State.resultIn, State.result_x0, State.retire, State.updMe_updMe]; rfl

theorem State.fenceI_spec (s : State) (imm : BitVec 12) (rs1 rd : XReg) :
    let d := s.coreOf s.vk / 256
    let tr := trellisOf (s.coreOf s.vk)
    let near := fun (k : Nat) => s.coreOf (k / 16) / 256 = d ∧ trellisOf (s.coreOf (k / 16)) = tr
    ∃ t, exec (.fenceI imm rs1 rd) s = .next t ∧ t.me.pc = s.me.pc + 4 ∧ t.me.x = s.me.x ∧ t.me.f = s.me.f ∧
      t.me.line = none ∧ t.me.ahead = none ∧ t.me.hold = some (.busy 1) ∧ t.me.arrived = none ∧
      { t.me with pc := s.me.pc, minstret := s.me.minstret, hold := s.me.hold, arrived := s.me.arrived, line := s.me.line,
                  ahead := s.me.ahead } = s.me ∧
      (∀ k, k ≠ s.cur → (near k → t.slot k = { s.slot k with line := none, ahead := none }) ∧ (¬ near k → t.slot k = s.slot k)) ∧
      { t with slots := s.slots, dies := s.dies } = s ∧ (∀ e, e ≠ d → t.die e = s.die e) ∧
      (∀ l, l ∈ (t.die d).icache ↔ l ∈ (s.die d).icache ∧ l.trellis ≠ tr) ∧ (∀ e, e ∈ (t.die d).tlb ↔ e ∈ (s.die d).tlb ∧ e.at_ ≠ .itlb tr) ∧
      { t.die d with icache := (s.die d).icache, tlb := (s.die d).tlb } = s.die d := by
  intro d tr near
  have hme : (s.fetchDropped d tr).me = { s.me with line := none, ahead := none } :=
    (s.slot_fetchDropped d tr s.cur).trans (if_pos ⟨rfl, rfl⟩)
  have hslot (k : Nat) (hk : k ≠ s.cur) : ((s.fetchDropped d tr).resultIn 2 0 0).slot k = (s.fetchDropped d tr).slot k := by
    rw [State.resultIn_x0]; exact State.slot_updMe_ne _ _ hk
  have hdie (e : Nat) : ((s.fetchDropped d tr).resultIn 2 0 0).die e = if e = d then (s.die d).dropped tr else s.die e := by
    rw [State.resultIn_x0]; exact s.die_fetchDropped d tr e
  have hrest : { (s.fetchDropped d tr).resultIn 2 0 0 with slots := s.slots, dies := s.dies } = s := by
    rw [State.resultIn_x0]; rfl
  refine ⟨_, exec_fenceI imm rs1 rd s, ?_⟩
  rw [hdie d, if_pos rfl, State.resultIn_x0, State.me_updMe, hme, ← State.resultIn_x0]
  refine ⟨rfl, rfl, rfl, rfl, rfl, rfl, rfl, rfl, fun k hk => ⟨fun hn => ?_, fun hn => ?_⟩, hrest, fun e he => ?_, fun l => ?_, fun e => ?_, rfl⟩
  · rw [hslot k hk, State.slot_fetchDropped, if_pos hn]
  · rw [hslot k hk, State.slot_fetchDropped, if_neg hn]
  · rw [hdie, if_neg he]
  · simp [Die.dropped]
  · simp [Die.dropped]

/-! ALIGN. -/

theorem State.mem_alignPeers {s : State} {p : Nat} : p ∈ s.alignPeers ↔
    (∃ v, (p, v) ∈ s.vcs ∧ v.live = true ∧ v.gid = s.myVc.gid ∧ v.place.isSome = true) ∧ s.coreOf p ≠ s.coreOf s.vk ∧
      trellisIx (s.coreOf p) = trellisIx (s.coreOf s.vk) ∧ (s.slot (slotKey p s.ix)).st ≠ .empty := by
  simp only [State.alignPeers, List.mem_map, List.mem_filter, Prod.exists, exists_and_right, exists_eq_right, Bool.and_eq_true, beq_iff_eq,
    bne_iff_ne]
  rw [← exists_and_right]
  simp only [and_assoc]

theorem Slot.atAlign_iff {sl : Slot} {pc : Word} : sl.atAlign pc = true ↔ ∃ w l, sl.hold = some (.align w l) ∧ sl.pc = pc := by
  unfold Slot.atAlign
  split
  · next w l h => simp [h]
  · next h => simpa using fun w l hh => absurd hh (h w l)

/-- The change of a slot that waits at an ALIGN when a peer presents it. -/
def Slot.metBy (sl : Slot) (vk : Nat) : Slot :=
  match sl.hold with
  | some (.align w l) => { sl with hold := some (.align w (vk :: l)) }
  | _ => sl

/-- The state after an ALIGN has met the peers that wait at the same pc. -/
def State.alignMet (s : State) : State :=
  s.mapSlots (fun k sl => if k % 16 == s.ix && s.alignPeers.contains (k / 16) && sl.atAlign s.me.pc then sl.metBy s.vk else sl)

theorem Slot.metBy_eq {sl : Slot} {w : Nat} {l : List Nat} (h : sl.hold = some (.align w l)) (vk : Nat) :
    sl.metBy vk = { sl with hold := some (.align w (vk :: l)) } := by
  unfold Slot.metBy; rw [h]

theorem State.slot_alignMet (s : State) (k : Nat) : s.alignMet.slot k =
    if k % 16 = s.ix ∧ k / 16 ∈ s.alignPeers ∧ (s.slot k).atAlign s.me.pc = true then (s.slot k).metBy s.vk else s.slot k := by
  rw [State.alignMet, State.slot_mapSlots]
  · simp only [Bool.and_eq_true, beq_iff_eq, List.contains_iff_mem, and_assoc]
  · split <;> rfl

/-- A virtual core is not its own peer, so that an ALIGN leaves its own slot. -/
theorem State.me_alignMet (s : State) : s.alignMet.me = s.me :=
  (s.slot_alignMet s.cur).trans (if_neg (fun h => (State.mem_alignPeers.mp h.2.1).2.1 rfl))

/-- What an ALIGN that has waited and has been seen does. -/
theorem exec_align {s : State} {waited : Nat} {seen : List Nat}
    (h : s.me.hold = none ∧ waited = 0 ∧ seen = [] ∨ s.me.hold = some (.align waited seen)) (n : BitVec 12) :
    exec (.align n) s = .next (
      if s.alignPeers.all (fun p => seen.contains p || (s.slot (slotKey p s.ix)).atAlign s.me.pc) || n.toNat ≤ waited || s.me.pendingAny then
        s.alignMet.retire
      else s.alignMet.updMe (fun sl => { sl with hold := some (.align (waited + 1) seen) })) := by
  have hmet (f : Nat → Slot → Slot) (hf : ∀ k sl, f k sl =
      if k % 16 == s.ix && s.alignPeers.contains (k / 16) && sl.atAlign s.me.pc then sl.metBy s.vk else sl) : s.mapSlots f = s.alignMet := by
    rw [State.alignMet, funext fun k => funext (hf k)]
  show execAlign n s = _
  unfold execAlign
  simp only []
  rw [hmet]
  · rcases h with ⟨hh, rfl, rfl⟩ | hh
    · simp only [hh]
    · simp only [hh]
  · intro k sl
    unfold Slot.atAlign Slot.metBy
    cases sl.hold with
    | none => simp
    | some o => cases o <;> simp

/-- The condition of R127 for a completion, in the terms of the statement. -/
theorem State.all_met_iff {s : State} {seen : List Nat} :
    s.alignPeers.all (fun p => seen.contains p || (s.slot (slotKey p s.ix)).atAlign s.me.pc) = true ↔
      ∀ p ∈ s.alignPeers, p ∈ seen ∨ ∃ w l, (s.slot (slotKey p s.ix)).hold = some (.align w l) ∧ (s.slot (slotKey p s.ix)).pc = s.me.pc := by
  simp only [List.all_eq_true, Bool.or_eq_true, List.contains_iff_mem, Slot.atAlign_iff]

/-- Beside its own slot an ALIGN changes the peers that wait at its pc, and each only in whom it has seen. -/
theorem State.others_alignMet {s t : State} (hs : ∀ k, k ≠ s.cur → t.slot k = s.alignMet.slot k) {k : Nat} (hk : k ≠ s.cur) :
    (∀ w l, k % 16 = s.ix → k / 16 ∈ s.alignPeers → (s.slot k).hold = some (.align w l) ∧ (s.slot k).pc = s.me.pc →
      t.slot k = { s.slot k with hold := some (.align w (s.vk :: l)) }) ∧
    ((¬ ∃ w l, k % 16 = s.ix ∧ k / 16 ∈ s.alignPeers ∧ (s.slot k).hold = some (.align w l) ∧ (s.slot k).pc = s.me.pc) →
      t.slot k = s.slot k) := by
  rw [hs k hk, State.slot_alignMet]
  refine ⟨fun w l hix hp hw => ?_, fun hn => ?_⟩
  · rw [if_pos ⟨hix, hp, Slot.atAlign_iff.mpr ⟨w, l, hw⟩⟩, Slot.metBy_eq hw.1]
  · refine if_neg (fun ⟨hix, hp, ha⟩ => hn ?_)
    obtain ⟨w, l, hw⟩ := Slot.atAlign_iff.mp ha
    exact ⟨w, l, hix, hp, hw⟩

/-- Settles O29: the fences are State.fenceAt, FENCE.I and ALIGN a change of other slots and then one of their own. -/
theorem fences : Obligations.Fences := by
  intro s fm pred succ rs1 rd imm n sc d tr near fence
  refine ⟨State.fence_spec rfl, fun hp hs => State.fence_spec (exec_fence_core rs1 rd hp hs s),
    fun h => ⟨_, exec_fence_empty rs1 rd h s, s.did_retire⟩, s.fenceI_spec imm rs1 rd, ?_⟩
  intro waited seen hh peer waits met others
  have hpeer (p : Nat) : peer p ↔ p ∈ s.alignPeers := State.mem_alignPeers.symm
  have hothers {t : State} (hs : ∀ k, k ≠ s.cur → t.slot k = s.alignMet.slot k) (hrest : { t with slots := s.slots } = s) : others t := by
    refine ⟨fun k hk => ?_, hrest⟩
    simp only [hpeer]
    exact State.others_alignMet hs hk
  refine ⟨fun h => ?_, fun p hp hm hw hpend => ?_⟩
  · have hc : (s.alignPeers.all (fun p => seen.contains p || (s.slot (slotKey p s.ix)).atAlign s.me.pc) || n.toNat ≤ waited ||
        s.me.pendingAny) = true := by
      rw [Bool.or_eq_true, Bool.or_eq_true, decide_eq_true_eq, State.all_met_iff, or_assoc]
      exact h.imp_left (fun h p hp => h p ((hpeer p).mpr hp))
    refine ⟨_, (exec_align hh n).trans (congrArg _ (if_pos hc)), ?_⟩
    rw [State.me_retire, State.me_alignMet]
    exact ⟨rfl, rfl, rfl, rfl, rfl, rfl, hothers (fun k hk => State.slot_retire_ne _ hk) rfl⟩
  · have hc : ¬ (s.alignPeers.all (fun p => seen.contains p || (s.slot (slotKey p s.ix)).atAlign s.me.pc) || n.toNat ≤ waited ||
        s.me.pendingAny) = true := by
      rw [Bool.or_eq_true, Bool.or_eq_true, decide_eq_true_eq, State.all_met_iff, hpend]
      exact not_or.mpr ⟨not_or.mpr ⟨fun h => hm (h p ((hpeer p).mp hp)), not_le.mpr hw⟩, Bool.false_ne_true⟩
    refine ⟨_, (exec_align hh n).trans (congrArg _ (if_neg hc)), ?_⟩
    rw [State.me_updMe, State.me_alignMet]
    exact ⟨rfl, rfl, hothers (fun k hk => State.slot_updMe_ne _ _ hk) rfl⟩

end Sys2Proof.Machine
end

section
/-! PROOFS. Words of the encodings; what waking, ring advances and slot writes leave of the slots; completions after them. -/

namespace Sys2Proof.Machine

open Sys2Proof.Claim

/-- Settles O6: each word is what the encoder writes for its instruction, and the decoder reads it back. -/
theorem specWordsDecode : Obligations.SpecWordsDecode :=
  ⟨decodeEncode _ _ rfl rfl, decodeEncode _ _ rfl rfl, decodeEncode _ _ rfl rfl, decodeEncode _ _ rfl rfl, decodeEncode _ _ rfl rfl,
    decodeEncode _ _ rfl rfl, decodeEncode _ _ rfl rfl, decodeEncode _ _ rfl rfl, decodeEncode _ _ rfl rfl⟩

/-! Slots that differ in reservations, mip and wake times alone. -/

/-- The slot a is b but for resv, mip and wakeAt. -/
def Slot.Stirred (a b : Slot) : Prop := { a with resv := b.resv, mip := b.mip, wakeAt := b.wakeAt } = b

theorem Slot.Stirred.refl (a : Slot) : a.Stirred a := rfl

theorem Slot.Stirred.trans {a b c : Slot} (h : a.Stirred b) (k : b.Stirred c) : a.Stirred c := by
  have h' : a = { b with resv := a.resv, mip := a.mip, wakeAt := a.wakeAt } := by rw [← h]
  have k' : b = { c with resv := b.resv, mip := b.mip, wakeAt := b.wakeAt } := by rw [← k]
  rw [h', k']; rfl

/-- Of the slots no more than resv, mip and wakeAt differ. -/
structure Stirred (s u : State) : Prop where
  cur : u.cur = s.cur
  slot : ∀ k, (u.slot k).Stirred (s.slot k)

theorem Stirred.of_slots {s u : State} (hc : u.cur = s.cur) (h : u.slots = s.slots) : Stirred s u where
  cur := hc
  slot k := by rw [State.slot, h]; exact Slot.Stirred.refl _

theorem Stirred.trans {s t u : State} (h : Stirred s t) (k : Stirred t u) : Stirred s u where
  cur := k.cur.trans h.cur
  slot j := (k.slot j).trans (h.slot j)

theorem Stirred.me {s u : State} (h : Stirred s u) : u.me.Stirred s.me := by
  rw [State.me, h.cur]; exact h.slot s.cur

/-- Waking changes wakeAt alone. -/
theorem Slot.stirred_of_wakeAt {a b : Slot} (h : { a with wakeAt := b.wakeAt } = b) : a.Stirred b := by
  rw [← h]; rfl

theorem Slot.stirred_of_mip {a b : Slot} (h : { a with mip := b.mip } = b) : a.Stirred b := by
  rw [← h]; rfl

theorem Slot.stirred_of_resv {a b : Slot} (h : { a with resv := b.resv } = b) : a.Stirred b := by
  rw [← h]; rfl

theorem State.wakeAt_slot_wakeVc (s : State) (vk : Nat) (p : Await → Bool) (k : Nat) :
    { (s.wakeVc vk p).slot k with wakeAt := (s.slot k).wakeAt } = s.slot k := by
  rw [State.slot_wakeVc]; split
  · exact Slot.wake_rest ..
  · rfl

theorem State.stirred_wakeVc (s : State) (vk : Nat) (p : Await → Bool) : Stirred s (s.wakeVc vk p) where
  cur := rfl
  slot k := Slot.stirred_of_wakeAt (s.wakeAt_slot_wakeVc vk p k)

theorem State.stirred_wakeAll (s : State) (p : Await → Bool) : Stirred s (s.wakeAll p) where
  cur := rfl
  slot k := by rw [State.slot_wakeAll]; exact Slot.stirred_of_wakeAt (Slot.wake_rest ..)

theorem State.stirred_clearSup (s : State) (vk ix : Nat) : Stirred s (s.clearSup vk ix) where
  cur := by rcases s.clearSup_cases vk ix with h | h <;> rw [h]; rfl
  slot k := Slot.stirred_of_mip (s.slot_clearSup vk ix k)

theorem State.stirred_dropResv (s : State) (a n : Nat) (own : Option Nat) : Stirred s (s.dropResv a n own) where
  cur := rfl
  slot k := Slot.stirred_of_resv (s.slot_dropResv a n own k)

theorem State.stirred_latchWritten (s : State) (a n : Nat) : Stirred s (s.latchWritten a n) where
  cur := by rcases s.latchWritten_cases a n with h | h <;> rw [h]; rfl
  slot k := Slot.stirred_of_mip (s.slot_latchWritten a n k)

theorem State.stirred_codeWritten (s : State) (a n : Nat) : Stirred s (s.codeWritten a n) :=
  .of_slots (by rcases s.codeWritten_cases a n with h | h <;> rw [h]) (s.codeWritten_slots a n)

theorem State.stirred_wrote (s : State) (a n : Nat) : Stirred s (s.wrote a n) :=
  ((s.stirred_dropResv a n _).trans (State.stirred_latchWritten _ a n)).trans (State.stirred_codeWritten _ a n)

/-- A parked slot whose wait is met has a wake time. -/
theorem Slot.isSome_wakeAt_wake {sl : Slot} {a : Await} {p : Await → Bool} (hst : sl.st = .parked) (hpark : sl.park = some a) (hp : p a = true)
    (c : Nat) : (sl.wake p c).wakeAt.isSome = true := by
  cases hw : sl.wakeAt <;> simp [Slot.wake, hst, hpark, hp, hw]

theorem State.isSome_wakeAt_wakeVc {s : State} {vk k : Nat} {a : Await} {p : Await → Bool} (hk : k / 16 = vk) (hst : (s.slot k).st = .parked)
    (hpark : (s.slot k).park = some a) (hp : p a = true) : ((s.wakeVc vk p).slot k).wakeAt.isSome = true := by
  rw [State.slot_wakeVc, if_pos hk]; exact Slot.isSome_wakeAt_wake hst hpark hp _

/-- A completion leaves the wake times. -/
theorem Slot.wakeAt_writeX_retireAt (sl : Slot) (rd : BitVec 5) (v p : Word) : ((sl.writeX rd v).retireAt p).wakeAt = sl.wakeAt := by
  unfold Slot.writeX; split <;> rfl

theorem State.wakeAt_result (s : State) (rd : BitVec 5) (v : Word) (k : Nat) : ((s.result rd v).slot k).wakeAt = (s.slot k).wakeAt := by
  by_cases hk : k = s.cur
  · subst hk
    exact (congrArg Slot.wakeAt (s.me_result rd v)).trans (Slot.wakeAt_writeX_retireAt ..)
  · rw [State.slot_result_ne _ _ _ hk]

/-! Completions. -/

/-- A completion of a slot that is stirred changes no more. -/
theorem Slot.Stirred.retired {b c : Slot} (h : b.Stirred c) (rd : BitVec 5) (v p : Word) :
    { (b.writeX rd v).retireAt p with
      x := c.x, pc := c.pc, minstret := c.minstret, hold := c.hold, arrived := c.arrived, resv := c.resv, mip := c.mip,
      wakeAt := c.wakeAt } = c := by
  have hb : b = { c with resv := b.resv, mip := b.mip, wakeAt := b.wakeAt } := by rw [← h]
  rw [hb]
  unfold Slot.writeX
  split <;> rfl

theorem Slot.Stirred.readX {b c : Slot} (h : b.Stirred c) (r : BitVec 5) : b.readX r = c.readX r := by rw [← h]; rfl

theorem Stirred.x {s u : State} (h : Stirred s u) (r : BitVec 5) : u.x r = s.x r := h.me.readX r

/-- An instruction that completes after it has stirred the slots. -/
theorem Stirred.kept {s u : State} (h : Stirred s u) (rd : XReg) (w : Word) : Claim.Kept s (u.result rd w) rd w where
  x r := by rw [State.x_result, h.x]
  pc := by rw [(u.did_result rd w).pc, show u.me.pc = s.me.pc by rw [← h.me]]
  hold := (u.did_result rd w).hold
  arrived := (u.did_result rd w).arrived
  slot := by rw [State.me_result]; exact h.me.retired ..
  others k hk := by rw [State.slot_result_ne _ _ _ (h.cur ▸ hk)]; exact h.slot k

theorem State.vc_updMyVc_ne (s : State) (f : VCore → VCore) {k : Nat} (h : k ≠ s.vk) : (s.updMyVc f).vc k = s.vc k :=
  FMap.getD_set_ne _ _ _ h

/-- An instruction that completes after it has changed its virtual core and woken slots. -/
theorem State.vcDone_of_woken {s u : State} (hslot : ∀ k, { u.slot k with wakeAt := (s.slot k).wakeAt } = s.slot k)
    (hvcs : ∀ k, k ≠ s.vk → u.vc k = s.vc k) (hrest : { u with slots := s.slots, vcs := s.vcs } = s) (rd : XReg) (w : Word) :
    VcDone s (u.result rd w) (u.vc s.vk) rd w := by
  have hcur : u.cur = s.cur := by rw [← hrest]
  have hk : Claim.Kept s (u.result rd w) rd w := Stirred.kept ⟨hcur, fun k => Slot.stirred_of_wakeAt (hslot k)⟩ rd w
  have hme : { u.me with wakeAt := s.me.wakeAt } = s.me := by rw [State.me, hcur]; exact hslot s.cur
  exact {
    vc := congrArg (fun c => u.vc (c / 16)) hcur
    vcs := hvcs
    x := hk.x
    pc := hk.pc
    hold := hk.hold
    arrived := hk.arrived
    slot := by
      rw [State.me_result, show u.me = { s.me with wakeAt := u.me.wakeAt } by rw [← hme]]
      unfold Slot.writeX
      split <;> rfl
    others := fun k hk => by
      rw [State.slot_result_ne _ _ _ (hcur ▸ hk), ← hslot k]
    rest := hrest }

theorem State.vcDone_wakeVc (s : State) (f : VCore → VCore) (p : Await → Bool) (rd : XReg) (w : Word) :
    VcDone s (((s.updMyVc f).wakeVc s.vk p).result rd w) (f s.myVc) rd w := by
  rw [← s.myVc_updMyVc f]
  exact State.vcDone_of_woken (s := s) (State.wakeAt_slot_wakeVc (s.updMyVc f) s.vk p) (fun _ => s.vc_updMyVc_ne f) rfl rd w

theorem State.vcDone_updMyVc (s : State) (f : VCore → VCore) (rd : XReg) (w : Word) :
    VcDone s ((s.updMyVc f).result rd w) (f s.myVc) rd w := by
  rw [← s.myVc_updMyVc f]
  exact State.vcDone_of_woken (s := s) (u := s.updMyVc f) (fun _ => rfl) (fun _ => s.vc_updMyVc_ne f) rfl rd w

theorem State.vcDone_updMyVc_retire (s : State) (f : VCore → VCore) : VcDone s (s.updMyVc f).retire (f s.myVc) 0 0 := by
  rw [← State.result_x0 _ 0]; exact s.vcDone_updMyVc f 0 0

theorem State.parked_parkOn (s : State) (a : Await) : Parked s (s.parkOn a) a where
  me := s.me_parkOn a
  others _ h := s.slot_parkOn_ne a h
  rest := rfl

end Sys2Proof.Machine
end

section
/-! PROOFS. FORK, JOIN, PARK and HALT; engine bindings and semaphores. -/

namespace Sys2Proof.Machine

open Sys2Proof.Claim

/-! Masks of slots. -/

theorem testBit_eq_div_mod (m j : Nat) : (m / 2 ^ j % 2 == 1) = m.testBit j := by
  rw [Nat.testBit_eq_decide_div_mod_eq, Bool.beq_eq_decide_eq]

theorem div_mod_eq_zero_iff (m j : Nat) : m / 2 ^ j % 2 = 0 ↔ m.testBit j = false := by
  rw [← testBit_eq_div_mod, beq_eq_false_iff_ne]; omega

theorem mem_maskSlots {m j : Nat} (hm : m < 65536) : j ∈ maskSlots m ↔ m.testBit j = true := by
  rw [maskSlots, List.mem_filter, List.mem_range, testBit_eq_div_mod, and_iff_right_iff_imp]
  intro h
  by_contra hj
  rw [Nat.testBit_lt_two_pow (hm.trans_le (Nat.pow_le_pow_right Nat.two_pos (not_lt.mp hj)))] at h
  exact Bool.false_ne_true h

theorem extractLsb'_0_2_eq_zero_iff (w : Word) : w.extractLsb' 0 2 = 0 ↔ w &&& 3 = 0 := by
  simp only [← BitVec.toNat_inj, BitVec.extractLsb'_toNat, BitVec.toNat_and]
  exact Iff.of_eq (congrArg (· = 0) (Nat.and_two_pow_sub_one_eq_mod w.toNat 2).symm)

/-! FORK. -/

/-- The slot j may be named by a FORK (R103). -/
def State.FreeSlot (s : State) (j : Nat) : Prop :=
  ((s.slot (slotKey s.vk j)).st = .empty ∨ (s.slot (slotKey s.vk j)).st = .halted) ∧ ∀ f ∈ s.myVc.forks, f.slot ≠ j

theorem State.forkable_iff (s : State) (j : Nat) : s.forkable j = true ↔ s.FreeSlot j := by
  simp [State.forkable, State.FreeSlot]

/-- No live bundle of the current virtual core has the number b. -/
def State.UnusedBundle (s : State) (b : Nat) : Prop :=
  (∀ p ∈ s.slots, p.1 / 16 = s.vk → p.2.st ≠ .empty → p.2.st ≠ .halted → p.2.bundle ≠ b) ∧ ∀ f ∈ s.myVc.forks, f.image.bundle ≠ b

theorem State.unusedBundle_freshBundle {s : State} (h : ∃ b < 16, s.UnusedBundle b) : s.UnusedBundle (s.freshBundle s.vk) := by
  have hused (b : Nat) : (!(((s.slots.filter (fun p => p.1 / 16 == s.vk && p.2.st != .empty && p.2.st != .halted)).map (fun p => p.2.bundle)) ++
      (s.vc s.vk).forks.map (fun f => f.image.bundle)).contains b) = true ↔ s.UnusedBundle b := by
    simp [State.UnusedBundle, State.myVc]
  obtain ⟨b, hb, hu⟩ := h
  unfold State.freshBundle
  extract_lets used
  cases hf : (List.range 16).find? (fun b => !used.contains b) with
  | none => exact absurd ((hused b).mpr hu) (List.find?_eq_none.mp hf b (List.mem_range.mpr hb))
  | some c => exact (hused c).mp (List.find?_some (p := fun b => !used.contains b) hf)

/-- The request of a FORK for slot j: the registers are those of the issue (R103). -/
def State.forkRequest (s : State) (entry : Word) (m j : Nat) : ForkReq where
  slot := j
  cyc := s.cycOf s.vk
  image := { ((s.me.writeX 10 (BitVec.ofNat 64 j)).writeX 11 (BitVec.ofNat 64 m)) with pc := entry, bundle := s.freshBundle s.vk }

def State.forked (s : State) (entry : Word) (m : Nat) : State :=
  s.updMyVc (fun v => { v with forks := v.forks ++ (maskSlots m).map (s.forkRequest entry m) })

theorem State.forks_forked (s : State) (entry : Word) (m : Nat) :
    (s.forked entry m).myVc.forks = s.myVc.forks ++ (maskSlots m).map (s.forkRequest entry m) := by
  rw [State.forked, State.myVc_updMyVc]

/-- A mask that a FORK can start. -/
def State.Startable (s : State) (m : Nat) : Prop :=
  m ≠ 0 ∧ m.testBit s.ix = false ∧ m < 2 ^ slotCount s.myVc ∧ ∀ j, m.testBit j = true → s.FreeSlot j

section
variable {s : State} {rd rs1 rs2 : XReg}

theorem exec_fork_misaligned (h : s.x rs1 &&& 3 ≠ 0) : exec (.fork rd rs1 rs2) s = .next (s.trap 0 (s.x rs1)) := by
  refine congrArg Host.Outcome.next (if_pos ?_)
  rw [bne_iff_ne, Ne, extractLsb'_0_2_eq_zero_iff]; exact h

theorem startable_iff {m : Nat} (hm : m < 65536) :
    (m != 0 && m / 2 ^ s.ix % 2 == 0 && m / 2 ^ slotCount s.myVc == 0 && (maskSlots m).all s.forkable) = true ↔ s.Startable m := by
  simp only [Bool.and_eq_true, bne_iff_ne, beq_iff_eq, div_mod_eq_zero_iff, List.all_eq_true, mem_maskSlots hm, s.forkable_iff, and_assoc,
    Nat.div_eq_zero_iff_lt (Nat.two_pow_pos _), State.Startable]

theorem exec_fork (h : s.x rs1 &&& 3 = 0) (hs : s.Startable ((s.x rs2).toNat % 65536)) : exec (.fork rd rs1 rs2) s =
    .next ((s.forked (s.x rs1) ((s.x rs2).toNat % 65536)).result rd (BitVec.ofNat 64 ((s.x rs2).toNat % 65536))) := by
  have ha : ((s.x rs1).extractLsb' 0 2 != 0) = false := by rw [bne_eq_false_iff_eq, extractLsb'_0_2_eq_zero_iff]; exact h
  have hok := (startable_iff (Nat.mod_lt _ (by decide))).mpr hs
  show execFork rd rs1 rs2 s = _
  simp only [execFork, ha, hok, Bool.not_true, Bool.false_eq_true, if_false]
  rfl

theorem exec_fork_not_startable (h : s.x rs1 &&& 3 = 0) (hs : ¬ s.Startable ((s.x rs2).toNat % 65536)) :
    exec (.fork rd rs1 rs2) s = .next (s.result rd 0) := by
  have ha : ((s.x rs1).extractLsb' 0 2 != 0) = false := by rw [bne_eq_false_iff_eq, extractLsb'_0_2_eq_zero_iff]; exact h
  have hok := Bool.eq_false_iff.mpr (mt (startable_iff (Nat.mod_lt _ (by decide))).mp hs)
  show execFork rd rs1 rs2 s = _
  simp only [execFork, ha, hok, Bool.not_false, Bool.false_eq_true, if_false, if_true]

end

/-- What a slot started by a FORK holds. -/
theorem State.readX_forkRequest (s : State) (entry : Word) (m j : Nat) :
    (s.forkRequest entry m j).image.readX 10 = BitVec.ofNat 64 j ∧ (s.forkRequest entry m j).image.readX 11 = BitVec.ofNat 64 m ∧
      ∀ r : XReg, r ≠ 10 → r ≠ 11 → (s.forkRequest entry m j).image.readX r = s.x r := by
  have hread (r : XReg) : (s.forkRequest entry m j).image.readX r =
      if r = 11 then BitVec.ofNat 64 m else if r = 10 then BitVec.ofNat 64 j else s.me.readX r := by
    show ((s.me.writeX 10 (BitVec.ofNat 64 j)).writeX 11 (BitVec.ofNat 64 m)).readX r = _
    simp [Slot.readX_writeX]
  refine ⟨hread 10, hread 11, fun r h10 h11 => ?_⟩
  rw [hread, if_neg h11, if_neg h10]; rfl

/-! HALT. -/

/-- The slot after a HALT. -/
def Slot.halt (sl : Slot) (cyc : Nat) : Slot := { sl with st := .halted, haltAt := cyc, minstret := sl.minstret + 1, hold := none }

/-- A HALT that ends the save (R355). -/
def State.EndsSave (s : State) : Prop := s.me.mode = .m ∧ s.myVc.lead = some s.ix ∧ s.myVc.saveOk = true

/-- The state after a HALT, before the JOINs that name its slot wake. -/
def State.haltedMe (s : State) : State := s.updMe (fun sl => sl.halt (s.cycOf s.vk))

/-- The same when the HALT ends the save. -/
def State.haltedEnding (s : State) : State := s.haltedMe.updMyVc (fun v => { v with ending := true })

theorem State.vc_haltedEnding (s : State) (k : Nat) :
    s.haltedEnding.vc k = if k = s.vk then { s.myVc with ending := true } else s.vc k := s.haltedMe.vc_updVc s.vk k _

theorem exec_halt_of_endsSave {s : State} (h : s.EndsSave) : exec .halt s = .next (s.haltedEnding.wakeJoin s.vk s.ix) := by
  obtain ⟨hm, hl, ho⟩ := h
  have hc : (s.me.mode == .m && s.myVc.lead == some s.ix && s.myVc.saveOk) = true := by simp [hm, hl, ho]
  exact congrArg (fun t : State => Host.Outcome.next (t.wakeJoin s.vk s.ix)) (if_pos hc)

theorem exec_halt_of_not_endsSave {s : State} (h : ¬ s.EndsSave) : exec .halt s = .next (s.haltedMe.wakeJoin s.vk s.ix) := by
  have hc : ¬ (s.me.mode == .m && s.myVc.lead == some s.ix && s.myVc.saveOk) = true := by
    simpa [State.EndsSave, and_assoc] using h
  exact congrArg (fun t : State => Host.Outcome.next (t.wakeJoin s.vk s.ix)) (if_neg hc)

/-- What a HALT does to the slots: t has those of the slot that halted, with the JOINs that name it awake. -/
structure Halts (s t : State) : Prop where
  me : t.me = s.me.halt (s.cycOf s.vk)
  others : ∀ k, k ≠ s.cur → { t.slot k with wakeAt := (s.slot k).wakeAt } = s.slot k
  woken : ∀ k n, k ≠ s.cur → k / 16 = s.vk → (s.slot k).st = .parked → (s.slot k).park = some (.join n) → n.testBit s.ix = true →
    (t.slot k).wakeAt.isSome = true

theorem halts_wakeJoin {s u : State} (hcur : u.cur = s.cur) (hslots : u.slots = s.haltedMe.slots) : Halts s (u.wakeJoin s.vk s.ix) := by
  have hme : u.slot s.cur = s.me.halt (s.cycOf s.vk) := by rw [State.slot, hslots]; exact s.me_updMe _
  have hne {k : Nat} (hk : k ≠ s.cur) : u.slot k = s.slot k := by rw [State.slot, hslots]; exact s.slot_updMe_ne _ hk
  refine ⟨?_, fun k hk => ?_, fun k n hk hvk hst hp hn => ?_⟩
  · show (u.wakeVc s.vk _).slot u.cur = _
    have hst : (u.slot s.cur).st ≠ .parked := by rw [hme]; exact SlotState.noConfusion
    rw [hcur, State.slot_wakeVc, Slot.wake_of_not_parked hst, ite_self, hme]
  · rw [← hne hk]; exact State.wakeAt_slot_wakeVc ..
  · rw [← hne hk] at hst hp
    exact State.isSome_wakeAt_wakeVc hvk hst hp ((testBit_eq_div_mod n s.ix).trans hn)

/-- Settles O21: a FORK by whether its mask can be started, JOIN and PARK by their conditions, HALT by what it does to the slots. -/
theorem threads : Obligations.Threads := by
  intro s rd rs1 rs2 m st free unused
  have hm : m < 65536 := Nat.mod_lt _ (by decide)
  have refused (h : s.x rs1 &&& 3 = 0) (hs : ¬ s.Startable m) : ∃ t, exec (.fork rd rs1 rs2) s = .next t ∧ Did s t rd 0 (s.me.pc + 4) :=
    ⟨_, exec_fork_not_startable h hs, s.did_result rd 0⟩
  refine ⟨fun ha h0 hix hlt hfree => ?_, fun ha h => refused ha ?_, fun ha h => refused ha ?_,
    fun ha => ⟨_, exec_fork_misaligned ha, s.trapped_trap 0 _⟩,
    fun h => ⟨_, congrArg Host.Outcome.next (if_pos h), s.did_retire⟩, fun h => ⟨_, congrArg Host.Outcome.next (if_neg (Bool.eq_false_iff.mp h)), s.parked_parkOn _⟩,
    fun h => ⟨_, congrArg Host.Outcome.next (if_pos h), s.did_retire⟩, fun h => ⟨_, congrArg Host.Outcome.next (if_neg (Bool.eq_false_iff.mp h)), s.parked_parkOn _⟩, ?_⟩
  · have hforks : ((s.forked (s.x rs1) m).result rd (BitVec.ofNat 64 m)).myVc.forks =
        s.myVc.forks ++ (maskSlots m).map (s.forkRequest (s.x rs1) m) := s.forks_forked ..
    refine ⟨_, exec_fork ha ⟨h0, hix, hlt, hfree⟩, ?_⟩
    rw [hforks]
    refine ⟨s.vcDone_updMyVc _ rd _, fun f hf => List.mem_append_left _ hf, fun j _ hj => ?_⟩
    obtain ⟨h10, h11, hx⟩ := s.readX_forkRequest (s.x rs1) m j
    exact ⟨_, List.mem_append_right _ (List.mem_map_of_mem ((mem_maskSlots hm).mpr hj)), rfl, rfl, rfl, h10, h11, rfl, hx, rfl, rfl, rfl, rfl,
      rfl, rfl, State.unusedBundle_freshBundle⟩
  · rintro ⟨-, -, hlt, hfree⟩
    rcases h with h | ⟨j, hj, hn⟩
    · exact absurd hlt (not_lt.mpr h)
    · exact hn (hfree j hj)
  · rintro ⟨h0, hix, -⟩
    rcases h with h | h
    · exact h0 h
    · exact Bool.false_ne_true (hix.symm.trans h)
  · by_cases he : s.EndsSave
    · obtain ⟨hme, hothers, hwoken⟩ := halts_wakeJoin (s := s) (u := s.haltedEnding) rfl rfl
      refine ⟨_, exec_halt_of_endsSave he, by rw [hme]; rfl, by rw [hme]; rfl, by rw [hme]; rfl, hothers, hwoken, fun h => ?_, fun _ _ _ => ?_⟩
      · obtain ⟨hm, hl, ho⟩ := he
        simp [hm, hl, ho] at h
      · exact ⟨(s.vc_haltedEnding s.vk).trans (if_pos rfl), fun k hk => (s.vc_haltedEnding k).trans (if_neg hk), rfl⟩
    · obtain ⟨hme, hothers, hwoken⟩ := halts_wakeJoin (s := s) (u := s.haltedMe) rfl rfl
      exact ⟨_, exec_halt_of_not_endsSave he, by rw [hme]; rfl, by rw [hme]; rfl, by rw [hme]; rfl, hothers, hwoken, fun _ => rfl,
        fun hm hl ho => absurd ⟨hm, hl, ho⟩ he⟩

/-! Engine bindings. -/

/-- The state with the engine bindings b. -/
def State.rebound (s : State) (b : FMap Nat) : State := s.updMyVc (fun v => { v with binds := b })

theorem State.binds_rebound_retire (s : State) (b : FMap Nat) : (s.rebound b).retire.myVc.binds = b := by
  show (s.rebound b).myVc.binds = b
  rw [State.rebound, State.myVc_updMyVc]

theorem State.vcDone_rebound (s : State) (b : FMap Nat) :
    VcDone s (s.rebound b).retire { s.myVc with binds := (s.rebound b).retire.myVc.binds } 0 0 := by
  rw [s.binds_rebound_retire]; exact s.vcDone_updMyVc_retire _

section
variable {s : State} {e : Engine}

theorem exec_engbind_free (h : FMap.get? s.myVc.binds e.toNat = none) :
    exec (.engbind e) s = .next (s.rebound (FMap.set s.myVc.binds e.toNat s.ix)).retire := by
  show execEngbind e s = _
  simp only [execEngbind, VCore.bound, h]; rfl

theorem exec_engbind_bound {j : Nat} (h : FMap.get? s.myVc.binds e.toNat = some j) :
    exec (.engbind e) s = .next (if j = s.ix then s.retire else s.trap 29 (e.setWidth 64)) := by
  show execEngbind e s = _
  simp only [execEngbind, VCore.bound, h, beq_iff_eq]

theorem exec_engfree : exec (.engfree e) s = .next (if FMap.get? s.myVc.binds e.toNat = some s.ix then
    (s.rebound (FMap.del s.myVc.binds e.toNat)).retire else s.trap 29 (e.setWidth 64)) := by
  show execEngfree e s = _
  simp only [execEngfree, VCore.bound, beq_iff_eq]; rfl

end

/-- Settles O23: a binding is an entry of the table of bindings, a semaphore one of the vector of semaphores. -/
theorem bindingsAndSemaphores : Obligations.BindingsAndSemaphores := by
  intro s e n rd rs1 k v old sem
  refine ⟨fun h => ⟨_, exec_engbind_free h, ?_, fun d hd => ?_, s.vcDone_rebound _⟩,
    fun h => ⟨_, (exec_engbind_bound h).trans (congrArg Host.Outcome.next (if_pos rfl)), s.did_retire⟩,
    fun j hj h => ⟨_, (exec_engbind_bound h).trans (congrArg Host.Outcome.next (if_neg hj)), s.trapped_trap 29 _⟩,
    fun h => ⟨_, exec_engfree.trans (congrArg Host.Outcome.next (if_pos h)), ?_, fun d hd => ?_, s.vcDone_rebound _⟩,
    fun h => ⟨_, exec_engfree.trans (congrArg Host.Outcome.next (if_neg h)), s.trapped_trap 29 _⟩,
    ⟨_, rfl, ?_, fun j hj hst hp => ?_⟩,
    fun h => ⟨_, congrArg Host.Outcome.next (if_pos h), s.vcDone_updMyVc_retire _⟩,
    fun h => ⟨_, congrArg Host.Outcome.next (if_neg (Nat.not_le.mpr h)), s.parked_parkOn _⟩,
    fun h => ⟨_, congrArg Host.Outcome.next (if_pos h), s.vcDone_updMyVc _ _ _⟩,
    fun h => ⟨_, congrArg Host.Outcome.next (if_neg (Nat.not_le.mpr h)), s.did_result _ _⟩, rfl, rfl, rfl⟩
  · rw [s.binds_rebound_retire, FMap.get?_set, if_pos rfl]
  · rw [s.binds_rebound_retire, FMap.get?_set, if_neg hd.symm]
  · rw [s.binds_rebound_retire, FMap.get?_del_self]
  · rw [s.binds_rebound_retire, FMap.get?_del_ne _ hd]
  · rw [← State.result_x0 _ 0]; exact s.vcDone_wakeVc _ _ 0 0
  · rw [← State.result_x0 _ 0, State.wakeAt_result]
    exact State.isSome_wakeAt_wakeVc (s := s.setSem n _) hj hst hp (beq_self_eq_true _)

end Sys2Proof.Machine
end

section
/-! PROOFS. Rings: what a change of a ring leaves, waits and advances through handles, pops and pushes, work rings. -/

namespace Sys2Proof.Machine

open Sys2Proof.Claim

/-! A slot's write of bytes, whatever the bytes. -/

/-- The state u is s after writes of a slot: memory, of the slots resv, mip and wakeAt, of the cores the mark of the resident code. -/
structure Wrote (s u : State) : Prop where
  stirred : Stirred s u
  cores : CodeMarked s u
  rest : { u with slots := s.slots, mem := s.mem, cores := s.cores } = s

theorem Wrote.refl (s : State) : Wrote s s := ⟨.of_slots rfl rfl, fun _ => rfl, rfl⟩

theorem State.wrote_wrote (s : State) (m : Memory) (a n : Nat) : Wrote s (({ s with mem := m }).wrote a n) where
  stirred := .trans (t := { s with mem := m }) (.of_slots rfl rfl) (State.stirred_wrote _ a n)
  cores := by
    unfold State.wrote
    exact State.codeMarked_codeWritten (by rw [State.latchWritten_cores]; rfl) a n
  rest := State.mem_trans (State.wrote_rest { s with mem := m } a n)

theorem State.wrote_storeLm (s : State) (a v n : Nat) : Wrote s (s.storeLm a v n) := s.wrote_wrote _ a n

theorem Wrote.vcs {s u : State} (h : Wrote s u) : u.vcs = s.vcs := (congrArg State.vcs h.rest :)

theorem Wrote.ring {s u : State} (h : Wrote s u) (vk ix : Nat) : u.ring vk ix = s.ring vk ix := by
  rw [State.ring, State.vc, h.vcs]; rfl

/-! A change of one ring. -/

/-- The state u is s with the ring ix of the current virtual core now q; memory is said apart. -/
structure RingSet (s u : State) (ix : Nat) (q : Ring) : Prop where
  stirred : Stirred s u
  ring : u.ring s.vk ix = q
  rings : ∀ j, j ≠ ix → u.ring s.vk j = s.ring s.vk j
  vc : { u.vc s.vk with rings := s.myVc.rings } = s.myVc
  vcs : ∀ k, k ≠ s.vk → u.vc k = s.vc k
  cores : CodeMarked s u
  rest : { u with slots := s.slots, vcs := s.vcs, mem := s.mem, cores := s.cores } = s

/-- After writes the ring is set, and then no more than slots are stirred. -/
theorem Wrote.ringSet {s u w : State} (h : Wrote s u) {ix : Nat} {q : Ring} (hs : Stirred (u.setRing s.vk ix q) w)
    (hr : { w with slots := u.slots } = u.setRing s.vk ix q) : RingSet s w ix q := by
  have hvcs : w.vcs = (u.setRing s.vk ix q).vcs := (congrArg State.vcs hr :)
  have hring (j : Nat) : w.ring s.vk j = if j = ix then q else s.ring s.vk j := by
    rw [← h.ring, ← State.ring_setRing, State.ring, State.vc, hvcs]; rfl
  have hvc (k : Nat) : w.vc k = if k = s.vk then { s.myVc with rings := FMap.set s.myVc.rings ix q } else s.vc k := by
    rw [State.vc, hvcs]
    refine (u.vc_updVc s.vk k _).trans ?_
    rw [State.vc, State.vc, h.vcs]; rfl
  exact {
    stirred := (h.stirred.trans (.of_slots (u := u.setRing s.vk ix q) rfl rfl)).trans hs
    ring := by rw [hring, if_pos rfl]
    rings := fun j hj => by rw [hring, if_neg hj]
    vc := by rw [hvc, if_pos rfl]
    vcs := fun k hk => by rw [hvc, if_neg hk]
    cores := fun g => by
      have hcores : w.cores = u.cores := (congrArg State.cores hr :)
      rw [State.core, hcores]; exact h.cores g
    rest := by
      calc { w with slots := s.slots, vcs := s.vcs, mem := s.mem, cores := s.cores }
          = { { w with slots := u.slots } with slots := s.slots, vcs := s.vcs, mem := s.mem, cores := s.cores } := rfl
        _ = { { u with slots := s.slots, mem := s.mem, cores := s.cores } with vcs := s.vcs } := by rw [hr]; rfl
        _ = s := by rw [h.rest] }

theorem Wrote.ringSet_advTail {s u : State} (h : Wrote s u) (ix k : Nat) : RingSet s (u.advTail s.vk ix k) ix
    { s.ring s.vk ix with tail := ((s.ring s.vk ix).tail + k) % (s.ring s.vk ix).count, fill := (s.ring s.vk ix).fill + k } := by
  rw [← h.ring]
  exact h.ringSet (State.stirred_wakeVc _ _ _) rfl

/-- The slots that wait on a ring wake, and mip.SUP follows the ring. -/
theorem Wrote.ringSet_clearSup {s u : State} (h : Wrote s u) (ix : Nat) (q : Ring) (p : Await → Bool) :
    RingSet s (((u.setRing s.vk ix q).wakeVc s.vk p).clearSup s.vk ix) ix q :=
  h.ringSet ((State.stirred_wakeVc _ _ _).trans (State.stirred_clearSup _ _ _))
    (State.slots_trans (State.clearSup_rest _ _ _) (State.wakeVc_rest _ _ _))

theorem Wrote.ringSet_advHead {s u : State} (h : Wrote s u) (ix k : Nat) :
    RingSet s (u.advHead s.vk ix k) ix ((s.ring s.vk ix).popped k) := by
  rw [State.advHead_eq, h.ring]
  exact h.ringSet_clearSup ix _ _

/-- An instruction that completes after it has changed a ring. -/
theorem RingSet.moved {s u : State} {ix : Nat} {q : Ring} (h : RingSet s u ix q) (rd : XReg) (w : Word) :
    RingMoved s (u.result rd w) ix q rd w where
  kept := h.stirred.kept rd w
  ring := h.ring
  rings := h.rings
  vc := by
    rw [show (u.result rd w).myVc = u.vc s.vk from congrArg (fun c => u.vc (c / 16)) h.stirred.cur]; exact h.vc
  vcs := h.vcs
  cores := h.cores
  rest := h.rest

theorem RingSet.moved_retire {s u : State} {ix : Nat} {q : Ring} (h : RingSet s u ix q) : RingMoved s u.retire ix q 0 0 := by
  rw [← State.result_x0 u 0]; exact h.moved 0 0

theorem State.advHead_mem (s : State) (vk ix k : Nat) : (s.advHead vk ix k).mem = s.mem :=
  (congrArg State.mem (s.advHead_rest vk ix k) :)

/-! Handles. -/

theorem State.withHandle_of_some {s : State} {h : BitVec 3} {pos ix : Nat} {role : Role} {kinds : Ring → Bool} (hs : s.handle? h role kinds = some ix)
    (k : Nat → State) : s.withHandle h pos role kinds k = k ix := by
  simp [State.withHandle, hs]

theorem State.withHandle_of_none {s : State} {h : BitVec 3} {pos : Nat} {role : Role} {kinds : Ring → Bool} (hs : s.handle? h role kinds = none)
    (k : Nat → State) : s.withHandle h pos role kinds k = s.trap25 (rp0 h.toNat pos) := by
  simp [State.withHandle, hs]

theorem rp1_zero (h : Nat) : rp1 h 0 = BitVec.ofNat 64 (64 + h) := congrArg (BitVec.ofNat 64) (by omega)

/-- The trap of class 1 of an instruction whose count its ring cannot meet (R113). -/
theorem State.trapped_rp1 (s : State) (h : Handle) : Trapped s (s.trap25 (rp1 h.toNat 0)) 25 (BitVec.ofNat 64 (64 + h.toNat)) s.me.pc := by
  rw [rp1_zero]; exact s.trapped_trap 25 _

/-- A handle that does not fit takes the trap of class 0 (R110). -/
theorem trapped_withHandle {s : State} {h : Handle} {role : Role} {kinds : Ring → Bool} {k : Nat → State} {i : Instr}
    (hi : exec i s = .next (s.withHandle h 0 role kinds k)) (hs : s.handle? h role kinds = none) :
    ∃ t, exec i s = .next t ∧ Trapped s t 25 (BitVec.ofNat 64 h.toNat) s.me.pc :=
  ⟨_, hi.trans (congrArg Host.Outcome.next (State.withHandle_of_none hs k)), s.trapped_trap 25 _⟩

/-! Each instruction with the ring that its handle gives. -/

section
variable {s : State} {h : Handle} {rd rs1 : XReg} {ix : Nat}

theorem exec_hwaitf (hs : s.handle? h .consumer (kindIs [0, 1, 3, 4]) = some ix) : exec (.hwaitf h rs1) s = .next (
    if (s.ring s.vk ix).count < (s.x rs1).toNat then s.trap25 (rp1 h.toNat 0)
    else if (s.x rs1).toNat ≤ (s.ring s.vk ix).fill then s.retire else s.parkOn (.ringFill ix)) :=
  congrArg Host.Outcome.next (State.withHandle_of_some hs _)

theorem exec_hwaite (hs : s.handle? h .producer (kindIs [0, 2, 4, 5]) = some ix) : exec (.hwaite h rs1) s = .next (
    if (s.ring s.vk ix).count < (s.x rs1).toNat then s.trap25 (rp1 h.toNat 0)
    else if (s.x rs1).toNat ≤ (s.ring s.vk ix).room then s.retire else s.parkOn (.ringRoom ix)) :=
  congrArg Host.Outcome.next (State.withHandle_of_some hs _)

theorem exec_hadvh (hs : s.handle? h .consumer (kindIs [0, 1, 3]) = some ix) : exec (.hadvh h rs1) s = .next (
    if (s.ring s.vk ix).fill < (s.x rs1).toNat then s.trap25 (rp1 h.toNat 0)
    else if (s.x rs1).toNat = 0 then s.retire else (s.advHead s.vk ix (s.x rs1).toNat).retire) :=
  congrArg Host.Outcome.next (State.withHandle_of_some hs _)

theorem exec_hadvt (hs : s.handle? h .producer (kindIs [0, 2, 5]) = some ix) : exec (.hadvt h rs1) s = .next (
    if (s.ring s.vk ix).room < (s.x rs1).toNat then s.trap25 (rp1 h.toNat 0)
    else if (s.x rs1).toNat = 0 then s.retire else (s.advTail s.vk ix (s.x rs1).toNat).retire) :=
  congrArg Host.Outcome.next (State.withHandle_of_some hs _)

theorem exec_hpop (hs : s.handle? h .consumer (kindIs [0, 1, 3]) = some ix) : exec (.hpop rd h) s = .next (
    if 1 ≤ (s.ring s.vk ix).fill then
      (s.advHead s.vk ix 1).result rd (Memory.word s.mem (s.ringAddr s.vk ix (s.ring s.vk ix).head))
    else s.parkOn (.ringFill ix)) :=
  congrArg Host.Outcome.next (State.withHandle_of_some hs _)

/-- What makes an HPUSH on a full ring trap (R196, R301). -/
def State.PushFenced (s : State) (r : Ring) : Prop :=
  r.kind = 2 ∧ r.vnet = 0 ∧ (s.core (s.coreOf s.vk)).sqfen = true ∧ s.me.mode = .u

theorem State.pushFenced_iff (s : State) (r : Ring) :
    (r.kind == 2 && r.vnet == 0 && (s.core (s.coreOf s.vk)).sqfen && s.me.mode == .u) = true ↔ s.PushFenced r := by
  simp only [Bool.and_eq_true, beq_iff_eq, and_assoc, State.PushFenced]

theorem exec_hpush_room (hs : s.handle? h .producer (kindIs [0, 2, 5]) = some ix) (hr : (s.ring s.vk ix).fill < (s.ring s.vk ix).count) :
    exec (.hpush h rs1) s = .next
      ((s.storeLm (s.ringAddr s.vk ix (s.ring s.vk ix).tail) (s.x rs1).toNat 8).advTail s.vk ix 1).retire :=
  congrArg Host.Outcome.next ((State.withHandle_of_some hs _).trans (if_pos hr))

theorem exec_hpush_full (hs : s.handle? h .producer (kindIs [0, 2, 5]) = some ix) (hr : (s.ring s.vk ix).count ≤ (s.ring s.vk ix).fill) :
    (s.PushFenced (s.ring s.vk ix) → exec (.hpush h rs1) s = .next (s.trap 26 ((insnWord (.hpush h rs1)).setWidth 64))) ∧
    (¬ s.PushFenced (s.ring s.vk ix) → exec (.hpush h rs1) s = .next (s.parkOn (.ringRoom ix))) := by
  rw [← s.pushFenced_iff]
  have hfull := congrArg (Host.Outcome.next (σ := State) (φ := Fault) (ρ := Refusal))
    ((State.withHandle_of_some hs (pos := 0) (fun ix => if (s.ring s.vk ix).fill < (s.ring s.vk ix).count then
        ((s.storeLm (s.ringAddr s.vk ix (s.ring s.vk ix).tail) (s.x rs1).toNat 8).advTail s.vk ix 1).retire
      else if (s.ring s.vk ix).kind == 2 && (s.ring s.vk ix).vnet == 0 && (s.core (s.coreOf s.vk)).sqfen && s.me.mode == .u then
        s.trap 26 ((insnWord (.hpush h rs1)).setWidth 64)
      else s.parkOn (.ringRoom ix))).trans (if_neg (Nat.not_lt.mpr hr)))
  exact ⟨fun hf => hfull.trans (congrArg Host.Outcome.next (if_pos hf)), fun hf => hfull.trans (congrArg Host.Outcome.next (if_neg hf))⟩

end

theorem State.mem_advTail_retire (s : State) (vk ix k : Nat) : (s.advTail vk ix k).retire.mem = s.mem := rfl

theorem stored_of_mem {s t u : State} {a n v : Nat} (h : t.mem = u.mem) (hu : Stored s u a n v) : Stored s t a n v := by
  intro j; rw [h, hu j]

/-- What an HPUSH into a free slot leaves. -/
theorem State.moved_stored_pushed (s : State) (ix a v : Nat) :
    RingMoved s ((s.storeLm a v 8).advTail s.vk ix 1).retire ix { s.ring s.vk ix with
      tail := ((s.ring s.vk ix).tail + 1) % (s.ring s.vk ix).count, fill := (s.ring s.vk ix).fill + 1 } 0 0 ∧
    Stored s ((s.storeLm a v 8).advTail s.vk ix 1).retire a 8 v := by
  exact ⟨((s.wrote_storeLm a v 8).ringSet_advTail ix 1).moved_retire, stored_of_mem (State.mem_advTail_retire ..) (s.written_storeLm a v 8).mem⟩

/-! Their words. -/

theorem append_handle (f : BitVec 7) (h : BitVec 3) : f ++ 0b00#2 ++ h = f ++ (0b00#2 ++ h : BitVec 5) := BitVec.append_assoc

/-- The word of a row of Table 02.3 that has a handle and rs1. -/
theorem joinWord_handle (f : BitVec 7) (h : BitVec 3) (rs1 : BitVec 5) : joinWord ⟨f, 0b00#2 ++ h, rs1, 0b010, 0b00000, 0b0001011⟩ =
    f ++ 0b00#2 ++ h ++ rs1 ++ 0b010#3 ++ 0b00000#5 ++ 0b0001011#7 := by
  rw [append_handle]; rfl

/-- Settles O25: each instruction is a choice on the count of its ring, once the handle has given it. -/
theorem ringTransfers : Obligations.RingTransfers := by
  intro s h rd rs1 ix r k con pro
  have next {i : Instr} {t u : State} (hi : exec i s = .next t) (ht : t = u) : exec i s = .next u := hi.trans (congrArg Host.Outcome.next ht)
  have notOver (h : k = 0) (n : Nat) : ¬ n < k := by omega
  refine ⟨fun hc h1 h2 => ⟨_, next (exec_hwaitf hc) ((if_neg (Nat.not_lt.mpr h1)).trans (if_pos h2)), s.did_retire⟩,
    fun hc h1 h2 => ⟨_, next (exec_hwaitf hc) ((if_neg (Nat.not_lt.mpr h1)).trans (if_neg (Nat.not_le.mpr h2))), s.parked_parkOn _⟩,
    fun hp h1 h2 => ⟨_, next (exec_hwaite hp) ((if_neg (Nat.not_lt.mpr h1)).trans (if_pos h2)), s.did_retire⟩,
    fun hp h1 h2 => ⟨_, next (exec_hwaite hp) ((if_neg (Nat.not_lt.mpr h1)).trans (if_neg (Nat.not_le.mpr h2))), s.parked_parkOn _⟩, ?_⟩
  intro trap1 trap0 still word
  have hword {i : Instr} {f : BitVec 7} (hi : encode i = some (joinWord ⟨f, 0b00#2 ++ h, rs1, 0b010, 0b00000, 0b0001011⟩)) : word i f :=
    hi.trans (congrArg some (joinWord_handle f h rs1))
  refine ⟨fun hc h1 => ⟨_, next (exec_hwaitf hc) (if_pos h1), s.trapped_rp1 h⟩, fun hp h1 => ⟨_, next (exec_hwaite hp) (if_pos h1), s.trapped_rp1 h⟩,
    fun hc h1 => ⟨_, next (exec_hadvh hc) (if_pos h1), s.trapped_rp1 h⟩, fun hp h1 => ⟨_, next (exec_hadvt hp) (if_pos h1), s.trapped_rp1 h⟩,
    trapped_withHandle rfl, trapped_withHandle rfl, trapped_withHandle rfl, trapped_withHandle rfl,
    fun hc h1 => ⟨_, next (exec_hadvh hc) ((if_neg (notOver h1 _)).trans (if_pos h1)), s.did_retire⟩,
    fun hp h1 => ⟨_, next (exec_hadvt hp) ((if_neg (notOver h1 _)).trans (if_pos h1)), s.did_retire⟩,
    hword rfl, hword rfl, hword rfl, hword rfl,
    fun hc h0 h1 => ⟨_, next (exec_hadvh hc) ((if_neg (Nat.not_lt.mpr h1)).trans (if_neg (Nat.ne_of_gt h0))),
      ((Wrote.refl s).ringSet_advHead ix k).moved_retire, s.advHead_mem s.vk ix k⟩,
    fun hp h0 h1 => ⟨_, next (exec_hadvt hp) ((if_neg (Nat.not_lt.mpr h1)).trans (if_neg (Nat.ne_of_gt h0))),
      ((Wrote.refl s).ringSet_advTail ix k).moved_retire, rfl⟩,
    fun hc h1 => ⟨_, next (exec_hpop hc) (if_pos h1), ?_, s.advHead_mem s.vk ix 1⟩,
    fun hc h1 => ⟨_, next (exec_hpop hc) (if_neg (Nat.not_le.mpr (Nat.lt_one_iff.mpr h1))), s.parked_parkOn _⟩,
    fun hp h1 => ⟨_, exec_hpush_room hp h1, State.moved_stored_pushed ..⟩,
    fun hp h1 => ⟨fun hf => ⟨_, (exec_hpush_full hp h1).1 hf, s.trapped_trap 26 _⟩,
      fun hf => ⟨_, (exec_hpush_full hp h1).2 hf, s.parked_parkOn _⟩⟩,
    trapped_withHandle rfl, trapped_withHandle rfl⟩
  rw [number_eq_readN]
  exact ((Wrote.refl s).ringSet_advHead ix 1).moved rd _

end Sys2Proof.Machine
end

section
/-! PROOFS. Words of memory read after they have been written; work rings. -/

namespace Sys2Proof.Machine

open Sys2Proof.Claim

/-! Words of memory. -/

theorem Memory.readN_congr {m m' : Memory} {a n : Nat} (h : ∀ j, a ≤ j → j < a + n → Memory.read m j = Memory.read m' j) :
    Memory.readN m a n = Memory.readN m' a n := by
  induction n generalizing a with
  | zero => rfl
  | succ n ih =>
    rw [Memory.readN, Memory.readN, h a le_rfl (by omega), ih (fun j h1 h2 => h j (by omega) (by omega))]

theorem Memory.word_congr {m m' : Memory} {a : Nat} (h : ∀ j, a ≤ j → j < a + 8 → Memory.read m j = Memory.read m' j) :
    Memory.word m a = Memory.word m' a := congrArg (BitVec.ofNat 64) (Memory.readN_congr h)

theorem Memory.word_setWord_self (m : Memory) (a : Nat) (v : Word) : Memory.word (Memory.setWord m a v) a = v := by
  rw [Memory.word, Memory.setWord, Memory.readN_writeN]
  apply BitVec.eq_of_toNat_eq
  rw [BitVec.toNat_ofNat, Nat.mod_mod_of_dvd _ (by decide), Nat.mod_eq_of_lt v.isLt]

/-- Memory outside the written words reads as before. -/
theorem Memory.read_setWords_other {m : Memory} {a : Nat} {l : List Word} {j : Nat} (h : j < a ∨ a + 8 * l.length ≤ j) :
    Memory.read (Memory.setWords m a l) j = Memory.read m j := by
  induction l generalizing m a with
  | nil => rfl
  | cons w t ih =>
    rw [List.length_cons] at h
    rw [Memory.setWords, ih (by omega), Memory.setWord, Memory.read_writeN_other _ _ _ _ _ (by omega)]

/-- The words read back from where they have been written. -/
theorem Memory.words_setWords (m : Memory) (a : Nat) (l : List Word) : Memory.words (Memory.setWords m a l) a l.length = l := by
  induction l generalizing m a with
  | nil => rfl
  | cons w t ih =>
    have hfirst : Memory.word (Memory.setWords (Memory.setWord m a w) (a + 8) t) a = w :=
      (Memory.word_congr (fun j _ h2 => Memory.read_setWords_other (.inl h2))).trans (Memory.word_setWord_self m a w)
    have hrest := ih (Memory.setWord m a w) (a + 8)
    rw [Memory.words] at hrest ⊢
    rw [Memory.setWords, List.length_cons, List.range_succ_eq_map, List.map_cons, List.map_map, Nat.mul_zero, Nat.add_zero a, hfirst]
    refine congrArg (w :: ·) (.trans (List.map_congr_left (fun i _ => ?_)) hrest)
    exact congrArg (Memory.word _) (by simp only [Nat.succ_eq_add_one]; omega)

theorem Memory.length_words (m : Memory) (a n : Nat) : (Memory.words m a n).length = n := by simp [Memory.words]

/-- Copied words read as at their source. -/
theorem Memory.words_setWords_words (m m' : Memory) (a b n : Nat) :
    Memory.words (Memory.setWords m a (Memory.words m' b n)) a n = Memory.words m' b n := by
  have h := Memory.words_setWords m a (Memory.words m' b n)
  rwa [Memory.length_words] at h

/-! Work rings. -/

section
variable {s : State} {h : Handle} {rs1 : XReg} {ix g : Nat}

theorem State.workOk_iff (s : State) (r : Ring) : s.workOk r = true ↔ (r.scope = 1 → (s.memberOf r.sgrp.toNat).isSome = true) := by
  rw [State.workOk, Bool.or_eq_true, bne_iff_ne]; exact Decidable.imp_iff_not_or.symm

theorem rp3_of_lt {g : Nat} (h : g < 256) (why : Nat) : rp3 g why = BitVec.ofNat 64 (192 + g * 256 + 65536 * why) := by
  rw [rp3, Nat.mod_eq_of_lt h]; exact congrArg (BitVec.ofNat 64) (by omega)

theorem exec_wpush (hs : s.handle? h .producer (kindIs [4]) = some ix) : exec (.wpush h rs1) s = .next (
    let r := s.ring s.vk ix
    let a := s.x rs1
    if !s.workOk r then s.trap25 (rp3 r.sgrp.toNat 2)
    else if a.toNat % 8 ≠ 0 then s.trap 4 a
    else s.lm a 16 false (fun g =>
      if r.fill = r.count then s.trap25 (rp1 h.toNat 0)
      else if !(s.fenced (workScope r)).isEmpty then s.held
      else ((({ s with mem := Memory.setWords s.mem (s.ringAddr s.vk ix r.tail) (Memory.words s.mem g 2) }).wrote
        (s.ringAddr s.vk ix r.tail) 16).advTail s.vk ix 1).retire)) :=
  congrArg Host.Outcome.next (State.withHandle_of_some hs _)

theorem exec_wpop (hs : s.handle? h .consumer (kindIs [4]) = some ix) : exec (.wpop h rs1) s = .next (
    let r := s.ring s.vk ix
    let a := s.x rs1
    if !s.workOk r then s.trap25 (rp3 r.sgrp.toNat 2)
    else if a.toNat % 8 ≠ 0 then s.trap 6 a
    else if r.fill = 0 then s.parkOn (.ringFill ix)
    else s.lm a 16 true (fun g =>
      ((({ s with mem := Memory.setWords s.mem g (Memory.words s.mem (s.ringAddr s.vk ix r.head) 2) }).wrote g 16).advHead
        s.vk ix 1).retire)) :=
  congrArg Host.Outcome.next (State.withHandle_of_some hs _)

/-- A WPUSH from a good address, up to the state of its ring. -/
theorem exec_wpush_at (hs : s.handle? h .producer (kindIs [4]) = some ix) (hw : s.workOk (s.ring s.vk ix) = true)
    (ha : (s.x rs1).toNat % 8 = 0) (hg : At s (s.x rs1) 16 false g) : exec (.wpush h rs1) s = .next (
      if (s.ring s.vk ix).fill = (s.ring s.vk ix).count then s.trap25 (rp1 h.toNat 0)
      else if !(s.fenced (workScope (s.ring s.vk ix))).isEmpty then s.held
      else ((({ s with mem := Memory.setWords s.mem (s.ringAddr s.vk ix (s.ring s.vk ix).tail) (Memory.words s.mem g 2) }).wrote
        (s.ringAddr s.vk ix (s.ring s.vk ix).tail) 16).advTail s.vk ix 1).retire) := by
  rw [exec_wpush hs]
  simp only [hw, ha, State.lm_of_at hg, Bool.not_true, Bool.false_eq_true, ne_eq, not_true_eq_false, if_false]

/-- A WPOP at an aligned address, up to the state of its ring. -/
theorem exec_wpop_aligned (hs : s.handle? h .consumer (kindIs [4]) = some ix) (hw : s.workOk (s.ring s.vk ix) = true)
    (ha : (s.x rs1).toNat % 8 = 0) : exec (.wpop h rs1) s = .next (
      if (s.ring s.vk ix).fill = 0 then s.parkOn (.ringFill ix)
      else s.lm (s.x rs1) 16 true (fun g =>
        ((({ s with mem := Memory.setWords s.mem g (Memory.words s.mem (s.ringAddr s.vk ix (s.ring s.vk ix).head) 2) }).wrote g 16).advHead
          s.vk ix 1).retire)) := by
  rw [exec_wpop hs]
  simp only [hw, ha, Bool.not_true, Bool.false_eq_true, ne_eq, not_true_eq_false, if_false]

end

theorem State.mem_advHead_retire (s : State) (vk ix k : Nat) : (s.advHead vk ix k).retire.mem = s.mem := s.advHead_mem vk ix k

/-- Memory after two words have been copied from b to a. -/
theorem State.copied_words {s t : State} {a b : Nat} (h : t.mem = Memory.setWords s.mem a (Memory.words s.mem b 2)) :
    Memory.words t.mem a 2 = Memory.words s.mem b 2 ∧ ∀ j, j < a ∨ a + 16 ≤ j → Memory.read t.mem j = Memory.read s.mem j := by
  rw [h]
  exact ⟨Memory.words_setWords_words .., fun j hj => Memory.read_setWords_other (by rwa [Memory.length_words])⟩

/-- Settles O28: the checks in their order, then a copy of two words and the advance of the ring. -/
theorem workRings : Obligations.WorkRings := by
  intro s h rs1 ix g r a may
  have hmay : may → s.workOk r = true := (s.workOk_iff r).mpr
  refine ⟨fun hs hm ha hg hr hf => ?_, fun hs hm ha hg hr => ?_, fun hs hm ha hg hr hf => ?_, fun hs hm ha hg hr => ?_, fun hs hm ha hr => ?_,
    fun hsc hmem => ?_⟩
  · have hnext := (exec_wpush_at hs (hmay hm) ha hg).trans (congrArg Host.Outcome.next ((if_neg (Nat.ne_of_lt hr)).trans (if_neg (by simpa using hf))))
    obtain ⟨hw, hrest⟩ := State.copied_words ((State.mem_advTail_retire _ s.vk ix 1).trans
      (State.wrote_mem { s with mem := Memory.setWords s.mem (s.ringAddr s.vk ix r.tail) (Memory.words s.mem g 2) } (s.ringAddr s.vk ix r.tail) 16))
    exact ⟨_, hnext, hw, hrest, ((s.wrote_wrote _ _ 16).ringSet_advTail ix 1).moved_retire⟩
  · exact ⟨_, (exec_wpush_at hs (hmay hm) ha hg).trans (congrArg Host.Outcome.next (if_pos hr)), s.trapped_rp1 h⟩
  · exact (exec_wpush_at hs (hmay hm) ha hg).trans
      (congrArg Host.Outcome.next ((if_neg (Nat.ne_of_lt hr)).trans (if_pos (by simpa using hf))))
  · have hnext := (exec_wpop_aligned hs (hmay hm) ha).trans (congrArg Host.Outcome.next ((if_neg (Nat.ne_of_gt hr)).trans (State.lm_of_at hg _)))
    obtain ⟨hw, hrest⟩ := State.copied_words ((State.mem_advHead_retire _ s.vk ix 1).trans
      (State.wrote_mem { s with mem := Memory.setWords s.mem g (Memory.words s.mem (s.ringAddr s.vk ix r.head) 2) } g 16))
    exact ⟨_, hnext, hw, hrest, ((s.wrote_wrote _ _ 16).ringSet_advHead ix 1).moved_retire⟩
  · exact ⟨_, (exec_wpop_aligned hs (hmay hm) ha).trans (congrArg Host.Outcome.next (if_pos hr)), s.parked_parkOn _⟩
  · have hno : (!s.workOk r) = true := by
      rw [Bool.not_eq_true', Bool.eq_false_iff, ne_eq, s.workOk_iff]
      exact fun hc => by simpa [hmem] using hc hsc
    have htrap : Trapped s (s.trap25 (rp3 r.sgrp.toNat 2)) 25 (BitVec.ofNat 64 (192 + r.sgrp.toNat * 256 + 131072)) s.me.pc := by
      rw [rp3_of_lt r.sgrp.isLt]; exact s.trapped_trap 25 _
    exact ⟨fun hs => ⟨_, (exec_wpush hs).trans (congrArg Host.Outcome.next (if_pos hno)), htrap⟩,
      fun hs => ⟨_, (exec_wpop hs).trans (congrArg Host.Outcome.next (if_pos hno)), htrap⟩⟩

end Sys2Proof.Machine
end

section
/-! PROOFS. Full/empty bits: one bit set or cleared, a span of them, and the instructions. -/

namespace Sys2Proof.Machine

open Sys2Proof.Claim

/-! One bit. -/

theorem mem_insertNat (a b : Nat) (l : List Nat) : b ∈ insertNat a l ↔ b = a ∨ b ∈ l := by
  induction l with
  | nil => simp [insertNat]
  | cons c t ih =>
    unfold insertNat
    split
    · simp only [List.mem_cons, ih]; tauto
    · simp only [List.mem_cons]

theorem contains_fullSet (l : List Nat) (a b : Nat) : (fullSet l a).contains b = if b = a then true else l.contains b := by
  rw [Bool.eq_iff_iff]
  by_cases h : b = a <;> simp [fullSet, mem_insertNat, h]

theorem contains_fullClear (l : List Nat) (a b : Nat) : (fullClear l a).contains b = if b = a then false else l.contains b := by
  rw [Bool.eq_iff_iff]
  by_cases h : b = a <;> simp [fullClear, h]

/-- The full bit of a word becomes v. -/
def State.setBit (s : State) (v : Bool) (a : Nat) : State := if v then s.setFull a else s.setEmpty a

theorem State.isFull_setBit (s : State) (v : Bool) (a b : Nat) : (s.setBit v a).isFull b = if b = a then v else s.isFull b := by
  cases v with
  | true => exact contains_fullSet s.full a b
  | false => exact contains_fullClear s.full a b

/-- A change of full bits: of the slots no more than what waking changes, and nothing else. -/
structure BitsSet (s u : State) : Prop where
  stirred : Stirred s u
  rest : { u with slots := s.slots, full := s.full } = s

theorem BitsSet.refl (s : State) : BitsSet s s := ⟨.of_slots rfl rfl, rfl⟩

theorem BitsSet.trans {s t u : State} (h : BitsSet s t) (k : BitsSet t u) : BitsSet s u where
  stirred := h.stirred.trans k.stirred
  rest := (show { u with slots := s.slots, full := s.full } = { t with slots := s.slots, full := s.full } by rw [← k.rest]).trans h.rest

theorem State.bitsSet_setBit (s : State) (v : Bool) (a : Nat) : BitsSet s (s.setBit v a) := by
  cases v with
  | true => exact ⟨.trans (t := { s with full := fullSet s.full a }) (.of_slots rfl rfl) (State.stirred_wakeAll _ _), rfl⟩
  | false => exact ⟨.trans (t := { s with full := fullClear s.full a }) (.of_slots rfl rfl) (State.stirred_wakeAll _ _), rfl⟩

theorem BitsSet.mem {s u : State} (h : BitsSet s u) : u.mem = s.mem := (congrArg State.mem h.rest :)

/-- Writes of a slot, then a change of full bits. -/
structure FullWrote (s u : State) : Prop where
  stirred : Stirred s u
  cores : CodeMarked s u
  rest : { u with slots := s.slots, mem := s.mem, full := s.full, cores := s.cores } = s

theorem Wrote.bitsSet {s t u : State} (h : Wrote s t) (k : BitsSet t u) : FullWrote s u where
  stirred := h.stirred.trans k.stirred
  cores g := by
    have hc : u.cores = t.cores := (congrArg State.cores k.rest :)
    rw [State.core, hc]; exact h.cores g
  rest := by
    calc { u with slots := s.slots, mem := s.mem, full := s.full, cores := s.cores }
        = { { u with slots := t.slots, full := t.full } with slots := s.slots, mem := s.mem, full := s.full, cores := s.cores } := rfl
      _ = { { t with slots := s.slots, mem := s.mem, cores := s.cores } with full := s.full } := by rw [k.rest]
      _ = s := by rw [h.rest]

theorem BitsSet.fullWrote {s u : State} (h : BitsSet s u) : FullWrote s u := (Wrote.refl s).bitsSet h

/-! A span of bits. -/

theorem State.bitsSet_spanBits (s : State) (v : Bool) (a n : Nat) : BitsSet s (s.spanBits v a n) := by
  induction n generalizing s a with
  | zero => exact .refl s
  | succ n ih => exact (s.bitsSet_setBit v a).trans (ih _ _)

theorem State.isFull_spanBits_of_ne {s : State} {v : Bool} {a n b : Nat} (h : ∀ j < n, b ≠ a + 8 * j) :
    (s.spanBits v a n).isFull b = s.isFull b := by
  induction n generalizing s a with
  | zero => rfl
  | succ n ih =>
    refine (ih (s := s.setBit v a) (fun j hj => ?_)).trans ((s.isFull_setBit v a b).trans (if_neg (h 0 (by omega))))
    have := h (j + 1) (by omega)
    omega

theorem State.isFull_spanBits {s : State} {v : Bool} {a n j : Nat} (h : j < n) : (s.spanBits v a n).isFull (a + 8 * j) = v := by
  induction n generalizing s a j with
  | zero => omega
  | succ n ih =>
    cases j with
    | zero =>
      refine (State.isFull_spanBits_of_ne (s := s.setBit v a) (fun i _ => ?_)).trans ((s.isFull_setBit v a _).trans (if_pos rfl))
      omega
    | succ j =>
      rw [show a + 8 * (j + 1) = a + 8 + 8 * j by omega]
      exact ih (s := s.setBit v a) (by omega)

/-- What one rotation of FESET or FECLR does from a with n words left (R119). -/
def State.spanStep (s : State) (v : Bool) (a n : Nat) : State :=
  if n ≤ 1024 then (s.spanBits v a n).retire
  else (s.spanBits v a 1024).updMe (fun sl => { sl with hold := some (.span (a + 8192) (n - 1024)) })

section
variable {s : State} {rs1 rs2 : XReg} {v : Bool}

theorem State.feSpan_of_span {a n : Nat} (h : s.me.hold = some (.span a n)) : s.feSpan rs1 rs2 v = s.spanStep v a n := by
  simp only [State.feSpan, h]; rfl

theorem State.feSpan_of_start (h : s.me.hold = none) : s.feSpan rs1 rs2 v =
    if (s.x rs2).toNat = 0 then s.retire
    else if (s.x rs1).toNat % 8 ≠ 0 then s.trap 6 (s.x rs1)
    else s.lm (s.x rs1) (8 * (s.x rs2).toNat) true (fun a => s.spanStep v a (s.x rs2).toNat) := by
  simp only [State.feSpan, h]; rfl

end

/-- What a rotation leaves: the bits of its words, at the end a completion, else the hold with the words left. -/
theorem State.spanStep_spec (s : State) (v : Bool) (a n : Nat) :
    let t := s.spanStep v a n
    (∀ j < min n 1024, t.isFull (a + 8 * j) = v) ∧ (∀ b, (∀ j < min n 1024, b ≠ a + 8 * j) → t.isFull b = s.isFull b) ∧ t.mem = s.mem ∧
      (CodeMarked s t ∧ { t with slots := s.slots, mem := s.mem, full := s.full, cores := s.cores } = s) ∧
      (n ≤ 1024 → Claim.Kept s t 0 0) ∧
      (1024 < n → t.me.hold = some (.span (a + 8192) (n - 1024)) ∧ t.me.pc = s.me.pc ∧ t.me.x = s.me.x ∧ t.me.f = s.me.f) := by
  have hb := s.bitsSet_spanBits v a (min n 1024)
  by_cases hn : n ≤ 1024
  · have ht : s.spanStep v a n = (s.spanBits v a (min n 1024)).retire := by rw [Nat.min_eq_left hn]; exact if_pos hn
    rw [ht]
    refine ⟨fun j hj => State.isFull_spanBits hj, fun b h => State.isFull_spanBits_of_ne h, hb.mem, ⟨hb.fullWrote.cores, hb.fullWrote.rest⟩,
      fun _ => ?_, fun h => absurd hn (Nat.not_le.mpr h)⟩
    rw [← State.result_x0 _ 0]; exact hb.stirred.kept 0 0
  · have ht : s.spanStep v a n =
        (s.spanBits v a (min n 1024)).updMe (fun sl => { sl with hold := some (.span (a + 8192) (n - 1024)) }) := by
      rw [Nat.min_eq_right (by omega)]; exact if_neg hn
    rw [ht]
    refine ⟨fun j hj => State.isFull_spanBits hj, fun b h => State.isFull_spanBits_of_ne h, hb.mem, ⟨hb.fullWrote.cores, hb.fullWrote.rest⟩,
      fun h => absurd h hn, fun _ => ?_⟩
    have hme := hb.stirred.me
    rw [State.me_updMe]
    exact ⟨rfl, by rw [← hme], by rw [← hme], by rw [← hme]⟩

/-! The instructions. -/

section
variable {s : State} {rd rs1 rs2 : XReg} {a : Nat}

theorem State.loadFull_at (ha : (s.x rs1).toNat % 8 = 0) (hg : At s (s.x rs1) 8 false a) (take : Bool) : s.loadFull rd rs1 take =
    if s.isFull a then (if take then s.setEmpty a else s).result rd (BitVec.ofNat 64 (number s a 8)) else s.parkOn (.wordFull a) := by
  rw [number_eq_readN]
  exact (if_neg (not_not.mpr ha)).trans (State.lm_of_at hg _)

theorem State.storeFull_at (ha : (s.x rs1).toNat % 8 = 0) (hg : At s (s.x rs1) 8 true a) (waits : Bool) : s.storeFull rs2 rs1 waits =
    if waits && s.isFull a then s.parkOn (.wordEmpty a) else ((s.storeLm a (s.x rs2).toNat 8).setFull a).retire :=
  (if_neg (not_not.mpr ha)).trans (State.lm_of_at hg _)

end

/-- What STF and STEF leave when they store. -/
theorem Wrote.setFull_retire {s u : State} {a v : Nat} (h : Wrote s u) (hm : Stored s u a 8 v) :
    let t := (u.setFull a).retire
    Claim.Kept s t 0 0 ∧ (t.isFull a = true ∧ ∀ b, b ≠ a → t.isFull b = s.isFull b) ∧ Stored s t a 8 v ∧
      CodeMarked s t ∧ { t with slots := s.slots, mem := s.mem, full := s.full, cores := s.cores } = s := by
  have hb := u.bitsSet_setBit true a
  have hw := h.bitsSet hb
  have hfull (b : Nat) := u.isFull_setBit true a b
  have hold : u.full = s.full := (congrArg State.full h.rest :)
  refine ⟨?_, ⟨(hfull a).trans (if_pos rfl), fun b hne => ((hfull b).trans (if_neg hne)).trans ?_⟩, stored_of_mem hb.mem hm, hw.cores, hw.rest⟩
  · rw [← State.result_x0 _ 0]; exact hw.stirred.kept 0 0
  · rw [State.isFull, hold]; rfl

theorem and_not_seven_eq_ofNat (w : Word) : w &&& ~~~7 = BitVec.ofNat 64 (w.toNat / 8 * 8) := by
  have h : w &&& ~~~(7 : Word) = (w >>> 3) <<< 3 := by
    ext i hi
    have h7 : (7 : Word)[i] = decide (i < 3) := by
      rw [← BitVec.getLsbD_eq_getElem, BitVec.ofNat_eq_ofNat, BitVec.getLsbD_ofNat, decide_eq_true hi, Bool.true_and]
      exact Nat.testBit_two_pow_sub_one 3 i
    rw [BitVec.getElem_and, BitVec.getElem_not, h7]
    by_cases h0 : i < 3
    · simp [h0]
    · simp [h0, Nat.add_sub_cancel' (not_lt.mp h0), BitVec.getLsbD_eq_getElem hi]
  rw [h, shiftLeft_eq_ofNat, BitVec.toNat_ushiftRight, Nat.shiftRight_eq_div_pow]
  rfl

/-- Settles O26: loads and stores by the full bit of their word, spans a rotation at a time. -/
theorem fullEmpty : Obligations.FullEmpty := by
  intro s rd rs1 rs2 a ea n ok got waits bits rest put
  have next {i : Instr} {t u : State} (hi : exec i s = .next t) (ht : t = u) : exec i s = .next u := hi.trans (congrArg Host.Outcome.next ht)
  have hput {i : Instr} {v : Bool} {b m : Nat} (h : exec i s = .next (s.spanStep v b m)) : put i v b m := ⟨_, h, s.spanStep_spec v b m⟩
  have hstored {i : Instr} (h : exec i s = .next ((s.storeLm a n 8).setFull a).retire) :
      ∃ t, exec i s = .next t ∧ Claim.Kept s t 0 0 ∧ bits t true ∧ Stored s t a 8 n ∧ rest t := ⟨_, h, (s.wrote_storeLm a n 8).setFull_retire (s.written_storeLm a n 8).mem⟩
  have hstart {i : Instr} {v : Bool} (hi : exec i s = .next (s.feSpan rs1 rs2 v)) (h0 : 0 < n) (hh : s.me.hold = none) (ha : ea.toNat % 8 = 0)
      (hg : At s ea (8 * n) true a) : put i v a n :=
    hput (next hi ((State.feSpan_of_start hh).trans ((if_neg (Nat.ne_of_gt h0)).trans ((if_neg (not_not.mpr ha)).trans (State.lm_of_at hg _)))))
  have hempty {i : Instr} {v : Bool} (hi : exec i s = .next (s.feSpan rs1 rs2 v)) (h0 : n = 0) (hh : s.me.hold = none) :
      ∃ t, exec i s = .next t ∧ Did s t 0 0 (s.me.pc + 4) := ⟨_, next hi ((State.feSpan_of_start hh).trans (if_pos h0)), s.did_retire⟩
  refine ⟨fun ⟨ha, hg⟩ hf => ⟨_, next rfl ((State.loadFull_at ha hg false).trans (if_pos hf)), s.did_result rd got⟩,
    fun ⟨ha, hg⟩ hf => ⟨_, next rfl ((State.loadFull_at ha hg true).trans (if_pos hf)), ?_⟩,
    fun ⟨ha, hg⟩ hf => ⟨⟨_, next rfl ((State.loadFull_at ha hg false).trans (if_neg (Bool.eq_false_iff.mp hf))), s.parked_parkOn _⟩,
      ⟨_, next rfl ((State.loadFull_at ha hg true).trans (if_neg (Bool.eq_false_iff.mp hf))), s.parked_parkOn _⟩⟩,
    fun ⟨ha, hg⟩ => hstored (next rfl ((State.storeFull_at ha hg false).trans (if_neg Bool.false_ne_true))),
    fun ⟨ha, hg⟩ hf => hstored (next rfl ((State.storeFull_at ha hg true).trans (if_neg (Bool.eq_false_iff.mp hf)))),
    fun ⟨ha, hg⟩ hf => ⟨_, next rfl ((State.storeFull_at ha hg true).trans (if_pos hf)), s.parked_parkOn _⟩,
    fun h0 hh ha hg => ⟨hstart rfl h0 hh ha hg, hstart rfl h0 hh ha hg⟩,
    fun b m hh => ⟨hput (next rfl (State.feSpan_of_span hh)), hput (next rfl (State.feSpan_of_span hh))⟩,
    fun h0 hh => ⟨hempty rfl h0 hh, hempty rfl h0 hh⟩, fun hg => ?_,
    fun ha => ⟨_, next rfl (if_pos ha), s.trapped_trap 6 ea⟩⟩
  · have hb := s.bitsSet_setBit false a
    exact ⟨hb.stirred.kept rd got, ⟨(s.isFull_setBit false a a).trans (if_pos rfl), fun b hne => (s.isFull_setBit false a b).trans (if_neg hne)⟩,
      hb.mem, hb.fullWrote.cores, hb.fullWrote.rest⟩
  · rw [← and_not_seven_eq_ofNat] at hg
    exact ⟨_, next rfl (State.lm_of_at hg _), s.did_result rd _⟩

end Sys2Proof.Machine
end

section
/-! PROOFS. Ring descriptors: the fields of an image, the reasons of R111 and R216, RINGSET, RINGGET and HBIND. -/

namespace Sys2Proof.Machine

open Sys2Proof.Claim

/-! Fields of a word. -/

theorem toNat_extractLsb'_eq (w : Word) (lo len : Nat) : (w.extractLsb' lo len).toNat = w.toNat / 2 ^ lo % 2 ^ len := by
  rw [BitVec.extractLsb'_toNat, Nat.shiftRight_eq_div_pow]

theorem getLsbD_iff_div_mod (w : Word) (i : Nat) : w.getLsbD i = true ↔ w.toNat / 2 ^ i % 2 ^ 1 = 1 := by
  rw [pow_one, BitVec.getLsbD, ← testBit_eq_div_mod, beq_iff_eq]

/-- The mask of a field. -/
def fieldMask (lo len : Nat) : Word := BitVec.ofNat 64 ((2 ^ len - 1) * 2 ^ lo)

theorem and_fieldMask_eq_zero_iff {lo len : Nat} (h : lo + len ≤ 64) (w : Word) : w &&& fieldMask lo len = 0 ↔ w.toNat / 2 ^ lo % 2 ^ len = 0 := by
  have hlt : (2 ^ len - 1) * 2 ^ lo < 2 ^ 64 := calc
    (2 ^ len - 1) * 2 ^ lo < 2 ^ len * 2 ^ lo := Nat.mul_lt_mul_of_pos_right (Nat.sub_lt (Nat.two_pow_pos _) Nat.one_pos) (Nat.two_pow_pos _)
    _ ≤ 2 ^ 64 := by rw [← pow_add, Nat.add_comm]; exact Nat.pow_le_pow_right Nat.two_pos h
  have hand : w.toNat &&& (2 ^ len - 1) * 2 ^ lo = w.toNat / 2 ^ lo % 2 ^ len * 2 ^ lo := by
    refine Nat.eq_of_testBit_eq (fun i => ?_)
    rw [← Nat.shiftLeft_eq, ← Nat.shiftLeft_eq, ← Nat.shiftRight_eq_div_pow, Nat.testBit_and, Nat.testBit_shiftLeft, Nat.testBit_shiftLeft,
      Nat.testBit_two_pow_sub_one, Nat.testBit_mod_two_pow, Nat.testBit_shiftRight]
    by_cases hi : lo ≤ i
    · simp [hi, Nat.add_sub_cancel' hi, Bool.and_comm]
    · simp [hi]
  rw [← BitVec.toNat_inj, BitVec.toNat_and, fieldMask, BitVec.toNat_ofNat, Nat.mod_eq_of_lt hlt, hand]
  simp

theorem and_or_eq_zero_iff (w a b : Word) : w &&& (a ||| b) = 0 ↔ w &&& a = 0 ∧ w &&& b = 0 := by
  rw [BitVec.and_or_distrib_left]; exact BitVec.or_eq_zero_iff

/-- The RZ bits of an image (Table 01.9) are those outside its fields. -/
theorem ringRzOk_iff (w0 w1 w2 w3 : Word) : ringRzOk w0 w1 w2 w3 = true ↔
    (w0.toNat / 2 ^ 18 % 2 ^ 2 = 0 ∧ w0.toNat / 2 ^ 40 % 2 ^ 24 = 0) ∧
    (w1.toNat / 2 ^ 12 % 2 ^ 4 = 0 ∧ w1.toNat / 2 ^ 28 % 2 ^ 4 = 0 ∧ w1.toNat / 2 ^ 45 % 2 ^ 19 = 0) ∧
    (w2.toNat / 2 ^ 2 % 2 ^ 6 = 0 ∧ w2.toNat / 2 ^ 19 % 2 ^ 1 = 0 ∧ w2.toNat / 2 ^ 22 % 2 ^ 2 = 0 ∧ w2.toNat / 2 ^ 32 % 2 ^ 32 = 0) ∧
    w3 = 0 := by
  rw [ringRzOk, Bool.and_eq_true, Bool.and_eq_true, Bool.and_eq_true, beq_iff_eq, beq_iff_eq, beq_iff_eq, beq_iff_eq,
    show (0xFFFFFF00000C0000 : Word) = fieldMask 18 2 ||| fieldMask 40 24 by decide,
    show (0xFFFFE000F000F000 : Word) = fieldMask 12 4 ||| (fieldMask 28 4 ||| fieldMask 45 19) by decide,
    show (0xFFFFFFFF00C800FC : Word) = fieldMask 2 6 ||| (fieldMask 19 1 ||| (fieldMask 22 2 ||| fieldMask 32 32)) by decide]
  simp only [and_or_eq_zero_iff, and_assoc]
  rw [and_fieldMask_eq_zero_iff (by decide), and_fieldMask_eq_zero_iff (by decide), and_fieldMask_eq_zero_iff (by decide),
    and_fieldMask_eq_zero_iff (by decide), and_fieldMask_eq_zero_iff (by decide), and_fieldMask_eq_zero_iff (by decide),
    and_fieldMask_eq_zero_iff (by decide), and_fieldMask_eq_zero_iff (by decide), and_fieldMask_eq_zero_iff (by decide)]

/-! The lowest reason. -/

/-- The first of n numbers from k on that f accepts; 0 when there is none. -/
def firstFrom (f : Nat → Bool) (k : Nat) : Nat → Nat
  | 0 => 0
  | n + 1 => if f k then k else firstFrom f (k + 1) n

theorem firstFrom_eq {f : Nat → Bool} {k n r : Nat} (hr : f r = true) (hlow : ∀ j < r, f j = false) (hk : k ≤ r) (hn : r < k + n) :
    firstFrom f k n = r := by
  induction n generalizing k with
  | zero => omega
  | succ n ih =>
    rcases Nat.eq_or_lt_of_le hk with rfl | hlt
    · exact if_pos hr
    · exact (if_neg (by rw [hlow k hlt]; decide)).trans (ih hlt (by omega))

theorem firstFrom_eq_zero {f : Nat → Bool} (h : ∀ j, f j = false) (k n : Nat) : firstFrom f k n = 0 := by
  induction n generalizing k with
  | zero => rfl
  | succ n ih => exact (if_neg (by rw [h k]; decide)).trans (ih (k + 1))

/-- The conditions under which RINGSET rejects a valid image, by their reason (R111). -/
def State.ringFault (s : State) (ix : Nat) (w0 w1 w2 w3 : Word) : Nat → Bool :=
  let r := ringOfWords w0 w1 w2
  let c := r.count
  let limit := if s.me.mode = .u then s.me.seglim.toNat else 0x100000
  fun
  | 1 => decide (5 < r.kind.toNat)
  | 2 => decide (12 < r.lgcnt.toNat)
  | 3 => r.size8.toNat == 0 || decide (512 < r.size8.toNat)
  | 4 => r.base.toNat % 8 != 0
  | 5 => decide (limit < r.base.toNat + c * r.size)
  | 6 => decide (c ≤ r.head) || decide (c ≤ r.tail) || decide (c < r.fill) || (r.tail + c - r.head) % c != r.fill % c
  | 7 => r.scope == 3 || r.vnet == 3 || (r.kind == 4 && (r.size8.toNat != 2 || (r.scope == 0 && r.level)))
  | 8 => (r.kind == 1 || r.kind == 2) && s.myVc.rings.any (fun p => p.1 != ix && p.2.valid && p.2.kind == r.kind && p.2.port == r.port)
  | 9 => s.myVc.ringBusy ix
  | 10 => !ringRzOk w0 w1 w2 w3
  | _ => false

theorem State.ringReject_eq (s : State) (ix : Nat) (w0 w1 w2 w3 : Word) :
    s.ringReject ix w0 w1 w2 w3 = firstFrom (s.ringFault ix w0 w1 w2 w3) 1 10 := by
  have hin : (!(if s.me.mode == .u then decide ((ringOfWords w0 w1 w2).base.toNat + (ringOfWords w0 w1 w2).count * (ringOfWords w0 w1 w2).size ≤ s.me.seglim.toNat)
      else decide ((ringOfWords w0 w1 w2).base.toNat + (ringOfWords w0 w1 w2).count * (ringOfWords w0 w1 w2).size ≤ 0x100000))) =
      s.ringFault ix w0 w1 w2 w3 5 := by
    rw [Bool.eq_iff_iff]
    by_cases hm : s.me.mode = .u <;> simp [State.ringFault, hm]
  unfold State.ringReject
  simp only [hin, firstFrom, State.ringFault, gt_iff_lt, ge_iff_le, decide_eq_true_eq]

/-! The reasons as the statement says them. -/

/-- The why of Obligations.RingDescriptors, for the words of an image. -/
def State.RingWhy (s : State) (i : Nat) (w0 w1 w2 w3 : Word) (k : Nat) : Prop :=
  let n0 := fun (lo len : Nat) => w0.toNat / 2 ^ lo % 2 ^ len
  let n1 := fun (lo len : Nat) => w1.toNat / 2 ^ lo % 2 ^ len
  let n2 := fun (lo len : Nat) => w2.toNat / 2 ^ lo % 2 ^ len
  let kind := n0 0 3
  let size8 := n0 8 10
  let base := n0 20 20
  let head := n1 0 12
  let tail := n1 16 12
  let fill := n1 32 13
  let scope := n2 0 2
  let count := 2 ^ n0 4 4
  (k = 1 ∧ 5 < kind) ∨ (k = 2 ∧ 12 < n0 4 4) ∨ (k = 3 ∧ (size8 = 0 ∨ 512 < size8)) ∨ (k = 4 ∧ base % 8 ≠ 0) ∨
  (k = 5 ∧ (if s.me.mode = .u then s.me.seglim.toNat else 0x100000) < base + count * (8 * size8)) ∨
  (k = 6 ∧ (count ≤ head ∨ count ≤ tail ∨ count < fill ∨ (tail + count - head) % count ≠ fill % count)) ∨
  (k = 7 ∧ (scope = 3 ∨ n2 17 2 = 3 ∨ kind = 4 ∧ (size8 ≠ 2 ∨ scope = 0 ∧ n2 16 1 = 1))) ∨
  (k = 8 ∧ (kind = 1 ∨ kind = 2) ∧ ∃ p ∈ s.myVc.rings, p.1 ≠ i ∧ p.2.valid = true ∧ p.2.kind.toNat = kind ∧ p.2.port.toNat = n2 24 8) ∨
  (k = 9 ∧ s.myVc.ringBusy i = true) ∨
  (k = 10 ∧ (n0 18 2 ≠ 0 ∨ n0 40 24 ≠ 0 ∨ n1 12 4 ≠ 0 ∨ n1 28 4 ≠ 0 ∨ n1 45 19 ≠ 0 ∨ n2 2 6 ≠ 0 ∨ n2 19 1 ≠ 0 ∨ n2 22 2 ≠ 0 ∨ n2 32 32 ≠ 0 ∨
    w3 ≠ 0))

/-- Each reason, its field of the image compared as a number. -/
theorem State.ringFault_iff (s : State) (i : Nat) (w0 w1 w2 w3 : Word) (k : Nat) :
    s.ringFault i w0 w1 w2 w3 k = true ↔ s.RingWhy i w0 w1 w2 w3 k := by
  have field (w : Word) (lo len : Nat) : (w.extractLsb' lo len).toNat = w.toNat / 2 ^ lo % 2 ^ len := toNat_extractLsb'_eq w lo len
  have eq_iff {m : Nat} (a b : BitVec m) : a = b ↔ a.toNat = b.toNat := BitVec.toNat_inj.symm
  have level : w2[16] = true ↔ w2.toNat / 65536 % 2 = 1 := getLsbD_iff_div_mod w2 16
  unfold State.RingWhy
  match k with
  | 0 => simp [State.ringFault]
  | 1 => simp [State.ringFault, ringOfWords, field]
  | 2 => simp [State.ringFault, ringOfWords, field]
  | 3 => simp [State.ringFault, ringOfWords, field]
  | 4 => simp [State.ringFault, ringOfWords, field]
  | 5 => simp [State.ringFault, ringOfWords, Ring.count, Ring.size, field, Nat.mul_comm 8]
  | 6 => simp [State.ringFault, ringOfWords, Ring.count, field, or_assoc]
  | 7 => simp [State.ringFault, ringOfWords, field, eq_iff, level, or_assoc]
  | 8 => simp [State.ringFault, ringOfWords, field, eq_iff, and_assoc]
  | 9 => simp [State.ringFault]
  | 10 => simp [State.ringFault, ← Bool.not_eq_true, ringRzOk_iff, not_and_or, -not_and, or_assoc]
  | _ + 11 => simp [State.ringFault]

/-- The lowest reason is the one that RINGSET gives; without one it gives 0. -/
theorem State.ringReject_of_lowest {s : State} {i k : Nat} {w0 w1 w2 w3 : Word} (h : s.RingWhy i w0 w1 w2 w3 k)
    (hlow : ∀ j < k, ¬ s.RingWhy i w0 w1 w2 w3 j) : s.ringReject i w0 w1 w2 w3 = k ∧ k ≠ 0 := by
  have hk : 1 ≤ k ∧ k < 1 + 10 := by unfold State.RingWhy at h; omega
  rw [State.ringReject_eq]
  exact ⟨firstFrom_eq ((s.ringFault_iff ..).mpr h) (fun j hj => Bool.eq_false_iff.mpr (mt (s.ringFault_iff ..).mp (hlow j hj))) hk.1 hk.2,
    Nat.ne_of_gt hk.1⟩

theorem State.ringReject_eq_zero {s : State} {i : Nat} {w0 w1 w2 w3 : Word} (h : ∀ k, ¬ s.RingWhy i w0 w1 w2 w3 k) :
    s.ringReject i w0 w1 w2 w3 = 0 := by
  rw [State.ringReject_eq]
  exact firstFrom_eq_zero (fun j => Bool.eq_false_iff.mpr (mt (s.ringFault_iff ..).mp (h j))) 1 10

/-! RINGSET. -/

theorem Slot.wakeAt_eq_of_mip {b c : Slot} (h : { b with mip := c.mip } = c) : b.wakeAt = c.wakeAt := by rw [← h]

/-- Wakes the slots that wait on a ring which has been set. -/
def Await.onRing (ix : Nat) (a : Await) : Bool := a.onFill ix || a.onRoom ix

/-- The state after RINGSET has set the descriptor of a ring. -/
def State.ringWritten (s : State) (ix : Nat) (q : Ring) : State :=
  (((s.setRing s.vk ix q).wakeVc s.vk (Await.onRing ix)).clearSup s.vk ix).retire

section
variable {s : State} {rs1 rs2 : XReg} {g : Nat}

theorem exec_ringset_index (h : 64 ≤ (s.x rs1).toNat) : exec (.ringset rs1 rs2) s = .next (s.trap25 (rp2 ((s.x rs1).toNat % 256) 0)) :=
  congrArg Host.Outcome.next (if_pos h)

theorem exec_ringset_misaligned (h : (s.x rs1).toNat < 64) (ha : (s.x rs2).toNat % 8 ≠ 0) :
    exec (.ringset rs1 rs2) s = .next (s.trap 4 (s.x rs2)) :=
  congrArg Host.Outcome.next ((if_neg (Nat.not_le.mpr h)).trans (if_pos ha))

/-- A RINGSET of an index and an address that fit does what the image at the address says (R111). -/
theorem exec_ringset (h : (s.x rs1).toNat < 64) (ha : (s.x rs2).toNat % 8 = 0) : exec (.ringset rs1 rs2) s = .next (
    s.lm (s.x rs2) 32 false (fun g =>
      let ix := (s.x rs1).toNat
      let w := Memory.words s.mem g 4
      let r := ringOfWords w[0]! w[1]! w[2]!
      let why := s.ringReject ix w[0]! w[1]! w[2]! w[3]!
      if s.levelInTransit s.vk ix then s.waitOn false
      else if !r.valid then (if s.myVc.ringBusy ix then s.trap25 (rp2 ix 9) else s.ringWritten ix {})
      else if why ≠ 0 then s.trap25 (rp2 ix why)
      else s.ringWritten ix { r with base := if s.me.mode == .u then r.base + s.me.segbase.setWidth 20 else r.base })) :=
  congrArg Host.Outcome.next ((if_neg (Nat.not_le.mpr h)).trans (if_neg (not_not.mpr ha)))

theorem exec_ringget_misaligned (h : (s.x rs1).toNat < 64) (ha : (s.x rs2).toNat % 8 ≠ 0) :
    exec (.ringget rs1 rs2) s = .next (s.trap 6 (s.x rs2)) :=
  congrArg Host.Outcome.next ((if_neg (Nat.not_le.mpr h)).trans (if_pos ha))

/-- The base of a descriptor as RINGGET stores it. -/
def State.imageBase (s : State) (r : Ring) : Nat := if s.me.mode = .u then (r.base - s.me.segbase.setWidth 20).toNat else r.base.toNat

theorem exec_ringget (h : (s.x rs1).toNat < 64) (ha : (s.x rs2).toNat % 8 = 0) : exec (.ringget rs1 rs2) s = .next (
    s.lm (s.x rs2) 32 true (fun g =>
      (({ s with mem := Memory.setWords s.mem g (wordsOfRing (s.ring s.vk (s.x rs1).toNat) (s.imageBase (s.ring s.vk (s.x rs1).toNat))) }).wrote
        g 32).retire)) := by
  refine congrArg Host.Outcome.next ((if_neg (Nat.not_le.mpr h)).trans ((if_neg (not_not.mpr ha)).trans ?_))
  simp only [State.imageBase, beq_iff_eq]

end

/-- The descriptor is set, and the slots that wait on the ring can go on. -/
theorem State.ringWritten_spec (s : State) (ix : Nat) (q : Ring) : RingMoved s (s.ringWritten ix q) ix q 0 0 ∧ (s.ringWritten ix q).mem = s.mem ∧
    ∀ k, k ≠ s.cur → k / 16 = s.vk → (s.slot k).st = .parked →
      (s.slot k).park = some (.ringFill ix) ∨ (s.slot k).park = some (.ringRoom ix) → ((s.ringWritten ix q).slot k).wakeAt.isSome = true := by
  refine ⟨((Wrote.refl s).ringSet_clearSup ix q _).moved_retire, ?_, fun k _ hvk hst hp => ?_⟩
  · exact (congrArg State.mem (State.clearSup_rest ((s.setRing s.vk ix q).wakeVc s.vk (Await.onRing ix)) s.vk ix) :)
  · have hwake {a : Await} (hpark : (s.slot k).park = some a) (ha : a.onRing ix = true) : ((s.ringWritten ix q).slot k).wakeAt.isSome = true := by
      rw [State.ringWritten, ← State.result_x0 _ 0, State.wakeAt_result, Slot.wakeAt_eq_of_mip (State.slot_clearSup _ s.vk ix k)]
      exact State.isSome_wakeAt_wakeVc (s := s.setRing s.vk ix q) hvk hst hpark ha
    rcases hp with hp | hp
    · exact hwake hp (by simp [Await.onRing, Await.onFill])
    · exact hwake hp (by simp [Await.onRing, Await.onRoom])

/-- What an instruction leaves that completes after it has written words (R111). -/
theorem Wrote.retire_words {s u : State} {g : Nat} {l : List Word} (h : Wrote s u) (hm : u.mem = Memory.setWords s.mem g l) :
    Claim.Kept s u.retire 0 0 ∧ CodeMarked s u.retire ∧ { u.retire with slots := s.slots, mem := s.mem, cores := s.cores } = s ∧
      Memory.words u.retire.mem g l.length = l ∧ ∀ j, j < g ∨ g + 8 * l.length ≤ j → Memory.read u.retire.mem j = Memory.read s.mem j := by
  have hm : u.retire.mem = Memory.setWords s.mem g l := hm
  rw [hm]
  refine ⟨?_, h.cores, h.rest, Memory.words_setWords .., fun j hj => Memory.read_setWords_other hj⟩
  rw [← State.result_x0 _ 0]; exact h.stirred.kept 0 0

/-! HBIND. -/

theorem exec_hbind {s : State} {h : Handle} {rs1 : XReg} {role : BitVec 2} (hi : (s.x rs1).toNat < 64) : exec (.hbind h rs1 role) s = .next
    (s.updMe (fun sl => { sl with h := sl.h.set h.toNat (role ++ (s.x rs1).setWidth 6) h.isLt }.retireAt (sl.pc + 4))) :=
  congrArg Host.Outcome.next ((if_neg (Nat.not_le.mpr hi)).trans (State.updMe_updMe ..))

theorem append_role (x : BitVec 20) (r : BitVec 2) : x ++ 0b000#3 ++ r = x ++ (0b000#3 ++ r : BitVec 5) := BitVec.append_assoc

theorem joinWord_hbind (h : BitVec 3) (rs1 : BitVec 5) (role : BitVec 2) :
    joinWord ⟨0b0000010, 0b00#2 ++ h, rs1, 0b010, 0b000#3 ++ role, 0b0001011⟩ =
      0b0000010#7 ++ 0b00#2 ++ h ++ rs1 ++ 0b010#3 ++ 0b000#3 ++ role ++ 0b0001011#7 := by
  rw [append_handle, append_role]; rfl

theorem rp2_of_lt {i : Nat} (h : i < 64) (why : Nat) : rp2 i why = BitVec.ofNat 64 (128 + 256 * i + 65536 * why) :=
  congrArg (BitVec.ofNat 64) (by omega)

/-- Settles O24: the reasons by ringReject_of_lowest and ringReject_eq_zero, the descriptor set by ringWritten_spec. -/
theorem ringDescriptors : Obligations.RingDescriptors := by
  intro s h rs1 rs2 role g i a w r n kind size8 base head tail fill scope count busy why here trap2
  have hwhy (k : Nat) : why k ↔ s.RingWhy i.toNat w[0]! w[1]! w[2]! w[3]! k := Iff.rfl
  have next {i : Instr} {t u : State} (hi : exec i s = .next t) (ht : t = u) : exec i s = .next u := hi.trans (congrArg Host.Outcome.next ht)
  have trapped2 (hi : i.toNat < 64) (k : Nat) :
      Trapped s (s.trap25 (rp2 i.toNat k)) 25 (BitVec.ofNat 64 (128 + 256 * i.toNat + 65536 * k)) s.me.pc := by
    rw [rp2_of_lt hi]; exact s.trapped_trap 25 _
  have trappedIndex : Trapped s (s.trap25 (rp2 (i.toNat % 256) 0)) 25 (BitVec.ofNat 64 (128 + i.toNat % 256 * 256)) s.me.pc := by
    rw [rp2, Nat.mod_mod]; exact s.trapped_trap 25 _
  have set {t : State} (hh : here) (ht : (if r.valid = false then (if busy then s.trap25 (rp2 i.toNat 9) else s.ringWritten i.toNat {})
      else if s.ringReject i.toNat w[0]! w[1]! w[2]! w[3]! ≠ 0 then s.trap25 (rp2 i.toNat (s.ringReject i.toNat w[0]! w[1]! w[2]! w[3]!))
      else s.ringWritten i.toNat { r with base := if s.me.mode == .u then r.base + s.me.segbase.setWidth 20 else r.base }) = t) :
      exec (.ringset rs1 rs2) s = .next t := by
    obtain ⟨h1, h2, h3, h4⟩ := hh
    refine next (exec_ringset h1 h2) ((State.lm_of_at h3 _).trans ((if_neg (Bool.eq_false_iff.mp h4)).trans ?_))
    rw [← ht]
    simp only [Bool.not_eq_true']; rfl
  refine ⟨fun k hh hv hk hlow => ?_, fun hh hv hb => ⟨_, set hh ((if_pos hv).trans (if_pos hb)), trapped2 hh.1 9⟩,
    fun hi ha => ⟨⟨_, exec_ringset_misaligned hi ha, s.trapped_trap 4 _⟩, ⟨_, exec_ringget_misaligned hi ha, s.trapped_trap 6 _⟩⟩,
    fun hi ha c tv => ⟨fun he => ⟨_, next (exec_ringset hi ha) (State.lm_of_error he _), s.trapped_trap c tv⟩,
      fun he => ⟨_, next (exec_ringget hi ha) (State.lm_of_error he _), s.trapped_trap c tv⟩⟩,
    fun hi ha hg hl => ⟨_, next (exec_ringset hi ha) ((State.lm_of_at hg _).trans (if_pos hl)), State.me_updMe .., fun k hk => State.slot_updMe_ne _ _ hk, rfl⟩,
    fun hh hv hno => ?_, fun hh hv hb => ?_, fun hi => ⟨_, exec_ringset_index hi, trappedIndex⟩, fun hi ha hg => ?_, fun hi => ?_,
    fun hi => ⟨_, congrArg Host.Outcome.next (if_pos hi), trappedIndex⟩, congrArg some (joinWord_hbind h rs1 role)⟩
  · obtain ⟨hr, h0⟩ := State.ringReject_of_lowest ((hwhy k).mp hk) (fun j hj => mt (hwhy j).mpr (hlow j hj))
    exact ⟨_, set hh ((if_neg (by rw [hv]; decide)).trans (by rw [hr]; exact if_pos h0)), trapped2 hh.1 k⟩
  · have hr := State.ringReject_eq_zero (fun k => mt (hwhy k).mpr (hno k))
    obtain ⟨hmoved, hmem, hwake⟩ := s.ringWritten_spec i.toNat { r with base := if s.me.mode = .u then r.base + s.me.segbase.setWidth 20 else r.base }
    refine ⟨_, set hh ((if_neg (by rw [hv]; decide)).trans ((if_neg (not_not.mpr hr)).trans ?_)), hwake, hmoved, hmem⟩
    simp only [beq_iff_eq]
  · obtain ⟨hmoved, hmem, -⟩ := s.ringWritten_spec i.toNat {}
    exact ⟨_, set hh ((if_pos hv).trans (if_neg hb)), hmoved, hmem⟩
  · exact ⟨_, next (exec_ringget hi ha) (State.lm_of_at hg _), (s.wrote_wrote _ g 32).retire_words (State.wrote_mem ..)⟩
  · refine ⟨_, exec_hbind hi, ?_⟩
    rw [State.me_updMe]
    exact ⟨rfl, rfl, rfl, rfl, fun k hk => State.slot_updMe_ne _ _ hk, rfl⟩

end Sys2Proof.Machine
end

section
/-! PROOFS. The guyline network: the eight results, GARRIVE, GWAIT and GBAR, arrivals and completions. -/

namespace Sys2Proof.Machine

open Sys2Proof.Claim

/-! The eight results of Table 04.4. -/

/-- Folding the lesser of two keeps one of the values seen and stays below each. -/
theorem foldl_least_spec {α β : Type} [LinearOrder α] {key : β → α} {le : β → β → Bool} (h : ∀ a b, le a b = true ↔ key a ≤ key b)
    (t : List β) (a : β) :
    let m := t.foldl (fun m x => if le m x then m else x) a
    (m = a ∨ m ∈ t) ∧ key m ≤ key a ∧ ∀ v ∈ t, key m ≤ key v := by
  induction t generalizing a with
  | nil => simp
  | cons b t ih =>
    obtain ⟨hmem, ha, hall⟩ := ih (if le a b then a else b)
    have hstep : (if le a b then a else b) = a ∧ key a ≤ key b ∨ (if le a b then a else b) = b ∧ key b ≤ key a := by
      by_cases hab : le a b = true
      · exact .inl ⟨if_pos hab, (h a b).mp hab⟩
      · exact .inr ⟨if_neg hab, le_of_not_ge (mt (h a b).mpr hab)⟩
    rw [List.foldl_cons]
    rcases hstep with ⟨he, hle⟩ | ⟨he, hle⟩ <;> rw [he] at hmem ha hall ⊢
    · exact ⟨hmem.imp_right (List.mem_cons_of_mem b), ha, List.forall_mem_cons.mpr ⟨ha.trans hle, hall⟩⟩
    · exact ⟨.inr (List.mem_cons.mpr hmem), ha.trans hle, List.forall_mem_cons.mpr ⟨ha, hall⟩⟩

theorem leastBy_spec {α : Type} [LinearOrder α] (key : Word → α) {le : Word → Word → Bool} (h : ∀ a b, le a b = true ↔ key a ≤ key b)
    {l : List Word} (hl : l ≠ []) : leastBy le l ∈ l ∧ ∀ v ∈ l, key (leastBy le l) ≤ key v := by
  cases l with
  | nil => exact absurd rfl hl
  | cons a t =>
    obtain ⟨hmem, ha, hall⟩ := foldl_least_spec h t a
    exact ⟨List.mem_cons.mpr hmem, List.forall_mem_cons.mpr ⟨ha, hall⟩⟩

theorem foldl_add_eq (l : List Word) (a : Word) : l.foldl (· + ·) a = a + BitVec.ofNat 64 (l.map BitVec.toNat).sum := by
  induction l generalizing a with
  | nil => simp
  | cons b t ih => rw [List.foldl_cons, ih, List.map_cons, List.sum_cons, BitVec.ofNat_add, BitVec.ofNat_toNat, BitVec.setWidth_eq, BitVec.add_assoc]

theorem getLsbD_foldl_and (l : List Word) (a : Word) (i : Nat) :
    (l.foldl (· &&& ·) a).getLsbD i = true ↔ a.getLsbD i = true ∧ ∀ v ∈ l, v.getLsbD i = true := by
  induction l generalizing a with
  | nil => simp
  | cons b t ih => rw [List.foldl_cons, ih, BitVec.getLsbD_and, Bool.and_eq_true, List.forall_mem_cons, and_assoc]

theorem getLsbD_foldl_or (l : List Word) (a : Word) (i : Nat) :
    (l.foldl (· ||| ·) a).getLsbD i = true ↔ a.getLsbD i = true ∨ ∃ v ∈ l, v.getLsbD i = true := by
  induction l generalizing a with
  | nil => simp
  | cons b t ih => rw [List.foldl_cons, ih, BitVec.getLsbD_or, Bool.or_eq_true, List.exists_mem_cons_iff, or_assoc]

theorem getLsbD_foldl_xor (l : List Word) (a : Word) (i : Nat) :
    (l.foldl (· ^^^ ·) a).getLsbD i = (a.getLsbD i ^^ decide ((l.filter (fun v => v.getLsbD i)).length % 2 = 1)) := by
  induction l generalizing a with
  | nil => simp
  | cons b t ih =>
    rw [List.foldl_cons, ih, BitVec.getLsbD_xor, Bool.xor_assoc]
    cases hb : b.getLsbD i with
    | false => rw [List.filter_cons_of_neg (by simp [hb]), Bool.false_xor]
    | true =>
      rw [List.filter_cons_of_pos (p := fun v : Word => v.getLsbD i) hb, List.length_cons, Bool.true_xor, ← decide_not]
      exact congrArg (a.getLsbD i ^^ ·) (decide_eq_decide.mpr (by omega))

theorem combined_combine {l : List Word} (hl : l ≠ []) : Combined l (combine l) := by
  obtain ⟨hminU, hminU'⟩ := leastBy_spec (le := fun a b => a.ule b) BitVec.toNat (fun a b => by simp [BitVec.ule]) hl
  obtain ⟨hmaxU, hmaxU'⟩ := leastBy_spec (le := fun a b => b.ule a) (fun a => OrderDual.toDual a.toNat) (fun a b => by simp [BitVec.ule]) hl
  obtain ⟨hminS, hminS'⟩ := leastBy_spec (le := fun a b => a.sle b) BitVec.toInt (fun a b => by simp [BitVec.sle]) hl
  obtain ⟨hmaxS, hmaxS'⟩ := leastBy_spec (le := fun a b => b.sle a) (fun a => OrderDual.toDual a.toInt) (fun a b => by simp [BitVec.sle]) hl
  exact {
    eight := rfl
    sum := congrArg some ((foldl_add_eq l 0).trans (BitVec.zero_add _))
    minU := ⟨_, hminU, rfl, hminU'⟩
    maxU := ⟨_, hmaxU, rfl, hmaxU'⟩
    minS := ⟨_, hminS, rfl, hminS'⟩
    maxS := ⟨_, hmaxS, rfl, hmaxS'⟩
    and_ := ⟨_, rfl, fun i hi => by rw [getLsbD_foldl_and, BitVec.getLsbD_allOnes]; simp [hi]⟩
    or_ := ⟨_, rfl, fun i _ => by rw [getLsbD_foldl_or]; simp⟩
    xor_ := ⟨_, rfl, fun i _ => by rw [getLsbD_foldl_xor]; simp⟩ }

/-! GARRIVE, GWAIT and GBAR. -/

theorem State.updMe_congr {s : State} {f g : Slot → Slot} (h : f s.me = g s.me) : s.updMe f = s.updMe g :=
  congrArg (s.setSlot s.cur) h

theorem State.updMe_updMe_of_fixed {s : State} {f : Slot → Slot} (h : f s.me = s.me) (g : Slot → Slot) : (s.updMe f).updMe g = s.updMe g :=
  (State.updMe_updMe ..).trans (State.updMe_congr (congrArg g h))

theorem State.result_updMe_of_fixed {s : State} {f : Slot → Slot} (h : f s.me = s.me) (rd : BitVec 5) (v : Word) :
    (s.updMe f).result rd v = s.result rd v := by
  rw [State.result, State.result, State.setX, State.setX, State.updMe_updMe_of_fixed h]

/-- What an arrival of the current virtual core at membership i leaves (R120). -/
structure GArrived (s t : State) (i g : Nat) (v : Word) : Prop where
  pending : t.gpending i = true
  net : t.net = s.net ++ [Msg.mk (.vc s.vk) .memory .control (.arrive g v) none false]
  slots : t.slots = s.slots
  vc : { t.vc s.vk with gpend := s.myVc.gpend } = s.myVc
  vcs : ∀ k, k ≠ s.vk → t.vc k = s.vc k
  rest : { t with vcs := s.vcs, net := s.net } = s

theorem State.garrived_garrive (s : State) (i g : Nat) (v : Word) : GArrived s (s.garrive i g v) i g v := by
  have hvc (k : Nat) : (s.garrive i g v).vc k = if k = s.vk then { s.myVc with gpend := FMap.set s.myVc.gpend i true } else s.vc k :=
    State.vc_updVc ..
  have hmine : (s.garrive i g v).myVc = { s.myVc with gpend := FMap.set s.myVc.gpend i true } := (hvc s.vk).trans (if_pos rfl)
  exact {
    pending := by rw [State.gpending, hmine, FMap.getD_set_self]
    net := rfl
    slots := rfl
    vc := by rw [hvc, if_pos rfl]
    vcs := fun k hk => by rw [hvc, if_neg hk]
    rest := rfl }

/-- The slot of a GBAR remembers that it has arrived. -/
def State.marked (s : State) : State := s.updMe (fun sl => { sl with arrived := some sl.pc })

section
variable {s : State} {rd rs1 rs2 : XReg} {i : Nat}

theorem State.gwait_of_pending {g : Nat} (h : s.gpending i = true) : s.gwait rd rs1 i g = s.parkOn (.group g) := if_pos h

theorem State.gwait_of_not_pending {g : Nat} (h : s.gpending i = false) :
    s.gwait rd rs1 i g = s.result rd (s.gresult i ((s.x rs1).toNat / 256 % 8)) := if_neg (Bool.eq_false_iff.mp h)

theorem exec_garrive (h : s.memberOf ((s.x rs1).toNat % 256) = some i) : exec (.garrive rs1 rs2) s = .next (
    if s.gpending i then s.trap25 (rp3 ((s.x rs1).toNat % 256) 1) else (s.garrive i ((s.x rs1).toNat % 256) (s.x rs2)).retire) := by
  show execGarrive rs1 rs2 s = _
  simp only [execGarrive, h]

theorem exec_gwait (h : s.memberOf ((s.x rs1).toNat % 256) = some i) :
    exec (.gwait rd rs1) s = .next (s.gwait rd rs1 i ((s.x rs1).toNat % 256)) := by
  show execGwait rd rs1 s = _
  simp only [execGwait, h]

/-- A GBAR remembers its pc and waits, after it has arrived when it has not and nothing is pending (R121). -/
theorem exec_gbar (h : s.memberOf ((s.x rs1).toNat % 256) = some i) : exec (.gbar rd rs1 rs2) s = .next (
    (if s.me.arrived != some s.me.pc && !s.gpending i then s.garrive i ((s.x rs1).toNat % 256) (s.x rs2) else s).marked.gwait
      rd rs1 i ((s.x rs1).toNat % 256)) := by
  show execGbar rd rs1 rs2 s = _
  simp only [execGbar, h]; rfl

theorem exec_garrive_of_not_member (h : s.memberOf ((s.x rs1).toNat % 256) = none) :
    exec (.garrive rs1 rs2) s = .next (s.trap25 (rp3 ((s.x rs1).toNat % 256) 0)) := by
  show execGarrive rs1 rs2 s = _
  simp only [execGarrive, h]

theorem exec_gwait_of_not_member (h : s.memberOf ((s.x rs1).toNat % 256) = none) :
    exec (.gwait rd rs1) s = .next (s.trap25 (rp3 ((s.x rs1).toNat % 256) 0)) := by
  show execGwait rd rs1 s = _
  simp only [execGwait, h]

theorem exec_gbar_of_not_member (h : s.memberOf ((s.x rs1).toNat % 256) = none) :
    exec (.gbar rd rs1 rs2) s = .next (s.trap25 (rp3 ((s.x rs1).toNat % 256) 0)) := by
  show execGbar rd rs1 rs2 s = _
  simp only [execGbar, h]

end

/-- The slot of a GBAR that has arrived and waits. -/
theorem State.parked_marked (s : State) (a : Await) :
    (s.marked.parkOn a).me = { s.me with st := .parked, park := some a, wakeAt := none, arrived := some s.me.pc } ∧
      (∀ k, k ≠ s.cur → (s.marked.parkOn a).slot k = s.slot k) ∧ { s.marked.parkOn a with slots := s.slots } = s := by
  have ht : s.marked.parkOn a = s.updMe (fun sl => { sl with st := .parked, park := some a, wakeAt := none, arrived := some sl.pc }) :=
    State.updMe_updMe ..
  rw [ht]
  exact ⟨State.me_updMe .., fun k hk => State.slot_updMe_ne _ _ hk, rfl⟩

/-- A GBAR that has arrived and finds nothing pending completes. -/
theorem State.gwait_marked {s : State} {i : Nat} (ha : s.me.arrived = some s.me.pc) (hp : s.gpending i = false) (rd rs1 : XReg) (g : Nat) :
    s.marked.gwait rd rs1 i g = s.result rd (s.gresult i ((s.x rs1).toNat / 256 % 8)) := by
  have hfix : { s.me with arrived := some s.me.pc } = s.me := by rw [← ha]
  have hx : s.marked.x rs1 = s.x rs1 := by rw [State.x, State.marked, State.me_updMe, hfix]; rfl
  have hp' : s.marked.gpending i = false := hp
  rw [State.gwait_of_not_pending hp', hx, State.marked, State.result_updMe_of_fixed hfix]
  rfl

/-! Completions and arrivals. -/

theorem foldl_send_eq (m : Nat → Msg) (l : List Nat) (s : State) : l.foldl (fun t vk => t.send (m vk)) s = { s with net := s.net ++ l.map m } := by
  induction l generalizing s with
  | nil => simp
  | cons k l ih => rw [List.foldl_cons, ih, State.send, List.map_cons, List.append_assoc]; rfl

theorem exec_episode {s : State} (hv : s.ev.val = 0) (hc : s.episodeComplete s.ev.key = true) :
    exec .guylineEpisodeCompletion s = .next (s.completeEpisode s.ev.key) := by
  show execGuylineEpisodeCompletion s = _
  simp [execGuylineEpisodeCompletion, hv, hc]

theorem exec_guylineArrival {s : State} (hv : s.ev.val = 1) : exec .guylineEpisodeCompletion s = .next (s.guylineArrival s.ev.ix) := by
  show execGuylineEpisodeCompletion s = _
  simp [execGuylineEpisodeCompletion, hv]

/-- The group after its episode has completed; ms are the members of the next one. -/
def Group.completed (x : Group) (ms : List Nat) : Group :=
  { x with episodes := x.episodes + 1, arrivals := x.early, early := [], isOpen := !x.early.isEmpty, members := if x.early.isEmpty then [] else ms }

theorem State.completeEpisode_eq (s : State) (g : Nat) : s.completeEpisode g =
    ({ s with net := s.net ++ (s.group g).members.map (fun vk =>
      Msg.mk .memory (.vc vk) .control (.guyline g (combine ((s.group g).arrivals.map Prod.snd))) none false) }).updGroup g
        (fun _ => (s.group g).completed (s.membersOf g)) := by
  unfold State.completeEpisode
  simp only [foldl_send_eq]
  rfl

/-- An arrival opens an episode, joins it, or is held for the next (R121). -/
theorem State.group_arrive (s : State) (vk g : Nat) (v : Word) (j : Nat) : (s.arrive vk g v).group j =
    if j = g then
      (if (s.group g).isOpen = false then { s.group g with isOpen := true, members := s.membersOf g, arrivals := [(vk, v)] }
       else if vk ∈ (s.group g).members then { s.group g with arrivals := (s.group g).arrivals ++ [(vk, v)] }
       else { s.group g with early := (s.group g).early ++ [(vk, v)] })
    else s.group j := by
  rw [State.arrive, State.group_updGroup]
  simp only [Bool.not_eq_true', List.contains_iff_mem]

theorem State.guylineArrival_of_arrive {s : State} {n vk g : Nat} {m : Msg} {v : Word} (hm : s.net[n]? = some m) (hs : m.src = .vc vk)
    (hb : m.body = .arrive g v) : s.guylineArrival n = (s.dropMsg n).arrive vk g v := by
  simp only [State.guylineArrival, State.msg?, hm, hs, hb]

theorem State.msg?_of_deliverable {s : State} {n : Nat} {m : Msg} (h : s.deliverable n = some m) : s.msg? n = some m := by
  unfold State.deliverable at h
  cases hm : s.msg? n with
  | none => simp [hm] at h
  | some x =>
    simp only [hm] at h
    split at h
    · exact h
    · exact absurd h (by simp)

/-- The member with the results of an episode at its membership j (R120). -/
def VCore.withResults (v : VCore) (j : Nat) (rs : List Word) : VCore :=
  { v with gpend := FMap.set v.gpend j false, gres := FMap.set v.gres j rs }

theorem State.guylineArrival_of_results {s : State} {n vk g j : Nat} {m : Msg} {rs : List Word} (hm : s.deliverable n = some m) (hs : m.src = .memory)
    (hd : m.dst = .vc vk) (hb : m.body = .guyline g rs) (hl : (s.vc vk).live = true) (hp : (s.vc vk).place.isSome = true)
    (hj : (s.vc vk).groups.findIdx? (· == g) = some j) : s.guylineArrival n =
      ((s.dropMsg n).updVc vk (fun v => v.withResults j rs)).wakeVc vk (fun a => a == Await.group g) := by
  have hn : (s.vc vk).place.isNone = false := by rw [Option.isNone_eq_false_iff]; exact hp
  have hr : (s.dropMsg n).guylineResults vk g rs =
      ((s.dropMsg n).updVc vk (fun v => v.withResults j rs)).wakeVc vk (fun a => a == Await.group g) := by
    unfold State.guylineResults
    rw [show ((s.dropMsg n).vc vk).groups.findIdx? (· == g) = some j from hj]; rfl
  rw [← hr]
  simp only [State.guylineArrival, State.msg?_of_deliverable hm, hm, hs, hd, hb, hl, hn, Option.isNone_some, Bool.false_eq_true, Bool.not_true,
    if_false]

/-- What a member that takes the results has: they stand at its membership, nothing is pending there, its waiting slots wake. -/
structure Resulted (s t : State) (vk g j : Nat) (rs : List Word) : Prop where
  gres : FMap.get? (t.vc vk).gres j = some rs
  gpend : FMap.get? (t.vc vk).gpend j = some false
  vc : { t.vc vk with gres := (s.vc vk).gres, gpend := (s.vc vk).gpend } = s.vc vk
  vcs : ∀ q, q ≠ vk → t.vc q = s.vc q
  woken : ∀ q, q / 16 = vk → (s.slot q).st = .parked → (s.slot q).park = some (.group g) → (t.slot q).wakeAt.isSome = true
  rest : { t with slots := s.slots, vcs := s.vcs } = s

theorem State.resulted_withResults (s : State) (vk g j : Nat) (rs : List Word) :
    Resulted s ((s.updVc vk (fun v => v.withResults j rs)).wakeVc vk (fun a => a == Await.group g)) vk g j rs := by
  have hvc : ((s.updVc vk (fun v => v.withResults j rs)).wakeVc vk (fun a => a == Await.group g)).vc vk = (s.vc vk).withResults j rs :=
    s.vc_updVc_self vk (fun v => v.withResults j rs)
  exact {
    gres := by rw [hvc]; exact (FMap.get?_set ..).trans (if_pos rfl)
    gpend := by rw [hvc]; exact (FMap.get?_set ..).trans (if_pos rfl)
    vc := by rw [hvc]; rfl
    vcs := fun q hq => (s.vc_updVc vk q (fun v => v.withResults j rs)).trans (if_neg hq)
    woken := fun q hq hst hpark => State.isSome_wakeAt_wakeVc (s := s.updVc vk _) hq hst hpark (beq_self_eq_true _)
    rest := rfl }

/-- Settles O27: the instructions of a member by its pending bit, a completion and an arrival by what they make of the group. -/
theorem guyline : Obligations.Guyline := by
  intro s rd rs1 rs2 i g arrival e x trap
  have hg : g < 256 := Nat.mod_lt _ (by decide)
  have next {i : Instr} {t u : State} (hi : exec i s = .next t) (ht : t = u) : exec i s = .next u := hi.trans (congrArg Host.Outcome.next ht)
  have trapped {j : Instr} {why : Nat} (hj : exec j s = .next (s.trap25 (rp3 g why))) : trap j why := by
    refine ⟨_, hj, ?_⟩
    rw [rp3_of_lt hg]; exact s.trapped_trap 25 _
  have hgo := s.garrived_garrive i g (s.x rs2)
  refine ⟨fun hm hp => ⟨_, next (exec_garrive hm) (if_neg (Bool.eq_false_iff.mp hp)), hgo.pending, ?_, hgo.net, rfl, hgo.vc, hgo.vcs⟩,
    fun hm hp => trapped (next (exec_garrive hm) (if_pos hp)),
    fun hm => ⟨trapped (exec_garrive_of_not_member hm), trapped (exec_gwait_of_not_member hm), trapped (exec_gbar_of_not_member hm)⟩,
    fun hm hp => ⟨_, next (exec_gwait hm) (State.gwait_of_not_pending hp), s.did_result rd _⟩,
    fun hm hp => ⟨_, next (exec_gwait hm) (State.gwait_of_pending hp), s.parked_parkOn _⟩,
    fun hm hp ha => ?_, fun hm hp ha => ?_, fun hm hp => ?_, fun hv hc hne => ?_, fun m vk k v hv hm hs hb => ?_,
    fun m vk k rs j hv hm hs hd hb hl hp hj => ?_⟩
  · rw [← State.result_x0 _ 0]
    exact Stirred.kept (s := s) (u := s.garrive i g (s.x rs2)) (.of_slots rfl hgo.slots) 0 0
  · refine ⟨_, next (exec_gbar hm) ?_, s.did_result rd (s.gresult i ((s.x rs1).toNat / 256 % 8))⟩
    rw [if_neg (by simp [ha])]
    exact State.gwait_marked ha hp rd rs1 g
  · obtain ⟨hme, hslots, -⟩ := (s.garrive i g (s.x rs2)).parked_marked (.group g)
    refine ⟨(s.garrive i g (s.x rs2)).marked.parkOn (.group g), next (exec_gbar hm) ?_, hgo.pending, hme, hgo.net, hslots, rfl⟩
    rw [if_pos (by simp [ha, hp])]
    exact State.gwait_of_pending (s := (s.garrive i g (s.x rs2)).marked) hgo.pending
  · obtain ⟨hme, hslots, hrest⟩ := s.parked_marked (.group g)
    refine ⟨_, next (exec_gbar hm) ?_, hme, hslots, hrest⟩
    rw [if_neg (by simp [hp])]
    exact State.gwait_of_pending hp
  · refine ⟨_, _, exec_episode hv hc, combined_combine (by simpa using hne), ?_⟩
    rw [State.completeEpisode_eq, State.group_updGroup, if_pos rfl]
    refine ⟨rfl, rfl, rfl, rfl, by simp [Group.completed]; rfl, fun j hj => ?_, rfl⟩
    rw [State.group_updGroup, if_neg hj]; rfl
  · refine ⟨_, next (exec_guylineArrival hv) (State.guylineArrival_of_arrive hm hs hb), rfl, fun j hj => ?_, rfl, fun ho => ?_, fun ho hin => ?_,
      fun ho hin => ?_⟩
    · exact (State.group_arrive ..).trans (if_neg hj)
    · exact (State.group_arrive ..).trans ((if_pos rfl).trans (if_pos ho))
    · exact (State.group_arrive ..).trans ((if_pos rfl).trans ((if_neg ((Bool.not_eq_false _).mpr ho)).trans (if_pos hin)))
    · exact (State.group_arrive ..).trans ((if_pos rfl).trans ((if_neg ((Bool.not_eq_false _).mpr ho)).trans (if_neg hin)))
  · have hr := (s.dropMsg s.ev.ix).resulted_withResults vk k j rs
    exact ⟨_, next (exec_guylineArrival hv) (State.guylineArrival_of_results hm hs hd hb hl hp hj), rfl, hr.gres, hr.gpend, hr.vc, hr.vcs,
      hr.woken, rfl⟩

end Sys2Proof.Machine
end

section
/-! PROOFS. REPF (R125, R126): capture, presentation, progress and end of a frame. -/

namespace Sys2Proof.Machine

open Sys2Proof.Claim

/-! The capture of the frame's words. -/

/-- Words that have all arrived and pass their checks are captured. -/
theorem State.captureFrame_of_words {s : State} (ws pre : List InsnWord)
    (h : ∀ j < ws.length, s.fetchAt s.cur (s.me.pc + BitVec.ofNat 64 (4 + 4 * (pre.length + j))) = .word (ws[j]!) ∧ s.frameCheck (ws[j]!) = none) :
    s.captureFrame pre ws.length = .ok (pre ++ ws) := by
  induction ws generalizing pre with
  | nil => simp [State.captureFrame]
  | cons w ws ih =>
    obtain ⟨hfetch, hcheck⟩ := h 0 (Nat.succ_pos _)
    have hfetch : s.fetchAt s.cur (s.me.pc + BitVec.ofNat 64 (4 + 4 * pre.length)) = .word w := hfetch
    have hcheck : s.frameCheck w = none := hcheck
    have hrest := ih (pre ++ [w]) (fun j hj => by
      have hstep := h (j + 1) (Nat.succ_lt_succ hj)
      rw [List.length_append, List.length_singleton, Nat.add_assoc, Nat.add_comm 1 j]
      exact hstep)
    rw [List.length_cons, State.captureFrame]
    simp only [hfetch, hcheck, hrest, List.append_assoc, List.singleton_append]

/-! REPF at its turn. -/

section
variable {s : State} {rs1 : XReg} {len : BitVec 4} {hs ws : BitVec 3} {words : List InsnWord}

/-- A REPF whose rs1 is not x0 has a word (R68). -/
theorem encode_repf (len : BitVec 4) (hs ws : BitVec 3) (h : rs1 ≠ 0) : ∃ w, encode (.repf rs1 len hs ws) = some w :=
  ⟨_, if_pos (bne_iff_ne.mpr h)⟩

/-- x0 has no field that is not 0. -/
theorem State.ne_x0_of_lt_bits {hi lo : Nat} (h : 0 < bits (s.x rs1) hi lo) : rs1 ≠ 0 := by
  rintro rfl
  rw [bits, State.x, Slot.readX_zero] at h
  simp at h

theorem exec_repf_outside (hh : s.me.hold = none) (hix : len.toNat + 1 ≤ bits (s.x rs1) 35 32) :
    exec (.repf rs1 len hs ws) s = .next (s.illegalI (.repf rs1 len hs ws)) := by
  show execRepf rs1 len hs ws s = _
  simp only [execRepf, hh]
  exact congrArg Host.Outcome.next (if_pos hix)

/-- A frame whose words are all there is skipped when no pass is left (R125). -/
theorem exec_repf_skipped (hh : s.me.hold = none) (hix : bits (s.x rs1) 35 32 < len.toNat + 1)
    (hw : s.captureFrame [] (len.toNat + 1) = .ok words) (hc : bits (s.x rs1) 31 0 = 0) :
    exec (.repf rs1 len hs ws) s = .next (s.retireTo (s.me.pc + BitVec.ofNat 64 (4 + 4 * (len.toNat + 1)))) := by
  show execRepf rs1 len hs ws s = _
  simp only [execRepf, hh, frameLen, List.length_nil, Nat.sub_zero, hw, if_neg (Nat.not_le.mpr hix), hc, beq_self_eq_true, if_true]

/-- Its slot holds any other at the position of x[rs1] (R125). -/
theorem exec_repf_captured (hh : s.me.hold = none) (hix : bits (s.x rs1) 35 32 < len.toNat + 1)
    (hw : s.captureFrame [] (len.toNat + 1) = .ok words) (hc : bits (s.x rs1) 31 0 ≠ 0) : exec (.repf rs1 len hs ws) s = .next (
      s.updMe (fun sl => { sl with hold := some (.frame words (bits (s.x rs1) 31 0) (bits (s.x rs1) 35 32) (bits (s.x rs1) 38 36) none) })) := by
  show execRepf rs1 len hs ws s = _
  simp only [execRepf, hh, frameLen, List.length_nil, Nat.sub_zero, hw, if_neg (Nat.not_le.mpr hix), beq_false_of_ne hc, Bool.false_eq_true, if_false]

theorem exec_repf_busy {c i h : Nat} {stop : Option (Nat × Word)} (hh : s.me.hold = some (.frame words c i h stop))
    (hb : s.frameBusy s.cur = true) : exec (.repf rs1 len hs ws) s = .next s := by
  show execRepf rs1 len hs ws s = _
  simp only [execRepf, hh, hb, if_true]

theorem exec_repf_ended {i h : Nat} (hh : s.me.hold = some (.frame words 0 i h none)) (hb : s.frameBusy s.cur = false) :
    exec (.repf rs1 len hs ws) s = .next (s.retireTo (s.me.pc + BitVec.ofNat 64 (4 + 4 * (len.toNat + 1)))) := by
  show execRepf rs1 len hs ws s = _
  simp only [execRepf, hh, hb, frameLen, Bool.false_eq_true, if_false, beq_self_eq_true, if_true]

theorem exec_repf_stopped {c i h e : Nat} {v : Word} (hh : s.me.hold = some (.frame words c i h (some (e, v))))
    (hb : s.frameBusy s.cur = false) : exec (.repf rs1 len hs ws) s = .next (s.trap e v) := by
  show execRepf rs1 len hs ws s = _
  simp only [execRepf, hh, hb, Bool.false_eq_true, if_false]

end

theorem State.slot_of_slots {s t : State} (h : t.slots = s.slots) (k : Nat) : t.slot k = s.slot k := by rw [State.slot, h]; rfl

theorem State.vc_of_vcs {s t : State} (h : t.vcs = s.vcs) (k : Nat) : t.vc k = s.vc k := by rw [State.vc, h]; rfl

/-! The progress register. -/

/-- A frame position as a key that grows as the frame goes on: passes count down, indices up. -/
def frameKey (p : Nat × Nat × Nat) : ℕᵒᵈ ×ₗ ℕ := toLex (OrderDual.toDual p.1, p.2.1)

theorem not_frameBefore_iff (a b : Nat × Nat × Nat) : (!frameBefore b a) = true ↔ frameKey a ≤ frameKey b := by
  have hlex : frameKey a ≤ frameKey b ↔ b.1 < a.1 ∨ a.1 = b.1 ∧ a.2.1 ≤ b.2.1 := Prod.Lex.le_iff
  rw [hlex, frameBefore]
  simp only [Bool.not_eq_true', Bool.or_eq_false_iff, Bool.and_eq_false_iff, decide_eq_false_iff_not, beq_eq_false_iff_ne]
  omega

/-- The positions of a slot's frame that have not completed, the next one to present first. -/
def VCore.openPositions (v : VCore) (slot : Nat) (next : Nat × Nat × Nat) : List (Nat × Nat × Nat) :=
  next :: ((v.accepted 0 ++ v.accepted 1).filter (fun q => q.slot == slot)).filterMap QEntry.pos

/-- The first of them, by the order of the frame. -/
theorem VCore.framePos_eq {v : VCore} {slot : Nat} {next y : Nat × Nat × Nat} (hy : y ∈ v.openPositions slot next)
    (hfirst : ∀ z ∈ v.openPositions slot next, z = y ∨ (z.1 < y.1 ∨ y.1 = z.1 ∧ y.2.1 < z.2.1)) : v.framePos slot next = y := by
  have hfold : v.framePos slot next = (v.openPositions slot next).tail.foldl (fun m x => if !frameBefore x m then m else x) next := by
    unfold VCore.framePos
    refine congrArg (fun f => List.foldl f next _) ?_
    funext m x
    cases frameBefore x m <;> rfl
  obtain ⟨hmem, hnext, hrest⟩ := foldl_least_spec (key := frameKey) not_frameBefore_iff (v.openPositions slot next).tail next
  rw [← hfold] at hmem hnext hrest
  have hle : frameKey (v.framePos slot next) ≤ frameKey y := List.forall_mem_cons (p := fun z => frameKey (v.framePos slot next) ≤ frameKey z) |>.mpr ⟨hnext, hrest⟩ y hy
  rcases hfirst _ (List.mem_cons.mpr hmem) with heq | hlt
  · exact heq
  · have hno := (not_frameBefore_iff _ _).mpr hle
    simp only [frameBefore, Bool.not_eq_true', Bool.or_eq_false_iff, Bool.and_eq_false_iff, decide_eq_false_iff_not, beq_eq_false_iff_ne] at hno
    omega

/-- x[rs1] of a slot in a frame names the first frame instruction that has not completed (R125). -/
def State.ShowsFirst (t : State) (vk slot : Nat) : Prop :=
  ∀ words c i h stop y, (t.slot (slotKey vk slot)).hold = some (.frame words c i h stop) →
    y ∈ (t.vc vk).openPositions slot (c, i, h) →
    (∀ z ∈ (t.vc vk).openPositions slot (c, i, h), z = y ∨ (z.1 < y.1 ∨ y.1 = z.1 ∧ y.2.1 < z.2.1)) →
    (t.slot (slotKey vk slot)).readX ((t.slot (slotKey vk slot)).insn.extractLsb' 15 5) =
      if (t.slot (slotKey vk slot)).insn.extractLsb' 15 5 = 0 then 0 else progressWord y.1 y.2.1 y.2.2

theorem Slot.hold_writeX (sl : Slot) (r : BitVec 5) (v : Word) : (sl.writeX r v).hold = sl.hold := by
  unfold Slot.writeX; split <;> rfl

theorem Slot.insn_writeX (sl : Slot) (r : BitVec 5) (v : Word) : (sl.writeX r v).insn = sl.insn := by
  unfold Slot.writeX; split <;> rfl

theorem Slot.pc_writeX (sl : Slot) (r : BitVec 5) (v : Word) : (sl.writeX r v).pc = sl.pc := by
  unfold Slot.writeX; split <;> rfl

/-- What the update of the progress register leaves. -/
structure Progressed (s t : State) (key : Nat) : Prop where
  hold : (t.slot key).hold = (s.slot key).hold
  pc : (t.slot key).pc = (s.slot key).pc
  vcs : t.vcs = s.vcs

theorem State.progressed_frameProgress (s : State) (vk slot : Nat) : Progressed s (s.frameProgress vk slot) (slotKey vk slot) := by
  unfold State.frameProgress
  dsimp only
  split
  · exact {
      hold := by rw [State.slot_updSlot_self, Slot.hold_writeX]
      pc := by rw [State.slot_updSlot_self, Slot.pc_writeX]
      vcs := rfl }
  · exact ⟨rfl, rfl, rfl⟩

theorem State.frameProgress_of_frame {s : State} {vk slot c i h : Nat} {words : List InsnWord} {stop : Option (Nat × Word)}
    (hh : (s.slot (slotKey vk slot)).hold = some (.frame words c i h stop)) {y : Nat × Nat × Nat}
    (hy : (s.vc vk).framePos slot (c, i, h) = y) : s.frameProgress vk slot =
      s.updSlot (slotKey vk slot) (fun sl => sl.writeX (sl.insn.extractLsb' 15 5) (progressWord y.1 y.2.1 y.2.2)) := by
  unfold State.frameProgress
  simp only [hh, hy]

theorem State.showsFirst_frameProgress (s : State) (vk slot : Nat) : (s.frameProgress vk slot).ShowsFirst vk slot := by
  intro words c i h stop y hh hy hfirst
  have hp := s.progressed_frameProgress vk slot
  have hvc : (s.frameProgress vk slot).vc vk = s.vc vk := State.vc_of_vcs hp.vcs vk
  rw [hvc] at hy hfirst
  rw [State.frameProgress_of_frame (hp.hold.symm.trans hh) (VCore.framePos_eq hy hfirst), State.slot_updSlot_self, Slot.insn_writeX,
    Slot.readX_writeX]
  by_cases hr : (s.slot (slotKey vk slot)).insn.extractLsb' 15 5 = (0 : BitVec 5)
  · rw [hr, if_pos rfl, if_neg (fun h => h.2 rfl), Slot.readX_zero]
  · rw [if_pos ⟨rfl, hr⟩, if_neg hr]

/-- It depends on the slot, and on what the two engines have accepted. -/
theorem State.ShowsFirst.congr {s t : State} {vk slot : Nat} (h : s.ShowsFirst vk slot) (hslots : t.slots = s.slots)
    (ha : ∀ e, (t.vc vk).accepted e = (s.vc vk).accepted e) : t.ShowsFirst vk slot := by
  intro words c i k stop y hh hy hfirst
  have hslot : t.slot (slotKey vk slot) = s.slot (slotKey vk slot) := State.slot_of_slots hslots _
  have hopen : (t.vc vk).openPositions slot (c, i, k) = (s.vc vk).openPositions slot (c, i, k) := by
    rw [VCore.openPositions, VCore.openPositions, ha, ha]
  rw [hslot] at hh ⊢
  rw [hopen] at hy hfirst
  exact h words c i k stop y hh hy hfirst

/-! Acceptance of a frame instruction. -/

/-- An accepted instruction leaves the slot that presents it and its pc. -/
structure Accepted (s u : State) : Prop where
  cur : u.cur = s.cur
  pc : u.me.pc = s.me.pc

/-- An acceptance that accepts leaves the slot that presents and its pc. -/
structure Accept.Keeps (s : State) (a : Accept) : Prop where
  of_ok : ∀ u, a = .ok u → Accepted s u

theorem Accepted.of_slots {s u : State} (hc : u.cur = s.cur) (hslots : u.slots = s.slots) : Accepted s u where
  cur := hc
  pc := by rw [State.me, hc, State.slot_of_slots hslots]; rfl

theorem Accept.keeps_fault (s : State) (e : Nat) (v : Word) : (Accept.fault e v).Keeps s := ⟨nofun⟩
theorem Accept.keeps_full (s : State) : Accept.full.Keeps s := ⟨nofun⟩
theorem Accept.keeps_wait (s : State) (ix : Nat) (room : Bool) : (Accept.wait ix room).Keeps s := ⟨nofun⟩
theorem Accept.keeps_ok {s u : State} (h : Accepted s u) : (Accept.ok u).Keeps s := ⟨fun v hv => by cases hv; exact h⟩

theorem Accept.keeps_ite {s : State} {p : Prop} [Decidable p] {a b : Accept} (ha : a.Keeps s) (hb : b.Keeps s) : (if p then a else b).Keeps s := by
  split
  · exact ha
  · exact hb

theorem State.keeps_takeIn {s : State} {e : Nat} {q : QEntry} {na nb nd : Nat} {k : State → State}
    (hk : ∀ t, (k t).cur = t.cur ∧ (k t).slots = t.slots) : (s.takeIn e q na nb nd k).Keeps s := by
  unfold State.takeIn
  refine Accept.keeps_ite (Accept.keeps_full s) ?_
  dsimp only
  split
  · exact Accept.keeps_wait s _ _
  · exact Accept.keeps_wait s _ _
  · exact Accept.keeps_wait s _ _
  · exact Accept.keeps_wait s _ _
  · obtain ⟨hcur, hslots⟩ := hk (s.enqueue e q)
    exact Accept.keeps_ok (.of_slots hcur hslots)

theorem State.keeps_acceptMma (s : State) (i : Instr) (x : MmaArgs) : (s.acceptMma i x).Keeps s := by
  unfold State.acceptMma
  dsimp only
  split
  · exact Accept.keeps_fault ..
  next ix _ =>
    refine Accept.keeps_ite (Accept.keeps_fault ..) (Accept.keeps_ite (Accept.keeps_fault ..) (Accept.keeps_ite (Accept.keeps_fault ..)
      (Accept.keeps_ite (Accept.keeps_fault ..) (Accept.keeps_ite (Accept.keeps_fault ..) ?_))))
    split
    · exact Accept.keeps_fault ..
    refine Accept.keeps_ite (Accept.keeps_fault ..) ?_
    split
    · exact Accept.keeps_fault ..
    · refine State.keeps_takeIn (fun t => ?_)
      split <;> exact ⟨rfl, rfl⟩

theorem State.keeps_acceptMcfg (s : State) (i : Instr) (a : BitVec 1) (rs1 : BitVec 5) : (s.acceptMcfg i a rs1).Keeps s := by
  unfold State.acceptMcfg
  refine Accept.keeps_ite (Accept.keeps_fault ..) (Accept.keeps_ite (Accept.keeps_fault ..) ?_)
  split
  · exact Accept.keeps_fault ..
  · exact State.keeps_takeIn (fun t => ⟨rfl, rfl⟩)

theorem State.keeps_acceptMload (s : State) (i : Instr) (a : BitVec 1) (h : Handle) : (s.acceptMload i a h).Keeps s := by
  unfold State.acceptMload
  dsimp only
  split
  · exact Accept.keeps_fault ..
  · exact Accept.keeps_ite (Accept.keeps_fault ..) (Accept.keeps_ite (Accept.keeps_fault ..) (State.keeps_takeIn (fun t => ⟨rfl, rfl⟩)))

theorem State.keeps_acceptMout (s : State) (i : Instr) (h : Handle) (a : BitVec 1) (rs2 : BitVec 5) : (s.acceptMout i h a rs2).Keeps s := by
  unfold State.acceptMout
  dsimp only
  split
  · exact Accept.keeps_fault ..
  · exact Accept.keeps_ite (Accept.keeps_fault ..) (Accept.keeps_ite (Accept.keeps_fault ..) (Accept.keeps_ite (Accept.keeps_fault ..)
      (Accept.keeps_ite (Accept.keeps_fault ..) (Accept.keeps_ite (Accept.keeps_fault ..) (Accept.keeps_ite (Accept.keeps_fault ..)
      (Accept.keeps_ite (Accept.keeps_fault ..) (State.keeps_takeIn (fun t => ⟨rfl, rfl⟩))))))))

theorem State.keeps_acceptWswap (s : State) : s.acceptWswap.Keeps s :=
  Accept.keeps_ite (Accept.keeps_full s) (Accept.keeps_ok (.of_slots rfl rfl))

theorem State.keeps_acceptWpget (s : State) (rd : BitVec 5) (w : WPtr) : (s.acceptWpget rd w).Keeps s :=
  Accept.keeps_ok { cur := rfl, pc := (congrArg Slot.pc (s.me_updMe _)).trans (Slot.pc_writeX ..) }

theorem State.keeps_acceptMatrix (s : State) (i : Instr) : (s.acceptMatrix i).Keeps s := by
  unfold State.acceptMatrix
  split
  · exact s.keeps_acceptMcfg ..
  · exact State.keeps_takeIn (fun t => ⟨rfl, rfl⟩)
  · exact s.keeps_acceptMload ..
  · exact s.keeps_acceptMout ..
  · exact State.keeps_takeIn (fun t => ⟨rfl, rfl⟩)
  · exact s.keeps_acceptWpget ..
  · exact s.keeps_acceptWswap
  · exact State.keeps_takeIn (fun t => ⟨rfl, rfl⟩)
  · exact s.keeps_acceptMma ..
  · exact s.keeps_acceptMma ..
  · exact Accept.keeps_full s

theorem State.keeps_acceptVector (s : State) (i : Instr) : (s.acceptVector i).Keeps s := by
  unfold State.acceptVector
  split
  · exact Accept.keeps_full s
  dsimp only
  split
  · exact Accept.keeps_fault ..
  · exact Accept.keeps_fault ..
  refine Accept.keeps_ite (Accept.keeps_fault ..) (Accept.keeps_ite (Accept.keeps_fault ..) ?_)
  split
  · exact Accept.keeps_fault ..
  split
  · exact Accept.keeps_fault ..
  · refine State.keeps_takeIn (fun t => ?_)
    split <;> exact ⟨rfl, rfl⟩

theorem State.keeps_acceptW (s : State) (i : Instr) : (s.acceptW i).Keeps s :=
  Accept.keeps_ite (s.keeps_acceptMatrix i) (s.keeps_acceptVector i)

/-! The presentation of a frame instruction. -/

/-- The stagger moves handles and pointers, not the instruction to another engine. -/
theorem wGroup_stagger (i : Instr) (d e : BitVec 3) : wGroup (stagger i d e) = wGroup i := by
  cases i <;> rfl

/-- The mark falls on the entry that has come to the end of the queue. -/
theorem VCore.queueOf_markFrame {v : VCore} {e : Nat} {q : List QEntry} {z : QEntry} (h : v.queueOf e = q ++ [z]) (pos : Nat × Nat × Nat) :
    (v.markFrame e q.length pos).queueOf e = q ++ [{ z with pos := some pos }] := by
  unfold VCore.markFrame
  simp only [h, List.length_append, List.length_singleton]
  rw [if_neg (by simp)]
  refine (FMap.getD_set_self ..).trans ?_
  simp

/-- What the acceptance u of the frame instruction at pos becomes: its entry is marked, the frame goes on at next, and the progress
register follows (R125). -/
def State.framePresented (u : State) (rs1 : XReg) (words : List InsnWord) (e n : Nat) (pos next : Nat × Nat × Nat) : State :=
  let t := (u.updMyVc (fun v => v.markFrame e n pos)).updMe (fun sl =>
    ({ sl with hold := some (.frame words next.1 next.2.1 next.2.2 none) }).writeX rs1 (progressWord pos.1 pos.2.1 pos.2.2))
  t.frameProgress t.vk t.ix

/-- The sequencer's next state by the acceptance of the instruction it presents; one that is not taken now changes nothing. -/
def Accept.afterPresent (s : State) (rs1 : XReg) (len : BitVec 4) (words : List InsnWord) (e n : Nat) (pos : Nat × Nat × Nat) : Accept → State
  | .fault c v => s.updSlot s.ev.key (fun sl => { sl with hold := some (.frame words pos.1 pos.2.1 pos.2.2 (some (c, v))) })
  | .full => s
  | .wait _ _ => s
  | .ok u => { u.framePresented rs1 words e n pos (nextPos (frameLen len) pos.1 pos.2.1 pos.2.2) with cur := s.cur }

theorem exec_repfFramePresent {s : State} {rs1 : XReg} {len : BitVec 4} {hs ws : BitVec 3} {words : List InsnWord} {c i h : Nat} {f : Instr}
    (hc : s.canPresent s.ev.key = true) (hi : decode (s.slot s.ev.key).insn = .ok (.repf rs1 len hs ws))
    (hh : (s.slot s.ev.key).hold = some (.frame words c i h none)) (hf : decode (words.getD i 0) = .ok f) :
    exec .repfFramePresent s = .next ((({ s with cur := s.ev.key }).acceptW
      (stagger f (BitVec.ofNat 3 (h * hs.toNat)) (BitVec.ofNat 3 (h * ws.toNat)))).afterPresent s rs1 len words ((wGroup f).getD 0)
        ((s.vc (s.ev.key / 16)).queueOf ((wGroup f).getD 0)).length (c, i, h)) := by
  have hc' : ({ s with cur := s.ev.key }).canPresent s.ev.key = true := hc
  have hi' : decode ({ s with cur := s.ev.key }).me.insn = .ok (.repf rs1 len hs ws) := hi
  have hh' : ({ s with cur := s.ev.key }).me.hold = some (.frame words c i h none) := hh
  show execRepfFramePresent s = _
  simp only [execRepfFramePresent, hc', hi', hh', hf, wGroup_stagger, Bool.not_true, Bool.false_eq_true, if_false]
  cases ({ s with cur := s.ev.key }).acceptW (stagger f (BitVec.ofNat 3 (h * hs.toNat)) (BitVec.ofNat 3 (h * ws.toNat))) <;> rfl

theorem exec_repfFramePresent_of_not {s : State} (h : s.canPresent s.ev.key = false) : exec .repfFramePresent s = .next s := by
  have h' : ({ s with cur := s.ev.key }).canPresent s.ev.key = false := h
  show execRepfFramePresent s = _
  simp only [execRepfFramePresent, h', Bool.not_false, if_true]

theorem State.canPresent_of_pending {s : State} {k : Nat} (h : (s.slot k).irqReady = true ∨ (s.slot k).asyncReady = true) :
    s.canPresent k = false := by
  unfold State.canPresent
  rcases h with h | h <;> simp [h]

/-- What the presentation of an accepted instruction leaves and sets. -/
structure FramePresented (u t : State) (words : List InsnWord) (e n : Nat) (pos next : Nat × Nat × Nat) : Prop where
  pc : (t.slot u.cur).pc = u.me.pc
  hold : (t.slot u.cur).hold = some (.frame words next.1 next.2.1 next.2.2 none)
  shows : t.ShowsFirst u.vk u.ix
  vc : t.vc u.vk = u.myVc.markFrame e n pos

theorem State.slotKey_vk_ix (s : State) : slotKey s.vk s.ix = s.cur := Nat.div_add_mod' s.cur 16

theorem State.framePresented_framePresented (u : State) (rs1 : XReg) (words : List InsnWord) (e n : Nat) (pos next : Nat × Nat × Nat) :
    FramePresented u (u.framePresented rs1 words e n pos next) words e n pos next := by
  let t := (u.updMyVc (fun v => v.markFrame e n pos)).updMe (fun sl =>
    ({ sl with hold := some (.frame words next.1 next.2.1 next.2.2 none) }).writeX rs1 (progressWord pos.1 pos.2.1 pos.2.2))
  have hp := t.progressed_frameProgress u.vk u.ix
  have hme : t.slot u.cur =
      ({ u.me with hold := some (.frame words next.1 next.2.1 next.2.2 none) }).writeX rs1 (progressWord pos.1 pos.2.1 pos.2.2) :=
    State.me_updMe ..
  rw [State.slotKey_vk_ix] at hp
  exact {
    pc := hp.pc.trans (by rw [hme, Slot.pc_writeX])
    hold := hp.hold.trans (by rw [hme, Slot.hold_writeX])
    shows := t.showsFirst_frameProgress u.vk u.ix
    vc := (State.vc_of_vcs hp.vcs u.vk).trans (u.vc_updVc_self u.vk (fun v => v.markFrame e n pos)) }

/-- The sequencer after an acceptance u: the frame has gone on, in the slot that presents (R125). -/
theorem exec_repfFramePresent_accepted {s u : State} {rs1 : XReg} {len : BitVec 4} {hs ws : BitVec 3} {words : List InsnWord} {c i h : Nat}
    {f : Instr} (hc : s.canPresent s.ev.key = true) (hi : decode (s.slot s.ev.key).insn = .ok (.repf rs1 len hs ws))
    (hh : (s.slot s.ev.key).hold = some (.frame words c i h none)) (hf : decode (words.getD i 0) = .ok f)
    (ha : ({ s with cur := s.ev.key }).acceptW (stagger f (BitVec.ofNat 3 (h * hs.toNat)) (BitVec.ofNat 3 (h * ws.toNat))) = .ok u) :
    ∃ t : State, exec .repfFramePresent s = .next { t with cur := s.cur } ∧ Accepted { s with cur := s.ev.key } u ∧
      FramePresented u t words ((wGroup f).getD 0) ((s.vc (s.ev.key / 16)).queueOf ((wGroup f).getD 0)).length (c, i, h)
        (nextPos (len.toNat + 1) c i h) :=
  ⟨u.framePresented rs1 words _ _ (c, i, h) (nextPos (len.toNat + 1) c i h), by rw [exec_repfFramePresent hc hi hh hf, ha]; rfl,
    (State.keeps_acceptW _ _).of_ok u ha, u.framePresented_framePresented ..⟩

/-! The ends of operations, and the interrupt at the REPF. -/

theorem exec_matrixEngineComplete_endRun {s : State} {r : Running} (hc : s.matrixCanEnd s.ev.key = true)
    (hr : (s.vc s.ev.key).runOf 0 = some r) : ∃ u : State, exec .matrixEngineComplete s = .next ((u.endRun s.ev.key 0 r.entry).updVc s.ev.key
      (fun v => { v with bank := if v.swaps % 2 == 1 then !v.bank else v.bank, swaps := 0 })) := by
  refine ⟨?_, ?_⟩
  rotate_left
  · show execMatrixEngineComplete s = _
    simp only [execMatrixEngineComplete, hc, hr]
    rfl

theorem exec_vectorEngineComplete_endRun {s : State} {r : Running} {f : Instr} {x : VArgs} (hc : s.vectorCanEnd s.ev.key = true)
    (hr : (s.vc s.ev.key).runOf 1 = some r) (hf : decode r.entry.word = .ok f) (hx : vecArgs f = some x) :
    ∃ u : State, exec .vectorEngineComplete s = .next (u.endRun s.ev.key 1 r.entry) := by
  refine ⟨?_, ?_⟩
  rotate_left
  · show execVectorEngineComplete s = _
    simp only [execVectorEngineComplete, hc, hr, hf, hx]
    rfl

theorem State.showsFirst_endRun (s : State) (vk e : Nat) (q : QEntry) : (s.endRun vk e q).ShowsFirst vk q.slot :=
  State.showsFirst_frameProgress _ vk q.slot

/-- SMI and SUP are taken as they are. -/
theorem exec_interruptTaken {s : State} {b : Nat} (hst : s.me.st = .issuing) (ht : s.me.takes = true) (ha : s.me.asyncReady = false)
    (hi : s.me.irq = some b) (hb : b = 1 ∨ b = 3) : exec .interruptTaken s = .next (s.interrupt (16 + b)) := by
  show execInterruptTaken s = _
  simp only [execInterruptTaken, hst, ht, ha, hi]
  rcases hb with rfl | rfl <;> rfl

/-- An interrupt enters its handler as a trap does, with bit 63 of mcause set and mtval 0 (R245). -/
theorem State.trapped_interrupt (s : State) (c : Nat) : Trapped s (s.interrupt c) (BitVec.ofNat 64 (2 ^ 63 + c)) 0 s.me.pc :=
  s.trapped_trap (2 ^ 63 + c) 0

/-- A frame none of whose accepted instructions is still to complete is left for a pending interrupt at its turn. -/
theorem State.slotTurn_of_frame {s : State} {words : List InsnWord} {c i h : Nat} {stop : Option (Nat × Word)}
    (hh : s.me.hold = some (.frame words c i h stop)) (hb : s.frameBusy s.cur = false) (hreply : s.me.reply = none) (hth : s.turnHold = none)
    (ha : s.me.asyncReady = false) (hirq : s.me.irqReady = true) : s.slotTurn = exec .interruptTaken s := by
  have hidle : s.repfIdle = true := by simp [State.repfIdle, hh, hb]
  have hopen : s.open_ = true := by simp [State.open_, State.between, hidle]
  have hleave : s.leaveFrame = s := by simp [State.leaveFrame, hh, hb]
  simp [State.slotTurn, hh, hreply, hth, ha, hirq, hopen, hleave]

/-- A turn named by the agenda is that of the first slot of turns. -/
theorem step_of_turn {s : State} {key : Nat} {rest : List Nat} (hboot : s.boot ≠ .rejected) (hagenda : s.agenda = [.turn])
    (hturns : s.turns = key :: rest) : step s = State.turn { s with agenda := [] } key rest := by
  simp [step, hboot, State.advance, hagenda, State.barrel, hturns]

/-- Settles O32: REPF at its turn by its hold, the sequencer by what becomes of the instruction it presents, the progress register by the
fold that finds the first open position. -/
theorem repeatFrame : Obligations.RepeatFrame := by
  intro s rs1 len hs ws words p n cnt ix ph after run good sl shows
  have next {i : Instr} {t u : State} (hi : exec i s = .next t) (ht : t = u) : exec i s = .next u := hi.trans (congrArg Host.Outcome.next ht)
  have hcnt : bits p 31 0 = cnt := by rw [bits, Nat.pow_zero, Nat.div_one]
  have hcap (hg : good) : s.captureFrame [] (len.toNat + 1) = .ok words := by
    obtain ⟨hlen, hw⟩ := hg
    have := s.captureFrame_of_words words [] (by rw [hlen]; simpa using hw)
    rwa [hlen] at this
  have hshows {t : State} {vk slot : Nat} (h : t.ShowsFirst vk slot) : shows t vk slot := fun c i k stop y => h words c i k stop y
  refine ⟨fun hh hix => ?_,
    fun hh hix hg hc => ⟨_, exec_repf_skipped hh hix (hcap hg) (hcnt.trans hc), s.did_retireTo after⟩,
    fun hh hix hg hc => ⟨_, exec_repf_captured hh hix (hcap hg) (hcnt.trans_ne hc), ?_⟩,
    fun i h hh hb => ⟨_, exec_repf_ended hh hb, s.did_retireTo after⟩,
    fun c i h e v hh hb => ⟨_, exec_repf_stopped hh hb, s.trapped_trap e v⟩,
    fun c i h f u hc hi hh hf ha => ?_, fun c i h f hc hi hh hf => ?_,
    fun hp => exec_repfFramePresent_of_not (s.canPresent_of_pending hp),
    fun c i h stop hh hb => exec_repf_busy hh hb,
    ?_,
    fun r hc hr => ?_, fun r f x hc hr hf hx => ?_⟩
  · obtain ⟨w, hw⟩ := encode_repf len hs ws (State.ne_x0_of_lt_bits (s := s) (hi := 35) (lo := 32) (Nat.lt_of_lt_of_le len.toNat.succ_pos hix))
    exact ⟨_, w, exec_repf_outside hh hix, hw, s.trapped_illegalI hw⟩
  · rw [hcnt, show bits p 35 32 = ix from rfl, show bits p 38 36 = ph from rfl]
    have hme := s.me_updMe (fun sl => { sl with hold := some (.frame words cnt ix ph none) })
    exact ⟨by rw [hme], by rw [hme], by rw [hme], fun k hk => State.slot_updMe_ne _ _ hk, rfl⟩
  · obtain ⟨t, ht, hu, hf'⟩ := exec_repfFramePresent_accepted hc hi hh hf ha
    have hcur : u.cur = s.ev.key := hu.cur
    have hvk : u.vk = s.ev.key / 16 := congrArg (· / 16) hcur
    have hix : u.ix = s.ev.key % 16 := congrArg (· % 16) hcur
    refine ⟨_, ht, rfl, ?_, ?_, ?_, fun d z hd hq => ?_⟩
    · rw [← hcur]; exact hf'.pc.trans hu.pc
    · rw [← hcur]
      refine hf'.hold.trans (congrArg some ?_)
      rw [nextPos]; split <;> rfl
    · rw [← hvk, ← hix]
      exact hshows (hf'.shows.congr rfl (fun _ => rfl))
    · have hvc : t.vc (s.ev.key / 16) = _ := hvk ▸ hf'.vc
      rw [hd, State.myVc, hvk] at hvc
      exact (congrArg (VCore.queueOf · d) hvc).trans (VCore.queueOf_markFrame hq (c, i, h))
  · have hx := exec_repfFramePresent hc hi hh hf
    refine ⟨fun ha => next hx (congrArg _ ha), fun k room ha => next hx (congrArg _ ha), fun e v ha => ⟨_, next hx (congrArg _ ha), ?_⟩⟩
    exact ⟨State.slot_updSlot_self .., fun k hk => State.slot_updSlot_ne _ _ hk, rfl⟩
  · intro c i h stop rest b hboot hagenda hturns u hst hat hh hreply hb hth ha ht hirq hb13
    have hirqReady : u.me.irqReady = true := by rw [Slot.irqReady, ht, hirq]; rfl
    have hturn : u.slotTurn = .next (u.interrupt (16 + b)) :=
      (State.slotTurn_of_frame hh hb hreply hth ha hirqReady).trans (exec_interruptTaken hst ht ha hirq hb13)
    have hrun : (u.me.st == .issuing && u.atTurn s.ev.key) = true := by rw [hst, hat]; rfl
    refine ⟨u.interrupt (16 + b), ?_, ?_⟩
    · calc step s = State.turn { s with agenda := [] } s.ev.key rest := step_of_turn hboot hagenda hturns
        _ = andThen u.slotTurn (fun t => t.afterTurn s.ev.key u.me.pc) := if_pos hrun
        _ = .next ((u.interrupt (16 + b)).afterTurn s.ev.key u.me.pc) := by rw [hturn]; rfl
    · rw [Nat.add_assoc]; exact u.trapped_interrupt (16 + b)
  · obtain ⟨u, hu⟩ := exec_matrixEngineComplete_endRun hc hr
    exact ⟨_, hu, hshows ((u.showsFirst_endRun s.ev.key 0 r.entry).congr rfl (fun e => by rw [State.vc_updVc_self]; rfl))⟩
  · obtain ⟨u, hu⟩ := exec_vectorEngineComplete_endRun hc hr hf hx
    exact ⟨_, hu, hshows (u.showsFirst_endRun s.ev.key 1 r.entry)⟩

end Sys2Proof.Machine
end

section
/-! PROOFS. LAUNCH at its queue and the end of its gang: the fetch and its checks, the request, the release, GANG_END. -/

namespace Sys2Proof.Machine

open Sys2Proof.Claim

/-! What reading and writing through translations leave of the queues and the gangs. -/

/-- The queues and the gangs are the same. -/
structure SameQueues (s t : State) : Prop where
  queues : t.queues = s.queues
  gangs : t.gangs = s.gangs

theorem SameQueues.refl (s : State) : SameQueues s s := ⟨rfl, rfl⟩

theorem SameQueues.trans {s t u : State} (h : SameQueues s t) (k : SameQueues t u) : SameQueues s u :=
  ⟨k.queues.trans h.queues, k.gangs.trans h.gangs⟩

theorem SameQueues.queue {s t : State} (h : SameQueues s t) (k : Nat) : t.queue k = s.queue k := by rw [State.queue, h.queues]; rfl

theorem State.sameQueues_bindPage {s t : State} {die a lg : Nat} {e e2 : Word} (h : s.bindPage die a e lg = some (t, e2)) : SameQueues s t := by
  unfold State.bindPage at h
  split at h
  · cases h
  · cases h; exact ⟨rfl, rfl⟩

theorem State.sameQueues_leafOf {s t : State} {die fn va lg : Nat} {need : Need} {u : TlbAt} {e : Word}
    (h : s.leafOf die fn va need u = some (t, e, lg)) : SameQueues s t := by
  unfold State.leafOf at h
  split at h
  · obtain ⟨-, hx⟩ := Option.ite_none_right_eq_some.mp h
    cases hx; exact .refl s
  split at h
  · obtain ⟨-, hx⟩ := Option.ite_none_right_eq_some.mp h
    cases hx; exact ⟨rfl, rfl⟩
  split at h
  · cases h
  obtain ⟨-, hx⟩ := Option.ite_none_left_eq_some.mp h
  dsimp only at hx
  split at hx
  · split at hx
    · next hb => cases hx; exact (State.sameQueues_bindPage hb).trans ⟨rfl, rfl⟩
    · cases hx
  · cases hx; exact ⟨rfl, rfl⟩

theorem State.sameQueues_translate {s t : State} {die fn va a : Nat} {need : Need} {u : TlbAt}
    (h : s.translate die fn va need u = some (t, a)) : SameQueues s t := by
  unfold State.translate at h
  split at h
  · cases h
  next v e lg hl =>
  have hv := State.sameQueues_leafOf hl
  dsimp only at h
  split at h
  · cases h; exact hv
  · obtain ⟨-, hx⟩ := Option.ite_none_left_eq_some.mp h
    cases hx; exact hv
  · obtain ⟨-, hx⟩ := Option.ite_none_left_eq_some.mp h
    cases hx; exact hv
  · obtain ⟨-, hx⟩ := Option.ite_none_left_eq_some.mp h
    split at hx
    · cases hx
    next hl2 =>
    have hw := hv.trans (State.sameQueues_leafOf hl2)
    split at hx
    · cases hx; exact hw
    · obtain ⟨-, hy⟩ := Option.ite_none_left_eq_some.mp hx
      cases hy; exact hw
    · cases hx
  · cases h

theorem State.sameQueues_translateBytes {s t : State} {die fn va n : Nat} {need : Need} {u : TlbAt} {l : List Nat}
    (h : s.translateBytes die fn va need n u = some (t, l)) : SameQueues s t := by
  induction n generalizing s va l with
  | zero => cases h; exact .refl _
  | succ n ih =>
    unfold State.translateBytes at h
    split at h
    · cases h
    next hv =>
    split at h
    · next hr => cases h; exact (State.sameQueues_translate hv).trans (ih hr)
    · cases h

theorem State.sameQueues_readVaWords {s t : State} {die fn va n : Nat} {l : List Word} (h : s.readVaWords die fn va n = some (t, l)) :
    SameQueues s t := by
  obtain ⟨r, hr, hrt⟩ := Option.map_eq_some_iff.mp h
  obtain ⟨q, hq, hqr⟩ := Option.map_eq_some_iff.mp hr
  cases hqr; cases hrt
  exact State.sameQueues_translateBytes hq

theorem State.sameQueues_walkPages {s t : State} {f : Nat} {l : List Nat} (h : s.walkPages f l = some t) : SameQueues s t := by
  induction l generalizing s with
  | nil => cases h; exact .refl _
  | cons a l ih =>
    unfold State.walkPages at h
    split at h
    · cases h
    · next hv => exact (State.sameQueues_translate hv).trans (ih h)

theorem State.sameQueues_readExtents {s t : State} {f : Nat} {l : List (Nat × Nat)} {o : Option Nat} (h : s.readExtents f l = (t, o)) :
    SameQueues s t := by
  induction l generalizing s with
  | nil => cases h; exact .refl _
  | cons x l ih =>
    unfold State.readExtents at h
    split at h
    · cases h; exact ⟨rfl, rfl⟩
    · next hv => exact (State.sameQueues_walkPages hv).trans (ih h)

theorem State.sameQueues_cpWrite {s t : State} {f a : Nat} {va : Bool} {bs : List Byte} (h : s.cpWrite f va a bs = some t) :
    SameQueues s t := by
  unfold State.cpWrite at h
  split at h
  · obtain ⟨r, hr, rfl⟩ := Option.map_eq_some_iff.mp h
    exact (State.sameQueues_translateBytes hr).trans ⟨rfl, rfl⟩
  · obtain ⟨-, hx⟩ := Option.ite_none_left_eq_some.mp h
    cases hx; exact ⟨rfl, rfl⟩

/-- A rejected packet stops its queue at it (R283). -/
structure Rejected (s t : State) (k : Nat) : Prop where
  front : (t.queue k).front = none
  stopped : (t.queue k).stopped = true
  head : (t.queue k).head = (s.queue k).head
  gangs : t.gangs = s.gangs

theorem State.rejected_reject (s : State) (k cause type check addr : Nat) (data : List Word) :
    Rejected s (s.reject k cause type check addr data) k := by
  obtain ⟨u, hu, hs⟩ : ∃ u : State, SameQueues s u ∧ s.reject k cause type check addr data =
      ((u.updQueue k (fun q => { q with stopped := true })).fire (k / 32) 32).updQueue k (fun q => { q with front := none, skip := true }) := by
    refine ⟨_, ?_, rfl⟩
    cases h : s.cpWrite (k / 32) (s.queue k).memva ((s.queue k).ebase * 64)
      (bytesOfWords (errorWords cause type ((s.queue k).head % (s.queue k).count) check (BitVec.ofNat 64 addr) data)) with
    | none => exact ⟨rfl, rfl⟩
    | some t => exact State.sameQueues_cpWrite h
  have hq : (s.reject k cause type check addr data).queue k = { s.queue k with stopped := true, front := none, skip := true } := by
    have hfire : ((u.updQueue k (fun q => { q with stopped := true })).fire (k / 32) 32).queue k = { u.queue k with stopped := true } :=
      (u.queue_updQueue k k (fun q => { q with stopped := true })).trans (if_pos rfl)
    rw [hs, State.queue_updQueue, if_pos rfl, hfire, hu.queue]
  exact { front := by rw [hq], stopped := by rw [hq], head := by rw [hq], gangs := by rw [hs]; exact hu.gangs }

/-! PACKET_FETCH of a LAUNCH. -/

/-- The packet at the head of a queue in host memory. -/
def State.headPacket (s : State) (k : Nat) : Packet :=
  { index := (s.queue k).head % (s.queue k).count,
    words := wordsOfBytes (Memory.bytes s.mem (hostAddr ((s.queue k).base * 128 + 64 * ((s.queue k).head % (s.queue k).count))) 64) }

/-- What a packet's verdict makes of its queue. -/
def Verdict.fetched (k : Nat) (z : Packet) : Verdict → State
  | .good u p => u.updQueue k (fun q => { q with front := some p })
  | .bad u c addr check => u.reject k c z.type check addr (z.words.take 4)

theorem exec_packetFetch_host {s : State} (hsvc : s.svc ≠ 0) (hc : (s.queue s.ev.key).canFetch = true)
    (hm : (s.queue s.ev.key).memva = false) (hf : s.hostFail = false) :
    exec .packetFetch s = .next ((s.validate s.ev.key (s.headPacket s.ev.key)).fetched s.ev.key (s.headPacket s.ev.key)) := by
  have hread (f a n : Nat) : s.cpRead f (s.queue s.ev.key).memva a n = some (s, Memory.bytes s.mem (hostAddr a) n) := by
    simp [State.cpRead, hm, hf]
  show execPacketFetch s = _
  simp only [execPacketFetch, beq_false_of_ne hsvc, hc, hread, Bool.not_true, Bool.or_false, Bool.false_eq_true, if_false]
  unfold State.headPacket
  cases s.validate s.ev.key _ <;> rfl

theorem State.validate_launch {s : State} {k : Nat} {z : Packet} (hz : s.malformed z = false) (ho : (s.queue k).opmask.getLsbD z.type = true)
    (ht : z.type = 1) : s.validate k z = s.launchRanges k z := by
  have ho' : (s.queue k).opmask.getLsbD 1 = true := ht ▸ ho
  simp [State.validate, hz, ho', ht]

/-- A LAUNCH whose image is read comes to its launch checks (R286). -/
theorem State.launchRanges_of_read {s u v y : State} {k : Nat} {z : Packet} {hw ps : List Word}
    (ha : (s.queue k).outside [(0, z.image, 64)] = none) (hr : s.readVaWords (k / 32) (k / 32) z.image 8 = some (u, hw))
    (hx : (s.queue k).outside (((headerOf hw).extents z.image).map (fun e => (0, e.1, e.2))) = none)
    (hp : u.readVaWords (k / 32) (k / 32) (z.image + (headerOf hw).poff) (headerOf hw).pcnt = some (v, ps))
    (he : v.readExtents (k / 32) [(z.image + 64, (headerOf hw).tsize), (z.image + (headerOf hw).doff, (headerOf hw).dsize)] = (y, none)) :
    s.launchRanges k z =
      if y.launchCheck (k / 32) { z with header := hw, patches := ps } != 0 then
        .bad y 5 0 (y.launchCheck (k / 32) { z with header := hw, patches := ps })
      else .good y { z with header := hw, patches := ps, die := y.launchDie { z with header := hw, patches := ps } } := by
  simp only [State.launchRanges, ha, hr, hx, hp, he]

/-! LAUNCH_PACKET. -/

theorem exec_launchPacket {s : State} {p : Packet} (hr : s.ripe s.ev.key [1] = some p) (hs : p.step = 0) : exec .launchPacket s =
    .next (s.freshId.2.updQueue s.ev.key (fun q => { q with front := some { p with step := 1, stamp := s.freshId.1 } })) := by
  show execLaunchPacket s = _
  simp [execLaunchPacket, hr, hs]

/-! GANG_RELEASE_AT_CORE. -/

/-- Requests for lines change the dies alone. -/
structure LinesWanted (s t : State) : Prop where
  rest : { t with dies := s.dies } = s

theorem LinesWanted.refl (s : State) : LinesWanted s s := ⟨rfl⟩

theorem LinesWanted.eq {s t : State} (h : LinesWanted s t) : t = { s with dies := t.dies } := by rw [← h.rest]

theorem LinesWanted.trans {s t u : State} (h : LinesWanted s t) (k : LinesWanted t u) : LinesWanted s u :=
  ⟨by rw [k.eq, h.eq]⟩

theorem State.linesWanted_wantLine (s : State) (key : Nat) : LinesWanted s (s.wantLine key) := by
  obtain h | ⟨line, h⟩ := s.wantLine_cases key <;> rw [h]
  · exact .refl s
  · exact ⟨rfl⟩

theorem State.linesWanted_wantLines (s : State) (vk : Nat) : LinesWanted s (s.wantLines vk) := by
  have hfold (l : List (Nat × Slot)) (t : State) : LinesWanted t (l.foldl (fun t p => t.wantLine p.1) t) := by
    induction l generalizing t with
    | nil => exact .refl t
    | cons p l ih => exact (t.linesWanted_wantLine p.1).trans (ih _)
  exact hfold _ s

/-- Virtual cores for which no hold is asked start with requests for their lines. -/
theorem State.linesWanted_foldl_start {s : State} {l : List Nat} (h : ∀ vk ∈ l, (s.vc vk).holds = []) :
    LinesWanted s (l.foldl (fun t k => (t.wantLines k).sweep k) s) := by
  induction l generalizing s with
  | nil => exact .refl s
  | cons vk l ih =>
    have hw := s.linesWanted_wantLines vk
    have hvc (k : Nat) : (s.wantLines vk).vc k = s.vc k := by rw [hw.eq]; rfl
    obtain ⟨hvk, hl⟩ := List.forall_mem_cons.mp h
    rw [List.foldl_cons, State.sweep_of_no_holds ((congrArg VCore.holds (hvc vk)).trans hvk)]
    exact hw.trans (ih (fun k hk => (congrArg VCore.holds (hvc k)).trans (hl k hk)))

theorem FMap.getD_map_of_mem {α : Type} {m : FMap α} {j : Nat} (h : FMap.get? m j ≠ none) (f : Nat → α → α) (d : α) :
    FMap.getD (m.map (fun p => (p.1, f p.1 p.2))) j d = f j (FMap.getD m j d) := by
  induction m with
  | nil => exact absurd rfl h
  | cons p t ih =>
    unfold FMap.getD at ih ⊢
    simp only [List.map_cons, FMap.get?_cons] at h ⊢
    by_cases e : p.1 = j
    · subst e; simp
    · simpa [e] using ih (by simpa [e] using h)

/-- A release of a gang starts this slot at a core: one of the launch mask, of a virtual core of the gang there (R288). -/
def State.starts (s : State) (gid c k : Nat) : Bool :=
  ((s.hosted c).filter (fun k => (s.vc k).gid == gid)).contains (k / 16) && (s.gang gid).lmask / 2 ^ (k % 16) % 2 == 1

/-- The slots that a release starts at a core. -/
def State.started (s : State) (gid c : Nat) : State := s.mapSlots (fun k sl => if s.starts gid c k then { sl with st := .issuing } else sl)

theorem State.slot_started {s : State} {gid c j : Nat} (hj : FMap.get? s.slots j ≠ none) (hs : s.starts gid c j = true) :
    (s.started gid c).slot j = { s.slot j with st := .issuing } :=
  (FMap.getD_map_of_mem hj (fun k sl => if s.starts gid c k then { sl with st := .issuing } else sl) {}).trans (if_pos hs)

/-- A release starts the slots; then lines are requested, and the gang and its queue go on. -/
theorem exec_gangReleaseAtCore {s : State} (hr : s.releasable s.ev.ix s.ev.key = true) (hh : ∀ vk ∈ s.hosted s.ev.key, (s.vc vk).holds = []) :
    ∃ t : State, exec .gangReleaseAtCore s = .next t ∧ t.mem = s.mem ∧ t.slots = (s.started s.ev.ix s.ev.key).slots := by
  have hw : LinesWanted (s.started s.ev.ix s.ev.key) _ :=
    State.linesWanted_foldl_start (l := (s.hosted s.ev.key).filter (fun k => (s.vc k).gid == s.ev.ix))
      (fun vk hvk => hh vk (List.mem_filter.mp hvk).1)
  have hissue (u : State) : (u.issueLaunch s.ev.ix).mem = u.mem ∧ (u.issueLaunch s.ev.ix).slots = u.slots := by
    unfold State.issueLaunch
    dsimp only
    split <;> exact ⟨rfl, rfl⟩
  refine ⟨_, (by show execGangReleaseAtCore s = _; simp only [execGangReleaseAtCore, hr, Bool.not_true, Bool.false_eq_true, if_false]; rfl),
    (hissue _).1.trans ?_, (hissue _).2.trans ?_⟩
  · exact (congrArg State.mem hw.eq :)
  · exact (congrArg State.slots hw.eq :)

/-! GANG_END. -/

/-- Answers to those that wait change the messages on their way alone. -/
structure Answered (s t : State) : Prop where
  rest : { t with net := s.net } = s

theorem Answered.refl (s : State) : Answered s s := ⟨rfl⟩

theorem Answered.eq {s t : State} (h : Answered s t) : t = { s with net := t.net } := by rw [← h.rest]

theorem Answered.trans {s t u : State} (h : Answered s t) (k : Answered t u) : Answered s u := ⟨by rw [k.eq, h.eq]⟩

theorem State.answered_answerError (s : State) (m : Msg) (e : BitVec 16) : Answered s (s.answerError m e) := by
  unfold State.answerError
  split
  · exact ⟨rfl⟩
  · exact ⟨rfl⟩
  · exact ⟨rfl⟩
  · exact ⟨rfl⟩
  · exact ⟨rfl⟩
  · exact ⟨rfl⟩
  · exact ⟨rfl⟩
  · split <;> exact ⟨rfl⟩
  · split <;> exact ⟨rfl⟩
  · exact .refl s

/-- A fold of steps that answer answers. -/
theorem Answered.foldl {α : Type} {f : State → α → State} (h : ∀ t a, Answered t (f t a)) (l : List α) (s : State) : Answered s (l.foldl f s) := by
  induction l generalizing s with
  | nil => exact .refl s
  | cons a l ih => exact (h s a).trans (ih _)

theorem State.answered_answerWaiting (s : State) (vk : Nat) : Answered s (s.answerWaiting vk) :=
  (Answered.foldl (f := fun t (w : FarWait) => t.answer (.vc vk) w.src (.loadReply w.id w.slot nvcBit 0)) (fun _ _ => ⟨rfl⟩) _ s).trans (Answered.foldl (fun t (h : Held) => t.answered_answerError h.msg nvcBit) _ _)

/-- What a gang that leaves the package leaves: no gang; its virtual cores ended, with what their EMPTY slots and they held (R105). -/
structure Dropped (s t : State) (gid : Nat) : Prop where
  gang : t.gang? gid = none
  mem : t.mem = s.mem
  slots : t.slots = s.slots
  queues : t.queues = s.queues
  vc : ∀ vk, t.vc vk = if vk / 65536 = gid then (s.vc vk).ended_ else s.vc vk

theorem State.dropped_dropGang (s : State) (gid : Nat) : Dropped s (s.dropGang gid) gid := by
  obtain ⟨u, hu, hg⟩ : ∃ u : State, { u with net := s.net, groups := s.groups, vgroups := s.vgroups } = s ∧ s.dropGang gid = { u with
      gangs := FMap.del u.gangs gid,
      vcs := u.vcs.map (fun (p : Nat × VCore) => (p.1, if p.1 / 65536 == gid then p.2.ended_ else p.2)),
      migs := u.migs.filter (fun (p : Nat × Nat) => !(p.1 / 65536 == gid)),
      migQ := u.migQ.filter (fun k => !(k / 65536 == gid)),
      cores := u.cores.map (fun (p : Nat × PCore) => (p.1, { p.2 with
        owner := p.2.owner.filter (fun (q : Nat × Nat) => !(q.2 / 65536 == gid)), saving := p.2.saving.filter (fun k => !(k / 65536 == gid)) })),
      dies := u.dies.map (fun (p : Nat × Die) => (p.1, { p.2 with
        icache := p.2.icache.filter (fun c => c.gid != gid), reqs := p.2.reqs.filter (fun r => r.gid != gid) })) } := by
    refine ⟨_, ?_, rfl⟩
    have ha := Answered.foldl State.answered_answerWaiting (s.vcsOf gid) s
    split
    · rw [State.dropGroup, ha.eq]
    · rw [ha.eq]
  have hvc (vk : Nat) : u.vc vk = s.vc vk := State.vc_of_vcs (congrArg State.vcs hu :) vk
  rw [hg]
  exact {
    gang := FMap.get?_del_self ..
    mem := (congrArg State.mem hu :)
    slots := (congrArg State.slots hu :)
    queues := (congrArg State.queues hu :)
    vc := fun vk => by
      refine (FMap.getD_map u.vcs (fun k v => if k / 65536 == gid then v.ended_ else v) vk {} (by split <;> rfl)).trans ?_
      rw [← hvc vk]
      simp only [beq_iff_eq]; rfl }

/-- The status of the completion of a gang's LAUNCH (R269, R291): terminated, ended with errors, or without. -/
def State.endStatus (s : State) (gid : Nat) : Nat :=
  if (s.gang gid).terminated || (s.gang gid).partly then 2 else if (s.endSummary gid).bits != 0 then 1 else 0

theorem State.endStatus_eq (s : State) (gid : Nat) : s.endStatus gid =
    if (s.gang gid).terminated = true ∨ (s.gang gid).partly = true then 2 else if (s.endSummary gid).bits ≠ 0 then 1 else 0 := by
  simp only [State.endStatus, Bool.or_eq_true, bne_iff_ne]

theorem exec_gangEnd {s : State} (hd : s.gangDone s.ev.key = true) (hs : (s.gang s.ev.key).silent = false) : exec .gangEnd s =
    .next (({ s.dropGang s.ev.key with free := s.free + 2 }).updQueue (queueKey (s.gang s.ev.key).func (s.gang s.ev.key).queue)
      (fun q => q.finish (s.launchPacket s.ev.key)
        ((s.launchPacket s.ev.key).completion (s.endStatus s.ev.key) s.ev.key (s.endSummary s.ev.key).sum))) := by
  show execGangEnd s = _
  simp only [execGangEnd, hd, hs, Bool.not_true, Bool.false_eq_true, if_false]
  rfl

/-- GANG_END: the gang has left, and its completion waits to post. -/
theorem exec_gangEnd_dropped {s : State} (hd : s.gangDone s.ev.key = true) (hs : (s.gang s.ev.key).silent = false) :
    ∃ t : State, exec .gangEnd s = .next t ∧ t.gang? s.ev.key = none ∧ t.mem = s.mem ∧ t.slots = s.slots ∧
      (∀ vk, vk / 65536 = s.ev.key → t.vc vk = (s.vc vk).ended_) ∧
      Posts s t (queueKey (s.gang s.ev.key).func (s.gang s.ev.key).queue) (s.launchPacket s.ev.key) (s.endStatus s.ev.key) s.ev.key
        (s.endSummary s.ev.key).sum := by
  have hdrop := s.dropped_dropGang s.ev.key
  have hqueue (k : Nat) : ({ s.dropGang s.ev.key with free := s.free + 2 }).queue k = s.queue k := by
    rw [State.queue, hdrop.queues]; rfl
  refine ⟨_, exec_gangEnd hd hs, hdrop.gang, hdrop.mem, hdrop.slots, fun vk hvk => (hdrop.vc vk).trans (if_pos hvk), _, ?_, rfl⟩
  rw [State.queue_updQueue, if_pos rfl, hqueue]; rfl

end Sys2Proof.Machine
end

section
/-! PROOFS. The arbiter's placement of a LAUNCH and the placement of its gang. -/

namespace Sys2Proof.Machine

open Sys2Proof.Claim

/-! Folds. -/

/-- What one element of a list sets and every element keeps holds after the fold. -/
theorem foldl_of_mem {α β : Type} {P : α → Prop} {f : α → β → α} {l : List β} {b : β} (hb : b ∈ l) (hset : ∀ t, P (f t b))
    (hkeep : ∀ t, ∀ c ∈ l, P t → P (f t c)) (t : α) : P (l.foldl f t) := by
  induction l generalizing t with
  | nil => cases hb
  | cons c l ih =>
    have hkeep' : ∀ t, ∀ c ∈ l, P t → P (f t c) := fun t d hd => hkeep t d (List.mem_cons_of_mem c hd)
    rcases List.mem_cons.mp hb with rfl | hl
    · exact List.foldlRecOn l f (hset t) (fun u hu d hd => hkeep' u d hd hu)
    · exact ih hl hkeep' (f t c)

/-- A change of each core of a list has been made on each of them. -/
theorem State.core_foldl_updCore {f : PCore → PCore} {P : PCore → Prop} (hP : ∀ x, P (f x)) {l : List Nat} {c : Nat} (hc : c ∈ l) (s : State) :
    P ((l.foldl (fun t c => t.updCore c f) s).core c) := by
  refine foldl_of_mem (P := fun t : State => P (t.core c)) hc (fun t => ?_) (fun t d _ ht => ?_) s
  · rw [State.core_updCore, if_pos rfl]; exact hP _
  · rw [State.core_updCore]
    split
    · exact hP _
    · exact ht

theorem State.foldl_updCore_eq (f : PCore → PCore) (l : List Nat) (s : State) :
    ∃ m, l.foldl (fun t c => t.updCore c f) s = { s with cores := m } := by
  induction l generalizing s with
  | nil => exact ⟨s.cores, rfl⟩
  | cons c l ih => exact ih (s.updCore c f)

/-! The arbiter with one request, that of a LAUNCH which can be placed. -/

/-- Dies may differ, but not in whether they are up nor in the rectangles fixed on them: the same places are free. -/
structure SameSites (s t : State) : Prop where
  rest : { t with dies := s.dies } = s
  up : ∀ d, (t.die d).up = (s.die d).up
  fixed : ∀ d, (t.die d).fixed = (s.die d).fixed

theorem SameSites.eq {s t : State} (h : SameSites s t) : t = { s with dies := t.dies } := by rw [← h.rest]

theorem SameSites.trans {s t u : State} (h : SameSites s t) (k : SameSites t u) : SameSites s u where
  rest := by rw [k.eq, h.eq]
  up d := (k.up d).trans (h.up d)
  fixed d := (k.fixed d).trans (h.fixed d)

theorem State.sameSites_updDie (s : State) (d : Nat) {f : Die → Die} (hup : ∀ x, (f x).up = x.up) (hfixed : ∀ x, (f x).fixed = x.fixed) :
    SameSites s (s.updDie d f) where
  rest := rfl
  up e := by
    rw [State.die_updDie]
    split
    · next h => rw [hup, h]
    · rfl
  fixed e := by
    rw [State.die_updDie]
    split
    · next h => rw [hfixed, h]
    · rfl

section
variable {s t : State}

theorem SameSites.queue (h : SameSites s t) (k : Nat) : t.queue k = s.queue k := by rw [h.eq]; rfl
theorem SameSites.freeGroup (h : SameSites s t) : t.freeGroup = s.freeGroup := by rw [h.eq]; rfl
theorem SameSites.newGid (h : SameSites s t) : t.newGid = s.newGid := by rw [h.eq]; rfl
theorem SameSites.oldestRequests (h : SameSites s t) (d : Nat) : t.oldestRequests d = s.oldestRequests d := by rw [h.eq]; rfl

theorem SameSites.coreFree (h : SameSites s t) (g : Nat) : t.coreFree g = s.coreFree g := by
  rw [State.coreFree, h.up, h.eq]; rfl

theorem SameSites.fixedAway (h : SameSites s t) (g : Nat) (k : Option Nat) : t.fixedAway g k = s.fixedAway g k := by
  rw [State.fixedAway, h.fixed]; rfl

theorem SameSites.launchRect (h : SameSites s t) (k : Nat) (p : Packet) : t.launchRect k p = s.launchRect k p := by
  simp only [State.launchRect, State.fixedFor, h.fixed, h.freeGroup, h.coreFree, h.fixedAway]

end

/-- A queue alone on its priority level is the one served (R294). -/
theorem roundRobin_singleton (k : Nat) (cost weight : Nat → Nat) (n : Nat) (m : FMap Nat) : (roundRobin [k] cost weight n m k).1 = k := by
  induction n generalizing m with
  | zero => rfl
  | succ n ih =>
    have hnext : nextAfter [k] k = k := by simp [nextAfter]
    rw [roundRobin]
    split
    · rw [hnext]; exact ih _
    · rfl

/-- One request is the one placed. -/
theorem State.arbitrate_singleton (s : State) (d : Nat) (r : Request) : ∃ t, SameSites s t ∧ s.arbitrate d [r] = t.placeRequest r := by
  have hS (p : Nat → Nat) : ([r].map Request.queue).filter (fun k => p k == ([r].map (fun r => p r.queue)).foldl max 0) = [r.queue] := by simp
  have hq (n : Nat) : ([r.queue].find? (fun k => decide (n ≤ k))).getD ([r.queue].headD 0) = r.queue := by
    rw [List.find?_singleton]; split <;> rfl
  unfold State.arbitrate
  simp only [hS, hq, roundRobin_singleton]
  simp only [List.find?_singleton, beq_self_eq_true, if_true]
  refine ⟨_, ?_, rfl⟩
  refine (s.sameSites_updDie d ?_ ?_).trans (State.sameSites_updDie _ d ?_ ?_) <;> exact fun _ => rfl

theorem State.fixedVictims_of_none {s : State} {d : Nat} (h : (s.die d).fixed = []) : s.fixedVictims d = s := by
  simp [State.fixedVictims, h]

/-- A LAUNCH that can be placed asks for no pre-emption (R295). -/
theorem State.preemptStep_of_placeable {s : State} {d : Nat} {r : Request} (hp : s.placeable r = true) (Q : List Request) :
    s.preemptStep d [r] Q = s := by
  have hu : s.unfixed d r = none := by
    unfold State.unfixed
    split
    · simp [hp]
    · rfl
  simp [State.preemptStep, hu]

/-- The only request of a die is placed at its boundary when it can be. -/
theorem exec_arbiterBoundary {s : State} {r : Request} (hdue : s.arbiterDue s.ev.key = true) (hr : s.oldestRequests s.ev.key = [r])
    (hfixed : (s.die s.ev.key).fixed = []) (hp : ∀ t, SameSites s t → t.placeable r = true) :
    ∃ t, SameSites s t ∧ exec .arbiterBoundary s = .next (t.placeRequest r) := by
  let u := s.updDie s.ev.key (fun x => { x with arbDone := x.cyc + 1 })
  have hu : SameSites s u := s.sameSites_updDie s.ev.key (fun _ => rfl) (fun _ => rfl)
  have hreq : u.oldestRequests s.ev.key = [r] := (hu.oldestRequests _).trans hr
  have hall : [r].filter u.placeable = [r] := by simp [hp u hu]
  obtain ⟨t, ht, ha⟩ := u.arbitrate_singleton s.ev.key r
  refine ⟨t, hu.trans ht, ?_⟩
  have hstep : exec .arbiterBoundary s = .next ((((u.preemptStep s.ev.key (u.oldestRequests s.ev.key)
      ((u.oldestRequests s.ev.key).filter u.placeable)).fixedVictims s.ev.key)).arbitrate s.ev.key ((u.oldestRequests s.ev.key).filter
        ((u.preemptStep s.ev.key (u.oldestRequests s.ev.key) ((u.oldestRequests s.ev.key).filter u.placeable)).fixedVictims s.ev.key).placeable)) := by
    show execArbiterBoundary s = _
    simp only [execArbiterBoundary, hdue, Bool.not_true, Bool.false_eq_true, if_false]
    rfl
  rw [hstep, hreq, State.preemptStep_of_placeable (hp u hu), State.fixedVictims_of_none ((hu.fixed _).trans hfixed), hall, ha]

/-! The cores, the gang and the group that a LAUNCH is given. -/

/-- What the placement of a LAUNCH reserves (R288, step 1). -/
structure Reserved (s t : State) (k : Nat) (p : Packet) (ox oy own : Nat) : Prop where
  gang : ∃ z, t.gang? s.newGid = some z ∧ z.die = p.die ∧ z.ox = ox ∧ z.oy = oy ∧ z.own = own ∧ z.func = k / 32 ∧ z.job = p.job
  valid : (t.group own).valid = true
  gid : (t.group own).gid = s.newGid
  front : (t.queue k).front = none
  head : (t.queue k).head = ((s.queue k).head + 1) % (s.queue k).count
  mem : t.mem = s.mem
  cores : ∀ c ∈ rectCores p.die ox oy (rectW p.hd.gw p.hd.fold) (rectH p.hd.gh p.hd.fold), (t.core c).reserved = true

/-- The gang is entered, the own group taken, each core reserved, and the queue goes on. -/
theorem State.reserve_eq (s : State) (k : Nat) (p : Packet) (ox oy own : Nat) : ∃ b : State,
    s.reserve k p ox oy own = (((rectCores p.die ox oy (rectW p.hd.gw p.hd.fold) (rectH p.hd.gh p.hd.fold)).foldl
      (fun t c => t.updCore c (fun x => { x with reserved := true }))
      (b.updGroup own (fun x => { x with valid := true, owner := k / 32, own := true, gid := s.newGid }))).updDie p.die
        (fun d => { d with fixed := d.fixed.filter (fun r => r.queue != k) })).updQueue k (fun q => { q with
          front := none, head := (q.head + 1) % q.count, issued := q.issued ++ [{ p with step := 2, gid := s.newGid }] }) ∧
    (∃ z, b.gang? s.newGid = some z ∧ z.die = p.die ∧ z.ox = ox ∧ z.oy = oy ∧ z.own = own ∧ z.func = k / 32 ∧ z.job = p.job) ∧
    b.mem = s.mem ∧ b.queues = s.queues :=
  ⟨_, rfl, ⟨_, (FMap.get?_set ..).trans (if_pos rfl), rfl, rfl, rfl, rfl, rfl, rfl⟩, rfl, rfl⟩

theorem State.reserved_reserve (s : State) (k : Nat) (p : Packet) (ox oy own : Nat) : Reserved s (s.reserve k p ox oy own) k p ox oy own := by
  obtain ⟨b, he, ⟨z, hgang, hz⟩, hmem, hqueues⟩ := s.reserve_eq k p ox oy own
  let u := b.updGroup own (fun x => { x with valid := true, owner := k / 32, own := true, gid := s.newGid })
  have hgroup : u.group own = { b.group own with valid := true, owner := k / 32, own := true, gid := s.newGid } :=
    (b.group_updGroup own own _).trans (if_pos rfl)
  have hgid : (u.group own).gid = s.newGid := by rw [hgroup]
  have hcores := fun c hc => State.core_foldl_updCore (f := fun x => { x with reserved := true }) (P := fun x => x.reserved = true)
    (fun _ => rfl) (l := rectCores p.die ox oy (rectW p.hd.gw p.hd.fold) (rectH p.hd.gh p.hd.fold)) (c := c) hc u
  obtain ⟨m, hm⟩ := State.foldl_updCore_eq (fun x => { x with reserved := true })
    (rectCores p.die ox oy (rectW p.hd.gw p.hd.fold) (rectH p.hd.gh p.hd.fold)) u
  rw [he]
  generalize List.foldl _ u _ = v at hm hcores ⊢
  have hvgang : v.gang? s.newGid = some z := by rw [hm]; exact hgang
  have hgroups : v.group own = u.group own := by rw [hm]; rfl
  have hvqueue : v.queue k = s.queue k := by rw [hm, State.queue, State.queue, ← hqueues]; rfl
  have hvmem : v.mem = b.mem := by rw [hm]; rfl
  have hqueue (f : Queue → Queue) : ((v.updDie p.die (fun d => { d with fixed := d.fixed.filter (fun r => r.queue != k) })).updQueue k f).queue k =
      f (v.queue k) := (State.queue_updQueue _ k k f).trans (if_pos rfl)
  exact {
    gang := ⟨z, hvgang, hz⟩
    valid := congrArg Group.valid (hgroups.trans hgroup)
    gid := (congrArg Group.gid hgroups).trans hgid
    front := congrArg Queue.front (hqueue _)
    head := (congrArg Queue.head (hqueue _)).trans (by rw [hvqueue])
    mem := hvmem.trans hmem
    cores := hcores }

/-- The only request of a die, that of a LAUNCH with a place for it, is placed. -/
theorem exec_arbiterBoundary_launch {s : State} {p : Packet} {k x y own : Nat} {r : Request} (hdue : s.arbiterDue s.ev.key = true)
    (hr : s.oldestRequests s.ev.key = [r]) (hformer : r.former = none) (hk : r.queue = k) (hp : (s.queue k).front = some p)
    (hfixed : (s.die s.ev.key).fixed = []) (hrect : s.launchRect k p = some (x, y)) (hown : s.freeGroup = some own) :
    ∃ t, SameSites s t ∧ exec .arbiterBoundary s = .next (t.reserve k p x y own) := by
  subst hk
  have hplaceable (t : State) (ht : SameSites s t) : t.placeable r = true := by
    simp only [State.placeable, hformer, ht.queue, hp, ht.launchRect, hrect, Option.isSome_some]
  obtain ⟨t, ht, hstep⟩ := exec_arbiterBoundary hdue hr hfixed hplaceable
  refine ⟨t, ht, hstep.trans (congrArg _ ?_)⟩
  simp only [State.placeRequest, hformer, ht.queue, hp, ht.launchRect, hrect, ht.freeGroup, hown]

/-! The virtual cores of a gang. -/

/-- The core of a virtual core of a gang, and its place in the fold. -/
def Gang.place (g : Gang) (n : Nat) : Nat × Nat := corePlace g.die g.ox g.oy g.gw g.fold n

/-- The first byte of its segment. -/
def Gang.base (g : Gang) (n : Nat) : Nat := if g.fold == 0 then 0 else (g.place n).2 * (g.lmlimit + ctxE)

/-- The place of a virtual core lies in the rectangle of its gang (R287). -/
theorem Gang.place_mem_rectCores {g : Gang} {n : Nat} (h : n < g.gw * g.gh) :
    (g.place n).1 ∈ rectCores g.die g.ox g.oy (rectW g.gw g.fold) (rectH g.gh g.fold) := by
  have hw : 0 < g.gw := Nat.pos_of_mul_pos_right (Nat.zero_lt_of_lt h)
  have hx : n % g.gw < g.gw := Nat.mod_lt n hw
  have hy : n / g.gw < g.gh := Nat.div_lt_of_lt_mul h
  have hcol : n % g.gw / (if g.fold == 0 then 1 else 2) < rectW g.gw g.fold := by
    unfold rectW; split <;> omega
  have hrow : n / g.gw / (if g.fold == 2 then 2 else 1) < rectH g.gh g.fold := by
    unfold rectH; split <;> omega
  exact List.mem_flatMap.mpr ⟨_, List.mem_range.mpr hrow, List.mem_map.mpr ⟨_, List.mem_range.mpr hcol, rfl⟩⟩

/-- Slot j of a virtual core of a gang at launch, its pc at the entry. -/
def Gang.slotAt (g : Gang) (entry n j : Nat) : Slot := { launchSlot g (g.base n) j with pc := BitVec.ofNat 64 (g.image + 64 + entry) }

/-- A virtual core as it is launched (R23, R25, R289). -/
structure VcLaunched (t : State) (gid : Nat) (g : Gang) (entry n : Nat) : Prop where
  vc : t.vc (vkey gid n) = {
    gid := gid, vcid := n, live := true, place := some (g.place n).1, fold := g.fold, fidx := (g.place n).2, base := g.base n,
    groups := g.own :: g.symbols, supmbox := g.supmbox, srkey := launchKey g.job n }
  slot : ∀ j < 16 / 2 ^ g.fold, t.slot (slotKey (vkey gid n) j) = g.slotAt entry n j

theorem VcLaunched.congr {s t : State} {gid entry n : Nat} {g : Gang} (h : VcLaunched s gid g entry n) (hvcs : t.vcs = s.vcs)
    (hslots : t.slots = s.slots) : VcLaunched t gid g entry n where
  vc := (State.vc_of_vcs hvcs _).trans h.vc
  slot j hj := (State.slot_of_slots hslots _).trans (h.slot j hj)

theorem slotKey_inj {vk vl i j : Nat} (hi : i < 16) (hj : j < 16) (h : slotKey vk i = slotKey vl j) : vk = vl ∧ i = j := by
  unfold slotKey at h; omega

theorem State.foldl_setSlot_eq (key : Nat → Nat) (x : Nat → Slot) (l : List Nat) (s : State) :
    ∃ m, l.foldl (fun t j => t.setSlot (key j) (x j)) s = { s with slots := m } := by
  induction l generalizing s with
  | nil => exact ⟨s.slots, rfl⟩
  | cons c l ih => exact ih (s.setSlot (key c) (x c))

/-- The launch of a virtual core enters it, then its slots. -/
theorem State.launchVc_eq (s : State) (gid : Nat) (g : Gang) (entry : Nat) (data : List Byte) (n : Nat) : ∃ u : State,
    s.launchVc gid g entry data n =
      (List.range (16 / 2 ^ g.fold)).foldl (fun t j => t.setSlot (slotKey (vkey gid n) j) (g.slotAt entry n j)) u ∧
    u.slots = s.slots ∧ u.vcs = FMap.set s.vcs (vkey gid n) {
      gid := gid, vcid := n, live := true, place := some (g.place n).1, fold := g.fold, fidx := (g.place n).2, base := g.base n,
      groups := g.own :: g.symbols, supmbox := g.supmbox, srkey := launchKey g.job n } := by
  refine ⟨_, rfl, ?_, ?_⟩
  · split <;> rfl
  · refine congrArg (FMap.set · (vkey gid n) _) ?_
    split <;> rfl

theorem lt_sixteen_of_mem_range {f j : Nat} (h : j ∈ List.range (16 / 2 ^ f)) : j < 16 :=
  Nat.lt_of_lt_of_le (List.mem_range.mp h) (Nat.div_le_self 16 _)

theorem State.vcLaunched_launchVc (s : State) (gid : Nat) (g : Gang) (entry : Nat) (data : List Byte) (n : Nat) :
    VcLaunched (s.launchVc gid g entry data n) gid g entry n := by
  obtain ⟨u, he, -, hvcs⟩ := s.launchVc_eq gid g entry data n
  rw [he]
  exact {
    vc := by
      obtain ⟨m, hm⟩ := State.foldl_setSlot_eq (slotKey (vkey gid n)) (g.slotAt entry n) (List.range (16 / 2 ^ g.fold)) u
      rw [hm, State.vc]
      show FMap.getD u.vcs _ _ = _
      rw [hvcs, FMap.getD_set_self]
    slot := fun j hj => by
      refine foldl_of_mem (P := fun t : State => t.slot (slotKey (vkey gid n) j) = g.slotAt entry n j) (List.mem_range.mpr hj)
        (fun t => ?_) (fun t i hi ht => ?_) u
      · rw [State.slot_setSlot, if_pos rfl]
      · rw [State.slot_setSlot]
        split
        · next e => rw [(slotKey_inj (lt_sixteen_of_mem_range (List.mem_range.mpr hj)) (lt_sixteen_of_mem_range hi) e).2]
        · exact ht }

/-- The launch of another virtual core leaves it. -/
theorem VcLaunched.launchVc {s : State} {gid entry n m : Nat} {g : Gang} (h : VcLaunched s gid g entry n) (data : List Byte) (hne : n ≠ m) :
    VcLaunched (s.launchVc gid g entry data m) gid g entry n := by
  have hkey : vkey gid n ≠ vkey gid m := fun e => hne (Nat.add_left_cancel e)
  obtain ⟨u, he, hslots, hvcs⟩ := s.launchVc_eq gid g entry data m
  rw [he]
  exact {
    vc := by
      obtain ⟨x, hx⟩ := State.foldl_setSlot_eq (slotKey (vkey gid m)) (g.slotAt entry m) (List.range (16 / 2 ^ g.fold)) u
      rw [hx, State.vc]
      show FMap.getD u.vcs _ _ = _
      rw [hvcs, FMap.getD_set_ne _ _ _ hkey]
      exact h.vc
    slot := fun j hj => by
      refine List.foldlRecOn (motive := fun t : State => t.slot (slotKey (vkey gid n) j) = g.slotAt entry n j) _ _
        ((State.slot_of_slots hslots _).trans (h.slot j hj)) (fun t ht i hi => ?_)
      rw [State.slot_setSlot, if_neg (fun e => hkey
        (slotKey_inj (lt_sixteen_of_mem_range (List.mem_range.mpr hj)) (lt_sixteen_of_mem_range hi) e).1)]
      exact ht }

/-- Each of the virtual cores of a range is launched. -/
theorem State.vcLaunched_foldl (s : State) (gid : Nat) (g : Gang) (entry : Nat) (data : List Byte) {n count : Nat} (h : n < count) :
    VcLaunched ((List.range count).foldl (fun t n => t.launchVc gid g entry data n) s) gid g entry n := by
  refine foldl_of_mem (P := fun t : State => VcLaunched t gid g entry n) (List.mem_range.mpr h)
    (fun t => t.vcLaunched_launchVc gid g entry data n) (fun t m _ ht => ?_) s
  by_cases e : n = m
  · subst e; exact t.vcLaunched_launchVc gid g entry data n
  · exact ht.launchVc data e

/-- A core whose registers are as a launch leaves them (R25). -/
def PCore.fresh (c : PCore) : Prop := c.stallthr = 0x00100000 ∧ c.tokexp = 0x00040000 ∧ c.sqfen = false ∧ c.cmapIdx = 0

/-- The cores of a gang (R287). -/
def Gang.cores (g : Gang) : List Nat := rectCores g.die g.ox g.oy (rectW g.gw g.fold) (rectH g.gh g.fold)

/-- The text is in the caches, the virtual cores of the gang and their cores are as a launch leaves them (R288, steps 2 to 5). -/
def State.gangLaunched (v : State) (gid : Nat) (g : Gang) (entry : Nat) (text data : List Byte) : State :=
  g.cores.foldl (fun t c => t.updCore c PCore.launched) ((List.range (g.gw * g.gh)).foldl (fun t n => t.launchVc gid g entry data n)
    ((v.multicast gid g text).forget (fun _ x => g.cores.contains x.former)))

theorem State.vcLaunched_gangLaunched (v : State) (gid : Nat) (g : Gang) (entry : Nat) (text data : List Byte) {n : Nat} (hn : n < g.gw * g.gh) :
    VcLaunched (v.gangLaunched gid g entry text data) gid g entry n := by
  unfold State.gangLaunched
  generalize State.forget _ _ = w
  obtain ⟨m, hm⟩ := State.foldl_updCore_eq PCore.launched g.cores
    ((List.range (g.gw * g.gh)).foldl (fun t n => t.launchVc gid g entry data n) w)
  rw [hm]
  exact (w.vcLaunched_foldl gid g entry data hn).congr rfl rfl

theorem State.fresh_gangLaunched (v : State) (gid : Nat) (g : Gang) (entry : Nat) (text data : List Byte) {n : Nat} (hn : n < g.gw * g.gh) :
    ((v.gangLaunched gid g entry text data).core (g.place n).1).fresh :=
  State.core_foldl_updCore (P := PCore.fresh) (fun _ => ⟨rfl, rfl, rfl, rfl⟩) (Gang.place_mem_rectCores hn) _

/-- LAUNCH_PLACEMENT of a gang whose image is read launches it; the gang is then ready for its release. -/
theorem exec_launchPlacement {s u v : State} {p : Packet} {text data : List Byte}
    (hl : (s.queue (queueKey (s.gang s.ev.key).func (s.gang s.ev.key).queue)).launching s.ev.key = some p) (hs : p.step = 2)
    (hg : (s.gang? s.ev.key).isSome = true) (htext : s.imageBytes (s.gang s.ev.key) 64 (min p.hd.tsize 0x20000) = some (u, text))
    (hdata : u.imageBytes (s.gang s.ev.key) p.hd.doff p.hd.dsize = some (v, data)) :
    exec .launchPlacement s = .next (((v.gangLaunched s.ev.key (s.gang s.ev.key) p.hd.entry text data).updGang s.ev.key (fun x =>
      { x with toRelease := (s.gang s.ev.key).cores,
               ready := some ((v.gangLaunched s.ev.key (s.gang s.ev.key) p.hd.entry text data).die (s.gang s.ev.key).die).cyc })).updQueue
        (queueKey (s.gang s.ev.key).func (s.gang s.ev.key).queue) (fun q => q.updLaunching s.ev.key (fun x => { x with step := 3 }))) := by
  have hwait : (p.step != 2 || (s.gang? s.ev.key).isNone) = false := by simp [hs, Option.isNone_eq_false_iff.mpr hg]
  show execLaunchPlacement s = _
  simp only [execLaunchPlacement, hl, hwait, htext, hdata, Bool.false_eq_true, if_false]
  rfl

theorem exec_launchPlacement_launched {s u v : State} {p : Packet} {text data : List Byte} {n : Nat}
    (hl : (s.queue (queueKey (s.gang s.ev.key).func (s.gang s.ev.key).queue)).launching s.ev.key = some p) (hs : p.step = 2)
    (hg : (s.gang? s.ev.key).isSome = true) (htext : s.imageBytes (s.gang s.ev.key) 64 (min p.hd.tsize 0x20000) = some (u, text))
    (hdata : u.imageBytes (s.gang s.ev.key) p.hd.doff p.hd.dsize = some (v, data)) (hn : n < (s.gang s.ev.key).gw * (s.gang s.ev.key).gh) :
    ∃ t : State, exec .launchPlacement s = .next t ∧ VcLaunched t s.ev.key (s.gang s.ev.key) p.hd.entry n ∧
      (t.core ((s.gang s.ev.key).place n).1).fresh :=
  ⟨_, exec_launchPlacement hl hs hg htext hdata, (v.vcLaunched_gangLaunched _ _ _ text data hn).congr rfl rfl,
    v.fresh_gangLaunched _ _ _ text data hn⟩

/-- A slot of the launch mask starts with its number, the mask and the argument (R289). -/
theorem Gang.readX_slotAt {g : Gang} {j : Nat} (h : g.lmask.testBit j = true) (entry n : Nat) :
    (g.slotAt entry n j).readX 10 = BitVec.ofNat 64 j ∧ (g.slotAt entry n j).readX 11 = BitVec.ofNat 64 g.lmask ∧
      (g.slotAt entry n j).readX 12 = g.arg := by
  have hread (sl : Slot) (m : BitVec 4) (pc : Word) (q : XReg) : ({ sl with mie := m, pc := pc } : Slot).readX q = sl.readX q := rfl
  have hbit : (g.lmask / 2 ^ j % 2 == 1) = true := (testBit_eq_div_mod g.lmask j).trans h
  unfold Gang.slotAt launchSlot
  simp only [hbit, if_true, hread, Slot.readX_writeX]
  exact ⟨rfl, rfl, rfl⟩

theorem Gang.slotAt_rest (g : Gang) (entry n j : Nat) : (g.slotAt entry n j).st = .empty ∧
    (g.slotAt entry n j).pc = BitVec.ofNat 64 (g.image + 64 + entry) ∧ (g.slotAt entry n j).segbase = BitVec.ofNat 64 (g.base n) ∧
    (g.slotAt entry n j).seglim = BitVec.ofNat 64 g.lmlimit := by
  unfold Gang.slotAt launchSlot
  dsimp only
  split <;> exact ⟨rfl, rfl, rfl, rfl⟩

/-- A LAUNCH that names its die is fixed to it (R287). -/
theorem State.launchDie_of_fixed {s : State} {p : Packet} (h : p.any = false) : s.launchDie p = (p.word 2).toNat % 8 := by
  simp [State.launchDie, h, bits]

/-- Settles O52: the fetch through its verdict, the arbiter with its one request, a placement through what it makes of each virtual core,
the release and the end of a gang through what they leave of the slots and the virtual cores. -/
theorem placement : Obligations.Placement := by
  intro s p k x y own r d gid q g h kd
  refine ⟨fun u hw v ps y hk hsvc hfetch hmemva hhost => ?_, fun hk hripe hstep => ?_, fun hdue hreq hformer hrk hfront hfixed hrect hown => ?_,
    fun u v text data n hl hstep hg htext hdata hn => ?_, fun hrel hholds => ?_, fun hdone hsilent => ?_⟩
  · intro f ix z hz zz hmal hop htype hwin hhdr hext hpat hread
    subst hk
    have hverdict := State.launchRanges_of_read hwin hhdr hext hpat hread
    have hfetched : exec .packetFetch s = .next ((s.launchRanges s.ev.key z).fetched s.ev.key z) := by
      rw [← State.validate_launch hmal hop htype]; exact exec_packetFetch_host hsvc hfetch hmemva hhost
    have hy : SameQueues s y := ((State.sameQueues_readVaWords hhdr).trans (State.sameQueues_readVaWords hpat)).trans
      (State.sameQueues_readExtents hread)
    refine ⟨fun hc => ?_, fun hc => ?_⟩
    · have hgood : exec .packetFetch s = .next (y.updQueue s.ev.key (fun q => { q with front := some { zz with die := y.launchDie zz } })) := by
        rw [hfetched, hverdict, if_neg (by simpa using hc)]; rfl
      have hq := State.queue_updQueue y s.ev.key s.ev.key (fun q => { q with front := some { zz with die := y.launchDie zz } })
      rw [if_pos rfl, hy.queue] at hq
      exact ⟨_, hgood, by rw [hq], fun hany => State.launchDie_of_fixed hany, by rw [hq], by rw [hq]⟩
    · rw [hverdict, if_pos (bne_iff_ne.mpr hc)] at hfetched
      have hr := y.rejected_reject s.ev.key 5 z.type (y.launchCheck f zz) 0 (z.words.take 4)
      exact ⟨_, hfetched, hr.front, hr.stopped, hr.head.trans (by rw [hy.queue]), hr.gangs.trans hy.gangs⟩
  · subst hk
    have hq := State.queue_updQueue s.freshId.2 s.ev.key s.ev.key (fun q => { q with front := some { p with step := 1, stamp := s.freshId.1 } })
    rw [if_pos rfl] at hq
    exact ⟨_, { p with step := 1, stamp := s.freshId.1 }, exec_launchPacket hripe hstep, by rw [hq], rfl, rfl, rfl, rfl, by rw [hq]; rfl, rfl⟩
  · obtain ⟨t, ht, hstep⟩ := exec_arbiterBoundary_launch hdue hreq hformer hrk hfront hfixed hrect hown
    obtain ⟨⟨z, hz, hdie, hx, hy, hzown, hfunc, hjob⟩, hvalid, hgid, hnone, hhead, hmem, hcores⟩ := t.reserved_reserve k p x y own
    rw [ht.newGid] at hz hgid
    rw [ht.queue] at hhead
    have htmem : t.mem = s.mem := by rw [ht.eq]
    exact ⟨_, z, hstep, hz, hdie, hx, hy, hzown, hfunc, hjob, hvalid, hgid, hnone, hhead, hmem.trans htmem, hcores⟩
  · intro place vk base
    obtain ⟨t, ht, hlaunched, hthr, hexp, hsqf, hmap⟩ := exec_launchPlacement_launched hl hstep hg htext hdata hn
    have hbase : g.base n = base := by
      unfold Gang.base
      simp only [beq_iff_eq]; rfl
    have hvc : t.vc vk = _ := hlaunched.vc
    have hslot := hlaunched.slot
    rw [hbase] at hvc
    refine ⟨t, ht, by rw [hvc], by rw [hvc]; rfl, by rw [hvc], by rw [hvc], by rw [hvc], by rw [hvc], hthr, hexp, hsqf, hmap, fun j hj => ?_⟩
    obtain ⟨hst, hpc, hsegbase, hseglim⟩ := g.slotAt_rest h.entry n j
    rw [hslot j hj]
    exact ⟨hst, hpc, hbase ▸ hsegbase, hseglim, fun hm => Gang.readX_slotAt hm h.entry n⟩
  · obtain ⟨t, ht, hmem, hslots⟩ := exec_gangReleaseAtCore hrel hholds
    refine ⟨t, ht, hmem, fun j hj hcore hgid hmask => ?_⟩
    have hstarts : s.starts s.ev.ix d j = true := by
      rw [State.starts, testBit_eq_div_mod, hmask, Bool.and_true, List.contains_iff_mem, List.mem_filter, beq_iff_eq]
      exact ⟨hcore, hgid⟩
    have hslot : t.slot j = { s.slot j with st := .issuing } := (State.slot_of_slots hslots j).trans (State.slot_started hj hstarts)
    exact ⟨by rw [hslot], by rw [hslot]⟩
  · obtain ⟨t, ht, hgone, hmem, hslots, hvc, hposts⟩ := exec_gangEnd_dropped hdone hsilent
    rw [State.endStatus_eq] at hposts
    exact ⟨t, ht, hgone, hmem, hslots, fun vk hvk => by rw [hvc vk hvk]; exact ⟨rfl, rfl, rfl, rfl, rfl, rfl⟩, hposts⟩

end Sys2Proof.Machine
end

section
/-! PROOFS. Reserved rounding modes: the scalar instructions, MOUT, VCVT and VQNT. -/

namespace Sys2Proof.Machine

open Sys2Proof.Claim

theorem modeOf_of_reserved {frm : BitVec 3} (h : 5 ≤ frm.toNat) : modeOf frm = none := by
  have hlt := frm.isLt
  obtain h | h | h : frm.toNat = 5 ∨ frm.toNat = 6 ∨ frm.toNat = 7 := by omega
  all_goals unfold modeOf; rw [h]; rfl

theorem State.rounded_of_reserved {s : State} (h : 5 ≤ s.me.frm.toNat) (i : Instr) (k : RMode → State) : s.rounded i .dyn k = s.illegalI i := by
  unfold State.rounded modeOfRm; rw [modeOf_of_reserved h]

/-- A scalar instruction that reads a reserved frm traps. -/
theorem trapped_rounded {s : State} (h : 5 ≤ s.me.frm.toNat) {i : Instr} {w : InsnWord} (k : RMode → State) (hw : encode i = some w)
    (hi : exec i s = .next (s.rounded i .dyn k)) : ∃ u w, exec i s = .next u ∧ encode i = some w ∧ Trapped s u 2 (w.setWidth 64) s.me.pc :=
  ⟨_, w, hi.trans (congrArg Host.Outcome.next (State.rounded_of_reserved h i k)), hw, s.trapped_illegalI hw⟩

/-! Engine instructions. -/

theorem State.engineFate_eq_present {s : State} {i : Instr} {e : Nat} (hf : fOnly i = true → isF (s.dieOf s.vk) = true)
    (he : engineOf i = some e) (hb : FMap.get? s.myVc.binds e = some s.ix) : s.engineFate i = .present := by
  have hm : (fOnly i && !isF (s.dieOf s.vk)) = false := by
    cases h : fOnly i
    · rfl
    · simp [hf h]
  simp [State.engineFate, hm, he, hb]

/-- An engine instruction that reaches its engine, whose acceptance finds it illegal, traps with its word. -/
theorem trapped_wordFault {s : State} {i : Instr} {e : Nat} {a : Accept} (hi : exec i s = .next (s.present i a))
    (hf : fOnly i = true → isF (s.dieOf s.vk) = true) (he : engineOf i = some e) (hb : FMap.get? s.myVc.binds e = some s.ix)
    (ha : a = wordFault i) : ∃ u, exec i s = .next u ∧ Trapped s u 2 (((encode i).getD 0).setWidth 64) s.me.pc := by
  refine ⟨_, hi, ?_⟩
  unfold State.present
  rw [State.engineFate_eq_present hf he hb, ha]
  exact s.trapped_trap 2 _

/-- Every check of MOUT's operands but those of the ring's slots finds an illegal instruction. -/
theorem State.acceptMout_of_reserved {s : State} (h : 5 ≤ s.me.frm.toNat) (i : Instr) {d : Handle} (a : BitVec 1) (rs2 : BitVec 5)
    (hd : (s.handle? d .producer (kindIs [0])).isSome = true) : s.acceptMout i d a rs2 = wordFault i := by
  obtain ⟨ix, hd⟩ := Option.isSome_iff_exists.mp hd
  simp only [State.acceptMout, hd, modeOf_of_reserved h, Option.isNone_none, if_true, ite_self]

/-- A handle whose ring has the kind asked for holds its role and names a valid ring. -/
theorem State.isSome_handle?_any {s : State} {h : Handle} {role : Role} {kinds : Ring → Bool} (hs : (s.handle? h role kinds).isSome = true) :
    (s.handle? h role (fun _ => true)).isSome = true := by
  unfold State.handle? at *
  simp only [Option.isSome_ite, Bool.and_eq_true] at *
  exact ⟨hs.1, trivial⟩

/-- A conversion whose handles fit is illegal at a reserved frm. -/
theorem State.acceptVector_of_reserved {s : State} (h : 5 ≤ s.me.frm.toNat) {i : Instr} {n : Bool} {t : VType} {d b : Handle}
    (hargs : vecArgs i = vU n t d b) (hconv : vecConverts i = true) (huses : handleUses i = [(d, 0, .producer), (b, 1, .consumer)])
    (hd : (s.handle? d .producer (kindIs [0])).isSome = true) (hb : (s.handle? b .consumer (feeds 1)).isSome = true) :
    s.acceptVector i = wordFault i := by
  have hfault : s.handleFault i = none := by
    simp [State.handleFault, huses, State.isSome_handle?_any hd, State.isSome_handle?_any hb]
  obtain ⟨ixd, hd⟩ := Option.isSome_iff_exists.mp hd
  obtain ⟨ixb, hb⟩ := Option.isSome_iff_exists.mp hb
  unfold State.acceptVector
  simp only [hargs, vU, hfault, Option.bind_some, hd, hb, List.append_nil, List.singleton_append, firstBad, List.find?_cons,
    Option.isSome_some, Bool.not_true, List.find?_nil, hconv, modeOf_of_reserved h, Option.isNone_none, Bool.and_self, if_true]
  rfl

/-- Settles O20: a reserved frm has no mode, whatever the instruction that reads it. -/
theorem fpModeTraps : Obligations.FpModeTraps := by
  intro s t v fd rs1 rs2 rs3 rd x1 hfrm
  refine ⟨fun i hi => ?_, ?_⟩
  · simp only [List.mem_cons, List.not_mem_nil, or_false] at hi
    rcases hi with rfl | rfl | rfl | rfl | rfl | rfl | rfl | rfl | rfl | rfl | rfl | rfl | rfl <;> exact trapped_rounded hfrm _ rfl rfl
  · intro n sr sat g k a d b illegal named
    refine ⟨fun hbind hd => ?_, fun ⟨hbind, hd, hb⟩ hf => ?_, fun ⟨hbind, hd, hb⟩ hf => ?_⟩
    · exact trapped_wordFault rfl nofun rfl hbind (State.acceptMout_of_reserved hfrm _ a rd hd)
    · exact trapped_wordFault rfl hf rfl hbind (State.acceptVector_of_reserved hfrm rfl rfl rfl hd hb)
    · exact trapped_wordFault rfl hf rfl hbind (State.acceptVector_of_reserved hfrm rfl rfl rfl hd hb)

end Sys2Proof.Machine
end

section
/-! PROOFS. Slots as elements: the bytes of a number, the elements of a slot, the slots and flags that the vector engine and MOUT write. -/

namespace Sys2Proof.Machine

open Sys2Proof.Claim

/-! Bytes and numbers. -/

theorem ofBytes_take : ∀ (bs : List Byte) (n : Nat),
    ofBytes (bs.take n) = ((List.range n).map (fun i => (bs.getD i 0).toNat * 256 ^ i)).sum
  | [], n => by simp [ofBytes]
  | _ :: _, 0 => by simp [ofBytes]
  | b :: bs, n + 1 => by
    have hstep (i : Nat) : ((b :: bs).getD (i + 1) 0).toNat * 256 ^ (i + 1) = 256 * ((bs.getD i 0).toNat * 256 ^ i) := by
      rw [List.getD_cons_succ, pow_succ]; ring
    rw [List.take_succ_cons, ofBytes, ofBytes_take bs n, List.range_succ_eq_map, List.map_cons, List.sum_cons, List.map_map,
      ← List.sum_map_mul_left]
    simp only [Function.comp_def, Nat.succ_eq_add_one, hstep, List.getD_cons_zero, pow_zero, mul_one]

theorem ofBytes_lt (bs : List Byte) : ofBytes bs < 256 ^ bs.length := by
  induction bs with
  | nil => decide
  | cons b t ih =>
    have hb := b.isLt
    rw [ofBytes, List.length_cons, pow_succ]
    omega

theorem elementOf_eq_ofBytes (bs : List Byte) (eb k : Nat) : elementOf bs eb k = ofBytes ((bs.drop (eb * k)).take eb) := by
  rw [ofBytes_take, elementOf]
  simp only [List.getD_eq_getElem?_getD, List.getElem?_drop]

theorem elementOf_lt (bs : List Byte) (eb k : Nat) : elementOf bs eb k < 256 ^ eb := by
  rw [elementOf_eq_ofBytes]
  exact (ofBytes_lt _).trans_le (Nat.pow_le_pow_right (by decide) (List.length_take_le ..))

theorem elementOf_mod (bs : List Byte) (eb k : Nat) : elementOf bs eb k % 256 ^ eb = elementOf bs eb k :=
  Nat.mod_eq_of_lt (elementOf_lt bs eb k)

theorem elems_eq (bs : List Byte) (eb n : Nat) : elems bs eb n = (List.range n).map (elementOf bs eb) := by
  simp only [elems, ← elementOf_eq_ofBytes]

/-- The bytes of a number, added up, are the number modulo its length. -/
theorem sum_bytes (v n : Nat) : ((List.range n).map (fun i => (BitVec.ofNat 8 (v / 256 ^ i)).toNat * 256 ^ i)).sum = v % 256 ^ n := by
  induction n with
  | zero => simp [Nat.mod_one]
  | succ n ih =>
    rw [List.range_succ, List.map_append, List.sum_append, ih, Nat.mod_pow_succ]
    simp [mul_comm]

theorem getD_append_zeros (bs : List Byte) (m j : Nat) : (bs ++ List.replicate m 0).getD j 0 = bs.getD j 0 := by
  rw [List.getD_eq_getElem?_getD, List.getD_eq_getElem?_getD, List.getElem?_append]
  split
  · rfl
  · next h =>
    rw [List.getElem?_eq_none (not_lt.mp h), List.getElem?_replicate]
    split <;> rfl

@[simp] theorem length_bytesOf (v n : Nat) : (bytesOf v n).length = n := by simp [bytesOf]

theorem getD_bytesOf (v : Nat) {n i : Nat} (h : i < n) : (bytesOf v n).getD i 0 = BitVec.ofNat 8 (v / 256 ^ i) := by
  simp [bytesOf, List.getD_eq_getElem?_getD, h]

/-! Numbers as the elements of a slot. -/

theorem length_flatMap_bytesOf (ys : List Nat) (eb : Nat) : (ys.flatMap (fun y => bytesOf y eb)).length = eb * ys.length := by
  simp [List.length_flatMap, mul_comm]

theorem getD_flatMap_bytesOf {eb i : Nat} (hi : i < eb) : ∀ (ys : List Nat) (k : Nat),
    (ys.flatMap (fun y => bytesOf y eb)).getD (eb * k + i) 0 = BitVec.ofNat 8 (ys.getD k 0 / 256 ^ i)
  | [], k => by simp
  | y :: ys, 0 => by
    rw [List.flatMap_cons, Nat.mul_zero, Nat.zero_add, List.getD_append _ _ _ _ (by simpa using hi), getD_bytesOf y hi, List.getD_cons_zero]
  | y :: ys, k + 1 => by
    have hk : eb * (k + 1) + i = eb + (eb * k + i) := by ring
    rw [List.flatMap_cons, List.getD_append_right _ _ _ _ (by rw [length_bytesOf]; omega), length_bytesOf, hk, Nat.add_sub_cancel_left,
      getD_flatMap_bytesOf hi ys k, List.getD_cons_succ]

theorem getD_packElems {eb i : Nat} (len : Nat) (ys : List Nat) (k : Nat) (hi : i < eb) :
    (packElems eb len ys).getD (eb * k + i) 0 = BitVec.ofNat 8 (ys.getD k 0 / 256 ^ i) := by
  rw [packElems, getD_append_zeros, getD_flatMap_bytesOf hi]

theorem elementOf_packElems (eb len : Nat) (ys : List Nat) (k : Nat) : elementOf (packElems eb len ys) eb k = ys.getD k 0 % 256 ^ eb := by
  rw [elementOf, ← sum_bytes]
  congr 1
  refine List.map_congr_left (fun i hi => ?_)
  rw [getD_packElems len ys k (List.mem_range.mp hi)]

theorem length_packElems {eb len : Nat} {ys : List Nat} (h : eb * ys.length ≤ len) : (packElems eb len ys).length = len := by
  rw [packElems, List.length_append, length_flatMap_bytesOf, List.length_replicate]
  omega

/-- Behind its elements a slot holds zeros. -/
theorem getD_packElems_of_le {eb : Nat} (len : Nat) {ys : List Nat} {j : Nat} (h : eb * ys.length ≤ j) : (packElems eb len ys).getD j 0 = 0 := by
  rw [packElems, getD_append_zeros]
  exact List.getD_eq_default _ _ (by rwa [length_flatMap_bytesOf])

theorem mul_le_up8 (n eb : Nat) : eb * n ≤ up8 (n * eb) := by
  rw [up8, mul_comm]; omega

/-! Flags of many results. -/

theorem getLsbD_foldl_flags {α : Type} (g : α → BitVec 5) (l : List α) (f : BitVec 5) (z : Nat) :
    (l.foldl (fun f r => f ||| g r) f).getLsbD z = (f.getLsbD z || l.any (fun r => (g r).getLsbD z)) := by
  induction l generalizing f with
  | nil => simp
  | cons a l ih => rw [List.foldl_cons, ih, BitVec.getLsbD_or, List.any_cons, Bool.or_assoc]

theorem and_foldl_or {α : Type} (g : α → BitVec 5) {l : List α} {a : α} (h : a ∈ l) :
    g a &&& l.foldl (fun f r => f ||| g r) 0 = g a := by
  refine BitVec.eq_of_getLsbD_eq (fun z _ => ?_)
  rw [BitVec.getLsbD_and, getLsbD_foldl_flags]
  cases hz : (g a).getLsbD z
  · rfl
  · simpa using ⟨a, h, hz⟩

theorem foldl_or_zero {α : Type} {g : α → BitVec 5} {l : List α} (h : ∀ a ∈ l, g a = 0) : l.foldl (fun f r => f ||| g r) 0 = 0 := by
  refine BitVec.eq_of_getLsbD_eq (fun z _ => ?_)
  rw [getLsbD_foldl_flags, List.any_eq_false.mpr (fun a ha => by simp [h a ha])]
  simp

/-! One slot of results. -/

/-- The result that writes rs, elements of eb bytes, in one slot of len bytes. -/
def slotResult (vacc : Vector (BitVec 32) 64) (eb len : Nat) (rs : List (Nat × BitVec 5)) : VResult :=
  { out := [packElems eb len (gather2 rs).1], vacc := vacc, flags := (gather2 rs).2 }

section
variable {vacc : Vector (BitVec 32) 64} {eb len count : Nat}

theorem getD_map_range {α : Type} (f : Nat → α) (d : α) {n k : Nat} (h : k < n) : ((List.range n).map f).getD k d = f k := by
  simp [List.getD_eq_getElem?_getD, h]

theorem slotIs_slotResult (f : Nat → Nat × BitVec 5) (h : eb * count ≤ len) :
    SlotIs (slotResult vacc eb len ((List.range count).map f)) vacc eb len count f := by
  have hlen : eb * ((List.range count).map f).length ≤ len := by simpa using h
  refine ⟨_, rfl, rfl, length_packElems (by simpa [gather2] using h), fun k hk => ⟨?_, ?_⟩, fun j hj => ?_, fun z hz => ?_⟩
  · rw [elementOf_packElems, gather2, List.map_map, getD_map_range _ _ hk]; rfl
  · exact and_foldl_or Prod.snd (List.mem_map_of_mem (List.mem_range.mpr hk))
  · exact getD_packElems_of_le len (by simpa [gather2] using hj)
  · have hany : ((List.range count).map f).any (fun r => r.2.getLsbD z) = false := by
      rw [List.any_map, List.any_eq_false]
      simpa using hz
    exact (getLsbD_foldl_flags Prod.snd _ 0 z).trans (by rw [hany]; simp)

/-- Of an element only the low eb bytes count. -/
theorem slotIs_congr {y : VResult} {f g : Nat → Nat × BitVec 5} (h : SlotIs y vacc eb len count f)
    (hfg : ∀ k < count, (f k).1 % 256 ^ eb = (g k).1 % 256 ^ eb ∧ (f k).2 = (g k).2) : SlotIs y vacc eb len count g := by
  obtain ⟨bs, hout, hvacc, hlen, helem, hzero, hflags⟩ := h
  refine ⟨bs, hout, hvacc, hlen, fun k hk => ?_, hzero, fun z hz => hflags z (fun k hk => ?_)⟩
  · obtain ⟨h1, h2⟩ := hfg k hk
    rw [← h1, ← h2]; exact helem k hk
  · rw [(hfg k hk).2]; exact hz k hk

end

end Sys2Proof.Machine
end

section
/-! PROOFS. The vector instructions that act element by element (R176 to R182). -/

namespace Sys2Proof.Machine

open Sys2Proof.Claim

/-! Lists of elements. -/

theorem zipIdx_map_range {α : Type} (f : Nat → α) (n : Nat) : ((List.range n).map f).zipIdx = (List.range n).map (fun k => (f k, k)) := by
  refine List.ext_getElem (by simp) (fun k h1 h2 => by simp)

theorem getD_eq_getElem_mod (vacc : Vector (BitVec 32) 64) (k : Nat) :
    vacc.getD (k % 64) 0 = vacc[k % 64]'(Nat.mod_lt k (by decide)) := by
  simp [Vector.getD, Nat.mod_lt k (show 64 > 0 by decide)]

section
variable {i : Instr} {t : VType} {x : VArgs} {ha hb : List Byte} {sd : Nat} {frm : BitVec 3} {draw : Nat → Nat}
  {vacc : Vector (BitVec 32) 64}

/-- An instruction that maps the elements of a slot. -/
theorem slotIs_map {f g : Nat → Nat × BitVec 5}
    (hi : vecResult i x ha hb sd frm draw vacc = slotResult vacc (vtBytes t) (up8 (ha.length / vtBytes t * vtBytes t))
      ((elems ha (vtBytes t) (ha.length / vtBytes t)).map f)) (hfg : ∀ y, f y = g y) :
    SlotIs (vecResult i x ha hb sd frm draw vacc) vacc (vtBytes t) ((vtBytes t * (ha.length / vtBytes t) + 7) / 8 * 8)
      (ha.length / vtBytes t) (fun k => g (elementOf ha (vtBytes t) k)) := by
  obtain rfl : f = g := funext hfg
  rw [hi, elems_eq, List.map_map, mul_comm (vtBytes t)]
  exact slotIs_slotResult _ (mul_le_up8 ..)

/-- An instruction that combines the elements of two slots, and of vacc. -/
theorem slotIs_zipIdx {f g : Nat → Nat → Nat → Nat × BitVec 5}
    (hi : vecResult i x ha hb sd frm draw vacc = slotResult vacc (vtBytes t) (up8 (ha.length / vtBytes t * vtBytes t))
      (((elems ha (vtBytes t) (ha.length / vtBytes t)).zip (elems hb (vtBytes t) (ha.length / vtBytes t))).zipIdx.map
        (fun p => f p.2 p.1.1 p.1.2)))
    (hfg : ∀ k a b, (f k a b).1 % 256 ^ vtBytes t = (g k a b).1 % 256 ^ vtBytes t ∧ (f k a b).2 = (g k a b).2) :
    SlotIs (vecResult i x ha hb sd frm draw vacc) vacc (vtBytes t) ((vtBytes t * (ha.length / vtBytes t) + 7) / 8 * 8)
      (ha.length / vtBytes t) (fun k => g k (elementOf ha (vtBytes t) k) (elementOf hb (vtBytes t) k)) := by
  rw [hi, elems_eq, elems_eq, List.zip_map', zipIdx_map_range, List.map_map, mul_comm (vtBytes t)]
  exact slotIs_congr (slotIs_slotResult _ (mul_le_up8 ..)) (fun k _ => hfg k _ _)

/-- An instruction that combines the elements of two slots. -/
theorem slotIs_zip {f g : Nat → Nat → Nat × BitVec 5}
    (hi : vecResult i x ha hb sd frm draw vacc = slotResult vacc (vtBytes t) (up8 (ha.length / vtBytes t * vtBytes t))
      (((elems ha (vtBytes t) (ha.length / vtBytes t)).zip (elems hb (vtBytes t) (ha.length / vtBytes t))).map (fun p => f p.1 p.2)))
    (hfg : ∀ a b, (f a b).1 % 256 ^ vtBytes t = (g a b).1 % 256 ^ vtBytes t ∧ (f a b).2 = (g a b).2) :
    SlotIs (vecResult i x ha hb sd frm draw vacc) vacc (vtBytes t) ((vtBytes t * (ha.length / vtBytes t) + 7) / 8 * 8)
      (ha.length / vtBytes t) (fun k => g (elementOf ha (vtBytes t) k) (elementOf hb (vtBytes t) k)) := by
  refine slotIs_zipIdx (f := fun _ => f) (g := fun _ => g) (hi.trans ?_) (fun _ => hfg)
  rw [elems_eq, elems_eq, List.zip_map', zipIdx_map_range, List.map_map, List.map_map]
  rfl

end

/-! Bits of elements. -/

theorem intVal_eq_toInt (n : Nat) (b : Nat) : intVal (n + 1) b = (BitVec.ofNat (n + 1) b).toInt := by
  rw [BitVec.toInt_eq_toNat_cond, BitVec.toNat_ofNat, intVal, Nat.add_sub_cancel]
  have h : b % 2 ^ (n + 1) < 2 ^ n ↔ 2 * (b % 2 ^ (n + 1)) < 2 ^ (n + 1) := by rw [pow_succ]; omega
  simp only [h]

theorem intBits_eq_toNat (n : Nat) (v : Int) : intBits n v = (BitVec.ofInt n v).toNat := by
  rw [intBits, BitVec.toNat_ofInt]

theorem toNat_sshiftRight_eq (a s : Nat) : intBits 32 (intVal 32 a / (2 ^ s : Nat)) = ((BitVec.ofNat 32 a).sshiftRight s).toNat := by
  rw [intVal_eq_toInt 31, intBits_eq_toNat, BitVec.sshiftRight, Int.shiftRight_eq_div_pow]

theorem mod_mod_256_pow (v eb : Nat) : v % 2 ^ (8 * eb) % 256 ^ eb = v % 256 ^ eb := by
  have h : (256 : Nat) ^ eb = 2 ^ (8 * eb) := by rw [pow_mul]; rfl
  rw [h, Nat.mod_mod]

/-- An instruction that combines the bits of two elements. -/
theorem slotIs_bits {i : Instr} {t : VType} {x : VArgs} {ha hb : List Byte} {sd : Nat} {frm : BitVec 3} {draw : Nat → Nat}
    {vacc : Vector (BitVec 32) 64} {f g : Nat → Nat → Nat}
    (hi : vecResult i x ha hb sd frm draw vacc = slotResult vacc (vtBytes t) (up8 (ha.length / vtBytes t * vtBytes t))
      (((elems ha (vtBytes t) (ha.length / vtBytes t)).zip (elems hb (vtBytes t) (ha.length / vtBytes t))).map
        (fun p => (f p.1 p.2 % 2 ^ (8 * vtBytes t), 0)))) (hfg : ∀ a b, f a b = g a b) :
    SlotIs (vecResult i x ha hb sd frm draw vacc) vacc (vtBytes t) ((vtBytes t * (ha.length / vtBytes t) + 7) / 8 * 8)
      (ha.length / vtBytes t) (fun k => (g (elementOf ha (vtBytes t) k) (elementOf hb (vtBytes t) k), 0)) :=
  slotIs_zip (f := fun a b => (f a b % 2 ^ (8 * vtBytes t), 0)) (g := fun a b => (g a b, 0)) hi
    (fun a b => ⟨by rw [mod_mod_256_pow, hfg], rfl⟩)

/-! Reciprocals. -/

theorem Fmt.mantissa_lt_of_fin {t : Fmt} {b m : Nat} {neg : Bool} {e : Int} (h : t.value b = .fin neg m e) : m < 2 ^ (t.M + 1) := by
  have hm : b % 2 ^ t.M < 2 ^ t.M := Nat.mod_lt _ (Nat.two_pow_pos _)
  rw [pow_succ]
  unfold Fmt.value at h
  dsimp only at h
  split_ifs at h <;> cases h <;> omega

/-- A root r of N / c with its sticky bit compares with every whole number as N does with c times its square. -/
theorem compare_root {N c r : Nat} (h1 : r * r * c ≤ N) (h2 : N < (r + 1) * (r + 1) * c) (j : Nat) :
    compare (2 * r + (if r * r * c == N then 0 else 1)) (2 * j) = compare N (j * j * c) := by
  have hmono {a b : Nat} (h : a ≤ b) : a * a * c ≤ b * b * c := Nat.mul_le_mul_right c (Nat.mul_self_le_mul_self h)
  have hc : 0 < c := Nat.pos_of_ne_zero (by rintro rfl; simp at h2)
  have hlt : r < j ↔ N < j * j * c :=
    ⟨fun h => h2.trans_le (hmono h), fun h => Nat.mul_self_lt_mul_self_iff.mp (Nat.lt_of_mul_lt_mul_right (h1.trans_lt h))⟩
  by_cases he : r * r * c = N
  · rw [if_pos (beq_iff_eq.mpr he)]
    refine compare_congr (by omega) ?_
    rw [← he, Nat.mul_left_inj hc.ne', Nat.mul_self_inj]
    omega
  · rw [if_neg (by simpa using he)]
    refine compare_congr (by omega) (iff_of_false (by omega) (fun h => he ?_))
    have hj : j ≤ r := by by_contra hlt'; omega
    have := hmono hj
    omega

theorem isqrt_div_spec (N : Nat) {c : Nat} (hc : 0 < c) :
    isqrt (N / c) * isqrt (N / c) * c ≤ N ∧ N < (isqrt (N / c) + 1) * (isqrt (N / c) + 1) * c := by
  obtain ⟨h1, h2⟩ := isqrt_spec (N / c)
  exact ⟨(Nat.le_div_iff_mul_le hc).mp h1, (Nat.div_lt_iff_lt_mul hc).mp h2⟩

/-- In units of 2^(g - 1) the root with its sticky bit compares as N / c does, in units of 2^2g, with the square. -/
theorem compare_root_units {N c r : Nat} (hc : 0 < c) (h1 : r * r * c ≤ N) (h2 : N < (r + 1) * (r + 1) * c) {g f : Int} (hf : g ≤ f) (k : Nat) :
    compare ((N : ℝ) / c * 2 ^ (2 * g)) ((k * k : Nat) * 2 ^ (2 * f)) =
      compare (((2 * r + (if r * r * c == N then 0 else 1) : Nat) : ℝ) * 2 ^ (g - 1)) (k * 2 ^ f) := by
  obtain ⟨j, rfl⟩ : ∃ j : Nat, f = g + j := ⟨(f - g).toNat, by omega⟩
  have hcr : (0 : ℝ) < c := Nat.cast_pos.mpr hc
  have hk : (k : ℝ) * 2 ^ (g + j) = ((2 * (k * 2 ^ j) : Nat) : ℝ) * 2 ^ (g - 1) := by
    rw [zpow_sub_one₀ two_ne_zero, zpow_add₀ two_ne_zero, zpow_natCast]; push_cast; ring
  have hkk : ((k * k : Nat) : ℝ) * 2 ^ (2 * (g + j)) = (((k * 2 ^ j) * (k * 2 ^ j) * c : Nat) : ℝ) / c * 2 ^ (2 * g) := by
    have he : 2 * (g + j) = 2 * g + (2 * j : Nat) := by push_cast; ring
    rw [he, zpow_add₀ two_ne_zero, zpow_natCast]; push_cast; field_simp; ring
  rw [hk, hkk, compare_mul_right _ _ (two_zpow_pos _), compare_mul_right _ _ (two_zpow_pos _), div_eq_mul_inv, div_eq_mul_inv,
    compare_mul_right _ _ (inv_pos.mpr hcr), ← compare_natCast, ← compare_natCast, compare_root h1 h2]

theorem root_pos {N c r : Nat} (hN : 0 < N) : 0 < 2 * r + (if r * r * c == N then 0 else 1) := by
  by_cases he : r * r * c = N
  · have hr : r ≠ 0 := by rintro rfl; rw [Nat.zero_mul] at he; omega
    omega
  · rw [if_neg (by simpa using he)]; omega

/-- The number whose root VRSQ takes, which with an even exponent is the operand. -/
def rsqDivisor (m : Nat) (e : Int) : Nat := if e % 2 == 0 then m else 2 * m
def rsqExponent (e : Int) : Int := if e % 2 == 0 then e / 2 else (e - 1) / 2

theorem approxRsq_fin {t : Fmt} {b m : Nat} {e : Int} (hb : t.value b = .fin false m e) (hm : m ≠ 0) :
    let c := rsqDivisor m e
    let r := isqrt (2 ^ (2 * 200) / c)
    approxRsq t b = t.round .rne false false (2 * r + (if r * r * c == 2 ^ (2 * 200) then 0 else 1)) 1 (-rsqExponent e - 201) := by
  intro c r
  have h0 : (m == 0) = false := beq_eq_false_iff_ne.mpr hm
  unfold approxRsq
  simp only [hb, h0, Bool.false_eq_true, if_false]
  rfl

theorem rsqDivisor_bounds {m : Nat} (e : Int) (hm : m ≠ 0) (hlt : m < 2 ^ 53) : 0 < rsqDivisor m e ∧ rsqDivisor m e ≤ 2 ^ 54 := by
  unfold rsqDivisor; split <;> omega

theorem rsqDivisor_mul (m : Nat) (e : Int) : (rsqDivisor m e : ℝ) * 2 ^ (2 * rsqExponent e) = m * 2 ^ e := by
  unfold rsqDivisor rsqExponent
  by_cases he : e % 2 = 0
  · rw [if_pos (beq_iff_eq.mpr he), if_pos (beq_iff_eq.mpr he)]
    congr 2; omega
  · rw [if_neg (by simpa using he), if_neg (by simpa using he)]
    have h : e = 1 + 2 * ((e - 1) / 2) := by omega
    conv_rhs => rw [h, zpow_add₀ two_ne_zero, zpow_one]
    push_cast; ring

/-- 1 / (m × 2^e) as N / c units of 2^2g, for N of 2j bits. -/
theorem inv_eq_units {m : Nat} (e : Int) (hm : m ≠ 0) (j : Nat) :
    (1 : ℝ) / m * 2 ^ (-e) = (2 ^ (2 * j) : Nat) / rsqDivisor m e * 2 ^ (2 * (-rsqExponent e - j)) := by
  have hmr : (m : ℝ) ≠ 0 := Nat.cast_ne_zero.mpr hm
  have hcr : (rsqDivisor m e : ℝ) ≠ 0 := by
    unfold rsqDivisor; split <;> simp [hm]
  have hge : 2 * (-rsqExponent e - j) = -(2 * rsqExponent e) - (2 * j : Nat) := by push_cast; ring
  have h1 := two_zpow_pos e
  have h2 := two_zpow_pos (2 * rsqExponent e)
  rw [hge, zpow_sub₀ two_ne_zero, zpow_natCast, zpow_neg, zpow_neg]
  field_simp
  rw [Nat.cast_pow, Nat.cast_ofNat, ← rsqDivisor_mul m e]

theorem formats_mantissa_le {t : Fmt} {big above : Nat} (h : (t, big, above) ∈ formats) : t.M ≤ 52 := by
  simp only [formats, List.mem_cons, Prod.mk.injEq, List.not_mem_nil, or_false] at h
  rcases h with ⟨rfl, -⟩ | ⟨rfl, -⟩ | ⟨rfl, -⟩ | ⟨rfl, -⟩ | ⟨rfl, -⟩ | ⟨rfl, -⟩ <;> decide

/-- The root has two places more than the rounding needs. -/
theorem two_pow_le_div {M c j : Nat} (hM : M ≤ 52) (hc0 : 0 < c) (hc : c ≤ 2 ^ 54) (hj : 82 ≤ j) : 2 ^ (2 * (M + 3)) ≤ 2 ^ (2 * j) / c := by
  rw [Nat.le_div_iff_mul_le hc0]
  calc 2 ^ (2 * (M + 3)) * c ≤ 2 ^ 110 * 2 ^ 54 := Nat.mul_le_mul (Nat.pow_le_pow_right two_pos (by omega)) hc
    _ ≤ 2 ^ (2 * j) := by rw [← pow_add]; exact Nat.pow_le_pow_right two_pos (by omega)

/-- 1 / √x rounded: the root in units of 2^-(h + 200) decides every comparison of the rounding. -/
theorem rounded_approxRsq {t : Fmt} {big above : Nat} (h : (t, big, above) ∈ formats) {b m : Nat} {e : Int}
    (hb : t.value b = .fin false m e) (hm : m ≠ 0) :
    Rounded t big above .rne false false (fun k f => versus 1 m (-e) (k * k) (2 * f)) (approxRsq t b) := by
  have hM := formats_mantissa_le h
  obtain ⟨hc0, hc⟩ := rsqDivisor_bounds e hm ((Fmt.mantissa_lt_of_fin hb).trans_le (Nat.pow_le_pow_right two_pos (by omega)))
  obtain ⟨h1, h2⟩ := isqrt_div_spec (2 ^ (2 * 200)) hc0
  have hval := inv_eq_units e hm 200
  have hexp : -rsqExponent e - 201 = -rsqExponent e - (200 : Nat) - 1 := by push_cast; ring
  rw [approxRsq_fin hb hm, hexp]
  refine rounded_of_compare h .rne false false (root_pos (Nat.two_pow_pos _)) one_pos rfl (fun lo hlo k f hf => ?_)
  rw [versus_eq_compare (Nat.pos_of_ne_zero hm), Nat.cast_one, hval] at hlo ⊢
  rw [div_one]
  refine compare_root_units hc0 h1 h2 (le_trans (quarter_unit_of_square_lt (two_pow_le_div (j := 200) hM hc0 hc (by decide)) ?_) hf) k
  calc ((2 ^ (2 * 200) / rsqDivisor m e : Nat) : ℝ) * 2 ^ (2 * (-rsqExponent e - (200 : Nat)))
      ≤ (2 ^ (2 * 200) : Nat) / rsqDivisor m e * 2 ^ (2 * (-rsqExponent e - (200 : Nat))) :=
        mul_le_mul_of_nonneg_right Nat.cast_div_le (two_zpow_pos _).le
    _ < ((magnitude t (lo + 1)).1 * (magnitude t (lo + 1)).1 : Nat) * 2 ^ (2 * (magnitude t (lo + 1)).2) := compare_lt_iff_lt.mp hlo
    _ = t.mag (lo + 1) * t.mag (lo + 1) := by rw [Fmt.mag, two_mul, zpow_add₀ two_ne_zero]; push_cast; ring

theorem rounded_approxRcp {t : Fmt} {big above : Nat} (h : (t, big, above) ∈ formats) {b m : Nat} {neg : Bool} {e : Int}
    (hb : t.value b = .fin neg m e) (hm : m ≠ 0) :
    Rounded t big above .rne false neg (versus 1 m (-e)) (approxRcp t b) := by
  have hr : approxRcp t b = t.round .rne false neg 1 m (-e) := by simp [approxRcp, hb, hm]
  rw [hr]
  exact rounded_round h .rne false neg (-e) one_pos (Nat.pos_of_ne_zero hm)

/-- What VEXP2 and VLOG2 compute on an element (R182): on FP32 with fewer bits. -/
def vexp2Of (t : VType) : Nat → Nat × BitVec 5 :=
  match t with
  | .f32 => approxExp2Lean
  | _ => approxExp2 (vtFmt t)
def vlog2Of (t : VType) : Nat → Nat × BitVec 5 :=
  match t with
  | .f32 => approxLog2Lean
  | _ => approxLog2 (vtFmt t)

theorem vexp2Of_eq (t : VType) (x : Nat) : vexp2Of t x = if t = .f32 then approxExp2Lean x else approxExp2 (vtFmt t) x := by
  cases t <;> simp [vexp2Of]

theorem vlog2Of_eq (t : VType) (x : Nat) : vlog2Of t x = if t = .f32 then approxLog2Lean x else approxLog2 (vtFmt t) x := by
  cases t <;> simp [vlog2Of]

theorem eachRules : EachRules := by
  intro n t cc d a b ha hb sd frm draw vacc vac each one F
  refine ⟨?_, ?_, ?_, ?_, ?_, ?_, ?_, ?_, ?_, ?_, ?_, ?_, ?_, ?_, ?_, ?_, ?_, ?_, ?_, ?_, ?_, ?_, ?_, ?_, ?_⟩
  · exact fun _ => slotIs_zip (f := vecAdd t) rfl (fun _ _ => ⟨rfl, rfl⟩)
  · exact fun _ => slotIs_zip (f := vecSub t) rfl (fun _ _ => ⟨rfl, rfl⟩)
  · exact fun _ => slotIs_zip (f := vecMul t) rfl (fun _ _ => ⟨rfl, rfl⟩)
  · exact fun _ => slotIs_zip (f := vecMin t) rfl (fun _ _ => ⟨rfl, rfl⟩)
  · exact fun _ => slotIs_zip (f := vecMax t) rfl (fun _ _ => ⟨rfl, rfl⟩)
  · intro ht x y
    cases t with
    | i32 => exact absurd rfl ht
    | _ => exact ⟨rfl, rfl, rfl, rfl, rfl⟩
  · exact fun _ => slotIs_zipIdx (f := fun k x y => vecFma F F x y (vacc.getD (k % 64) 0).toNat) (g := fun k x y => vecFma F F x y (vac k)) rfl
      (fun k _ _ => by rw [getD_eq_getElem_mod]; exact ⟨rfl, rfl⟩)
  · exact fun _ => slotIs_zip (f := vecCmp cc t) rfl (fun _ _ => ⟨rfl, rfl⟩)
  · exact fun _ => slotIs_bits (f := fun x y => if y == 0 then 0 else x) (g := fun x y => if y = 0 then 0 else x) rfl
      (fun _ _ => by simp only [beq_iff_eq])
  · exact fun _ => slotIs_bits (t := .i32) (f := fun x y => x &&& y) rfl (fun _ _ => rfl)
  · exact fun _ => slotIs_bits (t := .i32) (f := fun x y => x ||| y) rfl (fun _ _ => rfl)
  · exact fun _ => slotIs_bits (t := .i32) (f := fun x y => x ^^^ y) rfl (fun _ _ => rfl)
  · exact fun _ => slotIs_bits (t := .i32) (f := fun x y => x * 2 ^ (y % 32)) rfl (fun _ _ => rfl)
  · exact fun _ => slotIs_bits (t := .i32) (f := fun x y => intBits 32 (intVal 32 x / (2 ^ (y % 32) : Nat)))
      (g := fun x y => ((BitVec.ofNat 32 x).sshiftRight (y % 32)).toNat) rfl (fun x y => toNat_sshiftRight_eq x (y % 32))
  · exact slotIs_map (f := vecAbs t) rfl (fun _ => rfl)
  · exact slotIs_map (f := vecNeg t) rfl (fun _ => rfl)
  · exact slotIs_map (f := approxRcp F) rfl (fun _ => rfl)
  · exact slotIs_map (f := approxRsq F) rfl (fun _ => rfl)
  · exact slotIs_map (f := vexp2Of t) rfl (vexp2Of_eq t)
  · exact slotIs_map (f := vlog2Of t) rfl (vlog2Of_eq t)
  · exact slotIs_map (f := approxTanh F) rfl (fun _ => rfl)
  · exact slotIs_map (f := approxSig F) rfl (fun _ => rfl)
  · exact slotIs_map (t := .f32) (f := approxExp2 fmt32) rfl (fun _ => rfl)
  · exact slotIs_map (t := .f32) (f := approxLog2 fmt32) rfl (fun _ => rfl)
  · intro _ x neg m e hx hm big above hF
    refine ⟨rounded_approxRcp hF hx hm, fun hneg => ?_⟩
    have hrsq := rounded_approxRsq hF (hneg ▸ hx) hm
    simp only [versus, one_mul] at hrsq
    exact hrsq

end Sys2Proof.Machine
end

section
/-! PROOFS. Sums: the INT32 rules, the pairwise tree in halves, the sums of a K-block. -/

namespace Sys2Proof.Machine

open Sys2Proof.Claim

/-! INT32 (R166, R178, R180). -/

theorem intVal_toNat (a : BitVec 32) : intVal 32 a.toNat = a.toInt := by
  rw [intVal_eq_toInt 31, BitVec.ofNat_toNat, BitVec.setWidth_eq]

theorem accumI32_eq (acc : BitVec 32) (p : Int) :
    let m := max (-2147483648) (min 2147483647 (acc.toInt + p))
    accumI32 acc.toNat p = ((BitVec.ofInt 32 m).toNat, if m = acc.toInt + p then 0 else fSAT) := by
  intro m
  unfold accumI32
  simp only [intVal_toNat, intBits_eq_toNat]
  by_cases hlo : acc.toInt + p < -2147483648
  · have hm : m = -2147483648 := by omega
    rw [if_pos hlo, if_neg (by omega), hm]; rfl
  · by_cases hhi : 2147483647 < acc.toInt + p
    · have hm : m = 2147483647 := by omega
      rw [if_neg hlo, if_pos hhi, if_neg (by omega), hm]; rfl
    · have hm : m = acc.toInt + p := by omega
      rw [if_neg hlo, if_neg hhi, if_pos hm, hm]

theorem i32Op_eq (f : Int → Int → Int) (a b : BitVec 32) : i32Op f a.toNat b.toNat = ((BitVec.ofInt 32 (f a.toInt b.toInt)).toNat, 0) := by
  rw [i32Op, intVal_toNat, intVal_toNat, intBits_eq_toNat]

theorem vecAbs_i32 (a : BitVec 32) : vecAbs .i32 a.toNat = (if a.toInt < 0 then (-a).toNat else a.toNat, 0) := by
  show (intBits 32 ((intVal 32 a.toNat).natAbs : Int), _) = _
  rw [intVal_toNat, intBits_eq_toNat]
  split
  · rw [Int.ofNat_natAbs_of_nonpos (by omega), BitVec.ofInt_neg, BitVec.ofInt_toInt]
  · rw [Int.natAbs_of_nonneg (by omega), BitVec.ofInt_toInt]

/-- The conditions of VCMP on INT32. -/
def i32Holds (c : VCmpOp) (a b : BitVec 32) : Prop :=
  match c with
  | .eq => a = b
  | .lt => a.toInt < b.toInt
  | .le => a.toInt ≤ b.toInt
  | .un => False

theorem vecCmp_i32 (c : VCmpOp) (a b : BitVec 32) :
    (i32Holds c a b → vecCmp c .i32 a.toNat b.toNat = (2 ^ 32 - 1, 0)) ∧ (¬ i32Holds c a b → vecCmp c .i32 a.toNat b.toNat = (0, 0)) := by
  have h : (cmpHolds c .i32 a.toNat b.toNat).1 = true ↔ i32Holds c a b := by
    cases c <;> simp [cmpHolds, vtInt, intVal_toNat, i32Holds, BitVec.toInt_inj]
  exact ⟨fun hc => congrArg (·, _) (if_pos (h.mpr hc)), fun hc => congrArg (·, _) (if_neg (fun h' => hc (h.mp h')))⟩

theorem intRules : IntRules := by
  intro acc a b p c m holds
  refine ⟨accumI32_eq acc p, ?_, ?_, ?_, ?_, ?_, ?_, vecAbs_i32 a, vecCmp_i32 c a b⟩
  · exact (i32Op_eq _ a b).trans (by rw [BitVec.ofInt_add, BitVec.ofInt_toInt, BitVec.ofInt_toInt])
  · exact (i32Op_eq _ a b).trans (by
      rw [Int.sub_eq_add_neg, BitVec.ofInt_add, BitVec.ofInt_neg, BitVec.ofInt_toInt, BitVec.ofInt_toInt, ← BitVec.sub_eq_add_neg])
  · exact (i32Op_eq _ a b).trans (by rw [BitVec.ofInt_mul, BitVec.ofInt_toInt, BitVec.ofInt_toInt])
  · refine (i32Op_eq _ a b).trans ?_
    rw [min_def]; split <;> rw [BitVec.ofInt_toInt]
  · refine (i32Op_eq _ a b).trans ?_
    rw [max_def]; split <;> rw [BitVec.ofInt_toInt]
  · show (intBits 32 (-(intVal 32 a.toNat)), _) = _
    rw [intVal_toNat, intBits_eq_toNat, BitVec.ofInt_neg, BitVec.ofInt_toInt]

/-! The pairwise tree, level by level and in halves. -/

section
variable {α : Type} (op : α → α → α × BitVec 5) (d : α)

/-- One level: neighbours combined. -/
def treePairs : List α → List α × BitVec 5
  | a :: b :: rest => ((op a b).1 :: (treePairs rest).1, (op a b).2 ||| (treePairs rest).2)
  | l => (l, 0)

/-- n levels and the value that is left. -/
def treeLevels : Nat → List α → α × BitVec 5
  | 0, l => (l.headD d, 0)
  | n + 1, l => ((treeLevels n (treePairs op l).1).1, (treePairs op l).2 ||| (treeLevels n (treePairs op l).1).2)

/-- The two halves of 2^n values combined. -/
def treeHalves : Nat → List α → α × BitVec 5
  | 0, l => (l.headD d, 0)
  | n + 1, l =>
    let a := treeHalves n (l.take (2 ^ n))
    let b := treeHalves n (l.drop (2 ^ n))
    ((op a.1 b.1).1, a.2 ||| b.2 ||| (op a.1 b.1).2)

theorem treePairs_append : ∀ (m : Nat) {l : List α} (r : List α), l.length = 2 * m →
    treePairs op (l ++ r) = ((treePairs op l).1 ++ (treePairs op r).1, (treePairs op l).2 ||| (treePairs op r).2)
  | 0, l, r, h => by
    obtain rfl : l = [] := List.eq_nil_of_length_eq_zero h
    simp [treePairs]
  | m + 1, l, r, h => by
    match l, h with
    | a :: b :: l, h =>
      have hl : l.length = 2 * m := by simp at h; omega
      simp [treePairs, treePairs_append m r hl, BitVec.or_assoc]

theorem length_treePairs : ∀ (m : Nat) {l : List α}, l.length = 2 * m → (treePairs op l).1.length = m
  | 0, l, h => by
    obtain rfl : l = [] := List.eq_nil_of_length_eq_zero h
    rfl
  | m + 1, l, h => by
    match l, h with
    | a :: b :: l, h =>
      have hl : l.length = 2 * m := by simp at h; omega
      simp [treePairs, length_treePairs m hl]

/-- The levels of two halves of 2^n values each are those of the halves, and one more. -/
theorem treeLevels_append : ∀ (n : Nat) {l r : List α}, l.length = 2 ^ n → r.length = 2 ^ n →
    treeLevels op d (n + 1) (l ++ r) = ((op (treeLevels op d n l).1 (treeLevels op d n r).1).1,
      (treeLevels op d n l).2 ||| (treeLevels op d n r).2 ||| (op (treeLevels op d n l).1 (treeLevels op d n r).1).2)
  | 0, l, r, hl, hr => by
    obtain ⟨a, rfl⟩ := List.length_eq_one_iff.mp hl
    obtain ⟨b, rfl⟩ := List.length_eq_one_iff.mp hr
    simp [treeLevels, treePairs]
  | n + 1, l, r, hl, hr => by
    rw [pow_succ'] at hl hr
    have h := treeLevels_append n (length_treePairs op _ hl) (length_treePairs op _ hr)
    rw [treeLevels, treePairs_append op _ r hl, h]
    simp only [treeLevels]
    refine Prod.ext rfl ?_
    ac_rfl

theorem treeLevels_eq_treeHalves : ∀ (n : Nat) {l : List α}, l.length = 2 ^ n → treeLevels op d n l = treeHalves op d n l
  | 0, _, _ => rfl
  | n + 1, l, h => by
    rw [pow_succ, mul_two] at h
    have htake : (l.take (2 ^ n)).length = 2 ^ n := by rw [List.length_take]; omega
    have hdrop : (l.drop (2 ^ n)).length = 2 ^ n := by rw [List.length_drop]; omega
    have hsplit := treeLevels_append op d n htake hdrop
    rw [List.take_append_drop, treeLevels_eq_treeHalves n htake, treeLevels_eq_treeHalves n hdrop] at hsplit
    exact hsplit

theorem treeLevels_singleton (n : Nat) (a : α) : treeLevels op d n [a] = (a, 0) := by
  induction n with
  | zero => rfl
  | succ n ih => simp [treeLevels, treePairs, ih]

/-- Levels beyond those that leave one value change nothing. -/
theorem treeLevels_add (j : Nat) : ∀ (n : Nat) {l : List α}, l.length = 2 ^ n → treeLevels op d (n + j) l = treeLevels op d n l
  | 0, l, h => by
    obtain ⟨a, rfl⟩ := List.length_eq_one_iff.mp h
    rw [Nat.zero_add, treeLevels_singleton]; rfl
  | n + 1, l, h => by
    rw [pow_succ'] at h
    rw [Nat.add_right_comm, treeLevels, treeLevels_add j n (length_treePairs op _ h), treeLevels]

end

/-! The tree of a K-block (R167). -/

/-- A node: the sum of two values rounded once. -/
def treeNode (t : Fmt) (a b : Machine.Num) : Machine.Num × BitVec 5 :=
  let r := numAdd false a b
  let q := t.roundNum .rne r.1
  (t.value q.1, q.2 ||| flagIf r.2 fNV)

theorem treeLevel_eq (t : Fmt) : ∀ l : List Machine.Num, treeLevel t l = treePairs (treeNode t) l
  | [] => rfl
  | [_] => rfl
  | a :: b :: l => by rw [treeLevel, treePairs, treeLevel_eq t l]; rfl

theorem treeSum_eq (t : Fmt) (n : Nat) : ∀ l : List Machine.Num, treeSum t n l = treeLevels (treeNode t) plusZero n l := by
  induction n with
  | zero => exact fun _ => rfl
  | succ n ih => intro l; simp only [treeSum, treeLevels, treeLevel_eq, ih]

theorem tree_eq (t : Fmt) (n : Nat) : ∀ l : List Machine.Num, tree t n l = treeHalves (treeNode t) plusZero n l := by
  induction n with
  | zero => exact fun _ => rfl
  | succ n ih =>
    intro l
    simp only [tree, treeHalves, ih, treeNode, ← BitVec.or_assoc]
    rfl

theorem treeSum_eq_tree (t : Fmt) {n : Nat} {l : List Machine.Num} (h : l.length = 2 ^ n) : treeSum t n l = tree t n l := by
  rw [treeSum_eq, treeLevels_eq_treeHalves _ _ n h, tree_eq]

theorem foldl_or_flagIf {α : Type} (p : α → Bool) (fl : BitVec 5) (l : List α) :
    l.foldl (fun f a => f ||| flagIf (p a) fl) 0 = if l.any p then fl else 0 := by
  refine BitVec.eq_of_getLsbD_eq (fun z _ => ?_)
  rw [getLsbD_foldl_flags (fun a => flagIf (p a) fl)]
  cases hl : l.any p
  · simp only [List.any_eq_false] at hl
    simp only [flagIf]
    rw [List.any_eq_false.mpr (fun a ha => by simp [hl a ha])]
    simp
  · obtain ⟨a, ha, hp⟩ := List.any_eq_true.mp hl
    cases hz : fl.getLsbD z
    · rw [List.any_eq_false.mpr (fun b _ => by unfold flagIf; split <;> simp [hz])]; simp [hz]
    · rw [List.any_eq_true.mpr ⟨a, ha, by simp [flagIf, hp, hz]⟩]; simp [hz]

end Sys2Proof.Machine
end

section
/-! PROOFS. The sums of a K-block (R142, R143, R167). -/

namespace Sys2Proof.Machine

open Sys2Proof.Claim

/-! Terms of an FP8 sum. -/

/-- The exact product of a term, and whether it is an invalid operation. -/
def termProduct (ta tb : Fmt) : Option (Nat × Nat) → Machine.Num × Bool
  | some (a, b) => numMul (ta.value a) (tb.value b)
  | none => (plusZero, false)

def termHasNan (ta tb : Fmt) : Option (Nat × Nat) → Bool
  | some (a, b) => (ta.value a).isNan || (tb.value b).isNan
  | none => false

/-- P of an FP8 pair whose terms have the products ps, in the order of its cases. -/
def fp8Cases (nan : Bool) (ps : List (Machine.Num × Bool)) : Nat × BitVec 5 :=
  let vs := ps.map Prod.fst
  if nan then (fmt32.qnan, 0)
  else if ps.any (fun p => p.2) then (fmt32.qnan, fNV)
  else if vs.any isPlusInf && vs.any isMinusInf then (fmt32.qnan, fNV)
  else if vs.any isPlusInf then (fmt32.infBits false, 0)
  else if vs.any isMinusInf then (fmt32.infBits true, 0)
  else if (exactSum vs).isZero then (fmt32.sign (vs.all isMinusZero) 0, 0)
  else fmt32.roundNum .rne (exactSum vs)

theorem fp8Sum_eq_fp8Cases (ta tb : Fmt) (l : List (Option (Nat × Nat))) :
    fp8Sum ta tb l = fp8Cases (l.any (termHasNan ta tb)) (l.map (termProduct ta tb)) := rfl

theorem fp8Sum_eq (ta tb : Fmt) (l : List (Option (Nat × Nat))) :
    let v := fun z => (termProduct ta tb z).1
    fp8Sum ta tb l =
      if l.any (termHasNan ta tb) then (fmt32.qnan, 0)
      else if l.any (fun z => (termProduct ta tb z).2) then (fmt32.qnan, fNV)
      else if l.any (fun z => isPlusInf (v z)) && l.any (fun z => isMinusInf (v z)) then (fmt32.qnan, fNV)
      else if l.any (fun z => isPlusInf (v z)) then (fmt32.infBits false, 0)
      else if l.any (fun z => isMinusInf (v z)) then (fmt32.infBits true, 0)
      else if (exactSum (l.map v)).isZero then (fmt32.sign (l.all (fun z => isMinusZero (v z))) 0, 0)
      else fmt32.roundNum .rne (exactSum (l.map v)) := by
  rw [fp8Sum_eq_fp8Cases]
  simp only [fp8Cases, List.any_map, List.all_map, List.map_map, Function.comp_def]

/-! Exact sums in units of 2^-40. -/

/-- A finite value in units of 2^-40. -/
def Num.units : Machine.Num → Int
  | .fin n m e => signed n (m * 2 ^ (e + 40).toNat)
  | _ => 0

/-- A finite value that is a multiple of 2^-40. -/
def Num.IsUnits (v : Machine.Num) : Prop := ∃ n m e, v = .fin n m e ∧ -40 ≤ e

theorem signed_mul (neg : Bool) (n k : Nat) : signed neg (n * k) = signed neg n * k := by
  cases neg <;> simp [signed]

theorem signed_natAbs (n : Int) : signed (decide (n < 0)) n.natAbs = n := by
  unfold signed
  simp only [decide_eq_true_eq]
  split <;> omega

theorem signed_zero (neg : Bool) : signed neg 0 = 0 := by cases neg <;> rfl

theorem natAbs_signed (neg : Bool) (n : Nat) : (signed neg n).natAbs = n := by cases neg <;> simp [signed]

theorem decide_signed_neg (neg : Bool) {n : Nat} (h : n ≠ 0) : decide (signed neg n < 0) = neg := by
  cases neg
  · simp [signed]
  · simp [signed]; omega

theorem addFin_units (an : Bool) (am : Nat) {ae : Int} (ha : -40 ≤ ae) (bn : Bool) (bm : Nat) {be : Int} (hb : -40 ≤ be) :
    (addFin false an am ae bn bm be).IsUnits ∧
    (addFin false an am ae bn bm be).units = (Num.fin an am ae).units + (Num.fin bn bm be).units := by
  set e := min ae be with he
  have hscale (neg : Bool) (m : Nat) {f : Int} (hf : e ≤ f) :
      signed neg (m * 2 ^ (f + 40).toNat) = signed neg (m * 2 ^ (f - e).toNat) * (2 ^ (e + 40).toNat : Nat) := by
    have hk : (f + 40).toNat = (f - e).toNat + (e + 40).toNat := by omega
    rw [← signed_mul, mul_assoc, ← pow_add, hk]
  have hunits : (Num.fin an am ae).units + (Num.fin bn bm be).units =
      (signed an (am * 2 ^ (ae - e).toNat) + signed bn (bm * 2 ^ (be - e).toNat)) * (2 ^ (e + 40).toNat : Nat) := by
    rw [Num.units, Num.units, hscale an am (min_le_left ..), hscale bn bm (min_le_right ..), add_mul]
  rw [hunits, addFin_eq]
  simp only [← he]
  split
  · next h0 => exact ⟨⟨_, _, _, rfl, by omega⟩, by rw [h0, Num.units, zero_mul, signed_zero, zero_mul]⟩
  · exact ⟨⟨_, _, _, rfl, by omega⟩, by rw [Num.units, signed_mul, signed_natAbs]⟩

theorem exactSum_units : ∀ {vs : List Machine.Num}, (∀ v ∈ vs, v.IsUnits) →
    (exactSum vs).IsUnits ∧ (exactSum vs).units = (vs.map Num.units).sum
  | [], _ => ⟨⟨_, _, _, rfl, by decide⟩, rfl⟩
  | v :: vs, h => by
    obtain ⟨hs, hsum⟩ := exactSum_units (fun w hw => h w (List.mem_cons_of_mem _ hw))
    obtain ⟨an, am, ae, rfl, ha⟩ := h v List.mem_cons_self
    obtain ⟨bn, bm, be, hb, hbe⟩ := hs
    have hadd := addFin_units an am ha bn bm hbe
    rw [exactSum, List.map_cons, List.sum_cons, ← hsum, hb]
    exact hadd

theorem versus_units (m : Nat) {e : Int} (h : -40 ≤ e) : versus (m * 2 ^ (e + 40).toNat) 1 (-40) = versus m 1 e := by
  funext k f
  have hs := scaled_eq m h
  rw [sub_neg_eq_add] at hs
  rw [versus_eq_compare one_pos, versus_eq_compare one_pos, Nat.cast_one, div_one, div_one, hs]

theorem rounded_of_units {v : Machine.Num} (hv : v.IsUnits) (h0 : v.units ≠ 0) :
    Rounded fmt32 0x7F7FFFFF 0x7F800000 .rne false (decide (v.units < 0)) (versus v.units.natAbs 1 (-40)) (fmt32.roundNum .rne v) := by
  obtain ⟨n, m, e, rfl, he⟩ := hv
  rw [Num.units] at h0 ⊢
  have hm : m * 2 ^ (e + 40).toNat ≠ 0 := by rintro h; rw [h, signed_zero] at h0; exact h0 rfl
  rw [decide_signed_neg n hm, natAbs_signed, versus_units m he]
  exact rounded_roundNum (by decide) .rne n e (left_ne_zero_of_mul hm)

theorem isZero_iff_units {v : Machine.Num} (hv : v.IsUnits) : v.isZero = true ↔ v.units = 0 := by
  obtain ⟨n, m, e, rfl, he⟩ := hv
  rw [Num.isZero, Num.units, beq_iff_eq]
  constructor
  · rintro rfl; rw [zero_mul, signed_zero]
  · intro h
    have := natAbs_signed n (m * 2 ^ (e + 40).toNat)
    rw [h, Int.natAbs_zero] at this
    exact (Nat.mul_eq_zero.mp this.symm).resolve_right (Nat.two_pow_pos _).ne'

/-! Products that are not finite. -/

def Num.IsZero (v : Machine.Num) : Prop := ∃ n e, v = .fin n 0 e
def Num.IsInf (v : Machine.Num) : Prop := v = .inf true ∨ v = .inf false

/-- When the product of two numbers is an invalid operation, and when it is an infinity. -/
theorem numMul_special {u v : Machine.Num} (h : (u.isNan || v.isNan) = false) :
    ((numMul u v).2 = true ↔ u.IsInf ∧ v.IsZero ∨ u.IsZero ∧ v.IsInf) ∧
    ∀ neg, (numMul u v).1 = .inf neg ↔ (u.IsInf ∧ ¬ v.IsZero ∨ ¬ u.IsZero ∧ v.IsInf) ∧ (u.isNeg != v.isNeg) = neg := by
  cases u with
  | nan s => simp [Num.isNan] at h
  | inf an =>
    cases v with
    | nan s => simp [Num.isNan] at h
    | inf bn => simp [numMul, Num.IsInf, Num.IsZero, Num.isNeg]
    | fin bn bm be => by_cases h0 : bm = 0 <;> simp [numMul, Num.IsInf, Num.IsZero, Num.isNeg, h0]
  | fin an am ae =>
    cases v with
    | nan s => simp [Num.isNan] at h
    | inf bn => by_cases h0 : am = 0 <;> simp [numMul, Num.IsInf, Num.IsZero, Num.isNeg, h0]
    | fin bn bm be => simp [numMul, Num.IsInf]

theorem isPlusInf_iff (v : Machine.Num) : isPlusInf v = true ↔ v = .inf false := by
  cases v <;> simp [isPlusInf]

theorem isMinusInf_iff (v : Machine.Num) : isMinusInf v = true ↔ v = .inf true := by
  cases v <;> simp [isMinusInf]

section
variable {ta tb : Fmt} {l : List (Option (Nat × Nat))}

/-- The terms that are pairs decide every question about the products that no absent pair answers yes to. -/
theorem any_terms_iff {p : Option (Nat × Nat) → Bool} (h : p none = false) :
    l.any p = true ↔ ∃ x y, some (x, y) ∈ l ∧ p (some (x, y)) = true := by
  rw [List.any_eq_true]
  constructor
  · rintro ⟨_ | ⟨x, y⟩, hz, hp⟩
    · rw [h] at hp; exact absurd hp Bool.false_ne_true
    · exact ⟨x, y, hz, hp⟩
  · rintro ⟨x, y, hz, hp⟩
    exact ⟨_, hz, hp⟩

theorem any_termHasNan_iff : l.any (termHasNan ta tb) = true ↔ ∃ x y, some (x, y) ∈ l ∧ ((ta.value x).isNan || (tb.value y).isNan) = true :=
  any_terms_iff rfl

theorem fp8Sum_of_nan {x y : Nat} (hz : some (x, y) ∈ l) (h : ((ta.value x).isNan || (tb.value y).isNan) = true) :
    fp8Sum ta tb l = (0x7FC00000, 0) := by
  rw [fp8Sum_eq, if_pos (any_termHasNan_iff.mpr ⟨x, y, hz, h⟩)]; rfl

section
variable (hnan : ∀ x y, some (x, y) ∈ l → ((ta.value x).isNan || (tb.value y).isNan) = false)
include hnan

theorem any_termHasNan_eq_false : l.any (termHasNan ta tb) = false := by
  rw [Bool.eq_false_iff, ne_eq, any_termHasNan_iff]
  rintro ⟨x, y, hz, h⟩
  rw [hnan x y hz] at h; exact Bool.false_ne_true h

theorem any_invalid_iff : l.any (fun z => (termProduct ta tb z).2) = true ↔
    ∃ x y, some (x, y) ∈ l ∧ ((ta.value x).IsInf ∧ (tb.value y).IsZero ∨ (ta.value x).IsZero ∧ (tb.value y).IsInf) := by
  rw [any_terms_iff rfl]
  exact exists_congr fun x => exists_congr fun y => and_congr_right fun hz => (numMul_special (hnan x y hz)).1

theorem any_inf_iff (neg : Bool) : l.any (fun z => (if neg then isMinusInf else isPlusInf) (termProduct ta tb z).1) = true ↔
    ∃ x y, some (x, y) ∈ l ∧ ((ta.value x).IsInf ∧ ¬ (tb.value y).IsZero ∨ ¬ (ta.value x).IsZero ∧ (tb.value y).IsInf) ∧
      ((ta.value x).isNeg != (tb.value y).isNeg) = neg := by
  have hsign (v : Machine.Num) : (if neg then isMinusInf else isPlusInf) v = true ↔ v = .inf neg := by
    cases neg
    · exact isPlusInf_iff v
    · exact isMinusInf_iff v
  rw [any_terms_iff (by cases neg <;> rfl)]
  exact exists_congr fun x => exists_congr fun y => and_congr_right fun hz => (hsign _).trans ((numMul_special (hnan x y hz)).2 neg)

end

section
variable (hfin : ∀ x y, some (x, y) ∈ l → ∃ xn xm xe yn ym ye, ta.value x = .fin xn xm xe ∧ tb.value y = .fin yn ym ye ∧ -40 ≤ xe + ye)
include hfin

theorem termProduct_of_fin {z : Option (Nat × Nat)} (hz : z ∈ l) : (termProduct ta tb z).1.IsUnits ∧ (termProduct ta tb z).2 = false := by
  rcases z with _ | ⟨x, y⟩
  · exact ⟨⟨_, _, _, rfl, by decide⟩, rfl⟩
  · obtain ⟨xn, xm, xe, yn, ym, ye, hx, hy, he⟩ := hfin x y hz
    rw [termProduct, hx, hy]
    exact ⟨⟨_, _, _, rfl, he⟩, rfl⟩

/-- The sum of finite terms is the rounding of their exact sum, or a zero. -/
theorem fp8Sum_of_fin : fp8Sum ta tb l = if (exactSum (l.map (fun z => (termProduct ta tb z).1))).isZero then
      (fmt32.sign (l.all (fun z => isMinusZero (termProduct ta tb z).1)) 0, 0)
    else fmt32.roundNum .rne (exactSum (l.map (fun z => (termProduct ta tb z).1))) := by
  have hnan : l.any (termHasNan ta tb) = false := any_termHasNan_eq_false fun x y hz => by
    obtain ⟨xn, xm, xe, yn, ym, ye, hx, hy, -⟩ := hfin x y hz
    rw [hx, hy]; rfl
  have hvalid : l.any (fun z => (termProduct ta tb z).2) = false :=
    List.any_eq_false.mpr fun z hz => by simp [(termProduct_of_fin hfin hz).2]
  have hinf (p : Machine.Num → Bool) (hp : ∀ n m e, p (.fin n m e) = false) : l.any (fun z => p (termProduct ta tb z).1) = false :=
    List.any_eq_false.mpr fun z hz => by
      obtain ⟨⟨n, m, e, hv, -⟩, -⟩ := termProduct_of_fin hfin hz
      simp [hv, hp]
  rw [fp8Sum_eq]
  simp only [hnan, hvalid, hinf isPlusInf (fun _ _ _ => rfl), hinf isMinusInf (fun _ _ _ => rfl), Bool.false_and, Bool.false_eq_true, if_false]

theorem exactSum_terms : (exactSum (l.map (fun z => (termProduct ta tb z).1))).IsUnits ∧
    (exactSum (l.map (fun z => (termProduct ta tb z).1))).units = (l.map (fun z => (termProduct ta tb z).1.units)).sum := by
  have h := exactSum_units (vs := l.map (fun z => (termProduct ta tb z).1)) (fun v hv => by
    obtain ⟨z, hz, rfl⟩ := List.mem_map.mp hv
    exact (termProduct_of_fin hfin hz).1)
  rwa [List.map_map] at h

end
end

/-- A product that is -0: a zero of finite factors of opposite signs. -/
theorem isMinusZero_numMul (u v : Machine.Num) : isMinusZero (numMul u v).1 = true ↔
    ∃ xn xm xe yn ym ye, u = .fin xn xm xe ∧ v = .fin yn ym ye ∧ xm * ym = 0 ∧ xn ≠ yn := by
  cases u with
  | fin an am ae =>
    cases v with
    | fin bn bm be => simp [numMul, isMinusZero, and_comm]
    | inf bn => rw [numMul]; split <;> simp [isMinusZero]
    | nan bs => simp [numMul, isMinusZero]
  | inf an =>
    cases v with
    | fin bn bm be => rw [numMul]; split <;> simp [isMinusZero]
    | inf bn => simp [numMul, isMinusZero]
    | nan bs => simp [numMul, isMinusZero]
  | nan as => cases v <;> simp [numMul, isMinusZero]

theorem isMinusZero_termProduct {ta tb : Fmt} (z : Option (Nat × Nat)) : isMinusZero (termProduct ta tb z).1 = true ↔
    ∃ x y xn xm xe yn ym ye, z = some (x, y) ∧ ta.value x = .fin xn xm xe ∧ tb.value y = .fin yn ym ye ∧ xm * ym = 0 ∧ xn ≠ yn := by
  rcases z with _ | ⟨x, y⟩
  · simp [termProduct, plusZero, isMinusZero]
  · rw [termProduct, isMinusZero_numMul]
    constructor
    · rintro ⟨xn, xm, xe, yn, ym, ye, h⟩
      exact ⟨x, y, xn, xm, xe, yn, ym, ye, rfl, h⟩
    · rintro ⟨_, _, xn, xm, xe, yn, ym, ye, ⟨⟩, h⟩
      exact ⟨xn, xm, xe, yn, ym, ye, h⟩

/-! INT8. -/

theorem foldl_eq_add_sum {α : Type} {f : α → Int} {step : Int → α → Int} (h : ∀ c a, step c a = c + f a) (l : List α) (c : Int) :
    l.foldl step c = c + (l.map f).sum := by
  induction l generalizing c with
  | nil => simp
  | cons a l ih => rw [List.foldl_cons, ih, h, List.map_cons, List.sum_cons, add_assoc]

/-- The product of an INT8 term. -/
def i8Product : Option (Nat × Nat) → Int
  | some (x, y) => (BitVec.ofNat 8 x).toInt * (BitVec.ofNat 8 y).toInt
  | none => 0

theorem i8Sum_eq (l : List (Option (Nat × Nat))) : i8Sum l = (l.map i8Product).sum := by
  refine (foldl_eq_add_sum (f := i8Product) (fun c z => ?_) l 0).trans (zero_add _)
  rcases z with _ | ⟨x, y⟩
  · exact (add_zero c).symm
  · simp only [i8Product, intVal_eq_toInt 7]

/-! The tree of the wider formats. -/

theorem treeBlock_eq (t tab : Fmt) {d : Nat} {l : List (Option (Nat × Nat))} (h : l.length = 2 ^ d) :
    let u := tree t d (l.map (fun z => (termProduct tab tab z).1))
    treeBlock t tab d l = ((t.roundNum .rne u.1).1, if l.any (fun z => (termProduct tab tab z).2) then fNV ||| u.2 else u.2) := by
  intro u
  have hblock : treeBlock t tab d l = ((t.roundNum .rne (treeSum t d ((l.map (termProduct tab tab)).map Prod.fst)).1).1,
      (l.map (termProduct tab tab)).foldl (fun f p => f ||| flagIf p.2 fNV) 0 ||| (treeSum t d ((l.map (termProduct tab tab)).map Prod.fst)).2) := rfl
  have hsum : treeSum t d ((l.map (termProduct tab tab)).map Prod.fst) = u := by
    rw [treeSum_eq_tree t (by simpa using h), List.map_map]; rfl
  rw [hblock, hsum, foldl_or_flagIf, List.any_map]
  refine Prod.ext rfl ?_
  simp only [Function.comp_def]
  split
  · rfl
  · exact BitVec.zero_or

theorem sumRules : SumRules := by
  intro f l acc p sA sB a b sg prod finite total zero inf minus mixed infinite leaf s m r
  have hprod (hfin : finite) {z} (hz : z ∈ l) : prod z = (termProduct a b z).1.units := by
    rcases z with _ | ⟨x, y⟩
    · rfl
    · obtain ⟨xn, xm, xe, yn, ym, ye, hx, hy, -⟩ := hfin x y hz
      simp only [prod, termProduct, hx, hy]
      rfl
  have htot (hfin : finite) : total = (exactSum (l.map (fun z => (termProduct a b z).1))).units :=
    (congrArg List.sum (List.map_congr_left fun z hz => hprod hfin hz)).trans (exactSum_terms hfin).2.symm
  have hleaf : leaf = termProduct a a := by funext z; rcases z with _ | ⟨x, y⟩ <;> rfl
  refine ⟨?_, fun hfin htotal => ?_, fun hfin htotal => ?_, fun hnan => ?_, fun x y hz h => fp8Sum_of_nan hz h, fun t d hl => ?_, rfl⟩
  · refine (i8Sum_eq l).trans (congrArg List.sum (List.map_congr_left fun z _ => ?_))
    rcases z with _ | ⟨x, y⟩ <;> rfl
  · obtain ⟨hunits, -⟩ := exactSum_terms hfin
    rw [htot hfin] at htotal ⊢
    rw [fp8Sum_of_fin hfin, if_neg (fun h => htotal ((isZero_iff_units hunits).mp h))]
    exact rounded_of_units hunits htotal
  · obtain ⟨hunits, -⟩ := exactSum_terms hfin
    rw [fp8Sum_of_fin hfin, if_pos ((isZero_iff_units hunits).mpr ((htot hfin).symm.trans htotal))]
    have hall : l.all (fun z => isMinusZero (termProduct a b z).1) = true ↔ ∀ z ∈ l, minus z := by
      rw [List.all_eq_true]
      exact forall₂_congr fun z _ => isMinusZero_termProduct z
    refine ⟨fun h => ?_, fun h => ?_⟩
    · rw [hall.mpr h]; rfl
    · rw [Bool.eq_false_iff.mpr (fun h' => h (hall.mp h'))]; rfl
  · have hmixed : l.any (fun z => (termProduct a b z).2) = true ↔ mixed := any_invalid_iff hnan
    have hplus : l.any (fun z => isPlusInf (termProduct a b z).1) = true ↔ infinite false := any_inf_iff hnan false
    have hminus : l.any (fun z => isMinusInf (termProduct a b z).1) = true ↔ infinite true := any_inf_iff hnan true
    have hno : l.any (termHasNan a b) = false := any_termHasNan_eq_false hnan
    rw [← hmixed, ← hplus, ← hminus, fp8Sum_eq]
    simp only [hno, Bool.and_eq_true, Bool.false_eq_true, if_false]
    refine ⟨fun h => ?_, fun h hp hm => ?_, fun h hp hm => ?_, fun h hm hp => ?_⟩
    · rw [if_pos h]; rfl
    · rw [if_neg h, if_pos ⟨hp, hm⟩]; rfl
    · rw [if_neg h, if_neg (fun hb => hm hb.2), if_pos hp]; rfl
    · rw [if_neg h, if_neg (fun hb => hp hb.1), if_neg hp, if_pos hm]; rfl
  · intro u
    rw [treeBlock_eq t a hl]
    simp only [u, hleaf]

end Sys2Proof.Machine
end

section
/-! PROOFS. The rows that MOUT writes (R161). -/

namespace Sys2Proof.Machine

open Sys2Proof.Claim

/-! The scale of a quantised row. -/

theorem fmt32_sign_lt {k : Nat} (neg : Bool) (h : k < 2 ^ 31) : fmt32.sign neg k < 2 ^ 32 := by
  cases neg
  · exact h.trans (by decide)
  · show k + 2 ^ 31 < 2 ^ 32
    omega

theorem fmt32_round_lt (mode : RMode) (sat neg : Bool) (num den : Nat) (e : Int) : (fmt32.round mode sat neg num den e).1 < 2 ^ 32 := by
  have hmax : fmt32.maxBits < 2 ^ 31 := by decide
  by_cases hnum : num = 0
  · subst hnum
    exact fmt32_sign_lt neg (by decide)
  · have h := fmt32.round_eq_rounded mode sat neg den e (Nat.pos_of_ne_zero hnum)
    dsimp only at h
    rw [h]
    split
    · cases mode <;> cases neg <;> cases sat <;> decide
    · next hle => exact fmt32_sign_lt neg ((not_lt.mp hle).trans_lt hmax)

theorem quantScale_lt (g : CvtTgt) (vs : List Machine.Num) : quantScale g vs < 2 ^ 32 := by
  unfold quantScale
  split
  · split
    · decide
    · exact fmt32_round_lt ..
  · decide

/-! A quantised row: 128 bytes of elements and a word with the scale. -/

section
variable {ys : List Nat} (hn : ys.length ≤ 128) (v : Nat)
include hn

theorem length_quantRow : (packElems 1 128 ys ++ bytesOf v 8).length = 136 := by
  rw [List.length_append, length_packElems (by omega), length_bytesOf]

theorem getD_quantRow {k : Nat} (hk : k < 128) : (packElems 1 128 ys ++ bytesOf v 8).getD k 0 = BitVec.ofNat 8 (ys.getD k 0) := by
  have h := getD_packElems (i := 0) 128 ys k one_pos
  rw [List.getD_append _ _ _ _ (by rw [length_packElems (by omega)]; exact hk)]
  simpa using h

theorem elementOf_quantRow_scale {sc : Nat} (hsc : sc < 2 ^ 32) : elementOf (packElems 1 128 ys ++ bytesOf (sc + 2 ^ 32) 8) 8 16 = 2 ^ 32 + sc % 2 ^ 32 := by
  have hbytes : elementOf (packElems 1 128 ys ++ bytesOf (sc + 2 ^ 32) 8) 8 16 = (sc + 2 ^ 32) % 256 ^ 8 := by
    rw [elementOf, ← sum_bytes]
    congr 1
    refine List.map_congr_left (fun i hi => ?_)
    have hi := List.mem_range.mp hi
    rw [List.getD_append_right _ _ _ _ (by rw [length_packElems (by omega)]; omega), length_packElems (by omega),
      Nat.add_sub_cancel_left, getD_bytesOf _ hi]
  rw [hbytes]
  omega

end

theorem elementOf_one (bs : List Byte) (k : Nat) : elementOf bs 1 k = (bs.getD k 0).toNat := by simp [elementOf]

/-! Rows. -/

theorem outRow_of_plain {i32 : Bool} {w : Word} {mode : RMode} {row : List (Machine.Num × Nat)} (h : bit w 4 = false) :
    outRow i32 w mode row = (packElems (tgtBytes (outTgt w)) ((row.length * tgtBytes (outTgt w) + 7) / 8 * 8)
      (row.map (fun x => (outElement i32 (outTgt w) mode (bit w 3) x).1)),
      (row.map (outElement i32 (outTgt w) mode (bit w 3))).foldl (fun f p => f ||| p.2) 0) := by
  simp only [outRow, outBytes, h, Bool.false_eq_true, if_false, packElems, List.flatMap_map]

/-- An element of a quantised row. -/
def quantElement (g : CvtTgt) (mode : RMode) (sc : Nat) (x : Machine.Num × Nat) : Nat × BitVec 5 :=
  convert g mode true (scaled x.1 sc).1 (scaled x.1 sc).2

theorem map_ofNat_eq_flatMap (ys : List Nat) : ys.map (BitVec.ofNat 8) = ys.flatMap (fun y => bytesOf y 1) := by
  induction ys with
  | nil => rfl
  | cons y ys ih => simp [ih, bytesOf]

theorem outRow_of_quant {i32 : Bool} {w : Word} {mode : RMode} {row : List (Machine.Num × Nat)} (h : bit w 4 = true) :
    let sc := quantScale (outTgt w) (row.map Prod.fst)
    outRow i32 w mode row = (packElems 1 128 (row.map (fun x => (quantElement (outTgt w) mode sc x).1)) ++ bytesOf (sc + 2 ^ 32) 8,
      (row.map (quantElement (outTgt w) mode sc)).foldl (fun f p => f ||| p.2) 0) := by
  intro sc
  simp only [outRow, h, if_true, packElems, ← map_ofNat_eq_flatMap, List.map_map]
  rfl

theorem getD_map_of_lt {α β : Type} (f : α → β) (d : α) (e : β) {l : List α} {j : Nat} (h : j < l.length) :
    (l.map f).getD j e = f (l.getD j d) := by
  simp [List.getD_eq_getElem?_getD, h]

theorem getD_mem_of_lt {α : Type} (d : α) {l : List α} {j : Nat} (h : j < l.length) : l.getD j d ∈ l := by
  rw [List.getD_eq_getElem _ _ h]; exact List.getElem_mem h

theorem rowRules : RowRules := by
  intro i32 w mode row j hj g eb x sat same sc d q y
  have hx : x ∈ row := getD_mem_of_lt _ hj
  refine ⟨fun hq => ?_, fun hq hlen => ?_⟩
  · have hy : y = _ := outRow_of_plain hq
    have hsame : same = outElement i32 g mode sat x := by
      simp only [same]
      cases g <;> rfl
    rw [hy, hsame]
    refine ⟨length_packElems ?_, ?_, and_foldl_or Prod.snd (List.mem_map_of_mem hx)⟩
    · rw [List.length_map]; exact mul_le_up8 ..
    · rw [elementOf_packElems, getD_map_of_lt _ _ _ hj]
  · have hy : y = _ := outRow_of_quant hq
    rw [hy]
    set ys := row.map (fun x => (quantElement (outTgt w) mode sc x).1) with hys
    have hn : ys.length ≤ 128 := by rw [hys, List.length_map]; exact hlen
    refine ⟨length_quantRow hn _, ?_, fun i hi hi' => ?_, elementOf_quantRow_scale hn (quantScale_lt ..),
      and_foldl_or Prod.snd (List.mem_map_of_mem (f := quantElement (outTgt w) mode sc) hx)⟩
    · rw [elementOf_one, getD_quantRow hn _ (by omega), hys, getD_map_of_lt _ (.fin false 0 0, 0) _ hj, BitVec.toNat_ofNat]; rfl
    · rw [getD_quantRow hn _ hi', List.getD_eq_default _ _ (by rw [hys, List.length_map]; exact hi)]; rfl

end Sys2Proof.Machine
end

section
/-! PROOFS. Conversions, reductions, gathers, scatters and the vector accumulator (R179, R183 to R188). -/

namespace Sys2Proof.Machine

open Sys2Proof.Claim

/-! Reductions (R187). -/

theorem pairLevel_eq (op : Nat → Nat → Nat × BitVec 5) : ∀ l : List Nat, pairLevel op l = treePairs op l
  | [] => rfl
  | [_] => rfl
  | a :: b :: l => by rw [pairLevel, treePairs, pairLevel_eq op l]

theorem pairTree_eq (op : Nat → Nat → Nat × BitVec 5) (n : Nat) : ∀ l : List Nat, pairTree op n l = treeLevels op 0 n l := by
  induction n with
  | zero => exact fun _ => rfl
  | succ n ih => intro l; simp only [pairTree, treeLevels, pairLevel_eq, ih]

theorem opTree_eq (op : Nat → Nat → Nat × BitVec 5) (n : Nat) : ∀ l : List Nat, opTree op n l = treeHalves op 0 n l := by
  induction n with
  | zero => exact fun _ => rfl
  | succ n ih => intro l; simp only [opTree, treeHalves, ih]

theorem filter_range_beq {n l : Nat} (h : l < n) : (List.range n).filter (fun k => k == l) = [l] := by
  rw [List.filter_beq, List.count_eq_one_of_mem List.nodup_range (List.mem_range.mpr h)]
  rfl

theorem eq_map_range_getD (xs : List Nat) : xs = (List.range xs.length).map (fun k => xs.getD k 0) :=
  List.ext_getElem (by simp) (fun k h1 _ => by simp [h1])

/-- Of at most 64 elements each has a lane of its own. -/
theorem laneFold_of_le (op : Nat → Nat → Nat × BitVec 5) {xs : List Nat} (h : xs.length ≤ 64) : laneFold op xs = (xs, 0) := by
  have hlane {l : Nat} (hl : l < xs.length) : (xs.zipIdx.filter (fun p => p.2 % 64 == l)).map Prod.fst = [xs.getD l 0] := by
    have hfilter : (List.range xs.length).filter (fun k => k % 64 == l) = [l] := by
      rw [← filter_range_beq hl]
      refine List.filter_congr (fun k hk => ?_)
      rw [Nat.mod_eq_of_lt ((List.mem_range.mp hk).trans_le h)]
    conv_lhs => rw [eq_map_range_getD xs, zipIdx_map_range, List.filter_map, List.map_map]
    simp only [Function.comp_def]
    rw [hfilter]
    rfl
  have hmap : (List.range (min 64 xs.length)).map (fun l =>
      let mine := (xs.zipIdx.filter (fun p => p.2 % 64 == l)).map Prod.fst
      (mine.drop 1).foldl (fun (r : Nat × BitVec 5) x => let q := op r.1 x; (q.1, r.2 ||| q.2)) (mine.headD 0, 0)) =
      (List.range xs.length).map (fun l => (xs.getD l 0, 0)) := by
    rw [min_eq_right h]
    refine List.map_congr_left (fun l hl => ?_)
    rw [hlane (List.mem_range.mp hl)]
    rfl
  unfold laneFold
  simp only [hmap, gather2, List.map_map]
  refine Prod.ext (eq_map_range_getD xs).symm (foldl_or_zero (g := Prod.snd) (fun p hp => ?_))
  obtain ⟨l, -, rfl⟩ := List.mem_map.mp hp
  rfl

theorem reduce_of_length (t : VType) (op : Nat → Nat → Nat × BitVec 5) {l : List Nat} {k : Nat} (hl : l.length = 2 ^ k) (h0 : 0 < k) (h6 : k ≤ 6) :
    reduce t op l = opTree op k l := by
  have hle : l.length ≤ 64 := by rw [hl]; exact Nat.pow_le_pow_right two_pos h6
  have hne (x : Nat) : l ≠ [x] := by
    rintro rfl
    have := Nat.one_lt_two_pow h0.ne'
    simp at hl; omega
  have hreduce : reduce t op l = ((pairTree op 6 (laneFold op l).1).1, (laneFold op l).2 ||| (pairTree op 6 (laneFold op l).1).2) := by
    unfold reduce
    split
    · next x => exact absurd rfl (hne x)
    · rfl
  obtain ⟨j, hj⟩ : ∃ j, 6 = k + j := ⟨6 - k, by omega⟩
  rw [hreduce, laneFold_of_le op hle, pairTree_eq, hj, treeLevels_add op 0 j k hl, treeLevels_eq_treeHalves op 0 k hl, opTree_eq]
  exact Prod.ext rfl BitVec.zero_or

/-! Scatters (R186). -/

/-- The value left at j when the elements p are put at a, in order, over y. -/
theorem foldl_put_eq {y j : Nat} {p a : Nat → Nat} : ∀ n : Nat,
    ((∀ k < n, a k ≠ j) → (List.range n).foldl (fun y k => if a k = j then p k else y) y = y) ∧
    ∀ k < n, a k = j → (∀ l, k < l → l < n → a l ≠ j) → (List.range n).foldl (fun y k => if a k = j then p k else y) y = p k
  | 0 => ⟨fun _ => rfl, fun k hk => absurd hk (Nat.not_lt_zero k)⟩
  | n + 1 => by
    obtain ⟨hnone, hlast⟩ := foldl_put_eq (y := y) (j := j) (p := p) (a := a) n
    rw [List.range_succ, List.foldl_append]
    simp only [List.foldl_cons, List.foldl_nil]
    refine ⟨fun h => ?_, fun k hk hka h => ?_⟩
    · rw [if_neg (h n (Nat.lt_succ_self n)), hnone (fun k hk => h k (hk.trans (Nat.lt_succ_self n)))]
    · by_cases hkn : k = n
      · subst hkn; rw [if_pos hka]
      · rw [if_neg (h n (by omega) (Nat.lt_succ_self n)), hlast k (by omega) hka (fun l h1 h2 => h l h1 (by omega))]

theorem length_scatFrom (l : List (Nat × Nat)) : ∀ (ys : List Nat) (nv : Bool), (scatFrom ys nv l).1.length = ys.length := by
  induction l with
  | nil => exact fun _ _ => rfl
  | cons q l ih =>
    intro ys nv
    obtain ⟨x, ix⟩ := q
    rw [scatFrom]
    split
    · rw [ih, List.length_set]
    · rw [ih]

theorem getD_scatFrom {j : Nat} (l : List (Nat × Nat)) : ∀ (ys : List Nat) (nv : Bool), j < ys.length →
    (scatFrom ys nv l).1.getD j 0 = l.foldl (fun y q => if q.2 = j then q.1 else y) (ys.getD j 0) := by
  induction l with
  | nil => exact fun _ _ _ => rfl
  | cons q l ih =>
    intro ys nv hj
    obtain ⟨x, ix⟩ := q
    rw [scatFrom, List.foldl_cons]
    split
    · rw [ih _ _ (by rwa [List.length_set])]
      congr 1
      by_cases he : ix = j
      · subst he; simp [List.getD_eq_getElem?_getD, hj]
      · simp [List.getD_eq_getElem?_getD, List.getElem?_set_ne he, he]
    · next h =>
      rw [ih _ _ hj, if_neg (by omega)]

theorem scatFrom_nv (l : List (Nat × Nat)) : ∀ (ys : List Nat) (nv : Bool),
    (scatFrom ys nv l).2 = (nv || l.any (fun q => decide (ys.length ≤ q.2))) := by
  induction l with
  | nil => exact fun _ nv => (Bool.or_false nv).symm
  | cons q l ih =>
    intro ys nv
    obtain ⟨x, ix⟩ := q
    rw [scatFrom, List.any_cons]
    split
    · next h => rw [ih, List.length_set, decide_eq_false (by simpa using h), Bool.false_or]
    · next h => rw [ih, decide_eq_true (by simpa using h), Bool.true_or, Bool.or_true]

/-! The vector accumulator. -/

theorem toList_getD_eq {vacc : Vector (BitVec 32) 64} {l : Nat} (h : l < 64) : vacc.toList.getD l 0 = vacc[l] := by
  simp [List.getD_eq_getElem?_getD, h]

theorem macFrom_vacc (t : VType) {l : Nat} (hl : l < 64) (es : List ((Nat × Nat) × Nat)) : ∀ (vacc : Vector (BitVec 32) 64) (f : BitVec 5),
    ((macFrom t vacc f es).vacc[l]).toNat = (es.filter (fun q => q.2 % 64 = l)).foldl
      (fun y q => (vecFma (vtFmt t) fmt32 q.1.1 q.1.2 y).1 % 2 ^ 32) vacc[l].toNat := by
  induction es with
  | nil => exact fun _ _ => rfl
  | cons q es ih =>
    intro vacc f
    obtain ⟨⟨a, b⟩, k⟩ := q
    rw [macFrom, ih]
    by_cases he : k % 64 = l
    · subst he
      rw [List.filter_cons_of_pos (by simp), List.foldl_cons]
      congr 1
      simp [Vector.getD, hl]
    · rw [List.filter_cons_of_neg (by simpa using he)]
      congr 1
      simp [he]

theorem macFrom_out (t : VType) (es : List ((Nat × Nat) × Nat)) : ∀ (vacc : Vector (BitVec 32) 64) (f : BitVec 5), (macFrom t vacc f es).out = [] := by
  induction es with
  | nil => exact fun _ _ => rfl
  | cons q es ih =>
    intro vacc f
    obtain ⟨⟨a, b⟩, k⟩ := q
    rw [macFrom, ih]

/-! What each instruction writes. -/

section
variable {vacc : Vector (BitVec 32) 64}

/-- A result without flags. -/
theorem slotResult_of_values (eb len : Nat) (ys : List Nat) :
    ({ out := [packElems eb len ys], vacc := vacc } : VResult) = slotResult vacc eb len (ys.map (fun y => (y, 0))) := by
  have hfl : (ys.map (fun y => (y, (0 : BitVec 5)))).foldl (fun f r => f ||| r.2) 0 = 0 :=
    foldl_or_zero (g := Prod.snd) (fun p hp => by obtain ⟨y, -, rfl⟩ := List.mem_map.mp hp; rfl)
  simp only [slotResult, gather2, hfl, List.map_map, Function.comp_def, List.map_id']

/-- A result of one element. -/
theorem slotResult_of_one (eb len : Nat) (r : Nat × BitVec 5) :
    ({ out := [packElems eb len [r.1]], vacc := vacc, flags := r.2 } : VResult) = slotResult vacc eb len [r] := by
  have hfl : [r].foldl (fun f p => f ||| p.2) 0 = r.2 := BitVec.zero_or
  simp only [slotResult, gather2, hfl, List.map_cons, List.map_nil]

theorem slotIs_values {eb len count : Nat} {f : Nat → Nat} (h : eb * count ≤ len) :
    SlotIs { out := [packElems eb len ((List.range count).map f)], vacc := vacc } vacc eb len count (fun k => (f k, 0)) := by
  rw [slotResult_of_values, List.map_map]
  exact slotIs_slotResult _ h

theorem slotIs_one {eb len : Nat} (r : Nat × BitVec 5) (h : eb ≤ len) :
    SlotIs { out := [packElems eb len [r.1]], vacc := vacc, flags := r.2 } vacc eb len 1 (fun _ => r) := by
  rw [slotResult_of_one]
  exact slotIs_slotResult (count := 1) (fun _ => r) (by rwa [mul_one])

end

theorem vtBytes_le (t : VType) : vtBytes t ≤ 8 := by cases t <;> decide

theorem zip_map_range_of_le {α β : Type} (f : Nat → α) (g : Nat → β) {n m : Nat} (h : n ≤ m) :
    ((List.range n).map f).zip ((List.range m).map g) = (List.range n).map (fun k => (f k, g k)) :=
  List.ext_getElem (by simp [h]) (fun k h1 h2 => by simp)

section
variable (n sr sat : Bool) (t : VType) (g : CvtTgt) (d a b : Handle) (x : VArgs) (ha hb : List Byte) (sd : Nat) (frm : BitVec 3)
  (draw : Nat → Nat) (vacc : Vector (BitVec 32) 64)

/-! Conversions (R183 to R185, R144). -/

theorem vecResult_vcvt : vecResult (.vcvt n sr sat g t d a) x ha hb sd frm draw vacc =
    slotResult vacc (tgtBytes g) (up8 (ha.length / vtBytes x.t * tgtBytes g)) ((elems ha (vtBytes x.t) (ha.length / vtBytes x.t)).zipIdx.map
      (fun p => vecCvt g sr sat x.t ((modeOf frm).getD .rne) p.1 (draw p.2))) := rfl

theorem slotIs_vcvt : SlotIs (vecResult (.vcvt n sr sat g t d a) x ha hb sd frm draw vacc) vacc (tgtBytes g)
    ((ha.length / vtBytes x.t * tgtBytes g + 7) / 8 * 8) (ha.length / vtBytes x.t)
    (fun k => vecCvt g sr sat x.t ((modeOf frm).getD .rne) (elementOf ha (vtBytes x.t) k) (draw k)) := by
  rw [vecResult_vcvt, elems_eq, zipIdx_map_range, List.map_map]
  exact slotIs_slotResult _ (mul_le_up8 ..)

theorem out_vqnt : (vecResult (.vqnt n sr sat g t d a) x ha hb sd frm draw vacc).out =
    let xs := elems ha (vtBytes x.t) (ha.length / vtBytes x.t)
    let sc := quantScale g (xs.map (vtFmt x.t).value)
    [packElems 1 128 (gather2 (xs.zipIdx.map (fun p => vecQnt g sr x.t ((modeOf frm).getD .rne) sc p.1 (draw p.2)))).1 ++
      bytesOf (sc + 2 ^ 32) 8] := rfl

theorem vqnt_writes (hn : ha.length / vtBytes x.t ≤ 128) :
    let pick := elementOf ha (vtBytes x.t)
    let count := ha.length / vtBytes x.t
    let sc := quantScale g ((List.range count).map (fun k => (vtFmt x.t).value (pick k)))
    ∃ bs, (vecResult (.vqnt n sr sat g t d a) x ha hb sd frm draw vacc).out = [bs] ∧ bs.length = 136 ∧
      elementOf bs 8 16 = 2 ^ 32 + sc % 2 ^ 32 ∧
      (∀ k < count, (bs.getD k 0).toNat = (vecQnt g sr x.t ((modeOf frm).getD .rne) sc (pick k) (draw k)).1 % 256) ∧
      ∀ k, count ≤ k → k < 128 → bs.getD k 0 = 0 := by
  intro pick count sc
  set ys := (List.range count).map (fun k => (vecQnt g sr x.t ((modeOf frm).getD .rne) sc (pick k) (draw k)).1) with hys
  have hout : (vecResult (.vqnt n sr sat g t d a) x ha hb sd frm draw vacc).out = [packElems 1 128 ys ++ bytesOf (sc + 2 ^ 32) 8] := by
    rw [out_vqnt, elems_eq]
    simp only [zipIdx_map_range, gather2, List.map_map]
    rfl
  have hlen : ys.length = count := by rw [hys, List.length_map, List.length_range]
  refine ⟨_, hout, length_quantRow (hlen.trans_le hn) _, elementOf_quantRow_scale (hlen.trans_le hn) (quantScale_lt ..), fun k hk => ?_,
    fun k hk hk' => ?_⟩
  · rw [getD_quantRow (hlen.trans_le hn) _ (hk.trans_le hn), hys, getD_map_range _ _ hk, BitVec.toNat_ofNat]
  · rw [getD_quantRow (hlen.trans_le hn) _ hk', List.getD_eq_default _ _ (hlen.trans_le hk)]; rfl

theorem out_vsplit3 : (vecResult (.vsplit3 n d a) x ha hb sd frm draw vacc).out =
    let rs := (elems ha (vtBytes x.t) (ha.length / vtBytes x.t)).map split3
    let len := up8 (2 * (ha.length / vtBytes x.t))
    [packElems 2 len (rs.map (fun r => r.1.1)), packElems 2 len (rs.map (fun r => r.1.2.1)), packElems 2 len (rs.map (fun r => r.1.2.2))] := rfl

theorem elementOf_pack_split3 (eb m len : Nat) (f : (Nat × Nat × Nat) × BitVec 5 → Nat) {k : Nat} (hk : k < m) :
    elementOf (packElems 2 len (((elems ha eb m).map split3).map f)) 2 k = f (split3 (elementOf ha eb k)) % 65536 := by
  rw [elementOf_packElems, elems_eq, List.map_map, List.map_map, getD_map_range _ _ hk]; rfl

/-! Reductions (R187). -/

theorem vecResult_vreds : vecResult (.vreds n t d a) x ha hb sd frm draw vacc =
    let r := vecSum x.t (elems ha (vtBytes x.t) (ha.length / vtBytes x.t))
    { out := [packElems (vtBytes x.t) 8 [r.1]], vacc := vacc, flags := r.2 } := rfl

theorem slotIs_vreds : SlotIs (vecResult (.vreds n t d a) x ha hb sd frm draw vacc) vacc (vtBytes x.t) 8 1
    (fun _ => vecSum x.t ((List.range (ha.length / vtBytes x.t)).map (elementOf ha (vtBytes x.t)))) := by
  rw [vecResult_vreds, elems_eq]
  exact slotIs_one _ (vtBytes_le x.t)

theorem vecResult_vredm : vecResult (.vredm n t d a) x ha hb sd frm draw vacc =
    let r := reduce x.t (vecMax x.t) (elems ha (vtBytes x.t) (ha.length / vtBytes x.t))
    { out := [packElems (vtBytes x.t) 8 [r.1]], vacc := vacc, flags := r.2 } := rfl

theorem slotIs_vredm : SlotIs (vecResult (.vredm n t d a) x ha hb sd frm draw vacc) vacc (vtBytes x.t) 8 1
    (fun _ => reduce x.t (vecMax x.t) ((List.range (ha.length / vtBytes x.t)).map (elementOf ha (vtBytes x.t)))) := by
  rw [vecResult_vredm, elems_eq]
  exact slotIs_one _ (vtBytes_le x.t)

/-! Gathers, permutations and scatters (R186, R188). -/

theorem vecResult_vgath : vecResult (.vgath n t d a b) x ha hb sd frm draw vacc =
    slotResult vacc (vtBytes x.t) (up8 (hb.length / 4 * vtBytes x.t)) ((elems hb 4 (hb.length / 4)).map (fun j =>
      if j < ha.length / vtBytes x.t then ((elems ha (vtBytes x.t) (ha.length / vtBytes x.t)).getD j 0, 0) else (0, fNV))) := rfl

theorem slotIs_vgath : SlotIs (vecResult (.vgath n t d a b) x ha hb sd frm draw vacc) vacc (vtBytes x.t)
    ((hb.length / 4 * vtBytes x.t + 7) / 8 * 8) (hb.length / 4)
    (fun k => if elementOf hb 4 k < ha.length / vtBytes x.t then (elementOf ha (vtBytes x.t) (elementOf hb 4 k), 0) else (0, fNV)) := by
  have hget (k : Nat) : (if elementOf hb 4 k < ha.length / vtBytes x.t then
      ((elems ha (vtBytes x.t) (ha.length / vtBytes x.t)).getD (elementOf hb 4 k) 0, (0 : BitVec 5)) else (0, fNV)) =
      if elementOf hb 4 k < ha.length / vtBytes x.t then (elementOf ha (vtBytes x.t) (elementOf hb 4 k), 0) else (0, fNV) := by
    split
    · next h => rw [elems_eq, getD_map_range _ _ h]
    · rfl
  rw [vecResult_vgath, elems_eq hb, List.map_map]
  simp only [Function.comp_def, hget]
  exact slotIs_slotResult _ (mul_le_up8 ..)

theorem vecResult_vperm : vecResult (.vperm n t d a b) x ha hb sd frm draw vacc =
    { out := [packElems (vtBytes x.t) (up8 (ha.length / vtBytes x.t * vtBytes x.t)) (((elems hb 4 (hb.length / 4)).take
        (ha.length / vtBytes x.t)).map (fun j => (elems ha (vtBytes x.t) (ha.length / vtBytes x.t)).getD (j % (ha.length / vtBytes x.t)) 0))],
      vacc := vacc } := rfl

theorem slotIs_vperm (h0 : 0 < ha.length / vtBytes x.t) (hle : ha.length / vtBytes x.t ≤ hb.length / 4) :
    SlotIs (vecResult (.vperm n t d a b) x ha hb sd frm draw vacc) vacc (vtBytes x.t)
      ((ha.length / vtBytes x.t * vtBytes x.t + 7) / 8 * 8) (ha.length / vtBytes x.t)
      (fun k => (elementOf ha (vtBytes x.t) (elementOf hb 4 k % (ha.length / vtBytes x.t)), 0)) := by
  have hget (k : Nat) : (elems ha (vtBytes x.t) (ha.length / vtBytes x.t)).getD (k % (ha.length / vtBytes x.t)) 0 =
      elementOf ha (vtBytes x.t) (k % (ha.length / vtBytes x.t)) := by rw [elems_eq, getD_map_range _ _ (Nat.mod_lt _ h0)]
  rw [vecResult_vperm, elems_eq hb, ← List.map_take, List.take_range, min_eq_left hle, List.map_map]
  simp only [Function.comp_def, hget]
  exact slotIs_values (mul_le_up8 ..)

theorem vecResult_vscat : vecResult (.vscat n t d a b) x ha hb sd frm draw vacc =
    let r := scatFrom (List.replicate (sd / vtBytes x.t) 0) false
      ((elems ha (vtBytes x.t) (ha.length / vtBytes x.t)).zip (elems hb 4 (hb.length / 4)))
    { out := [packElems (vtBytes x.t) sd r.1], vacc := vacc, flags := flagIf r.2 fNV } := rfl

theorem vscat_writes (hle : ha.length / vtBytes x.t ≤ hb.length / 4) :
    let y := vecResult (.vscat n t d a b) x ha hb sd frm draw vacc
    let eb := vtBytes x.t
    let count := ha.length / vtBytes x.t
    let at_ := elementOf hb 4
    ∃ bs, y.out = [bs] ∧ bs.length = sd ∧ (y.flags = if ∃ k < count, sd / eb ≤ at_ k then fNV else 0) ∧
      ∀ j < sd / eb, ((∀ k < count, at_ k ≠ j) → elementOf bs eb j = 0) ∧
        ∀ k < count, at_ k = j → (∀ l, k < l → l < count → at_ l ≠ j) → elementOf bs eb j = elementOf ha eb k := by
  intro y eb count at_
  set r := scatFrom (List.replicate (sd / eb) 0) false ((List.range count).map (fun k => (elementOf ha eb k, at_ k))) with hr
  have hy : y = { out := [packElems eb sd r.1], vacc := vacc, flags := flagIf r.2 fNV } := by
    rw [hr, ← zip_map_range_of_le _ _ hle, ← elems_eq, ← elems_eq]
    exact vecResult_vscat ..
  have hlen : r.1.length = sd / eb := by rw [hr, length_scatFrom, List.length_replicate]
  have hnv : r.2 = true ↔ ∃ k < count, sd / eb ≤ at_ k := by
    rw [hr, scatFrom_nv, List.length_replicate]
    simp
  have helem {j : Nat} (hj : j < sd / eb) : elementOf (packElems eb sd r.1) eb j =
      (List.range count).foldl (fun y k => if at_ k = j then elementOf ha eb k else y) 0 % 256 ^ eb := by
    rw [elementOf_packElems, hr, getD_scatFrom _ _ _ (by rwa [List.length_replicate]), List.foldl_map]
    simp
  rw [hy]
  refine ⟨_, rfl, length_packElems (by rw [hlen]; exact Nat.mul_div_le ..), ?_, fun j hj => ⟨fun h => ?_, fun k hk hka h => ?_⟩⟩
  · by_cases h : ∃ k < count, sd / eb ≤ at_ k
    · rw [if_pos h, hnv.mpr h]; rfl
    · rw [if_neg h, Bool.eq_false_iff.mpr (fun h' => h (hnv.mp h'))]; rfl
  · rw [helem hj, (foldl_put_eq count).1 h, Nat.zero_mod]
  · rw [helem hj, (foldl_put_eq count).2 k hk hka h, elementOf_mod]

/-! The vector accumulator (R179). -/

theorem vecResult_vaccget : vecResult (.vaccget n d) x ha hb sd frm draw vacc =
    { out := [packElems 4 256 (vacc.toList.map BitVec.toNat)], vacc := vacc } := rfl

theorem slotIs_vaccget : SlotIs (vecResult (.vaccget n d) x ha hb sd frm draw vacc) vacc 4 256 64
    (fun k => ((vacc[k % 64]'(Nat.mod_lt k (by decide))).toNat, 0)) := by
  have hvalues : vacc.toList.map BitVec.toNat = (List.range 64).map (fun k => (vacc[k % 64]'(Nat.mod_lt k (by decide))).toNat) :=
    List.ext_getElem (by simp) (fun k _ h2 => by
      have hk : k < 64 := by simpa using h2
      simp [Nat.mod_eq_of_lt hk])
  rw [vecResult_vaccget, hvalues]
  exact slotIs_values le_rfl

theorem vecResult_vaccset : vecResult (.vaccset n a) x ha hb sd frm draw vacc =
    { vacc := Vector.ofFn (fun l => BitVec.ofNat 32 ((elems ha (vtBytes x.t) (ha.length / vtBytes x.t)).getD l.val 0)) } := rfl

theorem vacc_vaccset {l : Nat} (hl : l < 64) (hn : l < ha.length / vtBytes x.t) :
    ((vecResult (.vaccset n a) x ha hb sd frm draw vacc).vacc.toList.getD l 0).toNat = elementOf ha (vtBytes x.t) l % 2 ^ 32 := by
  rw [vecResult_vaccset, toList_getD_eq hl, Vector.getElem_ofFn, BitVec.toNat_ofNat, elems_eq]
  exact congrArg (· % 2 ^ 32) (getD_map_range _ _ hn)

theorem vecResult_vmac : vecResult (.vmac n t a b) x ha hb sd frm draw vacc =
    macFrom x.t vacc 0 ((elems ha (vtBytes x.t) (ha.length / vtBytes x.t)).zip (elems hb (vtBytes x.t) (ha.length / vtBytes x.t))).zipIdx := rfl

theorem vacc_vmac {l : Nat} (hl : l < 64) : ((vecResult (.vmac n t a b) x ha hb sd frm draw vacc).vacc.toList.getD l 0).toNat =
    ((List.range (ha.length / vtBytes x.t)).filter (fun k => k % 64 = l)).foldl
      (fun y k => (vecFma (vtFmt x.t) fmt32 (elementOf ha (vtBytes x.t) k) (elementOf hb (vtBytes x.t) k) y).1 % 2 ^ 32)
      (vacc[l % 64]'(Nat.mod_lt l (by decide))).toNat := by
  rw [vecResult_vmac, toList_getD_eq hl, macFrom_vacc _ hl, elems_eq, elems_eq, List.zip_map', zipIdx_map_range, List.filter_map, List.foldl_map]
  simp only [Nat.mod_eq_of_lt hl, Function.comp_def]

end

theorem otherRules : OtherRules := by
  intro n sr sat t g d a b ha hb sd frm draw vacc res vac mode F eb pick at_ nA nB slot
  refine ⟨?_, fun hn => ?_, ?_, ?_, ?_, fun op l k => reduce_of_length t op, ?_, fun h0 hle => ?_, fun hle _ => ?_, ?_, ?_, ?_, ?_⟩
  · exact slotIs_vcvt n sr sat t g d a ⟨n, t, some d, some a, some b⟩ ha hb sd frm draw vacc
  · exact vqnt_writes n sr sat t g d a ⟨n, t, some d, some a, some b⟩ ha hb sd frm draw vacc hn
  · exact ⟨_, _, _, out_vsplit3 n d a ⟨n, .f32, some d, some a, some b⟩ ha hb sd frm draw vacc, fun k hk =>
      ⟨elementOf_pack_split3 ha 4 _ _ (fun r => r.1.1) hk, elementOf_pack_split3 ha 4 _ _ (fun r => r.1.2.1) hk,
        elementOf_pack_split3 ha 4 _ _ (fun r => r.1.2.2) hk⟩⟩
  · exact slotIs_vreds n t d a ⟨n, t, some d, some a, some b⟩ ha hb sd frm draw vacc
  · exact slotIs_vredm n t d a ⟨n, t, some d, some a, some b⟩ ha hb sd frm draw vacc
  · exact slotIs_vgath n t d a b ⟨n, t, some d, some a, some b⟩ ha hb sd frm draw vacc
  · exact slotIs_vperm n t d a b ⟨n, t, some d, some a, some b⟩ ha hb sd frm draw vacc h0 hle
  · exact vscat_writes n t d a b ⟨n, t, some d, some a, some b⟩ ha hb sd frm draw vacc hle
  · exact slotIs_vaccget n d ⟨n, .f32, some d, some a, some b⟩ ha hb sd frm draw vacc
  · refine ⟨rfl, fun hlen l hl => ?_⟩
    have hn : l < ha.length / 4 := by omega
    exact (vacc_vaccset n a ⟨n, .f32, some d, some a, some b⟩ ha hb sd frm draw vacc hl hn).trans (elementOf_mod ha 4 l)
  · exact ⟨rfl, rfl⟩
  · exact ⟨macFrom_out .., fun _ l hl => vacc_vmac n t a b ⟨n, t, some d, some a, some b⟩ ha hb sd frm draw vacc hl⟩

/-- Settles O37: the rules part by part. -/
theorem elementRules : Obligations.ElementRules := ⟨intRules, sumRules, rowRules, eachRules, otherRules⟩

end Sys2Proof.Machine
end

section
/-! PROOFS. The engine switch of a folded core: a context that leaves its engine is written to memory, and ends the reservations it meets
(R51, R91). -/

namespace Sys2Proof.Machine

open Sys2Proof.Claim

theorem State.slots_unparkContext (s : State) (vk e : Nat) : (s.unparkContext vk e).slots = s.slots := by
  unfold State.unparkContext
  dsimp only
  split <;> rfl

/-- A switch from a virtual core that is on the core parks its context; beyond that it changes no slot. -/
theorem exec_engineContextSwitch_of_owner {s : State} {o j : Nat} (hs : s.canSwitch s.ev.key s.ev.ix = some j)
    (ho : FMap.get? (s.core s.ev.key).owner s.ev.ix = some o) (hp : (s.vc o).place = some s.ev.key) :
    ∃ t, exec .engineContextSwitch s = .next t ∧ t.slots = (s.parkContext o s.ev.ix).slots := by
  refine ⟨((s.parkContext o s.ev.ix).unparkContext j s.ev.ix).updCore s.ev.key (fun c => { c with owner := FMap.set c.owner s.ev.ix j }), ?_,
    State.slots_unparkContext _ j s.ev.ix⟩
  show execEngineContextSwitch s = _
  simp only [execEngineContextSwitch, hs, ho, hp, beq_self_eq_true, if_true]

/-- Parking vacc ends a reservation of any slot on one of its 32 words (R348, Table 14.3). -/
theorem State.resv_parkContext_vacc {s : State} {o k w : Nat} (hw : (s.slot k).resv = some w)
    (hlo : lmAddr (s.coreOf o) (s.areaOff o) + 0xC0 < w + 8) (hhi : w < lmAddr (s.coreOf o) (s.areaOff o) + 0xC0 + 8 * 32) :
    ((s.parkContext o 1).slot k).resv = none := by
  have hlen : (vaccWords (s.vc o).vacc).length = 32 := by simp [vaccWords]
  refine (State.resv_dropResv (s := { s with mem := _ }) (own := none) nofun hw).trans (if_pos ⟨hlo, ?_⟩)
  rw [hlen]; exact hhi

/-- Virtual core n of gang 1, one of two that folded core 0 hosts. -/
def foldedVc (n : Nat) : VCore := { gid := 1, vcid := n, live := true, place := some 0, fold := 1, fidx := n, base := 0x1000 }

/-- The vector engine of folded core 0 holds the context of virtual core 65536, which has nothing left for it, and virtual core 65537 has a
VACCZ in its queue. Slot 0 of virtual core 65536, in M mode, has reserved the word of vacc[0] and vacc[1] in the engine context area. -/
def reservedAtSwitch : State where
  slots := [(1048576, { st := .issuing, mode := .m, resv := some 0x90C0 })]
  vcs := [(65536, foldedVc 0), (65537, { foldedVc 1 with queue := [(1, [{ word := insnWord .vaccz, slot := 0 }])] })]
  cores := [(0, { en := true, owner := [(1, 65536)] })]
  gangs := [(1, { lmlimit := 0x8000 })]
  ev := { key := 0, ix := 1 }

/-- Refutes O36: its clause on the engine switch says that no slot changes, but the switch writes the context of the virtual core that leaves
to memory, which ends the reservation that slot 0 of reservedAtSwitch has on a word of it (R91). -/
theorem not_engineSteps : ¬ Obligations.EngineSteps := by
  intro h
  obtain ⟨-, -, -, -, -, -, -, -, -, -, -, -, -, hswitch⟩ :=
    h reservedAtSwitch { word := 0, slot := 0 } [] { entry := { word := 0, slot := 0 } } 0 0 0 false 0
  have hcan : reservedAtSwitch.canSwitch 0 1 = some 65537 := by decide
  obtain ⟨t, ht, -, -, hsame⟩ := hswitch 65537 hcan
  obtain ⟨u, hu, hslots⟩ := exec_engineContextSwitch_of_owner (s := reservedAtSwitch) (o := 65536) hcan rfl rfl
  have hresv : (reservedAtSwitch.slot 1048576).resv = some 0x90C0 := rfl
  have hended : ((reservedAtSwitch.parkContext 65536 1).slot 1048576).resv = none := State.resv_parkContext_vacc hresv (by decide) (by decide)
  have htu : t = u := Host.Outcome.next.inj (ht.symm.trans hu)
  have hkept : (reservedAtSwitch.parkContext 65536 1).slots = reservedAtSwitch.slots := by rw [← hsame, htu]; exact hslots.symm
  rw [State.slot, hkept] at hended
  exact absurd (hended.symm.trans hresv) nofun

end Sys2Proof.Machine
end

section
/-! PROOFS. Acceptance by an engine: an instruction that its engine takes, one that waits for it, one that waits for slots of a ring. -/

namespace Sys2Proof.Machine

open Sys2Proof.Claim

/-! An instruction at its turn, by the answer of its acceptance (R149, R151). -/

section
variable {s : State} {i : Instr} {a : Accept} (hi : exec i s = .next (s.present i a)) (hfate : s.engineFate i = .present)
include hi hfate

/-- A fault traps. -/
theorem trapped_present {c : Nat} {tv tv' : Word} (ha : a = .fault c tv) (htv : tv = tv') :
    ∃ t, exec i s = .next t ∧ Trapped s t (BitVec.ofNat 64 c) tv' s.me.pc := by
  refine ⟨s.trap c tv, by rw [hi]; unfold State.present; rw [hfate, ha], ?_⟩
  rw [← htv]; exact s.trapped_trap c tv

/-- A full queue, or frozen engines, hold the slot at its instruction. -/
theorem atQueue_present (ha : a = .full) : ∃ t, exec i s = .next t ∧ AtQueue s t := by
  refine ⟨s.updMe (fun sl => { sl with hold := some .engine }), by rw [hi]; unfold State.present; rw [hfate, ha], ?_⟩
  exact ⟨s.me_updMe _, fun k hk => s.slot_updMe_ne _ hk, rfl⟩

/-- Slots of a ring that are not available park the slot. -/
theorem engineParked_present {e ix : Nat} {room : Bool} (ha : a = .wait ix room) (he : engineOf i = some e) :
    ∃ t, exec i s = .next t ∧ EngineParked s t (.engineRing e ix room) := by
  refine ⟨s.unheld.parkOn (.engineRing e ix room), by rw [hi]; unfold State.present; rw [hfate, ha, he]; rfl, ?_⟩
  exact {
    me := by rw [State.me_parkOn, State.unheld, State.me_updMe]
    others := fun k hk => (State.slot_parkOn_ne s.unheld _ hk).trans (s.slot_updMe_ne _ hk)
    rest := rfl }

theorem exec_accepted {u : State} (ha : a = .ok u) : exec i s = .next u.retire := by
  rw [hi]; unfold State.present; rw [hfate, ha]

end

/-! The queue's entry. -/

/-- The entry stands for the instruction i of the current slot: its word, its slot, and what is captured at acceptance (R149, R219). -/
structure QEntry.IsOf (q : QEntry) (s : State) (i : Instr) : Prop where
  word : q.word = (encode i).getD 0
  slot : q.slot = s.ix
  frm : q.frm = s.me.frm
  base : q.base = s.me.segbase.toNat
  lim : q.lim = s.me.seglim.toNat
  mMode : q.mMode = true ↔ s.me.mode = .m

theorem State.isOf_newEntry (s : State) (i : Instr) : (s.newEntry i).IsOf s i := ⟨rfl, rfl, rfl, rfl, rfl, beq_iff_eq⟩

/-- The operands of an entry are no part of what it captures. -/
theorem QEntry.IsOf.withOperands {q : QEntry} {s : State} {i : Instr} (h : q.IsOf s i) (op : Word) (rd ra rb : Option Nat) (nd na nb : Nat) :
    { q with op := op, rd := rd, ra := ra, rb := rb, nd := nd, na := na, nb := nb }.IsOf s i := ⟨h.word, h.slot, h.frm, h.base, h.lim, h.mMode⟩

/-- The virtual core with an entry at the end of a queue. -/
def VCore.enqueued (v : VCore) (e : Nat) (q : QEntry) : VCore := { v with queue := FMap.set v.queue e (v.queueOf e ++ [q]) }

theorem VCore.queueOf_enqueued (v : VCore) (e d : Nat) (q : QEntry) :
    (v.enqueued e q).queueOf d = if d = e then v.queueOf e ++ [q] else v.queueOf d := FMap.getD_set ..

/-- The entry with the next stamp of acceptance. -/
def State.stamped (s : State) (q : QEntry) : QEntry := { q with stamp := s.nextId + 1 }

/-- The state with the next number taken. -/
def State.counted (s : State) : State := { s with nextId := s.nextId + 1 }

/-- An entry goes into its queue with the next stamp. -/
theorem State.enqueue_eq (s : State) (e : Nat) (q : QEntry) :
    s.enqueue e q = s.counted.updMyVc (fun v => v.enqueued e (s.stamped q)) := rfl

/-- Two changes of the current virtual core in a row are one. -/
theorem State.updMyVc_updMyVc (s : State) (f g : VCore → VCore) : (s.updMyVc f).updMyVc g = s.updMyVc (fun v => g (f v)) := by
  have h : (s.updVc s.vk f).vc s.vk = f (s.vc s.vk) := s.vc_updVc_self s.vk f
  show (s.updVc s.vk f).updVc s.vk g = s.updVc s.vk _
  rw [State.updVc, h]
  simp [State.updVc, State.setVc, FMap.set_set]

theorem State.enqueue_updMyVc (s : State) (e : Nat) (q : QEntry) (g : VCore → VCore) :
    (s.enqueue e q).updMyVc g = s.counted.updMyVc (fun v => g (v.enqueued e (s.stamped q))) :=
  State.updMyVc_updMyVc _ _ g

theorem State.enqueue_updMyVc_id (s : State) (e : Nat) (q : QEntry) : (s.enqueue e q).updMyVc id = s.enqueue e q := s.enqueue_updMyVc e q id

/-- After the entry has gone into the queue, what the acceptance does beside to the virtual core is g, which has no regard to the queues. -/
theorem State.queued_retire {s : State} {e : Nat} {i : Instr} {q : QEntry} (hq : q.IsOf s i) {g : VCore → VCore}
    (hg : ∀ v m, g { v with queue := m } = { g v with queue := m }) {p : QEntry → Prop} (hp : p (s.stamped q)) :
    Queued s ((s.enqueue e q).updMyVc g).retire e i (g s.myVc) p := by
  rw [State.enqueue_updMyVc]
  let f := fun v : VCore => g (v.enqueued e (s.stamped q))
  let u := s.counted.updMyVc f
  have hvc : u.retire.myVc = { g s.myVc with queue := (s.myVc.enqueued e (s.stamped q)).queue } :=
    (s.counted.myVc_updMyVc f).trans (hg s.myVc _)
  have hqueue (d : Nat) : u.retire.myVc.queueOf d = if d = e then s.myVc.queueOf e ++ [s.stamped q] else s.myVc.queueOf d := by
    rw [hvc]; exact s.myVc.queueOf_enqueued e d _
  have hdid := u.did_retire
  exact {
    queue := ⟨s.stamped q, by rw [hqueue, if_pos rfl], hq.word, hq.slot, hq.frm, hq.base, hq.lim, hq.mMode, hp⟩
    queues := fun d hd => by rw [hqueue, if_neg hd]
    vc := by rw [hvc]
    x := by rw [State.me_retire]; rfl
    pc := hdid.pc
    hold := hdid.hold
    arrived := hdid.arrived
    slot := by rw [State.me_retire]; rfl
    others := hdid.others
    vcs := fun k hk => s.counted.vc_updMyVc_ne f hk
    rest := rfl }

/-! Stages 3 and 4 of R149 for a matrix instruction. -/

theorem State.engineFull_eq_true_iff (s : State) (e : Nat) :
    s.myVc.engineFull e = true ↔ s.myVc.frozen = true ∨ 8 ≤ (s.myVc.accepted e).length := by
  simp [VCore.engineFull]

theorem State.engineFull_of_free {s : State} {e : Nat} (h : Free s e) : s.myVc.engineFull e = false := by
  obtain ⟨-, hfrozen, hroom⟩ := h
  simp [VCore.engineFull, hfrozen, hroom]

section
variable {s : State} {e : Nat} {q : QEntry} {na nb nd : Nat} {k : State → State}

theorem State.takeIn_of_full (h : s.myVc.engineFull e = true) : s.takeIn e q na nb nd k = .full := if_pos h

/-- With no second consumer an entry is taken when its consumer and its producer have the slots it claims. -/
theorem State.takeIn_of_available (h : s.myVc.engineFull e = false) (hb : q.rb = none)
    (ha : ∀ ix, q.ra = some ix → na ≤ s.availFill s.vk e ix) (hd : ∀ ix, q.rd = some ix → nd ≤ s.availRoom s.vk e ix) :
    s.takeIn e q na nb nd k = .ok (k (s.enqueue e q)) := by
  have hboth : (q.ra == q.rb && q.ra.isSome) = false := by cases hra : q.ra <;> simp [hb]
  unfold State.takeIn
  rw [if_neg (by simp [h])]
  cases hra : q.ra with
  | none =>
    cases hrd : q.rd with
    | none => simp [hb]
    | some jx => simp [hb, Nat.not_lt.mpr (hd jx hrd)]
  | some ix =>
    cases hrd : q.rd with
    | none => simp [hb, Nat.not_lt.mpr (ha ix hra)]
    | some jx => simp [hb, Nat.not_lt.mpr (ha ix hra), Nat.not_lt.mpr (hd jx hrd)]

theorem State.takeIn_of_unfilled (h : s.myVc.engineFull e = false) (hb : q.rb = none) {ix : Nat} (ha : q.ra = some ix)
    (hlt : s.availFill s.vk e ix < na) : s.takeIn e q na nb nd k = .wait ix false := by
  unfold State.takeIn
  rw [if_neg (by simp [h])]
  simp [ha, hb, hlt]

theorem State.takeIn_of_no_room (h : s.myVc.engineFull e = false) (ha : q.ra = none) (hb : q.rb = none) {ix : Nat} (hd : q.rd = some ix)
    (hlt : s.availRoom s.vk e ix < nd) : s.takeIn e q na nb nd k = .wait ix true := by
  unfold State.takeIn
  rw [if_neg (by simp [h])]
  simp [ha, hb, hd, hlt]

end

/-- An instruction that its engine takes with the entry q, and with g of its virtual core beside. -/
theorem queued_present {s : State} {i : Instr} {e : Nat} {a : Accept} (hi : exec i s = .next (s.present i a)) (hfate : s.engineFate i = .present)
    {q : QEntry} {na nb nd : Nat} {k : State → State} (ha : a = s.takeIn e q na nb nd k) (hfree : Free s e) (hb : q.rb = none)
    (hra : ∀ ix, q.ra = some ix → na ≤ s.availFill s.vk e ix) (hrd : ∀ ix, q.rd = some ix → nd ≤ s.availRoom s.vk e ix)
    (g : VCore → VCore) (hk : k (s.enqueue e q) = (s.enqueue e q).updMyVc g) (hg : ∀ v m, g { v with queue := m } = { g v with queue := m })
    (hq : q.IsOf s i) {v : VCore} (hv : g s.myVc = v) {p : QEntry → Prop} (hp : p (s.stamped q)) :
    ∃ t, exec i s = .next t ∧ Queued s t e i v p := by
  subst hv
  refine ⟨_, exec_accepted hi hfate (ha.trans (State.takeIn_of_available (State.engineFull_of_free hfree) hb hra hrd)), ?_⟩
  rw [hk]
  exact State.queued_retire hq hg hp

/-- The same for an entry that claims no slots of a ring. -/
theorem queued_unclaimed {s : State} {i : Instr} {e : Nat} {a : Accept} (hi : exec i s = .next (s.present i a)) (hfate : s.engineFate i = .present)
    {q : QEntry} {k : State → State} (ha : a = s.takeIn e q 0 0 0 k) (hfree : Free s e) (hnone : q.ra = none ∧ q.rb = none ∧ q.rd = none)
    (g : VCore → VCore) (hk : k (s.enqueue e q) = (s.enqueue e q).updMyVc g) (hg : ∀ v m, g { v with queue := m } = { g v with queue := m })
    (hq : q.IsOf s i) {v : VCore} (hv : g s.myVc = v) {p : QEntry → Prop} (hp : p (s.stamped q)) :
    ∃ t, exec i s = .next t ∧ Queued s t e i v p := by
  obtain ⟨hra, hrb, hrd⟩ := hnone
  exact queued_present hi hfate ha hfree hrb (by simp [hra]) (by simp [hrd]) g hk hg hq hv hp

end Sys2Proof.Machine
end

section
/-! PROOFS. Acceptance of the matrix instructions other than MMA (R149, R150, R154, R158, R160, R163). -/

namespace Sys2Proof.Machine

open Sys2Proof.Claim

/-! MCFG (R154). -/

/-- A configuration whose fields have their widths is read back from its word. -/
theorem cfgOfWord_wordOfCfg {c : AccCfg} (hm : c.m < 128) (hn : c.n < 128) (hkb : c.kb < 256) (hcw : c.cw < 0x100000) :
    cfgOfWord (wordOfCfg c) = c := by
  obtain ⟨m, n, i32, ev, cwen, kb, cw⟩ := c
  dsimp only at hm hn hkb hcw
  have hbn (b : Bool) : bn b < 2 := by cases b <;> decide
  have hbit (b : Bool) {x : Nat} (h : x = bn b) : (x == 1) = b := by subst h; cases b <;> rfl
  have hi := hbn i32
  have he := hbn ev
  have hw := hbn cwen
  have hval : (wordOfCfg ⟨m, n, i32, ev, cwen, kb, cw⟩).toNat =
      m + n * 256 + bn i32 * 65536 + bn ev * 131072 + bn cwen * 262144 + kb * 16777216 + cw * 4294967296 := by
    simp only [wordOfCfg, pack, BitVec.toNat_ofNat]
    omega
  simp only [cfgOfWord, bits, bit, hval, AccCfg.mk.injEq]
  exact ⟨by omega, by omega, hbit i32 (by omega), hbit ev (by omega), hbit cwen (by omega), by omega, by omega⟩

theorem bits_lt (w : Word) (hi lo : Nat) : bits w hi lo < 2 ^ (hi + 1 - lo) := Nat.mod_lt _ (Nat.two_pow_pos _)

/-- What MCFG asks of the word in x[rs1]: no RZ bit, M and N at most 64. -/
def CfgFields (v : Word) : Prop := v &&& 0xFFF0000000F88080 = 0 ∧ (cfgOfWord v).m ≤ 64 ∧ (cfgOfWord v).n ≤ 64

/-- The configuration of x[rs1] with the physical address of its completion word. -/
def State.physCfg (s : State) (rs1 : XReg) : AccCfg :=
  { cfgOfWord (s.x rs1) with
    cw := if s.me.mode = .u then (s.me.segbase.toNat + (cfgOfWord (s.x rs1)).cw) % 0x100000 else (cfgOfWord (s.x rs1)).cw }

theorem State.cfgOfWord_wordOfCfg_physCfg {s : State} {rs1 : XReg} (h : CfgFields (s.x rs1)) :
    cfgOfWord (wordOfCfg (s.physCfg rs1)) = s.physCfg rs1 := by
  obtain ⟨-, hm, hn⟩ := h
  have hcw : (cfgOfWord (s.x rs1)).cw < 2 ^ 20 := bits_lt (s.x rs1) 51 32
  refine cfgOfWord_wordOfCfg (hm.trans_lt (by decide)) (hn.trans_lt (by decide)) (bits_lt (s.x rs1) 31 24) ?_
  unfold State.physCfg
  dsimp only
  split <;> omega

section
variable {s : State} {i : Instr} {a : BitVec 1} {rs1 : XReg}

theorem State.acceptMcfg_of_fields (h : ¬ CfgFields (s.x rs1)) : s.acceptMcfg i a rs1 = wordFault i := by
  refine if_pos ?_
  simp only [Bool.or_eq_true, bne_iff_ne, decide_eq_true_eq]
  by_contra hc
  exact h ⟨by tauto, by omega, by omega⟩

theorem State.acceptMcfg_of_not_fault (h : CfgFields (s.x rs1)) : s.acceptMcfg i a rs1 =
    if (cfgOfWord (s.x rs1)).cwen && (cfgOfWord (s.x rs1)).cw % 8 != 0 then .fault 6 (BitVec.ofNat 64 (cfgOfWord (s.x rs1)).cw)
    else match (if (cfgOfWord (s.x rs1)).cwen then lmCheck s.me (BitVec.ofNat 64 (cfgOfWord (s.x rs1)).cw) 8 true else .ok 0) with
      | .error (k, t) => .fault k t
      | .ok _ => s.takeIn 0 { s.newEntry i with op := wordOfCfg (s.physCfg rs1) } 0 0 0
        (fun t => t.updMyVc (fun v => v.setPcfg a (s.physCfg rs1))) := by
  obtain ⟨hrz, hm, hn⟩ := h
  have hphys : s.physCfg rs1 = { cfgOfWord (s.x rs1) with
      cw := if s.me.mode == .u then (s.me.segbase.toNat + (cfgOfWord (s.x rs1)).cw) % 0x100000 else (cfgOfWord (s.x rs1)).cw } := by
    simp only [State.physCfg, beq_iff_eq]
  rw [hphys]
  exact if_neg (by simpa [hm, hn] using hrz)

theorem State.acceptMcfg_of_misaligned (h : CfgFields (s.x rs1)) (hw : (cfgOfWord (s.x rs1)).cwen = true) (hal : (cfgOfWord (s.x rs1)).cw % 8 ≠ 0) :
    s.acceptMcfg i a rs1 = .fault 6 (BitVec.ofNat 64 (cfgOfWord (s.x rs1)).cw) := by
  rw [State.acceptMcfg_of_not_fault h, if_pos (by simp [hw, hal])]

theorem State.acceptMcfg_of_outside (h : CfgFields (s.x rs1)) (hw : (cfgOfWord (s.x rs1)).cwen = true) (hal : (cfgOfWord (s.x rs1)).cw % 8 = 0)
    {e : Nat} {tv : Word} (he : lmCheck s.me (BitVec.ofNat 64 (cfgOfWord (s.x rs1)).cw) 8 true = .error (e, tv)) :
    s.acceptMcfg i a rs1 = .fault e tv := by
  rw [State.acceptMcfg_of_not_fault h, if_neg (by simp [hal])]
  simp only [hw, if_true, he]

theorem State.acceptMcfg_of_fits (h : CfgFields (s.x rs1)) {pa : Nat}
    (hw : (cfgOfWord (s.x rs1)).cwen = true → (cfgOfWord (s.x rs1)).cw % 8 = 0 ∧
      lmCheck s.me (BitVec.ofNat 64 (cfgOfWord (s.x rs1)).cw) 8 true = .ok pa) :
    s.acceptMcfg i a rs1 = s.takeIn 0 { s.newEntry i with op := wordOfCfg (s.physCfg rs1) } 0 0 0
      (fun t => t.updMyVc (fun v => v.setPcfg a (s.physCfg rs1))) := by
  rw [State.acceptMcfg_of_not_fault h]
  cases hc : (cfgOfWord (s.x rs1)).cwen with
  | false => simp
  | true =>
    obtain ⟨hal, hok⟩ := hw hc
    simp [hal, hok]

end

/-! MLOAD (R158). -/

section
variable {s : State} {i : Instr} {a : BitVec 1} {h : Handle} {ix : Nat}

theorem State.acceptMload_of_none (hn : s.handle? h .consumer (feeds 0) = none) : s.acceptMload i a h = .fault 25 (rp0 h.toNat 0) := by
  simp only [State.acceptMload, hn]

theorem State.acceptMload_of_some (hs : s.handle? h .consumer (feeds 0) = some ix) : s.acceptMload i a h =
    if 0 < (s.myVc.pcfg a).m && (s.ring s.vk ix).size < 4 * (s.myVc.pcfg a).n then .fault 25 (rp0 h.toNat 0)
    else if 0 < (s.myVc.pcfg a).m && (s.ring s.vk ix).count < (s.myVc.pcfg a).m then .fault 25 (rp1 h.toNat 0)
    else s.takeIn 0 { s.newEntry i with ra := some ix, na := (s.myVc.pcfg a).m } (s.myVc.pcfg a).m 0 0 id := by
  simp only [State.acceptMload, hs]

theorem State.acceptMload_of_fits (hs : s.handle? h .consumer (feeds 0) = some ix)
    (hf : (s.myVc.pcfg a).m = 0 ∨ 4 * (s.myVc.pcfg a).n ≤ (s.ring s.vk ix).size ∧ (s.myVc.pcfg a).m ≤ (s.ring s.vk ix).count) :
    s.acceptMload i a h = s.takeIn 0 { s.newEntry i with ra := some ix, na := (s.myVc.pcfg a).m } (s.myVc.pcfg a).m 0 0 id := by
  rw [State.acceptMload_of_some hs, if_neg (by simp; omega), if_neg (by simp; omega)]

end

/-! MOUT (R160). -/

/-- What MOUT asks of its control word and of frm (R160). -/
def State.OutControl (s : State) (a : BitVec 1) (v : Word) : Prop :=
  v.toNat < 128 ∧ (bit v 3 = true → (outTgt v).isNarrow = true) ∧
  (bit v 4 = true → (outTgt v).isNarrow = true ∧ (s.myVc.pcfg a).i32 = false) ∧
  (tgtIsD (outTgt v) = true → (s.myVc.pcfg a).i32 = false ∧ (s.myVc.pcfg (~~~ a)).i32 = false ∧
    (s.myVc.pcfg (~~~ a)).m = (s.myVc.pcfg a).m ∧ (s.myVc.pcfg (~~~ a)).n = (s.myVc.pcfg a).n) ∧ s.me.frm.toNat ≤ 4

theorem isNone_modeOf_iff (frm : BitVec 3) : (modeOf frm).isNone = true ↔ ¬ frm.toNat ≤ 4 := by
  revert frm; decide

section
variable {s : State} {i : Instr} {a : BitVec 1} {h : Handle} {rs2 : XReg} {ix : Nat}

theorem State.acceptMout_of_none (hn : s.handle? h .producer (kindIs [0]) = none) : s.acceptMout i h a rs2 = .fault 25 (rp0 h.toNat 0) := by
  simp only [State.acceptMout, hn]

/-- The checks of the control word find an illegal instruction, whichever of them fails. -/
theorem State.acceptMout_of_control (hs : s.handle? h .producer (kindIs [0]) = some ix) (hc : ¬ s.OutControl a (s.x rs2)) :
    s.acceptMout i h a rs2 = wordFault i := by
  simp only [State.acceptMout, hs]
  split
  · rfl
  split
  · rfl
  split
  · rfl
  split
  · rfl
  split
  · rfl
  next h1 h2 h3 h4 h5 =>
    rw [isNone_modeOf_iff, not_not] at h5
    refine absurd ⟨by omega, fun h => ?_, fun h => ?_, fun h => ?_, h5⟩ hc
    · simpa [h] using h2
    · simpa [h] using h3
    · simpa [h, and_assoc] using h4

theorem State.acceptMout_of_some (hs : s.handle? h .producer (kindIs [0]) = some ix) (hc : s.OutControl a (s.x rs2)) :
    s.acceptMout i h a rs2 =
    if 0 < (s.myVc.pcfg a).m && (s.ring s.vk ix).size < outBytes (s.x rs2) (s.myVc.pcfg a).n then .fault 25 (rp0 h.toNat 0)
    else if 0 < (s.myVc.pcfg a).m && (s.ring s.vk ix).count < (s.myVc.pcfg a).m then .fault 25 (rp1 h.toNat 0)
    else s.takeIn 0 { s.newEntry i with rd := some ix, nd := (s.myVc.pcfg a).m, op := s.x rs2 } 0 0 (s.myVc.pcfg a).m id := by
  obtain ⟨hlt, hsat, hq, hd, hfrm⟩ := hc
  have hmode : (modeOf s.me.frm).isNone = false := by rw [← Bool.not_eq_true, isNone_modeOf_iff, not_not]; exact hfrm
  simp only [State.acceptMout, hs]
  rw [if_neg (by omega), if_neg, if_neg, if_neg, if_neg (by simp [hmode])]
  · cases htgt : tgtIsD (outTgt (s.x rs2)) <;> simp_all
  · cases h4 : bit (s.x rs2) 4 <;> simp_all
  · cases h3 : bit (s.x rs2) 3 <;> simp_all

theorem State.acceptMout_of_fits (hs : s.handle? h .producer (kindIs [0]) = some ix) (hc : s.OutControl a (s.x rs2))
    (hf : (s.myVc.pcfg a).m = 0 ∨ outBytes (s.x rs2) (s.myVc.pcfg a).n ≤ (s.ring s.vk ix).size ∧ (s.myVc.pcfg a).m ≤ (s.ring s.vk ix).count) :
    s.acceptMout i h a rs2 = s.takeIn 0 { s.newEntry i with rd := some ix, nd := (s.myVc.pcfg a).m, op := s.x rs2 } 0 0 (s.myVc.pcfg a).m id := by
  rw [State.acceptMout_of_some hs hc, if_neg (by simp; omega), if_neg (by simp; omega)]

end

/-! WSWAP (R163). -/

theorem VCore.matrixBegun_iff (v : VCore) : v.matrixBegun = true ↔
    FMap.get? v.run 0 ≠ none ∨ ∃ q rest, v.queueOf 0 = q :: rest ∧ q.kdone ≠ 0 := by
  cases hq : v.queueOf 0 <;> simp [VCore.matrixBegun, VCore.runOf, hq, Option.isSome_iff_ne_none]

/-- The virtual core after a WSWAP: the bit inverts at once, or at the boundary of what has begun; the projection follows. -/
def VCore.swapped (v : VCore) : VCore :=
  if v.matrixBegun then { v with swaps := v.swaps + 1, pbank := !v.pbank } else { v with bank := !v.bank, pbank := !v.pbank }

theorem State.acceptWswap_of_not_frozen {s : State} (h : s.myVc.frozen = false) : s.acceptWswap = .ok (s.updMyVc VCore.swapped) := by
  unfold State.acceptWswap
  rw [h, if_neg (by decide), State.projectSwap, State.updMyVc_updMyVc]
  rfl

theorem State.acceptWswap_of_frozen {s : State} (h : s.myVc.frozen = true) : s.acceptWswap = .full := if_pos h

/-! MZERO, WPSET and WSWAPQ (R155, R162, R163). -/

/-- Every pointer that WPSET names is one of the eight. -/
theorem setIfInBounds_wptr {α : Type} (v : Vector α 8) (w : WPtr) (x : α) : v.setIfInBounds w.toNat x = v.set w.toNat x w.isLt := by
  ext k hk
  simp [Vector.getElem_setIfInBounds, Vector.getElem_set]

section
variable (s : State)

theorem State.acceptMatrix_mzero (a : BitVec 1) : s.acceptMatrix (.mzero a) = s.takeIn 0 (s.newEntry (.mzero a)) 0 0 0 id := rfl

theorem State.acceptMatrix_wswapq :
    s.acceptMatrix .wswapq = s.takeIn 0 (s.newEntry .wswapq) 0 0 0 (fun t => t.updMyVc (fun v => { v with pbank := !v.pbank })) := rfl

/-- The virtual core with one of its projected pointers set. -/
def VCore.setPwp (v : VCore) (w : WPtr) (p : BitVec 36) : VCore := { v with pwp := v.pwp.set w.toNat p w.isLt }

theorem State.acceptMatrix_wpset (w : WPtr) (rs1 : XReg) : s.acceptMatrix (.wpset w rs1) =
    s.takeIn 0 { s.newEntry (.wpset w rs1) with op := s.x rs1 } 0 0 0 (fun t => t.updMyVc (fun v => v.setPwp w ((s.x rs1).setWidth 36))) := by
  simp only [VCore.setPwp, ← setIfInBounds_wptr]
  rfl

end

/-! The instructions at their slot's turn. -/

section
variable {s : State} (hbind : FMap.get? s.myVc.binds 0 = some s.ix)
include hbind

/-- A matrix instruction that runs on every die reaches its engine when its slot is bound to it (R107). -/
theorem State.engineFate_of_bound {i : Instr} (hf : fOnly i = false) (he : engineOf i = some 0) : s.engineFate i = .present :=
  State.engineFate_eq_present (fun h => absurd (hf.symm.trans h) Bool.false_ne_true) he hbind

/-- The traps of MCFG. -/
theorem trapped_mcfg (a : BitVec 1) (rs1 : XReg) :
    (¬ CfgFields (s.x rs1) → ∃ t, exec (.mcfg a rs1) s = .next t ∧ Trapped s t 2 (((encode (.mcfg a rs1)).getD 0).setWidth 64) s.me.pc) ∧
    (CfgFields (s.x rs1) → (cfgOfWord (s.x rs1)).cwen = true → (cfgOfWord (s.x rs1)).cw % 8 ≠ 0 →
      ∃ t, exec (.mcfg a rs1) s = .next t ∧ Trapped s t 6 (BitVec.ofNat 64 (cfgOfWord (s.x rs1)).cw) s.me.pc) ∧
    (∀ e tv, CfgFields (s.x rs1) → (cfgOfWord (s.x rs1)).cwen = true → (cfgOfWord (s.x rs1)).cw % 8 = 0 →
      lmCheck s.me (BitVec.ofNat 64 (cfgOfWord (s.x rs1)).cw) 8 true = .error (e, tv) →
      ∃ t, exec (.mcfg a rs1) s = .next t ∧ Trapped s t (BitVec.ofNat 64 e) tv s.me.pc) := by
  have hfate : s.engineFate (.mcfg a rs1) = .present := State.engineFate_of_bound hbind rfl rfl
  exact ⟨fun h => trapped_present rfl hfate (State.acceptMcfg_of_fields h) rfl,
    fun h hw hal => trapped_present rfl hfate (State.acceptMcfg_of_misaligned h hw hal) rfl,
    fun _ _ h hw hal he => trapped_present rfl hfate (State.acceptMcfg_of_outside h hw hal he) rfl⟩

/-- The traps of MLOAD. -/
theorem trapped_mload (n : Bool) (a : BitVec 1) (h : Handle) (ix : Nat) :
    let c := s.myVc.pcfg a
    let r := s.ring s.vk ix
    let reads := s.handle? h .consumer (feeds 0) = some ix
    let trap := fun (tv : Nat) => ∃ t, exec (.mload n a h) s = .next t ∧ Trapped s t 25 (BitVec.ofNat 64 tv) s.me.pc
    (s.handle? h .consumer (feeds 0) = none → trap h.toNat) ∧ (reads → 0 < c.m → r.size < 4 * c.n → trap h.toNat) ∧
    (reads → 0 < c.m → 4 * c.n ≤ r.size → r.count < c.m → trap (64 + h.toNat)) := by
  dsimp only
  have hfate : s.engineFate (.mload n a h) = .present := State.engineFate_of_bound hbind rfl rfl
  refine ⟨fun hn => ?_, fun hs h0 hsize => ?_, fun hs h0 hsize hcount => ?_⟩
  · exact trapped_present rfl hfate (State.acceptMload_of_none hn) rfl
  · exact trapped_present rfl hfate ((State.acceptMload_of_some hs).trans (if_pos (by simp; omega))) rfl
  · exact trapped_present rfl hfate ((State.acceptMload_of_some hs).trans ((if_neg (by simp; omega)).trans (if_pos (by simp; omega)))) (rp1_zero _)

/-- The traps of MOUT. -/
theorem trapped_mout (n : Bool) (h : Handle) (a : BitVec 1) (rs2 : XReg) (ix : Nat) :
    let c := s.myVc.pcfg a
    let r := s.ring s.vk ix
    let size := outBytes (s.x rs2) c.n
    let writes := s.handle? h .producer (kindIs [0]) = some ix
    let control := s.OutControl a (s.x rs2)
    let trap := fun (cause tv : Word) => ∃ t, exec (.mout n h a rs2) s = .next t ∧ Trapped s t cause tv s.me.pc
    (s.handle? h .producer (kindIs [0]) = none → trap 25 (BitVec.ofNat 64 h.toNat)) ∧
    (writes → ¬ control → trap 2 (((encode (.mout n h a rs2)).getD 0).setWidth 64)) ∧
    (writes → control → 0 < c.m → r.size < size → trap 25 (BitVec.ofNat 64 h.toNat)) ∧
    (writes → control → 0 < c.m → size ≤ r.size → r.count < c.m → trap 25 (BitVec.ofNat 64 (64 + h.toNat))) := by
  dsimp only
  have hfate : s.engineFate (.mout n h a rs2) = .present := State.engineFate_of_bound hbind rfl rfl
  refine ⟨fun hn => ?_, fun hs hc => ?_, fun hs hc h0 hsize => ?_, fun hs hc h0 hsize hcount => ?_⟩
  · exact trapped_present rfl hfate (State.acceptMout_of_none hn) rfl
  · exact trapped_present rfl hfate (State.acceptMout_of_control hs hc) rfl
  · exact trapped_present rfl hfate ((State.acceptMout_of_some hs hc).trans (if_pos (by simp; omega))) rfl
  · exact trapped_present rfl hfate ((State.acceptMout_of_some hs hc).trans ((if_neg (by simp; omega)).trans (if_pos (by simp; omega))))
      (rp1_zero _)

end

/-- An MCFG that is taken: the projection has the new configuration, and so has the entry's operand. -/
theorem queued_mcfg {s : State} (hfree : Free s 0) {a : BitVec 1} {rs1 : XReg} (hfields : CfgFields (s.x rs1)) {pa : Nat}
    (hw : (cfgOfWord (s.x rs1)).cwen = true → (cfgOfWord (s.x rs1)).cw % 8 = 0 ∧
      lmCheck s.me (BitVec.ofNat 64 (cfgOfWord (s.x rs1)).cw) 8 true = .ok pa) :
    ∃ t, exec (.mcfg a rs1) s = .next t ∧ Queued s t 0 (.mcfg a rs1) (s.myVc.setPcfg a (s.physCfg rs1))
      (fun q => cfgOfWord q.op = s.physCfg rs1) := by
  refine queued_unclaimed rfl (State.engineFate_of_bound hfree.1 rfl rfl) (State.acceptMcfg_of_fits hfields hw) hfree ⟨rfl, rfl, rfl⟩
    (fun v => v.setPcfg a (s.physCfg rs1)) rfl (fun v m => ?_) ((s.isOf_newEntry _).withOperands (wordOfCfg (s.physCfg rs1)) none none none 0 0 0) rfl
    (State.cfgOfWord_wordOfCfg_physCfg hfields)
  unfold VCore.setPcfg
  split <;> rfl

/-- An MLOAD whose operand fits is taken or waits, by the slots available (R151, R158). -/
theorem queued_or_parked_mload {s : State} (hfree : Free s 0) (n : Bool) {a : BitVec 1} {h : Handle} {ix : Nat}
    (hs : s.handle? h .consumer (feeds 0) = some ix)
    (hf : (s.myVc.pcfg a).m = 0 ∨ 4 * (s.myVc.pcfg a).n ≤ (s.ring s.vk ix).size ∧ (s.myVc.pcfg a).m ≤ (s.ring s.vk ix).count) :
    ((s.myVc.pcfg a).m ≤ s.availFill s.vk 0 ix → ∃ t, exec (.mload n a h) s = .next t ∧
      Queued s t 0 (.mload n a h) s.myVc (fun e => e.ra = some ix ∧ e.na = (s.myVc.pcfg a).m)) ∧
    (s.availFill s.vk 0 ix < (s.myVc.pcfg a).m → ∃ t, exec (.mload n a h) s = .next t ∧ EngineParked s t (.engineRing 0 ix false)) := by
  have hfate : s.engineFate (.mload n a h) = .present := State.engineFate_of_bound hfree.1 rfl rfl
  refine ⟨fun hle => ?_, fun hlt => ?_⟩
  · exact queued_present rfl hfate (State.acceptMload_of_fits hs hf) hfree rfl (fun _ e => by cases e; exact hle) nofun id
      (s.enqueue_updMyVc_id _ _).symm (fun _ _ => rfl) ((s.isOf_newEntry _).withOperands 0 none (some ix) none 0 (s.myVc.pcfg a).m 0) rfl
      ⟨rfl, rfl⟩
  · exact engineParked_present rfl hfate
      ((State.acceptMload_of_fits hs hf).trans (State.takeIn_of_unfilled (State.engineFull_of_free hfree) rfl rfl hlt)) rfl

/-- A MOUT whose operands fit is taken or waits, by the free slots available (R151, R160). -/
theorem queued_or_parked_mout {s : State} (hfree : Free s 0) (n : Bool) {a : BitVec 1} {h : Handle} {rs2 : XReg} {ix : Nat}
    (hs : s.handle? h .producer (kindIs [0]) = some ix) (hc : s.OutControl a (s.x rs2))
    (hf : (s.myVc.pcfg a).m = 0 ∨ outBytes (s.x rs2) (s.myVc.pcfg a).n ≤ (s.ring s.vk ix).size ∧ (s.myVc.pcfg a).m ≤ (s.ring s.vk ix).count) :
    ((s.myVc.pcfg a).m ≤ s.availRoom s.vk 0 ix → ∃ t, exec (.mout n h a rs2) s = .next t ∧
      Queued s t 0 (.mout n h a rs2) s.myVc (fun e => e.rd = some ix ∧ e.nd = (s.myVc.pcfg a).m ∧ e.op = s.x rs2)) ∧
    (s.availRoom s.vk 0 ix < (s.myVc.pcfg a).m → ∃ t, exec (.mout n h a rs2) s = .next t ∧ EngineParked s t (.engineRing 0 ix true)) := by
  have hfate : s.engineFate (.mout n h a rs2) = .present := State.engineFate_of_bound hfree.1 rfl rfl
  refine ⟨fun hle => ?_, fun hlt => ?_⟩
  · exact queued_present rfl hfate (State.acceptMout_of_fits hs hc hf) hfree rfl nofun (fun _ e => by cases e; exact hle) id
      (s.enqueue_updMyVc_id _ _).symm (fun _ _ => rfl) ((s.isOf_newEntry _).withOperands (s.x rs2) (some ix) none none (s.myVc.pcfg a).m 0 0) rfl
      ⟨rfl, rfl, rfl⟩
  · exact engineParked_present rfl hfate
      ((State.acceptMout_of_fits hs hc hf).trans (State.takeIn_of_no_room (State.engineFull_of_free hfree) rfl rfl rfl hlt)) rfl

/-- WSWAP goes by its engine: at once, or at the boundary of what has begun (R163). -/
theorem vcDone_wswap {s : State} (hfree : Free s 0) : ∃ t, exec .wswap s = .next t ∧ VcDone s t s.myVc.swapped 0 0 :=
  ⟨_, exec_accepted rfl (State.engineFate_of_bound hfree.1 rfl rfl) (State.acceptWswap_of_not_frozen hfree.2.1), s.vcDone_updMyVc_retire _⟩

/-- Settles O33: each instruction by what its acceptance answers, and that answer by what it does at the slot's turn. -/
theorem matrixAcceptance : Obligations.MatrixAcceptance := by
  intro s a n h w rd rs1 pa ix mine c o v k phys r q trap illegal fields begun reads writes control load out
  have fate {i : Instr} (hb : FMap.get? s.myVc.binds 0 = some s.ix) (hf : fOnly i = false) (he : engineOf i = some 0) :=
    State.engineFate_of_bound hb hf he
  refine ⟨fun hfree => ⟨?_, ?_, ?_, ?_, ?_, fun hf hw => ?_, fun hs hf => (queued_or_parked_mload hfree n hs hf).1,
      fun hs hf => (queued_or_parked_mload hfree n hs hf).2, fun hs hc hf => (queued_or_parked_mout hfree n hs hc hf).1,
      fun hs hc hf => (queued_or_parked_mout hfree n hs hc hf).2⟩, fun hbind => ?_, ?_⟩
  · exact queued_unclaimed rfl (fate hfree.1 rfl rfl) (s.acceptMatrix_mzero a) hfree ⟨rfl, rfl, rfl⟩ id
      (s.enqueue_updMyVc_id _ _).symm (fun _ _ => rfl)
      (s.isOf_newEntry _) rfl trivial
  · exact queued_unclaimed rfl (fate hfree.1 rfl rfl) s.acceptMatrix_wswapq hfree ⟨rfl, rfl, rfl⟩
      (fun v => { v with pbank := !v.pbank }) rfl (fun _ _ => rfl)
      (s.isOf_newEntry _) rfl trivial
  · exact queued_unclaimed rfl (fate hfree.1 rfl rfl) (s.acceptMatrix_wpset w rs1) hfree ⟨rfl, rfl, rfl⟩
      (fun u => u.setPwp w (v.setWidth 36)) rfl
      (fun _ _ => rfl) ((s.isOf_newEntry _).withOperands v none none none 0 0 0) rfl rfl
  · have hwp : mine.pwp.getD w.toNat 0 = mine.pwp[w.toNat]'(w.isLt) := by simp [Vector.getD, w.isLt]
    rw [← hwp]
    exact ⟨_, exec_accepted rfl (fate hfree.1 rfl rfl) rfl, s.did_result rd _⟩
  · obtain ⟨t, ht, hdone⟩ := vcDone_wswap hfree
    rw [VCore.swapped] at hdone
    refine ⟨t, ht, fun hn => ?_, fun hb => ?_⟩
    · rwa [if_neg ((VCore.matrixBegun_iff mine).not.mpr hn)] at hdone
    · rwa [if_pos ((VCore.matrixBegun_iff mine).mpr hb)] at hdone
  · have hq := queued_mcfg hfree (a := a) hf hw
    have ha : mine.setPcfg a phys = if a = 0 then { mine with pcfg0 := phys } else { mine with pcfg1 := phys } := by
      simp only [VCore.setPcfg, beq_iff_eq]
    rw [← ha]
    exact hq
  · obtain ⟨hfields, hal, hout⟩ := trapped_mcfg hbind a rs1
    obtain ⟨hload, hsize, hcount⟩ := trapped_mload hbind n a h ix
    obtain ⟨hmout, hctl, hsize', hcount'⟩ := trapped_mout hbind n h a rs1 ix
    exact ⟨hfields, hal, hout, hload, hsize, hcount, hmout, hctl, hsize', hcount'⟩
  · rintro waits ⟨hbind, hfull⟩
    have hfull := (s.engineFull_eq_true_iff 0).mpr hfull
    exact ⟨atQueue_present rfl (fate hbind rfl rfl) ((s.acceptMatrix_mzero a).trans (State.takeIn_of_full hfull)),
      atQueue_present rfl (fate hbind rfl rfl) (s.acceptMatrix_wswapq.trans (State.takeIn_of_full hfull)),
      atQueue_present rfl (fate hbind rfl rfl) ((s.acceptMatrix_wpset w rs1).trans (State.takeIn_of_full hfull)),
      fun hz => atQueue_present rfl (fate hbind rfl rfl) (State.acceptWswap_of_frozen hz)⟩

end Sys2Proof.Machine
end

section
/-! PROOFS. The migrate trap (R244): the slot that takes it keeps its CSRs through the sweep of the holds. -/

namespace Sys2Proof.Machine

/-- What taking slots for a hold leaves of a slot that is TRAPPED already and holds nothing: all of it but its reservation. -/
structure KeepsTrapped (s t : State) : Prop where
  cur : t.cur = s.cur
  slot : ∀ k, (s.slot k).st = .trapped → (s.slot k).hold = none → { t.slot k with resv := (s.slot k).resv } = s.slot k

theorem SameSlots.keepsTrapped {s t : State} (h : SameSlots s t) : KeepsTrapped s t := ⟨h.cur, fun k _ _ => by rw [h.slot]⟩

theorem KeepsTrapped.refl (s : State) : KeepsTrapped s s := ⟨rfl, fun _ _ _ => rfl⟩

theorem KeepsTrapped.trans {s t u : State} (h : KeepsTrapped s t) (k : KeepsTrapped t u) : KeepsTrapped s u where
  cur := k.cur.trans h.cur
  slot j hst hhold := by
    have ht := h.slot j hst hhold
    have hu := k.slot j ((congrArg Slot.st ht).trans hst) ((congrArg Slot.hold ht).trans hhold)
    rw [← ht, ← hu]

theorem Recorded.keepsTrapped {s t : State} (h : Recorded s t) : KeepsTrapped s t := ⟨(congrArg State.cur h.rest :), fun k _ _ => h.slot k⟩

theorem Slot.heldNow_of_trapped {sl : Slot} (hst : sl.st = .trapped) (hhold : sl.hold = none) (h : HoldReq) : sl.heldNow h = none := by
  simp only [Slot.heldNow, hst, hhold]

theorem State.keepsTrapped_seize {s : State} {key : Nat} {sl : Slot} {h : HoldReq} (ht : (s.slot key).heldNow h = some sl) :
    KeepsTrapped s (s.seize key sl h) := by
  have hset : KeepsTrapped s (s.setSlot key sl) := {
    cur := rfl
    slot := fun k hst hhold => by
      have hk : k ≠ key := by
        rintro rfl
        rw [Slot.heldNow_of_trapped hst hhold] at ht
        cases ht
      rw [State.slot_setSlot, if_neg hk] }
  unfold State.seize
  dsimp only
  split
  · exact hset.trans (State.recorded_writeSlotRecord _ key).keepsTrapped
  · exact hset

theorem State.keepsTrapped_sweepAt (s : State) (vk key : Nat) : KeepsTrapped s (s.sweepAt vk key) := by
  unfold State.sweepAt
  split
  · next h sl hb =>
    have ht := heldNow_of_heldBy hb
    split
    · refine KeepsTrapped.trans ?_ (State.keepsTrapped_seize ht)
      exact SameSlots.keepsTrapped ⟨rfl, rfl⟩
    · exact State.keepsTrapped_seize ht
  · exact .refl s

theorem State.keepsTrapped_foldl_sweepAt (s : State) (vk : Nat) (l : List Nat) :
    KeepsTrapped s (l.foldl (fun t key => t.sweepAt vk key) s) := by
  induction l generalizing s with
  | nil => exact .refl s
  | cons k l ih => exact (s.keepsTrapped_sweepAt vk k).trans (ih _)

theorem State.sameSlots_withdrawWenq (s : State) (vk : Nat) : SameSlots s (s.withdrawWenq vk) := by
  unfold State.withdrawWenq
  split
  · exact .refl s
  · dsimp only
    split
    · exact ⟨rfl, rfl⟩
    · exact .refl s

theorem State.sameSlots_freezeHeld (s : State) (vk : Nat) : SameSlots s (s.freezeHeld vk) := by
  unfold State.freezeHeld
  dsimp only
  split
  · exact SameSlots.trans (t := s.updVc vk _) ⟨rfl, rfl⟩ (State.sameSlots_withdrawWenq _ vk)
  · exact .refl s

theorem State.keepsTrapped_sweep (s : State) (vk : Nat) : KeepsTrapped s (s.sweep vk) := by
  rw [State.sweep_eq]
  exact (s.keepsTrapped_foldl_sweepAt vk _).trans (State.sameSlots_freezeHeld _ vk).keepsTrapped

theorem State.keepsTrapped_askHold {s : State} {h : HoldReq} (hk : h.kind ≠ .preempt) (vk : Nat) : KeepsTrapped s (s.askHold vk h) := by
  unfold State.askHold
  dsimp only
  rw [if_neg (by simpa using hk)]
  refine KeepsTrapped.trans ?_ (State.keepsTrapped_sweep _ vk)
  exact SameSlots.keepsTrapped ⟨rfl, rfl⟩

theorem KeepsTrapped.me {s t : State} (h : KeepsTrapped s t) (hst : s.me.st = .trapped) (hhold : s.me.hold = none) :
    { t.me with resv := s.me.resv } = s.me := by
  rw [State.me, State.me, h.cur]; exact h.slot s.cur hst hhold

theorem State.keepsTrapped_moveAsked (s : State) (status : Nat) (rd : BitVec 5) (want : Option Nat) :
    KeepsTrapped (s.updMe (fun sl => sl.seize .migrate)) (s.moveAsked status rd want) := by
  refine KeepsTrapped.trans ?_ (State.keepsTrapped_askHold (by simp) s.vk)
  exact SameSlots.keepsTrapped ⟨rfl, rfl⟩

theorem State.sameSlots_enqueueMove (s : State) (vk : Nat) : SameSlots s (s.enqueueMove vk) := ⟨rfl, rfl⟩

theorem State.sameSlots_startMove (s : State) (vk g : Nat) : SameSlots s (s.startMove vk g) := ⟨rfl, rfl⟩

theorem State.sameSlots_askMove (s : State) (status : Nat) (rd : BitVec 5) (want : Option Nat) :
    SameSlots (s.moveAsked status rd want) (s.askMove status rd want) := by
  obtain h | ⟨g, h⟩ := s.askMove_cases status rd want
  · rw [h]; exact State.sameSlots_enqueueMove _ _
  · rw [h]; exact State.sameSlots_startMove _ _ g

theorem Slot.eq_of_but_resv {a b : Slot} (h : { a with resv := b.resv } = b) : a = { b with resv := a.resv } := by rw [← h]

/-- A slot that holds nothing and asks for a move is TRAPPED, and nothing else of it changes but its reservation. -/
theorem State.me_askMove {s : State} (hhold : s.me.hold = none) (status : Nat) (rd : BitVec 5) (want : Option Nat) :
    ∃ r, (s.askMove status rd want).me = { s.me.seize .migrate with resv := r } := by
  have hseized : (s.updMe (fun sl => sl.seize .migrate)).me = s.me.seize .migrate := s.me_updMe _
  have hkeeps := (s.keepsTrapped_moveAsked status rd want).trans (s.sameSlots_askMove status rd want).keepsTrapped
  have hme := hkeeps.me (by rw [hseized]; rfl) (by rw [hseized]; exact hhold)
  rw [hseized] at hme
  exact ⟨_, Slot.eq_of_but_resv hme⟩

/-- The current slot with the CSRs of the migrate trap written. -/
def State.migrateCsrs (s : State) (w : InsnWord) : State :=
  s.updMe (fun sl => { sl with mcause := 24, mepc := sl.pc, mtval := w.setWidth 64, resv := none })

theorem State.migrateTrap_eq (s : State) (w : InsnWord) : s.migrateTrap w = (s.migrateCsrs w).askMove 0 0 none := rfl

theorem State.me_migrateCsrs (s : State) (w : InsnWord) :
    (s.migrateCsrs w).me = { s.me with mcause := 24, mepc := s.me.pc, mtval := w.setWidth 64, resv := none } := s.me_updMe _

/-- The slot after the migrate trap. -/
theorem State.me_migrateTrap {s : State} (hhold : s.me.hold = none) (w : InsnWord) :
    ∃ r, (s.migrateTrap w).me = { s.me.seize .migrate with mcause := 24, mepc := s.me.pc, mtval := w.setWidth 64, resv := r } := by
  have hcsrs := s.me_migrateCsrs w
  obtain ⟨r, hr⟩ := State.me_askMove (s := s.migrateCsrs w) (by rw [hcsrs]; exact hhold) 0 0 none
  rw [hcsrs] at hr
  exact ⟨r, by rw [State.migrateTrap_eq, hr]; rfl⟩

theorem State.move_migrateTrap (s : State) (w : InsnWord) : ∃ m, (s.migrateTrap w).myVc.move = some m ∧ m.status = 0 := by
  obtain ⟨-, m, hm, hstatus, -⟩ := (s.migrateCsrs w).askMove_spec 0 0 none
  exact ⟨m, hm, hstatus⟩

end Sys2Proof.Machine
end

section
/-! PROOFS. Acceptance of MMA and MMA.N (R165). -/

namespace Sys2Proof.Machine

open Sys2Proof.Claim

/-! The offsets of the tiles and bitmaps (R162, R165). -/

theorem lowest_eq_min? (l : List Nat) : lowest l = l.min? := by cases l <;> rfl

/-- All offsets from o by step lie below the share. -/
def OffsetsWithin (share o step kb : Nat) : Prop := ∀ b < kb, (o + step * b) % 0x100000 < share

/-- x is the least of the offsets from o by step that do not lie below the share. -/
def OffsetsLeast (share o step kb x : Nat) : Prop :=
  (∃ b < kb, x = (o + step * b) % 0x100000) ∧ share ≤ x ∧ ∀ b < kb, share ≤ (o + step * b) % 0x100000 → x ≤ (o + step * b) % 0x100000

theorem mem_beyond_iff {share o step kb y : Nat} :
    y ∈ (offsets o step kb).filter (fun p => share ≤ p) ↔ (∃ b < kb, y = (o + step * b) % 0x100000) ∧ share ≤ y := by
  simp [offsets, eq_comm]

theorem beyondShare_of_within {share o step kb : Nat} (h : OffsetsWithin share o step kb) : beyondShare share (offsets o step kb) = none := by
  rw [beyondShare, lowest_eq_min?, List.min?_eq_none_iff, List.eq_nil_iff_forall_not_mem]
  intro y hy
  obtain ⟨⟨b, hb, rfl⟩, hle⟩ := mem_beyond_iff.mp hy
  exact absurd (h b hb) (Nat.not_lt.mpr hle)

theorem beyondShare_of_least {share o step kb x : Nat} (h : OffsetsLeast share o step kb x) :
    beyondShare share (offsets o step kb) = some x := by
  obtain ⟨hx, hle, hmin⟩ := h
  rw [beyondShare, lowest_eq_min?, List.min?_eq_some_iff]
  refine ⟨mem_beyond_iff.mpr ⟨hx, hle⟩, fun y hy => ?_⟩
  obtain ⟨⟨b, hb, rfl⟩, hy⟩ := mem_beyond_iff.mp hy
  exact hmin b hb hy

/-! The pointer registers. -/

theorem getD_wptr (v : Vector (BitVec 36) 8) (w : WPtr) : v.getD w.toNat 0 = v[w.toNat]'(w.isLt) := by
  have h : v[w.toNat]? = some (v[w.toNat]'(w.isLt)) := Vector.getElem?_eq_getElem w.isLt
  simp [Vector.getD, h]

theorem extractLsb'_offset (p : BitVec 36) : p.extractLsb' 0 20 = p.setWidth 20 := (BitVec.setWidth_eq_extractLsb' (by decide)).symm

theorem wpOff_eq (p : BitVec 36) : wpOff p = (p.setWidth 20).toNat := by rw [wpOff, extractLsb'_offset]

/-- With .A a pointer's offset moves on by its increment, modulo 2^20. -/
theorem wpAdvance_eq (p : BitVec 36) : wpAdvance p = p.extractLsb' 20 16 ++ (p.setWidth 20 + (p.extractLsb' 20 16).setWidth 20) := by
  rw [wpAdvance, wpOff_eq, wpInc, BitVec.ofNat_add, BitVec.ofNat_toNat, BitVec.ofNat_toNat, BitVec.setWidth_eq]

theorem getElem_advanceAt_self (v : Vector (BitVec 36) 8) (w : WPtr) : (advanceAt v w.toNat)[w.toNat]'(w.isLt) = wpAdvance (v[w.toNat]'(w.isLt)) := by
  have hw := w.isLt
  rw [← getD_wptr v w]
  simp [advanceAt, Nat.mod_eq_of_lt hw]

theorem getElem_advanceAt_ne (v : Vector (BitVec 36) 8) {w j : WPtr} (h : j ≠ w) :
    (advanceAt v w.toNat)[j.toNat]'(j.isLt) = v[j.toNat]'(j.isLt) := by
  have hw := w.isLt
  have hne : w.toNat ≠ j.toNat := fun e => h (BitVec.eq_of_toNat_eq e).symm
  simp [advanceAt, Nat.mod_eq_of_lt hw, hne]

/-! What the acceptance looks at. -/

/-- The instruction with these fields. -/
def MmaArgs.instr (x : MmaArgs) : Instr :=
  if x.n then .mmaN x.fmt x.z x.s x.a x.acc x.h x.w x.fs else .mma x.fmt x.z x.s x.a x.acc x.h x.w x.fs

/-- The pointer of the bitmaps, with .S: the one after the tiles'. -/
def MmaArgs.maps (x : MmaArgs) : WPtr := x.w + 1

theorem succ_ne_wptr (w : WPtr) : w + 1 ≠ w := by revert w; decide

theorem MmaArgs.maps_ne (x : MmaArgs) : x.maps ≠ x.w := succ_ne_wptr x.w

theorem exec_mma (x : MmaArgs) (s : State) : exec x.instr s = .next (s.present x.instr (s.acceptMma x.instr x)) := by
  obtain ⟨f, z, sp, a, full, acc, h, w, fs⟩ := x
  cases full <;> rfl

theorem engineOf_mma (x : MmaArgs) : engineOf x.instr = some 0 := by
  obtain ⟨f, z, sp, a, full, acc, h, w, fs⟩ := x
  cases full <;> rfl

theorem fOnly_mma (x : MmaArgs) : fOnly x.instr = fmtIsD x.fmt := by
  obtain ⟨f, z, sp, a, full, acc, h, w, fs⟩ := x
  cases full <;> rfl

section
variable (s : State) (x : MmaArgs)

/-- The records of the instruction, by the projected configuration. -/
def State.mmaRecords : Nat := (s.myVc.pcfg x.acc).nrec

/-- The records that are there before the instruction is taken: with .N all of them, else those of the first K-block. -/
def State.mmaFirst : Nat := if s.mmaRecords x = 0 then 0 else if x.n then s.mmaRecords x else (s.myVc.pcfg x.acc).m

/-- The offset of a pointer of the projection. -/
def State.wpOffset (w : WPtr) : Nat := ((s.myVc.pwp[w.toNat]'(w.isLt)).setWidth 20).toNat

/-- The format pair fits the configuration, and with D that of the other accumulator. -/
def State.MmaPair : Prop :=
  (s.myVc.pcfg x.acc).i32 = fmtIsI8 x.fmt ∧ (fmtIsD x.fmt = true → (s.myVc.pcfg (~~~ x.acc)).i32 = false ∧
    (s.myVc.pcfg (~~~ x.acc)).m = (s.myVc.pcfg x.acc).m ∧ (s.myVc.pcfg (~~~ x.acc)).n = (s.myVc.pcfg x.acc).n)

/-- The slots of the ring hold a record, and it has as many as are to be there at once. -/
def State.MmaSlots (ix : Nat) : Prop := s.mmaRecords x ≠ 0 → 136 ≤ (s.ring s.vk ix).size ∧ s.mmaFirst x ≤ (s.ring s.vk ix).count

/-- Offsets from that of a pointer, one for each K-block, are aligned to step and lie inside the share. -/
def State.OffsetsFit (w : WPtr) (step : Nat) : Prop :=
  s.wpOffset w % step = 0 ∧ OffsetsWithin (s.share s.vk) (s.wpOffset w) step (s.myVc.pcfg x.acc).kb

/-- With .A the pointers of the projection move on. -/
def MmaArgs.advance (v : VCore) : VCore :=
  { v with pwp := if x.s then advanceAt (advanceAt v.pwp x.w.toNat) x.maps.toNat else advanceAt v.pwp x.w.toNat }

/-- The instruction goes to its engine with its records claimed. -/
def State.mmaTaken (ix : Nat) : Accept :=
  s.takeIn 0 { s.newEntry x.instr with ra := some ix, na := s.mmaRecords x, op := s.f x.fs } (s.mmaFirst x) 0 0 
    (fun t => if x.a then t.updMyVc x.advance else t)

end

/-! What it answers. -/

theorem State.wpOff_getD (s : State) (w : WPtr) : wpOff (s.myVc.pwp.getD w.toNat 0) = s.wpOffset w := by
  rw [getD_wptr, wpOff_eq, State.wpOffset]

theorem MmaArgs.toNat_maps (x : MmaArgs) : (x.w.toNat + 1) % 8 = x.maps.toNat := (BitVec.toNat_add x.w 1).symm

section
variable (s : State) (x : MmaArgs) (ix : Nat)

/-- The check of the bitmaps, after which the instruction is taken. -/
def State.mmaMaps : Accept :=
  if x.s && s.wpOffset x.maps % 16 != 0 then .fault 4 (BitVec.ofNat 64 (s.wpOffset x.maps))
  else match (if x.s then beyondShare (s.share s.vk) (offsets (s.wpOffset x.maps) 16 (s.myVc.pcfg x.acc).kb) else none) with
    | some o => .fault 30 (BitVec.ofNat 64 o)
    | none => s.mmaTaken x ix

/-- The check of the tiles, before that of the bitmaps. -/
def State.mmaTiles : Accept :=
  if s.wpOffset x.w % 8192 != 0 then .fault 4 (BitVec.ofNat 64 (s.wpOffset x.w))
  else match beyondShare (s.share s.vk) (offsets (s.wpOffset x.w) 8192 (s.myVc.pcfg x.acc).kb) with
    | some o => .fault 30 (BitVec.ofNat 64 o)
    | none => s.mmaMaps x ix

end

section
variable {s : State} {x : MmaArgs} {ix : Nat}

theorem State.mmaMaps_of_fits (h : x.s = true → s.OffsetsFit x x.maps 16) : s.mmaMaps x ix = s.mmaTaken x ix := by
  unfold State.mmaMaps
  cases hx : x.s with
  | false => rfl
  | true =>
    obtain ⟨hal, hin⟩ := h hx
    rw [if_neg (by simp [hal]), if_pos rfl, beyondShare_of_within hin]

theorem State.mmaMaps_of_misaligned (hx : x.s = true) (h : s.wpOffset x.maps % 16 ≠ 0) :
    s.mmaMaps x ix = .fault 4 (BitVec.ofNat 64 (s.wpOffset x.maps)) := if_pos (by simp [hx, h])

theorem State.mmaMaps_of_least (hx : x.s = true) (hal : s.wpOffset x.maps % 16 = 0) {o : Nat}
    (h : OffsetsLeast (s.share s.vk) (s.wpOffset x.maps) 16 (s.myVc.pcfg x.acc).kb o) :
    s.mmaMaps x ix = .fault 30 (BitVec.ofNat 64 o) := by
  unfold State.mmaMaps
  rw [if_neg (by simp [hal]), if_pos hx, beyondShare_of_least h]

theorem State.mmaTiles_of_fits (h : s.OffsetsFit x x.w 8192) : s.mmaTiles x ix = s.mmaMaps x ix := by
  obtain ⟨hal, hin⟩ := h
  unfold State.mmaTiles
  rw [if_neg (by simp [hal]), beyondShare_of_within hin]

theorem State.mmaTiles_of_misaligned (h : s.wpOffset x.w % 8192 ≠ 0) :
    s.mmaTiles x ix = .fault 4 (BitVec.ofNat 64 (s.wpOffset x.w)) := if_pos (by simp [h])

theorem State.mmaTiles_of_least (hal : s.wpOffset x.w % 8192 = 0) {o : Nat}
    (h : OffsetsLeast (s.share s.vk) (s.wpOffset x.w) 8192 (s.myVc.pcfg x.acc).kb o) :
    s.mmaTiles x ix = .fault 30 (BitVec.ofNat 64 o) := by
  unfold State.mmaTiles
  rw [if_neg (by simp [hal]), beyondShare_of_least h]

theorem State.acceptMma_of_none (hn : s.handle? x.h .consumer (feeds 0) = none) : s.acceptMma x.instr x = .fault 25 (rp0 x.h.toNat 0) := by
  simp only [State.acceptMma, hn]

variable (hs : s.handle? x.h .consumer (feeds 0) = some ix)
include hs

theorem State.acceptMma_of_not_pair (h : ¬ s.MmaPair x) : s.acceptMma x.instr x = wordFault x.instr := by
  simp only [State.acceptMma, hs]
  split
  · rfl
  split
  · rfl
  next h1 h2 =>
    refine absurd ⟨by simpa using h1, fun hd => ?_⟩ h
    simpa [hd, and_assoc] using h2

variable (hp : s.MmaPair x)
include hp

theorem State.acceptMma_of_pair : s.acceptMma x.instr x =
    if s.mmaRecords x != 0 && (s.ring s.vk ix).size < 136 then .fault 25 (rp0 x.h.toNat 0)
    else if s.mmaRecords x != 0 && (s.ring s.vk ix).count < s.mmaFirst x then .fault 25 (rp1 x.h.toNat 0)
    else if s.mmaRecords x = 0 then s.mmaTaken x ix else s.mmaTiles x ix := by
  obtain ⟨hi, hd⟩ := hp
  have hother : (fmtIsD x.fmt && ((s.myVc.pcfg (~~~ x.acc)).i32 || (s.myVc.pcfg (~~~ x.acc)).m != (s.myVc.pcfg x.acc).m ||
      (s.myVc.pcfg (~~~ x.acc)).n != (s.myVc.pcfg x.acc).n)) = false := by
    cases h : fmtIsD x.fmt
    · rfl
    · simpa [and_assoc] using hd h
  simp only [State.acceptMma, hs, x.toNat_maps, s.wpOff_getD]
  rw [if_neg (by simp [hi]), if_neg (by simp [hother])]
  have hfirst : (if (s.myVc.pcfg x.acc).nrec == 0 then 0 else if x.n then (s.myVc.pcfg x.acc).nrec else (s.myVc.pcfg x.acc).m) =
      s.mmaFirst x := by by_cases h : (s.myVc.pcfg x.acc).nrec = 0 <;> simp [State.mmaFirst, State.mmaRecords, h]
  rw [hfirst]
  by_cases h0 : s.mmaRecords x = 0
  · have hn : (s.myVc.pcfg x.acc).nrec = 0 := h0
    rw [if_pos h0, h0]
    simp only [hn, bne_self_eq_false, Bool.false_and, Bool.and_false, beq_self_eq_true, if_true, Bool.false_eq_true, if_false, State.mmaTaken, h0]
    rfl
  · have hn : ((s.myVc.pcfg x.acc).nrec != 0) = true := bne_iff_ne.mpr h0
    have hb : ((s.myVc.pcfg x.acc).nrec == 0) = false := beq_eq_false_iff_ne.mpr h0
    rw [if_neg h0]
    simp only [hn, hb, Bool.true_and, Bool.and_true, Bool.false_eq_true, if_false, State.mmaTiles, State.mmaMaps, State.mmaTaken, State.mmaRecords]
    rfl

/-- An MMA without records has nothing to check. -/
theorem State.acceptMma_of_fits (hslots : s.MmaSlots x ix) (htiles : s.mmaRecords x ≠ 0 → s.OffsetsFit x x.w 8192)
    (hmaps : s.mmaRecords x ≠ 0 → x.s = true → s.OffsetsFit x x.maps 16) : s.acceptMma x.instr x = s.mmaTaken x ix := by
  rw [State.acceptMma_of_pair hs hp]
  by_cases h0 : s.mmaRecords x = 0
  · simp [h0]
  · obtain ⟨hsize, hcount⟩ := hslots h0
    rw [if_neg (by simp [hsize]), if_neg (by simp [hcount]), if_neg h0, State.mmaTiles_of_fits (htiles h0), State.mmaMaps_of_fits (hmaps h0)]

variable (h0 : s.mmaRecords x ≠ 0)
include h0

theorem State.acceptMma_of_size (hsize : (s.ring s.vk ix).size < 136) : s.acceptMma x.instr x = .fault 25 (rp0 x.h.toNat 0) :=
  (State.acceptMma_of_pair hs hp).trans (if_pos (by simp [h0, hsize]))

theorem State.acceptMma_of_count (hsize : 136 ≤ (s.ring s.vk ix).size) (hcount : (s.ring s.vk ix).count < s.mmaFirst x) :
    s.acceptMma x.instr x = .fault 25 (rp1 x.h.toNat 0) :=
  (State.acceptMma_of_pair hs hp).trans ((if_neg (by simp [hsize])).trans (if_pos (by simp [h0, hcount])))

theorem State.acceptMma_of_slots (hslots : s.MmaSlots x ix) : s.acceptMma x.instr x = s.mmaTiles x ix := by
  obtain ⟨hsize, hcount⟩ := hslots h0
  rw [State.acceptMma_of_pair hs hp, if_neg (by simp [hsize]), if_neg (by simp [hcount]), if_neg h0]

end

/-! The projected pointers of an instruction that is taken. -/

/-- The virtual core after the instruction is taken, but for the queue. -/
def MmaArgs.moved (x : MmaArgs) (v : VCore) : VCore := if x.a then x.advance v else v

section
variable (x : MmaArgs)

theorem MmaArgs.moved_eq (v : VCore) : x.moved v = { v with pwp := (x.moved v).pwp } := by
  unfold MmaArgs.moved
  split <;> rfl

theorem MmaArgs.moved_of_not_a (ha : x.a = false) (v : VCore) : x.moved v = v := if_neg (by simp [ha])

theorem MmaArgs.pwp_moved_of_a (ha : x.a = true) (v : VCore) :
    (x.moved v).pwp = if x.s then advanceAt (advanceAt v.pwp x.w.toNat) x.maps.toNat else advanceAt v.pwp x.w.toNat := by
  rw [MmaArgs.moved, if_pos ha, MmaArgs.advance]

theorem MmaArgs.pwp_moved_other (v : VCore) {j : WPtr} (hw : j ≠ x.w) (hm : j ≠ x.maps) :
    (x.moved v).pwp[j.toNat]'(j.isLt) = v.pwp[j.toNat]'(j.isLt) := by
  cases ha : x.a with
  | false => simp only [x.moved_of_not_a ha]
  | true =>
    simp only [x.pwp_moved_of_a ha]
    split
    · rw [getElem_advanceAt_ne _ hm, getElem_advanceAt_ne _ hw]
    · rw [getElem_advanceAt_ne _ hw]

theorem MmaArgs.pwp_moved_tiles (ha : x.a = true) (v : VCore) :
    (x.moved v).pwp[x.w.toNat]'(x.w.isLt) = wpAdvance (v.pwp[x.w.toNat]'(x.w.isLt)) := by
  simp only [x.pwp_moved_of_a ha]
  split
  · rw [getElem_advanceAt_ne _ x.maps_ne.symm, getElem_advanceAt_self]
  · rw [getElem_advanceAt_self]

theorem MmaArgs.pwp_moved_maps (ha : x.a = true) (v : VCore) :
    (x.moved v).pwp[x.maps.toNat]'(x.maps.isLt) =
      if x.s then wpAdvance (v.pwp[x.maps.toNat]'(x.maps.isLt)) else v.pwp[x.maps.toNat]'(x.maps.isLt) := by
  simp only [x.pwp_moved_of_a ha]
  split
  · rw [getElem_advanceAt_self, getElem_advanceAt_ne _ x.maps_ne]
  · rw [getElem_advanceAt_ne _ x.maps_ne]

end

/-! The instruction at its slot's turn. -/

section
variable {s : State} {x : MmaArgs} {ix : Nat}

theorem State.engineFate_mma (hon : fmtIsD x.fmt = true → isF (s.dieOf s.vk) = true) (hbind : FMap.get? s.myVc.binds 0 = some s.ix) :
    s.engineFate x.instr = .present :=
  State.engineFate_eq_present (by rwa [fOnly_mma]) (engineOf_mma x) hbind

theorem queued_mma (hfate : s.engineFate x.instr = .present) (hfree : Free s 0) (ha : s.acceptMma x.instr x = s.mmaTaken x ix)
    (hfill : s.mmaFirst x ≤ s.availFill s.vk 0 ix) : ∃ t, exec x.instr s = .next t ∧
      Queued s t 0 x.instr (x.moved s.myVc) (fun e => e.ra = some ix ∧ e.na = s.mmaRecords x ∧ e.kdone = 0 ∧ e.op = s.f x.fs) := by
  refine queued_present (exec_mma x s) hfate ha hfree rfl (fun _ e => by cases e; exact hfill) nofun x.moved ?_ (fun v m => ?_)
    ((s.isOf_newEntry _).withOperands (s.f x.fs) none (some ix) none 0 (s.mmaRecords x) 0) rfl ⟨rfl, rfl, rfl, rfl⟩
  · unfold MmaArgs.moved
    cases x.a with
    | false => exact (s.enqueue_updMyVc_id _ _).symm
    | true => rfl
  · unfold MmaArgs.moved
    split <;> rfl

theorem engineParked_mma (hfate : s.engineFate x.instr = .present) (hfree : Free s 0) (ha : s.acceptMma x.instr x = s.mmaTaken x ix)
    (hfill : s.availFill s.vk 0 ix < s.mmaFirst x) : ∃ t, exec x.instr s = .next t ∧ EngineParked s t (.engineRing 0 ix false) :=
  engineParked_present (exec_mma x s) hfate (ha.trans (State.takeIn_of_unfilled (State.engineFull_of_free hfree) rfl rfl hfill)) (engineOf_mma x)

/-- The traps of the records, the tiles and the bitmaps, in their order. -/
theorem trapped_mma (hfate : s.engineFate x.instr = .present) (hs : s.handle? x.h .consumer (feeds 0) = some ix) (hp : s.MmaPair x)
    (h0 : s.mmaRecords x ≠ 0) :
    let trap := fun (cause : Nat) (tv : Nat) => ∃ t, exec x.instr s = .next t ∧ Trapped s t (BitVec.ofNat 64 cause) (BitVec.ofNat 64 tv) s.me.pc
    let least := fun (w : WPtr) (step y : Nat) => OffsetsLeast (s.share s.vk) (s.wpOffset w) step (s.myVc.pcfg x.acc).kb y
    ((s.ring s.vk ix).size < 136 → trap 25 x.h.toNat) ∧
    (136 ≤ (s.ring s.vk ix).size → (s.ring s.vk ix).count < s.mmaFirst x → trap 25 (64 + x.h.toNat)) ∧
    (s.MmaSlots x ix → s.wpOffset x.w % 8192 ≠ 0 → trap 4 (s.wpOffset x.w)) ∧
    (∀ y, s.MmaSlots x ix → s.wpOffset x.w % 8192 = 0 → least x.w 8192 y → trap 30 y) ∧
    (s.MmaSlots x ix → s.OffsetsFit x x.w 8192 → x.s = true → s.wpOffset x.maps % 16 ≠ 0 → trap 4 (s.wpOffset x.maps)) ∧
    (∀ y, s.MmaSlots x ix → s.OffsetsFit x x.w 8192 → x.s = true → s.wpOffset x.maps % 16 = 0 → least x.maps 16 y → trap 30 y) := by
  dsimp only
  have hchecked (hsl : s.MmaSlots x ix) := State.acceptMma_of_slots hs hp h0 hsl
  have hmapped (hsl : s.MmaSlots x ix) (ht : s.OffsetsFit x x.w 8192) := (hchecked hsl).trans (State.mmaTiles_of_fits ht)
  refine ⟨fun hsize => ?_, fun hsize hcount => ?_, fun hsl hal => ?_, fun y hsl hal hy => ?_,
    fun hsl ht hsp hal => ?_, fun y hsl ht hsp hal hy => ?_⟩
  · exact trapped_present (exec_mma x s) hfate (State.acceptMma_of_size hs hp h0 hsize) rfl
  · exact trapped_present (exec_mma x s) hfate (State.acceptMma_of_count hs hp h0 hsize hcount) (rp1_zero _)
  · exact trapped_present (exec_mma x s) hfate ((hchecked hsl).trans (State.mmaTiles_of_misaligned hal)) rfl
  · exact trapped_present (exec_mma x s) hfate ((hchecked hsl).trans (State.mmaTiles_of_least hal hy)) rfl
  · exact trapped_present (exec_mma x s) hfate ((hmapped hsl ht).trans (State.mmaMaps_of_misaligned hsp hal)) rfl
  · exact trapped_present (exec_mma x s) hfate ((hmapped hsl ht).trans (State.mmaMaps_of_least hsp hal hy)) rfl

/-- Without the binding the instruction takes the engine trap (R107). -/
theorem trapped_mma_unbound (hd : fmtIsD x.fmt = false) (hb : FMap.get? s.myVc.binds 0 ≠ some s.ix) :
    ∃ t, exec x.instr s = .next t ∧ Trapped s t 29 0 s.me.pc := by
  have hfate : s.engineFate x.instr = .unbound 0 := by simp [State.engineFate, fOnly_mma, engineOf_mma, hd, hb]
  refine ⟨s.trap 29 (BitVec.ofNat 64 0), ?_, s.trapped_trap 29 _⟩
  rw [exec_mma]; unfold State.present; rw [hfate]

/-- On an L-die an instruction of format D asks for the move to an F-die (R244). -/
theorem migrate_mma (hd : fmtIsD x.fmt = true) (hdie : isF (s.dieOf s.vk) = false) (hm : s.me.mode = .u) :
    ∃ t m, exec x.instr s = .next t ∧ t.me.st = .trapped ∧ t.me.trap = some .migrate ∧ t.me.mcause = 24 ∧ t.me.mepc = s.me.pc ∧
      t.me.mtval = (insnWord x.instr).setWidth 64 ∧ t.me.mode = .u ∧ t.me.pc = s.me.pc ∧ t.myVc.move = some m ∧ m.status = 0 := by
  have hfate : s.engineFate x.instr = .migrate := by simp [State.engineFate, fOnly_mma, hd, hdie, hm]
  have hunheld : s.unheld.me = { s.me with hold := none } := s.me_updMe _
  obtain ⟨r, hme⟩ := State.me_migrateTrap (s := s.unheld) (by rw [hunheld]) (insnWord x.instr)
  obtain ⟨m, hmove, hstatus⟩ := s.unheld.move_migrateTrap (insnWord x.instr)
  rw [hunheld] at hme
  refine ⟨s.unheld.migrateTrap (insnWord x.instr), m, by rw [exec_mma]; unfold State.present; rw [hfate], ?_⟩
  rw [hme]
  exact ⟨rfl, rfl, rfl, rfl, rfl, hm, rfl, hmove, hstatus⟩

end

theorem nrec_eq (c : AccCfg) : c.nrec = if c.m = 0 ∨ c.n = 0 then 0 else c.m * c.kb := by simp [AccCfg.nrec]

/-- Settles O34: the outcomes of the acceptance in the order of its checks, each by what the instruction then does at its slot's turn. -/
theorem mmaAcceptance : Obligations.MmaAcceptance := by
  intro s f z sp a full acc h w fs ix i c o n first off w1 boff r next trap on pair reads slots within least tiles maps
  let x : MmaArgs := ⟨f, z, sp, a, full, acc, h, w, fs⟩
  have hn : s.mmaRecords x = n := nrec_eq c
  have hfirst : s.mmaFirst x = first := by rw [State.mmaFirst, hn]
  have hslots : slots → s.MmaSlots x ix := by rw [State.MmaSlots, hn, hfirst]; exact id
  have fits (hr : reads) (hp : pair) (hsl : slots) (ht : tiles) (hm : maps) : s.acceptMma x.instr x = s.mmaTaken x ix :=
    State.acceptMma_of_fits hr.2 hp (hslots hsl) (by rw [hn]; exact ht) (by rw [hn]; exact hm)
  refine ⟨fun hon hfree hr hp hsl ht hm hfill => ?_, fun hon hfree hr hp hsl ht hm hfill => ?_, fun hon hr hp => ?_, fun hon hr hp h0 => ?_,
    fun hd hdie hm => migrate_mma (x := x) hd hdie hm, fun hd hb => trapped_mma_unbound (x := x) hd hb, fun hd hb hnone => ?_⟩
  · obtain ⟨t, ht, hq⟩ := queued_mma (State.engineFate_mma hon hfree.1) hfree (fits hr hp hsl ht hm) (hfirst ▸ hfill)
    have hpwp : t.myVc.pwp = (x.moved s.myVc).pwp := (congrArg VCore.pwp hq.vc :)
    refine ⟨t, ht, ?_, fun ha => ?_, fun j hw hm => ?_, fun ha => ?_⟩
    · rw [hpwp, ← x.moved_eq, ← hn]
      exact hq
    · rw [hpwp, x.moved_of_not_a ha]
    · simp only [hpwp]
      exact x.pwp_moved_other _ hw hm
    · simp only [hpwp, next, ← wpAdvance_eq]
      exact ⟨x.pwp_moved_tiles ha _, x.pwp_moved_maps ha _⟩
  · exact engineParked_mma (State.engineFate_mma hon hfree.1) hfree (fits hr hp hsl ht hm) (hfirst ▸ hfill)
  · exact trapped_present (exec_mma x s) (State.engineFate_mma hon hr.1) (State.acceptMma_of_not_pair hr.2 hp) rfl
  · obtain ⟨hsize, hcount, hal, hleast, hbal, hbleast⟩ := trapped_mma (x := x) (State.engineFate_mma hon hr.1) hr.2 hp (hn ▸ h0)
    exact ⟨hsize, fun hsz hc => hcount hsz (hfirst ▸ hc), fun hsl => hal (hslots hsl), fun y hsl => hleast y (hslots hsl),
      fun hsl ht => hbal (hslots hsl) (ht h0), fun y hsl ht => hbleast y (hslots hsl) (ht h0)⟩
  · exact trapped_present (exec_mma x s) (State.engineFate_mma (by simp [x, hd]) hb) (State.acceptMma_of_none hnone) rfl

end Sys2Proof.Machine
end

section
/-! PROOFS. Acceptance by an engine of an instruction with two consumers: rings that both name, rings that are short (R151, R171). -/

namespace Sys2Proof.Machine

open Sys2Proof.Claim

/-! Stages 3 and 4 of R149 for an entry with any of the three operands (R151, R171). -/

/-- The slots of ring ix that an operand on ring r claims. -/
def claimOn (r : Option Nat) (ix k : Nat) : Nat := if r = some ix then k else 0

theorem claimOn_of_eq {r : Option Nat} {ix : Nat} (h : r = some ix) (k : Nat) : claimOn r ix k = k := if_pos h

theorem claimOn_of_ne {r : Option Nat} {ix : Nat} (h : r ≠ some ix) (k : Nat) : claimOn r ix k = 0 := if_neg h

/-- Each ring has the filled slots available that the consumers claim of it. -/
def State.Filled (s : State) (e : Nat) (ra rb : Option Nat) (na nb : Nat) : Prop :=
  ∀ ix, claimOn ra ix na + claimOn rb ix nb ≤ s.availFill s.vk e ix

/-- Each ring has the free slots available that the producer claims of it. -/
def State.Roomy (s : State) (e : Nat) (rd : Option Nat) (nd : Nat) : Prop := ∀ ix, claimOn rd ix nd ≤ s.availRoom s.vk e ix

section
variable {s : State} {e : Nat}

theorem State.roomy_iff {rd : Option Nat} {nd : Nat} : s.Roomy e rd nd ↔ ∀ ix, rd = some ix → nd ≤ s.availRoom s.vk e ix :=
  forall_congr' fun ix => by by_cases h : rd = some ix <;> simp [claimOn, h]

/-- Two consumers on one ring claim together. -/
theorem State.filled_of_le {ra rb : Option Nat} {na nb : Nat} (hboth : ra = rb → ∀ ix, ra = some ix → na + nb ≤ s.availFill s.vk e ix)
    (ha : ∀ ix, ra = some ix → na ≤ s.availFill s.vk e ix) (hb : ∀ ix, rb = some ix → nb ≤ s.availFill s.vk e ix) :
    s.Filled e ra rb na nb := by
  intro ix
  by_cases hra : ra = some ix <;> by_cases hrb : rb = some ix
  · rw [claimOn_of_eq hra, claimOn_of_eq hrb]; exact hboth (hra.trans hrb.symm) ix hra
  · rw [claimOn_of_eq hra, claimOn_of_ne hrb]; exact ha ix hra
  · rw [claimOn_of_ne hra, claimOn_of_eq hrb, Nat.zero_add]; exact hb ix hrb
  · rw [claimOn_of_ne hra, claimOn_of_ne hrb]; exact Nat.zero_le _

/-- The ring of an operand, when fewer slots of it are available than the operand claims. -/
def shortRing (r : Option Nat) (n : Nat) (avail : Nat → Nat) : Option Nat :=
  match r with
  | some ix => if avail ix < n then some ix else none
  | none => none

theorem shortRing_eq_some_iff {r : Option Nat} {n : Nat} {avail : Nat → Nat} {ix : Nat} :
    shortRing r n avail = some ix ↔ r = some ix ∧ avail ix < n := by
  cases r with
  | none => simp [shortRing]
  | some jx =>
    simp only [shortRing, Option.ite_none_right_eq_some, Option.some.injEq, and_comm]
    exact and_congr_right fun h => by rw [h]

theorem le_of_shortRing_ne {r : Option Nat} {n : Nat} {avail : Nat → Nat} (h : ∀ ix, shortRing r n avail ≠ some ix) (ix : Nat)
    (hr : r = some ix) : n ≤ avail ix :=
  Nat.not_lt.mp fun hlt => h ix (shortRing_eq_some_iff.mpr ⟨hr, hlt⟩)

variable {q : QEntry} {na nb nd : Nat} {k : State → State}

/-- With an entry of the queue free, the slot waits on a consumer ring that is short, else on a producer ring that is short, else the
instruction is taken. -/
theorem State.takeIn_cases (h : s.myVc.engineFull e = false) :
    (¬ s.Filled e q.ra q.rb na nb ∧ ∃ ix, (q.ra = some ix ∨ q.rb = some ix) ∧ s.takeIn e q na nb nd k = .wait ix false) ∨
    (s.Filled e q.ra q.rb na nb ∧ ¬ s.Roomy e q.rd nd ∧ ∃ ix, q.rd = some ix ∧ s.takeIn e q na nb nd k = .wait ix true) ∨
    (s.Filled e q.ra q.rb na nb ∧ s.Roomy e q.rd nd ∧ s.takeIn e q na nb nd k = .ok (k (s.enqueue e q))) := by
  let both := if q.ra == q.rb && q.ra.isSome then shortRing q.ra (na + nb) (s.availFill s.vk e) else none
  have filled (hboth : ∀ ix, both ≠ some ix) (ha : ∀ ix, shortRing q.ra na (s.availFill s.vk e) ≠ some ix)
      (hb : ∀ ix, shortRing q.rb nb (s.availFill s.vk e) ≠ some ix) : s.Filled e q.ra q.rb na nb := by
    refine State.filled_of_le (fun he ix hra => ?_) (le_of_shortRing_ne ha) (le_of_shortRing_ne hb)
    have hsame : (q.ra == q.rb && q.ra.isSome) = true := by simp [← he, hra]
    simp only [both, if_pos hsame] at hboth
    exact le_of_shortRing_ne hboth ix hra
  have short (ix : Nat) (hlt : s.availFill s.vk e ix < claimOn q.ra ix na + claimOn q.rb ix nb) : ¬ s.Filled e q.ra q.rb na nb :=
    fun hf => absurd (hf ix) (Nat.not_le.mpr hlt)
  unfold State.takeIn
  rw [if_neg (by simp [h])]
  dsimp only
  split
  next ix hix =>
    split_ifs at hix with hsame
    obtain ⟨hra, hlt⟩ := (shortRing_eq_some_iff (avail := s.availFill s.vk e)).mp hix
    have hrb : q.rb = some ix := (beq_iff_eq.mp (Bool.and_eq_true_iff.mp hsame).1).symm.trans hra
    exact .inl ⟨short ix (by rw [claimOn_of_eq hra, claimOn_of_eq hrb]; exact hlt), ix, .inl hra, rfl⟩
  next ix hix _ =>
    obtain ⟨hra, hlt⟩ := (shortRing_eq_some_iff (avail := s.availFill s.vk e)).mp hix
    exact .inl ⟨short ix (by rw [claimOn_of_eq hra]; omega), ix, .inl hra, rfl⟩
  next ix hix _ _ =>
    obtain ⟨hrb, hlt⟩ := (shortRing_eq_some_iff (avail := s.availFill s.vk e)).mp hix
    exact .inl ⟨short ix (by rw [claimOn_of_eq hrb]; omega), ix, .inr hrb, rfl⟩
  next ix hix hboth ha hb =>
    obtain ⟨hrd, hlt⟩ := (shortRing_eq_some_iff (avail := s.availRoom s.vk e)).mp hix
    exact .inr (.inl ⟨filled hboth ha hb, fun hr => absurd (State.roomy_iff.mp hr ix hrd) (Nat.not_le.mpr hlt), ix, hrd, rfl⟩)
  next hboth ha hb hd =>
    rw [Option.eq_none_iff_forall_ne_some] at hboth ha hb hd
    exact .inr (.inr ⟨filled hboth ha hb, State.roomy_iff.mpr (le_of_shortRing_ne hd), rfl⟩)

theorem State.takeIn_of_filled_roomy (h : s.myVc.engineFull e = false) (hf : s.Filled e q.ra q.rb na nb) (hr : s.Roomy e q.rd nd) :
    s.takeIn e q na nb nd k = .ok (k (s.enqueue e q)) := by
  obtain ⟨hn, -⟩ | ⟨-, hn, -⟩ | ⟨-, -, ht⟩ := State.takeIn_cases (q := q) (na := na) (nb := nb) (nd := nd) (k := k) h
  · exact absurd hf hn
  · exact absurd hr hn
  · exact ht

theorem State.takeIn_of_not_roomy (h : s.myVc.engineFull e = false) (hf : s.Filled e q.ra q.rb na nb) (hr : ¬ s.Roomy e q.rd nd) :
    ∃ ix, q.rd = some ix ∧ s.takeIn e q na nb nd k = .wait ix true := by
  obtain ⟨hn, -⟩ | ⟨-, -, ht⟩ | ⟨-, hn, -⟩ := State.takeIn_cases (q := q) (na := na) (nb := nb) (nd := nd) (k := k) h
  · exact absurd hf hn
  · exact ht
  · exact absurd hn hr

theorem State.takeIn_of_not_filled (h : s.myVc.engineFull e = false) (hf : ¬ s.Filled e q.ra q.rb na nb) :
    ∃ ix, (q.ra = some ix ∨ q.rb = some ix) ∧ s.takeIn e q na nb nd k = .wait ix false := by
  obtain ⟨-, ht⟩ | ⟨hn, -⟩ | ⟨hn, -⟩ := State.takeIn_cases (q := q) (na := na) (nb := nb) (nd := nd) (k := k) h
  · exact ht
  · exact absurd hn hf
  · exact absurd hn hf

end

end Sys2Proof.Machine
end

section
/-! PROOFS. The acceptance checks of the vector instructions (R24, R174, Table 07.3): their operands, what each check finds, what it answers. -/

namespace Sys2Proof.Machine

open Sys2Proof.Claim

/-! Operands and their rings. -/

/-- The position of the first consumer operand in zas order. -/
def VArgs.posA (x : VArgs) : Nat := if x.hd.isSome then 1 else 0

/-- The handle operands with their positions and roles. -/
def VArgs.uses (x : VArgs) : List (Handle × Nat × Role) :=
  (x.hd.map (·, 0, Role.producer)).toList ++ (x.ha.map (·, x.posA, Role.consumer)).toList ++
    (x.hb.map (·, x.posA + 1, Role.consumer)).toList

/-- i is the vector instruction with the operands x, accepted by the vector engine. That holds of a given instruction by its rows in the
tables of the model. -/
structure IsVector (i : Instr) (x : VArgs) : Prop where
  args : vecArgs i = some x := by rfl
  uses : handleUses i = x.uses := by rfl
  engine : engineOf i = some 1 := by rfl
  exec : ∀ s, exec i s = .next (s.present i (s.acceptVector i)) := by exact fun _ => rfl

section
variable (s : State)

/-- The ring that an operand names in its role, of the kinds that the role allows. -/
def State.ringOf (h : Option Handle) (role : Role) (kinds : Ring → Bool) : Option Nat := h.bind (fun h => s.handle? h role kinds)

/-- The operand holds its role and names a valid ring. -/
def State.Named (h : Option Handle) (role : Role) : Prop := ∀ k, h = some k → (s.handle? k role (fun _ => true)).isSome = true

/-- What check 7 of Table 02.12 finds of one operand (R24). -/
def State.unnamed (h : Option Handle) (pos : Nat) (role : Role) : Option Word :=
  h.bind (fun h => if (s.handle? h role (fun _ => true)).isSome then none else some (rp0 h.toNat pos))

/-- The size of the slots of an operand's ring, 0 without one. -/
def State.slotSize (r : Option Nat) : Nat := (r.map (fun ix => (s.ring s.vk ix).size)).getD 0

end

section
variable {s : State} {h : Option Handle} {role : Role}

theorem State.named_of_isSome {kinds : Ring → Bool} (hb : h.isSome = (s.ringOf h role kinds).isSome) : s.Named h role := by
  rintro k rfl
  exact State.isSome_handle?_any hb.symm

theorem State.unnamed_of_named (hn : s.Named h role) (pos : Nat) : s.unnamed h pos role = none := by
  cases h with
  | none => rfl
  | some k => exact if_pos (hn k rfl)

theorem State.unnamed_of_not {k : Handle} (hk : h = some k) (hn : ¬ (s.handle? k role (fun _ => true)).isSome = true) (pos : Nat) :
    s.unnamed h pos role = some (rp0 k.toNat pos) := by
  subst hk
  exact if_neg hn

end

theorem State.handleFault_of_isVector (s : State) {i : Instr} {x : VArgs} (hv : IsVector i x) : s.handleFault i =
    (s.unnamed x.hd 0 .producer).or ((s.unnamed x.ha x.posA .consumer).or (s.unnamed x.hb (x.posA + 1) .consumer)) := by
  have hone (h : Option Handle) (pos : Nat) (role : Role) : (h.map (·, pos, role)).toList.findSome? (fun u =>
      if (s.handle? u.1 u.2.2 (fun _ => true)).isSome then none else some (rp0 u.1.toNat u.2.1)) = s.unnamed h pos role := by
    cases h with
    | none => rfl
    | some k =>
      by_cases hn : (s.handle? k role (fun _ => true)).isSome = true <;> simp [State.unnamed, hn]
  rw [State.handleFault, hv.uses, VArgs.uses, List.findSome?_append, List.findSome?_append, hone, hone, hone, Option.or_assoc]

/-! The operands as the acceptance lists them. -/

/-- An operand, if the instruction has it. -/
def vecOperand (h : Option Handle) (pos : Nat) (r : Option Nat) (c : Nat) (ok : Bool) : List VOperand :=
  match h with
  | some h => [{ pos := pos, h := h.toNat, ring := r, claim := c, okSize := ok }]
  | none => []

theorem mem_vecOperand {h : Option Handle} {pos c : Nat} {r : Option Nat} {ok : Bool} {o : VOperand} :
    o ∈ vecOperand h pos r c ok ↔ ∃ k, h = some k ∧ o = { pos := pos, h := k.toNat, ring := r, claim := c, okSize := ok } := by
  cases h <;> simp [vecOperand]

theorem firstBad_eq_none_iff {p : VOperand → Bool} {l : List VOperand} : firstBad p l = none ↔ ∀ o ∈ l, p o = true := by simp [firstBad]

theorem mem_of_firstBad {p : VOperand → Bool} {l : List VOperand} {o : VOperand} (h : firstBad p l = some o) : o ∈ l :=
  List.mem_of_find?_eq_some h

theorem firstBad_append (p : VOperand → Bool) (l m : List VOperand) : firstBad p (l ++ m) = (firstBad p l).or (firstBad p m) :=
  List.find?_append

/-- The slots that the operands claim of a ring together. -/
def ringClaims (l : List VOperand) (r : Option Nat) : Nat := sumNat ((l.filter (fun p => p.ring == r)).map VOperand.claim)

theorem ringClaims_append (l m : List VOperand) (r : Option Nat) : ringClaims (l ++ m) r = ringClaims l r + ringClaims m r := by
  simp only [ringClaims, sumNat, ← List.sum_eq_foldl, List.filter_append, List.map_append, List.sum_append]

theorem ringClaims_vecOperand {h : Option Handle} {r : Option Nat} (hr : h = none → r = none) (pos c : Nat) (ok : Bool) (ix : Nat) :
    ringClaims (vecOperand h pos r c ok) (some ix) = claimOn r ix c := by
  cases h with
  | none => rw [hr rfl]; rfl
  | some k => by_cases hx : r = some ix <;> simp [ringClaims, vecOperand, claimOn, hx, sumNat]

section
variable (s : State) (i : Instr) (x : VArgs)

/-- The ring that hd names (check 1 of Table 07.3). -/
def State.vecD : Option Nat := s.ringOf x.hd .producer (kindIs [0])

/-- The ring that ha names. -/
def State.vecA : Option Nat := s.ringOf x.ha .consumer (feeds 1)

/-- The ring that hb names. -/
def State.vecB : Option Nat := s.ringOf x.hb .consumer (feeds 1)

/-- Elements of a slot of ha (R172). -/
def State.vecLen : Nat := s.slotSize (s.vecA x) / vtBytes x.t

/-- The operands in zas order, each with its claim and whether its slots have the size that the instruction needs. -/
def State.vecOperands : List VOperand :=
  vecOperand x.hd 0 (s.vecD x) (vecNd i) (vecWb i x.t (s.vecLen x) (s.slotSize (s.vecB x)) (s.slotSize (s.vecD x)) ≤ s.slotSize (s.vecD x)) ++
  vecOperand x.ha x.posA (s.vecA x) 1 (vecOkA i (s.vecLen x) (s.slotSize (s.vecA x))) ++
  vecOperand x.hb (x.posA + 1) (s.vecB x) 1 (vecNeedB i x.t (s.vecLen x) ≤ s.slotSize (s.vecB x))

/-- The rings of all operands are there. -/
def State.VecBound : Prop :=
  x.hd.isSome = (s.vecD x).isSome ∧ x.ha.isSome = (s.vecA x).isSome ∧ x.hb.isSome = (s.vecB x).isSome

/-- Checks 2 and 3 of Table 07.3 find a rounding mode that a conversion has no meaning for. -/
def State.vecIllegal : Bool := vecConverts i && (modeOf s.me.frm).isNone || vecDraws i && s.me.frm != 0

/-- The slots have the sizes of Table 07.2 (check 4 of Table 07.3). -/
def VArgs.SlotsFit (zd za zb : Nat) : Prop :=
  (x.hd.isSome = true → vecWb i x.t (za / vtBytes x.t) zb zd ≤ zd) ∧ (x.ha.isSome = true → vecOkA i (za / vtBytes x.t) za = true) ∧
  (x.hb.isSome = true → vecNeedB i x.t (za / vtBytes x.t) ≤ zb)

/-- Each ring has as many slots as the operands claim of it (check 5 of Table 07.3). -/
def State.VecClaimed : Prop :=
  ∀ ix, claimOn (s.vecD x) ix (vecNd i) + claimOn (s.vecA x) ix 1 + claimOn (s.vecB x) ix 1 ≤ (s.ring s.vk ix).count

/-- The first operand whose handle does not name a ring that the instruction can use (check 1 of Table 07.3). -/
def State.vecRingless : Option VOperand := firstBad (fun o => o.ring.isSome) (s.vecOperands i x)

/-- The first operand whose slots are too small (check 4). -/
def State.vecUndersized : Option VOperand := firstBad VOperand.okSize (s.vecOperands i x)

/-- The first operand whose ring has fewer slots than are claimed of it (check 5). -/
def State.vecOverclaimed : Option VOperand :=
  let ops := s.vecOperands i x
  firstBad (fun o => ringClaims ops o.ring ≤ (o.ring.map (fun ix => (s.ring s.vk ix).count)).getD 0) ops

/-- The entry with its claims, and the stream counter of one that draws (R173, R184). -/
def State.vecEntry : QEntry :=
  { s.newEntry i with
    rd := s.vecD x, ra := s.vecA x, rb := s.vecB x, nd := if x.hd.isSome then vecNd i else 0, na := if x.ha.isSome then 1 else 0,
    nb := if x.hb.isSome then 1 else 0, op := if vecDraws i then s.myVc.srpos else 0 }

/-- The virtual core after n elements have taken their draws. -/
def VCore.drawn (n : Nat) (v : VCore) : VCore := { v with srpos := v.srpos + BitVec.ofNat 64 ((n + 3) / 4) }

/-- The answer when no check fails. -/
def State.vecTakeIn : Accept :=
  let q := s.vecEntry i x
  s.takeIn 1 q q.na q.nb q.nd (fun t => if vecDraws i then t.updMyVc (VCore.drawn (s.vecLen x)) else t)

end

/-- The checks in their order (R174). -/
theorem State.acceptVector_eq (s : State) {i : Instr} {x : VArgs} (h : vecArgs i = some x) : s.acceptVector i =
    match s.handleFault i, s.vecRingless i x with
    | some t, _ => .fault 25 t
    | none, some o => .fault 25 (rp0 o.h o.pos)
    | none, none =>
      if vecConverts i && (modeOf s.me.frm).isNone then wordFault i
      else if vecDraws i && s.me.frm != 0 then wordFault i
      else match s.vecUndersized i x with
        | some o => .fault 25 (rp0 o.h o.pos)
        | none => match s.vecOverclaimed i x with
          | some o => .fault 25 (rp1 o.h o.pos)
          | none => s.vecTakeIn i x := by
  unfold State.acceptVector
  rw [h]
  rfl

/-! What the checks find. -/

theorem firstBad_vecOperand_eq_none_iff {p : VOperand → Bool} {h : Option Handle} {pos c : Nat} {r : Option Nat} {ok : Bool} :
    firstBad p (vecOperand h pos r c ok) = none ↔
      ∀ k, h = some k → p { pos := pos, h := k.toNat, ring := r, claim := c, okSize := ok } = true := by
  cases h <;> simp [vecOperand, firstBad]

theorem firstBad_okSize_eq_none_iff {h : Option Handle} {pos c : Nat} {r : Option Nat} {ok : Bool} :
    firstBad VOperand.okSize (vecOperand h pos r c ok) = none ↔ (h.isSome = true → ok = true) := by
  rw [firstBad_vecOperand_eq_none_iff, Option.isSome_iff_exists, forall_exists_index]

section
variable {s : State} {i : Instr} {x : VArgs}

/-- Check 1 passes over an operand whose ring is there, and over one that the instruction does not have. -/
theorem firstBad_ring_of_eq {h : Option Handle} {r : Option Nat} (he : h.isSome = r.isSome) {pos c : Nat} {ok : Bool} :
    firstBad (fun o => o.ring.isSome) (vecOperand h pos r c ok) = none := by
  rw [firstBad_vecOperand_eq_none_iff]
  rintro k rfl
  exact he.symm

theorem State.vecRingless_of_bound (hb : s.VecBound x) : s.vecRingless i x = none := by
  obtain ⟨hd, ha, hb⟩ := hb
  simp only [State.vecRingless, State.vecOperands, firstBad_append, firstBad_ring_of_eq, hd, ha, hb, Option.or_none]

theorem State.vecRingless_of_hd {k : Handle} (hk : x.hd = some k) (hr : s.vecD x = none) :
    ∃ o, s.vecRingless i x = some o ∧ o.h = k.toNat ∧ o.pos = 0 := by
  simp only [State.vecRingless, State.vecOperands, firstBad_append, hk, hr]
  exact ⟨_, rfl, rfl, rfl⟩

theorem State.vecRingless_of_ha (hd : x.hd.isSome = (s.vecD x).isSome) {k : Handle} (hk : x.ha = some k) (hr : s.vecA x = none) :
    ∃ o, s.vecRingless i x = some o ∧ o.h = k.toNat ∧ o.pos = x.posA := by
  simp only [State.vecRingless, State.vecOperands, firstBad_append, firstBad_ring_of_eq hd, hk, hr]
  exact ⟨_, rfl, rfl, rfl⟩

theorem State.vecRingless_of_hb (hd : x.hd.isSome = (s.vecD x).isSome) (ha : x.ha.isSome = (s.vecA x).isSome) {k : Handle}
    (hk : x.hb = some k) (hr : s.vecB x = none) : ∃ o, s.vecRingless i x = some o ∧ o.h = k.toNat ∧ o.pos = x.posA + 1 := by
  simp only [State.vecRingless, State.vecOperands, firstBad_append, firstBad_ring_of_eq hd, firstBad_ring_of_eq ha, hk, hr]
  exact ⟨_, rfl, rfl, rfl⟩

theorem State.mem_vecOperands {o : VOperand} (ho : o ∈ s.vecOperands i x) : o.h < 8 ∧ o.pos < 3 := by
  have hpos : x.posA ≤ 1 := by unfold VArgs.posA; split <;> omega
  simp only [State.vecOperands, List.mem_append, mem_vecOperand] at ho
  obtain (⟨k, -, rfl⟩ | ⟨k, -, rfl⟩) | ⟨k, -, rfl⟩ := ho <;> exact ⟨k.isLt, by dsimp only; omega⟩

/-- Check 4 finds nothing exactly when the slots fit. -/
theorem State.vecUndersized_eq_none_iff : s.vecUndersized i x = none ↔
    x.SlotsFit i (s.slotSize (s.vecD x)) (s.slotSize (s.vecA x)) (s.slotSize (s.vecB x)) := by
  simp only [State.vecUndersized, State.vecOperands, firstBad_append, Option.or_eq_none_iff, firstBad_okSize_eq_none_iff,
    decide_eq_true_eq, and_assoc]
  exact Iff.rfl

theorem State.ringClaims_vecOperands (ix : Nat) : ringClaims (s.vecOperands i x) (some ix) =
    claimOn (s.vecD x) ix (vecNd i) + claimOn (s.vecA x) ix 1 + claimOn (s.vecB x) ix 1 := by
  have hnone {h : Option Handle} {role : Role} {kinds : Ring → Bool} (hn : h = none) : s.ringOf h role kinds = none := by rw [hn]; rfl
  simp only [State.vecOperands, ringClaims_append, ringClaims_vecOperand hnone, State.vecD, State.vecA, State.vecB]

/-- With all rings there, check 5 finds nothing exactly when each ring has the slots that are claimed of it. -/
theorem State.vecOverclaimed_eq_none_iff (hb : s.VecBound x) : s.vecOverclaimed i x = none ↔ s.VecClaimed i x := by
  have hring := State.vecRingless_of_bound (i := i) hb
  rw [State.vecRingless, firstBad_eq_none_iff] at hring
  simp only [State.vecOverclaimed, firstBad_eq_none_iff, decide_eq_true_eq, State.VecClaimed, ← State.ringClaims_vecOperands]
  refine ⟨fun h ix => ?_, fun h o ho => ?_⟩
  · by_cases hex : ∃ o ∈ s.vecOperands i x, o.ring = some ix
    · obtain ⟨o, ho, hr⟩ := hex
      simpa [hr] using h o ho
    · have hnil : (s.vecOperands i x).filter (fun p => p.ring == some ix) = [] := by
        rw [List.filter_eq_nil_iff]
        exact fun o ho hr => hex ⟨o, ho, beq_iff_eq.mp hr⟩
      rw [ringClaims, hnil]
      exact Nat.zero_le _
  · obtain ⟨ix, hr⟩ := Option.isSome_iff_exists.mp (hring o ho)
    simpa [hr] using h ix

theorem State.vecIllegal_eq_false_iff : s.vecIllegal i = false ↔
    (vecConverts i = true → s.me.frm.toNat ≤ 4) ∧ (vecDraws i = true → s.me.frm = 0) := by
  rw [State.vecIllegal, Bool.or_eq_false_iff, Bool.and_eq_false_imp, Bool.and_eq_false_imp, ← Bool.not_eq_true, isNone_modeOf_iff, not_not,
    bne_eq_false_iff_eq]

/-! What it answers. -/

section
variable (hv : vecArgs i = some x)
include hv

theorem State.acceptVector_of_handleFault {t : Word} (h : s.handleFault i = some t) : s.acceptVector i = .fault 25 t := by
  simp only [State.acceptVector_eq s hv, h]

variable (h0 : s.handleFault i = none)
include h0

theorem State.acceptVector_of_ringless {o : VOperand} (h : s.vecRingless i x = some o) : s.acceptVector i = .fault 25 (rp0 o.h o.pos) := by
  simp only [State.acceptVector_eq s hv, h0, h]

variable (hr : s.vecRingless i x = none)
include hr

theorem State.acceptVector_of_illegal (h : s.vecIllegal i = true) : s.acceptVector i = wordFault i := by
  simp only [State.acceptVector_eq s hv, h0, hr]
  cases hc : vecConverts i && (modeOf s.me.frm).isNone
  · have hd : (vecDraws i && s.me.frm != 0) = true := by simpa [State.vecIllegal, hc] using h
    rw [if_neg Bool.false_ne_true, if_pos hd]
  · rfl

variable (hl : s.vecIllegal i = false)
include hl

theorem State.acceptVector_of_undersized {o : VOperand} (h : s.vecUndersized i x = some o) :
    s.acceptVector i = .fault 25 (rp0 o.h o.pos) := by
  obtain ⟨hc, hd⟩ := Bool.or_eq_false_iff.mp hl
  simp only [State.acceptVector_eq s hv, h0, hr, hc, hd, Bool.false_eq_true, if_false, h]

theorem State.acceptVector_of_overclaimed (hu : s.vecUndersized i x = none) {o : VOperand} (h : s.vecOverclaimed i x = some o) :
    s.acceptVector i = .fault 25 (rp1 o.h o.pos) := by
  obtain ⟨hc, hd⟩ := Bool.or_eq_false_iff.mp hl
  simp only [State.acceptVector_eq s hv, h0, hr, hc, hd, Bool.false_eq_true, if_false, hu, h]

theorem State.acceptVector_of_checked (hu : s.vecUndersized i x = none) (ho : s.vecOverclaimed i x = none) :
    s.acceptVector i = s.vecTakeIn i x := by
  obtain ⟨hc, hd⟩ := Bool.or_eq_false_iff.mp hl
  simp only [State.acceptVector_eq s hv, h0, hr, hc, hd, Bool.false_eq_true, if_false, hu, ho]

end

end

end Sys2Proof.Machine
end

section
/-! PROOFS. The vector instructions at their slot's turn, and the rows of Table 07.2 (R171 to R174, R184). -/

namespace Sys2Proof.Machine

open Sys2Proof.Claim

/-! A vector instruction at its slot's turn. -/

theorem rp0_succ (h pos : Nat) : rp0 h (pos + 1) = BitVec.ofNat 64 (h + 16 + 16 * pos) := congrArg (BitVec.ofNat 64) (by omega)

theorem State.ringOf_claim (s : State) (h : Option Handle) (role : Role) (kinds : Ring → Bool) (ix k : Nat) :
    claimOn (s.ringOf h role kinds) ix (if h.isSome then k else 0) = claimOn (s.ringOf h role kinds) ix k := by
  cases h <;> rfl

section
variable {s : State} {i : Instr} {x : VArgs} (hv : IsVector i x)
include hv

/-- Without the binding the instruction takes the engine trap (R107). -/
theorem trapped_vector_unbound (hon : fOnly i = true → isF (s.dieOf s.vk) = true) (hb : FMap.get? s.myVc.binds 1 ≠ some s.ix) :
    ∃ t, exec i s = .next t ∧ Trapped s t 29 1 s.me.pc := by
  have hmig : (fOnly i && !isF (s.dieOf s.vk)) = false := by
    cases h : fOnly i
    · rfl
    · simp [hon h]
  have hfate : s.engineFate i = .unbound 1 := by simp [State.engineFate, hmig, hv.engine, hb]
  refine ⟨s.trap 29 (BitVec.ofNat 64 1), ?_, s.trapped_trap 29 _⟩
  rw [hv.exec]; unfold State.present; rw [hfate]

variable (hfate : s.engineFate i = .present)
include hfate

theorem trapped_vector {c : Nat} {tv : Word} (ha : s.acceptVector i = .fault c tv) :
    ∃ t, exec i s = .next t ∧ Trapped s t (BitVec.ofNat 64 c) tv s.me.pc := trapped_present (hv.exec s) hfate ha rfl

/-- A handle that does not hold its role, or names no valid ring, traps before its ring is looked at (R24). -/
theorem trapped_vector_unnamed :
    let trap := fun (tv : Nat) => ∃ t, exec i s = .next t ∧ Trapped s t 25 (BitVec.ofNat 64 tv) s.me.pc
    let names := fun (h : Handle) (role : Role) => (s.handle? h role (fun _ => true)).isSome = true
    (∀ h, x.hd = some h → ¬ names h .producer → trap h.toNat) ∧
    (∀ h, s.Named x.hd .producer → x.ha = some h → ¬ names h .consumer → trap (h.toNat + 16 * x.posA)) ∧
    (∀ h, s.Named x.hd .producer → s.Named x.ha .consumer → x.hb = some h → ¬ names h .consumer → trap (h.toNat + 16 + 16 * x.posA)) := by
  dsimp only
  have answer {t : Word} (h : s.handleFault i = some t) := trapped_vector hv hfate (State.acceptVector_of_handleFault hv.args h)
  rw [s.handleFault_of_isVector hv] at answer
  refine ⟨fun h hk hn => answer ?_, fun h hd hk hn => answer ?_, fun h hd ha hk hn => answer ?_⟩
  · rw [State.unnamed_of_not hk hn]; rfl
  · rw [State.unnamed_of_named hd, State.unnamed_of_not hk hn]; rfl
  · rw [State.unnamed_of_named hd, State.unnamed_of_named ha, State.unnamed_of_not hk hn, rp0_succ]; rfl

end

theorem State.handleFault_of_named {s : State} {i : Instr} {x : VArgs} (hv : IsVector i x) (hd : s.Named x.hd .producer)
    (ha : s.Named x.ha .consumer) (hb : s.Named x.hb .consumer) : s.handleFault i = none := by
  rw [s.handleFault_of_isVector hv, State.unnamed_of_named hd, State.unnamed_of_named ha, State.unnamed_of_named hb]; rfl

theorem State.handleFault_of_bound {s : State} {i : Instr} {x : VArgs} (hv : IsVector i x) (hb : s.VecBound x) : s.handleFault i = none := by
  obtain ⟨hd, ha, hb⟩ := hb
  exact State.handleFault_of_named hv (State.named_of_isSome hd) (State.named_of_isSome ha) (State.named_of_isSome hb)

section
variable {s : State} {i : Instr} {x : VArgs} (hv : IsVector i x) (hfate : s.engineFate i = .present)
include hv hfate

/-- A ring of another kind than the operand may have traps, the first in zas order (check 1 of Table 07.3). -/
theorem trapped_vector_ringless (hd : s.Named x.hd .producer) (ha : s.Named x.ha .consumer) (hb : s.Named x.hb .consumer) :
    let trap := fun (tv : Nat) => ∃ t, exec i s = .next t ∧ Trapped s t 25 (BitVec.ofNat 64 tv) s.me.pc
    (∀ h, x.hd = some h → s.vecD x = none → trap h.toNat) ∧
    (∀ h, x.hd.isSome = (s.vecD x).isSome → x.ha = some h → s.vecA x = none → trap (h.toNat + 16 * x.posA)) ∧
    (∀ h, x.hd.isSome = (s.vecD x).isSome → x.ha.isSome = (s.vecA x).isSome → x.hb = some h → s.vecB x = none →
      trap (h.toNat + 16 + 16 * x.posA)) := by
  dsimp only
  have h0 := State.handleFault_of_named hv hd ha hb
  have answer {h : Handle} {pos : Nat} (ho : ∃ o, s.vecRingless i x = some o ∧ o.h = h.toNat ∧ o.pos = pos) :
      ∃ t, exec i s = .next t ∧ Trapped s t 25 (rp0 h.toNat pos) s.me.pc := by
    obtain ⟨o, ho, hh, hp⟩ := ho
    rw [← hh, ← hp]
    exact trapped_vector hv hfate (State.acceptVector_of_ringless hv.args h0 ho)
  exact ⟨fun h hk hr => answer (State.vecRingless_of_hd hk hr), fun h hd hk hr => answer (State.vecRingless_of_ha hd hk hr),
    fun h hd ha hk hr => rp0_succ _ _ ▸ answer (State.vecRingless_of_hb hd ha hk hr)⟩

variable (hb : s.VecBound x)
include hb

theorem trapped_vector_illegal (h : s.vecIllegal i = true) :
    ∃ t, exec i s = .next t ∧ Trapped s t 2 (((encode i).getD 0).setWidth 64) s.me.pc :=
  trapped_vector hv hfate (State.acceptVector_of_illegal hv.args (State.handleFault_of_bound hv hb) (State.vecRingless_of_bound hb) h)

variable (hl : s.vecIllegal i = false)
include hl

/-- A slot that is too small traps with the handle and the position of an operand (check 4). -/
theorem trapped_vector_undersized (hn : s.vecUndersized i x ≠ none) :
    ∃ h p : Nat, (∃ t, exec i s = .next t ∧ Trapped s t 25 (BitVec.ofNat 64 (h + 16 * p)) s.me.pc) ∧ h < 8 ∧ p < 3 := by
  obtain ⟨o, ho⟩ := Option.ne_none_iff_exists'.mp hn
  exact ⟨o.h, o.pos, trapped_vector hv hfate (State.acceptVector_of_undersized hv.args (State.handleFault_of_bound hv hb)
    (State.vecRingless_of_bound hb) hl ho), State.mem_vecOperands (mem_of_firstBad ho)⟩

variable (hu : s.vecUndersized i x = none)
include hu

/-- A ring with fewer slots than are claimed of it traps likewise (check 5). -/
theorem trapped_vector_overclaimed (hn : s.vecOverclaimed i x ≠ none) :
    ∃ h p : Nat, (∃ t, exec i s = .next t ∧ Trapped s t 25 (BitVec.ofNat 64 (64 + h + 16 * p)) s.me.pc) ∧ h < 8 ∧ p < 3 := by
  obtain ⟨o, ho⟩ := Option.ne_none_iff_exists'.mp hn
  refine ⟨o.h, o.pos, ?_, State.mem_vecOperands (mem_of_firstBad ho)⟩
  have htv : rp1 o.h o.pos = BitVec.ofNat 64 (64 + o.h + 16 * o.pos) := congrArg (BitVec.ofNat 64) (by omega)
  rw [← htv]
  exact trapped_vector hv hfate (State.acceptVector_of_overclaimed hv.args (State.handleFault_of_bound hv hb)
    (State.vecRingless_of_bound hb) hl hu ho)

end

/-! An instruction that no check stops. -/

section
variable {s : State} {i : Instr} {x : VArgs}

/-- Nothing of the rings, the rounding mode and the slots stops the instruction (R174). -/
structure State.VecPasses (s : State) (i : Instr) (x : VArgs) : Prop where
  bound : s.VecBound x
  legal : s.vecIllegal i = false
  sizes : s.vecUndersized i x = none
  claims : s.vecOverclaimed i x = none

theorem State.acceptVector_of_passes (hv : IsVector i x) (h : s.VecPasses i x) : s.acceptVector i = s.vecTakeIn i x :=
  State.acceptVector_of_checked hv.args (State.handleFault_of_bound hv h.bound) (State.vecRingless_of_bound h.bound) h.legal h.sizes h.claims

/-- The virtual core after the instruction is taken, but for the queue: one that draws moves the counter on (R184). -/
def State.vecDrawn (s : State) (i : Instr) (x : VArgs) (v : VCore) : VCore := if vecDraws i then v.drawn (s.vecLen x) else v

theorem State.filled_vecEntry : s.Filled 1 (s.vecEntry i x).ra (s.vecEntry i x).rb (s.vecEntry i x).na (s.vecEntry i x).nb ↔
    s.Filled 1 (s.vecA x) (s.vecB x) 1 1 :=
  forall_congr' fun ix => by
    rw [State.vecEntry]
    dsimp only
    rw [State.vecA, State.vecB, State.ringOf_claim, State.ringOf_claim]

theorem State.roomy_vecEntry : s.Roomy 1 (s.vecEntry i x).rd (s.vecEntry i x).nd ↔ s.Roomy 1 (s.vecD x) (vecNd i) :=
  forall_congr' fun ix => by
    rw [State.vecEntry]
    dsimp only
    rw [State.vecD, State.ringOf_claim]

variable (hv : IsVector i x) (hfate : s.engineFate i = .present) (hp : s.VecPasses i x)
include hv hfate hp

theorem atQueue_vector (hfull : s.myVc.engineFull 1 = true) : ∃ t, exec i s = .next t ∧ AtQueue s t :=
  atQueue_present (hv.exec s) hfate ((State.acceptVector_of_passes hv hp).trans (State.takeIn_of_full hfull))

variable (hfree : Free s 1)
include hfree

theorem queued_vector (hfill : s.Filled 1 (s.vecA x) (s.vecB x) 1 1) (hroom : s.Roomy 1 (s.vecD x) (vecNd i)) :
    ∃ t, exec i s = .next t ∧ Queued s t 1 i (s.vecDrawn i x s.myVc) (fun q =>
      q.rd = s.vecD x ∧ q.ra = s.vecA x ∧ q.rb = s.vecB x ∧ q.nd = (if x.hd.isSome then vecNd i else 0) ∧
      q.na = (if x.ha.isSome then 1 else 0) ∧ q.nb = (if x.hb.isSome then 1 else 0) ∧ q.op = if vecDraws i then s.myVc.srpos else 0) := by
  refine ⟨_, exec_accepted (hv.exec s) hfate ((State.acceptVector_of_passes hv hp).trans (State.takeIn_of_filled_roomy
    (State.engineFull_of_free hfree) (State.filled_vecEntry.mpr hfill) (State.roomy_vecEntry.mpr hroom))), ?_⟩
  have hk : (if vecDraws i then (s.enqueue 1 (s.vecEntry i x)).updMyVc (VCore.drawn (s.vecLen x)) else s.enqueue 1 (s.vecEntry i x)) =
      (s.enqueue 1 (s.vecEntry i x)).updMyVc (s.vecDrawn i x) := by
    unfold State.vecDrawn
    cases vecDraws i with
    | false => exact (s.enqueue_updMyVc_id _ _).symm
    | true => rfl
  rw [hk]
  refine State.queued_retire ((s.isOf_newEntry i).withOperands _ _ _ _ _ _ _) (fun v m => ?_) ⟨rfl, rfl, rfl, rfl, rfl, rfl, rfl⟩
  unfold State.vecDrawn
  split <;> rfl

theorem engineParked_vector_producer (hfill : s.Filled 1 (s.vecA x) (s.vecB x) 1 1) (hroom : ¬ s.Roomy 1 (s.vecD x) (vecNd i)) :
    ∃ t ix, exec i s = .next t ∧ s.vecD x = some ix ∧ EngineParked s t (.engineRing 1 ix true) := by
  obtain ⟨ix, hix, hw⟩ := State.takeIn_of_not_roomy (State.engineFull_of_free hfree) (State.filled_vecEntry.mpr hfill)
    (State.roomy_vecEntry.not.mpr hroom)
  obtain ⟨t, ht, hparked⟩ := engineParked_present (hv.exec s) hfate ((State.acceptVector_of_passes hv hp).trans hw) hv.engine
  exact ⟨t, ix, ht, hix, hparked⟩

theorem engineParked_vector_consumer (hfill : ¬ s.Filled 1 (s.vecA x) (s.vecB x) 1 1) :
    ∃ t ix, exec i s = .next t ∧ (s.vecA x = some ix ∨ s.vecB x = some ix) ∧ EngineParked s t (.engineRing 1 ix false) := by
  obtain ⟨ix, hix, hw⟩ := State.takeIn_of_not_filled (State.engineFull_of_free hfree) (State.filled_vecEntry.not.mpr hfill)
  obtain ⟨t, ht, hparked⟩ := engineParked_present (hv.exec s) hfate ((State.acceptVector_of_passes hv hp).trans hw) hv.engine
  exact ⟨t, ix, ht, hix, hparked⟩

end

/-- The clauses of Claim.VecTaken for a vector instruction: its size conditions are those of Table 07.2, its mode condition that of R174. -/
theorem vecTaken_of_isVector {s : State} {i : Instr} {x : VArgs} (hv : IsVector i x) {nd : Nat} (hnd : vecNd i = nd) {draws : Option Nat}
    (hdraws : draws = if vecDraws i then some (vtBytes x.t) else none) {ok : Prop} (hok : s.vecIllegal i = false ↔ ok)
    {fits : (zd za zb : Nat) → Prop} (hfits : ∀ zd za zb, x.SlotsFit i zd za zb ↔ fits zd za zb) :
    VecTaken s i x.hd x.ha x.hb nd draws ok fits := by
  rintro rd ra rb rfl rfl rfl hon size one at_ trap bound names namesD namesA namesB claimed filled room
  subst hnd hdraws
  have hat : 16 * x.posA = at_ := by cases h : x.hd.isSome <;> simp [VArgs.posA, at_, h]
  have fate (hbind : FMap.get? s.myVc.binds 1 = some s.ix) : s.engineFate i = .present := State.engineFate_eq_present hon hv.engine hbind
  have sizes (hf : fits (size (s.vecD x)) (size (s.vecA x)) (size (s.vecB x))) : s.vecUndersized i x = none :=
    State.vecUndersized_eq_none_iff.mpr ((hfits _ _ _).mpr hf)
  have passes (hb : bound) (ho : ok) (hf : fits (size (s.vecD x)) (size (s.vecA x)) (size (s.vecB x))) (hc : claimed) : s.VecPasses i x :=
    ⟨hb, hok.mpr ho, sizes hf, (State.vecOverclaimed_eq_none_iff hb).mpr hc⟩
  refine ⟨fun hfree hb ho hf hc hfill hroom => ?_, fun hfree hb ho hf hc hfill hroom => ?_, fun hfree hb ho hf hc hfill => ?_,
    fun ⟨hbind, hfull⟩ hb ho hf hc => ?_, fun hbind => trapped_vector_unbound hv hon hbind, fun hbind => ?_⟩
  · obtain ⟨t, ht, hq⟩ := queued_vector hv (fate hfree.1) (passes hb ho hf hc) hfree hfill hroom
    refine ⟨t, ht, ?_⟩
    cases hdr : vecDraws i <;> simp only [State.vecDrawn, hdr] at hq <;> exact hq
  · exact engineParked_vector_producer hv (fate hfree.1) (passes hb ho hf hc) hfree hfill hroom
  · exact engineParked_vector_consumer hv (fate hfree.1) (passes hb ho hf hc) hfree hfill
  · exact atQueue_vector hv (fate hbind) (passes hb ho hf hc) ((s.engineFull_eq_true_iff 1).mpr hfull)
  · obtain ⟨hnd, hna, hnb⟩ := trapped_vector_unnamed hv (fate hbind)
    rw [← hat]
    exact ⟨hnd, hna, hnb, trapped_vector_ringless hv (fate hbind),
      fun hb ho => trapped_vector_illegal hv (fate hbind) hb (Bool.eq_true_of_not_eq_false (hok.not.mpr ho)),
      fun hb ho hf => trapped_vector_undersized hv (fate hbind) hb (hok.mpr ho)
        (State.vecUndersized_eq_none_iff.not.mpr ((hfits _ _ _).not.mpr hf)),
      fun hb ho hf hc => trapped_vector_overclaimed hv (fate hbind) hb (hok.mpr ho) (sizes hf)
        ((State.vecOverclaimed_eq_none_iff hb).not.mpr hc)⟩

/-! The rows of Table 07.2. -/

section
variable {i : Instr} {n : Bool} {t : VType} {d a b : Handle} {zd za zb : Nat}

theorem slotsFit_binary (hok : vecOkA i (za / vtBytes t) za = true) :
    VArgs.SlotsFit i { n := n, t := t, hd := some d, ha := some a, hb := some b } zd za zb ↔
      vecNeedB i t (za / vtBytes t) ≤ zb ∧ vecWb i t (za / vtBytes t) zb zd ≤ zd := by
  simp [VArgs.SlotsFit, hok, and_comm]

theorem slotsFit_unary (hok : vecOkA i (za / vtBytes t) za = true) :
    VArgs.SlotsFit i { n := n, t := t, hd := some d, ha := some a } zd za zb ↔ vecWb i t (za / vtBytes t) zb zd ≤ zd := by
  simp [VArgs.SlotsFit, hok]

end

section
variable {s : State} {i : Instr} {n : Bool} {t : VType} {hd ha hb : Option Handle} {d a b : Handle} {fits : (zd za zb : Nat) → Prop}

/-- A vector instruction that is no conversion asks nothing of the rounding mode. -/
structure IsUnrounded (i : Instr) (x : VArgs) : Prop extends IsVector i x where
  converts : vecConverts i = false := by rfl
  draws : vecDraws i = false := by rfl

theorem vecTaken_of_isUnrounded (h : IsUnrounded i { n := n, t := t, hd := hd, ha := ha, hb := hb }) {nd : Nat} (hnd : vecNd i = nd)
    (hfits : ∀ zd za zb, VArgs.SlotsFit i { n := n, t := t, hd := hd, ha := ha, hb := hb } zd za zb ↔ fits zd za zb) :
    VecTaken s i hd ha hb nd none True fits :=
  vecTaken_of_isVector h.toIsVector hnd (by rw [h.draws]; rfl) (by simp [State.vecIllegal, h.converts, h.draws]) hfits

/-- A conversion, which draws when sr says so, takes the modes of R134, and to draw RNE alone. -/
structure IsConversion (i : Instr) (sr : Bool) (x : VArgs) : Prop extends IsVector i x where
  converts : vecConverts i = true := by rfl
  draws : vecDraws i = sr := by rfl

theorem vecTaken_of_isConversion {sr : Bool} (h : IsConversion i sr { n := n, t := t, hd := hd, ha := ha, hb := hb }) (hnd : vecNd i = 1)
    (hfits : ∀ zd za zb, VArgs.SlotsFit i { n := n, t := t, hd := hd, ha := ha, hb := hb } zd za zb ↔ fits zd za zb) :
    VecTaken s i hd ha hb 1 (if sr then some (vtBytes t) else none) (s.me.frm.toNat ≤ 4 ∧ (sr = true → s.me.frm = 0)) fits := by
  refine vecTaken_of_isVector h.toIsVector hnd (by rw [h.draws]) ?_ hfits
  rw [State.vecIllegal_eq_false_iff, h.draws]
  exact and_congr_left' (forall_prop_of_true h.converts)

/-- The instruction writes an element for each element that it reads, of the same size. -/
structure IsElementwise (i : Instr) (x : VArgs) : Prop extends IsUnrounded i x where
  nd : vecNd i = 1 := by rfl
  wb : ∀ m sb sd, vecWb i x.t m sb sd = up8 (m * vtBytes x.t) := by exact fun _ _ _ => rfl
  okA : ∀ m sa, vecOkA i m sa = true := by exact fun _ _ => rfl
  needB : ∀ m, vecNeedB i x.t m = m * vtBytes x.t := by exact fun _ => rfl

theorem vecTaken_binary (h : IsElementwise i { n := n, t := t, hd := some d, ha := some a, hb := some b }) :
    VecTaken s i (some d) (some a) (some b) 1 none True
      (fun zd za zb => za / vtBytes t * vtBytes t ≤ zb ∧ up8 (za / vtBytes t * vtBytes t) ≤ zd) :=
  vecTaken_of_isUnrounded h.toIsUnrounded h.nd fun _ _ _ => by rw [slotsFit_binary (h.okA _ _), h.needB, h.wb]

theorem vecTaken_unary (h : IsElementwise i { n := n, t := t, hd := some d, ha := some a }) :
    VecTaken s i (some d) (some a) none 1 none True (fun zd za _ => up8 (za / vtBytes t * vtBytes t) ≤ zd) :=
  vecTaken_of_isUnrounded h.toIsUnrounded h.nd fun _ _ _ => by rw [slotsFit_unary (h.okA _ _), h.wb]

end

/-- Settles O35: every vector instruction by its row of Table 07.2. What `{}` stands for holds by the rows of the model's own tables. -/
theorem vectorAcceptance : Obligations.VectorAcceptance := by
  intro s n sr sat t g c d a b w up bin bin32 un un32 rm draws
  refine ⟨⟨vecTaken_binary {}, vecTaken_binary {}, vecTaken_binary {}, vecTaken_binary {}, vecTaken_binary {}, vecTaken_binary {},
    vecTaken_binary {}, vecTaken_binary {}⟩,
    ⟨vecTaken_binary (t := .i32) {}, vecTaken_binary (t := .i32) {}, vecTaken_binary (t := .i32) {}, vecTaken_binary (t := .i32) {},
      vecTaken_binary (t := .i32) {}⟩,
    ⟨vecTaken_unary {}, vecTaken_unary {}, vecTaken_unary {}, vecTaken_unary {}, vecTaken_unary {}, vecTaken_unary {}, vecTaken_unary {},
      vecTaken_unary {}, vecTaken_unary (t := .f32) {}, vecTaken_unary (t := .f32) {}⟩,
    ?vmac, ?vcvt, ?vqnt, ?vsplit3, ?vreds, ?vredm, ?vgath, ?vscat, ?vperm, ?vaccget, ?vaccset, ?vaccz⟩
  case vmac => exact vecTaken_of_isUnrounded (n := n) (t := t) {} rfl fun _ _ _ =>
    ⟨fun ⟨_, _, hb⟩ => hb rfl, fun hb => ⟨nofun, fun _ => rfl, fun _ => hb⟩⟩
  case vcvt => exact vecTaken_of_isConversion (n := n) (t := t) {} rfl fun _ _ _ => slotsFit_unary rfl
  case vqnt => exact vecTaken_of_isConversion (n := n) (t := t) {} rfl fun _ _ _ =>
    ⟨fun ⟨hd, ha, _⟩ => ⟨of_decide_eq_true (ha rfl), hd rfl⟩, fun ⟨ha, hd⟩ => ⟨fun _ => hd, fun _ => decide_eq_true ha, nofun⟩⟩
  case vsplit3 => exact vecTaken_of_isUnrounded (n := n) (t := .f32) {} rfl fun _ _ _ => slotsFit_unary rfl
  case vreds => exact vecTaken_of_isUnrounded (n := n) (t := t) {} rfl fun _ _ _ => slotsFit_unary rfl
  case vredm => exact vecTaken_of_isUnrounded (n := n) (t := t) {} rfl fun _ _ _ => slotsFit_unary rfl
  case vgath => exact vecTaken_of_isUnrounded (n := n) (t := t) {} rfl fun _ _ _ => (slotsFit_binary rfl).trans (and_iff_right (Nat.zero_le _))
  case vscat => exact vecTaken_of_isUnrounded (n := n) (t := t) {} rfl fun _ _ _ => (slotsFit_binary rfl).trans (and_iff_left (Nat.le_refl _))
  case vperm => exact vecTaken_of_isUnrounded (n := n) (t := t) {} rfl fun _ _ _ => slotsFit_binary rfl
  case vaccget => exact vecTaken_of_isUnrounded (n := n) (t := .f32) {} rfl fun _ _ _ =>
    ⟨fun ⟨hd, _, _⟩ => hd rfl, fun hd => ⟨fun _ => hd, nofun, nofun⟩⟩
  case vaccset => exact vecTaken_of_isUnrounded (n := n) (t := .f32) {} rfl fun _ _ _ =>
    ⟨fun ⟨_, ha, _⟩ => of_decide_eq_true (ha rfl), fun ha => ⟨nofun, fun _ => decide_eq_true ha, nofun⟩⟩
  case vaccz => exact vecTaken_of_isUnrounded (n := false) (t := .f32) {} rfl fun _ _ _ =>
    ⟨fun _ => trivial, fun _ => ⟨nofun, nofun, nofun⟩⟩

end Sys2Proof.Machine
end

section
/-! PROOFS. Two statements that fail: held stores that arrive under a value of ev (R211), and batches of a gang that is not listed (R200). -/

namespace Sys2Proof.Machine

open Sys2Proof.Claim

/-- A store held on a token that waits in the networks for virtual core 0, which is live and placed and holds nothing. -/
def heldStore : Msg := Msg.mk (.sig 0) (.vc 0) .request (.store ⟨1, 0, 0⟩ 0 0 .plain (some 0)) none false

/-- It is offered to HELD_STORE_ARRIVAL with the value by which the event performs a request of the hold queue. -/
def drainOffered : State := { vcs := [(0, { live := true, place := some 0 })], net := [heldStore], ev := { val := 1 } }

theorem drainOffered_arrives : Arrives drainOffered heldStore 0 where
  msg := by decide
  dst := rfl
  live := rfl
  here := rfl
  quiet := by decide
  calm := rfl
  free := rfl

/-- Refutes O43: its first clause does not ask for ev.val = 0. With ev.val = 1 HELD_STORE_ARRIVAL performs a request of the hold queue
of virtual core ev.key, and the store that waits in the networks is not taken. -/
theorem not_heldStores : ¬ Obligations.HeldStores := by
  intro h
  obtain ⟨arrival, -⟩ := h drainOffered heldStore 0 0 0 ⟨1, 0, 0⟩ 0 0 ⟨heldStore, none, false, false⟩
  obtain ⟨t, ht, hq, -⟩ := arrival drainOffered_arrives rfl (by decide)
  have hs : exec .heldStoreArrival drainOffered = .next drainOffered := rfl
  cases Host.Outcome.next.inj (hs.symm.trans ht)
  exact absurd (congrArg List.length hq) (by decide)

/-- Virtual core 0 of a gang that no entry lists closes its batch 0, which is empty and has been counted by acknowledgement. -/
def ogBatch : State := { vcs := [(0, { batches := #v[{ og := true }, {}, {}, {}] })] }

/-- BCLOSE of batch 0 into x0 as it goes on with room (R200). -/
def closing (s : State) : State :=
  let n := s.freshId
  let t := (n.2.snapshot s.vk s.ix 0 n.1).updMe (fun sl => { sl with hold := some (.close n.1 0) })
  (t.sendCloses s.vk s.ix).settle s.vk

/-- Refutes O44: where the gang of the virtual core is not listed, the close's og bit is not kept in the gang's closed record. -/
theorem not_batches : ¬ Obligations.Batches := by
  intro h
  obtain ⟨empty, -⟩ := h ogBatch 0 0 heldStore 0 0 (.vc 0)
  obtain ⟨t, ht, -, -, -, -, hog, -⟩ := empty rfl rfl rfl rfl rfl nofun
  have hb : exec (.bclose 0 0) ogBatch = .next (closing ogBatch) := rfl
  cases Host.Outcome.next.inj (hb.symm.trans ht)
  exact absurd hog (by decide)

end Sys2Proof.Machine
end

section
/-! PROOFS. Pointer instructions at their source: the check of a pointer, the egress rule, and what an issue records (R194, R196, R199). -/

namespace Sys2Proof.Machine

open Sys2Proof.Claim

/-! The check of R194. -/

theorem bits_ptrOff (p : Word) : ptrOff p = p.toNat % 2 ^ 24 := by simp [ptrOff, bits]

theorem bits_ptrSpace (p : Word) : ptrSpace p = p.toNat / 2 ^ 60 := by
  have := p.isLt
  simp only [ptrSpace, bits]
  omega

theorem ptrOff_mod_eight (p : Word) : ptrOff p % 8 = p.toNat % 8 := by
  rw [bits_ptrOff]; omega

theorem ptrCheck_of_misaligned {p : Word} (h : p.toNat % 8 ≠ 0) (load : Bool) : ptrCheck p load = some (if load then 4 else 6) := by
  unfold ptrCheck
  rw [if_pos (by rwa [ptrOff_mod_eight])]

/-- An aligned pointer fails the check exactly where it is not good. -/
theorem ptrCheck_of_aligned {p : Word} (h : p.toNat % 8 = 0) (load : Bool) :
    (Good p → ptrCheck p load = none) ∧ (¬ Good p → ptrCheck p load = some (if load then 5 else 7)) := by
  have hbits : bits p 39 27 = p.toNat / 134217728 % 8192 := rfl
  have hbad : (2 ≤ ptrSpace p || (ptrSpace p == 1 && (bits p 39 27 ≠ 0 || 0x8000 ≤ ptrOff p))) = true ↔ ¬ Good p := by
    simp only [Good, h, bits_ptrSpace, bits_ptrOff, hbits, Bool.or_eq_true, Bool.and_eq_true, decide_eq_true_eq, beq_iff_eq]
    norm_num
    omega
  unfold ptrCheck
  rw [if_neg (by rw [ptrOff_mod_eight]; omega)]
  exact ⟨fun hg => if_neg (fun c => hbad.mp c hg), fun hg => if_pos (hbad.mpr hg)⟩

theorem ptrCheck_of_good {p : Word} (h : Good p) (load : Bool) : ptrCheck p load = none :=
  (ptrCheck_of_aligned h.1 load).1 h

section
variable (s : State) {p : Word} (load : Bool) (k : State)

theorem State.withPtr_of_good (h : Good p) : s.withPtr p load k = k := by rw [State.withPtr, ptrCheck_of_good h]

theorem State.withPtr_of_misaligned (h : p.toNat % 8 ≠ 0) : s.withPtr p load k = s.trap (if load then 4 else 6) p := by
  rw [State.withPtr, ptrCheck_of_misaligned h]

theorem State.withPtr_of_bad (h : p.toNat % 8 = 0) (hg : ¬ Good p) : s.withPtr p load k = s.trap (if load then 5 else 7) p := by
  rw [State.withPtr, (ptrCheck_of_aligned h load).2 hg]

end

/-- The pointer traps of a store or an atomic. -/
theorem ptrTraps_of_withPtr {s : State} {i : Instr} {p : Word} {k : State} (h : exec i s = .next (s.withPtr p false k)) :
    (p.toNat % 8 ≠ 0 → ∃ t, exec i s = .next t ∧ Trapped s t 6 p s.me.pc) ∧
    (p.toNat % 8 = 0 → ¬ Good p → ∃ t, exec i s = .next t ∧ Trapped s t 7 p s.me.pc) :=
  ⟨fun hp => ⟨_, h.trans (congrArg _ (s.withPtr_of_misaligned false k hp)), s.trapped_trap 6 p⟩,
   fun hp hg => ⟨_, h.trans (congrArg _ (s.withPtr_of_bad false k hp hg)), s.trapped_trap 7 p⟩⟩

/-! The egress rule of R196. -/

theorem State.heldBack_waitOn (s : State) : HeldBack s (s.waitOn true) where
  me := s.me_updMe _
  others _ h := State.slot_updMe_ne _ _ h
  rest := rfl

/-- Request egress is fenced for the current slot: it is in U mode and its core has sqfen set (R196). -/
def State.egressFenced (s : State) : Prop := (s.core (s.coreOf s.vk)).sqfen = true ∧ s.me.mode = .u

theorem State.withRoom_of_fenced {s : State} (h : s.egressFenced) (i : Instr) (k : State) :
    s.withRoom i false k = s.trap 26 ((insnWord i).setWidth 64) := by
  obtain ⟨hs, hm⟩ := h
  simp [State.withRoom, hs, hm]

theorem State.withRoom_of_unfenced {s : State} (h : ¬ s.egressFenced) (i : Instr) (k : State) : s.withRoom i false k = s.waitOn true := by
  have hn : ((s.core (s.coreOf s.vk)).sqfen && s.me.mode == .u) = false := by
    rw [Bool.eq_false_iff]
    simpa [State.egressFenced] using h
  simp [State.withRoom, hn]

/-- Without room the instruction takes trap 26 where egress is fenced, and otherwise waits. -/
theorem egressRule_of_withRoom {s : State} {i : Instr} {k : State} (h : exec i s = .next (s.withRoom i false k)) :
    (s.egressFenced → ∃ t, exec i s = .next t ∧ Trapped s t 26 (((encode i).getD 0).setWidth 64) s.me.pc) ∧
    (¬ s.egressFenced → ∃ t, exec i s = .next t ∧ HeldBack s t) :=
  ⟨fun hf => ⟨_, h.trans (congrArg _ (State.withRoom_of_fenced hf i k)), s.trapped_trap 26 _⟩,
   fun hf => ⟨_, h.trans (congrArg _ (State.withRoom_of_unfenced hf i k)), s.heldBack_waitOn⟩⟩

theorem VCore.blocker_of_kept_nil {v : VCore} (h : v.kept = []) (slot : Nat) (d : Dest) : v.blocker slot d = none := by
  simp [VCore.blocker, VCore.blockerOn, h]

theorem State.canSend_of_kept_nil {s : State} (h : s.myVc.kept = []) (d : Dest) : s.canSend d = s.egressRoom s.vk := by
  simp [State.canSend, VCore.blocker_of_kept_nil h]

theorem State.canSend_of_clear {s : State} (h : Clear s) (d : Dest) : s.canSend d = true := by
  obtain ⟨hk, hroom⟩ := h
  rw [State.canSend_of_kept_nil hk]
  exact decide_eq_true hroom

theorem State.canSend_of_full {s : State} (hk : s.myVc.kept = []) (h : 32 ≤ (s.core (s.coreOf s.vk)).egress.length) (d : Dest) :
    s.canSend d = false := by
  rw [State.canSend_of_kept_nil hk]
  exact decide_eq_false (by omega)

/-- With nothing kept at the source a request enters egress. -/
theorem State.emit_of_kept_nil {s : State} {vk : Nat} (h : (s.vc vk).kept = []) (slot : Nat) (d : Dest) (b : Body) :
    s.emit vk slot d b = s.enterEgress vk (Msg.mk (.vc vk) d .request b none false) := by
  simp [State.emit, VCore.blocker_of_kept_nil h]

/-! What the issue of an access records. -/

/-- Since s only accesses, batches, kept requests and tokens of the virtual core, its core and the next number have changed. -/
structure Issuing (s u : State) : Prop where
  vc : { u.myVc with unacked := s.myVc.unacked, batches := s.myVc.batches, kept := s.myVc.kept, tokens := s.myVc.tokens } = s.myVc
  vcs : ∀ k, k ≠ s.vk → u.vc k = s.vc k
  cores : ∀ g, g ≠ s.coreOf s.vk → u.core g = s.core g
  rest : { u with vcs := s.vcs, cores := s.cores, nextId := s.nextId } = s

theorem Issuing.refl (s : State) : Issuing s s := ⟨rfl, fun _ _ => rfl, fun _ _ => rfl, rfl⟩

section
variable {s u : State} (h : Issuing s u)
include h

theorem Issuing.slots : u.slots = s.slots := (congrArg State.slots h.rest :)
theorem Issuing.cur : u.cur = s.cur := (congrArg State.cur h.rest :)
theorem Issuing.net : u.net = s.net := (congrArg State.net h.rest :)
theorem Issuing.mem : u.mem = s.mem := (congrArg State.mem h.rest :)
theorem Issuing.slot (k : Nat) : u.slot k = s.slot k := congrArg (fun l => FMap.getD l k ({} : Slot)) h.slots
theorem Issuing.me : u.me = s.me := by rw [State.me, h.cur, h.slot, State.me]
theorem Issuing.vk : u.vk = s.vk := congrArg (· / 16) h.cur
theorem Issuing.ix : u.ix = s.ix := congrArg (· % 16) h.cur
theorem Issuing.place : u.myVc.place = s.myVc.place := (congrArg VCore.place h.vc :)
theorem Issuing.coreOf : u.coreOf s.vk = s.coreOf s.vk := by
  have := h.place
  unfold State.myVc at this
  rw [h.vk] at this
  rw [State.coreOf, this, State.coreOf]

theorem Issuing.trans {t : State} (k : Issuing u t) : Issuing s t where
  vc := by
    have hu : u.myVc = { s.myVc with unacked := u.myVc.unacked, batches := u.myVc.batches, kept := u.myVc.kept, tokens := u.myVc.tokens } := by
      rw [← h.vc]
    have ht : t.myVc = { u.myVc with unacked := t.myVc.unacked, batches := t.myVc.batches, kept := t.myVc.kept, tokens := t.myVc.tokens } := by
      rw [← k.vc]
    rw [ht, hu]
  vcs j hj := (k.vcs j (by rwa [h.vk])).trans (h.vcs j hj)
  cores g hg := (k.cores g (by rwa [h.vk, h.coreOf])).trans (h.cores g hg)
  rest := by
    have hu : u = { s with vcs := u.vcs, cores := u.cores, nextId := u.nextId } := by rw [← h.rest]
    have ht : t = { u with vcs := t.vcs, cores := t.cores, nextId := t.nextId } := by rw [← k.rest]
    rw [ht, hu]

/-- Such an issue completes with w in x[rd]. -/
theorem Issuing.issued_result (rd : XReg) (w : Word) : Issued s (u.result rd w) rd w := by
  have d := u.did_result rd w
  obtain ⟨hx, hpc, hhold, harr, hslot⟩ : (∀ r, (u.result rd w).x r = if r = rd ∧ rd ≠ 0 then w else u.x r) ∧
      (u.result rd w).me.pc = u.me.pc + 4 ∧ (u.result rd w).me.hold = none ∧ (u.result rd w).me.arrived = none ∧
      { (u.result rd w).me with x := u.me.x, pc := u.me.pc, minstret := u.me.minstret, hold := u.me.hold, arrived := u.me.arrived } = u.me :=
    ⟨d.x, d.pc, d.hold, d.arrived, d.slot⟩
  have hux : ∀ r, u.x r = s.x r := fun r => congrArg (·.readX r) h.me
  rw [h.me] at hpc hslot
  exact {
    x := fun r => by rw [hx, hux]
    pc := hpc, hold := hhold, arrived := harr, slot := hslot
    others := fun k hk => (d.others k (by rwa [h.cur])).trans (h.slot k)
    vc := h.vc, vcs := h.vcs, cores := h.cores
    rest := by
      have hu : u = { s with vcs := u.vcs, cores := u.cores, nextId := u.nextId } := by rw [← h.rest]
      rw [hu]; rfl }

theorem Issuing.issued_retire : Issued s u.retire 0 0 := by
  have := h.issued_result 0 0
  rwa [State.result_x0] at this

end

theorem State.issuing_updMyVc {s : State} {f : VCore → VCore}
    (h : { f s.myVc with unacked := s.myVc.unacked, batches := s.myVc.batches, kept := s.myVc.kept, tokens := s.myVc.tokens } = s.myVc) :
    Issuing s (s.updMyVc f) where
  vc := by rw [s.myVc_updMyVc]; exact h
  vcs _ hk := s.vc_updMyVc_ne f hk
  cores _ _ := rfl
  rest := rfl

theorem State.issuing_freshId (s : State) : Issuing s s.freshId.2 := ⟨rfl, fun _ _ => rfl, fun _ _ => rfl, rfl⟩

theorem State.issuing_enterEgress (s : State) (m : Msg) : Issuing s (s.enterEgress s.vk m) where
  vc := rfl
  vcs _ _ := rfl
  cores g hg := by rw [State.enterEgress, State.core_updCore, if_neg hg]
  rest := rfl

theorem State.egress_enterEgress (s : State) (vk : Nat) (m : Msg) :
    ((s.enterEgress vk m).core (s.coreOf vk)).egress = (s.core (s.coreOf vk)).egress ++ [m] := by
  rw [State.enterEgress, State.core_updCore, if_pos rfl]

/-- Counting a store changes the batches of the virtual core at most. -/
theorem State.countIn_cases (s : State) (vk bt : Nat) (d : Dest) : (s.countIn vk bt d).1 = s ∨
    ∃ b, (s.countIn vk bt d).1 = s.updVc vk (fun v => { v with batches := v.batches.setIfInBounds bt b }) := by
  unfold State.countIn
  extract_lets b put far
  split
  · exact .inl rfl
  · split
    · exact .inr ⟨_, rfl⟩
    · split <;> exact .inr ⟨_, rfl⟩

/-- The virtual core after a store has been counted. -/
theorem State.vc_countIn (s : State) (vk bt : Nat) (d : Dest) :
    (s.countIn vk bt d).1.vc vk = { s.vc vk with batches := ((s.countIn vk bt d).1.vc vk).batches } := by
  rcases s.countIn_cases vk bt d with h | ⟨b, h⟩ <;> rw [h]
  simp only [State.vc_updVc_self]

theorem State.nextId_countIn (s : State) (vk bt : Nat) (d : Dest) : (s.countIn vk bt d).1.nextId = s.nextId := by
  rcases s.countIn_cases vk bt d with h | ⟨b, h⟩ <;> rw [h]; rfl

theorem State.issuing_countIn (s : State) (bt : Nat) (d : Dest) : Issuing s (s.countIn s.vk bt d).1 := by
  rcases s.countIn_cases s.vk bt d with h | ⟨b, h⟩ <;> rw [h]
  · exact .refl s
  · exact State.issuing_updMyVc (f := fun v => { v with batches := v.batches.setIfInBounds bt b }) rfl

/-- A near destination that finds place among the 64 is a destination of the batch (R199). -/
theorem State.mem_dests_countIn {s : State} {vk bt : Nat} {d : Dest} (hbt : bt < 4) (hfar : d.isFar = false)
    (h : ((s.vc vk).batches[bt]).dests.length < 64) : d ∈ (((s.countIn vk bt d).1.vc vk).batches[bt]).dests := by
  have hb : (s.vc vk).batches.getD bt {} = (s.vc vk).batches[bt] := by simp [Vector.getD, hbt]
  by_cases hmem : d ∈ ((s.vc vk).batches[bt]).dests
  · have hc : (s.countIn vk bt d).1 = s := by
      unfold State.countIn
      rw [hb, if_pos (by simp [hfar, hmem])]
    rwa [hc]
  · have hc : (s.countIn vk bt d).1 = s.updVc vk (fun v => { v with
        batches := v.batches.setIfInBounds bt { (s.vc vk).batches[bt] with dests := ((s.vc vk).batches[bt]).dests ++ [d] } }) := by
      unfold State.countIn
      rw [hb, if_neg (by simp [hmem]), if_pos (by simp [hfar, h])]
    simp only [hc, State.vc_updVc_self, Vector.getElem_setIfInBounds_self]
    exact List.mem_append_right _ (List.mem_singleton_self d)

/-- The access a store is recorded as. -/
def State.accessFor (s : State) (bt : Nat) (d : Dest) (token : Option (Nat × Nat)) : Access :=
  { id := s.nextId + 1, slot := s.ix, dests := [d], bt := bt, epoch := (s.myVc.batches.getD bt {}).epoch,
    counted := (s.countIn s.vk bt d).2, token := token }

section
variable (s : State) (bt : Nat) (d : Dest) (token : Option (Nat × Nat))

theorem State.tag_issueStore : (s.issueStore bt d token).1 = ⟨s.nextId + 1, s.ix, bt⟩ := by
  simp [State.issueStore, State.freshId, State.nextId_countIn]

theorem State.issueStore_eq : (s.issueStore bt d token).2 =
    (s.countIn s.vk bt d).1.freshId.2.updMyVc (fun v => { v with unacked := v.unacked ++ [s.accessFor bt d token] }) := by
  simp [State.issueStore, State.accessFor, State.freshId, State.nextId_countIn]

theorem State.issuing_issueStore : Issuing s (s.issueStore bt d token).2 := by
  rw [State.issueStore_eq]
  exact ((s.issuing_countIn bt d).trans (State.issuing_freshId _)).trans (State.issuing_updMyVc rfl)

/-- Of the virtual core the issue adds one access and counts the store in its batch. -/
theorem State.myVc_issueStore : (s.issueStore bt d token).2.myVc =
    { s.myVc with unacked := s.myVc.unacked ++ [s.accessFor bt d token], batches := ((s.countIn s.vk bt d).1.vc s.vk).batches } := by
  have hvk : ((s.countIn s.vk bt d).1.freshId.2).myVc = (s.countIn s.vk bt d).1.vc s.vk := by
    have := (s.issuing_countIn bt d).vk
    show (s.countIn s.vk bt d).1.vc (s.countIn s.vk bt d).1.vk = _
    rw [this]
  rw [State.issueStore_eq, State.myVc_updMyVc, hvk, State.vc_countIn]
  rfl

theorem State.cores_issueStore : (s.issueStore bt d token).2.cores = s.cores := by
  rw [State.issueStore_eq]
  rcases s.countIn_cases s.vk bt d with h | ⟨b, h⟩ <;> rw [h] <;> rfl

end

end Sys2Proof.Machine
end

section
/-! PROOFS. Remote stores and releases at their source (R194, R196, R198, R199, R203). -/

namespace Sys2Proof.Machine

open Sys2Proof.Claim

/-! A request that leaves at once. -/

section
variable {s u : State} (h : Issuing s u) (hc : u.cores = s.cores) (hk : u.myVc.kept = []) (slot : Nat) (d : Dest) (b : Body)
include h hk

theorem Issuing.emit_eq : u.emit s.vk slot d b = u.enterEgress s.vk (Msg.mk (.vc s.vk) d .request b none false) :=
  State.emit_of_kept_nil (by rw [← h.vk]; exact hk) slot d b

theorem Issuing.emit : Issuing s (u.emit s.vk slot d b) := by
  rw [h.emit_eq hk]
  have := h.trans (u.issuing_enterEgress (Msg.mk (.vc s.vk) d .request b none false))
  rwa [h.vk] at this

theorem Issuing.myVc_emit : (u.emit s.vk slot d b).myVc = u.myVc := by rw [h.emit_eq hk]; rfl

include hc

theorem Issuing.left_emit : Left s (u.emit s.vk slot d b) d b := by
  rw [h.emit_eq hk]
  refine ⟨?_, h.net⟩
  have := u.egress_enterEgress s.vk (Msg.mk (.vc s.vk) d .request b none false)
  rw [h.coreOf] at this
  rw [this, State.core, hc]
  rfl

end

/-! Stores that are issued. -/

/-- What every issued store leaves: the access, its place in the batch, and the tokens as they were. -/
structure StoreCounted (s t : State) (bt : Nat) (hbt : bt < 4) (d : Dest) : Prop where
  issued : Issued s t 0 0
  tokens : t.myVc.tokens = s.myVc.tokens
  access : ∃ a, t.myVc.unacked = s.myVc.unacked ++ [a] ∧ a.id = s.nextId + 1 ∧ a.slot = s.ix ∧ a.dests = [d]
  counted : d.isFar = false → (s.myVc.batches[bt]).dests.length < 64 → d ∈ (t.myVc.batches[bt]).dests

/-- An issue that is the recording of a store, and of the virtual core changes besides no more than what it keeps. -/
theorem storeCounted_of_issuing {s u : State} (h : Issuing s u) {bt : Nat} (hbt : bt < 4) {d : Dest} {token : Option (Nat × Nat)}
    {k : List Kept} (hv : u.myVc = { (s.issueStore bt d token).2.myVc with kept := k }) : StoreCounted s u.retire bt hbt d where
  issued := h.issued_retire
  tokens := by
    show u.myVc.tokens = _
    rw [hv, State.myVc_issueStore]
  access := ⟨s.accessFor bt d token, by
    show u.myVc.unacked = _
    rw [hv, State.myVc_issueStore], rfl, rfl, rfl⟩
  counted hfar hlen := by
    show d ∈ (u.myVc.batches[bt]).dests
    simp only [hv, State.myVc_issueStore]
    exact State.mem_dests_countIn hbt hfar hlen

theorem State.storeRoom_of_canSend {s : State} (hc : s.myVc.countedFull = false) (bt : Nat) (d : Dest) : s.storeRoom bt d = s.canSend d := by
  simp [State.storeRoom, hc]

theorem State.storeRoom_of_full {s : State} {d : Dest} (h : s.canSend d = false) (bt : Nat) : s.storeRoom bt d = false := by
  simp [State.storeRoom, h]

theorem State.kept_issueStore {s : State} (h : s.myVc.kept = []) (bt : Nat) (d : Dest) (token : Option (Nat × Nat)) :
    (s.issueStore bt d token).2.myVc.kept = [] := by
  rw [State.myVc_issueStore]; exact h

/-- The store of the current slot in batch bt, with the kind k, as it enters egress. -/
def State.sentStore (s : State) (bt : Nat) (d : Dest) (p v : Word) (k : StoreKind) : State :=
  let n := s.issueStore bt d none
  n.2.emit s.vk s.ix d (.store n.1 p v k none)

section
variable {s : State} (hk : s.myVc.kept = []) (bt : BitVec 2) (d : Dest) (p v : Word) (k : StoreKind)
include hk

theorem State.storeCounted_sentStore : StoreCounted s (s.sentStore bt.toNat d p v k).retire bt.toNat bt.isLt d :=
  storeCounted_of_issuing (k := (s.issueStore bt.toNat d none).2.myVc.kept)
    ((s.issuing_issueStore _ _ _).emit (State.kept_issueStore hk _ _ _) ..) bt.isLt
    ((s.issuing_issueStore _ _ _).myVc_emit (State.kept_issueStore hk _ _ _) ..)

theorem State.kept_sentStore : (s.sentStore bt.toNat d p v k).retire.myVc.kept = [] := by
  show (s.sentStore bt.toNat d p v k).myVc.kept = []
  rw [State.sentStore, (s.issuing_issueStore _ _ _).myVc_emit (State.kept_issueStore hk _ _ _)]
  exact State.kept_issueStore hk _ _ _

theorem State.left_sentStore : Left s (s.sentStore bt.toNat d p v k).retire d (.store ⟨s.nextId + 1, s.ix, bt.toNat⟩ p v k none) := by
  have := (s.issuing_issueStore bt.toNat d none).left_emit (s.cores_issueStore ..) (State.kept_issueStore hk _ _ _) s.ix d
    (.store (s.issueStore bt.toNat d none).1 p v k none)
  rw [State.tag_issueStore] at this
  rw [State.sentStore, State.tag_issueStore]
  exact this

end

/-- A release in whose scope an access is not acknowledged is kept (R203). -/
def State.keptRelease (s : State) (bt : Nat) (d : Dest) (p v : Word) (sc : Scope) : State :=
  let n := s.issueStore bt d none
  n.2.keep s.vk s.ix d (.store n.1 p v (.release sc s.me.pc) none) (.release (s.fenced sc)) false

/-- What is kept for it. -/
def State.releaseFor (s : State) (bt : Nat) (d : Dest) (p v : Word) (sc : Scope) : Kept :=
  { msg := Msg.mk (.vc s.vk) d .request (.store ⟨s.nextId + 1, s.ix, bt⟩ p v (.release sc s.me.pc) none) none false, slot := s.ix,
    why := .release (s.fenced sc), wide := false, fresh := true }

section
variable (s : State) (bt : Nat) (d : Dest) (p v : Word) (sc : Scope)

theorem State.keptRelease_eq : s.keptRelease bt d p v sc = (s.issueStore bt d none).2.updMyVc (fun x => { x with
    kept := x.kept ++ [s.releaseFor bt d p v sc] }) := by
  simp only [State.keptRelease, State.keep, State.releaseFor, State.updMyVc, State.tag_issueStore, (s.issuing_issueStore bt d none).vk]

theorem State.issuing_keptRelease : Issuing s (s.keptRelease bt d p v sc) := by
  rw [State.keptRelease_eq]
  exact (s.issuing_issueStore _ _ _).trans (State.issuing_updMyVc rfl)

theorem State.myVc_keptRelease : (s.keptRelease bt d p v sc).myVc =
    { (s.issueStore bt d none).2.myVc with kept := s.myVc.kept ++ [s.releaseFor bt d p v sc] } := by
  rw [State.keptRelease_eq, State.myVc_updMyVc, State.myVc_issueStore]

theorem State.cores_keptRelease : (s.keptRelease bt d p v sc).cores = s.cores := by
  rw [State.keptRelease_eq]
  exact s.cores_issueStore bt d none

end

/-! The three instructions. -/

section
variable (s : State) (rs2 rs1 : XReg) (bt : BitVec 2) (sc : Scope)

/-- RST and RSTF differ in the kind of the store alone. -/
theorem exec_rst : exec (.rst rs2 rs1 bt) s = .next (s.remoteStore (.rst rs2 rs1 bt) rs2 rs1 bt.toNat .plain) := rfl
theorem exec_rstf : exec (.rstf rs2 rs1 bt) s = .next (s.remoteStore (.rstf rs2 rs1 bt) rs2 rs1 bt.toNat .setFull) := rfl

/-- RSTREL where no access in its scope is out is a store of its own kind. -/
theorem exec_rstrel_of_free (h : s.fenced sc = []) : exec (.rstrel sc rs2 rs1 bt) s =
    .next (s.remoteStore (.rstrel sc rs2 rs1 bt) rs2 rs1 bt.toNat (.release sc s.me.pc)) := by
  show execRstrel sc rs2 rs1 bt s = _
  simp only [execRstrel, h, List.isEmpty_nil, if_true, State.remoteStore, State.storeRoom]

theorem exec_rstrel_of_fenced (h : s.fenced sc ≠ []) (hk : s.myVc.kept = []) (hg : Good (s.x rs1)) (hc : s.myVc.countedFull = false) :
    exec (.rstrel sc rs2 rs1 bt) s = .next (s.keptRelease bt.toNat (s.target s.vk (s.x rs1)) (s.x rs1) (s.x rs2) sc).retire := by
  show execRstrel sc rs2 rs1 bt s = _
  have he : (s.fenced sc).isEmpty = false := List.isEmpty_eq_false_iff.mpr h
  simp only [execRstrel, s.withPtr_of_good _ _ hg, he, hc, VCore.blocker_of_kept_nil hk, State.withRoom, Bool.and_false, Bool.not_false,
    Bool.and_self, Option.map_none, Option.getD_none, if_true, Bool.false_eq_true, if_false, State.keptRelease]

/-- Every one of them checks its pointer first. -/
theorem exec_rstrel_withPtr : ∃ k, exec (.rstrel sc rs2 rs1 bt) s = .next (s.withPtr (s.x rs1) false k) := ⟨_, rfl⟩

theorem exec_remoteStore_of_clear {i : Instr} {k : StoreKind} (h : exec i s = .next (s.remoteStore i rs2 rs1 bt.toNat k))
    (hg : Good (s.x rs1)) (hclear : Clear s) (hc : s.myVc.countedFull = false) :
    exec i s = .next (s.sentStore bt.toNat (s.target s.vk (s.x rs1)) (s.x rs1) (s.x rs2) k).retire := by
  rw [h]
  simp only [State.remoteStore, s.withPtr_of_good _ _ hg, State.storeRoom_of_canSend hc, State.canSend_of_clear hclear, State.withRoom, if_true]
  rfl

theorem sent_remoteStore {i : Instr} {k : StoreKind} (h : exec i s = .next (s.remoteStore i rs2 rs1 bt.toNat k)) (hg : Good (s.x rs1))
    (hclear : Clear s) (hc : s.myVc.countedFull = false) : ∃ t, exec i s = .next t ∧
      StoreCounted s t bt.toNat bt.isLt (s.target s.vk (s.x rs1)) ∧ t.myVc.kept = [] ∧
      Left s t (s.target s.vk (s.x rs1)) (.store ⟨s.nextId + 1, s.ix, bt.toNat⟩ (s.x rs1) (s.x rs2) k none) :=
  ⟨_, exec_remoteStore_of_clear s rs2 rs1 bt h hg hclear hc, State.storeCounted_sentStore hclear.1 .., State.kept_sentStore hclear.1 ..,
    State.left_sentStore hclear.1 ..⟩

theorem egressRule_of_remoteStore {i : Instr} {k : StoreKind} (h : exec i s = .next (s.remoteStore i rs2 rs1 bt.toNat k))
    (hf : Good (s.x rs1) ∧ s.myVc.kept = [] ∧ 32 ≤ (s.core (s.coreOf s.vk)).egress.length) :
    (s.egressFenced → ∃ t, exec i s = .next t ∧ Trapped s t 26 (((encode i).getD 0).setWidth 64) s.me.pc) ∧
    (¬ s.egressFenced → ∃ t, exec i s = .next t ∧ HeldBack s t) := by
  obtain ⟨hg, hk, hfull⟩ := hf
  simp only [State.remoteStore, s.withPtr_of_good _ _ hg, State.storeRoom_of_full (State.canSend_of_full hk hfull _)] at h
  exact egressRule_of_withRoom h

end

/-! RSTREL_SEND. -/

theorem State.updVc_congr (s : State) {k : Nat} {f g : VCore → VCore} (h : f (s.vc k) = g (s.vc k)) : s.updVc k f = s.updVc k g :=
  congrArg (s.setVc k) h

/-- A store that is not held on a token is sent as it was kept. -/
theorem VCore.ready_of_unheld {v : VCore} {k : Kept} {src d : Dest} {tg : Tag} {p x : Word} {sk : StoreKind}
    (h : k.msg = Msg.mk src d .request (.store tg p x sk none) none false) : v.ready k false = k.msg := by
  simp [VCore.ready, h]

/-- The only kept request of a virtual core, a store without a reason to stay, enters egress. -/
theorem State.pump_of_behind {s : State} {vk : Nat} {k : Kept} {d : Dest} {tg : Tag} {p x : Word} {sk : StoreKind} (hk : (s.vc vk).kept = [k])
    (hwhy : k.why = .behind) (hret : k.ret = false) (hm : k.msg = Msg.mk (.vc vk) d .request (.store tg p x sk none) none false)
    (hq : (s.gang (s.vc vk).gid).quiesced = false) (hroom : (s.core (s.coreOf vk)).egress.length < 32) :
    s.pump vk = (s.enterEgress vk k.msg).updVc vk (fun v => { v with kept := [] }) := by
  have hsend : ∀ c, s.sendable vk [] k c = true := fun c => by
    simp [State.sendable, hq, hwhy, hret, hm, Body.heldOn]
  have hdirect : (k.msg.net != .request || k.msg.body.unordered) = false := by rw [hm]; rfl
  have hr : s.egressRoom vk = true := decide_eq_true hroom
  simp only [State.pump, hk, State.pumpFrom, hdirect, hr, hsend, hret, VCore.ready_of_unheld hm, Bool.or_true, Bool.and_self, if_true,
    Bool.false_eq_true, if_false]

/-- RSTREL_SEND takes the release whose accesses are all acknowledged. -/
theorem exec_rstrelSend {s : State} {k : Kept} {ids : List Nat} (hk : (s.vc s.ev.key).kept = [k]) (hwhy : k.why = .release ids)
    (hids : ∀ a ∈ (s.vc s.ev.key).unacked, a.id ∉ ids) : exec .rstrelSend s =
      .next ((s.updVc s.ev.key (fun v => { v with kept := [{ k with why := .behind }] })).pump s.ev.key) := by
  have hany : (ids.any (fun i => (s.vc s.ev.key).unacked.any (fun a => a.id == i))) = false := by
    simp only [List.any_eq_false, beq_iff_eq, Bool.not_eq_true]
    intro i hi a ha e
    exact hids a ha (e ▸ hi)
  show execRstrelSend s = _
  simp only [execRstrelSend, hk, List.find?_cons, hwhy, hany, Bool.not_false]
  refine congrArg (fun u : State => Host.Outcome.next (u.pump s.ev.key)) (s.updVc_congr ?_)
  rw [hk]
  simp only [List.map_cons, List.map_nil, beq_self_eq_true, if_true]

/-- What the statement says of a store that has been issued. -/
theorem StoreCounted.parts {s t : State} {bt : BitVec 2} {d : Dest} (h : StoreCounted s t bt.toNat bt.isLt d) :
    Issued s t 0 0 ∧ t.myVc.tokens = s.myVc.tokens ∧
    (∃ a, t.myVc.unacked = s.myVc.unacked ++ [a] ∧ a.id = s.nextId + 1 ∧ a.slot = s.ix ∧ a.dests = [d]) ∧
    (d.isFar = false → (s.myVc.batches[bt.toNat]'(bt.isLt)).dests.length < 64 → d ∈ (t.myVc.batches[bt.toNat]'(bt.isLt)).dests) :=
  ⟨h.issued, h.tokens, h.access, h.counted⟩

/-- Settles O40: an issue records the access and sends the store, or keeps a release behind the accesses of its scope. -/
theorem remoteStoreIssue : Obligations.RemoteStoreIssue := by
  intro s rs1 rs2 bt sc
  dsimp only
  have goes (i : Instr) (k : StoreKind) (hi : exec i s = .next (s.remoteStore i rs2 rs1 bt.toNat k)) (hg : Good (s.x rs1))
      (hclear : Clear s) (hc : s.myVc.countedFull = false) :=
    (sent_remoteStore s rs2 rs1 bt hi hg hclear hc).imp fun _ ⟨he, hd, hleft⟩ => And.intro he (And.intro hd.parts hleft)
  refine ⟨goes _ _ (exec_rst s rs2 rs1 bt), goes _ _ (exec_rstf s rs2 rs1 bt),
    fun hf => goes _ _ (exec_rstrel_of_free s rs2 rs1 bt sc hf), ?kept, ptrTraps_of_withPtr (exec_rst s rs2 rs1 bt),
    ptrTraps_of_withPtr (exec_rstf s rs2 rs1 bt), ?ptr, ?full, ?fullf, ?fullrel, ?send⟩
  case kept =>
    intro hf hg hk hc
    have hv := s.myVc_keptRelease bt.toNat (s.target s.vk (s.x rs1)) (s.x rs1) (s.x rs2) sc
    refine ⟨_, s.releaseFor bt.toNat (s.target s.vk (s.x rs1)) (s.x rs1) (s.x rs2) sc,
      exec_rstrel_of_fenced s rs2 rs1 bt sc hf hk hg hc, (storeCounted_of_issuing (s.issuing_keptRelease ..) bt.isLt hv).parts, ?_,
      rfl, rfl, s.cores_keptRelease bt.toNat _ (s.x rs1) (s.x rs2) sc⟩
    show (s.keptRelease ..).myVc.kept = _
    rw [hv, hk]; rfl
  case ptr =>
    obtain ⟨k, hk⟩ := exec_rstrel_withPtr s rs2 rs1 bt sc
    exact ptrTraps_of_withPtr hk
  case full =>
    exact ⟨fun hf => (egressRule_of_remoteStore s rs2 rs1 bt (exec_rst s rs2 rs1 bt) hf).1,
      fun hf => (egressRule_of_remoteStore s rs2 rs1 bt (exec_rst s rs2 rs1 bt) hf).2⟩
  case fullf =>
    exact ⟨fun hf => (egressRule_of_remoteStore s rs2 rs1 bt (exec_rstf s rs2 rs1 bt) hf).1,
      fun hf => (egressRule_of_remoteStore s rs2 rs1 bt (exec_rstf s rs2 rs1 bt) hf).2⟩
  case fullrel =>
    exact fun hfree => ⟨fun hf => (egressRule_of_remoteStore s rs2 rs1 bt (exec_rstrel_of_free s rs2 rs1 bt sc hfree) hf).1,
      fun hf => (egressRule_of_remoteStore s rs2 rs1 bt (exec_rstrel_of_free s rs2 rs1 bt sc hfree) hf).2⟩
  case send =>
    intro k d tg v sk ids hk hwhy hret hm hids hroom hq
    have hcore : (s.updVc s.ev.key (fun v => { v with kept := [{ k with why := .behind }] })).coreOf s.ev.key = s.coreOf s.ev.key := by
      rw [State.coreOf, State.vc_updVc_self, State.coreOf]
    refine ⟨_, (exec_rstrelSend hk hwhy hids).trans (congrArg _ (State.pump_of_behind (k := { k with why := .behind }) ?_ rfl hret hm ?_ ?_)),
      ?_, ?_, rfl, rfl⟩
    · rw [State.vc_updVc_self]
    · rw [State.vc_updVc_self]; exact hq
    · rw [hcore]; exact hroom
    · rw [State.vc_updVc_self]
    · have := State.egress_enterEgress (s.updVc s.ev.key (fun v => { v with kept := [{ k with why := .behind }] })) s.ev.key k.msg
      rw [hcore] at this
      exact this

end Sys2Proof.Machine
end

section
/-! PROOFS. Remote accesses at their home: bytes that land, the gate of an arriving request, and the accesses performed
(R33, R195, R197, R198, R256). -/

namespace Sys2Proof.Machine

open Sys2Proof.Claim

/-! Bytes written as a number and as words. -/

theorem bytesOf_succ (v n : Nat) : bytesOf v (n + 1) = BitVec.ofNat 8 v :: bytesOf (v / 256) n := by
  simp [bytesOf, List.range_succ_eq_map, Nat.pow_succ', Nat.div_div_eq_div_mul]

theorem Memory.setBytes_bytesOf : ∀ (n : Nat) (m : Memory) (a v : Nat), Memory.setBytes m a (bytesOf v n) = Memory.writeN m a v n
  | 0, _, _, _ => rfl
  | n + 1, m, a, v => by rw [bytesOf_succ, Memory.setBytes, Memory.writeN, Memory.setBytes_bytesOf n]

theorem Memory.setBytes_append : ∀ (bs cs : List Byte) (m : Memory) (a : Nat),
    Memory.setBytes m a (bs ++ cs) = Memory.setBytes (Memory.setBytes m a bs) (a + bs.length) cs
  | [], _, _, _ => rfl
  | b :: bs, cs, m, a => by
    rw [List.cons_append, Memory.setBytes, Memory.setBytes, Memory.setBytes_append bs cs, List.length_cons, Nat.add_assoc, Nat.add_comm 1]

theorem Memory.setBytes_bytesOfWords : ∀ (ws : List Word) (m : Memory) (a : Nat),
    Memory.setBytes m a (bytesOfWords ws) = Memory.setWords m a ws
  | [], _, _ => rfl
  | w :: ws, m, a => by
    have hw : bytesOfWords (w :: ws) = bytesOf w.toNat 8 ++ bytesOfWords ws := rfl
    rw [hw, Memory.setBytes_append, Memory.setBytes_bytesOf, length_bytesOf, Memory.setWords, Memory.setWord, Memory.setBytes_bytesOfWords ws]

theorem Memory.read_setBytes : ∀ (bs : List Byte) (m : Memory) (a j : Nat),
    Memory.read (Memory.setBytes m a bs) j = if a ≤ j ∧ j < a + bs.length then bs.getD (j - a) 0 else Memory.read m j
  | [], m, a, j => by rw [if_neg (by simp)]; rfl
  | b :: bs, m, a, j => by
    rw [Memory.setBytes, Memory.read_setBytes bs, Memory.read_write, List.length_cons]
    rcases Nat.lt_trichotomy j a with h | rfl | h
    · rw [if_neg (by omega), if_neg (by omega), if_neg (by omega)]
    · rw [if_neg (by omega), if_pos rfl, if_pos (by omega), Nat.sub_self, List.getD_cons_zero]
    · have hj : j - a = j - (a + 1) + 1 := by omega
      rw [hj, List.getD_cons_succ, if_neg (by omega : ¬ j = a)]
      by_cases hin : j < a + (bs.length + 1)
      · rw [if_pos (by omega), if_pos (by omega)]
      · rw [if_neg (by omega), if_neg (by omega)]

/-- Bytes that were written read back. -/
theorem Memory.bytes_setBytes (m : Memory) (a : Nat) (bs : List Byte) : Memory.bytes (Memory.setBytes m a bs) a bs.length = bs := by
  refine List.ext_getElem (by simp [Memory.bytes]) fun i h _ => ?_
  have hi : i < bs.length := by simpa [Memory.bytes] using h
  simp only [Memory.bytes, List.getElem_map, List.getElem_range, Memory.read_setBytes]
  rw [if_pos (by omega), Nat.add_sub_cancel_left, List.getD_eq_getElem _ _ hi]

/-! What a write that lands changes: memory, and of the slots and cores no more than reservations and codeChanged. -/

theorem State.land_rest (s : State) (a : Nat) (bs : List Byte) : { s.land a bs with mem := s.mem, slots := s.slots, cores := s.cores } = s := by
  rcases State.codeWritten_cases (({ s with mem := Memory.setBytes s.mem a bs }).dropResv a bs.length none) a bs.length with h | h <;>
    rw [State.land, h] <;> rfl

theorem State.mem_land (s : State) (a : Nat) (bs : List Byte) : (s.land a bs).mem = Memory.setBytes s.mem a bs := by
  rw [State.land, State.codeWritten_mem, State.dropResv, State.mapSlots_mem]

theorem State.stored_land {s u : State} (hm : u.mem = s.mem) (a v n : Nat) : Stored s (u.land a (bytesOf v n)) a n v := by
  intro j
  rw [State.mem_land, Memory.setBytes_bytesOf, Memory.read_writeN, hm]

/-- The full bit of a word set where f says so, and nothing else but waking. -/
def State.fullIf (s : State) (a : Nat) (f : Bool) : State := if f then s.setFull a else s

theorem State.mem_fullIf (s : State) (a : Nat) (f : Bool) : (s.fullIf a f).mem = s.mem := by cases f <;> rfl

theorem State.full_fullIf (s : State) (a : Nat) (f : Bool) : (s.fullIf a f).full = if f then fullSet s.full a else s.full := by
  cases f <;> rfl

theorem State.fullIf_rest (s : State) (a : Nat) (f : Bool) : { s.fullIf a f with slots := s.slots, full := s.full } = s := by
  cases f <;> rfl

theorem State.landWord_eq (s : State) (a : Nat) (w : Word) (f : Bool) : s.landWord a w f = (s.land a (bytesOf w.toNat 8)).fullIf a f := by
  simp only [State.landWord, State.fullIf]

theorem State.full_of_land_rest {s u : State} (h : { u with mem := s.mem, slots := s.slots, cores := s.cores } = s) : u.full = s.full :=
  (congrArg State.full h :)

theorem State.full_land (s : State) (a : Nat) (bs : List Byte) : (s.land a bs).full = s.full := State.full_of_land_rest (s.land_rest a bs)

/-- A change of memory, slots and cores, and then one of slots and full bits. -/
theorem State.fullIf_rest_of {s u : State} (h : { u with mem := s.mem, slots := s.slots, cores := s.cores } = s) (a : Nat) (f : Bool) :
    { u.fullIf a f with mem := s.mem, slots := s.slots, cores := s.cores, full := s.full } = s := by
  have hf := u.fullIf_rest a f
  rw [State.full_of_land_rest h] at hf
  rw [← hf] at h
  exact h

theorem State.landWord_rest (s : State) (a : Nat) (w : Word) (f : Bool) :
    { s.landWord a w f with mem := s.mem, slots := s.slots, cores := s.cores, full := s.full } = s := by
  rw [State.landWord_eq]
  exact State.fullIf_rest_of (s.land_rest a _) a f

theorem State.stored_landWord {s u : State} (hm : u.mem = s.mem) (a : Nat) (w : Word) (f : Bool) : Stored s (u.landWord a w f) a 8 w.toNat := by
  intro j
  rw [State.landWord_eq, State.mem_fullIf]
  exact State.stored_land hm a w.toNat 8 j

theorem State.full_landWord (s : State) (a : Nat) (w : Word) (f : Bool) : (s.landWord a w f).full = if f then fullSet s.full a else s.full := by
  rw [State.landWord_eq, State.full_fullIf, State.full_land]

/-! A request that arrives and is performed. -/

/-- u is s after message ev.ix has left the networks and the banks of its access are used. -/
structure AtHome (s u : State) : Prop where
  net : u.net = s.net.eraseIdx s.ev.ix
  rest : { u with net := s.net, cores := s.cores } = s

theorem State.atHome_useBank (s : State) (m : Msg) : AtHome s (s.takeEv.useBank m) where
  net := (congrArg State.net (s.takeEv.useBank_rest m) :)
  rest := by
    have h := s.takeEv.useBank_rest m
    generalize s.takeEv.useBank m = u at h
    have hu : u = { s.takeEv with cores := u.cores } := by rw [← h]
    rw [hu]; rfl

section
variable {s u : State} (h : AtHome s u)
include h

theorem AtHome.eq : u = { s with net := u.net, cores := u.cores } := by rw [← h.rest]
theorem AtHome.mem : u.mem = s.mem := (congrArg State.mem h.rest :)
theorem AtHome.full : u.full = s.full := (congrArg State.full h.rest :)
theorem AtHome.slots : u.slots = s.slots := (congrArg State.slots h.rest :)
theorem AtHome.vcs : u.vcs = s.vcs := (congrArg State.vcs h.rest :)
theorem AtHome.vc (k : Nat) : u.vc k = s.vc k := congrArg (fun l => FMap.getD l k ({} : VCore)) h.vcs
theorem AtHome.coreOf (k : Nat) : u.coreOf k = s.coreOf k := by rw [State.coreOf, h.vc, State.coreOf]
theorem AtHome.isFull (a : Nat) : u.isFull a = s.isFull a := by rw [State.isFull, h.full, State.isFull]
theorem AtHome.launchLenOf (k : Nat) : u.launchLenOf k = s.launchLenOf k := by
  have hg : u.gangs = s.gangs := (congrArg State.gangs h.rest :)
  rw [State.launchLenOf, State.gang, h.vc, hg]; rfl

/-- Inside the home window a pointer names its word of LM (R195). -/
theorem AtHome.homeWord {vk : Nat} {p : Word} (hp : p.toNat % 2 ^ 24 + 8 ≤ s.launchLenOf vk) :
    u.homeWord (.vc vk) p = some (lmAddr (s.coreOf vk) ((s.vc vk).base + p.toNat % 2 ^ 24)) := by
  simp only [State.homeWord, bits_ptrOff, h.launchLenOf, h.coreOf, h.vc]
  rw [if_pos hp]

theorem AtHome.homeWord_outside {vk : Nat} {p : Word} (hp : s.launchLenOf vk < p.toNat % 2 ^ 24 + 8) : u.homeWord (.vc vk) p = none := by
  simp only [State.homeWord, bits_ptrOff, h.launchLenOf]
  rw [if_neg (by omega)]

/-- The answer of a home. -/
theorem AtHome.answered {m : Msg} (b : Body) : Claim.Answered s (u.answer m.dst m.src b) m b := by
  show u.net ++ [_] = _
  rw [h.net]

end

theorem State.gate_of_arrives {s : State} {m : Msg} {vk : Nat} (h : Arrives s m vk) : s.takeEv.gate m vk = .go s.takeEv := by
  have hlive : (s.takeEv.vc vk).live = true := h.live
  have hplace : (s.takeEv.vc vk).place.isNone = false := by
    show (s.vc vk).place.isNone = false
    simpa using h.here
  have hquiet : s.takeEv.quietFor vk m.src = false := h.quiet
  have hcalm : (s.takeEv.vc vk).refusal? m.src m.net = none := h.calm
  simp [State.gate, hlive, hplace, hquiet, hcalm]

/-- A request that meets its virtual core and is not held on a token is performed. -/
theorem State.arriveAccess_of_arrives {s : State} {m : Msg} {vk : Nat} (h : Arrives s m vk) (hb : m.body.heldOn = none) :
    s.takeEv.arriveAccess m = s.takeEv.perform m := by
  have hfree : (s.takeEv.vc vk).holdsFor m.src = false := h.free
  simp [State.arriveAccess, h.dst, State.gate_of_arrives h, hb, hfree]

theorem State.evAccess_of_performed {s : State} {m : Msg} {vk : Nat} (h : Performed s m vk) : s.evAccess = some m :=
  (s.evAccess_eq_some m).mpr ⟨h.1.msg, h.2⟩

end Sys2Proof.Machine
end

section
/-! PROOFS. Remote loads from issue to reply (R194 to R197). -/

namespace Sys2Proof.Machine

open Sys2Proof.Claim

/-! An instruction that sends a request and waits at its word for the answer. -/

/-- The current slot waits as f leaves it, its core changes as g says, and m is last in request egress. -/
def State.sentWaiting (s : State) (f : Slot → Slot) (g : PCore → PCore) (m : Msg) : State :=
  (({ s with nextId := s.nextId + 1 }).updMe f).updCore (s.coreOf s.vk) (fun c => { g c with egress := c.egress ++ [m] })

section
variable (s : State) {f : Slot → Slot} (g : PCore → PCore) (m : Msg)

theorem State.me_sentWaiting : (s.sentWaiting f g m).me = f s.me := State.me_updMe ({ s with nextId := s.nextId + 1 }) f

theorem State.core_sentWaiting : (s.sentWaiting f g m).core (s.coreOf s.vk) =
    { g (s.core (s.coreOf s.vk)) with egress := (s.core (s.coreOf s.vk)).egress ++ [m] } := by
  rw [State.sentWaiting, State.core_updCore, if_pos rfl]; rfl

theorem State.waiting_sentWaiting
    (hf : { f s.me with st := s.me.st, hold := s.me.hold, wakeAt := s.me.wakeAt, rewound := s.me.rewound } = s.me) :
    Waiting s (s.sentWaiting f g m) where
  slot := by rw [State.me_sentWaiting]; exact hf
  others _ hk := State.slot_updMe_ne ({ s with nextId := s.nextId + 1 }) f hk
  vcs _ _ := rfl
  cores j hj := by rw [State.sentWaiting, State.core_updCore, if_neg hj]; rfl
  rest := rfl

theorem State.left_sentWaiting (d : Dest) (b : Body) : Left s (s.sentWaiting f g (Msg.mk (.vc s.vk) d .request b none false)) d b :=
  ⟨by rw [State.core_sentWaiting], rfl⟩

end

/-! RLD and RLDF at their slot. -/

/-- The slot of a load that is out (R197). -/
def Slot.loading (sl : Slot) (id : Nat) (rd : BitVec 5) (isF : Bool) (p : Word) : Slot :=
  { sl with st := .dropped, wakeAt := none, hold := some (.load id rd isF p),
            rewound := if isF && sl.rewound.any (fun q => q.2 == p) then sl.rewound else none }

/-- RLD and RLDF as one instruction. -/
def loadInstr (isF : Bool) (rd rs1 : XReg) : Instr := if isF then .rldf rd rs1 else .rld rd rs1

section
variable {s : State} (isF : Bool) (rd rs1 : XReg)

theorem exec_loadInstr : exec (loadInstr isF rd rs1) s = .next (s.remoteLoad (loadInstr isF rd rs1) rd rs1 isF) := by
  cases isF <;> rfl

theorem remoteLoad_of_reply {e : Word} (h : s.me.reply = some e) (i : Instr) : s.remoteLoad i rd rs1 isF = s.trap 5 e := by
  simp only [State.remoteLoad, h]

theorem remoteLoad_of_misaligned (h : s.me.reply = none) (hp : (s.x rs1).toNat % 8 ≠ 0) (i : Instr) :
    s.remoteLoad i rd rs1 isF = s.trap 4 (s.x rs1) := by
  simp only [State.remoteLoad, h]
  exact s.withPtr_of_misaligned true _ hp

theorem remoteLoad_of_bad (h : s.me.reply = none) (hp : (s.x rs1).toNat % 8 = 0) (hg : ¬ Good (s.x rs1)) (i : Instr) :
    s.remoteLoad i rd rs1 isF = s.trap 5 (s.x rs1) := by
  simp only [State.remoteLoad, h]
  exact s.withPtr_of_bad true _ hp hg

theorem remoteLoad_of_clear (h : s.me.reply = none) (hg : Good (s.x rs1)) (hc : Clear s) (i : Instr) :
    s.remoteLoad i rd rs1 isF = s.sentWaiting (fun sl => sl.loading (s.nextId + 1) rd isF (s.x rs1)) (fun c => c)
      (Msg.mk (.vc s.vk) (s.target s.vk (s.x rs1)) .request (.load (s.nextId + 1) s.ix (s.x rs1) isF) none false) := by
  simp only [State.remoteLoad, h, s.withPtr_of_good _ _ hg, State.canSend_of_clear hc, State.withRoom, if_true]
  have hk : ((({ s with nextId := s.nextId + 1 }).updMe (fun sl => sl.loading (s.nextId + 1) rd isF (s.x rs1))).vc s.vk).kept = [] := hc.1
  exact State.emit_of_kept_nil hk ..

theorem remoteLoad_of_full (h : s.me.reply = none) (hg : Good (s.x rs1)) (hk : s.myVc.kept = [])
    (hfull : 32 ≤ (s.core (s.coreOf s.vk)).egress.length) (i : Instr) : ∃ k, s.remoteLoad i rd rs1 isF = s.withRoom i false k := by
  simp only [State.remoteLoad, h, s.withPtr_of_good _ _ hg, State.canSend_of_full hk hfull]
  exact ⟨_, rfl⟩

end

/-! The load at its home. -/

section
variable {s : State} {m : Msg} {vk id slot : Nat} {p : Word} {isF : Bool} (hp : Performed s m vk) (hb : m.body = .load id slot p isF)
include hp hb

theorem exec_remoteLoadAtHome : exec .remoteLoadAtHome s = .next ((s.takeEv.useBank m).performLoad m id slot p isF) := by
  show execRemoteLoadAtHome s = _
  simp only [execRemoteLoadAtHome, State.evAccess_of_performed hp, hb]
  rw [State.arriveAccess_of_arrives hp.1 (by rw [hb]; rfl)]
  simp only [State.perform, hb]

omit hb in
/-- Inside the window a load reads its word, where an RLDF finds it full. -/
theorem performLoad_of_read (hin : p.toNat % 2 ^ 24 + 8 ≤ s.launchLenOf vk)
    (hf : isF = true → s.isFull (lmAddr (s.coreOf vk) ((s.vc vk).base + p.toNat % 2 ^ 24)) = true) :
    (s.takeEv.useBank m).performLoad m id slot p isF = (s.takeEv.useBank m).answer m.dst m.src
      (.loadReply id slot 0 (Memory.word s.mem (lmAddr (s.coreOf vk) ((s.vc vk).base + p.toNat % 2 ^ 24)))) := by
  have hu := s.atHome_useBank m
  have hgo : (!isF || (s.takeEv.useBank m).isFull (lmAddr (s.coreOf vk) ((s.vc vk).base + p.toNat % 2 ^ 24))) = true := by
    rw [hu.isFull]
    cases isF
    · rfl
    · simpa using hf
  rw [State.performLoad, hp.1.dst, hu.homeWord hin]
  simp only [hgo, if_true, hu.mem]

/-- Outside it is answered with the window bit. -/
theorem performLoad_outside (hout : s.launchLenOf vk < p.toNat % 2 ^ 24 + 8) :
    (s.takeEv.useBank m).performLoad m id slot p isF = (s.takeEv.useBank m).answer m.dst m.src (.loadReply id slot 1 0) := by
  have hu := s.atHome_useBank m
  rw [State.performLoad, hp.1.dst, hu.homeWord_outside hout]
  simp only [State.answerError, hb, hp.1.dst]
  rfl

end

theorem AtHome.farWaiting {s u : State} (h : AtHome s u) (g : Nat) : u.farWaiting g = s.farWaiting g := by rw [h.eq]; rfl

section
variable {s : State} {m : Msg} {vk id slot : Nat} {p : Word} (hp : Performed s m vk)
  (hin : p.toNat % 2 ^ 24 + 8 ≤ s.launchLenOf vk) (hf : s.isFull (lmAddr (s.coreOf vk) ((s.vc vk).base + p.toNat % 2 ^ 24)) = false)
  (hw : (s.vc vk).farWait = [])
include hp hin hf hw

/-- An RLDF of an empty word waits at the core while fewer than 16 wait there, and is turned back otherwise (R197). -/
theorem performLoad_of_empty : (s.takeEv.useBank m).performLoad m id slot p true =
    if s.farWaiting (s.coreOf vk) < 16 then (s.takeEv.useBank m).updVc vk (fun v => { v with
      farWait := v.farWait ++ [⟨m.src, slot, id, p, lmAddr (s.coreOf vk) ((s.vc vk).base + p.toNat % 2 ^ 24)⟩] })
    else (s.takeEv.useBank m).sendBack m (.retry m.body false) := by
  have hu := s.atHome_useBank m
  rw [State.performLoad, hp.1.dst, hu.homeWord hin]
  simp only [hu.isFull, hf, hu.vc, hw, hu.farWaiting, hu.coreOf, List.any_nil, Bool.not_true, Bool.or_self, Bool.false_eq_true, if_false]

end

theorem State.vc_answer (s : State) (h d : Dest) (b : Body) (k : Nat) : (s.answer h d b).vc k = s.vc k := rfl

/-! FAR_WAIT_RELEASE and RLDF_RETRY_REISSUE. -/

theorem exec_farWaitRelease {s : State} {w : FarWait} (hv : s.ev.val = 0) (hlive : (s.vc s.ev.key).live = true)
    (hplace : (s.vc s.ev.key).place.isSome = true) (hcopy : (s.vc s.ev.key).copying = false) (hw : (s.vc s.ev.key).farWait = [w])
    (hf : s.isFull w.addr = true) (hb : s.banksFree s.ev.key (lmBanks w.addr 8) = true) : exec .farWaitRelease s =
      .next (((s.takeBanks s.ev.key (lmBanks w.addr 8)).updVc s.ev.key (fun v => { v with farWait := v.farWait.erase w })).answer
        (.vc s.ev.key) w.src (.loadReply w.id w.slot 0 (Memory.word s.mem w.addr))) := by
  have hready : s.readyWait [w] = some w := by simp [State.readyWait, hf]
  have hnone : (s.vc s.ev.key).place.isNone = false := by simpa using hplace
  have hv1 : (s.ev.val == 1) = false := by rw [hv]; decide
  show execFarWaitRelease s = _
  simp only [execFarWaitRelease, hv1, hlive, hnone, hcopy, hw, hready, hb, Bool.not_true, Bool.or_self, Bool.false_eq_true, if_false]

/-- A request as it is kept after a retry, until cycle due. -/
def keptAgain (vk : Nat) (d : Dest) (b : Body) (due : Nat) : Kept :=
  { msg := { src := .vc vk, dst := d, net := b.net, body := b }, slot := b.slotOf, why := .again due, wide := false, ret := true }

/-- The request that a retry reply brings back to a live virtual core is kept for 64 cycles. -/
theorem exec_rldfRetryReissue {s : State} {m : Msg} {vk : Nat} {b : Body} (hv : s.ev.val = 0) (hm : s.evMsg = some m) (hd : m.dst = .vc vk)
    (hb : m.body = .retry b false) (hh : b.heldOn = none) (hlive : (s.vc vk).live = true) : exec .rldfRetryReissue s =
      .next ((s.takeEv.keepReturned vk m.src b (.again (s.cycOf vk + 64)) false m.resent).stopWenq vk) := by
  have hv1 : (s.ev.val == 1) = false := by rw [hv]; decide
  have hex : s.expiredOn vk b = false := by rw [State.expiredOn, hh]; rfl
  show execRldfRetryReissue s = _
  simp only [execRldfRetryReissue, hv1, State.retryArrives, hm, hd, hb, hlive, hex, bne_self_eq_false, Bool.not_true, Bool.false_eq_true, if_false,
    Option.getD_some]

/-- A virtual core that stops its WENQ keeps every kept request that is no payload, and the networks as they are. -/
theorem State.net_stopWenq (s : State) (vk : Nat) : (s.stopWenq vk).net = s.net := by
  unfold State.stopWenq
  split
  · unfold State.withdrawWenq
    split
    · rfl
    · extract_lets
      split <;> rfl
  · rfl

theorem State.kept_stopWenq {s : State} {vk : Nat} (h : ∀ k ∈ (s.vc vk).kept, ∀ t ix bs, k.msg.body ≠ .enqueue t ix bs) :
    ((s.stopWenq vk).vc vk).kept = (s.vc vk).kept := by
  unfold State.stopWenq
  split
  · unfold State.withdrawWenq
    split
    · rfl
    · extract_lets mine kept
      split
      · rw [State.vc_updVc_self]
        have hmap := FMap.getD_map_comp s.vcs (fun v => { v with holdQ := v.holdQ.filter (fun h => !mine h) }) VCore.kept vk {} (fun _ => rfl)
        refine (congrArg (List.filter (fun k => !kept k)) hmap).trans (List.filter_eq_self.mpr fun k hk => ?_)
        have := h k hk
        have hk0 : kept k = false := by
          dsimp only [kept]
          split
          · next e => exact absurd e (this _ _ _)
          · rfl
        rw [hk0]; rfl
      · rfl
  · rfl

/-! REMOTE_LOAD_REPLY. -/

/-- The slot of a load that is answered. -/
def Slot.loaded (sl : Slot) (err : BitVec 16) (rd : BitVec 5) (v p : Word) (cyc : Nat) : Slot :=
  let sl := if err == 0 then sl.finish rd v else { sl with hold := none, reply := some p }
  ({ sl with rewound := none }).answered cyc

section
variable {sl : Slot} {rd : BitVec 5} {p : Word} (hst : sl.st = .dropped) (ht : sl.trap = none) (v : Word) (cyc : Nat)
include hst ht

theorem Slot.answered_of_dropped : sl.answered cyc = { sl with wakeAt := some (cyc + 4) } := by
  simp only [Slot.answered, hst, ht]

theorem Slot.loaded_zero : sl.loaded 0 rd v p cyc = { sl.finish rd v with rewound := none, wakeAt := some (cyc + 4) } := by
  have h : (sl.finish rd v).st = .dropped ∧ (sl.finish rd v).trap = none := by
    unfold Slot.finish Slot.retireAt Slot.writeX
    split <;> exact ⟨hst, ht⟩
  exact Slot.answered_of_dropped (sl := { sl.finish rd v with rewound := none }) h.1 h.2 cyc

theorem Slot.loaded_error {e : BitVec 16} (he : e ≠ 0) :
    sl.loaded e rd v p cyc = { sl with hold := none, reply := some p, rewound := none, wakeAt := some (cyc + 4) } := by
  have h0 : (e == 0) = false := by simpa using he
  simp only [Slot.loaded, h0, Bool.false_eq_true, if_false]
  exact Slot.answered_of_dropped (sl := { sl with hold := none, reply := some p, rewound := none }) hst ht cyc

theorem Slot.st_loaded (e : BitVec 16) : (sl.loaded e rd v p cyc).st = .dropped := by
  by_cases he : e = 0
  · subst he
    rw [Slot.loaded_zero hst ht]
    unfold Slot.finish Slot.retireAt Slot.writeX
    split <;> exact hst
  · rw [Slot.loaded_error hst ht v cyc he]; exact hst

end

theorem State.recordTrapped_of_st {s : State} {key : Nat} (h : (s.slot key).st ≠ .trapped) : s.recordTrapped key = s := by
  have : ((s.slot key).st == .trapped) = false := by simpa using h
  simp [State.recordTrapped, this]

/-- The reply that a slot expects, in a virtual core without holds, changes that slot alone. -/
theorem exec_remoteLoadReply {s : State} {m : Msg} {vk id slot : Nat} {rd : BitVec 5} {p v : Word} {e : BitVec 16} (hm : s.evMsg = some m)
    (hd : m.dst = .vc vk) (hlive : (s.vc vk).live = true) (hplace : (s.vc vk).place.isSome = true) (hh : (s.vc vk).holds = [])
    (hx : (s.slot (slotKey vk slot)).expects id = some (rd, p)) (hst : (s.slot (slotKey vk slot)).st = .dropped)
    (ht : (s.slot (slotKey vk slot)).trap = none) (hb : m.body = .loadReply id slot e v) : exec .remoteLoadReply s =
      .next (s.takeEv.updSlot (slotKey vk slot) (fun sl => sl.loaded e rd v p (s.cycOf vk))) := by
  have hnone : (s.vc vk).place.isNone = false := by simpa using hplace
  show execRemoteLoadReply s = _
  simp only [execRemoteLoadReply, hm, hd, hb, hlive, hnone, hx, Bool.not_true, Bool.or_self, Bool.false_eq_true, if_false]
  refine congrArg _ ?_
  show ((s.takeEv.updSlot (slotKey vk slot) (fun sl => sl.loaded e rd v p (s.cycOf vk))).recordTrapped (slotKey vk slot)).sweep vk = _
  have hd : ((s.takeEv.updSlot (slotKey vk slot) (fun sl => sl.loaded e rd v p (s.cycOf vk))).slot (slotKey vk slot)).st = .dropped := by
    rw [State.slot_updSlot_self]
    exact Slot.st_loaded hst ht v _ e
  rw [State.recordTrapped_of_st (by rw [hd]; nofun)]
  exact State.sweep_of_no_holds hh

/-- Settles O39: the load leaves and drops its slot, is performed, waits or is turned back at its home, and its reply returns the slot. -/
theorem remoteLoads : Obligations.RemoteLoads := by
  intro s rd rs1 isF m vk id slot p
  dsimp only
  have hi : (if isF then Instr.rldf rd rs1 else .rld rd rs1) = loadInstr isF rd rs1 := rfl
  have trap {c : Nat} {tv : Word} (h : s.remoteLoad (loadInstr isF rd rs1) rd rs1 isF = s.trap c tv) :
      ∃ t, exec (loadInstr isF rd rs1) s = .next t ∧ Trapped s t (BitVec.ofNat 64 c) tv s.me.pc :=
    ⟨_, (exec_loadInstr isF rd rs1).trans (congrArg _ h), s.trapped_trap c tv⟩
  rw [hi]
  refine ⟨?go, fun hr hp => trap (remoteLoad_of_misaligned isF rd rs1 hr hp _), fun hr hp hg => trap (remoteLoad_of_bad isF rd rs1 hr hp hg _),
    fun e hr => trap (remoteLoad_of_reply isF rd rs1 hr _), ?full, ?read, ?waits, ?turned, ?outside, ?release, ?again, ?answer⟩
  case go =>
    intro hr hg hc
    have h := (exec_loadInstr isF rd rs1).trans (congrArg _ (remoteLoad_of_clear isF rd rs1 hr hg hc _))
    have hme := s.me_sentWaiting (f := fun sl => sl.loading (s.nextId + 1) rd isF (s.x rs1)) (fun c => c)
      (Msg.mk (.vc s.vk) (s.target s.vk (s.x rs1)) .request (.load (s.nextId + 1) s.ix (s.x rs1) isF) none false)
    exact ⟨_, h, by rw [hme]; rfl, by rw [hme]; rfl, s.waiting_sentWaiting _ _ rfl, rfl, s.left_sentWaiting _ _ _⟩
  case full =>
    intro hr hg hk hfull
    obtain ⟨k, h⟩ := remoteLoad_of_full isF rd rs1 hr hg hk hfull (loadInstr isF rd rs1)
    exact egressRule_of_withRoom ((exec_loadInstr isF rd rs1).trans (congrArg _ h))
  case read =>
    intro hp hb hin hf
    have hu := s.atHome_useBank m
    exact ⟨_, (exec_remoteLoadAtHome hp hb).trans (congrArg _ (performLoad_of_read hp hin hf)), hu.answered _, hu.mem, hu.full, hu.slots⟩
  case waits =>
    intro hp hb hin hf hw hroom
    have hu := s.atHome_useBank m
    refine ⟨_, (exec_remoteLoadAtHome hp hb).trans (congrArg _ (performLoad_of_empty hp hin hf hw)), ?_⟩
    rw [if_pos hroom]
    refine ⟨?_, hu.net, hu.mem⟩
    rw [State.vc_updVc_self, hu.vc]
    simp only [hw, List.nil_append]
  case turned =>
    intro hp hb hin hf hw hroom
    have hu := s.atHome_useBank m
    refine ⟨_, (exec_remoteLoadAtHome hp hb).trans (congrArg _ (performLoad_of_empty hp hin hf hw)), ?_⟩
    rw [if_neg (by omega)]
    exact ⟨hu.vcs, hu.mem, congrArg (· ++ _) hu.net⟩
  case outside =>
    intro hp hb hout
    have hu := s.atHome_useBank m
    exact ⟨_, (exec_remoteLoadAtHome hp hb).trans (congrArg _ (performLoad_outside hp hb hout)), hu.answered _, hu.mem⟩
  case release =>
    intro w hv hlive hplace hcopy hw hf hb
    refine ⟨_, exec_farWaitRelease hv hlive hplace hcopy hw hf hb, ?_, rfl, rfl⟩
    rw [State.vc_answer, State.vc_updVc_self]
    show (s.vc s.ev.key).farWait.erase w = []
    rw [hw, List.erase_cons_head]
  case again =>
    rintro b hv hm hd rfl hb hlive hk
    have hkept : ((s.takeEv.keepReturned vk m.src (.load id slot p true) (.again (s.cycOf vk + 64)) false m.resent).vc vk).kept =
        [keptAgain vk m.src (.load id slot p true) (s.cycOf vk + 64)] := by
      rw [State.keepReturned, State.vc_updVc_self]
      show insertReturned m.resent _ (s.vc vk).kept = _
      rw [hk]; rfl
    refine ⟨_, keptAgain vk m.src (.load id slot p true) (s.cycOf vk + 64), exec_rldfRetryReissue hv hm hd hb rfl hlive, ?_, rfl, rfl, rfl, ?_⟩
    · rw [State.kept_stopWenq, hkept]
      rw [hkept]
      intro k hk t ix bs
      rw [List.mem_singleton.mp hk]
      nofun
    · rw [State.net_stopWenq]; rfl
  case answer =>
    intro hm hd hlive hplace hh hx hst ht
    have self (F : Slot → Slot) : (s.takeEv.updSlot (slotKey vk slot) F).slot (slotKey vk slot) = F (s.slot (slotKey vk slot)) :=
      s.takeEv.slot_updSlot_self _ _
    refine ⟨fun v hb => ⟨_, exec_remoteLoadReply hm hd hlive hplace hh hx hst ht hb, ?_, ?_, ?_, ?_,
        fun j hj => s.takeEv.slot_updSlot_ne _ hj, rfl⟩,
      fun e v he hb => ⟨_, exec_remoteLoadReply hm hd hlive hplace hh hx hst ht hb, ?_⟩⟩
    · intro r
      rw [self, Slot.loaded_zero hst ht]
      show ((s.slot (slotKey vk slot)).finish rd v).readX r = _
      rw [Slot.finish, Slot.readX_retireAt, Slot.readX_writeX]
    · rw [self, Slot.loaded_zero hst ht]; rfl
    · rw [self, Slot.loaded_zero hst ht]; rfl
    · rw [self, Slot.loaded_zero hst ht]
    · rw [self, Slot.loaded_error hst ht v _ he]
      exact ⟨rfl, rfl, rfl, rfl, rfl⟩

end Sys2Proof.Machine
end

section
/-! PROOFS. Remote atomics (R194, R205, R206). -/

namespace Sys2Proof.Machine

open Sys2Proof.Claim

/-! At their slot. -/

theorem State.updCore_updCore (s : State) (k : Nat) (f g : PCore → PCore) : (s.updCore k f).updCore k g = s.updCore k (fun c => g (f c)) := by
  unfold State.updCore State.setCore State.core
  simp only [FMap.getD_set_self, FMap.set_set]

/-- The core after it has taken its next sequence id for a home. -/
def PCore.tookSeq (c : PCore) (home : Nat) : PCore := { c with seqs := FMap.set c.seqs home ((FMap.getD c.seqs home 0 + 1) % 65536) }

section
variable {s : State} (i : Instr) (op : AtomicOp) (rd rs2 rs1 : XReg) (cmp : Word) (hh : ∀ j r p, s.me.hold ≠ some (.atomic j r p))
include hh

theorem remoteAtomic_withPtr : ∃ k, s.remoteAtomic i op rd rs2 rs1 cmp = s.withPtr (s.x rs1) false k := by
  unfold State.remoteAtomic
  split
  · next j r p h => exact absurd h (hh j r p)
  · exact ⟨_, rfl⟩

theorem remoteAtomic_of_clear (hg : Good (s.x rs1)) (hc : Clear s) : s.remoteAtomic i op rd rs2 rs1 cmp =
    s.sentWaiting (fun sl => { sl with hold := some (.atomic (s.nextId + 1) rd (s.x rs1)) })
      (fun c => c.tookSeq (destKey (s.target s.vk (s.x rs1))))
      (Msg.mk (.vc s.vk) (s.target s.vk (s.x rs1)) .request (.atomic (s.nextId + 1) s.ix
        (FMap.getD (s.core (s.coreOf s.vk)).seqs (destKey (s.target s.vk (s.x rs1))) 0) (s.coreOf s.vk) (s.x rs1) op (s.x rs2) cmp false)
        none false) := by
  unfold State.remoteAtomic
  split
  · next j r p h => exact absurd h (hh j r p)
  · simp only [s.withPtr_of_good _ _ hg, State.canSend_of_clear hc, State.withRoom, if_true]
    refine (State.emit_of_kept_nil (vk := s.vk) ?_ ..).trans ?_
    · exact hc.1
    · exact State.updCore_updCore (({ s with nextId := s.nextId + 1 }).updMe
        (fun sl => { sl with hold := some (.atomic (s.nextId + 1) rd (s.x rs1)) })) (s.coreOf s.vk)
        (fun c => { c with seqs := FMap.set c.seqs (destKey (s.target s.vk (s.x rs1))) <|
          ((FMap.getD (s.core (s.coreOf s.vk)).seqs (destKey (s.target s.vk (s.x rs1))) 0 + 1) % 65536) })
        (fun c => { c with egress := c.egress ++ [_] })

end

/-- An instruction that is a remote atomic. -/
theorem atomicIssued_of_exec {s : State} {i : Instr} {op : AtomicOp} {rd rs2 rs1 : XReg} {c : Word}
    (hi : exec i s = .next (s.remoteAtomic i op rd rs2 rs1 c)) (hh : ∀ j r p, s.me.hold ≠ some (.atomic j r p)) (hg : Good (s.x rs1))
    (hc : Clear s) : ∃ t, exec i s = .next t ∧ t.me.hold = some (.atomic (s.nextId + 1) rd (s.x rs1)) ∧ t.me.st = s.me.st ∧ Waiting s t ∧
      t.vcs = s.vcs ∧ FMap.getD (t.core (s.coreOf s.vk)).seqs (destKey (s.target s.vk (s.x rs1))) 0 =
        (FMap.getD (s.core (s.coreOf s.vk)).seqs (destKey (s.target s.vk (s.x rs1))) 0 + 1) % 65536 ∧
      Left s t (s.target s.vk (s.x rs1)) (.atomic (s.nextId + 1) s.ix
        (FMap.getD (s.core (s.coreOf s.vk)).seqs (destKey (s.target s.vk (s.x rs1))) 0) (s.coreOf s.vk) (s.x rs1) op (s.x rs2) c false) := by
  refine ⟨_, hi.trans (congrArg _ (remoteAtomic_of_clear i op rd rs2 rs1 c hh hg hc)), ?_, ?_, State.waiting_sentWaiting s _ _ rfl, rfl, ?_,
    State.left_sentWaiting s _ _ _⟩
  · rw [State.me_sentWaiting]
  · rw [State.me_sentWaiting]
  · rw [State.core_sentWaiting]
    exact FMap.getD_set_self ..

/-! At their home. -/

/-- The new word of an atomic by its operation (R205). -/
def atomicWord (op : AtomicOp) (old v cmp : Word) : Word :=
  match op with
  | .add => old + v
  | .fadd => (fmt32.add .rne (old.toNat % 2 ^ 32) (v.toNat % 2 ^ 32)).1 +
      (fmt32.add .rne (old.toNat / 2 ^ 32) (v.toNat / 2 ^ 32)).1 * 2 ^ 32 |> BitVec.ofNat 64
  | .min => if old.toInt < v.toInt then old else v
  | .max => if old.toInt < v.toInt then v else old
  | .swap => v
  | .cas => if old = cmp then v else old

theorem high_word_mod (w : Word) : w.toNat / 2 ^ 32 % 2 ^ 32 = w.toNat / 2 ^ 32 := by
  have := w.isLt
  exact Nat.mod_eq_of_lt (by omega)

theorem atomicNew_fadd (old v cmp : Word) : atomicNew .fadd old v cmp = (atomicWord .fadd old v cmp,
    (fmt32.add .rne (old.toNat % 2 ^ 32) (v.toNat % 2 ^ 32)).2 ||| (fmt32.add .rne (old.toNat / 2 ^ 32) (v.toNat / 2 ^ 32)).2) := by
  simp only [atomicNew, faddLane, high_word_mod, atomicWord]

theorem atomicNew_of_ne_fadd {op : AtomicOp} (h : op ≠ .fadd) (old v cmp : Word) : atomicNew op old v cmp = (atomicWord op old v cmp, 0) := by
  cases op with
  | fadd => exact absurd rfl h
  | cas => simp only [atomicNew, atomicWord, beq_iff_eq]
  | min => simp only [atomicNew, atomicWord, BitVec.slt, decide_eq_true_eq]
  | max => simp only [atomicNew, atomicWord, BitVec.slt, decide_eq_true_eq]
  | _ => rfl

theorem fst_atomicNew (op : AtomicOp) (old v cmp : Word) : (atomicNew op old v cmp).1 = atomicWord op old v cmp := by
  by_cases h : op = .fadd
  · rw [h, atomicNew_fadd]
  · rw [atomicNew_of_ne_fadd h]

/-- The result just added is found first. -/
theorem find_cacheAdd (c : FMap ReplyCache) (src seq stamp : Nat) (v : Word) (fl : BitVec 5) :
    (FMap.getD (cacheAdd c src seq stamp v fl) src {}).results.find? (fun r => r.1 == seq) = some (seq, v, fl) := by
  simp only [cacheAdd, FMap.getD_set_self, List.take_succ_cons, List.find?_cons, beq_self_eq_true]

/-- An atomic executed on the word at a, its result kept for its source core and answered. -/
def State.executeAtomic (u : State) (m : Msg) (vk a id slot seq core : Nat) (op : AtomicOp) (v cmp : Word) : State :=
  let old := Memory.word u.mem a
  let r := atomicNew op old v cmp
  ((({ u with nextId := u.nextId + 1 }).land a (bytesOf r.1.toNat 8)).updVc vk
    (fun x => { x with cache := cacheAdd (u.vc vk).cache (sourceCore m.src core) seq (u.nextId + 1) old r.2 })).answer m.dst m.src
    (.atomicReply id slot 0 old r.2)

@[simp] theorem State.answer_mem (s : State) (h d : Dest) (b : Body) : (s.answer h d b).mem = s.mem := rfl
@[simp] theorem State.answer_full (s : State) (h d : Dest) (b : Body) : (s.answer h d b).full = s.full := rfl
@[simp] theorem State.answer_net (s : State) (h d : Dest) (b : Body) : (s.answer h d b).net = s.net ++ [Msg.mk h d b.net b none false] := rfl

theorem State.net_of_land_rest {s u : State} (h : { u with mem := s.mem, slots := s.slots, cores := s.cores } = s) : u.net = s.net :=
  (congrArg State.net h :)

theorem State.net_land (s : State) (a : Nat) (bs : List Byte) : (s.land a bs).net = s.net := State.net_of_land_rest (s.land_rest a bs)

section
variable {s : State} {m : Msg} {vk id slot seq core : Nat} {p v cmp : Word} {op : AtomicOp} {dup : Bool} (hp : Performed s m vk)
  (hb : m.body = .atomic id slot seq core p op v cmp dup)
include hp hb

theorem exec_remoteAtomicAtHome :
    exec .remoteAtomicAtHome s = .next ((s.takeEv.useBank m).performAtomic m id slot seq core p op v cmp dup) := by
  show execRemoteAtomicAtHome s = _
  simp only [execRemoteAtomicAtHome, State.evAccess_of_performed hp, hb]
  rw [State.arriveAccess_of_arrives hp.1 (by rw [hb]; rfl)]
  simp only [State.perform, hb]

theorem performAtomic_outside (hout : s.launchLenOf vk < p.toNat % 2 ^ 24 + 8) :
    (s.takeEv.useBank m).performAtomic m id slot seq core p op v cmp dup =
      (s.takeEv.useBank m).answer m.dst m.src (.atomicReply id slot 1 0 0) := by
  have hu := s.atHome_useBank m
  unfold State.performAtomic
  simp only [hp.1.dst, hu.homeWord_outside hout, State.answerError, hb]

end

section
variable {s : State} {m : Msg} {vk : Nat} {p : Word} (hp : Performed s m vk) (hin : p.toNat % 2 ^ 24 + 8 ≤ s.launchLenOf vk)
  (id slot seq core : Nat) (v cmp : Word) (op : AtomicOp)
include hp hin

/-- A repeated request is answered from the cache of its home. -/
theorem performAtomic_cached {w : Word} {fl : BitVec 5}
    (h : (FMap.getD (s.vc vk).cache (sourceCore m.src core) {}).results.find? (fun r => r.1 == seq) = some (seq, w, fl)) :
    (s.takeEv.useBank m).performAtomic m id slot seq core p op v cmp true =
      (s.takeEv.useBank m).answer m.dst m.src (.atomicReply id slot 0 w fl) := by
  have hu := s.atHome_useBank m
  unfold State.performAtomic
  simp only [hp.1.dst, hu.homeWord hin, State.cacheOf, hu.vc, h]

/-- One that the cache no longer holds is answered as lost. -/
theorem performAtomic_lost
    (h : (FMap.getD (s.vc vk).cache (sourceCore m.src core) {}).results.find? (fun r => r.1 == seq) = none) :
    (s.takeEv.useBank m).performAtomic m id slot seq core p op v cmp true =
      (s.takeEv.useBank m).answer m.dst m.src (.atomicReply id slot 2 0 0) := by
  have hu := s.atHome_useBank m
  unfold State.performAtomic
  simp only [hp.1.dst, hu.homeWord hin, State.cacheOf, hu.vc, h]

/-- A new request is executed, and its result is kept for its source core. -/
theorem performAtomic_new : (s.takeEv.useBank m).performAtomic m id slot seq core p op v cmp false =
    (s.takeEv.useBank m).executeAtomic m vk (lmAddr (s.coreOf vk) ((s.vc vk).base + p.toNat % 2 ^ 24)) id slot seq core op v cmp := by
  have hu := s.atHome_useBank m
  unfold State.performAtomic
  simp only [hp.1.dst, hu.homeWord hin, State.executeAtomic, State.cacheOf, State.freshId, State.setCache]

end

section
variable {s u : State} (h : AtHome s u) (m : Msg) (vk a id slot seq core : Nat) (op : AtomicOp) (v cmp : Word)
include h

theorem AtHome.stored_executeAtomic :
    Stored s (u.executeAtomic m vk a id slot seq core op v cmp) a 8 (atomicWord op (Memory.word s.mem a) v cmp).toNat := by
  intro j
  rw [State.executeAtomic, State.answer_mem, State.updVc_mem, fst_atomicNew, State.mem_land, Memory.setBytes_bytesOf, Memory.read_writeN, h.mem]

theorem AtHome.full_executeAtomic : (u.executeAtomic m vk a id slot seq core op v cmp).full = s.full := by
  rw [State.executeAtomic, State.answer_full, State.updVc_full, State.full_land]
  exact h.full

theorem AtHome.answered_executeAtomic : Claim.Answered s (u.executeAtomic m vk a id slot seq core op v cmp) m
    (.atomicReply id slot 0 (Memory.word s.mem a) (atomicNew op (Memory.word s.mem a) v cmp).2) := by
  rw [State.executeAtomic, Claim.Answered, State.answer_net, State.updVc_net, State.net_land, ← h.net, h.mem]

theorem AtHome.cache_executeAtomic : ((FMap.getD ((u.executeAtomic m vk a id slot seq core op v cmp).vc vk).cache (sourceCore m.src core) {}).results.find?
    (fun r => r.1 == seq)) = some (seq, Memory.word s.mem a, (atomicNew op (Memory.word s.mem a) v cmp).2) := by
  rw [State.executeAtomic, State.vc_answer, State.vc_updVc_self, ← h.mem]
  exact find_cacheAdd ..

end

/-! The reply. -/

theorem Slot.fflags_finish (sl : Slot) (rd : BitVec 5) (v : Word) : (sl.finish rd v).fflags = sl.fflags := by
  unfold Slot.finish Slot.writeX
  split <;> rfl

/-- The slot of a remote atomic that is answered with status st. -/
def Slot.atomicAnswered (sl : Slot) (st : Nat) (rd : BitVec 5) (w : Word) (fl : BitVec 5) (p : Word) : Slot :=
  match st with
  | 0 => ({ sl with fflags := sl.fflags ||| fl }).finish rd w
  | 1 => sl.enter sl.pc 7 p
  | _ => sl.enter sl.pc 28 p

theorem exec_remoteAtomicReply {s : State} {m : Msg} {vk id slot st : Nat} {rd : BitVec 5} {p w : Word} {fl : BitVec 5}
    (hm : s.evMsg = some m) (hd : m.dst = .vc vk) (hb : m.body = .atomicReply id slot st w fl)
    (hold : (s.slot (slotKey vk slot)).hold = some (.atomic id rd p)) (hh : (s.vc vk).holds = []) : exec .remoteAtomicReply s =
      .next (s.takeEv.updSlot (slotKey vk slot) (fun sl => sl.atomicAnswered st rd w fl p)) := by
  show execRemoteAtomicReply s = _
  simp only [execRemoteAtomicReply, hm, hd, hb, hold, bne_self_eq_false, Bool.false_eq_true, if_false]
  exact congrArg _ (State.sweep_of_no_holds (s := s.takeEv.updSlot (slotKey vk slot) (fun sl => sl.atomicAnswered st rd w fl p)) hh)

/-- The six instructions are one, with their operation and the word that a compare takes. -/
theorem exec_remoteAtomic {s : State} {rd rs2 rs1 rs3 : XReg} : ∀ i ∈ ([.ramoAdd rd rs2 rs1, .ramoFadd rd rs2 rs1, .ramoMin rd rs2 rs1,
    .ramoMax rd rs2 rs1, .ramoSwap rd rs2 rs1, .ramoCas rd rs2 rs1 rs3] : List Instr),
    ∃ op c, exec i s = .next (s.remoteAtomic i op rd rs2 rs1 c) := by
  intro i hi
  simp only [List.mem_cons, List.not_mem_nil, or_false] at hi
  rcases hi with rfl | rfl | rfl | rfl | rfl | rfl <;> exact ⟨_, _, rfl⟩

/-- Settles O45: each instruction sends its atomic under the next sequence id, the home executes a new one and answers a repeated one from its
cache, and the reply completes the slot or traps it. -/
theorem remoteAtomics : Obligations.RemoteAtomics := by
  intro s rd rs2 rs1 rs3 m vk id slot seq core p v cmp
  refine ⟨atomicIssued_of_exec rfl, atomicIssued_of_exec rfl, atomicIssued_of_exec rfl, atomicIssued_of_exec rfl, atomicIssued_of_exec rfl,
    atomicIssued_of_exec rfl, ?new, ?cached, ?lost, ?outside, ?traps, ?reply⟩
  case new =>
    intro op hp hb hin
    have hu := s.atHome_useBank m
    refine ⟨_, _, (exec_remoteAtomicAtHome hp hb).trans (congrArg _ (performAtomic_new hp hin ..)), ?_, hu.full_executeAtomic ..,
      hu.answered_executeAtomic .., ?_, ?_, hu.cache_executeAtomic ..⟩
    · have := hu.stored_executeAtomic m vk (lmAddr (s.coreOf vk) ((s.vc vk).base + p.toNat % 2 ^ 24)) id slot seq core op v cmp
      cases op <;> exact this
    · intro hne; rw [atomicNew_of_ne_fadd hne]
    · rintro rfl; rw [atomicNew_fadd]
  case cached =>
    intro op w fl hp hb hin hseen
    have hu := s.atHome_useBank m
    exact ⟨_, (exec_remoteAtomicAtHome hp hb).trans (congrArg _ (performAtomic_cached hp hin id slot seq core v cmp op hseen)), hu.mem, hu.vcs,
      hu.answered _⟩
  case lost =>
    intro op hp hb hin hseen
    have hu := s.atHome_useBank m
    exact ⟨_, (exec_remoteAtomicAtHome hp hb).trans (congrArg _ (performAtomic_lost hp hin id slot seq core v cmp op hseen)), hu.mem,
      hu.answered _⟩
  case outside =>
    intro op dup hp hb hout
    have hu := s.atHome_useBank m
    exact ⟨_, (exec_remoteAtomicAtHome hp hb).trans (congrArg _ (performAtomic_outside hp hb hout)), hu.mem, hu.answered _⟩
  case traps =>
    intro i hi hh
    obtain ⟨op, c, he⟩ := exec_remoteAtomic (s := s) i hi
    obtain ⟨k, hk⟩ := remoteAtomic_withPtr i op rd rs2 rs1 c hh
    exact ptrTraps_of_withPtr (he.trans (congrArg _ hk))
  case reply =>
    intro st w fl hm hd hb hold hh
    have self := s.takeEv.slot_updSlot_self (slotKey vk slot) (fun sl => sl.atomicAnswered st rd w fl p)
    refine ⟨?_, ?_⟩
    · rintro rfl
      refine ⟨_, exec_remoteAtomicReply hm hd hb hold hh, ?_⟩
      rw [self]
      refine ⟨rfl, Slot.fflags_finish .., fun r => ?_, rfl⟩
      show (({ s.slot (slotKey vk slot) with fflags := (s.slot (slotKey vk slot)).fflags ||| fl }).finish rd w).readX r = _
      rw [Slot.finish, Slot.readX_retireAt, Slot.readX_writeX]
      rfl
    · rintro (rfl | rfl) <;> refine ⟨_, exec_remoteAtomicReply hm hd hb hold hh, ?_⟩ <;> rw [self] <;> exact ⟨rfl, rfl, rfl, rfl, rfl, rfl⟩

end Sys2Proof.Machine
end

section
/-! PROOFS. Write with enqueue: from its engine to its target (R214). -/

namespace Sys2Proof.Machine

open Sys2Proof.Claim

/-! The engine takes its next WENQ. -/

theorem ring_popQueue (s : State) (vk e ix : Nat) : (s.popQueue vk e).ring vk ix = s.ring vk ix := by
  rw [State.ring, State.popQueue, State.vc_updVc_self]; rfl

theorem slotBytes_popQueue (s : State) (vk e ix k n : Nat) : (s.popQueue vk e).slotBytes vk ix k n = s.slotBytes vk ix k n := by
  have hcore : (s.popQueue vk e).coreOf vk = s.coreOf vk := by rw [State.coreOf, State.popQueue, State.vc_updVc_self]; rfl
  rw [State.slotBytes, State.ringAddr, ring_popQueue, hcore]; rfl

/-- The state after the engine has sent the head slot of its ring to d. -/
def State.sentPayload (s : State) (vk : Nat) (q : QEntry) (d : Dest) : State :=
  ((s.popQueue vk 3).setRun vk 3 { entry := q, sent := true }).send (Msg.mk (.vc vk) d .request
    (.enqueue ⟨q.id, q.slot, q.nb⟩ (q.op.toNat % 64) (s.slotBytes vk (q.ra.getD 0) 0 (s.ring vk (q.ra.getD 0)).size)) none false)

theorem wenqStep_of_ring {s : State} {vk : Nat} {q : QEntry} {rest : List QEntry} {a : Access} {d : Dest} (hcan : s.wenqCanStep vk = true)
    (hq : (s.vc vk).queueOf 3 = q :: rest) (hh : tgtHbm q.op = false) (ha : (s.vc vk).unacked.find? (fun a => a.id == q.id) = some a)
    (hd : a.dests = [d]) : s.wenqStep vk = s.sentPayload vk q d := by
  have hun : ((s.popQueue vk 3).vc vk).unacked = (s.vc vk).unacked := by rw [State.popQueue, State.vc_updVc_self]
  have hix : tgtIx q.op = q.op.toNat % 64 := by simp [tgtIx, bits]
  simp only [State.wenqStep, hcan, hq, hh, Bool.false_eq_true, if_false, hun, ha, Option.bind_some, hd, List.head?_cons, Option.getD_some,
    State.payload, ring_popQueue, slotBytes_popQueue, hix, State.sentPayload]

theorem queueOf_sentPayload {s : State} {vk : Nat} {q : QEntry} {rest : List QEntry} (hq : (s.vc vk).queueOf 3 = q :: rest) (d : Dest) :
    ((s.sentPayload vk q d).vc vk).queueOf 3 = rest := by
  show (((s.popQueue vk 3).setRun vk 3 { entry := q, sent := true }).vc vk).queueOf 3 = rest
  rw [State.setRun, State.vc_updVc_self, State.popQueue, State.vc_updVc_self]
  show FMap.getD (FMap.set _ 3 _) 3 [] = rest
  rw [FMap.getD_set_self, hq]; rfl

/-! The payload at its target. -/

theorem State.mem_advTail (s : State) (vk ix k : Nat) : (s.advTail vk ix k).mem = s.mem := rfl
theorem State.net_advTail (s : State) (vk ix k : Nat) : (s.advTail vk ix k).net = s.net := rfl
theorem State.ring_answer (s : State) (h d : Dest) (b : Body) (vk ix : Nat) : (s.answer h d b).ring vk ix = s.ring vk ix := rfl

theorem State.vcs_of_land_rest {s u : State} (h : { u with mem := s.mem, slots := s.slots, cores := s.cores } = s) : u.vcs = s.vcs :=
  (congrArg State.vcs h :)

theorem State.vcs_land (s : State) (a : Nat) (bs : List Byte) : (s.land a bs).vcs = s.vcs := State.vcs_of_land_rest (s.land_rest a bs)

theorem State.ring_land (s : State) (a : Nat) (bs : List Byte) (vk ix : Nat) : (s.land a bs).ring vk ix = s.ring vk ix := by
  rw [State.ring, State.vc, State.vcs_land]; rfl

theorem State.atHome_usePayload (s : State) (vk : Nat) (m : Msg) : AtHome s (s.takeEv.usePayload vk m) := by
  have hsame : AtHome s s.takeEv := ⟨rfl, rfl⟩
  unfold State.usePayload
  split
  · split
    · exact s.atHome_useBank m
    · exact hsame
  · exact hsame

section
variable {s u : State} (h : AtHome s u) (vk ix : Nat)
include h

theorem AtHome.ring : u.ring vk ix = s.ring vk ix := by rw [State.ring, h.vc, State.ring]
theorem AtHome.ringAddr (i : Nat) : u.ringAddr vk ix i = s.ringAddr vk ix i := by rw [State.ringAddr, h.coreOf, h.ring, State.ringAddr]
theorem AtHome.wenqUsable (n : Nat) : u.wenqUsable vk ix n = s.wenqUsable vk ix n := by rw [State.wenqUsable, h.ring, State.wenqUsable]
theorem AtHome.wenqRoom : u.wenqRoom vk ix = s.wenqRoom vk ix := by rw [State.wenqRoom, h.ring, State.wenqRoom]

end

theorem State.wenqUsable_iff (s : State) (vk ix n : Nat) :
    s.wenqUsable vk ix n = true ↔ (s.ring vk ix).valid = true ∧ (s.ring vk ix).kind = 0 ∧ n ≤ (s.ring vk ix).size := by
  simp [State.wenqUsable, and_assoc]

section
variable {s : State} {m : Msg} {vk ix : Nat} {tg : Tag} {bs : List Byte} (hv : s.ev.val = 1) (hp : Performed s m vk)
  (hb : m.body = .enqueue tg ix bs)
include hv hp hb

theorem exec_wenqDelivery_arrives : exec .wenqDelivery s = .next ((s.takeEv.usePayload vk m).wenqArrive m vk tg.id tg.slot ix bs) := by
  have h1 : s.ev.val.toNat = 1 := by rw [hv]; rfl
  show execWenqDelivery s = _
  simp only [execWenqDelivery, h1, State.evAccess_of_performed hp, hp.1.dst, hb, State.gate_of_arrives hp.1]

end

section
variable {s u : State} (h : AtHome s u) {m : Msg} {vk ix : Nat} (id slot : Nat) {bs : List Byte}
include h

/-- A ring that can never take the payload refuses it with WQU. -/
theorem wenqArrive_unusable (hn : s.wenqUsable vk ix bs.length = false) :
    u.wenqArrive m vk id slot ix bs = u.answer m.dst m.src (.ack id slot 32 false) := by
  simp only [State.wenqArrive, h.wenqUsable, hn, Bool.not_false, if_true]
  rfl

/-- One with room takes it at its tail. -/
theorem wenqArrive_room (hu : s.wenqUsable vk ix bs.length = true) (hr : (s.ring vk ix).fill < (s.ring vk ix).count) :
    u.wenqArrive m vk id slot ix bs =
      ((u.land (s.ringAddr vk ix (s.ring vk ix).tail) bs).advTail vk ix 1).answer m.dst m.src (.ack id slot 0 false) := by
  have hroom : s.wenqRoom vk ix = true := decide_eq_true hr
  simp only [State.wenqArrive, h.wenqUsable, hu, h.wenqRoom, hroom, Bool.not_true, Bool.false_eq_true, if_false, if_true, State.wenqPut, h.ringAddr,
    h.ring]

/-- At a full one it waits in the hold queue, when its source is not frozen. -/
theorem wenqArrive_full (hu : s.wenqUsable vk ix bs.length = true) (hr : (s.ring vk ix).count ≤ (s.ring vk ix).fill)
    (hq : (s.vc vk).holdQ.length < 32) (hf : ∀ j, m.src = .vc j → (s.vc j).frozen = false) :
    u.wenqArrive m vk id slot ix bs = u.updVc vk (fun v => { v with holdQ := v.holdQ ++ [⟨m, none, true, false⟩] }) := by
  have hroom : s.wenqRoom vk ix = false := decide_eq_false (by omega)
  have hlen : ¬ 32 ≤ (s.vc vk).holdQ.length := by omega
  simp only [State.wenqArrive, h.wenqUsable, hu, h.wenqRoom, hroom, Bool.not_true, Bool.false_eq_true, if_false, h.vc, hlen]
  split
  · next k hk =>
    have hfk : ((u.updVc vk (fun v => { v with holdQ := v.holdQ ++ [⟨m, none, true, false⟩] })).vc k).frozen = false := by
      rw [State.vc_updVc]
      split
      · next e => rw [h.vc]; exact e ▸ hf k hk
      · rw [h.vc]; exact hf k hk
    rw [if_neg (by rw [hfk]; nofun)]
  · rfl

end

/-- Settles O46: the engine sends the head slot, and its target writes it, refuses it or holds it. -/
theorem writeWithEnqueue : Obligations.WriteWithEnqueue := by
  intro s m vk ix tg bs q rest
  refine ⟨?step, ?put, ?refused, ?held⟩
  case step =>
    intro d a hv hcan hq hh ha hd
    have h0 : exec .wenqDelivery s = .next (s.wenqStep s.ev.key) := by
      have hv0 : s.ev.val.toNat = 0 := by rw [hv]; rfl
      show execWenqDelivery s = _
      simp only [execWenqDelivery, hv0]
    exact ⟨_, h0.trans (congrArg _ (wenqStep_of_ring hcan hq hh ha hd)), queueOf_sentPayload hq d, rfl, rfl, rfl⟩
  case put =>
    rintro ⟨hv, hp, hb⟩ hu hr
    have hhome := s.atHome_usePayload vk m
    refine ⟨_, (exec_wenqDelivery_arrives hv hp hb).trans (congrArg _ (wenqArrive_room hhome tg.id tg.slot ((s.wenqUsable_iff vk ix _).mpr hu) hr)),
      ?_, ?_, ?_, ?_⟩
    · rw [State.answer_mem, State.mem_advTail, State.mem_land, Memory.bytes_setBytes]
    · intro j hj
      rw [State.answer_mem, State.mem_advTail, State.mem_land, Memory.read_setBytes, if_neg (by omega), hhome.mem]
    · rw [State.ring_answer, State.ring_advTail, if_pos rfl, State.ring_land, hhome.ring]
    · rw [Claim.Answered, State.answer_net, State.net_advTail, State.net_land, hhome.net]
  case refused =>
    rintro ⟨hv, hp, hb⟩ hn
    have hhome := s.atHome_usePayload vk m
    have hn' : s.wenqUsable vk ix bs.length = false := by
      rw [Bool.eq_false_iff]
      exact fun hu => hn ((s.wenqUsable_iff vk ix _).mp hu)
    exact ⟨_, (exec_wenqDelivery_arrives hv hp hb).trans (congrArg _ (wenqArrive_unusable hhome tg.id tg.slot hn')), hhome.mem, hhome.vcs,
      hhome.answered _⟩
  case held =>
    rintro ⟨hv, hp, hb⟩ hu hr hq hf
    have hhome := s.atHome_usePayload vk m
    refine ⟨_, (exec_wenqDelivery_arrives hv hp hb).trans (congrArg _
      (wenqArrive_full hhome tg.id tg.slot ((s.wenqUsable_iff vk ix _).mpr hu) hr hq hf)), ?_, hhome.mem⟩
    rw [State.vc_updVc_self, hhome.vc]

end Sys2Proof.Machine
end

section
/-! PROOFS. What follows an acknowledgement or an expiry: closes and fences that settle, tokens that land or expire, kept requests that leave
(R200, R203, R209, R213). -/

namespace Sys2Proof.Machine

open Sys2Proof.Claim

/-! The relation that all of it keeps. -/

/-- The entry names a store that is out. -/
def Token.isOut (t : Token) : Bool := t.valid && t.st == TokState.pending

/-- Of a virtual core no more than accesses, kept requests, tokens, batches and closes change: no access is added, no token but one whose
store is out changes, and a batch loses no error bit. -/
structure VCore.Eased (v w : VCore) : Prop where
  rest : { w with kept := v.kept, unacked := v.unacked, batches := v.batches, closes := v.closes, tokens := v.tokens, owed := v.owed } = v
  unacked : ∀ a ∈ w.unacked, a ∈ v.unacked
  tokens : ∀ e, (FMap.getD v.tokens e {}).isOut = false → FMap.getD w.tokens e {} = FMap.getD v.tokens e {}
  bits : ∀ (j : Nat) (hj : j < 4) (i : Nat), (v.batches[j]).bits.getLsbD i = true → (w.batches[j]).bits.getLsbD i = true

theorem VCore.Eased.refl (v : VCore) : v.Eased v := ⟨rfl, fun _ h => h, fun _ _ => rfl, fun _ _ _ h => h⟩

theorem VCore.Eased.trans {v w x : VCore} (h : v.Eased w) (k : w.Eased x) : v.Eased x where
  rest := by
    have hw : w = { v with kept := w.kept, unacked := w.unacked, batches := w.batches, closes := w.closes, tokens := w.tokens, owed := w.owed } := by
      rw [← h.rest]
    have hx : x = { w with kept := x.kept, unacked := x.unacked, batches := x.batches, closes := x.closes, tokens := x.tokens, owed := x.owed } := by
      rw [← k.rest]
    rw [hx, hw]
  unacked a ha := h.unacked a (k.unacked a ha)
  tokens e he := by
    have h1 := h.tokens e he
    rw [k.tokens e (by rw [h1]; exact he), h1]
  bits j hj i hi := k.bits j hj i (h.bits j hj i hi)

/-- A slot keeps the fault that waits in p30, and one that waits for nothing stays as it is but for token faults that are noted and a time at
which it may leave PARKED. -/
structure Slot.Noted (a b : Slot) : Prop where
  p30 : b.p30 = a.p30
  quiet : a.hold = none → { b with p27 := a.p27, wakeAt := a.wakeAt } = a ∧ ∀ n ∈ a.p27, n ∈ b.p27

theorem Slot.Noted.refl (a : Slot) : a.Noted a := ⟨rfl, fun _ => ⟨rfl, fun _ h => h⟩⟩

theorem Slot.Noted.trans {a b c : Slot} (h : a.Noted b) (k : b.Noted c) : a.Noted c := by
  refine ⟨k.p30.trans h.p30, fun ha => ?_⟩
  obtain ⟨hb, hpb⟩ := h.quiet ha
  have hbhold : b.hold = a.hold := (congrArg Slot.hold hb :)
  obtain ⟨hc, hpc⟩ := k.quiet (hbhold.trans ha)
  refine ⟨?_, fun n hn => hpc n (hpb n hn)⟩
  have hb' : b = { a with p27 := b.p27, wakeAt := b.wakeAt } := by rw [← hb]
  have hc' : c = { b with p27 := c.p27, wakeAt := c.wakeAt } := by rw [← hc]
  rw [hc', hb']

/-- Waking changes the wake time alone. -/
theorem Slot.noted_wake (sl : Slot) (p : Await → Bool) (cyc : Nat) : sl.Noted (sl.wake p cyc) := by
  have h := sl.wake_rest p cyc
  generalize sl.wake p cyc = b at h
  have hp : b.p27 = sl.p27 := (congrArg Slot.p27 h :)
  refine ⟨(congrArg Slot.p30 h :), fun _ => ?_⟩
  rw [← hp]
  exact ⟨h, fun n hn => hn⟩

theorem Slot.noted_of_hold {a b : Slot} (h : a.hold ≠ none) (hp : b.p30 = a.p30) : a.Noted b := ⟨hp, fun k => absurd k h⟩

/-- Completing an instruction and entering a trap leave p30. -/
theorem Slot.p30_finish (sl : Slot) (rd : BitVec 5) (v : Word) : (sl.finish rd v).p30 = sl.p30 := by
  unfold Slot.finish Slot.writeX Slot.retireAt
  split <;> rfl

/-- What an acknowledgement or an expiry at virtual core vk leaves as it is: memory, whose turn it is, the messages on their way, the other
virtual cores, and slots that wait for nothing. -/
structure Aftermath (vk : Nat) (s t : State) : Prop where
  mem : t.mem = s.mem
  cur : t.cur = s.cur
  net : ∃ ms, t.net = s.net ++ ms
  vcs : ∀ k, k ≠ vk → t.vc k = s.vc k
  vc : (s.vc vk).Eased (t.vc vk)
  slots : ∀ k, (s.slot k).Noted (t.slot k)

theorem Aftermath.refl (vk : Nat) (s : State) : Aftermath vk s s :=
  ⟨rfl, rfl, ⟨[], (List.append_nil _).symm⟩, fun _ _ => rfl, .refl _, fun _ => .refl _⟩

theorem Aftermath.trans {vk : Nat} {s t u : State} (h : Aftermath vk s t) (k : Aftermath vk t u) : Aftermath vk s u where
  mem := k.mem.trans h.mem
  cur := k.cur.trans h.cur
  net := by
    obtain ⟨ms, hms⟩ := h.net
    obtain ⟨ns, hns⟩ := k.net
    exact ⟨ms ++ ns, by rw [hns, hms, List.append_assoc]⟩
  vcs j hj := (k.vcs j hj).trans (h.vcs j hj)
  vc := h.vc.trans k.vc
  slots j := (h.slots j).trans (k.slots j)

/-! Its steps. -/

section
variable (s : State) (vk : Nat)

theorem State.aftermath_updVc {f : VCore → VCore} (h : (s.vc vk).Eased (f (s.vc vk))) : Aftermath vk s (s.updVc vk f) where
  mem := rfl
  cur := rfl
  net := ⟨[], (List.append_nil _).symm⟩
  vcs k hk := by rw [State.vc_updVc, if_neg hk]
  vc := by rw [State.vc_updVc_self]; exact h
  slots _ := .refl _

/-- Changing the kept requests and the closes is no more than easing. -/
theorem VCore.eased_kept_closes (v : VCore) (k : List Kept) (c : List Close) : v.Eased { v with kept := k, closes := c } :=
  ⟨rfl, fun _ h => h, fun _ _ => rfl, fun _ _ _ h => h⟩

theorem State.aftermath_send (m : Msg) : Aftermath vk s (s.send m) := ⟨rfl, rfl, ⟨[m], rfl⟩, fun _ _ => rfl, .refl _, fun _ => .refl _⟩

theorem State.aftermath_enterEgress (k : Nat) (m : Msg) : Aftermath vk s (s.enterEgress k m) :=
  ⟨rfl, rfl, ⟨[], (List.append_nil _).symm⟩, fun _ _ => rfl, .refl _, fun _ => .refl _⟩

theorem State.aftermath_freshId : Aftermath vk s s.freshId.2 :=
  ⟨rfl, rfl, ⟨[], (List.append_nil _).symm⟩, fun _ _ => rfl, .refl _, fun _ => .refl _⟩

theorem State.aftermath_updGang (g : Nat) (f : Gang → Gang) : Aftermath vk s (s.updGang g f) :=
  ⟨rfl, rfl, ⟨[], (List.append_nil _).symm⟩, fun _ _ => rfl, .refl _, fun _ => .refl _⟩

theorem State.aftermath_updSlot {key : Nat} {f : Slot → Slot} (h : (s.slot key).Noted (f (s.slot key))) : Aftermath vk s (s.updSlot key f) where
  mem := rfl
  cur := rfl
  net := ⟨[], (List.append_nil _).symm⟩
  vcs _ _ := rfl
  vc := .refl _
  slots k := by
    rw [State.slot_updSlot]
    split
    · next e => rw [e]; exact h
    · exact .refl _

theorem State.aftermath_mapSlots {f : Nat → Slot → Slot} (h0 : ∀ k, f k {} = {}) (h : ∀ k (sl : Slot), sl.Noted (f k sl)) : Aftermath vk s (s.mapSlots f) where
  mem := rfl
  cur := rfl
  net := ⟨[], (List.append_nil _).symm⟩
  vcs _ _ := rfl
  vc := .refl _
  slots k := by rw [s.slot_mapSlots f k (h0 k)]; exact h k _

theorem State.aftermath_wakeVc (p : Await → Bool) : Aftermath vk s (s.wakeVc vk p) := by
  refine State.aftermath_mapSlots s vk (fun k => ?_) fun k sl => ?_
  · split <;> rfl
  · split
    · exact sl.noted_wake p _
    · exact .refl _

theorem State.aftermath_notify (b : Body) : ∀ (ds : List Dest) (s : State), Aftermath vk s (s.notify vk b ds)
  | [], s => .refl vk s
  | _ :: ds, s => (s.aftermath_send vk _).trans (State.aftermath_notify b ds _)

theorem State.aftermath_mail (kind slot : Nat) (pc value detail : Word) (payload : List Word) :
    Aftermath vk s (s.mail vk kind slot pc value detail payload) := by
  unfold State.mail
  split
  · exact s.aftermath_send vk _
  · exact .refl vk s

/-! Closes and fences. -/

theorem State.aftermath_settleCloses : ∀ (cs : List Close) (s : State), Aftermath vk s (s.settleCloses vk cs)
  | [], s => .refl vk s
  | c :: cs, s => by
    rw [State.settleCloses]
    refine Aftermath.trans ?_ (State.aftermath_settleCloses cs _)
    dsimp only
    split
    · have h1 := (s.aftermath_updVc vk (f := fun v => { v with closes := v.closes.filter (fun d => d.id != c.id) })
        (VCore.eased_kept_closes _ _ _)).trans (State.aftermath_updGang _ vk (s.vc vk).gid (fun g => { g with closed := g.closed.merge c }))
      split
      · next id rd hhold =>
        split
        · refine h1.trans (State.aftermath_updSlot _ vk (Slot.noted_of_hold ?_ ?_))
          · show (s.slot (slotKey vk c.slot)).hold ≠ none
            rw [hhold]; nofun
          · split
            · exact Slot.p30_finish ..
            · rfl
        · exact h1
      · exact h1
    · exact .refl vk s

theorem State.aftermath_settle : Aftermath vk s (s.settle vk) := by
  unfold State.settle
  extract_lets s1
  refine (State.aftermath_settleCloses vk (s.vc vk).closes s).trans (State.aftermath_mapSlots s1 vk (fun k => ?_) fun k sl => ?_)
  · split <;> rfl
  · split
    · split
      · next hh =>
        refine Slot.noted_of_hold (by rw [hh]; nofun) ?_
        split
        · exact Slot.p30_finish ..
        · rfl
      · exact .refl _
    · exact .refl _

/-! Kept requests that leave. -/

theorem State.aftermath_pumpFrom (cyc : Nat) : ∀ (ks before : List Kept) (s : State), Aftermath vk s (s.pumpFrom vk cyc before ks)
  | [], before, s => s.aftermath_updVc vk (VCore.eased_kept_closes _ _ _)
  | k :: ks, before, s => by
    rw [State.pumpFrom]
    split
    · refine Aftermath.trans ?_ (State.aftermath_pumpFrom cyc ks _ _)
      split
      · exact s.aftermath_send vk _
      · exact s.aftermath_enterEgress vk vk _
    · exact State.aftermath_pumpFrom cyc ks _ _

theorem State.aftermath_pump : Aftermath vk s (s.pump vk) := State.aftermath_pumpFrom vk _ _ _ _

/-! Tokens that land or expire. -/

/-- A token whose store is out may change, and no other. -/
theorem VCore.eased_token {v : VCore} {e : Nat} (h : (FMap.getD v.tokens e {}).isOut = true) (y : Token) :
    v.Eased { v with tokens := FMap.set v.tokens e y } where
  rest := rfl
  unacked _ ha := ha
  tokens j hj := FMap.getD_set_ne _ _ _ (fun hje => by rw [hje, h] at hj; cases hj)
  bits _ _ _ hi := hi

theorem State.vc_notify (vk : Nat) (b : Body) (k : Nat) : ∀ (ds : List Dest) (s : State), (s.notify vk b ds).vc k = s.vc k
  | [], _ => rfl
  | d :: ds, s => (State.vc_notify vk b k ds (s.answer (.vc vk) d b)).trans rfl

theorem State.aftermath_landToken {e : Nat} (h : (FMap.getD (s.vc vk).tokens e {}).isOut = true) : Aftermath vk s (s.landToken vk e) := by
  unfold State.landToken
  extract_lets x s1 n y s2
  have h1 : Aftermath vk s n.2 := (State.aftermath_notify vk _ _ s).trans (State.aftermath_freshId _ vk)
  have hv : n.2.vc vk = s.vc vk := State.vc_notify vk _ vk _ s
  refine (h1.trans (State.aftermath_updVc _ vk ?_)).trans (State.aftermath_wakeVc _ vk _)
  rw [hv]
  exact (VCore.eased_token h y).trans (VCore.eased_kept_closes _ _ _)

theorem VCore.eased_addBits (v : VCore) (bt epoch : Nat) (e : BitVec 16) : v.Eased (v.addBits bt epoch e) := by
  unfold VCore.addBits
  extract_lets b
  split
  · refine ⟨rfl, fun _ h => h, fun _ _ => rfl, fun j hj i hi => ?_⟩
    rw [Vector.getElem_setIfInBounds]
    split
    · next hbt =>
      subst hbt
      have hb : b = v.batches[bt] := by simp [b, Vector.getD, hj]
      rw [hb]
      simp [hi]
    · exact hi
  · exact VCore.eased_kept_closes v v.kept _

theorem VCore.eased_foldl_addBits (e : BitVec 16) : ∀ (as : List Access) (v : VCore), v.Eased (as.foldl (fun v a => v.addBits a.bt a.epoch e) v)
  | [], v => .refl v
  | a :: as, v => (v.eased_addBits a.bt a.epoch e).trans (VCore.eased_foldl_addBits e as _)

/-- Fewer accesses and other kept requests are no more than easing. -/
theorem VCore.eased_filter (v : VCore) (k : List Kept) (p : Access → Bool) : v.Eased { v with kept := k, unacked := v.unacked.filter p } :=
  ⟨rfl, fun _ h => (List.mem_filter.mp h).1, fun _ _ => rfl, fun _ _ _ h => h⟩

theorem Slot.noted_nudge (sl : Slot) (tok cyc : Nat) : sl.Noted (({ sl with p27 := sl.p27 ++ [tok] }).nudge cyc) := by
  have h : sl.Noted { sl with p27 := sl.p27 ++ [tok] } := ⟨rfl, fun _ => ⟨rfl, fun n hn => List.mem_append_left _ hn⟩⟩
  refine h.trans ?_
  unfold Slot.nudge
  split <;> exact Slot.noted_wake _ _ _

theorem State.aftermath_expiryFault (slot tok : Nat) (pc : Word) : Aftermath vk s (s.expiryFault vk slot tok pc) := by
  unfold State.expiryFault
  extract_lets key sl
  split
  · exact s.aftermath_mail vk ..
  · exact s.aftermath_updSlot vk (Slot.noted_nudge _ tok _)

/-- Entry e has expired: its dependants have notice, its waiters wake, and its slot has the fault (R213). -/
def State.noteExpiry (s : State) (vk e : Nat) : State :=
  let x := FMap.getD (s.vc vk).tokens e {}
  let n := (s.notify vk (.expiry (tokenVal x.slot e x.gen)) x.deps).freshId
  ((n.2.updVc vk (fun v => { v with tokens := FMap.set v.tokens e { x with st := .expired, ended := n.1 } })).wakeVc vk
    (fun a => a == Await.token e)).expiryFault vk x.slot (tokenVal x.slot e x.gen) x.pc

theorem State.aftermath_noteExpiry {e : Nat} (h : (FMap.getD (s.vc vk).tokens e {}).isOut = true) : Aftermath vk s (s.noteExpiry vk e) := by
  unfold State.noteExpiry
  extract_lets x n
  have h1 : Aftermath vk s n.2 := (State.aftermath_notify vk _ _ s).trans (State.aftermath_freshId _ vk)
  have hv : n.2.vc vk = s.vc vk := State.vc_notify vk _ vk _ s
  exact h1.trans (((State.aftermath_updVc _ vk (by rw [hv]; exact VCore.eased_token h _)).trans
    (State.aftermath_wakeVc _ vk _)).trans (State.aftermath_expiryFault _ vk _ _ _))

/-- What an expiry brings after the entry itself: the stores kept for it end, and tokens of theirs expire. -/
theorem State.aftermath_expireTokens : ∀ (fuel : Nat) (es : List Nat) (s : State), Aftermath vk s (s.expireTokens vk fuel es) ∧
    ∀ e l, es = e :: l → (FMap.getD (s.vc vk).tokens e {}).isOut = true → 0 < fuel → Aftermath vk (s.noteExpiry vk e) (s.expireTokens vk fuel es)
  | 0, _, s => ⟨by rw [State.expireTokens]; exact .refl vk s, fun _ _ _ _ h => absurd h (Nat.lt_irrefl 0)⟩
  | fuel + 1, [], s => ⟨by rw [State.expireTokens]; exact .refl vk s; nofun, nofun⟩
  | fuel + 1, e :: es, s => by
    rw [State.expireTokens]
    extract_lets tok n s1 s2 gone accs s3
    have h3 : Aftermath vk (s.noteExpiry vk e) (s3.expireTokens vk fuel (es ++ accs.filterMap (fun a => a.token.map Prod.fst))) :=
      (State.aftermath_updVc s2 vk ((VCore.eased_filter _ _ _).trans (VCore.eased_foldl_addBits sdxBit accs _))).trans
        (State.aftermath_expireTokens fuel _ s3).1
    by_cases hout : (FMap.getD (s.vc vk).tokens e {}).isOut = true
    · have hx : (!((FMap.getD (s.vc vk).tokens e {}).valid && (FMap.getD (s.vc vk).tokens e {}).st == TokState.pending)) = false :=
        congrArg (!·) hout
      rw [if_neg (by rw [hx]; nofun)]
      refine ⟨(s.aftermath_noteExpiry vk hout).trans h3, fun f l hfl _ _ => ?_⟩
      obtain ⟨rfl, rfl⟩ := List.cons.inj hfl
      exact h3
    · have hx : (!((FMap.getD (s.vc vk).tokens e {}).valid && (FMap.getD (s.vc vk).tokens e {}).st == TokState.pending)) = true :=
        congrArg (!·) (Bool.eq_false_iff.mpr hout)
      rw [if_pos hx]
      refine ⟨(State.aftermath_expireTokens fuel es s).1, fun f l hfl hf _ => ?_⟩
      obtain ⟨rfl, rfl⟩ := List.cons.inj hfl
      exact absurd hf hout

/-! Acknowledgements. -/

theorem State.aftermath_expire (e : Nat) : Aftermath vk s (s.expire vk e) :=
  ((State.aftermath_expireTokens vk 256 [e] s).1.trans (State.aftermath_settle _ vk)).trans (State.aftermath_pump _ vk)

theorem State.aftermath_expire_of_out {e : Nat} (h : (FMap.getD (s.vc vk).tokens e {}).isOut = true) :
    Aftermath vk (s.noteExpiry vk e) (s.expire vk e) :=
  (((State.aftermath_expireTokens vk 256 [e] s).2 e [] rfl h (by decide)).trans (State.aftermath_settle _ vk)).trans (State.aftermath_pump _ vk)

/-- The virtual core once an access is no longer out: its error bits go to the access's batch. -/
def VCore.answered (v : VCore) (id : Nat) (e : BitVec 16) (miss : Bool) (a : Access) : VCore :=
  let w := { v with unacked := v.unacked.filter (fun b => b.id != id), owed := v.owed + (if miss then 1 else 0) }
  if a.counted && e != 0 then w.addBits a.bt a.epoch e else w

theorem VCore.eased_answered (v : VCore) (id : Nat) (e : BitVec 16) (miss : Bool) (a : Access) : v.Eased (v.answered id e miss a) := by
  unfold VCore.answered
  extract_lets w
  have hw : v.Eased w := ⟨rfl, fun _ h => (List.mem_filter.mp h).1, fun _ _ => rfl, fun _ _ _ h => h⟩
  split
  · exact hw.trans (VCore.eased_addBits ..)
  · exact hw

theorem VCore.unacked_answered {v : VCore} {id : Nat} {e : BitVec 16} {miss : Bool} {a b : Access} (h : b ∈ (v.answered id e miss a).unacked) :
    b.id ≠ id := by
  unfold VCore.answered at h
  extract_lets w at h
  have hb : b ∈ w.unacked := by
    split at h
    · exact (VCore.eased_addBits ..).unacked b h
    · exact h
  simpa using (List.mem_filter.mp hb).2

/-- What an acknowledgement does after the access has ended: its token lands or expires, and what waited goes on. -/
theorem State.acked_cases (id : Nat) (e : BitVec 16) (miss : Bool) :
    (s.acked vk id e miss = s ∧ ∀ a ∈ (s.vc vk).unacked, a.id ≠ id) ∨
    ∃ a, Aftermath vk (s.updVc vk (fun v => v.answered id e miss a)) (s.acked vk id e miss) := by
  unfold State.acked
  split
  · next h => exact .inl ⟨rfl, fun a ha => by simpa using List.find?_eq_none.mp h a ha⟩
  · next a _ =>
    refine .inr ⟨a, ?_⟩
    extract_lets s1 s2
    refine Aftermath.trans (t := s2) ?_ ((State.aftermath_settle s2 vk).trans (State.aftermath_pump _ vk))
    show Aftermath vk s1 s2
    simp only [s2]
    split
    · split
      · next hx =>
        split
        · exact State.aftermath_landToken s1 vk (by simp only [Token.isOut]; simp_all)
        · exact (State.aftermath_expireTokens vk ..).1
      · exact .refl vk s1
    · exact .refl vk s1

theorem State.aftermath_acked (id : Nat) (e : BitVec 16) (miss : Bool) : Aftermath vk s (s.acked vk id e miss) := by
  rcases s.acked_cases vk id e miss with ⟨h, -⟩ | ⟨a, h⟩
  · rw [h]; exact .refl vk s
  · exact (s.aftermath_updVc vk (VCore.eased_answered ..)).trans h

/-- An access that is acknowledged is no longer out. -/
theorem State.id_ne_of_acked {id : Nat} {e : BitVec 16} {miss : Bool} {a : Access} (h : a ∈ ((s.acked vk id e miss).vc vk).unacked) : a.id ≠ id := by
  rcases s.acked_cases vk id e miss with ⟨hs, hid⟩ | ⟨b, hs⟩
  · rw [hs] at h; exact hid a h
  · have := hs.vc.unacked a h
    rw [State.vc_updVc_self] at this
    exact VCore.unacked_answered this

end

end Sys2Proof.Machine
end

section
/-! PROOFS. Remote stores and releases at their home and at boundaries (R195, R198, R204, R259). -/

namespace Sys2Proof.Machine

open Sys2Proof.Claim

/-! The store at its home. -/

section
variable {s : State} {m : Msg} {tg : Tag} {p v : Word} {sk : StoreKind} (hm : s.evMsg = some m) (hf : s.homeFree m = true)
  (hb : m.body = .store tg p v sk none)
include hm hf hb

theorem exec_remoteStoreAtHome : exec .remoteStoreAtHome s = .next (s.takeEv.arriveAccess m) := by
  have he : s.evAccess = some m := (s.evAccess_eq_some m).mpr ⟨hm, hf⟩
  show execRemoteStoreAtHome s = _
  simp only [execRemoteStoreAtHome, he, hb]

/-- A virtual core that is not there answers NVC. -/
theorem exec_remoteStoreAtHome_gone {vk : Nat} (hd : m.dst = .vc vk) (hl : (s.vc vk).live = false) :
    exec .remoteStoreAtHome s = .next (s.takeEv.answer m.dst m.src (.ack tg.id tg.slot 2 (sk == .missed))) := by
  have hg : s.takeEv.gate m vk = .gone := by
    have : (s.takeEv.vc vk).live = false := hl
    simp [State.gate, this]
  rw [exec_remoteStoreAtHome hm hf hb]
  simp only [State.arriveAccess, hd, hg, State.answerError, hb]
  rfl

omit hf in
theorem exec_remoteStoreAtHome_sig {d : Nat} (hd : m.dst = .sig d) (hfail : (s.die d).failed = false) :
    exec .remoteStoreAtHome s = .next ((s.takeEv.landWord (sigAddr d (p.toNat % 2 ^ 24)) v (sk == .setFull)).answer m.dst m.src
      (.ack tg.id tg.slot 0 (sk == .missed))) := by
  have hnone : s.lmTarget m = none := s.lmTarget_sig m d hd
  have hnone' : s.takeEv.lmTarget m = none := s.takeEv.lmTarget_sig m d hd
  have hhome : s.takeEv.homeWord (.sig d) p = some (sigAddr d (p.toNat % 2 ^ 24)) := by
    have : (s.takeEv.die d).failed = false := hfail
    simp [State.homeWord, this, bits_ptrOff]
  rw [exec_remoteStoreAtHome hm (s.homeFree_of_noTarget m hnone) hb]
  simp only [State.arriveAccess, hd, State.perform, hb, s.takeEv.useBank_of_noTarget m hnone', State.performStore, hhome]

end

section
variable {s : State} {m : Msg} {vk : Nat} {tg : Tag} {p v : Word} {sk : StoreKind} (hp : Performed s m vk)
  (hb : m.body = .store tg p v sk none)
include hp hb

theorem exec_remoteStoreAtHome_performed :
    exec .remoteStoreAtHome s = .next ((s.takeEv.useBank m).performStore m tg p v sk) := by
  rw [exec_remoteStoreAtHome hp.1.msg hp.2 hb, State.arriveAccess_of_arrives hp.1 (by rw [hb]; rfl)]
  simp only [State.perform, hb]

omit hb in
theorem performStore_inside (hin : p.toNat % 2 ^ 24 + 8 ≤ s.launchLenOf vk) : (s.takeEv.useBank m).performStore m tg p v sk =
    ((s.takeEv.useBank m).landWord (lmAddr (s.coreOf vk) ((s.vc vk).base + p.toNat % 2 ^ 24)) v (sk == .setFull)).answer m.dst m.src
      (.ack tg.id tg.slot 0 (sk == .missed)) := by
  have hu := s.atHome_useBank m
  unfold State.performStore
  simp only [hp.1.dst, hu.homeWord hin]

/-- Outside the window the error is recorded for its source and batch. -/
theorem performStore_outside (hout : s.launchLenOf vk < p.toNat % 2 ^ 24 + 8) : (s.takeEv.useBank m).performStore m tg p v sk =
    ((s.takeEv.useBank m).updVc vk (fun x => { x with errs := addErr x.errs m.src tg.bt 1 })).answer m.dst m.src
      (.ack tg.id tg.slot 1 (sk == .missed)) := by
  have hu := s.atHome_useBank m
  unfold State.performStore
  simp only [hp.1.dst, hu.homeWord_outside hout, State.recordErr, State.answerError, hb]
  rfl

end

theorem State.vcs_of_landWord_rest {s u : State}
    (h : { u with mem := s.mem, slots := s.slots, cores := s.cores, full := s.full } = s) : u.vcs = s.vcs ∧ u.net = s.net :=
  ⟨(congrArg State.vcs h :), (congrArg State.net h :)⟩

theorem State.vcs_landWord (s : State) (a : Nat) (w : Word) (f : Bool) : (s.landWord a w f).vcs = s.vcs :=
  (State.vcs_of_landWord_rest (s.landWord_rest a w f)).1

theorem State.net_landWord (s : State) (a : Nat) (w : Word) (f : Bool) : (s.landWord a w f).net = s.net :=
  (State.vcs_of_landWord_rest (s.landWord_rest a w f)).2

theorem State.answer_vcs (s : State) (h d : Dest) (b : Body) : (s.answer h d b).vcs = s.vcs := rfl

/-! Scope misses. -/

theorem exec_scopeMissAtBoundary {s : State} {m : Msg} {k : Nat} {tg : Tag} {p v : Word} {sc : Scope} {pc : Word} {h : Option Nat}
    (hm : s.net[s.ev.ix]? = some m) (hsrc : m.src = .vc k) (hb : m.body = .store tg p v (.release sc pc) h) (hmiss : s.mustMiss m = true) :
    exec .scopeMissAtBoundary s = .next (({ s with net := s.net.set s.ev.ix { m with body := .store tg p v .missed h } }).send
      (Msg.mk .memory (.vc k) .control (.scopeMiss tg.slot (missRecord (s.needScope k m.dst) tg sc pc p v)) none false)) := by
  have hm' : s.msg? s.ev.ix = some m := hm
  show execScopeMissAtBoundary s = _
  simp only [execScopeMissAtBoundary, hm', hsrc, hb, hmiss, if_true]

/-- The state of a virtual core that owes one report fewer. -/
def State.paidReport (s : State) (vk : Nat) : State := s.takeEv.updVc vk (fun v => { v with owed := v.owed - 1 })

/-- Without an event ring the report goes to the free latch of the core. -/
theorem exec_scopeMissReport {s : State} {m : Msg} {vk slot : Nat} {ws : List Word} (hv : s.ev.val = 0) (hm : s.evMsg = some m)
    (hd : m.dst = .vc vk) (hb : m.body = .scopeMiss slot ws) (hlive : (s.vc vk).live = true) (hplace : (s.vc vk).place.isSome = true)
    (hq : (s.core (s.coreOf vk)).latchQ = []) (hr : (s.vc vk).smring.getLsbD 7 = false)
    (hw : Memory.word s.mem (lmAddr (s.coreOf vk) latchOff) = 0) : exec .scopeMissReport s =
      .next (((s.paidReport vk).land (lmAddr (s.coreOf vk) latchOff) (bytesOfWords ws)).setMip (slotKey vk slot) 1) := by
  have hv1 : (s.ev.val == 1) = false := by rw [hv]; decide
  have hnone : (s.vc vk).place.isNone = false := by simpa using hplace
  have hcore : (s.paidReport vk).coreOf vk = s.coreOf vk := by rw [State.coreOf, State.paidReport, State.vc_updVc_self]; rfl
  have hring : ((s.paidReport vk).vc vk).smring.getLsbD 7 = false := by rw [State.paidReport, State.vc_updVc_self]; exact hr
  have hword : Memory.word (s.paidReport vk).mem (lmAddr (s.coreOf vk) latchOff) = 0 := hw
  have hrep : (s.paidReport vk).reportMiss vk slot ws =
      some (((s.paidReport vk).land (lmAddr (s.coreOf vk) latchOff) (bytesOfWords ws)).setMip (slotKey vk slot) 1) := by
    simp only [State.reportMiss, hring, Bool.false_and, Bool.false_eq_true, if_false, hcore, hword, beq_self_eq_true, if_true]
  show execScopeMissReport s = _
  simp only [execScopeMissReport, hv1, hm, hd, hb, hlive, hnone, Bool.not_true, Bool.false_eq_true, if_false]
  change Host.Outcome.next (match (s.paidReport vk).reportMiss vk slot ws with
    | some u => _
    | none => _) = _
  rw [hrep]
  simp only [hq, List.isEmpty_nil, if_true]

theorem Slot.mip_wake (sl : Slot) (p : Await → Bool) (c : Nat) : (sl.wake p c).mip = sl.mip := (congrArg Slot.mip (sl.wake_rest p c) :)

theorem Slot.mip_nudge (sl : Slot) (c : Nat) : (sl.nudge c).mip = sl.mip := by
  unfold Slot.nudge
  split <;> exact Slot.mip_wake ..

/-- The bit of mip that is set is set. -/
theorem State.mip_setMip_one (s : State) (k : Nat) : ((s.setMip k 1).slot k).mip.getLsbD 1 = true := by
  rw [State.setMip, State.slot_updSlot_self]
  have hbit : ((s.slot k).mip ||| ((1 : BitVec 4) <<< 1)).getLsbD 1 = true := by simp
  dsimp only
  split
  · rw [Slot.mip_nudge]; exact hbit
  · exact hbit

theorem State.mem_setMip (s : State) (k b : Nat) : (s.setMip k b).mem = s.mem := rfl
theorem State.vc_setMip (s : State) (k b j : Nat) : (s.setMip k b).vc j = s.vc j := rfl
theorem State.vc_land (s : State) (a : Nat) (bs : List Byte) (k : Nat) : (s.land a bs).vc k = s.vc k := by rw [State.vc, State.vcs_land]; rfl

theorem exec_landingAcknowledgement {s : State} {m : Msg} {vk id slot : Nat} {e : BitVec 16} {ms : Bool} (hm : s.evMsg = some m)
    (hd : m.dst = .vc vk) (hb : m.body = .ack id slot e ms) (hr : FMap.get? (s.vc vk).run 3 = none) :
    exec .landingAcknowledgement s = .next ((s.takeEv.copyAnswer vk id (e != 0) none).acked vk id e ms) := by
  have hr' : (s.vc vk).runOf 3 = none := hr
  show execLandingAcknowledgement s = _
  simp only [execLandingAcknowledgement, hm, hd, hb, hr', State.landed]

theorem State.mem_copyAnswer (s : State) (vk id : Nat) (bad : Bool) (w : Option Word) : (s.copyAnswer vk id bad w).mem = s.mem := by
  unfold State.copyAnswer
  split
  · rfl
  · split <;> rfl

/-- Settles O41: the home writes and acknowledges, records what lies outside, and a release that leaves its scope goes on as a missed one. -/
theorem remoteStoreHome : Obligations.RemoteStoreHome := by
  intro s m vk tg p v sk
  refine ⟨?store, ?outside, ?gone, ?sig, ?miss, ?report, ?ack⟩
  case store =>
    intro hp hb hin
    have hu := s.atHome_useBank m
    refine ⟨_, (exec_remoteStoreAtHome_performed hp hb).trans (congrArg _ (performStore_inside hp hin)), ?_, ?_, ?_, ?_, ?_⟩
    · exact State.stored_landWord hu.mem _ v _
    · rw [Claim.Answered, State.answer_net, State.net_landWord, hu.net]
    · rintro rfl
      rw [State.isFull, State.answer_full, State.full_landWord, beq_self_eq_true, if_pos rfl, contains_fullSet, if_pos rfl]
    · intro hk
      rw [State.answer_full, State.full_landWord, hu.full, if_neg (by simpa using hk)]
    · rw [State.answer_vcs, State.vcs_landWord, hu.vcs]
  case outside =>
    intro hp hb hout herr
    have hu := s.atHome_useBank m
    refine ⟨_, (exec_remoteStoreAtHome_performed hp hb).trans (congrArg _ (performStore_outside hp hb hout)), hu.mem, hu.full, ?_, ?_⟩
    · rw [Claim.Answered, State.answer_net, State.updVc_net, hu.net]
    · rw [State.vc_answer, State.vc_updVc_self, hu.vc]
      simp [herr, addErr]
  case gone =>
    intro hm hf hd hl hb
    exact ⟨_, exec_remoteStoreAtHome_gone hm hf hb hd hl, rfl, rfl, rfl⟩
  case sig =>
    intro d hm hd hfail hb
    refine ⟨_, exec_remoteStoreAtHome_sig hm hb hd hfail, ?_, ?_⟩
    · exact State.stored_landWord (s := s) (u := s.takeEv) rfl _ v _
    · rw [Claim.Answered, State.answer_net, State.net_landWord]; rfl
  case miss =>
    intro k sc pc h hm hsrc hb hmiss
    exact ⟨_, missRecord (s.needScope k m.dst) tg sc pc p v, exec_scopeMissAtBoundary hm hsrc hb hmiss, rfl, rfl, rfl, rfl⟩
  case report =>
    intro slot ws hv hm hd hb hlen hlive hplace hq hr hw
    refine ⟨_, exec_scopeMissReport hv hm hd hb hlive hplace hq hr hw, ?_, State.mip_setMip_one _ _, ?_⟩
    · rw [← hlen]
      rw [State.mem_setMip, State.mem_land, Memory.setBytes_bytesOfWords]
      exact Memory.words_setWords ..
    · rw [State.vc_setMip, State.vc_land, State.paidReport, State.vc_updVc_self]; rfl
  case ack =>
    intro id slot e ms hm hd hb hr
    exact ⟨_, exec_landingAcknowledgement hm hd hb hr, fun x hx => State.id_ne_of_acked _ vk hx,
      (State.aftermath_acked _ vk id e ms).mem.trans (State.mem_copyAnswer ..)⟩

end Sys2Proof.Machine
end

section
/-! PROOFS. Tokens at their slot: what TST takes, and TWAIT and TFREE (R207 to R209, R212). -/

namespace Sys2Proof.Machine

open Sys2Proof.Claim

/-! The words of TWAIT and TFREE. -/

theorem encode_twait : ∀ r : XReg, encode (.twait r) = some (0x2000005B + BitVec.ofNat 32 (r.toNat * 2 ^ 15)) := by decide
theorem encode_tfree : ∀ r : XReg, encode (.tfree r) = some (0x2200005B + BitVec.ofNat 32 (r.toNat * 2 ^ 15)) := by decide

/-! A token value that names an entry. -/

theorem VCore.recognise_live {v : VCore} {t e : Nat} {x : Token} (h : v.recognise t = .live e x) :
    FMap.getD v.tokens e {} = x ∧ x.valid = true := by
  unfold VCore.recognise at h
  dsimp only at h
  split at h
  · next hc =>
    obtain ⟨rfl, rfl⟩ := TokenClass.live.inj h
    exact ⟨rfl, by simp only [Bool.and_eq_true] at hc; exact hc.1.1⟩
  · split at h <;> cases h

/-- An entry that is not the default one is listed. -/
theorem FMap.get?_of_getD_ne {α : Type} {m : FMap α} {k : Nat} {d v : α} (h : FMap.getD m k d = v) (hv : v ≠ d) : FMap.get? m k = some v := by
  unfold FMap.getD at h
  cases hg : FMap.get? m k with
  | none => rw [hg] at h; exact absurd h.symm hv
  | some w => rw [hg] at h; exact congrArg some h

theorem FMap.getD_upd_listed {α : Type} {m : FMap α} {k : Nat} {v : α} (h : FMap.get? m k = some v) (f : α → α) (j : Nat) (d : α) :
    FMap.getD (FMap.upd m k f) j d = if j = k then f v else FMap.getD m j d := by
  unfold FMap.upd
  rw [h]
  exact FMap.getD_set ..

/-! TWAIT and TFREE. -/

section
variable {s : State} {rs1 : XReg}

theorem exec_twait_foreign (h : s.myVc.recognise ((s.x rs1).toNat % 65536) = .foreign) :
    exec (.twait rs1) s = .next (s.trap 31 (BitVec.ofNat 64 ((s.x rs1).toNat % 65536))) := by
  show execTwait rs1 s = _
  simp only [execTwait, h]

theorem exec_twait_stale (h : s.myVc.recognise ((s.x rs1).toNat % 65536) = .stale) : exec (.twait rs1) s = .next s.retire := by
  show execTwait rs1 s = _
  simp only [execTwait, h]

theorem exec_tfree_foreign (h : s.myVc.recognise ((s.x rs1).toNat % 65536) = .foreign) :
    exec (.tfree rs1) s = .next (s.trap 31 (BitVec.ofNat 64 ((s.x rs1).toNat % 65536))) := by
  show execTfree rs1 s = _
  simp only [execTfree, h]

theorem exec_tfree_stale (h : s.myVc.recognise ((s.x rs1).toNat % 65536) = .stale) : exec (.tfree rs1) s = .next s.retire := by
  show execTfree rs1 s = _
  simp only [execTfree, h]

variable {e : Nat} {x : Token} (h : s.myVc.recognise ((s.x rs1).toNat % 65536) = .live e x)
include h

theorem exec_twait_ended (hx : x.st ≠ .pending) : exec (.twait rs1) s = .next s.retire := by
  have hp : (x.st == TokState.pending) = false := by simpa using hx
  show execTwait rs1 s = _
  simp only [execTwait, h, hp, Bool.false_eq_true, if_false]

theorem exec_twait_pending (hx : x.st = .pending) : exec (.twait rs1) s = .next (s.parkOn (.token e)) := by
  show execTwait rs1 s = _
  simp only [execTwait, h, hx, beq_self_eq_true, if_true]

/-- TFREE frees an entry that has ended, and marks one that is pending. -/
theorem exec_tfree_ended (hx : x.st ≠ .pending) :
    exec (.tfree rs1) s = .next (s.updMyVc (fun v => { v with tokens := FMap.set s.myVc.tokens e (Token.free x) })).retire := by
  have hp : (x.st == TokState.pending) = false := by simpa using hx
  show execTfree rs1 s = _
  simp only [execTfree, h, hp, Bool.false_eq_true, if_false]
  refine congrArg (fun u : State => Host.Outcome.next u.retire) (s.updVc_congr ?_)
  show VCore.freeToken s.myVc e = { s.myVc with tokens := FMap.set s.myVc.tokens e (Token.free x) }
  rw [VCore.freeToken, (VCore.recognise_live h).1]

theorem exec_tfree_pending (hx : x.st = .pending) :
    exec (.tfree rs1) s = .next (s.updMyVc (fun v => { v with tokens := FMap.set s.myVc.tokens e { x with fol := true } })).retire := by
  show execTfree rs1 s = _
  simp only [execTfree, h, hx, beq_self_eq_true, if_true]
  rfl

end

/-- A change of the token table alone, and of it one entry alone. -/
theorem State.vcDone_setToken (s : State) (e : Nat) (y : Token) :
    let t := (s.updMyVc (fun v => { v with tokens := FMap.set s.myVc.tokens e y })).retire
    VcDone s t { s.myVc with tokens := t.myVc.tokens } 0 0 ∧
    (∀ j, j ≠ e → FMap.getD t.myVc.tokens j {} = FMap.getD s.myVc.tokens j {}) ∧ FMap.getD t.myVc.tokens e {} = y := by
  intro t
  have ht : t.myVc = { s.myVc with tokens := FMap.set s.myVc.tokens e y } :=
    s.myVc_updMyVc (fun v => { v with tokens := FMap.set s.myVc.tokens e y })
  have hd := s.vcDone_updMyVc_retire (fun v => { v with tokens := FMap.set s.myVc.tokens e y })
  rw [ht]
  exact ⟨hd, fun j hj => FMap.getD_set_ne _ _ _ hj, FMap.getD_set_self ..⟩

/-! The entry a tokened store takes. -/

/-- The generation that an entry has when it is taken next. -/
def Token.nextGen (t : Token) : Nat := if t.valid then (t.gen + 1) % 64 else t.gen

/-- The entry as it is taken for a store of the current slot to d. -/
def State.takenEntry (s : State) (e : Nat) (d : Dest) : Token :=
  { valid := true, gen := (FMap.getD s.myVc.tokens e {}).nextGen, slot := s.ix, st := .pending, dest := d, cyc := s.cycOf s.vk, pc := s.me.pc }

/-- The state with entry e taken. -/
def State.withToken (s : State) (e : Nat) (d : Dest) : State :=
  s.updMyVc (fun v => { v with tokens := FMap.set s.myVc.tokens e (s.takenEntry e d) })

theorem VCore.takeToken_eq (s : State) (e : Nat) (d : Dest) : s.myVc.takeToken e s.ix d (s.cycOf s.vk) s.me.pc =
    ({ s.myVc with tokens := FMap.set s.myVc.tokens e (s.takenEntry e d) }, (FMap.getD s.myVc.tokens e {}).nextGen) := by
  have hgen : (if (FMap.getD s.myVc.tokens e {}).valid then (FMap.getD s.myVc.tokens e {}).free else FMap.getD s.myVc.tokens e {}).gen =
      (FMap.getD s.myVc.tokens e {}).nextGen := by
    unfold Token.nextGen
    split <;> rfl
  simp only [VCore.takeToken, hgen, State.takenEntry]

theorem State.issuing_withToken (s : State) (e : Nat) (d : Dest) : Issuing s (s.withToken e d) := State.issuing_updMyVc rfl

theorem State.myVc_withToken (s : State) (e : Nat) (d : Dest) :
    (s.withToken e d).myVc = { s.myVc with tokens := FMap.set s.myVc.tokens e (s.takenEntry e d) } := s.myVc_updMyVc _

/-- What the statement calls named: the entry stands for the store. -/
theorem State.takenEntry_named (s : State) (e : Nat) (d : Dest) :
    (s.takenEntry e d).valid = true ∧ (s.takenEntry e d).gen = (if (FMap.getD s.myVc.tokens e {}).valid then
      ((FMap.getD s.myVc.tokens e {}).gen + 1) % 64 else (FMap.getD s.myVc.tokens e {}).gen) ∧ (s.takenEntry e d).slot = s.ix ∧
    (s.takenEntry e d).st = .pending ∧ (s.takenEntry e d).dest = d := ⟨rfl, rfl, rfl, rfl, rfl⟩

end Sys2Proof.Machine
end

section
/-! PROOFS. Stores ordered after a token (R210, R213, R196). -/

namespace Sys2Proof.Machine

open Sys2Proof.Claim

/-! How such a store goes. -/

theorem depWay_landed {e : Nat} {x : Token} (h : x.st = .landed) (d : Dest) : depWay (.live e x) d = some .plain := by simp [depWay, h]
theorem depWay_expired {e : Nat} {x : Token} (h : x.st = .expired) (d : Dest) : depWay (.live e x) d = some .discard := by simp [depWay, h]

/-- A pending token holds a store to a virtual core that is one of its dependants, or becomes one. -/
theorem depWay_held {e : Nat} {x : Token} {d : Dest} (h : x.st = .pending) (hs : d.isSig = false) (hd : d ∈ x.deps ∨ x.deps.length < 8) :
    depWay (.live e x) d = some (.held e) := by
  have : (!d.isSig && (x.deps.contains d || decide (x.deps.length < 8))) = true := by simpa [hs] using hd
  simp only [depWay, h, this, if_true]

/-- Any other store of a pending token is kept at its source. -/
theorem depWay_kept {e : Nat} {x : Token} {d : Dest} (h : x.st = .pending) (hk : d.isSig = true ∨ d ∉ x.deps ∧ 8 ≤ x.deps.length) :
    depWay (.live e x) d = some (.kept e) := by
  have : (!d.isSig && (x.deps.contains d || decide (x.deps.length < 8))) = false := by
    rcases hk with hs | ⟨hd, hl⟩
    · simp [hs]
    · simp [hd, hl]
  simp only [depWay, h, this, Bool.false_eq_true, if_false]

theorem held_of_not_kept {x : Token} {d : Dest} (hk : ¬ (d.isSig = true ∨ d ∉ x.deps ∧ 8 ≤ x.deps.length)) :
    d.isSig = false ∧ (d ∈ x.deps ∨ x.deps.length < 8) := by
  obtain ⟨hs, hd⟩ := not_or.mp hk
  refine ⟨by simpa using hs, ?_⟩
  by_cases hm : d ∈ x.deps
  · exact .inl hm
  · exact .inr (by_contra fun hl => hd ⟨hm, by omega⟩)

/-! Places they need. -/

section
variable {s : State} (hc : s.myVc.countedFull = false) (d : Dest)
include hc

theorem State.depRoom_plain (hclear : Clear s) : s.depRoom d .plain = true := by
  rw [State.depRoom, State.storeRoom_of_canSend hc, State.canSend_of_clear hclear]

theorem State.depRoom_held (hclear : Clear s) (e : Nat) : s.depRoom d (.held e) = true := by
  rw [State.depRoom, State.storeRoom_of_canSend hc, State.canSend_of_clear hclear]

theorem State.depRoom_kept (hk : s.myVc.keptStores < 32) (e : Nat) : s.depRoom d (.kept e) = true := by simp [State.depRoom, hc, hk]

end

theorem State.depRoom_kept_full {s : State} (h : 32 ≤ s.myVc.keptStores) (d : Dest) (e : Nat) : s.depRoom d (.kept e) = false := by
  have : ¬ s.myVc.keptStores < 32 := by omega
  simp [State.depRoom, this]

/-! DST and DTST. -/

section
variable {s : State} {rd rs1 rs2 rs3 : XReg}

theorem exec_dst_withPtr : ∃ k, exec (.dst rs2 rs1 rs3) s = .next (s.withPtr (s.x rs1) false k) := ⟨_, rfl⟩
theorem exec_dtst_withPtr : ∃ k, exec (.dtst rd rs2 rs1 rs3) s = .next (s.withPtr (s.x rs1) false k) := ⟨_, rfl⟩
theorem exec_tst_withPtr : ∃ k, exec (.tst rd rs2 rs1) s = .next (s.withPtr (s.x rs1) false k) := ⟨_, rfl⟩

section
variable (hg : Good (s.x rs1))
include hg

theorem exec_tst : exec (.tst rd rs2 rs1) s = .next (s.withRoom (.tst rd rs2 rs1) (s.storeRoom 0 (s.target s.vk (s.x rs1)))
    (match s.myVc.tokenEntry with
      | none => s.waitOn true
      | some e => ((s.withToken e (s.target s.vk (s.x rs1))).depStore (s.target s.vk (s.x rs1)) (s.x rs1) (s.x rs2) 0 .plain
          (some (e, (FMap.getD s.myVc.tokens e {}).nextGen))).result rd
          (BitVec.ofNat 64 (tokenVal s.ix e (FMap.getD s.myVc.tokens e {}).nextGen)))) := by
  show execTst rd rs2 rs1 s = _
  simp only [execTst, s.withPtr_of_good _ _ hg, VCore.takeToken_eq]
  rfl

theorem exec_dst_foreign (h : s.myVc.recognise ((s.x rs3).toNat % 65536) = .foreign) :
    exec (.dst rs2 rs1 rs3) s = .next (s.trap 31 (BitVec.ofNat 64 ((s.x rs3).toNat % 65536))) := by
  show execDst rs2 rs1 rs3 s = _
  simp only [execDst, s.withPtr_of_good _ _ hg, h, depWay]

theorem exec_dtst_foreign (h : s.myVc.recognise ((s.x rs3).toNat % 65536) = .foreign) :
    exec (.dtst rd rs2 rs1 rs3) s = .next (s.trap 31 (BitVec.ofNat 64 ((s.x rs3).toNat % 65536))) := by
  show execDtst rd rs2 rs1 rs3 s = _
  simp only [execDtst, s.withPtr_of_good _ _ hg, h, depWay]

variable {way : DepWay} (hw : depWay (s.myVc.recognise ((s.x rs3).toNat % 65536)) (s.target s.vk (s.x rs1)) = some way)
include hw

theorem exec_dst : exec (.dst rs2 rs1 rs3) s = .next (s.withRoom (.dst rs2 rs1 rs3) (s.depRoom (s.target s.vk (s.x rs1)) way)
    (s.depStore (s.target s.vk (s.x rs1)) (s.x rs1) (s.x rs2) ((s.x rs3).toNat % 65536) way none).retire) := by
  show execDst rs2 rs1 rs3 s = _
  simp only [execDst, s.withPtr_of_good _ _ hg, hw]

theorem exec_dtst : exec (.dtst rd rs2 rs1 rs3) s = .next (s.withRoom (.dtst rd rs2 rs1 rs3) (s.depRoom (s.target s.vk (s.x rs1)) way)
    (match s.myVc.tokenEntry with
      | none => s.waitOn true
      | some e => ((s.withToken e (s.target s.vk (s.x rs1))).depStore (s.target s.vk (s.x rs1)) (s.x rs1) (s.x rs2) ((s.x rs3).toNat % 65536) way
          (some (e, (FMap.getD s.myVc.tokens e {}).nextGen))).result rd
          (BitVec.ofNat 64 (tokenVal s.ix e (FMap.getD s.myVc.tokens e {}).nextGen)))) := by
  show execDtst rd rs2 rs1 rs3 s = _
  simp only [execDtst, s.withPtr_of_good _ _ hg, hw, VCore.takeToken_eq]
  rfl

end

end

end Sys2Proof.Machine
end

section
/-! PROOFS. What a store ordered after a token leaves, for each way that it goes (R210, R213). -/

namespace Sys2Proof.Machine

open Sys2Proof.Claim

/-- A token with d among its dependants. -/
def Token.withDep (d : Dest) (x : Token) : Token := if x.deps.contains d then x else { x with deps := x.deps ++ [d] }

theorem Token.withDep_eq (d : Dest) (x : Token) : x.withDep d = { x with deps := if d ∈ x.deps then x.deps else x.deps ++ [d] } := by
  unfold Token.withDep
  by_cases hd : d ∈ x.deps <;> simp [hd]

/-- A store of the current slot as it is kept for the token of entry f. -/
def State.keptStore (s : State) (d : Dest) (p v : Word) (f : Nat) : Kept :=
  { msg := Msg.mk (.vc s.vk) d .request (.store ⟨s.nextId + 1, s.ix, 0⟩ p v .plain none) none false, slot := s.ix, why := .token f,
    wide := true, fresh := true }

/-- The request b has left for d by an issue that leaves the token table as tk. -/
structure SentWith (s z : State) (d : Dest) (b : Body) (tk : FMap Token) : Prop where
  issuing : Issuing s z
  tokens : z.myVc.tokens = tk
  left : Left s z d b

section
variable {s u : State} (h : Issuing s u) (hc : u.cores = s.cores) (hn : u.nextId = s.nextId) (d : Dest) (p v : Word) (tok : Nat)
  (own : Option (Nat × Nat))
include h

theorem Issuing.tag_issueStore (hn : u.nextId = s.nextId) (bt : Nat) (d : Dest) (own : Option (Nat × Nat)) :
    (u.issueStore bt d own).1 = ⟨s.nextId + 1, s.ix, bt⟩ := by
  rw [State.tag_issueStore, hn, h.ix]

include hc in
/-- An issue whose request enters egress. -/
theorem Issuing.sentWith_emit (hk : u.myVc.kept = []) (b : Body) : SentWith s (u.emit u.vk u.ix d b) d b u.myVc.tokens := by
  rw [h.vk, h.ix]
  exact ⟨h.emit hk .., by rw [h.myVc_emit hk], h.left_emit hc hk ..⟩

include hc hn

theorem Issuing.depStore_plain (hk : u.myVc.kept = []) : SentWith s (u.depStore d p v tok .plain own) d
    (.store ⟨s.nextId + 1, s.ix, 0⟩ p v .plain none) u.myVc.tokens := by
  have hi := h.trans (u.issuing_issueStore 0 d own)
  have hs := hi.sentWith_emit ((u.cores_issueStore ..).trans hc) d (State.kept_issueStore hk ..) (.store ⟨s.nextId + 1, s.ix, 0⟩ p v .plain none)
  have hv : (u.issueStore 0 d own).2.vk = u.vk := (u.issuing_issueStore 0 d own).vk
  have hx : (u.issueStore 0 d own).2.ix = u.ix := (u.issuing_issueStore 0 d own).ix
  rw [hv, hx, State.myVc_issueStore] at hs
  simp only [State.depStore, h.tag_issueStore hn]
  exact hs

omit h hc hn in
theorem depStore_held_eq (f : Nat) : u.depStore d p v tok (.held f) own =
    ((u.issueStore 0 d own).2.updMyVc (fun c => { c with tokens := FMap.upd c.tokens f (Token.withDep d) })).emit u.vk u.ix d
      (.store (u.issueStore 0 d own).1 p v .plain (some tok)) := rfl

/-- A store held on the token of entry f makes its destination a dependant. -/
theorem Issuing.depStore_held (f : Nat) (hk : u.myVc.kept = []) :
    SentWith s (u.depStore d p v tok (.held f) own) d (.store ⟨s.nextId + 1, s.ix, 0⟩ p v .plain (some tok))
      (FMap.upd u.myVc.tokens f (Token.withDep d)) := by
  have hi := u.issuing_issueStore 0 d own
  rw [depStore_held_eq, h.tag_issueStore hn]
  generalize hw : (u.issueStore 0 d own).2.updMyVc (fun c => { c with tokens := FMap.upd c.tokens f (Token.withDep d) }) = w
  have hiw : Issuing u w := hw ▸ hi.trans (State.issuing_updMyVc rfl)
  have hm : w.myVc = { (u.issueStore 0 d own).2.myVc with tokens := FMap.upd u.myVc.tokens f (Token.withDep d) } := by
    rw [← hw, State.myVc_updMyVc, State.myVc_issueStore]
  have hcw : w.cores = s.cores := hw ▸ (u.cores_issueStore 0 d own).trans hc
  have hkw : w.myVc.kept = [] := by rw [hm]; exact State.kept_issueStore hk ..
  have hs := (h.trans hiw).sentWith_emit hcw d hkw (.store ⟨s.nextId + 1, s.ix, 0⟩ p v .plain (some tok))
  rw [hiw.vk, hiw.ix, hm] at hs
  exact hs

/-- A store kept at its source is last among the kept requests. -/
theorem Issuing.depStore_kept (f : Nat) : let z := u.depStore d p v tok (.kept f) own
    Issuing s z ∧ z.myVc.tokens = u.myVc.tokens ∧ z.cores = s.cores ∧ ∃ k, z.myVc.kept = u.myVc.kept ++ [k] ∧
      k.msg = Msg.mk (.vc s.vk) d .request (.store ⟨s.nextId + 1, s.ix, 0⟩ p v .plain none) none false ∧ k.why = .token f := by
  have hi := u.issuing_issueStore 0 d own
  have hz : u.depStore d p v tok (.kept f) own =
      (u.issueStore 0 d own).2.updMyVc (fun c => { c with kept := c.kept ++ [s.keptStore d p v f] }) := by
    simp only [State.depStore, h.tag_issueStore hn, State.keep, State.updMyVc, hi.vk, h.vk, h.ix, State.keptStore]
  rw [hz]
  refine ⟨(h.trans hi).trans (State.issuing_updMyVc rfl), ?_, (u.cores_issueStore 0 d own).trans hc, s.keptStore d p v f, ?_, rfl, rfl⟩
  · rw [State.myVc_updMyVc, State.myVc_issueStore]
  · rw [State.myVc_updMyVc, State.myVc_issueStore]

end

/-! A store that is discarded. -/

/-- The virtual core once the store just issued is discarded: its access ends, and its batch has SDX. -/
def VCore.discarded (v : VCore) (id epoch : Nat) : VCore :=
  ({ v with unacked := v.unacked.filter (fun a => a.id != id) }).addBits 0 epoch sdxBit

theorem Vector.getD_zero_eq {v : Vector Batch 4} (d : Batch) : v.getD 0 d = v[0] := by simp [Vector.getD]

/-- Counting a store keeps the epoch of its batch. -/
theorem State.epoch_countIn (s : State) (vk : Nat) (d : Dest) : (((s.countIn vk 0 d).1.vc vk).batches[0]).epoch = ((s.vc vk).batches[0]).epoch := by
  have hput (c : Batch) (hc : c.epoch = ((s.vc vk).batches[0]).epoch) :
      ((((s.updVc vk (fun v => { v with batches := v.batches.setIfInBounds 0 c }))).vc vk).batches[0]).epoch = ((s.vc vk).batches[0]).epoch := by
    simp only [State.vc_updVc_self, Vector.getElem_setIfInBounds_self, hc]
  unfold State.countIn
  extract_lets b put far
  have hb : b.epoch = ((s.vc vk).batches[0]).epoch := congrArg Batch.epoch (Vector.getD_zero_eq _)
  split
  · rfl
  · split
    · exact hput _ hb
    · split
      · exact hput _ hb
      · exact hput _ hb

theorem VCore.discarded_eq {v : VCore} {epoch : Nat} (id : Nat) (h : v.batches[0].epoch = epoch) : v.discarded id epoch =
    { v with unacked := v.unacked.filter (fun a => a.id != id),
             batches := v.batches.setIfInBounds 0 { v.batches[0] with bits := v.batches[0].bits ||| sdxBit } } := by
  have hb : v.batches.getD 0 {} = v.batches[0] := Vector.getD_zero_eq _
  simp only [VCore.discarded, VCore.addBits, hb, h, beq_self_eq_true, if_true]

/-- The state of such a store, before what the discarding of its own token brings. -/
def State.discardIssue (s : State) (d : Dest) (own : Option (Nat × Nat)) : State :=
  (s.issueStore 0 d own).2.updMyVc (fun c => c.discarded (s.issueStore 0 d own).1.id (s.myVc.batches.getD 0 {}).epoch)

theorem State.depStore_discard (s : State) (d : Dest) (p v : Word) (tok : Nat) (own : Option (Nat × Nat)) :
    s.depStore d p v tok .discard own = match own with
      | some (e, _) => (s.discardIssue d own).expire s.vk e
      | none => s.discardIssue d own := by
  rfl

section
variable (s : State) (d : Dest) (own : Option (Nat × Nat))

theorem State.epoch_issueStore : (s.issueStore 0 d own).2.myVc.batches[0].epoch = (s.myVc.batches.getD 0 {}).epoch := by
  rw [Vector.getD_zero_eq]
  simp only [State.myVc_issueStore]
  exact s.epoch_countIn s.vk d

theorem State.myVc_discardIssue : (s.discardIssue d own).myVc = { s.myVc with
    unacked := (s.myVc.unacked ++ [s.accessFor 0 d own]).filter (fun a => a.id != s.nextId + 1),
    batches := ((s.countIn s.vk 0 d).1.vc s.vk).batches.setIfInBounds 0 { ((s.countIn s.vk 0 d).1.vc s.vk).batches[0] with
      bits := (((s.countIn s.vk 0 d).1.vc s.vk).batches[0]).bits ||| sdxBit } } := by
  rw [State.discardIssue, State.myVc_updMyVc, VCore.discarded_eq _ (s.epoch_issueStore d own), State.myVc_issueStore, State.tag_issueStore]

theorem State.bits_discardIssue : ((s.discardIssue d own).myVc.batches[0]).bits.getLsbD 3 = true := by
  simp only [State.myVc_discardIssue, Vector.getElem_setIfInBounds_self]
  simp [sdxBit]

theorem State.issuing_discardIssue : Issuing s (s.discardIssue d own) := by
  refine (s.issuing_issueStore 0 d own).trans (State.issuing_updMyVc ?_)
  rw [VCore.discarded_eq _ (s.epoch_issueStore d own)]

theorem State.cores_discardIssue : (s.discardIssue d own).cores = s.cores := s.cores_issueStore 0 d own

end

end Sys2Proof.Machine
end

section
/-! PROOFS. TST, TWAIT, TFREE, DST and DTST (R207 to R210, R212, R213, R196). -/

namespace Sys2Proof.Machine

open Sys2Proof.Claim

/-! The token of a discarded store expires at once (R213). -/

theorem State.vc_expiryFault (s : State) (vk slot tok : Nat) (pc : Word) (k : Nat) : (s.expiryFault vk slot tok pc).vc k = s.vc k := by
  unfold State.expiryFault
  extract_lets key sl
  split
  · unfold State.mail
    split <;> rfl
  · rfl

theorem Slot.p27_wake (sl : Slot) (p : Await → Bool) (c : Nat) : (sl.wake p c).p27 = sl.p27 := (congrArg Slot.p27 (sl.wake_rest p c) :)

theorem Slot.p27_nudge (sl : Slot) (c : Nat) : (sl.nudge c).p27 = sl.p27 := by
  unfold Slot.nudge
  split <;> exact Slot.p27_wake ..

/-- The fault of a slot that issues is noted at it. -/
theorem State.p27_expiryFault {s : State} {vk slot : Nat} (tok : Nat) (pc : Word) (h : (s.slot (slotKey vk slot)).st = .issuing) :
    tok ∈ ((s.expiryFault vk slot tok pc).slot (slotKey vk slot)).p27 := by
  unfold State.expiryFault
  extract_lets key sl
  have hst : sl.st = .issuing := h
  rw [if_neg (by rw [hst]; decide), State.slot_updSlot_self, Slot.p27_nudge]
  exact List.mem_append_right _ (List.mem_singleton_self tok)

theorem State.slot_notify (vk : Nat) (b : Body) (k : Nat) : ∀ (ds : List Dest) (s : State), (s.notify vk b ds).slot k = s.slot k
  | [], _ => rfl
  | d :: ds, s => (State.slot_notify vk b k ds (s.answer (.vc vk) d b)).trans rfl

theorem State.vc_wakeVc (s : State) (vk : Nat) (p : Await → Bool) (k : Nat) : (s.wakeVc vk p).vc k = s.vc k := rfl

/-- Waking leaves a slot that issues as it is. -/
theorem State.st_wakeVc {s : State} {k : Nat} (vk : Nat) (p : Await → Bool) (h : (s.slot k).st = .issuing) : ((s.wakeVc vk p).slot k).st = .issuing := by
  rw [State.slot_wakeVc]
  split
  · rw [Slot.wake_of_not_parked (by rw [h]; nofun), h]
  · exact h

section
variable (s : State) (vk e : Nat)

/-- The entry as it stands after it has expired. -/
theorem State.vc_noteExpiry : ∃ k, (s.noteExpiry vk e).vc vk = { s.vc vk with
    tokens := FMap.set (s.vc vk).tokens e { FMap.getD (s.vc vk).tokens e {} with st := .expired, ended := k } } := by
  refine ⟨(s.notify vk (.expiry (tokenVal (FMap.getD (s.vc vk).tokens e {}).slot e (FMap.getD (s.vc vk).tokens e {}).gen))
    (FMap.getD (s.vc vk).tokens e {}).deps).freshId.1, ?_⟩
  have hv : (s.notify vk (.expiry (tokenVal (FMap.getD (s.vc vk).tokens e {}).slot e (FMap.getD (s.vc vk).tokens e {}).gen))
    (FMap.getD (s.vc vk).tokens e {}).deps).freshId.2.vc vk = s.vc vk := State.vc_notify vk _ vk _ s
  rw [State.noteExpiry, State.vc_expiryFault, State.vc_wakeVc, State.vc_updVc_self, hv]

theorem State.p27_noteExpiry {x : Token} (hx : FMap.getD (s.vc vk).tokens e {} = x) (hst : (s.slot (slotKey vk x.slot)).st = .issuing) :
    tokenVal x.slot e x.gen ∈ ((s.noteExpiry vk e).slot (slotKey vk x.slot)).p27 := by
  unfold State.noteExpiry
  rw [hx]
  refine State.p27_expiryFault _ _ ?_
  have hs : (s.notify vk (.expiry (tokenVal x.slot e x.gen)) x.deps).slot (slotKey vk x.slot) = s.slot (slotKey vk x.slot) :=
    State.slot_notify vk _ _ _ s
  exact State.st_wakeVc vk _ ((congrArg Slot.st hs).trans hst)

end

theorem slotKey_vk_ix (s : State) : slotKey s.vk s.ix = s.cur := by
  unfold slotKey State.vk State.ix
  omega

theorem Slot.p27_retireAt_writeX (sl : Slot) (rd : BitVec 5) (v p : Word) : ((sl.writeX rd v).retireAt p).p27 = sl.p27 := by
  unfold Slot.writeX Slot.retireAt
  split <;> rfl

/-- What the expiry of a token that the current slot has just taken leaves, when the slot issues and waits for nothing. -/
structure ExpiredAtOnce (s t : State) (e : Nat) : Prop where
  cur : t.cur = s.cur
  slot : { t.slot s.cur with p27 := s.me.p27, wakeAt := s.me.wakeAt } = s.me
  entry : (FMap.getD (t.vc s.vk).tokens e {}).valid = true ∧ (FMap.getD (t.vc s.vk).tokens e {}).gen = (FMap.getD s.myVc.tokens e {}).nextGen ∧
    (FMap.getD (t.vc s.vk).tokens e {}).slot = s.ix ∧ (FMap.getD (t.vc s.vk).tokens e {}).st = .expired
  bits : ((t.vc s.vk).batches[0]).bits.getLsbD 3 = true
  fault : tokenVal s.ix e (FMap.getD s.myVc.tokens e {}).nextGen ∈ (t.slot s.cur).p27
  mem : t.mem = s.mem

section
variable {s u : State} (h : Issuing s u) {e : Nat} {d : Dest} (he : FMap.getD (u.vc s.vk).tokens e {} = s.takenEntry e d)
include h he

omit h in
theorem State.entry_expire : ∃ k, FMap.getD ((u.expire s.vk e).vc s.vk).tokens e {} = { s.takenEntry e d with st := .expired, ended := k } := by
  have hout : (FMap.getD (u.vc s.vk).tokens e {}).isOut = true := by rw [he]; rfl
  obtain ⟨k, hk⟩ := u.vc_noteExpiry s.vk e
  have hn : FMap.getD ((u.noteExpiry s.vk e).vc s.vk).tokens e {} = { s.takenEntry e d with st := .expired, ended := k } := by
    rw [hk, ← he]
    exact FMap.getD_set_self ..
  exact ⟨k, ((u.aftermath_expire_of_out s.vk hout).vc.tokens e (by rw [hn]; rfl)).trans hn⟩

theorem Issuing.fault_expire (hst : s.me.st = .issuing) (hhold : s.me.hold = none) :
    tokenVal s.ix e (FMap.getD s.myVc.tokens e {}).nextGen ∈ ((u.expire s.vk e).slot s.cur).p27 := by
  have hout : (FMap.getD (u.vc s.vk).tokens e {}).isOut = true := by rw [he]; rfl
  have hme : u.slot s.cur = s.me := h.slot s.cur
  have hkey : slotKey s.vk (s.takenEntry e d).slot = s.cur := slotKey_vk_ix s
  have hin := u.p27_noteExpiry s.vk e he (by rw [hkey, hme]; exact hst)
  rw [hkey] at hin
  have hnoted := (u.aftermath_noteExpiry s.vk hout).slots s.cur
  rw [hme] at hnoted
  have hh : ((u.noteExpiry s.vk e).slot s.cur).hold = s.me.hold := (congrArg Slot.hold (hnoted.quiet hhold).1 :)
  exact (((u.aftermath_expire_of_out s.vk hout).slots s.cur).quiet (hh.trans hhold)).2 _ hin

theorem Issuing.expiredAtOnce (hb : ((u.vc s.vk).batches[0]).bits.getLsbD 3 = true) (hst : s.me.st = .issuing) (hhold : s.me.hold = none) :
    ExpiredAtOnce s (u.expire s.vk e) e := by
  have all := u.aftermath_expire s.vk e
  have hnoted := all.slots s.cur
  rw [h.slot] at hnoted
  obtain ⟨k, hk⟩ := State.entry_expire he
  exact {
    cur := all.cur.trans h.cur
    slot := (hnoted.quiet hhold).1
    entry := by rw [hk]; exact ⟨rfl, rfl, rfl, rfl⟩
    bits := all.vc.bits 0 (by decide) 3 hb
    fault := h.fault_expire he hst hhold
    mem := all.mem.trans h.mem }

end

/-- Such a slot then completes with the token in x[rd]. -/
theorem ExpiredAtOnce.result {s t : State} {e : Nat} (h : ExpiredAtOnce s t e) (rd : XReg) (val : Word) :
    (∀ r, (t.result rd val).x r = if r = rd ∧ rd ≠ 0 then val else s.x r) ∧ (t.result rd val).me.pc = s.me.pc + 4 ∧
    (t.result rd val).myVc = t.vc s.vk ∧ (t.result rd val).me.p27 = (t.slot s.cur).p27 := by
  have hme : t.me = t.slot s.cur := by rw [State.me, h.cur]
  have hx : (t.slot s.cur).x = s.me.x := (congrArg Slot.x h.slot :)
  have hpc : (t.slot s.cur).pc = s.me.pc := (congrArg Slot.pc h.slot :)
  have hvk : t.vk = s.vk := congrArg (· / 16) h.cur
  refine ⟨fun r => ?_, ?_, ?_, ?_⟩
  · have hxr : t.x r = s.x r := by rw [State.x, hme, Slot.readX, hx]; rfl
    rw [State.x_result, hxr]
  · rw [(State.did_result t rd val).pc, hme, hpc]
  · show t.vc t.vk = _
    rw [hvk]
  · rw [State.me_result, Slot.p27_retireAt_writeX, hme]

/-! What an issue leaves once its instruction has completed. -/

theorem SentWith.result {s z : State} {d : Dest} {b : Body} {tk : FMap Token} (h : SentWith s z d b tk) (rd : XReg) (w : Word) :
    Issued s (z.result rd w) rd w ∧ (z.result rd w).myVc.tokens = tk ∧ Left s (z.result rd w) d b :=
  ⟨h.issuing.issued_result rd w, h.tokens, h.left⟩

theorem SentWith.retire {s z : State} {d : Dest} {b : Body} {tk : FMap Token} (h : SentWith s z d b tk) :
    Issued s z.retire 0 0 ∧ z.retire.myVc.tokens = tk ∧ Left s z.retire d b :=
  ⟨h.issuing.issued_retire, h.tokens, h.left⟩

/-- The access of a tokened store, with whatever way it goes, is issued from the state in which its entry is taken. -/
theorem State.withToken_sentWith {s : State} (hk : s.myVc.kept = []) (e : Nat) (d : Dest) (p v : Word) (tok : Nat) :
    SentWith s ((s.withToken e d).depStore d p v tok .plain (some (e, (FMap.getD s.myVc.tokens e {}).nextGen))) d
      (.store ⟨s.nextId + 1, s.ix, 0⟩ p v .plain none) (FMap.set s.myVc.tokens e (s.takenEntry e d)) := by
  have h := (s.issuing_withToken e d).depStore_plain rfl rfl d p v tok (some (e, (FMap.getD s.myVc.tokens e {}).nextGen))
    (by rw [State.myVc_withToken]; exact hk)
  rwa [State.myVc_withToken] at h

/-- A token that is live is listed. -/
theorem VCore.get?_of_recognise {v : VCore} {t f : Nat} {x : Token} (h : v.recognise t = .live f x) : FMap.get? v.tokens f = some x := by
  obtain ⟨hx, hv⟩ := VCore.recognise_live h
  exact FMap.get?_of_getD_ne hx (fun e => by rw [e] at hv; cases hv)

/-- An issue that touches no core, completed. -/
theorem Issuing.retire_rest {s u : State} (h : Issuing s u) (hc : u.cores = s.cores) :
    { u.retire with slots := s.slots, vcs := s.vcs, nextId := s.nextId } = s := by
  have hu : u = { s with vcs := u.vcs, cores := s.cores, nextId := u.nextId } := by rw [← hc, ← h.rest]
  rw [hu]; rfl

/-- What a discarded store leaves once it has completed. -/
theorem Issuing.retire_discarded {s u : State} (h : Issuing s u) (hc : u.cores = s.cores) (ht : u.myVc.tokens = s.myVc.tokens)
    (hb : (u.myVc.batches[0]).bits.getLsbD 3 = true) : u.retire.me.x = s.me.x ∧ u.retire.me.pc = s.me.pc + 4 ∧ u.retire.me.f = s.me.f ∧
      (∀ k, k ≠ s.cur → u.retire.slot k = s.slot k) ∧ u.retire.myVc.tokens = s.myVc.tokens ∧
      { u.retire with slots := s.slots, vcs := s.vcs, nextId := s.nextId } = s ∧ (u.retire.myVc.batches[0]).bits.getLsbD 3 = true := by
  have hd := h.issued_retire
  have hm : u.retire.me = u.me.retireAt (u.me.pc + 4) := State.me_retire u
  refine ⟨?_, hd.pc, ?_, hd.others, ht, h.retire_rest hc, hb⟩
  · rw [hm, h.me]; rfl
  · rw [hm, h.me]; rfl

/-! The instructions with their places free. -/

section
variable {s : State} {rd rs1 rs2 rs3 : XReg} {e : Nat} (hg : Good (s.x rs1))
include hg

theorem exec_tst_of_entry (hc : s.myVc.countedFull = false) (hclear : Clear s) (he : s.myVc.tokenEntry = some e) :
    exec (.tst rd rs2 rs1) s = .next (((s.withToken e (s.target s.vk (s.x rs1))).depStore (s.target s.vk (s.x rs1)) (s.x rs1) (s.x rs2) 0 .plain
      (some (e, (FMap.getD s.myVc.tokens e {}).nextGen))).result rd
      (BitVec.ofNat 64 (tokenVal s.ix e (FMap.getD s.myVc.tokens e {}).nextGen))) := by
  rw [exec_tst hg, State.storeRoom_of_canSend hc, State.canSend_of_clear hclear, State.withRoom, if_pos rfl, he]

theorem exec_tst_of_no_entry (hc : s.myVc.countedFull = false) (hclear : Clear s) (he : s.myVc.tokenEntry = none) :
    exec (.tst rd rs2 rs1) s = .next (s.waitOn true) := by
  rw [exec_tst hg, State.storeRoom_of_canSend hc, State.canSend_of_clear hclear, State.withRoom, if_pos rfl, he]

variable {way : DepWay} (hw : depWay (s.myVc.recognise ((s.x rs3).toNat % 65536)) (s.target s.vk (s.x rs1)) = some way)
  (hr : s.depRoom (s.target s.vk (s.x rs1)) way = true)
include hw hr

theorem exec_dst_of_room : exec (.dst rs2 rs1 rs3) s =
    .next (s.depStore (s.target s.vk (s.x rs1)) (s.x rs1) (s.x rs2) ((s.x rs3).toNat % 65536) way none).retire := by
  rw [exec_dst hg hw, hr, State.withRoom, if_pos rfl]

theorem exec_dtst_of_entry (he : s.myVc.tokenEntry = some e) : exec (.dtst rd rs2 rs1 rs3) s =
    .next (((s.withToken e (s.target s.vk (s.x rs1))).depStore (s.target s.vk (s.x rs1)) (s.x rs1) (s.x rs2) ((s.x rs3).toNat % 65536) way
      (some (e, (FMap.getD s.myVc.tokens e {}).nextGen))).result rd
      (BitVec.ofNat 64 (tokenVal s.ix e (FMap.getD s.myVc.tokens e {}).nextGen))) := by
  rw [exec_dtst hg hw, hr, State.withRoom, if_pos rfl, he]

theorem exec_dtst_of_no_entry (he : s.myVc.tokenEntry = none) : exec (.dtst rd rs2 rs1 rs3) s = .next (s.waitOn true) := by
  rw [exec_dtst hg hw, hr, State.withRoom, if_pos rfl, he]

end

/-- The table with one entry taken. -/
theorem getD_set_token (m : FMap Token) (e : Nat) (y : Token) :
    (∀ j, j ≠ e → FMap.getD (FMap.set m e y) j {} = FMap.getD m j {}) ∧ FMap.getD (FMap.set m e y) e {} = y :=
  ⟨fun _ hj => FMap.getD_set_ne _ _ _ hj, FMap.getD_set_self ..⟩

section
variable {s : State} {rd rs1 rs2 rs3 : XReg} {e : Nat} (hg : Good (s.x rs1)) (hclear : Clear s) (hc : s.myVc.countedFull = false)
  (he : s.myVc.tokenEntry = some e)
include hg hclear hc he

/-- A tokened store that goes at once: TST, and DTST of a token that has landed or is stale. -/
theorem dtst_plain (hw : depWay (s.myVc.recognise ((s.x rs3).toNat % 65536)) (s.target s.vk (s.x rs1)) = some .plain) :
    ∃ t, exec (.dtst rd rs2 rs1 rs3) s = .next t ∧ Issued s t rd (BitVec.ofNat 64 (tokenVal s.ix e (FMap.getD s.myVc.tokens e {}).nextGen)) ∧
      (∀ j, j ≠ e → FMap.getD t.myVc.tokens j {} = FMap.getD s.myVc.tokens j {}) ∧
      FMap.getD t.myVc.tokens e {} = s.takenEntry e (s.target s.vk (s.x rs1)) ∧
      Left s t (s.target s.vk (s.x rs1)) (.store ⟨s.nextId + 1, s.ix, 0⟩ (s.x rs1) (s.x rs2) .plain none) := by
  obtain ⟨hi, ht, hl⟩ := (State.withToken_sentWith hclear.1 e (s.target s.vk (s.x rs1)) (s.x rs1) (s.x rs2) ((s.x rs3).toNat % 65536)).result rd
    (BitVec.ofNat 64 (tokenVal s.ix e (FMap.getD s.myVc.tokens e {}).nextGen))
  obtain ⟨hothers, hentry⟩ := getD_set_token s.myVc.tokens e (s.takenEntry e (s.target s.vk (s.x rs1)))
  refine ⟨_, exec_dtst_of_entry hg hw (State.depRoom_plain hc _ hclear) he, hi, ?_, ?_, hl⟩
  · rw [ht]; exact hothers
  · rw [ht]; exact hentry

theorem tst_plain : ∃ t, exec (.tst rd rs2 rs1) s = .next t ∧
      Issued s t rd (BitVec.ofNat 64 (tokenVal s.ix e (FMap.getD s.myVc.tokens e {}).nextGen)) ∧
      (∀ j, j ≠ e → FMap.getD t.myVc.tokens j {} = FMap.getD s.myVc.tokens j {}) ∧
      FMap.getD t.myVc.tokens e {} = s.takenEntry e (s.target s.vk (s.x rs1)) ∧
      Left s t (s.target s.vk (s.x rs1)) (.store ⟨s.nextId + 1, s.ix, 0⟩ (s.x rs1) (s.x rs2) .plain none) := by
  obtain ⟨hi, ht, hl⟩ := (State.withToken_sentWith hclear.1 e (s.target s.vk (s.x rs1)) (s.x rs1) (s.x rs2) 0).result rd
    (BitVec.ofNat 64 (tokenVal s.ix e (FMap.getD s.myVc.tokens e {}).nextGen))
  obtain ⟨hothers, hentry⟩ := getD_set_token s.myVc.tokens e (s.takenEntry e (s.target s.vk (s.x rs1)))
  refine ⟨_, exec_tst_of_entry hg hc hclear he, hi, ?_, ?_, hl⟩
  · rw [ht]; exact hothers
  · rw [ht]; exact hentry

end

/-! DST: one lemma for each way that the store goes. -/

section
variable {s : State} {rs1 rs2 rs3 : XReg} {e : Nat} {x : Token} (hg : Good (s.x rs1))
include hg

theorem dst_plain (hclear : Clear s) (hc : s.myVc.countedFull = false)
    (hw : depWay (s.myVc.recognise ((s.x rs3).toNat % 65536)) (s.target s.vk (s.x rs1)) = some .plain) :
    ∃ t, exec (.dst rs2 rs1 rs3) s = .next t ∧ Issued s t 0 0 ∧ t.myVc.tokens = s.myVc.tokens ∧
      Left s t (s.target s.vk (s.x rs1)) (.store ⟨s.nextId + 1, s.ix, 0⟩ (s.x rs1) (s.x rs2) .plain none) := by
  obtain ⟨hi, ht, hl⟩ := ((Issuing.refl s).depStore_plain rfl rfl (s.target s.vk (s.x rs1)) (s.x rs1) (s.x rs2) ((s.x rs3).toNat % 65536) none
    hclear.1).retire
  exact ⟨_, exec_dst_of_room hg hw (State.depRoom_plain hc _ hclear), hi, ht, hl⟩

variable (h : s.myVc.recognise ((s.x rs3).toNat % 65536) = .live e x)
include h

theorem dst_held (hclear : Clear s) (hc : s.myVc.countedFull = false) (hx : x.st = .pending) (hs : (s.target s.vk (s.x rs1)).isSig = false)
    (hd : s.target s.vk (s.x rs1) ∈ x.deps ∨ x.deps.length < 8) :
    ∃ t, exec (.dst rs2 rs1 rs3) s = .next t ∧ Issued s t 0 0 ∧ FMap.getD t.myVc.tokens e {} = x.withDep (s.target s.vk (s.x rs1)) ∧
      (∀ j, j ≠ e → FMap.getD t.myVc.tokens j {} = FMap.getD s.myVc.tokens j {}) ∧
      Left s t (s.target s.vk (s.x rs1)) (.store ⟨s.nextId + 1, s.ix, 0⟩ (s.x rs1) (s.x rs2) .plain (some ((s.x rs3).toNat % 65536))) := by
  have hw := (congrArg (depWay · (s.target s.vk (s.x rs1))) h).trans (depWay_held hx hs hd)
  obtain ⟨hi, ht, hl⟩ := ((Issuing.refl s).depStore_held rfl rfl (s.target s.vk (s.x rs1)) (s.x rs1) (s.x rs2) ((s.x rs3).toNat % 65536) none e
    hclear.1).retire
  have htok := FMap.getD_upd_listed (VCore.get?_of_recognise h) (Token.withDep (s.target s.vk (s.x rs1)))
  refine ⟨_, exec_dst_of_room hg hw (State.depRoom_held hc _ hclear e), hi, ?_, fun j hj => ?_, hl⟩
  · rw [ht, htok, if_pos rfl]
  · rw [ht, htok, if_neg hj]

theorem dst_kept (hx : x.st = .pending)
    (hk : (s.target s.vk (s.x rs1)).isSig = true ∨ s.target s.vk (s.x rs1) ∉ x.deps ∧ 8 ≤ x.deps.length) (hlt : s.myVc.keptStores < 32)
    (hc : s.myVc.countedFull = false) :
    ∃ t, exec (.dst rs2 rs1 rs3) s = .next t ∧ Issued s t 0 0 ∧ t.myVc.tokens = s.myVc.tokens ∧
      t.cores = s.cores ∧ t.net = s.net ∧ ∃ k, t.myVc.kept = s.myVc.kept ++ [k] ∧ k.msg = Msg.mk (.vc s.vk) (s.target s.vk (s.x rs1)) .request
        (.store ⟨s.nextId + 1, s.ix, 0⟩ (s.x rs1) (s.x rs2) .plain none) none false ∧ k.why = .token e := by
  have hw := (congrArg (depWay · (s.target s.vk (s.x rs1))) h).trans (depWay_kept hx hk)
  obtain ⟨hi, ht, hcores, k, hkept, hm, hwhy⟩ := (Issuing.refl s).depStore_kept rfl rfl (s.target s.vk (s.x rs1)) (s.x rs1) (s.x rs2)
    ((s.x rs3).toNat % 65536) none e
  exact ⟨_, exec_dst_of_room hg hw (State.depRoom_kept hc _ hlt e), hi.issued_retire, ht, hcores, hi.net, k, hkept, hm, hwhy⟩

theorem dst_discard (hx : x.st = .expired) :
    ∃ t, exec (.dst rs2 rs1 rs3) s = .next t ∧ t.me.x = s.me.x ∧ t.me.pc = s.me.pc + 4 ∧ t.me.f = s.me.f ∧
      (∀ k, k ≠ s.cur → t.slot k = s.slot k) ∧ t.myVc.tokens = s.myVc.tokens ∧
      { t with slots := s.slots, vcs := s.vcs, nextId := s.nextId } = s ∧ (t.myVc.batches[0]).bits.getLsbD 3 = true := by
  have hw := (congrArg (depWay · (s.target s.vk (s.x rs1))) h).trans (depWay_expired hx _)
  have ht : (s.discardIssue (s.target s.vk (s.x rs1)) none).myVc.tokens = s.myVc.tokens := by rw [State.myVc_discardIssue]
  exact ⟨_, exec_dst_of_room hg hw rfl, (s.issuing_discardIssue _ none).retire_discarded (s.cores_discardIssue _ none) ht
    (s.bits_discardIssue _ none)⟩

/-- With 32 stores kept, DST and DTST meet the rule for a full egress. -/
theorem kept_full {rd : XReg} (hx : x.st = .pending)
    (hk : (s.target s.vk (s.x rs1)).isSig = true ∨ s.target s.vk (s.x rs1) ∉ x.deps ∧ 8 ≤ x.deps.length) (hfull : 32 ≤ s.myVc.keptStores)
    {i : Instr} (hi : i = .dst rs2 rs1 rs3 ∨ i = .dtst rd rs2 rs1 rs3) :
    ∃ k, exec i s = .next (s.withRoom i false k) := by
  have hw := (congrArg (depWay · (s.target s.vk (s.x rs1))) h).trans (depWay_kept hx hk)
  have hr := State.depRoom_kept_full hfull (s.target s.vk (s.x rs1)) e
  rcases hi with rfl | rfl
  · exact ⟨_, hr ▸ exec_dst hg hw⟩
  · exact ⟨_, hr ▸ exec_dtst hg hw⟩

end

/-! DTST of a token that is pending or has expired. -/

section
variable {s : State} {rd rs1 rs2 rs3 : XReg} {e f : Nat} {x : Token} (hg : Good (s.x rs1))
  (h : s.myVc.recognise ((s.x rs3).toNat % 65536) = .live f x) (he : s.myVc.tokenEntry = some e)
include hg h he

theorem dtst_held (hclear : Clear s) (hc : s.myVc.countedFull = false) (hx : x.st = .pending) (hne : f ≠ e)
    (hs : (s.target s.vk (s.x rs1)).isSig = false) (hd : s.target s.vk (s.x rs1) ∈ x.deps ∨ x.deps.length < 8) :
    ∃ t, exec (.dtst rd rs2 rs1 rs3) s = .next t ∧ Issued s t rd (BitVec.ofNat 64 (tokenVal s.ix e (FMap.getD s.myVc.tokens e {}).nextGen)) ∧
      (∀ j, j ≠ e → j ≠ f → FMap.getD t.myVc.tokens j {} = FMap.getD s.myVc.tokens j {}) ∧
      FMap.getD t.myVc.tokens e {} = s.takenEntry e (s.target s.vk (s.x rs1)) ∧
      FMap.getD t.myVc.tokens f {} = x.withDep (s.target s.vk (s.x rs1)) ∧
      Left s t (s.target s.vk (s.x rs1)) (.store ⟨s.nextId + 1, s.ix, 0⟩ (s.x rs1) (s.x rs2) .plain (some ((s.x rs3).toNat % 65536))) := by
  have hw := (congrArg (depWay · (s.target s.vk (s.x rs1))) h).trans (depWay_held hx hs hd)
  have hkept : (s.withToken e (s.target s.vk (s.x rs1))).myVc.kept = [] := by rw [State.myVc_withToken]; exact hclear.1
  obtain ⟨hi, ht, hl⟩ := ((s.issuing_withToken e (s.target s.vk (s.x rs1))).depStore_held rfl rfl (s.target s.vk (s.x rs1)) (s.x rs1) (s.x rs2)
    ((s.x rs3).toNat % 65536) (some (e, (FMap.getD s.myVc.tokens e {}).nextGen)) f hkept).result rd
      (BitVec.ofNat 64 (tokenVal s.ix e (FMap.getD s.myVc.tokens e {}).nextGen))
  obtain ⟨hothers, hentry⟩ := getD_set_token s.myVc.tokens e (s.takenEntry e (s.target s.vk (s.x rs1)))
  have hlisted : FMap.get? (FMap.set s.myVc.tokens e (s.takenEntry e (s.target s.vk (s.x rs1)))) f = some x := by
    rw [FMap.get?_set, if_neg hne.symm]
    exact VCore.get?_of_recognise h
  have htok := FMap.getD_upd_listed hlisted (Token.withDep (s.target s.vk (s.x rs1)))
  rw [State.myVc_withToken] at ht
  refine ⟨_, exec_dtst_of_entry hg hw (State.depRoom_held hc _ hclear f) he, hi, fun j hj hjf => ?_, ?_, ?_, hl⟩
  · rw [ht, htok, if_neg hjf, hothers j hj]
  · rw [ht, htok, if_neg hne.symm, hentry]
  · rw [ht, htok, if_pos rfl]

theorem dtst_kept (hx : x.st = .pending)
    (hk : (s.target s.vk (s.x rs1)).isSig = true ∨ s.target s.vk (s.x rs1) ∉ x.deps ∧ 8 ≤ x.deps.length) (hlt : s.myVc.keptStores < 32)
    (hc : s.myVc.countedFull = false) :
    ∃ t, exec (.dtst rd rs2 rs1 rs3) s = .next t ∧ Issued s t rd (BitVec.ofNat 64 (tokenVal s.ix e (FMap.getD s.myVc.tokens e {}).nextGen)) ∧
      (∀ j, j ≠ e → FMap.getD t.myVc.tokens j {} = FMap.getD s.myVc.tokens j {}) ∧
      FMap.getD t.myVc.tokens e {} = s.takenEntry e (s.target s.vk (s.x rs1)) ∧
      t.cores = s.cores ∧ t.net = s.net ∧ ∃ k, t.myVc.kept = s.myVc.kept ++ [k] ∧ k.msg = Msg.mk (.vc s.vk) (s.target s.vk (s.x rs1)) .request
        (.store ⟨s.nextId + 1, s.ix, 0⟩ (s.x rs1) (s.x rs2) .plain none) none false ∧ k.why = .token f := by
  have hw := (congrArg (depWay · (s.target s.vk (s.x rs1))) h).trans (depWay_kept hx hk)
  obtain ⟨hi, ht, hcores, k, hkept, hm, hwhy⟩ := (s.issuing_withToken e (s.target s.vk (s.x rs1))).depStore_kept rfl rfl (s.target s.vk (s.x rs1))
    (s.x rs1) (s.x rs2) ((s.x rs3).toNat % 65536) (some (e, (FMap.getD s.myVc.tokens e {}).nextGen)) f
  rw [State.myVc_withToken] at ht hkept
  obtain ⟨hothers, hentry⟩ := getD_set_token s.myVc.tokens e (s.takenEntry e (s.target s.vk (s.x rs1)))
  refine ⟨_, exec_dtst_of_entry hg hw (State.depRoom_kept hc _ hlt f) he, hi.issued_result rd _, fun j hj => ?_, ?_, hcores, hi.net, k, hkept,
    hm, hwhy⟩
  · exact (congrArg (FMap.getD · j {}) ht).trans (hothers j hj)
  · exact (congrArg (FMap.getD · e {}) ht).trans hentry

/-- Its own token expires at once with the discarded store. -/
theorem dtst_discard (hx : x.st = .expired) (hst : s.me.st = .issuing) (hhold : s.me.hold = none) :
    ∃ u, exec (.dtst rd rs2 rs1 rs3) s =
        .next (u.result rd (BitVec.ofNat 64 (tokenVal s.ix e (FMap.getD s.myVc.tokens e {}).nextGen))) ∧ ExpiredAtOnce s u e := by
  have hw := (congrArg (depWay · (s.target s.vk (s.x rs1))) h).trans (depWay_expired hx _)
  have hi := (s.issuing_withToken e (s.target s.vk (s.x rs1))).trans ((s.withToken e (s.target s.vk (s.x rs1))).issuing_discardIssue
    (s.target s.vk (s.x rs1)) (some (e, (FMap.getD s.myVc.tokens e {}).nextGen)))
  have hv := (s.withToken e (s.target s.vk (s.x rs1))).myVc_discardIssue (s.target s.vk (s.x rs1))
    (some (e, (FMap.getD s.myVc.tokens e {}).nextGen))
  have hb := (s.withToken e (s.target s.vk (s.x rs1))).bits_discardIssue (s.target s.vk (s.x rs1))
    (some (e, (FMap.getD s.myVc.tokens e {}).nextGen))
  have hx := exec_dtst_of_entry (rd := rd) (rs2 := rs2) hg hw rfl he
  rw [State.depStore_discard] at hx
  rw [State.myVc, hi.vk] at hv hb
  refine ⟨_, hx, hi.expiredAtOnce (d := s.target s.vk (s.x rs1)) ?_ hb hst hhold⟩
  rw [hv, State.myVc_withToken]
  exact FMap.getD_set_self ..

end

/-- A tokened store waits while its virtual core has no free entry. -/
theorem dtst_waits {s : State} {rd rs1 rs2 rs3 : XReg} (hg : Good (s.x rs1)) (hclear : Clear s) (hc : s.myVc.countedFull = false)
    (he : s.myVc.tokenEntry = none) (hne : s.myVc.recognise ((s.x rs3).toNat % 65536) ≠ .foreign)
    (hkept : ∀ f x, s.myVc.recognise ((s.x rs3).toNat % 65536) = .live f x → x.st = .pending →
      ¬ ((s.target s.vk (s.x rs1)).isSig = true ∨ s.target s.vk (s.x rs1) ∉ x.deps ∧ 8 ≤ x.deps.length)) :
    ∃ t, exec (.dtst rd rs2 rs1 rs3) s = .next t ∧ HeldBack s t := by
  have wait {way : DepWay} (hw : depWay (s.myVc.recognise ((s.x rs3).toNat % 65536)) (s.target s.vk (s.x rs1)) = some way)
      (hr : s.depRoom (s.target s.vk (s.x rs1)) way = true) : ∃ t, exec (.dtst rd rs2 rs1 rs3) s = .next t ∧ HeldBack s t :=
    ⟨_, exec_dtst_of_no_entry hg hw hr he, s.heldBack_waitOn⟩
  cases hrec : s.myVc.recognise ((s.x rs3).toNat % 65536) with
  | foreign => exact absurd hrec hne
  | stale => exact wait (way := .plain) (by rw [hrec]; rfl) (State.depRoom_plain hc _ hclear)
  | live f x =>
    cases hst : x.st with
    | landed => exact wait (by rw [hrec]; exact depWay_landed hst _) (State.depRoom_plain hc _ hclear)
    | expired => exact wait (by rw [hrec]; exact depWay_expired hst _) rfl
    | pending =>
      obtain ⟨hs, hd⟩ := held_of_not_kept (hkept f x hrec hst)
      exact wait (by rw [hrec]; exact depWay_held hst hs hd) (State.depRoom_held hc _ hclear f)

/-- Settles O42: each way a store goes is one lemma about depStore, and TST and DTST take their entry first. -/
theorem tokenInstructions : Obligations.TokenInstructions := by
  intro s rd rs1 rs2 rs3 e x
  refine ⟨?tst, ?foreign, encode_twait rs1, encode_tfree rs1, ?stale, ?ended, ?pending, ?dstForeign, ?dstPlain, ?dstHeld, ?full, ?dstKept,
    ?dstDiscard, ?noEntry, ?dtstLanded, ?dtstPending, ?dtstExpired, ?dtstStale, ?dtstForeign, ptrTraps_of_withPtr exec_tst_withPtr.choose_spec,
    ptrTraps_of_withPtr exec_dst_withPtr.choose_spec, ptrTraps_of_withPtr exec_dtst_withPtr.choose_spec⟩
  case tst =>
    rintro ⟨hg, hclear, hc⟩ he
    obtain ⟨t, hx, hi, ho, hn, hl⟩ := tst_plain (rd := rd) (rs2 := rs2) hg hclear hc he
    exact ⟨t, hx, hi, ho, by dsimp only; rw [hn]; exact s.takenEntry_named e _, hl⟩
  case foreign =>
    exact fun h => ⟨⟨_, exec_twait_foreign h, s.trapped_trap 31 _⟩, ⟨_, exec_tfree_foreign h, s.trapped_trap 31 _⟩⟩
  case stale => exact fun h => ⟨⟨_, exec_twait_stale h, s.did_retire⟩, ⟨_, exec_tfree_stale h, s.did_retire⟩⟩
  case ended =>
    intro h hx
    obtain ⟨hd, ho, hy⟩ := s.vcDone_setToken e (Token.free x)
    exact ⟨⟨_, exec_twait_ended h hx, s.did_retire⟩, _, exec_tfree_ended h hx, hd, ho, by dsimp only; rw [hy]; exact ⟨rfl, rfl⟩⟩
  case pending =>
    intro h hx
    obtain ⟨hd, ho, hy⟩ := s.vcDone_setToken e { x with fol := true }
    exact ⟨⟨_, exec_twait_pending h hx, s.parked_parkOn _⟩, _, exec_tfree_pending h hx, hd, ho, hy⟩
  case dstForeign => exact fun h hg => ⟨_, exec_dst_foreign hg h, s.trapped_trap 31 _⟩
  case dtstForeign => exact fun h hg => ⟨_, exec_dtst_foreign hg h, s.trapped_trap 31 _⟩
  case dstPlain =>
    rintro ⟨hg, hclear, hc⟩ (⟨h, hx⟩ | h)
    · exact dst_plain hg hclear hc (by rw [h]; exact depWay_landed hx _)
    · exact dst_plain hg hclear hc (by rw [h]; rfl)
  case dstHeld =>
    rintro ⟨hg, hclear, hc⟩ h hx hs hd
    obtain ⟨t, ht, hi, hn, ho, hl⟩ := dst_held (rs2 := rs2) hg h hclear hc hx hs hd
    rw [Token.withDep_eq] at hn
    exact ⟨t, ht, hi, by dsimp only; rw [hn], ho, by dsimp only; rw [hn], hl⟩
  case full =>
    intro i hi hg h hx hk hfull
    exact egressRule_of_withRoom (kept_full hg h hx hk hfull hi).choose_spec
  case dstKept => exact dst_kept
  case dstDiscard => exact dst_discard
  case noEntry =>
    rintro ⟨hg, hclear, hc⟩ he
    exact ⟨⟨_, exec_tst_of_no_entry hg hc hclear he, s.heldBack_waitOn⟩, fun hne hkept hsame => dtst_waits hg hclear hc he hne
      fun f y hf hy => by obtain rfl := hsame f y hf; exact hkept f hf hy⟩
  case dtstLanded =>
    rintro f ⟨hg, hclear, hc⟩ h he hx
    obtain ⟨t, hx, hi, ho, hn, hl⟩ := dtst_plain (rd := rd) (rs2 := rs2) hg hclear hc he (by rw [h]; exact depWay_landed hx _)
    exact ⟨t, hx, hi, ho, by dsimp only; rw [hn]; exact s.takenEntry_named e _, hl⟩
  case dtstStale =>
    rintro ⟨hg, hclear, hc⟩ h he
    obtain ⟨t, hx, hi, ho, hn, hl⟩ := dtst_plain (rd := rd) (rs2 := rs2) hg hclear hc he (by rw [h]; rfl)
    exact ⟨t, hx, hi, ho, by dsimp only; rw [hn]; exact s.takenEntry_named e _, hl⟩
  case dtstPending =>
    intro f h he hx hne
    refine ⟨fun ⟨hg, hclear, hc⟩ hs hd => ?_, fun hg hk hlt hc => ?_⟩
    · obtain ⟨t, ht, hi, hr, hn, hf, hl⟩ := dtst_held (rd := rd) (rs2 := rs2) hg h he hclear hc hx hne hs hd
      exact ⟨t, ht, hi, hr, by dsimp only; rw [hn]; exact s.takenEntry_named e _, hf.trans (x.withDep_eq _), hl⟩
    · obtain ⟨t, ht, hi, ho, hn, hrest⟩ := dtst_kept (rd := rd) (rs2 := rs2) hg h he hx hk hlt hc
      exact ⟨t, ht, hi, ho, by dsimp only; rw [hn]; exact s.takenEntry_named e _, hrest⟩
  case dtstExpired =>
    intro f hg h he hx hst hhold
    obtain ⟨u, ht, hu⟩ := dtst_discard (rd := rd) (rs2 := rs2) hg h he hx hst hhold
    obtain ⟨hregs, hpc, hv, hp⟩ := hu.result rd (BitVec.ofNat 64 (tokenVal s.ix e (FMap.getD s.myVc.tokens e {}).nextGen))
    obtain ⟨hvalid, hgen, hslot, hend⟩ := hu.entry
    refine ⟨_, ht, hregs, hpc, ?_, ?_, ?_, ?_, ?_, ?_, hu.mem⟩
    · dsimp only; rw [hv]; exact hvalid
    · dsimp only; rw [hv]; exact hgen
    · dsimp only; rw [hv]; exact hslot
    · dsimp only; rw [hv]; exact hend
    · rw [hv]; exact hu.bits
    · rw [hp]; exact hu.fault

end Sys2Proof.Machine
end

section
/-! PROOFS. Request egress, port messages, the spill area and reissued requests (R196, R357, R415, R416). -/

namespace Sys2Proof.Machine

open Sys2Proof.Claim

/-! Virtual cores with nothing kept. -/

theorem State.pump_of_kept_nil {s : State} {vk : Nat} (h : (s.vc vk).kept = []) : s.pump vk = s.updVc vk (fun v => { v with kept := [] }) := by
  unfold State.pump
  rw [h]
  rfl

theorem State.foldl_pump_of_kept_nil : ∀ (ks : List Nat) (s : State), (∀ j ∈ ks, (s.vc j).kept = []) →
    ∃ vs, ks.foldl (fun t k => t.pump k) s = { s with vcs := vs }
  | [], s, _ => ⟨s.vcs, rfl⟩
  | k :: ks, s, h => by
    have hstill (j : Nat) (hj : j ∈ ks) : ((s.updVc k (fun v => { v with kept := [] })).vc j).kept = [] := by
      rw [State.vc_updVc]
      split
      · rfl
      · exact h j (List.mem_cons_of_mem k hj)
    obtain ⟨vs, hvs⟩ := State.foldl_pump_of_kept_nil ks (s.updVc k (fun v => { v with kept := [] })) hstill
    exact ⟨vs, by rw [List.foldl_cons, State.pump_of_kept_nil (h k List.mem_cons_self), hvs]; rfl⟩

/-- The first link takes the oldest request. -/
theorem exec_requestEgressAccept {s : State} {m : Msg} {rest : List Msg} (he : (s.core s.ev.key).egress = m :: rest)
    (hfar : s.farRoom m = true) (hcredit : s.hasCredit s.ev.key = true) (hkept : ∀ j ∈ s.hosted s.ev.key, (s.vc j).kept = []) :
    ∃ vs, exec .requestEgressAccept s = .next { (s.updCore s.ev.key (fun c => { c with egress := rest })).send m with vcs := vs } := by
  obtain ⟨vs, hvs⟩ := State.foldl_pump_of_kept_nil (s.hosted s.ev.key) ((s.updCore s.ev.key (fun c => { c with egress := rest })).send m) hkept
  refine ⟨vs, ?_⟩
  show execRequestEgressAccept s = _
  simp only [execRequestEgressAccept, he, hfar, hcredit, Bool.not_true, Bool.or_self, Bool.false_eq_true, if_false, hvs]

/-! PORT_OUT_TAKE. -/

theorem bits_low (w : Word) (n : Nat) : bits w n 0 = w.toNat % 2 ^ (n + 1) := by simp [bits]

theorem vnetOf_eq_request_iff (v : BitVec 2) : vnetOf v = .request ↔ v = 0 := by
  revert v
  decide

/-- The message of the head of a port-out ring. -/
def State.portMsg (s : State) (vk ix : Nat) : Msg :=
  let q := s.ring vk ix
  let h := Memory.word s.mem (s.ringAddr vk ix q.head)
  Msg.mk (.vc vk) (.vc (vkey (s.vc vk).gid (h.toNat % 65536))) (vnetOf q.vnet)
    (.port (vnetOf q.vnet) (h.toNat / 65536 % 256) (h.extractLsb' 24 40 ++ q.port ++ BitVec.ofNat 16 (s.vc vk).vcid)) none false

/-- The state once u has taken that head. -/
def State.portTaken (s u : State) (vk ix : Nat) : State :=
  (u.advHead vk ix 1).updCore (s.coreOf vk) (fun c => { c with tookCyc := s.cycOf vk + 1 })

theorem exec_portOutTake {s : State} {ix : Nat} (h : s.portToTake s.ev.key = some ix) (hk : (s.vc s.ev.key).kept = []) :
    exec .portOutTake s = .next (s.portTaken (if vnetOf (s.ring s.ev.key ix).vnet == .request then s.enterEgress s.ev.key (s.portMsg s.ev.key ix)
      else s.send (s.portMsg s.ev.key ix)) s.ev.key ix) := by
  have hb (d : Dest) (net : VNet) : (s.vc s.ev.key).blockerOn 16 d net = none := by rw [VCore.blockerOn, hk]; rfl
  show execPortOutTake s = _
  simp only [execPortOutTake, h, State.emitOn, hb, bits_low]
  rfl

section
variable {s u : State} (hv : u.vcs = s.vcs) (vk ix : Nat)

theorem State.mem_portTaken : (s.portTaken u vk ix).mem = u.mem := u.advHead_mem vk ix 1
theorem State.net_portTaken : (s.portTaken u vk ix).net = u.net := (congrArg State.net (u.advHead_rest vk ix 1) :)

theorem State.core_portTaken : (s.portTaken u vk ix).core (s.coreOf vk) = { u.core (s.coreOf vk) with tookCyc := s.cycOf vk + 1 } := by
  have hc : (u.advHead vk ix 1).cores = u.cores := (congrArg State.cores (u.advHead_rest vk ix 1) :)
  rw [State.portTaken, State.core_updCore, if_pos rfl, State.core, hc]
  rfl

include hv in
theorem State.ring_portTaken : (s.portTaken u vk ix).ring vk ix =
    { s.ring vk ix with head := ((s.ring vk ix).head + 1) % (s.ring vk ix).count, fill := (s.ring vk ix).fill - 1 } := by
  have hr : u.ring vk ix = s.ring vk ix := by rw [State.ring, State.vc, hv]; rfl
  have h := u.ring_advHead vk ix 1 ix
  rw [if_pos rfl, hr] at h
  exact h

end

/-! The spill area. -/

theorem CodeMarked.queues {s t : State} (h : CodeMarked s t) (g : Nat) : (t.core g).egress = (s.core g).egress ∧
    (t.core g).spill = (s.core g).spill := ⟨(congrArg PCore.egress (h g) :), (congrArg PCore.spill (h g) :)⟩

theorem State.codeMarked_land (s : State) (a : Nat) (bs : List Byte) : CodeMarked s (s.land a bs) := by
  rw [State.land]
  exact State.codeMarked_codeWritten rfl a bs.length

/-- t is s but for slots, a mark of stored code, and bytes of memory in [lo, hi). -/
structure LandedIn (lo hi : Nat) (s t : State) : Prop where
  vcs : t.vcs = s.vcs
  net : t.net = s.net
  queues : ∀ g, (t.core g).egress = (s.core g).egress ∧ (t.core g).spill = (s.core g).spill
  mem : ∀ j, j < lo ∨ hi ≤ j → Memory.read t.mem j = Memory.read s.mem j

theorem LandedIn.refl (lo hi : Nat) (s : State) : LandedIn lo hi s s := ⟨rfl, rfl, fun _ => ⟨rfl, rfl⟩, fun _ _ => rfl⟩

theorem LandedIn.trans {lo hi : Nat} {s t u : State} (h : LandedIn lo hi s t) (k : LandedIn lo hi t u) : LandedIn lo hi s u where
  vcs := k.vcs.trans h.vcs
  net := k.net.trans h.net
  queues g := ⟨(k.queues g).1.trans (h.queues g).1, (k.queues g).2.trans (h.queues g).2⟩
  mem j hj := (k.mem j hj).trans (h.mem j hj)

theorem State.landedIn_land (s : State) {a lo hi : Nat} {bs : List Byte} (hlo : lo ≤ a) (hhi : a + bs.length ≤ hi) :
    LandedIn lo hi s (s.land a bs) where
  vcs := s.vcs_land a bs
  net := s.net_land a bs
  queues := CodeMarked.queues (s.codeMarked_land a bs)
  mem j hj := by rw [State.mem_land, Memory.read_setBytes, if_neg (by omega)]

theorem length_bytesOfWords (ws : List Word) : (bytesOfWords ws).length = 8 * ws.length := by
  simp [bytesOfWords, List.length_flatMap, Nat.mul_comm]

theorem length_sealFlit (f : Flit) : (sealFlit f).length ≤ 8 := by
  simp only [sealFlit, List.length_append, List.length_take, List.length_singleton]
  omega

/-- A flit of a message fills at most 64 bytes. -/
theorem State.length_headFlit (s : State) (m : Msg) : (bytesOfWords ((s.flitsOf m 0 false).headD [])).length ≤ 64 := by
  rw [length_bytesOfWords]
  suffices h : ((s.flitsOf m 0 false).headD []).length ≤ 8 by omega
  simp only [State.flitsOf]
  generalize (chunks5 128 m.body.payload).zipIdx = ps
  cases ps with
  | nil => exact Nat.zero_le 8
  | cons p ps => exact length_sealFlit _

/-- Flits written into the first n places of the spill area stay in these. -/
theorem State.landedIn_foldl_land (g n : Nat) (f : Msg → List Byte) (hf : ∀ m, (f m).length ≤ 64) : ∀ (ps : List (Msg × Nat)) (s : State),
    (∀ p ∈ ps, p.2 < n) → LandedIn (lmAddr g 0xF3000) (lmAddr g (0xF3000 + 64 * n)) s
      (ps.foldl (fun t p => t.land (lmAddr g (spillOff + 64 * p.2)) (f p.1)) s)
  | [], s, _ => .refl _ _ s
  | p :: ps, s, h => by
    have hp : p.2 < n := h p List.mem_cons_self
    have hl := hf p.1
    refine LandedIn.trans (s.landedIn_land ?_ ?_) (State.landedIn_foldl_land g n f hf ps _ fun q hq => h q (List.mem_cons_of_mem p hq))
    · simp only [lmAddr, spillOff]; omega
    · simp only [lmAddr, spillOff]; omega

theorem State.landedIn_putSpill (s : State) (g : Nat) (l : List Msg) :
    LandedIn (lmAddr g 0xF3000) (lmAddr g (0xF3000 + 64 * l.length)) (s.updCore g (fun c => { c with spill := l })) (s.putSpill g l) := by
  refine State.landedIn_foldl_land g _ _ s.length_headFlit _ _ fun p hp => ?_
  have := List.snd_lt_of_mem_zipIdx hp
  omega

section
variable (s : State) (g : Nat) (l : List Msg)

theorem State.vcs_putSpill : (s.putSpill g l).vcs = s.vcs := (s.landedIn_putSpill g l).vcs
theorem State.net_putSpill : (s.putSpill g l).net = s.net := (s.landedIn_putSpill g l).net

theorem State.spill_putSpill : ((s.putSpill g l).core g).spill = l := by
  rw [((s.landedIn_putSpill g l).queues g).2, State.core_updCore, if_pos rfl]

/-- The area of 64 messages holds what is written. -/
theorem State.read_putSpill (hl : l.length ≤ 64) {j : Nat} (hj : j < lmAddr g 0xF3000 ∨ lmAddr g 0xF4000 ≤ j) :
    Memory.read (s.putSpill g l).mem j = Memory.read s.mem j := by
  refine (s.landedIn_putSpill g l).mem j (hj.imp_right fun h => le_trans ?_ h)
  simp only [lmAddr]
  omega

end

/-! PORT_MESSAGE_DELIVERY. -/

theorem State.portPut_mem_ring {s u : State} (hv : u.vcs = s.vcs) (vk ix : Nat) (w : Word) :
    Memory.word (u.portPut vk ix w).mem (s.ringAddr vk ix (s.ring vk ix).tail) = w ∧
    (u.portPut vk ix w).ring vk ix = { s.ring vk ix with tail := ((s.ring vk ix).tail + 1) % (s.ring vk ix).count, fill := (s.ring vk ix).fill + 1 } := by
  have hc (k : Nat) : u.vc k = s.vc k := congrArg (fun l => FMap.getD l k ({} : VCore)) hv
  have hr : u.ring vk ix = s.ring vk ix := by rw [State.ring, hc, State.ring]
  have ha : u.ringAddr vk ix (s.ring vk ix).tail = s.ringAddr vk ix (s.ring vk ix).tail := by
    rw [State.ringAddr, State.coreOf, hc, hr, State.ringAddr, State.coreOf]
  rw [State.portPut, hr, ha]
  refine ⟨?_, ?_⟩
  · rw [State.mem_advTail, State.mem_land, Memory.setBytes_bytesOf]
    exact Memory.word_setWord_self ..
  · rw [State.ring_advTail, if_pos rfl, State.ring_land, hr]

theorem State.spill_portPut (s : State) (vk ix : Nat) (w : Word) (g : Nat) : ((s.portPut vk ix w).core g).spill = (s.core g).spill := by
  have hc (u : State) : (u.advTail vk ix 1).core g = u.core g := rfl
  rw [State.portPut, hc]
  exact (CodeMarked.queues (s.codeMarked_land (s.ringAddr vk ix (s.ring vk ix).tail) (bytesOf w.toNat 8)) g).2

section
variable {s : State} {m : Msg} {vk ix port : Nat} {net : VNet} {w : Word} (hb : m.body = .port net port w) (hin : s.portIn vk net port = some ix)
include hb hin

/-- A ring with room takes the word, when no message to its port waits in the spill area. -/
theorem exec_portMessageDelivery_put (hp : Performed s m vk) (hr : (s.ring vk ix).fill < (s.ring vk ix).count)
    (hs : (s.core (s.coreOf vk)).spilled m = false) : exec .portMessageDelivery s = .next ((s.takeEv.useBank m).portPut vk ix w) := by
  have hroom : s.takeEv.portRoom vk ix = true := decide_eq_true hr
  have hin' : s.takeEv.portIn vk net port = some ix := hin
  have hs' : (s.takeEv.core (s.coreOf vk)).spilled m = false := hs
  show execPortMessageDelivery s = _
  simp only [execPortMessageDelivery, State.evAccess_of_performed hp, hp.1.dst, hb, State.gate_of_arrives hp.1, hin', hroom, hs', Bool.not_false,
    Bool.and_self, if_true]

variable (hr : (s.ring vk ix).count ≤ (s.ring vk ix).fill)
include hr

/-- At a full ring a reply or a control message goes to the spill area while that has room. -/
theorem exec_portMessageDelivery_spill (hp : Performed s m vk) (hn : net ≠ .request) (hs : (s.core (s.coreOf vk)).spill.length < 64) :
    exec .portMessageDelivery s = .next (s.takeEv.putSpill (s.coreOf vk) ((s.core (s.coreOf vk)).spill ++ [m])) := by
  have hroom : s.takeEv.portRoom vk ix = false := decide_eq_false (Nat.not_lt.mpr hr)
  have hin' : s.takeEv.portIn vk net port = some ix := hin
  have hgo : (net != VNet.request && decide ((s.takeEv.core (s.coreOf vk)).spill.length < 64)) = true := by
    rw [Bool.and_eq_true]
    exact ⟨bne_iff_ne.mpr hn, decide_eq_true hs⟩
  show execPortMessageDelivery s = _
  simp only [execPortMessageDelivery, State.evAccess_of_performed hp, hp.1.dst, hb, State.gate_of_arrives hp.1, hin', hroom, hgo, Bool.false_and,
    Bool.false_eq_true, if_false, if_true]
  rfl

/-- A request waits for its full ring. -/
theorem exec_portMessageDelivery_stuck (hp : Arrives s m vk) (hn : net = .request) : exec .portMessageDelivery s = .next s := by
  have hroom : s.takeEv.portRoom vk ix = false := decide_eq_false (Nat.not_lt.mpr hr)
  have hin' : s.takeEv.portIn vk net port = some ix := hin
  have hgo : (net != VNet.request) = false := by rw [hn]; rfl
  show execPortMessageDelivery s = _
  cases hf : s.homeFree m with
  | true =>
    simp only [execPortMessageDelivery, State.evAccess_of_performed ⟨hp, hf⟩, hp.dst, hb, State.gate_of_arrives hp, hin', hroom, hgo,
      Bool.false_and, Bool.false_eq_true, if_false]
  | false =>
    have hnone : s.evAccess = none := by rw [State.evAccess, hp.msg]; simp [Option.filter, hf]
    simp only [execPortMessageDelivery, hnone]

end

/-- The first message of the spill area whose ring has room leaves for it. -/
theorem exec_portMessageSpillRelease {s : State} {m : Msg} {vk ix port : Nat} {net : VNet} {w : Word} (hm : s.spillReady s.ev.key = some m)
    (hf : s.homeFree m = true) (hd : m.dst = .vc vk) (hb : m.body = .port net port w) (hin : s.portIn vk net port = some ix) :
    exec .portMessageSpillRelease s =
      .next (((s.useBank m).putSpill s.ev.key ((s.core s.ev.key).spill.erase m)).portPut vk ix w) := by
  show execPortMessageSpillRelease s = _
  simp only [execPortMessageSpillRelease, hm, hf, Bool.not_true, Bool.false_eq_true, if_false, hd, hb, hin]

/-! ABSENT_RETRY_REISSUE. -/

/-- A request that an absent virtual core turned back, as its source keeps it until cycle due. -/
def keptAbsent (vk : Nat) (d : Dest) (b : Body) (due : Nat) : Kept :=
  { msg := { src := .vc vk, dst := d, net := b.net, body := b }, slot := b.slotOf, why := .absent due, wide := true, ret := true }

theorem exec_absentRetryReissue_arrives {s : State} {m : Msg} {vk : Nat} {b : Body} (hv : s.ev.val = 0) (hm : s.evMsg = some m)
    (hd : m.dst = .vc vk) (hb : m.body = .retry b true) (hlive : (s.vc vk).live = true) (hk : (s.vc vk).kept = []) (hh : b.heldOn = none)
    (hf : (s.vc vk).frozen = false) : exec .absentRetryReissue s =
      .next (s.takeEv.updVc vk (fun v => { v with kept := [keptAbsent vk m.src b (s.cycOf vk + 64)] })) := by
  have hv1 : (s.ev.val == 1) = false := by rw [hv]; decide
  have hex : s.expiredOn vk b = false := by rw [State.expiredOn, hh]; rfl
  have hkept : s.takeEv.keepReturned vk m.src b (.absent (s.cycOf vk + 64)) true m.resent =
      s.takeEv.updVc vk (fun v => { v with kept := [keptAbsent vk m.src b (s.cycOf vk + 64)] }) := by
    unfold State.keepReturned
    refine State.updVc_congr _ ?_
    have hk' : (s.takeEv.vc vk).kept = [] := hk
    rw [hk']
    rfl
  have hstop : (s.takeEv.updVc vk (fun v => { v with kept := [keptAbsent vk m.src b (s.cycOf vk + 64)] })).stopWenq vk =
      s.takeEv.updVc vk (fun v => { v with kept := [keptAbsent vk m.src b (s.cycOf vk + 64)] }) := by
    rw [State.stopWenq, State.vc_updVc_self]
    exact if_neg (by rw [show (s.takeEv.vc vk).frozen = false from hf]; nofun)
  show execAbsentRetryReissue s = _
  simp only [execAbsentRetryReissue, hv1, State.retryArrives, hm, hd, hb, hlive, hex, bne_self_eq_false, Bool.not_true, Bool.false_eq_true, if_false,
    if_true, Option.getD_some, hkept, hstop]

/-- A request without a token is sent as it is kept. -/
theorem VCore.ready_of_heldOn {x : Kept} (hh : x.msg.body.heldOn = none) (v : VCore) (again : Bool) :
    v.ready x again = { x.msg with resent := again } := by
  obtain ⟨⟨src, dst, net, body, before, resent⟩, slot, why, wide, ret, refused, fresh⟩ := x
  cases body with
  | store t p d k h => cases (show h = none from hh); rfl
  | _ => rfl

/-- The state with nothing kept at a virtual core. -/
def State.noneKept (s : State) (vk : Nat) : State := s.updVc vk (fun v => { v with kept := [] })

section
variable {s : State} {x : Kept} {due : Nat} (hk : (s.vc s.ev.key).kept = [x]) (hw : x.why = .absent due) (hh : x.msg.body.heldOn = none)
  (hn : x.msg.net = .request) (ho : x.msg.body.unordered = false)
include hk hw hh hn

theorem State.dueKept_of_single (hdue : due ≤ s.cycOf s.ev.key) (hlive : (s.vc s.ev.key).live = true) (hp : (s.vc s.ev.key).place.isSome = true)
    (hc : (s.vc s.ev.key).copying = false) (hq : (s.gang (s.vc s.ev.key).gid).quiesced = false)
    (hfl : s.inFlight s.ev.key x.msg.dst .request = false) (hroom : (s.core (s.coreOf s.ev.key)).egress.length < 32) :
    s.dueKept s.ev.key true = some x := by
  have hplace : (s.vc s.ev.key).place.isNone = false := by simpa using hp
  have hr : s.egressRoom s.ev.key = true := decide_eq_true hroom
  have hsend : s.sendable s.ev.key [] x (s.cycOf s.ev.key) = true := by
    simp [State.sendable, hq, hn, hfl, hh, hw, hdue]
  simp [State.dueKept, hlive, hplace, hc, hk, hw, hdue, hsend, hr]

include ho in
theorem exec_absentRetryReissue_due (hv : s.ev.val = 1) (hdue : s.dueKept s.ev.key true = some x) : exec .absentRetryReissue s =
    .next (((s.noneKept s.ev.key).enterEgress s.ev.key { x.msg with resent := x.ret }).noneKept s.ev.key) := by
  have hv1 : (s.ev.val == 1) = true := by rw [hv]; decide
  have hput : s.updVc s.ev.key (fun v => { v with kept := v.kept.erase x }) = s.noneKept s.ev.key := by
    refine State.updVc_congr _ ?_
    rw [hk, List.erase_cons_head]
  have hres : s.resend s.ev.key x = (s.noneKept s.ev.key).enterEgress s.ev.key { x.msg with resent := x.ret } := by
    simp only [State.resend, hw, VCore.ready_of_heldOn hh, hput, hn, ho, bne_self_eq_false, Bool.or_self, Bool.false_eq_true, if_false]
  have hkept : (((s.noneKept s.ev.key).enterEgress s.ev.key { x.msg with resent := x.ret }).vc s.ev.key).kept = [] := by
    show ((s.updVc s.ev.key (fun v => { v with kept := [] })).vc s.ev.key).kept = []
    rw [State.vc_updVc_self]
  show execAbsentRetryReissue s = _
  simp only [execAbsentRetryReissue, hv1, if_true, hdue, hres, State.pump_of_kept_nil hkept]
  rfl

end

/-- Settles O50, an event at a time. -/
theorem requestNetwork : Obligations.RequestNetwork := by
  intro s m rest vk ix port net w
  refine ⟨?egress, ?portOut, ?put, ?spill, ?stuck, ?release, ?turned, ?due⟩
  case egress =>
    intro he hfar hcredit hkept
    obtain ⟨vs, h⟩ := exec_requestEgressAccept he hfar hcredit hkept
    refine ⟨_, h, ?_, rfl, rfl, rfl⟩
    show ((s.updCore s.ev.key (fun c => { c with egress := rest })).core s.ev.key).egress = rest
    rw [State.core_updCore, if_pos rfl]
  case portOut =>
    intro h hk
    refine ⟨_, exec_portOutTake h hk, State.ring_portTaken ?_ _ _, ?_, fun hn => ?_, fun hn => ?_, ?_⟩
    · split <;> rfl
    · rw [State.mem_portTaken]
      split <;> rfl
    · have he : (vnetOf (s.ring s.ev.key ix).vnet == VNet.request) = true := beq_iff_eq.mpr ((vnetOf_eq_request_iff _).mpr hn)
      rw [he, if_pos rfl, State.core_portTaken, State.net_portTaken]
      exact ⟨State.egress_enterEgress .., rfl⟩
    · have he : (vnetOf (s.ring s.ev.key ix).vnet == VNet.request) = false := beq_eq_false_iff_ne.mpr (mt (vnetOf_eq_request_iff _).mp hn)
      rw [he, if_neg nofun, State.core_portTaken, State.net_portTaken]
      exact ⟨rfl, rfl⟩
    · rw [State.core_portTaken]
  case put =>
    intro hp hb hin hr hs
    have hhome := s.atHome_useBank m
    refine ⟨_, exec_portMessageDelivery_put hb hin hp hr hs, State.portPut_mem_ring hhome.vcs vk ix w, ?_⟩
    rw [State.portPut, State.net_advTail, State.net_land, hhome.net]
  case spill =>
    intro hp hb hin hr hn hs
    refine ⟨_, exec_portMessageDelivery_spill hb hin hr hp hn hs, State.vcs_putSpill .., State.spill_putSpill .., State.net_putSpill ..,
      fun j hj => State.read_putSpill _ _ _ ?_ hj⟩
    rw [List.length_append, List.length_singleton]
    exact hs
  case stuck => exact fun hp hb hin hr => exec_portMessageDelivery_stuck hb hin hr hp rfl
  case release =>
    intro hm hf hd hb hin
    refine ⟨_, exec_portMessageSpillRelease hm hf hd hb hin, State.portPut_mem_ring ?_ vk ix w, ?_⟩
    · rw [State.vcs_putSpill]
      exact (congrArg State.vcs (s.useBank_rest m) :)
    · exact (State.spill_portPut ..).trans (State.spill_putSpill ..)
  case turned =>
    intro b hv hm hd hb hlive hk hh hf
    exact ⟨_, keptAbsent vk m.src b (s.cycOf vk + 64), exec_absentRetryReissue_arrives hv hm hd hb hlive hk hh hf,
      congrArg VCore.kept (State.vc_updVc_self ..), rfl, rfl, rfl, rfl, rfl, rfl⟩
  case due =>
    intro x due hv hk hw hdue hlive hp hc hq hh hn ho hfl hroom
    refine ⟨_, exec_absentRetryReissue_due hk hw hh hn ho hv (State.dueKept_of_single hk hw hh hn hdue hlive hp hc hq hfl hroom),
      ?_, rfl, ?_⟩
    · rw [State.noneKept, State.vc_updVc_self]
    · have hcore : (s.noneKept s.ev.key).coreOf s.ev.key = s.coreOf s.ev.key := by
        rw [State.coreOf, State.noneKept, State.vc_updVc_self]
        rfl
      have := (s.noneKept s.ev.key).egress_enterEgress s.ev.key { x.msg with resent := x.ret }
      rw [hcore] at this
      exact this

end Sys2Proof.Machine
end

section
/-! PROOFS. Segments, fitness and the layout table (R215, R216, R224, R239). -/

namespace Sys2Proof.Machine

open Sys2Proof.Claim

/-! The reasons of R216. -/

/-- The conditions under which LTSET rejects an image, by their reason. -/
def layoutFault (w : List Word) (uMode named : Bool) : Nat → Bool :=
  let l := layoutOfWords w
  let far := l.space == 1 || l.space == 6
  fun
  | 1 => l.space == 7 || (uMode && decide (3 ≤ l.space)) || (far && l.rspace != 0 && l.rspace != 2)
  | 7 => (l.perm != 0 && !(l.space == 0 || l.space == 1)) || (l.bank && !(l.space == 2 || (l.space == 1 && l.rspace == 2))) ||
      (l.vcid != 0 && !(l.space == 1 || (l.space == 6 && decide (l.vcid < 8))))
  | 9 => named
  | 10 => bits (w.getD 0 0) 11 6 != 0 || bit (w.getD 2 0) 63 || bits (w.getD 3 0) 47 24 != 0 || (far && l.base / 2 ^ 24 % 16 != 0)
  | _ => false

theorem layoutReject_eq (w : List Word) (uMode named : Bool) : layoutReject w uMode named = firstFrom (layoutFault w uMode named) 1 10 := by
  simp only [layoutReject, firstFrom, layoutFault, Bool.false_eq_true, if_false]

/-- The why of Obligations.SegmentsAndTables, for the words of an image. -/
def State.LayoutWhy (s : State) (i : Nat) (w0 w2 w3 : Word) (k : Nat) : Prop :=
  let n0 := fun (lo len : Nat) => w0.toNat / 2 ^ lo % 2 ^ len
  let space := n0 0 3
  let rspace := n0 60 4
  let far := space = 1 ∨ space = 6
  let vcid := w3.toNat / 2 ^ 48 % 2 ^ 16
  (k = 1 ∧ (space = 7 ∨ s.me.mode = .u ∧ 3 ≤ space ∨ far ∧ rspace ≠ 0 ∧ rspace ≠ 2)) ∨
  (k = 7 ∧ (n0 4 2 ≠ 0 ∧ space ≠ 0 ∧ space ≠ 1 ∨ n0 3 1 = 1 ∧ space ≠ 2 ∧ ¬ (space = 1 ∧ rspace = 2) ∨
    vcid ≠ 0 ∧ space ≠ 1 ∧ ¬ (space = 6 ∧ vcid < 8))) ∨
  (k = 9 ∧ ∃ q ∈ s.myVc.accepted 2, q.op.toNat % 64 = i ∨ q.op.toNat / 256 % 64 = i) ∨
  (k = 10 ∧ (n0 6 6 ≠ 0 ∨ w2.toNat / 2 ^ 63 % 2 ^ 1 ≠ 0 ∨ w3.toNat / 2 ^ 24 % 2 ^ 24 ≠ 0 ∨ far ∧ n0 36 4 ≠ 0))

theorem bit_iff (w : Word) (i : Nat) : bit w i = true ↔ w.toNat / 2 ^ i % 2 ^ 1 = 1 := by
  simp [bit]

section
variable (s : State) (w0 w1 w2 w3 : Word)

theorem space_layoutOfWords : (layoutOfWords [w0, w1, w2, w3]).space = w0.toNat / 2 ^ 0 % 2 ^ 3 := rfl
theorem perm_layoutOfWords : (layoutOfWords [w0, w1, w2, w3]).perm = w0.toNat / 2 ^ 4 % 2 ^ 2 := rfl
theorem vcid_layoutOfWords : (layoutOfWords [w0, w1, w2, w3]).vcid = w3.toNat / 2 ^ 48 % 2 ^ 16 := rfl

theorem rspace_layoutOfWords : (layoutOfWords [w0, w1, w2, w3]).rspace = w0.toNat / 2 ^ 60 % 2 ^ 4 := by
  show w0.toNat / 2 ^ 12 % 2 ^ 52 / 2 ^ 48 % 16 = _
  omega

theorem node_layoutOfWords : (layoutOfWords [w0, w1, w2, w3]).base / 2 ^ 24 % 16 = w0.toNat / 2 ^ 36 % 2 ^ 4 := by
  show w0.toNat / 2 ^ 12 % 2 ^ 52 / 2 ^ 24 % 16 = _
  omega

theorem bank_layoutOfWords : (layoutOfWords [w0, w1, w2, w3]).bank = true ↔ w0.toNat / 2 ^ 3 % 2 ^ 1 = 1 := bit_iff w0 3

theorem VCore.layoutBusy_iff (v : VCore) (i : Nat) :
    v.layoutBusy i = true ↔ ∃ q ∈ v.accepted 2, q.op.toNat % 64 = i ∨ q.op.toNat / 256 % 64 = i := by
  simp [VCore.layoutBusy, bits]

/-- Each reason, its fields compared as numbers. -/
theorem layoutFault_iff (i k : Nat) : layoutFault [w0, w1, w2, w3] (s.me.mode == .u) (s.myVc.layoutBusy i) k = true ↔
    s.LayoutWhy i w0 w2 w3 k := by
  have bit63 : bit w2 63 = true ↔ w2.toNat / 2 ^ 63 % 2 ^ 1 ≠ 0 := (bit_iff w2 63).trans (by omega)
  unfold State.LayoutWhy layoutFault
  simp only [space_layoutOfWords, perm_layoutOfWords, ← vcid_layoutOfWords w0 w1 w2 w3, rspace_layoutOfWords, node_layoutOfWords]
  match k with
  | 1 => simp [or_assoc, and_assoc]
  | 7 => simp [bank_layoutOfWords, or_assoc, imp_iff_not_or]
  | 9 => simp [VCore.layoutBusy_iff]
  | 10 => simp [bit63, bits, or_assoc]
  | 0 | 2 | 3 | 4 | 5 | 6 | 8 => simp
  | _ + 11 => simp

end

/-- The lowest reason is the one that LTSET gives; without one it gives 0. -/
theorem layoutReject_of_lowest {s : State} {i k : Nat} {w0 w1 w2 w3 : Word} (h : s.LayoutWhy i w0 w2 w3 k)
    (hlow : ∀ j < k, ¬ s.LayoutWhy i w0 w2 w3 j) : layoutReject [w0, w1, w2, w3] (s.me.mode == .u) (s.myVc.layoutBusy i) = k ∧ k ≠ 0 := by
  have hk : 1 ≤ k ∧ k < 1 + 10 := by unfold State.LayoutWhy at h; omega
  rw [layoutReject_eq]
  exact ⟨firstFrom_eq ((layoutFault_iff ..).mpr h) (fun j hj => Bool.eq_false_iff.mpr (mt (layoutFault_iff ..).mp (hlow j hj))) hk.1 hk.2,
    Nat.ne_of_gt hk.1⟩

theorem layoutReject_eq_zero {s : State} {i : Nat} {w0 w1 w2 w3 : Word} (h : ∀ k, ¬ s.LayoutWhy i w0 w2 w3 k) :
    layoutReject [w0, w1, w2, w3] (s.me.mode == .u) (s.myVc.layoutBusy i) = 0 := by
  rw [layoutReject_eq]
  exact firstFrom_eq_zero (fun j => Bool.eq_false_iff.mpr (mt (layoutFault_iff ..).mp (h j))) 1 10

/-! The base of an entry moves by the segment base. -/

/-- The base of an LM entry moved by d in U mode (R216). -/
def Slot.rebased (sl : Slot) (w : Word) (d : BitVec 52) : Word :=
  if sl.mode = .u ∧ w.extractLsb' 0 3 = 0 then (w.extractLsb' 12 52 + d) ++ w.extractLsb' 0 12 else w

theorem Slot.rebased_eq (sl : Slot) (w : Word) (n : Nat) :
    (if sl.mode == .u && bits w 2 0 == 0 then moveBase w n else w) = sl.rebased w (BitVec.ofNat 52 n) := by
  have hspace : bits w 2 0 = 0 ↔ w.extractLsb' 0 3 = 0 := by
    rw [← BitVec.toNat_inj, toNat_extractLsb'_eq]
    rfl
  simp only [Slot.rebased, moveBase, Bool.and_eq_true, beq_iff_eq, hspace]

theorem ofNat_toNat_setWidth (w : Word) : BitVec.ofNat 52 w.toNat = w.setWidth 52 := by
  apply BitVec.eq_of_toNat_eq
  simp

theorem ofNat_sub_setWidth (w : Word) : BitVec.ofNat 52 (2 ^ 52 - w.toNat % 2 ^ 52) = - w.setWidth 52 := by
  apply BitVec.eq_of_toNat_eq
  simp

/-! LTSET and LTGET. -/

section
variable {s : State} {rs1 rs2 : XReg}

theorem exec_ltset_index (h : 64 ≤ (s.x rs1).toNat) : exec (.ltset rs1 rs2) s = .next (s.trap25 (rp2 ((s.x rs1).toNat % 256) 0)) :=
  congrArg Host.Outcome.next (if_pos h)
theorem exec_ltget_index (h : 64 ≤ (s.x rs1).toNat) : exec (.ltget rs1 rs2) s = .next (s.trap25 (rp2 ((s.x rs1).toNat % 256) 0)) :=
  congrArg Host.Outcome.next (if_pos h)

/-- The state once entry i is set to the image w. -/
def State.withLayout (s : State) (i : Nat) (w : List Word) : State :=
  (s.updMyVc (fun v => { v with lt := FMap.set v.lt i (s.me.rebased (w.getD 0 0) (s.me.segbase.setWidth 52) :: w.drop 1) })).retire

/-- What LTGET stores. -/
def State.layoutImage (s : State) (w : List Word) : List Word := s.me.rebased (w.getD 0 0) (- s.me.segbase.setWidth 52) :: w.drop 1

variable (hi : (s.x rs1).toNat < 64)
include hi

theorem exec_ltset_misaligned (ha : (s.x rs2).toNat % 8 ≠ 0) : exec (.ltset rs1 rs2) s = .next (s.trap 4 (s.x rs2)) :=
  congrArg Host.Outcome.next ((if_neg (Nat.not_le.mpr hi)).trans (if_pos ha))
theorem exec_ltget_misaligned (ha : (s.x rs2).toNat % 8 ≠ 0) : exec (.ltget rs1 rs2) s = .next (s.trap 6 (s.x rs2)) :=
  congrArg Host.Outcome.next ((if_neg (Nat.not_le.mpr hi)).trans (if_pos ha))

variable (ha : (s.x rs2).toNat % 8 = 0)
include ha

theorem exec_ltset : exec (.ltset rs1 rs2) s = .next (s.lm (s.x rs2) 32 false (fun g =>
    let why := layoutReject (Memory.words s.mem g 4) (s.me.mode == .u) (s.myVc.layoutBusy (s.x rs1).toNat)
    if why != 0 then s.trap25 (rp2 (s.x rs1).toNat why) else s.withLayout (s.x rs1).toNat (Memory.words s.mem g 4))) := by
  refine congrArg Host.Outcome.next ((if_neg (Nat.not_le.mpr hi)).trans ((if_neg (not_not.mpr ha)).trans ?_))
  simp only [Slot.rebased_eq, ofNat_toNat_setWidth]
  rfl

theorem exec_ltget : exec (.ltget rs1 rs2) s = .next (s.lm (s.x rs2) 32 true (fun g =>
    (({ s with mem := Memory.setWords s.mem g (s.layoutImage (s.myVc.layoutWords (s.x rs1).toNat)) }).wrote g 32).retire)) := by
  refine congrArg Host.Outcome.next ((if_neg (Nat.not_le.mpr hi)).trans ((if_neg (not_not.mpr ha)).trans ?_))
  simp only [Slot.rebased_eq, ofNat_sub_setWidth]
  rfl

end

section
variable {s : State} {rs1 rs2 : XReg} {g : Nat} (hi : (s.x rs1).toNat < 64) (ha : (s.x rs2).toNat % 8 = 0)
include hi ha

/-- LTSET at its image, whose reason is k. -/
theorem exec_ltset_at (hg : At s (s.x rs2) 32 false g) {k : Nat} (hk : layoutReject [Memory.word s.mem (g + 8 * 0), Memory.word s.mem (g + 8 * 1),
    Memory.word s.mem (g + 8 * 2), Memory.word s.mem (g + 8 * 3)] (s.me.mode == .u) (s.myVc.layoutBusy (s.x rs1).toNat) = k) :
    exec (.ltset rs1 rs2) s = .next (if k != 0 then s.trap25 (rp2 (s.x rs1).toNat k) else s.withLayout (s.x rs1).toNat (Memory.words s.mem g 4)) := by
  rw [exec_ltset hi ha, State.lm_of_at hg, ← hk]
  rfl

theorem exec_ltget_at (hg : At s (s.x rs2) 32 true g) : exec (.ltget rs1 rs2) s = .next
    (({ s with mem := Memory.setWords s.mem g (s.layoutImage (s.myVc.layoutWords (s.x rs1).toNat)) }).wrote g 32).retire := by
  rw [exec_ltget hi ha, State.lm_of_at hg]

end

/-- The entry set, and no other. -/
theorem State.layoutWords_withLayout (s : State) (i : Nat) (w : List Word) :
    (s.withLayout i w).myVc.layoutWords i = s.me.rebased (w.getD 0 0) (s.me.segbase.setWidth 52) :: w.drop 1 ∧
    (∀ j, j ≠ i → (s.withLayout i w).myVc.layoutWords j = s.myVc.layoutWords j) ∧
    VcDone s (s.withLayout i w) { s.myVc with lt := (s.withLayout i w).myVc.lt } 0 0 := by
  have hd := s.vcDone_updMyVc_retire
    (fun v => { v with lt := FMap.set v.lt i (s.me.rebased (w.getD 0 0) (s.me.segbase.setWidth 52) :: w.drop 1) })
  have hlt : (s.withLayout i w).myVc.lt = FMap.set s.myVc.lt i (s.me.rebased (w.getD 0 0) (s.me.segbase.setWidth 52) :: w.drop 1) :=
    congrArg VCore.lt hd.vc
  refine ⟨?_, fun j hj => ?_, ?_⟩
  · rw [VCore.layoutWords, hlt]
    exact FMap.getD_set_self ..
  · rw [VCore.layoutWords, hlt]
    exact FMap.getD_set_ne _ _ _ hj
  · rw [hlt]
    exact hd

/-! Segments and fitness. -/

section
variable {s : State} {rs1 rs2 : XReg}

theorem exec_segset_ok (ho : (s.x rs1).toNat % 4096 = 0) (hl : (s.x rs2).toNat % 4096 = 0)
    (hin : (s.x rs1).toNat + (s.x rs2).toNat ≤ s.launchLenOf s.vk) : exec (.segset rs1 rs2) s =
      .next (s.updMe (fun sl => { sl with segbase := BitVec.ofNat 64 s.myVc.base + s.x rs1, seglim := s.x rs2 })).retire :=
  congrArg Host.Outcome.next (if_neg (by simp [ho, hl, hin]))

theorem exec_segset_bad (h : (s.x rs1).toNat % 4096 ≠ 0 ∨ (s.x rs2).toNat % 4096 ≠ 0 ∨ s.launchLenOf s.vk < (s.x rs1).toNat + (s.x rs2).toNat) :
    exec (.segset rs1 rs2) s = .next (s.trap 30 (s.x rs1 + s.x rs2)) :=
  congrArg Host.Outcome.next (if_pos (by simpa [or_assoc] using h))

end

/-- A write of one half of the fitness. -/
theorem exec_csrrw_vcCsr (s : State) (rs1 : XReg) {c : CsrField VCore} (hc : c ∈ vcCsrs) (hm : c.addr = 0x800 ∨ c.addr = 0x801) :
    ∃ t, exec (.csrrw 0 rs1 c.addr) s = .next t ∧ VcDone s t (c.put (s.x rs1) s.myVc) 0 0 := by
  have hok : s.csrOk c.addr.toNat false true = true := by rcases hm with h | h <;> rw [h] <;> rfl
  have hw := (s.result 0 (s.csrRead c.addr.toNat)).csrWrite_vcCsr (s.x rs1) c hc (fun h => by rcases hm with h' | h' <;> rw [h'] at h <;> cases h)
  refine ⟨_, congrArg Host.Outcome.next (State.csrOp_of_write (f := fun _ => s.x rs1) hok), ?_⟩
  rw [hw, State.result_x0]
  exact s.vcDone_updMyVc_retire (c.put (s.x rs1))

/-- Settles O30: the reasons by layoutReject_of_lowest and layoutReject_eq_zero, the entry set by layoutWords_withLayout. -/
theorem segmentsAndTables : Obligations.SegmentsAndTables := by
  intro s rd rs1 rs2 g o l i moved inLm n space rspace far vcid why
  have hwhy (k : Nat) : why k ↔ s.LayoutWhy i (Memory.word s.mem (g + 8 * 0)) (Memory.word s.mem (g + 8 * 2)) (Memory.word s.mem (g + 8 * 3)) k :=
    Iff.rfl
  have trapped (k : Nat) (hi : i < 64) :
      Trapped s (s.trap25 (rp2 i k)) 25 (BitVec.ofNat 64 (128 + 256 * i + 65536 * k)) s.me.pc := by
    rw [rp2_of_lt hi]; exact s.trapped_trap 25 _
  have trappedIndex : Trapped s (s.trap25 (rp2 (i % 256) 0)) 25 (BitVec.ofNat 64 (128 + i % 256 * 256)) s.me.pc := by
    rw [rp2, Nat.mod_mod]; exact s.trapped_trap 25 _
  refine ⟨?reject, fun hi ha => ⟨⟨_, exec_ltset_misaligned hi ha, s.trapped_trap 4 _⟩, ⟨_, exec_ltget_misaligned hi ha, s.trapped_trap 6 _⟩⟩,
    fun hi ha c tv => ⟨fun he => ⟨_, exec_ltset hi ha, s.trapped_lm _ he⟩, fun he => ⟨_, exec_ltget hi ha, s.trapped_lm _ he⟩⟩,
    ?segset, fun h => ⟨_, exec_segset_bad h, s.trapped_trap 30 _⟩, ⟨_, rfl, s.did_result rd _⟩, ⟨_, rfl, s.vcDone_updMyVc_retire _⟩,
    exec_csrrw_vcCsr s rs1 (c := vcCsrs[0]) (by simp [vcCsrs]) (.inl rfl), exec_csrrw_vcCsr s rs1 (c := vcCsrs[1]) (by simp [vcCsrs]) (.inr rfl),
    ⟨_, rfl, s.did_result rd _⟩, ?set, fun hi => ⟨⟨_, exec_ltset_index hi, trappedIndex⟩, ⟨_, exec_ltget_index hi, trappedIndex⟩⟩, ?get⟩
  case reject =>
    intro k hi ha hg hk hlow
    obtain ⟨hr, h0⟩ := layoutReject_of_lowest (w1 := Memory.word s.mem (g + 8 * 1)) ((hwhy k).mp hk) (fun j hj => mt (hwhy j).mpr (hlow j hj))
    exact ⟨_, (exec_ltset_at hi ha hg hr).trans (congrArg _ (if_pos (bne_iff_ne.mpr h0))), trapped k hi⟩
  case segset =>
    intro ho hl hin
    refine ⟨_, exec_segset_ok ho hl hin, ?_⟩
    rw [State.me_retire, State.me_updMe]
    exact ⟨rfl, rfl, rfl, rfl, rfl, fun k hk => (State.slot_updMe_ne (s.updMe _) _ hk).trans (State.slot_updMe_ne s _ hk), rfl⟩
  case set =>
    intro hi ha hg hno w e
    have hr := layoutReject_eq_zero (w1 := Memory.word s.mem (g + 8 * 1)) (fun k => mt (hwhy k).mpr (hno k))
    obtain ⟨hset, hothers, hdone⟩ := s.layoutWords_withLayout i (Memory.words s.mem g 4)
    refine ⟨_, exec_ltset_at hi ha hg hr, fun hin => ?_, fun hin => ?_, hothers, hdone⟩
    · exact hset.trans (congrArg (· :: e) (if_pos hin))
    · exact hset.trans (congrArg (· :: e) (if_neg hin))
  case get =>
    intro a b c d hi ha hg hw
    have himage : s.layoutImage (s.myVc.layoutWords i) = [s.me.rebased a (- s.me.segbase.setWidth 52), b, c, d] := by rw [hw]; rfl
    obtain ⟨hkept, hmark, hrest, hwords, hmem⟩ := (s.wrote_wrote (Memory.setWords s.mem g (s.layoutImage (s.myVc.layoutWords i))) g 32).retire_words
      (State.wrote_mem ..)
    rw [himage] at hwords hmem
    refine ⟨_, exec_ltget_at hi ha hg, hkept, hmark, hrest, fun hin => ?_, fun hin => ?_, ?_⟩
    · exact himage ▸ hwords.trans (congrArg (· :: [b, c, d]) (if_pos hin))
    · exact himage ▸ hwords.trans (congrArg (· :: [b, c, d]) (if_neg hin))
    · exact himage ▸ hmem

end Sys2Proof.Machine
end

section
/-! PROOFS. Acceptance of COPY, COPYMC and WENQ (R214, R219). -/

namespace Sys2Proof.Machine

open Sys2Proof.Claim

/-! What the two engines share: the instruction is an access of its slot. -/

/-- The virtual core with one more access that is not acknowledged. -/
def VCore.withAccess (v : VCore) (a : Access) : VCore := { v with unacked := v.unacked ++ [a] }

/-- The entry q is taken, and a is its access. -/
def State.takenAccess (s : State) (e : Nat) (q : QEntry) (a : Access) : State := (s.counted.enqueue e q).updMyVc (·.withAccess a)

section
variable {s : State} {i : Instr} {e : Nat}

theorem State.takeIn_counted (hfree : Free s e) {q : QEntry} (hb : q.rb = none) :
    s.counted.takeIn e q 0 0 0 id = .ok (s.counted.enqueue e q) :=
  State.takeIn_of_available (State.engineFull_of_free (s := s.counted) hfree) hb (fun _ _ => Nat.zero_le _) (fun _ _ => Nat.zero_le _)

theorem queued_takenAccess {acc : Accept} (hi : exec i s = .next (s.present i acc)) (hfate : s.engineFate i = .present) {q : QEntry} {a : Access}
    (hacc : acc = .ok (s.takenAccess e q a)) (hq : q.IsOf s i) {p : QEntry → Prop} (hp : ∀ k, p { q with stamp := k }) :
    ∃ t, exec i s = .next t ∧ Queued s t e i { s.myVc with unacked := s.myVc.unacked ++ [a] } p := by
  refine ⟨_, exec_accepted hi hfate hacc, ?_⟩
  have h := State.queued_retire (s := s.counted) (e := e) (i := i) (q := q) ⟨hq.word, hq.slot, hq.frm, hq.base, hq.lim, hq.mMode⟩
    (g := (·.withAccess a)) (fun _ _ => rfl) (p := p) (hp _)
  obtain ⟨hqueue, hqueues, hvc, hx, hpc, hhold, harr, hslot, hothers, hvcs, hrest⟩ := h
  exact ⟨hqueue, hqueues, hvc, hx, hpc, hhold, harr, hslot, hothers, hvcs, (congrArg (fun u : State => { u with nextId := s.nextId }) hrest :)⟩

theorem State.engineFate_bound (hf : fOnly i = false) (he : engineOf i = some e) (hb : FMap.get? s.myVc.binds e = some s.ix) :
    s.engineFate i = .present := by
  simp [State.engineFate, hf, he, hb]

theorem trapped_unbound {acc : Accept} (hi : exec i s = .next (s.present i acc)) (hf : fOnly i = false) (he : engineOf i = some e)
    (hb : FMap.get? s.myVc.binds e ≠ some s.ix) : ∃ t, exec i s = .next t ∧ Trapped s t 29 (BitVec.ofNat 64 e) s.me.pc := by
  have hfate : s.engineFate i = .unbound e := by simp [State.engineFate, hf, he, hb]
  refine ⟨s.trap 29 (BitVec.ofNat 64 e), ?_, s.trapped_trap 29 _⟩
  rw [hi]; unfold State.present; rw [hfate]

end

theorem rp0_first (h : Nat) : rp0 h 0 = BitVec.ofNat 64 h := rfl

/-! COPY and COPYMC. -/

/-- The copy as an instruction. -/
def copyInstr (mc n : Bool) (rd rs1 : XReg) (h : Handle) : Instr := if mc then .copymc n rd rs1 h else .copy n rd rs1 h

section
variable (s : State) (mc n : Bool) (rd rs1 : XReg) (h : Handle)

theorem exec_copyInstr : exec (copyInstr mc n rd rs1 h) s =
    .next (s.present (copyInstr mc n rd rs1 h) (s.acceptCopy (copyInstr mc n rd rs1 h) mc rs1 h)) := by
  cases mc <;> rfl

theorem fOnly_copyInstr : fOnly (copyInstr mc n rd rs1 h) = false := by cases mc <;> rfl
theorem engineOf_copyInstr : engineOf (copyInstr mc n rd rs1 h) = some 2 := by cases mc <;> rfl

end

/-- The entry of a copy whose ring is ix. -/
def State.copyEntry (s : State) (i : Instr) (w : Word) (ix : Nat) : QEntry :=
  { s.newEntry i with ra := some ix, na := 1, op := w, id := s.nextId + 1 }

def State.copyAccess (s : State) (q : QEntry) (mc : Bool) : Access :=
  { id := s.nextId + 1, slot := s.ix, dests := s.copyDests s.vk q mc, copy := true }

section
variable {s : State} {i : Instr} {mc : Bool} {rs1 : BitVec 5} {h : Handle}

theorem ctlRzOk_iff (w : Word) : ctlRzOk w = true ↔ w &&& 0xFFFF000000FCC0C0 = 0 := beq_iff_eq

theorem acceptCopy_of_none (hs : s.handle? h .consumer (feeds 2) = none) : s.acceptCopy i mc rs1 h = .fault 25 (BitVec.ofNat 64 h.toNat) := by
  simp only [State.acceptCopy, hs, rp0_first]

variable {ix : Nat} (hs : s.handle? h .consumer (feeds 2) = some ix)
include hs

theorem acceptCopy_of_size (hn : (s.ring s.vk ix).size < 104) : s.acceptCopy i mc rs1 h = .fault 25 (BitVec.ofNat 64 h.toNat) := by
  simp only [State.acceptCopy, hs, rp0_first, hn, if_true]

variable (hsize : 104 ≤ (s.ring s.vk ix).size)
include hsize

theorem acceptCopy_of_reserved (hbad : s.x rs1 &&& 0xFFFF000000FCC0C0 ≠ 0 ∨ mc = false ∧ bits (s.x rs1) 31 24 ≠ 0) :
    s.acceptCopy i mc rs1 h = .fault 2 ((insnWord i).setWidth 64) := by
  have hbad' : (!ctlRzOk (s.x rs1) || (!mc && bits (s.x rs1) 31 24 != 0)) = true := by
    simpa [ctlRzOk] using hbad
  simp only [State.acceptCopy, hs, Nat.not_lt.mpr hsize, if_false, hbad', if_true]

variable (hrz : s.x rs1 &&& 0xFFFF000000FCC0C0 = 0)
include hrz

theorem acceptCopy_of_group (hm : mc = true) (hg : s.inGroup s.vk (bits (s.x rs1) 31 24) = false) :
    s.acceptCopy i mc rs1 h = .fault 25 (rp3 (bits (s.x rs1) 31 24) 0) := by
  simp only [State.acceptCopy, hs, Nat.not_lt.mpr hsize, (ctlRzOk_iff _).mpr hrz, hm, hg, if_false, Bool.not_true, Bool.not_false, Bool.false_and,
    Bool.or_self, Bool.false_eq_true, Bool.and_self, if_true]

theorem acceptCopy_of_far (hm : mc = true) (hg : s.inGroup s.vk (bits (s.x rs1) 31 24) = true)
    (hd : ¬ ((layoutOfWords (s.myVc.layoutWords (bits (s.x rs1) 13 8))).space = 1 ∧
      s.ownNode (layoutOfWords (s.myVc.layoutWords (bits (s.x rs1) 13 8))).node = true)) :
    s.acceptCopy i mc rs1 h = .fault 2 ((insnWord i).setWidth 64) := by
  have hd' : (!((layoutOfWords (s.myVc.layoutWords (bits (s.x rs1) 13 8))).space == 1 &&
      s.ownNode (layoutOfWords (s.myVc.layoutWords (bits (s.x rs1) 13 8))).node)) = true := by
    simpa [imp_iff_not_or] using hd
  simp only [State.acceptCopy, hs, Nat.not_lt.mpr hsize, (ctlRzOk_iff _).mpr hrz, hm, hg, hd', if_false, Bool.not_true, Bool.false_and,
    Bool.or_self, Bool.false_eq_true, Bool.and_false, Bool.and_true, if_true]

theorem acceptCopy_of_ok (hfree : Free s 2) (hgrp : mc = false → bits (s.x rs1) 31 24 = 0) (hto : mc = true →
    s.inGroup s.vk (bits (s.x rs1) 31 24) = true ∧ (layoutOfWords (s.myVc.layoutWords (bits (s.x rs1) 13 8))).space = 1 ∧
      s.ownNode (layoutOfWords (s.myVc.layoutWords (bits (s.x rs1) 13 8))).node = true) :
    s.acceptCopy i mc rs1 h = .ok (s.takenAccess 2 (s.copyEntry i (s.x rs1) ix) (s.copyAccess (s.copyEntry i (s.x rs1) ix) mc)) := by
  have hrzOk : (!ctlRzOk (s.x rs1) || (!mc && bits (s.x rs1) 31 24 != 0)) = false := by
    cases mc
    · simp [(ctlRzOk_iff _).mpr hrz, hgrp]
    · simp [(ctlRzOk_iff _).mpr hrz]
  have hgroup : (mc && !s.inGroup s.vk (bits (s.x rs1) 31 24)) = false := by
    cases mc
    · rfl
    · simp [(hto rfl).1]
  have hdst : (mc && !((layoutOfWords (s.myVc.layoutWords (bits (s.x rs1) 13 8))).space == 1 &&
      s.ownNode (layoutOfWords (s.myVc.layoutWords (bits (s.x rs1) 13 8))).node)) = false := by
    cases mc
    · rfl
    · simp [(hto rfl).2.1, (hto rfl).2.2]
  have htake := State.takeIn_counted hfree (q := s.copyEntry i (s.x rs1) ix) rfl
  simp only [State.acceptCopy, hs, Nat.not_lt.mpr hsize, hrzOk, hgroup, hdst, if_false, Bool.false_eq_true]
  exact (congrArg (fun a => match a with
    | .ok t => Accept.ok (t.updMyVc (·.withAccess (s.copyAccess (s.copyEntry i (s.x rs1) ix) mc)))
    | a => a) htake :)

end

/-! WENQ. -/

/-- The entry of a WENQ whose ring is ix. -/
def State.wenqEntry (s : State) (i : Instr) (w : Word) (bt ix : Nat) : QEntry :=
  { s.newEntry i with ra := some ix, na := 1, op := w, id := s.nextId + 1, nb := bt }

section
variable {s : State} {i : Instr} {rs1 : BitVec 5} {h : Handle} {bt : Nat}

theorem acceptWenq_of_none (hs : s.handle? h .consumer (feeds 3) = none) : s.acceptWenq i h rs1 bt = .fault 25 (BitVec.ofNat 64 h.toNat) := by
  simp only [State.acceptWenq, hs, rp0_first]

variable {ix : Nat} (hs : s.handle? h .consumer (feeds 3) = some ix)
include hs

theorem acceptWenq_of_reserved (hbad : tgtRzOk (s.x rs1) = false ∨ s.me.mode = .u ∧ tgtHbm (s.x rs1) = true) :
    s.acceptWenq i h rs1 bt = .fault 2 ((insnWord i).setWidth 64) := by
  have hbad' : (!tgtRzOk (s.x rs1) || (tgtHbm (s.x rs1) && s.me.mode == .u)) = true := by
    simpa [and_comm] using hbad
  simp only [State.acceptWenq, hs, hbad', if_true]

theorem acceptWenq_of_ok (hfree : Free s 3) (hrz : tgtRzOk (s.x rs1) = true) (hm : s.me.mode = .u → tgtHbm (s.x rs1) = false) :
    s.acceptWenq i h rs1 bt = .ok (s.takenAccess 3 (s.wenqEntry i (s.x rs1) bt ix)
      { id := s.nextId + 1, slot := s.ix, dests := [s.wenqDest s.vk (s.x rs1)], bt := bt }) := by
  have hok : (!tgtRzOk (s.x rs1) || (tgtHbm (s.x rs1) && s.me.mode == .u)) = false := by
    cases hu : s.me.mode with
    | u => simp [hrz, hm hu]
    | m => simp [hrz]
  have htake := State.takeIn_counted hfree (q := s.wenqEntry i (s.x rs1) bt ix) rfl
  simp only [State.acceptWenq, hs, hok, if_false, Bool.false_eq_true]
  exact (congrArg (fun a => match a with
    | .ok t => Accept.ok (t.updMyVc (·.withAccess { id := s.nextId + 1, slot := s.ix, dests := [s.wenqDest s.vk (s.x rs1)], bt := bt }))
    | a => a) htake :)

end

end Sys2Proof.Machine
end

section
/-! PROOFS. Where an element of a copy lies, and what its messages and its bytes leave (Table 08.8, R254, R259). -/

namespace Sys2Proof.Machine

open Sys2Proof.Claim

/-! Places (Table 08.8). -/

/-- The n bytes from x lie in the segment that the copy was accepted with. -/
def QEntry.Inside (q : QEntry) (x n : Nat) : Prop :=
  (q.mMode = true ∧ x + n ≤ 0x100000) ∨ (q.mMode = false ∧ q.base ≤ x ∧ x + n ≤ q.base + q.lim)

/-- An element of n bytes at offset o of entry l lies here, at these addresses; after the translation that finds them the state is u. -/
def State.LiesHere (z : State) (k : Nat) (r : Running) (act : Bool) (l : Layout) (o n : Nat) (write : Bool) (u : State) (as : List Nat) : Prop :=
  (l.space = 0 ∧ r.entry.Inside (l.base + o) n ∧ u = z ∧ as = span (lmAddr (z.coreOf k) (l.base + o)) n) ∨
  (l.space = 2 ∧ r.banks.find? (fun p => p.1 == k) = some (k, act) ∧ (l.base + o) % 2 ^ 20 + n ≤ z.share k ∧ u = z ∧
    as = span (z.wsAt k (if l.bank = true then act else !act) ((l.base + o) % 2 ^ 20)) n) ∨
  (3 ≤ l.space ∧ l.space ≤ 5 ∧ z.translateBytes (z.dieOf k) (z.gang (z.vc k).gid).func (l.base + o) (if write = true then .write else .read) n
    (.micro (z.coreOf k)) = some (u, as))

/-- It lies nowhere: the fault of R220. -/
def State.LiesOutside (z : State) (k : Nat) (r : Running) (l : Layout) (o n : Nat) (write : Bool) (status detail : Nat) : Prop :=
  (l.space = 0 ∧ ¬ r.entry.Inside (l.base + o) n ∧ status = 3 ∧ detail = (l.base + o + 2 ^ 64 - r.entry.base) % 2 ^ 64) ∨
  (l.space = 2 ∧ z.share k < (l.base + o) % 2 ^ 20 + n ∧ status = 3 ∧ detail = (l.base + o) % 2 ^ 20) ∨
  (3 ≤ l.space ∧ l.space ≤ 5 ∧ z.translateBytes (z.dieOf k) (z.gang (z.vc k).gid).func (l.base + o) (if write = true then .write else .read) n
    (.micro (z.coreOf k)) = none ∧ status = (if write = true then 5 else 4) ∧ detail = 0) ∨
  (l.space = 6 ∧ 0x8000 < l.base % 2 ^ 24 + o + n ∧ status = 6 ∧ detail = 0)

/-- The pointer of an element elsewhere, by its fields. -/
def Layout.ptr (l : Layout) (o vcid space : Nat) : Word := BitVec.ofNat 64 ((l.base % 2 ^ 24 + o) % 2 ^ 24 + vcid * 2 ^ 24 +
  l.base / 2 ^ 28 % 2 ^ 20 * 2 ^ 40 + space * 2 ^ 60)

/-- It lies at the home x, which p names. -/
def State.LiesAway (z : State) (k : Nat) (l : Layout) (o n : Nat) (x : Dest) (p : Word) : Prop :=
  (l.space = 1 ∧ z.ownNode l.node = true ∧ x = .vc (vkey (z.vc k).gid l.vcid) ∧ p = l.ptr o l.vcid l.rspace) ∨
  (l.space = 1 ∧ ¬ z.ownNode l.node = true ∧ x = .farVc l.node (z.gang (z.vc k).gid).job l.vcid ∧ p = l.ptr o l.vcid l.rspace) ∨
  (l.space = 6 ∧ l.base % 2 ^ 24 + o + n ≤ 0x8000 ∧ (z.ownNode l.node = true → x = .sig (l.vcid % 8)) ∧
    (¬ z.ownNode l.node = true → x = .farSig l.node (l.vcid % 8)) ∧ p = l.ptr o (l.vcid % 8) 1)

theorem Layout.farPtr_space1 {l : Layout} (h : l.space = 1) (o x : Nat) : farPtr l ((l.off + o) % 2 ^ 24) x = l.ptr o x l.rspace := by
  have hs : (l.space == 6) = false := by rw [h]; rfl
  refine congrArg (BitVec.ofNat 64) ?_
  simp only [pack, hs, Bool.false_eq_true, if_false, Layout.off, Layout.node]
  omega

theorem Layout.farPtr_space6 {l : Layout} (h : l.space = 6) {o n : Nat} (hin : l.base % 2 ^ 24 + o + n ≤ 0x8000) (x : Nat) :
    farPtr l (l.off + o) x = l.ptr o x 1 := by
  have hs : (l.space == 6) = true := by rw [h]; rfl
  refine congrArg (BitVec.ofNat 64) ?_
  simp only [pack, hs, if_true, Layout.off, Layout.node]
  omega

theorem vkey_mod {v : Nat} (h : v < 65536) (gid : Nat) : vkey gid v % 65536 = v := by
  unfold vkey
  omega

section
variable {z : State} {k : Nat} {r : Running} {l : Layout} {o n : Nat} {write : Bool}

theorem QEntry.inside_iff (q : QEntry) (x n : Nat) :
    (if q.mMode then decide (x + n ≤ 0x100000) else decide (q.base ≤ x ∧ x + n ≤ q.base + q.lim)) = true ↔ q.Inside x n := by
  unfold QEntry.Inside
  cases q.mMode <;> simp

theorem State.placeOf_here {act : Bool} {u : State} {as : List Nat} (h : z.LiesHere k r act l o n write u as) (vks : List Nat) :
    z.placeOf k r l vks o n write = (u, .here as) := by
  rcases h with ⟨hs, hin, rfl, rfl⟩ | ⟨hs, hact, hin, rfl, rfl⟩ | ⟨hlo, hhi, ht⟩
  · simp only [State.placeOf, hs, (QEntry.inside_iff ..).mpr hin, if_true]
  · simp only [State.placeOf, hs, hin, if_true, bankFor, hact]
    rfl
  · obtain hs | hs | hs : l.space = 3 ∨ l.space = 4 ∨ l.space = 5 := by omega
    all_goals simp only [State.placeOf, hs, ht]

theorem State.placeOf_outside {st det : Nat} (h : z.LiesOutside k r l o n write st det) (vks : List Nat) :
    ∃ t, z.placeOf k r l vks o n write = (t, .fault st det) ∧ t.mem = z.mem := by
  rcases h with ⟨hs, hout, rfl, rfl⟩ | ⟨hs, hout, rfl, rfl⟩ | ⟨hlo, hhi, ht, rfl, rfl⟩ | ⟨hs, hout, rfl, rfl⟩
  · have hin := Bool.eq_false_iff.mpr (mt (QEntry.inside_iff ..).mp hout)
    exact ⟨z, by simp only [State.placeOf, hs, hin, Bool.false_eq_true, if_false], rfl⟩
  · exact ⟨z, by simp only [State.placeOf, hs, Nat.not_le.mpr hout, if_false], rfl⟩
  · refine ⟨z.readFailed, ?_, rfl⟩
    obtain hs | hs | hs : l.space = 3 ∨ l.space = 4 ∨ l.space = 5 := by omega
    all_goals simp only [State.placeOf, hs, ht]
  · exact ⟨z, by simp only [State.placeOf, hs, Layout.off, hout, if_true], rfl⟩

theorem State.placeOf_away {x : Dest} {p : Word} (h : z.LiesAway k l o n x p) (hv : l.vcid < 65536) {vks : List Nat}
    (hvks : l.space = 1 → z.ownNode l.node = true → vks = [vkey (z.vc k).gid l.vcid]) :
    ∃ bank, z.placeOf k r l vks o n write = (z, .away [(x, p, bank)]) := by
  rcases h with ⟨hs, hown, rfl, rfl⟩ | ⟨hs, hown, rfl, rfl⟩ | ⟨hs, hin, hnear, hfar, rfl⟩
  · rw [hvks hs hown]
    simp only [State.placeOf, hs, hown, if_true, List.map, vkey_mod hv, Layout.farPtr_space1 hs]
    exact ⟨_, rfl⟩
  · simp only [State.placeOf, hs, hown, Bool.false_eq_true, if_false, Layout.farPtr_space1 hs]
    exact ⟨_, rfl⟩
  · refine ⟨0, ?_⟩
    have hx : (if z.ownNode l.node = true then Dest.sig (l.vcid % 8) else .farSig l.node (l.vcid % 8)) = x := by
      split
      · next hown => exact (hnear hown).symm
      · next hown => exact (hfar hown).symm
    have hnot : ¬ 0x8000 < l.off + o + n := Nat.not_lt.mpr hin
    simp only [State.placeOf, hs, hnot, if_false, Layout.farPtr_space6 hs hin, hx]

/-- With several virtual cores of this package, each is a home. -/
theorem State.placeOf_members (hs : l.space = 1) (hown : z.ownNode l.node = true) (vks : List Nat) :
    z.placeOf k r l vks o n write =
      (z, .away (vks.map (fun j => (.vc j, l.ptr o (j % 65536) l.rspace, bankCode r l (some j))))) := by
  simp only [State.placeOf, hs, hown, if_true, Layout.farPtr_space1 hs]

end

/-! A message to each home. -/

theorem State.askHomes_one (s : State) (k slot : Nat) (mk : Tag → Word → Nat → Body) (x : Dest) (p : Word) (b : Nat) :
    s.askHomes k slot mk [(x, p, b)] = ({ s with nextId := s.nextId + 1, net := s.net ++
      [Msg.mk (.vc k) x .request (mk ⟨s.nextId + 1, slot, 0⟩ p b) none false] }, [s.nextId + 1]) := rfl

/-- The messages of a copy to its homes, and nothing else but numbers taken. -/
theorem State.askHomes_spec (k slot : Nat) (mk : Tag → Word → Nat → Body) : ∀ (hs : List (Dest × Word × Nat)) (s : State), ∃ ms,
    (s.askHomes k slot mk hs).1.net = s.net ++ ms ∧ ms.map Msg.dst = hs.map (·.1) ∧
    (∀ m ∈ ms, ∃ id, id ∈ (s.askHomes k slot mk hs).2 ∧ ∃ p b, (m.dst, p, b) ∈ hs ∧ m.body = mk ⟨id, slot, 0⟩ p b) ∧
    { (s.askHomes k slot mk hs).1 with net := s.net, nextId := s.nextId } = s
  | [], s => ⟨[], (List.append_nil _).symm, rfl, nofun, rfl⟩
  | (x, p, b) :: hs, s => by
    let m := Msg.mk (.vc k) x .request (mk ⟨s.nextId + 1, slot, 0⟩ p b) none false
    let t : State := { s with nextId := s.nextId + 1, net := s.net ++ [m] }
    obtain ⟨ms, hnet, hdst, hbody, hrest⟩ := State.askHomes_spec k slot mk hs t
    have hfst : (s.askHomes k slot mk ((x, p, b) :: hs)).1 = (t.askHomes k slot mk hs).1 := rfl
    have hsnd : (s.askHomes k slot mk ((x, p, b) :: hs)).2 = (s.nextId + 1) :: (t.askHomes k slot mk hs).2 := rfl
    rw [hfst, hsnd]
    refine ⟨m :: ms, by rw [hnet, List.append_assoc]; rfl, congrArg (x :: ·) hdst, fun y hy => ?_, ?_⟩
    · rcases List.mem_cons.mp hy with rfl | hy
      · exact ⟨s.nextId + 1, List.mem_cons_self, p, b, List.mem_cons_self, rfl⟩
      · obtain ⟨id, hid, p', b', hin, hb⟩ := hbody y hy
        exact ⟨id, List.mem_cons_of_mem _ hid, p', b', List.mem_cons_of_mem _ hin, hb⟩
    · exact (congrArg (fun u : State => { u with net := s.net, nextId := s.nextId }) hrest :)

/-! The bytes of an element that land. -/

theorem State.mem_slots_cores_trans {s t u : State} (h : { u with mem := t.mem, slots := t.slots, cores := t.cores } = t)
    (k : { t with mem := s.mem, slots := s.slots, cores := s.cores } = s) : { u with mem := s.mem, slots := s.slots, cores := s.cores } = s := by
  have hu : u = { t with mem := u.mem, slots := u.slots, cores := u.cores } := by rw [← h]
  have ht : t = { s with mem := t.mem, slots := t.slots, cores := t.cores } := by rw [← k]
  rw [hu, ht]

theorem State.landElement_spec : ∀ (as : List Nat) (bs : List Byte) (s : State), (s.landElement as bs).mem = writeAt s.mem as bs ∧
    { s.landElement as bs with mem := s.mem, slots := s.slots, cores := s.cores } = s
  | [], _, _ => ⟨rfl, rfl⟩
  | _ :: _, [], _ => ⟨rfl, rfl⟩
  | a :: as, b :: bs, s => by
    obtain ⟨hmem, hrest⟩ := State.landElement_spec as bs (s.land a [b])
    rw [State.mem_land] at hmem
    rw [State.landElement]
    exact ⟨hmem, State.mem_slots_cores_trans hrest (s.land_rest a [b])⟩

/-- The words that become full with an element. -/
theorem State.landFull_eq (s : State) (as : List Nat) (bs : List Byte) (full : Bool × Bool) :
    s.landFull as bs full = ((s.landElement as bs).fullIf (as.headD 0 / 8 * 8) full.1).fullIf (as.headD 0 / 8 * 8 + 8) full.2 := by
  simp only [State.landFull, State.fullIf]

theorem State.isFull_fullIf (s : State) (a : Nat) (f : Bool) (b : Nat) :
    (s.fullIf a f).isFull b = true ↔ (f = true ∧ b = a) ∨ s.isFull b = true := by
  cases f with
  | false => simp [State.fullIf]
  | true =>
    have h := s.isFull_setBit true a b
    have hset : (s.fullIf a true).isFull b = (s.setBit true a).isFull b := rfl
    rw [hset, h]
    split <;> simp_all

section
variable (s : State) (as : List Nat) (bs : List Byte) (full : Bool × Bool)

theorem State.mem_landFull : (s.landFull as bs full).mem = writeAt s.mem as bs := by
  rw [State.landFull_eq, State.mem_fullIf, State.mem_fullIf, (State.landElement_spec as bs s).1]

theorem State.landFull_rest : { s.landFull as bs full with mem := s.mem, full := s.full, slots := s.slots, cores := s.cores } = s := by
  have h := (State.landElement_spec as bs s).2
  rw [State.landFull_eq]
  generalize s.landElement as bs = u at h
  have h1 := u.fullIf_rest (as.headD 0 / 8 * 8) full.1
  generalize u.fullIf (as.headD 0 / 8 * 8) full.1 = v at h1
  have h2 := v.fullIf_rest (as.headD 0 / 8 * 8 + 8) full.2
  generalize v.fullIf (as.headD 0 / 8 * 8 + 8) full.2 = w at h2
  have hu : u = { s with mem := u.mem, slots := u.slots, cores := u.cores } := by rw [← h]
  have hv : v = { u with slots := v.slots, full := v.full } := by rw [← h1]
  have hw : w = { v with slots := w.slots, full := w.full } := by rw [← h2]
  rw [hw, hv, hu]

theorem State.full_landElement : (s.landElement as bs).full = s.full := State.full_of_land_rest (State.landElement_spec as bs s).2

theorem State.full_landFull_none : (s.landFull as bs (false, false)).full = s.full := by
  rw [State.landFull_eq, State.full_fullIf, State.full_fullIf]
  exact s.full_landElement as bs

theorem State.isFull_landFull (b : Nat) : (s.landFull as bs full).isFull b = true ↔
    (full.2 = true ∧ b = as.headD 0 / 8 * 8 + 8) ∨ (full.1 = true ∧ b = as.headD 0 / 8 * 8) ∨ s.isFull b = true := by
  have h : (s.landElement as bs).isFull b = s.isFull b := by rw [State.isFull, State.full_landElement, State.isFull]
  rw [State.landFull_eq, State.isFull_fullIf, State.isFull_fullIf, h]

end

end Sys2Proof.Machine
end

section
/-! PROOFS. One element of a copy (R217, R219, R220, R254). -/

namespace Sys2Proof.Machine

open Sys2Proof.Claim

/-! The element, read and written. -/

/-- Offset of the element at hand in an entry, from this origin. -/
def Running.offsetIn (r : Running) (l : Layout) (origin : List Nat) : Nat :=
  l.offset (recEb r.record) ((origin.zip (coords (recExt r.record) r.pos)).map (fun p => p.1 + p.2))

def Running.source (r : Running) : Layout := layoutOfWords r.src
def Running.target (r : Running) : Layout := layoutOfWords r.dst
def Running.sourceOff (r : Running) : Nat := r.offsetIn r.source (recSo r.record)
def Running.targetOff (r : Running) : Nat := r.offsetIn r.target (recDo r.record)

/-- The virtual cores that an entry of space 1 names as destination. -/
def State.targetsOf (s : State) (k : Nat) (r : Running) (mc : Bool) : List Nat :=
  if r.target.space == 1 then s.copyTargets k r.entry mc r.target else []

/-- The words that become full with the element. -/
def Running.fullBits (r : Running) (later : List Nat) : Bool × Bool := fullWords r r.target r.targetOff (recEb r.record) later

/-- The bytes of the element written at its places. -/
def State.writeElement (s : State) (k : Nat) (r : Running) (mc : Bool) (later : List Nat) (bs : List Byte) : Moved :=
  match s.placeOf k r r.target (s.targetsOf k r mc) r.targetOff (recEb r.record) true with
  | (z, .fault st det) => .fault z st det
  | (z, .here as) => .done (z.landFull as bs (r.fullBits later))
  | (z, .away hs) =>
    .ask (z.askHomes k r.entry.slot (fun t p b => .copyWrite t p bs b (r.fullBits later)) hs).1
      (z.askHomes k r.entry.slot (fun t p b => .copyWrite t p bs b (r.fullBits later)) hs).2 (some bs) true

section
variable {s : State} {k : Nat} {r : Running} {mc : Bool} {later : List Nat}

theorem copyElement_of_asked (h : r.asked ≠ []) : s.copyElement k r mc later = .wait := by
  have : (!r.asked.isEmpty) = true := by simpa using h
  simp only [State.copyElement, this, if_true]

theorem copyElement_of_refused (h : r.asked = []) (hr : r.refused = true) : s.copyElement k r mc later = .fault s 6 0 := by
  simp only [State.copyElement, h, hr, List.isEmpty_nil, Bool.not_true, Bool.false_eq_true, if_false, if_true]

theorem copyElement_of_sent (h : r.asked = []) (hr : r.refused = false) (hs : r.sent = true) : s.copyElement k r mc later = .done s := by
  simp only [State.copyElement, h, hr, hs, List.isEmpty_nil, Bool.not_true, Bool.false_eq_true, if_false, if_true]

variable (hready : r.asked = [] ∧ r.refused = false ∧ r.sent = false)
include hready

theorem copyElement_of_got {bs : List Byte} (hg : r.got = some bs) : s.copyElement k r mc later = s.writeElement k r mc later bs := by
  obtain ⟨ha, hr, hs⟩ := hready
  simp only [State.copyElement, ha, hr, hs, hg, List.isEmpty_nil, Bool.not_true, Bool.false_eq_true, if_false]
  rfl

variable (hg : r.got = none) {z : State}
include hg

theorem copyElement_of_here {as : List Nat}
    (hp : s.placeOf k r r.source [vkey (s.vc k).gid r.source.vcid] r.sourceOff (recEb r.record) false = (z, .here as)) :
    s.copyElement k r mc later = z.writeElement k r mc later (readAt z.mem as) := by
  obtain ⟨ha, hr, hs⟩ := hready
  simp only [Running.source, Running.sourceOff, Running.offsetIn] at hp
  simp only [State.copyElement, ha, hr, hs, hg, hp, List.isEmpty_nil, Bool.not_true, Bool.false_eq_true, if_false]
  rfl

theorem copyElement_of_fault {st det : Nat}
    (hp : s.placeOf k r r.source [vkey (s.vc k).gid r.source.vcid] r.sourceOff (recEb r.record) false = (z, .fault st det)) :
    s.copyElement k r mc later = .fault z st det := by
  obtain ⟨ha, hr, hs⟩ := hready
  simp only [Running.source, Running.sourceOff, Running.offsetIn] at hp
  simp only [State.copyElement, ha, hr, hs, hg, hp, List.isEmpty_nil, Bool.not_true, Bool.false_eq_true, if_false]

theorem copyElement_of_away {x : Dest} {p : Word} {bank : Nat}
    (hp : s.placeOf k r r.source [vkey (s.vc k).gid r.source.vcid] r.sourceOff (recEb r.record) false = (z, .away [(x, p, bank)])) :
    s.copyElement k r mc later = .ask { z with nextId := z.nextId + 1, net := z.net ++
      [Msg.mk (.vc k) x .request (.copyRead ⟨z.nextId + 1, r.entry.slot, 0⟩ p (recEb r.record) bank) none false] } [z.nextId + 1] none false := by
  obtain ⟨ha, hr, hs⟩ := hready
  simp only [Running.source, Running.sourceOff, Running.offsetIn] at hp
  simp only [State.copyElement, ha, hr, hs, hg, hp, List.isEmpty_nil, Bool.not_true, Bool.false_eq_true, if_false, State.askHomes_one]

end

section
variable {s z : State} {k : Nat} {r : Running} {mc : Bool} {later : List Nat} {bs : List Byte}

theorem writeElement_of_here {act : Bool} {as : List Nat} (h : s.LiesHere k r act r.target r.targetOff (recEb r.record) true z as) :
    s.writeElement k r mc later bs = .done (z.landFull as bs (r.fullBits later)) := by
  simp only [State.writeElement, State.placeOf_here h]

theorem writeElement_of_outside {st det : Nat} (h : s.LiesOutside k r r.target r.targetOff (recEb r.record) true st det) :
    ∃ t, s.writeElement k r mc later bs = .fault t st det ∧ t.mem = s.mem := by
  obtain ⟨t, ht, hm⟩ := State.placeOf_outside h (s.targetsOf k r mc)
  exact ⟨t, by simp only [State.writeElement, ht], hm⟩

theorem vcid_lt_layoutOfWords (w : List Word) : (layoutOfWords w).vcid < 65536 := bits_lt _ 63 48

theorem writeElement_of_away {x : Dest} {p : Word} (h : s.LiesAway k r.target r.targetOff (recEb r.record) x p)
    (hm : mc = false ∨ ∀ j, x ≠ .vc j) : ∃ bank, s.writeElement k r mc later bs = .ask { s with nextId := s.nextId + 1, net := s.net ++
      [Msg.mk (.vc k) x .request (.copyWrite ⟨s.nextId + 1, r.entry.slot, 0⟩ p bs bank (r.fullBits later)) none false] } [s.nextId + 1] (some bs) true := by
  have hvks (hs : r.target.space = 1) (hown : s.ownNode r.target.node = true) : s.targetsOf k r mc = [vkey (s.vc k).gid r.target.vcid] := by
    rcases hm with hm | hm
    · simp only [State.targetsOf, hs, beq_self_eq_true, if_true, State.copyTargets, hm, Bool.false_eq_true, if_false]
    · rcases h with ⟨-, -, rfl, -⟩ | ⟨-, hno, -⟩ | ⟨hs6, -⟩
      · exact absurd rfl (hm _)
      · exact absurd hown hno
      · rw [hs] at hs6; cases hs6
  obtain ⟨bank, hp⟩ := State.placeOf_away (r := r) (write := true) h (vcid_lt_layoutOfWords r.dst) hvks
  exact ⟨bank, by simp only [State.writeElement, hp, State.askHomes_one]⟩

/-- A copy to a group sends the element to every member. -/
theorem writeElement_of_members (hs : r.target.space = 1) (hown : s.ownNode r.target.node = true) (hm : mc = true) :
    ∃ t ids ms, s.writeElement k r mc later bs = .ask t ids (some bs) true ∧ t.net = s.net ++ ms ∧
      ms.map Msg.dst = ((s.vcs.filter (fun p => p.2.live && p.2.groups.contains (bits r.entry.op 31 24))).map Prod.fst).map Dest.vc ∧
      (∀ m ∈ ms, ∃ id j bank full, id ∈ ids ∧ m.dst = .vc j ∧
        m.body = .copyWrite ⟨id, r.entry.slot, 0⟩ (r.target.ptr r.targetOff (j % 65536) r.target.rspace) bs bank full) ∧
      { t with net := s.net, nextId := s.nextId } = s := by
  have htargets : s.targetsOf k r mc = (s.vcs.filter (fun p => p.2.live && p.2.groups.contains (bits r.entry.op 31 24))).map Prod.fst := by
    simp only [State.targetsOf, hs, beq_self_eq_true, if_true, State.copyTargets, hm]
  have hp := State.placeOf_members (z := s) (k := k) (r := r) (o := r.targetOff) (n := recEb r.record) (write := true) hs hown (s.targetsOf k r mc)
  obtain ⟨ms, hnet, hdst, hbody, hrest⟩ := State.askHomes_spec k r.entry.slot (fun t p b => .copyWrite t p bs b (r.fullBits later))
    ((s.targetsOf k r mc).map (fun j => (.vc j, r.target.ptr r.targetOff (j % 65536) r.target.rspace, bankCode r r.target (some j)))) s
  refine ⟨_, _, ms, by simp only [State.writeElement, hp]; rfl, hnet, ?_, fun m hmem => ?_, hrest⟩
  · rw [hdst, htargets, List.map_map]
    rfl
  · obtain ⟨id, hid, p, b, hin, hb⟩ := hbody m hmem
    obtain ⟨j, -, hj⟩ := List.mem_map.mp hin
    obtain ⟨hd, hp, hbank⟩ := Prod.mk.inj hj |>.imp_right Prod.mk.inj
    exact ⟨id, j, b, r.fullBits later, hid, hd.symm, by rw [hb, ← hp]⟩

end

/-! The words that become full (R259). -/

theorem fullBits_of_clear {r : Running} (h : bit r.entry.op 17 = false) (later : List Nat) : r.fullBits later = (false, false) := by
  simp only [Running.fullBits, fullWords, ctlFb, h, Bool.false_and]

theorem recEb_pos (rec_ : List Word) : 0 < recEb rec_ := Nat.two_pow_pos _
theorem recEb_le (rec_ : List Word) : recEb rec_ ≤ 8 := by
  have h : bits (rec_.getD 0 0) 9 8 ≤ 3 := Nat.le_of_lt_succ (bits_lt _ 9 8)
  exact Nat.pow_le_pow_right (by decide) h

/-- The first word of a span, and its last. -/
theorem headD_span (a n : Nat) : (span a (n + 1)).headD 0 = a := by
  simp [span, List.range_succ_eq_map]

theorem words_span (a n : Nat) : ((span a (n + 1)).map (· / 8)).headD 0 = a / 8 ∧ ((span a (n + 1)).map (· / 8)).getLastD 0 = (a + n) / 8 := by
  constructor
  · simp [span, List.range_succ_eq_map]
  · simp [span, List.range_succ]

/-- With FB and no later element in its words, an element in LM fills every word that it meets. -/
theorem fullBits_of_set {r : Running} (h : bit r.entry.op 17 = true) (hs : r.target.space = 0) {n : Nat} (hn : recEb r.record = n + 1) :
    r.fullBits [] = (true, (r.target.base + r.targetOff + n) / 8 != (r.target.base + r.targetOff) / 8) := by
  obtain ⟨hfirst, hlast⟩ := words_span (r.target.base + r.targetOff) n
  have hw : relWords r.target r.targetOff (n + 1) = (span (r.target.base + r.targetOff) (n + 1)).map (· / 8) := by
    simp only [relWords, hs]
    rfl
  simp only [Running.fullBits, fullWords, ctlFb, h, hs, hn, hw, hfirst, hlast]
  simp

theorem isFull_landFull_span {z : State} {r : Running} (h : bit r.entry.op 17 = true) (hs : r.target.space = 0) (g : Nat) (bs : List Byte) :
    ∀ a ∈ span (lmAddr g (r.target.base + r.targetOff)) (recEb r.record),
      (z.landFull (span (lmAddr g (r.target.base + r.targetOff)) (recEb r.record)) bs (r.fullBits [])).isFull (a / 8 * 8) = true := by
  obtain ⟨n, hn⟩ : ∃ n, recEb r.record = n + 1 := ⟨recEb r.record - 1, by have := recEb_pos r.record; omega⟩
  have hle : n < 8 := by have := recEb_le r.record; omega
  intro a ha
  rw [fullBits_of_set h hs hn, State.isFull_landFull, hn, headD_span]
  rw [hn] at ha
  obtain ⟨j, hj, rfl⟩ := List.mem_map.mp ha
  have hj := List.mem_range.mp hj
  simp only [lmAddr]
  by_cases hsame : (g * 0x100000 + (r.target.base + r.targetOff) + j) / 8 = (g * 0x100000 + (r.target.base + r.targetOff)) / 8
  · exact .inr (.inl ⟨trivial, by rw [hsame]⟩)
  · refine .inl ⟨bne_iff_ne.mpr ?_, ?_⟩ <;> omega

end Sys2Proof.Machine
end

section
/-! PROOFS. Elements of copies between all spaces, and at their homes (R195, R217, R219, R220, R254, R259). -/

namespace Sys2Proof.Machine

open Sys2Proof.Claim

/-- The element has been read as bs, at hand or elsewhere; after that the state is z. -/
def State.HasRead (s : State) (k : Nat) (r : Running) (act : Bool) (z : State) (bs : List Byte) : Prop :=
  (r.asked = [] ∧ r.refused = false ∧ r.sent = false) ∧ (r.got = some bs ∧ z = s ∨
    r.got = none ∧ ∃ as, s.LiesHere k r act r.source r.sourceOff (recEb r.record) false z as ∧ bs = readAt z.mem as)

/-- It is then written. -/
theorem copyElement_of_hasRead {s z : State} {k : Nat} {r : Running} {act : Bool} {bs : List Byte} (h : s.HasRead k r act z bs) (mc : Bool)
    (later : List Nat) : s.copyElement k r mc later = z.writeElement k r mc later bs := by
  obtain ⟨hready, ⟨hg, rfl⟩ | ⟨hg, as, hhere, rfl⟩⟩ := h
  · exact copyElement_of_got hready hg
  · exact copyElement_of_here hready hg (State.placeOf_here hhere _)

/-- Each clause by the place of the element. -/
theorem copyElements : CopyElements := by
  intro s k r mc later act src d eb e at_ so do_ bytes inside active found here outside ptr node rspace away step_ ready value tag
  refine ⟨copyElement_of_asked, copyElement_of_refused, copyElement_of_sent, ?readAway, ?readOutside, ?writeHere, ?writeOutside, ?writeAway,
    ?members⟩
  case readAway =>
    intro x p hready hg haway
    obtain ⟨bank, hp⟩ := State.placeOf_away (r := r) (write := false) (l := r.source) haway (vcid_lt_layoutOfWords r.src)
      (vks := [vkey (s.vc k).gid r.source.vcid]) (fun _ _ => rfl)
    exact ⟨_, bank, copyElement_of_away hready hg hp, rfl, rfl⟩
  case readOutside =>
    intro st det hready hg hout
    obtain ⟨t, hp, hm⟩ := State.placeOf_outside (l := r.source) hout [vkey (s.vc k).gid r.source.vcid]
    exact ⟨t, copyElement_of_fault hready hg hp, hm⟩
  case writeHere =>
    intro z bs u as hv hhere
    have hread : s.HasRead k r act z bs := hv
    refine ⟨_, (copyElement_of_hasRead hread mc later).trans (writeElement_of_here hhere), u.mem_landFull as bs _, fun hclear => ?_,
      fun hset hs hlen hlater => ?_, u.landFull_rest as bs _⟩
    · rw [fullBits_of_clear hclear]
      exact u.full_landFull_none as bs
    · rcases hhere with ⟨-, -, rfl, rfl⟩ | ⟨hs2, -⟩ | ⟨hlo, -⟩
      · rw [hlater]
        exact isFull_landFull_span hset hs _ bs
      · exact absurd (hs.symm.trans hs2) nofun
      · exact absurd hlo (by rw [hs]; decide)
  case writeOutside =>
    intro z bs st det hv hout
    have hread : s.HasRead k r act z bs := hv
    obtain ⟨t, ht, hm⟩ := writeElement_of_outside (mc := mc) (later := later) (bs := bs) hout
    exact ⟨t, (copyElement_of_hasRead hread mc later).trans ht, hm⟩
  case writeAway =>
    intro z bs x p hv haway hmc hid
    have hread : s.HasRead k r act z bs := hv
    obtain ⟨bank, ht⟩ := writeElement_of_away (later := later) (bs := bs) haway hmc
    refine ⟨_, bank, r.fullBits later, (copyElement_of_hasRead hread mc later).trans ht, ?_, rfl⟩
    rw [hid]
  case members =>
    intro z bs hv hs hown hmc
    have hread : s.HasRead k r act z bs := hv
    obtain ⟨t, ids, ms, ht, hrest⟩ := writeElement_of_members (later := later) (bs := bs) hs hown hmc
    exact ⟨t, ids, ms, (copyElement_of_hasRead hread mc later).trans ht, hrest⟩

end Sys2Proof.Machine
end

section
/-! PROOFS. An element of a copy at its home (R195, R220, R254, R259). -/

namespace Sys2Proof.Machine

open Sys2Proof.Claim

/-! Spans. -/

theorem span_succ (a n : Nat) : span a (n + 1) = a :: span (a + 1) n := by
  simp only [span, List.range_succ_eq_map, List.map_cons, List.map_map, Nat.add_zero]
  refine congrArg (a :: ·) (List.map_congr_left fun i _ => ?_)
  simp only [Function.comp]
  omega

theorem writeAt_span : ∀ (bs : List Byte) (m : Memory) (a : Nat), writeAt m (span a bs.length) bs = Memory.setBytes m a bs
  | [], _, _ => rfl
  | b :: bs, m, a => by rw [List.length_cons, span_succ, writeAt, Memory.setBytes, writeAt_span bs]

theorem ofBytes_readAt_span (m : Memory) : ∀ (n a : Nat), ofBytes (readAt m (span a n)) = Memory.readN m a n
  | 0, _ => rfl
  | n + 1, a => by
    rw [span_succ, Memory.readN, ← ofBytes_readAt_span m n (a + 1)]
    rfl

/-! The bytes of an element at its home. -/

section
variable {s : State} {vk : Nat} {p : Word} {n : Nat} (code : Nat)

theorem State.homeBytes_lm (hs : p.toNat / 2 ^ 60 ≠ 2) (hin : p.toNat % 2 ^ 24 + n ≤ s.launchLenOf vk) :
    s.homeBytes (.vc vk) p n code = some (span (lmAddr (s.coreOf vk) ((s.vc vk).base + p.toNat % 2 ^ 24)) n) := by
  have hsp : (p.toNat / 2 ^ 60 == 2) = false := beq_eq_false_iff_ne.mpr hs
  simp only [State.homeBytes, bits_ptrSpace, bits_ptrOff, hsp, hin, Bool.false_eq_true, if_false, if_true]

/-- The bank that a code names: the active one, the standby one, or one by number. -/
def VCore.bankOf (v : VCore) (code : Nat) : Bool := if code = 0 then v.bank else if code = 1 then !v.bank else code == 3

theorem VCore.bankOf_eq (v : VCore) : (if code < 2 then v.bank != (code == 1) else code == 3) = v.bankOf code := by
  unfold VCore.bankOf
  match code with
  | 0 => simp
  | 1 => simp
  | _ + 2 => simp

theorem State.homeBytes_ws (hs : p.toNat / 2 ^ 60 = 2) (hin : p.toNat % 2 ^ 24 + n ≤ s.share vk) :
    s.homeBytes (.vc vk) p n code = some (span (s.wsAt vk ((s.vc vk).bankOf code) (p.toNat % 2 ^ 24)) n) := by
  have hsp : (p.toNat / 2 ^ 60 == 2) = true := beq_iff_eq.mpr hs
  simp only [State.homeBytes, bits_ptrSpace, bits_ptrOff, hsp, hin, VCore.bankOf_eq, if_true]

theorem State.homeBytes_outside (h : (p.toNat / 2 ^ 60 ≠ 2 ∧ s.launchLenOf vk < p.toNat % 2 ^ 24 + n) ∨
    (p.toNat / 2 ^ 60 = 2 ∧ s.share vk < p.toNat % 2 ^ 24 + n)) : s.homeBytes (.vc vk) p n code = none := by
  rcases h with ⟨hs, hout⟩ | ⟨hs, hout⟩
  · have hsp : (p.toNat / 2 ^ 60 == 2) = false := beq_eq_false_iff_ne.mpr hs
    simp only [State.homeBytes, bits_ptrSpace, bits_ptrOff, hsp, Nat.not_le.mpr hout, Bool.false_eq_true, if_false]
  · have hsp : (p.toNat / 2 ^ 60 == 2) = true := beq_iff_eq.mpr hs
    simp only [State.homeBytes, bits_ptrSpace, bits_ptrOff, hsp, Nat.not_le.mpr hout, if_true, if_false]

theorem State.homeBytes_sig {d : Nat} (hin : p.toNat % 2 ^ 24 + n ≤ 0x8000) (hf : (s.die d).failed = false) :
    s.homeBytes (.sig d) p n code = some (span (sigAddr d (p.toNat % 2 ^ 24)) n) := by
  have hok : (decide (0x8000 < p.toNat % 2 ^ 24 + n) || (s.die d).failed) = false := by simpa [hf] using hin
  simp only [State.homeBytes, bits_ptrOff, hok, Bool.false_eq_true, if_false]

end

theorem AtHome.homeBytes {s u : State} (h : AtHome s u) (d : Dest) (p : Word) (n code : Nat) :
    u.homeBytes d p n code = s.homeBytes d p n code := by
  rw [h.eq]
  rfl

/-! The events. -/

section
variable {s : State} {m : Msg} (hm : s.evMsg = some m) (hf : s.homeFree m = true) {tg : Tag} {p : Word}
include hm hf

theorem exec_copyWriteAtHome {bs : List Byte} {code : Nat} {full : Bool × Bool} (hb : m.body = .copyWrite tg p bs code full) :
    exec .remoteStoreAtHome s = .next (s.takeEv.arriveAccess m) := by
  have he : s.evAccess = some m := (s.evAccess_eq_some m).mpr ⟨hm, hf⟩
  show execRemoteStoreAtHome s = _
  simp only [execRemoteStoreAtHome, he, hb]

theorem exec_copyReadAtHome {n code : Nat} (hb : m.body = .copyRead tg p n code) :
    exec .remoteLoadAtHome s = .next (s.takeEv.arriveAccess m) := by
  have he : s.evAccess = some m := (s.evAccess_eq_some m).mpr ⟨hm, hf⟩
  show execRemoteLoadAtHome s = _
  simp only [execRemoteLoadAtHome, he, hb]

end

/-- A signal unit performs what arrives. -/
theorem State.arriveAccess_sig {m : Msg} {d : Nat} (hd : m.dst = .sig d) (s : State) : s.arriveAccess m = s.perform m := by
  simp only [State.arriveAccess, hd]

theorem net_of_landFull_rest {s u : State} (h : { u with mem := s.mem, full := s.full, slots := s.slots, cores := s.cores } = s) : u.net = s.net :=
  (congrArg State.net h :)

theorem State.net_landFull (s : State) (as : List Nat) (bs : List Byte) (full : Bool × Bool) : (s.landFull as bs full).net = s.net :=
  net_of_landFull_rest (s.landFull_rest as bs full)

section
variable {s : State} {m : Msg} {tg : Tag} {p : Word} {bs : List Byte} {n code : Nat} {full : Bool × Bool}

/-- An element that lies at a from there on is written there, and acknowledged. -/
theorem perform_copyWrite (hb : m.body = .copyWrite tg p bs code full) {a : Nat}
    (ha : s.homeBytes m.dst p bs.length code = some (span a bs.length)) : let t := s.takeEv.perform m
    (∀ j, Memory.read t.mem j = if a ≤ j ∧ j < a + bs.length then bs.getD (j - a) 0 else Memory.read s.mem j) ∧
    Claim.Answered s t m (.ack tg.id tg.slot 0 false) ∧ (full = (false, false) → t.full = s.full) ∧
    (full.1 = true → t.isFull (a / 8 * 8) = true ∨ bs = []) := by
  have hu := s.atHome_useBank m
  have hperform : s.takeEv.perform m =
      ((s.takeEv.useBank m).landFull (span a bs.length) bs full).answer m.dst m.src (.ack tg.id tg.slot 0 false) := by
    simp only [State.perform, hb, State.performCopy, hu.homeBytes, ha]
  rw [hperform]
  refine ⟨fun j => ?_, ?_, fun hnone => ?_, fun hfull => ?_⟩
  · rw [State.answer_mem, State.mem_landFull, writeAt_span, Memory.read_setBytes, hu.mem]
  · rw [Claim.Answered, State.answer_net, State.net_landFull, hu.net]
  · rw [State.answer_full, hnone, State.full_landFull_none, hu.full]
  · cases bs with
    | nil => exact .inr rfl
    | cons b bs =>
      have h := (State.isFull_landFull (s.takeEv.useBank m) (span a (b :: bs).length) (b :: bs) full (a / 8 * 8)).mpr
        (.inr (.inl ⟨hfull, by rw [List.length_cons, headD_span]⟩))
      exact .inl h

theorem perform_copyWrite_outside (hb : m.body = .copyWrite tg p bs code full) (ha : s.homeBytes m.dst p bs.length code = none) :
    let t := s.takeEv.perform m
    t.mem = s.mem ∧ t.full = s.full ∧ Claim.Answered s t m (.ack tg.id tg.slot 1 false) := by
  have hu := s.atHome_useBank m
  have hperform : s.takeEv.perform m = (s.takeEv.useBank m).answer m.dst m.src (.ack tg.id tg.slot 1 false) := by
    simp only [State.perform, hb, State.performCopy, hu.homeBytes, ha, State.answerError]
    rfl
  rw [hperform]
  exact ⟨hu.mem, hu.full, hu.answered _⟩

/-- An element that lies at a from there on is read. -/
theorem perform_copyRead (hb : m.body = .copyRead tg p n code) {a : Nat} (ha : s.homeBytes m.dst p n code = some (span a n)) :
    let t := s.takeEv.perform m
    t.mem = s.mem ∧ t.full = s.full ∧ Claim.Answered s t m (.loadReply tg.id tg.slot 0 (BitVec.ofNat 64 (number s a n))) := by
  have hu := s.atHome_useBank m
  have hperform : s.takeEv.perform m =
      (s.takeEv.useBank m).answer m.dst m.src (.loadReply tg.id tg.slot 0 (BitVec.ofNat 64 (number s a n))) := by
    simp only [State.perform, hb, State.performCopy, hu.homeBytes, ha, ofBytes_readAt_span, hu.mem, number_eq_readN]
  rw [hperform]
  exact ⟨hu.mem, hu.full, hu.answered _⟩

theorem perform_copyRead_outside (hb : m.body = .copyRead tg p n code) (ha : s.homeBytes m.dst p n code = none) :
    let t := s.takeEv.perform m
    t.mem = s.mem ∧ Claim.Answered s t m (.loadReply tg.id tg.slot 1 0) := by
  have hu := s.atHome_useBank m
  have hperform : s.takeEv.perform m = (s.takeEv.useBank m).answer m.dst m.src (.loadReply tg.id tg.slot 1 0) := by
    simp only [State.perform, hb, State.performCopy, hu.homeBytes, ha, State.answerError]
    rfl
  rw [hperform]
  exact ⟨hu.mem, hu.answered _⟩

end

/-- The clauses by the place of the element: LM, the weight store, signal memory, or outside. -/
theorem copyHomes : CopyHomes := by
  intro s m vk tg p bs n code full off v ws lm bank a inside outside put word
  have place {here : Bool} {n : Nat} (hp : Performed s m vk) (h : inside here n) : s.homeBytes m.dst p n code = some (span (a here) n) := by
    rw [hp.1.dst]
    rcases h with ⟨rfl, hl, hin⟩ | ⟨rfl, hw, hin⟩
    · exact State.homeBytes_lm code hl hin
    · exact State.homeBytes_ws code hw hin
  have noPlace {n : Nat} (hp : Performed s m vk) (h : outside n) : s.homeBytes m.dst p n code = none := by
    rw [hp.1.dst]
    exact State.homeBytes_outside code h
  have write (hp : Performed s m vk) (hb : m.body = .copyWrite tg p bs code full) : exec .remoteStoreAtHome s = .next (s.takeEv.perform m) := by
    rw [exec_copyWriteAtHome hp.1.msg hp.2 hb, State.arriveAccess_of_arrives hp.1 (by rw [hb]; rfl)]
  have read (hp : Performed s m vk) (hb : m.body = .copyRead tg p n code) : exec .remoteLoadAtHome s = .next (s.takeEv.perform m) := by
    rw [exec_copyReadAtHome hp.1.msg hp.2 hb, State.arriveAccess_of_arrives hp.1 (by rw [hb]; rfl)]
  refine ⟨fun here hp hb hin => ⟨_, write hp hb, perform_copyWrite hb (place hp hin)⟩,
    fun hp hb hout => ⟨_, write hp hb, perform_copyWrite_outside hb (noPlace hp hout)⟩,
    fun here hp hb hin => ⟨_, read hp hb, perform_copyRead hb (place hp hin)⟩,
    fun hp hb hout => ⟨_, read hp hb, perform_copyRead_outside hb (noPlace hp hout)⟩, fun d hm hd hfail => ?_⟩
  have hfree : s.homeFree m = true := s.homeFree_of_noTarget m (s.lmTarget_sig m d hd)
  refine ⟨fun hb hin => ?_, fun hb hin => ?_⟩
  · have ha : s.homeBytes m.dst p bs.length code = some (span (sigAddr d off) bs.length) := by
      rw [hd]; exact State.homeBytes_sig code hin hfail
    obtain ⟨hput, hans, -, -⟩ := perform_copyWrite hb ha
    exact ⟨_, by rw [exec_copyWriteAtHome hm hfree hb, State.arriveAccess_sig hd], hput, hans⟩
  · have ha : s.homeBytes m.dst p n code = some (span (sigAddr d off) n) := by
      rw [hd]; exact State.homeBytes_sig code hin hfail
    obtain ⟨hmem, -, hans⟩ := perform_copyRead hb ha
    exact ⟨_, by rw [exec_copyReadAtHome hm hfree hb, State.arriveAccess_sig hd], hmem, hans⟩

end Sys2Proof.Machine
end

section
/-! PROOFS. The copy engine: its start, completion and fault (R26, R217 to R221). -/

namespace Sys2Proof.Machine

open Sys2Proof.Claim

/-! The start. -/

section
variable {s : State} {k : Nat} {q : QEntry} {rd : BitVec 5}

theorem copyBegin_entry : (s.copyBegin k q rd).entry = q := by
  unfold State.copyBegin
  extract_lets
  split
  · rfl
  · split <;> rfl

theorem copyBegin_of_wellFormed (hr : recMalformed (wordsOfBytes (s.slotBytes k (q.ra.getD 0) 0 104)) = false)
    (hs : boxInside (layoutOfWords ((s.vc k).layoutWords (bits q.op 5 0))) (recSo (wordsOfBytes (s.slotBytes k (q.ra.getD 0) 0 104)))
      (recExt (wordsOfBytes (s.slotBytes k (q.ra.getD 0) 0 104))) = true)
    (hd : boxInside (layoutOfWords ((s.vc k).layoutWords (bits q.op 13 8))) (recDo (wordsOfBytes (s.slotBytes k (q.ra.getD 0) 0 104)))
      (recExt (wordsOfBytes (s.slotBytes k (q.ra.getD 0) 0 104))) = true) :
    (s.copyBegin k q rd).fault = none ∧ (s.copyBegin k q rd).record = wordsOfBytes (s.slotBytes k (q.ra.getD 0) 0 104) := by
  simp only [State.copyBegin, hr, hs, hd, Bool.and_self, Bool.not_true, Bool.false_eq_true, if_false, and_self]

theorem copyBegin_of_malformed (hr : recMalformed (wordsOfBytes (s.slotBytes k (q.ra.getD 0) 0 104)) = true) :
    (s.copyBegin k q rd).fault = some (1, 0) := by
  simp only [State.copyBegin, hr, if_true]

end

/-- The queue of the copy engine cancelled. -/
def VCore.copiesCancelled (v : VCore) : VCore :=
  { v with queue := FMap.set v.queue 2 ((v.queueOf 2).map (fun q => { q with cancelled := true })) }

theorem VCore.cancelled_of_mem {v : VCore} {e : QEntry} (h : e ∈ v.copiesCancelled.queueOf 2) : e.cancelled = true := by
  have hq : v.copiesCancelled.queueOf 2 = (v.queueOf 2).map (fun q => { q with cancelled := true }) := FMap.getD_set_self ..
  rw [hq] at h
  obtain ⟨q, -, rfl⟩ := List.mem_map.mp h
  rfl

/-- The copy q taken from the queue is in progress as r. -/
def State.copyTaken (s : State) (k : Nat) (r : Running) : State := (s.popQueue k 2).setRun k 2 r

theorem State.vc_copyTaken (s : State) (k : Nat) (r : Running) : (s.copyTaken k r).vc k =
    { s.vc k with queue := FMap.set (s.vc k).queue 2 ((s.vc k).queueOf 2).tail, run := FMap.set (s.vc k).run 2 r } := by
  rw [State.copyTaken, State.setRun, State.vc_updVc_self, State.popQueue, State.vc_updVc_self]

section
variable {s : State} {mc n : Bool} {rd : BitVec 5} {q : QEntry} {rest : List QEntry} (hcan : s.copyCanStart s.ev.key = true)
  (hrun : FMap.get? (s.vc s.ev.key).run 2 = none) (hq : (s.vc s.ev.key).queueOf 2 = q :: rest) (hf : copyFields q = some (mc, n, rd))
include hcan hrun hq hf

theorem exec_copyEngineStart_taken (hfault : (s.copyBegin s.ev.key q rd).fault = none) :
    exec .copyEngineStart s = .next (s.copyTaken s.ev.key (s.copyBegin s.ev.key q rd)) := by
  have hrun' : (s.vc s.ev.key).runOf 2 = none := hrun
  show execCopyEngineStart s = _
  simp only [execCopyEngineStart, hcan, if_true, hrun', hq, hf, hfault, Option.isSome_none, Bool.false_eq_true, if_false]
  rfl

/-- A malformed copy stops the engine, and all that waits for it is cancelled. -/
theorem exec_copyEngineStart_stopped {x : Nat × Word} (hfault : (s.copyBegin s.ev.key q rd).fault = some x) :
    exec .copyEngineStart s = .next (((s.copyTaken s.ev.key (s.copyBegin s.ev.key q rd)).copyProgress s.ev.key q rd (s.copyBegin s.ev.key q rd).pos
      (s.copyBegin s.ev.key q rd).total).updVc s.ev.key VCore.copiesCancelled) := by
  have hrun' : (s.vc s.ev.key).runOf 2 = none := hrun
  show execCopyEngineStart s = _
  simp only [execCopyEngineStart, hcan, if_true, hrun', hq, hf, hfault, Option.isSome_some]
  rfl

end

/-! The end of a copy. -/

/-- Of the virtual core the end of a run takes that run alone. -/
theorem State.vc_endRun (s : State) (k e : Nat) (q : QEntry) : (s.endRun k e q).vc k = { s.vc k with run := FMap.del (s.vc k).run e } := by
  have hframe (u : State) : (u.frameProgress k q.slot).vc k = u.vc k := by
    unfold State.frameProgress
    extract_lets
    split <;> rfl
  rw [State.endRun, hframe, State.vc_wakeVc, State.vc_updVc_self]

theorem State.net_endRun (s : State) (k e : Nat) (q : QEntry) : (s.endRun k e q).net = s.net := by
  have hframe (u : State) : (u.frameProgress k q.slot).net = u.net := by
    unfold State.frameProgress
    extract_lets
    split <;> rfl
  rw [State.endRun, hframe]
  rfl

theorem Slot.p30_writeX (sl : Slot) (rd : BitVec 5) (v : Word) : (sl.writeX rd v).p30 = sl.p30 := by
  unfold Slot.writeX
  split <;> rfl

theorem State.p30_endRun (s : State) (k e : Nat) (q : QEntry) (j : Nat) : ((s.endRun k e q).slot j).p30 = (s.slot j).p30 := by
  have hframe (u : State) : ((u.frameProgress k q.slot).slot j).p30 = (u.slot j).p30 := by
    unfold State.frameProgress
    extract_lets key
    split
    · rw [State.slot_updSlot]
      split
      · next hj => rw [Slot.p30_writeX, hj]
      · rfl
    · rfl
  rw [State.endRun, hframe, State.slot_wakeVc]
  split
  · exact (congrArg Slot.p30 (Slot.wake_rest ..) :)
  · rfl

/-- After the run has ended and its access is acknowledged, neither is left. -/
theorem run_acked_endRun (s : State) (k : Nat) (q : QEntry) : let t := (s.endRun k 2 q).acked k q.id 0 false
    FMap.get? (t.vc k).run 2 = none ∧ ∀ a ∈ (t.vc k).unacked, a.id ≠ q.id := by
  refine ⟨?_, fun a ha => State.id_ne_of_acked _ k ha⟩
  have hrun : (((s.endRun k 2 q).acked k q.id 0 false).vc k).run = ((s.endRun k 2 q).vc k).run :=
    (congrArg VCore.run ((s.endRun k 2 q).aftermath_acked k q.id 0 false).vc.rest :)
  rw [hrun, State.vc_endRun]
  exact FMap.get?_del_self ..

/-- The state of a copy that has completed, before its run ends: its descriptor is claimed, and its record posted. -/
def State.copySettled (s : State) (k : Nat) (q : QEntry) (mc n : Bool) (count pos : Nat) : State :=
  let t := if !n then s.advHead k (q.ra.getD 0) 1 else s
  if ctlEv q then t.postEvent k (copyRecord q mc 0 count pos).1 (copyRecord q mc 0 count pos).2 else t

theorem exec_copyComplete {s : State} {q : QEntry} {count pos : Nat} {mc n : Bool} {rd : BitVec 5} (hcan : s.copyCanEnd s.ev.key = true)
    (hdone : (s.vc s.ev.key).copyDone = some (q, 0, count, pos)) (hf : copyFields q = some (mc, n, rd)) :
    exec .copyComplete s = .next (((s.copySettled s.ev.key q mc n count pos).endRun s.ev.key 2 q).acked s.ev.key q.id 0 false) := by
  show execCopyComplete s = _
  simp only [execCopyComplete, hcan, hdone, hf]
  rfl

/-! A fault of a copy. -/

/-- The record of the fault is posted, or goes to the mailbox. -/
def State.copyReported (s : State) (k : Nat) (r : Running) (w : Word × Word) : State :=
  if s.eventRoom k 16 == some true then s.postEvent k w.1 w.2 else s.mail k 4 r.entry.slot r.entry.pc w.1 w.2 []

/-- A segment fault goes to the slot bound to the engine. -/
def State.copyFlagged (u : State) (k st : Nat) (det : Word) (cyc : Nat) : State :=
  match st, FMap.get? (u.vc k).binds 2 with
  | 3, some j => u.updSlot (slotKey k j) (fun sl => ({ sl with p30 := some det }).nudge cyc)
  | _, _ => u

theorem exec_copyFault {s : State} {r : Running} {st : Nat} {det : Word} {mc n : Bool} {rd : BitVec 5} (hcan : s.copyFaulted s.ev.key = true)
    (hrun : FMap.get? (s.vc s.ev.key).run 2 = some r) (hfault : r.fault = some (st, det)) (hf : copyFields r.entry = some (mc, n, rd)) :
    ∃ cyc, exec .copyFault s = .next (((s.copyReported s.ev.key r (copyRecord r.entry mc st r.count r.pos)).copyFlagged s.ev.key st det cyc
      |>.endRun s.ev.key 2 r.entry).acked s.ev.key r.entry.id 0 false) := by
  have hrun' : (s.vc s.ev.key).runOf 2 = some r := hrun
  refine ⟨(s.copyReported s.ev.key r (copyRecord r.entry mc st r.count r.pos)).cycOf s.ev.key, ?_⟩
  show execCopyFault s = _
  simp only [execCopyFault, hcan, hrun', hfault, hf]
  rfl

theorem State.net_copyFlagged (u : State) (k st : Nat) (det : Word) (cyc : Nat) : (u.copyFlagged k st det cyc).net = u.net := by
  unfold State.copyFlagged
  split <;> rfl

theorem Slot.p30_nudge (sl : Slot) (c : Nat) : (sl.nudge c).p30 = sl.p30 := by
  unfold Slot.nudge
  split <;> exact (congrArg Slot.p30 (Slot.wake_rest ..) :)

theorem State.p30_copyFlagged {u : State} {k j : Nat} (h : FMap.get? (u.vc k).binds 2 = some j) (det : Word) (cyc : Nat) :
    ((u.copyFlagged k 3 det cyc).slot (slotKey k j)).p30 = some det := by
  simp only [State.copyFlagged, h, State.slot_updSlot_self, Slot.p30_nudge]

theorem State.binds_postRing (s : State) (k ix : Nat) (ws : List Word) : ((s.postRing k ix ws).vc k).binds = (s.vc k).binds := by
  have hadv (u : State) : ((u.advTail k ix 1).vc k).binds = (u.vc k).binds := by
    rw [State.advTail, State.vc_wakeVc, State.setRing, State.vc_updVc_self]
  rw [State.postRing, hadv, State.vc_land]

theorem State.binds_copyReported (s : State) (k : Nat) (r : Running) (w : Word × Word) : ((s.copyReported k r w).vc k).binds = (s.vc k).binds := by
  unfold State.copyReported
  split
  · unfold State.postEvent
    split
    · exact s.binds_postRing ..
    · rfl
  · unfold State.mail
    split <;> rfl

/-- Without an event ring the supervisor has the record. -/
theorem State.net_copyReported {s : State} {k sk ss m : Nat} (he : s.eventRoom k 16 = none) (hm : s.mailbox k = some (sk, ss, m)) (r : Running)
    (w : Word × Word) : (s.copyReported k r w).net = s.net ++ [Msg.mk (.vc k) (.vc sk) .request (.mailbox ss m
      [BitVec.ofNat 64 (4 + r.entry.slot * 0x100 + (s.vc k).vcid * 0x10000 + s.node * 0x100000000), r.entry.pc, w.1, w.2, 0, 0, 0, 0]) none false] := by
  have hno : (s.eventRoom k 16 == some true) = false := by rw [he]; rfl
  simp only [State.copyReported, hno, Bool.false_eq_true, if_false, State.mail, hm]
  rfl

theorem copyRecord_fst (q : QEntry) (mc : Bool) (st count pos : Nat) : (copyRecord q mc st count pos).1 =
    BitVec.ofNat 64 ((if mc = true then 0x11 else 0x10) + 2 * 256 + st * 4096 + bits q.op 47 32 * 65536 + count % 2 ^ 32 * 2 ^ 32) := by
  refine congrArg (BitVec.ofNat 64) ?_
  simp only [pack, ctlTag]
  omega

end Sys2Proof.Machine
end

section
/-! PROOFS. Copies: acceptance, the engine, its elements and their homes (R26, R214, R217 to R221, R254). -/

namespace Sys2Proof.Machine

open Sys2Proof.Claim

/-! An element read from LM. -/

section
variable {s : State} {k : Nat} {r : Running}

theorem readAt_span_lm (m : Memory) (g a n : Nat) :
    readAt m (span (lmAddr g a) n) = (List.range n).map (fun j => Memory.read m (lmAddr g (a + j))) := by
  simp only [readAt, span, List.map_map, lmAddr, Function.comp_def, Nat.add_assoc]

variable (hfirst : r.asked = [] ∧ r.refused = false ∧ r.sent = false ∧ r.got = none) (hs : r.source.space = 0)
  (ha : r.entry.mMode = false ∧ r.entry.base ≤ r.source.base + r.sourceOff ∧
    r.source.base + r.sourceOff + recEb r.record ≤ r.entry.base + r.entry.lim)
include hfirst hs ha

theorem hasRead_lm : s.HasRead k r false s ((List.range (recEb r.record)).map (fun j =>
    Memory.read s.mem (lmAddr (s.coreOf k) (r.source.base + r.sourceOff + j)))) := by
  obtain ⟨hasked, hrefused, hsent, hgot⟩ := hfirst
  exact ⟨⟨hasked, hrefused, hsent⟩, .inr ⟨hgot, _, .inl ⟨hs, .inr ha, rfl, rfl⟩, (readAt_span_lm ..).symm⟩⟩

/-- Written to another virtual core it goes there as a message. -/
theorem copyElement_to_vc (hd : r.target.space = 1) (hown : s.ownNode r.target.node = true) (hr : r.target.rspace = 0) (later : List Nat) :
    let bytes := (List.range (recEb r.record)).map (fun j => Memory.read s.mem (lmAddr (s.coreOf k) (r.source.base + r.sourceOff + j)))
    s.copyElement k r false later = .ask { s with nextId := s.nextId + 1, net := s.net ++ [Msg.mk (.vc k)
      (.vc (vkey (s.vc k).gid r.target.vcid)) .request (.copyWrite ⟨s.nextId + 1, r.entry.slot, 0⟩
        (r.target.ptr r.targetOff (vkey (s.vc k).gid r.target.vcid % 65536) r.target.rspace) bytes 0 (r.fullBits later)) none false] }
      [s.nextId + 1] (some bytes) true := by
  have htargets : s.targetsOf k r false = [vkey (s.vc k).gid r.target.vcid] := by
    simp only [State.targetsOf, hd, beq_self_eq_true, if_true, State.copyTargets, Bool.false_eq_true, if_false]
  have hbank : bankCode r r.target (some (vkey (s.vc k).gid r.target.vcid)) = 0 := by simp [bankCode, hr]
  rw [copyElement_of_hasRead (hasRead_lm hfirst hs ha)]
  simp only [State.writeElement, State.placeOf_members hd hown, htargets, List.map, State.askHomes_one, hbank]

/-- Written to LM it lands there. -/
theorem copyElement_to_lm (hd : r.target.space = 0) (hb : r.entry.mMode = false ∧ r.entry.base ≤ r.target.base + r.targetOff ∧
    r.target.base + r.targetOff + recEb r.record ≤ r.entry.base + r.entry.lim) (later : List Nat) :
    ∃ t, s.copyElement k r false later = .done t ∧
      (∀ j < recEb r.record, Memory.read t.mem (lmAddr (s.coreOf k) (r.target.base + r.targetOff + j)) =
        Memory.read s.mem (lmAddr (s.coreOf k) (r.source.base + r.sourceOff + j))) ∧
      ∀ x, x < lmAddr (s.coreOf k) (r.target.base + r.targetOff) ∨ lmAddr (s.coreOf k) (r.target.base + r.targetOff) + recEb r.record ≤ x →
        Memory.read t.mem x = Memory.read s.mem x := by
  have hread := hasRead_lm (s := s) (k := k) hfirst hs ha
  generalize hbytes : (List.range (recEb r.record)).map (fun j => Memory.read s.mem (lmAddr (s.coreOf k) (r.source.base + r.sourceOff + j))) = bs
    at hread
  have hlen : bs.length = recEb r.record := by rw [← hbytes]; simp
  have hmem := s.mem_landFull (span (lmAddr (s.coreOf k) (r.target.base + r.targetOff)) (recEb r.record)) bs (r.fullBits later)
  rw [← hlen, writeAt_span] at hmem
  refine ⟨_, (copyElement_of_hasRead hread false later).trans (writeElement_of_here (act := false) (.inl ⟨hd, .inr hb, rfl, rfl⟩)), fun j hj => ?_,
    fun x hx => ?_⟩
  · have hj' : j < bs.length := hlen ▸ hj
    rw [← hlen, hmem, Memory.read_setBytes, if_pos (by simp only [lmAddr]; omega), List.getD_eq_getElem _ _ (by simp only [lmAddr]; omega)]
    simp only [← hbytes, List.getElem_map, List.getElem_range, lmAddr]
    exact congrArg (Memory.read s.mem) (by omega)
  · rw [← hlen, hmem, Memory.read_setBytes, if_neg (by omega)]

end

theorem ptrOff_ptr (l : Layout) (o x sp : Nat) : ptrOff (l.ptr o x sp) = (l.base % 2 ^ 24 + o) % 2 ^ 24 := by
  rw [bits_ptrOff, Layout.ptr, BitVec.toNat_ofNat]
  omega

/-! The statement. -/

theorem State.isOf_copyEntry (s : State) (i : Instr) (w : Word) (ix : Nat) : (s.copyEntry i w ix).IsOf s i := ⟨rfl, rfl, rfl, rfl, rfl, beq_iff_eq⟩

theorem State.isOf_wenqEntry (s : State) (i : Instr) (w : Word) (bt ix : Nat) : (s.wenqEntry i w bt ix).IsOf s i :=
  ⟨rfl, rfl, rfl, rfl, rfl, beq_iff_eq⟩

theorem bits_31_24_lt (w : Word) : bits w 31 24 < 256 := bits_lt w 31 24

section
variable {s : State} {mc n : Bool} {rd rs1 : XReg} {h : Handle} (hb : FMap.get? s.myVc.binds 2 = some s.ix)
include hb

/-- A copy whose acceptance is a fault traps. -/
theorem trapped_copy {c : Nat} {tv tv' : Word} (hacc : s.acceptCopy (copyInstr mc n rd rs1 h) mc rs1 h = .fault c tv) (htv : tv = tv') :
    ∃ t, exec (copyInstr mc n rd rs1 h) s = .next t ∧ Trapped s t (BitVec.ofNat 64 c) tv' s.me.pc :=
  trapped_present (exec_copyInstr s mc n rd rs1 h) (State.engineFate_bound (fOnly_copyInstr ..) (engineOf_copyInstr ..) hb) hacc htv

end

/-- Settles O38: acceptance by acceptCopy_of_… and acceptWenq_of_…, elements by copyElements, their homes by copyHomes. -/
theorem copies : Obligations.Copies := by
  refine ⟨copyElements, copyHomes, ?_⟩
  intro s n mc rd rs1 h bt ix q r w grp dst k v i trap illegal rec_
  have wenqBound (hb : FMap.get? s.myVc.binds 3 = some s.ix) : s.engineFate (.wenq n h rs1 bt) = .present :=
    State.engineFate_bound rfl rfl hb
  refine ⟨fun hfree hs hsize hrz hgrp hto => ?copy, fun hb hs => trapped_copy hb (acceptCopy_of_none hs) rfl, fun hb hs => ⟨?size, ?reserved, ?group⟩,
    fun hb => trapped_unbound (exec_copyInstr s mc n rd rs1 h) (fOnly_copyInstr ..) (engineOf_copyInstr ..) hb,
    fun hb => trapped_unbound rfl rfl rfl hb, fun hb hs => trapped_present rfl (wenqBound hb) (acceptWenq_of_none hs) rfl,
    fun hb hs hbad => trapped_present rfl (wenqBound hb) (acceptWenq_of_reserved hs hbad) rfl, fun hfree hs hrz hm => ?wenq, ?start, ?elements,
    fun count pos hcan hdone hf => ⟨_, exec_copyComplete hcan hdone hf, run_acked_endRun _ k q⟩, ?fault⟩
  case copy =>
    obtain ⟨t, ht, hq⟩ := queued_takenAccess (exec_copyInstr s mc n rd rs1 h)
      (State.engineFate_bound (fOnly_copyInstr ..) (engineOf_copyInstr ..) hfree.1) (acceptCopy_of_ok hs hsize hrz hfree hgrp hto)
      (s.isOf_copyEntry ..) (p := fun e => e.ra = some ix ∧ e.na = 1 ∧ e.op = w ∧ e.id = s.nextId + 1)
      (fun _ => ⟨rfl, rfl, rfl, rfl⟩)
    exact ⟨t, _, ht, rfl, rfl, hq⟩
  case size => exact fun hn => trapped_copy hb (acceptCopy_of_size hs hn) rfl
  case reserved => exact fun hsize hbad => trapped_copy hb (acceptCopy_of_reserved hs hsize hbad) rfl
  case group =>
    refine fun hsize hrz hm => ⟨fun hg => trapped_copy hb (acceptCopy_of_group hs hsize hrz hm hg) ?_,
      fun hg hd => trapped_copy hb (acceptCopy_of_far hs hsize hrz hm hg hd) rfl⟩
    exact (rp3_of_lt (bits_31_24_lt w) 0).trans (congrArg (BitVec.ofNat 64) (by omega))
  case wenq =>
    obtain ⟨t, ht, hq⟩ := queued_takenAccess (i := .wenq n h rs1 bt) rfl (wenqBound hfree.1) (acceptWenq_of_ok hs hfree hrz hm)
      (s.isOf_wenqEntry ..) (p := fun e => e.ra = some ix ∧ e.op = w ∧ e.id = s.nextId + 1)
      (fun _ => ⟨rfl, rfl, rfl⟩)
    exact ⟨t, _, ht, rfl, rfl, rfl, hq⟩
  case start =>
    intro rest hcan hrun hq hf
    refine ⟨fun hr hsrc hdst => ?_, fun hr => ?_⟩
    · obtain ⟨hfault, hrec⟩ := copyBegin_of_wellFormed (rd := rd) hr hsrc hdst
      refine ⟨_, s.copyBegin k q rd, exec_copyEngineStart_taken hcan hrun hq hf hfault, ?_, ?_, copyBegin_entry, hfault, hrec, rfl, rfl⟩
      · rw [State.vc_copyTaken]
        exact (FMap.getD_set_self ..).trans (congrArg List.tail hq)
      · rw [State.vc_copyTaken]
        exact (FMap.get?_set ..).trans (if_pos rfl)
    · have hfault := copyBegin_of_malformed (rd := rd) hr
      refine ⟨_, s.copyBegin k q rd, exec_copyEngineStart_stopped hcan hrun hq hf hfault, ?_, copyBegin_entry, hfault, fun e he => ?_, rfl⟩
      · have hvc (u : State) : ((u.copyProgress k q rd (s.copyBegin k q rd).pos (s.copyBegin k q rd).total).updVc k VCore.copiesCancelled).vc k =
            (u.vc k).copiesCancelled := State.vc_updVc_self ..
        rw [hvc, State.vc_copyTaken]
        exact (FMap.get?_set ..).trans (if_pos rfl)
      · rw [State.vc_updVc_self] at he
        exact VCore.cancelled_of_mem he
  case elements =>
    refine ⟨fun hfirst hs hd hown hr ha later => ?_, fun hfirst hs hd ha hb later => copyElement_to_lm hfirst hs ha hd hb later⟩
    refine ⟨_, s.nextId + 1, r.fullBits later, _, copyElement_to_vc hfirst hs ha hd hown hr later, ptrOff_ptr .., rfl, rfl, rfl, rfl⟩
  case fault =>
    intro st det hcan hrun hfault hf
    obtain ⟨cyc, hx⟩ := exec_copyFault hcan hrun hfault hf
    generalize hu : s.copyReported k r (copyRecord r.entry mc st r.count r.pos) = u at hx
    refine ⟨_, hx, (run_acked_endRun _ k r.entry).1, fun sk ss m he hm => ?_, fun j h3 hj => ?_⟩
    · obtain ⟨more, hmore⟩ := (State.aftermath_acked ((u.copyFlagged k st det cyc).endRun k 2 r.entry) k r.entry.id 0 false).net
      refine ⟨more, ?_⟩
      rw [hmore, State.net_endRun, State.net_copyFlagged, ← hu, State.net_copyReported he hm, copyRecord_fst]
      exact List.append_assoc ..
    · have hbinds : FMap.get? (u.vc k).binds 2 = some j := by rw [← hu, State.binds_copyReported]; exact hj
      rw [((State.aftermath_acked ((u.copyFlagged k st det cyc).endRun k 2 r.entry) k r.entry.id 0 false).slots _).p30, State.p30_endRun, h3]
      exact State.p30_copyFlagged hbinds det cyc

end Sys2Proof.Machine
end
